-- ==== Sys2Proof/Word.lean ====
section
/-! DEFINITION. The word types of the module: 32-bit register and value words, bytes. -/

namespace Sys2Proof

/-- A 32-bit register, or the value field of a signal word (R11). -/
abbrev Word := BitVec 32

/-- One byte of a frame, a record or memory. -/
abbrev Byte := BitVec 8

end Sys2Proof
end

