-- ==== Sys2Proof/Syntax.lean ====
section
/-! DEFINITION. The commands of the block: one constructor of `Instr` per row of the table of operations and events.
An operand is what the happening brings from outside the module: the port a request came through, the cell it concerns, a value
measured at a terminal, the bytes of a received frame. Numbered cells are given by their number in the kind (R17). -/

namespace Sys2Proof

/-- The ports of management, in the order in which arrivals of one instant are taken (R471). -/
inductive Port where
  | service | chainUp | chainDown | na | nb
  deriving DecidableEq, Repr

/-- Reset sources, with the codes of PWR.RST:CAUSE (R430). -/
inductive ResetCause where
  | por | pfret | cmd | pll | aon
  deriving DecidableEq, Repr

/-- How the granule writes of one journal operation came out (R388): those that failed verification, and the logical blocks in which one failed twice. -/
structure NvOutcome where
  fails : Nat
  worn : List Nat
  deriving DecidableEq, Repr, Inhabited

/-- A key slot, and how the journal writes that change it came out (R39, R388). -/
structure KeySlotWrite where
  slot : Fin 4
  o : NvOutcome
  deriving DecidableEq, Repr

/-- Every write verified. -/
def NvOutcome.clean : NvOutcome := ⟨0, []⟩

/-- What the start-up self-tests found (R432). -/
structure SelfTest where
  /-- tests 1, 2, 3, 4 and 8 that failed by their row of the table -/
  failed : List Nat
  /-- lowest failing part of the start-up Tocsin test, 0 for none (R503) -/
  tocsinSub : Nat
  /-- injections of each pair that were not flagged (R194) -/
  missed : List Nat
  /-- the bank reached 46.0 V within 250 ms (test 7) -/
  bankReached : Bool
  /-- measured capacitance in µF (test 7) -/
  capUF : BitVec 16
  /-- channels whose converter or reference check failed -/
  cnvFail : BitVec 32
  /-- PWR.STFAIL:DETAIL of a failing test 1, 2 or 4 -/
  detail : BitVec 16
  /-- channels whose factory calibration read poisoned in both copies (R385) -/
  fcalBad : BitVec 32
  /-- DRAM granules outside the reserved 64 MiB that test 2 found uncorrectable, numbered from the start of the DRAM -/
  dramBad : List Nat
  /-- the applying of what the journal still held (R386) -/
  replay : NvOutcome
  deriving DecidableEq, Repr

/-- Safety causes, with the codes of TB.CAUSE (R189). -/
inductive Cause where
  | mismatch | clapperFault | delayFault | dormantCp0 | tstFail | safeIn
  deriving DecidableEq, Repr

/-- What the sampling of one phasor group gives for one result set (R146, R147): measured quantities of the inputs at the channels. -/
structure PhasorMeas where
  /-- the 16 sample instants since the result set before, oldest first: the samples of inputs 0–7 in channel volts; `none` where one is missing or poisoned
  (R145, R146, R153) -/
  samples : List (List (Option Word))
  deriving DecidableEq, Repr

/-- What a HART device answered (R219). -/
structure HartReply where
  /-- primary to quaternary variables carried by the reply, `none` where it carries none -/
  vars : List (Option Word)
  malfunction : Bool
  pvOutOfLimits : Bool
  nonPvOutOfLimits : Bool
  /-- a burst message of Command 3 or 9, not the answer to a poll -/
  burst : Bool
  /-- attempts before it that a frame with a framing, parity or checksum error answered -/
  badFrames : BitVec 2
  deriving DecidableEq, Repr

/-- How the attempts of a pass-through went (R221): whether the device answered, and how many frames came with an error before. -/
structure HartFrames where
  answered : Bool
  bad : BitVec 2
  deriving DecidableEq, Repr

/-- A CAN frame as the controller sees it on the bus (R353). -/
structure CanFrame where
  id : BitVec 29
  ide : Bool
  fdf : Bool
  brs : Bool
  esi : Bool
  dlc : BitVec 4
  data : List Byte
  deriving DecidableEq, Repr

/-- A chain frame after flit reassembly: the header of R277 and the payload bytes. -/
structure ChainFrame where
  dst : BitVec 8
  src : BitVec 8
  ty : BitVec 8
  hops : BitVec 8
  len : Nat
  valid : BitVec 16
  stroke : BitVec 64
  timeS : BitVec 48
  timeNs : BitVec 32
  /-- bytes 26–31 -/
  tspec : List Byte
  /-- payload granules after the first flit, 32 bytes each -/
  payload : List (List Byte)
  /-- virtual channel the frame travelled on -/
  vc : Fin 4
  /-- flits received -/
  flits : Nat
  /-- flits of the frame dropped for bad HCRC (R278) -/
  badFlits : Nat
  /-- flits, by their index in the frame, whose word the word code corrected (R279) -/
  corrected : List Nat
  /-- flits, by their index in the frame, that carry an uncorrectable or poisoned word -/
  poisoned : List Nat
  deriving DecidableEq, Repr

/-- The two chain ports. -/
inductive ChainPort where
  | up | down
  deriving DecidableEq, Repr

/-- The loss of a link: its port, and the frames whose reception it cuts short, with the flits that have arrived (R279). -/
structure LinkLoss where
  port : ChainPort
  cut : List ChainFrame
  deriving DecidableEq, Repr

/-- What an alignment flit carries, the freed count of each channel, and the credits of each that idle and alignment flits have brought since the frame
before (R275, R276). -/
structure FlitCounts where
  freed : List (BitVec 16)
  returned : List Nat
  deriving DecidableEq, Repr

/-- The two network paths. -/
inductive Path where
  | a | b
  deriving DecidableEq, Repr

/-- A Sahvos frame as accepted by the MAC (R316): header fields and payload. -/
structure Sahvos where
  ver : BitVec 8
  kind : BitVec 8
  flags : BitVec 8
  addr : BitVec 8
  station : BitVec 32
  stroke : BitVec 64
  timeS : BitVec 48
  timeNs : BitVec 32
  units : BitVec 16
  part : BitVec 8
  nparts : BitVec 8
  count : BitVec 16
  /-- CYCLIC: entries (SIGID, signal word); SAFETY: none -/
  entries : List (BitVec 32 × BitVec 64)
  /-- SAFETY: the 16-byte PDUs -/
  pdus : List (BitVec 128)
  deriving DecidableEq, Repr

/-- A frame as a path's MAC received it (R330): whether its FCS is right, its length with tag and FCS, its destination, and its VLAN identifier, if tagged. -/
structure MacHead where
  fcsOk : Bool
  length : Nat
  dst : BitVec 48
  vid : Option (BitVec 12)
  deriving DecidableEq, Repr

/-- A frame received on a path (R330). -/
structure NetRx where
  path : Path
  head : MacHead
  deriving DecidableEq, Repr

/-- A frame that no row of the table is about: its EtherType, and the Sahvos frame that it is, if any (R330). -/
structure OtherFrame where
  etherType : BitVec 16
  sahvos : Option Sahvos
  deriving DecidableEq, Repr

/-- One operation of a management request (R465). -/
structure MgmtOp where
  addr : BitVec 32
  count : BitVec 8
  op : BitVec 8
  reserved : BitVec 16
  data : List Word
  deriving DecidableEq, Repr

/-- Who sent a management request, and so where its response goes (R462). -/
inductive Requester where
  /-- the service port -/
  | usb
  /-- an MREQ frame: the path of arrival and the source MAC address -/
  | mac (path : Path) (mac : BitVec 48)
  /-- a datagram: the path of arrival, the source IP address and UDP port, and the source MAC address -/
  | udp (path : Path) (ip : BitVec 32) (udpPort : BitVec 16) (mac : BitVec 48)
  /-- a MGMT frame: the port of arrival and SRC -/
  | chain (port : ChainPort) (src : BitVec 8)
  deriving DecidableEq, Repr

/-- A management request: who sent it, the length its transport states, and its bytes (R464, R465). -/
structure MgmtReq where
  requester : Requester
  declared : Nat
  bytes : List Byte
  deriving DecidableEq, Repr

/-- How a request reaches the module, but for MREQ frames and datagrams (R462, R463). -/
inductive MgmtArrival where
  /-- a transfer of the service port: its Sahvos header and the bytes after it -/
  | usb (h : Sahvos) (bytes : List Byte)
  /-- a frame delivered from a chain port -/
  | chain (port : ChainPort) (f : ChainFrame)
  deriving DecidableEq, Repr

/-- An MREQ frame, or the datagram that carries the same: source MAC address, Sahvos header, and the bytes after it (R316, R317). -/
structure MreqFrame where
  mac : BitVec 48
  head : Sahvos
  bytes : List Byte
  deriving DecidableEq, Repr

/-- What the header of a PTP message says of it (R341): clockIdentity of the sending port, domainNumber, sequenceId, and logMessageInterval in two's
complement. -/
structure PtpHead where
  sender : BitVec 64
  domain : BitVec 8
  seq : BitVec 16
  logInterval : BitVec 8
  deriving DecidableEq, Repr

/-- The timestamp of a PTP message in seconds and nanoseconds, and its correctionField in units of 2^−16 ns (R337). -/
structure PtpBody where
  sec : BitVec 48
  ns : BitVec 32
  correction : BitVec 64
  deriving DecidableEq, Repr

/-- What a Delay_Resp answers (R337): the port identity of the request, and receiveTimestamp. -/
structure DelayAnswer where
  requester : BitVec 80
  body : PtpBody
  deriving DecidableEq, Repr

/-- The grandmaster of an Announce (R341, R343). -/
structure Grandmaster where
  id : BitVec 64
  priority1 : BitVec 8
  clockClass : BitVec 8
  accuracy : BitVec 8
  variance : BitVec 16
  priority2 : BitVec 8
  deriving DecidableEq, Repr

/-- The UTC offset of an Announce and the flags beside it (R352). -/
structure UtcInfo where
  offset : BitVec 16
  valid : Bool
  ptpTimescale : Bool
  deriving DecidableEq, Repr

/-- An Announce as the slave port received it (R341, R352). -/
structure Announce where
  head : PtpHead
  gm : Grandmaster
  steps : BitVec 16
  utc : UtcInfo
  deriving DecidableEq, Repr

/-- Where a PTP message was received: on a path, or on the chain from an address. -/
inductive PtpFrom where
  | path (p : Path) (h : MacHead)
  | chain (src : BitVec 8)
  deriving DecidableEq, Repr

/-- A clock that left or met tolerance (R429). -/
inductive ClockId where
  | rootPll | divided (region : Fin 5) | refNa | refNb | refCh
  deriving DecidableEq, Repr

/-- Field supply conditions (R235). -/
inductive FsCond where
  | high | low | shed | missing
  deriving DecidableEq, Repr

/-- Motor supply conditions (R261). -/
inductive MsCond where
  | under | over
  deriving DecidableEq, Repr

/-- Isolating wiring faults of an output (R239). -/
inductive Wiring where
  | shortFs | parallel | overload
  deriving DecidableEq, Repr

/-- Supervision faults of a point (R240). -/
inductive Supervision where
  | open_ | wbreak
  deriving DecidableEq, Repr

/-- The filtered inputs of an axis (R253). -/
inductive AxisInput where
  | limP | limN | home
  deriving DecidableEq, Repr

/-- What was measured of a chopper cycle of a phase (R251): the peak in mA, the off-time in µs, and the current in mA at which the decay ended, signed. -/
structure ChopCycle where
  peak : BitVec 16
  offTime : BitVec 16
  valley : BitVec 16
  deriving DecidableEq, Repr

/-- Isolating faults of an axis other than limit chatter (R262); an open phase is A or B. -/
inductive AxisFaultKind where
  | phaseShort | openPhase (phaseB : Bool)
  /-- the bridge is above its temperature limit, or no more -/
  | overTemp (present : Bool)
  deriving DecidableEq, Repr

/-- A word as it is read (R377): the bits of the 276 that differ from what its address and its content encode, and whether a region port found it, after
the memory controller had passed it on (R382). -/
structure WordRead where
  port : Bool
  flips : BitVec 276
  deriving DecidableEq, Repr

/-- A block error (R94): the cells whose work it concerns; and where an uncorrectable word is the error, the SRAM granule and what was read of it (R378). -/
structure BlockFault where
  affected : List Nat
  word : Option (Nat × WordRead)
  deriving DecidableEq, Repr

/-- A ring of a queue pair (R306). -/
structure RingId where
  qp : Fin 32
  rx : Bool
  deriving DecidableEq, Repr

/-- Memories that the scrubber walks (R383). -/
inductive MemKind where
  | dram | sram | journal
  deriving DecidableEq, Repr

/-- What fails at the supply of a channel: over-temperature, else the isolated converter; and whether it is there (R214). -/
structure SupplyFault where
  overTemp : Bool
  present : Bool
  deriving DecidableEq, Repr

/-- What a digital block measures at its points: terminals above 50 % of the supply, and drivers above their temperature limit (R235, R239). -/
structure PointLevels where
  terms : BitVec 8
  hot : BitVec 8
  deriving DecidableEq, Repr

/-- An encoder error of one axis, or an overload of ENC_5V of a motion block (R259, R492). -/
inductive EncoderFault where
  | axis (ax : Fin 4)
  | supply (mb : Fin 2)
  deriving DecidableEq, Repr

/-- A Delay_Req from the chain: SRC of its frame, and sequenceId, sourcePortIdentity and correctionField of the message (R344). -/
structure DelayReq where
  src : BitVec 8
  seq : BitVec 16
  requester : BitVec 80
  correction : BitVec 64
  deriving DecidableEq, Repr

/-- Result of a transmission attempt that did not complete (R361, R364). -/
inductive CanFail where
  | arbitration | ack | stuff | form | bit1 | bit0 | crc
  deriving DecidableEq, Repr

/-- How far a transmitted frame has come: its arbitration field, the bits before the FDF-to-res edge, or the rest (R356, R358). -/
inductive TxPhase where
  | arbitration | control | after
  deriving DecidableEq, Repr

/-- Where a transmission failed, and how many times errors of the flag itself raise the counter by 8 again (R358). -/
structure TxErrorAt where
  phase : TxPhase
  more : BitVec 5
  deriving DecidableEq, Repr

/-- The supply in mV and the bank voltage in 10 mV at a power failure (R436). -/
structure PfVolts where
  sup : BitVec 16
  vbank : BitVec 16
  deriving DecidableEq, Repr

/-- What the legacy alarm queue is notified of (R455), and the overflow entry (R456). -/
inductive AlarmKind where
  | input | limit | mode | module | trip | pair | overflow
  deriving DecidableEq, Repr, Inhabited

/-- Transceivers by their identification (R313); `dac` is a direct-attach cable of at most 7 m. -/
inductive SfpCode where
  | sr | lr | dac | sx | lx | copper100 | other
  deriving DecidableEq, Repr

/-- What is read from an SFP: its code and whether it declares a power level above 1.5 W (R314, R493), or TX_FAULT or no readable identification. -/
inductive SfpId where
  | code (c : SfpCode) (highPower : Bool)
  | faulty
  deriving DecidableEq, Repr

/-- One happening or command: a row of opcode_table.json. -/
inductive Instr where
  -- start-up and enumeration
  | resetSource (causes : List ResetCause)
  | railsGoodPllLocked
  | selftestComplete (r : SelfTest)
  | enumWindowClose
  | chimeHeadStart
  | chimeToken (port : ChainPort) (v : BitVec 8)
  | chimeEnd (v : BitVec 8)
  | chimeClash
  | chimeReq
  | bootBankRead (bad0 bad1 : List Nat) (corrected : BitVec 16)
  -- module commands
  | modCmdNop (p : Port)
  | modCmdRun (p : Port)
  | autostart
  | modCmdStop (p : Port)
  | modCmdService (p : Port)
  | modCmdServiceExit (p : Port)
  | modCmdRelease (p : Port)
  | modCmdRestart (p : Port)
  -- safety and lockstep
  | safetyRelevantFault (c : Cause) (pair : Fin 4) (sub : BitVec 4)
  | lockstepOutputMismatch (pair : Fin 4)
  | clapperFault (pair : Fin 4)
  | delayFault (pair : Fin 4)
  | safeInNTransition (high : Bool)
  | safeInHardwireTimeout
  | backgroundCompare (diverged : BitVec 4) (executing : Bool)
  | resyncRelease (pair : Fin 4) (timeUs : Nat)
  | debugAttach (p : Port) (pair : Fin 4)
  | debugDetach (p : Port) (pair : Fin 4)
  | debugNop (p : Port) (pair : Fin 4)
  -- station image
  | imgOpen (p : Port) (bank : Bool)
  | openComplete
  | recordUnit (p : Port) (unit : BitVec 288)
  | imgValidate (p : Port) (bank : Bool)
  | validateComplete
  | imgSave (p : Port) (bank : Bool)
  | saveComplete (blocks : List Nat) (o : NvOutcome)
  | imgCommit (p : Port) (bank : Bool) (atStroke : Bool)
  | preparationComplete
  | bootBankUpdate
  | imgAbort (p : Port)
  | imgNop (p : Port)
  | keyInstall (p : Port) (w : KeySlotWrite) (key : BitVec 256)
  | keyRevoke (p : Port) (w : KeySlotWrite)
  | keyNop (p : Port)
  -- strokes, cells and blocks
  | strokeBoundary (snareFault : Bool)
  | evaluationWindowOpen
  | evaluationWindowClose (unfinished : List Nat)
  | blockError (block : Nat × Nat) (e : BlockFault)
  | regionFault (region : Fin 5)
  | blockRecover (region block : Nat)
  | blockReintegrate (p : Port) (region block : Nat)
  | faultRetry (cell : Nat)
  | recoverComplete (cell : Nat)
  | cellClear (p : Port) (cell : Nat)
  | cellTestEnter (p : Port) (cell : Nat)
  | cellTestLeave (p : Port) (cell : Nat)
  | forceWrite (p : Port) (cell : Nat) (mode : BitVec 2) (port : BitVec 4) (value : Word)
  | functionParameterWrite (p : Port) (fc : Fin 4096) (vals : List (Fin 4 × Word))
  -- loops
  | oscillationDetect (lp : Fin 512)
  | detuneRelax (lp : Fin 512)
  | loopModeRequest (p : Port) (lp : Fin 512) (req : BitVec 2)
  | loopStagedWrite (p : Port) (lp : Fin 512) (writes : List (Nat × Word))
  | gainSelect (p : Port) (lp : Fin 512) (gsel : BitVec 3)
  | detuneReset (p : Port) (lp : Fin 512)
  -- phasor engine
  | resultSet (g : Fin 4) (m : PhasorMeas)
  | syncArm (g : Fin 4)
  | permitRise (g : Fin 4)
  | permitFall (g : Fin 4)
  | syncBlock (p : Port) (g : Fin 4)
  | phasorEventPickup (g : Fin 4) (e : Fin 5)
  | phasorInvalidTimeout (g : Fin 4)
  -- Tocsin
  | tocsinScan (evalNs : BitVec 16) (missed : Bool) (columnOk railsOk : Bool)
  | scanWatchdogExpiry
  | matrixCrcCheck (ok : Bool)
  | safetyPduReceive (pdu : BitVec 128)
  | safetyConnectionTimeout (connId : BitVec 32)
  | safetyPduSend (txConn : Fin 8)
  | tripReset (p : Port) (o : Fin 128)
  | bypass (p : Port) (seconds : BitVec 16)
  | bypassExpiry (input : Fin 256)
  | causeAck (p : Port)
  | retest (p : Port)
  | retestComplete (failSub : Nat)
  -- universal channels
  | converterResult (uc : Fin 32) (e aux cj : Word) (openLead atLimit : Bool)
  | burnOutTest (uc : Fin 32) (isOpen : Bool)
  | referenceSelfCheck (uc : Fin 32) (ok : Bool)
  | complianceSample (uc : Fin 32) (hdrLow : Bool) (readback : Word)
  | complianceEntry (uc : Fin 32)
  | complianceExit (uc : Fin 32)
  | outputOpenLoop (uc : Fin 32)
  | outputStageFault (uc : Fin 32)
  | channelSupplyFailure (uc : Fin 32) (f : SupplyFault)
  | hartPoll (uc : Fin 32) (dev : Fin 4)
  | hartReply (uc : Fin 32) (dev : Fin 4) (r : HartReply)
  | hartNoReply (uc : Fin 32) (dev : Fin 4) (badFrames : BitVec 2)
  | hartRequest (p : Port) (uc : Fin 32) (req : Word) (data : List (Fin 8 × Word))
  | hartPassThroughComplete (uc : Fin 32) (frames : HartFrames) (rc dstat : Byte) (data : List Byte)
  | trimCaplo (p : Port) (uc : Fin 32)
  | trimCaphi (p : Port) (uc : Fin 32)
  | trimApply (p : Port) (uc : Fin 32) (o : NvOutcome)
  | trimClear (p : Port) (uc : Fin 32) (o : NvOutcome)
  | trimDiscard (p : Port) (uc : Fin 32)
  | trimNop (p : Port) (uc : Fin 32)
  -- digital points
  | inputFilterSettle (dp : Fin 32) (on : Bool)
  | fieldSupplySample (db : Fin 4) (volts : Word) (levels : PointLevels) (amps : List Word)
  | fieldSupplyConditionSet (db : Fin 4) (c : FsCond)
  | fieldSupplyConditionClear (db : Fin 4) (c : FsCond)
  | shedRestore (db : Fin 4)
  | rearm (p : Port) (dp : Fin 32)
  | cellWatchdogExpiry (dp : Fin 32)
  | blockLinkLoss (region block : Nat)
  | wiringFault (dp : Fin 32) (w : Wiring) (other : Fin 32)
  | supervisionFaultSet (dp : Fin 32) (f : Supervision)
  | supervisionFaultClear (dp : Fin 32) (f : Supervision)
  -- axes
  | profileUpdate (ax : Fin 4) (enc : Word)
  | axisRateWrite (p : Port) (ax : Fin 4) (writes : List (Nat × Word))
  | holdCurrent (ax : Fin 4)
  | limitInputChange (ax : Fin 4) (i : AxisInput) (on : Bool) (withinLwin : Bool) (thirdInLwin : Bool)
  | limitChatterClear (ax : Fin 4) (i : AxisInput)
  | homingGo (p : Port) (ax : Fin 4)
  | homingAbort (p : Port) (ax : Fin 4)
  | homingSwitchFound (ax : Fin 4)
  | homingRestEnd (ax : Fin 4)
  | homingReferenceEdge (ax : Fin 4)
  | homingTimeout (ax : Fin 4)
  | homingNoIndex (ax : Fin 4)
  | encoderError (e : EncoderFault)
  | stall (ax : Fin 4)
  | stallClear (ax : Fin 4)
  | chopsat (ax : Fin 4) (cycles : Option ChopCycle × Option ChopCycle) (held : Bool × Bool)
  | motorSupplyConditionSet (mb : Fin 2) (c : MsCond) (volts : Word)
  | motorSupplyConditionClear (mb : Fin 2) (c : MsCond) (volts : Word)
  | axisFault (ax : Fin 4) (k : AxisFaultKind)
  -- station chain
  | chainLinkTrained (port : ChainPort)
  | chainLinkLoss (loss : LinkLoss)
  | alignmentFlit (port : ChainPort) (flits : FlitCounts)
  | chainFrameReceive (port : ChainPort) (f : ChainFrame) (returned : List Nat)
  | frameForward (port : ChainPort)
  | piFrame (f : ChainFrame)
  | chainSafetyFrame (f : ChainFrame)
  | peerTimeout (pc : Fin 64)
  | bulkFrame (f : ChainFrame)
  | bulknak (f : ChainFrame)
  | receiveMessageTimeout (qp : Fin 32)
  -- queue pairs
  | descriptorPost (p : Port) (qp : Fin 32) (rx : Bool) (tail : BitVec 12)
  | ringTxen (p : Port) (qp : Fin 32)
  | ringTxdis (p : Port) (qp : Fin 32)
  | ringRxen (p : Port) (qp : Fin 32)
  | ringRxdis (p : Port) (qp : Fin 32)
  | txresume (p : Port) (qp : Fin 32)
  | rxresume (p : Port) (qp : Fin 32)
  | descriptorStart
  | descriptorComplete (qp : Fin 32)
  /-- `word`: what the access met, where its translation holds (R305, R306) -/
  | midTransferFault (ring : RingId) (granule : Nat) (word : WordRead)
  | descriptorAccessFault (qp : Fin 32) (rx : Bool) (writeback : Bool) (word : WordRead)
  | iommuInvalidate (p : Port) (domain : BitVec 4) (all : Bool)
  -- network paths
  | sfpInsert (path : Path) (id : SfpId)
  | sfpDiagnostics (path : Path) (flags : BitVec 16)
  | networkLinkChange (path : Path) (up : Bool) (held100ms : Bool)
  | cyclicFrame (rx : NetRx) (f : Sahvos)
  | networkSafetyFrame (rx : NetRx) (f : Sahvos)
  | safetyFrameSend
  | lastgaspReceive (rx : NetRx) (f : Sahvos)
  | mreq (rx : NetRx) (datagram : Option (BitVec 32 × BitVec 32 × BitVec 16)) (r : MreqFrame)
  | arpRequest (rx : NetRx) (ip : BitVec 32) (requesterMac : BitVec 48)
  | icmpEcho (rx : NetRx) (ip : BitVec 32) (requesterIp : BitVec 32)
  | switchoverTrigger (path : Path)
  | callFollow (path : Path)
  | callEnd (path : Path)
  | islandFault (path : Path)
  | switch (p : Port) (path : Path)
  | storedRegisterWrite (p : Port) (addr : BitVec 32) (value : Word) (o : NvOutcome)
  -- time base
  | syncMessage (at_ : PtpFrom) (head : PtpHead) (followUp twoStep : Bool) (body : PtpBody)
  | delayReqSend
  | delayResp (at_ : PtpFrom) (head : PtpHead) (r : DelayAnswer)
  | announce (at_ : PtpFrom) (head : PtpHead) (gm : Grandmaster) (steps : BitVec 16) (utc : UtcInfo)
  | holdoverTimeout
  /-- `drift`: by how many ns each region's follower has moved against the master counter since the compare before -/
  | followerCompare (drift : List (BitVec 16))
  | chainSyncSend
  | chainAnnounceSend
  | chainDelayReq (r : DelayReq)
  | tmSet (p : Port) (ns : Word) (slo : Word) (shi : Word)
  -- CAN
  | canIntegration (c : Fin 2)
  /-- `tx`, `rx`: times that dominant bits after a flag have raised TEC and REC by 8 (R358) -/
  | canErrorStateChange (c : Fin 2) (tx rx : BitVec 5)
  | busOffRecovery (c : Fin 2)
  | canRecover (p : Port) (c : Fin 2)
  | canFrameReceive (c : Fin 2) (f : CanFrame)
  | remoteFrame (c : Fin 2)
  | canFrameStart (c : Fin 2)
  | canTxDone (c : Fin 2)
  | canTxError (c : Fin 2) (e : CanFail) (at_ : TxErrorAt)
  | txRequest (p : Port) (c : Fin 2)
  | txCancel (p : Port) (c : Fin 2)
  | mailboxRead (p : Port) (m : Fin 32) (during : List CanFrame)
  | mailboxTimeout (m : Fin 32)
  | transceiverSupplyFault (c : Fin 2)
  -- memory and journal
  | scrubStep (m : MemKind) (granule : Nat) (flips : BitVec 276)
  | journalTransactionCommit (homes : List Nat) (fails : Nat) (worn : List Nat)
  | journalApply (granules : Nat) (o : NvOutcome)
  | blockRetirement (logical : Nat)
  | wearLevelExchange (hi lo : Nat)
  -- recorder
  | occurrenceTake
  | summaryWrite (o : NvOutcome)
  | intervalEnd (o : NvOutcome)
  | recFreeze (p : Port)
  | recUnfreeze (p : Port)
  | recClear (p : Port) (o : NvOutcome)
  | freezeTimeout
  -- panel
  | panelFrame
  | panelTemperature (temp : Word)
  | updateRequest (p : Port) (byRenderer : Bool)
  | frameBufferWrite (p : Port) (granule : Word) (data : List Word)
  | pageRender (slot : Fin 8)
  | pageStale
  | initUpdateComplete
  -- power and clocks
  | clockFault (c : ClockId)
  | hutest (p : Port)
  | bankMeasurementComplete (uf : BitVec 16)
  | hulowTimeout
  | powerFail (volts : PfVolts) (checks : List (BitVec 16)) (stop : Fin 6) (o : NvOutcome)
  | bankExhausted (below12 : Bool) (durUs emj vend : BitVec 16)
  | powerFailSequenceEnd (durUs emj vend : BitVec 16) (supPresent : Bool)
  | supPresent
  -- Tabor mode
  | readRegisters (requester : Nat) (addr : BitVec 16) (n : Nat)
  | writeRegisters (requester : Nat) (writes : List (BitVec 16 × BitVec 16))
  | pairDiscard (addr : BitVec 16)
  | unsupportedMessage (ty : Byte)
  | alarmQueueAccept (event : AlarmKind) (source newState : BitVec 16)
  | alarmQueueRead
  | alarmAcknowledge (seq : BitVec 16)
  | timeSet (ms : BitVec 48)
  | modeNextWrite (p : Port) (next : Bool) (o : NvOutcome)
  -- management
  | managementRequest (a : MgmtArrival)
  | readTransaction
  | writeTransaction
  | heldWriteDecision (index : Nat) (o : NvOutcome)
  -- rows that the table lists last
  | receiveFilterDrop (rx : NetRx) (f : OtherFrame)
  | canReceiveError (c : Fin 2) (e : CanFail) (more : BitVec 5)
  | transceiverSupplyGood (c : Fin 2)
  | referenceClockReturn (c : ClockId)
  | regionFaultClear (region : Fin 5)
  | suplow (supMv : BitVec 16)
  | huready (vbank : BitVec 16)
  | sfpRemove (path : Path)
  deriving DecidableEq, Repr

end Sys2Proof
end

