-- ==== Sys2Proof/Config.lean ====
section
/-! DEFINITION. What one module fixes and the spec does not give (factory contents, external algorithms), and the free values:
opaque constants with no body, so that no proof can see what they are. -/

namespace Sys2Proof.Config

/-- FREE VALUE. The direction in which an arithmetic result that binary32 cannot hold exactly is rounded: true away from zero.
The spec states no rounding (03 R82, 04 R117, R498 fixes only how a given number is taken). DESIGN CHOICE, log entry 16. -/
opaque roundAway : Rat → Bool

/-- FREE VALUE. Which neighbour of a non-representable square root, sine, logarithm or similar real value the module takes. DESIGN CHOICE, log entry 17. -/
opaque roundReal : Rat → Bool

/-- FREE VALUE. Which way the module rounds a number that lies midway between two whole numbers (09 R250: round). DESIGN CHOICE, log entry 18. -/
opaque roundTie : Rat → Bool

/-- FREE VALUE. The number that stands for a result beyond the largest finite binary32 number where no evaluation error answers it (03 R77: no infinite value
is published; the value itself is not stated). DESIGN CHOICE, log entry 20. -/
opaque beyondRange : Rat → BitVec 32

/-- FREE VALUE. Terminal temperature in °C of an RTD or thermocouple reading (07 R200: IEC 60751, IEC 60584-1): function, range, reading, cold junction. DESIGN CHOICE, log entry 23. -/
opaque sensorTemp : Nat → Nat → Rat → Rat → Rat

/-- FREE VALUE. Range of a thermocouple type in °C (07 R200: the range of the type in IEC 60584-1). DESIGN CHOICE, log entry 23. -/
opaque tcBand : Nat → Rat × Rat

/-- FREE VALUE. How far the module's cosine, sine and angle of a vector lie from the computed ones, within bounds that `Machine.within` sets: the spec
gives accuracies only (05: measurement accuracy). DESIGN CHOICE, log entry 22. -/
opaque cosDev : Rat → Rat
opaque sinDev : Rat → Rat
opaque argDev : Rat → Rat → Rat
opaque freqDev : Rat → Rat

/-- Factory contents: MAC addresses of NA and NB (14 R384, 11 R315). DESIGN CHOICE, log entry 24. -/
opaque mac : Bool → BitVec 48

/-- Factory contents: time-base factory trim, ADDEND units (12 R336). DESIGN CHOICE, log entry 24. -/
opaque factoryTrim : BitVec 32

/-- Factory contents: UC.FCAL date and validity of a channel (07 R222). DESIGN CHOICE, log entry 24. -/
opaque fcal : Nat → BitVec 16 × Bool

/-- Firmware minor release (19 R475: per firmware). DESIGN CHOICE, log entry 24. -/
opaque fwMinor : BitVec 8

/-- The event code of an alarm-queue entry (18 R455: an event code, not stated). DESIGN CHOICE, log entry 147. -/
opaque alarmCode : AlarmKind → BitVec 8

/-- Clock identity of this module, sent by a chain time master without a source (12 R343). DESIGN CHOICE, log entry 24. -/
opaque clockIdentity : BitVec 64

/-- What a frame drives a pixel with: + toward white, − toward black, or 0 (16 R413). -/
inductive FrameCode where
  | plus | minus | zero
  deriving DecidableEq, Repr, Inhabited

/-- Factory waveform tables: for band, old level, new level and twin Q (16 R413); and the INIT waveform of a band (16 R424). What of them R413 and R424
forbid does not count (Panel.lean). DESIGN CHOICE, log entry 25. -/
opaque waveform : Nat → Nat → Nat → Bool → List FrameCode
opaque initWave : Nat → List FrameCode

/-- What a row of a page says (16 R421): nothing; a signal's ID, its value in steps of its last decimal place, its decimal places and its quality; or an item
of the status page and its value. -/
inductive RowText where
  | blank
  | signal (id : Nat) (shown : Int) (dec : Nat) (qual : BitVec 4)
  | status (item value : Nat)
  deriving DecidableEq, Repr, Inhabited

/-- How a page is drawn (16 R421 gives no font and no measures): the rectangle of row `row` of a layout, the status page being layout 0, as x0, y0, x1, y1;
and the level of pixel `i` of a row that says `t`. DESIGN CHOICE, log entry 146. -/
opaque rowRect : Nat → Nat → Nat × Nat × Nat × Nat
opaque rowPixel : Nat → Nat → RowText → Nat → BitVec 4

/-- Factory overdrive table OD(p, n), 0–7 frames (16 R415). DESIGN CHOICE, log entry 25. -/
opaque overdrive : Nat → Nat → Nat

/-- Factory contrast values V25 and TCV in mV and mV per °C (16 R417). DESIGN CHOICE, log entry 25. -/
opaque v25 : Rat
opaque tcv : Rat

/-- FREE VALUE. A fresh value for an open result, by the counter of State (a value the spec leaves unstated). DESIGN CHOICE, log entry 7. -/
opaque freeWord : Nat → BitVec 32

/-- FREE VALUE. How the journal writes of a boot-bank update come out, by the counter of State (14 R388; 02 R42 gives the update no operand). DESIGN CHOICE,
log entry 142. -/
opaque freeOutcome : Nat → NvOutcome

/-- FREE VALUE. Servo correction after a measured offset (12 R337: a proportional-integral law whose gains the spec does not give):
present ADDEND, HOLDADD, offset in ns. The caller limits it to the bounds the spec states. DESIGN CHOICE, log entry 26. -/
opaque servo : Int → Int → Int → Int

/-- What a granule of the reserved DRAM or of SRAM holds (14 R373, R379): signal words of the process image, the state of a cell, a configuration shadow or
pipeline stage of a block with the cells whose work it carries, Tocsin's matrix configuration, a frame-buffer granule, a record of a bank's working copy (of
its base section, or of its last), state of a core pair. -/
inductive WordItem where
  | signals (ids : List Nat)
  | cell (id : Nat)
  | shadow (region block : Nat) (cells : List Nat)
  | matrix
  | frame (g : Nat)
  | record (bank base : Bool) (index : Nat)
  | pair (n : Nat)
  | other
  deriving DecidableEq, Repr, Inhabited

/-- FREE VALUES. What a granule of the reserved DRAM, and of SRAM, holds: the spec gives the ranges only, not the placement (14 R373; 16 R422). DESIGN
CHOICE, log entry 27. -/
opaque dramItem : Nat → WordItem
opaque sramItem : Nat → WordItem

/-- FREE VALUES. Where the first copies hold things, as granules from the start of the partition (14 R384: the layout within the factory, settings and
control blocks is not given): the calibration of a channel, the value of a stored register by its address, the trim of a trim key, key slot n, the boot
pointer. DESIGN CHOICE, log entry 142. -/
opaque calPlace : Nat → Nat
opaque settingPlace : Nat → Nat
opaque trimPlace : Nat → Nat
opaque keyPlace : Nat → Nat
opaque bootPlace : Nat

end Sys2Proof.Config
end

