-- ==== Sys2Proof/Machine/Binary32.lean ====
section
/-! DEFINITION. Numbers carried as binary32: exact values, and the word of a result. Arithmetic is exact in the rationals; a result that
binary32 cannot hold takes one of its two neighbours, and which of them is a free value (the spec states no rounding). -/

namespace Sys2Proof.Machine

def f32Exp (w : Word) : Nat := w.toNat / 2 ^ 23 % 256
def f32Frac (w : Word) : Nat := w.toNat % 2 ^ 23
def f32Neg (w : Word) : Bool := 2 ^ 31 ≤ w.toNat

def f32IsNaN (w : Word) : Bool := f32Exp w == 255 && f32Frac w != 0
def f32IsInf (w : Word) : Bool := f32Exp w == 255 && f32Frac w == 0
/-- Neither NaN nor infinite. -/
def f32Finite (w : Word) : Bool := f32Exp w != 255

/-- 2 to an integer power. -/
def pow2 (e : Int) : Rat := if e < 0 then mkRat 1 (2 ^ e.natAbs) else mkRat (2 ^ e.toNat) 1

/-- Magnitude bits of a finite binary32 as an integer times 2^−149. -/
def f32Scaled (w : Word) : Nat :=
  if f32Exp w = 0 then f32Frac w else (2 ^ 23 + f32Frac w) * 2 ^ (f32Exp w - 1)

/-- Exact value of a finite binary32 (R498); 0 for a NaN or an infinity, which callers exclude first. -/
def f32 (w : Word) : Rat :=
  if f32Finite w then mkRat (if f32Neg w then -(f32Scaled w : Int) else f32Scaled w) (2 ^ 149) else 0

/-- A parameter that may be infinite, for comparisons with finite values: an infinity stands beyond every finite number. -/
def f32x (w : Word) : Rat := if f32IsInf w then (if f32Neg w then -pow2 200 else pow2 200) else f32 w

/-- A number that may be infinite. -/
inductive Ext where
  | neg
  | fin (q : Rat)
  | pos
  deriving DecidableEq, Repr

/-- The value of a binary32 that is no NaN. -/
def ext (w : Word) : Ext := if f32IsInf w then (if f32Neg w then .neg else .pos) else .fin (f32 w)

def Ext.lt : Ext → Ext → Bool
  | .neg, .neg => false
  | .neg, _ => true
  | .fin a, .fin b => decide (a < b)
  | .fin _, .pos => true
  | _, _ => false

/-- Addition; `none` for infinities of opposite sign, whose sum is NaN. -/
def Ext.add : Ext → Ext → Option Ext
  | .fin a, .fin b => some (.fin (a + b))
  | .fin _, b => some b
  | a, .fin _ => some a
  | .pos, .pos => some .pos
  | .neg, .neg => some .neg
  | _, _ => none

def Ext.opp : Ext → Ext
  | .neg => .pos
  | .fin q => .fin (-q)
  | .pos => .neg

def Ext.min (a b : Ext) : Ext := if b.lt a then b else a
def Ext.max (a b : Ext) : Ext := if a.lt b then b else a

/-- The exact value where it is finite. -/
def Ext.rat? : Ext → Option Rat
  | .fin q => some q
  | _ => none

/-- floor(log2 q) of a positive rational. -/
def floorLog2 (q : Rat) : Int :=
  let e : Int := (Nat.log2 q.num.natAbs : Int) - (Nat.log2 q.den : Int)
  if q < pow2 e then e - 1 else e

/-- The magnitude of a result: the exponent and fraction bits, `none` beyond the largest finite number. -/
def f32Magnitude (q : Rat) : Option Nat :=
  if q = 0 then some 0
  else
    let e := max (floorLog2 q) (-126)
    let scaled := q / pow2 (e - 23)
    let m := scaled.floor.toNat
    let up := decide ((m : Rat) ≠ scaled) && Config.roundAway q
    let bits := (e + 126).toNat * 2 ^ 23 + m + up.toNat
    if bits < 255 * 2 ^ 23 then some bits else none

/-- The binary32 word of a result, `none` where it is infinite. A result of zero is +0.0. -/
def toF32 (q : Rat) : Option Word :=
  (f32Magnitude (if q < 0 then -q else q)).map fun m =>
    BitVec.ofNat 32 (m + if q < 0 then 2 ^ 31 else 0)

/-- A result beyond the largest finite number, where no evaluation error answers it: a free value, never NaN or infinite (R77). -/
def f32Beyond (q : Rat) : Word := if f32Finite (Config.beyondRange q) then Config.beyondRange q else 0

/-- A value as it is published (R77): what stands for one that is infinite or NaN is a free value, which is neither. -/
def f32Published (w : Word) : Word := if f32Finite w then w else f32Beyond (f32x w)

/-- The word of a result that is published or shown whatever its size. -/
def toF32c (q : Rat) : Word := (toF32 q).getD (f32Beyond q)

/-- A decimal limit of the manual as the binary32 value nearest to it (R498): ties cannot arise for the limits used. -/
def nearestF32 (q : Rat) : Rat :=
  if q = 0 then 0
  else
    let a := if q < 0 then -q else q
    let e := max (floorLog2 a) (-126)
    let m := (a / pow2 (e - 23) + 1 / 2).floor
    (if q < 0 then -(m : Rat) else (m : Rat)) * pow2 (e - 23)

/-- 1.0 and 0.0 as results of logical operations (R82). -/
def f32One : Word := 0x3F800000
def f32Zero : Word := 0
def f32OfBool (b : Bool) : Word := if b then f32One else f32Zero

/-- A value is true when it is non-zero (R82). -/
def f32True (w : Word) : Bool := w.toNat % 2 ^ 31 != 0

def ratMin (a b : Rat) : Rat := if a ≤ b then a else b
def ratMax (a b : Rat) : Rat := if a ≤ b then b else a
def ratAbs (a : Rat) : Rat := if a < 0 then -a else a
def ratClamp (lo hi x : Rat) : Rat := ratMax lo (ratMin hi x)

/-- Whole evaluations of a time: ceil(P / Δ), a quotient that exceeds k by at most k × 2^−20 counting as k (R498). -/
def evalCount (p delta : Rat) : Nat :=
  let q := p / delta
  let k := q.floor
  if q - k ≤ k * mkRat 1 (2 ^ 20) then k.toNat else (k + 1).toNat


/-- √q for q ≥ 0 as a binary32 word: exact where it is representable, else one of the neighbours, by a free value; beyond the
largest finite number a free value too. -/
def f32Sqrt (q : Rat) : Word :=
  if q ≤ 0 then 0
  else
    let e := max ((floorLog2 q) / 2) (-126)
    let scaled := q / pow2 (2 * (e - 23))
    let m := Nat.sqrt scaled.floor.toNat
    let up := decide (((m * m : Nat) : Rat) ≠ scaled) && Config.roundReal q
    let bits := (e + 126).toNat * 2 ^ 23 + m + up.toNat
    if bits < 255 * 2 ^ 23 then BitVec.ofNat 32 bits else f32Beyond q

/-- The value of a finite word; none for an infinity or a NaN. -/
def f32Fin (w : Word) : Option Rat := if f32Finite w then some (f32 w) else none

end Sys2Proof.Machine
end

