-- ==== Sys2Proof/Machine/Store.lean ====
section
/-! DEFINITION. Sparse stores: a list of (key, value) pairs in one canonical form, keys strictly rising and no entry equal
to what an unlisted key reads as, so that equal stores are equal lists. -/

namespace Sys2Proof.Machine

/-- A sparse store from numbers to `α`. -/
abbrev Store (α : Type) := List (Nat × α)

/-- The value at a key; an unlisted key reads as `d`. -/
def Store.get {α : Type} (d : α) : Store α → Nat → α
  | [], _ => d
  | (k, v) :: m, a => if a = k then v else Store.get d m a

/-- Insertion that keeps the keys rising and replaces an entry of the same key. -/
def Store.insert {α : Type} : Store α → Nat → α → Store α
  | [], a, x => [(a, x)]
  | (k, v) :: m, a, x =>
    if a < k then (a, x) :: (k, v) :: m
    else if a = k then (a, x) :: m
    else (k, v) :: Store.insert m a x

/-- Removal of a key. -/
def Store.erase {α : Type} : Store α → Nat → Store α
  | [], _ => []
  | (k, v) :: m, a => if a = k then Store.erase m a else (k, v) :: Store.erase m a

/-- A write: writing what an unlisted key reads as removes the entry. -/
def Store.set {α : Type} [DecidableEq α] (d : α) (m : Store α) (a : Nat) (x : α) : Store α :=
  if x = d then Store.erase m a else Store.insert m a x

/-- Every key of the store is above `a`. -/
def Store.above {α : Type} (a : Nat) : Store α → Bool
  | [] => true
  | (k, _) :: _ => a < k

/-- The canonical form: keys strictly rising, no entry equal to the default. -/
def Store.wf {α : Type} [DecidableEq α] (d : α) : Store α → Bool
  | [] => true
  | (k, v) :: m => decide (v ≠ d) && Store.above k m && Store.wf d m

/-- The keys of a store, rising. -/
def Store.keys {α : Type} (m : Store α) : List Nat := m.map Prod.fst

/-- Every listed value through `f`; the caller keeps the canonical form. -/
def Store.mapVals {α : Type} [DecidableEq α] (d : α) (f : Nat → α → α) : Store α → Store α
  | [] => []
  | (k, v) :: m => if f k v = d then Store.mapVals d f m else (k, f k v) :: Store.mapVals d f m

end Sys2Proof.Machine
end

