-- ==== Sys2Proof/Machine/State.lean ====
section
/-! DEFINITION. The state of the module, as plain data. Every software-visible register lives in `regs`, keyed by its service address
(R7) and read through the field constants of RegMap; what the spec gives the module beside its registers stands in the structures below,
one per chapter. -/

namespace Sys2Proof.Machine

/-- Why the machine stops with a fault. No happening of the spec stops the module: every fault of the spec is a next state, so this type
has the one reason for a request that names hardware the module does not have. -/
inductive Fault where
  /-- Raised by nothing: reserved for an access outside the state; safe. -/
  | noSuchHardware
  deriving DecidableEq, Repr

/-- Why a step gives no meaning. -/
inductive Refusal where
  /-- Raised by a dispatch arm whose command has no meaning yet; safe. -/
  | notModelled (mnemonic : String)
  deriving DecidableEq, Repr

/-- A signal word (R11): value, quality code (R12), flags [27:16] (R76), age. -/
structure SigWord where
  val : Word
  qual : BitVec 4
  flags : BitVec 12
  age : Nat
  deriving DecidableEq, Repr

/-- An image record: 256 data bits (R27). -/
abbrev Record := BitVec 256

/-- A Sahvos frame that leaves (R316): addressing, header and payload. -/
structure NetFrame where
  dst : BitVec 48
  vid : Nat
  pcp : Nat
  kind : Nat
  flags : Nat
  addr : Nat
  station : BitVec 32
  stroke : Nat
  timeS : Nat
  timeNs : BitVec 32
  units : Nat
  part : Nat
  nparts : Nat
  count : Nat
  payload : List Byte
  deriving DecidableEq, Repr

/-- What the module sends or answers: the model's own record of its outputs. -/
inductive Output where
  /-- result of a command given as a row of its own, to the port it came by -/
  | result (p : Port) (code : BitVec 8)
  /-- registers read by a row that reads (R367) -/
  | read (p : Port) (data : List Word)
  /-- a transfer of the service port (R462): the Sahvos header and the payload; a frame's addresses and tag are not part of it -/
  | usb (f : NetFrame)
  /-- a datagram to an IPv4 address and UDP port, with the MAC address, header and payload of `f` (R317) -/
  | datagram (path : Path) (ip : BitVec 32) (udpPort : BitVec 16) (f : NetFrame)
  /-- chime frame on a chain port: OP and VALUE (R283) -/
  | chime (p : ChainPort) (op : Nat) (v : Nat)
  /-- a frame leaving on a chain port -/
  | chain (p : ChainPort) (f : ChainFrame)
  /-- a frame delivered locally to the duty that handles its TYPE -/
  | deliver (f : ChainFrame)
  /-- a Sahvos frame on the plant network (R316): CYCLIC (R318), SAFETY (R319), MRSP (R462) or LASTGASP (R440) -/
  | sahvos (path : Path) (f : NetFrame)
  /-- safety PDU handed to the safety class (R171) -/
  | pdu (p : BitVec 128)
  /-- the Type 41 station-down message from NA with reason code 3 (R459) -/
  | stationDown (payload : List Byte)
  /-- ARP or ICMP answer (R317) -/
  | arpReply (path : Path) (mac : BitVec 48)
  | icmpReply (path : Path) (ip : BitVec 32)
  /-- HART command to a device (R218): channel, device, command number, data -/
  | hart (uc dev cmd : Nat) (data : List Byte)
  /-- a PTP message on a network path: destination, VID and priority of its tag, EtherType, and the message (R341) -/
  | ptp (path : Path) (dst : BitVec 48) (vid pcp etherType : Nat) (msg : List Byte)
  /-- a CAN frame whose start of frame is driven, with ESI in an FD frame of an error-passive controller (R353, R357); or an error frame -/
  | canFrame (c : Fin 2) (id : BitVec 29) (ide fdf brs esi : Bool) (dlc : Nat) (data : List Byte)
  | canError (c : Fin 2)
  /-- Type 41 answers (R448–R451): acknowledge or exception, read data -/
  | type41 (requester : Nat) (exception : Nat) (data : List (BitVec 16))
  /-- the result of a journal transaction, to its requester (R386) -/
  | journal (code : BitVec 8)
  /-- Type 41 cyclic broadcast of image N with its boundary time, seconds and nanoseconds (R98, R448) -/
  | broadcast (image timeS timeNs : Nat) (regs : List (BitVec 16))
  deriving DecidableEq, Repr

/-- What a cell keeps beside its registers (R78, R83, R91, R92, R94). -/
structure CellSt where
  /-- evaluations, newest first, true for an error; at most 64 (R94) -/
  errHist : List Bool
  /-- boundary counts of the entries into FAULT, newest first (R92) -/
  faultAt : List Nat
  /-- the isolating cause is present (R91) -/
  cause : Bool
  /-- boundaries since the isolating cause was last seen (R91) -/
  absent : Nat
  /-- consecutive evaluations without error in RECOVER, or START evaluations (R91, R128) -/
  good : Nat
  /-- no publication yet since START: the first carries INIT (R76) -/
  first : Bool
  /-- last value that resolved in step 3 of R78 per input, since START -/
  lastIn : Store (Option Word)
  /-- Tocsin commands the cell: ACTION + 1, 0 for none (R175) -/
  cmd : Nat
  /-- the ACTION that drives the cell until a released command hands over (R87, R175); the hardwired line leaves de-energise (R186) -/
  act : Nat
  /-- the force or simulation in effect: MODE, PORT, VALUE (R88) -/
  force : Nat × Nat × Word
  /-- the module state keeps a command that the hardwired line gives (R186) -/
  line : Bool
  /-- parameters written at run time, kept until the cell changes (R54): offset → word -/
  params : Store (Option Word)
  /-- its state holds a word that cannot be read: its next evaluation is an error (R94) -/
  unread : Bool
  deriving DecidableEq, Repr

/-- The hidden state of a cell that nothing has touched. -/
def CellSt.init : CellSt := ⟨[], [], false, 0, 0, true, [], 0, 0, (0, 0, 0), false, [], false⟩

/-- What a block keeps beside its registers (R94). -/
structure BlockSt where
  errAt : List Nat
  isoAt : List Nat
  /-- the isolating cause is present; boundaries since it was last seen -/
  cause : Bool
  absent : Nat
  deriving DecidableEq, Repr

def BlockSt.init : BlockSt := ⟨[], [], false, 0⟩

/-- Internal state of a function cell (R83). -/
structure FcSt where
  y : Word
  count : Nat
  out : Bool
  prev : Bool
  started : Bool
  lastGood : Option Word
  deriving DecidableEq, Repr

def FcSt.init : FcSt := ⟨0, 0, false, false, false, none⟩

/-- The gains of an evaluation (R125): KP, TI as 1/TI (0 removes integral action), TD, N, BETA, KFF. -/
structure Gains where
  kp : Rat
  rti : Rat
  td : Rat
  n : Rat
  beta : Rat
  kff : Rat
  deriving DecidableEq, Repr

def Gains.zero : Gains := ⟨0, 0, 0, 2, 0, 0⟩

/-- Internal state of a loop slot (04). Its quantities are held exactly; the registers report them as binary32. -/
structure LoopSt where
  /-- integrator i, or reset term r of a group slot (R117, R135) -/
  i : Rat
  d : Rat
  yPrev : Rat
  /-- u of the previous evaluation -/
  u : Rat
  wsp : Rat
  /-- effective gains of the previous evaluation, and its scheduled gains before detuning (R123–R126) -/
  gains : Gains
  sched : Gains
  /-- v of the previous evaluation lay outside the output range (R127) -/
  sat : Bool
  /-- the derivative history is set: an evaluation has run since START or an error (R119, R128) -/
  begun : Bool
  /-- WSP takes PV at the first evaluation since START (R128) -/
  wspFromPv : Bool
  /-- an evaluation without error has published since START (R84) -/
  okSince : Bool
  /-- consecutive evaluations in which PV resolved under step 3 (R128) -/
  pvRun : Nat
  /-- value published last on port 0 -/
  lastOut : Rat
  /-- rebalance to this value at the next evaluation -/
  balance : Option Rat
  /-- REQ write waiting for the slot's next evaluation (R133) -/
  newReq : Bool
  /-- consecutive evaluations in which RSP resolved (R132) -/
  rspRun : Nat
  /-- side of the error reached last: 1 at +A_DET, 2 at −A_DET (R138) -/
  oscSide : Nat
  /-- consecutive short half-cycles -/
  oscCount : Nat
  /-- seconds from the last end of a half-cycle to the boundary `seen`, none before the first (R138) -/
  sinceHalf : Option Rat
  /-- seconds without a counted half-cycle up to the boundary `seen` (R139) -/
  quiet : Rat
  /-- the boundary up to which both times have been counted -/
  seen : Nat
  /-- the cell has come back from FAULT: the next evaluation rebalances to RB, or to the last good output (R130) -/
  recov : Bool
  /-- a leader's S of the previous evaluation (R135) -/
  s : Rat
  /-- value that port 0 holds in TEST (R129) -/
  held : Option Rat
  deriving DecidableEq, Repr

def LoopSt.init : LoopSt :=
  { i := 0, d := 0, yPrev := 0, u := 0, wsp := 0, gains := Gains.zero, sched := Gains.zero, sat := false, begun := false,
    wspFromPv := false, okSince := false, pvRun := 0, lastOut := 0, balance := none, newReq := false, rspRun := 0, oscSide := 0,
    oscCount := 0, sinceHalf := none, quiet := 0, seen := 0, recov := false, s := 0, held := none }

/-- Internal state of a phasor group (05). -/
structure PhasorSt where
  /-- consecutive result sets without a gap since START (R153) -/
  sets : Nat
  /-- values and qualities of ports 0–15 of the newest result set, and whether it is newer than the last publication (R151) -/
  vals : List Word
  quals : List (BitVec 4)
  fresh : Bool
  /-- dwell count, and whether the newest result set held the sync conditions and in a dead case (R155, R157) -/
  dwell : Nat
  condHeld : Bool
  dead : Bool
  /-- CLOSEREQ as published at the last boundary (R154) -/
  closeReq : Bool
  /-- permit edge scheduled: the CLK_FAB cycle at which it rises, and the advance angle (R156, R158, R347) -/
  edge : Option (Nat × Word)
  /-- the permit was high at some instant of the stroke (R150) -/
  permitSeen : Bool
  /-- consecutive result sets in which the condition of each event held (R160) -/
  evHeld : List Nat
  /-- CLOSEDP of the configuration under which a permit runs (R158) -/
  closeDp : Option Nat
  /-- samples of the inputs, newest instant first; at most 1,600 (R146) -/
  samples : List (List (Option Word))
  /-- the last frequency estimates of the INC and the RUN side, none while the side is unlocked (R146, R147) -/
  fInc : Option Rat
  fRun : Option Rat
  /-- the vectors whose angles the estimates follow, and the turns of the last result sets in degrees, newest first (R147) -/
  vecInc : Option (Rat × Rat)
  vecRun : Option (Rat × Rat)
  turnsInc : List Rat
  turnsRun : List Rat
  /-- t_w and slip of the result sets with both sides locked, newest first, over 8 cycles of f_RUN (R147) -/
  slips : List (Nat × Rat)
  /-- no result set has completed for 20 ms (R161) -/
  stale : Bool
  /-- the group's records before a commit that changed it, while its permit runs under them (R158) -/
  old : Option (List Record)
  deriving DecidableEq, Repr

def PhasorSt.init : PhasorSt :=
  { sets := 0, vals := [], quals := [], fresh := false, dwell := 0, condHeld := false, dead := false, closeReq := false, edge := none,
    permitSeen := false, evHeld := [0, 0, 0, 0, 0], closeDp := none, samples := [], fInc := none, fRun := none, vecInc := none,
    vecRun := none, turnsInc := [], turnsRun := [], slips := [], stale := true, old := none }

/-- A trip input (R165, R179). -/
structure TripIn where
  /-- 0 HEALTHY, 1 DEMAND, 2 INVALID, 3 not configured -/
  state : BitVec 2
  ones : Nat
  zeros : Nat
  raw : Bool
  reported : Bool
  /-- CLK_FAB cycle count at which the bypass runs out -/
  bypass : Option Nat
  granted : Nat
  demands : BitVec 16
  invalids : BitVec 16
  deriving DecidableEq, Repr

def TripIn.init : TripIn := ⟨3, 0, 0, false, false, none, 0, 0, 0⟩

/-- A received safety connection (R169, R170). -/
structure SafeConn where
  valid : Bool
  lastSeq : BitVec 16
  /-- a PDU has been taken since VALID was last lost -/
  seen : Bool
  /-- the PDU before was accepted -/
  chained : Bool
  senderSafe : Bool
  bits : BitVec 32
  seqErr : BitVec 16
  timeouts : BitVec 16
  deriving DecidableEq, Repr

def SafeConn.init : SafeConn := ⟨false, 0, false, false, false, 0, 0, 0⟩

/-- Tocsin's state beside its registers (06). -/
structure TocsinSt where
  inputs : Store TripIn
  conns : Store SafeConn
  /-- sequence number and scans since the last PDU of each transmitted connection -/
  tx : Store (BitVec 16 × Nat)
  /-- SAFE_IN_N as filtered -/
  safeIn : Bool
  /-- SERVICE was entered from SAFE (R177) -/
  serviceFromSafe : Bool
  /-- the alternating vector of the hidden column expects 1 (R185) -/
  column : Bool
  /-- consecutive scans in which the rails disagreed (R185), and of scans not completed -/
  rails : Nat
  /-- level of each trip output's reset signal, `some` once recorded (R502) -/
  resetLevel : Store (Option Bool)
  /-- trip resets waiting for the next scan: output and port -/
  resets : List (Nat × Option Port)
  /-- CLK_FAB cycle at which an output was last tripped (R396 SRC 1) -/
  trippedAt : Store Nat
  /-- the scan at which a trip output last evaluated had no DEMAND -/
  scanned : Bool
  /-- CP0 has resynchronised since DORMANT_CP0 was latched -/
  cp0Ok : Bool
  /-- a cause 1–3 of CP0 is latched, which only a restart clears (R25, R186, R189) -/
  hardCp0 : Bool
  /-- a word of the matrix configuration in force reads uncorrectable (R185, R379) -/
  matrixBad : Bool
  deriving DecidableEq, Repr

/-- One bank: working copy and saved copy, each a base section (delta banks) and its own section (R41, R60). -/
structure Bank where
  base : List Record
  main : List Record
  /-- indices of `main`, and of the base section, that read uncorrectable (R381) -/
  bad : List Nat
  badBase : List Nat
  savedBase : List Record
  savedMain : List Record
  savedOk : Bool
  /-- key slots that verified the sections of the working copy and of the saved copy, as masks (R39) -/
  slots : BitVec 4
  savedSlots : BitVec 4
  /-- open for staging (R49) -/
  staging : Bool
  deriving DecidableEq, Repr

def Bank.empty : Bank := ⟨[], [], [], [], [], [], false, 0, 0, false⟩

/-- The image store (02). -/
structure ImageSt where
  b0 : Bank
  b1 : Bank
  /-- the effective image that the cells run; empty before the first commit -/
  active : List Record
  /-- the effective image being prepared or pending -/
  next : List Record
  /-- the bank that the operation in progress acts on (R46) -/
  nextBank : Bool
  /-- a commit is pending with ATSTROKE = 1 -/
  atStroke : Bool
  /-- IMG.AT as it stood at COMMIT (R52) -/
  atNo : Word
  committed : Bool
  bootUpdate : Bool
  keys : List (BitVec 256)
  deriving DecidableEq, Repr

/-- What an evaluation may change: registers and hidden state of the cells that evaluate. -/
structure Before where
  regs : Store Word
  cells : Store CellSt
  fcs : Store FcSt
  loops : Store LoopSt
  /-- cells that an evaluation of the stroke isolated -/
  isolated : List Nat
  /-- the evaluation window has closed -/
  closed : Bool
  deriving DecidableEq, Repr

/-- The signals and the stroke (03). -/
structure FabricSt where
  /-- signal words of the process image by SIGID -/
  words : Store (Option SigWord)
  /-- results held for the next boundary, by cell ID × 16 + port -/
  back : Store (Option SigWord)
  /-- word last published on each port of the cells, by cell ID × 16 + port, whether or not a signal carries it -/
  ports : Store (Option SigWord)
  /-- what the cells that evaluate held before the evaluations of the running stroke (R75) -/
  before : Option Before
  /-- cells whose work of the running stroke is discarded (R75, R94) -/
  late : List Nat
  /-- boundary count of the last refresh of each signal (R237) -/
  freshAt : Store (Option Nat)
  /-- boundaries since POWERUP -/
  boundaries : Nat
  /-- the running stroke was opened in a state in which strokes evaluate -/
  opened : Bool
  /-- staged register writes: (address, value) in request order -/
  staged : List (Nat × Word)
  /-- staged forces: cell ID, MODE, PORT, VALUE -/
  forces : List (Nat × Nat × Nat × Word)
  /-- the module enters RUN, or leaves it by STOP, at the next boundary -/
  runPending : Bool
  stopPending : Bool
  cells : Store CellSt
  blocks : Store BlockSt
  fcs : Store FcSt
  loops : Store LoopSt
  phasors : Store PhasorSt
  deriving DecidableEq, Repr

/-- A universal channel (07). -/
structure UcSt where
  /-- a result has been delivered since the last publication, and since the cell entered START (R203) -/
  fresh : Bool
  since : Bool
  /-- a result has been delivered since the channel was configured; the trip inputs configured since the last result (R164) -/
  reported : Bool
  waiting : List Nat
  /-- newest result of port 0: value, quality, limit flags; of port 1: value -/
  value : Word
  qual : BitVec 4
  flags : BitVec 12
  aux : Word
  /-- e of the last 16 results, newest first (R222) -/
  raws : List Word
  /-- consecutive results showing an open circuit, a short, a low and a high failure signal (R208, R214) -/
  faultRuns : List Nat
  goodRun : Nat
  /-- consecutive results toward a change of the low and of the high comparator (R215) -/
  loRun : Nat
  hiRun : Nat
  /-- a sensor fault is in force (R207) -/
  sensorBad : Bool
  /-- command in force and how it resolved: 0 as it stands, 1 held, 2 substituted (R78, R210) -/
  cmd : Word
  cmdHow : Nat
  /-- the output stage is on; the first evaluation since START has ended (R433); the stage or its supply failed (R214) -/
  on : Bool
  driven : Bool
  stageBad : Bool
  /-- limit flags of the drive (R210) -/
  lim : BitVec 12
  /-- last sample of the compliance monitor: shortfall and readback (R213) -/
  shortfall : Bool
  readback : Word
  /-- captured trim points (x, reference) -/
  capLo : Option (Word × Word)
  capHi : Option (Word × Word)
  /-- consecutive unanswered polls of devices 0–3, and whether Command 0 has been sent since START or the last failure (R218) -/
  miss : List Nat
  ident : List Bool
  /-- HART ports 2–5, `none` before the first reply, and whether a reply waits for publication (R219) -/
  hartPorts : List (Option SigWord)
  hartFresh : List Bool
  /-- a pass-through request accepted and not yet sent: device, command number, data (R221) -/
  hartDue : Option (Nat × Nat × List Byte)
  deriving DecidableEq, Repr

def UcSt.init : UcSt :=
  { fresh := false, since := false, reported := false, waiting := [], value := 0, qual := 10, flags := 0, aux := 0, raws := [], faultRuns := [0, 0, 0, 0],
    goodRun := 0, loRun := 0, hiRun := 0, sensorBad := false, cmd := 0, cmdHow := 0, on := false, driven := false, stageBad := false,
    lim := 0, shortfall := false, readback := 0, capLo := none, capHi := none, miss := [0, 0, 0, 0],
    ident := [false, false, false, false], hartPorts := [none, none, none, none], hartFresh := [false, false, false, false], hartDue := none }

/-- A digital point (08). -/
structure DpSt where
  /-- the filtered state has been formed since the commit that instantiated or changed the point, or the entry into RUN (R227, R164) -/
  settled : Bool
  /-- on at some sample since the last publication (R227) -/
  caught : Bool
  /-- values last published on ports 0 and 1 (R228) -/
  last : Word × Word
  /-- command: on, and how it resolved: 0 as it stands, 1 held, 2 substituted -/
  cmdOn : Bool
  cmdHow : Nat
  /-- the first evaluation since START has driven the output (R433) -/
  driven : Bool
  /-- the breaker-close permit that drives the point is high (R233) -/
  permit : Bool
  /-- a rearm waits for the boundary (R236) -/
  rearm : Bool
  /-- the driver is above its temperature limit (R239) -/
  hot : Bool
  /-- the boundary count at the point's previous due boundary (R237) -/
  dueAt : Nat
  deriving DecidableEq, Repr

def DpSt.init : DpSt := ⟨false, false, (0, 0), false, 0, false, false, false, false, 0⟩

/-- A stop: decelerations above and below a knee speed, and the speed at which the axis stops at once. -/
structure StopPlan where
  d2 : Rat
  d1 : Rat
  knee : Rat
  vstop : Rat
  deriving DecidableEq, Repr

/-- An axis (09). Speeds in full steps per second, signed; positions in microsteps. -/
structure AxSt where
  speed : Rat
  /-- part of a microstep travelled beyond AX.POS -/
  frac : Rat
  /-- speed command in velocity mode -/
  vcmd : Rat
  /-- how the command resolved: 0 as it stands, 1 held, 2 substituted, 3 safe stop by FALLBACK 2 -/
  cmdHow : Nat
  /-- LIM_LO and LIM_HI of port 0 (R250, R254) -/
  lim : BitVec 12
  /-- holds its speed until b(v) = r under changed rates (R249) -/
  holdSpeed : Bool
  /-- the axis turns toward a target behind it (R248) -/
  turning : Bool
  /-- no target is in force until the next due boundary -/
  idle : Bool
  /-- the axis comes to rest under a plan of its own -/
  stopping : Option StopPlan
  /-- the phase currents are on -/
  bridges : Bool
  /-- the first evaluation since START has ended (R267) -/
  driven : Bool
  /-- the position is taken from the encoder when the currents return (R260) -/
  encReturn : Bool
  /-- staged rate writes waiting for their boundary: port and (offset, value) pairs (R249) -/
  rates : List (Option Port × List (Nat × Word))
  /-- a homing request accepted and waiting for the boundary (R257) -/
  homePending : Bool
  /-- level of HOMEREQ at the last boundary -/
  homeReq : Option Bool
  /-- methods 3 and 4 with HOME active at the start: the axis has yet to creep back to HOME (R256) -/
  homeBack : Bool
  /-- edges counted since the latch, and the position in microsteps at the latch (R259) -/
  encCount : Int
  encBase : Int
  /-- valid edges since the last encoder error -/
  validEdges : Nat
  /-- limits in chatter: LIM_P, LIM_N (R255) -/
  chatP : Bool
  chatN : Bool
  /-- limits whose chatter is an isolating fault (R255) -/
  fltP : Bool
  fltN : Bool
  /-- the bridge is above its temperature limit (R262) -/
  hot : Bool
  /-- filtered levels of LIM_P, LIM_N and HOME: true while on (R253) -/
  inP : Bool
  inN : Bool
  inH : Bool
  /-- limits at which the axis has stopped (R254) -/
  stopP : Bool
  stopN : Bool
  /-- a homing step that a held CP3 keeps from beginning (R258) -/
  paused : Bool
  /-- chopper offsets of phases A and B, mA (R251) -/
  offA : Rat
  offB : Rat
  /-- the offset of phase A, of phase B, has sat at 400 mA for 100 ms (R251) -/
  satA : Bool
  satB : Bool
  /-- CELL records under which a changed axis still comes to rest (R267) -/
  old : Option (List Record)
  deriving DecidableEq, Repr

def AxSt.init : AxSt :=
  { speed := 0, frac := 0, vcmd := 0, cmdHow := 0, lim := 0, holdSpeed := false, turning := false, idle := true, stopping := none, bridges := false,
    driven := false, encReturn := false, rates := [], homePending := false, homeReq := none, homeBack := false, encCount := 0, encBase := 0,
    validEdges := 0, chatP := false, chatN := false, fltP := false, fltN := false, hot := false, inP := false, inN := false, inH := false,
    stopP := false, stopN := false, paused := false, offA := 0, offB := 0, satA := false, satB := false, old := none }

/-- A new axis keeps nothing but what its inputs show (R253, R267). -/
def AxSt.renewed (a : AxSt) : AxSt := { AxSt.init with inP := a.inP, inN := a.inN, inH := a.inH, hot := a.hot }

/-- The supplies of the field blocks (08, 09). -/
structure FieldSt where
  /-- digital blocks whose 50 ms at or above 17.0 V has run, waiting for the boundary (R236) -/
  restore : List Nat
  deriving DecidableEq, Repr

/-- An image of which parts have arrived: its number, how many parts it has, and those held (R289, R320). -/
structure Assembly where
  stroke : BitVec 64
  nparts : Nat
  parts : List (Nat × List (Nat × SigWord))
  deriving DecidableEq, Repr

/-- A peer context or a network publisher: assembly of images (R289, R320). -/
structure PeerSt where
  /-- incomplete images -/
  asm : List Assembly
  /-- the image completed last: a second copy of its parts is not wanted -/
  last : Option (BitVec 64)
  /-- newest complete image in the window: stroke, TS_UNITS, SYNC, entries -/
  image : Option (BitVec 64 × Nat × Bool × List (Nat × SigWord))
  /-- strokes without a complete image, and whether the second row of R290 holds -/
  silent : Nat
  timedOut : Bool
  deriving DecidableEq, Repr

def PeerSt.init : PeerSt := ⟨[], none, none, 0, false⟩

/-- A frame waiting for an egress port (R279, R280). -/
structure Waiting where
  f : ChainFrame
  /-- time base reading at the arrival of its first bit, in units of 2^−16 ns (R281) -/
  arrived : Nat
  /-- originated here, not forwarded; forwarded frames of its channel that have gone before it -/
  own : Bool
  passed : Nat
  /-- flits of it that have left; no other frame of its channel leaves before its last (R274) -/
  sent : Nat
  deriving DecidableEq, Repr

/-- One chain port (10). -/
structure ChainPortSt where
  /-- credits held toward the partner, flits sent since link UP, and flits freed from the own receive buffers, per VC (R275, R276) -/
  cred : List Nat
  sent : List Nat
  freed : List Nat
  /-- frames waiting to leave on this port, oldest first -/
  queue : List Waiting
  /-- the newest process image published while an older one is still leaving (R99) -/
  next : List ChainFrame
  deriving DecidableEq, Repr

def ChainPortSt.init : ChainPortSt := ⟨[0, 0, 0, 0], [0, 0, 0, 0], [0, 0, 0, 0], [], []⟩

/-- The chain (10). -/
structure ChainSt where
  /-- token kept from before ENUM (R284) -/
  kept : Option Nat
  provisional : Option Nat
  tokenSeen : Bool
  up : ChainPortSt
  down : ChainPortSt
  peers : Store PeerSt
  deriving DecidableEq, Repr

/-- A descriptor as read from its ring (R293); a receive descriptor has only BUF and LEN. -/
structure Desc where
  buf : Nat
  dest : Nat
  len : Nat
  op : Nat
  last : Bool
  daddr : Nat
  dqp : Nat
  deriving DecidableEq, Repr

/-- A queue pair (10 R292–R308). -/
structure QpSt where
  txSeq : BitVec 16
  /-- a frame of the present message has been sent -/
  txOpen : Bool
  /-- descriptors in progress -/
  txDesc : Option Desc
  rxDesc : Option Desc
  /-- granules of the transmit descriptor issued, and those read that have not left in a frame yet (R296, R300) -/
  txDone : Nat
  txBuf : List (List Byte)
  /-- granules of the transmit ring's present burst, and of the receive ring's, still to issue (R300) -/
  burst : Nat
  rxBurst : Nat
  /-- the BULK frame whose granules wait for the receive ring's turns, with how many are written, and the frames behind it (R297, R300) -/
  rxFrame : Option (ChainFrame × Nat)
  rxq : List ChainFrame
  /-- bytes of the receive descriptor used, skipped ones included -/
  rxUsed : Nat
  /-- message being received, and message whose rest is dropped: source, sending pair, MSGSEQ -/
  rxMsg : Option (Nat × Nat × Nat)
  rxDropped : Option (Nat × Nat × Nat)
  /-- the pair has entered RUN since it was new or changed: its rings run from READY to SERVICE (R299) -/
  live : Bool
  /-- the ring stops when its descriptor in progress completes -/
  txStop : Bool
  rxStop : Bool
  deriving DecidableEq, Repr

def QpSt.init : QpSt := ⟨0, false, none, none, 0, [], 0, 0, none, [], 0, none, none, false, false, false⟩

/-- A translation held by the TLB (R304). -/
structure TlbEntry where
  domain : Nat
  /-- a 2 MiB page -/
  big : Bool
  page : Nat
  pa : Nat
  rd : Bool
  wr : Bool
  deriving DecidableEq, Repr

/-- Queue block, DMA, IOMMU and the DMA-visible memory (10, 14). -/
structure QueueSt where
  qps : Store QpSt
  /-- IOMMU.ROOT of each domain -/
  roots : Store Word
  tlb : List TlbEntry
  /-- ring granted last, for turns among equal priorities: twice its queue pair number, and 1 more for a receive ring (R300) -/
  lastRing : Nat
  /-- DRAM bytes by physical address; an unlisted byte reads 0 (SELFTEST writes DRAM to zero, R432) -/
  mem : List Host.Cell
  /-- poisoned granules by physical address div 32 -/
  poison : List Nat
  /-- poisoned granules of SRAM (R378); a signal word, and a granule of the frame buffer, carry their poison themselves -/
  sram : List Nat
  deriving DecidableEq, Repr

/-- One network path (11). -/
structure PathSt where
  /-- link up without interruption for 100 ms -/
  held : Bool
  /-- diagnostic alarm flags read last -/
  diag : BitVec 16
  /-- a CYCLIC frame accepted in the running exchange cycle, and one with CALL; consecutive cycles with CALL -/
  heard : Bool
  heardCall : Bool
  callRun : Nat
  /-- exchange cycles left with CALL set -/
  calls : Nat
  /-- policer bucket: frames left, and the CLK_FAB cycle of the last refill -/
  bucket : Rat
  refilled : Nat
  /-- the transceiver in the cage (R314) -/
  cage : Option SfpId
  /-- CYCLIC frames of the image being sent that have not begun, and the newest image published meanwhile (R99) -/
  queue : List NetFrame
  next : List NetFrame
  /-- CLK_FAB cycle at which the frame being sent ends -/
  free : Nat
  deriving DecidableEq, Repr

def PathSt.init : PathSt := ⟨false, 0, false, false, 0, 0, 64, 0, none, [], [], 0⟩

/-- Network paths (11). -/
structure NetSt where
  a : PathSt
  b : PathSt
  /-- Snare line code: 0 free, 1 NA, 2 NB, 3 fault -/
  snare : BitVec 2
  /-- pending role change: 0 none, 1 manual, 2 follow, 3 automatic -/
  pendingKind : Nat
  publishers : Store PeerSt
  /-- publishers with a complete image in the window, in order of completion -/
  complete : List Nat
  /-- each import by SIGID: 0 bound to none, publisher + 1 bound (R321) -/
  bound : Store Nat
  /-- imports published from an image since their entry into the directory (R322) -/
  live : Store Bool
  /-- boundary count of the last trigger, and the path it left, until the first refreshed import (R327) -/
  gapFrom : Option (Nat × Path)
  /-- PDUs handed to the active path and not yet sent -/
  outPdus : List (BitVec 128)
  deriving DecidableEq, Repr

/-- A foreign master heard (R341): its last Announce, the CLK_FAB cycle of that, and whether a second one has come within four intervals. -/
structure MasterSt where
  a : Announce
  heard : Nat
  qualified : Bool
  deriving DecidableEq, Repr

/-- The time base and servo (12). -/
structure TimeSt where
  sec : BitVec 48
  ns : Nat
  frac : BitVec 32
  /-- CLK_FAB cycles since POWERUP -/
  cycles : Nat
  /-- the offset measured last, and whether that was in RUN or SERVICE (R339) -/
  prevOffset : Option Int
  prevIn : Bool
  within1us : Nat
  beyond10us : Nat
  /-- ADDEND at the last accepted Syncs in LOCKED, newest first, at most 64 -/
  addends : List Int
  parent : Option (BitVec 64)
  /-- grandmasterPriority1, offsetScaledLogVariance and grandmasterPriority2 that the parent announces (R343) -/
  quality : BitVec 8 × BitVec 16 × BitVec 8
  masters : List MasterSt
  /-- a two-step Sync that waits for its Follow_Up: sequenceId, time of arrival, correctionField; times and corrections in units of 2^−16 ns -/
  half : Option (BitVec 16 × Int × Int)
  /-- the last Sync accepted: when it was sent, when it arrived, and its correction (R337) -/
  sync : Option (Int × Int × Int)
  /-- the Delay_Req not yet answered: sequenceId, and when it left -/
  req : Option (BitVec 16 × Int)
  /-- meanPathDelay to the parent, once measured; and that the port has moved since, so that it is used until the next Delay_Resp (R342) -/
  delay : Option Int
  moved : Bool
  /-- each region's follower counter, as its reading less the master counter's, in ns (R334) -/
  followers : List Int
  /-- consecutive compares at which each region's follower was found off -/
  reloads : List Nat
  /-- what a TM.SET within 1 ms leaves to remove by slewing, in units of 2^−32 ns (R350) -/
  slew : Int
  /-- a step since the last boundary: 0 none, 1 one handled as forward, 2 backward of at most 1 s (R345) -/
  stepped : Nat
  /-- the time base reading that the last step took: boundaries and sampling periods of the new time do not lie before it (R345, R346) -/
  steppedTo : Option Nat
  /-- the last boundary in the present time, ns: a step moves it along -/
  edge : Int
  /-- CLK_FAB cycle of the last boundary -/
  edgeCycle : Nat
  /-- CLK_FAB cycle of the last change of HOLDADD (R337) -/
  holdAt : Nat
  /-- TM.ADDEND and TM.HOLDADD -/
  addend : Word
  holdadd : Word
  deriving DecidableEq, Repr

/-- A CAN transmit buffer (R362, R363). -/
structure TxBuf where
  id : Word
  dlc : Nat
  data : List Word
  deriving DecidableEq, Repr

def TxBuf.init : TxBuf := ⟨0, 0, List.replicate 16 0⟩

/-- An instance of an export frame (R360). -/
structure Export where
  id : BitVec 29
  ide : Bool
  fdf : Bool
  brs : Bool
  data : List Byte
  deriving DecidableEq, Repr

/-- A CAN controller (13). -/
structure CanSt where
  bufs : List TxBuf
  queue : List Export
  /-- frame in progress: buffer number, or an export instance -/
  onBus : Option (Nat ⊕ Export)
  supplyOk : Bool
  /-- CANn.CTRL:RECOVER has been accepted in BUS_OFF -/
  recovering : Bool
  deriving DecidableEq, Repr

def CanSt.init : CanSt := ⟨[TxBuf.init, TxBuf.init, TxBuf.init], [], none, true, false⟩

/-- A receive mailbox (R366–R368). -/
structure MbxSt where
  /-- a frame that arrived during a lock, with its time: seconds and nanoseconds -/
  shadow : Option (CanFrame × BitVec 32 × BitVec 32)
  newest : Option CanFrame
  /-- a frame has arrived since the previous publication -/
  fresh : Bool
  /-- a frame has arrived in the present stroke; strokes without a frame, and whether TIMEOUT has been reached -/
  heard : Bool
  silent : Nat
  timedOut : Bool
  deriving DecidableEq, Repr

def MbxSt.init : MbxSt := ⟨none, none, false, false, 0, false⟩

/-- The journal (14). -/
structure JournalSt where
  /-- the header granules (R384, R389): the physical block that stands behind each logical block, where another than its own number does, and its write
  count -/
  phys : Store (Option Nat)
  wear : Store Nat
  /-- logical blocks whose physical block stays in service read-only because nothing replaces it (R391), and those in which a write failed twice (R389) -/
  readOnly : List Nat
  worn : List Nat
  /-- home granules, block × 128 + index, of the committed transactions not yet applied, oldest first (R386) -/
  pend : List Nat
  /-- where the log goes on, as a granule of its partition -/
  logAt : Nat
  /-- granules that read uncorrectable, by block × 128 + index (R385) -/
  bad : List Nat
  /-- user trims: key channel × 64 + FUNC × 8 + RANGE → gain, offset (R222) -/
  trims : Store (Option (Word × Word))
  /-- channels whose factory calibration read poisoned in both copies (R385) -/
  fcalBad : List Nat
  deriving DecidableEq, Repr

/-- An occurrence offered to the recorder (R396). -/
structure Occurrence where
  src : Nat
  index : Nat
  mag : Word
  stroke : BitVec 64
  s : BitVec 32
  ns : BitVec 32
  key : Nat
  seq : Nat
  /-- SRC 12: the watched signal -/
  sig : Nat
  deriving DecidableEq, Repr

/-- What a code records (R398): over its life, within an interval, or since the last write. -/
structure Summary where
  count : Nat
  excess : Nat
  missed : Nat
  /-- MIN and MAX -/
  lo : Word
  hi : Word
  /-- timestamps: seconds [31:0], nanoseconds -/
  first : Word × Word
  last : Word × Word
  minTs : Word × Word
  maxTs : Word × Word
  bins : List Nat
  deriving DecidableEq, Repr

def Summary.zero : Summary := ⟨0, 0, 0, 0, 0, (0, 0), (0, 0), (0, 0), (0, 0), List.replicate 16 0⟩

/-- A log record (R401). -/
structure LogRec where
  code : Nat
  kind : Nat
  interval : Nat
  sum : Summary
  deriving DecidableEq, Repr

/-- The recorder (15). -/
structure RecSt where
  queue : List Occurrence
  seq : Nat
  /-- bucket of each code: tokens and the ns of the occurrence that left them; `none` full (R400) -/
  bucket : Store (Option (Rat × Nat))
  /-- misses pending while FROZEN (R404) -/
  frozen : Store Nat
  /-- summaries in force, moves within the interval, and moves since the last write (R401, R402, R407) -/
  sums : Store Summary
  part : Store Summary
  since : Store Summary
  /-- codes whose summary changed since the last write -/
  changed : List Nat
  /-- summaries in the journal, the power-fail area, and its records found unsealed -/
  saved : Store Summary
  area : List LogRec
  unsealed : Nat
  log : List LogRec
  /-- interval records of ended intervals that no write has taken yet (R402) -/
  due : List LogRec
  /-- CODE.CFG of the removed codes, readable until a CLEAR (R408, R412) -/
  gone : Store Word
  /-- INTERVAL of the interval in progress -/
  interval : Nat
  /-- last published value of a watched signal was 0.0 (R396 SRC 12) -/
  zero : Store Bool
  deriving DecidableEq, Repr

/-- An update that waits at a pixel: target, band, MODE 1, slot, and the number of its request. -/
structure PixelWait where
  target : BitVec 4
  band : Nat
  full : Bool
  slot : Nat
  request : Nat
  deriving DecidableEq, Repr

/-- A pixel of the main panel (R413–R420). -/
structure Pixel where
  /-- level o, previous level p, DC-balance counter c -/
  level : BitVec 4
  prev : BitVec 4
  bal : Int
  /-- the update being driven; its waveform begins at the next frame boundary -/
  drive : Option PixelWait
  begun : Bool
  /-- frames of the waveform still to drive: +1, −1, 0 -/
  frames : List Int
  /-- the pending update -/
  wait : Option PixelWait
  deriving DecidableEq, Repr

def Pixel.init : Pixel := ⟨15, 15, 0, none, false, [], none⟩

/-- The panel (16). -/
structure PanelSt where
  pixels : Store Pixel
  /-- frame-buffer bytes by index -/
  fb : Store Byte
  /-- poisoned frame-buffer granules -/
  poison : List Nat
  /-- VCON that the block drives toward, mV (R417) -/
  vconTarget : Nat
  /-- requests accepted, and those running for which a counter has saturated (R414) -/
  requests : Nat
  saturated : List Nat
  /-- frames left of the INIT waveform: every pixel is driven with them, and has what is left to drive as −c (R424) -/
  init : List Int
  /-- SRC = 1 is in force: from its write until the first rendering with SRC = 0 (R423) -/
  src : Bool
  /-- the layout and the rows rendered last (R421) -/
  page : Nat × List Config.RowText
  /-- shorted and discharged by the last step of the power-fail sequence (R426) -/
  discharged : Bool
  /-- ENUM has been entered since POWERUP (R424) -/
  enumSeen : Bool
  deriving DecidableEq, Repr

/-- Supplies and power failure (17). -/
structure PowerSt where
  /-- a capacitance measurement runs (R435) -/
  measuring : Bool
  /-- MOD.STATE code in force when PFAIL was entered (R440) -/
  pfPrev : Nat
  /-- SUP at t0, mV (R440) -/
  supMv : Nat
  /-- steps of the power-fail sequence completed, the step under way, and no further step starts (R437, R438) -/
  steps : Nat
  begun : Nat
  barred : Bool
  /-- the sequence is abandoned: PWR.PFLAST:ABCAUSE (R431, R438) -/
  abandoned : Nat
  /-- the sequence has ended; the stored energy has run out -/
  ended : Bool
  unpowered : Bool
  /-- reference clocks known to be out of tolerance: NA, NB, CH (R429) -/
  refBad : BitVec 3
  deriving DecidableEq, Repr

/-- A pending write of a bonded pair (R452). -/
structure PairWrite where
  addr : BitVec 16
  value : BitVec 16
  left : Nat
  deriving DecidableEq, Repr

/-- An alarm-queue entry (R455). -/
structure Alarm where
  seq : BitVec 16
  event : BitVec 8
  source : BitVec 16
  state : BitVec 16
  stamp : BitVec 48
  deriving DecidableEq, Repr

/-- An event of R455 that the alarm queue has not accepted yet: the CLK_FAB cycle of its detection and its ordering key (R98). -/
structure Notice where
  cycle : Nat
  key : Nat
  kind : AlarmKind
  source : Nat
  state : Nat
  deriving DecidableEq, Repr

/-- Tabor mode (18). -/
structure TaborSt where
  queue : List Alarm
  /-- events detected and not yet offered to the queue, in the order of R98 (R455) -/
  noticed : List Notice
  seq : BitVec 16
  refused : Nat
  pairs : List PairWrite
  /-- latched high halves of DICNTi: register address, value, requester (R450) -/
  latch : List (BitVec 16 × BitVec 16 × Nat)
  deriving DecidableEq, Repr

/-- Management (19). -/
structure MgmtSt where
  /-- transactions waiting, each with the CLK_FAB cycle of its arrival (R471) -/
  queue : List (Nat × MgmtReq)
  /-- transactions held until the decision on one of their writes (R470), oldest first -/
  held : List MgmtReq
  /-- remembered requests, newest first, with the response's bytes and the CLK_FAB cycle at which it was given (R472) -/
  memory : List (MgmtReq × Option (List Byte × Nat))
  deriving DecidableEq, Repr

/-- The module. -/
structure State where
  /-- commands waiting, first in, first out -/
  pending : List Instr
  regs : Store Word
  outbox : List Output
  /-- counter of free values: the model's own field -/
  free : Nat
  fab : FabricSt
  img : ImageSt
  toc : TocsinSt
  ucs : Store UcSt
  dps : Store DpSt
  axs : Store AxSt
  fld : FieldSt
  chain : ChainSt
  q : QueueSt
  net : NetSt
  time : TimeSt
  can0 : CanSt
  can1 : CanSt
  mbx : Store MbxSt
  jrn : JournalSt
  recd : RecSt
  pnl : PanelSt
  pwr : PowerSt
  tab : TaborSt
  mgmt : MgmtSt
  deriving DecidableEq, Repr

/-- ADDEND at POWERUP: the factory trim, within the limit of ADDEND (R333, R336). -/
def trimAddend : Word := BitVec.ofInt 32 (max (-8589934) (min 8589934 Config.factoryTrim.toInt))

/-- Registers whose reset value is not 0, by service address; the spec's register maps give each. -/
def resetRegs : Store Word :=
  [ (0x104FFF20, 0x2), -- DB0 DB.FS: MISSING (R243)
    (0x105FFF20, 0x2), -- DB1 DB.FS: MISSING (R243)
    (0x106FFF20, 0x2), -- DB2 DB.FS: MISSING (R243)
    (0x107FFF20, 0x2), -- DB3 DB.FS: MISSING (R243)
    (0x108FFF20, 0x5), -- MB0 MB.MS: UNDER, OFF (R269)
    (0x109FFF20, 0x5), -- MB1 MB.MS: UNDER, OFF (R269)
    (0x218FFF20, 0x40), -- TB.STATUS: MFLTOPEN (R196)
    (0x218FFF64, 0xFFFFFFFF), -- TB.TRIPPED0: every trip output tripped (R196)
    (0x218FFF68, 0xFFFFFFFF), -- TB.TRIPPED1: every trip output tripped (R196)
    (0x218FFF6C, 0xFFFFFFFF), -- TB.TRIPPED2: every trip output tripped (R196)
    (0x218FFF70, 0xFFFFFFFF), -- TB.TRIPPED3: every trip output tripped (R196)
    (0x300FFF20, 0x5), -- NA NET.CFG: PMODE 1, AN 1 (R332)
    (0x300FFF24, 0x16000), -- NET.VLAN: PCPDATA 6, PCPMGMT 2
    (0x300FFF2C, 0x140001), -- NET.XCFG: ECDIV 1, IMPTMO 20
    (0x301FFF20, 0x5), -- NB NET.CFG: PMODE 1, AN 1 (R332)
    (0x301FFF24, 0x16000), -- NET.VLAN: PCPDATA 6, PCPMGMT 2
    (0x301FFF2C, 0x140001), -- NET.XCFG: ECDIV 1, IMPTMO 20
    (0x304FFF20, 0x600320), -- TM.CFG: SLEWMAX 100, LOGSYNC −4 (R352)
    (0x304FFF28, 0x18), -- TM.STATUS: PORT 3
    (0x304FFFC0, 0x10008), -- STK.CFG: TS_UNITS 8, SYNC 1 (R107)
    (0x305FFF20, 0x4022), -- CAN0.CFG: FDEN, BOAUTO, ALONELIM 64 (R371)
    (0x305FFF24, 0xA144E0A), -- NBT: 10, 39, 10, 10
    (0x305FFF28, 0x15665), -- DBT: 5, 19, 5, 5
    (0x305FFF90, 0x4022), -- CAN1.CFG: FDEN, BOAUTO, ALONELIM 64 (R371)
    (0x305FFF94, 0xA144E0A), -- NBT: 10, 39, 10, 10
    (0x305FFF98, 0x15665), -- DBT: 5, 19, 5, 5
    (0x400FFF3C, 0xC), -- MEM.SCRUB: PERIOD 12 (R393)
    (0x401FFF24, 0x200), -- NVJ.SPARES: 512 (R384)
    (0x401FFF28, 0x4103AF0), -- NVJ.PART: 15,088 and 1,040 (R384)
    (0x402FFF20, 0x3C), -- REC.CFG: PERIOD 60 (R410)
    (0x402FFF30, 0x75600), -- REC.LOGCAP: 480,768 (R401)
    (0x403FFF38, 0x1DF8F), -- PNL.RECT1: 399, 239 (R427)
    (0x404FFF2C, 0x1) ] -- PWR.RST: CAUSE 1, the first start (R430)

/-- The module right after its first power-on reset (R22, R430): POWERUP, no command waiting, every register at its reset value, the journal as the
module leaves Fladom (R384, R460): no image, no key, Carillon mode. -/
def State.reset : State :=
  { pending := [], regs := resetRegs, outbox := [], free := 0,
    fab := { words := [], back := [], ports := [], before := none, late := [], freshAt := [], boundaries := 0, opened := false, staged := [], forces := [], runPending := false, stopPending := false, cells := [],
             blocks := [], fcs := [], loops := [], phasors := [] },
    img := { b0 := Bank.empty, b1 := Bank.empty, active := [], next := [], nextBank := false, atStroke := false, atNo := 0, committed := false, bootUpdate := false,
             keys := [0, 0, 0, 0] },
    toc := { inputs := [], conns := [], tx := [], safeIn := false, serviceFromSafe := false, column := false, rails := 0, resetLevel := [],
             resets := [], trippedAt := [], scanned := false, cp0Ok := true, hardCp0 := false, matrixBad := false },
    ucs := [], dps := [], axs := [], fld := { restore := [] },
    chain := { kept := none, provisional := none, tokenSeen := false, up := ChainPortSt.init, down := ChainPortSt.init, peers := [] },
    q := { qps := [], roots := [], tlb := [], lastRing := 63, mem := [], poison := [], sram := [] },
    net := { a := PathSt.init, b := PathSt.init, snare := 0, pendingKind := 0, publishers := [], complete := [], bound := [], live := [],
             gapFrom := none, outPdus := [] },
    time := { sec := 0, ns := 0, frac := 0, cycles := 0, prevOffset := none, prevIn := false, within1us := 0, beyond10us := 0, addends := [], parent := none,
              quality := (0, 0, 0), masters := [], half := none, sync := none, req := none, delay := none, moved := false,
              followers := [0, 0, 0, 0, 0], reloads := [0, 0, 0, 0, 0], slew := 0, stepped := 0, steppedTo := none, edge := 0, edgeCycle := 0,
              holdAt := 0, addend := trimAddend, holdadd := trimAddend },
    can0 := CanSt.init, can1 := CanSt.init, mbx := [],
    jrn := { phys := [], wear := [], readOnly := [], worn := [], pend := [], logAt := 0, bad := [], trims := [], fcalBad := [] },
    recd := { queue := [], seq := 0, bucket := [], frozen := [], sums := [], part := [], since := [], changed := [], saved := [], area := [],
              unsealed := 0, log := [], due := [], gone := [], interval := 0, zero := [] },
    pnl := { pixels := [], fb := [], poison := [], vconTarget := 0, requests := 0, saturated := [], init := [], src := false, page := (0, []),
             discharged := false, enumSeen := false },
    pwr := { measuring := false, pfPrev := 0, supMv := 0, steps := 0, begun := 0, barred := false, abandoned := 0, ended := false, unpowered := false, refBad := 0 },
    tab := { queue := [], noticed := [], seq := 0, refused := 0, pairs := [], latch := [] },
    mgmt := { queue := [], held := [], memory := [] } }

end Sys2Proof.Machine
end

