-- ==== Sys2Proof/Machine/Flags.lean ====
section
/-! DEFINITION. Quality codes and flags of signal words: R11, R12, R76, R80. -/

namespace Sys2Proof.Machine

/-! Quality codes (R12). -/

abbrev Qual := BitVec 4

def Q_GOOD : Qual := 0
def Q_HELD : Qual := 1
def Q_SUBSTITUTED : Qual := 2
def Q_UNCERTAIN : Qual := 3
def Q_LOW_RANGE : Qual := 4
def Q_HIGH_RANGE : Qual := 5
def Q_COMPLIANCE : Qual := 6
def Q_SIMULATED : Qual := 7
def Q_BAD_SENSOR : Qual := 8
def Q_BAD_COMM : Qual := 9
def Q_BAD_CONFIG : Qual := 10
def Q_BAD_HW : Qual := 11
def Q_SAFE : Qual := 12

/-- A reserved code counts as BAD_CONFIG with its consumer (R12). -/
def qualSeen (q : Qual) : Qual := if q.toNat ≤ 12 then q else Q_BAD_CONFIG

/-- The four BAD codes, and the reserved codes, that send an input to its fallback (R78 step 1). -/
def qualBad (q : Qual) : Bool := 8 ≤ q.toNat && q != Q_SAFE

/-- Rank for combination (R80). -/
def qualRank (q : Qual) : Nat :=
  match q.toNat with
  | 0 => 0
  | 7 => 1
  | 3 => 2
  | 4 => 3
  | 5 => 3
  | 6 => 3
  | 1 => 4
  | 2 => 5
  | 12 => 6
  | 9 => 7
  | 8 => 8
  | 11 => 10
  | _ => 9

/-- The quality of higher rank; between equal ranks the lower code (R80). -/
def qualWorse (a b : Qual) : Qual :=
  if qualRank a < qualRank b then b
  else if qualRank b < qualRank a then a
  else if a.toNat ≤ b.toNat then a else b

/-- Combination of the qualities of several inputs (R80); none combine to GOOD. -/
def qualCombine (l : List Qual) : Qual := l.foldl qualWorse Q_GOOD

/-! Flags of a signal word, bit 0 standing for bit 16 of the word (R76). -/

def FL_SIM : BitVec 12 := 0x001
def FL_FORCED : BitVec 12 := 0x002
def FL_MANUAL : BitVec 12 := 0x004
def FL_LIM_LO : BitVec 12 := 0x008
def FL_LIM_HI : BitVec 12 := 0x010
def FL_INIT : BitVec 12 := 0x020
def FL_IMPORT : BitVec 12 := 0x040
def FL_CORR : BitVec 12 := 0x080
def FL_TRIPPED : BitVec 12 := 0x100

/-- A flag where a condition holds. -/
def flIf (c : Bool) (f : BitVec 12) : BitVec 12 := if c then f else 0

/-- The flags that pass from inputs to a result: SIM and FORCED (R80). -/
def flPassed (f : BitVec 12) : BitVec 12 := f &&& 0x003

/-- INIT and CORR describe only the publication that carries them: a word published without a refresh carries both clear (R76). -/
def flKept (f : BitVec 12) : BitVec 12 := f &&& 0xF5F

/-- A flag is set in a flags field. -/
def flHas (f g : BitVec 12) : Bool := f &&& g != 0

/-- A word one boundary older, not refreshed (R69, R74, R76); the age saturates at 65,535 (R11). -/
def SigWord.aged (w : SigWord) : SigWord :=
  { w with flags := flKept w.flags, age := min (w.age + 1) 65535 }

/-- The 64 bits of a signal word (R11). -/
def SigWord.bits (w : SigWord) : BitVec 64 :=
  BitVec.ofNat 64 (w.val.toNat * 2 ^ 32 + w.qual.toNat * 2 ^ 28 + w.flags.toNat * 2 ^ 16 + w.age % 65536)

/-- A signal word read from its 64 bits (R11). -/
def SigWord.ofBits (b : BitVec 64) : SigWord :=
  ⟨BitVec.ofNat 32 (b.toNat / 2 ^ 32), BitVec.ofNat 4 (b.toNat / 2 ^ 28), BitVec.ofNat 12 (b.toNat / 2 ^ 16), b.toNat % 65536⟩

/-- What a signal carries before its first publication (R56). -/
def SigWord.fresh : SigWord := ⟨0, Q_UNCERTAIN, 0, 65535⟩

end Sys2Proof.Machine
end

