-- ==== Sys2Proof/Machine/RegMap.lean ====
section
/-! DEFINITION. The register field maps of the spec, one `Field` per field that a map names (reserved bits are the bits no field covers, R4).
Each constant is written from its row of the table of the rule named beside its group: offset, lowest bit, width, access code (R3). -/

namespace Sys2Proof.Machine

/-- Register access codes (R3). -/
inductive Acc where
  | ro | rw | wo | rclr
  deriving DecidableEq, Repr

/-- One field of a register: its offset in its cell or block page, lowest bit, width, access code (R3). -/
structure Field where
  off : Nat
  lo : Nat
  width : Nat
  acc : Acc
  deriving DecidableEq, Repr

/-- The register maps: one per table of the spec. -/
inductive Page where
  | img | cell | blk | fc | stk | lp | ph | tb | tout | cp | uc | dp | db | ax | mb | ch | pc | qb | qp | net | tm | can | mbx | mem | nvj | recd | code | pnl | pwr | tab | modr | recd2 | none
  deriving DecidableEq, Repr

end Sys2Proof.Machine

namespace Sys2Proof.Machine.Reg


/-! 02_station_image.md R63 -/
def IMG_CTRL_OP : Field := ⟨0x80, 0, 4, .wo⟩
def IMG_CTRL_BANK : Field := ⟨0x80, 4, 1, .rw⟩
def IMG_CTRL_ATSTROKE : Field := ⟨0x80, 5, 1, .rw⟩
def IMG_STATUS_ACTIVE : Field := ⟨0x84, 0, 1, .ro⟩
def IMG_STATUS_BOOT : Field := ⟨0x84, 1, 1, .ro⟩
def IMG_STATUS_PHASE : Field := ⟨0x84, 2, 3, .ro⟩
def IMG_STATUS_RESULT : Field := ⟨0x84, 8, 8, .ro⟩
def IMG_STATUS_B0VALID : Field := ⟨0x84, 16, 1, .ro⟩
def IMG_STATUS_B0SAVED : Field := ⟨0x84, 17, 1, .ro⟩
def IMG_STATUS_B1VALID : Field := ⟨0x84, 18, 1, .ro⟩
def IMG_STATUS_B1SAVED : Field := ⟨0x84, 19, 1, .ro⟩
def IMG_STATUS_VOLATILE : Field := ⟨0x84, 20, 1, .ro⟩
def IMG_STATUS_B0DELTA : Field := ⟨0x84, 21, 1, .ro⟩
def IMG_STATUS_B1DELTA : Field := ⟨0x84, 22, 1, .ro⟩
def IMG_FAILREC_INDEX : Field := ⟨0x88, 0, 16, .ro⟩
def IMG_FAILREC_SECTION : Field := ⟨0x88, 16, 1, .ro⟩
def IMG_FAILREC_STAGE : Field := ⟨0x88, 17, 3, .ro⟩
def IMG_NEXT_NEXT : Field := ⟨0x8C, 0, 17, .ro⟩
def IMG_AT : Field := ⟨0x90, 0, 32, .rw⟩
def IMG_ID_LO : Field := ⟨0x94, 0, 32, .ro⟩
def IMG_ID_HI : Field := ⟨0x98, 0, 32, .ro⟩
def IMG_BASE_LO : Field := ⟨0x9C, 0, 32, .ro⟩
def IMG_BASE_HI : Field := ⟨0xA0, 0, 32, .ro⟩
def IMG_STATION : Field := ⟨0xA4, 0, 32, .ro⟩
def IMG_CORR_CORR : Field := ⟨0xA8, 0, 16, .rclr⟩
def IMG_COMMITS_COMMITS : Field := ⟨0xAC, 0, 16, .rclr⟩
def IMG_COMMITS_ABANDONED : Field := ⟨0xAC, 16, 16, .rclr⟩
def IMG_RECW0 : Field := ⟨0xB0, 0, 32, .wo⟩
def IMG_RECW1 : Field := ⟨0xB4, 0, 32, .wo⟩
def IMG_RECW2 : Field := ⟨0xB8, 0, 32, .wo⟩
def IMG_RECW3 : Field := ⟨0xBC, 0, 32, .wo⟩
def IMG_RECW4 : Field := ⟨0xC0, 0, 32, .wo⟩
def IMG_RECW5 : Field := ⟨0xC4, 0, 32, .wo⟩
def IMG_RECW6 : Field := ⟨0xC8, 0, 32, .wo⟩
def IMG_RECW7 : Field := ⟨0xCC, 0, 32, .wo⟩
def IMG_RECW8 : Field := ⟨0xD0, 0, 32, .wo⟩
def KEY_STATE_SLOT0 : Field := ⟨0xD4, 0, 2, .ro⟩
def KEY_STATE_SLOT1 : Field := ⟨0xD4, 2, 2, .ro⟩
def KEY_STATE_SLOT2 : Field := ⟨0xD4, 4, 2, .ro⟩
def KEY_STATE_SLOT3 : Field := ⟨0xD4, 6, 2, .ro⟩
def KEY_USE_INUSE : Field := ⟨0xD8, 0, 4, .ro⟩
def KEY_DATA0 : Field := ⟨0xDC, 0, 32, .wo⟩
def KEY_DATA1 : Field := ⟨0xE0, 0, 32, .wo⟩
def KEY_DATA2 : Field := ⟨0xE4, 0, 32, .wo⟩
def KEY_DATA3 : Field := ⟨0xE8, 0, 32, .wo⟩
def KEY_DATA4 : Field := ⟨0xEC, 0, 32, .wo⟩
def KEY_DATA5 : Field := ⟨0xF0, 0, 32, .wo⟩
def KEY_DATA6 : Field := ⟨0xF4, 0, 32, .wo⟩
def KEY_DATA7 : Field := ⟨0xF8, 0, 32, .wo⟩
def KEY_CTRL_SLOT : Field := ⟨0xFC, 0, 2, .wo⟩
def KEY_CTRL_OP : Field := ⟨0xFC, 2, 2, .wo⟩

/-! 03_fabric_and_strokes.md R104 -/
def CELL_STATE_STATE : Field := ⟨0x00, 0, 3, .ro⟩
def CELL_STATE_SOURCE : Field := ⟨0x00, 3, 2, .ro⟩
def CELL_STATE_QUAL : Field := ⟨0x00, 5, 4, .ro⟩
def CELL_STATE_ISOL : Field := ⟨0x00, 9, 1, .ro⟩
def CELL_STATE_LATCHED : Field := ⟨0x00, 10, 1, .ro⟩
def CELL_STATE_RETRIES : Field := ⟨0x00, 11, 2, .ro⟩
def CELL_STATE_EXISTS : Field := ⟨0x00, 13, 1, .ro⟩
def CELL_ERR_ERRORS : Field := ⟨0x04, 0, 16, .rclr⟩
def CELL_ERR_ISOLATIONS : Field := ⟨0x04, 16, 16, .rclr⟩
def CELL_CTRL_CLEAR : Field := ⟨0x08, 0, 1, .wo⟩
def CELL_CTRL_TESTOP : Field := ⟨0x08, 1, 2, .wo⟩
def CELL_FORCE_MODE : Field := ⟨0x0C, 0, 2, .rw⟩
def CELL_FORCE_PORT : Field := ⟨0x0C, 2, 4, .rw⟩
def CELL_FVAL : Field := ⟨0x10, 0, 32, .rw⟩

/-! 03_fabric_and_strokes.md R105 -/
def BLK_STATE_STATE : Field := ⟨0x00, 0, 2, .ro⟩
def BLK_STATE_LATCHED : Field := ⟨0x00, 2, 1, .ro⟩
def BLK_STATE_RETRIES : Field := ⟨0x00, 3, 2, .ro⟩
def BLK_STATE_ISOCELLS : Field := ⟨0x00, 5, 9, .ro⟩
def BLK_ERR_ERRORS : Field := ⟨0x04, 0, 16, .rclr⟩
def BLK_ERR_OVERRUNS : Field := ⟨0x04, 16, 16, .rclr⟩
def BLK_LOAD_EVAL : Field := ⟨0x08, 0, 16, .rclr⟩
def BLK_LOAD_TOK : Field := ⟨0x08, 16, 16, .rclr⟩
def BLK_CTRL_REINT : Field := ⟨0x0C, 0, 1, .wo⟩

/-! 03_fabric_and_strokes.md R106 -/
def FC_OP_OP : Field := ⟨0x20, 0, 8, .ro⟩
def FC_OP_NIN : Field := ⟨0x20, 8, 8, .ro⟩
def FC_OP_OPT : Field := ⟨0x20, 16, 8, .ro⟩
def FC_P0 : Field := ⟨0x24, 0, 32, .rw⟩
def FC_P1 : Field := ⟨0x28, 0, 32, .rw⟩
def FC_P2 : Field := ⟨0x2C, 0, 32, .rw⟩
def FC_P3 : Field := ⟨0x30, 0, 32, .rw⟩
def FC_COST_CYCLES : Field := ⟨0x34, 0, 16, .ro⟩

/-! 03_fabric_and_strokes.md R107 -/
def STK_CFG_TS_UNITS : Field := ⟨0xC0, 0, 10, .ro⟩
def STK_CFG_SYNC : Field := ⟨0xC0, 16, 1, .rw⟩
def STK_NUM_LO : Field := ⟨0xC4, 0, 32, .ro⟩
def STK_NUM_HI : Field := ⟨0xC8, 0, 32, .ro⟩
def STK_TB_NS : Field := ⟨0xCC, 0, 32, .ro⟩
def STK_TB_SLO : Field := ⟨0xD0, 0, 32, .ro⟩
def STK_TB_SHI_S : Field := ⟨0xD4, 0, 16, .ro⟩
def STK_PHASE : Field := ⟨0xD8, 0, 32, .rw⟩
def STK_SLIP_SLIPS : Field := ⟨0xDC, 0, 16, .rclr⟩
def STK_SLIP_LATE : Field := ⟨0xDC, 16, 16, .rclr⟩

/-! 04_loop_engine.md R142 -/
def LP_MODE_REQ : Field := ⟨0x20, 0, 2, .rw⟩
def LP_MODE_ACT : Field := ⟨0x20, 2, 2, .ro⟩
def LP_MODE_SHED : Field := ⟨0x20, 4, 1, .ro⟩
def LP_MODE_EXTLIM : Field := ⟨0x20, 5, 1, .ro⟩
def LP_MODE_PVBAD : Field := ⟨0x20, 6, 1, .ro⟩
def LP_MODE_SATLO : Field := ⟨0x20, 7, 1, .ro⟩
def LP_MODE_SATHI : Field := ⟨0x20, 8, 1, .ro⟩
def LP_MODE_SPRAMP : Field := ⟨0x20, 9, 1, .ro⟩
def LP_MODE_INITREQ : Field := ⟨0x20, 10, 1, .ro⟩
def LP_SP : Field := ⟨0x24, 0, 32, .rw⟩
def LP_MAN : Field := ⟨0x28, 0, 32, .rw⟩
def LP_OUT : Field := ⟨0x2C, 0, 32, .ro⟩
def LP_WSP : Field := ⟨0x30, 0, 32, .ro⟩
def LP_PV : Field := ⟨0x34, 0, 32, .ro⟩
def LP_INT : Field := ⟨0x38, 0, 32, .ro⟩
def LP_CALC : Field := ⟨0x3C, 0, 32, .ro⟩
def LP_GAIN_GSEL : Field := ⟨0x40, 0, 3, .rw⟩
def LP_GAIN_ACTIVE : Field := ⟨0x40, 3, 3, .ro⟩
def LP_GAIN_BLEND : Field := ⟨0x40, 6, 1, .ro⟩
def LP_GAIN_DLEVEL : Field := ⟨0x40, 7, 3, .ro⟩
def LP_GAIN_OSCLIM : Field := ⟨0x40, 10, 1, .ro⟩
def LP_GAIN_DRESET : Field := ⟨0x40, 11, 1, .wo⟩
def LP_KP : Field := ⟨0x44, 0, 32, .rw⟩
def LP_TI : Field := ⟨0x48, 0, 32, .rw⟩
def LP_TD : Field := ⟨0x4C, 0, 32, .rw⟩
def LP_BETA : Field := ⟨0x50, 0, 32, .rw⟩
def LP_N : Field := ⟨0x54, 0, 32, .rw⟩
def LP_KFF : Field := ⟨0x58, 0, 32, .rw⟩
def LP_RATE_UP : Field := ⟨0x5C, 0, 32, .rw⟩
def LP_RATE_DN : Field := ⟨0x60, 0, 32, .rw⟩
def LP_OSC_DETECTS : Field := ⟨0x64, 0, 16, .rclr⟩
def LP_OSC_RELAXES : Field := ⟨0x64, 16, 16, .rclr⟩
def LP_CNT_SWITCHES : Field := ⟨0x68, 0, 16, .rclr⟩
def LP_CNT_SHEDS : Field := ⟨0x68, 16, 16, .rclr⟩
def LP_SEL_SELECTED : Field := ⟨0x6C, 0, 2, .ro⟩
def LP_SEL_TAKEOVERS : Field := ⟨0x6C, 16, 16, .rclr⟩

/-! 05_phasor_engine.md R162 -/
def PH_STATUS_SYNC : Field := ⟨0x20, 0, 3, .ro⟩
def PH_STATUS_LOCKINC : Field := ⟨0x20, 3, 1, .ro⟩
def PH_STATUS_LOCKRUN : Field := ⟨0x20, 4, 1, .ro⟩
def PH_STATUS_PERMIT : Field := ⟨0x20, 5, 1, .ro⟩
def PH_STATUS_LIVEINC : Field := ⟨0x20, 6, 1, .ro⟩
def PH_STATUS_LIVERUN : Field := ⟨0x20, 7, 1, .ro⟩
def PH_STATUS_EVT : Field := ⟨0x20, 8, 5, .ro⟩
def PH_STATUS_INVALID : Field := ⟨0x20, 13, 1, .ro⟩
def PH_F_INC : Field := ⟨0x24, 0, 32, .ro⟩
def PH_F_RUN : Field := ⟨0x28, 0, 32, .ro⟩
def PH_DPHI : Field := ⟨0x2C, 0, 32, .ro⟩
def PH_SLIP : Field := ⟨0x30, 0, 32, .ro⟩
def PH_SRATE : Field := ⟨0x34, 0, 32, .ro⟩
def PH_P : Field := ⟨0x38, 0, 32, .ro⟩
def PH_Q : Field := ⟨0x3C, 0, 32, .ro⟩
def PH_RMS0 : Field := ⟨0x40, 0, 32, .ro⟩
def PH_RMS1 : Field := ⟨0x44, 0, 32, .ro⟩
def PH_RMS2 : Field := ⟨0x48, 0, 32, .ro⟩
def PH_RMS3 : Field := ⟨0x4C, 0, 32, .ro⟩
def PH_RMS4 : Field := ⟨0x50, 0, 32, .ro⟩
def PH_RMS5 : Field := ⟨0x54, 0, 32, .ro⟩
def PH_RMS6 : Field := ⟨0x58, 0, 32, .ro⟩
def PH_RMS7 : Field := ⟨0x5C, 0, 32, .ro⟩
def PH_ANG0 : Field := ⟨0x60, 0, 32, .ro⟩
def PH_ANG1 : Field := ⟨0x64, 0, 32, .ro⟩
def PH_ANG2 : Field := ⟨0x68, 0, 32, .ro⟩
def PH_ANG3 : Field := ⟨0x6C, 0, 32, .ro⟩
def PH_ANG4 : Field := ⟨0x70, 0, 32, .ro⟩
def PH_ANG5 : Field := ⟨0x74, 0, 32, .ro⟩
def PH_ANG6 : Field := ⟨0x78, 0, 32, .ro⟩
def PH_ANG7 : Field := ⟨0x7C, 0, 32, .ro⟩
def PH_TCB : Field := ⟨0x80, 0, 32, .rw⟩
def PH_CTRL_BLOCK : Field := ⟨0x84, 0, 1, .wo⟩
def PH_CNT_CLOSES : Field := ⟨0x88, 0, 16, .rclr⟩
def PH_CNT_ABANDONS : Field := ⟨0x88, 16, 16, .rclr⟩
def PH_ERR_GAPS : Field := ⟨0x8C, 0, 16, .rclr⟩
def PH_ERR_UNLOCKS : Field := ⟨0x8C, 16, 16, .rclr⟩
def PH_PT_NS : Field := ⟨0x90, 0, 32, .ro⟩
def PH_PT_S : Field := ⟨0x94, 0, 32, .ro⟩
def PH_ADV : Field := ⟨0x98, 0, 32, .ro⟩

/-! 06_tocsin_and_lockstep.md R196 -/
def TB_STATUS_TSTATE : Field := ⟨0x20, 0, 2, .ro⟩
def TB_STATUS_STPASS : Field := ⟨0x20, 2, 1, .ro⟩
def TB_STATUS_DBGFLAG : Field := ⟨0x20, 3, 1, .ro⟩
def TB_STATUS_SAFEIN : Field := ⟨0x20, 4, 1, .ro⟩
def TB_STATUS_HWSAFE : Field := ⟨0x20, 5, 1, .ro⟩
def TB_STATUS_MFLTOPEN : Field := ⟨0x20, 6, 1, .ro⟩
def TB_STATUS_RETESTING : Field := ⟨0x20, 7, 1, .ro⟩
def TB_STATUS_NBYP : Field := ⟨0x20, 8, 4, .ro⟩
def TB_CAUSE_FIRST : Field := ⟨0x24, 0, 4, .ro⟩
def TB_CAUSE_PAIR : Field := ⟨0x24, 4, 2, .ro⟩
def TB_CAUSE_SUB : Field := ⟨0x24, 6, 4, .ro⟩
def TB_CAUSE_LATCHED : Field := ⟨0x24, 16, 6, .ro⟩
def TB_CTRL_ACK : Field := ⟨0x28, 0, 1, .wo⟩
def TB_CTRL_RETEST : Field := ⟨0x28, 1, 1, .wo⟩
def TB_SCANCNT : Field := ⟨0x2C, 0, 32, .ro⟩
def TB_SCANMAX_EVALNS : Field := ⟨0x30, 0, 16, .rclr⟩
def TB_SCANMAX_MISSED : Field := ⟨0x30, 16, 16, .rclr⟩
def TB_TISEL_INPUT : Field := ⟨0x34, 0, 8, .rw⟩
def TB_TISTAT_STATE : Field := ⟨0x38, 0, 2, .ro⟩
def TB_TISTAT_BYPASS : Field := ⟨0x38, 2, 1, .ro⟩
def TB_TISTAT_RAW : Field := ⟨0x38, 3, 1, .ro⟩
def TB_TISTAT_BYPREM : Field := ⟨0x38, 16, 16, .ro⟩
def TB_TIBYP_SECONDS : Field := ⟨0x3C, 0, 16, .wo⟩
def TB_TICNT_DEMANDS : Field := ⟨0x40, 0, 16, .rclr⟩
def TB_TICNT_INVALIDS : Field := ⟨0x40, 16, 16, .rclr⟩
def TB_DEMAND0 : Field := ⟨0x44, 0, 32, .ro⟩
def TB_DEMAND1 : Field := ⟨0x48, 0, 32, .ro⟩
def TB_DEMAND2 : Field := ⟨0x4C, 0, 32, .ro⟩
def TB_DEMAND3 : Field := ⟨0x50, 0, 32, .ro⟩
def TB_DEMAND4 : Field := ⟨0x54, 0, 32, .ro⟩
def TB_DEMAND5 : Field := ⟨0x58, 0, 32, .ro⟩
def TB_DEMAND6 : Field := ⟨0x5C, 0, 32, .ro⟩
def TB_DEMAND7 : Field := ⟨0x60, 0, 32, .ro⟩
def TB_TRIPPED0 : Field := ⟨0x64, 0, 32, .ro⟩
def TB_TRIPPED1 : Field := ⟨0x68, 0, 32, .ro⟩
def TB_TRIPPED2 : Field := ⟨0x6C, 0, 32, .ro⟩
def TB_TRIPPED3 : Field := ⟨0x70, 0, 32, .ro⟩
def TB_SCSEL_CONN : Field := ⟨0x74, 0, 4, .rw⟩
def TB_SCSTAT_VALID : Field := ⟨0x78, 0, 1, .ro⟩
def TB_SCSTAT_SENDERSAFE : Field := ⟨0x78, 1, 1, .ro⟩
def TB_SCSTAT_LASTSEQ : Field := ⟨0x78, 16, 16, .ro⟩
def TB_SCCNT_SEQERR : Field := ⟨0x7C, 0, 16, .rclr⟩
def TB_SCCNT_TIMEOUTS : Field := ⟨0x7C, 16, 16, .rclr⟩
def TB_SCFAIL_CRCERR : Field := ⟨0x80, 0, 16, .rclr⟩
def TB_SCFAIL_UNKNOWN : Field := ⟨0x80, 16, 16, .rclr⟩
def TB_SCID : Field := ⟨0x84, 0, 32, .ro⟩

/-! 06_tocsin_and_lockstep.md R197 -/
def TOUT_STATE_TRIPPED : Field := ⟨0x20, 0, 1, .ro⟩
def TOUT_STATE_DEMAND : Field := ⟨0x20, 1, 1, .ro⟩
def TOUT_STATE_CMD : Field := ⟨0x20, 2, 1, .ro⟩
def TOUT_STATE_NDEM : Field := ⟨0x20, 3, 9, .ro⟩
def TOUT_STATE_KEFF : Field := ⟨0x20, 12, 9, .ro⟩
def TOUT_CTRL_RESET : Field := ⟨0x24, 0, 1, .wo⟩
def TOUT_CNT_TRIPS : Field := ⟨0x28, 0, 16, .rclr⟩
def TOUT_CNT_RESETS : Field := ⟨0x28, 16, 16, .rclr⟩
def TOUT_LAST_NS : Field := ⟨0x2C, 0, 32, .ro⟩
def TOUT_LAST_S : Field := ⟨0x30, 0, 32, .ro⟩

/-! 06_tocsin_and_lockstep.md R198 -/
def CP_STATUS_LOCKSTEP : Field := ⟨0x20, 0, 1, .ro⟩
def CP_STATUS_SPLIT : Field := ⟨0x20, 1, 1, .ro⟩
def CP_STATUS_HELD : Field := ⟨0x20, 2, 1, .ro⟩
def CP_STATUS_DEBUG : Field := ⟨0x20, 3, 1, .ro⟩
def CP_DIV_DIVERGES : Field := ⟨0x24, 0, 16, .rclr⟩
def CP_DIV_RESYNCS : Field := ⟨0x24, 16, 16, .rclr⟩
def CP_CMPCNT : Field := ⟨0x28, 0, 32, .ro⟩
def CP_INJ_INJECTED : Field := ⟨0x2C, 0, 16, .ro⟩
def CP_INJ_MISSED : Field := ⟨0x2C, 16, 16, .ro⟩
def CP_DBG_OP : Field := ⟨0x30, 0, 2, .wo⟩

/-! 07_universal_channels.md R223 -/
def UC_CFG_FUNC : Field := ⟨0x20, 0, 3, .ro⟩
def UC_CFG_RANGE : Field := ⟨0x20, 3, 3, .ro⟩
def UC_CFG_RATE : Field := ⟨0x20, 6, 3, .ro⟩
def UC_CFG_NE43 : Field := ⟨0x20, 9, 1, .ro⟩
def UC_CFG_WAVE : Field := ⟨0x20, 10, 1, .ro⟩
def UC_CFG_HART : Field := ⟨0x20, 11, 1, .ro⟩
def UC_CFG_LOOP : Field := ⟨0x20, 12, 1, .ro⟩
def UC_CFG_TRIMEN : Field := ⟨0x20, 13, 1, .ro⟩
def UC_CFG_WIRES : Field := ⟨0x20, 14, 2, .ro⟩
def UC_CFG_CHAR : Field := ⟨0x20, 16, 2, .ro⟩
def UC_CFG_SAFEMODE : Field := ⟨0x20, 18, 2, .ro⟩
def UC_CFG_MULTIDROP : Field := ⟨0x20, 20, 1, .ro⟩
def UC_STATUS_COMPL : Field := ⟨0x24, 0, 1, .ro⟩
def UC_STATUS_HDRLOW : Field := ⟨0x24, 1, 1, .ro⟩
def UC_STATUS_OPEN : Field := ⟨0x24, 2, 1, .ro⟩
def UC_STATUS_SHORT : Field := ⟨0x24, 3, 1, .ro⟩
def UC_STATUS_NE43ST : Field := ⟨0x24, 4, 2, .ro⟩
def UC_STATUS_CJBAD : Field := ⟨0x24, 6, 1, .ro⟩
def UC_STATUS_FCALBAD : Field := ⟨0x24, 7, 1, .ro⟩
def UC_STATUS_CMPLO : Field := ⟨0x24, 8, 1, .ro⟩
def UC_STATUS_CMPHI : Field := ⟨0x24, 9, 1, .ro⟩
def UC_VALUE : Field := ⟨0x28, 0, 32, .ro⟩
def UC_AUX : Field := ⟨0x2C, 0, 32, .ro⟩
def UC_RAW : Field := ⟨0x30, 0, 32, .ro⟩
def UC_DRIVE : Field := ⟨0x34, 0, 32, .ro⟩
def UC_TRIM_REF : Field := ⟨0x38, 0, 32, .rw⟩
def UC_TRIM_CTRL_OP : Field := ⟨0x3C, 0, 3, .wo⟩
def UC_TRIM_GAIN : Field := ⟨0x40, 0, 32, .ro⟩
def UC_TRIM_OFFS : Field := ⟨0x44, 0, 32, .ro⟩
def UC_TRIM_STAT_CAPLO : Field := ⟨0x48, 0, 1, .ro⟩
def UC_TRIM_STAT_CAPHI : Field := ⟨0x48, 1, 1, .ro⟩
def UC_TRIM_STAT_ACTIVE : Field := ⟨0x48, 2, 1, .ro⟩
def UC_CMP_LO : Field := ⟨0x4C, 0, 32, .ro⟩
def UC_CMP_HI : Field := ⟨0x50, 0, 32, .ro⟩
def UC_CNT_COMPLS : Field := ⟨0x54, 0, 16, .rclr⟩
def UC_CNT_SENSOR : Field := ⟨0x54, 16, 16, .rclr⟩
def UC_HCNT_NORESP : Field := ⟨0x58, 0, 16, .rclr⟩
def UC_HCNT_COMMERR : Field := ⟨0x58, 16, 16, .rclr⟩
def UC_FCAL_DATE : Field := ⟨0x5C, 0, 16, .ro⟩
def UC_FCAL_VALID : Field := ⟨0x5C, 16, 1, .ro⟩
def HART_REQ_CMD : Field := ⟨0x60, 0, 16, .rw⟩
def HART_REQ_DEV : Field := ⟨0x60, 16, 2, .rw⟩
def HART_REQ_LEN : Field := ⟨0x60, 18, 6, .rw⟩
def HART_REQ_GO : Field := ⟨0x60, 31, 1, .wo⟩
def HART_RSP_STATE : Field := ⟨0x64, 0, 2, .ro⟩
def HART_RSP_LEN : Field := ⟨0x64, 2, 6, .ro⟩
def HART_RSP_RC : Field := ⟨0x64, 8, 8, .ro⟩
def HART_RSP_DSTAT : Field := ⟨0x64, 16, 8, .ro⟩
def HART_DATA0 : Field := ⟨0x68, 0, 32, .rw⟩
def HART_DATA1 : Field := ⟨0x6C, 0, 32, .rw⟩
def HART_DATA2 : Field := ⟨0x70, 0, 32, .rw⟩
def HART_DATA3 : Field := ⟨0x74, 0, 32, .rw⟩
def HART_DATA4 : Field := ⟨0x78, 0, 32, .rw⟩
def HART_DATA5 : Field := ⟨0x7C, 0, 32, .rw⟩
def HART_DATA6 : Field := ⟨0x80, 0, 32, .rw⟩
def HART_DATA7 : Field := ⟨0x84, 0, 32, .rw⟩

/-! 08_digital_points.md R242 -/
def DP_CFG_KIND : Field := ⟨0x20, 0, 3, .ro⟩
def DP_CFG_FILT : Field := ⟨0x20, 3, 3, .ro⟩
def DP_CFG_CATCH : Field := ⟨0x20, 6, 1, .ro⟩
def DP_CFG_WBDET : Field := ⟨0x20, 7, 1, .ro⟩
def DP_CFG_BOND : Field := ⟨0x20, 8, 1, .ro⟩
def DP_CFG_SAGLATCH : Field := ⟨0x20, 9, 1, .ro⟩
def DP_CFG_OLDET : Field := ⟨0x20, 10, 1, .ro⟩
def DP_CFG_SAFESTATE : Field := ⟨0x20, 11, 1, .ro⟩
def DP_CFG_PERMSRC : Field := ⟨0x20, 12, 3, .ro⟩
def DP_STATUS_IN : Field := ⟨0x24, 0, 1, .ro⟩
def DP_STATUS_DRV : Field := ⟨0x24, 1, 1, .ro⟩
def DP_STATUS_TERM : Field := ⟨0x24, 2, 1, .ro⟩
def DP_STATUS_WDOG : Field := ⟨0x24, 3, 1, .ro⟩
def DP_STATUS_SHED : Field := ⟨0x24, 4, 1, .ro⟩
def DP_STATUS_LATCHOFF : Field := ⟨0x24, 5, 1, .ro⟩
def DP_STATUS_OPEN : Field := ⟨0x24, 6, 1, .ro⟩
def DP_STATUS_WBREAK : Field := ⟨0x24, 7, 1, .ro⟩
def DP_STATUS_SHORTFS : Field := ⟨0x24, 8, 1, .ro⟩
def DP_STATUS_PARALLEL : Field := ⟨0x24, 9, 1, .ro⟩
def DP_STATUS_OVERLOAD : Field := ⟨0x24, 10, 1, .ro⟩
def DP_CURR : Field := ⟨0x28, 0, 32, .ro⟩
def DP_WDT_WDT : Field := ⟨0x2C, 0, 16, .ro⟩
def DP_CTRL_REARM : Field := ⟨0x30, 0, 1, .wo⟩
def DP_CNT_WDOGS : Field := ⟨0x34, 0, 16, .rclr⟩
def DP_CNT_WIRING : Field := ⟨0x34, 16, 16, .rclr⟩
def DP_EDGES : Field := ⟨0x38, 0, 32, .ro⟩

/-! 08_digital_points.md R243 -/
def DB_FS_LOW : Field := ⟨0x20, 0, 1, .ro⟩
def DB_FS_MISSING : Field := ⟨0x20, 1, 1, .ro⟩
def DB_FS_SHED : Field := ⟨0x20, 2, 1, .ro⟩
def DB_FS_HIGH : Field := ⟨0x20, 3, 1, .ro⟩
def DB_FSV : Field := ⟨0x24, 0, 32, .ro⟩
def DB_ILOAD : Field := ⟨0x28, 0, 32, .ro⟩
def DB_CNT_LOWS : Field := ⟨0x2C, 0, 16, .rclr⟩
def DB_CNT_SHEDS : Field := ⟨0x2C, 16, 16, .rclr⟩
def DB_CNT2_MISSINGS : Field := ⟨0x30, 0, 16, .rclr⟩
def DB_CNT2_LINKOFFS : Field := ⟨0x30, 16, 16, .rclr⟩

/-! 09_motion_axes.md R268 -/
def AX_CFG_CMODE : Field := ⟨0x20, 0, 1, .ro⟩
def AX_CFG_ENC : Field := ⟨0x20, 1, 1, .ro⟩
def AX_CFG_SAFEACT : Field := ⟨0x20, 2, 1, .ro⟩
def AX_CFG_STALLACT : Field := ⟨0x20, 3, 1, .ro⟩
def AX_CFG_DIRINV : Field := ⟨0x20, 4, 1, .ro⟩
def AX_CFG_HMETH : Field := ⟨0x20, 5, 3, .ro⟩
def AX_CFG_LFILT : Field := ⟨0x20, 8, 3, .ro⟩
def AX_STATUS_MOVING : Field := ⟨0x24, 0, 1, .ro⟩
def AX_STATUS_DIR : Field := ⟨0x24, 1, 1, .ro⟩
def AX_STATUS_PHASE : Field := ⟨0x24, 2, 2, .ro⟩
def AX_STATUS_REVERSING : Field := ⟨0x24, 4, 1, .ro⟩
def AX_STATUS_HOMED : Field := ⟨0x24, 5, 1, .ro⟩
def AX_STATUS_HOMING : Field := ⟨0x24, 6, 1, .ro⟩
def AX_STATUS_LIMP : Field := ⟨0x24, 7, 1, .ro⟩
def AX_STATUS_LIMN : Field := ⟨0x24, 8, 1, .ro⟩
def AX_STATUS_HOME : Field := ⟨0x24, 9, 1, .ro⟩
def AX_STATUS_LIMSTOP : Field := ⟨0x24, 10, 1, .ro⟩
def AX_STATUS_SAFESTOP : Field := ⟨0x24, 11, 1, .ro⟩
def AX_STATUS_HOLD : Field := ⟨0x24, 12, 1, .ro⟩
def AX_STATUS_STALL : Field := ⟨0x24, 13, 1, .ro⟩
def AX_STATUS_ENCERR : Field := ⟨0x24, 14, 1, .ro⟩
def AX_STATUS_MSOFF : Field := ⟨0x24, 15, 1, .ro⟩
def AX_STATUS_CHOPSAT : Field := ⟨0x24, 16, 1, .ro⟩
def AX_STATUS_LIMCHAT : Field := ⟨0x24, 17, 1, .ro⟩
def AX_STATUS_PHFLT : Field := ⟨0x24, 18, 1, .ro⟩
def AX_POS : Field := ⟨0x28, 0, 32, .ro⟩
def AX_TGT : Field := ⟨0x2C, 0, 32, .ro⟩
def AX_VEL : Field := ⟨0x30, 0, 32, .ro⟩
def AX_ENC : Field := ⟨0x34, 0, 32, .ro⟩
def AX_FERR : Field := ⟨0x38, 0, 32, .ro⟩
def AX_A1 : Field := ⟨0x3C, 0, 32, .rw⟩
def AX_A2 : Field := ⟨0x40, 0, 32, .rw⟩
def AX_D2 : Field := ⟨0x44, 0, 32, .rw⟩
def AX_D1 : Field := ⟨0x48, 0, 32, .rw⟩
def AX_VMAX : Field := ⟨0x4C, 0, 32, .rw⟩
def AX_IRUN : Field := ⟨0x50, 0, 32, .rw⟩
def AX_IHOLD : Field := ⟨0x54, 0, 32, .rw⟩
def AX_HCTRL_GO : Field := ⟨0x58, 0, 1, .wo⟩
def AX_HCTRL_ABORT : Field := ⟨0x58, 1, 1, .wo⟩
def AX_HSTAT_STATE : Field := ⟨0x5C, 0, 2, .ro⟩
def AX_HSTAT_CAUSE : Field := ⟨0x5C, 2, 4, .ro⟩
def AX_HSTAT_STEP : Field := ⟨0x5C, 6, 3, .ro⟩
def AX_HREF : Field := ⟨0x60, 0, 32, .ro⟩
def AX_CHOP_OFFA : Field := ⟨0x64, 0, 16, .ro⟩
def AX_CHOP_OFFB : Field := ⟨0x64, 16, 16, .ro⟩
def AX_CNT_LIMCHAT : Field := ⟨0x68, 0, 16, .rclr⟩
def AX_CNT_LIMSTOPS : Field := ⟨0x68, 16, 16, .rclr⟩
def AX_CNT2_STALLS : Field := ⟨0x6C, 0, 16, .rclr⟩
def AX_CNT2_ENCERRS : Field := ⟨0x6C, 16, 16, .rclr⟩
def AX_CNT3_HFAILS : Field := ⟨0x70, 0, 16, .rclr⟩
def AX_CNT3_HREFUSED : Field := ⟨0x70, 16, 16, .rclr⟩

/-! 09_motion_axes.md R269 -/
def MB_MS_UNDER : Field := ⟨0x20, 0, 1, .ro⟩
def MB_MS_OVER : Field := ⟨0x20, 1, 1, .ro⟩
def MB_MS_OFF : Field := ⟨0x20, 2, 1, .ro⟩
def MB_MSV : Field := ⟨0x24, 0, 32, .ro⟩
def MB_CNT_UNDERS : Field := ⟨0x28, 0, 16, .rclr⟩
def MB_CNT_OVERS : Field := ⟨0x28, 16, 16, .rclr⟩
def MB_CNT2_LINKOFFS : Field := ⟨0x2C, 0, 16, .rclr⟩

/-! 10_station_chain.md R309 -/
def CH_STATUS_ADDR : Field := ⟨0x20, 0, 6, .ro⟩
def CH_STATUS_COUNT : Field := ⟨0x20, 6, 6, .ro⟩
def CH_STATUS_HEAD : Field := ⟨0x20, 12, 1, .ro⟩
def CH_STATUS_CLASH : Field := ⟨0x20, 13, 1, .ro⟩
def CH_STATUS_OVERFLOW : Field := ⟨0x20, 14, 1, .ro⟩
def CH_STATUS_NOHEAD : Field := ⟨0x20, 15, 1, .ro⟩
def CH_STATUS_UPLINK : Field := ⟨0x20, 16, 2, .ro⟩
def CH_STATUS_DNLINK : Field := ⟨0x20, 18, 2, .ro⟩
def CH_UP_ERR_FLITERR : Field := ⟨0x24, 0, 16, .rclr⟩
def CH_UP_ERR_POISONED : Field := ⟨0x24, 16, 16, .rclr⟩
def CH_DN_ERR_FLITERR : Field := ⟨0x28, 0, 16, .rclr⟩
def CH_DN_ERR_POISONED : Field := ⟨0x28, 16, 16, .rclr⟩
def CH_UP_CNT_CORR : Field := ⟨0x2C, 0, 16, .rclr⟩
def CH_UP_CNT_LINKDOWNS : Field := ⟨0x2C, 16, 16, .rclr⟩
def CH_DN_CNT_CORR : Field := ⟨0x30, 0, 16, .rclr⟩
def CH_DN_CNT_LINKDOWNS : Field := ⟨0x30, 16, 16, .rclr⟩
def CH_RESYNC_UP : Field := ⟨0x34, 0, 16, .rclr⟩
def CH_RESYNC_DN : Field := ⟨0x34, 16, 16, .rclr⟩
def CH_DROP_FRAMES : Field := ⟨0x38, 0, 16, .rclr⟩
def CH_DROP_SKIPPED : Field := ⟨0x38, 16, 16, .rclr⟩
def CH_TC_CORRECTED : Field := ⟨0x3C, 0, 16, .rclr⟩
def CH_TC_TWOSTEP : Field := ⟨0x3C, 16, 16, .rclr⟩
def CH_TCMAX_NS : Field := ⟨0x40, 0, 16, .rclr⟩

/-! 10_station_chain.md R310 -/
def PC_STATE_PRESENT : Field := ⟨0x20, 0, 1, .ro⟩
def PC_STATE_SELF : Field := ⟨0x20, 1, 1, .ro⟩
def PC_STATE_NSIG : Field := ⟨0x20, 16, 16, .ro⟩
def PC_LAST : Field := ⟨0x24, 0, 32, .ro⟩
def PC_CNT_INCOMPLETE : Field := ⟨0x28, 0, 16, .rclr⟩
def PC_CNT_SKIPPED : Field := ⟨0x28, 16, 16, .rclr⟩
def PC_CNT2_TIMEOUTS : Field := ⟨0x2C, 0, 16, .rclr⟩

/-! 10_station_chain.md R311 -/
def QB_STATUS_INFLIGHT : Field := ⟨0x20, 0, 9, .ro⟩
def QB_PEAK_PEAK : Field := ⟨0x24, 0, 9, .rclr⟩
def IOMMU_SEL_DOMAIN : Field := ⟨0x28, 0, 4, .rw⟩
def IOMMU_ROOT_ROOT : Field := ⟨0x2C, 0, 22, .rw⟩
def IOMMU_ROOT_EN : Field := ⟨0x2C, 31, 1, .rw⟩
def IOMMU_INV_DOMAIN : Field := ⟨0x30, 0, 4, .wo⟩
def IOMMU_INV_ALL : Field := ⟨0x30, 4, 1, .wo⟩
def IOMMU_TLB_MISSES : Field := ⟨0x34, 0, 16, .rclr⟩
def IOMMU_TLB_FAULTS : Field := ⟨0x34, 16, 16, .rclr⟩
def QB_FLT_QP : Field := ⟨0x38, 0, 5, .ro⟩
def QB_FLT_RING : Field := ⟨0x38, 5, 1, .ro⟩
def QB_FLT_KIND : Field := ⟨0x38, 6, 2, .ro⟩
def QB_FLT_CODE : Field := ⟨0x38, 8, 8, .ro⟩
def QB_FLTADDR : Field := ⟨0x3C, 0, 32, .ro⟩

/-! 10_station_chain.md R312 -/
def QP_CFG_DOMAIN : Field := ⟨0x20, 0, 4, .ro⟩
def QP_CFG_PRIO : Field := ⟨0x20, 4, 3, .ro⟩
def QP_CFG_TXLOG : Field := ⟨0x20, 7, 4, .ro⟩
def QP_CFG_RXLOG : Field := ⟨0x20, 11, 4, .ro⟩
def QP_TXBASE : Field := ⟨0x24, 0, 32, .rw⟩
def QP_RXBASE : Field := ⟨0x28, 0, 32, .rw⟩
def QP_TXPTR_HEAD : Field := ⟨0x2C, 0, 12, .ro⟩
def QP_TXPTR_TAIL : Field := ⟨0x2C, 16, 12, .rw⟩
def QP_RXPTR_HEAD : Field := ⟨0x30, 0, 12, .ro⟩
def QP_RXPTR_TAIL : Field := ⟨0x30, 16, 12, .rw⟩
def QP_CTRL_TXEN : Field := ⟨0x34, 0, 1, .wo⟩
def QP_CTRL_TXDIS : Field := ⟨0x34, 1, 1, .wo⟩
def QP_CTRL_RXEN : Field := ⟨0x34, 2, 1, .wo⟩
def QP_CTRL_RXDIS : Field := ⟨0x34, 3, 1, .wo⟩
def QP_CTRL_TXRESUME : Field := ⟨0x34, 4, 1, .wo⟩
def QP_CTRL_RXRESUME : Field := ⟨0x34, 5, 1, .wo⟩
def QP_STATUS_TXON : Field := ⟨0x38, 0, 1, .ro⟩
def QP_STATUS_RXON : Field := ⟨0x38, 1, 1, .ro⟩
def QP_STATUS_TXHALT : Field := ⟨0x38, 2, 1, .ro⟩
def QP_STATUS_RXHALT : Field := ⟨0x38, 3, 1, .ro⟩
def QP_STATUS_TXWBF : Field := ⟨0x38, 4, 1, .ro⟩
def QP_STATUS_RXWBF : Field := ⟨0x38, 5, 1, .ro⟩
def QP_STATUS_TXCODE : Field := ⟨0x38, 8, 8, .ro⟩
def QP_STATUS_RXCODE : Field := ⟨0x38, 16, 8, .ro⟩
def QP_CNT_NOBUF : Field := ⟨0x3C, 0, 16, .rclr⟩
def QP_CNT_NAKS : Field := ⟨0x3C, 16, 16, .rclr⟩
def QP_NAKSEQ_MSGSEQ : Field := ⟨0x40, 0, 16, .ro⟩
def QP_NAKSEQ_CODE : Field := ⟨0x40, 16, 8, .ro⟩

/-! 11_network_paths.md R332 -/
def NET_CFG_PMODE : Field := ⟨0x20, 0, 2, .rw⟩
def NET_CFG_AN : Field := ⟨0x20, 2, 1, .rw⟩
def NET_VLAN_VID : Field := ⟨0x24, 0, 12, .rw⟩
def NET_VLAN_PCPDATA : Field := ⟨0x24, 12, 3, .rw⟩
def NET_VLAN_PCPMGMT : Field := ⟨0x24, 15, 3, .rw⟩
def NET_IP : Field := ⟨0x28, 0, 32, .rw⟩
def NET_XCFG_ECDIV : Field := ⟨0x2C, 0, 7, .rw⟩
def NET_XCFG_PREF : Field := ⟨0x2C, 7, 1, .rw⟩
def NET_XCFG_FOLLOW : Field := ⟨0x2C, 8, 1, .rw⟩
def NET_XCFG_IMPTMO : Field := ⟨0x2C, 16, 16, .rw⟩
def NET_MAC_LO : Field := ⟨0x30, 0, 32, .ro⟩
def NET_MAC_HI_MAC : Field := ⟨0x34, 0, 16, .ro⟩
def NET_STATUS_ROLE : Field := ⟨0x38, 0, 2, .ro⟩
def NET_STATUS_LINK : Field := ⟨0x38, 2, 1, .ro⟩
def NET_STATUS_SFP : Field := ⟨0x38, 3, 2, .ro⟩
def NET_STATUS_ELIG : Field := ⟨0x38, 5, 1, .ro⟩
def NET_STATUS_MISS : Field := ⟨0x38, 6, 2, .ro⟩
def NET_STATUS_NOALT : Field := ⟨0x38, 8, 1, .ro⟩
def NET_STATUS_SWPEND : Field := ⟨0x38, 9, 1, .ro⟩
def NET_STATUS_SNARE : Field := ⟨0x38, 10, 2, .ro⟩
def NET_STATUS_ARMED : Field := ⟨0x38, 12, 1, .ro⟩
def NET_STATUS_CALLING : Field := ⟨0x38, 13, 1, .ro⟩
def NET_CTRL_SWITCH : Field := ⟨0x3C, 0, 1, .wo⟩
def NET_RXCNT_CYCLIC : Field := ⟨0x40, 0, 16, .rclr⟩
def NET_RXCNT_SAFETY : Field := ⟨0x40, 16, 16, .rclr⟩
def NET_ERRCNT_BADFCS : Field := ⟨0x44, 0, 16, .rclr⟩
def NET_ERRCNT_FILTERED : Field := ⟨0x44, 16, 16, .rclr⟩
def NET_MISSCNT_MISSED : Field := ⟨0x48, 0, 16, .rclr⟩
def NET_MISSCNT_SWITCHOVERS : Field := ⟨0x48, 16, 16, .rclr⟩
def NET_TXCNT_CYCLIC : Field := ⟨0x4C, 0, 16, .rclr⟩
def NET_TXCNT_SKIPPED : Field := ⟨0x4C, 16, 16, .rclr⟩
def NET_DROPCNT_POLICED : Field := ⟨0x50, 0, 16, .rclr⟩
def NET_DROPCNT_CONFLICT : Field := ⟨0x50, 16, 16, .rclr⟩
def NET_GAP_LAST : Field := ⟨0x54, 0, 16, .ro⟩
def NET_GAP_MAX : Field := ⟨0x54, 16, 16, .rclr⟩
def NET_MGMTCNT_MREQ : Field := ⟨0x58, 0, 16, .rclr⟩
def NET_MGMTCNT_FOLLOWS : Field := ⟨0x58, 16, 16, .rclr⟩

/-! 12_time_base.md R352 -/
def TM_CFG_SRC : Field := ⟨0x20, 0, 2, .rw⟩
def TM_CFG_CHAINGM : Field := ⟨0x20, 2, 1, .rw⟩
def TM_CFG_SLEWMAX : Field := ⟨0x20, 3, 9, .rw⟩
def TM_CFG_DOMAIN : Field := ⟨0x20, 12, 7, .rw⟩
def TM_CFG_LOGSYNC : Field := ⟨0x20, 19, 4, .rw⟩
def TM_ASYM_NA : Field := ⟨0x24, 0, 16, .rw⟩
def TM_ASYM_NB : Field := ⟨0x24, 16, 16, .rw⟩
def TM_STATUS_STATE : Field := ⟨0x28, 0, 2, .ro⟩
def TM_STATUS_TIMEVALID : Field := ⟨0x28, 2, 1, .ro⟩
def TM_STATUS_PORT : Field := ⟨0x28, 3, 2, .ro⟩
def TM_STATUS_CGM : Field := ⟨0x28, 5, 1, .ro⟩
def TM_STATUS_PAUSED : Field := ⟨0x28, 6, 1, .ro⟩
def TM_STATUS_BIGBACK : Field := ⟨0x28, 7, 1, .ro⟩
def TM_NOW_NS : Field := ⟨0x2C, 0, 32, .ro⟩
def TM_NOW_SLO : Field := ⟨0x30, 0, 32, .ro⟩
def TM_NOW_SHI_S : Field := ⟨0x34, 0, 16, .ro⟩
def TM_OFFSET : Field := ⟨0x38, 0, 32, .ro⟩
def TM_MPD : Field := ⟨0x3C, 0, 32, .ro⟩
def TM_ADDEND : Field := ⟨0x40, 0, 32, .ro⟩
def TM_HOLDADD : Field := ⟨0x44, 0, 32, .ro⟩
def TM_GMID_LO : Field := ⟨0x48, 0, 32, .ro⟩
def TM_GMID_HI : Field := ⟨0x4C, 0, 32, .ro⟩
def TM_GMQ_CLASS : Field := ⟨0x50, 0, 8, .ro⟩
def TM_GMQ_ACCURACY : Field := ⟨0x50, 8, 8, .ro⟩
def TM_GMQ_STEPS : Field := ⟨0x50, 16, 16, .ro⟩
def TM_UTC_UTCOFF : Field := ⟨0x54, 0, 16, .ro⟩
def TM_UTC_UTCVALID : Field := ⟨0x54, 16, 1, .ro⟩
def TM_UTC_PTPTS : Field := ⟨0x54, 17, 1, .ro⟩
def TM_SET_NS : Field := ⟨0x58, 0, 32, .wo⟩
def TM_SET_SLO : Field := ⟨0x5C, 0, 32, .wo⟩
def TM_SET_SHI_S : Field := ⟨0x60, 0, 16, .wo⟩
def TM_CNT_STEPS : Field := ⟨0x64, 0, 16, .rclr⟩
def TM_CNT_MCHANGES : Field := ⟨0x64, 16, 16, .rclr⟩
def TM_CNT2_HOLDOVERS : Field := ⟨0x68, 0, 16, .rclr⟩
def TM_CNT2_FOLLOWERR : Field := ⟨0x68, 16, 16, .rclr⟩
def TM_PCNT_SYNCRX : Field := ⟨0x6C, 0, 16, .rclr⟩
def TM_PCNT_DISCARDS : Field := ⟨0x6C, 16, 16, .rclr⟩
def TM_OFFMAX : Field := ⟨0x70, 0, 32, .rclr⟩

/-! 13_can_fd_ports.md R371 -/
def CAN_CFG_EN : Field := ⟨0x20, 0, 1, .rw⟩
def CAN_CFG_FDEN : Field := ⟨0x20, 1, 1, .rw⟩
def CAN_CFG_OPMODE : Field := ⟨0x20, 2, 2, .rw⟩
def CAN_CFG_TXORD : Field := ⟨0x20, 4, 1, .rw⟩
def CAN_CFG_BOAUTO : Field := ⟨0x20, 5, 1, .rw⟩
def CAN_CFG_TERM : Field := ⟨0x20, 6, 1, .rw⟩
def CAN_CFG_ALONELIM : Field := ⟨0x20, 8, 8, .rw⟩
def CAN_NBT_NBRP : Field := ⟨0x24, 0, 9, .rw⟩
def CAN_NBT_NTSEG1 : Field := ⟨0x24, 9, 8, .rw⟩
def CAN_NBT_NTSEG2 : Field := ⟨0x24, 17, 7, .rw⟩
def CAN_NBT_NSJW : Field := ⟨0x24, 24, 7, .rw⟩
def CAN_DBT_DBRP : Field := ⟨0x28, 0, 5, .rw⟩
def CAN_DBT_DTSEG1 : Field := ⟨0x28, 5, 5, .rw⟩
def CAN_DBT_DTSEG2 : Field := ⟨0x28, 10, 4, .rw⟩
def CAN_DBT_DSJW : Field := ⟨0x28, 14, 4, .rw⟩
def CAN_TDC_TDCEN : Field := ⟨0x2C, 0, 1, .rw⟩
def CAN_TDC_TDCO : Field := ⟨0x2C, 1, 8, .rw⟩
def CAN_STATUS_ESTATE : Field := ⟨0x30, 0, 3, .ro⟩
def CAN_STATUS_ALONE : Field := ⟨0x30, 3, 1, .ro⟩
def CAN_STATUS_LEC : Field := ⟨0x30, 4, 3, .ro⟩
def CAN_STATUS_TDCV : Field := ⟨0x30, 7, 7, .ro⟩
def CAN_STATUS_ACKERRS : Field := ⟨0x30, 14, 8, .ro⟩
def CAN_ECNT_TEC : Field := ⟨0x34, 0, 9, .ro⟩
def CAN_ECNT_REC : Field := ⟨0x34, 16, 7, .ro⟩
def CAN_ECNT_RP : Field := ⟨0x34, 23, 1, .ro⟩
def CAN_CNT_BUSOFFS : Field := ⟨0x38, 0, 16, .rclr⟩
def CAN_CNT_ALONES : Field := ⟨0x38, 16, 16, .rclr⟩
def CAN_CNT2_NOMATCH : Field := ⟨0x3C, 0, 16, .rclr⟩
def CAN_CNT2_XSKIP : Field := ⟨0x3C, 16, 16, .rclr⟩
def CAN_CTRL_TXSEL : Field := ⟨0x40, 0, 2, .rw⟩
def CAN_CTRL_RECOVER : Field := ⟨0x40, 2, 1, .wo⟩
def CAN_TXB_ID_ID : Field := ⟨0x44, 0, 29, .rw⟩
def CAN_TXB_ID_IDE : Field := ⟨0x44, 29, 1, .rw⟩
def CAN_TXB_ID_FDF : Field := ⟨0x44, 30, 1, .rw⟩
def CAN_TXB_ID_BRS : Field := ⟨0x44, 31, 1, .rw⟩
def CAN_TXB_CMD_REQ : Field := ⟨0x48, 0, 1, .wo⟩
def CAN_TXB_CMD_CANCEL : Field := ⟨0x48, 1, 1, .wo⟩
def CAN_TXB_CMD_DLC : Field := ⟨0x48, 2, 4, .rw⟩
def CAN_TXB_STAT_ST0 : Field := ⟨0x4C, 0, 3, .ro⟩
def CAN_TXB_STAT_ST1 : Field := ⟨0x4C, 3, 3, .ro⟩
def CAN_TXB_STAT_ST2 : Field := ⟨0x4C, 6, 3, .ro⟩
def CAN_TXB_STAT_CXL : Field := ⟨0x4C, 9, 3, .ro⟩
def CAN_TXB_DATA0 : Field := ⟨0x50, 0, 32, .rw⟩
def CAN_TXB_DATA1 : Field := ⟨0x54, 0, 32, .rw⟩
def CAN_TXB_DATA2 : Field := ⟨0x58, 0, 32, .rw⟩
def CAN_TXB_DATA3 : Field := ⟨0x5C, 0, 32, .rw⟩
def CAN_TXB_DATA4 : Field := ⟨0x60, 0, 32, .rw⟩
def CAN_TXB_DATA5 : Field := ⟨0x64, 0, 32, .rw⟩
def CAN_TXB_DATA6 : Field := ⟨0x68, 0, 32, .rw⟩
def CAN_TXB_DATA7 : Field := ⟨0x6C, 0, 32, .rw⟩
def CAN_TXB_DATA8 : Field := ⟨0x70, 0, 32, .rw⟩
def CAN_TXB_DATA9 : Field := ⟨0x74, 0, 32, .rw⟩
def CAN_TXB_DATA10 : Field := ⟨0x78, 0, 32, .rw⟩
def CAN_TXB_DATA11 : Field := ⟨0x7C, 0, 32, .rw⟩
def CAN_TXB_DATA12 : Field := ⟨0x80, 0, 32, .rw⟩
def CAN_TXB_DATA13 : Field := ⟨0x84, 0, 32, .rw⟩
def CAN_TXB_DATA14 : Field := ⟨0x88, 0, 32, .rw⟩
def CAN_TXB_DATA15 : Field := ⟨0x8C, 0, 32, .rw⟩

/-! 13_can_fd_ports.md R372 -/
def MBX_INFO_ID : Field := ⟨0x20, 0, 29, .ro⟩
def MBX_INFO_IDE : Field := ⟨0x20, 29, 1, .ro⟩
def MBX_INFO_FDF : Field := ⟨0x20, 30, 1, .ro⟩
def MBX_INFO_BRS : Field := ⟨0x20, 31, 1, .ro⟩
def MBX_META_DLC : Field := ⟨0x24, 0, 4, .ro⟩
def MBX_META_ESI : Field := ⟨0x24, 4, 1, .ro⟩
def MBX_META_NEW : Field := ⟨0x24, 5, 1, .rclr⟩
def MBX_META_SHADOW : Field := ⟨0x24, 6, 1, .ro⟩
def MBX_TS_NS : Field := ⟨0x28, 0, 32, .ro⟩
def MBX_TS_SLO : Field := ⟨0x2C, 0, 32, .ro⟩
def MBX_DATA0 : Field := ⟨0x30, 0, 32, .ro⟩
def MBX_DATA1 : Field := ⟨0x34, 0, 32, .ro⟩
def MBX_DATA2 : Field := ⟨0x38, 0, 32, .ro⟩
def MBX_DATA3 : Field := ⟨0x3C, 0, 32, .ro⟩
def MBX_DATA4 : Field := ⟨0x40, 0, 32, .ro⟩
def MBX_DATA5 : Field := ⟨0x44, 0, 32, .ro⟩
def MBX_DATA6 : Field := ⟨0x48, 0, 32, .ro⟩
def MBX_DATA7 : Field := ⟨0x4C, 0, 32, .ro⟩
def MBX_DATA8 : Field := ⟨0x50, 0, 32, .ro⟩
def MBX_DATA9 : Field := ⟨0x54, 0, 32, .ro⟩
def MBX_DATA10 : Field := ⟨0x58, 0, 32, .ro⟩
def MBX_DATA11 : Field := ⟨0x5C, 0, 32, .ro⟩
def MBX_DATA12 : Field := ⟨0x60, 0, 32, .ro⟩
def MBX_DATA13 : Field := ⟨0x64, 0, 32, .ro⟩
def MBX_DATA14 : Field := ⟨0x68, 0, 32, .ro⟩
def MBX_DATA15 : Field := ⟨0x6C, 0, 32, .ro⟩
def MBX_CNT_FRAMES : Field := ⟨0x70, 0, 16, .rclr⟩
def MBX_CNT_LOST : Field := ⟨0x70, 16, 16, .rclr⟩

/-! 14_memory_and_journal.md R393 -/
def MEM_DRAM1_CORR1 : Field := ⟨0x20, 0, 16, .rclr⟩
def MEM_DRAM1_CORR2 : Field := ⟨0x20, 16, 16, .rclr⟩
def MEM_DRAM2_UNCORR : Field := ⟨0x24, 0, 16, .rclr⟩
def MEM_DRAM2_MISDIR : Field := ⟨0x24, 16, 16, .rclr⟩
def MEM_SRAM1_CORR1 : Field := ⟨0x28, 0, 16, .rclr⟩
def MEM_SRAM1_CORR2 : Field := ⟨0x28, 16, 16, .rclr⟩
def MEM_SRAM2_UNCORR : Field := ⟨0x2C, 0, 16, .rclr⟩
def MEM_SRAM2_MISDIR : Field := ⟨0x2C, 16, 16, .rclr⟩
def MEM_PORT_MISDIR : Field := ⟨0x30, 0, 16, .rclr⟩
def MEM_PORT_POISONED : Field := ⟨0x30, 16, 16, .rclr⟩
def MEM_ERRINFO_MEMORY : Field := ⟨0x34, 0, 2, .ro⟩
def MEM_ERRINFO_KIND : Field := ⟨0x34, 2, 1, .ro⟩
def MEM_ERRINFO_REGION : Field := ⟨0x34, 3, 3, .ro⟩
def MEM_ERRINFO_VALID : Field := ⟨0x34, 6, 1, .ro⟩
def MEM_ERRADDR_PA : Field := ⟨0x38, 0, 31, .ro⟩
def MEM_SCRUB_PERIOD : Field := ⟨0x3C, 0, 8, .rw⟩
def MEM_SCRUBST_PASSES : Field := ⟨0x40, 0, 16, .ro⟩
def MEM_SCRUBST_PROGRESS : Field := ⟨0x40, 16, 10, .ro⟩

/-! 14_memory_and_journal.md R394 -/
def NVJ_STATUS_DEGRADED : Field := ⟨0x20, 0, 1, .ro⟩
def NVJ_STATUS_SPARELOW : Field := ⟨0x20, 1, 1, .ro⟩
def NVJ_STATUS_CLOSING : Field := ⟨0x20, 2, 1, .ro⟩
def NVJ_SPARES_SPARES : Field := ⟨0x24, 0, 10, .ro⟩
def NVJ_SPARES_RETIRED : Field := ⟨0x24, 16, 15, .ro⟩
def NVJ_PART_RECBLKS : Field := ⟨0x28, 0, 14, .ro⟩
def NVJ_PART_IMGBLKS : Field := ⟨0x28, 16, 11, .ro⟩
def NVJ_WEARMAX : Field := ⟨0x2C, 0, 32, .ro⟩
def NVJ_WEARAVG : Field := ⟨0x30, 0, 32, .ro⟩
def NVJ_ECC1_CORR1 : Field := ⟨0x34, 0, 16, .rclr⟩
def NVJ_ECC1_CORR2 : Field := ⟨0x34, 16, 16, .rclr⟩
def NVJ_ECC2_UNCORR : Field := ⟨0x38, 0, 16, .rclr⟩
def NVJ_ECC2_MISDIR : Field := ⟨0x38, 16, 16, .rclr⟩
def NVJ_WCNT_VFAIL : Field := ⟨0x3C, 0, 16, .rclr⟩
def NVJ_WCNT_RETIRES : Field := ⟨0x3C, 16, 16, .rclr⟩
def NVJ_PEND_PEND : Field := ⟨0x40, 0, 14, .ro⟩
def NVJ_SCRUBST_PASSES : Field := ⟨0x44, 0, 16, .ro⟩

/-! 15_event_recorder.md R410 -/
def REC_CFG_PERIOD : Field := ⟨0x20, 0, 11, .rw⟩
def REC_STATUS_STATE : Field := ⟨0x24, 0, 3, .ro⟩
def REC_STATUS_FRZTMO : Field := ⟨0x24, 3, 1, .ro⟩
def REC_STATUS_NOFLUSH : Field := ⟨0x24, 4, 1, .ro⟩
def REC_CTRL_FREEZE : Field := ⟨0x28, 0, 1, .wo⟩
def REC_CTRL_UNFREEZE : Field := ⟨0x28, 1, 1, .wo⟩
def REC_CTRL_CLEAR : Field := ⟨0x28, 2, 1, .wo⟩
def REC_LOGUSED_USED : Field := ⟨0x2C, 0, 20, .ro⟩
def REC_LOGCAP_CAP : Field := ⟨0x30, 0, 20, .ro⟩
def REC_MISS_QLOST : Field := ⟨0x34, 0, 16, .rclr⟩
def REC_MISS_PFLOST : Field := ⟨0x34, 16, 16, .rclr⟩
def REC_MISS2_LOGLOST : Field := ⟨0x38, 0, 16, .rclr⟩
def REC_MISS2_WFAIL : Field := ⟨0x38, 16, 16, .rclr⟩
def REC_FRZ_FRZ : Field := ⟨0x3C, 0, 16, .ro⟩
def REC_LOGDAT0 : Field := ⟨0x40, 0, 32, .ro⟩
def REC_LOGDAT1 : Field := ⟨0x44, 0, 32, .ro⟩
def REC_LOGDAT2 : Field := ⟨0x48, 0, 32, .ro⟩
def REC_LOGDAT3 : Field := ⟨0x4C, 0, 32, .ro⟩
def REC_LOGDAT4 : Field := ⟨0x50, 0, 32, .ro⟩
def REC_LOGDAT5 : Field := ⟨0x54, 0, 32, .ro⟩
def REC_LOGDAT6 : Field := ⟨0x58, 0, 32, .ro⟩
def REC_LOGDAT7 : Field := ⟨0x5C, 0, 32, .ro⟩
def REC_LOGDAT8 : Field := ⟨0x60, 0, 32, .ro⟩
def REC_LOGDAT9 : Field := ⟨0x64, 0, 32, .ro⟩
def REC_LOGDAT10 : Field := ⟨0x68, 0, 32, .ro⟩
def REC_LOGDAT11 : Field := ⟨0x6C, 0, 32, .ro⟩
def REC_LOGDAT12 : Field := ⟨0x70, 0, 32, .ro⟩
def REC_LOGDAT13 : Field := ⟨0x74, 0, 32, .ro⟩
def REC_LOGDAT14 : Field := ⟨0x78, 0, 32, .ro⟩
def REC_LOGDAT15 : Field := ⟨0x7C, 0, 32, .ro⟩
def REC_LOGDAT16 : Field := ⟨0x80, 0, 32, .ro⟩
def REC_LOGDAT17 : Field := ⟨0x84, 0, 32, .ro⟩
def REC_LOGDAT18 : Field := ⟨0x88, 0, 32, .ro⟩
def REC_LOGDAT19 : Field := ⟨0x8C, 0, 32, .ro⟩
def REC_LOGDAT20 : Field := ⟨0x90, 0, 32, .ro⟩
def REC_LOGDAT21 : Field := ⟨0x94, 0, 32, .ro⟩
def REC_LOGDAT22 : Field := ⟨0x98, 0, 32, .ro⟩
def REC_LOGDAT23 : Field := ⟨0x9C, 0, 32, .ro⟩
def REC_LOGDAT24 : Field := ⟨0xA0, 0, 32, .ro⟩
def REC_LOGDAT25 : Field := ⟨0xA4, 0, 32, .ro⟩
def REC_LOGDAT26 : Field := ⟨0xA8, 0, 32, .ro⟩
def REC_LOGDAT27 : Field := ⟨0xAC, 0, 32, .ro⟩
def REC_LOGDAT28 : Field := ⟨0xB0, 0, 32, .ro⟩
def REC_LOGDAT29 : Field := ⟨0xB4, 0, 32, .ro⟩
def REC_LOGDAT30 : Field := ⟨0xB8, 0, 32, .ro⟩
def REC_LOGDAT31 : Field := ⟨0xBC, 0, 32, .ro⟩

/-! 15_event_recorder.md R412 -/
def CODE_CFG_SRC : Field := ⟨0x00, 0, 8, .ro⟩
def CODE_CFG_DEFINED : Field := ⟨0x00, 8, 1, .ro⟩
def CODE_CFG_LOGSCALE : Field := ⟨0x00, 9, 1, .ro⟩
def CODE_COUNT : Field := ⟨0x04, 0, 32, .ro⟩
def CODE_EXC_EXCESS : Field := ⟨0x08, 0, 16, .ro⟩
def CODE_EXC_MISSED : Field := ⟨0x08, 16, 16, .ro⟩
def CODE_FIRST_NS : Field := ⟨0x0C, 0, 32, .ro⟩
def CODE_FIRST_S : Field := ⟨0x10, 0, 32, .ro⟩
def CODE_LAST_NS : Field := ⟨0x14, 0, 32, .ro⟩
def CODE_LAST_S : Field := ⟨0x18, 0, 32, .ro⟩
def CODE_MIN : Field := ⟨0x1C, 0, 32, .ro⟩
def CODE_MIN_NS : Field := ⟨0x20, 0, 32, .ro⟩
def CODE_MIN_S : Field := ⟨0x24, 0, 32, .ro⟩
def CODE_MAX : Field := ⟨0x28, 0, 32, .ro⟩
def CODE_MAX_NS : Field := ⟨0x2C, 0, 32, .ro⟩
def CODE_MAX_S : Field := ⟨0x30, 0, 32, .ro⟩
def CODE_BIN0 : Field := ⟨0x34, 0, 32, .ro⟩
def CODE_BIN1 : Field := ⟨0x38, 0, 32, .ro⟩
def CODE_BIN2 : Field := ⟨0x3C, 0, 32, .ro⟩
def CODE_BIN3 : Field := ⟨0x40, 0, 32, .ro⟩
def CODE_BIN4 : Field := ⟨0x44, 0, 32, .ro⟩
def CODE_BIN5 : Field := ⟨0x48, 0, 32, .ro⟩
def CODE_BIN6 : Field := ⟨0x4C, 0, 32, .ro⟩
def CODE_BIN7 : Field := ⟨0x50, 0, 32, .ro⟩
def CODE_BIN8 : Field := ⟨0x54, 0, 32, .ro⟩
def CODE_BIN9 : Field := ⟨0x58, 0, 32, .ro⟩
def CODE_BIN10 : Field := ⟨0x5C, 0, 32, .ro⟩
def CODE_BIN11 : Field := ⟨0x60, 0, 32, .ro⟩
def CODE_BIN12 : Field := ⟨0x64, 0, 32, .ro⟩
def CODE_BIN13 : Field := ⟨0x68, 0, 32, .ro⟩
def CODE_BIN14 : Field := ⟨0x6C, 0, 32, .ro⟩
def CODE_BIN15 : Field := ⟨0x70, 0, 32, .ro⟩

/-! 16_front_panel.md R427 -/
def PNL_CFG_SRC : Field := ⟨0x20, 0, 1, .rw⟩
def PNL_CFG_PAGE : Field := ⟨0x20, 1, 4, .rw⟩
def PNL_STATUS_SLOTS : Field := ⟨0x24, 0, 8, .ro⟩
def PNL_STATUS_BAND : Field := ⟨0x24, 8, 3, .ro⟩
def PNL_STATUS_TOUT : Field := ⟨0x24, 11, 1, .ro⟩
def PNL_STATUS_INITRUN : Field := ⟨0x24, 12, 1, .ro⟩
def PNL_STATUS_STALE : Field := ⟨0x24, 13, 1, .ro⟩
def PNL_TEMP : Field := ⟨0x28, 0, 32, .ro⟩
def PNL_VCON_MV : Field := ⟨0x2C, 0, 16, .ro⟩
def PNL_CTRIM_TRIM : Field := ⟨0x30, 0, 8, .rw⟩
def PNL_RECT0_X0 : Field := ⟨0x34, 0, 9, .rw⟩
def PNL_RECT0_Y0 : Field := ⟨0x34, 9, 8, .rw⟩
def PNL_RECT1_X1 : Field := ⟨0x38, 0, 9, .rw⟩
def PNL_RECT1_Y1 : Field := ⟨0x38, 9, 8, .rw⟩
def PNL_UPD_SLOT : Field := ⟨0x3C, 0, 3, .rw⟩
def PNL_UPD_MODE : Field := ⟨0x3C, 3, 1, .rw⟩
def PNL_UPD_GO : Field := ⟨0x3C, 4, 1, .wo⟩
def PNL_FBADDR_GRAN : Field := ⟨0x40, 0, 11, .rw⟩
def PNL_FBDAT0 : Field := ⟨0x44, 0, 32, .rw⟩
def PNL_FBDAT1 : Field := ⟨0x48, 0, 32, .rw⟩
def PNL_FBDAT2 : Field := ⟨0x4C, 0, 32, .rw⟩
def PNL_FBDAT3 : Field := ⟨0x50, 0, 32, .rw⟩
def PNL_FBDAT4 : Field := ⟨0x54, 0, 32, .rw⟩
def PNL_FBDAT5 : Field := ⟨0x58, 0, 32, .rw⟩
def PNL_FBDAT6 : Field := ⟨0x5C, 0, 32, .rw⟩
def PNL_FBDAT7 : Field := ⟨0x60, 0, 32, .rw⟩
def PNL_CNT_UPDATES : Field := ⟨0x64, 0, 16, .rclr⟩
def PNL_CNT_BALSAT : Field := ⟨0x64, 16, 16, .rclr⟩
def PNL_CNT2_REFUSED : Field := ⟨0x68, 0, 16, .rclr⟩
def PNL_CNT2_SKIPPED : Field := ⟨0x68, 16, 16, .rclr⟩
def SEG_STATE_ADDR : Field := ⟨0x6C, 0, 6, .ro⟩
def SEG_STATE_STATE : Field := ⟨0x6C, 6, 4, .ro⟩
def SEG_STATE_SAFE : Field := ⟨0x6C, 10, 1, .ro⟩
def SEG_STATE_DBG : Field := ⟨0x6C, 11, 1, .ro⟩
def SEG_STATE_MODE : Field := ⟨0x6C, 12, 1, .ro⟩
def SEG_STATE_ERR : Field := ⟨0x6C, 13, 1, .ro⟩
def SEG_STATE_LASTKNOWN : Field := ⟨0x6C, 14, 1, .ro⟩

/-! 17_start_up_and_power_fail.md R443 -/
def PWR_STATUS_SUPOK : Field := ⟨0x20, 0, 1, .ro⟩
def PWR_STATUS_SUPLOW : Field := ⟨0x20, 1, 1, .ro⟩
def PWR_STATUS_HUREADY : Field := ⟨0x20, 2, 1, .ro⟩
def PWR_STATUS_HULOW : Field := ⟨0x20, 3, 1, .ro⟩
def PWR_STATUS_PLLLOCK : Field := ⟨0x20, 4, 1, .ro⟩
def PWR_STATUS_REFNA : Field := ⟨0x20, 5, 1, .ro⟩
def PWR_STATUS_REFNB : Field := ⟨0x20, 6, 1, .ro⟩
def PWR_STATUS_REFCH : Field := ⟨0x20, 7, 1, .ro⟩
def PWR_SUPV_SUP : Field := ⟨0x24, 0, 16, .ro⟩
def PWR_SUPV_VBANK : Field := ⟨0x24, 16, 16, .ro⟩
def PWR_CAP_UF : Field := ⟨0x28, 0, 16, .ro⟩
def PWR_RST_CAUSE : Field := ⟨0x2C, 0, 3, .ro⟩
def PWR_PFCNT_PFAILS : Field := ⟨0x30, 0, 16, .ro⟩
def PWR_PFCNT_RETURNS : Field := ⟨0x30, 16, 16, .ro⟩
def PWR_PFLAST_STEP : Field := ⟨0x34, 0, 3, .ro⟩
def PWR_PFLAST_COMPLETE : Field := ⟨0x34, 3, 1, .ro⟩
def PWR_PFLAST_ABANDONED : Field := ⟨0x34, 4, 1, .ro⟩
def PWR_PFLAST_ABCAUSE : Field := ⟨0x34, 5, 2, .ro⟩
def PWR_PFLAST_DURUS : Field := ⟨0x34, 16, 16, .ro⟩
def PWR_PFE_EMJ : Field := ⟨0x38, 0, 16, .ro⟩
def PWR_PFE_VEND : Field := ⟨0x38, 16, 16, .ro⟩
def PWR_STFAIL_DIGIT : Field := ⟨0x3C, 0, 4, .ro⟩
def PWR_STFAIL_DETAIL : Field := ⟨0x3C, 16, 16, .ro⟩
def PWR_CNVFAIL : Field := ⟨0x40, 0, 32, .ro⟩
def PWR_CTRL_HUTEST : Field := ⟨0x44, 0, 1, .wo⟩

/-! 18_tabor_mode.md R461 -/
def TAB_STATUS_QLEN : Field := ⟨0x00, 0, 9, .ro⟩
def TAB_STATUS_PENDING : Field := ⟨0x00, 9, 5, .ro⟩
def TAB_STATUS_OVFPEND : Field := ⟨0x00, 14, 1, .ro⟩
def TAB_PAIR_CODE : Field := ⟨0x04, 0, 8, .ro⟩
def TAB_PAIR_ADDR : Field := ⟨0x04, 8, 16, .ro⟩
def TAB_CNT_PAIRDISC : Field := ⟨0x08, 0, 16, .rclr⟩
def TAB_CNT_LOST : Field := ⟨0x08, 16, 16, .rclr⟩
def TAB_AQCNT_ACCEPTED : Field := ⟨0x0C, 0, 16, .rclr⟩
def TAB_AQCNT_ACKED : Field := ⟨0x0C, 16, 16, .rclr⟩

/-! 19_management_access.md R475 -/
def MOD_ID_HWREV : Field := ⟨0x00, 0, 8, .ro⟩
def MOD_ID_FWMAJOR : Field := ⟨0x00, 8, 8, .ro⟩
def MOD_ID_FWMINOR : Field := ⟨0x00, 16, 8, .ro⟩
def MOD_ID_PRODUCT : Field := ⟨0x00, 24, 8, .ro⟩
def MOD_STATE_STATE : Field := ⟨0x04, 0, 4, .ro⟩
def MOD_STATE_PREV : Field := ⟨0x04, 4, 4, .ro⟩
def MOD_STATE_CAUSE : Field := ⟨0x04, 8, 1, .ro⟩
def MOD_STATE_DBGFLAG : Field := ⟨0x04, 9, 1, .ro⟩
def MOD_CMD_OP : Field := ⟨0x08, 0, 4, .wo⟩
def MOD_ERR_B0CODE : Field := ⟨0x0C, 0, 8, .ro⟩
def MOD_ERR_B1CODE : Field := ⟨0x0C, 8, 8, .ro⟩
def MOD_ERR_STFAIL : Field := ⟨0x0C, 16, 4, .ro⟩
def MOD_ADDR_ADDR : Field := ⟨0x10, 0, 6, .ro⟩
def MOD_MODE_MODE : Field := ⟨0x14, 0, 1, .ro⟩
def MOD_MODE_NEXT : Field := ⟨0x14, 1, 1, .rw⟩
def MOD_HEALTH_NV_DEGRADED : Field := ⟨0x18, 0, 1, .ro⟩
def MOD_HEALTH_SPARELOW : Field := ⟨0x18, 1, 1, .ro⟩
def MOD_HEALTH_HULOW : Field := ⟨0x18, 2, 1, .ro⟩
def MOD_HEALTH_SUPLOW : Field := ⟨0x18, 3, 1, .ro⟩
def MOD_HEALTH_REGFLT : Field := ⟨0x18, 4, 5, .ro⟩
def MOD_HEALTH_NOPATH : Field := ⟨0x18, 9, 1, .ro⟩
def MOD_HEALTH_HOLDOVER : Field := ⟨0x18, 10, 1, .ro⟩
def MOD_HEALTH_CPISO : Field := ⟨0x18, 11, 1, .ro⟩
def MOD_HEALTH_REGFAULTS : Field := ⟨0x18, 16, 16, .rclr⟩

/-! 15_event_recorder.md R411 -/
def REC_LOGSEL_INDEX : Field := ⟨0x00, 0, 20, .rw⟩

end Sys2Proof.Machine.Reg

namespace Sys2Proof.Machine

open Reg

/-- The fields of page `img`. -/
def fieldsImg : List Field :=
  [ IMG_CTRL_OP, IMG_CTRL_BANK, IMG_CTRL_ATSTROKE, IMG_STATUS_ACTIVE, IMG_STATUS_BOOT, IMG_STATUS_PHASE] ++
  [ IMG_STATUS_RESULT, IMG_STATUS_B0VALID, IMG_STATUS_B0SAVED, IMG_STATUS_B1VALID, IMG_STATUS_B1SAVED, IMG_STATUS_VOLATILE] ++
  [ IMG_STATUS_B0DELTA, IMG_STATUS_B1DELTA, IMG_FAILREC_INDEX, IMG_FAILREC_SECTION, IMG_FAILREC_STAGE, IMG_NEXT_NEXT] ++
  [ IMG_AT, IMG_ID_LO, IMG_ID_HI, IMG_BASE_LO, IMG_BASE_HI, IMG_STATION] ++
  [ IMG_CORR_CORR, IMG_COMMITS_COMMITS, IMG_COMMITS_ABANDONED, IMG_RECW0, IMG_RECW1, IMG_RECW2] ++
  [ IMG_RECW3, IMG_RECW4, IMG_RECW5, IMG_RECW6, IMG_RECW7, IMG_RECW8] ++
  [ KEY_STATE_SLOT0, KEY_STATE_SLOT1, KEY_STATE_SLOT2, KEY_STATE_SLOT3, KEY_USE_INUSE, KEY_DATA0] ++
  [ KEY_DATA1, KEY_DATA2, KEY_DATA3, KEY_DATA4, KEY_DATA5, KEY_DATA6] ++
  [ KEY_DATA7, KEY_CTRL_SLOT, KEY_CTRL_OP]

/-- The fields of page `cell`. -/
def fieldsCell : List Field :=
  [ CELL_STATE_STATE, CELL_STATE_SOURCE, CELL_STATE_QUAL, CELL_STATE_ISOL, CELL_STATE_LATCHED, CELL_STATE_RETRIES] ++
  [ CELL_STATE_EXISTS, CELL_ERR_ERRORS, CELL_ERR_ISOLATIONS, CELL_CTRL_CLEAR, CELL_CTRL_TESTOP, CELL_FORCE_MODE] ++
  [ CELL_FORCE_PORT, CELL_FVAL]

/-- The fields of page `blk`. -/
def fieldsBlk : List Field :=
  [ BLK_STATE_STATE, BLK_STATE_LATCHED, BLK_STATE_RETRIES, BLK_STATE_ISOCELLS, BLK_ERR_ERRORS, BLK_ERR_OVERRUNS] ++
  [ BLK_LOAD_EVAL, BLK_LOAD_TOK, BLK_CTRL_REINT]

/-- The fields of page `fc`. -/
def fieldsFc : List Field :=
  [ FC_OP_OP, FC_OP_NIN, FC_OP_OPT, FC_P0, FC_P1, FC_P2] ++
  [ FC_P3, FC_COST_CYCLES]

/-- The fields of page `stk`. -/
def fieldsStk : List Field :=
  [ STK_CFG_TS_UNITS, STK_CFG_SYNC, STK_NUM_LO, STK_NUM_HI, STK_TB_NS, STK_TB_SLO] ++
  [ STK_TB_SHI_S, STK_PHASE, STK_SLIP_SLIPS, STK_SLIP_LATE]

/-- The fields of page `lp`. -/
def fieldsLp : List Field :=
  [ LP_MODE_REQ, LP_MODE_ACT, LP_MODE_SHED, LP_MODE_EXTLIM, LP_MODE_PVBAD, LP_MODE_SATLO] ++
  [ LP_MODE_SATHI, LP_MODE_SPRAMP, LP_MODE_INITREQ, LP_SP, LP_MAN, LP_OUT] ++
  [ LP_WSP, LP_PV, LP_INT, LP_CALC, LP_GAIN_GSEL, LP_GAIN_ACTIVE] ++
  [ LP_GAIN_BLEND, LP_GAIN_DLEVEL, LP_GAIN_OSCLIM, LP_GAIN_DRESET, LP_KP, LP_TI] ++
  [ LP_TD, LP_BETA, LP_N, LP_KFF, LP_RATE_UP, LP_RATE_DN] ++
  [ LP_OSC_DETECTS, LP_OSC_RELAXES, LP_CNT_SWITCHES, LP_CNT_SHEDS, LP_SEL_SELECTED, LP_SEL_TAKEOVERS]

/-- The fields of page `ph`. -/
def fieldsPh : List Field :=
  [ PH_STATUS_SYNC, PH_STATUS_LOCKINC, PH_STATUS_LOCKRUN, PH_STATUS_PERMIT, PH_STATUS_LIVEINC, PH_STATUS_LIVERUN] ++
  [ PH_STATUS_EVT, PH_STATUS_INVALID, PH_F_INC, PH_F_RUN, PH_DPHI, PH_SLIP] ++
  [ PH_SRATE, PH_P, PH_Q, PH_RMS0, PH_RMS1, PH_RMS2] ++
  [ PH_RMS3, PH_RMS4, PH_RMS5, PH_RMS6, PH_RMS7, PH_ANG0] ++
  [ PH_ANG1, PH_ANG2, PH_ANG3, PH_ANG4, PH_ANG5, PH_ANG6] ++
  [ PH_ANG7, PH_TCB, PH_CTRL_BLOCK, PH_CNT_CLOSES, PH_CNT_ABANDONS, PH_ERR_GAPS] ++
  [ PH_ERR_UNLOCKS, PH_PT_NS, PH_PT_S, PH_ADV]

/-- The fields of page `tb`. -/
def fieldsTb : List Field :=
  [ TB_STATUS_TSTATE, TB_STATUS_STPASS, TB_STATUS_DBGFLAG, TB_STATUS_SAFEIN, TB_STATUS_HWSAFE, TB_STATUS_MFLTOPEN] ++
  [ TB_STATUS_RETESTING, TB_STATUS_NBYP, TB_CAUSE_FIRST, TB_CAUSE_PAIR, TB_CAUSE_SUB, TB_CAUSE_LATCHED] ++
  [ TB_CTRL_ACK, TB_CTRL_RETEST, TB_SCANCNT, TB_SCANMAX_EVALNS, TB_SCANMAX_MISSED, TB_TISEL_INPUT] ++
  [ TB_TISTAT_STATE, TB_TISTAT_BYPASS, TB_TISTAT_RAW, TB_TISTAT_BYPREM, TB_TIBYP_SECONDS, TB_TICNT_DEMANDS] ++
  [ TB_TICNT_INVALIDS, TB_DEMAND0, TB_DEMAND1, TB_DEMAND2, TB_DEMAND3, TB_DEMAND4] ++
  [ TB_DEMAND5, TB_DEMAND6, TB_DEMAND7, TB_TRIPPED0, TB_TRIPPED1, TB_TRIPPED2] ++
  [ TB_TRIPPED3, TB_SCSEL_CONN, TB_SCSTAT_VALID, TB_SCSTAT_SENDERSAFE, TB_SCSTAT_LASTSEQ, TB_SCCNT_SEQERR] ++
  [ TB_SCCNT_TIMEOUTS, TB_SCFAIL_CRCERR, TB_SCFAIL_UNKNOWN, TB_SCID]

/-- The fields of page `tout`. -/
def fieldsTout : List Field :=
  [ TOUT_STATE_TRIPPED, TOUT_STATE_DEMAND, TOUT_STATE_CMD, TOUT_STATE_NDEM, TOUT_STATE_KEFF, TOUT_CTRL_RESET] ++
  [ TOUT_CNT_TRIPS, TOUT_CNT_RESETS, TOUT_LAST_NS, TOUT_LAST_S]

/-- The fields of page `cp`. -/
def fieldsCp : List Field :=
  [ CP_STATUS_LOCKSTEP, CP_STATUS_SPLIT, CP_STATUS_HELD, CP_STATUS_DEBUG, CP_DIV_DIVERGES, CP_DIV_RESYNCS] ++
  [ CP_CMPCNT, CP_INJ_INJECTED, CP_INJ_MISSED, CP_DBG_OP]

/-- The fields of page `uc`. -/
def fieldsUc : List Field :=
  [ UC_CFG_FUNC, UC_CFG_RANGE, UC_CFG_RATE, UC_CFG_NE43, UC_CFG_WAVE, UC_CFG_HART] ++
  [ UC_CFG_LOOP, UC_CFG_TRIMEN, UC_CFG_WIRES, UC_CFG_CHAR, UC_CFG_SAFEMODE, UC_CFG_MULTIDROP] ++
  [ UC_STATUS_COMPL, UC_STATUS_HDRLOW, UC_STATUS_OPEN, UC_STATUS_SHORT, UC_STATUS_NE43ST, UC_STATUS_CJBAD] ++
  [ UC_STATUS_FCALBAD, UC_STATUS_CMPLO, UC_STATUS_CMPHI, UC_VALUE, UC_AUX, UC_RAW] ++
  [ UC_DRIVE, UC_TRIM_REF, UC_TRIM_CTRL_OP, UC_TRIM_GAIN, UC_TRIM_OFFS, UC_TRIM_STAT_CAPLO] ++
  [ UC_TRIM_STAT_CAPHI, UC_TRIM_STAT_ACTIVE, UC_CMP_LO, UC_CMP_HI, UC_CNT_COMPLS, UC_CNT_SENSOR] ++
  [ UC_HCNT_NORESP, UC_HCNT_COMMERR, UC_FCAL_DATE, UC_FCAL_VALID, HART_REQ_CMD, HART_REQ_DEV] ++
  [ HART_REQ_LEN, HART_REQ_GO, HART_RSP_STATE, HART_RSP_LEN, HART_RSP_RC, HART_RSP_DSTAT] ++
  [ HART_DATA0, HART_DATA1, HART_DATA2, HART_DATA3, HART_DATA4, HART_DATA5] ++
  [ HART_DATA6, HART_DATA7]

/-- The fields of page `dp`. -/
def fieldsDp : List Field :=
  [ DP_CFG_KIND, DP_CFG_FILT, DP_CFG_CATCH, DP_CFG_WBDET, DP_CFG_BOND, DP_CFG_SAGLATCH] ++
  [ DP_CFG_OLDET, DP_CFG_SAFESTATE, DP_CFG_PERMSRC, DP_STATUS_IN, DP_STATUS_DRV, DP_STATUS_TERM] ++
  [ DP_STATUS_WDOG, DP_STATUS_SHED, DP_STATUS_LATCHOFF, DP_STATUS_OPEN, DP_STATUS_WBREAK, DP_STATUS_SHORTFS] ++
  [ DP_STATUS_PARALLEL, DP_STATUS_OVERLOAD, DP_CURR, DP_WDT_WDT, DP_CTRL_REARM, DP_CNT_WDOGS] ++
  [ DP_CNT_WIRING, DP_EDGES]

/-- The fields of page `db`. -/
def fieldsDb : List Field :=
  [ DB_FS_LOW, DB_FS_MISSING, DB_FS_SHED, DB_FS_HIGH, DB_FSV, DB_ILOAD] ++
  [ DB_CNT_LOWS, DB_CNT_SHEDS, DB_CNT2_MISSINGS, DB_CNT2_LINKOFFS]

/-- The fields of page `ax`. -/
def fieldsAx : List Field :=
  [ AX_CFG_CMODE, AX_CFG_ENC, AX_CFG_SAFEACT, AX_CFG_STALLACT, AX_CFG_DIRINV, AX_CFG_HMETH] ++
  [ AX_CFG_LFILT, AX_STATUS_MOVING, AX_STATUS_DIR, AX_STATUS_PHASE, AX_STATUS_REVERSING, AX_STATUS_HOMED] ++
  [ AX_STATUS_HOMING, AX_STATUS_LIMP, AX_STATUS_LIMN, AX_STATUS_HOME, AX_STATUS_LIMSTOP, AX_STATUS_SAFESTOP] ++
  [ AX_STATUS_HOLD, AX_STATUS_STALL, AX_STATUS_ENCERR, AX_STATUS_MSOFF, AX_STATUS_CHOPSAT, AX_STATUS_LIMCHAT] ++
  [ AX_STATUS_PHFLT, AX_POS, AX_TGT, AX_VEL, AX_ENC, AX_FERR] ++
  [ AX_A1, AX_A2, AX_D2, AX_D1, AX_VMAX, AX_IRUN] ++
  [ AX_IHOLD, AX_HCTRL_GO, AX_HCTRL_ABORT, AX_HSTAT_STATE, AX_HSTAT_CAUSE, AX_HSTAT_STEP] ++
  [ AX_HREF, AX_CHOP_OFFA, AX_CHOP_OFFB, AX_CNT_LIMCHAT, AX_CNT_LIMSTOPS, AX_CNT2_STALLS] ++
  [ AX_CNT2_ENCERRS, AX_CNT3_HFAILS, AX_CNT3_HREFUSED]

/-- The fields of page `mb`. -/
def fieldsMb : List Field :=
  [ MB_MS_UNDER, MB_MS_OVER, MB_MS_OFF, MB_MSV, MB_CNT_UNDERS, MB_CNT_OVERS] ++
  [ MB_CNT2_LINKOFFS]

/-- The fields of page `ch`. -/
def fieldsCh : List Field :=
  [ CH_STATUS_ADDR, CH_STATUS_COUNT, CH_STATUS_HEAD, CH_STATUS_CLASH, CH_STATUS_OVERFLOW, CH_STATUS_NOHEAD] ++
  [ CH_STATUS_UPLINK, CH_STATUS_DNLINK, CH_UP_ERR_FLITERR, CH_UP_ERR_POISONED, CH_DN_ERR_FLITERR, CH_DN_ERR_POISONED] ++
  [ CH_UP_CNT_CORR, CH_UP_CNT_LINKDOWNS, CH_DN_CNT_CORR, CH_DN_CNT_LINKDOWNS, CH_RESYNC_UP, CH_RESYNC_DN] ++
  [ CH_DROP_FRAMES, CH_DROP_SKIPPED, CH_TC_CORRECTED, CH_TC_TWOSTEP, CH_TCMAX_NS]

/-- The fields of page `pc`. -/
def fieldsPc : List Field :=
  [ PC_STATE_PRESENT, PC_STATE_SELF, PC_STATE_NSIG, PC_LAST, PC_CNT_INCOMPLETE, PC_CNT_SKIPPED] ++
  [ PC_CNT2_TIMEOUTS]

/-- The fields of page `qb`. -/
def fieldsQb : List Field :=
  [ QB_STATUS_INFLIGHT, QB_PEAK_PEAK, IOMMU_SEL_DOMAIN, IOMMU_ROOT_ROOT, IOMMU_ROOT_EN, IOMMU_INV_DOMAIN] ++
  [ IOMMU_INV_ALL, IOMMU_TLB_MISSES, IOMMU_TLB_FAULTS, QB_FLT_QP, QB_FLT_RING, QB_FLT_KIND] ++
  [ QB_FLT_CODE, QB_FLTADDR]

/-- The fields of page `qp`. -/
def fieldsQp : List Field :=
  [ QP_CFG_DOMAIN, QP_CFG_PRIO, QP_CFG_TXLOG, QP_CFG_RXLOG, QP_TXBASE, QP_RXBASE] ++
  [ QP_TXPTR_HEAD, QP_TXPTR_TAIL, QP_RXPTR_HEAD, QP_RXPTR_TAIL, QP_CTRL_TXEN, QP_CTRL_TXDIS] ++
  [ QP_CTRL_RXEN, QP_CTRL_RXDIS, QP_CTRL_TXRESUME, QP_CTRL_RXRESUME, QP_STATUS_TXON, QP_STATUS_RXON] ++
  [ QP_STATUS_TXHALT, QP_STATUS_RXHALT, QP_STATUS_TXWBF, QP_STATUS_RXWBF, QP_STATUS_TXCODE, QP_STATUS_RXCODE] ++
  [ QP_CNT_NOBUF, QP_CNT_NAKS, QP_NAKSEQ_MSGSEQ, QP_NAKSEQ_CODE]

/-- The fields of page `net`. -/
def fieldsNet : List Field :=
  [ NET_CFG_PMODE, NET_CFG_AN, NET_VLAN_VID, NET_VLAN_PCPDATA, NET_VLAN_PCPMGMT, NET_IP] ++
  [ NET_XCFG_ECDIV, NET_XCFG_PREF, NET_XCFG_FOLLOW, NET_XCFG_IMPTMO, NET_MAC_LO, NET_MAC_HI_MAC] ++
  [ NET_STATUS_ROLE, NET_STATUS_LINK, NET_STATUS_SFP, NET_STATUS_ELIG, NET_STATUS_MISS, NET_STATUS_NOALT] ++
  [ NET_STATUS_SWPEND, NET_STATUS_SNARE, NET_STATUS_ARMED, NET_STATUS_CALLING, NET_CTRL_SWITCH, NET_RXCNT_CYCLIC] ++
  [ NET_RXCNT_SAFETY, NET_ERRCNT_BADFCS, NET_ERRCNT_FILTERED, NET_MISSCNT_MISSED, NET_MISSCNT_SWITCHOVERS, NET_TXCNT_CYCLIC] ++
  [ NET_TXCNT_SKIPPED, NET_DROPCNT_POLICED, NET_DROPCNT_CONFLICT, NET_GAP_LAST, NET_GAP_MAX, NET_MGMTCNT_MREQ] ++
  [ NET_MGMTCNT_FOLLOWS]

/-- The fields of page `tm`. -/
def fieldsTm : List Field :=
  [ TM_CFG_SRC, TM_CFG_CHAINGM, TM_CFG_SLEWMAX, TM_CFG_DOMAIN, TM_CFG_LOGSYNC, TM_ASYM_NA] ++
  [ TM_ASYM_NB, TM_STATUS_STATE, TM_STATUS_TIMEVALID, TM_STATUS_PORT, TM_STATUS_CGM, TM_STATUS_PAUSED] ++
  [ TM_STATUS_BIGBACK, TM_NOW_NS, TM_NOW_SLO, TM_NOW_SHI_S, TM_OFFSET, TM_MPD] ++
  [ TM_ADDEND, TM_HOLDADD, TM_GMID_LO, TM_GMID_HI, TM_GMQ_CLASS, TM_GMQ_ACCURACY] ++
  [ TM_GMQ_STEPS, TM_UTC_UTCOFF, TM_UTC_UTCVALID, TM_UTC_PTPTS, TM_SET_NS, TM_SET_SLO] ++
  [ TM_SET_SHI_S, TM_CNT_STEPS, TM_CNT_MCHANGES, TM_CNT2_HOLDOVERS, TM_CNT2_FOLLOWERR, TM_PCNT_SYNCRX] ++
  [ TM_PCNT_DISCARDS, TM_OFFMAX]

/-- The fields of page `can`. -/
def fieldsCan : List Field :=
  [ CAN_CFG_EN, CAN_CFG_FDEN, CAN_CFG_OPMODE, CAN_CFG_TXORD, CAN_CFG_BOAUTO, CAN_CFG_TERM] ++
  [ CAN_CFG_ALONELIM, CAN_NBT_NBRP, CAN_NBT_NTSEG1, CAN_NBT_NTSEG2, CAN_NBT_NSJW, CAN_DBT_DBRP] ++
  [ CAN_DBT_DTSEG1, CAN_DBT_DTSEG2, CAN_DBT_DSJW, CAN_TDC_TDCEN, CAN_TDC_TDCO, CAN_STATUS_ESTATE] ++
  [ CAN_STATUS_ALONE, CAN_STATUS_LEC, CAN_STATUS_TDCV, CAN_STATUS_ACKERRS, CAN_ECNT_TEC, CAN_ECNT_REC] ++
  [ CAN_ECNT_RP, CAN_CNT_BUSOFFS, CAN_CNT_ALONES, CAN_CNT2_NOMATCH, CAN_CNT2_XSKIP, CAN_CTRL_TXSEL] ++
  [ CAN_CTRL_RECOVER, CAN_TXB_ID_ID, CAN_TXB_ID_IDE, CAN_TXB_ID_FDF, CAN_TXB_ID_BRS, CAN_TXB_CMD_REQ] ++
  [ CAN_TXB_CMD_CANCEL, CAN_TXB_CMD_DLC, CAN_TXB_STAT_ST0, CAN_TXB_STAT_ST1, CAN_TXB_STAT_ST2, CAN_TXB_STAT_CXL] ++
  [ CAN_TXB_DATA0, CAN_TXB_DATA1, CAN_TXB_DATA2, CAN_TXB_DATA3, CAN_TXB_DATA4, CAN_TXB_DATA5] ++
  [ CAN_TXB_DATA6, CAN_TXB_DATA7, CAN_TXB_DATA8, CAN_TXB_DATA9, CAN_TXB_DATA10, CAN_TXB_DATA11] ++
  [ CAN_TXB_DATA12, CAN_TXB_DATA13, CAN_TXB_DATA14, CAN_TXB_DATA15]

/-- The fields of page `mbx`. -/
def fieldsMbx : List Field :=
  [ MBX_INFO_ID, MBX_INFO_IDE, MBX_INFO_FDF, MBX_INFO_BRS, MBX_META_DLC, MBX_META_ESI] ++
  [ MBX_META_NEW, MBX_META_SHADOW, MBX_TS_NS, MBX_TS_SLO, MBX_DATA0, MBX_DATA1] ++
  [ MBX_DATA2, MBX_DATA3, MBX_DATA4, MBX_DATA5, MBX_DATA6, MBX_DATA7] ++
  [ MBX_DATA8, MBX_DATA9, MBX_DATA10, MBX_DATA11, MBX_DATA12, MBX_DATA13] ++
  [ MBX_DATA14, MBX_DATA15, MBX_CNT_FRAMES, MBX_CNT_LOST]

/-- The fields of page `mem`. -/
def fieldsMem : List Field :=
  [ MEM_DRAM1_CORR1, MEM_DRAM1_CORR2, MEM_DRAM2_UNCORR, MEM_DRAM2_MISDIR, MEM_SRAM1_CORR1, MEM_SRAM1_CORR2] ++
  [ MEM_SRAM2_UNCORR, MEM_SRAM2_MISDIR, MEM_PORT_MISDIR, MEM_PORT_POISONED, MEM_ERRINFO_MEMORY, MEM_ERRINFO_KIND] ++
  [ MEM_ERRINFO_REGION, MEM_ERRINFO_VALID, MEM_ERRADDR_PA, MEM_SCRUB_PERIOD, MEM_SCRUBST_PASSES, MEM_SCRUBST_PROGRESS]

/-- The fields of page `nvj`. -/
def fieldsNvj : List Field :=
  [ NVJ_STATUS_DEGRADED, NVJ_STATUS_SPARELOW, NVJ_STATUS_CLOSING, NVJ_SPARES_SPARES, NVJ_SPARES_RETIRED, NVJ_PART_RECBLKS] ++
  [ NVJ_PART_IMGBLKS, NVJ_WEARMAX, NVJ_WEARAVG, NVJ_ECC1_CORR1, NVJ_ECC1_CORR2, NVJ_ECC2_UNCORR] ++
  [ NVJ_ECC2_MISDIR, NVJ_WCNT_VFAIL, NVJ_WCNT_RETIRES, NVJ_PEND_PEND, NVJ_SCRUBST_PASSES]

/-- The fields of page `recd`. -/
def fieldsRecd : List Field :=
  [ REC_CFG_PERIOD, REC_STATUS_STATE, REC_STATUS_FRZTMO, REC_STATUS_NOFLUSH, REC_CTRL_FREEZE, REC_CTRL_UNFREEZE] ++
  [ REC_CTRL_CLEAR, REC_LOGUSED_USED, REC_LOGCAP_CAP, REC_MISS_QLOST, REC_MISS_PFLOST, REC_MISS2_LOGLOST] ++
  [ REC_MISS2_WFAIL, REC_FRZ_FRZ, REC_LOGDAT0, REC_LOGDAT1, REC_LOGDAT2, REC_LOGDAT3] ++
  [ REC_LOGDAT4, REC_LOGDAT5, REC_LOGDAT6, REC_LOGDAT7, REC_LOGDAT8, REC_LOGDAT9] ++
  [ REC_LOGDAT10, REC_LOGDAT11, REC_LOGDAT12, REC_LOGDAT13, REC_LOGDAT14, REC_LOGDAT15] ++
  [ REC_LOGDAT16, REC_LOGDAT17, REC_LOGDAT18, REC_LOGDAT19, REC_LOGDAT20, REC_LOGDAT21] ++
  [ REC_LOGDAT22, REC_LOGDAT23, REC_LOGDAT24, REC_LOGDAT25, REC_LOGDAT26, REC_LOGDAT27] ++
  [ REC_LOGDAT28, REC_LOGDAT29, REC_LOGDAT30, REC_LOGDAT31]

/-- The fields of page `code`. -/
def fieldsCode : List Field :=
  [ CODE_CFG_SRC, CODE_CFG_DEFINED, CODE_CFG_LOGSCALE, CODE_COUNT, CODE_EXC_EXCESS, CODE_EXC_MISSED] ++
  [ CODE_FIRST_NS, CODE_FIRST_S, CODE_LAST_NS, CODE_LAST_S, CODE_MIN, CODE_MIN_NS] ++
  [ CODE_MIN_S, CODE_MAX, CODE_MAX_NS, CODE_MAX_S, CODE_BIN0, CODE_BIN1] ++
  [ CODE_BIN2, CODE_BIN3, CODE_BIN4, CODE_BIN5, CODE_BIN6, CODE_BIN7] ++
  [ CODE_BIN8, CODE_BIN9, CODE_BIN10, CODE_BIN11, CODE_BIN12, CODE_BIN13] ++
  [ CODE_BIN14, CODE_BIN15]

/-- The fields of page `pnl`. -/
def fieldsPnl : List Field :=
  [ PNL_CFG_SRC, PNL_CFG_PAGE, PNL_STATUS_SLOTS, PNL_STATUS_BAND, PNL_STATUS_TOUT, PNL_STATUS_INITRUN] ++
  [ PNL_STATUS_STALE, PNL_TEMP, PNL_VCON_MV, PNL_CTRIM_TRIM, PNL_RECT0_X0, PNL_RECT0_Y0] ++
  [ PNL_RECT1_X1, PNL_RECT1_Y1, PNL_UPD_SLOT, PNL_UPD_MODE, PNL_UPD_GO, PNL_FBADDR_GRAN] ++
  [ PNL_FBDAT0, PNL_FBDAT1, PNL_FBDAT2, PNL_FBDAT3, PNL_FBDAT4, PNL_FBDAT5] ++
  [ PNL_FBDAT6, PNL_FBDAT7, PNL_CNT_UPDATES, PNL_CNT_BALSAT, PNL_CNT2_REFUSED, PNL_CNT2_SKIPPED] ++
  [ SEG_STATE_ADDR, SEG_STATE_STATE, SEG_STATE_SAFE, SEG_STATE_DBG, SEG_STATE_MODE, SEG_STATE_ERR] ++
  [ SEG_STATE_LASTKNOWN]

/-- The fields of page `pwr`. -/
def fieldsPwr : List Field :=
  [ PWR_STATUS_SUPOK, PWR_STATUS_SUPLOW, PWR_STATUS_HUREADY, PWR_STATUS_HULOW, PWR_STATUS_PLLLOCK, PWR_STATUS_REFNA] ++
  [ PWR_STATUS_REFNB, PWR_STATUS_REFCH, PWR_SUPV_SUP, PWR_SUPV_VBANK, PWR_CAP_UF, PWR_RST_CAUSE] ++
  [ PWR_PFCNT_PFAILS, PWR_PFCNT_RETURNS, PWR_PFLAST_STEP, PWR_PFLAST_COMPLETE, PWR_PFLAST_ABANDONED, PWR_PFLAST_ABCAUSE] ++
  [ PWR_PFLAST_DURUS, PWR_PFE_EMJ, PWR_PFE_VEND, PWR_STFAIL_DIGIT, PWR_STFAIL_DETAIL, PWR_CNVFAIL] ++
  [ PWR_CTRL_HUTEST]

/-- The fields of page `tab`. -/
def fieldsTab : List Field :=
  [ TAB_STATUS_QLEN, TAB_STATUS_PENDING, TAB_STATUS_OVFPEND, TAB_PAIR_CODE, TAB_PAIR_ADDR, TAB_CNT_PAIRDISC] ++
  [ TAB_CNT_LOST, TAB_AQCNT_ACCEPTED, TAB_AQCNT_ACKED]

/-- The fields of page `modr`. -/
def fieldsModr : List Field :=
  [ MOD_ID_HWREV, MOD_ID_FWMAJOR, MOD_ID_FWMINOR, MOD_ID_PRODUCT, MOD_STATE_STATE, MOD_STATE_PREV] ++
  [ MOD_STATE_CAUSE, MOD_STATE_DBGFLAG, MOD_CMD_OP, MOD_ERR_B0CODE, MOD_ERR_B1CODE, MOD_ERR_STFAIL] ++
  [ MOD_ADDR_ADDR, MOD_MODE_MODE, MOD_MODE_NEXT, MOD_HEALTH_NV_DEGRADED, MOD_HEALTH_SPARELOW, MOD_HEALTH_HULOW] ++
  [ MOD_HEALTH_SUPLOW, MOD_HEALTH_REGFLT, MOD_HEALTH_NOPATH, MOD_HEALTH_HOLDOVER, MOD_HEALTH_CPISO, MOD_HEALTH_REGFAULTS]

/-- The fields of page `recd2`. -/
def fieldsRecd2 : List Field :=
  [ REC_LOGSEL_INDEX]

/-- The fields that a page maps. -/
def Page.fields : Page → List Field
  | .img => fieldsImg
  | .cell => fieldsCell
  | .blk => fieldsBlk
  | .fc => fieldsFc
  | .stk => fieldsStk
  | .lp => fieldsLp
  | .ph => fieldsPh
  | .tb => fieldsTb
  | .tout => fieldsTout
  | .cp => fieldsCp
  | .uc => fieldsUc
  | .dp => fieldsDp
  | .db => fieldsDb
  | .ax => fieldsAx
  | .mb => fieldsMb
  | .ch => fieldsCh
  | .pc => fieldsPc
  | .qb => fieldsQb
  | .qp => fieldsQp
  | .net => fieldsNet
  | .tm => fieldsTm
  | .can => fieldsCan
  | .mbx => fieldsMbx
  | .mem => fieldsMem
  | .nvj => fieldsNvj
  | .recd => fieldsRecd
  | .code => fieldsCode
  | .pnl => fieldsPnl
  | .pwr => fieldsPwr
  | .tab => fieldsTab
  | .modr => fieldsModr
  | .recd2 => fieldsRecd2
  | .none => []

end Sys2Proof.Machine
end

