-- ==== Sys2Proof/Machine/Ops.lean ====
section
/-! DEFINITION. The named operations over registers, addresses, module state and outputs that every family shares. -/

namespace Sys2Proof.Machine

/-! Result codes (R477). -/

abbrev Code := BitVec 8

def E_OK : Code := 0x00
def E_ADDR : Code := 0x01
def E_ACCESS : Code := 0x02
def E_ALIGN : Code := 0x03
def E_LOCKED : Code := 0x04
def E_RANGE : Code := 0x10
def E_ENUM : Code := 0x11
def E_PAIR : Code := 0x12
def E_ORDER : Code := 0x13
def E_RATE : Code := 0x14
def E_STATE : Code := 0x20
def E_BUSY : Code := 0x21
def E_FULL : Code := 0x22
def E_TIMEOUT : Code := 0x23
def E_POISON : Code := 0x24
def E_IMG_FORMAT : Code := 0x30
def E_IMG_CHECK : Code := 0x31
def E_IMG_SIG : Code := 0x32
def E_IMG_RESOURCE : Code := 0x33
def E_IMG_COMPAT : Code := 0x34
def E_NV_WEAR : Code := 0x40
def E_NV_FAIL : Code := 0x41
def E_TABOR : Code := 0x50
def E_CARILLON : Code := 0x51
def E_INTERNAL : Code := 0xFF

/-! Service addresses and cell IDs (R7–R10, R16, R17). -/

/-- Service address of offset 0 of a cell index of a block (R7). -/
def svc (region block cell : Nat) : Nat := region * 0x10000000 + block * 0x100000 + cell * 0x100

/-- Offset 0 of the block-level registers of a block (R7). -/
def blkBase (region block : Nat) : Nat := svc region block 0xFFF

/-- A cell ID: region [15:13], block [12:8], cell [7:0] (R8). -/
def cellId (region block cell : Nat) : Nat := region * 0x2000 + block * 0x100 + cell

def idRegion (id : Nat) : Nat := id / 0x2000
def idBlock (id : Nat) : Nat := id / 0x100 % 32
def idCell (id : Nat) : Nat := id % 256

/-- Offset 0 of the registers of the cell with a cell ID. -/
def cellBase (id : Nat) : Nat := svc (idRegion id) (idBlock id) (idCell id)

/-- Cell IDs of numbered cells (R17, R10). -/
def ucId (n : Nat) : Nat := cellId 1 (n / 8) (n % 8)
def dpId (n : Nat) : Nat := cellId 1 (4 + n / 8) (n % 8)
def axId (n : Nat) : Nat := cellId 1 (8 + n / 2) (n % 2)
def phId (n : Nat) : Nat := cellId 1 10 n
def lpId (n : Nat) : Nat := cellId 2 (n / 64) (n % 64)
def fcId (n : Nat) : Nat := cellId 2 (8 + n / 256) (n % 256)
def toId (n : Nat) : Nat := cellId 2 24 n
def pcId (n : Nat) : Nat := cellId 3 2 n
def qpId (n : Nat) : Nat := cellId 3 3 n
def mbId (n : Nat) : Nat := cellId 3 5 n

/-- Kinds of cells with a cell ID (R16). -/
inductive Kind where
  | uc | dp | ax | ph | lp | fc | tout | pc | qp | mbx
  deriving DecidableEq, Repr

/-- The kind of the cell that a region, block and cell index name; `none` where R16 implements none. -/
def kindAt (region block cell : Nat) : Option Kind :=
  match region with
  | 1 =>
    if block < 4 then (if cell < 8 then some .uc else none)
    else if block < 8 then (if cell < 8 then some .dp else none)
    else if block < 10 then (if cell < 2 then some .ax else none)
    else if block = 10 then (if cell < 4 then some .ph else none)
    else none
  | 2 =>
    if block < 8 then (if cell < 64 then some .lp else none)
    else if block < 24 then (if cell < 256 then some .fc else none)
    else if block = 24 then (if cell < 128 then some .tout else none)
    else none
  | 3 =>
    if block = 2 then (if 1 ≤ cell ∧ cell < 64 then some .pc else none)
    else if block = 3 then (if cell < 32 then some .qp else none)
    else if block = 5 then (if cell < 32 then some .mbx else none)
    else none
  | _ => none

def kindOf (id : Nat) : Option Kind := kindAt (idRegion id) (idBlock id) (idCell id)

/-- Number of a cell within its kind, the inverse of R17's placement. -/
def cellNum (id : Nat) : Nat :=
  match kindOf id with
  | some .uc => idBlock id * 8 + idCell id
  | some .dp => (idBlock id - 4) * 8 + idCell id
  | some .ax => (idBlock id - 8) * 2 + idCell id
  | some .lp => idBlock id * 64 + idCell id
  | some .fc => (idBlock id - 8) * 256 + idCell id
  | _ => idCell id

/-- Blocks of R16. -/
def blockExists (region block : Nat) : Bool :=
  match region with
  | 0 => block == 0
  | 1 => block < 11
  | 2 => block < 29
  | 3 => block < 6
  | 4 => block < 5
  | _ => false

/-- Cells with a cell ID that a block holds. -/
def blockCells (region block : Nat) : List Nat :=
  match region with
  | 1 => List.range (if block < 8 then 8 else if block < 10 then 2 else if block = 10 then 4 else 0)
  | 2 => List.range (if block < 8 then 64 else if block < 24 then 256 else if block = 24 then 128 else 0)
  | 3 => if block = 2 then (List.range 63).map (· + 1) else List.range (if block = 3 ∨ block = 5 then 32 else 0)
  | _ => []

/-- Block-level register pages. -/
def modBase : Nat := blkBase 0 0
def ubBase (b : Nat) : Nat := blkBase 1 b
def dbBase (b : Nat) : Nat := blkBase 1 (4 + b)
def mbBase (b : Nat) : Nat := blkBase 1 (8 + b)
def pbBase : Nat := blkBase 1 10
def tbBase : Nat := blkBase 2 24
def cpBase (n : Nat) : Nat := blkBase 2 (25 + n)
def netBase : Path → Nat
  | .a => blkBase 3 0
  | .b => blkBase 3 1
def chBase : Nat := blkBase 3 2
def qbBase : Nat := blkBase 3 3
def tmBase : Nat := blkBase 3 4
/-- CAN register pages: CAN1's registers lie 0x70 above CAN0's (R371). -/
def canBase (c : Nat) : Nat := blkBase 3 5 + c * 0x70
def memBase : Nat := blkBase 4 0
def nvjBase : Nat := blkBase 4 1
def recBase : Nat := blkBase 4 2
def rec2Base : Nat := svc 4 2 0xFFE
def tabBase : Nat := svc 3 0 0xFFE
def pnlBase : Nat := blkBase 4 3
def pwrBase : Nat := blkBase 4 4
def codeBase (code : Nat) : Nat := svc 4 2 code

/-! Registers. -/

/-- The 32-bit register at a service address; one that nothing has written reads 0. -/
def State.reg (s : State) (a : Nat) : Word := Store.get 0 s.regs a

def State.setReg (s : State) (a : Nat) (v : Word) : State := { s with regs := Store.set 0 s.regs a v }

/-- Field [lo+width−1:lo] of a word. -/
def getField (w : Word) (lo width : Nat) : Nat := w.toNat / 2 ^ lo % 2 ^ width

/-- A word with field [lo+width−1:lo] replaced by the low bits of `v`. -/
def setField (w : Word) (lo width v : Nat) : Word :=
  BitVec.ofNat 32 (w.toNat - w.toNat / 2 ^ lo % 2 ^ width * 2 ^ lo + v % 2 ^ width * 2 ^ lo)

/-- Read of a field of the page at `b`. -/
def State.rd (s : State) (b : Nat) (f : Field) : Nat := getField (s.reg (b + f.off)) f.lo f.width

/-- Write of a field of the page at `b`. -/
def State.wr (s : State) (b : Nat) (f : Field) (v : Nat) : State :=
  s.setReg (b + f.off) (setField (s.reg (b + f.off)) f.lo f.width v)

/-- Word of a field that covers its register. -/
def State.rdw (s : State) (b : Nat) (f : Field) : Word := s.reg (b + f.off)
def State.wrw (s : State) (b : Nat) (f : Field) (v : Word) : State := s.setReg (b + f.off) v

/-- A flag of one bit. -/
def State.flag (s : State) (b : Nat) (f : Field) : Bool := s.rd b f == 1
def State.setFlag (s : State) (b : Nat) (f : Field) (v : Bool) : State := s.wr b f v.toNat

/-- A saturating counter (R94) rises by `n`. -/
def State.bumpBy (s : State) (b : Nat) (f : Field) (n : Nat) : State :=
  s.wr b f (min (s.rd b f + n) (2 ^ f.width - 1))
def State.bump (s : State) (b : Nat) (f : Field) : State := s.bumpBy b f 1

/-- `f` where the condition holds. -/
def State.when (s : State) (c : Bool) (f : State → State) : State := if c then f s else s

/-! Module state (R21). -/

def stPowerup : Nat := 0
def stSelftest : Nat := 1
def stEnum : Nat := 2
def stLoad : Nat := 3
def stReady : Nat := 4
def stRun : Nat := 5
def stSafe : Nat := 6
def stService : Nat := 7
def stPfail : Nat := 8

def State.mst (s : State) : Nat := s.rd modBase Reg.MOD_STATE_STATE

/-- Tabor mode is in force (R19). -/
def State.tabor (s : State) : Bool := s.flag modBase Reg.MOD_MODE_MODE

/-- The module state is one of a list. -/
def State.mstIn (s : State) (l : List Nat) : Bool := l.contains s.mst

/-! Outputs and free values. -/

def State.emit (s : State) (o : Output) : State := { s with outbox := s.outbox ++ [o] }

/-- The result of a command row, to the port it came by. -/
def State.answer (s : State) (p : Port) (c : Code) : State := s.emit (.result p c)

/-- The next free value: the counter advances (the model's own field). -/
def State.draw (s : State) : Word × State := (Config.freeWord s.free, { s with free := s.free + 1 })

/-- A fresh free outcome of journal writes. -/
def State.drawOutcome (s : State) : NvOutcome × State := (Config.freeOutcome s.free, { s with free := s.free + 1 })

/-! Sub-states. -/

def State.modFab (s : State) (f : FabricSt → FabricSt) : State := { s with fab := f s.fab }
def State.modImg (s : State) (f : ImageSt → ImageSt) : State := { s with img := f s.img }
def State.modToc (s : State) (f : TocsinSt → TocsinSt) : State := { s with toc := f s.toc }
def State.modChain (s : State) (f : ChainSt → ChainSt) : State := { s with chain := f s.chain }
def State.modQ (s : State) (f : QueueSt → QueueSt) : State := { s with q := f s.q }
def State.modNet (s : State) (f : NetSt → NetSt) : State := { s with net := f s.net }
def State.modTime (s : State) (f : TimeSt → TimeSt) : State := { s with time := f s.time }
def State.modJrn (s : State) (f : JournalSt → JournalSt) : State := { s with jrn := f s.jrn }
def State.modRec (s : State) (f : RecSt → RecSt) : State := { s with recd := f s.recd }
def State.modPnl (s : State) (f : PanelSt → PanelSt) : State := { s with pnl := f s.pnl }
def State.modPwr (s : State) (f : PowerSt → PowerSt) : State := { s with pwr := f s.pwr }
def State.modTab (s : State) (f : TaborSt → TaborSt) : State := { s with tab := f s.tab }
def State.modMgmt (s : State) (f : MgmtSt → MgmtSt) : State := { s with mgmt := f s.mgmt }

/-! Events, and the change of module state. -/

/-- Ordering key of an event of a cell (R98). -/
def keyOfCell (id : Nat) : Nat := id * 2 + 1
/-- Ordering key of an event of a block (R98). -/
def keyOfBlock (region block : Nat) : Nat := cellId region block 0 * 2

/-- A notice at its place: those of one 2 ns step stand in the order of their keys (R98, R455). -/
def enqueueNotice (l : List Notice) (n : Notice) : List Notice :=
  match l with
  | [] => [n]
  | e :: rest => if e.cycle = n.cycle ∧ n.key < e.key then n :: e :: rest else e :: enqueueNotice rest n

/-- An event of R455 is detected; the legacy alarm queue is there in Tabor mode, outside POWERUP, SELFTEST and PFAIL. -/
def State.notice (s : State) (kind : AlarmKind) (source new key : Nat) : State :=
  if s.tabor && s.mstIn [stEnum, stLoad, stReady, stRun, stSafe, stService] then
    s.modTab fun t => { t with noticed := enqueueNotice t.noticed ⟨s.time.cycles, key, kind, source, new⟩ }
  else s

/-- A change of module state; MOD.STATE:PREV takes the state left (R475). -/
def State.goMst (s : State) (n : Nat) : State :=
  let was := s.mst
  let s := (s.wr modBase Reg.MOD_STATE_PREV was).wr modBase Reg.MOD_STATE_STATE n
  if was = n then s else s.notice .module 0 n 0

def State.cell (s : State) (id : Nat) : CellSt := Store.get CellSt.init s.fab.cells id
def State.modCell (s : State) (id : Nat) (f : CellSt → CellSt) : State :=
  s.modFab fun b => { b with cells := Store.set CellSt.init b.cells id (f (Store.get CellSt.init b.cells id)) }

def State.uc (s : State) (n : Nat) : UcSt := Store.get UcSt.init s.ucs n
def State.modUc (s : State) (n : Nat) (f : UcSt → UcSt) : State :=
  { s with ucs := Store.set UcSt.init s.ucs n (f (s.uc n)) }
def State.dp (s : State) (n : Nat) : DpSt := Store.get DpSt.init s.dps n
def State.modDp (s : State) (n : Nat) (f : DpSt → DpSt) : State :=
  { s with dps := Store.set DpSt.init s.dps n (f (s.dp n)) }
def State.ax (s : State) (n : Nat) : AxSt := Store.get AxSt.init s.axs n
def State.modAx (s : State) (n : Nat) (f : AxSt → AxSt) : State :=
  { s with axs := Store.set AxSt.init s.axs n (f (s.ax n)) }
def State.mb (s : State) (n : Nat) : MbxSt := Store.get MbxSt.init s.mbx n
def State.modMb (s : State) (n : Nat) (f : MbxSt → MbxSt) : State :=
  { s with mbx := Store.set MbxSt.init s.mbx n (f (s.mb n)) }
def State.fc (s : State) (n : Nat) : FcSt := Store.get FcSt.init s.fab.fcs n
def State.modFc (s : State) (n : Nat) (f : FcSt → FcSt) : State :=
  s.modFab fun b => { b with fcs := Store.set FcSt.init b.fcs n (f (Store.get FcSt.init b.fcs n)) }
def State.lp (s : State) (n : Nat) : LoopSt := Store.get LoopSt.init s.fab.loops n
def State.modLp (s : State) (n : Nat) (f : LoopSt → LoopSt) : State :=
  s.modFab fun b => { b with loops := Store.set LoopSt.init b.loops n (f (Store.get LoopSt.init b.loops n)) }
def State.ph (s : State) (n : Nat) : PhasorSt := Store.get PhasorSt.init s.fab.phasors n
def State.modPh (s : State) (n : Nat) (f : PhasorSt → PhasorSt) : State :=
  s.modFab fun b => { b with phasors := Store.set PhasorSt.init b.phasors n (f (Store.get PhasorSt.init b.phasors n)) }
def State.can (s : State) (c : Fin 2) : CanSt := if c = 0 then s.can0 else s.can1
def State.modCan (s : State) (c : Fin 2) (f : CanSt → CanSt) : State :=
  if c = 0 then { s with can0 := f s.can0 } else { s with can1 := f s.can1 }
def State.path (s : State) : Path → PathSt
  | .a => s.net.a
  | .b => s.net.b
def State.modPath (s : State) (p : Path) (f : PathSt → PathSt) : State :=
  match p with
  | .a => s.modNet fun n => { n with a := f n.a }
  | .b => s.modNet fun n => { n with b := f n.b }
def State.qp (s : State) (n : Nat) : QpSt := Store.get QpSt.init s.q.qps n
def State.modQp (s : State) (n : Nat) (f : QpSt → QpSt) : State :=
  s.modQ fun q => { q with qps := Store.set QpSt.init q.qps n (f (Store.get QpSt.init q.qps n)) }

/-- Element `i` of a list replaced. -/
def listSet {α : Type} (l : List α) (i : Nat) (x : α) : List α := l.set i x

/-! Time base reading (R333). -/

/-- The time base as nanoseconds (R66). -/
def State.nowNs (s : State) : Nat := s.time.sec.toNat * 1000000000 + s.time.ns

def State.addend (s : State) : Int := s.time.addend.toInt
def State.holdadd (s : State) : Int := s.time.holdadd.toInt

/-- The reading in units of 2^−32 ns. -/
def State.now32 (s : State) : Nat := s.nowNs * 2 ^ 32 + s.time.frac.toNat

/-- The time base takes a reading in units of 2^−32 ns; seconds are 48 bits. -/
def State.setNow32 (s : State) (t : Nat) : State :=
  s.modTime fun x =>
    { x with frac := BitVec.ofNat 32 t, ns := t / 2 ^ 32 % 1000000000, sec := BitVec.ofNat 48 (t / 2 ^ 32 / 1000000000) }

/-- SLEWMAX in units of ADDEND: 1 ppm of 2 ns is 8589.93 units (R333, R337). -/
def State.slewUnits (s : State) : Int := (s.rd tmBase Reg.TM_CFG_SLEWMAX * 8589934592 / 1000000 : Nat)

/-- ADDEND stays within ±1,000 ppm (R333). -/
def clampAddend (a : Int) : Int := max (-8589934) (min 8589934 a)

/-- ADDEND in use (R333, R350): while a set time remains to be removed, it slews at SLEWMAX. -/
def State.addendNow (s : State) : Int := clampAddend (s.addend + max (-s.slewUnits) (min s.slewUnits s.time.slew))

/-- What `n` cycles of slewing remove. -/
def State.slewed (s : State) (n : Nat) : Int :=
  let each := (clampAddend (s.addend + (if s.time.slew < 0 then -s.slewUnits else s.slewUnits)) - s.addend) * n
  if s.time.slew < 0 then max s.time.slew each else min s.time.slew each

/-- `n` CLK_FAB cycles pass (R333): 2 ns and the ADDEND in use each. -/
def State.advance (s : State) (n : Nat) : State :=
  let d := s.slewed n
  let t := (s.now32 : Int) + n * (2 ^ 33 + s.addend) + d
  (s.setNow32 t.toNat).modTime fun x => { x with cycles := x.cycles + n, slew := x.slew - d }

/-- The cycles, of `n` at most, until the reading is at least a time in units of 2^−32 ns, by halving. -/
def State.cyclesTo (s : State) (goal : Int) : Nat → Nat → Nat
  | 0, n => n
  | fuel + 1, n =>
    let m := n - 2 ^ fuel
    if 2 ^ fuel ≤ n ∧ goal ≤ (s.now32 : Int) + m * (2 ^ 33 + s.addend) + s.slewed m then s.cyclesTo goal fuel m else s.cyclesTo goal fuel n

end Sys2Proof.Machine
end

