-- ==== Sys2Proof/Machine/Image.lean ====
section
/-! DEFINITION. Records of the station image: fields and payload bytes (R27, R28), keys (R32), and the look-ups that cells make in the
effective image they run. -/

namespace Sys2Proof.Machine

/-! Record fields (R27). -/

def recType (r : Record) : Nat := r.toNat / 2 ^ 248
def recSub (r : Record) : Nat := r.toNat / 2 ^ 240 % 256
def recTarget (r : Record) : Nat := r.toNat / 2 ^ 224 % 65536
def recSeq (r : Record) : Nat := r.toNat / 2 ^ 208 % 65536

/-- Payload bytes, little-endian (R28). -/
def recByte (r : Record) (i : Nat) : Nat := r.toNat / 2 ^ (8 * i) % 256
def recU16 (r : Record) (i : Nat) : Nat := r.toNat / 2 ^ (8 * i) % 65536
def recU32 (r : Record) (i : Nat) : Nat := r.toNat / 2 ^ (8 * i) % 2 ^ 32
def recU64 (r : Record) (i : Nat) : Nat := r.toNat / 2 ^ (8 * i) % 2 ^ 64
def recWord (r : Record) (i : Nat) : Word := BitVec.ofNat 32 (recU32 r i)
/-- Payload bytes `i` to `j` − 1 are all 0 (reserved bytes). -/
def recZero (r : Record) (i j : Nat) : Bool := r.toNat / 2 ^ (8 * i) % 2 ^ (8 * (j - i)) == 0

/-- A record without its SEQ, the part that decides whether a cell is changed (R54). -/
def recContent (r : Record) : Nat × Nat × Nat × Nat := (recType r, recSub r, recTarget r, r.toNat % 2 ^ 208)

/-! Record types (the table after R30). -/

def T_HEADER : Nat := 0x01
def T_MODULE : Nat := 0x02
def T_CELL : Nat := 0x10
def T_BIND : Nat := 0x11
def T_SIGNAL : Nat := 0x12
def T_RATE : Nat := 0x13
def T_TRIP : Nat := 0x20
def T_TRIPIN : Nat := 0x21
def T_RECORDER : Nat := 0x30
def T_PANEL : Nat := 0x31
def T_TABLE : Nat := 0x40
def T_DELETE : Nat := 0x50
def T_PAD : Nat := 0x7F
def T_SIGHDR : Nat := 0xF0

/-- Key of a record (R32); PAD and DELETE have none. -/
def recKey (r : Record) : Option (Nat × Nat × Nat) :=
  if recType r = T_PAD ∨ recType r = T_DELETE then none
  else if recType r = T_SIGNAL then some (T_SIGNAL, 0, recU32 r 0)
  else if recType r = T_TRIPIN then some (T_TRIPIN, recSub r, recByte r 0)
  else some (recType r, recSub r, recTarget r)

/-! SIGNAL payload. -/
def sigId (r : Record) : Nat := recU32 r 0
def sigProducer (r : Record) : Nat := recU16 r 4
def sigPort (r : Record) : Nat := recByte r 6
def sigExport (r : Record) : Nat := recByte r 7
def sigSlot (r : Record) : Nat := recU16 r 8

/-! BIND payload. -/
def bindSig (r : Record) : Nat := recU32 r 0
def bindSubst (r : Record) : Word := recWord r 4
def bindBound (r : Record) : Nat := recU16 r 8
def bindFallback (r : Record) : Nat := recByte r 10

/-! RATE payload. -/
def rateExp (r : Record) : Nat := recByte r 0
def ratePhase (r : Record) : Nat := recU16 r 1

/-! Look-ups in an effective image. -/

/-- The record of a type, sub-record number and target. -/
def findRec (img : List Record) (ty sub target : Nat) : Option Record :=
  img.find? fun r => recType r == ty && recSub r == sub && recTarget r == target

/-- A payload that reads as zeros where the image has no such record. -/
def getRec (img : List Record) (ty sub target : Nat) : Record := (findRec img ty sub target).getD 0

/-- The CELL record with a sub-record number of a cell of the running configuration. -/
def State.cfg (s : State) (id sub : Nat) : Record := getRec s.img.active T_CELL sub id

/-- The BIND record of an input of a cell. -/
def State.bind (s : State) (id input : Nat) : Option Record := findRec s.img.active T_BIND input id

/-- A cell exists in an effective image (R34). -/
def imgHasCell (img : List Record) (id : Nat) : Bool :=
  (findRec img T_CELL 0 id).isSome || (kindOf id == some .tout && (findRec img T_TRIP 0 id).isSome)

/-- The signal entries of an effective image. -/
def signalsOf (img : List Record) : List Record := img.filter fun r => recType r == T_SIGNAL

/-- The signals a cell produces. -/
def State.produced (s : State) (id : Nat) : List Record := (signalsOf s.img.active).filter fun r => sigProducer r == id

/-- The cell IDs that an effective image instantiates, in record order. -/
def cellsOf (img : List Record) : List Nat :=
  (img.filter fun r => (recType r == T_CELL || recType r == T_TRIP) && recSub r == 0).map recTarget

/-- Rate divisor and phase of a cell; one without a RATE record has DIVEXP 0 and PHASE 0 (R34). -/
def rateOf (img : List Record) (id : Nat) : Nat × Nat :=
  match findRec img T_RATE 0 id with
  | some r => (2 ^ rateExp r, ratePhase r)
  | none => (1, 0)

/-- A cell is due in stroke `n` (R74). -/
def dueIn (img : List Record) (id n : Nat) : Bool := n % (rateOf img id).1 == (rateOf img id).2

/-- The MODULE record of an effective image. -/
def moduleOf (img : List Record) : Record := getRec img T_MODULE 0 0xFFFF

/-- T_S in units of 125 µs: that of the active image, and 8 until the first commit (R65). -/
def tsUnitsOf (img : List Record) : Nat := match img with
  | [] => 8
  | _ => recU16 (moduleOf img) 0

/-- The stroke period in nanoseconds (R65). -/
def State.tsNs (s : State) : Nat := s.rd tmBase Reg.STK_CFG_TS_UNITS * 125000

/-- The evaluation period Δ = D × T_S of a cell, in seconds (R82). -/
def State.delta (s : State) (id : Nat) : Rat := mkRat ((rateOf s.img.active id).1 * s.tsNs : Nat) 1000000000

/-- The stroke number of the last boundary (R107). -/
def State.strokeNo (s : State) : Nat :=
  (s.rdw tmBase Reg.STK_NUM_LO).toNat + (s.rdw tmBase Reg.STK_NUM_HI).toNat * 2 ^ 32

/-- The module runs or is in SERVICE, so that START cells may enter RUN (R91). -/
def State.exists_ (s : State) (id : Nat) : Bool := s.flag (cellBase id) Reg.CELL_STATE_EXISTS

end Sys2Proof.Machine
end

