-- ==== Sys2Proof/Machine/Operands.lean ====
section
/-! DEFINITION. How a cell reads an input: the resolution of the bound signal word under the BIND record of the input (R78), and the
reading and holding of signal words (R71, R77). -/

namespace Sys2Proof.Machine

/-- An input as the cell sees it. -/
structure Input where
  val : Word
  qual : Qual
  /-- flags that the input brings into the cell: none from a fallback (R80) -/
  flags : BitVec 12
  /-- the word was taken as it stands (R78 step 3) -/
  live : Bool
  /-- quality of the bound signal word itself, before resolution -/
  raw : Qual
  /-- age of the bound signal word -/
  age : Nat
  deriving DecidableEq, Repr

/-- R78: the three steps and the fallbacks. `last` is the last value that resolved in step 3 since the cell entered START. -/
def resolveWord (b : Record) (w : SigWord) (last : Option Word) (safe : Word) : Input :=
  if qualBad w.qual || (bindBound b != 0 && bindBound b < w.age) then
    match bindFallback b, last with
    | 0, some v => ⟨v, Q_HELD, 0, false, w.qual, w.age⟩
    | 0, none => ⟨bindSubst b, Q_SUBSTITUTED, 0, false, w.qual, w.age⟩
    | 1, _ => ⟨bindSubst b, Q_SUBSTITUTED, 0, false, w.qual, w.age⟩
    | _, _ => ⟨safe, Q_SUBSTITUTED, 0, false, w.qual, w.age⟩
  else ⟨w.val, w.qual, w.flags, true, w.qual, w.age⟩

/-- The published word of a signal. -/
def State.sig (s : State) (sigid : Nat) : SigWord := (Store.get none s.fab.words sigid).getD SigWord.fresh

/-- A word as it is published: no producer publishes a NaN or an infinite value (R77). -/
def SigWord.published (w : SigWord) : SigWord := { w with val := f32Published w.val }

def State.setSig (s : State) (sigid : Nat) (w : SigWord) : State :=
  s.modFab fun b => { b with words := Store.set none b.words sigid (some w.published) }

/-- Input `n` of a cell, `none` where no BIND record binds it. -/
def State.input (s : State) (id n : Nat) (safe : Word) : Option Input :=
  (s.bind id n).map fun b => resolveWord b (s.sig (bindSig b)) (Store.get none (s.cell id).lastIn n) safe

/-- The value that resolved in step 3 is kept for FALLBACK 0. -/
def State.noteInput (s : State) (id n : Nat) (i : Input) : State :=
  s.when i.live fun s => s.modCell id fun c => { c with lastIn := Store.set none c.lastIn n (some i.val) }

/-- The safe value of a cell that FALLBACK 2 takes, as the chapter of the kind lays it down (R81, R109, R209, R234);
0 for the kinds whose chapter names none: an axis takes the safe stop instead (R265). -/
def State.safeValue (s : State) (id : Nat) : Word :=
  match kindOf id with
  | some .fc => recWord (s.cfg id 0) 20
  | some .lp => recWord (s.cfg id 0) 14
  | some .uc => recWord (s.cfg id 0) 16
  | some .dp => f32OfBool (recByte (s.cfg id 0) 3 == 1)
  | _ => 0

/-- A result held for the next boundary (R71): cell ID × 16 + port. -/
def State.hold (s : State) (id port : Nat) (w : SigWord) : State :=
  s.modFab fun b => { b with back := Store.set none b.back (id * 16 + port) (some w) }

def State.held (s : State) (id port : Nat) : Option SigWord := Store.get none s.fab.back (id * 16 + port)

/-- The results of a cell are discarded (R75, R94). -/
def State.dropHeld (s : State) (id : Nat) : State :=
  s.modFab fun b => { b with back := b.back.filter fun e => e.1 / 16 != id }

end Sys2Proof.Machine
end

