-- ==== Sys2Proof/Machine/Cells.lean ====
section
/-! DEFINITION. Cell and block states: the transitions of R91, sources (R87), latching (R92) and the escalation of errors (R94). -/

namespace Sys2Proof.Machine

/-! Cell states (R104). -/
def csOff : Nat := 0
def csStart : Nat := 1
def csRun : Nat := 2
def csTest : Nat := 3
def csRecover : Nat := 4
def csSafe : Nat := 5
def csFault : Nat := 6

def State.cst (s : State) (id : Nat) : Nat := s.rd (cellBase id) Reg.CELL_STATE_STATE
def State.src (s : State) (id : Nat) : Nat := s.rd (cellBase id) Reg.CELL_STATE_SOURCE

/-- The cells that the running configuration instantiates. -/
def State.cells (s : State) : List Nat := cellsOf s.img.active

/-- A cell with a physical output: a channel in an output function, a point that drives, an axis (R93, R173). -/
def State.physical (s : State) (id : Nat) : Bool :=
  match kindOf id with
  | some .uc => 5 ≤ recByte (s.cfg id 0) 0
  | some .dp => 3 ≤ recByte (s.cfg id 0) 0
  | some .ax => true
  | _ => false

/-- An odd point that follows its even partner as one output (R231): KIND 5. -/
def State.follower (s : State) (id : Nat) : Bool := kindOf id == some .dp && recByte (s.cfg id 0) 0 == 5

/-- The cells with a physical output. -/
def State.physicalCells (s : State) : List Nat := s.cells.filter s.physical

/-- What a loop keeps of a change of its cell state: the output that TEST holds, taken on entry (R129), and the return from FAULT (R130). -/
def State.loopCst (s : State) (id was n : Nat) : State :=
  if kindOf id == some .lp && was != n then
    s.modLp (cellNum id) fun st =>
      if n = csTest then { st with held := some st.lastOut, recov := false }
      else if n = csFault then { st with held := none, balance := none, recov := false }
      else if was = csTest then { st with held := none, balance := st.held }
      else if was = csFault ∧ n = csRecover then { st with recov := true }
      else st
  else s

/-- The sync machine of a group stands in OFF from the moment the group or the module leaves RUN, but in CLOSING (R157). -/
def State.syncOff (s : State) (g : Nat) : State :=
  let b := cellBase (phId g)
  if s.rd b Reg.PH_STATUS_SYNC = 4 then s else (s.wr b Reg.PH_STATUS_SYNC 0).modPh g fun p => { p with dwell := 0 }

/-- A permit pulse ends (R157, R158): CLOSES counts, and the point that it drives loses it. `next` is the state of the sync machine. -/
def State.endPermit (s : State) (g next : Nat) : State :=
  let b := cellBase (phId g)
  let s := match (s.ph g).closeDp with
    | some dp => s.modDp dp fun d => { d with permit := false }
    | none => s
  (((s.setFlag b Reg.PH_STATUS_PERMIT false).bump b Reg.PH_CNT_CLOSES).wr b Reg.PH_STATUS_SYNC next).modPh g fun p => { p with edge := none, dwell := 0 }

/-- Entry into START of a group (R153, R162): the samples go with the configuration that named the channels. A permit pulse runs on. -/
def State.startPh (s : State) (id : Nat) (keep : Bool) : State :=
  let g := cellNum id
  let b := cellBase id
  let s := s.wrw b Reg.PH_TCB (recWord (s.cfg id 3) 20)
  let s := (s.setFlag b Reg.PH_STATUS_INVALID true).wr b Reg.PH_STATUS_EVT 0
  s.modPh g fun p => { PhasorSt.init with
    edge := p.edge, permitSeen := p.permitSeen, closeDp := p.closeDp, samples := if keep then p.samples else [] }

/-- A commit has changed the group, and the pulse that it let run has ended: the group is to enter START (R158). -/
def State.phOwesStart (s : State) (id : Nat) : Bool :=
  kindOf id == some .ph && (s.ph (cellNum id)).old.isSome && s.rd (cellBase id) Reg.PH_STATUS_SYNC != 4

/-- What a change of its cell state does to a phasor group: out of RUN its events are invalid (R161) and its sync machine is OFF (R157); FAULT ends a
raised permit, and no scheduled edge is withdrawn (R158). -/
def State.phCst (s : State) (id was n : Nat) : State :=
  if kindOf id == some .ph && was != n then
    let g := cellNum id
    let s := s.setFlag (cellBase id) Reg.PH_STATUS_INVALID (n != csRun || (s.ph g).stale)
    let s := s.when (n = csFault && s.flag (cellBase id) Reg.PH_STATUS_PERMIT) fun s => s.endPermit g 0
    let s := if n = csRun then s else s.syncOff g
    s.when (n = csStart && s.phOwesStart id) fun s => s.startPh id false
  else s

/-- Comparator 0 (low) or 1 (high) of a channel takes a state (R215); a change on UC0–UC15 goes to the alarm queue (R455). -/
def State.setComparator (s : State) (n c : Nat) (v : Bool) : State :=
  let f := if c = 0 then Reg.UC_STATUS_CMPLO else Reg.UC_STATUS_CMPHI
  let s' := s.setFlag (cellBase (ucId n)) f v
  if n < 16 && s.flag (cellBase (ucId n)) f != v then s'.notice .limit (2 * n + c) (if v then 1 else 0) (keyOfCell (ucId n)) else s'

/-- The comparators of a channel are inactive in OFF (R215). -/
def State.ucCst (s : State) (id n : Nat) : State :=
  if kindOf id == some .uc && n == csOff then
    ((s.setComparator (cellNum id) 0 false).setComparator (cellNum id) 1 false).modUc (cellNum id) fun u => { u with loRun := 0, hiRun := 0 }
  else s

/-- The wiring faults of a point clear as it comes back (R239, R242). -/
def State.dpCst (s : State) (id n : Nat) : State :=
  if kindOf id == some .dp && [csOff, csStart, csRecover].contains n then
    let b := cellBase id
    ((s.setFlag b Reg.DP_STATUS_SHORTFS false).setFlag b Reg.DP_STATUS_PARALLEL false).setFlag b Reg.DP_STATUS_OVERLOAD false
  else s

/-- A cell takes a state. START forgets what R78, R83 and R94 keep from before it; RECOVER counts its evaluations anew (R91);
leaving FAULT clears ISOL. A group whose FAULT ended the pulse that a commit had let run enters START in place of RECOVER (DEDUCED, log entry 139). -/
def State.setCst (s : State) (id n : Nat) : State :=
  let was := s.cst id
  let n := if n = csRecover ∧ s.phOwesStart id then csStart else n
  let s := (s.wr (cellBase id) Reg.CELL_STATE_STATE n).loopCst id was n |>.phCst id was n |>.ucCst id n |>.dpCst id n
  let s := s.when (was == csFault && n != csFault) fun s => s.setFlag (cellBase id) Reg.CELL_STATE_ISOL false
  if n = csStart then s.modCell id fun c => { c with first := true, lastIn := [], errHist := [], good := 0 }
  else if n = csRecover then s.modCell id fun c => { c with good := 0 }
  else s

/-- A loop whose mode is MAN is driven by its manual source (R87, R131). -/
def State.manual (s : State) (id : Nat) : Bool := kindOf id == some .lp && s.rd (cellBase id) Reg.LP_MODE_ACT == 0

/-- The source that drives a cell when no safe command does: service force or simulation before the cell's manual source before its own (R87). -/
def State.ownSource (s : State) (id : Nat) : Nat := if (s.cell id).force.1 != 0 then 2 else if s.manual id then 1 else 0

/-- A safe command, or the hardwired line, commands the cell. -/
def State.commanded (s : State) (id : Nat) : Bool := (s.cell id).cmd != 0 || (s.cell id).line

/-- R91: a safe command takes a cell to SAFE, and one in FAULT stays there; SOURCE 3 (R87). A trip output never enters SAFE (R176). -/
def State.takeSafe (s : State) (id : Nat) : State :=
  if kindOf id == some .tout then s
  else
    let s := s.wr (cellBase id) Reg.CELL_STATE_SOURCE 3
    if s.cst id == csFault || s.cst id == csSafe then s else s.setCst id csSafe

/-- At a boundary a released safe command hands over to the next source (R87), and the cell passes through RECOVER (R91, R175). -/
def State.releaseSafe (s : State) (id : Nat) : State :=
  if s.src id == 3 && !s.commanded id then
    let s := s.wr (cellBase id) Reg.CELL_STATE_SOURCE (s.ownSource id)
    if s.cst id == csSafe then s.setCst id csRecover else s
  else s

/-- A cell goes to RECOVER, and straight to SAFE while a safe command stays on it (R91). -/
def State.toRecover (s : State) (id : Nat) : State :=
  let s := s.setCst id csRecover
  if s.commanded id then s.takeSafe id else s

/-- A cell enters FAULT (R91, R92): ISOLATIONS counts, the fourth entry within 65,536 strokes latches, and the work of the stroke is lost. -/
def State.enterFault (s : State) (id : Nat) (cause : Bool) : State :=
  let now := s.fab.boundaries
  let b := cellBase id
  let entries := now :: (s.cell id).faultAt.filter fun t => now < t + 65536
  let s := s.setCst id csFault
  let s := (s.setFlag b Reg.CELL_STATE_ISOL true).bump b Reg.CELL_ERR_ISOLATIONS
  let s := s.modCell id fun c => { c with faultAt := entries, cause := cause, absent := 0 }
  (s.when (4 ≤ entries.length) fun s => s.setFlag b Reg.CELL_STATE_LATCHED true).dropHeld id

/-- A cell in FAULT sees its cause again. -/
def State.againFault (s : State) (id : Nat) (cause : Bool) : State := s.modCell id fun c => { c with cause := c.cause || cause, absent := 0 }

/-- R91, R94: the block isolates a cell. -/
def State.isolateCell (s : State) (id : Nat) (cause : Bool) : State :=
  if [csStart, csRun, csTest, csRecover].contains (s.cst id) then s.enterFault id cause
  else if s.cst id == csFault then s.againFault id cause
  else s

/-- An evaluation of a cell ends, with an error or without (R84, R94): the eighth error within 64 evaluations isolates the cell. -/
def State.evalEnd (s : State) (id : Nat) (err : Bool) : State :=
  let hist := (err :: (s.cell id).errHist).take 64
  let s := s.modCell id fun c => { c with errHist := hist, good := if err then 0 else c.good + 1 }
  if err then
    let s := s.bump (cellBase id) Reg.CELL_ERR_ERRORS
    if 8 ≤ hist.count true then (s.modCell id fun c => { c with errHist := [] }).isolateCell id false else s
  else s

/-- The isolating cause of a cell is seen or gone; an absent cause is counted in strokes (R91). -/
def State.setCause (s : State) (id : Nat) (present : Bool) : State :=
  s.modCell id fun c => { c with cause := present, absent := 0 }

/-! Blocks (R94, R105). -/

/-- The key of a block in the hidden block store. -/
def blockKey (region block : Nat) : Nat := region * 32 + block

def State.blk (s : State) (r b : Nat) : BlockSt := Store.get BlockSt.init s.fab.blocks (blockKey r b)
def State.modBlk (s : State) (r b : Nat) (f : BlockSt → BlockSt) : State :=
  s.modFab fun x => { x with blocks := Store.set BlockSt.init x.blocks (blockKey r b) (f (Store.get BlockSt.init x.blocks (blockKey r b))) }

/-- BLK.STATE codes. -/
def bkRun : Nat := 0
def bkIsolated : Nat := 1
def bkRecover : Nat := 2

def State.blkSt (s : State) (r b : Nat) : Nat := s.rd (blkBase r b) Reg.BLK_STATE_STATE
def State.isolated (s : State) (r b : Nat) : Bool := s.blkSt r b == bkIsolated

/-- The Control and Link regions have power: they lose it as the last step of the power-fail sequence starts, and with the sequence's end (R437, R441). -/
def State.powered (s : State) : Bool := s.mst != stPfail || !(5 ≤ s.pwr.steps || s.pwr.begun == 5 || s.pwr.ended || s.pwr.unpowered)

/-- The Field region has power: the first step of the power-fail sequence takes it (R437). -/
def State.fieldUp (s : State) : Bool := s.mst != stPfail

/-- A channel whose last start-up check failed: its isolating cause stays present (R432). -/
def State.startFailed (s : State) (id : Nat) : Bool := kindOf id == some .uc && getField (s.rdw pwrBase Reg.PWR_CNVFAIL) (cellNum id) 1 == 1

/-- A core pair carries its duties: it has power, and is neither held nor isolated (R190, R193, R437, R504). -/
def State.dutyUp (s : State) (pair : Nat) : Bool := s.powered && !s.flag (cpBase pair) Reg.CP_STATUS_HELD && !s.isolated 2 (25 + pair)

/-- The existing cells of a block. -/
def State.cellsIn (s : State) (r b : Nat) : List Nat := s.cells.filter fun id => idRegion id == r && idBlock id == b

/-- The region isolates a block: all its cells enter FAULT, and the fourth isolation within 65,536 strokes latches it (R94). -/
def State.isolateBlock (s : State) (r b : Nat) (cause : Bool) : State :=
  if s.isolated r b then s.modBlk r b fun x => { x with cause := x.cause || cause, absent := 0 }
  else
    let now := s.fab.boundaries
    let entries := now :: (s.blk r b).isoAt.filter fun t => now < t + 65536
    let s := s.wr (blkBase r b) Reg.BLK_STATE_STATE bkIsolated
    let s := s.when (4 ≤ entries.length) fun s => s.setFlag (blkBase r b) Reg.BLK_STATE_LATCHED true
    let s := s.modBlk r b fun x => { x with isoAt := entries, cause := cause, absent := 0, errAt := [] }
    (s.cellsIn r b).foldl (fun s id => if s.cst id == csFault then s.againFault id cause else s.enterFault id cause) s

/-- R94: a block error counts, discards the held work of the cells it affects, and the fourth within 64 consecutive strokes isolates the block.
Answers whether it does. -/
def State.countBlockError (s : State) (r b : Nat) : Bool × State :=
  let now := s.fab.boundaries
  let entries := now :: (s.blk r b).errAt.filter fun t => now < t + 64
  let s := s.bump (blkBase r b) Reg.BLK_ERR_ERRORS
  (4 ≤ entries.length, s.modBlk r b fun x => { x with errAt := entries })

/-- Cells in FAULT, as BLK.STATE:ISOCELLS reports them (R105). -/
def State.faultCells (s : State) (r b : Nat) : Nat := ((s.cellsIn r b).filter fun id => s.cst id == csFault).length

/-- Forces and simulations of a cell are removed (R22, R54, R55, R88). -/
def State.unforce (s : State) (id : Nat) : State :=
  let s := s.modCell id fun c => { c with force := (0, 0, 0) }
  let s := s.wr (cellBase id) Reg.CELL_FORCE_MODE 0
  s.when (s.src id == 2) fun s => s.wr (cellBase id) Reg.CELL_STATE_SOURCE (s.ownSource id)

/-- The module leaves SERVICE (R22, R88, R91): forces and simulations, staged ones too, are removed and TEST cells go to RECOVER. -/
def State.leaveService (s : State) : State :=
  (s.cells.foldl (fun s id =>
    let s := if (s.cell id).force.1 = 0 then s else s.unforce id
    if s.cst id == csTest then s.toRecover id else s) s).modFab fun f => { f with forces := [] }

end Sys2Proof.Machine
end

