-- ==== Sys2Proof/Machine/Occur.lean ====
section
/-! DEFINITION. Occurrences offered to the event recorder's queue (R396, R397) and the ordering keys of R98. -/

namespace Sys2Proof.Machine

/-- The time base as the block of an ordering key reads it: its region's follower counter (R334, R335). -/
def State.regionNow (s : State) (key : Nat) : Nat := ((s.nowNs : Int) + s.time.followers.getD (idRegion (key / 2)) 0).toNat

/-- An occurrence enters the REC queue with the stroke number of the running stroke and the time its block reads; a full queue drops it (R396, R397), and in OFF it is
not taken but counted (R404). -/
def State.occur (s : State) (src index : Nat) (mag : Rat) (key sig : Nat) : State :=
  if 4096 ≤ s.recd.queue.length || s.rd recBase Reg.REC_STATUS_STATE == 0 then s.bump recBase Reg.REC_MISS_QLOST
  else
    let t := s.regionNow key
    let o : Occurrence :=
      { src := src, index := index, mag := toF32c mag, stroke := BitVec.ofNat 64 (s.strokeNo + 1),
        s := BitVec.ofNat 32 (t / 1000000000), ns := BitVec.ofNat 32 (t % 1000000000), key := key, seq := s.recd.seq, sig := sig }
    s.modRec fun r => { r with queue := r.queue ++ [o], seq := r.seq + 1 }

end Sys2Proof.Machine
end

