-- ==== Sys2Proof/Machine/Blocks.lean ====
section
/-! DEFINITION. The blocks of the journal (14 R384, R386–R392): the partitions, the physical blocks that stand behind their logical blocks, wear,
retirement, and transactions. -/

namespace Sys2Proof.Machine

/-! The banks of the image store, and the recorder partition: the two that lend blocks. -/

/-- A bank's working copy, and its VALID and SAVED bits (R63). -/
def State.bank (s : State) (b : Bool) : Bank := if b then s.img.b1 else s.img.b0
def State.modBank (s : State) (b : Bool) (f : Bank → Bank) : State :=
  s.modImg fun i => if b then { i with b1 := f i.b1 } else { i with b0 := f i.b0 }
def bankValid (b : Bool) : Field := if b then Reg.IMG_STATUS_B1VALID else Reg.IMG_STATUS_B0VALID
def bankSaved (b : Bool) : Field := if b then Reg.IMG_STATUS_B1SAVED else Reg.IMG_STATUS_B0SAVED
def bankDelta (b : Bool) : Field := if b then Reg.IMG_STATUS_B1DELTA else Reg.IMG_STATUS_B0DELTA
def State.bootBank (s : State) : Bool := s.flag nvjBase Reg.IMG_STATUS_BOOT
def State.activeBank (s : State) : Bool := s.flag nvjBase Reg.IMG_STATUS_ACTIVE

/-- REC.STATUS:STATE (R410). -/
def rsOff : Nat := 0
def rsRecording : Nat := 1
def rsFrozen : Nat := 2
def rsFull : Nat := 3
def rsStopped : Nat := 4

def State.recState (s : State) : Nat := s.rd recBase Reg.REC_STATUS_STATE
def State.setRec_ (s : State) (n : Nat) : State := s.wr recBase Reg.REC_STATUS_STATE n

def State.recblks (s : State) : Nat := s.rd nvjBase Reg.NVJ_PART_RECBLKS

/-- Log capacity in records: 32 to a block from block 1,360 on (R401, R406). -/
def State.logCap (s : State) : Nat := (s.recblks - 64) * 32
def State.logFull (s : State) : Bool := s.rd recBase Reg.REC_LOGCAP_CAP < s.recd.log.length + 1024

/-- REC.LOGUSED and REC.LOGCAP follow the log and the partition. -/
def State.showLog (s : State) : State :=
  (s.wr recBase Reg.REC_LOGUSED_USED s.recd.log.length).wr recBase Reg.REC_LOGCAP_CAP s.logCap

/-- R406: the highest-numbered recorder block, logical block `b`, has been taken by the journal. -/
def State.recShrink (s : State) (b : Nat) : State :=
  let s := s.when (1328 ≤ b && b < 1360) fun s => s.setFlag recBase Reg.REC_STATUS_NOFLUSH true
  let s := s.bumpBy recBase Reg.REC_MISS2_LOGLOST (s.recd.log.length - s.logCap)
  let s := (s.modRec fun r => { r with log := r.log.take s.logCap }).showLog
  if s.recblks < 32 && [rsRecording, rsFrozen, rsFull].contains s.recState then s.setRec_ rsStopped else s

/-! Partitions (R384, R401). -/

/-- Granules of a block; of the first copies of the factory and settings partitions; of the first copy of the control blocks. -/
def blockGranules : Nat := 128
def copyGranules : Nat := 32 * blockGranules
def controlGranules : Nat := 8 * blockGranules

/-- Where a word of a duplicated partition stands: in its first copy and in its second (R385). -/
def factoryHome (place : Nat) : List Nat := [place % copyGranules, copyGranules + place % copyGranules]
def settingsHome (place : Nat) : List Nat := (factoryHome place).map (64 * blockGranules + ·)
def controlHome (place : Nat) : List Nat :=
  [256 * blockGranules + place % controlGranules, 264 * blockGranules + place % controlGranules]

/-- Granules of record `i` of the recorder partition from a block on: four of a block's 128 (R401). -/
def recordHome (block i : Nat) : List Nat := (List.range 4).map fun k => block * blockGranules + 4 * i + k

/-- A word reads uncorrectable in both copies (R385). -/
def State.copiesBad (s : State) (home : List Nat) : Bool := home.all s.jrn.bad.contains

/-! Physical blocks and wear (R384, R389). -/

/-- The physical block behind a logical block: the header granule of that block holds the logical number and the write count. -/
def State.physOf (s : State) (b : Nat) : Nat := (Store.get none s.jrn.phys b).getD b
def State.setPhys (s : State) (b p : Nat) : State :=
  s.modJrn fun j => { j with phys := Store.set none j.phys b (if p = b then none else some p) }

/-- Physical blocks that stand behind logical blocks. -/
def State.inService (s : State) : Nat := 256 + s.recblks + s.rd nvjBase Reg.NVJ_PART_IMGBLKS

/-- NVJ.WEARMAX and NVJ.WEARAVG. -/
def State.showWear (s : State) : State :=
  let counts := s.jrn.wear.map Prod.snd
  (s.wrw nvjBase Reg.NVJ_WEARMAX (BitVec.ofNat 32 (counts.foldl max 0))).wrw nvjBase Reg.NVJ_WEARAVG
    (BitVec.ofNat 32 (counts.foldl (· + ·) 0 / s.inService))

/-- The write count of the physical block behind a logical block. -/
def State.wearOf (s : State) (b : Nat) : Nat := Store.get 0 s.jrn.wear b
def State.setWear (s : State) (b n : Nat) : State := s.modJrn fun j => { j with wear := Store.set 0 j.wear b n }

/-- A write operation that writes granules of each of the blocks; a read-only block takes none (R391). -/
def State.wearBlocks (s : State) (blocks : List Nat) : State :=
  ((blocks.filter fun b => !s.jrn.readOnly.contains b).foldl (fun s b => s.setWear b (s.wearOf b + 1)) s).showWear

/-- A write to a block that is read-only fails (R391). -/
def State.writable (s : State) (blocks : List Nat) : Bool := !s.jrn.readOnly.any blocks.contains

/-! Retirement (R389, R391, R392). -/

/-- Writes after which a block is worn out, and its being so (R389). -/
def wornWrites : Nat := 100000000
def State.wornOut (s : State) (b : Nat) : Bool := decide (wornWrites ≤ s.wearOf b) || s.jrn.worn.contains b

/-- The donor block of step 3: the highest-numbered logical block of the bank that is not the boot bank (R391). -/
def State.imageDonor (s : State) : Option Nat :=
  let taken := 1040 - s.rd nvjBase Reg.NVJ_PART_IMGBLKS
  if 512 ≤ taken then none else some ((if s.bootBank then 783 else 1295) - taken)

/-- A logical block that stands in service. -/
def State.standing (s : State) (b : Nat) : Bool :=
  b < 272 || (272 ≤ b && b < 1296 && match s.imageDonor with
    | some d => if s.bootBank then 784 ≤ b || b ≤ d else b < 784 || b ≤ d
    | none => if s.bootBank then 784 ≤ b else b < 784) || (1296 ≤ b && b < 1296 + s.recblks)

/-- The block behind `b` leaves the partition that held it, its contents discarded. -/
def State.dropBlock (s : State) (b : Nat) : State :=
  s.modJrn fun j => { j with
    phys := Store.erase j.phys b, wear := Store.erase j.wear b, readOnly := j.readOnly.filter (· != b), worn := j.worn.filter (· != b),
    bad := j.bad.filter fun g => g / blockGranules != b }

/-- A retirement counts and is offered to the recorder (R391, R396 SRC 11). -/
def State.countRetire (s : State) : State :=
  let s := (s.bump nvjBase Reg.NVJ_WCNT_RETIRES).bump nvjBase Reg.NVJ_SPARES_RETIRED
  s.occur 11 0 (s.rd nvjBase Reg.NVJ_SPARES_SPARES) (keyOfBlock 4 1) 0

/-- R392: the first donation of the image store. A boot-bank update still to come, which would name the donor, is not made. -/
def State.degrade (s : State) : State :=
  if s.flag nvjBase Reg.NVJ_STATUS_DEGRADED then s
  else
    let donor := !s.bootBank
    let s := (s.setFlag nvjBase Reg.NVJ_STATUS_DEGRADED true).setFlag modBase Reg.MOD_HEALTH_NV_DEGRADED true
    let s := (s.setFlag nvjBase (bankSaved donor) false).modBank donor fun b => { b with savedOk := false, savedBase := [], savedMain := [], savedSlots := 0 }
    (s.modImg fun i => { i with bootUpdate := false }).occur 11 2 (s.rd nvjBase Reg.NVJ_SPARES_SPARES) (keyOfBlock 4 1) 0

/-- The contents of the worn block move to the physical block `p` with write count `n`; the copy is one write of it. -/
def State.replaceBlock (s : State) (b p n : Nat) : State :=
  (((s.setPhys b p).setWear b (n + 1)).modJrn fun j => { j with worn := j.worn.filter (· != b) }).countRetire.showWear

/-- A donor, which has left its partition in state `s`, replaces the worn block; one that is itself the worn block leaves without a copy. -/
def State.donate (s : State) (b donor p n : Nat) : State := if donor = b then s.countRetire.showWear else s.replaceBlock b p n

/-- A worn-out block is retired (R391). The spares are taken in order of physical number (DESIGN CHOICE, log entry 142). -/
def State.retire (s : State) (b : Nat) : State :=
  let spares := s.rd nvjBase Reg.NVJ_SPARES_SPARES
  if 0 < spares then
    let s := s.wr nvjBase Reg.NVJ_SPARES_SPARES (spares - 1)
    let s := s.replaceBlock b (16896 - spares) 0
    if spares = 32 then
      ((s.setFlag nvjBase Reg.NVJ_STATUS_SPARELOW true).setFlag modBase Reg.MOD_HEALTH_SPARELOW true).occur 11 1 (spares - 1 : Nat) (keyOfBlock 4 1) 0
    else s
  else if 0 < s.recblks then
    let donor := 1295 + s.recblks
    (((s.dropBlock donor).wr nvjBase Reg.NVJ_PART_RECBLKS (s.recblks - 1)).recShrink donor).donate b donor (s.physOf donor) (s.wearOf donor)
  else match s.imageDonor with
    | some donor =>
      let t := (s.dropBlock donor).wr nvjBase Reg.NVJ_PART_IMGBLKS (s.rd nvjBase Reg.NVJ_PART_IMGBLKS - 1)
      t.degrade.donate b donor (s.physOf donor) (s.wearOf donor)
    | none => s.modJrn fun j => { j with readOnly := if j.readOnly.contains b then j.readOnly else b :: j.readOnly }

/-! Writes and transactions (R386–R388). -/

/-- A write operation on blocks (R388, R389): the verifications that failed count, a block in which a write failed twice is retired and the write is made on
its replacement. Answers whether it was made: not to a read-only block, nor where no replacement is left (R391). In PFAIL no block is retired. -/
def State.nvWrite (s : State) (blocks : List Nat) (o : NvOutcome) : Bool × State :=
  if !s.writable blocks then (false, s)
  else
    let worn := o.worn.eraseDups.filter blocks.contains
    let s := (s.bumpBy nvjBase Reg.NVJ_WCNT_VFAIL (max o.fails (2 * worn.length))).wearBlocks blocks
    let s := s.modJrn fun j => { j with worn := worn.filter (fun b => !j.worn.contains b) ++ j.worn }
    if worn.isEmpty then (true, s)
    else if s.mst = stPfail then (false, s)
    else
      let s := worn.foldl State.retire s
      if worn.all fun b => s.standing b && !s.jrn.readOnly.contains b then (true, s.wearBlocks worn) else (false, s)

/-- NVJ.PEND follows the granules that wait. -/
def State.setPend (s : State) (l : List Nat) : State := (s.modJrn fun j => { j with pend := l }).wr nvjBase Reg.NVJ_PEND_PEND l.length

/-- Blocks of granules. -/
def blocksOf (granules : List Nat) : List Nat := (granules.map (· / blockGranules)).eraseDups

/-- The oldest `n` committed granules reach their home blocks (R386). One whose block takes no write, and in PFAIL one that fails twice, stays committed
(R388, R391). -/
def State.applyPend (s : State) (n : Nat) (o : NvOutcome) : State :=
  let homes := s.jrn.pend.take n
  let rest := s.jrn.pend.drop n
  let s := (s.nvWrite ((blocksOf homes).filter fun b => !s.jrn.readOnly.contains b) o).2
  let stays (g : Nat) : Bool := s.jrn.readOnly.contains (g / blockGranules) || (s.mst == stPfail && o.worn.contains (g / blockGranules))
  (s.modJrn fun j => { j with bad := j.bad.filter fun g => !(homes.contains g) || stays g }).setPend (homes.filter stays ++ rest)

/-- Blocks of the log partition that the next `n` granules of the log fall in; the log runs round its 128 blocks (DESIGN CHOICE, log entry 142). -/
def State.logBlocks (s : State) (n : Nat) : List Nat :=
  let first := s.jrn.logAt / blockGranules
  (List.range ((s.jrn.logAt + n - 1) / blockGranules + 1 - first)).map fun i => 128 + (first + i) % 128

/-- The journal takes transactions: not in POWERUP or PFAIL (R387), and it is a duty of CP3 (R190, R504). -/
def State.journalUp (s : State) : Bool := s.mst != stPfail && s.mst != stPowerup && s.dutyUp 3

/-- A transaction that changes the granules `homes` (R386, R387): it waits until enough older ones are applied, its granules and the commit record are written
to the log, and its result is the answer. It changes nothing with E_NV_FAIL, as it does to a block that is read-only (R391). -/
def State.commitTxn (s : State) (homes : List Nat) (o : NvOutcome) : Code × State :=
  if !s.journalUp || 8192 < homes.length || !s.writable (blocksOf homes) then (E_NV_FAIL, s)
  else
    let s := s.when (8192 < s.jrn.pend.length + homes.length) fun s => s.applyPend (s.jrn.pend.length + homes.length - 8192) .clean
    match s.nvWrite (s.logBlocks (homes.length + 1)) o with
    | (false, s) => (E_NV_FAIL, s)
    | (true, s) =>
      (E_OK, (s.modJrn fun j => { j with logAt := (j.logAt + homes.length + 1) % (128 * blockGranules) }).setPend (s.jrn.pend ++ homes))

/-- A decision whose effect is kept in the journal: it is refused as it stands, or takes effect once its transaction is committed (R386). -/
def journaled (homes : List Nat) (o : NvOutcome) (f : State → Code × State) (s : State) : Code × State :=
  if (f s).1 ≠ E_OK then f s
  else
    let r := s.commitTxn homes o
    if r.1 = E_OK then f r.2 else r

end Sys2Proof.Machine
end

