-- ==== Sys2Proof/Machine/Settle.lean ====
section
/-! DEFINITION. The outputs and register fields that follow other state at every instant, and the end of every command. -/

namespace Sys2Proof.Machine

/-- The states in which R21 closes MFLT. -/
def mfltCloses (mst : Nat) : Bool := [stEnum, stLoad, stReady, stRun, stService].contains mst

/-- R188: the coil is held while Tocsin on CP0 requests it, in the states in which R21 closes it, and the scan watchdog is satisfied, which a
stopped or held CP0 does not do. The module without supply holds nothing (R21). -/
def State.mfltOpen (s : State) : Bool :=
  !mfltCloses s.mst || s.rd tbBase Reg.TB_STATUS_TSTATE == 0 || s.flag (cpBase 0) Reg.CP_STATUS_HELD || s.pwr.unpowered

/-- A path is ACTIVE: NET.STATUS:ROLE 2 (R332). -/
def State.pathActive (s : State) (p : Path) : Bool := s.rd (netBase p) Reg.NET_STATUS_ROLE == 2

/-- Diagnostic 11 (R164, R326): no path is ACTIVE, or the ACTIVE path has NOALT set. -/
def State.noPath (s : State) : Bool :=
  !([Path.a, Path.b].any fun p => s.pathActive p && !s.flag (netBase p) Reg.NET_STATUS_NOALT)

/-- Diagnostic 12 (R164, R340): STATE HOLDOVER, or FREE with SRC 0 or 1. -/
def State.inHoldover (s : State) : Bool :=
  s.rd tmBase Reg.TM_STATUS_STATE == 3 || (s.rd tmBase Reg.TM_STATUS_STATE == 0 && s.rd tmBase Reg.TM_CFG_SRC < 2)

/-- Diagnostic 14 (R164, R504): a pair CP1–CP3 is isolated. -/
def State.cpIsolated (s : State) : Bool := (List.range 3).any fun n => s.isolated 2 (26 + n)


/-- The module acts as the chain's time master (R343): CHAINGM, HEAD and address 1. -/
def State.chainMaster (s : State) : Bool :=
  s.flag tmBase Reg.TM_CFG_CHAINGM && s.flag chBase Reg.CH_STATUS_HEAD && s.rd modBase Reg.MOD_ADDR_ADDR == 1

/-- R357: a controller in OFF enters INTEGRATING, its counters cleared, while it is enabled, supplied, and the module in READY, RUN, SAFE or SERVICE. -/
def State.canAuto (s : State) (c : Fin 2) : State :=
  let b := canBase c.val
  if s.rd b Reg.CAN_STATUS_ESTATE == 0 && s.flag b Reg.CAN_CFG_EN && (s.can c).supplyOk && s.mstIn [stReady, stRun, stSafe, stService] then
    ((s.wr b Reg.CAN_STATUS_ESTATE 1).wr b Reg.CAN_STATUS_ACKERRS 0).setReg (b + Reg.CAN_ECNT_TEC.off) 0
  else s

/-- A flag takes the value that other state gives it. -/
def State.track (s : State) (b : Nat) (f : Field) (v : State → Bool) : State := s.setFlag b f (v s)

/-- The Control region is down: MOD.HEALTH:REGFLT. -/
def State.controlDown (s : State) : Bool := getField (s.reg (modBase + Reg.MOD_HEALTH_REGFLT.off)) (Reg.MOD_HEALTH_REGFLT.lo + 2) 1 == 1

/-- The always-on island copies address, state, mode and self-test result (R425). -/
def State.copySegments (s : State) : State :=
  let s := s.wr pnlBase Reg.SEG_STATE_ADDR (s.rd modBase Reg.MOD_ADDR_ADDR)
  let s := s.wr pnlBase Reg.SEG_STATE_STATE s.mst
  let s := s.track pnlBase Reg.SEG_STATE_MODE State.tabor
  s.track pnlBase Reg.SEG_STATE_ERR fun s => s.rd modBase Reg.MOD_ERR_STFAIL != 0

/-- No line of the display is driven: it shows nothing. -/
def State.darkSegments (s : State) : State :=
  let s := s.wr pnlBase Reg.SEG_STATE_ADDR 0
  let s := s.wr pnlBase Reg.SEG_STATE_STATE 0
  let s := s.track pnlBase Reg.SEG_STATE_MODE fun _ => false
  s.track pnlBase Reg.SEG_STATE_ERR fun _ => false

/-- R425: the segment display. SAFE and DBG come from Tocsin's lines; while the Control region is down it keeps the last copy, its icon flashing, and
SAFE follows the hardwired line. After the discharge of the panel no line is driven (R426; DEDUCED, log entry 146). -/
def State.showSegments (s : State) : State :=
  let s := if s.pnl.discharged then s.darkSegments else if s.controlDown then s else s.copySegments
  let s := s.track pnlBase Reg.SEG_STATE_SAFE fun s =>
    !s.pnl.discharged && (s.flag tbBase Reg.TB_STATUS_HWSAFE || (!s.controlDown && s.rd tbBase Reg.TB_STATUS_TSTATE == 3))
  let s := s.track pnlBase Reg.SEG_STATE_DBG fun s => !s.pnl.discharged && s.flag tbBase Reg.TB_STATUS_DBGFLAG
  s.track pnlBase Reg.SEG_STATE_LASTKNOWN fun s => !s.pnl.discharged && s.controlDown

/-- KEY.USE: the slots that verified a section held in the active bank or in the boot bank (R39, R63). -/
def State.keyUse (s : State) : Nat :=
  let bank (b : Bool) : Bank := if b then s.img.b1 else s.img.b0
  let boot := bank (s.flag nvjBase Reg.IMG_STATUS_BOOT)
  let active := if s.img.committed then (bank (s.flag nvjBase Reg.IMG_STATUS_ACTIVE)).slots else 0
  (active ||| boot.slots ||| boot.savedSlots).toNat

/-- The registers that follow: their present values are written (R188, R196, R39, R164, R343, R475). -/
def State.mirror (s : State) : State :=
  let s := s.track tbBase Reg.TB_STATUS_MFLTOPEN State.mfltOpen
  let s := s.track modBase Reg.MOD_STATE_CAUSE fun s => s.rd tbBase Reg.TB_CAUSE_LATCHED != 0
  let s := s.track modBase Reg.MOD_STATE_DBGFLAG fun s => s.flag tbBase Reg.TB_STATUS_DBGFLAG
  let s := s.track modBase Reg.MOD_HEALTH_HULOW fun s => s.flag pwrBase Reg.PWR_STATUS_HULOW
  let s := s.track modBase Reg.MOD_HEALTH_SUPLOW fun s => s.flag pwrBase Reg.PWR_STATUS_SUPLOW
  let s := s.track modBase Reg.MOD_HEALTH_NOPATH fun s => s.mst != stPowerup && s.noPath
  let s := s.track modBase Reg.MOD_HEALTH_HOLDOVER fun s => s.mst != stPowerup && s.inHoldover
  let s := s.track modBase Reg.MOD_HEALTH_CPISO fun s => s.mst != stPowerup && s.cpIsolated
  s.track tmBase Reg.TM_STATUS_CGM State.chainMaster

/-- KEY.USE takes its present value. -/
def State.showKeys (s : State) : State := s.wr nvjBase Reg.KEY_USE_INUSE s.keyUse

/-- The fields that mirror or follow other state. -/
def State.settle (s : State) : State := (((s.mirror.showKeys).canAuto 0).canAuto 1).showSegments

/-- The end of a command: a next state. -/
def done (s : State) : Host.Outcome State Fault Refusal := .next s.settle

/-! How a management command reaches the module (R473, R474). -/

/-- What becomes of a command at a port. -/
inductive Gate where
  /-- discarded unanswered -/
  | silent
  /-- executed by the PWR block alone: RESTART and reads of region 0 and PWR, else E_STATE -/
  | pwrOnly
  /-- answered with a code and not executed -/
  | refuse (c : Code)
  | full
  deriving DecidableEq, Repr

/-- R473, R474, R447: transactions are answered in every state except POWERUP and PFAIL and except SELFTEST while its tests run; a failed
SELFTEST and an isolated CP1 leave the service port, served by the PWR block; in Tabor mode NA answers E_TABOR and NB is off. -/
def State.gate (s : State) (p : Port) : Gate :=
  if s.mst = stPowerup ∨ s.mst = stPfail then .silent
  else if s.mst = stSelftest then
    if s.rd pwrBase Reg.PWR_STFAIL_DIGIT != 0 && p == .service then .pwrOnly else .silent
  else if s.isolated 2 26 then if p == .service then .pwrOnly else .silent
  else if s.tabor && p == .na then .refuse E_TABOR
  else if s.tabor && p == .nb then .silent
  else .full

/-- A command given as a row of its own: its decision where the port reaches the module, answered with its code. -/
def command (p : Port) (f : State → Code × State) (s : State) : Host.Outcome State Fault Refusal :=
  match s.gate p with
  | .silent => done s
  | .pwrOnly => done (s.answer p E_STATE)
  | .refuse c => done (s.answer p c)
  | .full => let r := f s; done (r.2.answer p r.1)

/-- A command whose result may be decided later: `none` leaves the answer to that decision. -/
def commandHeld (p : Port) (f : State → Option Code × State) (s : State) : Host.Outcome State Fault Refusal :=
  match s.gate p with
  | .silent => done s
  | .pwrOnly => done (s.answer p E_STATE)
  | .refuse c => done (s.answer p c)
  | .full => let r := f s; done (match r.1 with | some c => r.2.answer p c | none => r.2)

end Sys2Proof.Machine
end

