-- ==== Sys2Proof/Machine/Field.lean ====
section
/-! DEFINITION. What the three kinds of field cells share: when the module state de-energises them (R21), forces (R88), fallbacks of their commands
(R78), and the duties of core pairs (R190, R504). -/

namespace Sys2Proof.Machine

/-- R21: the module state de-energises the field outputs. In SERVICE the outputs are as in the state left: safe values after SAFE; after READY
only a service force or a Tocsin command drives a cell. -/
def State.stateOff (s : State) (id : Nat) : Bool :=
  if s.mst = stRun ∨ s.mst = stSafe then false
  else if s.mst = stService then !s.toc.serviceFromSafe && s.src id < 2
  else true

/-- The hardwired line, the module state or the block's isolation de-energises the cell (R186, R241, R265). -/
def State.fieldOff (s : State) (id : Nat) : Bool :=
  (s.cell id).line || s.stateOff id || s.isolated (idRegion id) (idBlock id)

/-- The value of the force in effect, where the cell's output is forced (R88). -/
def State.forcedOut (s : State) (id : Nat) : Option Word :=
  let f := (s.cell id).force
  if f.1 = 1 ∧ s.src id ≠ 3 then some f.2.2 else none

/-- The safe command that drives a cell: its ACTION (R175); a released one drives until its next source takes over at a boundary (R87). -/
def State.safeAction (s : State) (id : Nat) : Option Nat :=
  if s.src id = 3 then some (s.cell id).act else none

/-- How an input resolved: 0 as it stands, 1 held, 2 substituted (R78). -/
def Input.how (i : Input) : Nat := if i.live then 0 else if i.qual == Q_HELD then 1 else 2

/-- Quality of a command that resolved to a fallback (R212, R234, R266). -/
def howQual : Nat → Option Qual
  | 0 => none
  | 1 => some Q_HELD
  | _ => some Q_SUBSTITUTED

/-- The flag of a cell's first publication since START (R76). -/
def State.initFlag (s : State) (id : Nat) : BitVec 12 := flIf (s.cell id).first FL_INIT

/-- A cell is due in the stroke that a boundary closes, and in the stroke that it opens (R74). -/
def State.dueClosing (s : State) (id : Nat) : Bool := dueIn s.img.active id s.strokeNo
def State.dueOpening (s : State) (id : Nat) : Bool := dueIn s.img.active id (s.strokeNo + 1)

/-- Every register of a cell's page to 0 but those of its state: a cell that a commit starts keeps nothing else (R54). -/
def State.clearPage (s : State) (id : Nat) : State :=
  let b := cellBase id
  { s with regs := s.regs.filter fun e => !(b + 4 ≤ e.1 && e.1 < b + 0x100) }

/-- START → RUN when an evaluation completes (R91), in RUN or SERVICE. -/
def State.startToRun (s : State) (id : Nat) : State :=
  if s.cst id == csStart && s.mstIn [stRun, stService] then s.setCst id csRun else s

/-- The safe value or held output of a cell that is not evaluated in TEST: its outputs are held (R91). -/
def State.inTest (s : State) (id : Nat) : Bool := s.cst id == csTest

/-- Why a cell enters START. -/
inductive StartCause where
  /-- a commit instantiates it, or LOAD -/
  | fresh
  /-- a commit changes it -/
  | changed
  /-- the module enters RUN -/
  | runEntry
  /-- RELEASE (R22) -/
  | release
  deriving DecidableEq, Repr

end Sys2Proof.Machine
end

