-- ==== Sys2Proof/Machine/Trig.lean ====
section
/-! DEFINITION. Cosine, sine and the angle of a vector, in degrees, by coordinate rotation in whole numbers of 2^−40. How far the module's own
values lie from these is a free value within bounds that keep every quantity inside the accuracy that the spec gives it (05: measurement
accuracy; DESIGN CHOICE, log entry 22). -/

namespace Sys2Proof.Machine

/-- arctan 2^−i for i = 0 to 31, in degrees × 2^40. -/
def arcTable : List Int :=
  [49478023249920, 29208582661662, 15433012903280, 7834038323712, 3932221230125, 1968027526446, 984253903256, 492156985618,
   246082247574, 123041593148, 61520855245, 30760434956, 15380218395, 7690109312, 3845054670, 1922527337] ++
  [961263669, 480631834, 240315917, 120157959, 60078979, 30039490, 15019745, 7509872,
   3754936, 1877468, 938734, 469367, 234684, 117342, 58671, 29335]

/-- The product of cos(arctan 2^−i), × 2^40: what the rotations lengthen a vector by, inverted. -/
def rotGain : Int := 667681663043

/-- A vector turned through `z` (degrees × 2^40, at most ±90°), lengthened by 1 / `rotGain`. -/
def turnSteps : List (Int × Nat) → Int → Int → Int → Int × Int
  | [], x, y, _ => (x, y)
  | (a, i) :: l, x, y, z =>
    if 0 ≤ z then turnSteps l (x - y / 2 ^ i) (y + x / 2 ^ i) (z - a) else turnSteps l (x + y / 2 ^ i) (y - x / 2 ^ i) (z + a)

/-- The angle of a vector with x > 0, degrees × 2^40 above `z`. -/
def angleSteps : List (Int × Nat) → Int → Int → Int → Int
  | [], _, _, z => z
  | (a, i) :: l, x, y, z =>
    if 0 ≤ y then angleSteps l (x + y / 2 ^ i) (y - x / 2 ^ i) (z + a) else angleSteps l (x - y / 2 ^ i) (y + x / 2 ^ i) (z - a)

/-- An angle wrapped to (−180°, 180°] (R147). -/
def wrap180 (a : Rat) : Rat :=
  let r := a - 360 * ((a / 360).floor : Rat)
  if 180 < r then r - 360 else r

/-- Cosine and sine of an angle in degrees × 2^40. -/
def unitVec (a : Rat) : Int × Int :=
  let w := wrap180 a
  let flip := decide (90 < ratAbs w)
  let z := if 90 < w then w - 180 else if w < -90 then w + 180 else w
  let v := turnSteps arcTable.zipIdx rotGain 0 (z * 2 ^ 40).floor
  if flip then (-v.1, -v.2) else v

/-- A deviation of at most `b`, by a free value. -/
def within (b dev : Rat) : Rat := ratClamp (-b) b dev

def cosDeg (a : Rat) : Rat := mkRat (unitVec a).1 (2 ^ 40) + within (mkRat 1 100000) (Config.cosDev a)
def sinDeg (a : Rat) : Rat := mkRat (unitVec a).2 (2 ^ 40) + within (mkRat 1 100000) (Config.sinDev a)

/-- The angle of a vector in degrees, as the rotations give it; 0 for the zero vector. -/
def angleOf (v : Rat × Rat) : Rat :=
  let m := ratMax (ratAbs v.1) (ratAbs v.2)
  if m = 0 then 0
  else
    let x := (v.1 / m * 2 ^ 40).floor
    let y := (v.2 / m * 2 ^ 40).floor
    if x < 0 then (if 0 ≤ y then 1 else -1) * 180 + mkRat (angleSteps arcTable.zipIdx (-x) (-y) 0) (2 ^ 40)
    else mkRat (angleSteps arcTable.zipIdx x y 0) (2 ^ 40)

/-- The angle of a vector in degrees, in (−180°, 180°], to a free deviation; 0 for the zero vector. -/
def argDeg (v : Rat × Rat) : Rat :=
  if v = (0, 0) then 0 else wrap180 (angleOf v + within (mkRat 1 1000) (Config.argDev v.1 v.2))

/-- A vector turned by an angle in degrees. -/
def turned (v : Rat × Rat) (deg : Rat) : Rat × Rat :=
  if deg = 0 then v
  else
    let c := cosDeg deg
    let n := sinDeg deg
    (v.1 * c - v.2 * n, v.1 * n + v.2 * c)

end Sys2Proof.Machine
end

