-- ==== Sys2Proof/Machine/Axes.lean ====
section
/-! DEFINITION. Motion axes (09): profiles, commands, limits, homing, encoder and stalls, motor supply and faults. -/

namespace Sys2Proof.Machine

/-! CELL payloads (R244). -/
def ax0Spu (r : Record) : Rat := f32 (recWord r 4)
/-- CELL payload `k` in force: a changed axis that still moves keeps the one from before until it rests (R267). -/
def State.axR (s : State) (n k : Nat) : Record :=
  match (s.ax n).old with
  | some l => getRec l T_CELL k (axId n)
  | none => s.cfg (axId n) k
def State.axVel (s : State) (n : Nat) : Bool := recByte (s.axR n 0) 0 == 1
def State.axOpt (s : State) (n i : Nat) : Bool := recByte (s.axR n 0) 1 / 2 ^ i % 2 == 1
def State.axEnc (s : State) (n : Nat) : Bool := s.axOpt n 0
def State.axSafeAct (s : State) (n : Nat) : Bool := s.axOpt n 4
def State.axStallAct (s : State) (n : Nat) : Bool := s.axOpt n 5
def State.axHmeth (s : State) (n : Nat) : Nat := recByte (s.axR n 0) 2
def State.axSpu (s : State) (n : Nat) : Rat := ax0Spu (s.axR n 0)
def State.axVstart (s : State) (n : Nat) : Rat := f32 (recWord (s.axR n 0) 8)
def State.axVstop (s : State) (n : Nat) : Rat := f32 (recWord (s.axR n 0) 12)
def State.axV1 (s : State) (n : Nat) : Rat := f32 (recWord (s.axR n 0) 16)
def State.axHyst (s : State) (n : Nat) : Rat := ((recU16 (s.axR n 2) 10 : Nat) : Rat)
/-- The least off-time of a chopper cycle, µs. -/
def State.axToff (s : State) (n : Nat) : Nat := recByte (s.axR n 2) 12
/-- The following-error limit FERR, full steps (R259). -/
def State.axFerrLimit (s : State) (n : Nat) : Rat := f32 (recWord (s.axR n 4) 6)
def State.axLdec (s : State) (n : Nat) : Rat := f32 (recWord (s.axR n 1) 16)
def State.axDsafe (s : State) (n : Nat) : Rat := f32 (recWord (s.axR n 1) 20)
def State.axSafePos (s : State) (n : Nat) : Rat := f32 (recWord (s.axR n 2) 14)
def State.axVhome (s : State) (n : Nat) : Rat := f32 (recWord (s.axR n 3) 0)
def State.axVcreep (s : State) (n : Nat) : Rat := f32 (recWord (s.axR n 3) 4)
def State.axHoffs (s : State) (n : Nat) : Rat := f32 (recWord (s.axR n 3) 8)
def State.axPlo (s : State) (n : Nat) : Rat := f32 (recWord (s.axR n 3) 14)
def State.axPhi (s : State) (n : Nat) : Rat := f32 (recWord (s.axR n 3) 18)
def State.axEcpr (s : State) (n : Nat) : Rat := ((recU32 (s.axR n 4) 0 : Nat) : Rat)
def State.axFspr (s : State) (n : Nat) : Rat := ((recU16 (s.axR n 4) 4 : Nat) : Rat)

def axB (n : Nat) : Nat := cellBase (axId n)
/-- Motion block of an axis. -/
def axBlk (n : Nat) : Nat := n / 2

def State.axf (s : State) (n : Nat) (f : Field) : Bool := s.flag (axB n) f
def State.setAxf (s : State) (n : Nat) (f : Field) (v : Bool) : State := s.setFlag (axB n) f v
/-- A rate register as a number. -/
def State.axRate (s : State) (n : Nat) (f : Field) : Rat := f32 (s.rdw (axB n) f)

def State.axPos (s : State) (n : Nat) : Int := (s.rdw (axB n) Reg.AX_POS).toInt
def State.setAxPos (s : State) (n : Nat) (x : Int) : State := s.wrw (axB n) Reg.AX_POS (BitVec.ofInt 32 x)
def State.axTgt (s : State) (n : Nat) : Int := (s.rdw (axB n) Reg.AX_TGT).toInt

/-- round(q); the direction at a midpoint is a free value. -/
def roundNear (q : Rat) : Int :=
  let f := q.floor
  let d := q - f
  if d < 1 / 2 then f else if 1 / 2 < d then f + 1 else if Config.roundTie q then f + 1 else f

/-- Microsteps of a position in units (R250). -/
def State.axMicro (s : State) (n : Nat) (units : Rat) : Int := roundNear (units * s.axSpu n * 256)

/-! Plans (R247, R254, R264). -/

def State.planNormal (s : State) (n : Nat) : StopPlan :=
  { d2 := s.axRate n Reg.AX_D2, d1 := s.axRate n Reg.AX_D1, knee := s.axV1 n, vstop := s.axVstop n }
/-- A stop at one deceleration to rest, without the stop-speed drop. -/
def planOne (d : Rat) : StopPlan := { d2 := d, d1 := d, knee := 0, vstop := 0 }
/-- A reversal under a safe command: DSAFE to VSTOP (R248, R264). -/
def State.planSafe (s : State) (n : Nat) : StopPlan := { planOne (s.axDsafe n) with vstop := s.axVstop n }

/-- b(v) (R247). -/
def braking (p : StopPlan) (v : Rat) : Rat :=
  if p.knee < v then (v * v - p.knee * p.knee) / (2 * p.d2) + (p.knee * p.knee - p.vstop * p.vstop) / (2 * p.d1)
  else ratMax 0 ((v * v - p.vstop * p.vstop) / (2 * p.d1))

/-- The 4 µs between updates (R246). -/
def axDt : Rat := mkRat 4 1000000

/-- One update of a deceleration to rest. -/
def slowToRest (p : StopPlan) (v : Rat) : Rat :=
  let w := v - (if p.knee < v then p.d2 else p.d1) * axDt
  if w ≤ p.vstop ∨ w ≤ 0 then 0 else w

/-- Speeds up to here are reached and left without a ramp (R246). -/
def State.axFloor (s : State) (n : Nat) : Rat := ratMax (s.axVstart n) (s.axVstop n)

/-- One update of a deceleration to a speed above rest; the part of it at or below `floor` has no ramp (R246). -/
def slowTo (p : StopPlan) (floor v limit : Rat) : Rat :=
  if v ≤ floor then limit
  else
    let w := v - (if p.knee < v then p.d2 else p.d1) * axDt
    if w ≤ floor ∧ limit ≤ floor then limit else ratMax limit w

/-- One update of an acceleration (R246): from standstill at VSTART; a speed at or below VSTART or VSTOP is reached or left without a ramp. -/
def State.axFaster (s : State) (n : Nat) (v limit : Rat) : Rat :=
  let floor := s.axFloor n
  if limit ≤ floor then limit
  else if v = 0 ∧ 0 < s.axVstart n then s.axVstart n
  else if v < floor then floor
  else ratMin limit (v + (if v < s.axV1 n then s.axRate n Reg.AX_A1 else s.axRate n Reg.AX_A2) * axDt)

/-! Homing directions (R256): +1 or −1. -/
def State.searchDir (s : State) (n : Nat) : Rat :=
  match s.axHmeth n with
  | 1 => -1
  | 2 => 1
  | _ => if (s.ax n).homeBack then 1 else -1
def State.creepDir (s : State) (n : Nat) : Rat :=
  match s.axHmeth n with
  | 1 => 1
  | 2 => -1
  | _ => if (s.ax n).homeBack then -1 else 1

def hsIdle : Nat := 0
def hsRunning : Nat := 1
def hsDone : Nat := 2
def hsFailed : Nat := 3

def State.homing (s : State) (n : Nat) : Bool := s.rd (axB n) Reg.AX_HSTAT_STATE == hsRunning
def State.homeStep (s : State) (n : Nat) : Nat := s.rd (axB n) Reg.AX_HSTAT_STEP

/-! Encoder (R259). -/

/-- Encoder position in microsteps. -/
def State.encPos (s : State) (n : Nat) : Rat :=
  let a := s.ax n
  (a.encBase : Rat) + (a.encCount : Rat) * s.axFspr n / s.axEcpr n * 256

/-- A difference of positions in microsteps, where the position counter wraps modulo 2^32 (R250). -/
def wrapPos (x : Rat) : Rat := x - 2 ^ 32 * ((x + 2 ^ 31) / 2 ^ 32).floor

/-- The following error in full steps: the commanded position less the encoder's (R259). -/
def State.axFollowing (s : State) (n : Nat) : Rat := wrapPos ((s.axPos n : Rat) + (s.ax n).frac - s.encPos n) / 256

/-- The position is set from the encoder. -/
def State.posFromEnc (s : State) (n : Nat) : State :=
  (s.setAxPos n (roundNear (s.encPos n))).modAx n fun a => { a with frac := 0, idle := true }

/-- The encoder count is latched with the present position. -/
def State.latchEnc (s : State) (n : Nat) : State :=
  let p := s.axPos n
  s.modAx n fun a => { a with encCount := 0, encBase := p }

/-- A stop under a plan of its own begins; no target is in force until the next due boundary. -/
def State.stopAx (s : State) (n : Nat) (p : StopPlan) : State :=
  s.modAx n fun a => { a with stopping := if a.speed = 0 then none else some p, idle := true, turning := false, holdSpeed := false }

/-- HOMING_FAILED (R258): the axis stops at DSAFE, HOMED clears and HFAILS counts. -/
def State.failHoming (s : State) (n cause : Nat) : State :=
  if s.homing n then
    let b := axB n
    let s := ((s.wr b Reg.AX_HSTAT_STATE hsFailed).wr b Reg.AX_HSTAT_CAUSE cause).wr b Reg.AX_HSTAT_STEP 0
    let s := ((s.setAxf n Reg.AX_STATUS_HOMING false).setAxf n Reg.AX_STATUS_HOMED false).bump b Reg.AX_CNT3_HFAILS
    (s.modAx n fun a => { a with paused := false }).stopAx n (planOne (s.axDsafe n))
  else s

/-- MOVING, DIR, PHASE, VEL and REVERSING after an update (R268). -/
def State.showSpeed (s : State) (n : Nat) (old new : Rat) : State :=
  let b := axB n
  let ph := if new = 0 then 0 else if ratAbs old < ratAbs new then 1 else if ratAbs new < ratAbs old then 3 else 2
  let s := ((s.setAxf n Reg.AX_STATUS_MOVING (new != 0)).setAxf n Reg.AX_STATUS_DIR (decide (new < 0))).wr b Reg.AX_STATUS_PHASE ph
  let s := s.setAxf n Reg.AX_STATUS_REVERSING ((s.ax n).turning && new != 0)
  let s := s.when (new != 0) fun s => s.setAxf n Reg.AX_STATUS_HOLD false
  s.wrw b Reg.AX_VEL (toF32c new)

/-- Active states of the limit and home inputs from their filtered levels (R253); LIMSTOP clears as its own limit is inactive (R254). -/
def State.showLimits (s : State) (n : Nat) : State :=
  let a := s.ax n
  let s := ((s.setAxf n Reg.AX_STATUS_LIMP (a.inP != s.axOpt n 1)).setAxf n Reg.AX_STATUS_LIMN (a.inN != s.axOpt n 2)).setAxf n Reg.AX_STATUS_HOME (a.inH != s.axOpt n 3)
  let s := s.modAx n fun a => { a with stopP := a.stopP && s.axf n Reg.AX_STATUS_LIMP, stopN := a.stopN && s.axf n Reg.AX_STATUS_LIMN }
  s.setAxf n Reg.AX_STATUS_LIMSTOP ((s.ax n).stopP || (s.ax n).stopN)

/-- Configuration and rate registers of an axis from its records (R268), and the active states of its inputs. -/
def State.loadAxRegs (s : State) (n : Nat) : State :=
  let b := axB n
  let s := (((s.setFlag b Reg.AX_CFG_CMODE (s.axVel n)).setFlag b Reg.AX_CFG_ENC (s.axEnc n)).setFlag b Reg.AX_CFG_SAFEACT (s.axSafeAct n)).setFlag b Reg.AX_CFG_STALLACT (s.axStallAct n)
  let s := ((s.setFlag b Reg.AX_CFG_DIRINV (s.axOpt n 6)).wr b Reg.AX_CFG_HMETH (s.axHmeth n)).wr b Reg.AX_CFG_LFILT (recByte (s.axR n 0) 3)
  let s := (((s.wrw b Reg.AX_A1 (recWord (s.axR n 1) 0)).wrw b Reg.AX_A2 (recWord (s.axR n 1) 4)).wrw b Reg.AX_D2 (recWord (s.axR n 1) 8)).wrw b Reg.AX_D1 (recWord (s.axR n 1) 12)
  let s := ((s.wrw b Reg.AX_VMAX (recWord (s.axR n 0) 20)).wrw b Reg.AX_IRUN (recWord (s.axR n 2) 0)).wrw b Reg.AX_IHOLD (recWord (s.axR n 2) 4)
  s.showLimits n

/-- The following error is measured from START where the axis has not homed (R259). -/
def State.latchIfUnhomed (s : State) (n : Nat) : State := if s.axf n Reg.AX_STATUS_HOMED then s else s.latchEnc n

/-- A changed axis has come to rest: its new configuration applies (R267). -/
def State.adoptAx (s : State) (n : Nat) : State :=
  if (s.ax n).old.isSome then ((s.modAx n fun a => { a with old := none }).loadAxRegs n).latchIfUnhomed n else s

/-- The phase currents go off (R260). -/
def State.bridgesOff (s : State) (n : Nat) : State :=
  let a := s.ax n
  if a.bridges then
    let moving := a.speed != 0
    let s := s.modAx n fun a => { a with bridges := false, speed := 0, frac := 0, stopping := none, turning := false, holdSpeed := false,
                                         idle := true, encReturn := a.encReturn || (moving && s.axEnc n) }
    let s := s.when (moving && !s.axEnc n) fun s => s.setAxf n Reg.AX_STATUS_HOMED false
    ((s.setAxf n Reg.AX_STATUS_HOLD false).showSpeed n a.speed 0).adoptAx n
  else s

/-- The phase currents come on at IHOLD (R261, R267). -/
def State.bridgesOn (s : State) (n : Nat) : State :=
  if (s.ax n).bridges then s
  else
    let s := if (s.ax n).encReturn then s.posFromEnc n else s
    (s.modAx n fun a => { a with bridges := true, encReturn := false, idle := true }).setAxf n Reg.AX_STATUS_HOLD true

/-- A new target (R248): a reversal where it lies behind the axis, or ahead but nearer than the braking distance. -/
def State.setTarget (s : State) (n : Nat) (t : Int) (p : StopPlan) : State :=
  let a := s.ax n
  let same := s.axTgt n == t && !a.idle
  let s := s.wrw (axB n) Reg.AX_TGT (BitVec.ofInt 32 t)
  if same then s
  else
    let dist := ((t : Rat) - ((s.axPos n : Rat) + a.frac)) / 256
    let behind := decide (a.speed ≠ 0) && (decide (dist * a.speed ≤ 0) || decide (ratAbs dist < braking p (ratAbs a.speed)))
    (s.modAx n fun a => { a with idle := false, turning := behind, holdSpeed := false }).setAxf n Reg.AX_STATUS_REVERSING behind

/-- A target as the limits leave it: while a limit is active, one in its direction is the present position (R254). -/
def State.limitTarget (s : State) (n : Nat) (t : Int) : Int :=
  let p := s.axPos n
  if (s.axf n Reg.AX_STATUS_LIMP && decide (p < t)) || (s.axf n Reg.AX_STATUS_LIMN && decide (t < p)) then p else t

/-- SAFEPOS as a target: within ±(2^31 − 1), and as the limits leave it (R250, R254, R264). -/
def State.safeTarget (s : State) (n : Nat) : Int := s.limitTarget n (max (-(2 ^ 31 - 1)) (min (2 ^ 31 - 1) (s.axMicro n (s.axSafePos n))))

/-- A limit is active in a direction. -/
def State.limitIn (s : State) (n : Nat) (dir : Rat) : Bool :=
  if 0 < dir then s.axf n Reg.AX_STATUS_LIMP else if dir < 0 then s.axf n Reg.AX_STATUS_LIMN else false

/-- A limit stop is in progress, which goes before every other stop (R265 rank 4). -/
def State.limitStopping (s : State) (n : Nat) : Bool :=
  (s.ax n).stopping.isSome && s.axf n Reg.AX_STATUS_LIMSTOP && s.limitIn n (s.ax n).speed

/-- A stop at DSAFE, which leaves a limit stop in progress alone (R254, R265). -/
def State.stopSafe (s : State) (n : Nat) : State := if s.limitStopping n then s else s.stopAx n (planOne (s.axDsafe n))

/-- The safe stop (R264); a stop in progress other than a limit stop gives way to the move to SAFEPOS (R265). -/
def State.safeStop (s : State) (n : Nat) : State :=
  if s.axSafeAct n then
    let s := if s.limitStopping n then s else s.modAx n fun a => { a with stopping := none }
    s.setTarget n (s.safeTarget n) (s.planNormal n)
  else s.stopSafe n

/-- A safe command or FALLBACK 2 commands the axis (R264, R265). -/
def State.axSafe (s : State) (n : Nat) : Bool := s.src (axId n) == 3 || (s.ax n).cmdHow == 3

/-- The safe move to SAFEPOS goes on after whatever has brought the axis to rest (R265). -/
def State.resumeSafe (s : State) (n : Nat) : State :=
  if s.axSafe n && s.axSafeAct n && (s.ax n).bridges && (s.ax n).stopping.isNone && !s.homing n &&
      ((s.ax n).idle || s.axTgt n != s.safeTarget n) then s.safeStop n
  else s

/-- The phase currents are off by the first three rows of R265, or by ACTION 1. Homing in SERVICE drives the axis (R257). -/
def State.axOff (s : State) (n : Nat) : Bool :=
  let id := axId n
  (s.cell id).line || (s.stateOff id && !(s.mst == stService && s.homing n)) || s.isolated 1 (8 + axBlk n) ||
    s.cst id == csOff || s.cst id == csFault || s.flag (mbBase (axBlk n)) Reg.MB_MS_OFF ||
    (match s.safeAction id with | some 0 => false | some _ => true | none => false)

/-- What changed around the axis takes effect at once: homing fails (R258), the currents go off (R265), the safe stop begins (R264). -/
def State.driveAx (s : State) (n : Nat) : State :=
  let id := axId n
  if !s.exists_ id then s
  else
    let s := s.setAxf n Reg.AX_STATUS_MSOFF (s.flag (mbBase (axBlk n)) Reg.MB_MS_OFF)
    let s := if !s.homing n then s
      else if (s.cell id).line then s.failHoming n 6
      else if s.src id = 3 ∨ (s.cell id).force.1 = 1 then s.failHoming n 5
      else if s.axOff n then s.failHoming n 6
      else if s.isolated 2 28 then s.failHoming n 8 else s
    let s := s.when (s.axOff n) fun s => s.bridgesOff n
    let want := s.safeAction id == some 0
    let was := s.axf n Reg.AX_STATUS_SAFESTOP
    let s := s.setAxf n Reg.AX_STATUS_SAFESTOP (want || (was && (s.ax n).cmdHow == 3 && s.src id == 0))
    -- released: the axis waits for the command of its next due boundary (R264)
    let s := s.when (was && !s.axf n Reg.AX_STATUS_SAFESTOP && s.axVel n) fun s => s.modAx n fun a => { a with idle := true }
    if want && !was && !s.axOff n then (s.bridgesOn n).safeStop n else s

/-! The profile generator (R246–R248). -/

/-- One update toward a signed speed. -/
def State.velStep (s : State) (n : Nat) (v target : Rat) : Rat :=
  let t := if s.limitIn n target then 0 else target
  let p := s.planNormal n
  if v = 0 then (if t = 0 then 0 else (if t < 0 then -1 else 1) * s.axFaster n 0 (ratAbs t))
  else
    let dir : Rat := if v < 0 then -1 else 1
    if t * v ≤ 0 then dir * slowToRest p (ratAbs v)
    else if ratAbs v < ratAbs t then dir * s.axFaster n (ratAbs v) (ratAbs t)
    else dir * slowTo p (s.axFloor n) (ratAbs v) (ratAbs t)

/-- One update in position mode: the new speed, and whether the target is reached in it; `turn` is the plan of a reversal (R248, R264). -/
def State.posStep (s : State) (n : Nat) (turn : StopPlan) (v : Rat) : Rat × Bool :=
  let p := s.planNormal n
  let a := s.ax n
  let dist := ((s.axTgt n : Rat) - ((s.axPos n : Rat) + a.frac)) / 256
  let vmax := s.axRate n Reg.AX_VMAX
  if v = 0 then
    if s.axTgt n = s.axPos n ∨ s.limitIn n dist then (0, false)
    else
      let w := s.axFaster n 0 vmax
      if ratAbs dist ≤ w * axDt then (0, true) else ((if dist < 0 then -1 else 1) * w, false)
  else
    let dir : Rat := if v < 0 then -1 else 1
    let m := ratAbs v
    if a.turning ∨ dist * v < 0 then (dir * slowToRest turn m, false)
    else
      let r := ratAbs dist
      if r ≤ m * axDt then (0, true)
      else if braking p m < r then
        if a.holdSpeed ∧ m ≤ vmax then (v, false)
        else if m < vmax then (dir * s.axFaster n m vmax, false)
        else (dir * slowTo p (s.axFloor n) m vmax, false)
      else
        let w := m - (if p.knee < m then p.d2 else p.d1) * axDt
        (dir * (if w ≤ p.vstop then (if 0 < p.vstop then p.vstop else m) else w), false)

/-- What happens when the axis comes to rest. -/
def State.atRest (s : State) (n : Nat) : State :=
  let s := (s.modAx n fun a => { a with stopping := none, turning := false, holdSpeed := false }).adoptAx n
  let s := if s.homing n && s.homeStep n == 2 then s.wr (axB n) Reg.AX_HSTAT_STEP 3 else s
  if s.axf n Reg.AX_STATUS_STALL && s.axStallAct n then (s.posFromEnc n).setAxf n Reg.AX_STATUS_STALL false else s

/-- The new speed of an update and whether the target is reached (R265). -/
def State.nextSpeed (s : State) (n : Nat) : Rat × Bool :=
  let a := s.ax n
  let v := a.speed
  let dir : Rat := if v < 0 then -1 else 1
  match a.stopping with
  | some p => (dir * slowToRest p (ratAbs v), false)
  | none =>
    if s.homing n then
      match s.homeStep n with
      | 1 => (s.velStep n v (s.searchDir n * s.axVhome n), false)
      | 4 => if a.paused then (0, false) else (s.creepDir n * s.axVcreep n, false)
      | 5 => (s.axVcreep n, false)
      | _ => (0, false)
    else if a.idle then (if v = 0 then 0 else dir * slowToRest (s.planNormal n) (ratAbs v), false)
    else if s.axSafe n then (if s.axSafeAct n then s.posStep n (s.planSafe n) v else (0, false))
    else if s.axVel n then (s.velStep n v (ratClamp (-(s.axRate n Reg.AX_VMAX)) (s.axRate n Reg.AX_VMAX) a.vcmd), false)
    else s.posStep n (s.planNormal n) v

/-- The mean speed of an update: a step at VSTART or VSTOP falls at its start or its end, the rest is a ramp (R246). -/
def State.meanSpeed (s : State) (n : Nat) (old new : Rat) : Rat :=
  let stop := match (s.ax n).stopping with | some p => p.vstop | none => s.axVstop n
  let a := ratMax (ratAbs old) (ratMin (ratAbs new) (s.axFloor n))
  let b := ratMax (ratAbs new) (ratMin (ratAbs old) (if new = 0 then stop else 0))
  (if old + new < 0 then -1 else 1) * (a + b) / 2

/-- Microsteps emitted in an update: AX.POS is the last whole one, in either direction; the counter wraps (R246, R250). -/
def State.travel (s : State) (n : Nat) (old new : Rat) : State :=
  let x := (s.axPos n : Rat) + (s.ax n).frac + s.meanSpeed n old new * axDt * 256
  let i : Int := if (s.axPos n : Rat) ≤ x then x.floor else -((-x).floor)
  (s.setAxPos n i).modAx n fun a => { a with frac := x - i }

/-- The encoder's count, the valid edges since an error, and the following error (R259). -/
def State.readEnc (s : State) (n : Nat) (c : Word) : State :=
  let b := axB n
  let d := (c - s.rdw b Reg.AX_ENC).toInt
  let s := (s.wrw b Reg.AX_ENC c).modAx n fun a => { a with encCount := a.encCount + d, validEdges := min (a.validEdges + d.natAbs) 1000 }
  let s := s.when (1000 ≤ (s.ax n).validEdges) fun s => s.setAxf n Reg.AX_STATUS_ENCERR false
  s.wrw b Reg.AX_FERR (toF32c (s.axFollowing n))

/-- A homing step that waited for CP3 begins once CP3 carries its duties again (R258). -/
def State.resumeHoming (s : State) (n : Nat) : State :=
  if s.homing n && (s.ax n).paused && s.dutyUp 3 then
    (s.modAx n fun a => { a with paused := false }).wr (axB n) Reg.AX_HSTAT_STEP (s.homeStep n + 1)
  else s

/-- PROFILE_UPDATE (R246, R247): `enc` is the count of the encoder's edges. -/
def execProfileUpdate (ax : Fin 4) (enc : Word) (s : State) : Host.Outcome State Fault Refusal :=
  done <|
    let n := ax.val
    if !s.fieldUp || !s.exists_ (axId n) then s
    else
      let s := if (s.ax n).bridges then
          let s := (s.resumeHoming n).resumeSafe n
          let old := (s.ax n).speed
          let (new, hit) := s.nextSpeed n
          let s := if hit then (s.setAxPos n (s.axTgt n)).modAx n fun a => { a with frac := 0 }
            else if old = 0 ∧ new = 0 then s else s.travel n old new
          let s := s.modAx n fun a => { a with speed := new, holdSpeed := a.holdSpeed && new != 0 && decide (ratAbs old ≤ ratAbs new) }
          let s := if new = 0 ∧ (old ≠ 0 ∨ (s.ax n).stopping.isSome) then s.atRest n else s
          s.showSpeed n old new
        else s
      if s.axEnc n then s.readEnc n enc else s

/-! Rate writes (R249). -/

/-- A rate within its legal values (R244, R249); the address offset names the register. -/
def State.rateLegal (s : State) (n off : Nat) (w : Word) : Bool :=
  f32Finite w &&
    if off = Reg.AX_VMAX.off then decide (s.axV1 n ≤ f32 w ∧ f32 w ≤ 10000)
    else decide (1 ≤ f32 w ∧ f32 w ≤ 1000000)

/-- The rate registers. -/
def axRateOffs : List Nat := [Reg.AX_A1.off, Reg.AX_A2.off, Reg.AX_D2.off, Reg.AX_D1.off, Reg.AX_VMAX.off]

/-- AXIS_RATE_WRITE: E_RANGE at once, else decided at the next boundary. -/
def decideRateWrite (who : Option Port) (n : Nat) (writes : List (Nat × Word)) (s : State) : Option Code × State :=
  if !s.exists_ (axId n) then (some E_STATE, s)
  else if writes.any fun w => !axRateOffs.contains w.1 then (some E_ADDR, s)
  else if writes.any fun w => !s.rateLegal n w.1 w.2 then (some E_RANGE, s)
  else (none, s.modAx n fun a => { a with rates := a.rates ++ [(who, writes)] })

def execAxisRateWrite (p : Port) (ax : Fin 4) (writes : List (Nat × Word)) (s : State) : Host.Outcome State Fault Refusal :=
  commandHeld p (decideRateWrite (some p) ax.val writes) s

/-- The way to the target in full steps. -/
def State.axAhead (s : State) (n : Nat) : Rat := ((s.axTgt n : Rat) - ((s.axPos n : Rat) + (s.ax n).frac)) / 256

/-- The axis moves toward a target in position mode. -/
def State.towardTarget (s : State) (n : Nat) : Bool :=
  let a := s.ax n
  a.speed != 0 && !a.turning && a.stopping.isNone && !a.idle && !s.homing n && (!s.axVel n || s.axSafe n)

/-- The axis decelerates toward its target in position mode, and not to a lowered VMAX. -/
def State.brakingToTarget (s : State) (n : Nat) : Bool :=
  let m := ratAbs (s.ax n).speed
  s.rd (axB n) Reg.AX_STATUS_PHASE == 3 && s.towardTarget n &&
    (decide (m ≤ s.axRate n Reg.AX_VMAX) || decide (ratAbs (s.axAhead n) ≤ braking (s.planNormal n) m))

/-- AXIS_RATE_DECISION at the boundary (R249). -/
def State.rateDecision (s : State) (n : Nat) (writes : List (Nat × Word)) : Code × State :=
  let b := axB n
  let s' := writes.foldl (fun s w => s.setReg (b + w.1) w.2) s
  let changed := s'.rdw b Reg.AX_D1 != s.rdw b Reg.AX_D1 || s'.rdw b Reg.AX_D2 != s.rdw b Reg.AX_D2
  if changed && s.brakingToTarget n then
    let r := ratAbs (s.axAhead n)
    let bv := braking (s'.planNormal n) (ratAbs (s.ax n).speed)
    if r < bv then (E_RATE, s)
    else if bv < r then (E_OK, s'.modAx n fun a => { a with holdSpeed := true })
    else (E_OK, s')
  else
    -- the new rates leave too little room: the target is nearer than b(v), and the axis turns (R248)
    let short := s'.towardTarget n && decide (ratAbs (s.axAhead n) < braking (s'.planNormal n) (ratAbs (s.ax n).speed))
    (E_OK, s'.when short fun s => (s.modAx n fun a => { a with turning := true, holdSpeed := false }).setAxf n Reg.AX_STATUS_REVERSING true)

/-- All staged rate writes of an axis are decided; a write that came as a row of its own is answered here. -/
def State.applyRates (s : State) (n : Nat) : State :=
  let l := (s.ax n).rates
  l.foldl (fun s w =>
    let (c, s) := s.rateDecision n w.2
    match w.1 with
    | some p => s.answer p c
    | none => s) (s.modAx n fun a => { a with rates := [] })

/-- HOLD_CURRENT (R252): THOLD after the axis came to standstill. -/
def execHoldCurrent (ax : Fin 4) (s : State) : Host.Outcome State Fault Refusal :=
  done (if (s.ax ax.val).bridges && (s.ax ax.val).speed == 0 then s.setAxf ax.val Reg.AX_STATUS_HOLD true else s)

/-! Limits and home (R253–R255). -/

/-- The limit stop outside homing (R254). -/
def State.limitStop (s : State) (n : Nat) : State :=
  if !s.homing n && s.limitIn n (s.ax n).speed then
    let pos := decide (0 < (s.ax n).speed)
    let s := (s.stopAx n (planOne (s.axLdec n))).modAx n fun a => { a with stopP := a.stopP || pos, stopN := a.stopN || !pos }
    (s.setAxf n Reg.AX_STATUS_LIMSTOP true).bump (axB n) Reg.AX_CNT_LIMSTOPS
  else s

/-- A cause that isolates the axis is present (R255, R262). -/
def State.axCause (s : State) (n : Nat) : Bool := (s.ax n).fltP || (s.ax n).fltN || (s.ax n).hot

/-- An isolating cause of an axis has come or gone. -/
def State.noteAxCause (s : State) (n : Nat) : State := if s.cst (axId n) == csFault then s.setCause (axId n) (s.axCause n) else s

/-- A limit met during homing where the method does not seek it (R256, R258). -/
def State.wrongLimit (s : State) (n : Nat) (i : AxisInput) : State :=
  if !s.homing n then s
  else
    match s.axHmeth n, i with
    | 1, .limP => s.failHoming n 2
    | 2, .limN => s.failHoming n 2
    | 3, .limP => s.failHoming n 3
    | 3, .limN => s.failHoming n 3
    | 4, .limP => s.failHoming n 3
    | 4, .limN => s.failHoming n 3
    | _, _ => s

/-- LIMIT_INPUT_CHANGE (R253–R255): a filtered change of LIM_P, LIM_N or HOME, whose level is kept whatever is configured; `withinLwin` and
`thirdInLwin` count its transitions. -/
def execLimitInputChange (ax : Fin 4) (i : AxisInput) (on withinLwin thirdInLwin : Bool) (s : State) : Host.Outcome State Fault Refusal :=
  done <|
    let n := ax.val
    let id := axId n
    let s := s.modAx n fun a => { a with
      inP := if i == .limP then on else a.inP
      inN := if i == .limN then on else a.inN
      inH := if i == .home then on else a.inH }
    if !s.exists_ id then s
    else
      let s := s.showLimits n
      if i == .home then s
      else
        let pos := i == .limP
        let active := on != s.axOpt n (if pos then 1 else 2)
        let s := if active then (s.wrongLimit n i).limitStop n else s
        let s := s.when withinLwin fun s =>
          ((s.bump (axB n) Reg.AX_CNT_LIMCHAT).setAxf n Reg.AX_STATUS_LIMCHAT true).modAx n fun a =>
            { a with chatP := a.chatP || pos, chatN := a.chatN || !pos }
        if thirdInLwin && s.cst id != csOff then
          let s := s.modAx n fun a => { a with fltP := a.fltP || pos, fltN := a.fltN || !pos }
          ((s.isolateCell id true).noteAxCause n).driveAx n
        else s

/-- LIMIT_CHATTER_CLEAR (R255): no transition of one limit for LWIN; LIMCHAT clears with the cause. -/
def execLimitChatterClear (ax : Fin 4) (i : AxisInput) (s : State) : Host.Outcome State Fault Refusal :=
  done <|
    let n := ax.val
    let was := (s.ax n).fltP || (s.ax n).fltN
    let s := s.modAx n fun a => { a with
      chatP := a.chatP && i != .limP, fltP := a.fltP && i != .limP
      chatN := a.chatN && i != .limN, fltN := a.fltN && i != .limN }
    let a := s.ax n
    let s := s.when (!a.fltP && !a.fltN && (was || (!a.chatP && !a.chatN))) fun s =>
      (s.setAxf n Reg.AX_STATUS_LIMCHAT false).modAx n fun a => { a with chatP := false, chatN := false }
    s.noteAxCause n

/-! Homing (R256–R258). -/

/-- The rows of R257. -/
def decideHomingGo (n : Nat) (s : State) : Code × State :=
  let id := axId n
  if !s.exists_ id then (E_STATE, s)
  else if s.axHmeth n = 0 then (E_ACCESS, s)
  else if !s.mstIn [stRun, stService] then (E_STATE, s)
  else if s.cst id ≠ csRun ∨ s.src id ≠ 0 then (E_STATE, s)
  else if s.homing n || (s.ax n).homePending then (E_BUSY, s)
  else if decide ((s.ax n).speed ≠ 0) || s.flag (mbBase (axBlk n)) Reg.MB_MS_OFF then (E_STATE, s)
  else (E_OK, s.modAx n fun a => { a with homePending := true })

def execHomingGo (p : Port) (ax : Fin 4) (s : State) : Host.Outcome State Fault Refusal := command p (decideHomingGo ax.val) s

/-- AX.HCTRL:ABORT (R258, R268). -/
def decideHomingAbort (n : Nat) (s : State) : Code × State :=
  if s.homing n then (E_OK, s.failHoming n 4) else (E_STATE, s)

def execHomingAbort (p : Port) (ax : Fin 4) (s : State) : Host.Outcome State Fault Refusal := command p (decideHomingAbort ax.val) s

/-- The reference (R256): HREF latches, the position takes HOFFS, HOMED sets and homing is DONE. -/
def State.takeReference (s : State) (n : Nat) : State :=
  let b := axB n
  let s := s.wrw b Reg.AX_HREF (s.rdw b Reg.AX_POS)
  let p := s.axMicro n (s.axHoffs n)
  let old := (s.ax n).speed
  let s := (s.setAxPos n p).wrw b Reg.AX_TGT (BitVec.ofInt 32 p)
  let s := s.modAx n fun a => { a with speed := 0, frac := 0, stopping := none, idle := true, paused := false }
  let s := (s.latchEnc n).showSpeed n old 0
  let s := ((s.wr b Reg.AX_HSTAT_STATE hsDone).wr b Reg.AX_HSTAT_CAUSE 0).wr b Reg.AX_HSTAT_STEP 0
  (s.setAxf n Reg.AX_STATUS_HOMING false).setAxf n Reg.AX_STATUS_HOMED true

/-- An accepted request starts at the boundary (R257), or once a held CP3 is released (R258); method 5 takes the present position (R256). -/
def State.startHoming (s : State) (n : Nat) : State :=
  if (s.ax n).homePending && (s.dutyUp 3 || s.isolated 2 28) then
    let b := axB n
    let s := s.modAx n fun a => { a with homePending := false, homeBack := (s.axHmeth n == 3 || s.axHmeth n == 4) && s.axf n Reg.AX_STATUS_HOME }
    let s := ((s.wr b Reg.AX_HSTAT_STATE hsRunning).wr b Reg.AX_HSTAT_CAUSE 0).wr b Reg.AX_HSTAT_STEP 1
    let s := s.setAxf n Reg.AX_STATUS_HOMING true
    if s.axHmeth n = 5 then s.takeReference n else s
  else s

/-- HOMING_SWITCH_FOUND (R256): the search stops at LDEC for a limit, else with D2 and D1; a creep back to HOME stops without a ramp. -/
def execHomingSwitchFound (ax : Fin 4) (s : State) : Host.Outcome State Fault Refusal :=
  done <|
    let n := ax.val
    let home := s.axf n Reg.AX_STATUS_HOME
    if !s.homing n then s
    else if s.homeStep n = 1 then
      let found := match s.axHmeth n with
        | 1 => s.axf n Reg.AX_STATUS_LIMN
        | 2 => s.axf n Reg.AX_STATUS_LIMP
        | _ => home != (s.ax n).homeBack
      if found then
        let plan := if s.axHmeth n ≤ 2 then planOne (s.axLdec n) else s.planNormal n
        let rest := (s.ax n).speed == 0
        (s.stopAx n plan).wr (axB n) Reg.AX_HSTAT_STEP (if rest then 3 else 2)
      else s
    else if s.homeStep n = 4 && (s.ax n).homeBack && home then
      let old := (s.ax n).speed
      ((s.modAx n fun a => { a with speed := 0, homeBack := false }).showSpeed n old 0).wr (axB n) Reg.AX_HSTAT_STEP 3
    else s

/-- The next homing step begins; while CP3 is held the axis rests before it (R258). -/
def State.nextHomeStep (s : State) (n : Nat) : State :=
  if s.dutyUp 3 then s.wr (axB n) Reg.AX_HSTAT_STEP (s.homeStep n + 1)
  else
    let old := (s.ax n).speed
    (s.modAx n fun a => { a with speed := 0, paused := true }).showSpeed n old 0

/-- HOMING_REST_END (R256): after 20 ms of rest the axis creeps; a held CP3 keeps it at rest (R258). -/
def execHomingRestEnd (ax : Fin 4) (s : State) : Host.Outcome State Fault Refusal :=
  done (if s.homing ax.val && s.homeStep ax.val == 3 then s.nextHomeStep ax.val else s)

/-- HOMING_REFERENCE_EDGE (R256): with method 4 the edge of HOME begins the creep to the index, whose rising edge is the reference. -/
def execHomingReferenceEdge (ax : Fin 4) (s : State) : Host.Outcome State Fault Refusal :=
  done <|
    let n := ax.val
    if !s.homing n then s
    else if s.homeStep n = 5 then s.takeReference n
    else if s.homeStep n = 4 && !(s.ax n).homeBack && !(s.ax n).paused then
      let released := match s.axHmeth n with
        | 1 => !s.axf n Reg.AX_STATUS_LIMN
        | 2 => !s.axf n Reg.AX_STATUS_LIMP
        | _ => !s.axf n Reg.AX_STATUS_HOME
      if !released then s
      else if s.axHmeth n = 4 then s.nextHomeStep n
      else s.takeReference n
    else s

/-- HOMING_TIMEOUT (R258): HTMO has elapsed. -/
def execHomingTimeout (ax : Fin 4) (s : State) : Host.Outcome State Fault Refusal := done (s.failHoming ax.val 1)

/-- HOMING_NO_INDEX (R256): no Z index within FSPR full steps. -/
def execHomingNoIndex (ax : Fin 4) (s : State) : Host.Outcome State Fault Refusal :=
  done (if s.homeStep ax.val = 5 then s.failHoming ax.val 7 else s)

/-! Encoder errors, stalls and the chopper (R251, R259). -/

/-- The encoder of an axis errs (R259). -/
def State.encErr (s : State) (n : Nat) : State :=
  if s.exists_ (axId n) && s.axEnc n then
    ((s.setAxf n Reg.AX_STATUS_ENCERR true).bump (axB n) Reg.AX_CNT2_ENCERRS).modAx n fun a => { a with validEdges := 0 }
  else s

/-- ENCODER_ERROR (R259, R492): an axis, or, for an overload of ENC_5V, both axes of its block. -/
def execEncoderError (e : EncoderFault) (s : State) : Host.Outcome State Fault Refusal :=
  done <|
    match e with
    | .axis ax => s.encErr ax.val
    | .supply mb => (s.encErr (2 * mb.val)).encErr (2 * mb.val + 1)

/-- STALL (R259): a following error above FERR for FTIME, reported, or also a stop at DSAFE after which the position is set from the encoder and STALL
clears; a safe command on the axis goes before that stop (R265). -/
def execStall (ax : Fin 4) (s : State) : Host.Outcome State Fault Refusal :=
  done <|
    let n := ax.val
    if s.exists_ (axId n) && s.axEnc n && !s.axf n Reg.AX_STATUS_ENCERR && !s.axf n Reg.AX_STATUS_STALL &&
        decide (s.axFerrLimit n < ratAbs (s.axFollowing n)) then
      let s := (s.setAxf n Reg.AX_STATUS_STALL true).bump (axB n) Reg.AX_CNT2_STALLS
      if s.axStallAct n then
        let s := if s.src (axId n) = 3 then s else s.stopSafe n
        if (s.ax n).speed = 0 then s.atRest n else s
      else s
    else s

/-- STALL_CLEAR (R259): below FERR / 2 for FTIME, with STALLACT 0. -/
def execStallClear (ax : Fin 4) (s : State) : Host.Outcome State Fault Refusal :=
  done (if !s.axStallAct ax.val && !s.axf ax.val Reg.AX_STATUS_ENCERR && decide (ratAbs (s.axFollowing ax.val) < s.axFerrLimit ax.val / 2) then s.setAxf ax.val Reg.AX_STATUS_STALL false else s)

/-! Phase currents (R251, R252): what the choppers are given; the current of a bridge itself is outside the machine but for its measured peaks. -/

/-- Entry k of the microstep table: the axis's TABLE records, or round(65,535 × sin((k + 0.5) × 90° / 256)) where it has none (R252). -/
def State.microEntry (s : State) (n k : Nat) : Nat :=
  match findRec s.img.active T_TABLE (k / 13) (axId n) with
  | some r => recU16 r (2 * (k % 13))
  | none => ((mkRat (unitVec ((((2 * k + 1 : Nat) : Rat)) * 90 / 512)).2 (2 ^ 40) * 65535 + 1 / 2).floor).toNat

/-- √2, near enough for the accuracy that R252 gives a phase current. -/
def sqrt2 : Rat := mkRat 141421356237 100000000000

/-- I_pk in mA: IRUN, or IHOLD while it applies (R252). -/
def State.axPeak (s : State) (n : Nat) : Rat := 1000 * sqrt2 * s.axRate n (if s.axf n Reg.AX_STATUS_HOLD then Reg.AX_IHOLD else Reg.AX_IRUN)

/-- The signed amplitudes of phases A and B in mA at the present microstep: the quadrants of R252, the clamp at 4.2 A, and DIRINV. -/
def State.phaseAmps (s : State) (n : Nat) : Rat × Rat :=
  let m := (s.axPos n % 1024).toNat
  let k := m % 256
  let amp (e : Nat) : Rat := ratMin 4200 (s.axPeak n * (e : Rat) / 65535)
  let up := amp (s.microEntry n k)
  let down := amp (s.microEntry n (255 - k))
  let (a, b) := match m / 256 with
    | 0 => (up, down)
    | 1 => (down, -up)
    | 2 => (-up, -down)
    | _ => (-down, up)
  (a, if s.axOpt n 6 then -b else b)

/-- The thresholds of a chopper cycle in mA at the amplitude i_t: where the drive ends, and where the decay may end once TOFF has run (R251). -/
def State.chopUpper (s : State) (n : Nat) (it off : Rat) : Rat := it + s.axHyst n / 2 - off
def State.chopLower (s : State) (n : Nat) (it : Rat) : Rat := it - s.axHyst n / 2

/-- What was measured is a chopper cycle of R251: driven to the upper threshold, and off for TOFF and until the lower one. -/
def State.isChopCycle (s : State) (n : Nat) (it off : Rat) (c : ChopCycle) : Bool :=
  decide (s.chopUpper n it off ≤ (c.peak.toNat : Rat)) && decide (s.axToff n ≤ c.offTime.toNat) && decide ((c.valley.toInt : Rat) ≤ s.chopLower n it)

/-- The offset after a chopper cycle that was measured (R251). -/
def State.adaptOffset (s : State) (n : Nat) (amp off : Rat) (cycle : Option ChopCycle) : Rat :=
  match cycle with
  | some c =>
    if s.isChopCycle n (ratAbs amp) off c && decide (s.axPeak n ≤ 10 * ratAbs amp) then
      ratClamp 0 400 (off + ((c.peak.toNat : Rat) - (ratAbs amp + s.axHyst n / 2)) / 16)
    else off
  | none => off

/-- An offset in whole mA as AX.CHOP shows it; which way it is rounded is a free value. -/
def showOffset (q : Rat) : Nat := (if q = q.floor then q.floor else if Config.roundTie q then q.floor + 1 else q.floor).toNat

/-- CHOPSAT (R251): a chopper cycle measured on a phase adapts its offset. CHOPSAT is set while the offset of a phase sits at 400 mA and has done so for
100 ms, which `held` says of each phase. -/
def execChopsat (ax : Fin 4) (cycles : Option ChopCycle × Option ChopCycle) (held : Bool × Bool) (s : State) : Host.Outcome State Fault Refusal :=
  done <|
    let n := ax.val
    if s.exists_ (axId n) && (s.ax n).bridges then
      let amps := s.phaseAmps n
      let s := s.modAx n fun a => { a with offA := s.adaptOffset n amps.1 a.offA cycles.1, offB := s.adaptOffset n amps.2 a.offB cycles.2 }
      let s := s.modAx n fun a => { a with satA := a.offA == 400 && (held.1 || a.satA), satB := a.offB == 400 && (held.2 || a.satB) }
      let a := s.ax n
      ((s.wr (axB n) Reg.AX_CHOP_OFFA (showOffset a.offA)).wr (axB n) Reg.AX_CHOP_OFFB (showOffset a.offB)).setAxf n Reg.AX_STATUS_CHOPSAT (a.satA || a.satB)
    else s

/-! Motor supply and faults (R261, R262). -/

/-- The axes of a motion block. -/
def axesOf (mb : Nat) : List Nat := [2 * mb, 2 * mb + 1]

/-- MB.MS:OFF follows the two conditions. -/
def State.showMs (s : State) (mb : Nat) : State :=
  s.setFlag (mbBase mb) Reg.MB_MS_OFF (s.flag (mbBase mb) Reg.MB_MS_UNDER || s.flag (mbBase mb) Reg.MB_MS_OVER)

/-- MOTOR_SUPPLY_CONDITION_SET (R261): a supply measured beyond the threshold for 100 µs; counted at the entry; the bridges of both axes switch off. -/
def execMotorSupplyConditionSet (mb : Fin 2) (c : MsCond) (volts : Word) (s : State) : Host.Outcome State Fault Refusal :=
  done <|
    let b := mbBase mb.val
    let s := s.wrw b Reg.MB_MSV volts
    let s := match c with
      | .under => if s.flag b Reg.MB_MS_UNDER || decide (mkRat 55 10 ≤ f32 volts) then s else (s.setFlag b Reg.MB_MS_UNDER true).bump b Reg.MB_CNT_UNDERS
      | .over => if s.flag b Reg.MB_MS_OVER || decide (f32 volts ≤ 42) then s else (s.setFlag b Reg.MB_MS_OVER true).bump b Reg.MB_CNT_OVERS
    (axesOf mb.val).foldl State.driveAx (s.showMs mb.val)

/-- MOTOR_SUPPLY_CONDITION_CLEAR (R261): a supply measured back within its bound for 10 ms; the axes energise at the next boundary. -/
def execMotorSupplyConditionClear (mb : Fin 2) (c : MsCond) (volts : Word) (s : State) : Host.Outcome State Fault Refusal :=
  done <|
    let b := mbBase mb.val
    let s := s.wrw b Reg.MB_MSV volts
    let s := match c with
      | .under => if f32 volts < 6 then s else s.setFlag b Reg.MB_MS_UNDER false
      | .over => if 41 < f32 volts then s else s.setFlag b Reg.MB_MS_OVER false
    (axesOf mb.val).foldl State.driveAx (s.showMs mb.val)

/-- The conditions under which a fault is detected: an open phase where i_t is at least 0.5 A, a short in a chopper cycle, which needs the bridges on. -/
def State.detectable (s : State) (n : Nat) : AxisFaultKind → Bool
  | .openPhase b => (s.ax n).bridges && decide (500 ≤ ratAbs (if b then (s.phaseAmps n).2 else (s.phaseAmps n).1))
  | .phaseShort => (s.ax n).bridges
  | .overTemp p => p

/-- AXIS_FAULT (R262): isolating; PHFLT sets. A short or an open phase is gone once the bridge is off; a bridge above its temperature limit is a cause
that stays until the row says that it is no more. -/
def execAxisFault (ax : Fin 4) (k : AxisFaultKind) (s : State) : Host.Outcome State Fault Refusal :=
  done <|
    let n := ax.val
    let id := axId n
    let s := match k with
      | .overTemp p => s.modAx n fun a => { a with hot := p }
      | _ => s
    if !s.exists_ id || s.cst id == csOff then s
    else if s.detectable n k then (((s.isolateCell id (s.axCause n)).setAxf n Reg.AX_STATUS_PHFLT true).noteAxCause n).driveAx n
    else s.noteAxCause n

/-! The axis at boundaries and at START. -/

/-- A command as a number; an infinite one lies beyond every limit that R250 clamps to. -/
def axCommand (w : Word) : Rat := if f32Finite w then f32 w else (if w.getLsbD 31 then -1 else 1) * 2 ^ 200

/-- The command at the boundary that opens a due stroke (R248, R250, R254, R265). -/
def State.takeAxCommand (s : State) (n : Nat) : State :=
  let id := axId n
  if s.cst id == csOff || s.cst id == csFault || s.inTest id || s.src id == 3 || s.homing n || (s.ax n).old.isSome then s
  else
    let forced := s.forcedOut id
    let inp := s.input id 0 0
    let s := match inp with | some i => s.noteInput id 0 i | none => s
    let how := if forced.isSome then 0 else match inp with
      | some i => if i.live then 0 else match (s.bind id 0).map bindFallback with | some 2 => 3 | some 0 => 1 | _ => 2
      | none => 0
    let v : Rat := match forced, inp with | some w, _ => axCommand w | none, some i => axCommand i.val | none, none => 0
    let s := s.modAx n fun a => { a with cmdHow := how, lim := 0 }
    if how = 3 then
      if s.axf n Reg.AX_STATUS_SAFESTOP then s else (s.setAxf n Reg.AX_STATUS_SAFESTOP true).safeStop n
    else
      let s := s.setAxf n Reg.AX_STATUS_SAFESTOP false
      if s.axVel n then
        let vmax := s.axRate n Reg.AX_VMAX
        let w := v * s.axSpu n
        let c := ratClamp (-vmax) vmax w
        let blocked := s.limitIn n c
        let fl := flIf (decide (w < -vmax) || (blocked && decide (c < 0))) FL_LIM_LO ||| flIf (decide (vmax < w) || (blocked && decide (0 < c))) FL_LIM_HI
        let turn := decide ((s.ax n).speed * c < 0)
        (s.modAx n fun a => { a with vcmd := if blocked then 0 else c, lim := fl, idle := false, turning := turn }).setAxf n Reg.AX_STATUS_REVERSING turn
      else
        let lo0 : Int := -(2 ^ 31 - 1)
        let hi0 : Int := 2 ^ 31 - 1
        let soft := decide (s.axPlo n < s.axPhi n) && s.axf n Reg.AX_STATUS_HOMED
        let lo := if soft then max lo0 (s.axMicro n (s.axPlo n)) else lo0
        let hi := if soft then min hi0 (s.axMicro n (s.axPhi n)) else hi0
        let t := s.axMicro n v
        let c := max lo (min hi t)
        let d := s.limitTarget n c
        let fl := flIf (decide (t < lo) || decide (c < d)) FL_LIM_LO ||| flIf (decide (hi < t) || decide (d < c)) FL_LIM_HI
        (s.modAx n fun a => { a with lim := fl }).setTarget n d (s.planNormal n)

/-- HOMEREQ_EDGE (R257): a rising edge seen at a boundary; a refused one counts. -/
def State.homeReqEdge (s : State) (n : Nat) : State :=
  let id := axId n
  match s.input id 1 0 with
  | none => s
  | some i =>
    let level := f32True i.val
    let was := (s.ax n).homeReq
    let s := (s.noteInput id 1 i).modAx n fun a => { a with homeReq := some level }
    if level && was == some false then
      let (c, s') := decideHomingGo n s
      if c == E_OK then s' else s.bump (axB n) Reg.AX_CNT3_HREFUSED
    else s

/-- Quality and flags of ports 0 and 1 (R266). -/
def State.axQual (s : State) (n : Nat) (port0 : Bool) : Qual × BitVec 12 :=
  let id := axId n
  if s.src id = 3 then (Q_SAFE, FL_TRIPPED)
  else if s.cst id == csFault || s.isolated 1 (8 + axBlk n) then (Q_BAD_HW, 0)
  else if s.axf n Reg.AX_STATUS_MSOFF then (Q_COMPLIANCE, 0)
  else if port0 && (s.homing n || s.axf n Reg.AX_STATUS_STALL || (s.axHmeth n != 0 && !s.axf n Reg.AX_STATUS_HOMED)) then (Q_UNCERTAIN, 0)
  else if (s.forcedOut id).isNone && (s.ax n).cmdHow != 0 then ((howQual (s.ax n).cmdHow).getD Q_SUBSTITUTED, 0)
  else (Q_GOOD, (if port0 then (s.ax n).lim else 0) ||| flIf (s.forcedOut id).isSome FL_FORCED)

/-- Publication at the boundary that closes a due stroke, with age 0 (R245, R266). -/
def State.publishAx (s : State) (n : Nat) : State :=
  let id := axId n
  let init := s.initFlag id
  let q0 := s.axQual n true
  let q1 := s.axQual n false
  let hw := s.src id != 3 && (s.cst id == csFault || s.isolated 1 (8 + axBlk n))
  let q2 := if s.axf n Reg.AX_STATUS_ENCERR then Q_BAD_SENSOR else if hw then Q_BAD_HW else Q_GOOD
  let s := s.hold id 0 ⟨toF32c ((s.axPos n : Rat) / (256 * s.axSpu n)), q0.1, q0.2 ||| init, 0⟩
  let s := s.hold id 1 ⟨toF32c ((s.ax n).speed / s.axSpu n), q1.1, q1.2 ||| init, 0⟩
  let s := if s.axEnc n then s.hold id 2 ⟨toF32c (s.encPos n / (256 * s.axSpu n)), q2, init, 0⟩ else s
  let s := s.hold id 3 ⟨BitVec.ofNat 32 (getField (s.reg (axB n + Reg.AX_STATUS_MOVING.off)) 0 19), Q_GOOD, init, 0⟩
  s.modCell id fun c => { c with first := false }

/-- A boundary at which the axis's stroke closes. -/
def State.closeAx (s : State) (n : Nat) : State :=
  let id := axId n
  if !s.dueClosing id || s.cst id == csOff then s
  else
    let s := if [csFault, csTest].contains (s.cst id) then s
      else (((s.evalEnd id false).startToRun id).modAx n fun a => { a with driven := true })
    s.publishAx n

/-- Currents that may come on at a boundary do (R261, R267). -/
def State.energiseAx (s : State) (n : Nat) : State :=
  if s.exists_ (axId n) && !s.axOff n && ((s.ax n).driven || s.src (axId n) != 0) then s.bridgesOn n else s

/-- Entry into START (R267). `old` is the image before, `sameRef` says that SPU, ENC and SUB 4 are unchanged. -/
def State.startAx (s : State) (id : Nat) (c : StartCause) (old : List Record) (sameRef : Bool) : State :=
  let n := cellNum id
  match c with
  | .fresh => (((s.modAx n AxSt.renewed).loadAxRegs n).latchEnc n).driveAx n
  | .changed =>
    let before := old.filter fun r => recType r == T_CELL && recTarget r == id
    -- the move in progress goes on to rest under the configuration that it had
    let s := s.modAx n fun a => { a with old := if a.speed = 0 then none else some (a.old.getD before) }
    let s := (s.failHoming n 6).modAx n fun a =>
      { a with homePending := false, rates := [], idle := true, cmdHow := 0, lim := 0, driven := false, turning := false }
    let s := s.modAx n fun a => { a with stopping := if a.speed = 0 then none else some (s.planNormal n) }
    let s := if sameRef then s else s.setAxf n Reg.AX_STATUS_HOMED false
    let s := if (s.ax n).old.isSome then s else (s.loadAxRegs n).latchIfUnhomed n
    s.driveAx n
  | _ => (((s.modAx n fun a => { a with driven := false, idle := true, homeReq := none }).latchIfUnhomed n).showLimits n).driveAx n

end Sys2Proof.Machine
end

