-- ==== Sys2Proof/Machine/FuncCells.lean ====
section
/-! DEFINITION. Function cells (R81–R84): the operations, their internal state and their evaluation. -/

namespace Sys2Proof.Machine

/-! CELL payload of a function cell (R81). -/
def fcOp (r : Record) : Nat := recByte r 0
def fcNin (r : Record) : Nat := recByte r 1
def fcInv (r : Record) : Bool := recByte r 2 % 2 == 1
def fcParam (r : Record) (i : Nat) : Word := recWord r (4 + 4 * i)

/-- EXTRA cycles of an operation (R82). -/
def fcExtra (op : Nat) : Nat :=
  if [0x03, 0x24, 0x26, 0x27, 0x28, 0x2B, 0x31, 0x32].contains op then 4
  else if [0x09, 0x0A, 0x0C, 0x0D].contains op then 8
  else if op = 0x04 ∨ op = 0x0B then 16
  else if op = 0x0E then 24
  else 0

/-- Cost of an evaluation in CLK_CELL cycles (R85). -/
def fcCost (r : Record) : Nat := 16 + 8 * fcNin r + fcExtra (fcOp r)

/-- Legal numbers of inputs and the ports of an operation (R82): least, most, ports. -/
def fcShape (op : Nat) : Option (Nat × Nat × Nat) :=
  if [0x01, 0x03, 0x07, 0x08, 0x09, 0x20, 0x21, 0x24].contains op then some (2, 16, 1)
  else if [0x02, 0x04, 0x22, 0x25, 0x29, 0x2B].contains op then some (2, 2, 1)
  else if [0x05, 0x06, 0x0B, 0x0C, 0x0D, 0x0E, 0x0F, 0x23, 0x26, 0x27, 0x28, 0x2A, 0x33].contains op then some (1, 1, 1)
  else if op = 0x0A ∨ op = 0x30 then some (3, 3, 1)
  else if op = 0x31 then some (1, 16, 1)
  else if op = 0x32 then some (1, 1, 4)
  else if op = 0x34 then some (0, 0, 1)
  else none

/-- What an evaluation gives: the words of the ports (`none`: an evaluation error, R84), quality, flags and the new internal state. -/
structure FcResult where
  vals : Option (List Word)
  qual : Qual
  flags : BitVec 12
  st : FcSt

/-- What an evaluation reads. -/
structure FcArgs where
  op : Nat
  inv : Bool
  p0 : Word
  p1 : Word
  /-- evaluation period Δ in seconds -/
  delta : Rat
  /-- points of a CHAR table -/
  points : List (Word × Word)
  ins : List Input

/-- The combined quality and passed flags of a list of inputs (R80). -/
def insQual (l : List Input) : Qual := qualCombine (l.map fun i => qualSeen i.qual)
def insFlags (l : List Input) : BitVec 12 := l.foldl (fun f i => f ||| flPassed i.flags) 0

/-- Exact values of inputs, `none` where one of them is no finite number. -/
def insVals (l : List Input) : Option (List Rat) := if l.all fun i => f32Finite i.val then some (l.map fun i => f32 i.val) else none

/-- Values of inputs, which may be infinite (a fallback value may); `none` where one of them is NaN. -/
def insExt (l : List Input) : Option (List Ext) := if l.any fun i => f32IsNaN i.val then none else some (l.map fun i => ext i.val)

/-- A published word: an infinite result is an evaluation error (R84). -/
def finiteWord (w : Word) : Option Word := if f32Finite w then some w else none

/-- A point of a table; a y that is no finite number has no value. -/
def tablePoint (p : Word × Word) : Rat × Option Rat := (f32x p.1, f32Fin p.2)

/-- Linear interpolation from point `a` on, clamping at the last point: value and flags. -/
def interpolateFrom (x : Rat) (a : Rat × Option Rat) : List (Rat × Option Rat) → Option Rat × BitVec 12
  | [] => (a.2, if x = a.1 then 0 else FL_LIM_HI)
  | b :: l =>
    if x = a.1 then (a.2, 0)
    else if x < b.1 then (a.2.bind fun ya => b.2.map fun yb => ya + (yb - ya) * (x - a.1) / (b.1 - a.1), 0)
    else interpolateFrom x b l

/-- Linear interpolation over the points of a table, clamping at the ends: value and flags (CHAR, R82). There is no value where a point that it takes has
none. -/
def interpolate (pts : List (Rat × Option Rat)) (x : Rat) : Option Rat × BitVec 12 :=
  match pts with
  | [] => (some 0, 0)
  | p :: rest => if x < p.1 then (p.2, FL_LIM_LO) else interpolateFrom x p rest

/-- Whole evaluations of a time parameter (R82): at least 1. -/
def fcTime (p : Word) (delta : Rat) : Nat := max 1 (evalCount (f32x p) delta)

/-- A numeric result over all the inputs. -/
def fcNum (a : FcArgs) (st : FcSt) (f : List Rat → Option Rat) : FcResult :=
  ⟨((insVals a.ins).bind f).bind fun q => (toF32 q).map fun w => [w], insQual a.ins, insFlags a.ins, st⟩

/-- A result that is kept as the internal y (LAG, RAMP, DBAND). -/
def fcKeep (a : FcArgs) (st : FcSt) (f : Rat → Rat → Rat) : FcResult :=
  match insVals a.ins with
  | some [x] =>
    match toF32 (if st.started then f x (f32 st.y) else x) with
    | some w => ⟨some [w], insQual a.ins, insFlags a.ins, { st with y := w, started := true }⟩
    | none => ⟨none, insQual a.ins, insFlags a.ins, st⟩
  | _ => ⟨none, insQual a.ins, insFlags a.ins, st⟩

/-- A logical result with INV (R81), kept as the internal `out`. -/
def fcLogic (a : FcArgs) (st : FcSt) (b : Bool) : FcResult :=
  ⟨some [f32OfBool (b != a.inv)], insQual a.ins, insFlags a.ins, { st with out := b, started := true }⟩

/-- A result by comparison over all the inputs, which may be infinite. -/
def fcPick (a : FcArgs) (st : FcSt) (f : List Ext → Option Ext) : FcResult :=
  ⟨(((insExt a.ins).bind f).bind Ext.rat?).bind fun q => (toF32 q).map fun w => [w], insQual a.ins, insFlags a.ins, st⟩

/-- Median of three. -/
def median3 (x y z : Ext) : Ext := (x.min y).max ((x.max y).min z)

/-- The one input where it is infinite. -/
def infInput (a : FcArgs) : Option Ext :=
  match a.ins with
  | [i] => if f32IsInf i.val then some (ext i.val) else none
  | _ => none

/-- The word of a result kept as the internal y, for an infinite input: `none` is an evaluation error. -/
def fcKeepInf (a : FcArgs) (st : FcSt) (y : Option Rat) : FcResult :=
  match (if st.started then y else none).bind toF32 with
  | some w => ⟨some [w], insQual a.ins, insFlags a.ins, { st with y := w }⟩
  | none => ⟨none, insQual a.ins, insFlags a.ins, st⟩

/-- CMP (R82): x0 against x1 ± P0; a comparison that has no answer leaves the result unchanged. -/
def fcCompare (x0 x1 p : Ext) (was : Bool) : Bool :=
  if ((x1.add p).map fun t => t.lt x0) == some true then true
  else if ((x1.add p.opp).map fun t => x0.lt t) == some true then false
  else was

/-- AVG and MED3 leave out the inputs whose raw quality is BAD (R82). -/
def fcMean (a : FcArgs) (st : FcSt) (median : Bool) : FcResult :=
  let good := a.ins.filter fun i => !qualBad i.raw
  let q := if good.length < a.ins.length then qualWorse (insQual good) Q_UNCERTAIN else insQual good
  let v :=
    match median, (insExt good).getD [] with
    | true, [x, y, z] => (median3 x y z).rat?
    | _, _ => (insVals good).bind fun l => if l.isEmpty then none else some (l.sum / l.length)
  ⟨v.bind fun q => (toF32 q).map fun w => [w], q, insFlags good, st⟩

/-- The operations of R82. -/
def fcOperate (a : FcArgs) (st : FcSt) : FcResult :=
  let b (i : Nat) : Bool := match a.ins[i]? with | some x => f32True x.val | none => false
  let bs := a.ins.map fun i => f32True i.val
  let rising := b 0 && !(if st.started then st.prev else b 0)
  let st := { st with prev := b 0 }
  match a.op with
  | 0x01 => fcNum a st fun l => some l.sum
  | 0x02 => fcNum a st fun l => match l with | [x, y] => some (x - y) | _ => none
  | 0x03 => fcNum a st fun l => some (l.foldl (· * ·) 1)
  | 0x04 => fcPick a st fun l =>
    match l with
    | [.fin x, .fin y] => if y = 0 then none else some (.fin (x / y))
    | [.fin _, _] => some (.fin 0)
    | _ => none
  | 0x05 => fcNum a st fun l => match l with | [x] => if f32Finite a.p0 && f32Finite a.p1 then some (f32 a.p0 * x + f32 a.p1) else none | _ => none
  | 0x06 =>
    match insExt a.ins with
    | some [x] =>
      let r := if x.lt (ext a.p0) then (a.p0, FL_LIM_LO) else if (ext a.p1).lt x then (a.p1, FL_LIM_HI) else ((a.ins.map Input.val).headD 0, 0)
      ⟨(finiteWord r.1).map fun w => [w], insQual a.ins, insFlags a.ins ||| r.2, st⟩
    | _ => ⟨none, insQual a.ins, insFlags a.ins, st⟩
  | 0x07 => fcPick a st fun l => match l with | x :: l => some (l.foldl Ext.min x) | [] => none
  | 0x08 => fcPick a st fun l => match l with | x :: l => some (l.foldl Ext.max x) | [] => none
  | 0x09 => fcMean a st false
  | 0x0A => fcMean a st true
  | 0x0B =>
    match insExt a.ins with
    | some [x] =>
      if x.lt (.fin 0) then ⟨some [0], qualWorse (insQual a.ins) Q_LOW_RANGE, insFlags a.ins, st⟩
      else ⟨x.rat?.map fun q => [f32Sqrt q], insQual a.ins, insFlags a.ins, st⟩
    | _ => ⟨none, insQual a.ins, insFlags a.ins, st⟩
  | 0x0C => fcKeep a st fun x y => if f32IsInf a.p0 then y else y + (x - y) * a.delta / (f32 a.p0 + a.delta)
  | 0x0D =>
    match infInput a with
    | some .pos => fcKeepInf a st (some (f32 st.y + f32x a.p0 * a.delta))
    | some _ => fcKeepInf a st (some (f32 st.y - f32x a.p1 * a.delta))
    | none => fcKeep a st fun x y => ratMin (y + f32x a.p0 * a.delta) (ratMax (y - f32x a.p1 * a.delta) x)
  | 0x0E =>
    match a.ins with
    | [i] =>
      if f32IsNaN i.val then ⟨none, insQual a.ins, insFlags a.ins, st⟩
      else
        -- an infinite input lies beyond the first or the last point
        let r := interpolate (a.points.map tablePoint) (f32x i.val)
        ⟨(r.1.bind toF32).map fun w => [w], insQual a.ins, insFlags a.ins ||| r.2, st⟩
    | _ => ⟨none, insQual a.ins, insFlags a.ins, st⟩
  | 0x0F =>
    match infInput a with
    | some _ => fcKeepInf a st (if f32IsInf a.p0 then some (f32 st.y) else none)
    | none => fcKeep a st fun x y => if f32x a.p0 < ratAbs (x - y) then x else y
  | 0x20 => fcLogic a st (bs.all id)
  | 0x21 => fcLogic a st (bs.any id)
  | 0x22 => fcLogic a st (b 0 != b 1)
  | 0x23 => fcLogic a st (!b 0)
  | 0x24 => fcLogic a st (decide (f32x a.p0 ≤ (bs.count true : Nat)))
  | 0x25 =>
    match insExt a.ins with
    | some [x, y] => fcLogic a st (fcCompare x y (ext a.p0) st.out)
    | _ => fcLogic a st st.out
  | 0x26 =>
    let n := if b 0 then min (st.count + 1) (fcTime a.p0 a.delta) else 0
    fcLogic a { st with count := n } (b 0 && decide (fcTime a.p0 a.delta ≤ n))
  | 0x27 =>
    let n := if b 0 then 0 else min (st.count + 1) (fcTime a.p0 a.delta)
    fcLogic a { st with count := n } (b 0 || (st.out && decide (n < fcTime a.p0 a.delta)))
  | 0x28 =>
    let n := if st.count = 0 then (if rising then fcTime a.p0 a.delta else 0) else st.count
    fcLogic a { st with count := n - 1 } (decide (0 < n))
  | 0x29 => fcLogic a st (if b 1 then false else b 0 || st.out)
  | 0x2A => fcLogic a st rising
  | 0x2B =>
    let n := if b 1 then 0 else if rising && decide ((st.count : Rat) < f32x a.p0) then st.count + 1 else st.count
    ⟨(toF32 (n : Nat)).map fun w => [if a.inv then f32OfBool (n = 0) else w], insQual a.ins, insFlags a.ins, { st with count := n }⟩
  | 0x30 =>
    match a.ins with
    | [x0, x1, x2] =>
      let c := if f32True x0.val then x1 else x2
      ⟨(finiteWord c.val).map fun w => [w], insQual [x0, c], insFlags [x0, c], st⟩
    | _ => ⟨none, insQual a.ins, insFlags a.ins, st⟩
  | 0x31 =>
    ⟨some [BitVec.ofNat 32 ((bs.zipIdx.map fun x => x.1.toNat * 2 ^ x.2).sum)], insQual a.ins, insFlags a.ins, st⟩
  | 0x32 =>
    let w := ((a.ins.map Input.val).headD 0).toNat
    ⟨some ((List.range 4).map fun k => f32OfBool (w / 2 ^ ((f32 a.p0).floor.toNat + k) % 2 == 1)), insQual a.ins, insFlags a.ins, st⟩
  | 0x33 =>
    match a.ins with
    | [x] => ⟨(finiteWord x.val).map fun w => [w], qualSeen x.qual, x.flags, st⟩
    | _ => ⟨none, insQual a.ins, insFlags a.ins, st⟩
  | 0x34 => ⟨(finiteWord a.p0).map fun w => [w], Q_GOOD, 0, st⟩
  | _ => ⟨none, insQual a.ins, insFlags a.ins, st⟩

/-- The points of a CHAR table: TABLE records hold three (x, y) pairs each (R82, R501). -/
def State.tablePoints (s : State) (id n : Nat) : List (Word × Word) :=
  (List.range n).map fun j =>
    let r := getRec s.img.active T_TABLE (j / 3) id
    (recWord r (8 * (j % 3)), recWord r (8 * (j % 3) + 4))

/-- The inputs of a function cell, resolved (R78). -/
def State.fcInputs (s : State) (id n : Nat) : List Input :=
  (List.range n).map fun i => (s.input id i (s.safeValue id)).getD ⟨0, Q_BAD_CONFIG, 0, false, Q_BAD_CONFIG, 65535⟩

/-- Entry into START of a function cell (R83, R106): internal state and parameters from the image. -/
def State.startFc (s : State) (id : Nat) : State :=
  let r := s.cfg id 0
  let b := cellBase id
  let s := ((s.wr b Reg.FC_OP_OP (fcOp r)).wr b Reg.FC_OP_NIN (fcNin r)).wr b Reg.FC_OP_OPT (recByte r 2)
  let s := ((s.wrw b Reg.FC_P0 (fcParam r 0)).wrw b Reg.FC_P1 (fcParam r 1)).wrw b Reg.FC_P2 (fcParam r 2)
  let s := (s.wrw b Reg.FC_P3 (fcParam r 3)).wr b Reg.FC_COST_CYCLES (fcCost r)
  s.modFc (cellNum id) fun _ => FcSt.init

/-- FUNCTION_CELL_EVALUATION (R82, R84, R94: a word of its state that cannot be read is an error too): the result is held for the next boundary. -/
def State.evalFc (s : State) (id : Nat) : State :=
  let r := s.cfg id 0
  let b := cellBase id
  let n := cellNum id
  let ins := s.fcInputs id (fcNin r)
  let p0 := s.rdw b Reg.FC_P0
  let a : FcArgs := { op := fcOp r, inv := fcInv r, p0 := p0, p1 := s.rdw b Reg.FC_P1, delta := s.delta id,
                      points := if fcOp r = 0x0E then s.tablePoints id (f32 p0).floor.toNat else [], ins := ins }
  let st := s.fc n
  let res := fcOperate a st
  let s := ins.zipIdx.foldl (fun s x => s.noteInput id x.2 x.1) s
  let init := flIf (s.cell id).first FL_INIT
  let unread := (s.cell id).unread
  let s := s.modCell id fun c => { c with first := false, unread := false }
  match (if unread then none else res.vals) with
  | some l =>
    let s := s.modFc n fun _ => { res.st with lastGood := l.head?, started := true }
    let s := l.zipIdx.foldl (fun s x => s.hold id x.2 ⟨x.1, res.qual, res.flags ||| init, 0⟩) s
    s.evalEnd id false
  | none =>
    let s := match st.lastGood with
      | some w => s.hold id 0 ⟨w, Q_HELD, init, 0⟩
      | none => s.hold id 0 ⟨recWord r 20, Q_SUBSTITUTED, init, 0⟩
    s.evalEnd id true

end Sys2Proof.Machine
end

