-- ==== Sys2Proof/Machine/Channels.lean ====
section
/-! DEFINITION. Universal channels (07): results, NE 43, comparators, output drive, compliance monitor, channel faults, HART and trims. -/

namespace Sys2Proof.Machine

/-! CELL payloads (R199). -/
def State.uc0 (s : State) (n : Nat) : Record := s.cfg (ucId n) 0
def State.ucFunc (s : State) (n : Nat) : Nat := recByte (s.uc0 n) 0
def State.ucRange (s : State) (n : Nat) : Nat := recByte (s.uc0 n) 1
def State.ucOpt (s : State) (n i : Nat) : Bool := recByte (s.uc0 n) 2 / 2 ^ i % 2 == 1
def State.ucNe43 (s : State) (n : Nat) : Bool := s.ucOpt n 1
def State.ucWave (s : State) (n : Nat) : Bool := s.ucOpt n 2
def State.ucTrimen (s : State) (n : Nat) : Bool := s.ucOpt n 3
def State.ucHart (s : State) (n : Nat) : Bool := s.ucOpt n 4
def State.ucWires (s : State) (n : Nat) : Nat := recByte (s.uc0 n) 2 / 32 % 4
def State.ucSafeMode (s : State) (n : Nat) : Nat := recByte (s.uc0 n) 4
def State.ucChar (s : State) (n : Nat) : Nat := recByte (s.uc0 n) 5
def State.ucNpts (s : State) (n : Nat) : Nat := recByte (s.uc0 n) 6
def State.ucEuLo (s : State) (n : Nat) : Rat := f32 (recWord (s.uc0 n) 8)
def State.ucEuHi (s : State) (n : Nat) : Rat := f32 (recWord (s.uc0 n) 12)
def State.ucSafeV (s : State) (n : Nat) : Rat := f32 (recWord (s.uc0 n) 16)
def State.ucCutoff (s : State) (n : Nat) : Rat := f32 (recWord (s.uc0 n) 20)

/-- A decimal number of the manual as a field compares with it (R498): n / 10^k. -/
def dec (n : Int) (k : Nat) : Rat := nearestF32 (mkRat n (10 ^ k))

/-- SUB 1, with its values where the record is absent (R199). -/
def State.uc1 (s : State) (n : Nat) : Option Record := findRec s.img.active T_CELL 1 (ucId n)
def State.ucAlarmLo (s : State) (n : Nat) : Rat := match s.uc1 n with | some r => f32 (recWord r 0) | none => dec 35 1
def State.ucAlarmHi (s : State) (n : Nat) : Rat := match s.uc1 n with | some r => f32 (recWord r 4) | none => dec 215 1
def State.ucLeadR (s : State) (n : Nat) : Rat := match s.uc1 n with | some r => f32 (recWord r 8) | none => 0
def State.ucCjFixed (s : State) (n : Nat) : Bool := match s.uc1 n with | some r => recByte r 12 == 1 | none => false
def State.ucCjFix (s : State) (n : Nat) : Rat := match s.uc1 n with | some r => f32 (recWord r 16) | none => 25
/-- SUB 2; where it is absent both comparators are disabled. -/
def State.uc2 (s : State) (n : Nat) : Record := s.cfg (ucId n) 2
def State.ucCmpEn (s : State) (n c : Nat) : Bool := recByte (s.uc2 n) 0 / 2 ^ c % 2 == 1
def State.ucCmpN (s : State) (n : Nat) : Nat := recByte (s.uc2 n) 1
def State.ucFailAct (s : State) (n c : Nat) : Bool := recByte (s.uc2 n) 2 / 2 ^ c % 2 == 1
/-- SUB 3. -/
def State.uc3 (s : State) (n : Nat) : Record := s.cfg (ucId n) 3
def State.ucMultidrop (s : State) (n : Nat) : Bool := s.ucHart n && recByte (s.uc3 n) 0 == 1
def State.ucNdev (s : State) (n : Nat) : Nat := recByte (s.uc3 n) 1
def State.ucBurst (s : State) (n : Nat) : Bool := recByte (s.uc3 n) 7 == 1

def State.ucOutput (s : State) (n : Nat) : Bool := 5 ≤ s.ucFunc n

/-! Ranges (R200, R210), in V, mA or °C. -/

/-- Ends of the nominal range. -/
def ucNominal (func range : Nat) : Rat × Rat :=
  match func, range with
  | 1, 0 => (-dec 1 1, dec 1 1)
  | 1, 1 => (0, 10)
  | 1, _ => (-10, 10)
  | 5, 0 => (0, 10)
  | 5, _ => (-10, 10)
  | _, 0 => (0, 20)
  | _, _ => (4, 20)

/-- Width of the nominal range; for sensors of temperature the width of the valid band takes no part (R222 gives °C). -/
def ucSpan (func range : Nat) : Rat := (ucNominal func range).2 - (ucNominal func range).1

/-- Valid band. A thermocouple's is the range of its type in IEC 60584-1. -/
def ucBand (func range : Nat) : Rat × Rat :=
  match func, range with
  | 1, 0 => (-dec 102 3, dec 102 3)
  | 1, 1 => (-dec 2 1, dec 102 1)
  | 1, _ => (-dec 102 1, dec 102 1)
  | 2, 0 => (0, dec 205 1)
  | 2, _ => (dec 38 1, dec 205 1)
  | 3, _ => (-200, 850)
  | 4, t => Config.tcBand t
  | 5, 0 => (0, dec 102 1)
  | 5, _ => (-dec 102 1, dec 102 1)
  | _, 0 => (0, dec 205 1)
  | _, _ => (dec 38 1, dec 205 1)

/-- Measurable or drivable span, for a reference value (R222). -/
def ucMeasurable (func range : Nat) : Rat × Rat :=
  match func, range with
  | 1, 0 => (-dec 110 3, dec 110 3)
  | 1, 1 => (-dec 5 1, 11)
  | 1, _ => (-11, 11)
  | 2, _ => (0, 24)
  | 6, _ => (0, 24)
  | f, r => ucBand f r

/-- Drive band of an output (R210). -/
def State.ucDriveBand (s : State) (n : Nat) : Rat × Rat :=
  if s.ucFunc n = 5 then ucBand 5 (s.ucRange n)
  else if s.ucRange n = 0 then (0, dec 205 1)
  else if s.ucNe43 n then (dec 38 1, dec 205 1)
  else (4, 20)

/-- Key of the user trim of a channel, function and range (R222). -/
def State.trimKey (s : State) (n : Nat) : Nat := n * 64 + s.ucFunc n * 8 + s.ucRange n

/-- UC.TRIM.GAIN and OFFS take the stored trim of the present function and range at a boundary, ACTIVE where TRIMEN applies it (R222, R223). -/
def State.loadTrim (s : State) (n : Nat) : State :=
  let b := cellBase (ucId n)
  match Store.get none s.jrn.trims (s.trimKey n) with
  | some (g, o) => ((s.wrw b Reg.UC_TRIM_GAIN g).wrw b Reg.UC_TRIM_OFFS o).setFlag b Reg.UC_TRIM_STAT_ACTIVE (s.ucTrimen n)
  | none => ((s.wrw b Reg.UC_TRIM_GAIN f32One).wrw b Reg.UC_TRIM_OFFS 0).setFlag b Reg.UC_TRIM_STAT_ACTIVE false

/-- The trim in force applied to an electrical value. -/
def State.trimmed (s : State) (n : Nat) (e : Rat) : Rat :=
  let b := cellBase (ucId n)
  if s.flag b Reg.UC_TRIM_STAT_ACTIVE then f32 (s.rdw b Reg.UC_TRIM_GAIN) * e + f32 (s.rdw b Reg.UC_TRIM_OFFS) else e

/-! Output drive (R209, R210, R220). -/

/-- Electrical value of a value in engineering units (R210). -/
def State.ucElectrical (s : State) (n : Nat) (v : Rat) : Rat :=
  let (lo, hi) := ucNominal (s.ucFunc n) (s.ucRange n)
  lo + (v - s.ucEuLo n) / (s.ucEuHi n - s.ucEuLo n) * (hi - lo)

/-- Engineering value of an electrical value. -/
def State.ucEngineering (s : State) (n : Nat) (e : Rat) : Rat :=
  let (lo, hi) := ucNominal (s.ucFunc n) (s.ucRange n)
  s.ucEuLo n + (e - lo) / (hi - lo) * (s.ucEuHi n - s.ucEuLo n)

/-- The safe value as an electrical value (R209): SAFEV, or the alarm current of SAFEMODE. -/
def State.ucSafeElectrical (s : State) (n : Nat) : Rat :=
  match s.ucSafeMode n with
  | 1 => s.ucAlarmLo n
  | 2 => s.ucAlarmHi n
  | _ => s.ucElectrical n (s.ucSafeV n)

/-- A command clamped to the drive band (R210). -/
def State.ucClamped (s : State) (n : Nat) (v : Rat) : Rat × BitVec 12 :=
  let (lo, hi) := s.ucDriveBand n
  let e := s.ucElectrical n v
  if e < lo then (lo, FL_LIM_LO) else if hi < e then (hi, FL_LIM_HI) else (e, 0)

/-- What drives an output: `none` off, `some` the electrical value before trim with its limit flags (R87, R91, R209, R210, R220).
A channel in FAULT drives only a safe value, where its stage is intact. -/
def State.ucGoal (s : State) (n : Nat) : Option (Rat × BitVec 12) :=
  let id := ucId n
  let st := s.uc n
  let off := s.fieldOff id || s.cst id == csOff || st.stageBad || (s.cst id == csFault && s.src id != 3)
  if off then none
  else
    match s.safeAction id, s.forcedOut id with
    | some 0, _ => some (s.ucSafeElectrical n, 0)
    | some _, _ => none
    | none, some v => some (s.ucClamped n (f32 v))
    | none, none =>
      if s.ucFunc n = 6 && s.ucMultidrop n then some (4, 0)
      else if st.cmdHow = 3 then some (s.ucSafeElectrical n, 0)
      else some (s.ucClamped n (f32 st.cmd))

/-- A multidrop output whose own source drives it: its DAC command is parked at 4.000 mA (R220). -/
def State.ucParked (s : State) (n : Nat) : Bool :=
  s.ucFunc n == 6 && s.ucMultidrop n && (s.safeAction (ucId n)).isNone && (s.forcedOut (ucId n)).isNone

/-- The cell's own source has not yet driven since START: the output waits for the first evaluation (R433, R54). -/
def State.ucWaits (s : State) (n : Nat) : Bool :=
  !(s.uc n).driven && s.src (ucId n) == 0

/-- The stage follows what drives it: UC.DRIVE and UC.RAW (R223). TEST holds the outputs (R91). -/
def State.driveUc (s : State) (n : Nat) : State :=
  let b := cellBase (ucId n)
  if !s.ucOutput n || !s.exists_ (ucId n) then s
  else
    match s.ucGoal n with
    | none => ((s.wrw b Reg.UC_DRIVE 0).wrw b Reg.UC_RAW 0).modUc n fun u => { u with on := false, lim := 0 }
    | some (e, fl) =>
      if s.ucWaits n || (s.inTest (ucId n) && s.src (ucId n) == 0) then s
      else ((s.wrw b Reg.UC_DRIVE (toF32c e)).wrw b Reg.UC_RAW (toF32c (if s.ucParked n then e else s.trimmed n e))).modUc n fun u => { u with on := true, lim := fl }

/-- The command of the image of the boundary that opens a due stroke (R203, R210). -/
def State.takeUcCommand (s : State) (n : Nat) : State :=
  let id := ucId n
  if !s.ucOutput n || s.cst id == csOff || s.cst id == csFault then s
  else
    match s.input id 0 (s.safeValue id) with
    | none => s
    | some i =>
      let fb := (s.bind id 0).map bindFallback
      let how := if i.live then 0 else if fb = some 0 then 1 else if fb = some 2 then 3 else 2
      (s.noteInput id 0 i).modUc n fun u => { u with cmd := i.val, cmdHow := how }

/-! Results (R206–R208, R214, R215). -/

/-- Runs of consecutive results that show each of the four conditions. -/
def bumpRuns (conds : List Bool) (runs : List Nat) : List Nat :=
  (conds.zip runs).map fun p => if p.1 then p.2 + 1 else 0

/-- Conditions of one result: open, short, low and high failure signal (R208, R214). `raw` is e before trim, `e` after it. -/
def State.ucConds (s : State) (n : Nat) (raw e : Rat) (openLead atLimit : Bool) : List Bool :=
  match s.ucFunc n with
  | 2 =>
    [s.ucRange n == 1 && !s.ucNe43 n && decide (e < 1), s.ucOpt n 0 && atLimit,
     s.ucNe43 n && decide (e ≤ dec 36 1), s.ucNe43 n && decide (21 ≤ e)]
  | 3 =>
    let k : Rat := if s.ucRange n = 0 then 1 else 10
    [openLead || decide (400 * k < raw), decide (raw < 15 * k), false, false]
  | _ => [false, false, false, false]

/-- The result is a good one, toward the clearing of a sensor fault: with NE 43, inside the measuring band (R208). -/
def State.ucGoodResult (s : State) (n : Nat) (e : Rat) (conds : List Bool) : Bool :=
  !conds.any id && (!s.ucNe43 n || (decide (dec 38 1 ≤ e) && decide (e ≤ dec 205 1)))

/-- A sensor fault enters (R207): counted once, the value stays. -/
def State.enterSensor (s : State) (n : Nat) : State :=
  if (s.uc n).sensorBad then s
  else (s.bump (cellBase (ucId n)) Reg.UC_CNT_SENSOR).modUc n fun u => { u with sensorBad := true, goodRun := 0 }

def State.leaveSensor (s : State) (n : Nat) : State :=
  let b := cellBase (ucId n)
  (((s.setFlag b Reg.UC_STATUS_OPEN false).setFlag b Reg.UC_STATUS_SHORT false).wr b Reg.UC_STATUS_NE43ST 0).modUc n
    fun u => { u with sensorBad := false, faultRuns := [0, 0, 0, 0], goodRun := 0 }

/-- Detection and clearing of the sensor faults that results show. -/
def State.trackSensor (s : State) (n : Nat) (raw e : Rat) (openLead atLimit : Bool) : State :=
  let b := cellBase (ucId n)
  let conds := s.ucConds n raw e openLead atLimit
  let good := s.ucGoodResult n e conds
  let s := s.modUc n fun u => { u with faultRuns := bumpRuns conds u.faultRuns, goodRun := if good then u.goodRun + 1 else 0 }
  let hit (i : Nat) : Bool := 2 ≤ (s.uc n).faultRuns.getD i 0
  let any := hit 0 || hit 1 || hit 2 || hit 3
  let s := s.when (hit 0) fun s => s.setFlag b Reg.UC_STATUS_OPEN true
  let s := s.when (hit 1) fun s => s.setFlag b Reg.UC_STATUS_SHORT true
  let s := s.when (hit 2) fun s => s.wr b Reg.UC_STATUS_NE43ST 1
  let s := s.when (hit 3) fun s => s.wr b Reg.UC_STATUS_NE43ST 2
  let s := s.when any fun s => s.enterSensor n
  -- a thermocouple's open loop clears at its next test (R214)
  if (s.uc n).sensorBad && s.ucFunc n != 4 && 8 ≤ (s.uc n).goodRun then s.leaveSensor n else s

/-- One comparator at a result (R215): its state and its run. -/
def comparator (n : Nat) (active toActive toInactive : Bool) (run : Nat) : Bool × Nat :=
  if if active then toInactive else toActive then (if n ≤ run + 1 then (!active, 0) else (active, run + 1)) else (active, 0)

/-- Both comparators at a result of port 0 (R215). -/
def State.compareUc (s : State) (n : Nat) (v : Rat) : State :=
  let id := ucId n
  let b := cellBase id
  if s.cst id == csFault then s
  else if s.cst id == csOff then (s.setComparator n 0 false).setComparator n 1 false
  else
    let r := s.uc2 n
    let clo := f32 (recWord r 4)
    let chi := f32 (recWord r 8)
    let hys := f32 (recWord r 12)
    let bad := (s.uc n).sensorBad
    let one (c : Nat) (fld : Field) (toA toI : Bool) (run : Nat) : Bool × Nat :=
      if !s.ucCmpEn n c then (false, 0)
      else if bad then (s.flag b fld || s.ucFailAct n c, 0)
      else comparator (s.ucCmpN n) (s.flag b fld) toA toI run
    let lo := one 0 Reg.UC_STATUS_CMPLO (v < clo) (clo + hys ≤ v) (s.uc n).loRun
    let hi := one 1 Reg.UC_STATUS_CMPHI (chi < v) (v ≤ chi - hys) (s.uc n).hiRun
    ((s.setComparator n 0 lo.1).setComparator n 1 hi.1).modUc n fun u => { u with loRun := lo.2, hiRun := hi.2 }

/-- The characteristic of a fraction or temperature (R206). -/
def State.characterise (s : State) (n : Nat) (x : Rat) : Rat × BitVec 12 :=
  match s.ucChar n with
  | 1 => (if x < s.ucCutoff n then 0 else f32 (f32Sqrt x), 0)
  | 2 =>
    let r := interpolate ((s.tablePoints (ucId n) (s.ucNpts n)).map tablePoint) x
    -- a point that is no finite number: what it gives is a free value (R77)
    (r.1.getD (f32 (f32Beyond x)), r.2)
  | _ => (x, 0)

/-- The cold-junction temperature used, and whether the sensor failed (R199, R214). -/
def State.coldJunction (s : State) (n : Nat) (cj : Word) : Rat × Bool :=
  if s.ucCjFixed n then (s.ucCjFix n, false)
  else if !f32Finite cj || f32 cj < -40 || 100 < f32 cj then (s.ucCjFix n, true)
  else (f32 cj, false)

/-- An input result (R206, R207). -/
def State.inputResult (s : State) (n : Nat) (ew aux cj : Word) (openLead atLimit : Bool) : State :=
  let id := ucId n
  let b := cellBase id
  let func := s.ucFunc n
  let (cjT, cjBad) := s.coldJunction n cj
  let r0 := f32 ew
  let raw : Rat := if func = 3 then Config.sensorTemp 3 (s.ucRange n) (if s.ucWires n = 0 then r0 - s.ucLeadR n else r0) 0
    else if func = 4 then Config.sensorTemp 4 (s.ucRange n) r0 cjT else r0
  let e := s.trimmed n raw
  let s := s.setFlag b Reg.UC_STATUS_CJBAD (func == 4 && cjBad)
  let s := s.wrw b Reg.UC_RAW (toF32c raw)
  let s := s.modUc n fun u => { u with raws := (toF32c raw :: u.raws).take 16 }
  let s := s.trackSensor n r0 e openLead atLimit
  let auxW : Word := match func with
    | 3 => if s.ucWires n = 0 then 0 else aux
    | 4 => toF32c cjT
    | _ => ew
  let bad := (s.uc n).sensorBad
  let (lo, hi) := ucBand func (s.ucRange n)
  let c := ratClamp lo hi e
  let fieldV : Rat × BitVec 12 :=
    if func = 3 ∨ func = 4 then (if s.ucChar n = 2 then s.characterise n c else (c, 0))
    else
      let (a, z) := ucNominal func (s.ucRange n)
      let f := s.characterise n ((c - a) / (z - a))
      (s.ucEuLo n + f.1 * (s.ucEuHi n - s.ucEuLo n), f.2)
  let uncertain := s.flag b Reg.UC_STATUS_CJBAD || s.flag b Reg.UC_STATUS_FCALBAD
  let res : Word × Qual × BitVec 12 :=
    if bad then ((s.uc n).value, Q_BAD_SENSOR, flKept (s.uc n).flags)
    else if s.ucMultidrop n then (toF32c e, Q_UNCERTAIN, 0)
    else (toF32c fieldV.1, if e < lo then Q_LOW_RANGE else if hi < e then Q_HIGH_RANGE else if uncertain then Q_UNCERTAIN else Q_GOOD, fieldV.2)
  let s := s.modUc n fun u => { u with value := res.1, qual := res.2.1, flags := res.2.2, aux := auxW, fresh := true, since := true, reported := true, waiting := [] }
  s.compareUc n (f32 res.1)

/-- An output's readback result (R212, R214): the measured electrical value as engineering value; an open loop clears after eight good results. -/
def State.readbackResult (s : State) (n : Nat) (ew : Word) : State :=
  let good := decide (dec 2 1 ≤ f32 ew) || !s.flag (cellBase (ucId n)) Reg.UC_STATUS_HDRLOW
  let v := toF32c (s.ucEngineering n (f32 ew))
  let s := s.modUc n fun u => { u with goodRun := if good then u.goodRun + 1 else 0 }
  let s := if (s.uc n).sensorBad && 8 ≤ (s.uc n).goodRun then s.leaveSensor n else s
  let s := s.modUc n fun u => { u with value := v, qual := Q_GOOD, aux := ew, fresh := true, since := true, reported := true, waiting := [] }
  s.compareUc n (f32 v)

/-- Result period of a universal channel in nanoseconds, by RATE (R201). -/
def ratePeriodNs (rate : Nat) : Nat :=
  match rate with
  | 0 => 100000000
  | 1 => 50000000
  | 2 => 20000000
  | 3 => 10000000
  | 4 => 2500000
  | 5 => 1000000
  | 6 => 500000
  | _ => 250000

/-- The sampling period of a result delivered now began before the last step of the time base: it has been abandoned (R202, R346). -/
def State.ucAbandoned (s : State) (n : Nat) : Bool :=
  let p := max 1 (ratePeriodNs (recByte (s.uc0 n) 3))
  s.time.steppedTo.any fun t => decide ((s.nowNs - 20000) / p * p < t + p)

/-- CONVERTER_RESULT (R202, R206): `e` is the result after factory calibration in V, mA, Ω or mV, or an output's readback in V or mA; `aux` the lead
resistance, `cj` the cold-junction reading; `openLead` and `atLimit` what the terminals show of R214. -/
def execConverterResult (uc : Fin 32) (e aux cj : Word) (openLead atLimit : Bool) (s : State) : Host.Outcome State Fault Refusal :=
  done <|
    let n := uc.val
    if !s.fieldUp || !s.exists_ (ucId n) || s.cst (ucId n) == csFault || s.ucAbandoned n then s
    else if s.ucOutput n then s.readbackResult n e
    else s.inputResult n e aux cj openLead atLimit

/-- BURN_OUT_TEST (R214): a thermocouple loop above 10 kΩ is open until the next test passes. -/
def execBurnOutTest (uc : Fin 32) (isOpen : Bool) (s : State) : Host.Outcome State Fault Refusal :=
  done <|
    let n := uc.val
    if !s.fieldUp || !s.exists_ (ucId n) || s.ucFunc n != 4 || s.cst (ucId n) == csFault then s
    else if isOpen then
      ((s.setFlag (cellBase (ucId n)) Reg.UC_STATUS_OPEN true).enterSensor n).modUc n fun u => { u with qual := Q_BAD_SENSOR }
    else if (s.uc n).sensorBad then s.leaveSensor n else s

/-- REFERENCE_SELF_CHECK (R214): a reference off by more than 0.05 % discards the result, so that the ports keep what they published last; HELD; a
non-isolating cell error. -/
def execReferenceSelfCheck (uc : Fin 32) (ok : Bool) (s : State) : Host.Outcome State Fault Refusal :=
  done <|
    let n := uc.val
    if !s.fieldUp || !s.exists_ (ucId n) || ok || s.cst (ucId n) == csFault || s.cst (ucId n) == csOff then s
    else
      let last (port : Nat) (w : Word) : Word := ((Store.get none s.fab.ports (ucId n * 16 + port)).map SigWord.val).getD w
      ((s.modUc n fun u => { u with fresh := false, qual := Q_HELD, value := last 0 u.value, aux := last 1 u.aux }).evalEnd (ucId n) true).driveUc n

/-! Compliance monitor (R213) and output faults (R214). -/

/-- COMPLIANCE_SAMPLE (R213): HDRLOW, and the shortfall of more than 0.1 % of span. -/
def execComplianceSample (uc : Fin 32) (hdrLow : Bool) (readback : Word) (s : State) : Host.Outcome State Fault Refusal :=
  done <|
    let n := uc.val
    let b := cellBase (ucId n)
    if !s.fieldUp || !s.exists_ (ucId n) || !s.ucOutput n then s
    else
      let short := decide (mkRat 1 1000 * ucSpan (s.ucFunc n) (s.ucRange n) < ratAbs (f32 readback - f32 (s.rdw b Reg.UC_RAW)))
      (s.setFlag b Reg.UC_STATUS_HDRLOW hdrLow).modUc n fun u => { u with shortfall := short, readback := readback }

/-- COMPLIANCE_ENTRY (R213): HDRLOW and a shortfall have held together for 5 ms; offered to the recorder (R396 SRC 7). -/
def execComplianceEntry (uc : Fin 32) (s : State) : Host.Outcome State Fault Refusal :=
  done <|
    let n := uc.val
    let b := cellBase (ucId n)
    if s.exists_ (ucId n) && s.ucOutput n && !s.flag b Reg.UC_STATUS_COMPL && s.flag b Reg.UC_STATUS_HDRLOW && (s.uc n).shortfall then
      let d := (f32 (s.uc n).readback - f32 (s.rdw b Reg.UC_RAW)) / ucSpan (s.ucFunc n) (s.ucRange n) * 100
      ((s.setFlag b Reg.UC_STATUS_COMPL true).bump b Reg.UC_CNT_COMPLS).occur 7 n d (keyOfCell (ucId n)) 0
    else s

/-- COMPLIANCE_EXIT (R213): 20 ms without a shortfall. -/
def execComplianceExit (uc : Fin 32) (s : State) : Host.Outcome State Fault Refusal :=
  done <|
    let b := cellBase (ucId uc.val)
    if s.flag b Reg.UC_STATUS_COMPL && !(s.uc uc.val).shortfall then s.setFlag b Reg.UC_STATUS_COMPL false else s

/-- OUTPUT_OPEN_LOOP (R214): HDRLOW and readback below 0.2 mA with a command of at least 1 mA, for 10 ms. The command is kept. -/
def execOutputOpenLoop (uc : Fin 32) (s : State) : Host.Outcome State Fault Refusal :=
  done <|
    let n := uc.val
    let b := cellBase (ucId n)
    if s.exists_ (ucId n) && s.ucFunc n == 6 && s.flag b Reg.UC_STATUS_HDRLOW && decide (1 ≤ f32 (s.rdw b Reg.UC_DRIVE)) then
      (s.setFlag b Reg.UC_STATUS_OPEN true).enterSensor n
    else s

/-- OUTPUT_STAGE_FAULT (R214): readback off by more than 2 % of span with HDRLOW clear for 20 ms; isolating. -/
def execOutputStageFault (uc : Fin 32) (s : State) : Host.Outcome State Fault Refusal :=
  done <|
    let n := uc.val
    if s.exists_ (ucId n) && s.ucOutput n && !s.flag (cellBase (ucId n)) Reg.UC_STATUS_HDRLOW then
      ((s.modUc n fun u => { u with stageBad := true }).isolateCell (ucId n) false).driveUc n
    else s

/-- CHANNEL_SUPPLY_FAILURE (R214): the isolated supply, or the stage's temperature, goes out of tolerance (`f.present`), which isolates the channel, or comes
back into it, from where the cause is absent (R91). -/
def execChannelSupplyFailure (uc : Fin 32) (f : SupplyFault) (s : State) : Host.Outcome State Fault Refusal :=
  done <|
    let n := uc.val
    let id := ucId n
    if !s.exists_ id || (f.overTemp && !s.ucOutput n) then s
    else if f.present then ((s.modUc n fun u => { u with stageBad := true }).isolateCell id true).driveUc n
    else s.when (s.cst id == csFault && (s.cell id).cause && !s.startFailed id) fun s => s.setCause id false

/-! HART (R218–R221). -/

def State.hartActive (s : State) (n dev : Nat) : Bool :=
  s.exists_ (ucId n) && s.ucHart n && dev < s.ucNdev n && s.cst (ucId n) != csOff && s.fieldUp && s.dutyUp 3

/-- HART_POLL (R218): Command 3, after Command 0 at START and after a failure to answer. -/
def execHartPoll (uc : Fin 32) (dev : Fin 4) (s : State) : Host.Outcome State Fault Refusal :=
  done <|
    if s.hartActive uc.val dev.val then
      let s := s.when (!(s.uc uc.val).ident.getD dev.val false) fun s =>
        (s.emit (.hart uc.val dev.val 0 [])).modUc uc.val fun u => { u with ident := u.ident.set dev.val true }
      s.emit (.hart uc.val dev.val 3 [])
    else s

/-- The HART ports that a device feeds: index into ports 2–5, and which variable. -/
def State.hartFeeds (s : State) (n dev : Nat) : List (Nat × Nat) :=
  if s.ucMultidrop n then [(dev, 0)] else if dev = 0 then [(0, 0), (1, 1), (2, 2), (3, 3)] else []

/-- HART_REPLY (R219): values and qualities of the ports whose variable the reply carries. -/
def execHartReply (uc : Fin 32) (dev : Fin 4) (r : HartReply) (s : State) : Host.Outcome State Fault Refusal :=
  done <|
    let n := uc.val
    if !s.hartActive n dev.val || (r.burst && !s.ucBurst n) then s
    else
      let s := s.bumpBy (cellBase (ucId n)) Reg.UC_HCNT_COMMERR r.badFrames.toNat
      let s := s.when (!r.burst) fun s => s.modUc n fun u => { u with miss := u.miss.set dev.val 0 }
      (s.hartFeeds n dev.val).foldl (fun s pv =>
        match r.vars.getD pv.2 none with
        | none => s
        | some w =>
          let bad := r.malfunction || !f32Finite w
          let q := if bad then Q_BAD_SENSOR else if (if pv.1 = 0 then r.pvOutOfLimits else r.nonPvOutOfLimits) then Q_UNCERTAIN else Q_GOOD
          s.modUc n fun u =>
            let old : Word := match u.hartPorts.getD pv.1 none with | some x => x.val | none => 0
            { u with hartPorts := u.hartPorts.set pv.1 (some ⟨if f32Finite w then w else old, q, 0, 0⟩), hartFresh := u.hartFresh.set pv.1 true }) s

/-- HART_NO_REPLY (R219): the first and second consecutive misses give HELD, the third BAD_COMM. -/
def execHartNoReply (uc : Fin 32) (dev : Fin 4) (badFrames : BitVec 2) (s : State) : Host.Outcome State Fault Refusal :=
  done <|
    let n := uc.val
    if !s.hartActive n dev.val then s
    else
      let s := (s.bump (cellBase (ucId n)) Reg.UC_HCNT_NORESP).bumpBy (cellBase (ucId n)) Reg.UC_HCNT_COMMERR badFrames.toNat
      let m := (s.uc n).miss.getD dev.val 0 + 1
      let s := s.modUc n fun u => { u with miss := u.miss.set dev.val m, ident := u.ident.set dev.val false }
      let q := if m < 3 then Q_HELD else Q_BAD_COMM
      (s.hartFeeds n dev.val).foldl (fun s pv => s.modUc n fun u =>
        { u with hartPorts := u.hartPorts.set pv.1 (some { (u.hartPorts.getD pv.1 none).getD SigWord.fresh with qual := q }),
                 hartFresh := u.hartFresh.set pv.1 false }) s

/-- Bytes of a list of words, little-endian. -/
def wordBytes (ws : List Word) : List Byte :=
  ws.flatMap fun w => (List.range 4).map fun i => BitVec.ofNat 8 (w.toNat / 256 ^ i)

/-- A word of four bytes of a list, little-endian. -/
def bytesWord (bs : List Byte) (i : Nat) : Word :=
  BitVec.ofNat 32 ((List.range 4).map fun k => (bs.getD (4 * i + k) 0).toNat * 256 ^ k).sum

/-- An accepted request is sent as CP3 carries HART (R190, R221, R504). -/
def State.sendHart (s : State) (n : Nat) : State :=
  match (s.uc n).hartDue with
  | some (dev, cmd, bytes) => if s.dutyUp 3 then (s.emit (.hart n dev cmd bytes)).modUc n fun u => { u with hartDue := none } else s
  | none => s

/-- R221, R223: a write of HART.REQ and HART.DATA in one transaction; without GO it changes the fields only. -/
def decideHartRequest (n : Nat) (req : Option Word) (data : List (Fin 8 × Word)) (s : State) : Code × State :=
  let b := cellBase (ucId n)
  let busy := s.rd b Reg.HART_RSP_STATE = 1
  let put (s : State) : State :=
    let s := data.foldl (fun s d => s.setReg (b + 0x68 + 4 * d.1.val) d.2) s
    match req with
    | some w => s.setReg (b + 0x60) (BitVec.ofNat 32 (getField w 0 24))
    | none => s
  if !s.exists_ (ucId n) then (E_STATE, s)
  else
    match req with
    | none => if busy then (E_BUSY, s) else (E_OK, put s)
    | some w =>
      let dev := getField w 16 2
      let len := getField w 18 6
      let badField := decide (s.ucNdev n ≤ dev ∨ 32 < len ∨ getField w 24 7 ≠ 0)
      if getField w 31 1 = 0 then
        if badField then (E_RANGE, s) else if busy && !data.isEmpty then (E_BUSY, s) else (E_OK, put s)
      else if !s.ucHart n then (E_ACCESS, s)
      else if !s.mstIn [stReady, stRun, stService] then (E_STATE, s)
      else if busy then (E_BUSY, s)
      else if badField then (E_RANGE, s)
      else
        let s := (put s).wr b Reg.HART_RSP_STATE 1
        let bytes := (wordBytes ((List.range 8).map fun i => s.reg (b + 0x68 + 4 * i))).take len
        (E_OK, (s.modUc n fun u => { u with hartDue := some (dev, getField w 0 16, bytes) }).sendHart n)

/-- HART_REQUEST (R221). -/
def execHartRequest (p : Port) (uc : Fin 32) (req : Word) (data : List (Fin 8 × Word)) (s : State) : Host.Outcome State Fault Refusal :=
  command p (decideHartRequest uc.val (some req) data) s

/-- HART_PASS_THROUGH_COMPLETE (R221): DONE with the response, or FAILED after three unanswered attempts; frames that came with an error count (R223). -/
def execHartPassThroughComplete (uc : Fin 32) (frames : HartFrames) (rc dstat : Byte) (data : List Byte) (s : State) :
    Host.Outcome State Fault Refusal :=
  done <|
    let b := cellBase (ucId uc.val)
    if s.rd b Reg.HART_RSP_STATE ≠ 1 ∨ !s.dutyUp 3 then s
    else
    let s := s.bumpBy b Reg.UC_HCNT_COMMERR frames.bad.toNat
    if frames.answered then
      let d := data.take 32
      let s := (List.range 8).foldl (fun s i => s.setReg (b + 0x68 + 4 * i) (bytesWord d i)) s
      let s := (s.wr b Reg.HART_RSP_STATE 2).wr b Reg.HART_RSP_LEN d.length
      (s.wr b Reg.HART_RSP_RC rc.toNat).wr b Reg.HART_RSP_DSTAT dstat.toNat
    else s.wr b Reg.HART_RSP_STATE 3

/-! Trims (R222). -/

/-- Operations of UC.TRIM.CTRL:OP. -/
inductive TrimOp where
  | nop | caplo | caphi | apply | clear | discard
  deriving DecidableEq, Repr

/-- Gain and offset that APPLY computes from both points; `none` where an output's line has no gain. -/
def State.trimOf (s : State) (n : Nat) (lo hi : Word × Word) : Option (Rat × Rat) :=
  let x0 := f32 lo.1
  let x1 := f32 hi.1
  let a := (f32 hi.2 - f32 lo.2) / (x1 - x0)
  let b := f32 lo.2 - a * x0
  if s.ucOutput n then (if a = 0 then none else some (1 / a, -b / a)) else some (a, b)

/-- The rows of R222 before the journal write: a code, or `none` for OK so far. -/
def State.trimCheck (s : State) (p : Port) (n : Nat) (op : TrimOp) : Option Code :=
  let b := cellBase (ucId n)
  let id := ucId n
  let cap := op = .caplo ∨ op = .caphi
  let temp := s.ucFunc n = 3 ∨ s.ucFunc n = 4
  if op = .nop then none
  else if p ≠ .service then some E_ACCESS
  else if s.mst ≠ stService then some E_STATE
  else if s.cst id = csOff ∨ s.cst id = csFault then some E_STATE
  else if cap ∧ s.ucOutput n ∧ (s.cell id).force.1 ≠ 1 then some E_ORDER
  else
    let (lo, hi) := ucMeasurable (s.ucFunc n) (s.ucRange n)
    let ref := s.rdw b Reg.UC_TRIM_REF
    if cap ∧ (!f32Finite ref ∨ f32 ref < lo ∨ hi < f32 ref) then some E_RANGE
    else if op = .apply then
      match (s.uc n).capLo, (s.uc n).capHi with
      | some l, some h =>
        let span : Rat := if temp then 100 else ucSpan (s.ucFunc n) (s.ucRange n)
        if ratAbs (f32 h.1 - f32 l.1) < span / 2 then some E_RANGE
        else
          match s.trimOf n l h with
          | none => some E_RANGE
          | some (g, o) =>
            if g < dec 95 2 ∨ dec 105 2 < g ∨ span / 50 < ratAbs o then some E_RANGE
            else if s.flag modBase Reg.MOD_HEALTH_NV_DEGRADED then some E_NV_WEAR else none
      | _, _ => some E_ORDER
    else if op = .clear ∧ s.flag modBase Reg.MOD_HEALTH_NV_DEGRADED then some E_NV_WEAR
    else none

/-- The captured points, and their bits (R223). -/
def State.setCaps (s : State) (n : Nat) (lo hi : Option (Word × Word)) : State :=
  let b := cellBase (ucId n)
  ((s.setFlag b Reg.UC_TRIM_STAT_CAPLO lo.isSome).setFlag b Reg.UC_TRIM_STAT_CAPHI hi.isSome).modUc n
    fun u => { u with capLo := lo, capHi := hi }

/-- The point that CAPLO and CAPHI record: the DAC command, or the mean of UC.RAW over the last 16 results; a mean of no result is a free value. -/
def State.trimPoint (s : State) (n : Nat) : Word × State :=
  let raws := (s.uc n).raws
  if s.ucOutput n then (s.rdw (cellBase (ucId n)) Reg.UC_RAW, s)
  else if raws.isEmpty then s.draw
  else (toF32c ((raws.map f32).sum / (raws.length : Rat)), s)

/-- The effect of an accepted trim operation; the stored trim acts from the next boundary. -/
def State.trimEffect (s : State) (n : Nat) (op : TrimOp) : State :=
  let ref := s.rdw (cellBase (ucId n)) Reg.UC_TRIM_REF
  match op with
  | .nop => s
  | .caplo => let (x, s) := s.trimPoint n; s.setCaps n (some (x, ref)) (s.uc n).capHi
  | .caphi => let (x, s) := s.trimPoint n; s.setCaps n (s.uc n).capLo (some (x, ref))
  | .apply =>
    match (s.uc n).capLo, (s.uc n).capHi with
    | some l, some h =>
      match s.trimOf n l h with
      | some (g, o) => (s.modJrn fun j => { j with trims := Store.set none j.trims (s.trimKey n) (some (toF32c g, toF32c o)) }).setCaps n none none
      | none => s
    | _, _ => s
  | .clear => s.modJrn fun j => { j with trims := Store.set none j.trims (s.trimKey n) none }
  | .discard => s.setCaps n none none

/-- R222, but for the journal. -/
def decideTrim (p : Port) (n : Nat) (op : TrimOp) (s : State) : Code × State :=
  if op ≠ .nop ∧ p ≠ .service then (E_ACCESS, s)
  else if !s.exists_ (ucId n) then (E_STATE, s)
  else
    match s.trimCheck p n op with
    | some c => (c, s)
    | none => (E_OK, s.trimEffect n op)

/-- Where the journal keeps the trim of the present function and range of a channel. -/
def State.trimHome (s : State) (n : Nat) : List Nat := settingsHome (Config.trimPlace (s.trimKey n))

def execTrimCaplo (p : Port) (uc : Fin 32) (s : State) : Host.Outcome State Fault Refusal := command p (decideTrim p uc.val .caplo) s
def execTrimCaphi (p : Port) (uc : Fin 32) (s : State) : Host.Outcome State Fault Refusal := command p (decideTrim p uc.val .caphi) s
def execTrimApply (p : Port) (uc : Fin 32) (o : NvOutcome) (s : State) : Host.Outcome State Fault Refusal :=
  command p (journaled (s.trimHome uc.val) o (decideTrim p uc.val .apply)) s
def execTrimClear (p : Port) (uc : Fin 32) (o : NvOutcome) (s : State) : Host.Outcome State Fault Refusal :=
  command p (journaled (s.trimHome uc.val) o (decideTrim p uc.val .clear)) s
def execTrimDiscard (p : Port) (uc : Fin 32) (s : State) : Host.Outcome State Fault Refusal := command p (decideTrim p uc.val .discard) s
/-- TRIM_NOP (R223): nothing happens. -/
def execTrimNop (p : Port) (uc : Fin 32) (s : State) : Host.Outcome State Fault Refusal := command p (decideTrim p uc.val .nop) s

/-! The channel at boundaries and at START. -/

/-- Quality and flags of an output's port 0 (R212). -/
def State.outputQual (s : State) (n : Nat) : Qual × BitVec 12 :=
  let id := ucId n
  let forced := flIf ((s.forcedOut id).isSome) FL_FORCED
  if s.src id = 3 then (Q_SAFE, FL_TRIPPED)
  else if (s.uc n).sensorBad then (Q_BAD_SENSOR, 0)
  else if s.flag (cellBase id) Reg.UC_STATUS_COMPL then (Q_COMPLIANCE, forced)
  else if (s.uc n).qual == Q_HELD then (Q_HELD, forced)
  else if (s.uc n).cmdHow != 0 then ((howQual (s.uc n).cmdHow).getD Q_SUBSTITUTED, 0)
  else (Q_GOOD, (s.uc n).lim ||| forced)

/-- The value published where Tocsin drives the channel: what it drives, in engineering units. -/
def State.safeReadback (s : State) (n : Nat) : Word :=
  let e : Rat := match s.ucGoal n with | some (e, _) => e | none => 0
  toF32c (s.ucEngineering n e)

/-- Publication of the ports at the boundary that closes a due stroke (R203, R205, R207, R212); an age that is not 0 stands for "not refreshed". -/
def State.publishUc (s : State) (n : Nat) : State :=
  let id := ucId n
  let b := cellBase id
  let u := s.uc n
  let out := s.ucOutput n
  let q : Qual × BitVec 12 := if out then s.outputQual n else (if u.sensorBad then Q_BAD_SENSOR else u.qual, u.flags)
  let safe := out && s.src id == 3
  let v := if safe then s.safeReadback n else u.value
  let fresh := u.fresh || safe
  let init := flIf fresh (s.initFlag id)
  let auxQ := if q.1 == Q_BAD_SENSOR then Q_BAD_SENSOR else if s.flag b Reg.UC_STATUS_CJBAD then Q_UNCERTAIN else Q_GOOD
  if !u.since && !safe then s
  else
    let age := if fresh then 0 else 1
    let s := (s.hold id 0 ⟨v, q.1, q.2 ||| init, age⟩).hold id 1 ⟨u.aux, auxQ, init, if u.fresh then 0 else 1⟩
    let s := s.when fresh fun s => s.modCell id fun c => { c with first := false }
    s.modUc n fun u => { u with fresh := false }

/-- HART ports: at the first boundary after a reply with age 0 (R219). -/
def State.publishHart (s : State) (n : Nat) : State :=
  let id := ucId n
  if !s.ucHart n then s
  else
    ((List.range 4).foldl (fun s k =>
      match (s.uc n).hartPorts.getD k none with
      | some w => s.hold id (2 + k) { w with age := if (s.uc n).hartFresh.getD k false then 0 else 1 }
      | none => s) s).modUc n fun u => { u with hartFresh := [false, false, false, false] }

/-- The end of an evaluation at the boundary that closes a due stroke: an input without a result since START has not evaluated (R91). -/
def State.evalUc (s : State) (n : Nat) : State :=
  let id := ucId n
  if [csOff, csFault, csTest].contains (s.cst id) then s
  else if !s.ucOutput n && !s.ucWave n && !(s.uc n).since then s
  else (((s.evalEnd id false).startToRun id).modUc n fun u => { u with driven := true })

/-- A boundary at which the channel's stroke closes. -/
def State.closeUc (s : State) (n : Nat) : State :=
  let id := ucId n
  let s := if s.dueClosing id && s.cst id != csOff then (s.evalUc n).publishUc n else s
  s.publishHart n

/-- The factory calibration record of a channel is valid, and a copy of it is readable (R223, R385). -/
def State.fcalOk (s : State) (n : Nat) : Bool := (Config.fcal n).2 && !s.jrn.fcalBad.contains n

/-- Entry into START (R91, R199, R223): configuration registers, and a new evaluation history. -/
def State.startUc (s : State) (id : Nat) (c : StartCause) : State :=
  let n := cellNum id
  let b := cellBase id
  let u := s.uc n
  let keepOut := c == .changed && s.ucOutput n
  let s := s.when (c == .fresh || c == .changed) fun s =>
    let s := (((s.wr b Reg.UC_CFG_FUNC (s.ucFunc n)).wr b Reg.UC_CFG_RANGE (s.ucRange n)).wr b Reg.UC_CFG_RATE (recByte (s.uc0 n) 3)).setFlag b Reg.UC_CFG_NE43 (s.ucNe43 n)
    let s := (((s.setFlag b Reg.UC_CFG_WAVE (s.ucWave n)).setFlag b Reg.UC_CFG_HART (s.ucHart n)).setFlag b Reg.UC_CFG_LOOP (s.ucOpt n 0)).setFlag b Reg.UC_CFG_TRIMEN (s.ucTrimen n)
    let s := (((s.wr b Reg.UC_CFG_WIRES (s.ucWires n)).wr b Reg.UC_CFG_CHAR (s.ucChar n)).wr b Reg.UC_CFG_SAFEMODE (s.ucSafeMode n)).setFlag b Reg.UC_CFG_MULTIDROP (s.ucMultidrop n)
    let s := (s.wrw b Reg.UC_CMP_LO (recWord (s.uc2 n) 4)).wrw b Reg.UC_CMP_HI (recWord (s.uc2 n) 8)
    let s := (s.wr b Reg.UC_FCAL_DATE (Config.fcal n).1.toNat).setFlag b Reg.UC_FCAL_VALID (s.fcalOk n)
    let s := (((s.setComparator n 0 false).setComparator n 1 false).setReg (b + 0x24) 0).setFlag b Reg.UC_STATUS_FCALBAD (!s.fcalOk n)
    let s := s.modUc n fun _ => { UcSt.init with on := keepOut && u.on, lim := if keepOut then u.lim else 0 }
    (s.setCaps n none none).loadTrim n
  let s := s.modUc n fun u => { u with since := false, fresh := false, driven := false, ident := [false, false, false, false] }
  -- a failed start-up check isolates the channel at its START, the cause staying present (R432)
  let failed := s.startFailed id
  let s := s.when failed fun s => (s.modUc n fun u => { u with stageBad := true }).isolateCell id true
  if keepOut && !failed then s else s.driveUc n

end Sys2Proof.Machine
end

