-- ==== Sys2Proof/Machine/Points.lean ====
section
/-! DEFINITION. Digital points (08): inputs, output drive precedence, field supplies, the cell watchdog, wiring faults and supervision. -/

namespace Sys2Proof.Machine

/-! CELL payload (R224). -/
def State.dp0 (s : State) (n : Nat) : Record := s.cfg (dpId n) 0
def State.dpKind (s : State) (n : Nat) : Nat := recByte (s.dp0 n) 0
def State.dpFilt (s : State) (n : Nat) : Nat := recByte (s.dp0 n) 1
def State.dpOpt (s : State) (n i : Nat) : Bool := recByte (s.dp0 n) 2 / 2 ^ i % 2 == 1
def State.dpCatch (s : State) (n : Nat) : Bool := s.dpOpt n 0
def State.dpWbdet (s : State) (n : Nat) : Bool := s.dpOpt n 1
def State.dpBond (s : State) (n : Nat) : Bool := s.dpOpt n 2
def State.dpSaglatch (s : State) (n : Nat) : Bool := s.dpOpt n 3
def State.dpOldet (s : State) (n : Nat) : Bool := s.dpOpt n 4
def State.dpSafe (s : State) (n : Nat) : Bool := recByte (s.dp0 n) 3 == 1
def State.dpWdt (s : State) (n : Nat) : Nat := recU16 (s.dp0 n) 4
def State.dpPermsrc (s : State) (n : Nat) : Option Nat :=
  let g := recByte (s.dp0 n) 6
  if s.dpKind n = 3 ∧ g ≤ 3 then some g else none

def State.dpInput (s : State) (n : Nat) : Bool := s.exists_ (dpId n) && (s.dpKind n == 1 || s.dpKind n == 2)
def State.dpOutput (s : State) (n : Nat) : Bool := s.exists_ (dpId n) && (s.dpKind n == 3 || s.dpKind n == 4)

/-- Digital block of a point. -/
def dpBlk (n : Nat) : Nat := n / 8
/-- The points of a digital block. -/
def dpsOf (db : Nat) : List Nat := (List.range 8).map (· + 8 * db)

/-- The point that carries a bonded pair for either of its two (R231). -/
def State.dpLead (s : State) (n : Nat) : Nat := if s.dpKind n = 5 then n - 1 else n

/-! Drive (R241). -/

/-- SHED in DP.STATUS: off by sag, or by missing supply (R232, R235, R242). -/
def State.dpShedNow (s : State) (n : Nat) : Bool :=
  s.flag (dbBase (dpBlk n)) Reg.DB_FS_MISSING || (s.dpKind n == 3 && s.flag (dbBase (dpBlk n)) Reg.DB_FS_SHED)

/-- The driver by the first row of R241 that holds; the cell's own source drives nothing before the first evaluation since START (R433). -/
def State.dpDrive (s : State) (n : Nat) : Bool :=
  let id := dpId n
  let b := cellBase id
  if s.fieldOff id || s.cst id == csFault || s.cst id == csOff then false
  else if s.dpShedNow n then false
  else if s.dpKind n = 3 && s.flag b Reg.DP_STATUS_LATCHOFF then false
  else
    match s.safeAction id, s.forcedOut id with
    | some 0, _ => s.dpSafe n
    | some a, _ => a == 2
    | none, some v => f32True v
    | none, none =>
      if !(s.dp n).driven || s.inTest id then s.flag b Reg.DP_STATUS_DRV
      else if s.flag b Reg.DP_STATUS_WDOG then s.dpSafe n
      else if (s.dpPermsrc n).isSome then (s.dp n).permit
      else (s.dp n).cmdOn

/-- The odd point of a bonded pair follows its even partner: state, source and status (R231). Its entry into FAULT counts (R94, R239). -/
def State.followBond (s : State) (n : Nat) : State :=
  if s.dpBond n then
    let e := cellBase (dpId n)
    let o := cellBase (dpId (n + 1))
    let s := s.when (s.cst (dpId n) == csFault && s.cst (dpId (n + 1)) != csFault) fun s => s.bump o Reg.CELL_ERR_ISOLATIONS
    let s := [Reg.CELL_STATE_STATE, Reg.CELL_STATE_SOURCE, Reg.CELL_STATE_ISOL, Reg.CELL_STATE_LATCHED, Reg.CELL_STATE_RETRIES].foldl
      (fun s f => s.wr o f (s.rd e f)) s
    (s.setReg (o + Reg.DP_STATUS_DRV.off) (s.reg (e + Reg.DP_STATUS_DRV.off))).wrw o Reg.DP_CURR 0
  else s

/-- The driver, and SHED of DP.STATUS, which follows. A source above the fabric restarts
the watchdog when it releases, so the expiry ends with its take-over (R237). -/
def State.driveDp (s : State) (n : Nat) : State :=
  let b := cellBase (dpId n)
  if !s.dpOutput n then s
  else
    let s := s.when (s.src (dpId n) != 0) fun s => s.setFlag b Reg.DP_STATUS_WDOG false
    let s := s.setFlag b Reg.DP_STATUS_SHED (s.dpShedNow n)
    (s.setFlag b Reg.DP_STATUS_DRV (s.dpDrive n)).followBond n

/-- All points of a digital block. -/
def State.driveDb (s : State) (db : Nat) : State := (dpsOf db).foldl State.driveDp s

/-! Inputs (R227, R228). -/

/-- INPUT_FILTER_SETTLE (R227): the first state formed since the commit is no edge. -/
def execInputFilterSettle (dp : Fin 32) (on : Bool) (s : State) : Host.Outcome State Fault Refusal :=
  done <|
    let n := dp.val
    let b := cellBase (dpId n)
    if !s.fieldUp || !s.dpInput n then s
    else
      let rise := (s.dp n).settled && on && !s.flag b Reg.DP_STATUS_IN
      let s := s.when (n < 16 && s.flag b Reg.DP_STATUS_IN != on) fun s => s.notice .input n (if on then 1 else 0) (keyOfCell (dpId n))
      let s := (s.setFlag b Reg.DP_STATUS_IN on).when rise fun s => s.wrw b Reg.DP_EDGES (s.rdw b Reg.DP_EDGES + 1)
      s.modDp n fun d => { d with settled := true, caught := d.caught || on }

/-! Field supply (R235, R236). -/

/-- A wait for the restore boundary starts anew (R236). -/
def State.cancelRestore (s : State) (db : Nat) : State := { s with fld := { s.fld with restore := s.fld.restore.filter (· != db) } }

/-- Sum of the currents of a block's outputs (R243). -/
def State.sumLoad (s : State) (db : Nat) : State :=
  s.wrw (dbBase db) Reg.DB_ILOAD (toF32c (((dpsOf db).filter s.dpOutput).map fun n => f32 (s.rdw (cellBase (dpId n)) Reg.DP_CURR)).sum)

/-- The cause of a wiring fault is present: the terminal stays above 50 % under SHORTFS, or the driver is hot under OVERLOAD. An over-current cause and that
of PARALLEL are absent in FAULT (R239). -/
def State.wiringCause (s : State) (n : Nat) : Bool :=
  let b := cellBase (dpId n)
  (s.flag b Reg.DP_STATUS_SHORTFS && s.flag b Reg.DP_STATUS_TERM) || (s.flag b Reg.DP_STATUS_OVERLOAD && (s.dp n).hot)

/-- The cause follows what the block measures. -/
def State.watchWiring (s : State) (n : Nat) : State :=
  let id := dpId n
  if s.cst id != csFault then s
  else if s.wiringCause n then s.setCause id true
  else s.when (s.cell id).cause fun s => s.setCause id false

/-- What one output measures; a bonded pair acts as one (R231). -/
def State.sampleDp (s : State) (n : Nat) (terms hot : BitVec 8) (amps : List Word) : State :=
  let b := cellBase (dpId n)
  let bit (v : BitVec 8) (n : Nat) : Bool := v.toNat / 2 ^ (n % 8) % 2 == 1
  let amp (n : Nat) : Rat := f32 (amps.getD (n % 8) 0)
  if s.dpOutput n then
    let pair := s.dpBond n
    let s := (s.setFlag b Reg.DP_STATUS_TERM (bit terms n || (pair && bit terms (n + 1)))).modDp n fun d => { d with hot := bit hot n || (pair && bit hot (n + 1)) }
    ((s.wrw b Reg.DP_CURR (toF32c (if pair then amp n + amp (n + 1) else amp n))).watchWiring n).followBond n
  else s

/-- FIELD_SUPPLY_SAMPLE (R235): the measured supply, the terminals above 50 % of it, the drivers above their temperature limit (R239) and the output
currents in A. A dip below 17.0 V restarts the 50 ms of R236. -/
def execFieldSupplySample (db : Fin 4) (volts : Word) (levels : PointLevels) (amps : List Word) (s : State) : Host.Outcome State Fault Refusal :=
  done <|
    if !s.fieldUp then s
    else
    let s := s.wrw (dbBase db.val) Reg.DB_FSV volts
    let s := if f32 volts < 17 then s.cancelRestore db.val else s
    ((dpsOf db.val).foldl (fun s n => s.sampleDp n levels.terms levels.hot amps) s).sumLoad db.val

/-- A supply condition enters: counted once (R235). -/
def State.enterFs (s : State) (db : Nat) (c : FsCond) : State :=
  let b := dbBase db
  match c with
  | .high => s.setFlag b Reg.DB_FS_HIGH true
  | .low => if s.flag b Reg.DB_FS_LOW then s else (s.setFlag b Reg.DB_FS_LOW true).bump b Reg.DB_CNT_LOWS
  | .shed => if s.flag b Reg.DB_FS_SHED then s else (s.setFlag b Reg.DB_FS_SHED true).bump b Reg.DB_CNT_SHEDS
  | .missing =>
    if s.flag b Reg.DB_FS_MISSING then s
    else ((s.setFlag b Reg.DB_FS_MISSING true).bump b Reg.DB_CNT2_MISSINGS).cancelRestore db

/-- FIELD_SUPPLY_CONDITION_SET (R235): SHED and MISSING switch outputs off in hardware. -/
def execFieldSupplyConditionSet (db : Fin 4) (c : FsCond) (s : State) : Host.Outcome State Fault Refusal :=
  done ((s.enterFs db.val c).driveDb db.val)

/-- FIELD_SUPPLY_CONDITION_CLEAR (R235): SHED clears only by the restore of R236. -/
def execFieldSupplyConditionClear (db : Fin 4) (c : FsCond) (s : State) : Host.Outcome State Fault Refusal :=
  let b := dbBase db.val
  done <|
    match c with
    | .high => s.setFlag b Reg.DB_FS_HIGH false
    | .low => s.setFlag b Reg.DB_FS_LOW false
    | .shed => s
    | .missing => (s.setFlag b Reg.DB_FS_MISSING false).driveDb db.val

/-- SHED_RESTORE (R236): the supply has stayed at or above 17.0 V with MISSING clear for 50 ms; the outputs restore at the next boundary. -/
def execShedRestore (db : Fin 4) (s : State) : Host.Outcome State Fault Refusal :=
  done <|
    let b := dbBase db.val
    if s.flag b Reg.DB_FS_SHED && !s.flag b Reg.DB_FS_MISSING && !s.fld.restore.contains db.val then
      { s with fld := { s.fld with restore := s.fld.restore ++ [db.val] } }
    else s

/-- The restore of the blocks whose time has run, at a boundary: SHED clears, and points with SAGLATCH are held off (R236). -/
def State.restoreSheds (s : State) : State :=
  let l := s.fld.restore
  let s := { s with fld := { s.fld with restore := [] } }
  l.foldl (fun s db =>
    let s := s.setFlag (dbBase db) Reg.DB_FS_SHED false
    (dpsOf db).foldl (fun s n =>
      if s.dpOutput n && s.dpSaglatch n then s.setFlag (cellBase (dpId n)) Reg.DP_STATUS_LATCHOFF true else s) s) s

/-- DP.CTRL:REARM (R236, R242). -/
def decideRearm (n : Nat) (s : State) : Code × State :=
  if !s.exists_ (dpId n) || !s.flag (cellBase (dpId n)) Reg.DP_STATUS_LATCHOFF then (E_STATE, s)
  else (E_OK, s.modDp (s.dpLead n) fun d => { d with rearm := true })

def execRearm (p : Port) (dp : Fin 32) (s : State) : Host.Outcome State Fault Refusal := command p (decideRearm dp.val) s

/-! When the logic side falls silent (R237, R238). -/

/-- A fresh command restarts the watchdog, and the point returns to its command (R237). -/
def State.restartWatchdog (s : State) (n : Nat) : State := s.setFlag (cellBase (dpId n)) Reg.DP_STATUS_WDOG false

/-- CELL_WATCHDOG_EXPIRY (R237): it runs only while the loop-or-fabric source drives the point. -/
def execCellWatchdogExpiry (dp : Fin 32) (s : State) : Host.Outcome State Fault Refusal :=
  done <|
    let n := dp.val
    let b := cellBase (dpId n)
    if s.dpOutput n && s.src (dpId n) == 0 && (s.dp n).driven && !s.flag b Reg.DP_STATUS_WDOG then
      ((s.setFlag b Reg.DP_STATUS_WDOG true).bump b Reg.DP_CNT_WDOGS).driveDp n
    else s

/-! Wiring faults and supervision (R239, R240). -/

/-- A wiring fault puts the point in FAULT at once and counts (R239), one that comes on top of another too; PARALLEL latches. A fault that shows already is
no new entry. Of a bonded pair the point that has the fault counts it. -/
def State.wiringFault (s : State) (n : Nat) (w : Wiring) : State :=
  let at_ := cellBase (dpId n)
  let n := s.dpLead n
  let id := dpId n
  let b := cellBase id
  let f := match w with | .shortFs => Reg.DP_STATUS_SHORTFS | .parallel => Reg.DP_STATUS_PARALLEL | .overload => Reg.DP_STATUS_OVERLOAD
  if !s.dpOutput n || s.cst id == csOff then s
  else
    let s := s.when (!s.flag b f) fun s => s.bump at_ Reg.DP_CNT_WIRING
    let s := (s.when (w == .shortFs) fun s => s.setFlag b Reg.DP_STATUS_TERM true).setFlag b f true
    let s := s.isolateCell id (s.wiringCause n)
    let s := s.when (w == .parallel && s.cst id == csFault) fun s => s.setFlag b Reg.CELL_STATE_LATCHED true
    s.driveDp n

/-- WIRING_FAULT (R239): SHORTFS and PARALLEL are tested only while the supply is neither LOW nor MISSING; `other` is the second point of PARALLEL. -/
def execWiringFault (dp : Fin 32) (w : Wiring) (other : Fin 32) (s : State) : Host.Outcome State Fault Refusal :=
  done <|
    let b := dbBase (dpBlk dp.val)
    if w ≠ .overload ∧ (s.flag b Reg.DB_FS_LOW ∨ s.flag b Reg.DB_FS_MISSING) then s
    else
      let s := s.wiringFault dp.val w
      if w = .parallel then s.wiringFault other.val w else s

/-- Supervision of a point is not suspended (R240). -/
def State.supervised (s : State) (n : Nat) (f : Supervision) : Bool :=
  !s.flag (dbBase (dpBlk n)) Reg.DB_FS_MISSING &&
    match f with
    | .open_ => s.dpOutput n && s.dpOldet n
    | .wbreak => s.dpInput n && s.dpKind n == 2 && s.dpWbdet n

def supField : Supervision → Field
  | .open_ => Reg.DP_STATUS_OPEN
  | .wbreak => Reg.DP_STATUS_WBREAK

/-- SUPERVISION_FAULT_SET (R240): an entry counts DP.CNT:WIRING. -/
def execSupervisionFaultSet (dp : Fin 32) (f : Supervision) (s : State) : Host.Outcome State Fault Refusal :=
  done <|
    let n := dp.val
    let b := cellBase (dpId n)
    if s.supervised n f && !s.flag b (supField f) then
      ((s.setFlag b (supField f) true).bump b Reg.DP_CNT_WIRING).followBond n
    else s

/-- SUPERVISION_FAULT_CLEAR (R240). -/
def execSupervisionFaultClear (dp : Fin 32) (f : Supervision) (s : State) : Host.Outcome State Fault Refusal :=
  done <|
    let n := dp.val
    if s.supervised n f then (s.setFlag (cellBase (dpId n)) (supField f) false).followBond n else s

/-! The point at boundaries and at START. -/

/-- The command of the boundary that opens a due stroke; a refreshed command restarts the watchdog, and a command off ends LATCHOFF (R236, R237). -/
def State.takeDpCommand (s : State) (n : Nat) : State :=
  let id := dpId n
  let due := (s.dp n).dueAt
  let s := s.modDp n fun d => { d with dueAt := s.fab.boundaries }
  if !s.dpOutput n || s.cst id == csOff || s.cst id == csFault then s
  else
    match s.input id 0 (s.safeValue id) with
    | none => s
    | some i =>
      let on := f32True i.val
      let s := (s.noteInput id 0 i).modDp n fun d =>
        { d with cmdOn := on, cmdHow := if i.live then 0 else if (s.bind id 0).map bindFallback == some 0 then 1 else 2 }
      let fresh := match s.bind id 0 with
        | some r => (Store.get none s.fab.freshAt (bindSig r)).any fun k => decide (due < k)
        | none => false
      let s := if fresh then s.restartWatchdog n else s
      if on then s else s.setFlag (cellBase id) Reg.DP_STATUS_LATCHOFF false

/-- A rearm takes effect (R236). -/
def State.applyRearm (s : State) (n : Nat) : State :=
  if (s.dp n).rearm then
    (s.setFlag (cellBase (dpId n)) Reg.DP_STATUS_LATCHOFF false).modDp n fun d => { d with rearm := false }
  else s

/-- Quality and flags of a point's ports (R228, R234). -/
def State.dpQual (s : State) (n : Nat) : Qual × BitVec 12 :=
  let id := dpId n
  let b := cellBase id
  let fs := dbBase (dpBlk n)
  if s.dpKind n ≤ 2 then
    if s.flag fs Reg.DB_FS_MISSING || s.flag b Reg.DP_STATUS_WBREAK then (Q_BAD_SENSOR, 0)
    else if s.flag fs Reg.DB_FS_LOW then (Q_UNCERTAIN, 0) else (Q_GOOD, 0)
  else if s.src id = 3 then (Q_SAFE, FL_TRIPPED)
  else if s.cst id == csFault || s.isolated 1 (4 + dpBlk n) then (Q_BAD_HW, 0)
  else if s.flag b Reg.DP_STATUS_SHED || s.flag b Reg.DP_STATUS_LATCHOFF then (Q_COMPLIANCE, 0)
  else if s.flag b Reg.DP_STATUS_OPEN then (Q_BAD_SENSOR, 0)
  else if s.flag b Reg.DP_STATUS_WDOG then (Q_SUBSTITUTED, 0)
  else
    match howQual (s.dp n).cmdHow with
    | some q => (q, 0)
    | none => (Q_GOOD, flIf (s.forcedOut id).isSome FL_FORCED)

/-- Values of ports 0 and 1 (R227, R228, R234); a missing supply or a broken wire keeps the last values. -/
def State.dpValues (s : State) (n : Nat) : Word × Word :=
  let b := cellBase (dpId n)
  if s.dpKind n ≤ 2 then
    if s.flag (dbBase (dpBlk n)) Reg.DB_FS_MISSING || s.flag b Reg.DP_STATUS_WBREAK then (s.dp n).last
    else (f32OfBool (s.flag b Reg.DP_STATUS_IN || (s.dpCatch n && (s.dp n).caught)),
          toF32c (((s.rdw b Reg.DP_EDGES).toNat % 2 ^ 24 : Nat) : Rat))
  else (f32OfBool (s.flag b Reg.DP_STATUS_TERM), s.rdw b Reg.DP_CURR)

/-- Publication at the boundary that closes a due stroke: age 0 at every one (R227). -/
def State.publishDp (s : State) (n : Nat) : State :=
  let id := dpId n
  if s.dpKind n ≤ 2 && !(s.dp n).settled then s
  else
    let v := s.dpValues n
    let q := s.dpQual n
    let init := s.initFlag id
    let s := (s.hold id 0 ⟨v.1, q.1, q.2 ||| init, 0⟩).hold id 1 ⟨v.2, q.1, q.2 ||| init, 0⟩
    let on := s.flag (cellBase id) Reg.DP_STATUS_IN
    (s.modCell id fun c => { c with first := false }).modDp n fun d => { d with last := v, caught := on }

/-- A boundary at which the point's stroke closes: its evaluation ends, and from here it drives (R433). -/
def State.closeDp (s : State) (n : Nat) : State :=
  let id := dpId n
  if !s.dueClosing id || s.cst id == csOff || s.dpKind n == 5 then s
  else
    let s := if [csFault, csTest].contains (s.cst id) then s
      else (((s.evalEnd id false).startToRun id).modDp n fun d => { d with driven := true })
    s.publishDp n

/-- Entry into START (R227, R236, R242). A changed point whose kind leaves the outputs is switched off; another changed output holds its value (R241). -/
def State.startDp (s : State) (id : Nat) (c : StartCause) : State :=
  let n := cellNum id
  let b := cellBase id
  let drv := s.flag b Reg.DP_STATUS_DRV
  let old := s.dp n
  let s := s.when (c == .fresh || c == .changed) fun s =>
    let s := (((s.wr b Reg.DP_CFG_KIND (s.dpKind n)).wr b Reg.DP_CFG_FILT (s.dpFilt n)).setFlag b Reg.DP_CFG_CATCH (s.dpCatch n)).setFlag b Reg.DP_CFG_WBDET (s.dpWbdet n)
    let s := (((s.setFlag b Reg.DP_CFG_BOND (s.dpBond n)).setFlag b Reg.DP_CFG_SAGLATCH (s.dpSaglatch n)).setFlag b Reg.DP_CFG_OLDET (s.dpOldet n)).setFlag b Reg.DP_CFG_SAFESTATE (s.dpSafe n)
    let s := (s.wr b Reg.DP_CFG_PERMSRC (match s.dpPermsrc n with | some g => g | none => 7)).wr b Reg.DP_WDT_WDT (s.dpWdt n)
    let s := (s.setReg (b + Reg.DP_STATUS_DRV.off) 0).setFlag b Reg.DP_STATUS_DRV (c == .changed && drv && s.dpOutput n)
    let s := s.when (!s.dpOutput n) fun s => s.wrw b Reg.DP_CURR 0
    s.modDp n fun _ => { DpSt.init with permit := old.permit, hot := old.hot }
  let s := s.wrw b Reg.DP_EDGES 0
  let s := s.modDp n fun d => { d with driven := false, settled := d.settled && c != .runEntry }
  s.driveDp n

end Sys2Proof.Machine
end

