-- ==== Sys2Proof/Machine/Drive.lean ====
section
/-! DEFINITION. What drives the terminals of every field cell, and the safe commands that reach them (R87, R91, R175, R186). -/

namespace Sys2Proof.Machine

/-- The terminal of one field cell follows its sources. -/
def State.driveCell (s : State) (id : Nat) : State :=
  match kindOf id with
  | some .uc => s.driveUc (cellNum id)
  | some .dp => s.driveDp (cellNum id)
  | some .ax => s.driveAx (cellNum id)
  | _ => s

/-- The terminals of all field cells with a physical output. -/
def State.drive (s : State) : State := s.physicalCells.foldl State.driveCell s

/-- A safe command reaches its target at cell arbitration (R175): ACTION 0 safe value, 1 de-energise, 2 energise. -/
def State.commandCell (s : State) (id action : Nat) : State :=
  ((s.modCell id fun c => { c with cmd := action + 1, act := action }).takeSafe id).driveCell id

/-- The last safe command on a cell is released: its next source takes over at the next boundary (R87, R175). -/
def State.uncommandCell (s : State) (id : Nat) : State := s.modCell id fun c => { c with cmd := 0 }

/-- The hardwired line reaches a Field block, which takes it as a safe command of the cell (R186). When it is released a Tocsin command on the cell
drives at once; without one the cell stays de-energised until its next source takes over at a boundary (R87). -/
def State.lineCell (s : State) (id : Nat) (on : Bool) : State :=
  if on then ((s.modCell id fun c => { c with line := true, act := 1 }).takeSafe id).driveCell id
  else (s.modCell id fun c => { c with line := false, act := if c.cmd = 0 then c.act else c.cmd - 1 }).driveCell id

/-- What a field cell's circuit sheds when the cell leaves FAULT: its stage is tried again (R214, R262). -/
def State.leaveFault (s : State) (id : Nat) : State :=
  match kindOf id with
  | some .uc => s.modUc (cellNum id) fun u => { u with stageBad := false }
  | some .ax => s.setAxf (cellNum id) Reg.AX_STATUS_PHFLT false
  | _ => s

/-- FAULT → RECOVER (R91). -/
def State.faultToRecover (s : State) (id : Nat) : State := ((s.leaveFault id).toRecover id).driveCell id

end Sys2Proof.Machine
end

