-- ==== Sys2Proof/Machine/Tocsin.lean ====
section
/-! DEFINITION. Tocsin (06): trip inputs, trip outputs, safe commands, safety connections, resets, bypasses, causes and the self-test. -/

namespace Sys2Proof.Machine

/-! Tocsin states (R184, R196). -/
def tsStopped : Nat := 0
def tsDisarmed : Nat := 1
def tsArmed : Nat := 2
def tsSafe : Nat := 3

def State.tstate (s : State) : Nat := s.rd tbBase Reg.TB_STATUS_TSTATE
def State.setTstate (s : State) (n : Nat) : State := s.wr tbBase Reg.TB_STATUS_TSTATE n

/-! CRC-32C (R168): reflected polynomial 0x1EDC6F41. -/

/-- One bit step of the reflected register. -/
def crc32cBit (c : Nat) : Nat := if c % 2 = 1 then (c / 2).xor 0x82F63B78 else c / 2
def crc32cByte (c b : Nat) : Nat := crc32cBit (crc32cBit (crc32cBit (crc32cBit (crc32cBit (crc32cBit (crc32cBit (crc32cBit (c.xor b))))))))
/-- CRC-32C of a byte string. -/
def crc32c (bytes : List Nat) : Nat := (bytes.foldl crc32cByte 0xFFFFFFFF).xor 0xFFFFFFFF

/-- Bytes `i` to `i + n` − 1 of a little-endian number. -/
def leBytes (v n : Nat) : List Nat := (List.range n).map fun i => v / 256 ^ i % 256

/-- CRC-32C of bytes 0–11 of a safety PDU (R167). -/
def pduCrc (pdu : BitVec 128) : Nat := crc32c (leBytes pdu.toNat 12)

/-! Safety PDU fields (R167). -/
def pduConn (p : BitVec 128) : Nat := p.toNat % 2 ^ 32
def pduSeq (p : BitVec 128) : Nat := p.toNat / 2 ^ 32 % 65536
def pduFlags (p : BitVec 128) : Nat := p.toNat / 2 ^ 48 % 256
def pduRes (p : BitVec 128) : Nat := p.toNat / 2 ^ 56 % 256
def pduBits (p : BitVec 128) : Nat := p.toNat / 2 ^ 64 % 2 ^ 32
def pduCrcField (p : BitVec 128) : Nat := p.toNat / 2 ^ 96

/-! Trip inputs (R163). -/

def tiNum (r : Record) : Nat := 256 * recSub r + recByte r 0
def tiSrc (r : Record) : Nat := recByte r 1
def tiIndex (r : Record) : Nat := recU16 r 2
def tiInvert (r : Record) : Bool := recByte r 4 % 2 == 1
def tiInvTrip (r : Record) : Bool := recByte r 4 / 2 % 2 == 1
def tiDeb (r : Record) : Nat := recByte r 5
def tiBypMax (r : Record) : Nat := recU16 r 6
def tiId (r : Record) : Nat := recU32 r 8
def tiLimit (r : Record) : Nat := recU16 r 12
def tiSeqWin (r : Record) : Nat := recByte r 14

/-- The TRIPIN records of the running configuration. -/
def State.tripins (s : State) : List Record := s.img.active.filter fun r => recType r == T_TRIPIN
/-- The TRIPIN record of an input, `none` where it is not configured. -/
def State.tripin (s : State) (n : Nat) : Option Record := s.tripins.find? fun r => tiNum r == n

def State.tin (s : State) (n : Nat) : TripIn := Store.get TripIn.init s.toc.inputs n
def State.modTin (s : State) (n : Nat) (f : TripIn → TripIn) : State :=
  s.modToc fun t => { t with inputs := Store.set TripIn.init t.inputs n (f (Store.get TripIn.init t.inputs n)) }
def State.conn (s : State) (id : Nat) : SafeConn := Store.get SafeConn.init s.toc.conns id
def State.modConn (s : State) (id : Nat) (f : SafeConn → SafeConn) : State :=
  s.modToc fun t => { t with conns := Store.set SafeConn.init t.conns id (f (Store.get SafeConn.init t.conns id)) }

/-- The condition of an internal diagnostic (R164). -/
def State.diagnostic (s : State) (i : Nat) : Bool :=
  if i < 4 then s.flag (dbBase i) Reg.DB_FS_MISSING
  else if i < 8 then s.flag (dbBase (i - 4)) Reg.DB_FS_LOW
  else if i < 10 then s.flag (mbBase (i - 8)) Reg.MB_MS_UNDER || s.flag (mbBase (i - 8)) Reg.MB_MS_OVER
  else if i = 10 then (List.range 11).any fun b => s.isolated 1 b
  else if i = 11 then s.noPath
  else if i = 12 then s.inHoldover
  else if i = 13 then s.flag modBase Reg.MOD_HEALTH_NV_DEGRADED
  else s.cpIsolated

/-- What the source of a trip input gives at a scan sample: RAW, invalid, SENDERSAFE (R164, R165). -/
def State.tripSource (s : State) (r : Record) : Bool × Bool × Bool :=
  let i := tiIndex r
  match tiSrc r with
  | 0 =>
    let id := dpId i
    (s.flag (cellBase id) Reg.DP_STATUS_IN,
      s.cst id == csFault || s.isolated 1 (4 + i / 8) || s.flag (dbBase (i / 8)) Reg.DB_FS_MISSING || !(s.dp i).settled, false)
  | 1 =>
    let id := ucId (i / 2)
    (s.flag (cellBase id) (if i % 2 = 0 then Reg.UC_STATUS_CMPLO else Reg.UC_STATUS_CMPHI),
      s.cst id == csFault || s.isolated 1 (i / 16) || !(s.uc (i / 2)).reported || (s.uc (i / 2)).waiting.contains (tiNum r), false)
  | 2 =>
    let id := phId (i / 8)
    (s.rd (cellBase id) Reg.PH_STATUS_EVT / 2 ^ (i % 8) % 2 == 1, !s.exists_ id || s.flag (cellBase id) Reg.PH_STATUS_INVALID, false)
  | 3 =>
    let c := s.conn (tiId r)
    (c.bits.toNat / 2 ^ i % 2 == 1, !c.valid, c.valid && c.senderSafe)
  | 4 => (s.diagnostic i, false, false)
  | _ =>
    let w := s.sig (tiId r)
    (f32True w.val, qualBad w.qual || tiLimit r < w.age || (Store.get none s.fab.freshAt (tiId r)).isNone, false)

/-- A 16-bit saturating count (R94). -/
def sat16 (n : BitVec 16) : BitVec 16 := if n == 0xFFFF then n else n + 1

/-- Sampling of one trip input (R165). An input without a previous state starts INVALID or in DEMAND, and that initial state is no entry. -/
def sampleTripIn (r : Record) (src : Bool × Bool × Bool) (t : TripIn) : TripIn :=
  let (raw, invalid, sender) := src
  let x := raw != tiInvert r
  let ones := if invalid || !x then 0 else min (t.ones + 1) 256
  let zeros := if invalid || x then 0 else min (t.zeros + 1) 256
  let new : BitVec 2 :=
    if invalid then 2
    else if sender || tiDeb r < ones then 1
    else if tiDeb r < zeros then 0
    else if t.state == 3 then 1 else t.state
  let counted := t.state != 3 && new != t.state
  { t with
    state := new, ones := ones, zeros := zeros, raw := raw, reported := !invalid,
    demands := if counted && new == 1 then sat16 t.demands else t.demands,
    invalids := if counted && new == 2 then sat16 t.invalids else t.invalids }

/-- An input counts as demand, a bypass ignored (R165). -/
def countsDemand (r : Record) (t : TripIn) : Bool := t.state == 1 || (t.state == 2 && tiInvTrip r)

/-- Seconds that a bypass has left. -/
def State.bypassLeft (s : State) (t : TripIn) : Nat :=
  match t.bypass with
  | some e => (e - s.time.cycles + 499999999) / 500000000
  | none => 0

def State.bypassed (s : State) : List Nat := (s.toc.inputs.filter fun e => e.2.bypass.isSome).map Prod.fst

/-- TB.STATUS:NBYP follows the bypasses in force (R196). -/
def State.countBypasses (s : State) : State := s.wr tbBase Reg.TB_STATUS_NBYP s.bypassed.length

/-- A bypass ends (R179): the recorder takes the seconds it lasted (R396 SRC 3). -/
def State.endBypass (s : State) (n : Nat) : State :=
  let t := s.tin n
  if t.bypass.isSome then
    ((s.modTin n fun t => { t with bypass := none }).occur 3 n (t.granted - s.bypassLeft t : Nat) (keyOfBlock 2 24) 0).countBypasses
  else s

def State.endBypasses (s : State) : State := s.bypassed.foldl State.endBypass s

/-! Trip outputs (R172). -/

def trLatch (r : Record) : Bool := recByte r 0 % 2 == 1
def trAutoArm (r : Record) : Bool := recByte r 0 / 2 % 2 == 1
def trBypDeg (r : Record) : Bool := recByte r 0 / 4 % 2 == 1
def trK (r : Record) : Nat := recByte r 1
def trAction (r : Record) : Nat := recByte r 2
/-- The targets of a trip output. -/
def trTargets (r : Record) : List Nat := (List.range (recByte r 3)).map fun j => recU16 r (4 + 2 * j)
def trTxConn (r : Record) : Nat := recByte r 20
def trTxBit (r : Record) : Nat := recByte r 21

/-- The existing trip outputs with their TRIP SUB 0 records, in number order. -/
def State.tripOuts (s : State) : List (Nat × Record) :=
  (List.range 128).filterMap fun k => (findRec s.img.active T_TRIP 0 (toId k)).map fun r => (k, r)

/-- The selected inputs of a trip output as a 256-bit mask. -/
def State.tripMask (s : State) (k : Nat) : Nat :=
  (getRec s.img.active T_TRIP 1 (toId k)).toNat % 2 ^ 128 + (getRec s.img.active T_TRIP 2 (toId k)).toNat % 2 ^ 128 * 2 ^ 128

def bitSet (m i : Nat) : Bool := m / 2 ^ i % 2 == 1
/-- The number of inputs of a list that a mask selects. -/
def countSel (mask : Nat) (l : List Nat) : Nat := (l.filter fun i => bitSet mask i).length

def trippedField (k : Nat) : Field := ⟨0x64 + 4 * (k / 32), k % 32, 1, .ro⟩
def demandField (i : Nat) : Field := ⟨0x44 + 4 * (i / 32), i % 32, 1, .ro⟩

def State.tripped (s : State) (k : Nat) : Bool := s.flag tbBase (trippedField k)
/-- TRIPPED of an output, in TB.TRIPPEDn and in TOUT.STATE of an output that exists (R196, R197). -/
def State.setTripped (s : State) (k : Nat) (v : Bool) : State :=
  let s := s.when (v && !s.tripped k) fun s => s.modToc fun t => { t with trippedAt := Store.set 0 t.trippedAt k s.time.cycles }
  let s := s.setFlag tbBase (trippedField k) v
  if s.exists_ (toId k) then s.setFlag (cellBase (toId k)) Reg.TOUT_STATE_TRIPPED v else s

/-- In SAFE, and while Tocsin is not ARMED, every trip output is TRIPPED (R174). -/
def State.tripAll (s : State) : State := (List.range 128).foldl (fun s k => s.setTripped k true) s

/-- n of a trip output: its selected inputs that count as demand and are not bypassed (R174). -/
def State.tripN (s : State) (k : Nat) (demand byp : List Nat) : Nat :=
  countSel (s.tripMask k) (demand.filter fun i => !byp.contains i)

def State.tripK (s : State) (k : Nat) (r : Record) (byp : List Nat) : Nat :=
  if trBypDeg r then max 1 (trK r - countSel (s.tripMask k) byp) else trK r

/-- The seconds of the time base as the recorder's trip reset magnitude takes them. -/
def State.secs (s : State) : Nat := s.time.sec.toNat

/-- A trip (R197): counted, stamped and offered to the recorder (R396 SRC 0). -/
def State.takeTrip (s : State) (k n : Nat) : State :=
  let b := cellBase (toId k)
  let s := s.bump b Reg.TOUT_CNT_TRIPS
  let s := (s.wrw b Reg.TOUT_LAST_NS (BitVec.ofNat 32 s.time.ns)).wrw b Reg.TOUT_LAST_S (BitVec.ofNat 32 s.secs)
  (s.occur 0 k n (keyOfCell (toId k)) 0).notice .trip k 1 (keyOfCell (toId k))

/-- Evaluation of one trip output at a scan (R174, R176, R197). -/
def State.evalTripOut (s : State) (demand byp : List Nat) (kr : Nat × Record) : State :=
  let (k, r) := kr
  let b := cellBase (toId k)
  let n := s.tripN k demand byp
  let keff := s.tripK k r byp
  let d := decide (keff ≤ n)
  let s := ((s.setFlag b Reg.TOUT_STATE_DEMAND d).wr b Reg.TOUT_STATE_NDEM n).wr b Reg.TOUT_STATE_KEFF keff
  let armed := s.tstate == tsArmed && s.mst != stSafe
  let st := s.cst (toId k)
  if armed && trAutoArm r && !d && st == csStart && s.mstIn [stRun, stService] then (s.setCst (toId k) csRun).setTripped k false
  else if !armed || st == csOff || st == csStart then s.setTripped k true
  else if d then if s.tripped k then s else (s.setTripped k true).takeTrip k n
  else if trLatch r then s
  else s.setTripped k false

/-- The safe commands of the present state (R177): cells and actions. -/
def State.safeCommands (s : State) : List (Nat × Nat) :=
  let outs := s.tripOuts
  let of (p : Nat → Bool) : List (Nat × Nat) :=
    (outs.filter fun kr => p kr.1).flatMap fun kr => (trTargets kr.2).map fun id => (id, trAction kr.2)
  if s.mst = stRun then of fun k => s.tripped k
  else if s.mst = stSafe ∨ (s.mst = stService ∧ s.toc.serviceFromSafe) then
    let targets := outs.flatMap fun kr => (trTargets kr.2).map fun id => (id, trAction kr.2)
    targets ++ (s.physicalCells.filter fun id => !(targets.any fun t => t.1 == id)).map fun id => (id, 0)
  else if s.mst = stService then of fun k => s.flag (cellBase (toId k)) Reg.TOUT_STATE_DEMAND
  else []

/-- A trip output commands its targets in the present state (R177, R197). -/
def State.commands (s : State) (kr : Nat × Record) : Bool :=
  !(trTargets kr.2).isEmpty &&
    if s.mst = stRun then s.tripped kr.1
    else if s.mst = stSafe then true
    else if s.mst = stService then s.toc.serviceFromSafe || s.flag (cellBase (toId kr.1)) Reg.TOUT_STATE_DEMAND
    else false

/-- Tocsin's commands reach the targets (R175, R177, R181): a commanded cell takes its action, another is released at the next boundary. -/
def State.issueCommands (s : State) : State :=
  let cmds := s.safeCommands
  let s := s.physicalCells.foldl (fun s id =>
    match cmds.find? fun c => c.1 == id with
    | some c => s.commandCell id c.2
    | none => s.uncommandCell id) s
  s.tripOuts.foldl (fun s kr => s.setFlag (cellBase (toId kr.1)) Reg.TOUT_STATE_CMD (s.commands kr)) s

/-! Causes and SAFE (R186, R189). -/

def causeCode : Cause → Nat
  | .mismatch => 1 | .clapperFault => 2 | .delayFault => 3 | .dormantCp0 => 4 | .tstFail => 5 | .safeIn => 6

def State.causes (s : State) : Nat := s.rd tbBase Reg.TB_CAUSE_LATCHED
def State.causeLatched (s : State) (c : Cause) : Bool := bitSet s.causes ((causeCode c) - 1)

/-- The cause involves CP0 (R186). -/
def involvesCp0 (c : Cause) (pair : Nat) : Bool :=
  match c with
  | .mismatch | .clapperFault | .delayFault => pair == 0
  | .dormantCp0 | .tstFail => true
  | .safeIn => false

/-- A cause is latched (R189): FIRST takes it when none was latched; PAIR and SUB; the recorder takes it (R396 SRC 4). -/
def State.latchCause (s : State) (c : Cause) (pair sub : Nat) : State :=
  let first := s.causes == 0
  let new := !s.causeLatched c
  let s := s.when first fun s => s.wr tbBase Reg.TB_CAUSE_FIRST (causeCode c)
  let s := s.wr tbBase Reg.TB_CAUSE_LATCHED (s.causes ||| 2 ^ ((causeCode c) - 1))
  let s := s.when ((causeCode c) ≤ 3) fun s => s.wr tbBase Reg.TB_CAUSE_PAIR pair
  let s := s.when (c == .tstFail) fun s => s.wr tbBase Reg.TB_CAUSE_SUB sub
  s.when new fun s => s.occur 4 (causeCode c) (if (causeCode c) ≤ 3 then (pair : Rat) else if c == .tstFail then (sub : Rat) else 0) (keyOfBlock 2 24) 0

/-- The lowest latched cause code of a mask, 0 for none. -/
def lowestCause (m : Nat) : Nat := ((List.range 6).find? fun i => bitSet m i).elim 0 (· + 1)

/-- A latched cause is cleared; FIRST moves to the lowest still latched when it named this one (R189). -/
def State.clearCause (s : State) (c : Cause) : State :=
  if s.causeLatched c then
    let m := s.causes - 2 ^ ((causeCode c) - 1)
    let s := s.wr tbBase Reg.TB_CAUSE_LATCHED m
    let s := s.when (s.rd tbBase Reg.TB_CAUSE_FIRST == (causeCode c)) fun s => s.wr tbBase Reg.TB_CAUSE_FIRST (lowestCause m)
    s.when (c == .tstFail) fun s => s.wr tbBase Reg.TB_CAUSE_SUB 0
  else s

/-- A pending or preparing commit is abandoned (R57, R52, R69): RESULT takes the code and nothing else changes. -/
def State.abandonCommit (s : State) (c : Code) : State :=
  let ph := s.rd nvjBase Reg.IMG_STATUS_PHASE
  if ph = 4 ∨ ph = 5 then
    let s := (s.wr nvjBase Reg.IMG_STATUS_PHASE 0).wr nvjBase Reg.IMG_STATUS_RESULT c.toNat
    (s.bump nvjBase Reg.IMG_COMMITS_ABANDONED).modImg fun i => { i with next := [] }
  else s

/-- The hardwired safe line is asserted or released (R186): every Field block takes it as a safe command of its physical outputs. -/
def State.setLine (s : State) (on : Bool) : State :=
  if s.flag tbBase Reg.TB_STATUS_HWSAFE == on then s
  else s.physicalCells.foldl (fun s id => s.lineCell id on) (s.setFlag tbBase Reg.TB_STATUS_HWSAFE on)

/-- The safety-relevant fault of R22, R96, R186 and R499 in the present state. -/
def State.safetyFault (s : State) (c : Cause) (pair sub : Nat) : State :=
  let hardware := (causeCode c) ≤ 3
  if s.mst = stPowerup then s
  else if s.mst = stSelftest then
    if hardware || c == .tstFail then
      (s.latchCause c pair sub).when (s.tstate == tsDisarmed || s.tstate == tsArmed) fun s => s.setTstate tsSafe
    else s
  else if s.mst = stPfail then
    if hardware then s.latchCause c pair sub else s
  else
    let s := s.latchCause c pair sub
    let entered := s.mst != stSafe
    let s := s.when entered fun s =>
      let s := s.abandonCommit E_STATE
      let s := (s.modFab fun f => { f with runPending := false, stopPending := false }).goMst stSafe
      (List.range 4).foldl State.syncOff s.leaveService.endBypasses
    -- SAFE_IN_N is read by Tocsin on CP0 (R190): a stopped CP0 does not enter SAFE for it, and the island's line follows (R186)
    let blind := c == .safeIn && s.flag (cpBase 0) Reg.CP_STATUS_HELD
    let s := s.when (!blind && (s.tstate == tsDisarmed || s.tstate == tsArmed)) fun s => s.setTstate tsSafe
    let s := s.modToc fun t => { t with hardCp0 := t.hardCp0 || (hardware && pair == 0) }
    let s := s.tripAll
    let s := s.when (c == .dormantCp0) fun s => s.modToc fun t => { t with cp0Ok := false }
    if involvesCp0 c pair then (s.setFlag (cpBase 0) Reg.CP_STATUS_HELD true).setLine true else s

/-! Scan (R181). -/

/-- Tocsin scans: it is not stopped, CP0 is not held and no RETEST runs (R184, R186, R503). -/
def State.scanning (s : State) : Bool :=
  s.tstate != tsStopped && !s.flag (cpBase 0) Reg.CP_STATUS_HELD && !s.flag tbBase Reg.TB_STATUS_RETESTING

/-- The inputs are sampled (R165), and the demand registers follow (R196). -/
def State.sampleInputs (s : State) : State :=
  s.tripins.foldl (fun s r =>
    let n := tiNum r
    let src := s.tripSource r
    let s := s.modTin n (sampleTripIn r src)
    s.setFlag tbBase (demandField n) (countsDemand r (s.tin n))) s

/-- The configured inputs that count as demand, a bypass ignored. -/
def State.demanding (s : State) : List Nat :=
  (s.tripins.filter fun r => countsDemand r (s.tin (tiNum r))).map tiNum

/-- DISARMED becomes ARMED at a scan that finds every condition met (R184). -/
def State.tryArm (s : State) : State :=
  s.when (s.tstate == tsDisarmed && s.mstIn [stReady, stRun, stService] && s.img.committed &&
      s.flag tbBase Reg.TB_STATUS_STPASS && !s.flag tbBase Reg.TB_STATUS_DBGFLAG && s.toc.safeIn && s.causes == 0)
    fun s => s.setTstate tsArmed

/-- A reset of trip output `k` at the applying scan (R178): the code, and the effect. -/
def State.applyReset (s : State) (k : Nat) : Code × State :=
  let b := cellBase (toId k)
  if !s.mstIn [stRun, stService] || s.tstate != tsArmed then (E_STATE, s)
  else if s.flag b Reg.TOUT_STATE_DEMAND then (E_STATE, s)
  else if !s.tripped k then (E_OK, s)
  else
    let s := (s.setTripped k false).bump b Reg.TOUT_CNT_RESETS
    let s := s.when (s.cst (toId k) == csStart) fun s => s.setCst (toId k) csRun
    (E_OK, s.occur 1 k ((s.time.cycles - Store.get 0 s.toc.trippedAt k) / 500000000 : Nat) (keyOfCell (toId k)) 0)

/-- The resets that wait for this scan; a refused reset signal counts in CELL.ERR:ERRORS (R502). -/
def State.applyResets (s : State) : State :=
  let l := s.toc.resets
  (l.foldl (fun s kp =>
    let (c, s) := s.applyReset kp.1
    match kp.2 with
    | some p => s.answer p c
    | none => s.when (c != E_OK) fun s => s.bump (cellBase (toId kp.1)) Reg.CELL_ERR_ERRORS) s).modToc fun t => { t with resets := [] }

/-- Bypasses whose time has run out end at this scan (R179). -/
def State.expireBypasses (s : State) : State :=
  (s.toc.inputs.filter fun e => match e.2.bypass with | some t => decide (t ≤ s.time.cycles) | none => false).foldl
    (fun s e => s.endBypass e.1) s

/-- A scan that completes (R174, R175, R181, R184, R185, R186). -/
def State.scan (s : State) (columnOk railsOk : Bool) : State :=
  let s := s.expireBypasses.sampleInputs.tryArm
  let byp := s.bypassed
  let dem := s.demanding
  let s := s.tripOuts.foldl (fun s kr => s.evalTripOut dem byp kr) s
  let s := s.applyResets
  -- the line is released when CP0 is scanning again in SAFE
  let s := s.issueCommands
  let s := s.when (s.mst == stSafe || s.tstate == tsSafe) fun s => s.setLine false
  let s := s.modToc fun t => { t with column := !t.column, rails := if railsOk then 0 else t.rails + 1, scanned := true,
                                      tx := (List.range 8).foldl (fun m n => let e := Store.get (0, 0) m n; Store.set (0, 0) m n (e.1, min 200 (e.2 + 1))) t.tx }
  let s := s.when (!columnOk) fun s => s.safetyFault .tstFail 0 2
  s.when (2 ≤ s.toc.rails && !railsOk) fun s => s.safetyFault .tstFail 0 4

/-- TOCSIN_SCAN (R181). -/
def execTocsinScan (evalNs : BitVec 16) (missed columnOk railsOk : Bool) (s : State) : Host.Outcome State Fault Refusal :=
  done <|
    if s.scanning then
      let s := s.wrw tbBase Reg.TB_SCANCNT (s.rdw tbBase Reg.TB_SCANCNT + 1)
      let s := s.wr tbBase Reg.TB_SCANMAX_EVALNS (max (s.rd tbBase Reg.TB_SCANMAX_EVALNS) evalNs.toNat)
      if missed then s.bump tbBase Reg.TB_SCANMAX_MISSED else s.scan columnOk railsOk
    else s

/-- SCAN_WATCHDOG_EXPIRY (R185 sub 1): three consecutive scans not completed. -/
def execScanWatchdogExpiry (s : State) : Host.Outcome State Fault Refusal :=
  done <| if s.tstate == tsStopped then s else s.safetyFault .tstFail 0 1

/-- MATRIX_CRC_CHECK (R185 sub 3): the CRC differs, or an uncorrectable word is read. -/
def execMatrixCrcCheck (ok : Bool) (s : State) : Host.Outcome State Fault Refusal :=
  done <| if s.scanning && (!ok || s.toc.matrixBad) then s.safetyFault .tstFail 0 3 else s

/-! Safety connections (R167–R171). -/

/-- The TRIPIN records that receive a connection. -/
def State.connRecs (s : State) (id : Nat) : List Record := s.tripins.filter fun r => tiSrc r == 3 && tiId r == id

/-- SAFETY_PDU_RECEIVE (R169, R170). -/
def State.receivePdu (s : State) (pdu : BitVec 128) : State :=
  if pduCrc pdu ≠ pduCrcField pdu ∨ 2 ≤ pduFlags pdu ∨ pduRes pdu ≠ 0 then s.bump tbBase Reg.TB_SCFAIL_CRCERR
  else
    match s.connRecs (pduConn pdu) with
    | [] => s.bump tbBase Reg.TB_SCFAIL_UNKNOWN
    | r :: _ =>
      let seq := BitVec.ofNat 16 (pduSeq pdu)
      s.modConn (pduConn pdu) fun c =>
        let d := (seq - c.lastSeq).toNat
        if !c.seen then { c with seen := true, lastSeq := seq, chained := false }
        else if d = 0 then c
        else if d ≤ tiSeqWin r then
          { c with lastSeq := seq, chained := true, valid := c.valid || c.chained,
                   senderSafe := pduFlags pdu % 2 == 1, bits := BitVec.ofNat 32 (pduBits pdu) }
        else
          { c with valid := false, seen := !c.valid, chained := false, lastSeq := seq,
                   seqErr := sat16 c.seqErr }

def execSafetyPduReceive (pdu : BitVec 128) (s : State) : Host.Outcome State Fault Refusal := done (s.receivePdu pdu)

/-- SAFETY_CONNECTION_TIMEOUT (R170): WD has elapsed with no accepted PDU. -/
def execSafetyConnectionTimeout (connId : BitVec 32) (s : State) : Host.Outcome State Fault Refusal :=
  done <| s.when (s.conn connId.toNat).valid fun s => s.modConn connId.toNat fun c =>
    { c with valid := false, seen := false, chained := false, timeouts := sat16 c.timeouts }

/-- The trip outputs carried by a transmitted connection. -/
def State.txOuts (s : State) (n : Nat) : List (Nat × Record) := s.tripOuts.filter fun kr => trTxConn kr.2 == n

/-- The sender is in SAFE, or its Tocsin is not ARMED (R167). -/
def State.senderSafe (s : State) : Bool := s.mst == stSafe || s.tstate != tsArmed

/-- The PDU of a transmitted connection (R167, R171): a mapped bit carries 1 while its output is not tripped. -/
def State.buildPdu (s : State) (connId : Nat) (seq : Nat) (outs : List (Nat × Record)) : BitVec 128 :=
  let bits := outs.foldl (fun b kr => if s.tripped kr.1 then b else b ||| 2 ^ trTxBit kr.2) 0
  let low := connId + seq * 2 ^ 32 + s.senderSafe.toNat * 2 ^ 48 + bits * 2 ^ 64
  BitVec.ofNat 128 (low + crc32c (leBytes low 12) * 2 ^ 96)

/-! Resets, bypasses and causes. -/

/-- A write of TOUT.CTRL:RESET (R178) applies at the next scan and is answered after it; where no scan can come it is refused at once. -/
def decideTripReset (who : Option Port) (k : Nat) (s : State) : Option Code × State :=
  if !s.exists_ (toId k) || !s.scanning then (some E_STATE, s)
  else (none, s.modToc fun t => { t with resets := t.resets ++ [(k, who)] })

/-- TRIP_RESET (R178). -/
def execTripReset (p : Port) (o : Fin 128) (s : State) : Host.Outcome State Fault Refusal :=
  commandHeld p (decideTripReset (some p) o.val) s

/-- The bypass decisions (R179) for the input that TB.TISEL selects. -/
def decideBypass (p : Port) (seconds : Nat) (s : State) : Code × State :=
  let n := s.rd tbBase Reg.TB_TISEL_INPUT
  if p ≠ .service then (E_ACCESS, s)
  else if !s.mstIn [stRun, stService] then (E_STATE, s)
  else
    match s.tripin n with
    | none => (E_RANGE, s)
    | some r =>
      if tiBypMax r = 0 then (E_LOCKED, s)
      else if 60 * tiBypMax r < seconds then (E_RANGE, s)
      else if seconds = 0 then
        (E_OK, s.modTin n fun t => { t with bypass := t.bypass.map fun _ => s.time.cycles, granted := t.granted - s.bypassLeft t })
      else if 8 ≤ (s.bypassed.filter fun i => i != n).length then (E_FULL, s)
      else
        let s := s.modTin n fun t => { t with bypass := some (s.time.cycles + seconds * 500000000), granted := seconds }
        (E_OK, (s.occur 2 n seconds (keyOfBlock 2 24) 0).countBypasses)

/-- BYPASS (R179). -/
def execBypass (p : Port) (seconds : BitVec 16) (s : State) : Host.Outcome State Fault Refusal :=
  command p (decideBypass p seconds.toNat) s

/-- BYPASS_EXPIRY (R179): the bypass's time has run out and the first scan after it ends it. -/
def execBypassExpiry (i : Fin 256) (s : State) : Host.Outcome State Fault Refusal :=
  done ((s.when (s.tin i.val).bypass.isSome fun s =>
    s.modTin i.val fun t => { t with bypass := some s.time.cycles }).endBypass i.val)

/-- TB.CTRL:ACK (R189, R196): clears DORMANT_CP0 once CP0 has resynchronised, and SAFE_IN while SAFE_IN_N is high. -/
def decideCauseAck (s : State) : Code × State :=
  let d := s.causeLatched .dormantCp0 && s.toc.cp0Ok
  let i := s.causeLatched .safeIn && s.toc.safeIn
  if d || i then
    (E_OK, (s.when d fun s => s.clearCause .dormantCp0).when i fun s => s.clearCause .safeIn)
  else (E_STATE, s)

/-- CAUSE_ACK (R189). -/
def execCauseAck (p : Port) (s : State) : Host.Outcome State Fault Refusal :=
  command p (decideCauseAck) s

/-- TB.CTRL:RETEST (R503, R196). -/
def decideRetest (s : State) : Code × State :=
  if s.mst ≠ stSafe then (E_STATE, s)
  else if s.flag tbBase Reg.TB_STATUS_RETESTING then (E_BUSY, s)
  else (E_OK, s.setFlag tbBase Reg.TB_STATUS_RETESTING true)

/-- RETEST (R503). -/
def execRetest (p : Port) (s : State) : Host.Outcome State Fault Refusal :=
  command p (decideRetest) s

/-- RETEST_COMPLETE (R503): `failSub` is the lowest failing part, 0 where every part passes. A pass clears TST_FAIL with subcodes 1–4 and 6,
and CP0 resumes scanning where nothing else holds it. -/
def execRetestComplete (failSub : Nat) (s : State) : Host.Outcome State Fault Refusal :=
  done <|
    if s.flag tbBase Reg.TB_STATUS_RETESTING then
      let s := s.setFlag tbBase Reg.TB_STATUS_RETESTING false
      if failSub = 0 then
        let s := s.setFlag tbBase Reg.TB_STATUS_STPASS true
        let s := s.when (s.rd tbBase Reg.TB_CAUSE_SUB != 5 && !s.flag (cpBase 0) Reg.CP_STATUS_SPLIT) fun s => s.clearCause .tstFail
        s.when (!s.causeLatched .tstFail && !s.toc.hardCp0 && !(s.causeLatched .dormantCp0 && !s.toc.cp0Ok)) fun s =>
          s.setFlag (cpBase 0) Reg.CP_STATUS_HELD false
      else s.safetyFault .tstFail 0 failSub
    else s

end Sys2Proof.Machine
end

