-- ==== Sys2Proof/Machine/Chain.lean ====
section
/-! DEFINITION. The station chain (10): links, credits, frames and forwarding, residence time, process-image exchange and safety frames. -/

namespace Sys2Proof.Machine

/-! Ports (R273–R276). -/

def otherPort : ChainPort → ChainPort
  | .up => .down
  | .down => .up

def linkField : ChainPort → Field
  | .up => Reg.CH_STATUS_UPLINK
  | .down => Reg.CH_STATUS_DNLINK
def flitErrField : ChainPort → Field
  | .up => Reg.CH_UP_ERR_FLITERR
  | .down => Reg.CH_DN_ERR_FLITERR
def poisonedField : ChainPort → Field
  | .up => Reg.CH_UP_ERR_POISONED
  | .down => Reg.CH_DN_ERR_POISONED
def corrField : ChainPort → Field
  | .up => Reg.CH_UP_CNT_CORR
  | .down => Reg.CH_DN_CNT_CORR
def linkDownsField : ChainPort → Field
  | .up => Reg.CH_UP_CNT_LINKDOWNS
  | .down => Reg.CH_DN_CNT_LINKDOWNS
def resyncField : ChainPort → Field
  | .up => Reg.CH_RESYNC_UP
  | .down => Reg.CH_RESYNC_DN

/-- Link states of a port: 0 DOWN, 1 TRAINING, 2 UP (R309). -/
def State.link (s : State) (p : ChainPort) : Nat := s.rd chBase (linkField p)
def State.setLink (s : State) (p : ChainPort) (n : Nat) : State := s.wr chBase (linkField p) n

def State.cport (s : State) : ChainPort → ChainPortSt
  | .up => s.chain.up
  | .down => s.chain.down
def State.modCport (s : State) (p : ChainPort) (f : ChainPortSt → ChainPortSt) : State :=
  match p with
  | .up => s.modChain fun c => { c with up := f c.up }
  | .down => s.modChain fun c => { c with down := f c.down }

/-- Receive buffers per port in flits, and the largest frame of each channel (R274). -/
def vcBuffer (vc : Nat) : Nat := if vc < 2 then 512 else if vc = 2 then 128 else 32
def vcLargest (vc : Nat) : Nat := if vc < 2 then 256 else if vc = 2 then 64 else 4

/-- The counter of one channel. -/
def perVc (l : List Nat) (vc : Nat) : Nat := l.getD vc 0
def addVc (l : List Nat) (vc n : Nat) : List Nat := (List.range 4).map fun i => if i = vc then perVc l i + n else perVc l i
def subVc (l : List Nat) (vc n : Nat) : List Nat := (List.range 4).map fun i => if i = vc then perVc l i - n else perVc l i

/-- The chain address; 0 for none. -/
def State.addr (s : State) : Nat := s.rd modBase Reg.MOD_ADDR_ADDR

/-- The frame's bytes that TSPEC holds (R277): header byte `i` of 26–31. -/
def tspec (f : ChainFrame) (i : Nat) : Nat := ((f.tspec.getD (i - 26) 0)).toNat

def dropFrame (s : State) : State := s.bump chBase Reg.CH_DROP_FRAMES

/-! Frames that leave. -/

/-- The time base in units of 2^−16 ns (R281). -/
def State.now16 (s : State) : Nat := s.nowNs * 65536 + s.time.frac.toNat / 65536

/-- Big-endian number of a byte list. -/
def beNat (l : List Byte) : Nat := l.foldl (fun n b => n * 256 + b.toNat) 0
/-- The `n` bytes of a number, most significant first. -/
def beBytes (v n : Nat) : List Byte := (List.range n).map fun i => BitVec.ofNat 8 (v / 256 ^ (n - 1 - i))
/-- The `n` bytes of a number, least significant first. -/
def leList (v n : Nat) : List Byte := (List.range n).map fun i => BitVec.ofNat 8 (v / 256 ^ i)
/-- Little-endian number of a byte list. -/
def leNat (l : List Byte) : Nat := l.foldr (fun b n => n * 256 + b.toNat) 0

/-- The PTP message of a frame starts at byte 0 of the second flit (R281). -/
def ptpBytes (f : ChainFrame) : List Byte := f.payload.headD []
def ptpType (f : ChainFrame) : Nat := ((ptpBytes f).getD 0 0).toNat % 16
def ptpTwoStep (f : ChainFrame) : Bool := ((ptpBytes f).getD 6 0).toNat / 2 % 2 == 1
/-- Peer-delay messages of IEEE 1588. -/
def ptpPeerDelay (f : ChainFrame) : Bool := [2, 3, 10].contains (ptpType f)

/-- Sync and Delay_Req take the residence time in correctionField, bytes 8–15; a two-step Sync passes unchanged (R281, R282). -/
def State.correct (s : State) (f : ChainFrame) (arrived : Nat) : ChainFrame × State :=
  if f.ty = 3 ∧ ptpType f ≤ 1 then
    if ptpType f = 0 ∧ ptpTwoStep f then (f, s.bump chBase Reg.CH_TC_TWOSTEP)
    else
      let res := s.now16 - arrived
      let first := ptpBytes f
      let old := (BitVec.ofNat 64 (beNat ((first.drop 8).take 8))).toInt
      let sum := old + res
      let tooBig := decide ((2 : Int) ^ 63 - 1 < sum)
      let new := if tooBig then (2 : Nat) ^ 63 - 1 else (BitVec.ofInt 64 sum).toNat
      let first := first.take 8 ++ beBytes new 8 ++ first.drop 16
      let s := s.when tooBig dropFrame
      let s := s.bump chBase Reg.CH_TC_CORRECTED
      let s := s.wr chBase Reg.CH_TCMAX_NS (max (s.rd chBase Reg.CH_TCMAX_NS) (min (res / 65536) 65535))
      ({ f with payload := first :: f.payload.tail }, s)
  else (f, s)

/-- Precedence among the waiting frames of one channel: one that has begun to leave; then a local frame that four forwarded frames have passed, forwarded
frames, local ones; on channel 0 a SAFETY frame before any PI frame (R280). -/
def waitRank (w : Waiting) : Nat :=
  if w.sent ≠ 0 then 0
  else (if w.f.vc = 0 ∧ w.f.ty = 1 then 4 else 1) + (if w.own then (if 4 ≤ w.passed then 0 else 2) else 1)

/-- The next frame of a channel to leave: the oldest of lowest rank. -/
def nextOf (q : List Waiting) (vc : Nat) : Option Waiting :=
  (q.filter fun w => w.f.vc.val == vc).foldl (fun best w =>
    match best with
    | some b => if waitRank w < waitRank b then some w else best
    | none => some w) none

/-- The channel whose flits leave next: the one of highest precedence that has a flit ready and a credit (R274). -/
def egressVc (c : ChainPortSt) : Option Nat :=
  [3, 0, 2, 1].find? fun vc => perVc c.cred vc != 0 && (nextOf c.queue vc).isSome

/-- The own receive buffer frees flits of a frame (R275). -/
def State.free_ (s : State) (ingress : ChainPort) (vc n : Nat) : State :=
  s.modCport ingress fun c => { c with freed := (addVc c.freed vc n).map fun n => n % 65536 }

/-- A frame has left; a chime frame shows as its OP and VALUE (R283). -/
def State.emitFrame (s : State) (p : ChainPort) (f : ChainFrame) : State :=
  if f.ty = 7 then s.emit (.chime p (((f.payload.headD []).getD 0 0)).toNat (((f.payload.headD []).getD 1 0)).toNat) else s.emit (.chain p f)

/-- The next flits of a port leave: those of one frame, as far as its channel has credit (R274, R275). A forwarded frame frees the receive buffer as it
leaves, and one that begins to leave passes the local frames of its channel. -/
def State.egress (s : State) (p : ChainPort) : State :=
  match egressVc (s.cport p) with
  | none => s
  | some vc =>
    match nextOf (s.cport p).queue vc with
    | none => s
    | some w =>
      let k := min (perVc (s.cport p).cred vc) (w.f.flits - w.sent)
      let (f, s) := if w.own || w.sent != 0 then (w.f, s) else s.correct w.f w.arrived
      let w' : Waiting := { w with f := f, sent := w.sent + k }
      let starts := !w.own && w.sent == 0
      let s := s.modCport p fun c =>
        { c with
          cred := subVc c.cred vc k
          sent := addVc c.sent vc k
          queue := (if f.flits ≤ w'.sent then c.queue.erase w else c.queue.replace w w').map fun x =>
            if starts && x.own && x.sent == 0 && x.f.vc.val == vc then { x with passed := x.passed + 1 } else x }
      let s := s.when (!w.own) fun s => s.free_ (otherPort p) vc k
      if f.flits ≤ w'.sent then s.emitFrame p f else s

/-- A frame of this module waits at a port, and leaves at once where nothing goes before it (R274, R280). A port that is not UP carries none. -/
def State.originate (s : State) (p : ChainPort) (f : ChainFrame) : State :=
  if s.link p ≠ 2 then s
  else
    let w : Waiting := ⟨f, s.now16, true, 0, 0⟩
    let s := s.modCport p fun c => { c with queue := c.queue ++ [w] }
    if egressVc (s.cport p) = some f.vc.val ∧ nextOf (s.cport p).queue f.vc.val = some w then s.egress p else s

/-- A frame of this module to another address takes the port toward it; DST 0x7F both (R279). -/
def State.sendChain (s : State) (f : ChainFrame) : State :=
  if f.dst = 0x7F then (s.originate .up f).originate .down f
  else if s.addr < f.dst.toNat then s.originate .down f
  else s.originate .up f

/-- The header of a frame of this module (R277): STROKE and TIME are those of the last boundary. -/
def State.newFrame (s : State) (dst : BitVec 8) (ty : BitVec 8) (vc : Fin 4) (valid : BitVec 16) (tspec : List Byte)
    (payload : List (List Byte)) : ChainFrame :=
  { dst := dst, src := BitVec.ofNat 8 s.addr, ty := ty, hops := 63, len := payload.length + 1, valid := valid,
    stroke := BitVec.ofNat 64 s.strokeNo,
    timeS := BitVec.ofNat 48 ((s.rdw tmBase Reg.STK_TB_SLO).toNat + s.rd tmBase Reg.STK_TB_SHI_S * 2 ^ 32),
    timeNs := s.rdw tmBase Reg.STK_TB_NS, tspec := tspec, payload := payload, vc := vc, flits := payload.length + 1,
    badFlits := 0, corrected := [], poisoned := [] }

/-- Payload flits that hold a message from byte 0 of the second flit; what is left of the last one is 0 (R281, R463). -/
def granulesOf (l : List Byte) : List (List Byte) :=
  (List.range ((l.length + 31) / 32)).map fun i => let g := (l.drop (32 * i)).take 32
    g ++ List.replicate (32 - g.length) 0

/-- A BULKNAK (R298): TSPEC names the sending pair, MSGSEQ and the result code. -/
def State.nakFrame (s : State) (f : ChainFrame) (code : Code) : ChainFrame :=
  s.newFrame f.src 6 2 0 [BitVec.ofNat 8 (tspec f 27), 0, BitVec.ofNat 8 (tspec f 28), BitVec.ofNat 8 (tspec f 29), 0, code] []

/-- A chime frame to the neighbour (R283): OP and VALUE in the first payload bytes, TSPEC 0. -/
def State.chime (s : State) (p : ChainPort) (op v : Nat) : State :=
  s.originate p (s.newFrame 0 7 2 0 (List.replicate 6 0) [[BitVec.ofNat 8 op, BitVec.ofNat 8 v] ++ List.replicate 30 0])

/-! Links (R273). -/

/-- CHAIN_LINK_TRAINED: TRAINING → UP, with the partner's buffers as credits; the counts start anew (R275, R276). Without REF_CH no training completes (R429). -/
def execChainLinkTrained (p : ChainPort) (s : State) : Host.Outcome State Fault Refusal :=
  done <|
    if s.link p = 1 && s.flag pwrBase Reg.PWR_STATUS_REFCH then
      (s.setLink p 2).modCport p fun c =>
        { c with cred := (List.range 4).map vcBuffer, sent := [0, 0, 0, 0], freed := [0, 0, 0, 0] }
    else s

/-- A frame whose onward port is not UP is dropped, which counts it once; BULK returns a BULKNAK with E_ADDR toward its sender (R279). -/
def State.dropOnward (s : State) (egress : ChainPort) (f : ChainFrame) : State :=
  let s := s.when (f.badFlits == 0) dropFrame
  if f.ty = 5 then s.originate (otherPort egress) (s.nakFrame f E_ADDR) else s

/-- What waits for a port that is not UP is dropped (R279). -/
def State.flushPort (s : State) (p : ChainPort) : State :=
  let q := (s.cport p).queue
  let s := s.modCport p fun c => { c with queue := [], next := [] }
  q.foldl (fun s w => if w.own then s else (s.free_ (otherPort p) w.f.vc.val (w.f.flits - w.sent)).dropOnward p w.f) s

/-! Leaving ENUM (R284). -/

/-- MOD.ADDR takes the address as the module leaves ENUM for LOAD. -/
def State.leaveEnum (s : State) (a : Nat) : State :=
  let s := (s.wr modBase Reg.MOD_ADDR_ADDR a).wr chBase Reg.CH_STATUS_ADDR a
  (s.modChain fun c => { c with kept := none, provisional := none }).goMst stLoad

/-- A provisional address is confirmed with the tail's address `v`: END goes up the chain. -/
def State.confirmAddr (s : State) (v : Nat) : State :=
  match s.chain.provisional with
  | some a => ((s.wr chBase Reg.CH_STATUS_COUNT v).chime .up 2 v).leaveEnum a
  | none => s

/-- A module in ENUM with a provisional address and no DOWN neighbour is the tail. -/
def State.confirmTail (s : State) : State :=
  match s.chain.provisional with
  | some a => if s.mst = stEnum ∧ s.link .down ≠ 2 then s.confirmAddr a else s
  | none => s

/-- UP → TRAINING (R273). -/
def State.linkLoss (s : State) (p : ChainPort) : State :=
  if s.link p = 2 then
    let s := ((s.setLink p 1).bump chBase (linkDownsField p)).flushPort p
    s.when (p == .down) State.confirmTail
  else s

/-- Module enters POWERUP or PFAIL: lanes off, frames in flight gone (R273). -/
def State.chainOff (s : State) : State :=
  ((s.setLink .up 0).setLink .down 0).modChain fun c => { c with up := ChainPortSt.init, down := ChainPortSt.init }

/-- Module leaves POWERUP: training starts (R273). -/
def State.chainOn (s : State) : State := (s.setLink .up 1).setLink .down 1

/-- Credits come back with any flit, up to the partner's buffer (R275). -/
def State.takeCredits (s : State) (p : ChainPort) (returned : List Nat) : State :=
  s.modCport p fun c => { c with cred := (List.range 4).map fun vc => min (vcBuffer vc) (perVc c.cred vc + perVc returned vc) }

/-- ALIGNMENT_FLIT (R276): the freed counts of the partner set the credits; each channel that differs from what the flits before it, idle ones among them,
have brought back (R275) counts RESYNC. -/
def execAlignmentFlit (p : ChainPort) (flits : FlitCounts) (s : State) : Host.Outcome State Fault Refusal :=
  done <|
    if s.link p = 2 then
      let s := s.takeCredits p flits.returned
      let c := s.cport p
      let new := (List.range 4).map fun vc => vcBuffer vc - (perVc c.sent vc + 65536 - (flits.freed.getD vc 0).toNat) % 65536
      let n := ((List.range 4).filter fun vc => perVc new vc != perVc c.cred vc).length
      (s.bumpBy chBase (resyncField p) n).modCport p fun c => { c with cred := new }
    else s

/-! Reception (R277–R279). -/

/-- The channel of a TYPE (R278). -/
def typeVc (ty : Nat) : Option Nat :=
  if ty = 1 ∨ ty = 2 then some 0
  else if ty = 5 then some 1
  else if ty = 4 ∨ ty = 6 ∨ ty = 7 then some 2
  else if ty = 3 then some 3
  else none

/-- A frame received on `p` is forwarded by its address (R279). -/
def State.forwards (s : State) (p : ChainPort) (f : ChainFrame) : Bool :=
  let d := f.dst.toNat
  if d = 0 then false
  else if s.addr = 0 then true
  else match p with
    | .up => decide (s.addr < d)
    | .down => decide (d < s.addr) || d == 0x7F

/-- A frame is delivered here (R279). -/
def State.delivers (s : State) (f : ChainFrame) : Bool := f.dst.toNat == s.addr || f.dst == 0x7F || f.dst == 0

/-- The discards of R278 other than a dropped flit: by the first flit, and by the flits received. -/
def State.badHeader (s : State) (p : ChainPort) (f : ChainFrame) : Bool :=
  typeVc f.ty.toNat != some f.vc.val || vcLargest f.vc.val < f.len || (f.hops == 0 && s.forwards p f) ||
    (if f.ty = 5 then f.valid == 0 || 32 < f.valid.toNat else f.valid != 0)
def State.badFrame (s : State) (p : ChainPort) (f : ChainFrame) : Bool := s.badHeader p f || f.len != f.flits + f.badFlits

/-- A frame leaves its receive buffer into a duty of this module; every recipient discards a poisoned one (R279), but a queue pair takes the granules of a
BULK frame before it (R297). -/
def State.deliverFrame (s : State) (f : ChainFrame) : State :=
  if f.badFlits ≠ 0 then s else if !f.poisoned.isEmpty && f.ty != 5 then dropFrame s else s.emit (.deliver f)

/-- A frame as it leaves again: HOPS falls, corrected words are re-encoded, and one cut short, by a dropped flit or a link loss, ends with one more flit, a
poisoned one, behind those received (R279). -/
def onwardFrame (f : ChainFrame) : ChainFrame :=
  let f := { f with hops := f.hops - 1, corrected := [] }
  if f.badFlits = 0 then f
  else { f with badFlits := 0, flits := f.flits + 1, payload := f.payload ++ [List.replicate 32 0], poisoned := f.poisoned ++ [f.flits] }

/-- A frame with a legal header is forwarded and delivered by its DST (R279); `badFlits` flits of it are missing, and such a frame is discarded here and ends
onward with poison. -/
def State.passFrame (s : State) (p : ChainPort) (f : ChainFrame) : State :=
  let s := s.when (f.badFlits != 0) dropFrame
  let s := s.when (s.delivers f) fun s => s.deliverFrame f
  if !s.forwards p f then s.free_ p f.vc.val f.flits
  else if s.link (otherPort p) = 2 then
    let s := s.when (f.badFlits != 0) fun s => s.bump chBase (poisonedField p)
    s.modCport (otherPort p) fun c => { c with queue := c.queue ++ [⟨onwardFrame f, s.now16, false, 0, 0⟩] }
  else (s.free_ p f.vc.val f.flits).dropOnward (otherPort p) f

/-- A received frame (R278, R279, R281): one whose header cannot be read is discarded, and the error counters count flits (R309). -/
def State.receiveFrame (s : State) (p : ChainPort) (f : ChainFrame) : State :=
  let s := (s.bumpBy chBase (flitErrField p) f.badFlits).bumpBy chBase (corrField p) f.corrected.length
  let s := s.bumpBy chBase (poisonedField p) f.poisoned.length
  if f.poisoned.contains 0 || s.badFrame p f || (f.ty == 3 && ptpPeerDelay f) then (dropFrame s).free_ p f.vc.val f.flits else s.passFrame p f

/-- CHAIN_FRAME_RECEIVE (R278, R279): `returned` are the credits of each channel that the flits since the frame before brought (R275). -/
def execChainFrameReceive (p : ChainPort) (f : ChainFrame) (returned : List Nat) (s : State) : Host.Outcome State Fault Refusal :=
  done <| if s.link p = 2 then (s.takeCredits p returned).receiveFrame p f else s

/-- A frame in flight is truncated (R279): what was received of it is discarded, and where it is being forwarded it ends with poison. -/
def State.cutFrame (s : State) (p : ChainPort) (f : ChainFrame) : State :=
  if f.poisoned.contains 0 || s.badHeader p f || (f.ty == 3 && ptpPeerDelay f) then dropFrame s
  else s.passFrame p { f with badFlits := max 1 (f.len - f.flits) }

/-- CHAIN_LINK_LOSS (R273): the frames in flight are truncated, and the link trains again. -/
def execChainLinkLoss (loss : LinkLoss) (s : State) : Host.Outcome State Fault Refusal :=
  done <| if s.link loss.port = 2 then (loss.cut.foldl (fun s f => s.cutFrame loss.port f) s).linkLoss loss.port else s

/-! Forwarding (R274, R279, R280). -/

/-- The process image that waits behind one still leaving follows when no part of the older one waits (R99). -/
def State.nextImage (s : State) (p : ChainPort) : State :=
  let c := s.cport p
  if c.queue.any fun w => w.own && w.f.ty == 1 then s
  else c.next.foldl (fun s f => s.originate p f) (s.modCport p fun c => { c with next := [] })

/-- FRAME_FORWARD: the flits of highest precedence that have credit leave on the port. -/
def execFrameForward (p : ChainPort) (s : State) : Host.Outcome State Fault Refusal :=
  done <| if s.link p = 2 then (s.egress p).nextImage p else s

/-! Process image (R287–R290). -/

def State.peer (s : State) (k : Nat) : PeerSt := Store.get PeerSt.init s.chain.peers k
def State.modPeer (s : State) (k : Nat) (f : PeerSt → PeerSt) : State :=
  s.modChain fun c => { c with peers := Store.set PeerSt.init c.peers k (f (Store.get PeerSt.init c.peers k)) }

/-- TIMEOUT of a peer context (R288). -/
def State.pcTimeout (s : State) (k : Nat) : Nat := recU16 (s.cfg (pcId k) 0) 0

/-- The first row of R290 holds. -/
def State.pcSelf (s : State) (k : Nat) : Bool := s.addr == 0 || s.addr == k

/-- The 16-byte entries of a payload granule (R287); unused ones have SIGID 0. -/
def granuleEntries (g : List Byte) : List (Nat × SigWord) :=
  ([g.take 16, (g.drop 16).take 16].map fun e =>
    (leNat (e.take 4), SigWord.ofBits (BitVec.ofNat 64 (leNat ((e.drop 8).take 8))))).filter fun e => e.1 != 0

/-- The entries of a PI frame; those of a granule that the word code corrected carry CORR (R76, R287). -/
def piEntries (f : ChainFrame) : List (Nat × SigWord) :=
  f.payload.zipIdx.flatMap fun g =>
    let es := granuleEntries g.1
    if f.corrected.contains (g.2 + 1) then es.map fun e => (e.1, { e.2 with flags := e.2.flags ||| FL_CORR }) else es

/-- A part of an image arrives (R289, R320): it abandons the incomplete images older than its own, and the part that completes an image leaves the newest
complete one. Answers how many were abandoned, and the entries of the image that the part completes. -/
def PeerSt.addPart (p : PeerSt) (stroke : BitVec 64) (nparts part units : Nat) (sync : Bool) (entries : List (Nat × SigWord)) :
    PeerSt × Nat × Option (List (Nat × SigWord)) :=
  if p.last = some stroke then (p, 0, none)
  else
    let a := (p.asm.find? fun a => a.stroke == stroke).getD ⟨stroke, nparts, []⟩
    let parts := a.parts.filter (fun e => e.1 != part) ++ [(part, entries)]
    let rest := p.asm.filter fun a => decide (stroke < a.stroke)
    let gone := (p.asm.filter fun a => decide (a.stroke < stroke)).length
    if a.nparts ≠ 0 ∧ (List.range a.nparts).all fun i => parts.any fun e => e.1 == i then
      let whole := (parts.filter fun e => e.1 < a.nparts).flatMap Prod.snd
      let newer := match p.image with
        | some i => decide (i.1 < stroke)
        | none => true
      ({ p with asm := rest, last := some stroke, image := if newer then some (stroke, units, sync, whole) else p.image },
        gone, some whole)
    else ({ p with asm := { a with parts := parts } :: rest }, gone, none)

/-- PI_FRAME (R289). -/
def execPiFrame (f : ChainFrame) (s : State) : Host.Outcome State Fault Refusal :=
  done <|
    let k := f.src.toNat
    let ok := f.ty == 1 && f.poisoned.isEmpty && f.badFlits == 0 && 1 ≤ k && k < 64 && s.exists_ (pcId k) && !s.pcSelf k && !s.isolated 3 2 &&
      1 ≤ tspec f 29 && tspec f 29 ≤ 16 && tspec f 28 < tspec f 29
    if ok then
      let (p, abandoned, whole) := (s.peer k).addPart f.stroke (tspec f 29) (tspec f 28) (tspec f 26 + 256 * tspec f 27) (tspec f 30 % 2 == 1) (piEntries f)
      let old := (s.peer k).image
      let s := (s.modPeer k fun _ => p).bumpBy (cellBase (pcId k)) Reg.PC_CNT_INCOMPLETE abandoned
      s.when (whole.isSome && old.isSome) fun s => s.bump (cellBase (pcId k)) Reg.PC_CNT_SKIPPED
    else s

/-- The second row of R290 begins. -/
def State.enterTimeout (s : State) (k : Nat) : State :=
  let b := cellBase (pcId k)
  ((s.modPeer k fun p => { p with timedOut := true }).bump b Reg.PC_CNT2_TIMEOUTS).setFlag b Reg.PC_STATE_PRESENT false

/-- A peer's signals published without an image: quality by the row, flags IMPORT, value kept. -/
def State.peerWords (s : State) (k : Nat) (f : SigWord → SigWord) : State :=
  (s.produced (pcId k)).foldl (fun s r => s.setSig (sigId r) (f (s.sig (sigId r)))) s

/-- The age grows by 1, saturating (R11). -/
def olderBy (w : SigWord) (d : Nat) : Nat := min (w.age + d) 65535

/-- Publication of a peer context at the boundary of stroke `strokeNo` (R290). A reserved quality is published as received (DEDUCED, log entry 138). -/
def State.publishPeer (s : State) (k : Nat) : State :=
  let b := cellBase (pcId k)
  let p := s.peer k
  let s := s.setFlag b Reg.PC_STATE_SELF (s.pcSelf k)
  if s.pcSelf k then s.peerWords k fun _ => ⟨0, Q_BAD_CONFIG, FL_IMPORT, 65535⟩
  else
    match p.image with
    | some (stroke, units, sync, entries) =>
      let s := s.when p.timedOut fun s => s.bump b Reg.PC_CNT2_TIMEOUTS
      let s := s.modPeer k fun p => { p with image := none, silent := 0, timedOut := false }
      let s := (s.setFlag b Reg.PC_STATE_PRESENT true).wrw b Reg.PC_LAST (BitVec.ofNat 32 stroke.toNat)
      let aligned := sync && s.flag tmBase Reg.STK_CFG_SYNC && units == s.rd tmBase Reg.STK_CFG_TS_UNITS
      let d := if aligned then min 65535 (max 1 (s.strokeNo - stroke.toNat)) else 1
      (s.produced (pcId k)).foldl (fun s r =>
        let last := s.sig (sigId r)
        -- a value that is not finite is not published (R77): the image is taken to lack the signal (DESIGN CHOICE, log entry 124)
        match entries.find? fun e => e.1 == sigId r && f32Finite e.2.val with
        | some e =>
          (s.setSig (sigId r) ⟨e.2.val, e.2.qual, e.2.flags ||| FL_IMPORT, olderBy e.2 d⟩).modFab fun f =>
            { f with freshAt := Store.set none f.freshAt (sigId r) (some f.boundaries) }
        | none => s.setSig (sigId r) ⟨last.val, Q_BAD_CONFIG, FL_IMPORT, olderBy last 1⟩) s
    | none =>
      let s := s.modPeer k fun p => { p with silent := p.silent + 1 }
      if p.timedOut || s.pcTimeout k ≤ p.silent + 1 then
        let s := s.when (!p.timedOut) fun s => s.enterTimeout k
        s.peerWords k fun w => ⟨w.val, Q_BAD_COMM, FL_IMPORT, olderBy w 1⟩
      else
        s.peerWords k fun w => { w.aged with qual := if 8 ≤ w.qual.toNat && w.qual.toNat ≤ 11 then w.qual else Q_HELD }

/-- PEER_TIMEOUT (R290): the stroke that completes TIMEOUT without a complete image ends. The boundary that closes it advances the ages. -/
def execPeerTimeout (pc : Fin 64) (s : State) : Host.Outcome State Fault Refusal :=
  done <|
    let k := pc.val
    let p := s.peer k
    if s.exists_ (pcId k) && !s.pcSelf k && !p.timedOut && p.image.isNone && s.pcTimeout k ≤ p.silent + 1 then
      (s.enterTimeout k).peerWords k fun w => { w with qual := Q_BAD_COMM, flags := FL_IMPORT }
    else s

/-- A peer context enters START (R288, R310). -/
def State.startPeer (s : State) (k : Nat) : State :=
  let b := cellBase (pcId k)
  ((s.setFlag b Reg.PC_STATE_PRESENT false).wr b Reg.PC_STATE_NSIG (s.produced (pcId k)).length).modPeer k fun _ => PeerSt.init

/-- One entry of a PI frame (R287). -/
def entryBytes (e : Nat × SigWord) : List Byte := leList e.1 4 ++ [0, 0, 0, 0] ++ leList e.2.bits.toNat 8

/-- The entries of a part as payload granules, two to each. -/
def packEntries : List (Nat × SigWord) → List (List Byte)
  | [] => []
  | [a] => [entryBytes a ++ List.replicate 16 0]
  | a :: b :: l => (entryBytes a ++ entryBytes b) :: packEntries l

/-- Parts of at most `n` elements. -/
def partsOf {α : Type} (n : Nat) : Nat → List α → List (List α)
  | 0, _ => []
  | _, [] => []
  | fuel + 1, l => l.take n :: partsOf n fuel (l.drop n)

/-- The exported signals of an interface, in order of SLOT (R287). -/
def exportsOf (img : List Record) (bit : Nat) : List Record :=
  ((signalsOf img).filter fun r => sigExport r / 2 ^ bit % 2 == 1).mergeSort fun a b => sigSlot a ≤ sigSlot b

/-- The PI frames of the image just published (R287). -/
def State.piFrames (s : State) : List ChainFrame :=
  let entries := (exportsOf s.img.active 1).map fun r => (sigId r, s.sig (sigId r))
  let parts := partsOf 510 16 entries
  parts.zipIdx.map fun x =>
    s.newFrame 0x7F 1 0 0
      (leList (s.rd tmBase Reg.STK_CFG_TS_UNITS) 2 ++ [BitVec.ofNat 8 x.2, BitVec.ofNat 8 parts.length,
        BitVec.ofNat 8 (s.flag tmBase Reg.STK_CFG_SYNC).toNat, 0]) (packEntries x.1)

/-- The image is handed to one port; one that still sends an older image keeps the newest, and counts each image it skips (R99). -/
def State.exportPort (s : State) (p : ChainPort) (frames : List ChainFrame) : State :=
  if s.link p ≠ 2 then s
  else if (s.cport p).queue.any fun w => w.own && w.f.ty == 1 then
    let s := s.when (!(s.cport p).next.isEmpty) fun s => s.bump chBase Reg.CH_DROP_SKIPPED
    s.modCport p fun c => { c with next := frames }
  else frames.foldl (fun s f => s.originate p f) s

/-- Export of the image on the chain at a boundary, by a module with an address (R287). -/
def State.exportChain (s : State) : State :=
  if s.addr = 0 then s
  else
    let frames := s.piFrames
    (s.exportPort .up frames).exportPort .down frames

/-! Safety frames (R291). -/

/-- The PDUs of a SAFETY frame: two to a granule, unused halves 0. -/
def framePdus (f : ChainFrame) : List (BitVec 128) :=
  (f.payload.flatMap fun g => [BitVec.ofNat 128 (leNat (g.take 16)), BitVec.ofNat 128 (leNat ((g.drop 16).take 16))]).filter (· != 0)

/-- A SAFETY frame of one PDU to every member (R291). -/
def State.safetyFrame (s : State) (pdu : BitVec 128) : ChainFrame :=
  s.newFrame 0x7F 2 0 0 (List.replicate 6 0) [leList pdu.toNat 16 ++ List.replicate 16 0]

/-- SAFETY_PDU_SEND (R171): every TXPER scans the connection's PDU is handed to the safety class, and its sequence number rises; it leaves on the chain
(R291) and waits for the plant network (R319). -/
def execSafetyPduSend (n : Fin 8) (s : State) : Host.Outcome State Fault Refusal :=
  done <|
    match s.txOuts n.val with
    | [] => s
    | outs@((k, _) :: _) =>
      let rec3 := getRec s.img.active T_TRIP 3 (toId k)
      let (seq, scans) := Store.get (0, 0) s.toc.tx n.val
      if s.scanning && decide (recU16 rec3 4 ≤ scans) then
        let pdu := s.buildPdu (recU32 rec3 0) seq.toNat outs
        let s := s.modToc fun t => { t with tx := Store.set (0, 0) t.tx n.val (seq + 1, 0) }
        ((s.emit (.pdu pdu)).modNet fun x => { x with outPdus := x.outPdus ++ [pdu] }).sendChain (s.safetyFrame pdu)
      else s

/-- CHAIN_SAFETY_FRAME (R291): every PDU of the frame goes to Tocsin. -/
def execChainSafetyFrame (f : ChainFrame) (s : State) : Host.Outcome State Fault Refusal :=
  done <| if f.ty = 2 ∧ f.poisoned = [] ∧ f.badFlits = 0 then (framePdus f).foldl State.receivePdu s else s

end Sys2Proof.Machine
end

