-- ==== Sys2Proof/Machine/WordCode.lean ====
section
/-! DEFINITION. The word code (R374–R378): 20 check bits over 256 data bits and the folded address parity, a shortened BCH code that corrects two
errors, an overall parity bit, and the poison pattern. -/

namespace Sys2Proof.Machine

/-- Sum over GF(2) of the low `n` bits of a number. -/
def parityOf : Nat → Nat → Bool
  | 0, _ => false
  | k + 1, n => (n % 2 == 1) != parityOf k (n / 2)

/-- Folded address parity APAR (R375). -/
def apar (a : Nat) : Bool := parityOf 36 a

/-- Multiplication by α in GF(2^9), α a root of x⁹ + x⁴ + 1. -/
def gfAlpha (x : Nat) : Nat := if 2 * x < 512 then 2 * x else (2 * x) ^^^ 529

/-- The value at α, and at α³, of the polynomial whose coefficients are the low `n` bits of a number. -/
def syndrome1 : Nat → Nat → Nat
  | 0, _ => 0
  | k + 1, w => (gfAlpha (syndrome1 k (w / 2))) ^^^ (w % 2)
def syndrome3 : Nat → Nat → Nat
  | 0, _ => 0
  | k + 1, w => (gfAlpha (gfAlpha (gfAlpha (syndrome3 k (w / 2))))) ^^^ (w % 2)

/-- g(x), the product of the minimal polynomials x⁹ + x⁴ + 1 of α and x⁹ + x⁶ + x⁴ + x³ + 1 of α³ (R375). -/
def bchG : Nat := 0x495C9

/-- The remainder modulo g(x) of x^18 times the low `n` bits of a number, bit n − 1 first. -/
def bchRem : Nat → Nat → Nat → Nat
  | 0, _, acc => acc
  | k + 1, u, acc =>
    let t := 2 * (acc ^^^ (u / 2 ^ k % 2 * 2 ^ 17))
    bchRem k u (if t < 2 ^ 18 then t else t ^^^ bchG)

/-- R375: the 20 check bits of a word at address `a`. -/
def checkBits (d : BitVec 256) (a : Nat) : BitVec 20 :=
  let u := d.toNat + (apar a).toNat * 2 ^ 256
  let b := bchRem 257 u 0
  let p := (parityOf 257 u) != (parityOf 18 b)
  BitVec.ofNat 20 (b + p.toNat * 2 ^ 18 + (apar a).toNat * 2 ^ 19)

/-- Outcomes of a decoding (R377); misdirected words are among the uncorrectable ones in what a reader does with them. -/
inductive Decoded where
  | poisoned | clean | corr1 | corr2 | uncorrectable | misdirected
  deriving DecidableEq, Repr

/-- The lowest position whose single error has a syndrome, sought through `n` positions from `i` on; `x` and `y` are α^i and α^(3i). -/
def locateFrom (s1 s3 : Nat) : Nat → Nat → Nat → Nat → Option Nat
  | 0, _, _, _ => none
  | n + 1, i, x, y => if x = s1 ∧ y = s3 then some i else locateFrom s1 s3 n (i + 1) (gfAlpha x) (gfAlpha (gfAlpha (gfAlpha y)))
def locate1 (s1 s3 : Nat) : Option Nat := locateFrom s1 s3 275 0 1 1

/-- A pair of positions whose errors have a syndrome, the lower sought likewise. -/
def locatePair (s1 s3 : Nat) : Nat → Nat → Nat → Nat → Option (Nat × Nat)
  | 0, _, _, _ => none
  | n + 1, i, x, y => match locate1 (s1 ^^^ x) (s3 ^^^ y) with
    | some j => some (i, j)
    | none => locatePair s1 s3 n (i + 1) (gfAlpha x) (gfAlpha (gfAlpha (gfAlpha y)))
def locate2 (s1 s3 : Nat) : Option (Nat × Nat) := locatePair s1 s3 275 0 1 1

/-- R377: the outcome of decoding data and check bits read at address `a`, and the data. The BCH word holds check bits [17:0] at x^0 to x^17, the data
from x^18 and APAR at x^274. A single located error with even overall parity is of the table's last row. -/
def decodeWord (d : BitVec 256) (c : BitVec 20) (a : Nat) : Decoded × BitVec 256 :=
  let w := c.toNat % 2 ^ 18 + d.toNat * 2 ^ 18 + c.toNat / 2 ^ 19 * 2 ^ 274
  let odd := (parityOf 256 d.toNat) != (parityOf 20 c.toNat)
  let s1 := syndrome1 275 w
  let s3 := syndrome3 275 w
  let fix (w : Nat) (o : Decoded) : Decoded × BitVec 256 :=
    (if (w / 2 ^ 274 == 1) == apar a then o else .misdirected, BitVec.ofNat 256 (w / 2 ^ 18))
  if s1 = syndrome1 275 7 ∧ s3 = syndrome3 275 7 ∧ odd then (.poisoned, d)
  else if s1 = 0 ∧ s3 = 0 then (if odd then fix w .corr1 else fix w .clean)
  else if odd then
    match locate1 s1 s3 with
    | some i => fix (w ^^^ 2 ^ i) .corr1
    | none => (.uncorrectable, d)
  else
    match locate2 s1 s3 with
    | some (i, j) => fix (w ^^^ 2 ^ i ^^^ 2 ^ j) .corr2
    | none => (.uncorrectable, d)

/-- The outcome is a word that its reader cannot use (R378, R379). -/
def Decoded.bad (o : Decoded) : Bool := [.poisoned, .uncorrectable, .misdirected].contains o

/-- The outcome is a corrected word. -/
def Decoded.corrected (o : Decoded) : Bool := [.corr1, .corr2].contains o

end Sys2Proof.Machine
end

