-- ==== Sys2Proof/Machine/Words.lean ====
section
/-! DEFINITION. Words of memory as they are read (14 R376–R378, R382): their addresses, their outcomes, what is counted and what is poisoned. -/

namespace Sys2Proof.Machine

/-- The address folded into a word of memory (R376): physical address bits [35:5], the SRAM standing from 0x1_0000_0000 on (R373), or block × 128 + granule
of the journal. Of an image record and of a chain flit it is the index in the section and in the frame. -/
def foldedAddress (m : MemKind) (granule : Nat) : Nat :=
  match m with
  | .dram | .journal => granule
  | .sram => 2 ^ 27 + granule

/-- R377: the outcome of reading a word in which `flips` differ from what its content and its address encode. The code is linear (R375), so that the outcome
does not depend on the content. -/
def readOutcome (m : MemKind) (granule : Nat) (flips : BitVec 276) : Decoded :=
  let a := foldedAddress m granule
  (decodeWord (flips.extractLsb' 0 256) (checkBits 0 a ^^^ flips.extractLsb' 256 20) a).1

/-- The outcome at a granule: a poisoned one is met as poison until it is written anew (R378). -/
def State.outcomeAt (s : State) (m : MemKind) (granule : Nat) (flips : BitVec 276) : Decoded :=
  match m with
  | .dram => if s.q.poison.contains granule then .poisoned else readOutcome m granule flips
  | .sram => if s.q.sram.contains granule then .poisoned else readOutcome m granule flips
  | .journal => readOutcome m granule flips

/-- The reader finds the word uncorrectable or misdirected (R378). -/
def newlyBad (o : Decoded) : Bool := o == .uncorrectable || o == .misdirected

/-- The counter of an outcome (R382, R393): each fault counts once, where it is found; poison met later counts in MEM.PORT:POISONED only (R378). -/
def faultField (m : MemKind) (port : Bool) (o : Decoded) : Option (Nat × Field) :=
  match m, o with
  | _, .clean => none
  | .journal, .poisoned => none
  | _, .poisoned => some (memBase, Reg.MEM_PORT_POISONED)
  | .dram, .corr1 => some (memBase, Reg.MEM_DRAM1_CORR1)
  | .dram, .corr2 => some (memBase, Reg.MEM_DRAM1_CORR2)
  | .dram, .uncorrectable => some (memBase, Reg.MEM_DRAM2_UNCORR)
  | .dram, .misdirected => some (memBase, if port then Reg.MEM_PORT_MISDIR else Reg.MEM_DRAM2_MISDIR)
  | .sram, .corr1 => some (memBase, Reg.MEM_SRAM1_CORR1)
  | .sram, .corr2 => some (memBase, Reg.MEM_SRAM1_CORR2)
  | .sram, .uncorrectable => some (memBase, Reg.MEM_SRAM2_UNCORR)
  | .sram, .misdirected => some (memBase, if port then Reg.MEM_PORT_MISDIR else Reg.MEM_SRAM2_MISDIR)
  | .journal, .corr1 => some (nvjBase, Reg.NVJ_ECC1_CORR1)
  | .journal, .corr2 => some (nvjBase, Reg.NVJ_ECC1_CORR2)
  | .journal, .uncorrectable => some (nvjBase, Reg.NVJ_ECC2_UNCORR)
  | .journal, .misdirected => some (nvjBase, Reg.NVJ_ECC2_MISDIR)

/-- MEM.ERRINFO and MEM.ERRADDR keep the last uncorrectable or misdirected word: the memory or the region port that found it, and the reader's region (R382). -/
def State.noteError (s : State) (m : MemKind) (port : Bool) (region granule : Nat) (o : Decoded) : State :=
  let s := s.wr memBase Reg.MEM_ERRINFO_MEMORY (if port then 2 else if m = .sram then 1 else 0)
  let s := (s.wr memBase Reg.MEM_ERRINFO_KIND (if o == .misdirected then 1 else 0)).wr memBase Reg.MEM_ERRINFO_REGION region
  (s.setFlag memBase Reg.MEM_ERRINFO_VALID true).wr memBase Reg.MEM_ERRADDR_PA (foldedAddress m granule)

/-- The granule holds poison from here on (R378). -/
def State.poisonGranule (s : State) (m : MemKind) (granule : Nat) : State :=
  let add (l : List Nat) : List Nat := if l.contains granule then l else granule :: l
  match m with
  | .dram => s.modQ fun q => { q with poison := add q.poison }
  | .sram => s.modQ fun q => { q with sram := add q.sram }
  | .journal => s

/-- A reader of a region meets an outcome at a granule (R378, R382): it is counted, and a word found uncorrectable or misdirected in DRAM or SRAM is noted and
poisoned. A journal granule stays unreadable until it is written (R385). -/
def State.meetWord (s : State) (m : MemKind) (port : Bool) (region granule : Nat) (o : Decoded) : State :=
  let s := match faultField m port o with
    | some (b, f) => s.bump b f
    | none => s
  if !newlyBad o then s
  else if m = .journal then s.modJrn fun j => { j with bad := if j.bad.contains granule then j.bad else granule :: j.bad }
  else (s.noteError m port region granule o).poisonGranule m granule

end Sys2Proof.Machine
end

