-- ==== Sys2Proof/Machine/Queue.lean ====
section
/-! DEFINITION. Queue pairs, the DMA engine and the IOMMU (10 R292–R312), over the DMA-visible DRAM (14 R373). -/

namespace Sys2Proof.Machine

/-! DMA-visible memory. -/

/-- The DMA column of the memory map (R373). -/
def dmaLegal (pa : Nat) : Bool := 0x04000000 ≤ pa && pa < 0x70000000

/-- The addressable ranges of the memory map (R373). -/
def mapLegal (pa : Nat) : Bool :=
  pa < 0x70000000 || (0x100000000 ≤ pa && pa < 0x100800000) || (0x200000000 ≤ pa && pa < 0x204000000)

/-- What an unlisted byte of DRAM reads as: SELFTEST writes zeros (R432). -/
def memDefault : BitVec 8 := 0

/-- One byte, and a write of one byte. -/
def State.memByte (s : State) (a : Nat) : Byte := Store.get memDefault s.q.mem a
def memWrite (m : List Host.Cell) (a : Nat) : List Byte → List Host.Cell
  | [] => m
  | b :: l => memWrite (Store.set memDefault m a b) (a + 1) l

/-- The 32 bytes of the granule at a physical address. -/
def State.memGranule (s : State) (pa : Nat) : List Byte := (List.range 32).map fun i => s.memByte (pa + i)
def State.memPoisoned (s : State) (pa : Nat) : Bool := s.q.poison.contains (pa / 32)

/-- A consumer meets a poisoned word (R378). -/
def State.meetPoison (s : State) : State := s.bump memBase Reg.MEM_PORT_POISONED

/-- A transfer is under way: how many of its transactions are in flight at once, 1 to 256, is a free value, which QB.PEAK follows (R300, R311). -/
def State.inFlight (s : State) : State :=
  let (w, s) := s.draw
  s.wr qbBase Reg.QB_PEAK_PEAK (max (s.rd qbBase Reg.QB_PEAK_PEAK) (1 + w.toNat % 256))

/-- Canonical form of DRAM (R432): addresses rise, no byte listed reads 0. -/
abbrev Memory.wf (m : List Host.Cell) : Bool := Store.wf memDefault m

/-! IOMMU (R302–R304). -/

/-- A fault of an access: its code, and whether the table walk itself met it (R303, R306). -/
abbrev AccessFault := Code × Bool

/-- IOMMU.ROOT of a domain. -/
def State.rootOf (s : State) (dom : Nat) : Word := Store.get 0 s.q.roots dom
def rootEn (w : Word) : Bool := w.toNat / 2 ^ 31 == 1

/-- An eight-byte table entry; `none` where its granule is poisoned. -/
def State.tableEntry (s : State) (pa : Nat) : Option Nat :=
  if s.memPoisoned pa then none else some (leNat ((List.range 8).map fun i => s.memByte (pa + i)))

def entryPa (e : Nat) : Nat := e / 4096 % 2 ^ 24 * 4096
def entryReserved (e : Nat) : Bool := e / 16 % 256 != 0 || e / 2 ^ 36 != 0

/-- The walk of R302, with the faults of R303. -/
def State.walk (s : State) (dom iova : Nat) : Except AccessFault TlbEntry :=
  let leaf (big : Bool) (e : Nat) : TlbEntry :=
    ⟨dom, big, iova / (if big then 2 ^ 21 else 4096), entryPa e, e / 4 % 2 == 1, e / 8 % 2 == 1⟩
  let a1 := getField (s.rootOf dom) 0 22 * 16384 + iova / 2 ^ 21 * 8
  if !dmaLegal a1 then .error (E_ADDR, true)
  else match s.tableEntry a1 with
  | none => .error (E_POISON, true)
  | some e1 =>
    if e1 % 2 = 0 then .error (E_ADDR, false)
    else if entryReserved e1 then .error (E_RANGE, false)
    else if e1 / 2 % 2 = 1 then
      if entryPa e1 % 2 ^ 21 ≠ 0 then .error (E_RANGE, false)
      else if !dmaLegal (entryPa e1) then .error (E_ADDR, false)
      else .ok (leaf true e1)
    else
      let a2 := entryPa e1 + iova / 4096 % 512 * 8
      if !dmaLegal a2 then .error (E_ADDR, true)
      else match s.tableEntry a2 with
      | none => .error (E_POISON, true)
      | some e2 =>
        if e2 % 2 = 0 then .error (E_ADDR, false)
        else if entryReserved e2 || e2 / 2 % 2 = 0 then .error (E_RANGE, false)
        else if !dmaLegal (entryPa e2) then .error (E_ADDR, false)
        else .ok (leaf false e2)

/-- A translation translates an address of a domain. -/
def tlbHits (dom iova : Nat) (t : TlbEntry) : Bool :=
  t.domain == dom && t.page == iova / (if t.big then 2 ^ 21 else 4096)

/-- The TLB takes a translation; which of the 256 held makes room is a free value (R304). -/
def State.tlbFill (s : State) (t : TlbEntry) : State :=
  if s.q.tlb.length < 256 then s.modQ fun q => { q with tlb := t :: q.tlb }
  else
    let (w, s) := s.draw
    s.modQ fun q => { q with tlb := t :: q.tlb.eraseIdx (w.toNat % q.tlb.length) }

/-- The entry for an address: from the TLB, or by a walk (R304). -/
def State.lookup (s : State) (dom iova : Nat) : Except AccessFault TlbEntry × State :=
  if !rootEn (s.rootOf dom) then (.error (E_ADDR, false), s.bump qbBase Reg.IOMMU_TLB_FAULTS)
  else match s.q.tlb.find? (tlbHits dom iova) with
  | some t => (.ok t, s)
  | none =>
    let s := s.bump qbBase Reg.IOMMU_TLB_MISSES
    match s.walk dom iova with
    | .ok t => (.ok t, s.tlbFill t)
    | .error e => (.error e, (s.when (e.1 == E_POISON) State.meetPoison).bump qbBase Reg.IOMMU_TLB_FAULTS)

/-- The physical address of an access (R303). -/
def State.translate (s : State) (dom iova : Nat) (write : Bool) : Except AccessFault Nat × State :=
  match s.lookup dom iova with
  | (.error e, s) => (.error e, s)
  | (.ok t, s) =>
    if (if write then t.wr else t.rd) then (.ok (t.pa + iova % (if t.big then 2 ^ 21 else 4096)), s)
    else (.error (E_ACCESS, false), s.bump qbBase Reg.IOMMU_TLB_FAULTS)

/-- The granule at an IOVA. -/
def State.readGranule (s : State) (dom iova : Nat) : Except AccessFault (List Byte) × State :=
  match s.translate dom iova false with
  | (.error e, s) => (.error e, s)
  | (.ok pa, s) => if s.memPoisoned pa then (.error (E_POISON, false), s.meetPoison) else (.ok (s.memGranule pa), s)

/-- Bytes written from the start of a granule on, or within it: less than a granule is a read-modify-write, which poison refuses (R380). -/
def State.writeGranule (s : State) (dom iova : Nat) (bytes : List Byte) : Except AccessFault Unit × State :=
  match s.translate dom iova true with
  | (.error e, s) => (.error e, s)
  | (.ok pa, s) =>
    if bytes.length < 32 && s.memPoisoned pa then (.error (E_POISON, false), s.meetPoison)
    else (.ok (), s.modQ fun q => { q with mem := memWrite q.mem pa bytes, poison := q.poison.filter fun g => g != pa / 32 })

/-! Rings (R292, R293, R312). -/

def State.qpDomain (s : State) (n : Nat) : Nat := s.rd (cellBase (qpId n)) Reg.QP_CFG_DOMAIN
def State.qpPrio (s : State) (n : Nat) : Nat := s.rd (cellBase (qpId n)) Reg.QP_CFG_PRIO
def ringLog (rx : Bool) : Field := if rx then Reg.QP_CFG_RXLOG else Reg.QP_CFG_TXLOG
def ringBase (rx : Bool) : Field := if rx then Reg.QP_RXBASE else Reg.QP_TXBASE
def ringHead (rx : Bool) : Field := if rx then Reg.QP_RXPTR_HEAD else Reg.QP_TXPTR_HEAD
def ringTail (rx : Bool) : Field := if rx then Reg.QP_RXPTR_TAIL else Reg.QP_TXPTR_TAIL
def ringOn (rx : Bool) : Field := if rx then Reg.QP_STATUS_RXON else Reg.QP_STATUS_TXON
def ringHalt (rx : Bool) : Field := if rx then Reg.QP_STATUS_RXHALT else Reg.QP_STATUS_TXHALT
def ringWbf (rx : Bool) : Field := if rx then Reg.QP_STATUS_RXWBF else Reg.QP_STATUS_TXWBF
def ringCode (rx : Bool) : Field := if rx then Reg.QP_STATUS_RXCODE else Reg.QP_STATUS_TXCODE

/-- Descriptors of a ring: 2^LOG, 0 where LOG is 0. -/
def State.ringSize (s : State) (n : Nat) (rx : Bool) : Nat :=
  let l := s.rd (cellBase (qpId n)) (ringLog rx)
  if l = 0 then 0 else 2 ^ l

/-- The queue block works: module states READY to SERVICE, block not isolated (R299). -/
def State.queueUp (s : State) : Bool := s.mstIn [stReady, stRun, stSafe, stService] && !s.isolated 3 3

/-- The rings of a pair run: it has entered RUN since it was new or changed, and it is not in FAULT. STOP and RELEASE do not stop them (R299; DEDUCED,
log entry 75). -/
def State.pairRuns (s : State) (n : Nat) : Bool := s.queueUp && s.exists_ (qpId n) && (s.qp n).live && s.cst (qpId n) != csFault

/-- A ring reads descriptors: enabled, not halted (R299). -/
def State.ringRuns (s : State) (n : Nat) (rx : Bool) : Bool :=
  let b := cellBase (qpId n)
  s.pairRuns n && s.flag b (ringOn rx) && !s.flag b (ringHalt rx)

/-- A descriptor is posted (R293). -/
def State.posted (s : State) (n : Nat) (rx : Bool) : Bool :=
  s.rd (cellBase (qpId n)) (ringHead rx) != s.rd (cellBase (qpId n)) (ringTail rx)

/-- IOVA of the descriptor at HEAD. -/
def State.headIova (s : State) (n : Nat) (rx : Bool) : Nat :=
  ((s.rdw (cellBase (qpId n)) (ringBase rx)).toNat + 32 * s.rd (cellBase (qpId n)) (ringHead rx)) % 2 ^ 32

/-- The ring halts; QB.FLT and QB.FLTADDR hold the fault (R305, R306). -/
def State.haltRing (s : State) (n : Nat) (rx wbf : Bool) (kind iova : Nat) (code : Code) : State :=
  let b := cellBase (qpId n)
  let s := ((s.setFlag b (ringHalt rx) true).setFlag b (ringWbf rx) wbf).wr b (ringCode rx) code.toNat
  let s := (s.wr qbBase Reg.QB_FLT_QP n).wr qbBase Reg.QB_FLT_RING rx.toNat
  ((s.wr qbBase Reg.QB_FLT_KIND kind).wr qbBase Reg.QB_FLT_CODE code.toNat).wrw qbBase Reg.QB_FLTADDR (BitVec.ofNat 32 iova)

/-- No descriptor of the ring is in progress, and a stop asked for takes effect (R312). -/
def State.ringIdle (s : State) (n : Nat) (rx : Bool) : State :=
  let q := s.qp n
  let stop := if rx then q.rxStop else q.txStop
  let s := s.modQp n fun q => if rx then { q with rxDesc := none, rxUsed := 0, rxBurst := 0, rxStop := false } else { q with txDesc := none, txDone := 0, txBuf := [], burst := 0, txStop := false }
  s.when stop fun s => s.setFlag (cellBase (qpId n)) (ringOn rx) false

/-- R306: a fault in reading a descriptor or in writing it back halts the ring without writeback; HEAD names the descriptor. -/
def State.accessFault (s : State) (n : Nat) (rx writeback : Bool) (e : AccessFault) : State :=
  (s.haltRing n rx true (if e.2 then 2 else if writeback then 3 else 1) (s.headIova n rx) e.1).ringIdle n rx

/-- The descriptor at HEAD is written back, bytes 24–31, and HEAD moves on; answers whether the writeback was made. -/
def State.completeDesc (s : State) (n : Nat) (rx : Bool) (count : Nat) (code : Code) (flags saddr sqp : Nat) : Bool × State :=
  let b := cellBase (qpId n)
  let s := s.inFlight
  let iova := s.headIova n rx
  match s.readGranule (s.qpDomain n) iova with
  | (.error e, s) => (false, s.accessFault n rx true e)
  | (.ok old, s) =>
    let bytes := old.take 24 ++ leList count 4 ++ [code, BitVec.ofNat 8 flags, BitVec.ofNat 8 saddr, BitVec.ofNat 8 sqp]
    match s.writeGranule (s.qpDomain n) iova bytes with
    | (.error e, s) => (false, s.accessFault n rx true e)
    | (.ok (), s) => (true, (s.wr b (ringHead rx) ((s.rd b (ringHead rx) + 1) % s.ringSize n rx)).ringIdle n rx)

/-- R305: a fault at granule `k` stops the descriptor. -/
def State.dataFault (s : State) (n : Nat) (rx : Bool) (count iova : Nat) (e : AccessFault) (saddr sqp : Nat) : State :=
  match s.completeDesc n rx count e.1 1 saddr sqp with
  | (false, s) => s
  | (true, s) => s.haltRing n rx false (if e.2 then 2 else 0) iova e.1

/-! Descriptors (R293–R295). -/

def bNat (l : List Byte) (i n : Nat) : Nat := leNat ((l.drop i).take n)

def parseDesc (l : List Byte) : Desc :=
  { buf := bNat l 0 4, dest := bNat l 4 4, len := bNat l 8 4, op := bNat l 12 1, last := bNat l 13 1 % 2 == 1, daddr := bNat l 14 1,
    dqp := bNat l 15 1 }

/-- R294 for a transmit descriptor: E_ALIGN for an alignment fault, else E_RANGE; `none` where the fields keep the table. -/
def txInvalid (addr : Nat) (l : List Byte) : Option Code :=
  let d := parseDesc l
  if d.buf % 32 ≠ 0 ∨ (d.op = 2 ∧ d.dest % 32 ≠ 0) then some E_ALIGN
  else if d.len = 0 ∨ 16777216 < d.len ∨ 1 < bNat l 13 1 ∨ bNat l 30 2 ≠ 0 then some E_RANGE
  else if d.op = 1 then (if d.dest ≠ 0 ∨ d.daddr = 0 ∨ 63 < d.daddr ∨ d.daddr = addr ∨ 31 < d.dqp then some E_RANGE else none)
  else if d.op = 2 then (if d.daddr ≠ 0 ∨ d.dqp ≠ 0 then some E_RANGE else none)
  else some E_RANGE

/-- R294 for a receive descriptor. -/
def rxInvalid (l : List Byte) : Option Code :=
  let len := bNat l 8 4
  if bNat l 0 4 % 32 ≠ 0 ∨ len % 32 ≠ 0 then some E_ALIGN
  else if len < 32 ∨ 16777216 < len ∨ bNat l 4 4 ≠ 0 ∨ bNat l 12 12 ≠ 0 then some E_RANGE
  else none

/-- R295: a SEND that has nowhere to go. -/
def State.sendUnreachable (s : State) (d : Desc) : Bool :=
  d.op == 1 && (s.addr == 0 || (s.rd chBase Reg.CH_STATUS_COUNT != 0 && s.rd chBase Reg.CH_STATUS_COUNT < d.daddr))

/-- A SEND with LAST ends its message (R296); the sequence number counts messages of which a frame was sent. -/
def State.endMessage (s : State) (n : Nat) : State :=
  s.modQp n fun q => if q.txOpen then { q with txOpen := false, txSeq := q.txSeq + 1 } else q

/-- A transmit descriptor that is completed without transfer. -/
def State.skipTx (s : State) (n : Nat) (d : Desc) (code : Code) : State :=
  ((s.completeDesc n false d.len code 1 0 0).2).when (d.op == 1 && d.last) fun s => s.endMessage n

/-- The transmit ring of a pair begins its next posted descriptor. -/
def State.startTx (s : State) (n : Nat) : State :=
  match s.readGranule (s.qpDomain n) (s.headIova n false) with
  | (.error e, s) => s.accessFault n false false e
  | (.ok l, s) =>
    let d := parseDesc l
    match txInvalid s.addr l with
    | some c => s.skipTx n d c
    | none => if s.sendUnreachable d then s.skipTx n d E_ENUM else s.modQp n fun q => { q with txDesc := some d }

/-! Transfers. -/

/-- Granules of a length. -/
def granules (len : Nat) : Nat := (len + 31) / 32

/-- A BULK frame of a pair (R296). -/
def State.bulkOut (s : State) (n : Nat) (d : Desc) (valid mflags : Nat) (fcode : Code) (payload : List (List Byte)) : ChainFrame :=
  s.newFrame (BitVec.ofNat 8 d.daddr) 5 1 (BitVec.ofNat 16 valid)
    ([BitVec.ofNat 8 d.dqp, BitVec.ofNat 8 n] ++ leList (s.qp n).txSeq.toNat 2 ++ [BitVec.ofNat 8 mflags, fcode]) payload

/-- One frame leaves, and the message is open. -/
def State.sendBulk (s : State) (n : Nat) (d : Desc) (valid mflags : Nat) (fcode : Code) (payload : List (List Byte)) : State :=
  let first := if (s.qp n).txOpen then 0 else 1
  (s.sendChain (s.bulkOut n d valid (mflags + first) fcode payload)).modQp n fun q => { q with txOpen := true }

/-- The bytes of the last granule beyond LEN are sent as 0 (R296). -/
def padGranule (l : List Byte) (n : Nat) : List Byte := l.take n ++ List.replicate (32 - n) 0

/-- The granules read for a SEND leave in a frame once 255 of them, or the last of the descriptor, are there; the bytes of the last granule beyond LEN
are sent as 0 (R296). -/
def State.sendFull (s : State) (n : Nat) (d : Desc) : State :=
  let q := s.qp n
  let final := q.txDone == granules d.len
  if q.txBuf.length < 255 && !final then s
  else
    let short := if final then d.len % 32 else 0
    let gs := if short = 0 then q.txBuf else q.txBuf.dropLast ++ [padGranule (q.txBuf.getLastD []) short]
    let s := (s.sendBulk n d (if short = 0 then 32 else short) (if final && d.last then 2 else 0) 0 gs).modQp n fun q => { q with txBuf := [] }
    s.when (final && d.last) fun s => s.endMessage n

/-- One granule of a transmit descriptor: COPY reads and writes it; SEND reads it and sends its frame once that is whole (R296, R301). A fault comes with
its IOVA, and nothing is issued beyond it. -/
def State.issue (s : State) (n : Nat) (d : Desc) : Option (AccessFault × Nat) × State :=
  let dom := s.qpDomain n
  let k := (s.qp n).txDone
  let src := (d.buf + 32 * k) % 2 ^ 32
  match s.readGranule dom src with
  | (.error e, s) => (some (e, src), s)
  | (.ok g, s) =>
    if d.op = 2 then
      let dst := (d.dest + 32 * k) % 2 ^ 32
      match s.writeGranule dom dst (g.take (d.len - 32 * k)) with
      | (.error e, s) => (some (e, dst), s)
      | (.ok (), s) => (none, s.modQp n fun q => { q with txDone := k + 1 })
    else (none, (s.modQp n fun q => { q with txDone := k + 1, txBuf := q.txBuf ++ [g] }).sendFull n d)

/-- Granules in address order, up to granule `stop` (R301). -/
def State.issueTo (s : State) (n : Nat) (d : Desc) (stop : Nat) : Nat → Option (AccessFault × Nat) × State
  | 0 => (none, s)
  | fuel + 1 =>
    if stop ≤ (s.qp n).txDone then (none, s)
    else match s.issue n d with
    | (some f, s) => (some f, s)
    | (none, s) => State.issueTo s n d stop fuel

/-- A fault stops a transmit descriptor: the frame in progress leaves with the granules before it, LAST and ABORT (R305 and its example). -/
def State.stopTx (s : State) (n : Nat) (d : Desc) (e : AccessFault) (iova : Nat) : State :=
  let q := s.qp n
  let s := s.when (d.op == 1) fun s => (s.sendBulk n d 32 6 e.1 q.txBuf).endMessage n
  s.dataFault n false (d.len - 32 * q.txDone) iova e 0 0

/-- Frames of a pair that have not left their port (R296). -/
def State.framesWait (s : State) (n : Nat) : Bool :=
  (s.chain.up.queue ++ s.chain.down.queue).any fun w => w.own && w.f.ty == 5 && tspec w.f 27 == n

/-- The transfer of the transmit descriptor in progress up to granule `stop`; a fault found earlier, or `atStop`, ends it (R305). A descriptor completes
once its last flit has left the port (R296). -/
def State.transferTx (s : State) (n : Nat) (d : Desc) (stop : Nat) (atStop : State → Option (AccessFault × Nat) × State) : State :=
  let (f, s) := s.issueTo n d stop stop
  let (f, s) := match f with
    | some f => (some f, s)
    | none => atStop s
  match f with
  | some (e, iova) => s.stopTx n d e iova
  | none => if d.op = 1 ∧ s.framesWait n then s else (s.completeDesc n false 0 E_OK 1 0 0).2

/-- The transfer up to a granule at which an access meets what `atStop` answers; one that reads stops nothing, and the descriptor goes on. -/
def State.faultTx (s : State) (n : Nat) (d : Desc) (stop : Nat) (atStop : State → Option (AccessFault × Nat) × State) : State :=
  match s.issueTo n d stop stop with
  | (some (e, iova), s) => s.stopTx n d e iova
  | (none, s) =>
    match atStop s with
    | (some (e, iova), s) => s.stopTx n d e iova
    | (none, s) => s

/-- The port toward a destination is UP. -/
def State.reachable (s : State) (d : Desc) : Bool :=
  d.op != 1 || s.link (if s.addr < d.daddr then .down else .up) == 2

/-! Reception (R297). -/

/-- MFLAGS of a BULK frame (R296). -/
def frameLast (f : ChainFrame) : Bool := tspec f 30 / 2 % 2 == 1
def frameAbort (f : ChainFrame) : Bool := tspec f 30 / 4 % 2 == 1

/-- What a received message names: source, sending pair, MSGSEQ. -/
def bulkId (f : ChainFrame) : Nat × Nat × Nat := (f.src.toNat, tspec f 27, tspec f 28 + 256 * tspec f 29)

/-- The BULKNAK for a frame goes back toward its sender (R297). -/
def State.nak (s : State) (f : ChainFrame) (code : Code) : State := s.sendChain (s.nakFrame f code)

/-- The rest of a message is dropped (R297). -/
def State.dropRest (s : State) (n : Nat) (f : ChainFrame) : State :=
  s.modQp n fun q => { q with rxMsg := none, rxDropped := some (bulkId f) }

def State.dropMessage (s : State) (n : Nat) (f : ChainFrame) (code : Code) : State :=
  ((s.nak f code).bump (cellBase (qpId n)) Reg.QP_CNT_NOBUF).dropRest n f

/-- The receive descriptor in use is completed; without one, nothing is. -/
def State.completeRx (s : State) (n : Nat) (code : Code) (msgEnd : Bool) (src pair : Nat) : State :=
  if (s.qp n).rxDesc.isSome then
    (s.completeDesc n true (s.qp n).rxUsed code (if msgEnd then 3 else 1) src pair).2
  else s

/-- The message in progress ends with a code (R297). -/
def State.endRx (s : State) (n : Nat) (code : Code) : State :=
  match (s.qp n).rxMsg with
  | some (src, pair, _) => (s.completeRx n code true src pair).modQp n fun q => { q with rxMsg := none }
  | none => s

/-- The next posted receive descriptor comes into use, past the ones that break the table (R294); answers whether one did. -/
def State.openRx (s : State) (n : Nat) : Nat → Bool × State
  | 0 => (false, s)
  | fuel + 1 =>
    if !(s.ringRuns n true && s.posted n true) then (false, s)
    else match s.inFlight.readGranule (s.qpDomain n) (s.headIova n true) with
    | (.error e, s) => (false, s.accessFault n true false e)
    | (.ok l, s) =>
      match rxInvalid l with
      | some c => State.openRx (s.completeDesc n true 0 c 1 0 0).2 n fuel
      | none => (true, s.modQp n fun q => { q with rxDesc := some (parseDesc l), rxUsed := 0 })

/-- A receive descriptor is in use, or the next comes into use. -/
def State.needRx (s : State) (n : Nat) : Bool × State :=
  if (s.qp n).rxDesc.isSome then (true, s) else s.openRx n 4097

/-- One granule of a message: `valid` bytes of it are written at the next granule boundary of the buffer. Answers whether the message goes on. -/
def State.takeGranule (s : State) (n : Nat) (f : ChainFrame) (g : List Byte) (valid : Nat) (final : Bool) : Bool × State :=
  match s.needRx n with
  | (false, s) => (false, s.dropMessage n f E_FULL)
  | (true, s) =>
    let q := s.qp n
    match q.rxDesc with
    | none => (false, s)
    | some d =>
      let k := granules q.rxUsed
      let iova := (d.buf + 32 * k) % 2 ^ 32
      match s.writeGranule (s.qpDomain n) iova (g.take valid) with
      | (.error e, s) => (false, (s.dataFault n true (32 * k) iova e f.src.toNat (tspec f 27)).dropRest n f)
      | (.ok (), s) =>
        let s := s.modQp n fun q => { q with rxUsed := 32 * k + valid }
        (true, if d.len ≤ 32 * (k + 1) && !final then s.completeRx n E_OK false f.src.toNat (tspec f 27) else s)

/-- The granule of a frame at flit index `i`; `final` is the frame's last (R297). Answers whether the message goes on. -/
def State.takeFlit (s : State) (n : Nat) (f : ChainFrame) (i : Nat) (g : List Byte) (final : Bool) : Bool × State :=
  if f.poisoned.contains i then
    let s := (s.needRx n).2
    (false, (s.endRx n E_POISON).dropRest n f)
  else s.inFlight.takeGranule n f g (if final then f.valid.toNat else 32) (final && (frameLast f || frameAbort f))

/-- The granules of a frame, the first at flit index `i`. -/
def State.takeGranules (s : State) (n : Nat) (f : ChainFrame) : Nat → List (List Byte) → Bool × State
  | _, [] => (true, s)
  | i, g :: l =>
    match s.takeFlit n f i g l.isEmpty with
    | (false, s) => (false, s)
    | (true, s) => State.takeGranules s n f (i + 1) l

/-- A frame of the message in progress has been taken: ABORT and LAST end the message (R297). -/
def State.endFrame (s : State) (n : Nat) (f : ChainFrame) : State :=
  if frameAbort f then
    match s.needRx n with
    | (false, s) => s.dropMessage n f E_FULL
    | (true, s) => s.endRx n (BitVec.ofNat 8 (tspec f 31))
  else if frameLast f then s.endRx n E_OK
  else s

/-- A frame of the message in progress, whole (R297). -/
def State.takeFrame (s : State) (n : Nat) (f : ChainFrame) : State :=
  match s.takeGranules n f 1 f.payload with
  | (false, s) => s
  | (true, s) => s.endFrame n f

/-- A BULK frame for an existing pair comes to its turn; answers whether its granules are taken (R297). -/
def State.beginFrame (s : State) (n : Nat) (f : ChainFrame) : Bool × State :=
  let id := bulkId f
  let first := tspec f 30 % 2 == 1
  let q := s.qp n
  if q.rxDropped = some id ∧ !first then (false, s)
  else if s.ringSize n true = 0 ∨ !s.pairRuns n then (false, s.dropMessage n f E_STATE)
  else if first then
    let s := (s.endRx n E_ORDER).modQp n fun q => { q with rxDropped := none }
    match s.needRx n with
    | (false, s) => (false, s.dropMessage n f E_FULL)
    | (true, s) => (true, s.modQp n fun q => { q with rxMsg := some id })
  else if q.rxMsg = some id then (true, s)
  else if !(s.ringRuns n true && s.posted n true) then (false, s.dropMessage n f E_FULL)
  else (false, s)

/-- A BULK frame that is taken at once. -/
def State.bulkIn (s : State) (n : Nat) (f : ChainFrame) : State :=
  match s.beginFrame n f with
  | (false, s) => s
  | (true, s) => s.takeFrame n f

/-- The frames behind one that is done come to their turn: those that are dropped are, and the first whose granules are taken waits for the ring's slots. -/
def State.openFrames (s : State) (n : Nat) : List ChainFrame → State
  | [] => s.modQp n fun q => { q with rxFrame := none, rxq := [] }
  | f :: l =>
    match s.beginFrame n f with
    | (false, s) => State.openFrames s n l
    | (true, s) =>
      if f.payload.isEmpty then State.openFrames (s.endFrame n f) n l else s.modQp n fun q => { q with rxFrame := some (f, 0), rxq := l }

/-! The engine's turns (R300). A ring is numbered twice its queue pair number, and 1 more for the receive ring. -/

/-- A ring has work for the engine: a posted descriptor or granules of the one in progress; granules of a received frame. -/
def State.readyRing (s : State) (r : Nat) : Bool :=
  let n := r / 2
  if r % 2 = 1 then s.queueUp && (s.qp n).rxFrame.isSome
  else
    s.ringRuns n false &&
      match (s.qp n).txDesc with
      | some d => decide ((s.qp n).txDone < granules d.len) && s.reachable d
      | none => s.posted n false

/-- The rings that have work. -/
def State.readyRings (s : State) : List Nat := (List.range 64).filter s.readyRing

/-- Work of higher priority is ready: a ring of lower PRIO waits (R300). -/
def State.outranked (s : State) (r : Nat) : Bool := s.readyRings.any fun m => decide (s.qpPrio (r / 2) < s.qpPrio (m / 2))

/-- Another ring has work that takes turns with this one's, or goes before it (R300). -/
def State.contended (s : State) (r : Nat) : Bool := s.readyRings.any fun m => m != r && decide (s.qpPrio (r / 2) ≤ s.qpPrio (m / 2))

/-- Granules left of a ring's burst. -/
def State.burstLeft (s : State) (r : Nat) : Nat := if r % 2 = 1 then (s.qp (r / 2)).rxBurst else (s.qp (r / 2)).burst

/-- The ring that takes the next granule slot: the highest PRIO; of equal ones, the one whose burst is under way, then in turn (R300). -/
def State.nextRing (s : State) : Option Nat :=
  let top := s.readyRings.filter fun r => !s.outranked r
  let going := top.find? fun r => s.q.lastRing == r && s.burstLeft r != 0
  going.or ((top.find? fun r => decide (s.q.lastRing < r)).or top.head?)

/-- Granules from an address to the next 256-byte boundary. -/
def toBoundary (iova : Nat) : Nat := 8 - iova / 32 % 8

/-- The burst of a transmit ring's next granules: up to 8, never across a 256-byte boundary of a buffer (R300). -/
def burstOf (d : Desc) (k : Nat) : Nat :=
  let src := toBoundary (d.buf + 32 * k)
  min (granules d.len - k) (if d.op = 2 then min src (toBoundary (d.dest + 32 * k)) else src)

/-- A transmit ring's slot: the next granule of its burst, interrupted ones first (R300). -/
def State.grantTx (s : State) (n : Nat) : State :=
  match (s.qp n).txDesc with
  | none => s
  | some d =>
    let s := s.modQp n fun q => { q with burst := (if q.burst = 0 then burstOf d q.txDone else q.burst) - 1 }
    match s.issue n d with
    | (some (e, iova), s) => s.stopTx n d e iova
    | (none, s) => s

/-- The turn of a transmit ring: it begins its next posted descriptor where none is in progress, and takes a granule slot (R300). -/
def State.engineTurn (s : State) (n : Nat) : State :=
  let s := s.inFlight
  let s := if (s.qp n).txDesc.isSome then s else s.startTx n
  match (s.qp n).txDesc with
  | some d => if s.reachable d then s.grantTx n else s
  | none => s

/-- The burst of a receive ring, whose descriptor is in use: up to 8 granules of the frame, never across a 256-byte boundary of the buffer (R300). -/
def State.rxBurstOf (s : State) (n left : Nat) : Nat :=
  match (s.qp n).rxDesc with
  | some d => min left (toBoundary (d.buf + 32 * granules (s.qp n).rxUsed))
  | none => 1

/-- A receive ring's slot: the next granule of the frame being taken. A pair that no longer runs drops the message (R297). -/
def State.rxTurn (s : State) (n : Nat) : State :=
  match (s.qp n).rxFrame with
  | none => s
  | some (f, i) =>
    let next (s : State) : State := s.openFrames n (s.qp n).rxq
    if !s.pairRuns n then next (s.dropMessage n f E_STATE)
    else match f.payload[i]? with
    | none => next s
    | some g =>
      let s := (s.needRx n).2
      let s := s.modQp n fun q => { q with rxBurst := (if q.rxBurst = 0 then s.rxBurstOf n (f.payload.length - i) else q.rxBurst) - 1 }
      let final := i + 1 == f.payload.length
      match s.takeFlit n f (i + 1) g final with
      | (false, s) => next s
      | (true, s) => if final then next (s.endFrame n f) else s.modQp n fun q => { q with rxFrame := some (f, i + 1) }

/-- DESCRIPTOR_START (R300): the engine grants a granule slot to a ready ring. -/
def execDescriptorStart (s : State) : Host.Outcome State Fault Refusal :=
  done <|
    match s.nextRing with
    | none => s
    | some r =>
      let s := s.modQ fun q => { q with lastRing := r }
      if r % 2 = 1 then s.rxTurn (r / 2) else s.engineTurn (r / 2)

/-- The transfer of a transmit descriptor may go on to granule `k` at once: its granules are issued as far as that, or no other ring's turns come between
(R300). -/
def State.runsTo (s : State) (n k : Nat) : Bool := k ≤ (s.qp n).txDone || !s.contended (2 * n)

/-- DESCRIPTOR_COMPLETE (R293, R296): the transfer of the transmit descriptor in progress goes to its end; while other rings take turns with it, its granules
wait for their slots (R300). -/
def execDescriptorComplete (qp : Fin 32) (s : State) : Host.Outcome State Fault Refusal :=
  done <|
    let n := qp.val
    match (s.qp n).txDesc with
    | some d =>
      if s.queueUp && s.reachable d && s.runsTo n (granules d.len) then s.inFlight.transferTx n d (granules d.len) (fun s => (none, s)) else s
    | none => s

/-- What an access meets at an IOVA where the environment reports a word there (R305, R306): the translation's own fault where it fails, else what the word
decodes to, which is counted and poisoned where it was found (R378). `none` where it reads. -/
def State.reportedFault (s : State) (dom iova : Nat) (write : Bool) (word : WordRead) : Option (AccessFault × Nat) × State :=
  match s.translate dom iova write with
  | (.error e, s) => (some (e, iova), s)
  | (.ok pa, s) =>
    let o := s.outcomeAt .dram (pa / 32) word.flips
    (if o.bad then some ((E_POISON, false), iova) else none, s.meetWord .dram word.port 3 (pa / 32) o)

/-- BULK_FRAME (R297): the receive ring of the pair takes the frame; where another ring's turns come between, its granules wait for slots (R300). -/
def execBulkFrame (f : ChainFrame) (s : State) : Host.Outcome State Fault Refusal :=
  done <|
    let n := tspec f 26
    if f.ty ≠ 5 then s
    else if n < 32 && s.exists_ (qpId n) then
      if (s.qp n).rxFrame.isSome then s.modQp n fun q => { q with rxq := q.rxq ++ [f] }
      else if s.contended (2 * n + 1) then s.openFrames n [f]
      else (s.modQ fun q => { q with lastRing := 2 * n + 1 }).bulkIn n f
    else if tspec f 30 % 2 = 1 then s.nak f E_STATE
    else s

/-- BULKNAK (R298). -/
def execBulknak (f : ChainFrame) (s : State) : Host.Outcome State Fault Refusal :=
  done <|
    let n := tspec f 26
    if f.ty = 6 ∧ n < 32 ∧ s.exists_ (qpId n) then
      let b := cellBase (qpId n)
      ((s.bump b Reg.QP_CNT_NAKS).wr b Reg.QP_NAKSEQ_MSGSEQ (tspec f 28 + 256 * tspec f 29)).wr b Reg.QP_NAKSEQ_CODE (tspec f 31)
    else s

/-- RECEIVE_MESSAGE_TIMEOUT (R297): no frame of the message in progress for 10 ms. -/
def execReceiveMessageTimeout (qp : Fin 32) (s : State) : Host.Outcome State Fault Refusal :=
  done <| if s.queueUp then s.endRx qp.val E_TIMEOUT else s

/-- MID_TRANSFER_FAULT (R305): granule `k` of the descriptor in progress faults. -/
def execMidTransferFault (ring : RingId) (k : Nat) (word : WordRead) (s : State) : Host.Outcome State Fault Refusal :=
  done <|
    let n := ring.qp.val
    let dom := s.qpDomain n
    if !s.queueUp then s
    else if ring.rx then
      match (s.qp n).rxDesc, (s.qp n).rxMsg with
      | some d, some (src, pair, seq) =>
        if k = granules (s.qp n).rxUsed then
          let iova := (d.buf + 32 * k) % 2 ^ 32
          match s.inFlight.reportedFault dom iova true word with
          | (some (e, _), s) =>
            (s.dataFault n true (32 * k) iova e src pair).modQp n fun q => { q with rxMsg := none, rxDropped := some (src, pair, seq) }
          | (none, s) => s
        else s
      | _, _ => s
    else
      match (s.qp n).txDesc with
      | some d =>
        if k < granules d.len && (s.qp n).txDone ≤ k && s.reachable d && s.runsTo n k then
          s.inFlight.faultTx n d k fun s => s.reportedFault dom ((d.buf + 32 * k) % 2 ^ 32) false word
        else s
      | none => s

/-- DESCRIPTOR_ACCESS_FAULT (R306): the read of the descriptor at HEAD, or its writeback, faults: in its translation, or in the word there. -/
def execDescriptorAccessFault (qp : Fin 32) (rx writeback : Bool) (word : WordRead) (s : State) : Host.Outcome State Fault Refusal :=
  done <|
    let n := qp.val
    let busy := if rx then (s.qp n).rxDesc.isSome else (s.qp n).txDesc.isSome
    if s.ringRuns n rx && s.posted n rx && busy == writeback then
      match s.inFlight.reportedFault (s.qpDomain n) (s.headIova n rx) writeback word with
      | (some (e, _), s) => s.accessFault n rx writeback e
      | (none, s) => s
    else s

/-! Commands (R293, R304, R307, R312). -/

/-- Enabled rings use a domain (R311). -/
def State.domainUsed (s : State) (dom : Nat) : Bool :=
  (List.range 32).any fun n => s.exists_ (qpId n) && s.qpDomain n == dom &&
    (s.flag (cellBase (qpId n)) Reg.QP_STATUS_TXON || s.flag (cellBase (qpId n)) Reg.QP_STATUS_RXON)

/-- QP.TXPTR or QP.RXPTR:TAIL (R293, R312). -/
def decidePost (n : Nat) (rx : Bool) (tail : Nat) (s : State) : Code × State :=
  if !s.exists_ (qpId n) then (E_STATE, s)
  else if 2 ^ s.rd (cellBase (qpId n)) (ringLog rx) ≤ tail then (E_RANGE, s)
  else (E_OK, s.wr (cellBase (qpId n)) (ringTail rx) tail)

/-- DESCRIPTOR_POST (R293). -/
def execDescriptorPost (p : Port) (qp : Fin 32) (rx : Bool) (tail : BitVec 12) (s : State) : Host.Outcome State Fault Refusal :=
  command p (decidePost qp.val rx tail.toNat) s

/-- A pair in START with an enabled ring enters RUN, in RUN or SERVICE (R91, R299). -/
def State.startPair (s : State) (n : Nat) : State :=
  let b := cellBase (qpId n)
  if s.exists_ (qpId n) && s.cst (qpId n) == csStart && s.mstIn [stRun, stService] && (s.flag b Reg.QP_STATUS_TXON || s.flag b Reg.QP_STATUS_RXON) then
    (s.setCst (qpId n) csRun).modQp n fun q => { q with live := true }
  else s

def State.startPairs (s : State) : State := (List.range 32).foldl State.startPair s

/-- A ring is enabled (R299). -/
def State.enableRing (s : State) (n : Nat) (rx : Bool) : State :=
  let s := (s.setFlag (cellBase (qpId n)) (ringOn rx) true).modQp n fun q => if rx then { q with rxStop := false } else { q with txStop := false }
  s.startPair n

/-- A ring is disabled: at once without a descriptor in progress, else when that completes (R312). -/
def State.disableRing (s : State) (n : Nat) (rx : Bool) : State :=
  let busy := if rx then (s.qp n).rxDesc.isSome else (s.qp n).txDesc.isSome
  if busy then s.modQp n fun q => if rx then { q with rxStop := true } else { q with txStop := true }
  else s.setFlag (cellBase (qpId n)) (ringOn rx) false

/-- A halted ring resumes from HEAD (R307). -/
def State.resumeRing (s : State) (n : Nat) (rx : Bool) : State :=
  let b := cellBase (qpId n)
  ((s.setFlag b (ringHalt rx) false).setFlag b (ringWbf rx) false).wr b (ringCode rx) 0

/-- QP.CTRL by its bits [5:0]: the first row of R312 that holds. -/
def decideQpCtrl (n ctrl : Nat) (s : State) : Code × State :=
  let b := cellBase (qpId n)
  let bit (i : Nat) : Bool := ctrl / 2 ^ i % 2 == 1
  let rings := [false, true]
  let en (rx : Bool) : Bool := bit (if rx then 2 else 0)
  let dis (rx : Bool) : Bool := bit (if rx then 3 else 1)
  let res (rx : Bool) : Bool := bit (if rx then 5 else 4)
  if !s.exists_ (qpId n) then (E_STATE, s)
  else if rings.any fun rx => en rx && s.ringSize n rx == 0 then (E_RANGE, s)
  else if rings.any fun rx => res rx && !s.flag b (ringHalt rx) then (E_STATE, s)
  else if rings.any fun rx => en rx && s.flag b (ringHalt rx) then (E_STATE, s)
  else if rings.any fun rx => en rx && !rootEn (s.rootOf (s.qpDomain n)) then (E_STATE, s)
  else if rings.any fun rx => en rx && dis rx then (E_RANGE, s)
  else
    (E_OK, rings.foldl (fun s rx =>
      ((s.when (en rx) fun s => s.enableRing n rx).when (dis rx) fun s => s.disableRing n rx).when (res rx) fun s => s.resumeRing n rx) s)

/-- RING_TXEN (R312). -/
def execRingTxen (p : Port) (qp : Fin 32) (s : State) : Host.Outcome State Fault Refusal := command p (decideQpCtrl qp.val 1) s
/-- RING_TXDIS (R312). -/
def execRingTxdis (p : Port) (qp : Fin 32) (s : State) : Host.Outcome State Fault Refusal := command p (decideQpCtrl qp.val 2) s
/-- RING_RXEN (R312). -/
def execRingRxen (p : Port) (qp : Fin 32) (s : State) : Host.Outcome State Fault Refusal := command p (decideQpCtrl qp.val 4) s
/-- RING_RXDIS (R312). -/
def execRingRxdis (p : Port) (qp : Fin 32) (s : State) : Host.Outcome State Fault Refusal := command p (decideQpCtrl qp.val 8) s
/-- TXRESUME (R307). -/
def execTxresume (p : Port) (qp : Fin 32) (s : State) : Host.Outcome State Fault Refusal := command p (decideQpCtrl qp.val 16) s
/-- RXRESUME (R307). -/
def execRxresume (p : Port) (qp : Fin 32) (s : State) : Host.Outcome State Fault Refusal := command p (decideQpCtrl qp.val 32) s

/-- IOMMU.INV (R304). -/
def decideInvalidate (dom : Nat) (all : Bool) (s : State) : Code × State :=
  (E_OK, s.modQ fun q => { q with tlb := if all then [] else q.tlb.filter fun t => t.domain != dom })

/-- IOMMU_INVALIDATE (R304). -/
def execIommuInvalidate (p : Port) (domain : BitVec 4) (all : Bool) (s : State) : Host.Outcome State Fault Refusal :=
  command p (decideInvalidate domain.toNat all) s

/-- IOMMU.ROOT of the selected domain (R311). -/
def decideRoot (w : Word) (s : State) : Code × State :=
  let dom := s.rd qbBase Reg.IOMMU_SEL_DOMAIN
  if getField w 22 9 ≠ 0 then (E_RANGE, s)
  else if s.domainUsed dom then (E_BUSY, s)
  else if !mapLegal (getField w 0 22 * 16384) then (E_ADDR, s)
  else (E_OK, s.modQ fun q => { q with roots := Store.set 0 q.roots dom w })

/-! Commit and power failure (R100, R299). -/

/-- A pair enters START with the image's settings (R292, R299, R312). -/
def State.startQp (s : State) (n : Nat) : State :=
  let r := s.cfg (qpId n) 0
  let b := cellBase (qpId n)
  let s := (s.wr b Reg.QP_CFG_DOMAIN (recByte r 0)).wr b Reg.QP_CFG_PRIO (recByte r 1)
  ((s.wr b Reg.QP_CFG_TXLOG (recByte r 2)).wr b Reg.QP_CFG_RXLOG (recByte r 3)).modQp n fun _ => QpSt.init

/-- R100: the transfer in flight of a changed or removed pair stops at a granule boundary. How many granules are done is open: a free value. -/
def State.stopQp (s : State) (n : Nat) : State :=
  let q := s.qp n
  let s := match q.txDesc with
    | some d =>
      let (w, s) := s.draw
      let k := max q.txDone (w.toNat % granules d.len)
      let iova := (d.buf + 32 * k) % 2 ^ 32
      if s.reachable d then s.transferTx n d k fun s => (some ((E_STATE, false), iova), s)
      else s.dataFault n false d.len d.buf (E_STATE, false) 0 0
    | none => s
  match q.rxDesc, q.rxMsg with
  | some d, some (src, pair, _) => s.dataFault n true q.rxUsed ((d.buf + q.rxUsed) % 2 ^ 32) (E_STATE, false) src pair
  | some d, none => s.dataFault n true q.rxUsed ((d.buf + q.rxUsed) % 2 ^ 32) (E_STATE, false) 0 0
  | none, _ => s

/-- Entry to PFAIL: every transfer stops, and nothing is written back (R299). -/
def State.queueOff (s : State) : State :=
  s.modQ fun q => { q with qps := Store.mapVals QpSt.init (fun _ p => { p with txDesc := none, txDone := 0, txBuf := [], burst := 0, rxDesc := none, rxUsed := 0, rxBurst := 0, rxFrame := none, rxq := [], rxMsg := none }) q.qps }

end Sys2Proof.Machine
end

