-- ==== Sys2Proof/Machine/Network.lean ====
section
/-! DEFINITION. Network paths A and B (11): transceivers, frames, imports, the Snare line, roles and switch-over. -/

namespace Sys2Proof.Machine

def otherPath : Path → Path
  | .a => .b
  | .b => .a
def pathNum : Path → Nat
  | .a => 0
  | .b => 1

/-- Role codes (R332). -/
def roleOff : Nat := 0
def roleStandby : Nat := 1
def roleActive : Nat := 2

def State.nrd (s : State) (p : Path) (f : Field) : Nat := s.rd (netBase p) f
def State.nwr (s : State) (p : Path) (f : Field) (v : Nat) : State := s.wr (netBase p) f v
def State.nflag (s : State) (p : Path) (f : Field) : Bool := s.flag (netBase p) f
def State.nset (s : State) (p : Path) (f : Field) (v : Bool) : State := s.setFlag (netBase p) f v

/-- What CP2 carries works, the Sahvos engine and chime enumeration: the pair is neither held nor isolated (R190, R193, R504). -/
def State.sahvosUp (s : State) : Bool := s.dutyUp 2

def State.role (s : State) (p : Path) : Nat := s.nrd p Reg.NET_STATUS_ROLE
def State.elig (s : State) (p : Path) : Bool := s.nflag p Reg.NET_STATUS_ELIG

/-- R325: eligible while not OFF, the SFP supported and the link up for 100 ms. -/
def State.updateElig (s : State) (p : Path) : State :=
  s.nset p Reg.NET_STATUS_ELIG (s.role p != roleOff && s.nrd p Reg.NET_STATUS_SFP == 1 && (s.path p).held)

/-- The Snare line's code, in both blocks' NET.STATUS (R323). -/
def State.setSnare (s : State) (code : Nat) : State :=
  ((s.modNet fun n => { n with snare := BitVec.ofNat 2 code }).nwr .a Reg.NET_STATUS_SNARE code).nwr .b Reg.NET_STATUS_SNARE code

/-- The code of the line as the engines hold it. -/
def State.snareHeld (s : State) : Nat := if s.pathActive .a then 1 else if s.pathActive .b then 2 else 0

/-- The path's transmitter and import publication are enabled: its own code is on the line (R323); in PFAIL process data is not sent (R329, R437). -/
def State.sends (s : State) (p : Path) : Bool := s.sahvosUp && s.mst != stPfail && s.pathActive p && s.net.snare.toNat == pathNum p + 1

def State.ecdiv (s : State) : Nat := max 1 (s.nrd .a Reg.NET_XCFG_ECDIV)
def State.pref (s : State) : Path := if s.nflag .a Reg.NET_XCFG_PREF then .b else .a
def State.follow (s : State) : Bool := s.nflag .a Reg.NET_XCFG_FOLLOW
def State.imptmo (s : State) : Nat := s.nrd .a Reg.NET_XCFG_IMPTMO

/-! Roles (R326). -/

/-- A path goes OFF: Snare released if held, SWPEND cleared. In PFAIL no role changes (R329). -/
def State.pathOff (s : State) (p : Path) : State :=
  if s.mst = stPfail then s
  else
  let was := s.pathActive p
  let s := ((s.nwr p Reg.NET_STATUS_ROLE roleOff).nset p Reg.NET_STATUS_SWPEND false).nset p Reg.NET_STATUS_ELIG false
  let s := (s.nset p Reg.NET_STATUS_ARMED false).nset p Reg.NET_STATUS_CALLING false
  let s := s.modPath p fun x => { x with queue := [], next := [] }
  s.when was fun s => (s.modNet fun n => { n with pendingKind := 0 }).setSnare 0

/-- The reference of a path's island (R429). -/
def refField : Path → Field
  | .a => Reg.PWR_STATUS_REFNA
  | .b => Reg.PWR_STATUS_REFNB

/-- The cage is enabled: PMODE is not 0, in Tabor mode the path is NA (R313, R329), and the island has its clock (R429). -/
def State.cageOn (s : State) (p : Path) : Bool :=
  s.nrd p Reg.NET_CFG_PMODE != 0 && !(s.tabor && p == .b) && s.flag pwrBase (refField p)

/-- OFF → STANDBY with the cage enabled and the SFP supported; link training starts (R326). -/
def State.tryStandby (s : State) (p : Path) : State :=
  if s.role p == roleOff && s.cageOn p && s.nrd p Reg.NET_STATUS_SFP == 1 && s.mst != stPowerup && s.mst != stPfail then
    ((s.nwr p Reg.NET_STATUS_ROLE roleStandby).nset p Reg.NET_STATUS_LINK false).modPath p fun x => { x with held := false }
  else s

/-- The transceivers of a mode (R313). -/
def modeTakes (pmode : Nat) (c : SfpCode) : Bool :=
  match pmode, c with
  | 1, .sr | 1, .lr | 1, .dac | 2, .sx | 2, .lx | 3, .copper100 => true
  | _, _ => false

/-- The engine of an enabled cage reads the identification of what is in it (R314, R493). -/
def State.identify (s : State) (p : Path) : State :=
  match (s.path p).cage with
  | none => s
  | some id =>
    if !s.cageOn p then s
    else
      let sfp := match id with
        | .faulty => 3
        | .code c high => if modeTakes (s.nrd p Reg.NET_CFG_PMODE) c && !high then 1 else 2
      let s := s.nwr p Reg.NET_STATUS_SFP sfp
      if sfp = 1 then (s.tryStandby p).updateElig p else s.pathOff p

/-- SFP_INSERT (R314): what stands in the cage; its identification is read where the cage is enabled. -/
def execSfpInsert (p : Path) (id : SfpId) (s : State) : Host.Outcome State Fault Refusal :=
  done <|
    let s := s.modPath p fun x => { x with cage := some id }
    if s.mst = stPowerup then s else s.identify p

/-- SFP_REMOVE: SFP reads absent, and the path is OFF and not eligible (R325, R332). -/
def execSfpRemove (p : Path) (s : State) : Host.Outcome State Fault Refusal :=
  done ((((s.nwr p Reg.NET_STATUS_SFP 0).nset p Reg.NET_STATUS_LINK false).modPath p fun x => { x with held := false, diag := 0, cage := none }).pathOff p)

/-- SFP_DIAGNOSTICS (R314): each alarm flag that sets is offered to the recorder (R396 SRC 8). -/
def execSfpDiagnostics (p : Path) (flags : BitVec 16) (s : State) : Host.Outcome State Fault Refusal :=
  done <|
    if s.nrd p Reg.NET_STATUS_SFP = 0 then s
    else
      let new := (List.range 16).filter fun i => flags.getLsbD i && !(s.path p).diag.getLsbD i
      let s := new.foldl (fun s i => s.occur 8 (pathNum p) (i : Nat) (keyOfBlock 3 (pathNum p)) 0) s
      s.modPath p fun x => { x with diag := flags }

/-- NETWORK_LINK_CHANGE (R325): the link is up or down, and whether it has been up without interruption for 100 ms. -/
def execNetworkLinkChange (p : Path) (up held100ms : Bool) (s : State) : Host.Outcome State Fault Refusal :=
  done <|
    if s.role p = roleOff then s
    else ((s.nset p Reg.NET_STATUS_LINK up).modPath p fun x => { x with held := up && held100ms }).updateElig p

/-! Receive filtering (R330). -/

/-- The path's own MAC address (R315), as NET.MAC reports it. -/
def macOf (p : Path) : BitVec 48 := Config.mac (p == .b)

/-- Group addresses of the Sahvos frames (R316). -/
def groupMac (kind : Nat) : BitVec 48 := if kind = 2 then 0x034C58530002 else 0x034C58530001

/-- The destination of the PTP messages (R341). -/
def ptpMac : BitVec 48 := 0x011B19000000

/-- The first three rows of R330: the counter of the row that drops a frame. -/
def State.dropRx (s : State) (p : Path) (h : MacHead) : Option Field :=
  let vid := s.nrd p Reg.NET_VLAN_VID
  if !h.fcsOk || h.length < 64 || 1522 < h.length then some Reg.NET_ERRCNT_BADFCS
  else if !([macOf p, 0xFFFFFFFFFFFF, groupMac 1, groupMac 2, ptpMac].contains h.dst) then some Reg.NET_ERRCNT_FILTERED
  else if (match h.vid with | none => vid != 0 | some v => v.toNat != vid) then some Reg.NET_ERRCNT_FILTERED
  else none

/-- A frame reaches a path that is not OFF, whose receiver works; what the first rows of R330 let through goes on. -/
def State.receive (s : State) (p : Path) (h : MacHead) (k : State → State) : State :=
  if s.role p = roleOff ∨ !s.sahvosUp then s
  else match s.dropRx p h with
    | some f => s.bump (netBase p) f
    | none => k s

/-- The policer: 64 frames, refilled at 2,000 frames per second; 500,000,000 CLK_FAB cycles are a second (R330). -/
def State.police (s : State) (p : Path) : Bool × State :=
  let x := s.path p
  let level := ratMin 64 (x.bucket + mkRat (2000 * (s.time.cycles - x.refilled) : Nat) 500000000)
  if 1 ≤ level then (true, s.modPath p fun x => { x with bucket := level - 1, refilled := s.time.cycles })
  else (false, (s.modPath p fun x => { x with bucket := level, refilled := s.time.cycles }).bump (netBase p) Reg.NET_DROPCNT_POLICED)

/-- A Sahvos frame breaks the row of R330: VER, KIND, a reserved bit, or a COUNT that is outside its range or unlike the contents (R316). -/
def badSahvos (f : Sahvos) (kind : Nat) : Bool :=
  f.ver != 1 || f.kind.toNat != kind || 4 ≤ f.flags.toNat ||
    (match kind with
     | 1 => 91 < f.count.toNat || f.count.toNat != f.entries.length
     | 2 => f.count == 0 || 32 < f.count.toNat || f.count.toNat != f.pdus.length
     | 3 => f.count == 0 || 1468 < f.count.toNat
     | _ => f.count != 16)

/-- RECEIVE_FILTER_DROP (R330): a frame that no other row of the table is about. One of EtherType 0x88F7 goes to the time block, which does not use it
(R341); a Sahvos frame that no row drops is of the row of its KIND. -/
def execReceiveFilterDrop (rx : NetRx) (f : OtherFrame) (s : State) : Host.Outcome State Fault Refusal :=
  done <| s.receive rx.path rx.head fun s =>
    if f.etherType = 0x88F7 then s.bump tmBase Reg.TM_PCNT_DISCARDS
    else
      let kept := f.etherType == 0x88B5 && !s.tabor && f.sahvos.any fun f => [1, 2, 3, 5].contains f.kind.toNat && !badSahvos f f.kind.toNat &&
        !(f.kind == 3 && rx.head.dst != macOf rx.path)
      if kept then s else s.bump (netBase rx.path) Reg.NET_ERRCNT_FILTERED

/-- The publisher of a frame (R320). -/
def publisherOf (f : Sahvos) : Nat := f.station.toNat * 256 + f.addr.toNat

def State.publisher (s : State) (k : Nat) : PeerSt := Store.get PeerSt.init s.net.publishers k

/-- The network import signals. -/
def State.netImports (s : State) : List Record := (signalsOf s.img.active).filter fun r => sigProducer r == 0xFFFE

def State.setBound (s : State) (sig k : Nat) : State := s.modNet fun n => { n with bound := Store.set 0 n.bound sig k }

/-- An entry of a complete image of publisher `k` (R321): a signal bound to none is bound to it; with another publisher's signal it is a conflict, counted
by the path on which the image was completed. -/
def State.bindEntry (s : State) (p : Path) (imports : List Nat) (k sig : Nat) : State :=
  if imports.contains sig then
    match Store.get 0 s.net.bound sig with
    | 0 => s.setBound sig (k + 1)
    | b => if b = k + 1 then s else s.bump (netBase p) Reg.NET_DROPCNT_CONFLICT
  else s

/-- CYCLIC_FRAME (R320, R321, R324, R330). -/
def execCyclicFrame (rx : NetRx) (f : Sahvos) (s : State) : Host.Outcome State Fault Refusal :=
  let p := rx.path
  done <| s.receive p rx.head fun s =>
    if s.tabor || badSahvos f 1 then s.bump (netBase p) Reg.NET_ERRCNT_FILTERED
    else
      let s := s.bump (netBase p) Reg.NET_RXCNT_CYCLIC
      let s := s.modPath p fun x => { x with heard := true, heardCall := x.heardCall || f.flags.getLsbD 0 }
      let s := s.when (s.pathActive p) fun s => s.nset p Reg.NET_STATUS_ARMED true
      let k := publisherOf f
      let old := s.publisher k
      let (st, _, whole) := old.addPart f.stroke f.nparts.toNat f.part.toNat f.units.toNat false (f.entries.map fun e => (e.1.toNat, SigWord.ofBits e.2))
      let s := s.modNet fun n =>
        { n with publishers := Store.set PeerSt.init n.publishers k st,
                 complete := if whole.isSome && !n.complete.contains k then n.complete ++ [k] else n.complete }
      (whole.getD []).foldl (fun s e => s.bindEntry p (s.netImports.map sigId) k e.1) s

/-- NETWORK_SAFETY_FRAME (R330, R169). -/
def execNetworkSafetyFrame (rx : NetRx) (f : Sahvos) (s : State) : Host.Outcome State Fault Refusal :=
  let p := rx.path
  done <| s.receive p rx.head fun s =>
    if s.tabor || badSahvos f 2 then s.bump (netBase p) Reg.NET_ERRCNT_FILTERED
    else f.pdus.foldl State.receivePdu (s.bump (netBase p) Reg.NET_RXCNT_SAFETY)

/-! Frames that leave (R98, R99, R315, R316). -/

/-- A frame of this module (R316): STROKE and TIME are those of the last boundary. -/
def State.netFrame (s : State) (p : Path) (kind : Nat) (call : Bool) (part nparts count : Nat) (payload : List Byte) : NetFrame :=
  { dst := groupMac kind, vid := s.nrd p Reg.NET_VLAN_VID, pcp := s.nrd p Reg.NET_VLAN_PCPDATA, kind := kind
    flags := call.toNat + (if s.mst = stSafe then 2 else 0), addr := s.addr, station := s.rdw nvjBase Reg.IMG_STATION, stroke := s.strokeNo
    timeS := (s.rdw tmBase Reg.STK_TB_SLO).toNat + s.rd tmBase Reg.STK_TB_SHI_S * 2 ^ 32, timeNs := s.rdw tmBase Reg.STK_TB_NS
    units := s.rd tmBase Reg.STK_CFG_TS_UNITS, part := part, nparts := nparts, count := count, payload := payload }

/-- CLK_FAB cycles of a frame on the line: tag, header, FCS, preamble and gap besides its payload, at 10, 1 or 0.1 Gbit/s (DEDUCED, log entry 97). -/
def State.lineCycles (s : State) (p : Path) (f : NetFrame) : Nat :=
  let bytes := max 64 (18 + 32 + f.payload.length + 4) + 20
  match s.nrd p Reg.NET_CFG_PMODE with
  | 1 => (2 * bytes + 4) / 5
  | 2 => 4 * bytes
  | _ => 40 * bytes

/-- The frames of an image that have begun by now, one after the other; what stays, and when the line is free. -/
def State.sendRun (s : State) (p : Path) : List NetFrame → State
  | [] => s.modPath p fun x => { x with queue := [] }
  | f :: l =>
    if (s.path p).free ≤ s.time.cycles then
      State.sendRun (((s.modPath p fun x => { x with free := x.free + s.lineCycles p f }).bump (netBase p) Reg.NET_TXCNT_CYCLIC).emit (.sahvos p f)) p l
    else s.modPath p fun x => { x with queue := f :: l }

/-- The CYCLIC frames that have begun by now leave, those of the newest image after the one being sent (R99). A path that may not send has none. -/
def State.pump (s : State) (p : Path) : State :=
  if !s.sends p then s.modPath p fun x => { x with queue := [], next := [] }
  else
    let s := s.sendRun p (s.path p).queue
    if (s.path p).queue.isEmpty && decide ((s.path p).free ≤ s.time.cycles) && !(s.path p).next.isEmpty then
      (s.modPath p fun x => { x with next := [] }).sendRun p (s.path p).next
    else s

/-- SAFETY_FRAME_SEND (R319): the PDUs handed within 10 µs leave in one frame, ahead of every CYCLIC frame not yet begun; without a sending path they are
not sent. -/
def execSafetyFrameSend (s : State) : Host.Outcome State Fault Refusal :=
  done <|
    match s.net.outPdus with
    | [] => s
    | pdus =>
      match [Path.a, Path.b].find? s.sends with
      | some p =>
        if s.tabor then s.modNet fun n => { n with outPdus := [] }
        else
          let s := s.pump p
          let f := s.netFrame p 2 false 0 1 (pdus.take 32).length ((pdus.take 32).flatMap fun d => leList d.toNat 16)
          let s := s.modPath p fun x => { x with free := max x.free s.time.cycles + s.lineCycles p f }
          (s.emit (.sahvos p f)).modNet fun n => { n with outPdus := pdus.drop 32 }
      | none => s.modNet fun n => { n with outPdus := [] }

/-- LASTGASP_RECEIVE (R329): offered to the recorder (R396 SRC 10). -/
def execLastgaspReceive (rx : NetRx) (f : Sahvos) (s : State) : Host.Outcome State Fault Refusal :=
  let p := rx.path
  done <| s.receive p rx.head fun s =>
    if s.tabor || badSahvos f 5 then s.bump (netBase p) Reg.NET_ERRCNT_FILTERED
    else s.occur 10 f.addr.toNat f.station.toNat (keyOfBlock 3 (pathNum p)) 0

/-- The path serves IPv4 traffic to `ip` (R317); in Tabor mode NA carries Type 41 alone (R447). -/
def State.servesIp (s : State) (p : Path) (ip : BitVec 32) : Bool :=
  s.role p != roleOff && !s.tabor && s.rdw (netBase p) Reg.NET_IP != 0 && s.rdw (netBase p) Reg.NET_IP == ip

/-- What the policer lets through is served; what the last row of R330 drops is FILTERED. -/
def State.serveIp (s : State) (p : Path) (h : MacHead) (ip : BitVec 32) (o : Output) : State :=
  s.receive p h fun s =>
    if !s.servesIp p ip then s.bump (netBase p) Reg.NET_ERRCNT_FILTERED
    else
      let (ok, s) := s.police p
      if ok then s.emit o else s

/-- ARP_REQUEST (R317). -/
def execArpRequest (rx : NetRx) (ip : BitVec 32) (requesterMac : BitVec 48) (s : State) : Host.Outcome State Fault Refusal :=
  done (s.serveIp rx.path rx.head ip (.arpReply rx.path requesterMac))

/-- ICMP_ECHO (R317). -/
def execIcmpEcho (rx : NetRx) (ip : BitVec 32) (requesterIp : BitVec 32) (s : State) : Host.Outcome State Fault Refusal :=
  done (s.serveIp rx.path rx.head ip (.icmpReply rx.path requesterIp))

/-! Switch-over (R324–R328). -/

/-- A role change is to take place at the next boundary: on a path that is ACTIVE. -/
def State.trigger (s : State) (p : Path) (kind : Nat) : State :=
  (s.nset p Reg.NET_STATUS_SWPEND true).modNet fun n =>
    { n with pendingKind := kind, gapFrom := some (s.fab.boundaries, p) }

/-- SWITCHOVER_TRIGGER (R326): after the boundary that ends the second consecutive missed cycle of an ARMED ACTIVE path, and after any boundary with NOALT
set: a switch-over where the other path is eligible, else NOALT. Tabor mode triggers nothing (R329). -/
def execSwitchoverTrigger (p : Path) (s : State) : Host.Outcome State Fault Refusal :=
  done <|
    let missed := s.nflag p Reg.NET_STATUS_ARMED && 2 ≤ s.nrd p Reg.NET_STATUS_MISS
    if s.pathActive p && (missed || s.nflag p Reg.NET_STATUS_NOALT) && s.net.pendingKind < 2 && !s.tabor && s.mst != stPfail then
      if s.elig (otherPath p) then (s.bump (netBase p) Reg.NET_MISSCNT_SWITCHOVERS).trigger p 3
      else s.nset p Reg.NET_STATUS_NOALT true
    else s

/-- CALL_FOLLOW (R326): the other path heard CALL in two consecutive exchange cycles, and no earlier row of the table holds. -/
def execCallFollow (p : Path) (s : State) : Host.Outcome State Fault Refusal :=
  done <|
    let earlier := (s.nflag p Reg.NET_STATUS_ARMED && 2 ≤ s.nrd p Reg.NET_STATUS_MISS) || s.nflag p Reg.NET_STATUS_NOALT
    if !earlier && s.pathActive p && s.follow && 2 ≤ (s.path (otherPath p)).callRun && s.elig (otherPath p) && s.net.pendingKind < 2 && !s.tabor &&
        s.mst != stPfail then
      (s.bump (netBase p) Reg.NET_MGMTCNT_FOLLOWS).trigger p 2
    else s

/-- CALL_END (R326): 64 exchange cycles with CALL have passed. -/
def execCallEnd (p : Path) (s : State) : Host.Outcome State Fault Refusal :=
  done <| if s.nflag p Reg.NET_STATUS_CALLING && (s.path p).calls == 0 then s.nset p Reg.NET_STATUS_CALLING false else s

/-- An island fault (R323, R326): the path is OFF, and the Snare falls free if it held it, in PFAIL too. -/
def State.islandFault (s : State) (p : Path) : State :=
  let s := (s.nset p Reg.NET_STATUS_LINK false).modPath p fun x => { x with held := false }
  (s.when (s.mst == stPfail && s.net.snare.toNat == pathNum p + 1) fun s => s.setSnare 0).pathOff p

/-- ISLAND_FAULT. -/
def execIslandFault (p : Path) (s : State) : Host.Outcome State Fault Refusal := done (s.islandFault p)

/-- NET.CTRL:SWITCH (R328). -/
def decideSwitch (p : Path) (s : State) : Code × State :=
  if s.tabor then (E_TABOR, s)
  else if !s.mstIn [stReady, stRun, stService] then (E_STATE, s)
  else if [Path.a, Path.b].any fun p => s.nflag p Reg.NET_STATUS_SWPEND then (E_BUSY, s)
  else if s.role p ≠ roleStandby ∨ !s.elig p then (E_STATE, s)
  else
    (E_OK, s.when (s.pathActive (otherPath p)) fun s =>
      (s.nset (otherPath p) Reg.NET_STATUS_SWPEND true).modNet fun n => { n with pendingKind := 1 })

/-- SWITCH (R328). -/
def execSwitch (p : Port) (path : Path) (s : State) : Host.Outcome State Fault Refusal := command p (decideSwitch path) s

/-! At the boundaries. -/

/-- The exchange cycle of a path ends (R324, R326). -/
def State.endCycle (s : State) (p : Path) : State :=
  let x := s.path p
  let s := s.modPath p fun x =>
    { x with heard := false, heardCall := false, callRun := if x.heardCall then x.callRun + 1 else 0, calls := x.calls - 1 }
  if x.heard then (s.nwr p Reg.NET_STATUS_MISS 0).nset p Reg.NET_STATUS_NOALT false
  else
    let s := s.nwr p Reg.NET_STATUS_MISS (min 3 (s.nrd p Reg.NET_STATUS_MISS + 1))
    s.when (s.pathActive p && s.nflag p Reg.NET_STATUS_ARMED) fun s => s.bump (netBase p) Reg.NET_MISSCNT_MISSED

/-- Exchange cycles end at boundaries with N mod ECDIV = 0 (R324). -/
def State.endCycles (s : State) : State :=
  if s.strokeNo % s.ecdiv = 0 then (s.endCycle .a).endCycle .b else s

/-- The PTP port moves to the path that becomes ACTIVE (R342): a parent heard there too is kept, and the delay measurement restarts. -/
def State.movePort (s : State) : State :=
  s.when (s.rd tmBase Reg.TM_CFG_SRC == 0) fun s => s.modTime fun x =>
    { x with half := none, sync := none, req := none, moved := x.delay.isSome, masters := x.masters.filter fun m => some m.a.head.sender == x.parent }

/-- A path becomes ACTIVE: the Snare is seized; CALL starts after an automatic switch-over, for 64 whole exchange cycles (R326). -/
def State.seize (s : State) (p : Path) (call : Bool) : State :=
  let s := ((s.nwr p Reg.NET_STATUS_ROLE roleActive).nset p Reg.NET_STATUS_ARMED false).movePort
  ((s.nset p Reg.NET_STATUS_CALLING call).modPath p fun x => { x with calls := if !call then 0 else if s.strokeNo % s.ecdiv = 0 then 64 else 65 }).setSnare (pathNum p + 1)

/-- The role changes of a boundary (R326, step 7 of R103). -/
def State.pathRoles (s : State) : State :=
  if s.mst = stPfail ∨ s.net.snare = 3 then s
  else
    match [Path.a, Path.b].find? fun p => s.pathActive p with
    | some p =>
      if s.nflag p Reg.NET_STATUS_SWPEND then
        let auto := s.net.pendingKind == 3
        let s := ((s.nwr p Reg.NET_STATUS_ROLE roleStandby).nset p Reg.NET_STATUS_SWPEND false).nset p Reg.NET_STATUS_ARMED false
        let s := ((s.nset p Reg.NET_STATUS_CALLING false).setSnare 0).modNet fun n => { n with pendingKind := 0 }
        let s := s.modPath p fun x => { x with queue := [], next := [] }
        s.when (s.role (otherPath p) == roleStandby) fun s => s.seize (otherPath p) auto
      else s
    | none =>
      let may (p : Path) : Bool :=
        s.role p == roleStandby && s.elig p && (!s.elig (otherPath p) || s.pref == p)
      let ready := [stEnum, stLoad, stReady, stRun, stSafe, stService].contains s.mst
      match (if ready then [Path.a, .b].find? may else none) with
      | some p => (s.modNet fun n => { n with pendingKind := 0 }).seize p false
      | none => s

/-- The line is re-read at a boundary (R323): a Snare fault that begins is recorded. -/
def State.readSnare (s : State) (fault : Bool) : State :=
  let s := s.when (fault && s.net.snare != 3) fun s => s.occur 9 0 0 (keyOfBlock 3 0) 0
  s.setSnare (if fault then 3 else s.snareHeld)

/-- One entry of a complete image at its publication (R321, R322); answers the signals refreshed so far. -/
def State.takeEntry (s : State) (imports : List Nat) (k : Nat) (got : List Nat) (e : Nat × SigWord) : List Nat × State :=
  -- a value that is not finite is not published (R77; DESIGN CHOICE, log entry 124)
  if imports.contains e.1 && Store.get 0 s.net.bound e.1 == k + 1 && f32Finite e.2.val then
    let s := (s.modNet fun n => { n with live := Store.set false n.live e.1 true }).setSig e.1 { e.2 with flags := e.2.flags ||| FL_IMPORT }
    (e.1 :: got, s.modFab fun f => { f with freshAt := Store.set none f.freshAt e.1 (some f.boundaries) })
  else (got, s)

/-- An import that is not refreshed (R322). -/
def State.staleImport (s : State) (sig : Nat) : State :=
  let w := s.sig sig
  let age := min (w.age + 1) 65535
  if !Store.get false s.net.live sig then s.setSig sig w.aged
  else if s.imptmo ≤ age then
    (s.setBound sig 0).setSig sig ⟨w.val, Q_BAD_COMM, FL_IMPORT, age⟩
  else if s.ecdiv ≤ age then
    s.setSig sig { w.aged with qual := if 8 ≤ w.qual.toNat && w.qual.toNat ≤ 11 then w.qual else Q_HELD }
  else s.setSig sig w.aged

/-- Publication of the network imports (R320–R322), and the gap register (R327). -/
def State.publishNet (s : State) : State :=
  let imports := s.netImports.map sigId
  let images := s.net.complete.filterMap fun k => (s.publisher k).image.map fun i => (k, i.2.2.2)
  let (got, s) :=
    match [Path.a, Path.b].find? s.sends with
    | some _ =>
      images.foldl (fun (x : List Nat × State) (ke : Nat × List (Nat × SigWord)) => ke.2.foldl (fun x e => x.2.takeEntry imports ke.1 x.1 e) x) (([] : List Nat), s)
    | none => ([], s)
  let s := s.modNet fun n =>
    { n with complete := [], publishers := Store.mapVals PeerSt.init (fun _ p => { p with image := none }) n.publishers }
  let s := (imports.filter fun i => !got.contains i).foldl State.staleImport s
  match s.net.gapFrom, got with
  | some (b0, p), _ :: _ =>
    let n := min 65535 (s.fab.boundaries - b0)
    let s := (s.nwr p Reg.NET_GAP_LAST n).nwr p Reg.NET_GAP_MAX (max n (s.nrd p Reg.NET_GAP_MAX))
    s.modNet fun x => { x with gapFrom := none }
  | _, _ => s

/-- The CYCLIC frames of the image just published (R318): at least one, of up to 91 entries each. -/
def State.cyclicFrames (s : State) (p : Path) : List NetFrame :=
  let entries := (exportsOf s.img.active 0).map fun r => (sigId r, s.sig (sigId r))
  let parts := if entries.isEmpty then [[]] else partsOf 91 64 entries
  let call := s.nflag p Reg.NET_STATUS_CALLING && (s.path p).calls != 0
  parts.zipIdx.map fun x => s.netFrame p 1 call x.2 parts.length x.1.length (x.1.flatMap entryBytes)

/-- Export of the image just published (R318), after the role changes of the boundary. A path that still sends an older image keeps the newest, and counts
each that it skips (R99). -/
def State.exportNet (s : State) : State :=
  let s := (s.pump .a).pump .b
  match [Path.a, Path.b].find? s.sends with
  | some p =>
    if s.tabor || s.strokeNo % s.ecdiv ≠ 0 then s
    else
      let frames := s.cyclicFrames p
      if !(s.path p).queue.isEmpty || decide (s.time.cycles < (s.path p).free) then
        let s := s.when (!(s.path p).next.isEmpty) fun s => s.bump (netBase p) Reg.NET_TXCNT_SKIPPED
        s.modPath p fun x => { x with next := frames }
      else (s.modPath p fun x => { x with queue := frames, free := s.time.cycles }).pump p
  | none => s

/-- A commit replaced the directory: imports that left it are forgotten, new ones start unbound (R321). -/
def State.rebindImports (s : State) (old : List Record) : State :=
  let keep := ((signalsOf old).filter fun r => sigProducer r == 0xFFFE).map sigId
  let stays (sig : Nat) : Bool := keep.contains sig && s.netImports.any fun r => sigId r == sig
  s.modNet fun n => { n with bound := n.bound.filter fun e => stays e.1, live := n.live.filter fun e => stays e.1 }

end Sys2Proof.Machine
end

