-- ==== Sys2Proof/Machine/Reply.lean ====
section
/-! DEFINITION. Management messages (R462–R466): the bytes of a request and what they spell, the bytes of a response, and how a response leaves. -/

namespace Sys2Proof

open Sys2Proof.Machine

/-! The request (R465). -/

def opRead : Nat := 1
def opWrite : Nat := 2

/-- The port by which a requester reaches the module (R462). -/
def Requester.port : Requester → Port
  | .usb => .service
  | .mac p _ => match p with | .a => .na | .b => .nb
  | .udp p _ _ _ => match p with | .a => .na | .b => .nb
  | .chain p _ => match p with | .up => .chainUp | .down => .chainDown

/-- Two requests are of one requester (R462): a datagram's by its source IP address and UDP port, a MGMT frame's by SRC, or by the port of arrival where
SRC is 0. -/
def sameSource : Requester → Requester → Bool
  | .udp _ ip q _, .udp _ ip' q' _ => ip == ip' && q == q'
  | .chain p src, .chain p' src' => src == src' && (src != 0 || p == p')
  | a, b => a == b

def MgmtReq.port (r : MgmtReq) : Port := r.requester.port

/-- The little-endian word of the first four bytes. -/
def wordAt (l : List Byte) : Word := BitVec.ofNat 32 (leNat (l.take 4))

/-- The operations that the bytes spell, at most `n`: DATA follows a write only, and what is cut short reads as fewer words (R465). -/
def parseOps : Nat → List Byte → List MgmtOp
  | 0, _ => []
  | n + 1, l =>
    if l.isEmpty then []
    else
      let count := l.getD 4 0
      let op := l.getD 5 0
      let data := (l.drop 8).take (if op.toNat = opWrite then 4 * count.toNat else 0)
      ⟨wordAt l, count, op, BitVec.ofNat 16 (leNat ((l.drop 6).take 2)), (List.range (data.length / 4)).map fun i => wordAt (data.drop (4 * i))⟩ ::
        parseOps n (l.drop (8 + data.length))

def MgmtReq.tid (r : MgmtReq) : BitVec 16 := BitVec.ofNat 16 (leNat (r.bytes.take 2))
def MgmtReq.nops (r : MgmtReq) : Byte := r.bytes.getD 2 0
def MgmtReq.reserved (r : MgmtReq) : Byte := r.bytes.getD 3 0
def MgmtReq.ops (r : MgmtReq) : List MgmtOp := parseOps r.nops.toNat (r.bytes.drop 4)

end Sys2Proof

namespace Sys2Proof.Machine

/-! The response (R466). -/

def responseBytes (r : MgmtReq) (c : Code) (failop : Nat) (data : List Word) : List Byte :=
  leList r.tid.toNat 2 ++ [c, BitVec.ofNat 8 failop, r.nops, 0, 0, 0] ++ data.flatMap fun w => leList w.toNat 4

/-- The KIND 4 frame of a path (R316): from the path of arrival to the requester's MAC address, at PCPMGMT. -/
def State.mgmtFrame (s : State) (p : Path) (mac : BitVec 48) (bytes : List Byte) : NetFrame :=
  { s.netFrame p 4 false 0 1 bytes.length bytes with dst := mac, pcp := s.nrd p Reg.NET_VLAN_PCPMGMT }

/-- The MGMT frame of a response (R463): its length, 4 and zeros in TSPEC. -/
def State.chainResponse (s : State) (dst : BitVec 8) (bytes : List Byte) : ChainFrame :=
  s.newFrame dst 4 2 0 (leList bytes.length 2 ++ [4, 0, 0, 0]) (granulesOf bytes)

/-- A response returns by the transport of its request (R462). A path that is OFF, and a chain port that is not UP, carry none. -/
def State.sendResponse (s : State) (r : MgmtReq) (bytes : List Byte) : State :=
  match r.requester with
  | .usb => s.emit (.usb { s.mgmtFrame .a 0 bytes with vid := 0, pcp := 0 })
  | .mac p mac => if s.role p = roleOff ∨ !s.sahvosUp then s else s.emit (.sahvos p (s.mgmtFrame p mac bytes))
  | .udp p ip q mac => if s.role p = roleOff ∨ !s.sahvosUp then s else s.emit (.datagram p ip q (s.mgmtFrame p mac bytes))
  | .chain p src => if src = 0 ∨ s.addr = 0 then s.originate p (s.chainResponse src bytes) else s.sendChain (s.chainResponse src bytes)

/-- The answer of a request leaves, and stands beside the request where that is remembered (R472). -/
def State.respond (s : State) (r : MgmtReq) (c : Code) (failop : Nat) (data : List Word) : State :=
  let o := responseBytes r c failop data
  (s.sendResponse r o).modMgmt fun m => { m with memory := m.memory.map fun e => if e.1 = r then (r, some (o, s.time.cycles)) else e }

end Sys2Proof.Machine
end

