-- ==== Sys2Proof/Machine/Lockstep.lean ====
section
/-! DEFINITION. Safety-relevant faults, lockstep pairs and debug access (R186, R187, R191–R195, R499, R504). -/

namespace Sys2Proof.Machine

/-- A pair that debug has split reports nothing until POWERUP (R195). -/
def State.pairSplit (s : State) (pair : Nat) : Bool := s.flag (cpBase pair) Reg.CP_STATUS_SPLIT

/-- The cause is a report of the Clapper or the background compare of a split pair, which are disabled (R195). -/
def State.splitCause (s : State) (c : Cause) (pair : Nat) : Bool :=
  (decide ((causeCode c) ≤ 3) && s.pairSplit pair) || (c == .dormantCp0 && s.pairSplit 0)

/-- SAFETY_RELEVANT_FAULT (R186, R499). -/
def execSafetyRelevantFault (c : Cause) (pair : Fin 4) (sub : BitVec 4) (s : State) : Host.Outcome State Fault Refusal :=
  done (if s.splitCause c pair.val then s else s.safetyFault c pair.val sub.toNat)

/-- LOCKSTEP_OUTPUT_MISMATCH (R191, R192): MATCH reads 10. -/
def execLockstepOutputMismatch (pair : Fin 4) (s : State) : Host.Outcome State Fault Refusal :=
  done (if s.pairSplit pair.val then s else s.safetyFault .mismatch pair.val 0)

/-- CLAPPER_FAULT (R191, R192): MATCH or CHECK reads 00 or 11. -/
def execClapperFault (pair : Fin 4) (s : State) : Host.Outcome State Fault Refusal :=
  done (if s.pairSplit pair.val then s else s.safetyFault .clapperFault pair.val 0)

/-- DELAY_FAULT (R191, R192): parity error in a delay register. -/
def execDelayFault (pair : Fin 4) (s : State) : Host.Outcome State Fault Refusal :=
  done (if s.pairSplit pair.val then s else s.safetyFault .delayFault pair.val 0)

/-- The pin SAFE_IN_N as filtered, and TB.STATUS:SAFEIN. -/
def State.setSafeIn (s : State) (high : Bool) : State :=
  (s.modToc fun t => { t with safeIn := high }).setFlag tbBase Reg.TB_STATUS_SAFEIN high

/-- SAFE_IN_N_TRANSITION (R187): a filtered transition to low in ENUM, LOAD, READY, RUN or SERVICE is the cause SAFE_IN. -/
def execSafeInNTransition (high : Bool) (s : State) : Host.Outcome State Fault Refusal :=
  done <|
    let s := s.setSafeIn high
    if !high && s.mstIn [stEnum, stLoad, stReady, stRun, stService] then s.safetyFault .safeIn 0 0 else s

/-- SAFE_IN_HARDWIRE_TIMEOUT (R186): Tocsin has not entered SAFE within 500 µs of the pin's transition. -/
def execSafeInHardwireTimeout (s : State) : Host.Outcome State Fault Refusal :=
  done (if s.causeLatched .safeIn && s.tstate != tsSafe then s.setLine true else s)

/-- The pair compares at a background compare: it runs in lockstep and is not held, from ENUM on and outside PFAIL (R192). -/
def State.compares (s : State) (pair : Nat) : Bool :=
  s.flag (cpBase pair) Reg.CP_STATUS_LOCKSTEP && !s.flag (cpBase pair) Reg.CP_STATUS_HELD &&
    s.mstIn [stEnum, stLoad, stReady, stRun, stSafe, stService]

/-- A dormant divergence (R192, R193, R504): the pair is held; one of CP1–CP3 counts a block error, CP0 is a safety cause. -/
def State.diverge (s : State) (pair : Nat) : State :=
  let s := (s.bump (cpBase pair) Reg.CP_DIV_DIVERGES).setFlag (cpBase pair) Reg.CP_STATUS_HELD true
  if pair = 0 then s.safetyFault .dormantCp0 0 0
  else
    let (iso, s) := s.countBlockError 2 (25 + pair)
    if iso then (List.range 4).foldl State.driveAx (s.isolateBlock 2 (25 + pair) false) else s

/-- R193: the transaction at the front of the queue, which CP1 was executing, is answered with E_INTERNAL, and nothing of it takes effect. -/
def State.loseTransaction (s : State) : State :=
  match s.mgmt.queue with
  | [] => s
  | (_, r) :: rest => (s.modMgmt fun m => { m with queue := rest }).respond r E_INTERNAL 0xFF []

/-- BACKGROUND_COMPARE (R192): bit n of `diverged` says that pair CPn's two cores differ, `executing` that CP1 was executing a transaction whose commit
had not been issued (R193). -/
def execBackgroundCompare (diverged : BitVec 4) (executing : Bool) (s : State) : Host.Outcome State Fault Refusal :=
  done <|
    let s := s.when (executing && s.compares 1 && bitSet diverged.toNat 1) State.loseTransaction
    (List.range 4).foldl (fun s n =>
    if s.compares n then
      let s := s.wrw (cpBase n) Reg.CP_CMPCNT (s.rdw (cpBase n) Reg.CP_CMPCNT + 1)
      if bitSet diverged.toNat n then s.diverge n else s
    else s) s

/-- TST_FAIL, or a cause of CP0 that only a restart clears, holds CP0 (R25, R186, R189). -/
def State.hardHeld (s : State) (pair : Nat) : Bool := pair == 0 && (s.toc.hardCp0 || s.causeLatched .tstFail)

/-- RESYNC_RELEASE (R193): the first compare after the restore matches; HELD clears and RESYNCS counts. The pair of an isolated block stays held (R504),
and CP0 stays held while TST_FAIL or a cause that only a restart clears holds it (R186). -/
def execResyncRelease (pair : Fin 4) (timeUs : Nat) (s : State) : Host.Outcome State Fault Refusal :=
  done <|
    let b := cpBase pair.val
    if s.flag b Reg.CP_STATUS_HELD && !s.isolated 2 (25 + pair.val) then
      let s := s.when (s.blkSt 2 (25 + pair.val) == bkRecover) fun s => s.wr (blkBase 2 (25 + pair.val)) Reg.BLK_STATE_STATE bkRun
      let s := (s.bump b Reg.CP_DIV_RESYNCS).occur 6 pair.val timeUs (keyOfBlock 2 (25 + pair.val)) 0
      let s := s.when (pair.val = 0) fun s => s.modToc fun t => { t with cp0Ok := true }
      if s.hardHeld pair.val then s else s.setFlag b Reg.CP_STATUS_HELD false
    else s

/-! Debug access (R195). -/

/-- The first two rows of R195. -/
def debugGate (p : Port) (s : State) : Option Code :=
  if p ≠ .service then some E_ACCESS else if s.mst ≠ stService then some E_STATE else none

/-- ATTACH (R195, R184): the pair is split; a split CP0 stops Tocsin and asserts the line, another pair disarms it. -/
def decideDebugAttach (p : Port) (pair : Nat) (s : State) : Code × State :=
  match debugGate p s with
  | some c => (c, s)
  | none =>
    let b := cpBase pair
    if s.flag b Reg.CP_STATUS_DEBUG then (E_OK, s)
    else
      let s := ((s.setFlag b Reg.CP_STATUS_DEBUG true).setFlag b Reg.CP_STATUS_SPLIT true).setFlag b Reg.CP_STATUS_LOCKSTEP false
      let s := (s.setFlag tbBase Reg.TB_STATUS_DBGFLAG true).occur 5 pair 0 (keyOfBlock 2 (25 + pair)) 0
      if pair = 0 then (E_OK, ((s.setTstate tsStopped).tripAll).setLine true)
      else (E_OK, s.when (s.tstate == tsArmed) fun s => (s.setTstate tsDisarmed).tripAll)

def execDebugAttach (p : Port) (pair : Fin 4) (s : State) : Host.Outcome State Fault Refusal :=
  command p (decideDebugAttach p pair.val) s

/-- DETACH (R195): the debugger is released; SPLIT and DBGFLAG remain. -/
def decideDebugDetach (p : Port) (pair : Nat) (s : State) : Code × State :=
  match debugGate p s with
  | some c => (c, s)
  | none => (E_OK, s.setFlag (cpBase pair) Reg.CP_STATUS_DEBUG false)

def execDebugDetach (p : Port) (pair : Fin 4) (s : State) : Host.Outcome State Fault Refusal :=
  command p (decideDebugDetach p pair.val) s

/-- CP.DBG:OP = NOP (R195, R198): judged as any operation, with no effect. -/
def decideDebugNop (p : Port) (_pair : Nat) (s : State) : Code × State :=
  match debugGate p s with
  | some c => (c, s)
  | none => (E_OK, s)

def execDebugNop (p : Port) (pair : Fin 4) (s : State) : Host.Outcome State Fault Refusal :=
  command p (decideDebugNop p pair.val) s

end Sys2Proof.Machine
end

