-- ==== Sys2Proof/Machine/Phasor.lean ====
section
/-! DEFINITION. The phasor engine (05): result sets, sync machine, breaker-close permit and phasor events. -/

namespace Sys2Proof.Machine

/-! CELL payloads of a group (R143). -/
def State.phCh (s : State) (g k : Nat) : Nat := recByte (s.cfg (phId g) 0) k
def State.phRole (s : State) (g k : Nat) : Nat := recByte (s.cfg (phId g) 0) (8 + k)
def State.phNomF (s : State) (g : Nat) : Rat := if recByte (s.cfg (phId g) 0) 16 = 1 then 60 else 50
def State.phLL (s : State) (g : Nat) : Bool := recByte (s.cfg (phId g) 0) 17 == 1
def State.phSyncRef (s : State) (g : Nat) : Nat := recByte (s.cfg (phId g) 0) 18
def State.phSyncEn (s : State) (g : Nat) : Bool := recByte (s.cfg (phId g) 0) 19 % 2 == 1
def State.phCheck (s : State) (g : Nat) : Bool := recByte (s.cfg (phId g) 0) 19 / 2 % 2 == 1
def State.phVnom (s : State) (g : Nat) : Rat := f32 (recWord (s.cfg (phId g) 0) 20)
def State.phCloseDp (s : State) (g : Nat) : Option Nat :=
  let c := recByte (s.cfg (phId g) 0) 24
  if c = 0xFF then none else some c
def State.phDeadOpt (s : State) (g i : Nat) : Bool := recByte (s.cfg (phId g) 0) 25 / 2 ^ i % 2 == 1
def State.phRatio (s : State) (g k : Nat) : Rat :=
  f32 (if k < 6 then recWord (s.cfg (phId g) 1) (4 * k) else recWord (s.cfg (phId g) 2) (4 * (k - 6)))
/-- PHC of an input in degrees; 0 where SUB 2 is absent. -/
def State.phPhc (s : State) (g k : Nat) : Rat :=
  mkRat (BitVec.ofNat 16 (recU16 (s.cfg (phId g) 2) (8 + 2 * k))).toInt 100
def State.phSync (s : State) (g i : Nat) : Rat := f32 (recWord (s.cfg (phId g) 3) (4 * i))
def State.phDwell (s : State) (g : Nat) : Nat := recByte (s.cfg (phId g) 3) 24
def State.phThresh (s : State) (g e : Nat) : Rat := f32 (recWord (s.cfg (phId g) 4) (4 * e))
def State.phDelay (s : State) (g e : Nat) : Nat := recByte (s.cfg (phId g) 4) (20 + e)
def State.phVLive (s : State) (g : Nat) : Rat := f32 (recWord (s.cfg (phId g) 5) 0)
/-- V_DEAD, or 0.02 × VNOM where SUB 5 is absent (R147). -/
def State.phVDead (s : State) (g : Nat) : Rat :=
  match findRec s.img.active T_CELL 5 (phId g) with
  | some r => f32 (recWord r 4)
  | none => nearestF32 (mkRat 2 100) * s.phVnom g

/-- The input that carries a role. -/
def State.phInput (s : State) (g role : Nat) : Option Nat := (List.range 8).find? fun k => s.phRole g k == role

/-! Sync machine states (R162). -/
def syOff : Nat := 0
def syOutside : Nat := 1
def syInside : Nat := 2
def syArmed : Nat := 3
def syClosing : Nat := 4
def syDone : Nat := 5

/-! Windows and phasors (R145–R149). A phasor stands as the vector (1 / N) Σ x e^(−jωt): its RMS is √2 times as long. -/

/-- Samples of a window at a frequency (R146). -/
def windowLen (f : Rat) : Nat := (roundNear (64000 / ratClamp 40 70 f)).toNat

/-- The frequency that sizes a side's window and forms its phasors: its last estimate clamped to 40–70 Hz, or the nominal frequency while it is unlocked
(R146). -/
def State.phF (s : State) (g : Nat) (run : Bool) : Rat := ratClamp 40 70 ((if run then (s.ph g).fRun else (s.ph g).fInc).getD (s.phNomF g))

/-- The side whose window an input has: RUN for role 7, and for AUX where RUN_V is present (R146). -/
def State.phRunSide (s : State) (g k : Nat) : Bool := s.phRole g k == 7 || (s.phRole g k == 8 && (s.phInput g 7).isSome)

/-- The window of an input, newest sample first. -/
def State.phWindow (s : State) (g k : Nat) : List (Option Word) :=
  ((s.ph g).samples.take (windowLen (s.phF g (s.phRunSide g k)))).map fun r => r.getD k none

/-- The inputs that a group uses. -/
def State.phUsed (s : State) (g : Nat) : List Nat := (List.range 8).filter fun k => s.phCh g k != 0xFF

/-- R153: a window has not filled, or contains a missing or poisoned sample. -/
def State.phGap (s : State) (g : Nat) : Bool :=
  (s.phUsed g).any fun k =>
    let w := s.phWindow g k
    w.length != windowLen (s.phF g (s.phRunSide g k)) || w.any Option.isNone

/-- A discrete sum over a window at frequency f; the newest sample lies at t_w. -/
def fundamental (f : Rat) (xs : List Rat) : Rat × Rat :=
  let v := xs.zipIdx.foldl (fun (a : Rat × Rat) e =>
    let t := 360 * f * e.2 / 64000
    (a.1 + e.1 * cosDeg t, a.2 + e.1 * sinDeg t)) (0, 0)
  (v.1 / xs.length, v.2 / xs.length)

/-- (Xa + a·Xb + a²·Xc) / 3, or with `neg` the negative sequence, a = 1∠120° (R148). -/
def seqOf (neg : Bool) (x : List (Rat × Rat)) : Rat × Rat :=
  let v := x.zipIdx.map fun e => turned e.1 (if neg then 240 * e.2 else 120 * e.2)
  ((v.map Prod.fst).sum / 3, (v.map Prod.snd).sum / 3)

def magSq (v : Rat × Rat) : Rat := v.1 * v.1 + v.2 * v.2

/-- V · I* (R149). -/
def crossPower (v i : Rat × Rat) : Rat × Rat := (v.1 * i.1 + v.2 * i.2, v.2 * i.1 - v.1 * i.2)

/-- √3 × x as a word: the sign of x with the square root of 3x². -/
def sqrt3Times (x : Rat) : Word :=
  let w := f32Sqrt (3 * x * x)
  if x < 0 then w + 0x80000000 else w

/-- The quantities of a result set (R146–R149). -/
structure PhaseSet where
  rms : List Rat
  ang : List Rat
  lockInc : Bool
  lockRun : Bool
  fInc : Rat
  fRun : Rat
  vRun : Rat
  vSync : Rat
  dphi : Rat
  slip : Rat
  srate : Rat
  v1 : Word
  v2 : Word
  i1 : Word
  i2 : Word
  p : Word
  q : Word
  iavg : Rat
  vavg : Rat
  /-- what the next result set measures the frequencies and the slip rate with -/
  vecInc : Option (Rat × Rat)
  vecRun : Option (Rat × Rat)
  turnsInc : List Rat
  turnsRun : List Rat
  slips : List (Nat × Rat)

/-- t_w of the result set being formed: the last instant whose count of ns is a multiple of 250,000 (R146). -/
def State.tw (s : State) : Nat := s.nowNs / 250000 * 250000

/-- A side's turns since it is locked, and its frequency: the mean rate of change of the angle over the last window, of N_w / 16 result sets (R147), to a
free deviation of at most 1 mHz (log entry 22). The side's window frequency stands until the angle has changed once; an unlocked side has 0 (R152). -/
def sideFreq (locked : Bool) (f : Rat) (was : Option (Rat × Rat)) (turns : List Rat) (v : Rat × Rat) : List Rat × Rat :=
  if !locked then ([], 0)
  else
    match was with
    | none => ([], f)
    | some w =>
      let l := (angleOf (crossPower v w) :: turns).take (max 1 (windowLen f / 16))
      let rate := l.sum * 4000 / (360 * l.length)
      (l, rate + within (mkRat 1 1000) (Config.freqDev rate))

/-- Least-squares slope in Hz/s of slips at instants in ns; none where fewer than two give none (R147). -/
def slope (l : List (Nat × Rat)) : Option Rat :=
  let n : Rat := (l.length : Nat)
  let t0 : Nat := (l.getLast?.map Prod.fst).getD 0
  let xy := l.map fun e => ((mkRat ((e.1 : Int) - t0) 1000000000 : Rat), e.2)
  let sx := (xy.map Prod.fst).sum
  let sy := (xy.map Prod.snd).sum
  let den := n * (xy.map fun e => e.1 * e.1).sum - sx * sx
  if den = 0 then none else some ((n * (xy.map fun e => e.1 * e.2).sum - sx * sy) / den)

/-- The quantities of a result set from the windows; `freeRate` stands for a slip rate that too few slips give (DESIGN CHOICE, log entry 89). -/
def State.phaseSet (s : State) (g : Nat) (freeRate : Rat) : PhaseSet :=
  let st := s.ph g
  let used (k : Nat) : Bool := s.phCh g k != 0xFF
  let xs (k : Nat) : List Rat := (s.phWindow g k).map fun w => s.phRatio g k * f32 (w.getD 0)
  let rms := (List.range 8).map fun k =>
    if used k then let l := xs k; f32 (f32Sqrt ((l.map fun x => x * x).sum / l.length)) else 0
  let vec := (List.range 8).map fun k => if used k then turned (fundamental (s.phF g (s.phRunSide g k)) (xs k)) (s.phPhc g k) else (0, 0)
  let ang := (List.range 8).map fun k => if used k then argDeg (vec.getD k (0, 0)) else 0
  let ref := (s.phInput g (s.phSyncRef g)).getD 0
  let run := s.phInput g 7
  let vSync := rms.getD ref 0
  let vRun := match run with | some k => rms.getD k 0 | none => 0
  let lockInc := decide (s.phVDead g ≤ vSync)
  let lockRun := run.isSome && decide (s.phVDead g ≤ vRun)
  let three (r : Nat) : List (Rat × Rat) := (List.range 3).filterMap fun j => (s.phInput g (r + j)).map fun k => vec.getD k (0, 0)
  let volts := three 1
  let amps := three 4
  let full := volts.length == 3
  let cur := amps.length == 3
  let ll := s.phLL g
  -- line-to-line phasors are turned by −30° and +30°, and divided by √3 below (R148)
  let v1 := turned (seqOf false volts) (if ll then -30 else 0)
  let v2 := turned (seqOf true volts) (if ll then 30 else 0)
  let i1 := seqOf false amps
  let i2 := seqOf true amps
  let vInc := if full then v1 else vec.getD ref (0, 0)
  let vRunV := match run with | some k => vec.getD k (0, 0) | none => (0, 0)
  let (tInc, fInc) := sideFreq lockInc (s.phF g false) st.vecInc st.turnsInc vInc
  let (tRun, fRun) := sideFreq lockRun (s.phF g true) st.vecRun st.turnsRun vRunV
  let both := lockInc && lockRun
  let slip := if both then fInc - fRun else 0
  let slips := if both then (s.tw, slip) :: st.slips.filter fun e => decide (((s.tw : Int) - e.1 : Rat) * fRun < 8000000000) else []
  let pq1 := crossPower v1 i1
  let pq2 := crossPower v2 i2
  -- each vector is √2 short: 3 · V · I* carries 2, and 3 · V / √3 = √3 · V
  let power (x : Rat) : Word := if ll then sqrt3Times (2 * x) else toF32c (6 * x)
  let len (v : Rat × Rat) (d : Rat) : Word := f32Sqrt (2 * magSq v / d)
  let mean (r : Nat) : Rat := (((List.range 3).filterMap fun j => (s.phInput g (r + j)).map fun k => rms.getD k 0).sum) / 3
  { rms := rms, ang := ang, lockInc := lockInc, lockRun := lockRun, fInc := fInc, fRun := fRun, vRun := vRun, vSync := vSync,
    dphi := if both then argDeg (crossPower (vec.getD ref (0, 0)) vRunV) else 0,
    slip := slip, srate := (slope slips).getD freeRate,
    v1 := if full then len v1 (if ll then 3 else 1) else 0, v2 := if full then len v2 (if ll then 3 else 1) else 0,
    i1 := if cur then len i1 1 else 0, i2 := if cur then len i2 1 else 0,
    p := if full && cur then power (pq1.1 + pq2.1) else 0, q := if full && cur then power (pq1.2 + pq2.2) else 0,
    iavg := if cur then mean 4 else 0, vavg := if full then mean 1 else 0,
    vecInc := if lockInc then some vInc else none, vecRun := if lockRun then some vRunV else none, turnsInc := tInc, turnsRun := tRun,
    slips := slips }

/-- The roles whose channels a port is computed from (R152). -/
def phPortRoles (ref : Nat) : Nat → List Nat
  | 0 => [1, 2, 3]
  | 1 => [7]
  | 2 => [7]
  | 3 => [ref]
  | 4 => [ref, 7]
  | 5 => [ref, 7]
  | 6 => [1, 2, 3, 7]
  | 7 => [1, 2, 3, 4, 5, 6]
  | 8 => [1, 2, 3, 4, 5, 6]
  | 9 => [1, 2, 3]
  | 10 => [1, 2, 3]
  | 11 => [4, 5, 6]
  | 12 => [4, 5, 6]
  | 13 => [4, 5, 6]
  | 14 => [1, 2, 3]
  | _ => []

/-- Ports of the INC and of the RUN side (R152). -/
def phIncPort (p : Nat) : Bool := [0, 3, 4, 5, 6, 7, 8, 9, 10, 11, 12, 13, 14].contains p
def phRunPort (p : Nat) : Bool := [1, 2, 4, 5, 6].contains p

/-- The quality of a waveform channel as the phasor engine reads it (R152): until the channel has delivered a result, what its factory calibration gives. -/
def State.ucWaveQual (s : State) (c : Nat) : Qual :=
  if s.cst (ucId c) = csFault then Q_BAD_HW
  else if (s.uc c).sensorBad then Q_BAD_SENSOR
  else if (s.uc c).since then (s.uc c).qual
  else if s.flag (cellBase (ucId c)) Reg.UC_STATUS_FCALBAD then Q_UNCERTAIN else Q_GOOD

/-- Value and quality of a port of a result set (R150, R152); `last` is the value carried before. -/
def State.phPort (s : State) (g : Nat) (x : PhaseSet) (p : Nat) (last : Word) : Word × Qual :=
  let chans := (phPortRoles (s.phSyncRef g) p).filterMap fun r => (s.phInput g r).map fun k => s.phCh g k
  let quals := chans.map s.ucWaveQual
  let bad := quals.filter fun q => [Q_BAD_SENSOR, Q_BAD_HW, Q_COMPLIANCE].contains q
  let clampF (f : Rat) : Rat := ratClamp 40 70 f
  let out (f : Rat) : Bool := decide (f < 40 ∨ 70 < f)
  let value : Word :=
    match p with
    | 0 => toF32c (clampF x.fInc) | 1 => toF32c (clampF x.fRun) | 2 => toF32c x.vRun | 3 => toF32c x.vSync
    | 4 => toF32c (x.vSync - x.vRun) | 5 => toF32c x.dphi | 6 => toF32c x.slip | 7 => x.p | 8 => x.q | 9 => x.v1 | 10 => x.v2
    | 11 => x.i1 | 12 => x.i2 | 13 => toF32c x.iavg | 14 => toF32c x.vavg | _ => 0
  match bad with
  | q :: l => (last, l.foldl qualWorse q)
  | [] =>
    if p = 0 ∧ !x.lockInc then (0, Q_LOW_RANGE)
    else if p = 1 ∧ !x.lockRun then (0, Q_LOW_RANGE)
    else if (p = 5 ∨ p = 6) ∧ !(x.lockInc && x.lockRun) then (0, Q_UNCERTAIN)
    else if p = 0 ∧ out x.fInc then (value, if x.fInc < 40 then Q_LOW_RANGE else Q_HIGH_RANGE)
    else if p = 1 ∧ out x.fRun then (value, if x.fRun < 40 then Q_LOW_RANGE else Q_HIGH_RANGE)
    else if (phIncPort p && x.lockInc && out x.fInc) || (phRunPort p && x.lockRun && out x.fRun) then (value, Q_UNCERTAIN)
    else (value, qualCombine (quals.map qualSeen))

/-! The close prediction (R156). -/

/-- θ(τ) = DPHI + 360 s τ + 180 ṡ τ². -/
def theta (dphi slip srate t : Rat) : Rat := dphi + 360 * slip * t + 180 * srate * t * t

def ratSign (q : Rat) : Int := if q < 0 then -1 else if 0 < q then 1 else 0

/-- Sign of θ just after τ = 0. -/
def thetaSign0 (dphi slip srate : Rat) : Int :=
  if dphi ≠ 0 then ratSign dphi else if slip ≠ 0 then ratSign slip else ratSign srate

/-- θ has no zero in (0, a]. -/
def noCrossing (dphi slip srate a : Rat) : Bool :=
  let s0 := thetaSign0 dphi slip srate
  let vertex : Rat := if srate = 0 then -1 else -slip / srate
  ratSign (theta dphi slip srate a) == s0 && (!(decide (0 < vertex ∧ vertex < a)) || ratSign (theta dphi slip srate vertex) == s0)

/-- The ns count in (lo, lo + 2^n] by which θ has reached its first zero, by halving; there is one in the interval. -/
def findCrossing (dphi slip srate : Rat) : Nat → Nat → Nat
  | 0, lo => lo + 1
  | n + 1, lo => if noCrossing dphi slip srate (mkRat (lo + 2 ^ n : Nat) 1000000000) then findCrossing dphi slip srate n (lo + 2 ^ n)
                 else findCrossing dphi slip srate n lo

/-- The close instant in ns after t_w and the advance angle, where t_c lies in [t_w + 30 µs, t_w + 280 µs) (R156). -/
def closeInstant (dphi slip srate tcb : Rat) : Option (Nat × Rat) :=
  let us (n : Nat) : Rat := tcb + mkRat n 1000000000
  -- a zero at the first instant of the window belongs to it
  if thetaSign0 dphi slip srate = 0 then none
  else if !noCrossing dphi slip srate (us 29999) then none
  else if noCrossing dphi slip srate (us 279999) then none
  else
    let tcbNs := (tcb * 1000000000).floor.toNat
    let k := findCrossing dphi slip srate 18 (tcbNs + 29999)
    some (k - tcbNs, -(theta dphi slip srate (mkRat (k - tcbNs : Nat) 1000000000)))

/-! Result sets. -/

/-- Whole result sets in DWELL cycles of a frequency (R155). -/
def dwellSets (dwell : Nat) (f : Rat) : Nat := evalCount (dwell / f) (mkRat 1 4000)

/-- The sync conditions of a result set (R155): whether a case holds, and whether it is a dead case. -/
def State.syncCase (s : State) (g : Nat) (x : PhaseSet) (quals : List Qual) : Bool × Bool :=
  let live (v : Rat) : Bool := decide (s.phVLive g ≤ v)
  let dead (v : Rat) : Bool := decide (v < s.phVDead g)
  let dv := x.vSync - x.vRun
  let tcb := f32 (s.rdw (cellBase (phId g)) Reg.PH_TCB)
  let good := [2, 3, 4, 5, 6].all fun p => quals.getD p Q_BAD_CONFIG == Q_GOOD
  let angle := if s.phCheck g then decide (ratAbs x.dphi ≤ s.phSync g 4) else decide (ratAbs (180 * x.srate * tcb * tcb) ≤ s.phSync g 4)
  if live x.vRun && live x.vSync && x.lockInc && x.lockRun && decide (s.phSync g 2 ≤ dv ∧ dv ≤ s.phSync g 3) &&
      decide (s.phSync g 0 ≤ x.slip ∧ x.slip ≤ s.phSync g 1) && angle && good then (true, false)
  else if dead x.vRun && live x.vSync && s.phDeadOpt g 0 then (true, true)
  else if live x.vRun && dead x.vSync && s.phDeadOpt g 1 then (true, true)
  else if dead x.vRun && dead x.vSync && s.phDeadOpt g 2 then (true, true)
  else (false, false)

/-- The machine cannot stand outside OFF while the group or the module has left RUN, or SYNCEN is 0 (R157), except in CLOSING. -/
def State.syncLeave (s : State) (g : Nat) : State :=
  if s.cst (phId g) ≠ csRun ∨ s.mst ≠ stRun ∨ !s.phSyncEn g then s.syncOff g else s

/-- The permit reaches the point that it closes by (R158, R233). -/
def State.permitAt (s : State) (g : Nat) (high : Bool) : State :=
  match (s.ph g).closeDp with
  | some dp => (s.modDp dp fun d => { d with permit := high }).driveDp dp
  | none => s

/-- Dwell in result sets for the case that holds (R155). -/
def State.dwellNeed (s : State) (g : Nat) (dead : Bool) (fRun : Rat) : Nat := dwellSets (s.phDwell g) (if dead then s.phNomF g else fRun)

/-- The CLK_FAB cycle that an instant of the time base becomes as it is scheduled (R347): the nearest one at the rate in use. -/
def State.cycleOf (s : State) (ns : Nat) : Nat :=
  let ahead := mkRat ((ns * 2 ^ 32 : Int) - s.now32) (2 ^ 33 + s.addendNow).toNat
  ((s.time.cycles : Int) + roundNear ahead).toNat

/-- The reading of the time base in ns at a CLK_FAB cycle, at the rate in use. -/
def State.readingAt (s : State) (cycle : Nat) : Nat :=
  ((s.now32 + ((cycle : Int) - s.time.cycles) * (2 ^ 33 + s.addend) + s.slewed (cycle - s.time.cycles)) / 2 ^ 32).toNat

/-- The sync machine at a result set (R157), but for the row that SYNC_ARM takes. `late` is the delay in ns of a permit that rises at once (R156). -/
def State.syncStep (s : State) (g : Nat) (x : PhaseSet) (held dead : Bool) (late : Nat) : State :=
  let b := cellBase (phId g)
  let s := s.syncLeave g
  let st := s.rd b Reg.PH_STATUS_SYNC
  let goTo (s : State) (n : Nat) : State := s.wr b Reg.PH_STATUS_SYNC n
  let dwell (s : State) (f : Nat → Nat) : State := s.modPh g fun p => { p with dwell := f p.dwell }
  if st = syOff then
    if s.cst (phId g) = csRun ∧ s.mst = stRun ∧ s.phSyncEn g then goTo s syOutside else s
  else if st = syOutside then if held then goTo (dwell s fun _ => 1) syInside else s
  else if st = syInside then if held then dwell s (· + 1) else goTo (dwell s fun _ => 0) syOutside
  else if st = syArmed then
    if !held then goTo ((dwell s fun _ => 0).bump b Reg.PH_CNT_ABANDONS) syOutside
    else if !(s.ph g).closeReq then goTo s syInside
    else
      let tcb := f32 (s.rdw b Reg.PH_TCB)
      if s.phCheck g || dead then
        goTo (s.modPh g fun p => { p with edge := some (s.cycleOf (s.tw + late), toF32c (-x.dphi)), closeDp := s.phCloseDp g }) syClosing
      else
        match closeInstant x.dphi x.slip x.srate tcb with
        | some (t, adv) => goTo (s.modPh g fun p => { p with edge := some (s.cycleOf (s.tw + t), toF32c adv), closeDp := s.phCloseDp g }) syClosing
        | none => s
  else if st = syDone then if (s.ph g).closeReq then s else goTo s syOutside
  else s

/-- The condition under which an event becomes active (R160). -/
def State.eventActive (s : State) (g e : Nat) (x : PhaseSet) : Bool :=
  let t := s.phThresh g e
  if t = 0 then false
  else
    match e with
    | 0 => x.lockInc && decide (x.fInc < t)
    | 1 => x.lockInc && decide (t < x.fInc)
    | 2 => decide (f32 x.p < -t)
    | 3 => decide (t < f32 x.i2)
    | _ => decide ((if (s.phInput g 1).isSome && (s.phInput g 2).isSome then f32 x.v1 else x.vSync) < t)

/-- The condition under which an active event resets (R160). -/
def State.eventResets (s : State) (g e : Nat) (x : PhaseSet) : Bool :=
  let t := s.phThresh g e
  let k (n : Int) (d : Nat) : Rat := nearestF32 (mkRat n d)
  match e with
  -- F_INC is 0.0 while INC is unlocked (R152)
  | 0 => decide (t + k 5 100 ≤ x.fInc)
  | 1 => decide (x.fInc ≤ t - k 5 100)
  | 2 => decide (-(k 99 100) * t ≤ f32 x.p)
  | 3 => decide (f32 x.i2 ≤ k 99 100 * t)
  | _ => decide (k 101 100 * t ≤ (if (s.phInput g 1).isSome && (s.phInput g 2).isSome then f32 x.v1 else x.vSync))

/-- PHASOR_EVENT_RESET, and the counting toward a pickup. -/
def State.trackEvents (s : State) (g : Nat) (x : PhaseSet) : State :=
  let b := cellBase (phId g)
  (List.range 5).foldl (fun s e =>
    let evt := s.rd b Reg.PH_STATUS_EVT
    let s := s.when (evt / 2 ^ e % 2 == 1 && (s.eventResets g e x || s.phThresh g e == 0)) fun s => s.wr b Reg.PH_STATUS_EVT (evt - 2 ^ e)
    s.modPh g fun p => { p with evHeld := p.evHeld.set e (if s.eventActive g e x then p.evHeld.getD e 0 + 1 else 0) }) s

/-- Registers of a result set (R162). -/
def State.writeSet (s : State) (g : Nat) (x : PhaseSet) : State :=
  let b := cellBase (phId g)
  let run := s.phInput g 7
  let ref := (s.phInput g (s.phSyncRef g)).getD 0
  let base : Option Rat := match run, x.lockRun with
    | some k, true => some (x.ang.getD k 0)
    | _, _ => if x.lockInc then some (x.ang.getD ref 0) else none
  let s := (((s.wrw b Reg.PH_F_INC (toF32c x.fInc)).wrw b Reg.PH_F_RUN (toF32c x.fRun)).wrw b Reg.PH_DPHI (toF32c x.dphi)).wrw b Reg.PH_SLIP (toF32c x.slip)
  let s := ((s.wrw b Reg.PH_SRATE (toF32c x.srate)).wrw b Reg.PH_P x.p).wrw b Reg.PH_Q x.q
  let s := (List.range 8).foldl (fun s k =>
    let s := s.setReg (b + 0x40 + 4 * k) (toF32c (x.rms.getD k 0))
    s.setReg (b + 0x60 + 4 * k) (match base with
      | some a => if s.phCh g k = 0xFF then 0 else toF32c (wrap180 (x.ang.getD k 0 - a))
      | none => 0)) s
  let unlocks := (s.flag b Reg.PH_STATUS_LOCKINC != x.lockInc).toNat + (s.flag b Reg.PH_STATUS_LOCKRUN != x.lockRun).toNat
  let s := s.bumpBy b Reg.PH_ERR_UNLOCKS unlocks
  let s := (s.setFlag b Reg.PH_STATUS_LOCKINC x.lockInc).setFlag b Reg.PH_STATUS_LOCKRUN x.lockRun
  (s.setFlag b Reg.PH_STATUS_LIVEINC (decide (s.phVLive g ≤ x.vSync))).setFlag b Reg.PH_STATUS_LIVERUN (decide (s.phVLive g ≤ x.vRun))

/-- A group whose permit runs under the configuration before a commit works under that configuration until the pulse has ended (R158). -/
def State.underOld (s : State) (g : Nat) (f : State → State) : State :=
  match (s.ph g).old with
  | none => f s
  | some recs =>
    let now := s.img.active
    (f (s.modImg fun i => { i with active := recs ++ now.filter fun r => !(recType r == T_CELL && recTarget r == phId g) })).modImg
      fun i => { i with active := now }

/-- The samples of a result set join the windows; a gap or a gain or loss of lock begins the estimates anew. -/
def State.takeSamples (s : State) (g : Nat) (m : PhasorMeas) : State :=
  s.modPh g fun p => { p with samples := (m.samples.reverse ++ p.samples).take 1600 }

/-- R153: no result set. -/
def State.gapSet (s : State) (g : Nat) : State :=
  (s.bump (cellBase (phId g)) Reg.PH_ERR_GAPS).modPh g fun p =>
    { p with sets := 0, vecInc := none, vecRun := none, turnsInc := [], turnsRun := [], slips := [] }

/-- A result set is complete (R146–R157, R160). -/
def State.completeSet (s : State) (g : Nat) : State :=
  let id := phId g
  let b := cellBase id
  let (w, s) := s.draw
  let (late, s) := s.draw
  let x := s.phaseSet g (f32 w)
  let s := s.writeSet g x
  let old := (s.ph g).vals
  let ports := (List.range 15).map fun p => s.phPort g x p (old.getD p 0)
  let (held, dead) := s.syncCase g x (ports.map Prod.snd)
  let s := s.modPh g fun p => { p with
    sets := p.sets + 1, vals := ports.map Prod.fst, quals := ports.map Prod.snd, fresh := true, condHeld := held, dead := dead, stale := false,
    fInc := if x.lockInc then some x.fInc else none, fRun := if x.lockRun then some x.fRun else none,
    vecInc := x.vecInc, vecRun := x.vecRun, turnsInc := x.turnsInc, turnsRun := x.turnsRun, slips := x.slips }
  let s := s.when (s.cst id == csStart && 2 ≤ (s.ph g).sets && s.mstIn [stRun, stService]) fun s => s.setCst id csRun
  let s := s.setFlag b Reg.PH_STATUS_INVALID (s.cst id != csRun)
  let s := (s.syncStep g x held dead (late.toNat % 30001)).trackEvents g x
  -- a result set is a fresh command of the point that the permit drives (R237)
  match s.phCloseDp g with
  | some dp => if s.dpPermsrc dp == some g then (s.restartWatchdog dp).driveDp dp else s
  | none => s

/-- RESULT_SET (R145–R157, R160): 16 samples of each input have been taken; a window with a gap gives no result set (R153). -/
def execResultSet (g : Fin 4) (m : PhasorMeas) (s : State) : Host.Outcome State Fault Refusal :=
  done <|
    let id := phId g.val
    if !s.exists_ id then s
    else
      let s := s.takeSamples g.val m
      if [csOff, csFault].contains (s.cst id) then s
      else s.underOld g.val fun s => if s.phGap g.val then s.gapSet g.val else s.completeSet g.val

/-- SYNC_ARM (R157): the dwell is complete with the conditions holding and CLOSEREQ true. -/
def execSyncArm (g : Fin 4) (s : State) : Host.Outcome State Fault Refusal :=
  done <|
    let g := g.val
    let b := cellBase (phId g)
    let p := s.ph g
    if s.rd b Reg.PH_STATUS_SYNC = syInside ∧ p.condHeld ∧ p.closeReq ∧ s.dwellNeed g p.dead (f32 (s.rdw b Reg.PH_F_RUN)) ≤ p.dwell then
      s.wr b Reg.PH_STATUS_SYNC syArmed
    else s

/-- The permit runs: an edge is scheduled or raised (R158). -/
def State.closing (s : State) (g : Nat) : Bool := s.rd (cellBase (phId g)) Reg.PH_STATUS_SYNC == syClosing

/-- A commit changes a group: it enters START, or goes on under its old records while its permit runs (R158). -/
def State.changePh (s : State) (id : Nat) (old : List Record) : State :=
  if s.closing (cellNum id) then
    s.modPh (cellNum id) fun p => { p with old := some (p.old.getD (old.filter fun r => recType r == T_CELL && recTarget r == id)) }
  else (s.setCst id csStart).startPh id false

/-- The pulse ends and CLOSES counts (R157, R158); a group that a commit has changed then enters START, one in OFF or FAULT as it leaves that state. -/
def State.fallPermit (s : State) (g : Nat) : State :=
  let id := phId g
  if s.closing g && s.flag (cellBase id) Reg.PH_STATUS_PERMIT then
    let s := (s.endPermit g (if s.cst id = csRun ∧ s.mst = stRun then syDone else syOff)).permitAt g false
    let s := s.modPh g fun p => { p with closeDp := none }
    if s.phOwesStart id && s.cst id != csFault && s.cst id != csOff then (s.setCst id csStart).startPh id false else s
  else s

/-- PERMIT_FALL (R157, R158). -/
def execPermitFall (g : Fin 4) (s : State) : Host.Outcome State Fault Refusal := done (s.fallPermit g.val)

/-- The permit rises: recorded with the reading of the time base at its cycle, and its advance angle (R158, R347). -/
def State.risePermit (s : State) (g : Nat) : State :=
  let b := cellBase (phId g)
  match s.rd b Reg.PH_STATUS_SYNC == syClosing && !s.flag b Reg.PH_STATUS_PERMIT, (s.ph g).edge with
  | true, some (cycle, adv) =>
    let t := s.readingAt cycle
    let s := s.setFlag b Reg.PH_STATUS_PERMIT true
    let s := ((s.wrw b Reg.PH_PT_NS (BitVec.ofNat 32 (t % 1000000000))).wrw b Reg.PH_PT_S (BitVec.ofNat 32 (t / 1000000000))).wrw b Reg.PH_ADV adv
    (s.modPh g fun p => { p with permitSeen := true }).permitAt g true
  | _, _ => s

/-- PERMIT_RISE (R158). -/
def execPermitRise (g : Fin 4) (s : State) : Host.Outcome State Fault Refusal := done (s.risePermit g.val)

/-- PH.CTRL:BLOCK (R157, R162). -/
def decideSyncBlock (g : Nat) (s : State) : Code × State :=
  let b := cellBase (phId g)
  let st := s.rd b Reg.PH_STATUS_SYNC
  if !s.exists_ (phId g) then (E_STATE, s)
  else if st = syOff ∨ st = syClosing ∨ st = syDone then (E_STATE, s)
  else (E_OK, s.wr b Reg.PH_STATUS_SYNC syDone)

def execSyncBlock (p : Port) (g : Fin 4) (s : State) : Host.Outcome State Fault Refusal := command p (decideSyncBlock g.val) s

/-- PHASOR_EVENT_PICKUP (R160): the condition has held in every result set for the pickup delay. -/
def execPhasorEventPickup (g : Fin 4) (e : Fin 5) (s : State) : Host.Outcome State Fault Refusal :=
  done <|
    let b := cellBase (phId g.val)
    let evt := s.rd b Reg.PH_STATUS_EVT
    if s.phThresh g.val e.val ≠ 0 ∧ max 1 (80 * s.phDelay g.val e.val) ≤ (s.ph g.val).evHeld.getD e.val 0 ∧ evt / 2 ^ e.val % 2 = 0 then
      s.wr b Reg.PH_STATUS_EVT (evt + 2 ^ e.val)
    else s

/-- PHASOR_INVALID_TIMEOUT (R161): no result set has completed for 20 ms. -/
def execPhasorInvalidTimeout (g : Fin 4) (s : State) : Host.Outcome State Fault Refusal :=
  done ((s.setFlag (cellBase (phId g.val)) Reg.PH_STATUS_INVALID true).modPh g.val fun p => { p with stale := true })

end Sys2Proof.Machine
end

