-- ==== Sys2Proof/Machine/Loops.lean ====
section
/-! DEFINITION. The loop engine (04): modes, set-point ramp, gain scheduling, the algorithm, override groups and the oscillation detector. -/

namespace Sys2Proof.Machine

/-! Loop modes (R142). -/
def lmMan : Nat := 0
def lmAuto : Nat := 1
def lmCas : Nat := 2
def lmTrack : Nat := 3

/-! CELL payloads (R109–R113). -/
def lpKind (r : Record) : Nat := recByte r 0
def lpOpt (r : Record) (i : Nat) : Bool := recByte r 1 / 2 ^ i % 2 == 1
def lpMode0 (r : Record) : Nat := recByte r 2
def lpSchedSrc (r : Record) : Nat := recByte r 3 % 8
def lpPvBad (r : Record) : Nat := recByte r 3 / 8 % 4
def lpGroupN (r : Record) : Nat := recByte r 4
def lpSelMode (r : Record) : Nat := recByte r 5
def lpOutLo (r : Record) : Rat := f32 (recWord r 6)
def lpOutHi (r : Record) : Rat := f32 (recWord r 10)
def lpOutSafe (r : Record) : Word := recWord r 14
def lpOutInit (r : Record) : Word := recWord r 18
/-- SELHYS; none for +∞, which R109 admits. -/
def lpSelHys (r : Record) : Option Rat := f32Fin (recWord r 22)
def lpSpLo (r : Record) : Rat := f32 (recWord r 0)
def lpSpHi (r : Record) : Rat := f32 (recWord r 4)
def lpSpInit (r : Record) : Word := recWord r 16

/-- NSETS; 1 where the image has no SUB 10 (R108). -/
def State.lpNsets (s : State) (id : Nat) : Nat := (findRec s.img.active T_CELL 10 id).elim 1 fun r => recByte r 24
def State.lpInterp (s : State) (id : Nat) : Bool := recByte (s.cfg id 10) 25 == 1
/-- Breakpoint b_j, 1 ≤ j ≤ 7 (R112). -/
def State.lpBreak (s : State) (id j : Nat) : Rat :=
  if j ≤ 6 then f32 (recWord (s.cfg id 10) (4 * (j - 1))) else f32 (recWord (s.cfg id 11) 0)
def State.lpHys (s : State) (id : Nat) : Rat := f32 (recWord (s.cfg id 11) 4)
def State.lpWidth (s : State) (id : Nat) : Rat := f32 (recWord (s.cfg id 11) 8)

/-- A gain of a set: offset within the gain-set record. A value written at run time stands before the image's (R54, R141). -/
def State.lpGain (s : State) (id set off : Nat) : Word :=
  (Store.get none (s.cell id).params (set * 256 + off)).getD (recWord (s.cfg id (2 + set)) off)

def State.setLpGain (s : State) (id set off : Nat) (w : Word) : State :=
  s.modCell id fun c => { c with params := Store.set none c.params (set * 256 + off) (some w) }

/-- The gains of a set, with the integral term as 1/TI and 1/0 taken as 0 (R111, R124). -/
def State.lpGains (s : State) (id set : Nat) : Gains :=
  let g (off : Nat) : Rat := f32 (s.lpGain id set off)
  { kp := g 0, rti := if g 4 = 0 then 0 else 1 / g 4, td := g 8, n := g 12, beta := g 16, kff := g 20 }

/-- Linear blend of two gain sets (R124). -/
def Gains.blend (w : Rat) (a b : Gains) : Gains :=
  let m (x y : Rat) : Rat := (1 - w) * x + w * y
  { kp := m a.kp b.kp, rti := m a.rti b.rti, td := m a.td b.td, n := m a.n b.n, beta := m a.beta b.beta, kff := m a.kff b.kff }

/-- The detune level applied (R125). -/
def Gains.detune (f : Rat) (g : Gains) : Gains := { g with kp := g.kp * f, rti := g.rti * f }

/-- Integer power of a rational. -/
def ratPow (q : Rat) : Nat → Rat
  | 0 => 1
  | n + 1 => q * ratPow q n

/-! Set-point ramp (R121). -/
def rampTo (wsp target up dn : Rat) : Rat :=
  if wsp < target then (if up = 0 then target else ratMin target (wsp + up))
  else if target < wsp then (if dn = 0 then target else ratMax target (wsp - dn))
  else wsp

/-! Gain region (R123, R124). -/

/-- Region that holds x: the number of breakpoints at or below it. -/
def regionOf (bs : List Rat) (x : Rat) : Nat := (bs.filter fun b => decide (b ≤ x)).length

/-- One region step with hysteresis (R123). -/
def regionStep (bs : List Rat) (hys x : Rat) (j : Nat) : Nat :=
  match bs[j]? with
  | some b => if b + hys ≤ x then j + 1 else down j
  | none => down j
where
  /-- from j to j − 1 when x < b_j − HYS -/
  down (j : Nat) : Nat :=
    if j = 0 then 0 else match bs[j - 1]? with
      | some b => if x < b - hys then j - 1 else j
      | none => j

/-- The effective gains of an evaluation: new active region, blended, scheduled gains (R123, R124). -/
def State.lpSchedule (s : State) (id : Nat) (x : Option Rat) : Nat × Bool × Gains :=
  let b := cellBase id
  let act := s.rd b Reg.LP_GAIN_ACTIVE
  let n := s.lpNsets id
  let bs := (List.range (n - 1)).map fun j => s.lpBreak id (j + 1)
  match x with
  | none => (act, s.flag b Reg.LP_GAIN_BLEND, if s.flag b Reg.LP_GAIN_BLEND then (s.lp (cellNum id)).sched else s.lpGains id act)
  | some x =>
    if s.lpInterp id then
      let j := regionOf bs x
      match (List.range (n - 1)).find? fun k => match bs[k]? with | some c => decide (ratAbs (x - c) < s.lpWidth id) | none => false with
      | some k =>
        let w := (x - s.lpBreak id (k + 1) + s.lpWidth id) / (2 * s.lpWidth id)
        (j, true, Gains.blend w (s.lpGains id k) (s.lpGains id (k + 1)))
      | none => (j, false, s.lpGains id j)
    else
      let j := regionStep bs (s.lpHys id) x act
      (j, false, s.lpGains id j)

/-- The actual mode of a slot; a change on loops 0–31 goes to the alarm queue (R455). -/
def State.setAct (s : State) (id act : Nat) : State :=
  let was := s.rd (cellBase id) Reg.LP_MODE_ACT
  let s := s.wr (cellBase id) Reg.LP_MODE_ACT act
  if cellNum id < 32 && was != act then s.notice .mode (cellNum id) act (keyOfCell id) else s

/-! One evaluation. -/

/-- What an evaluation of a slot has resolved and computed before its output is formed. -/
structure LpEval where
  id : Nat
  act : Nat
  cst : Nat
  pv : Input
  rsp : Option Input
  tr : Option Input
  /-- driven value under EXTLIM (R131) with its quality and flags -/
  ext : Option (Word × Qual × BitVec 12)
  /-- PV is in fallback in AUTO or CAS, where the loop acts by PVBAD; the flag LP.MODE:PVBAD shows fallback in every mode (R119) -/
  pvbad : Bool
  wsp : Rat
  /-- the target was clamped at SP_LO, at SP_HI -/
  tlo : Bool
  thi : Bool
  ramping : Bool
  e : Rat
  y : Rat
  gOld : Gains
  gNew : Gains
  sched : Gains
  /-- p, d, f under the previous gains and under the present ones -/
  old : Rat × Rat × Rat
  new : Rat × Rat × Rat
  dt : Rat
  /-- integrate() of R127 and R119 -/
  integrate : Bool
  /-- rebalance to this value (R126) -/
  balance : Option Rat
  qual : Qual
  flags : BitVec 12
  err : Bool

/-- What R132 decides in one evaluation. -/
structure LpModes where
  act : Nat
  req : Nat
  shed : Bool
  sheds : Nat
  man : Option Rat
  sp : Option Rat
  wsp : Rat
  balance : Option Rat

/-- The mode transitions of R132, in table order. `trk`: TRKEN resolves true; `pvf`, `rspf`: PV, RSP in fallback; `run`: RSP resolved in 8 evaluations;
`spPv`: PV clamped to the set-point limits, which LP.SP takes where it takes PV (R120). -/
def lpModeStep (r0 : Record) (m : LpModes) (new trk pvf rspf run : Bool) (pv spPv u man : Rat) : LpModes :=
  let shedNow (m : LpModes) : LpModes :=
    if lpOpt r0 4 then { m with act := lmMan, man := some u, shed := true, sheds := 1 }
    else { m with act := lmAuto, sp := some m.wsp, shed := true, sheds := 1 }
  if m.act ≠ lmTrack ∧ trk then { m with act := lmTrack }
  else if m.act = lmTrack then
    if trk then m
    else if m.req = lmMan then { m with act := lmMan, man := some u }
    else if m.req = lmAuto ∨ !rspf then { m with act := m.req, wsp := pv, balance := some u }
    else { shedNow m with balance := some u }
  else if m.act ≠ lmMan ∧ pvf ∧ lpPvBad r0 = 1 then { m with act := lmMan, req := lmMan, man := some u }
  else if m.act = lmCas ∧ rspf then { shedNow m with balance := some u }
  else if m.shed ∧ (m.act = lmAuto ∨ m.act = lmMan) ∧ run ∧ lpOpt r0 3 then { m with act := lmCas, shed := false, balance := some u }
  else if !new then m
  else if m.act = lmMan ∧ m.req = lmAuto then
    { m with act := lmAuto, wsp := pv, sp := if lpOpt r0 2 then some spPv else m.sp, balance := some man }
  else if m.act = lmMan ∧ m.req = lmCas then { m with act := lmCas, wsp := pv, balance := some man }
  else if m.act = lmAuto ∧ m.req = lmCas then { m with act := lmCas, balance := some u }
  else if m.act = lmCas ∧ m.req = lmAuto then { m with act := lmAuto, sp := some m.wsp, balance := some u }
  else if m.act ≠ lmMan ∧ m.req = lmMan then { m with act := lmMan, man := some u }
  else m

/-- The terms p, d and f of R117 under some gains; the first evaluation since START has no derivative. -/
def lpTerms (g : Gains) (dt sgn wsp pv y yPrev d ff : Rat) (begun : Bool) : Rat × Rat × Rat :=
  let a := if g.td = 0 then 0 else g.td / (g.td + g.n * dt)
  (g.kp * sgn * (g.beta * wsp - pv), if begun then a * d + g.kp * g.n * a * (y - yPrev) else 0, g.kff * ff)

def State.lpInput (s : State) (id n : Nat) : Option Input := s.input id n (s.safeValue id)

/-- RB and TR of a slot; a leader's act for the whole group (R114). -/
def State.lpLeader (s : State) (id : Nat) : Nat :=
  if lpKind (s.cfg id 0) = 2 then
    (((List.range 4).filter fun k => k ≤ idCell id).map fun k => id - k).find? (fun j => lpKind (s.cfg j 0) == 1) |>.getD id
  else id

/-- EXTLIM (R131): the driven value, as a word, while the actual mode is AUTO or CAS, with its quality and flags (R118). RB is the leader's for a group
slot (R114); a simulation of port 0 is the slot's own. -/
def State.lpExt (s : State) (id act : Nat) (pv : Input) : Option (Word × Qual × BitVec 12) :=
  if act = lmAuto ∨ act = lmCas then
    let lead := s.lpLeader id
    let (mode, port, val) := (s.cell id).force
    match s.bind lead 5, s.lpInput lead 5 with
    | some bd, some rb =>
      let w := s.sig (bindSig bd)
      if mode = 2 ∧ port = 0 then some (val, insRank [pv, rb], rb.flags)
      else if w.qual == Q_SAFE || flHas w.flags (FL_TRIPPED ||| FL_FORCED) then some (rb.val, insRank [pv, rb], rb.flags) else none
    | _, _ => if mode = 2 ∧ port = 0 then some (val, insRank [pv], 0) else none
  else none
where
  /-- by R80 over PV and RB -/
  insRank (l : List Input) : Qual := qualCombine (l.map fun i => qualSeen i.qual)

/-- Seconds that a slot's times of R138 and R139 have not counted yet: the strokes since the boundary `seen`. -/
def State.lpElapsed (s : State) (n : Nat) : Rat := mkRat (((s.fab.boundaries - (s.lp n).seen) * s.tsNs : Nat) : Int) 1000000000

/-- First part of an evaluation: inputs, modes, target, ramp, schedule and terms (R119–R127). -/
def State.lpPrepare (s : State) (id : Nat) : LpEval × State :=
  let n := cellNum id
  let b := cellBase id
  let r0 := s.cfg id 0
  let r1 := s.cfg id 1
  let st := s.lp n
  let cst := s.cst id
  let dt := s.delta id
  let pv := (s.lpInput id 0).getD ⟨0, Q_BAD_CONFIG, 0, false, Q_BAD_CONFIG, 65535⟩
  let rsp := s.lpInput id 1
  let ff := s.lpInput id 2
  let lead := s.lpLeader id
  let tr := if lpKind r0 = 2 then none else s.lpInput id 3
  let trken := if lpKind r0 = 2 then none else s.lpInput id 4
  let sched := s.lpInput id 6
  let s := [(0, some pv), (1, rsp), (2, ff), (3, tr), (4, trken), (5, s.lpInput id 5), (6, sched)].foldl
    (fun s x => match x.2 with | some i => s.noteInput id x.1 i | none => s) s
  let trk := match trken with | some i => i.live && f32True i.val | none => false
  let rspf := match rsp with | some i => !i.live | none => true
  let rspRun := if rspf then 0 else st.rspRun + 1
  let pvv := f32 pv.val
  let wsp0 := if st.wspFromPv then (if pv.live then pvv else f32 (lpSpInit r1)) else st.wsp
  let spc (x : Rat) : Rat := ratClamp (lpSpLo r1) (lpSpHi r1) x
  let m := lpModeStep r0
    { act := s.rd b Reg.LP_MODE_ACT, req := s.rd b Reg.LP_MODE_REQ, shed := s.flag b Reg.LP_MODE_SHED, sheds := 0, man := none, sp := none,
      wsp := wsp0, balance := st.balance }
    st.newReq trk (!pv.live) rspf (decide (8 ≤ rspRun)) pvv (spc pvv) st.lastOut (f32 (s.rdw b Reg.LP_MAN))
  let modeChanged := m.act != s.rd b Reg.LP_MODE_ACT
  let s := ((s.setAct id m.act).wr b Reg.LP_MODE_REQ m.req).setFlag b Reg.LP_MODE_SHED m.shed
  let s := s.bumpBy b Reg.LP_CNT_SHEDS m.sheds
  let s := match m.man with | some x => s.wrw b Reg.LP_MAN (toF32c x) | none => s
  let s := match m.sp with | some x => s.wrw b Reg.LP_SP (toF32c x) | none => s
  -- MAN with SPTRK: the local target and WSP follow PV (R120)
  let track := m.act == lmMan && lpOpt r0 2
  let s := if track then s.wrw b Reg.LP_SP (toF32c (spc pvv)) else s
  let auto := m.act == lmAuto || m.act == lmCas
  let pvbad := auto && !pv.live
  let raw := if m.act = lmCas then (match rsp with | some i => f32 i.val | none => 0) else f32 (s.rdw b Reg.LP_SP)
  let target := spc raw
  let hold := pvbad && lpPvBad r0 == 0
  let wsp :=
    if track then pvv
    else if !auto || hold then m.wsp
    else rampTo m.wsp target (f32 (s.rdw b Reg.LP_RATE_UP) * dt) (f32 (s.rdw b Reg.LP_RATE_DN) * dt)
  let x : Option Rat :=
    match lpSchedSrc r0 with
    | 1 => if pv.live then some pvv else none
    | 2 => some wsp
    | 3 => some st.u
    | 4 => match sched with | some i => if i.live then some (f32 i.val) else none | none => none
    | _ => none
  let (region, blend, sg) := s.lpSchedule id x
  let switched := region != s.rd b Reg.LP_GAIN_ACTIVE
  let blendChanged := blend != s.flag b Reg.LP_GAIN_BLEND
  let s := (s.when switched fun s => s.bump b Reg.LP_CNT_SWITCHES)
  let s := (s.wr b Reg.LP_GAIN_ACTIVE region).setFlag b Reg.LP_GAIN_BLEND blend
  let g := sg.detune (ratPow (f32 (recWord (s.cfg id 12) 8)) (s.rd b Reg.LP_GAIN_DLEVEL))
  let sgn : Rat := if lpOpt r0 0 then -1 else 1
  let e := sgn * (wsp - pvv)
  let y := if lpOpt r0 1 then -sgn * pvv else e
  let ffv := match ff with | some i => f32 i.val | none => 0
  let gOld := if st.begun then st.gains else g
  -- SCHED lends its quality; its value enters no term where it is in fallback, and is finite where it is live (R78, R84, R123)
  let terms := pv :: (ff.toList ++ (if m.act = lmCas then rsp.toList else []))
  let used := terms ++ sched.toList
  let ext := s.lpExt id m.act pv
  -- RECOVER after FAULT rebalances to RB, or to the last good output (R130)
  let recov : Option Rat := if st.recov then some (match s.lpInput lead 5 with | some rb => f32 rb.val | none => st.lastOut) else none
  let back := auto && st.begun && s.flag b Reg.LP_MODE_PVBAD && pv.live
  let recovBad := st.recov && m.balance.isNone && auto && ext.isNone && !((s.lpInput lead 5).all fun i => f32Finite i.val)
  let bal := if m.balance.isSome then m.balance else if recov.isSome then recov else if back then some st.lastOut else none
  let start := cst == csStart || cst == csTest || cst == csRecover
  let integ := pv.live && pv.qual != Q_HELD && !(start && st.sat) && auto && ext.isNone && bal.isNone
  let late := s.lpElapsed n
  let s := s.modLp n fun st => { st with
    quiet := st.quiet + late, sinceHalf := st.sinceHalf.map (· + late), seen := s.fab.boundaries,
    newReq := false, balance := none, rspRun := rspRun, wspFromPv := false, recov := false,
    pvRun := if pv.live then st.pvRun + 1 else 0,
    oscCount := if modeChanged || switched || blendChanged then 0 else st.oscCount }
  ({ id := id, act := m.act, cst := cst, pv := pv, rsp := rsp, tr := tr, ext := ext, pvbad := pvbad, wsp := wsp,
     tlo := decide (raw < lpSpLo r1), thi := decide (lpSpHi r1 < raw), ramping := auto && wsp != target, e := e, y := y,
     gOld := gOld, gNew := g, sched := sg,
     old := lpTerms gOld dt sgn wsp pvv y st.yPrev st.d ffv st.begun, new := lpTerms g dt sgn wsp pvv y st.yPrev st.d ffv st.begun,
     dt := dt, integrate := integ, balance := bal,
     qual := qualCombine (used.map fun i => qualSeen i.qual), flags := used.foldl (fun f i => f ||| flPassed i.flags) 0,
     err := recovBad || !(terms.all fun i => f32Finite i.val) || (m.act == lmTrack && !(tr.all fun i => f32Finite i.val)) ||
       !(ext.all fun e => f32Finite e.1) || (s.cell id).unread }, s)

/-- v under the previous gains, integration included; for a group slot the reset term takes the place of the integrator (R126, R135). -/
def lpVOld (r0 : Record) (x : LpEval) (st : LoopSt) (sPrev : Option Rat) : Rat :=
  let (p, d, f) := x.old
  p + d + f + lpHeld r0 x sPrev (lpInt x.gOld x st sPrev)
where
  /-- the integrator clamp of R117: in RUN, for a single loop -/
  lpHeld (r0 : Record) (x : LpEval) (sPrev : Option Rat) (i : Rat) : Rat :=
    if x.cst = csRun ∧ sPrev = none then ratClamp (lpOutLo r0) (lpOutHi r0) i else i
  /-- the integrator after this evaluation's integration under gains `g` -/
  lpInt (g : Gains) (x : LpEval) (st : LoopSt) (sPrev : Option Rat) : Rat :=
    if !x.integrate then st.i
    else match sPrev with
      | none => if g.rti = 0 then st.i else st.i + g.kp * x.dt * g.rti * x.e
      | some s => if g.rti = 0 then st.i else st.i + x.dt / (1 / g.rti + x.dt) * (s - st.i)

/-- The integrator, or reset term, of an evaluation before the output is formed (R117, R126): clamped in RUN for a single loop. -/
def lpIntegral (r0 : Record) (x : LpEval) (st : LoopSt) (sPrev : Option Rat) : Rat :=
  let (p, d, f) := x.new
  let i :=
    match x.balance with
    | some v => v - p - d - f
    | none =>
      if x.gOld = x.gNew then lpVOld.lpInt x.gNew x st sPrev else lpVOld r0 x st sPrev - p - d - f
  lpVOld.lpHeld r0 x sPrev i

/-- Half-cycles of the error (R138): side, count, and the restart of the times. A_DET and HPMAX are none for +∞, which R113 admits. Where the detector
does not run it counts nothing, and keeps what it has counted: R138 lists what restarts the count. -/
def oscTrack (st : LoopSt) (on : Bool) (e : Rat) (aDet hpmax : Option Rat) : LoopSt :=
  if !on then st
  else
    let side := match aDet with | some a => if a ≤ e then 1 else if e ≤ -a then 2 else 0 | none => 0
    if side = 0 ∨ side = st.oscSide then st
    else if st.oscSide = 0 then { st with oscSide := side }
    else
      let short := match st.sinceHalf with | some k => hpmax.all fun h => decide (k ≤ h) | none => false
      { st with oscSide := side, sinceHalf := some 0, quiet := 0, oscCount := if short then st.oscCount + 1 else 0 }

/-- Port 3 of a slot: 32 raw status bits (R115). -/
def State.lpStatus (s : State) (id : Nat) (selected : Bool) : Word :=
  let b := cellBase id
  BitVec.ofNat 32 <|
    s.rd b Reg.LP_MODE_ACT + 4 * s.rd b Reg.LP_MODE_EXTLIM + 8 * s.rd b Reg.LP_MODE_SATLO + 16 * s.rd b Reg.LP_MODE_SATHI +
    32 * s.rd b Reg.LP_GAIN_ACTIVE + 256 * s.rd b Reg.LP_GAIN_DLEVEL + 2048 * s.rd b Reg.LP_GAIN_OSCLIM +
    4096 * s.rd b Reg.LP_MODE_SPRAMP + 8192 * selected.toNat + 16384 * s.rd b Reg.LP_MODE_PVBAD + 32768 * s.rd b Reg.LP_MODE_SHED

/-- What an evaluation error of a loop publishes (R119, R84): the last good output with HELD, or OUT_SAFE with SUBSTITUTED if there is none since START. -/
def State.lpErrorWord (s : State) (id : Nat) : Word × Qual :=
  if (s.lp (cellNum id)).okSince then (toF32c (s.lp (cellNum id)).lastOut, Q_HELD) else (lpOutSafe (s.cfg id 0), Q_SUBSTITUTED)

/-- A leader's port 4 (R115, R118). -/
def State.holdSel (s : State) (id : Nat) (init : BitVec 12) : Option (Rat × Qual × BitVec 12) → State
  | some (sv, sq, sf) => s.hold id 4 ⟨toF32c sv, sq, sf ||| init, 0⟩
  | none => s

/-- A slot's local target was clamped, or its mode is not CAS: INITREQ (R134). -/
def LpEval.initreq (x : LpEval) : Bool := x.act != lmCas || x.tlo || x.thi

/-- What every evaluation leaves in the registers, an erroneous one too: the flags of LP.MODE, WSP and PV (R119–R121, R131, R142). LP.OUT and INITREQ
follow ports 0 and 2 at the boundary that publishes them. -/
def State.lpNote (s : State) (x : LpEval) : State :=
  let b := cellBase x.id
  let s := (s.setFlag b Reg.LP_MODE_EXTLIM x.ext.isSome).setFlag b Reg.LP_MODE_PVBAD (!x.pv.live)
  let s := s.setFlag b Reg.LP_MODE_SPRAMP x.ramping
  let s := s.when (s.src x.id < 2) fun s => s.wr b Reg.CELL_STATE_SOURCE (if x.act = lmMan then 1 else 0)
  (s.wrw b Reg.LP_WSP (toF32c x.wsp)).wrw b Reg.LP_PV x.pv.val

/-- LP.MAN reads the last u outside MAN (R133). -/
def State.lpShowMan (s : State) (x : LpEval) (u : Rat) : State :=
  s.when (x.act != lmMan) fun s => s.wrw (cellBase x.id) Reg.LP_MAN (toF32c u)

/-- The end of an evaluation: registers, internal state and the results held for the boundary (R115, R118, R119, R134). `v` before clamping, `u` the
published output with its quality and flags. -/
def State.lpFinish (s : State) (x : LpEval) (i v u : Rat) (q : Qual) (fl : BitVec 12) (selected : Bool) (sel : Option (Rat × Qual × BitVec 12)) : State :=
  let id := x.id
  let n := cellNum id
  let b := cellBase id
  let r0 := s.cfg id 0
  let st0 := s.lp n
  let lo := lpOutLo (s.cfg (s.lpLeader id) 0)
  let hi := lpOutHi (s.cfg (s.lpLeader id) 0)
  let s := ((s.setFlag b Reg.LP_MODE_SATLO (decide (v < lo))).setFlag b Reg.LP_MODE_SATHI (decide (hi < v))).lpNote x
  let s := (s.wrw b Reg.LP_INT (toF32c i)).wrw b Reg.LP_CALC (toF32c v)
  let held : Option Rat := if x.cst = csTest then some (st0.held.getD st0.lastOut) else none
  let out := held.getD u
  let s := s.lpShowMan x u
  let init := flIf (s.cell id).first FL_INIT
  let s := s.modCell id fun c => { c with first := false }
  let osc := recByte (s.cfg id 12) 0 == 1 && x.cst == csRun && (x.act == lmAuto || x.act == lmCas) && x.ext.isNone && !x.pvbad && (lpKind r0 == 0 || selected)
  let s := s.modLp n fun st =>
    { oscTrack st osc x.e (f32Fin (recWord (s.cfg id 12) 4)) (f32Fin (recWord (s.cfg id 12) 12)) with
      i := i, d := x.new.2.1, yPrev := x.y, u := u, wsp := x.wsp, gains := x.gNew, sched := x.sched, begun := true, okSince := true,
      sat := decide (v < lo) || decide (hi < v), lastOut := out, held := held }
  let s := s.hold id 0 ⟨toF32c out, q, fl ||| init, 0⟩
  let wq := if x.act = lmCas then (match x.rsp with | some r => qualSeen r.qual | none => Q_GOOD) else Q_GOOD
  let s := s.hold id 1 ⟨toF32c x.wsp, wq, flIf x.tlo FL_LIM_LO ||| flIf x.thi FL_LIM_HI ||| init, 0⟩
  let s := s.hold id 2 ⟨f32OfBool x.initreq, Q_GOOD, init, 0⟩
  let s := s.hold id 3 ⟨s.lpStatus id selected, Q_GOOD, init, 0⟩
  let s := s.holdSel id init sel
  let s := s.evalEnd id false
  s.when (s.cst id == csStart && 8 ≤ (s.lp n).pvRun && s.mstIn [stRun, stService]) fun s => s.setCst id csRun

/-- An evaluation error of a loop (R119): its state is rebalanced to the output that it publishes on port 0. Ports 1 to 3 keep their words, which age
(DESIGN CHOICE, log entry 130). -/
def State.lpError (s : State) (x : LpEval) (sel : Option (Rat × Qual × BitVec 12)) : State :=
  let id := x.id
  let init := flIf (s.cell id).first FL_INIT
  let (w, q) := s.lpErrorWord id
  let s := ((s.lpNote x).lpShowMan x (f32 w)).modCell id fun c => { c with first := false, unread := false }
  let s := s.modLp (cellNum id) fun st =>
    { st with d := 0, begun := false, balance := some (f32 w), lastOut := f32 w, u := f32 w, wsp := x.wsp, sched := x.sched }
  ((s.hold id 0 ⟨w, q, init, 0⟩).holdSel id init sel).evalEnd id true

/-- Intermediates beyond the range of binary32 count as infinite (R119). -/
def lpOverflow (x : LpEval) (v : Rat) : Bool :=
  let (p, d, f) := x.new
  [p, d, f, v].any fun q => (toF32 q).isNone

/-- Output, quality and flags of an evaluation in each mode (R117–R119, R131, R132): i, v, u. A group slot takes S of the previous evaluation and its
leader's output limits (R135). -/
def State.lpOutput (s : State) (x : LpEval) (sPrev : Option Rat) : Rat × Rat × Rat × Qual × BitVec 12 :=
  let r0 := s.cfg x.id 0
  let rl := s.cfg (s.lpLeader x.id) 0
  let st := s.lp (cellNum x.id)
  let (p, d, f) := x.new
  let lo := lpOutLo rl
  let hi := lpOutHi rl
  let goal (u : Rat) (q : Qual) (fl : BitVec 12) : Rat × Rat × Rat × Qual × BitVec 12 :=
    let i := lpVOld.lpHeld r0 x sPrev (u - p - d - f)
    (i, p + i + d + f, u, q, fl)
  if x.act = lmMan then goal (f32 (s.rdw (cellBase x.id) Reg.LP_MAN)) Q_GOOD FL_MANUAL
  else if x.act = lmTrack then
    match x.tr with | some t => goal (f32 t.val) (qualSeen t.qual) 0 | none => goal st.u Q_BAD_CONFIG 0
  else
    match x.ext with
    | some (v, q, fl) => goal (f32 v) q fl
    | none =>
      let i := lpIntegral r0 x st sPrev
      let v := p + i + d + f
      if x.pvbad && lpPvBad r0 == 0 then (st.i, v, st.u, Q_HELD, 0)
      else if x.pvbad && lpPvBad r0 == 2 then (st.i, v, f32 (lpOutSafe r0), Q_SUBSTITUTED, 0)
      else (i, v, ratClamp lo hi v, x.qual, x.flags ||| flIf (decide (v < lo)) FL_LIM_LO ||| flIf (decide (hi < v)) FL_LIM_HI)

/-- LOOP_EVALUATION of a single loop (R117). -/
def State.evalSingle (s : State) (id : Nat) : State :=
  let (x, s) := s.lpPrepare id
  let (i, v, u, q, fl) := s.lpOutput x none
  if x.err || lpOverflow x v then s.lpError x none else s.lpFinish x i v u q fl false none

/-- The candidate of a selection (R136): lowest or highest output, ties to the lowest index. -/
def candidate (high : Bool) : List (Nat × Rat) → Option (Nat × Rat)
  | [] => none
  | a :: l =>
    match candidate high l with
    | none => some a
    | some c => if (if high then a.2 < c.2 else c.2 < a.2) then some c else some a

/-- The result of one slot of a group: evaluation, error, and i, v, u, quality and flags. -/
structure LpResult where
  x : LpEval
  bad : Bool
  i : Rat
  v : Rat
  u : Rat
  q : Qual
  fl : BitVec 12

/-- A group slot's own result, before the selection (R135). -/
def State.lpMember (s : State) (sPrev : Rat) (x : LpEval) : LpResult :=
  let (i, v, u, q, fl) := s.lpOutput x (some sPrev)
  if x.err || lpOverflow x v then
    let (w, eq) := s.lpErrorWord x.id
    ⟨x, true, i, v, f32 w, eq, 0⟩
  else ⟨x, false, i, v, u, q, fl⟩

/-- A slot whose reset term is set so that its output equals S (R137). -/
def LpResult.balanced (r : LpResult) (S : Rat) : LpResult :=
  let (p, d, f) := r.x.new
  if r.bad then r else { r with i := S - p - d - f, v := S, u := S, fl := r.fl &&& ~~~(FL_LIM_LO ||| FL_LIM_HI) }

/-- The selected slot (R136): the candidate replaces it where it beats its output by more than SELHYS. -/
def selectNew (high : Bool) (hys : Option Rat) (outs : List (Nat × Rat)) (cur : Option (Nat × Rat)) (selNow : Nat) : Nat :=
  match candidate high outs, cur with
  | some c, some k => if c.1 ≠ k.1 ∧ hys.any (fun h => if high then decide (k.2 + h < c.2) else decide (c.2 + h < k.2)) then c.1 else k.1
  | some c, none => c.1
  | none, _ => selNow

/-- OVERRIDE_GROUP_SELECT and the evaluation of an override group as one unit (R135–R137). A slot in START takes S and is no candidate, and stands in the
selection at the previous S where it is the selected one; the leader in START balances the whole group to the S that it holds (DEDUCED, log entry 126). -/
def State.evalGroup (s : State) (lead : Nat) : State :=
  let r0 := s.cfg lead 0
  let n := cellNum lead
  let ids := ((List.range (lpGroupN r0)).map (lead + ·)).filter fun id => [csStart, csRun, csTest, csRecover].contains (s.cst id)
  let (xs, s) := ids.foldl (fun (acc : List LpEval × State) id => let r := acc.2.lpPrepare id; (acc.1 ++ [r.1], r.2)) ([], s)
  let sPrev := (s.lp n).s
  let rs := xs.map (s.lpMember sPrev)
  -- the leader's mode governs the group
  let forced : Option Rat :=
    match rs.find? fun r => r.x.id == lead with
    | none => none
    | some r =>
      if r.x.act = lmMan ∨ r.x.act = lmTrack ∨ r.x.ext.isSome then some r.u
      else if r.x.cst = csStart then some (r.x.balance.getD sPrev)
      else none
  let index (r : LpResult) : Nat := idCell r.x.id - idCell lead
  let selNow := s.rd (cellBase lead) Reg.LP_SEL_SELECTED
  let cur := (rs.find? fun r => index r == selNow).map fun r => (index r, if r.x.cst = csStart then sPrev else r.u)
  let outs := (rs.filter fun r => r.x.cst != csStart).map fun r => (index r, r.u)
  let sel := if forced.isSome then selNow else selectNew (lpSelMode r0 == 1) (lpSelHys r0) outs cur selNow
  let chosen := (rs.find? fun r => index r == sel).map fun r => if r.x.cst = csStart then sPrev else r.u
  let sv := forced.getD (ratClamp (lpOutLo r0) (lpOutHi r0) (chosen.getD sPrev))
  let s := (s.when (sel != selNow) fun s => s.bump (cellBase lead) Reg.LP_SEL_TAKEOVERS).wr (cellBase lead) Reg.LP_SEL_SELECTED sel
  let s := s.modLp n fun st => { st with s := sv }
  let rs := rs.map fun r => if forced.isSome || r.x.cst == csStart then r.balanced sv else r
  let port4 : Rat × Qual × BitVec 12 := match rs.find? fun r => index r == sel with
    | some r => (sv, r.q, r.fl)
    | none => (sv, Q_BAD_CONFIG, 0)
  rs.foldl (fun s r =>
    let p4 := if r.x.id = lead then some port4 else none
    if r.bad then s.lpError r.x p4 else s.lpFinish r.x r.i r.v r.u r.q r.fl (index r == sel) p4) s

/-- LOOP_EVALUATION of a due slot: a leader evaluates its whole group, a member is evaluated with its leader (R135); where the leader does not evaluate,
no member does (DESIGN CHOICE, log entry 137). -/
def State.evalLp (s : State) (id : Nat) : State :=
  match lpKind (s.cfg id 0) with
  | 0 => s.evalSingle id
  | 1 => s.evalGroup id
  | _ => s

/-- Evaluation cost of a slot in CLK_CELL cycles (R140); `td`: some gain set has TD above 0. -/
def lpCostOf (img : List Record) (id : Nat) (td : Bool) : Nat :=
  let r0 := getRec img T_CELL 0 id
  96 + (if td then 24 else 0) + (if 1 < sets then 24 else 0) + (if recByte (getRec img T_CELL 10 id) 25 = 1 then 16 else 0) +
    (if recByte (getRec img T_CELL 12 id) 0 = 1 then 16 else 0) + (if lpKind r0 = 1 then 24 * (lpGroupN r0 - 1) else 0)
where
  /-- NSETS of the image -/
  sets : Nat := (findRec img T_CELL 10 id).elim 1 fun r => recByte r 24

/-- The cost that an image gives a slot. -/
def lpCost (img : List Record) (id : Nat) : Nat :=
  lpCostOf img id ((List.range (lpCostOf.sets img id)).any fun k => f32True (recWord (getRec img T_CELL (2 + k) id) 8))

/-- The cost of a slot's evaluation with the gains now in force (R140, R141). -/
def State.lpCostNow (s : State) (id : Nat) : Nat :=
  lpCostOf s.img.active id ((List.range (s.lpNsets id)).any fun k => f32True (s.lpGain id k 8))

/-! Entry into START (R128). -/

/-- A mode that the slot cannot take becomes MAN: CAS without RSP (R128). -/
def State.lpLegal (s : State) (id req : Nat) : Nat := if req = lmCas ∧ (s.bind id 1).isNone then lmMan else req

/-- The loop values on entering START (R128). -/
def State.startLp (s : State) (id : Nat) (c : StartCause) : State :=
  let b := cellBase id
  let n := cellNum id
  let r0 := s.cfg id 0
  let r1 := s.cfg id 1
  let st := s.lp n
  let keep := c == .changed || c == .release
  let spc (x : Rat) : Rat := ratClamp (lpSpLo r1) (lpSpHi r1) x
  let req := if keep then s.lpLegal id (s.rd b Reg.LP_MODE_REQ) else lpMode0 r0
  let s := ((s.wr b Reg.LP_MODE_REQ req).wr b Reg.LP_GAIN_DLEVEL 0).setFlag b Reg.LP_GAIN_OSCLIM false
  let s := ((s.wr b Reg.LP_GAIN_ACTIVE 0).setFlag b Reg.LP_GAIN_BLEND false).setAct id
    (if c == .release || (c == .changed && s.rd b Reg.LP_MODE_ACT == lmTrack) then s.rd b Reg.LP_MODE_ACT else req)
  let s := s.when (c != .release) fun s => s.setFlag b Reg.LP_MODE_SHED false
  let s := s.wrw b Reg.LP_SP (if c == .release then s.rdw b Reg.LP_SP else if keep then toF32c (spc (f32 (s.rdw b Reg.LP_SP))) else lpSpInit r1)
  let s := if keep then s else (s.wrw b Reg.LP_MAN (lpOutInit r0)).setFlag b Reg.LP_MODE_INITREQ true
  let s := s.when (c == .fresh || c == .changed) fun s =>
    ((s.wrw b Reg.LP_RATE_UP (recWord r1 8)).wrw b Reg.LP_RATE_DN (recWord r1 12)).wr b Reg.LP_GAIN_GSEL 0
  let s := s.when (c == .fresh || c == .changed) fun s => s.modCell id fun k => { k with params := [] }
  let s := s.when (lpKind r0 != 1) fun s => (s.wr b Reg.LP_SEL_SELECTED 0).wr b Reg.LP_SEL_TAKEOVERS 0
  let out := if keep then st.lastOut else f32 (lpOutInit r0)
  s.modLp n fun st => { LoopSt.init with
    i := st.i, s := out, u := out, lastOut := out, balance := some out, seen := s.fab.boundaries, wspFromPv := !keep, newReq := c == .release && st.newReq,
    wsp := if c == .changed then spc st.wsp else st.wsp }

/-! Detuning (R139). -/

/-- OSCILLATION_DETECT: 2 × NCYC consecutive short half-cycles. -/
def execOscillationDetect (lp : Fin 512) (s : State) : Host.Outcome State Fault Refusal :=
  done <|
    let id := lpId lp.val
    let b := cellBase id
    let r := s.cfg id 12
    if recByte r 0 = 1 ∧ 2 * recByte r 1 ≤ (s.lp lp.val).oscCount then
      let s := (s.modLp lp.val fun st => { st with oscCount := 0 }).bump b Reg.LP_OSC_DETECTS
      if s.rd b Reg.LP_GAIN_DLEVEL < recByte r 2 then s.wr b Reg.LP_GAIN_DLEVEL (s.rd b Reg.LP_GAIN_DLEVEL + 1)
      else s.setFlag b Reg.LP_GAIN_OSCLIM true
    else s

/-- DETUNE_RELAX: RELAX seconds without a counted half-cycle. -/
def execDetuneRelax (lp : Fin 512) (s : State) : Host.Outcome State Fault Refusal :=
  done <|
    let id := lpId lp.val
    let b := cellBase id
    let relax := f32 (recWord (s.cfg id 12) 16)
    if 0 < relax ∧ relax ≤ (s.lp lp.val).quiet + s.lpElapsed lp.val ∧ 0 < s.rd b Reg.LP_GAIN_DLEVEL then
      let s := (s.wr b Reg.LP_GAIN_DLEVEL (s.rd b Reg.LP_GAIN_DLEVEL - 1)).setFlag b Reg.LP_GAIN_OSCLIM false
      (s.bump b Reg.LP_OSC_RELAXES).modLp lp.val fun st => { st with quiet := -s.lpElapsed lp.val }
    else s

/-! Staged writes (R133, R141). A staged write of a register stands in the list of staged writes until the next boundary. -/

/-- A register write that takes effect at the next boundary. -/
def State.stage (s : State) (addr : Nat) (w : Word) : State := s.modFab fun f => { f with staged := f.staged ++ [(addr, w)] }

/-- The write of LP.MODE:REQ (R133). -/
def decideLoopMode (lp req : Nat) (s : State) : Code × State :=
  let id := lpId lp
  if !s.exists_ id then (E_STATE, s)
  else if req = 3 then (E_RANGE, s)
  else if req = 2 ∧ (s.bind id 1).isNone then (E_RANGE, s)
  else if req = 2 ∧ !((s.lpInput id 1).elim false Input.live) then (E_STATE, s)
  else if req = 0 ∧ lpKind (s.cfg id 0) = 2 then (E_STATE, s)
  else (E_OK, s.stage (cellBase id + Reg.LP_MODE_REQ.off) (BitVec.ofNat 32 req))

def execLoopModeRequest (p : Port) (lp : Fin 512) (req : BitVec 2) (s : State) : Host.Outcome State Fault Refusal :=
  command p (decideLoopMode lp.val req.toNat) s

/-- Legal values of a gain, by offset within the gain-set record (R111). -/
def gainLegal (off : Nat) (group : Bool) (w : Word) : Bool :=
  let v := f32 w
  let lim (q : Rat) : Rat := nearestF32 q
  f32Finite w &&
  match off with
  | 0 => decide (lim (mkRat 1 1000000) ≤ v ∧ v ≤ lim 1000000)
  | 4 => if v = 0 then !group else decide (lim (mkRat 1 1000) ≤ v ∧ v ≤ lim 100000)
  | 8 => decide (0 ≤ v ∧ v ≤ lim 10000)
  | 12 => decide (2 ≤ v ∧ v ≤ 50)
  | 16 => decide (0 ≤ v ∧ v ≤ 1)
  | _ => true

/-- Offset within the gain-set record of a gain register: KP, TI, TD, BETA, N, KFF (R111, R142). -/
def gainOff (off : Nat) : Nat :=
  match off with
  | 0x44 => 0 | 0x48 => 4 | 0x4C => 8 | 0x50 => 16 | 0x54 => 12 | _ => 20

/-- The check of one staged loop register (R142): SP, MAN, the gains and the ramp rates. -/
def loopRegCheck (lp off : Nat) (w : Word) (s : State) : Code :=
  let id := lpId lp
  let b := cellBase id
  let r0 := s.cfg id 0
  let r1 := s.cfg id 1
  if !s.exists_ id then E_STATE
  else if off = 0x24 then
    if f32Finite w && decide (lpSpLo r1 ≤ f32 w ∧ f32 w ≤ lpSpHi r1) then E_OK else E_RANGE
  else if off = 0x28 then
    if s.rd b Reg.LP_MODE_ACT ≠ lmMan ∨ lpKind r0 = 2 then E_STATE
    else if f32Finite w && decide (lpOutLo r0 ≤ f32 w ∧ f32 w ≤ lpOutHi r0) then E_OK else E_RANGE
  else if 0x44 ≤ off ∧ off ≤ 0x58 then
    if gainLegal (gainOff off) (lpKind r0 != 0) w then E_OK else E_RANGE
  else if off = 0x5C ∨ off = 0x60 then
    if f32Finite w && decide (0 ≤ f32 w) then E_OK else E_RANGE
  else E_ADDR

/-- A checked loop register write is staged; a gain carries the set that GSEL names now in the address bits above the service address (R141). -/
def State.stageLoop (s : State) (lp off : Nat) (w : Word) : State :=
  let b := cellBase (lpId lp)
  let set := if 0x44 ≤ off ∧ off ≤ 0x58 then s.rd b Reg.LP_GAIN_GSEL + 1 else 0
  s.stage (set * 2 ^ 32 + b + off) w

/-- The registers written in one transaction are judged in order; the first failure decides and nothing is staged (R469, R141). -/
def decideLoopStaged (lp : Nat) (ws : List (Nat × Word)) (s : State) : Code × State :=
  match ws.find? fun x => loopRegCheck lp x.1 x.2 s != E_OK with
  | some x => (loopRegCheck lp x.1 x.2 s, s)
  | none => (E_OK, ws.foldl (fun s x => s.stageLoop lp x.1 x.2) s)

def execLoopStagedWrite (p : Port) (lp : Fin 512) (ws : List (Nat × Word)) (s : State) : Host.Outcome State Fault Refusal :=
  command p (decideLoopStaged lp.val ws) s

/-- LP.GAIN:GSEL takes effect at once (R141). -/
def decideGainSelect (lp sel : Nat) (s : State) : Code × State :=
  let id := lpId lp
  if !s.exists_ id then (E_STATE, s)
  else if s.lpNsets id ≤ sel then (E_RANGE, s)
  else (E_OK, s.wr (cellBase id) Reg.LP_GAIN_GSEL sel)

def execGainSelect (p : Port) (lp : Fin 512) (gsel : BitVec 3) (s : State) : Host.Outcome State Fault Refusal :=
  command p (decideGainSelect lp.val gsel.toNat) s

/-- LP.GAIN:DRESET is staged and returns the detune level to 0 at the next boundary (R139, R141). -/
def decideDetuneReset (lp : Nat) (s : State) : Code × State :=
  let id := lpId lp
  if !s.exists_ id then (E_STATE, s)
  else (E_OK, s.stage (cellBase id + Reg.LP_GAIN_DRESET.off) (BitVec.ofNat 32 (2 ^ Reg.LP_GAIN_DRESET.lo)))

def execDetuneReset (p : Port) (lp : Fin 512) (s : State) : Host.Outcome State Fault Refusal :=
  command p (decideDetuneReset lp.val) s

/-- A staged loop register takes effect at the boundary (R141); `key` is the staged address with the gain set above it. -/
def State.applyLoopWrite (s : State) (id key : Nat) (w : Word) : State :=
  let b := cellBase id
  let n := cellNum id
  let off := key % 256
  let set := key / 2 ^ 32
  if set ≠ 0 then s.setLpGain id (set - 1) (gainOff off) w
  else if off = 0x20 then
    ((s.wr b Reg.LP_MODE_REQ (w.toNat % 4)).setFlag b Reg.LP_MODE_SHED false).modLp n fun st => { st with newReq := true }
  else if off = 0x40 then (s.wr b Reg.LP_GAIN_DLEVEL 0).setFlag b Reg.LP_GAIN_OSCLIM false
  else s.setReg (b + off) w

end Sys2Proof.Machine
end

