-- ==== Sys2Proof/Machine/Faults.lean ====
section
/-! DEFINITION. Errors and the returns from them (R91, R92, R94, R97, R105, R238, R504), and the commands on one cell: CLEAR, TEST, forces (R88) and
run-time parameters (R106). -/

namespace Sys2Proof.Machine

/-- The region isolates a block (R94): its cells enter FAULT, its outputs are de-energised, and a pair CP1–CP3 is held (R504). CP0 is never isolated. -/
def State.isolateBlk (s : State) (r b : Nat) (cause : Bool) : State :=
  if r = 2 ∧ b = 25 then s
  else
    let s := s.isolateBlock r b cause
    let s := s.when (r = 2 ∧ 26 ≤ b) fun s => s.setFlag (cpBase (b - 25)) Reg.CP_STATUS_HELD true
    -- a group in FAULT loses its permit, which drives a point of another block (R158)
    if r = 1 ∧ b = 10 then s.drive else (s.cellsIn r b).foldl State.driveCell ((List.range 4).foldl State.driveAx s)

/-- What the evaluation of a cell has changed is taken back: its registers, its state and its hidden state, an isolation by that evaluation included. -/
def State.unevaluate (s : State) (b : Before) (id : Nat) : State :=
  let base := cellBase id
  let was := Store.get CellSt.init b.cells id
  let undo := b.isolated.contains id && s.cst id == csFault && !(s.cell id).cause && !s.isolated (idRegion id) (idBlock id)
  if !([some Kind.fc, some Kind.lp].contains (kindOf id)) || (s.cst id == csFault && !undo) then s
  else
    let st := Store.get 0 b.regs (base + Reg.CELL_STATE_STATE.off)
    let started := getField st 0 3 == csStart && s.cst id == csRun
    let gsel := s.rd base Reg.LP_GAIN_GSEL
    let s := ((List.range 63).map fun i => base + 4 + 4 * i).foldl (fun s a => s.setReg a (Store.get 0 b.regs a)) s
    let s := s.when (started || undo) fun s => s.wr base Reg.CELL_STATE_STATE (getField st 0 3)
    let s := s.when undo fun s =>
      ((s.setFlag base Reg.CELL_STATE_ISOL false).setFlag base Reg.CELL_STATE_LATCHED false).modCell id fun c => { c with faultAt := was.faultAt, absent := was.absent }
    let s := s.modCell id fun c => { c with errHist := was.errHist, good := was.good, first := was.first, lastIn := was.lastIn }
    if kindOf id == some .lp then
      (s.wr base Reg.LP_GAIN_GSEL gsel).modLp (cellNum id) fun _ => Store.get LoopSt.init b.loops (cellNum id)
    else s.modFc (cellNum id) fun _ => Store.get FcSt.init b.fcs (cellNum id)

/-- A cell's work of the running stroke is discarded: nothing of it is published at the closing boundary, and the cell is as it was (R75, R94). -/
def State.discardWork (s : State) (id : Nat) : State :=
  let s := (s.dropHeld id).modFab fun f => { f with late := id :: f.late.filter (· != id) }
  match s.fab.before with
  | some b => s.unevaluate b id
  | none => s

/-- A block error (R94): the stroke's work of the affected cells is discarded, and the fourth error within 64 strokes isolates the block. -/
def State.blockError (s : State) (r b : Nat) (affected : List Nat) : State :=
  if blockExists r b && r != 0 then
    let (iso, s) := s.countBlockError r b
    let s := ((s.cellsIn r b).filter affected.contains).foldl State.discardWork s
    if iso then s.isolateBlk r b false else s
  else s

/-- BLOCK_LINK_LOSS (R94, R238, R263): outputs off at once, counted by a digital or motion block, and the region isolates the block. -/
def execBlockLinkLoss (r b : Nat) (s : State) : Host.Outcome State Fault Refusal :=
  done <|
    if blockExists r b && r != 0 then
      let s := s.when (r = 1 ∧ 4 ≤ b ∧ b < 8) fun s => s.bump (blkBase r b) Reg.DB_CNT2_LINKOFFS
      let s := s.when (r = 1 ∧ 8 ≤ b ∧ b < 10) fun s => s.bump (blkBase r b) Reg.MB_CNT2_LINKOFFS
      (s.countBlockError r b).2.isolateBlk r b false
    else s

def regFltField (r : Nat) : Field := ⟨Reg.MOD_HEALTH_REGFLT.off, Reg.MOD_HEALTH_REGFLT.lo + r, 1, .ro⟩

/-- R94: supply or clock of a region out of tolerance isolates all its blocks; for the Control region it also stops CP0 (R97). -/
def State.regionFault (s : State) (r : Nat) : State :=
  if s.flag modBase (regFltField r) then s
  else
    let s := (s.setFlag modBase (regFltField r) true).bump modBase Reg.MOD_HEALTH_REGFAULTS
    let s := s.when (r = 2) fun s => s.setFlag (cpBase 0) Reg.CP_STATUS_HELD true
    ((List.range 29).filter fun b => blockExists r b && r != 0).foldl (fun s b => s.isolateBlk r b true) s

/-- REGION_FAULT. -/
def execRegionFault (region : Fin 5) (s : State) : Host.Outcome State Fault Refusal := done (s.regionFault region.val)

/-- REGION_FAULT_CLEAR: supply and clock are in tolerance again, and the blocks' causes are absent from here on (R94). -/
def execRegionFaultClear (region : Fin 5) (s : State) : Host.Outcome State Fault Refusal :=
  done <|
    let r := region.val
    if s.flag modBase (regFltField r) then
      let s := s.setFlag modBase (regFltField r) false
      ((List.range 29).filter fun b => blockExists r b && r != 0).foldl (fun s b =>
        (s.cellsIn r b).foldl (fun s id => s.modCell id fun c => { c with cause := s.startFailed id, absent := 0 })
          (s.modBlk r b fun x => { x with cause := false, absent := 0 })) s
    else s

/-- A block returns through RECOVER (R94). -/
def State.recoverBlk (s : State) (r b : Nat) : State :=
  (s.wr (blkBase r b) Reg.BLK_STATE_STATE bkRecover).modBlk r b fun x => { x with absent := 0 }

/-- BLOCK_RECOVER (R94): 256 consecutive strokes without the cause, not latched. -/
def execBlockRecover (r b : Nat) (s : State) : Host.Outcome State Fault Refusal :=
  done <|
    let base := blkBase r b
    if s.isolated r b && !s.flag base Reg.BLK_STATE_LATCHED && !(s.blk r b).cause && 256 ≤ (s.blk r b).absent then
      (s.bump base Reg.BLK_STATE_RETRIES).recoverBlk r b
    else s

/-- BLK.CTRL:REINT (R94, R105): lifts a latched isolation; with the cause absent the block returns at once, else after it. -/
def decideReint (r b : Nat) (s : State) : Code × State :=
  let base := blkBase r b
  if blockExists r b && r != 0 && s.isolated r b && s.flag base Reg.BLK_STATE_LATCHED then
    let s := ((s.setFlag base Reg.BLK_STATE_LATCHED false).wr base Reg.BLK_STATE_RETRIES 0).modBlk r b fun x => { x with isoAt := [] }
    (E_OK, if (s.blk r b).cause then s else s.recoverBlk r b)
  else (E_STATE, s)

/-- BLOCK_REINTEGRATE; for an isolated CP1 the PWR block executes it (R473). -/
def execBlockReintegrate (p : Port) (r b : Nat) (s : State) : Host.Outcome State Fault Refusal :=
  if s.gate p = .pwrOnly ∧ s.isolated 2 26 ∧ r = 2 ∧ b = 26 then done (let x := decideReint r b s; x.2.answer p x.1)
  else command p (decideReint r b) s

/-- The cause that isolated a cell is absent, its block's isolation included (R91). -/
def State.causeAbsent (s : State) (id : Nat) : Bool := !(s.cell id).cause && !s.isolated (idRegion id) (idBlock id)

/-- FAULT_RETRY (R91). -/
def execFaultRetry (id : Nat) (s : State) : Host.Outcome State Fault Refusal :=
  done <|
    let b := cellBase id
    if s.exists_ id && !s.follower id && s.cst id == csFault && !s.flag b Reg.CELL_STATE_LATCHED && s.causeAbsent id && 256 ≤ (s.cell id).absent then
      (s.bump b Reg.CELL_STATE_RETRIES).faultToRecover id
    else s

/-- RECOVER_COMPLETE (R91): 8 consecutive evaluations without error. -/
def execRecoverComplete (id : Nat) (s : State) : Host.Outcome State Fault Refusal :=
  done <| if s.exists_ id && !s.follower id && s.cst id == csRecover && 8 ≤ (s.cell id).good then (s.setCst id csRun).driveCell id else s

/-- CELL.CTRL:CLEAR (R91, R104). -/
def decideCellClear (id : Nat) (s : State) : Code × State :=
  let b := cellBase id
  if !s.exists_ id || s.follower id || s.cst id != csFault || !s.causeAbsent id then (E_STATE, s)
  else (E_OK, ((s.setFlag b Reg.CELL_STATE_LATCHED false).wr b Reg.CELL_STATE_RETRIES 0).faultToRecover id)

/-- CELL_CLEAR. -/
def execCellClear (p : Port) (id : Nat) (s : State) : Host.Outcome State Fault Refusal := command p (decideCellClear id) s

/-- CELL.CTRL:TESTOP = 1: RUN → TEST in SERVICE, outputs held (R91). -/
def decideTestEnter (id : Nat) (s : State) : Code × State :=
  if s.exists_ id && !s.follower id && s.cst id == csRun && s.mst == stService then (E_OK, (s.setCst id csTest).driveCell id) else (E_STATE, s)

/-- CELL_TEST_ENTER. -/
def execCellTestEnter (p : Port) (id : Nat) (s : State) : Host.Outcome State Fault Refusal := command p (decideTestEnter id) s

/-- CELL.CTRL:TESTOP = 2: TEST → RECOVER (R91). -/
def decideTestLeave (id : Nat) (s : State) : Code × State :=
  if s.exists_ id && !s.follower id && s.cst id == csTest then (E_OK, (s.toRecover id).driveCell id) else (E_STATE, s)

/-- CELL_TEST_LEAVE. -/
def execCellTestLeave (p : Port) (id : Nat) (s : State) : Host.Outcome State Fault Refusal := command p (decideTestLeave id) s

/-! Forces and simulations (R88, R104). -/

/-- A configuration gives its cell a port (R82, R115, R150, R180, R205, R227, R234, R245, R288, R367). -/
def hasPort (img : List Record) (id port : Nat) : Bool :=
  let r := getRec img T_CELL 0 id
  match kindOf id with
  | some .fc => match fcShape (fcOp r) with
    | some (_, _, ports) => port < ports
    | none => false
  | some .lp => port < 4 || (port == 4 && lpKind r == 1)
  | some .ph => port < 16
  | some .tout => port < 2
  | some .uc =>
    let h := getRec img T_CELL 3 id
    port < 2 || (recByte r 2 / 16 % 2 == 1 && (if recByte h 0 = 0 then port < 6 else port ≤ 1 + recByte h 1))
  | some .dp => port < 2 && recByte r 0 != 5
  | some .ax => port < 4 && (port != 2 || recByte r 1 % 2 == 1)
  | some .pc => port == 0
  | some .mbx => port < 16
  | _ => false

/-- The decision on CELL.FORCE and CELL.FVAL written together (R88, R104). -/
def decideForce (p : Port) (id mode port : Nat) (value : Word) (s : State) : Code × State :=
  if p ≠ .service then (E_ACCESS, s)
  else if !s.exists_ id ∨ s.mst ≠ stService then (E_STATE, s)
  else if mode = 3 then (E_RANGE, s)
  else if mode = 1 ∧ !s.physical id then (E_ACCESS, s)
  else if !hasPort s.img.active id port ∨ f32IsNaN value then (E_RANGE, s)
  else (E_OK, s.modFab fun f => { f with forces := f.forces ++ [(id, mode, port, value)] })

/-- FORCE_WRITE (R88): it takes effect at the next boundary. -/
def execForceWrite (p : Port) (id : Nat) (mode : BitVec 2) (port : BitVec 4) (value : Word) (s : State) : Host.Outcome State Fault Refusal :=
  command p (decideForce p id mode.toNat port.toNat value) s

/-! Function parameters (R82, R106). -/

/-- A parameter is a whole number of a range. -/
def f32Whole (w : Word) (lo hi : Nat) : Bool :=
  f32Finite w && (f32 w).den == 1 && decide ((lo : Rat) ≤ f32 w ∧ f32 w ≤ (hi : Rat))

/-- Strictly rising numbers. -/
def rising : List Rat → Bool
  | a :: b :: l => decide (a < b) && rising (b :: l)
  | _ => true

/-- The limits of R82 on the parameters of an operation; `tables` is the number of the cell's TABLE records, which must carry the points (R501), `points`
their first points. P0 of CHAR, KOFN and UNPACK counts points, inputs and bits, so it is a whole number (DEDUCED, log entry 134). -/
def fcParamsLegal (op nin tables : Nat) (points : Nat → List (Word × Word)) (p : Nat → Word) : Bool :=
  ((List.range 4).all fun i => !f32IsNaN (p i)) &&
    match op with
    | 0x06 => decide (f32x (p 0) ≤ f32x (p 1))
    | 0x0C => decide (0 ≤ f32x (p 0))
    | 0x0D => decide (0 < f32x (p 0) ∧ 0 < f32x (p 1))
    | 0x0E =>
      let n := (f32 (p 0)).floor.toNat
      f32Whole (p 0) 2 32 && (n + 2) / 3 ≤ tables && rising ((points n).map fun q => f32x q.1)
    | 0x24 => f32Whole (p 0) 1 nin
    | 0x25 => decide (0 ≤ f32x (p 0))
    | 0x26 => decide (0 ≤ f32x (p 0))
    | 0x27 => decide (0 ≤ f32x (p 0))
    | 0x28 => decide (0 ≤ f32x (p 0))
    | 0x32 => f32Whole (p 0) 0 28
    | _ => true

/-- TABLE records that target a cell. -/
def tableCount (img : List Record) (id : Nat) : Nat := (img.filter fun r => recType r == T_TABLE && recTarget r == id).length

/-- FC.Pi as the staged writes will leave it, else as it reads (R106). -/
def State.fcParam (s : State) (fc i : Nat) : Word :=
  let a := cellBase (fcId fc) + 0x24 + 4 * i
  match s.fab.staged.reverse.find? fun e => e.1 == a with
  | some e => e.2
  | none => s.reg a

/-- The parameters of a function cell with FC.Pi written. -/
def State.fcParamsWith (s : State) (fc : Nat) (v : Fin 4 × Word) (i : Nat) : Word := if i = v.1.val then v.2 else s.fcParam fc i

/-- The value of FC.Pi is one that the image would reject under R82, beside the other parameters as earlier writes leave them (R106, R469). -/
def State.fcParamLegal (s : State) (fc : Nat) (v : Fin 4 × Word) : Bool :=
  let id := fcId fc
  let r := s.cfg id 0
  fcParamsLegal (fcOp r) (fcNin r) (tableCount s.img.active id) (s.tablePoints id) (s.fcParamsWith fc v)

/-- A write of one of FC.P0–FC.P3 (R106): a value that the image would reject is refused; otherwise it waits for the boundary. -/
def decideFcParam (fc : Nat) (v : Fin 4 × Word) (s : State) : Code × State :=
  if !s.exists_ (fcId fc) then (E_STATE, s)
  else if !s.fcParamLegal fc v then (E_RANGE, s)
  else (E_OK, s.stage (cellBase (fcId fc) + 0x24 + 4 * v.1.val) v.2)

/-- Writes of FC.P0–FC.P3 in one transaction, each judged on what the earlier ones leave (R469); `s` is the state before the transaction. -/
def decideFcParams (fc : Nat) (s : State) : List (Fin 4 × Word) → State → Code × State
  | [], t => (E_OK, t)
  | v :: vs, t =>
    let r := decideFcParam fc v t
    if r.1 = E_OK then decideFcParams fc s vs r.2 else (r.1, s)

/-- FUNCTION_PARAMETER_WRITE (R106). -/
def execFunctionParameterWrite (p : Port) (fc : Fin 4096) (vals : List (Fin 4 × Word)) (s : State) : Host.Outcome State Fault Refusal :=
  command p (decideFcParams fc.val s vals) s

end Sys2Proof.Machine
end

