-- ==== Sys2Proof/Machine/Recorder.lean ====
section
/-! DEFINITION. The event recorder (15): codes, rate limits, summaries, freezing, the interval log and its journal copies. -/

namespace Sys2Proof.Machine

/-! RECORDER payload (R395). -/
def rcSrc (r : Record) : Nat := recByte r 0
def rcLog (r : Record) : Bool := recByte r 1 % 2 == 1
def rcIndex (r : Record) : Nat := recU16 r 2
def rcHlo (r : Record) : Rat := f32 (recWord r 4)
def rcHhi (r : Record) : Rat := f32 (recWord r 8)
def rcRlim (r : Record) : Nat := recU16 r 12
def rcRwin (r : Record) : Nat := recU16 r 14
def rcSig (r : Record) : Nat := recU32 r 16

/-- The codes of an effective image (R395). -/
def codesOf (img : List Record) : List (Nat × Record) :=
  (img.filter fun r => recType r == T_RECORDER).map fun r => (recTarget r, r)

/-! What a code records (R398, R399). -/

/-- Powers, for the logarithmic bins. -/
def ratPower (q : Rat) (n : Nat) : Rat := (List.range n).foldl (fun p _ => p * q) 1

/-- The bin of a magnitude (R399). The floor of 14 × ln(m / HLO) / ln(HHI / HLO) is the largest k with (HHI / HLO)^k not above (m / HLO)^14. -/
def binOf (r : Record) (m : Rat) : Nat :=
  if m < rcHlo r then 0
  else if rcHhi r ≤ m then 15
  else if rcLog r then 1 + ((List.range 14).filter fun k => decide (1 ≤ k ∧ ratPower (rcHhi r / rcHlo r) k ≤ ratPower (m / rcHlo r) 14)).length
  else 1 + (14 * (m - rcHlo r) / (rcHhi r - rcHlo r)).floor.toNat

/-- An admitted occurrence of magnitude `w` at `ts` in bin `b` (R398). -/
def Summary.admitOcc (x : Summary) (w : Word) (ts : Word × Word) (b : Nat) : Summary :=
  let m := f32x w
  let newMin := x.count == 0 || decide (m < f32x x.lo)
  let newMax := x.count == 0 || decide (f32x x.hi < m)
  { x with
    count := min (x.count + 1) (2 ^ 32 - 1),
    first := if x.count = 0 then ts else x.first,
    last := ts,
    lo := if newMin then w else x.lo,
    minTs := if newMin then ts else x.minTs,
    hi := if newMax then w else x.hi,
    maxTs := if newMax then ts else x.maxTs,
    bins := x.bins.set b (min (x.bins.getD b 0 + 1) (2 ^ 32 - 1)) }

/-- A refused occurrence, and missed ones (R398, R404). -/
def Summary.refuse (x : Summary) : Summary := { x with excess := min (x.excess + 1) 65535 }
def Summary.miss (x : Summary) (n : Nat) : Summary := { x with missed := min (x.missed + n) 65535 }

/-- Any of COUNT, EXCESS and MISSED has moved (R402). -/
def Summary.moved (x : Summary) : Bool := x.count != 0 || x.excess != 0 || x.missed != 0

/-- A summary takes the changes of a power-fail record (R407). -/
def Summary.merge (x d : Summary) : Summary :=
  let fresh := x.count == 0
  let lower := decide (f32x d.lo < f32x x.lo)
  let upper := decide (f32x x.hi < f32x d.hi)
  let x1 : Summary := { x with
    count := min (x.count + d.count) (2 ^ 32 - 1),
    excess := min (x.excess + d.excess) 65535,
    missed := min (x.missed + d.missed) 65535 }
  if d.count = 0 then x1
  else
    { x1 with
      first := if fresh then d.first else x.first,
      last := d.last,
      lo := if fresh || lower then d.lo else x.lo,
      minTs := if fresh || lower then d.minTs else x.minTs,
      hi := if fresh || upper then d.hi else x.hi,
      maxTs := if fresh || upper then d.maxTs else x.maxTs,
      bins := (List.range 16).map fun i => min (x.bins.getD i 0 + d.bins.getD i 0) (2 ^ 32 - 1) }

/-- A change of a code's summary is made in all three running summaries, and marks the code as changed. -/
def State.modCode (s : State) (c : Nat) (f : Summary → Summary) : State :=
  let upd (m : Store Summary) : Store Summary := Store.set Summary.zero m c (f (Store.get Summary.zero m c))
  s.modRec fun r => { r with
    sums := upd r.sums, part := upd r.part, since := upd r.since,
    changed := if r.changed.contains c then r.changed else r.changed ++ [c] }

/-! Taking occurrences (R397, R398, R404). -/

/-- The order of R98: stroke number, timestamp, ordering key, sequence number. -/
def Occurrence.before (a b : Occurrence) : Bool :=
  if a.stroke ≠ b.stroke then a.stroke.toNat < b.stroke.toNat
  else if a.s ≠ b.s then a.s.toNat < b.s.toNat
  else if a.ns ≠ b.ns then a.ns.toNat < b.ns.toNat
  else if a.key ≠ b.key then a.key < b.key
  else a.seq < b.seq

/-- The first of the queue by R98. -/
def firstOccurrence : List Occurrence → Option Occurrence
  | [] => none
  | o :: l => match firstOccurrence l with
    | some p => if p.before o then some p else some o
    | none => some o

/-- An occurrence feeds a code (R397). -/
def feeds (r : Record) (o : Occurrence) : Bool :=
  rcSrc r == o.src && (rcIndex r == o.index || rcIndex r == 0xFFFF) && (o.src != 12 || rcSig r == o.sig)

/-- The bucket's tokens when an occurrence arrives (R400): refilled at RLIM per RWIN milliseconds, never above RLIM. -/
def tokensAt (r : Record) (b : Option (Rat × Nat)) (now : Nat) : Rat :=
  match b with
  | none => rcRlim r
  | some (x, t) => ratMin (rcRlim r) (x + mkRat (rcRlim r * (now - t) : Nat) (rcRwin r * 1000000))

/-- A matching occurrence at one code (R398, R404). -/
def State.feedCode (s : State) (o : Occurrence) (c : Nat) (r : Record) : State :=
  if s.recState = rsRecording then
    let now := o.s.toNat * 1000000000 + o.ns.toNat
    let t := tokensAt r (Store.get none s.recd.bucket c) now
    if rcRlim r = 0 then s.modCode c fun x => x.admitOcc o.mag (o.s, o.ns) (binOf r (f32x o.mag))
    else if 1 ≤ t then
      (s.modRec fun x => { x with bucket := Store.set none x.bucket c (some (t - 1, now)) }).modCode c fun x =>
        x.admitOcc o.mag (o.s, o.ns) (binOf r (f32x o.mag))
    else (s.modRec fun x => { x with bucket := Store.set none x.bucket c (some (t, now)) }).modCode c Summary.refuse
  else if s.recState = rsFrozen then
    (s.modRec fun x => { x with frozen := Store.set 0 x.frozen c (Store.get 0 x.frozen c + 1) }).bump recBase Reg.REC_FRZ_FRZ
  else s.modCode c fun x => x.miss 1

/-- OCCURRENCE_TAKE (R398): the first occurrence of the queue by R98 feeds every matching code. CP3 carries the recorder (R190, R397). -/
def execOccurrenceTake (s : State) : Host.Outcome State Fault Refusal :=
  done <|
    if s.recState = rsOff || !s.dutyUp 3 then s
    else match firstOccurrence s.recd.queue with
      | none => s
      | some o =>
        let s := s.modRec fun r => { r with queue := r.queue.filter fun x => x.seq != o.seq }
        ((codesOf s.img.active).filter fun cr => feeds cr.2 o).foldl (fun s cr => s.feedCode o cr.1 cr.2) s

/-! Writing (R401, R402). -/

/-- The number of the interval that runs now (R401). -/
def State.intervalNo (s : State) : Nat := s.time.sec.toNat / (60 * max 1 (s.rd recBase Reg.REC_CFG_PERIOD))

/-- The changed summaries reach their slots; the moves since the last write start again. -/
def State.saveSummaries (s : State) : State :=
  s.modRec fun r => { r with
    saved := r.changed.foldl (fun m c => Store.set Summary.zero m c (Store.get Summary.zero r.sums c)) r.saved,
    since := [], changed := [] }

/-- The recorder writes to the journal in these states; in STOPPED nothing is written (R404). -/
def State.recWrites (s : State) : Bool := [rsRecording, rsFrozen, rsFull].contains s.recState && s.dutyUp 3

/-- The granules of the summaries of codes, and of log records from index `i` on (R401). -/
def summaryHome (codes : List Nat) : List Nat := codes.flatMap fun c => recordHome (1296 + c / 32) (c % 32)
def logHome (i n : Nat) : List Nat := (List.range n).flatMap fun k => recordHome (1360 + (i + k) / 32) ((i + k) % 32)

/-- The granules of every summary in the journal, which a CLEAR rewrites. -/
def State.savedHome (s : State) : List Nat := summaryHome (s.recd.saved.map Prod.fst)

/-- A write of the recorder, one journal transaction: the changed summaries, and the interval records that wait, from REC.LOGUSED onward, as far as 8,192
granules and the log hold them. A failed write is counted, and everything stays to be written at the next moment (R402). -/
def State.recWrite (s : State) (o : NvOutcome) : State :=
  let used := s.recd.log.length
  let new := (s.recd.due.take (2048 - s.recd.changed.length)).take (s.rd recBase Reg.REC_LOGCAP_CAP - used)
  let r := s.commitTxn (summaryHome s.recd.changed ++ logHome used new.length) o
  if r.1 = E_OK then (r.2.modRec fun x => { x with log := x.log ++ new, due := x.due.drop new.length }).saveSummaries.showLog
  else r.2.bump recBase Reg.REC_MISS2_WFAIL

/-- SUMMARY_WRITE (R402). -/
def execSummaryWrite (o : NvOutcome) (s : State) : Host.Outcome State Fault Refusal :=
  done <| if !s.recWrites || (s.recd.changed.isEmpty && s.recd.due.isEmpty) then s else s.recWrite o

/-- The interval records, in code order (R402). -/
def State.intervalRecords (s : State) : List LogRec :=
  (s.recd.part.filter fun e => e.2.moved).map fun e => ⟨e.1, 1, s.recd.interval, e.2⟩

/-- The interval in progress ends: its records wait for the write, and the next begins (R401, R402). -/
def State.closeInterval (s : State) : State :=
  s.modRec fun r => { r with due := r.due ++ s.intervalRecords, part := [], interval := s.intervalNo }

/-- An interval ends and is written (R402); a recorder whose log has fewer than 1,024 free records afterwards is FULL (R403). -/
def State.endInterval (s : State) (o : NvOutcome) : State :=
  if !s.recWrites then s
  else
    let s := s.closeInterval.recWrite o
    s.when (s.recState == rsRecording && s.logFull) fun s => s.setRec_ rsFull

/-- INTERVAL_END (R402, R403). -/
def execIntervalEnd (o : NvOutcome) (s : State) : Host.Outcome State Fault Refusal := done (s.endInterval o)

/-! Commands (R403, R405). -/

/-- A freeze ends: pending misses fall into MISSED (R404). -/
def State.unfreeze (s : State) (timeout : Bool) : State :=
  let pend := s.recd.frozen
  let s := s.modRec fun r => { r with frozen := [] }
  let s := pend.foldl (fun s e => s.modCode e.1 fun x => x.miss e.2) s
  let s := s.setFlag recBase Reg.REC_STATUS_FRZTMO timeout
  s.setRec_ (if s.logFull then rsFull else rsRecording)

/-- CLEAR: summaries and log 0, buckets full. -/
def State.recClear (s : State) : State :=
  let s := s.modRec fun r => { r with bucket := [], frozen := [], sums := [], part := [], since := [], changed := [], saved := [], log := [], due := [], gone := [] }
  s.showLog.setRec_ rsRecording

/-- REC.CTRL (R405): bit 0 FREEZE, 1 UNFREEZE, 2 CLEAR; but for the journal. -/
def decideRecCtrl (p : Port) (bits : Nat) (s : State) : Code × State :=
  let freeze := bits % 2 == 1
  let unfreeze := bits / 2 % 2 == 1
  let clear := bits / 4 % 2 == 1
  let st := s.recState
  if 1 < freeze.toNat + unfreeze.toNat + clear.toNat then (E_RANGE, s)
  else if clear then
    if p ≠ .service then (E_ACCESS, s)
    else if !s.mstIn [stReady, stRun, stService] || st = rsOff || st = rsStopped then (E_STATE, s)
    else (E_OK, s.recClear)
  else if freeze then
    if st = rsRecording then
      (E_OK, ((s.wr recBase Reg.REC_FRZ_FRZ 0).modRec fun r => { r with frozen := [] }).setRec_ rsFrozen)
    else if st = rsFrozen then (E_OK, s)
    else (E_STATE, s)
  else if unfreeze then if st = rsFrozen then (E_OK, s.unfreeze false) else (E_STATE, s)
  else (E_OK, s)

/-- REC_FREEZE (R405). -/
def execRecFreeze (p : Port) (s : State) : Host.Outcome State Fault Refusal := command p (decideRecCtrl p 1) s

/-- REC_UNFREEZE (R405). -/
def execRecUnfreeze (p : Port) (s : State) : Host.Outcome State Fault Refusal := command p (decideRecCtrl p 2) s

/-- REC_CLEAR (R405). -/
def execRecClear (p : Port) (o : NvOutcome) (s : State) : Host.Outcome State Fault Refusal :=
  command p (journaled s.savedHome o (decideRecCtrl p 4)) s

/-- FREEZE_TIMEOUT (R403): 10 s after the last FREEZE. -/
def execFreezeTimeout (s : State) : Host.Outcome State Fault Refusal :=
  done <| if s.recState = rsFrozen then s.unfreeze true else s

/-! Starting, stopping and shrinking (R403, R406–R408). -/

/-- The first commit after POWERUP (R403, R407). -/
def State.recStart (s : State) : State :=
  if s.recState ≠ rsOff then s
  else
    let s := s.modRec fun r => { r with bucket := [], frozen := [], part := [], since := [], changed := [], due := [], sums := r.saved, interval := s.intervalNo }
    if s.recblks < 32 then (s.modRec fun r => { r with sums := [] }).setRec_ rsStopped
    else
      let merged (m : Store Summary) : Store Summary :=
        s.recd.area.foldl (fun m e => Store.set Summary.zero m e.code ((Store.get Summary.zero m e.code).merge e.sum)) m
      let s := s.bumpBy recBase Reg.REC_MISS_PFLOST s.recd.unsealed
      let homes := summaryHome (s.recd.area.map LogRec.code).eraseDups ++ logHome s.recd.log.length (min s.recd.area.length (s.logCap - s.recd.log.length))
      let s := s.when (!s.recd.area.isEmpty) fun s => (s.commitTxn homes .clean).2
      let s := s.modRec fun r => { r with sums := merged r.sums, saved := merged r.saved, log := (r.log ++ r.area).take s.logCap, area := [], unsealed := 0 }
      let s := s.showLog
      s.setRec_ (if s.logFull then rsFull else rsRecording)

/-- The records of the power-fail flush, one for each code changed since the last write (R407). None is made in STOPPED (R404) nor once the area is lost
(R406). -/
def State.flushRecords (s : State) : List LogRec :=
  if s.recState = rsStopped || s.flag recBase Reg.REC_STATUS_NOFLUSH then []
  else s.recd.changed.map fun c => ⟨c, 2, s.recd.interval, Store.get Summary.zero s.recd.since c⟩

/-- R407: the power-fail flush, and OFF (R403). The records go into their slots of the power-fail area directly. One that is cut off has sealed some of them,
and at most one stands unsealed: how many, and whether, are free values. -/
def State.recFlush (s : State) (complete : Bool) : State :=
  if s.recState = rsOff then s
  else
    let list := s.flushRecords
    let (k, torn, s) : Nat × Nat × State :=
      if complete then (list.length, 0, s)
      else
        let (v, s) := s.draw
        let (w, s) := s.draw
        let k := v.toNat % (list.length + 1)
        (k, if k < list.length then w.toNat % 2 else 0, s)
    let s := s.wearBlocks ((list.take (k + torn)).map fun l => 1328 + l.code / 32).eraseDups
    (s.modRec fun r => { r with area := r.area ++ list.take k, unsealed := r.unsealed + torn }).setRec_ rsOff

/-- PFAIL without the flush having started (R438): OFF, and what was not written is lost. -/
def State.recFlushOff (s : State) : State := if s.recState = rsOff then s else s.setRec_ rsOff

/-- SRC and LOGSCALE of CODE.CFG (R412). -/
def codeCfg (r : Record) : Word := BitVec.ofNat 32 (rcSrc r + (if rcLog r then 512 else 0))

/-- R408: the codes at a commit boundary after the first. A removed code keeps SRC and LOGSCALE of its CODE.CFG readable. -/
def State.commitRec (s : State) (old : List Record) : State :=
  let was := codesOf old
  let now := codesOf s.img.active
  let s := s.modRec fun r => { r with
    gone := (was.filter fun e => !now.any fun n => n.1 == e.1).foldl (fun m e => Store.set 0 m e.1 (codeCfg e.2)) (r.gone.filter fun e => !now.any fun n => n.1 == e.1) }
  (codesOf s.img.active).foldl (fun s cr =>
    match was.find? fun e => e.1 == cr.1 with
    | some e =>
      let keepSum := recByte e.2 0 == recByte cr.2 0 && rcLog e.2 == rcLog cr.2 && rcIndex e.2 == rcIndex cr.2 && recU64 e.2 4 == recU64 cr.2 4 &&
        rcSig e.2 == rcSig cr.2
      if recContent e.2 == recContent cr.2 then s
      else
        let s := s.modRec fun r => { r with bucket := Store.erase r.bucket cr.1 }
        if keepSum then s
        else s.modRec fun r => { r with sums := Store.erase r.sums cr.1, part := Store.erase r.part cr.1, since := Store.erase r.since cr.1, changed := if r.changed.contains cr.1 then r.changed else r.changed ++ [cr.1] }
    | none =>
      s.modRec fun r => { r with
        bucket := Store.erase r.bucket cr.1, sums := Store.erase r.sums cr.1, part := Store.erase r.part cr.1, since := Store.erase r.since cr.1,
        changed := if r.changed.contains cr.1 then r.changed else r.changed ++ [cr.1] }) s

/-- R396 SRC 12: after a publication, each watched signal published non-zero after a publication at 0.0 is an occurrence. -/
def State.watchSignals (s : State) : State :=
  (((codesOf s.img.active).filter fun cr => rcSrc cr.2 == 12).map (fun cr => rcSig cr.2)).eraseDups.foldl (fun s id =>
    let w := s.sig id
    if w.age = 65535 then s
    else
      let was := Store.get false s.recd.zero id
      let prod := ((signalsOf s.img.active).find? fun r => sigId r == id).elim 0 sigProducer
      let key := if (kindOf prod).isSome then keyOfCell prod else keyOfBlock 3 0
      let s := s.when (was && f32True w.val) fun s => s.occur 12 0 (f32x w.val) key id
      s.modRec fun r => { r with zero := Store.set false r.zero id (!f32True w.val) }) s

/-! Reading (R401, R409, R412). -/

/-- The words of a record at byte 8 on, and of the code registers, hold these quantities. -/
def Summary.exc (x : Summary) : Word := BitVec.ofNat 32 (x.excess + x.missed * 65536)

/-- A log record as its 32 words (R401). -/
def LogRec.words (l : LogRec) : List Word :=
  let x := l.sum
  [BitVec.ofNat 32 (l.code % 65536 + l.kind * 65536), BitVec.ofNat 32 l.interval, BitVec.ofNat 32 x.count, x.exc, x.lo, x.hi,
    x.first.1, x.first.2, x.last.1, x.last.2, x.minTs.1, x.minTs.2, x.maxTs.1, x.maxTs.2] ++ x.bins.map (BitVec.ofNat 32) ++
    [0, BitVec.ofNat 32 0xA5000000]

/-- The registers of a code from offset 0 on (R412). -/
def State.codeWords (s : State) (c : Nat) : List Word :=
  let x := Store.get Summary.zero s.recd.sums c
  let cfg : Word := match (codesOf s.img.active).find? fun e => e.1 == c with
    | some e => codeCfg e.2 ||| 256
    | none => Store.get 0 s.recd.gone c
  [cfg, BitVec.ofNat 32 x.count, x.exc, x.first.2, x.first.1, x.last.2, x.last.1, x.lo, x.minTs.2, x.minTs.1, x.hi, x.maxTs.2, x.maxTs.1] ++
    x.bins.map (BitVec.ofNat 32)

/-- REC.LOGDATk (R409); `none` where LOGSEL is at or beyond LOGUSED. -/
def State.logWord (s : State) (k : Nat) : Option Word :=
  (s.recd.log[s.rd rec2Base Reg.REC_LOGSEL_INDEX]?).map fun l => l.words.getD k 0

end Sys2Proof.Machine
end

