-- ==== Sys2Proof/Machine/Timebase.lean ====
section
/-! DEFINITION. The time base and its servo (12): counting, measured offsets, steps and slewing, PTP on the paths and on the chain. -/

namespace Sys2Proof.Machine

def State.trd (s : State) (f : Field) : Nat := s.rd tmBase f
def State.twr (s : State) (f : Field) (v : Nat) : State := s.wr tmBase f v

/-- One CLK_FAB cycle. -/
def State.tick (s : State) : State := s.advance 1

/-- A step (R339, R345, R346, R350): the time base takes a time in ns; what follows from it at the next boundary depends on its direction. -/
def State.stepTime (s : State) (ns : Nat) : State :=
  let old := s.nowNs
  let sync := s.flag tmBase Reg.STK_CFG_SYNC
  let back := old - ns
  let kind := if ns < old && back ≤ 1000000000 then 2 else 1
  let s := (s.setNow32 (ns * 2 ^ 32)).bump tmBase Reg.TM_CNT_STEPS
  let s := s.setFlag tmBase Reg.TM_STATUS_PAUSED (sync && kind == 2)
  -- the phasor engine discards every sample taken before (R346)
  let s := (List.range 4).foldl (fun s g => s.modPh g fun p => { p with samples := [] }) s
  let s := s.modTime fun x => { x with slew := 0, stepped := if sync then kind else 0, steppedTo := some ns, edge := x.edge + (ns - old) }
  -- the recorder's interval in progress ends at the step (R402)
  s.endInterval .clean

/-! The servo (R337–R339). -/

def svFree : Nat := 0
def svSlew : Nat := 1
def svLocked : Nat := 2
def svHoldover : Nat := 3

def State.servoState (s : State) : Nat := s.trd Reg.TM_STATUS_STATE
def State.goServo (s : State) (n : Nat) : State :=
  let s := s.when (n == svHoldover && s.servoState != svHoldover) fun s => s.bump tmBase Reg.TM_CNT2_HOLDOVERS
  -- in LOCKED HOLDADD moves from then on (R337, R338)
  let s := s.when (n == svLocked && s.servoState != svLocked) fun s => s.modTime fun x => { x with holdAt := x.cycles }
  s.twr Reg.TM_STATUS_STATE n

def State.setAddend (s : State) (a : Int) : State := s.modTime fun x => { x with addend := BitVec.ofInt 32 (clampAddend a) }

/-- Entry to HOLDOVER: ADDEND takes HOLDADD (R338, R339). -/
def State.holdOver (s : State) : State := (s.setAddend s.holdadd).goServo svHoldover

/-- The proportional-integral law (R337): its gains are open, its correction beyond HOLDADD stays within SLEWMAX. -/
def State.servo (s : State) (offset : Int) : State :=
  let lim : Int := s.slewUnits
  s.setAddend (max (s.holdadd - lim) (min (s.holdadd + lim) (Config.servo s.addend s.holdadd offset)))

/-- Two measurements agree within 10 µs. -/
def agree (a b : Int) : Bool := (a - b).natAbs ≤ 10000

/-- OFFSET_MEASURED (R339): offset in ns; `step` is the reading that a step takes, within 8 ns of master time. -/
def State.offsetMeasured (s : State) (offset : Int) (step : Nat) : State :=
  let a := offset.natAbs
  -- a deferred backward step waits for two offsets measured after RUN and SERVICE
  let prev := if s.flag tmBase Reg.TM_STATUS_BIGBACK && s.time.prevIn && !s.mstIn [stRun, stService] then none else s.time.prevOffset
  let s := s.wrw tmBase Reg.TM_OFFSET (BitVec.ofInt 32 (max (-2147483647) (min 2147483647 offset)))
  let s := s.when (s.servoState == svLocked) fun s =>
    s.wrw tmBase Reg.TM_OFFMAX (BitVec.ofNat 32 (max (s.rdw tmBase Reg.TM_OFFMAX).toNat (min a (2 ^ 32 - 1))))
  let s := s.modTime fun x =>
    { x with prevOffset := some offset, prevIn := s.mstIn [stRun, stService], within1us := if a ≤ 1000 then x.within1us + 1 else 0,
             beyond10us := if 10000 < a then x.beyond10us + 1 else 0 }
  let both (p : Int → Bool) : Bool := match prev with
    | some q => p q && p offset && agree q offset
    | none => false
  let st := s.servoState
  let s :=
    if both (fun o => decide (1000000000 < o)) && s.mstIn [stRun, stService] then
      (s.twr Reg.TM_STATUS_BIGBACK 1).holdOver
    else if both (fun o => decide (1000000 < o.natAbs)) then
      (((s.stepTime step).twr Reg.TM_STATUS_BIGBACK 0).twr Reg.TM_STATUS_TIMEVALID 1).goServo svSlew
    else if (st == svFree || st == svHoldover) && a ≤ 1000000 && s.trd Reg.TM_STATUS_BIGBACK == 0 then
      ((s.twr Reg.TM_STATUS_TIMEVALID 1).goServo svSlew).modTime fun x => { x with slew := 0 }
    else if st == svSlew && 8 ≤ s.time.within1us then s.goServo svLocked
    else if st == svLocked && 2 ≤ s.time.beyond10us then s.goServo svSlew
    else s
  if s.servoState == svSlew || s.servoState == svLocked then s.servo offset else s

/-! PTP (R341–R344). -/

/-- PTP messages are processed: CP2 is neither held nor isolated (R193, R504), and the module is not starting up or failing. -/
def State.ptpUp (s : State) : Bool := s.dutyUp 2 && s.mst != stPowerup && s.mst != stPfail

def State.tsrc (s : State) : Nat := s.trd Reg.TM_CFG_SRC

/-- What is received there is used: on the ACTIVE path with SRC 0 (R342), from chain address 1 with SRC 1 (R344). -/
def State.ptpUsed (s : State) : PtpFrom → Bool
  | .path p _ => s.tsrc == 0 && s.pathActive p
  | .chain src => s.tsrc == 1 && src == 1

/-- TM.STATUS:PORT of where a message was received. -/
def ptpCode : PtpFrom → Nat
  | .path p _ => pathNum p
  | .chain _ => 2

def State.discardPtp (s : State) : State := s.bump tmBase Reg.TM_PCNT_DISCARDS

/-- A PTP message is received: a path that is OFF has none, and the first rows of R330 filter the others; CP2 takes what is left (R504). -/
def State.hearPtp (s : State) (from_ : PtpFrom) (k : State → State) : State :=
  if !s.ptpUp then s
  else match from_ with
    | .path p h => s.receive p h k
    | .chain _ => k s

/-- The accuracy of a hardware timestamp there, ns (R342). -/
def State.stampError (s : State) : PtpFrom → Nat
  | .path p _ => match s.nrd p Reg.NET_CFG_PMODE with
    | 1 => 8
    | 2 => 16
    | _ => 40
  | .chain _ => 4

/-- A hardware timestamp of this instant, in units of 2^−16 ns: within its accuracy of the time base, and otherwise free (R342). -/
def State.stamp (s : State) (from_ : PtpFrom) : Int × State :=
  let (w, s') := s.draw
  let a := s.stampError from_
  (((s.nowNs : Int) + (w.toNat % (2 * a + 1) : Nat) - a) * 65536, s')

/-- The timestamp of a message in units of 2^−16 ns. -/
def ptpTime (b : PtpBody) : Int := ((b.sec.toNat * 1000000000 + b.ns.toNat) * 65536 : Nat)

/-- A whole number from a mean: which neighbour a fraction takes is open. -/
def wholeOf (q : Rat) : Int := if q.den = 1 then q.num else if Config.roundReal q then q.floor + 1 else q.floor

/-- TM.ASYM of the ACTIVE path, ns; none on the chain (R337, R344). -/
def State.asym (s : State) : Int :=
  let w := if s.pathActive .a then s.trd Reg.TM_ASYM_NA else s.trd Reg.TM_ASYM_NB
  if s.tsrc = 0 then (BitVec.ofNat 16 w).toInt else 0

/-- An offset is measured (R337): offsetFromMaster of the last Sync with a meanPathDelay, both in units of 2^−16 ns. A step takes a reading within 8 ns of
master time, otherwise free (R339). -/
def State.measure (s : State) (delay : Int) : State :=
  match s.time.sync with
  | some (sent, arrived, corr) =>
    let o := wholeOf (mkRat (arrived - sent - corr - delay) 65536) - s.asym
    let (w, s) := s.draw
    s.offsetMeasured o ((s.nowNs : Int) - o + (w.toNat % 17 : Nat) - 8).toNat
  | none => s

/-- HOLDADD (R338): the mean of ADDEND over the last 64 accepted Syncs in LOCKED, moving by at most 1 ppm per second (R337). -/
def State.learnHold (s : State) : State :=
  let l := (s.addend :: s.time.addends).take 64
  let mean := wholeOf (mkRat l.sum l.length)
  let most : Int := ((s.time.cycles - s.time.holdAt) * 8589934592 / 500000000000000 : Nat)
  let d := max (-most) (min most (mean - s.holdadd))
  s.modTime fun x => { x with addends := l, holdAt := x.cycles, holdadd := BitVec.ofInt 32 (s.holdadd + d) }

/-- A logMessageInterval lies in the range that R341 accepts. -/
def intervalIn (lo hi : Int) (w : BitVec 8) : Bool := decide (lo ≤ w.toInt) && decide (w.toInt ≤ hi)

/-- The message is of the domain and of the parent. -/
def State.fromParent (s : State) (h : PtpHead) : Bool := h.domain.toNat == s.trd Reg.TM_CFG_DOMAIN && s.time.parent == some h.sender

/-- A Sync is accepted (R341): when it was sent, when it arrived, and its correction. After a change of the path it measures with the meanPathDelay known
until a Delay_Resp arrives (R342; DEDUCED, log entry 143). -/
def State.acceptSync (s : State) (from_ : PtpFrom) (sent arrived corr : Int) : State :=
  let s := (s.bump tmBase Reg.TM_PCNT_SYNCRX).twr Reg.TM_STATUS_PORT (ptpCode from_)
  let s := (s.when (s.servoState == svLocked) State.learnHold).modTime fun x => { x with half := none, sync := some (sent, arrived, corr) }
  match s.time.moved, s.time.delay with
  | true, some d => s.measure d
  | _, _ => s

/-- SYNC_MESSAGE (R341, R342, R344): a one-step Sync is accepted at once, a two-step one with its Follow_Up (DESIGN CHOICE, log entry 143). -/
def execSyncMessage (from_ : PtpFrom) (head : PtpHead) (followUp twoStep : Bool) (body : PtpBody) (s : State) : Host.Outcome State Fault Refusal :=
  done <| s.hearPtp from_ fun s =>
    if !s.ptpUsed from_ || !s.fromParent head || !intervalIn (-7) 1 head.logInterval then s.discardPtp
    else if followUp then
      match s.time.half with
      | some (seq, arrived, corr) =>
        if seq = head.seq then s.acceptSync from_ (ptpTime body) arrived (corr + body.correction.toInt) else s.discardPtp
      | none => s.discardPtp
    else
      let (arrived, s) := s.stamp from_
      if twoStep then s.modTime fun x => { x with half := some (head.seq, arrived, body.correction.toInt) }
      else s.acceptSync from_ (ptpTime body) arrived body.correction.toInt

/-! PTP messages in chain frames (R281, R343, R344). -/

/-- A PTP message: `ctl` is its controlField, `ival` its logMessageInterval, `flags` its second flag byte, `corr` its correctionField; `seq` is its
sequenceId. -/
def State.ptpMessage (s : State) (type flags ctl ival : Nat) (corr : BitVec 64) (seq : BitVec 16) (body : List Byte) : List Byte :=
  [BitVec.ofNat 8 type, 2] ++ beBytes (34 + body.length) 2 ++ [BitVec.ofNat 8 (s.trd Reg.TM_CFG_DOMAIN), 0, 0, BitVec.ofNat 8 flags] ++
    beBytes corr.toNat 8 ++ beBytes 0 4 ++ beBytes Config.clockIdentity.toNat 8 ++ beBytes 1 2 ++ beBytes seq.toNat 2 ++
    [BitVec.ofNat 8 ctl, BitVec.ofNat 8 ival] ++ body

/-- The time base as a PTP timestamp. -/
def State.ptpStamp (s : State) : List Byte := beBytes s.time.sec.toNat 6 ++ beBytes s.time.ns 4

/-- A PTP message leaves on the chain: TYPE 3, TSPEC 0. -/
def State.sendPtp (s : State) (dst : BitVec 8) (msg : List Byte) : State :=
  s.sendChain (s.newFrame dst 3 3 0 (List.replicate 6 0) (granulesOf msg))

/-- LOGSYNC as a signed byte. -/
def State.logSync (s : State) : Nat := ((BitVec.ofNat 4 (s.trd Reg.TM_CFG_LOGSYNC)).signExtend 8).toNat

/-- The port identity of the module's one PTP port: its clockIdentity and port number 1. -/
def portIdentity : BitVec 80 := Config.clockIdentity ++ (1#16)

/-- A Delay_Req has left: its sequenceId and when. -/
def State.sentReq (s : State) (from_ : PtpFrom) (seq : BitVec 16) : State :=
  let (t, s) := s.stamp from_
  s.modTime fun x => { x with req := some (seq, t) }

/-- DELAY_REQ_SEND (R341, R344): on the port of the parent, on the chain to address 1; when it left is kept. -/
def execDelayReqSend (s : State) : Host.Outcome State Fault Refusal :=
  done <|
    if !s.ptpUp || s.time.parent.isNone then s
    else
      let (w, s) := s.draw
      let seq := w.setWidth 16
      let msg := s.ptpMessage 1 0 1 0x7F 0 seq s.ptpStamp
      if s.tsrc = 1 then (s.sendPtp 1 msg).sentReq (.chain 1) seq
      else match [Path.a, Path.b].find? fun p => s.tsrc == 0 && s.pathActive p with
        | some p => (s.emit (.ptp p ptpMac (s.nrd p Reg.NET_VLAN_VID) (s.nrd p Reg.NET_VLAN_PCPDATA) 0x88F7 msg)).sentReq (.path p ⟨true, 64, ptpMac, none⟩) seq
        | none => s

/-- DELAY_RESP (R337): the answer to the outstanding Delay_Req completes a measurement of meanPathDelay and offset; any other is not used (R352). -/
def execDelayResp (from_ : PtpFrom) (head : PtpHead) (r : DelayAnswer) (s : State) : Host.Outcome State Fault Refusal :=
  done <| s.hearPtp from_ fun s =>
    match s.time.sync, s.time.req with
    | some (sent, arrived, corr), some (seq, left) =>
      if !s.ptpUsed from_ || !s.fromParent head || !intervalIn (-7) 127 head.logInterval || r.requester != portIdentity || head.seq != seq then
        s.discardPtp
      else
        let delay := (arrived - sent - corr + (ptpTime r.body - left - r.body.correction.toInt)) / 2
        let s := s.wrw tmBase Reg.TM_MPD (BitVec.ofNat 32 (min (2 ^ 32 - 1) (wholeOf (mkRat delay 65536)).toNat))
        (s.modTime fun x => { x with req := none, delay := some delay, moved := false }).measure delay
    | _, _ => s.discardPtp

/-! The best master (R341): the default algorithm of IEEE 1588-2019 (PRESUMED, log entry 144). -/

/-- CLK_FAB cycles of a message interval of 2^k s. -/
def intervalCycles (k : Int) : Nat := if 0 ≤ k then 500000000 * 2 ^ k.toNat else 500000000 / 2 ^ (-k).toNat

/-- The order in which the data sets of two grandmasters are compared. -/
def masterRank (a : Announce) : List Nat :=
  [a.gm.priority1.toNat, a.gm.clockClass.toNat, a.gm.accuracy.toNat, a.gm.variance.toNat, a.gm.priority2.toNat, a.gm.id.toNat]

/-- `a` is better than `b`: by its grandmaster, or by a shorter way to the same one. -/
def betterMaster (a b : Announce) : Bool :=
  if a.gm.id = b.gm.id then decide ([a.steps.toNat, a.head.sender.toNat] < [b.steps.toNat, b.head.sender.toNat]) else decide (masterRank a < masterRank b)

/-- Announces from the sender are still in time: announceReceiptTimeout is 3 intervals (R341). -/
def State.inTime (s : State) (m : MasterSt) : Bool := s.time.cycles - m.heard ≤ 3 * intervalCycles m.a.head.logInterval.toInt

/-- The best of the masters heard. -/
def State.bestMaster (s : State) : Option Announce :=
  (s.time.masters.filter fun m => m.qualified && s.inTime m).foldl
    (fun b m => match b with
      | some a => if betterMaster m.a a then some m.a else some a
      | none => some m.a) none

/-- The parent's data set (R341, R352). -/
def State.takeParent (s : State) (port : Nat) (a : Announce) : State :=
  let s := s.when (s.time.parent != some a.head.sender) fun s => s.modTime fun x => { x with half := none, sync := none, req := none, delay := none, moved := false }
  let s := s.modTime fun x => { x with parent := some a.head.sender, quality := (a.gm.priority1, a.gm.variance, a.gm.priority2) }
  let s := s.twr Reg.TM_STATUS_PORT port
  let s := (s.wrw tmBase Reg.TM_GMID_LO (BitVec.ofNat 32 a.gm.id.toNat)).wrw tmBase Reg.TM_GMID_HI (BitVec.ofNat 32 (a.gm.id.toNat / 2 ^ 32))
  let s := ((s.twr Reg.TM_GMQ_CLASS a.gm.clockClass.toNat).twr Reg.TM_GMQ_ACCURACY a.gm.accuracy.toNat).twr Reg.TM_GMQ_STEPS a.steps.toNat
  ((s.twr Reg.TM_UTC_UTCOFF a.utc.offset.toNat).twr Reg.TM_UTC_UTCVALID a.utc.valid.toNat).twr Reg.TM_UTC_PTPTS a.utc.ptpTimescale.toNat

/-- A master is selected; a change of parent is counted and slewed (R339). -/
def State.selectMaster (s : State) (port : Nat) (a : Announce) : State :=
  let changed := s.time.parent.isSome && s.time.parent != some a.head.sender
  let s := s.takeParent port a
  if changed && s.servoState != svFree then
    let s := s.bump tmBase Reg.TM_CNT_MCHANGES
    if s.servoState == svLocked then s.goServo svSlew else s
  else s

/-- An Announce is kept beside those of the other masters heard; the second within four intervals qualifies its sender. -/
def State.keepMaster (s : State) (a : Announce) : State :=
  let old := s.time.masters.find? fun m => m.a.head.sender == a.head.sender
  let again := old.any fun m => m.qualified || s.time.cycles - m.heard ≤ 4 * intervalCycles a.head.logInterval.toInt
  s.modTime fun x =>
    { x with masters := ((x.masters.filter s.inTime).filter fun m => m.a.head.sender != a.head.sender) ++ [⟨a, x.cycles, again⟩] }

/-- ANNOUNCE (R341, R342, R344): on the ACTIVE path the best master heard becomes the parent; on the chain the module at address 1 is. One that no master
can have sent to this module is not qualified: its own, or 255 steps away. -/
def execAnnounce (from_ : PtpFrom) (head : PtpHead) (gm : Grandmaster) (steps : BitVec 16) (utc : UtcInfo) (s : State) :
    Host.Outcome State Fault Refusal :=
  let a : Announce := ⟨head, gm, steps, utc⟩
  done <| s.hearPtp from_ fun s =>
    if !s.ptpUsed from_ || a.head.domain.toNat != s.trd Reg.TM_CFG_DOMAIN || !intervalIn (-3) 4 a.head.logInterval then s.discardPtp
    else match from_ with
      | .chain _ => s.selectMaster 2 a
      | .path p _ =>
        if a.head.sender = Config.clockIdentity ∨ 255 ≤ a.steps.toNat then s.discardPtp
        else
          let s := s.keepMaster a
          match s.bestMaster with
          | some b => s.selectMaster (pathNum p) b
          | none => s

/-- HOLDOVER_TIMEOUT (R339, R341): no Sync for 4 intervals, or the parent's Announces have ceased, and then the best of the other masters heard is
selected. -/
def execHoldoverTimeout (s : State) : Host.Outcome State Fault Refusal :=
  done <|
    let s := if s.servoState == svSlew || s.servoState == svLocked then s.holdOver else s
    match s.ptpUp && s.tsrc == 0, s.bestMaster, [Path.a, Path.b].find? s.pathActive with
    | true, some a, some p => s.selectMaster (pathNum p) a
    | _, _, _ => s

/-- The SRC in force changes at a boundary (R339, R349). -/
def State.srcChanged (s : State) (old : Nat) : State :=
  let s := s.when (s.tsrc != old) fun s => s.modTime fun x => { x with masters := [], half := none, sync := none, req := none, delay := none, moved := false }
  if s.tsrc = 2 ∧ old ≠ 2 then
    ((s.goServo svFree).twr Reg.TM_STATUS_PORT 3).modTime fun x => { x with parent := none, prevOffset := none }
  else s

/-- FOLLOWER_COMPARE (R334): each region's follower has moved by `drift` ns against the master counter. One that differs by more than 4 ns is reloaded at the
next compare; the fourth consecutive compare that finds one off is a region fault. -/
def execFollowerCompare (drift : List (BitVec 16)) (s : State) : Host.Outcome State Fault Refusal :=
  done <|
    let reload (r : Nat) : Bool := s.time.reloads.getD r 0 != 0
    let diff (r : Nat) : Int := s.time.followers.getD r 0 + (drift.getD r 0).toInt
    let s := s.bumpBy tmBase Reg.TM_CNT2_FOLLOWERR ((List.range 5).filter reload).length
    let runs := (List.range 5).map fun r => if 4 < (diff r).natAbs then s.time.reloads.getD r 0 + 1 else 0
    let s := s.modTime fun x => { x with followers := (List.range 5).map fun r => if reload r then 0 else diff r, reloads := runs }
    ((List.range 5).filter fun r => runs.getD r 0 == 4).foldl State.regionFault s

/-! The chain time master (R343). -/

/-- CHAIN_SYNC_SEND: a one-step Sync stamped from the own time base. -/
def execChainSyncSend (s : State) : Host.Outcome State Fault Refusal :=
  done <|
    if s.ptpUp && s.chainMaster then
      let (w, s) := s.draw
      s.sendPtp 0x7F (s.ptpMessage 0 0 0 s.logSync 0 (w.setWidth 16) s.ptpStamp)
    else s

/-- The grandmaster fields that the chain time master announces: those of its parent with stepsRemoved + 1; with SRC 2 the own clock, class 248. -/
def State.announced (s : State) : BitVec 64 × Nat × Nat :=
  if s.tsrc = 2 then (Config.clockIdentity, 248, 0)
  else (s.rdw tmBase Reg.TM_GMID_HI ++ s.rdw tmBase Reg.TM_GMID_LO, s.trd Reg.TM_GMQ_CLASS, (s.trd Reg.TM_GMQ_STEPS + 1) % 65536)

/-- The flags and the UTC offset of an Announce: the parent's; with SRC 2 the own clock has none. -/
def State.announcedUtc (s : State) : Nat × Nat :=
  if s.tsrc = 2 then (0, 0)
  else (4 * s.trd Reg.TM_UTC_UTCVALID + 8 * s.trd Reg.TM_UTC_PTPTS, s.trd Reg.TM_UTC_UTCOFF)

/-- CHAIN_ANNOUNCE_SEND: with SRC 2 the priorities, accuracy and variance of the own clock are free (R343). -/
def execChainAnnounceSend (s : State) : Host.Outcome State Fault Refusal :=
  done <|
    if s.ptpUp && s.chainMaster then
      let (gm, cls, steps) := s.announced
      let (flags, utc) := s.announcedUtc
      let (w, s) := s.draw
      let (v, s) := s.draw
      let acc : Byte := if s.tsrc = 2 then (v.extractLsb' 24 8) else BitVec.ofNat 8 (s.trd Reg.TM_GMQ_ACCURACY)
      let q := if s.tsrc = 2 then (w.extractLsb' 0 8, w.extractLsb' 16 16, w.extractLsb' 8 8) else s.time.quality
      let body := s.ptpStamp ++ beBytes utc 2 ++ [0, q.1, BitVec.ofNat 8 cls, acc] ++ beBytes q.2.1.toNat 2 ++ [q.2.2] ++ beBytes gm.toNat 8 ++
        beBytes steps 2 ++ [v.extractLsb' 16 8]
      s.sendPtp 0x7F (s.ptpMessage 11 flags 5 0 0 (v.extractLsb' 0 16) body)
    else s

/-- CHAIN_DELAY_REQ: answered by the chain time master, otherwise not used. The answer names the request by its sequenceId, its port identity and its
correctionField. -/
def execChainDelayReq (r : DelayReq) (s : State) : Host.Outcome State Fault Refusal :=
  done <|
    if !s.ptpUp then s
    else if s.chainMaster then s.sendPtp r.src (s.ptpMessage 9 0 3 s.logSync r.correction r.seq (s.ptpStamp ++ beBytes r.requester.toNat 10))
    else s.discardPtp

/-! TM.SET (R350). -/

/-- The decision on TM.SET written whole in one transaction. -/
def decideTmSet (p : Port) (ns slo shi : Nat) (s : State) : Code × State :=
  let t : Nat := (slo + shi % 65536 * 2 ^ 32) * 1000000000 + ns
  let d : Int := (t : Int) - s.nowNs
  if p ≠ .service then (E_ACCESS, s)
  else if 1000000000 ≤ ns then (E_RANGE, s)
  else if s.mst = stPfail ∨ s.servoState = svSlew ∨ s.servoState = svLocked then (E_STATE, s)
  else if d < -1000000000 ∧ s.mstIn [stRun, stService] then (E_STATE, s)
  else if 65536 ≤ shi then (E_RANGE, s)
  else if d.natAbs ≤ 1000000 then
    (E_OK, (s.twr Reg.TM_STATUS_TIMEVALID 1).modTime fun x => { x with slew := ((t * 2 ^ 32 : Nat) : Int) - s.now32 })
  else (E_OK, (s.stepTime t).twr Reg.TM_STATUS_TIMEVALID 1)

/-- TM_SET (R350). -/
def execTmSet (p : Port) (ns slo shi : Word) (s : State) : Host.Outcome State Fault Refusal :=
  command p (decideTmSet p ns.toNat slo.toNat shi.toNat) s

end Sys2Proof.Machine
end

