-- ==== Sys2Proof/Machine/Can.lean ====
section
/-! DEFINITION. CAN FD ports (13): controller states, transmit buffers and export frames, receive mailboxes. -/

namespace Sys2Proof.Machine

/-! Controller states (R357). -/

def ceOff : Nat := 0
def ceIntegrating : Nat := 1
def ceActive : Nat := 2
def cePassive : Nat := 3
def ceBusOff : Nat := 4

def State.crd (s : State) (c : Fin 2) (f : Field) : Nat := s.rd (canBase c.val) f
def State.cwr (s : State) (c : Fin 2) (f : Field) (v : Nat) : State := s.wr (canBase c.val) f v
def State.cflag (s : State) (c : Fin 2) (f : Field) : Bool := s.flag (canBase c.val) f
def State.cbump (s : State) (c : Fin 2) (f : Field) : State := s.bump (canBase c.val) f

def State.canState (s : State) (c : Fin 2) : Nat := s.crd c Reg.CAN_STATUS_ESTATE
/-- The controller takes part in the bus traffic. -/
def State.canLive (s : State) (c : Fin 2) : Bool := s.canState c == ceActive || s.canState c == cePassive
/-- Bus monitoring (R353). -/
def State.canMonitor (s : State) (c : Fin 2) : Bool := s.crd c Reg.CAN_CFG_OPMODE == 1

/-- Buffer states (R371). -/
def bsIdle : Nat := 0
def bsPending : Nat := 1
def bsActive : Nat := 2
def bsDone : Nat := 3
def bsCancelled : Nat := 4
def bsAborted : Nat := 5
def bsNoack : Nat := 6

def bufField (b : Nat) : Field := ⟨Reg.CAN_TXB_STAT_ST0.off, 3 * b, 3, .ro⟩
def cxlField (b : Nat) : Field := ⟨Reg.CAN_TXB_STAT_ST0.off, 9 + b, 1, .ro⟩
def State.bufSt (s : State) (c : Fin 2) (b : Nat) : Nat := s.crd c (bufField b)
def State.setBuf (s : State) (c : Fin 2) (b n : Nat) : State := s.cwr c (bufField b) n
def State.cxl (s : State) (c : Fin 2) (b : Nat) : Bool := s.cflag c (cxlField b)
def State.setCxl (s : State) (c : Fin 2) (b : Nat) (v : Bool) : State := s.cwr c (cxlField b) v.toNat
def State.buf (s : State) (c : Fin 2) (b : Nat) : TxBuf := (s.can c).bufs.getD b TxBuf.init
def State.modBuf (s : State) (c : Fin 2) (b : Nat) (f : TxBuf → TxBuf) : State :=
  s.modCan c fun x => { x with bufs := x.bufs.set b (f (x.bufs.getD b TxBuf.init)) }

/-- The frame in progress is cut off: an ACTIVE buffer becomes PENDING; a cancel stays until the outcome of an attempt (R357, R363). -/
def State.cutOff (s : State) (c : Fin 2) : State :=
  let s := match (s.can c).onBus with
    | some (.inl b) => s.setBuf c b bsPending
    | _ => s
  s.modCan c fun x => { x with onBus := none }

/-- A controller goes OFF (R357). -/
def State.canOff (s : State) (c : Fin 2) : State :=
  if s.canState c = ceOff then s
  else ((s.cutOff c).modCan c fun x => { x with queue := [], recovering := false }).cwr c Reg.CAN_STATUS_ESTATE ceOff

/-- Counters cleared (R357). -/
def State.clearErrs (s : State) (c : Fin 2) : State :=
  (s.setReg (canBase c.val + Reg.CAN_ECNT_TEC.off) 0).cwr c Reg.CAN_STATUS_ACKERRS 0

/-- A write of CFG, NBT, DBT or TDC has taken effect (R357, R370). -/
def State.canReconf (s : State) (c : Fin 2) : State :=
  if !s.cflag c Reg.CAN_CFG_EN then s.canOff c
  else if s.canState c = ceOff then s
  else ((s.clearErrs c).modCan c fun x => { x with queue := [], recovering := false }).cwr c Reg.CAN_STATUS_ESTATE ceIntegrating

/-- CAN_INTEGRATION (R357). -/
def execCanIntegration (c : Fin 2) (s : State) : Host.Outcome State Fault Refusal :=
  done <| if s.canState c = ceIntegrating then s.cwr c Reg.CAN_STATUS_ESTATE ceActive else s

/-- The error counters as the controller holds them (R358, R371). -/
def State.setTec (s : State) (c : Fin 2) (tec : Nat) : State := s.cwr c Reg.CAN_ECNT_TEC tec
def State.setRec (s : State) (c : Fin 2) (rec_ : Nat) : State :=
  (s.cwr c Reg.CAN_ECNT_REC (min 127 rec_)).cwr c Reg.CAN_ECNT_RP (decide (127 < rec_)).toNat

/-- The state that the error counters give a controller on the bus (R357). -/
def State.confine (s : State) (c : Fin 2) : State :=
  if !s.canLive c then s
  else if 255 < s.crd c Reg.CAN_ECNT_TEC then
    (((s.cutOff c).modCan c fun x => { x with queue := [] }).cbump c Reg.CAN_CNT_BUSOFFS).cwr c Reg.CAN_STATUS_ESTATE ceBusOff
  else if 127 < s.crd c Reg.CAN_ECNT_TEC ∨ s.cflag c Reg.CAN_ECNT_RP then s.cwr c Reg.CAN_STATUS_ESTATE cePassive
  else s.cwr c Reg.CAN_STATUS_ESTATE ceActive

/-- TEC rises (R358); it is 9 bits wide. -/
def State.raiseTec (s : State) (c : Fin 2) (n : Nat) : State := s.setTec c (min 511 (s.crd c Reg.CAN_ECNT_TEC + n))

/-- REC rises (R358); beyond 127 RP alone is kept of it (R371). -/
def State.raiseRec (s : State) (c : Fin 2) (n : Nat) : State :=
  s.setRec c (if s.cflag c Reg.CAN_ECNT_RP then 128 else s.crd c Reg.CAN_ECNT_REC + n)

/-- CAN_ERROR_STATE_CHANGE (R357, R358): dominant bits after an error or overload flag raise the counters, and the state follows them. -/
def execCanErrorStateChange (c : Fin 2) (tx rx : BitVec 5) (s : State) : Host.Outcome State Fault Refusal :=
  done <| if s.canLive c then ((s.raiseTec c (8 * tx.toNat)).raiseRec c (8 * rx.toNat)).confine c else s

/-- BUS_OFF_RECOVERY (R357). -/
def execBusOffRecovery (c : Fin 2) (s : State) : Host.Outcome State Fault Refusal :=
  done <|
    if s.canState c = ceBusOff ∧ (s.cflag c Reg.CAN_CFG_BOAUTO ∨ (s.can c).recovering) then
      ((s.setReg (canBase c.val + Reg.CAN_ECNT_TEC.off) 0).modCan c fun x => { x with recovering := false }).cwr c Reg.CAN_STATUS_ESTATE ceActive
    else s

/-- CANn.CTRL:RECOVER (R371). -/
def decideCanRecover (c : Fin 2) (s : State) : Code × State :=
  if s.canState c = ceBusOff then (E_OK, s.modCan c fun x => { x with recovering := true }) else (E_STATE, s)

/-- CAN_RECOVER. -/
def execCanRecover (p : Port) (c : Fin 2) (s : State) : Host.Outcome State Fault Refusal := command p (decideCanRecover c) s

/-! Reception (R354, R364, R366, R367). -/

/-- Bytes of a data length code (R353). -/
def dlcBytes (fdf : Bool) (dlc : Nat) : Nat :=
  if dlc ≤ 8 then dlc
  else if !fdf then 8
  else match dlc with
    | 9 => 12
    | 10 => 16
    | 11 => 20
    | 12 => 24
    | 13 => 32
    | 14 => 48
    | _ => 64

/-- The smallest data length code that covers a number of bytes. -/
def dlcFor (n : Nat) : Nat := ((List.range 16).find? fun d => n ≤ dlcBytes true d).getD 15

/-- The data bytes of a frame. -/
def frameData (f : CanFrame) : List Byte := f.data.take (dlcBytes f.fdf f.dlc.toNat)

/-! Mailbox payload (R365). -/
def mbIde (r : Record) : Bool := recByte r 0 % 2 == 1
def mbFdmode (r : Record) : Nat := recByte r 0 / 2 % 4
def mbRaw (r : Record) : Bool := recByte r 0 / 8 % 2 == 1
def mbTimeout (r : Record) : Nat := recU16 r 2
def mbFid (r : Record) : Nat := recU32 r 4
def mbFmask (r : Record) : Nat := recU32 r 8

/-- A mailbox takes a frame (R366). -/
def mbMatches (r : Record) (f : CanFrame) : Bool :=
  f.ide == mbIde r && (f.id.toNat &&& mbFmask r) == (mbFid r &&& mbFmask r) &&
    (mbFdmode r == 2 || (mbFdmode r == 1) == f.fdf)

/-- The mailboxes of a controller (R17). -/
def mailboxesOf (c : Fin 2) : List Nat := (List.range 16).map (· + 16 * c.val)

/-- A frame enters the mailbox (R366, R367, R372). -/
def State.putMailbox (s : State) (m : Nat) (f : CanFrame) (sec ns : BitVec 32) : State :=
  let b := cellBase (mbId m)
  let s := s.when (s.flag b Reg.MBX_META_NEW) fun s => s.bump b Reg.MBX_CNT_LOST
  let s := (((s.wr b Reg.MBX_INFO_ID f.id.toNat).wr b Reg.MBX_INFO_IDE f.ide.toNat).wr b Reg.MBX_INFO_FDF f.fdf.toNat).wr b Reg.MBX_INFO_BRS f.brs.toNat
  let s := ((s.wr b Reg.MBX_META_DLC f.dlc.toNat).wr b Reg.MBX_META_ESI f.esi.toNat).wr b Reg.MBX_META_NEW 1
  let s := (s.wrw b Reg.MBX_TS_NS ns).wrw b Reg.MBX_TS_SLO sec
  (List.range 16).foldl (fun s k =>
    s.setReg (b + Reg.MBX_DATA0.off + 4 * k) (BitVec.ofNat 32 (leNat (((frameData f).drop (4 * k)).take 4)))) s

/-- A frame is stored in a mailbox, or in its shadow while it is locked (R367). Publication takes the newest in either case. -/
def State.storeMailbox (s : State) (m : Nat) (locked : Bool) (f : CanFrame) : State :=
  let b := cellBase (mbId m)
  let sec := BitVec.ofNat 32 s.time.sec.toNat
  let ns := BitVec.ofNat 32 s.time.ns
  let s := (s.bump b Reg.MBX_CNT_FRAMES).modMb m fun x => { x with newest := some f, fresh := true, heard := true, silent := 0, timedOut := false }
  if locked then
    let s := s.when (s.mb m).shadow.isSome fun s => s.bump b Reg.MBX_CNT_LOST
    (s.modMb m fun x => { x with shadow := some (f, sec, ns) }).wr b Reg.MBX_META_SHADOW 1
  else s.putMailbox m f sec ns

/-- A valid reception ends ALONE and the count of acknowledgement errors (R364), and lowers REC (R358). -/
def State.goodReception (s : State) (c : Fin 2) : State :=
  let s := (s.cwr c Reg.CAN_STATUS_ALONE 0).cwr c Reg.CAN_STATUS_ACKERRS 0
  if s.cflag c Reg.CAN_ECNT_RP then
    let (w, s) := s.draw
    (s.setRec c (119 + w.toNat % 9)).confine c
  else s.setRec c (s.crd c Reg.CAN_ECNT_REC - 1)

/-- A data frame that is valid on the bus (R366); `locked` is the mailbox that a read holds. -/
def State.takeFrameCan (s : State) (c : Fin 2) (locked : Option Nat) (f : CanFrame) : State :=
  if !s.canLive c then s
  else if f.fdf && !s.cflag c Reg.CAN_CFG_FDEN then
    (((s.cwr c Reg.CAN_STATUS_LEC 2).raiseRec c 1).confine c).when (!s.canMonitor c) fun s => s.emit (.canError c)
  else
    let s := s.goodReception c
    match (mailboxesOf c).find? fun m => s.exists_ (mbId m) && mbMatches (s.cfg (mbId m) 0) f with
    | some m => s.storeMailbox m (locked == some m) f
    | none => s.cbump c Reg.CAN_CNT2_NOMATCH

/-- CAN_FRAME_RECEIVE (R366). -/
def execCanFrameReceive (c : Fin 2) (f : CanFrame) (s : State) : Host.Outcome State Fault Refusal := done (s.takeFrameCan c none f)

/-- REMOTE_FRAME (R354): acknowledged as a valid frame, and taken by no mailbox. -/
def execRemoteFrame (c : Fin 2) (s : State) : Host.Outcome State Fault Refusal :=
  done <| if s.canLive c then (s.goodReception c).cbump c Reg.CAN_CNT2_NOMATCH else s

def lecCode : CanFail → Option Nat
  | .arbitration => none
  | .stuff => some 1
  | .form => some 2
  | .ack => some 3
  | .bit1 => some 4
  | .bit0 => some 5
  | .crc => some 6

def State.setLec (s : State) (c : Fin 2) (e : CanFail) : State :=
  match lecCode e with
  | some n => s.cwr c Reg.CAN_STATUS_LEC n
  | none => s

/-- CAN_RECEIVE_ERROR (R354, R358): REC rises by 1, and by 8 for each error of the flag; an error frame is sent, except in bus monitoring (R357). -/
def execCanReceiveError (c : Fin 2) (e : CanFail) (more : BitVec 5) (s : State) : Host.Outcome State Fault Refusal :=
  done <|
    if s.canLive c then
      (((s.setLec c e).raiseRec c (1 + 8 * more.toNat)).confine c).when (!s.canMonitor c) fun s => s.emit (.canError c)
    else s

/-- The registers INFO to DATA15 of a mailbox. -/
def State.mailboxWords (s : State) (m : Nat) : List Word :=
  (List.range 20).map fun k => s.reg (cellBase (mbId m) + 0x20 + 4 * k)

/-- The end of a read that locked the mailbox (R367): META was read, and a shadow frame moves in. -/
def State.unlockMailbox (s : State) (m : Nat) : State :=
  let b := cellBase (mbId m)
  match (s.mb m).shadow with
  | some (f, sec, ns) => ((s.wr b Reg.MBX_META_SHADOW 0).modMb m fun x => { x with shadow := none }).putMailbox m f sec ns
  | none => s

/-- MAILBOX_READ (R367): a read of INFO to DATA15; `during` are the frames that become valid on the controller during the lock. -/
def execMailboxRead (p : Port) (m : Fin 32) (during : List CanFrame) (s : State) : Host.Outcome State Fault Refusal :=
  command p (fun s =>
    let n := m.val
    let c : Fin 2 := if n < 16 then 0 else 1
    let words := s.mailboxWords n
    let s := s.wr (cellBase (mbId n)) Reg.MBX_META_NEW 0
    let s := (during.foldl (fun s f => s.takeFrameCan c (some n) f) s).unlockMailbox n
    (E_OK, s.emit (.read p words))) s

/-! Publication of mailboxes (R368). -/

/-- The word of a port by the rows of R368, and whether a frame refreshed it, which the last row alone does (R237). -/
def State.mbxWord (s : State) (m port : Nat) (last : SigWord) : SigWord × Bool :=
  let r := s.cfg (mbId m) 0
  let c : Fin 2 := if m < 16 then 0 else 1
  let x := s.mb m
  if !s.canLive c || x.timedOut || mbTimeout r ≤ x.silent then (⟨last.val, Q_BAD_COMM, FL_IMPORT, olderBy last 1⟩, false)
  else if !x.fresh then (last.aged, false)
  else match x.newest with
    | none => (last.aged, false)
    | some f =>
      let bytes := ((frameData f).drop (4 * port)).take 4
      let w := BitVec.ofNat 32 (leNat bytes)
      if bytes.length < 4 then (⟨last.val, Q_BAD_CONFIG, FL_IMPORT, 0⟩, false)
      else if !mbRaw r && !f32Finite w then (⟨last.val, Q_BAD_COMM, FL_IMPORT, 0⟩, false)
      else (⟨w, Q_GOOD, FL_IMPORT, 0⟩, true)

/-- A boundary for one mailbox: publication where it is due (R368). -/
def State.publishMailbox (s : State) (m : Nat) : State :=
  let id := mbId m
  let s := s.modMb m fun x => { x with silent := if x.heard then 0 else x.silent + 1, heard := false }
  if !s.dueClosing id || s.cst id == csFault || s.cst id == csOff then
    (s.produced id).foldl (fun s r => s.setSig (sigId r) (s.sig (sigId r)).aged) s
  else
    let q := (s.mbxWord m 0 ⟨0, BitVec.ofNat 4 (s.rd (cellBase id) Reg.CELL_STATE_QUAL), 0, 0⟩).1.qual
    let s' := (s.produced id).foldl (fun t r =>
      let w := s.mbxWord m (sigPort r) (s.sig (sigId r))
      let t := t.setSig (sigId r) w.1
      t.when w.2 fun t => t.modFab fun f => { f with freshAt := Store.set none f.freshAt (sigId r) (some f.boundaries) }) s
    let s' := (s'.wr (cellBase id) Reg.CELL_STATE_QUAL q.toNat).modMb m fun x => { x with fresh := false }
    (s'.evalEnd id false).startToRun id

/-- MAILBOX_TIMEOUT (R368): the stroke that completes TIMEOUT without a frame ends; the mailbox publishes so at its next due boundary. -/
def execMailboxTimeout (m : Fin 32) (s : State) : Host.Outcome State Fault Refusal :=
  done <|
    let x := s.mb m.val
    if s.exists_ (mbId m.val) && !x.timedOut && !x.heard && mbTimeout (s.cfg (mbId m.val) 0) ≤ x.silent + 1 then
      s.modMb m.val fun x => { x with timedOut := true }
    else s

/-! Transmission (R359–R364). -/

/-- A candidate: its identifier as arbitration sees it, base identifier first, base frames before extended ones. -/
def arbKey (id : Nat) (ide : Bool) : Nat :=
  if ide then id / 2 ^ 18 % 2 ^ 11 * 2 ^ 19 + 2 ^ 18 + id % 2 ^ 18 else id % 2 ^ 11 * 2 ^ 19

def bufIde (b : TxBuf) : Bool := getField b.id 29 1 == 1
def bufFdf (b : TxBuf) : Bool := getField b.id 30 1 == 1
def bufBrs (b : TxBuf) : Bool := getField b.id 31 1 == 1
def bufId (b : TxBuf) : Nat := getField b.id 0 29

/-- The head of the export queue: frames are ordered by identifier (R361). -/
def State.exportHead (s : State) (c : Fin 2) : Option Export :=
  (s.can c).queue.foldl (fun best e =>
    match best with
    | some b => if arbKey e.id.toNat e.ide < arbKey b.id.toNat b.ide then some e else best
    | none => some e) none

/-- The candidate that a controller selects (R361). -/
def State.candidate (s : State) (c : Fin 2) : Option (Nat ⊕ Export) :=
  let bufs := (List.range 3).filter fun b => s.bufSt c b == bsPending
  let head := s.exportHead c
  if s.cflag c Reg.CAN_CFG_TXORD then
    match head with
    | some e => some (.inr e)
    | none => bufs.head?.map .inl
  else
    let best := bufs.foldl (fun best b =>
      match best with
      | some x => if arbKey (bufId (s.buf c b)) (bufIde (s.buf c b)) < arbKey (bufId (s.buf c x)) (bufIde (s.buf c x)) then some b else best
      | none => some b) none
    match head, best with
    | some e, some b =>
      if arbKey e.id.toNat e.ide ≤ arbKey (bufId (s.buf c b)) (bufIde (s.buf c b)) then some (.inr e) else some (.inl b)
    | some e, none => some (.inr e)
    | none, some b => some (.inl b)
    | none, none => none

/-- The data bytes of a buffer. -/
def bufData (b : TxBuf) : List Byte := (b.data.flatMap fun w => leList w.toNat 4).take (dlcBytes (bufFdf b) b.dlc)

/-- ESI is sent recessive in the FD frames of an error-passive controller (R353, R357). -/
def State.sendsEsi (s : State) (c : Fin 2) (fdf : Bool) : Bool := fdf && s.canState c == cePassive

/-- CAN_FRAME_START (R361, R363). -/
def execCanFrameStart (c : Fin 2) (s : State) : Host.Outcome State Fault Refusal :=
  done <|
    if !s.canLive c || s.canMonitor c || (s.can c).onBus.isSome then s
    else match s.candidate c with
      | some (.inl b) =>
        let x := s.buf c b
        ((s.setBuf c b bsActive).modCan c fun y => { y with onBus := some (.inl b) }).emit
          (.canFrame c (BitVec.ofNat 29 (bufId x)) (bufIde x) (bufFdf x) (bufBrs x) (s.sendsEsi c (bufFdf x)) x.dlc (bufData x))
      | some (.inr e) =>
        (s.modCan c fun y => { y with onBus := some (.inr e), queue := y.queue.erase e }).emit
          (.canFrame c e.id e.ide e.fdf e.brs (s.sendsEsi c e.fdf) (dlcFor e.data.length) e.data)
      | none => s

/-- The frame on the bus has a data phase of its own rate. -/
def State.ratesSwitch (s : State) (c : Fin 2) : Nat ⊕ Export → Bool
  | .inl b => bufFdf (s.buf c b) && bufBrs (s.buf c b)
  | .inr e => e.fdf && e.brs

/-- With TDCEN, a sent frame with a data phase measures the transceiver loop delay at its FDF-to-res edge; what it measures is a free value (R356). -/
def State.measureDelay (s : State) (c : Fin 2) (dataPhase : Bool) : State :=
  if dataPhase && s.cflag c Reg.CAN_TDC_TDCEN then
    let (w, s) := s.draw
    s.cwr c Reg.CAN_STATUS_TDCV (w.toNat % 128)
  else s

/-- CAN_TX_DONE (R363, R364): the frame was acknowledged; TEC falls by one (R358). -/
def execCanTxDone (c : Fin 2) (s : State) : Host.Outcome State Fault Refusal :=
  done <|
    match (s.can c).onBus with
    | none => s
    | some x =>
      let s := s.measureDelay c (s.ratesSwitch c x)
      let s := match x with
        | .inl b => (s.setBuf c b bsDone).setCxl c b false
        | .inr _ => s
      let s := (s.cwr c Reg.CAN_STATUS_ALONE 0).cwr c Reg.CAN_STATUS_ACKERRS 0
      ((s.setTec c (s.crd c Reg.CAN_ECNT_TEC - 1)).modCan c fun y => { y with onBus := none }).confine c

/-- An export instance of a frame is queued. -/
def sameFrame (a b : Export) : Bool := a.id == b.id && a.ide == b.ide

/-- By how much an attempt that fails raises TEC (R358): a lost arbitration does not, nor an acknowledgement error of an error-passive transmitter, nor a
stuff error during arbitration; an acknowledgement error that is seen alone raises it by 8, any other error by 8 and by 8 for each error of its flag. -/
def State.tecRise (s : State) (c : Fin 2) (e : CanFail) (phase : TxPhase) (more : Nat) : Nat :=
  match e with
  | .arbitration => 0
  | .ack => if s.canState c = cePassive then 0 else 8
  | .stuff => if phase = .arbitration then 0 else 8 + 8 * more
  | _ => 8 + 8 * more

/-- CAN_TX_ERROR (R356, R358, R361, R363, R364): the attempt in progress loses arbitration or meets an error. -/
def execCanTxError (c : Fin 2) (e : CanFail) (at_ : TxErrorAt) (s : State) : Host.Outcome State Fault Refusal :=
  done <|
    match (s.can c).onBus with
    | none => s
    | some x =>
      let after := e == .ack || e == .crc || (at_.phase == .after && e != .arbitration)
      let s := (s.setLec c e).measureDelay c (after && s.ratesSwitch c x)
      let s := s.raiseTec c (s.tecRise c e at_.phase at_.more.toNat)
      let s := s.when (e != .arbitration) fun s => s.emit (.canError c)
      let acks := min 255 (s.crd c Reg.CAN_STATUS_ACKERRS + 1)
      let lim := s.crd c Reg.CAN_CFG_ALONELIM
      let alone := e == .ack && lim != 0 && lim ≤ acks
      let s := s.when (e == .ack) fun s => s.cwr c Reg.CAN_STATUS_ACKERRS (if alone then 0 else acks)
      let s := s.when alone fun s => (s.cwr c Reg.CAN_STATUS_ALONE 1).cbump c Reg.CAN_CNT_ALONES
      let s := s.modCan c fun y => { y with onBus := none }
      let s := match x with
        | .inl b =>
          if s.cxl c b then (s.setBuf c b bsAborted).setCxl c b false
          else s.setBuf c b (if alone then bsNoack else bsPending)
        | .inr ex =>
          if alone || ((s.can c).queue.any fun q => sameFrame q ex) then s.cbump c Reg.CAN_CNT2_XSKIP
          else s.modCan c fun y => { y with queue := y.queue ++ [ex] }
      s.confine c

/-- The buffer that TXSEL names. -/
def State.txsel (s : State) (c : Fin 2) : Nat := s.crd c Reg.CAN_CTRL_TXSEL

/-- A buffer is loaded only outside PENDING and ACTIVE (R362). -/
def State.bufBusy (s : State) (c : Fin 2) : Bool := s.bufSt c (s.txsel c) == bsPending || s.bufSt c (s.txsel c) == bsActive

/-- A REQ with a data length code (R362). -/
def decideTxReq (c : Fin 2) (dlc : Nat) (s : State) : Code × State :=
  let b := s.txsel c
  let x := s.buf c b
  if !s.mstIn [stReady, stRun, stSafe, stService] || !s.cflag c Reg.CAN_CFG_EN || s.canMonitor c then (E_STATE, s)
  else if s.bufBusy c then (E_BUSY, s)
  else if (!bufIde x && 0x7FF < bufId x) || (bufBrs x && !bufFdf x) || (8 < dlc && !bufFdf x) then (E_RANGE, s)
  else if bufFdf x && !s.cflag c Reg.CAN_CFG_FDEN then (E_STATE, s)
  else (E_OK, (s.modBuf c b fun x => { x with dlc := dlc }).setBuf c b bsPending)

/-- A CANCEL (R363). -/
def decideTxCancel (c : Fin 2) (s : State) : Code × State :=
  let b := s.txsel c
  if s.bufSt c b = bsPending then (E_OK, s.setBuf c b bsCancelled)
  else if s.bufSt c b = bsActive then (E_OK, s.setCxl c b true)
  else (E_STATE, s)

/-- A write of CANn.TXB.CMD (R362, R363). With CANCEL the DLC field is not taken. -/
def decideTxCmd (c : Fin 2) (w : Word) (s : State) : Code × State :=
  let req := getField w 0 1 == 1
  let cancel := getField w 1 1 == 1
  let dlc := getField w 2 4
  if req && cancel then (E_RANGE, s)
  else if req then decideTxReq c dlc s
  else if cancel then decideTxCancel c s
  else if s.bufBusy c then (E_BUSY, s)
  else (E_OK, s.modBuf c (s.txsel c) fun x => { x with dlc := dlc })

/-- TX_REQUEST (R362): the buffer as loaded. -/
def execTxRequest (p : Port) (c : Fin 2) (s : State) : Host.Outcome State Fault Refusal :=
  command p (fun s => decideTxReq c (s.buf c (s.txsel c)).dlc s) s

/-- TX_CANCEL (R363). -/
def execTxCancel (p : Port) (c : Fin 2) (s : State) : Host.Outcome State Fault Refusal := command p (decideTxCancel c) s

/-! Transceiver supply (R357, R369). -/

/-- TRANSCEIVER_SUPPLY_FAULT: the controller goes OFF, and its mailboxes are isolated while it lasts. -/
def execTransceiverSupplyFault (c : Fin 2) (s : State) : Host.Outcome State Fault Refusal :=
  done <|
    let s := (s.canOff c).modCan c fun x => { x with supplyOk := false }
    ((mailboxesOf c).filter fun m => s.exists_ (mbId m)).foldl (fun s m => s.isolateCell (mbId m) true) s

/-- TRANSCEIVER_SUPPLY_GOOD: the controller leaves OFF, and the isolating cause of its mailboxes is absent. -/
def execTransceiverSupplyGood (c : Fin 2) (s : State) : Host.Outcome State Fault Refusal :=
  done <|
    let s := s.modCan c fun x => { x with supplyOk := true }
    ((mailboxesOf c).filter fun m => s.exists_ (mbId m)).foldl
      (fun s m => s.modCell (mbId m) fun x => { x with cause := false, absent := 0 }) s

/-! Export frames (R359, R360, R369). -/

/-! CAN placement in the SIGNAL payload. -/
def xfCtrl (r : Record) : Nat := recByte r 10 % 2
def xfIde (r : Record) : Bool := recByte r 10 / 2 % 2 == 1
def xfFdf (r : Record) : Bool := recByte r 10 / 4 % 2 == 1
def xfBrs (r : Record) : Bool := recByte r 10 / 8 % 2 == 1
def xfOfs (r : Record) : Nat := recByte r 11
def xfId (r : Record) : Nat := recU32 r 12
def xfDiv (r : Record) : Nat := recU16 r 16

/-- The signals that an image places on CAN. -/
def canSignals (img : List Record) (c : Nat) : List Record :=
  (signalsOf img).filter fun r => sigExport r / 4 % 2 == 1 && xfCtrl r == c

/-- The export frames of a controller: identifier key and signals. -/
def canFrames (img : List Record) (c : Nat) : List (Nat × List Record) :=
  let sigs := canSignals img c
  ((sigs.map fun r => arbKey (xfId r) (xfIde r)).eraseDups).map fun k => (k, sigs.filter fun r => arbKey (xfId r) (xfIde r) == k)

/-- A frame's data from the published words (R359). -/
def State.xfData (s : State) (sigs : List Record) : List Byte :=
  let top := (sigs.map xfOfs).foldl max 0 + 4
  let n := dlcBytes true (dlcFor top)
  (List.range n).map fun i =>
    match sigs.find? fun r => xfOfs r ≤ i && i < xfOfs r + 4 with
    | some r => BitVec.ofNat 8 ((s.sig (sigId r)).val.toNat / 256 ^ (i - xfOfs r))
    | none => 0

/-- One due instance of a frame (R360). -/
def State.exportFrame (s : State) (c : Fin 2) (sigs : List Record) : State :=
  match sigs with
  | [] => s
  | r :: _ =>
    if s.strokeNo % max 1 (xfDiv r) ≠ 0 then s
    else if !s.dutyUp 3 || !s.canLive c || (sigs.any fun r => qualBad (s.sig (sigId r)).qual) then s.cbump c Reg.CAN_CNT2_XSKIP
    else
      let e : Export := ⟨BitVec.ofNat 29 (xfId r), xfIde r, xfFdf r, xfBrs r, s.xfData sigs⟩
      let old := (s.can c).queue.any fun q => sameFrame q e
      (s.when old fun s => s.cbump c Reg.CAN_CNT2_XSKIP).modCan c fun x => { x with queue := (x.queue.filter fun q => !sameFrame q e) ++ [e] }

/-- EXPORT_FRAME_BUILD at a boundary (R360). -/
def State.exportCan (s : State) : State :=
  if s.mstIn [stRun, stSafe, stService] then
    ([0, 1] : List (Fin 2)).foldl (fun s c => (canFrames s.img.active c.val).foldl (fun s f => s.exportFrame c f.2) s) s
  else s

/-- A mailbox of a controller whose transceiver has no supply (R369). -/
def State.mbxUnsupplied (s : State) (id : Nat) : Bool := kindOf id == some .mbx && !(s.can (if cellNum id < 16 then 0 else 1)).supplyOk

/-- A commit discards the queued instances of the export frames it changes or removes (R369). -/
def State.commitCan (s : State) (old : List Record) : State :=
  ([0, 1] : List (Fin 2)).foldl (fun s c =>
    let was := canFrames old c.val
    let now := canFrames s.img.active c.val
    s.modCan c fun x => { x with queue := x.queue.filter fun e =>
      let k := arbKey e.id.toNat e.ide
      ((was.find? fun f => f.1 == k).map fun f => f.2.map recContent) == ((now.find? fun f => f.1 == k).map fun f => f.2.map recContent) }) s

/-- A mailbox enters START (R369): it keeps its stored frame. -/
def State.startMailbox (s : State) (m : Nat) : State := s.modMb m fun x => { x with silent := 0, timedOut := false }

end Sys2Proof.Machine
end

