-- ==== Sys2Proof/Machine/Journal.lean ====
section
/-! DEFINITION. The memory block and the journal's commands (14): what the scrubber finds and who owns it, transactions, retirement and levelling. -/

namespace Sys2Proof.Machine

/-! Words that cannot be read (R379, R381, R94). -/

/-- R381: an uncorrectable word in a bank's working copy, its base section or its last. A SAVED bank is restored; otherwise its VALID bit clears and the
record stays unreadable. -/
def State.bankFault (s : State) (b base : Bool) (i : Nat) : State :=
  let add (l : List Nat) : List Nat := if l.contains i then l else i :: l
  if s.flag nvjBase (bankSaved b) then s
  else (s.setFlag nvjBase (bankValid b) false).modBank b fun x => if base then { x with badBase := add x.badBase } else { x with bad := add x.bad }

/-- Signal words that are poison carry BAD_HW until they are published anew (R379). -/
def State.poisonSignals (s : State) (ids : List Nat) : State :=
  (ids.filter fun i => (signalsOf s.img.active).any fun r => sigId r == i).foldl (fun s i => s.setSig i { (s.sig i) with qual := Q_BAD_HW }) s

/-- The blocks whose cells produce signals. -/
def State.producerBlocks (s : State) (ids : List Nat) : List (Nat × Nat) :=
  (((signalsOf s.img.active).filter fun r => ids.contains (sigId r) && (kindOf (sigProducer r)).isSome).map fun r =>
    (idRegion (sigProducer r), idBlock (sigProducer r))).eraseDups

/-- The operation that a core pair has in progress is abandoned: CP1's held transaction is answered with E_INTERNAL (R379). -/
def State.abandonPair (s : State) (n : Nat) : State :=
  match s.mgmt.held with
  | r :: rest => if n = 1 then (s.modMgmt fun m => { m with held := rest }).respond r E_INTERNAL 0xFF [] else s
  | [] => s

/-- What a word that has been found uncorrectable or misdirected does by what it held (R379), and the block error of the block that owns it (R94). The bank
working copies are NVJ's (DEDUCED, log entry 133). -/
def State.loseWord (s : State) : Config.WordItem → State
  | .signals ids => ((s.poisonSignals ids).producerBlocks ids).foldl (fun s b => s.blockError b.1 b.2 []) (s.poisonSignals ids)
  | .cell id => if s.exists_ id then (s.modCell id fun c => { c with unread := true }).blockError (idRegion id) (idBlock id) [] else s
  | .shadow r b cells => s.blockError r b cells
  | .matrix => (s.modToc fun t => { t with matrixBad := true }).blockError 2 24 []
  | .frame g => (s.modPnl fun x => { x with poison := if x.poison.contains g then x.poison else g :: x.poison }).blockError 4 3 []
  | .record b base i => (s.bankFault b base i).blockError 4 1 []
  | .pair n => if n < 4 then (s.abandonPair n).blockError 2 (25 + n) [] else s
  | .other => s

/-- What a granule of DRAM or SRAM holds; the DMA-visible memory holds what software put there, which no block owns. -/
def heldBy (m : MemKind) (granule : Nat) : Config.WordItem :=
  match m with
  | .dram => if granule < 2097152 then Config.dramItem granule else .other
  | .sram => Config.sramItem granule
  | .journal => .other

/-- A reader meets what it reads of a granule (R377–R379, R382). -/
def State.readOf (s : State) (m : MemKind) (region granule : Nat) (word : WordRead) : State :=
  let o := s.outcomeAt m granule word.flips
  (s.meetWord m word.port region granule o).when (newlyBad o) fun s => s.loseWord (heldBy m granule)

/-- BLOCK_ERROR (R94): `block` is the region and the number of the block; a word that is the error is counted and poisoned where it was found (R378). -/
def execBlockError (block : Nat × Nat) (e : BlockFault) (s : State) : Host.Outcome State Fault Refusal :=
  done <|
    let s := match e.word with
      | some (g, x) => s.meetWord .sram x.port block.1 g (s.outcomeAt .sram g x.flips)
      | none => s
    s.blockError block.1 block.2 e.affected

/-! Scrubbing (R383). -/

/-- Granules of a DRAM cycle (R383). -/
def dramGranules : Nat := 58720256

/-- The highest logical block in service, the last of a journal cycle. -/
def State.topBlock (s : State) : Nat :=
  if 0 < s.recblks then 1295 + s.recblks
  else if s.bootBank then 1295
  else s.imageDonor.getD 783

/-- SCRUB_STEP (R383). `granule` is physical address bits [35:5] in DRAM, the granule of the 8 MiB in SRAM, or block × 128 + granule of the journal; `flips`
are the bits that are wrong in it. A corrected journal granule is rewritten, which is a write of its block outside the factory partition. The scrubber reads in
the Service region. -/
def execScrubStep (m : MemKind) (granule : Nat) (flips : BitVec 276) (s : State) : Host.Outcome State Fault Refusal :=
  done <|
    if s.mst = stPfail ∨ s.mst = stPowerup then s
    else match m with
    | .dram =>
      let s := (s.readOf .dram 4 granule ⟨false, flips⟩).wr memBase Reg.MEM_SCRUBST_PROGRESS ((granule + 1) % dramGranules * 1024 / dramGranules)
      s.when (granule + 1 == dramGranules) fun s => s.wr memBase Reg.MEM_SCRUBST_PASSES (s.rd memBase Reg.MEM_SCRUBST_PASSES + 1)
    | .sram => s.readOf .sram 4 granule ⟨false, flips⟩
    | .journal =>
      let block := granule / blockGranules
      if !s.standing block then s
      else
        let fixed := (readOutcome .journal granule flips).corrected && 64 ≤ block
        let s := (s.readOf .journal 4 granule ⟨false, flips⟩).when fixed fun s => s.wearBlocks [block]
        s.when (granule + 1 == (s.topBlock + 1) * blockGranules) fun s =>
          s.wr nvjBase Reg.NVJ_SCRUBST_PASSES (s.rd nvjBase Reg.NVJ_SCRUBST_PASSES + 1)

/-! Transactions (R386–R388). -/

/-- JOURNAL_TRANSACTION_COMMIT (R386): a transaction that changes the granules `homes`, with the verifications of its writes that fail and the
blocks that one fails twice in; its result goes to the requester. None is accepted in PFAIL (R387) or
while CP3 is stopped (R190, R504). -/
def execJournalTransactionCommit (homes : List Nat) (fails : Nat) (worn : List Nat) (s : State) : Host.Outcome State Fault Refusal :=
  done <|
    if !s.journalUp then s
    else
      let r := s.commitTxn homes ⟨fails, worn⟩
      r.2.emit (.journal r.1)

/-- JOURNAL_APPLY (R386): the oldest committed granules reach their home blocks. -/
def execJournalApply (granules : Nat) (o : NvOutcome) (s : State) : Host.Outcome State Fault Refusal :=
  done <| if s.mst = stPowerup ∨ !s.dutyUp 3 then s else s.applyPend granules o

/-- R387: closing in PFAIL: every committed granule is applied, and the journal stops. -/
def State.closeJournal (s : State) (o : NvOutcome) : State := (s.applyPend s.jrn.pend.length o).setFlag nvjBase Reg.NVJ_STATUS_CLOSING false

/-! Retirement and levelling (R390, R391). -/

/-- BLOCK_RETIREMENT (R391): the journal retires a worn-out block (R389). No block is retired in PFAIL (R388), and the journal is CP3's (R190, R504). -/
def execBlockRetirement (logical : Nat) (s : State) : Host.Outcome State Fault Refusal :=
  done <| if !s.journalUp || !s.standing logical || s.jrn.readOnly.contains logical || !s.wornOut logical then s else s.retire logical

/-- Two blocks have the highest and the lowest write count of those that are levelled, which the factory partition and read-only blocks are not (R390, R391). -/
def State.extremes (s : State) (hi lo : Nat) : Bool :=
  let level (b : Nat) : Bool := 64 ≤ b && s.standing b && !s.jrn.readOnly.contains b
  let levelled := s.jrn.wear.filter fun e => level e.1
  let fixed := (s.jrn.readOnly.filter fun b => 64 ≤ b && s.standing b).eraseDups.length
  level hi && level lo && (levelled.all fun e => e.2 ≤ s.wearOf hi) &&
    (s.wearOf lo == 0 || (levelled.length + 64 + fixed == s.inService && levelled.all fun e => s.wearOf lo ≤ e.2))

/-- A mark of one of two blocks changes places with them. -/
def swapMark (hi lo : Nat) (l : List Nat) : List Nat := l.map fun b => if b = hi then lo else if b = lo then hi else b

/-- WEAR_LEVEL_EXCHANGE (R390): the physical blocks behind the two logical numbers change places; the exchange counts as a write of each. -/
def execWearLevelExchange (hi lo : Nat) (s : State) : Host.Outcome State Fault Refusal :=
  done <|
    if !s.journalUp || !s.extremes hi lo || s.wearOf hi ≤ s.wearOf lo + 1048576 then s
    else
      let h := s.wearOf hi
      let p := s.physOf hi
      let s := ((s.setPhys hi (s.physOf lo)).setPhys lo p).modJrn fun j => { j with worn := swapMark hi lo j.worn }
      ((s.setWear hi (s.wearOf lo + 1)).setWear lo (h + 1)).showWear

end Sys2Proof.Machine
end

