-- ==== Sys2Proof/Machine/Panel.lean ====
section
/-! DEFINITION. The front panel (16): waveforms, DC balance, contrast, update regions, pages and the frame buffer. -/

namespace Sys2Proof.Machine

def State.prd (s : State) (f : Field) : Nat := s.rd pnlBase f
def State.pwr_ (s : State) (f : Field) (v : Nat) : State := s.wr pnlBase f v

def panelWidth : Nat := 400
def panelHeight : Nat := 240

def State.pixel (s : State) (i : Nat) : Pixel := Store.get Pixel.init s.pnl.pixels i
def State.setPixel (s : State) (i : Nat) (x : Pixel) : State := s.modPnl fun p => { p with pixels := Store.set Pixel.init p.pixels i x }

/-- PNL.STATUS:SLOTS: the slots with a pixel of theirs driven or waiting (R420). -/
def State.showSlots (s : State) : State :=
  let used := s.pnl.pixels.flatMap fun e => (e.2.drive.toList ++ e.2.wait.toList).map PixelWait.slot
  s.pwr_ Reg.PNL_STATUS_SLOTS (((List.range 8).filter fun i => used.contains i).foldl (fun m i => m + 2 ^ i) 0)

/-! Waveforms (R413–R415). -/

/-- What a frame adds to c. -/
def charge : Config.FrameCode → Int
  | .plus => 1
  | .minus => -1
  | .zero => 0

def netCharge (l : List Int) : Int := l.foldl (· + ·) 0

/-- A factory waveform (R413): at most 64 frames, and the twin's net charge has the opposite sign of the primary's or is 0; a table that gives it another is
not taken, and the twin is then the primary reversed in sign. -/
def waveFrames (band o n : Nat) (twin : Bool) : List Int :=
  let prim := ((Config.waveform band o n false).take 64).map charge
  if twin then
    let q := ((Config.waveform band o n true).take 64).map charge
    if netCharge q = 0 ∨ netCharge q * netCharge prim < 0 then q else prim.map Int.neg
  else prim

/-- The INIT waveform (R424): 60 frames with net charge 0; a table that gives another is not taken, and the panel goes black and white once. -/
def initFrames (band : Nat) : List Int :=
  let w := (Config.initWave band).map charge
  if w.length = 60 ∧ netCharge w = 0 then w else List.replicate 30 (-1) ++ List.replicate 30 1

/-- A waveform with its overdrive frames: OD(p, n) frames of full drive toward n, reduced to fit 64 frames; none with o = n. -/
def drivenFrames (band : Nat) (p o n : BitVec 4) (twin : Bool) : List Int :=
  let w := waveFrames band o.toNat n.toNat twin
  let od := if o = n then 0 else min (min 7 (Config.overdrive p.toNat n.toNat)) (64 - w.length)
  List.replicate od (if o.toNat < n.toNat then 1 else -1) ++ w

/-- R414: Q when |c| is 32 or more and the primary's net charge has the sign of c. -/
def chooseFrames (band : Nat) (x : Pixel) (n : BitVec 4) : List Int :=
  let prim := drivenFrames band x.prev x.level n false
  if 32 ≤ x.bal.natAbs ∧ 0 < netCharge prim * x.bal then drivenFrames band x.prev x.level n true else prim

/-- The frame of a waveform ends the pixel's update where no frame is left (R420). -/
def Pixel.finish (x : Pixel) : Pixel :=
  match x.drive with
  | some d =>
    if x.begun && x.frames.isEmpty then
      let y : Pixel := { x with prev := x.level, level := d.target, begun := false, drive := none, wait := none }
      match x.wait with
      | some w => if w.target = d.target ∧ !w.full then y else { y with drive := some w }
      | none => y
    else x
  | none => x

/-- A frame begins: the waveform starts if it has not, and its next frame is driven. Answers the request whose update saturated the counter. -/
def Pixel.frame (x : Pixel) : Pixel × Option Nat :=
  match x.drive with
  | none => (x, none)
  | some d =>
    match if x.begun then x.frames else chooseFrames d.band x d.target with
    | [] => ({ x with begun := true, frames := [] }, none)
    | f :: l =>
      let c := x.bal + f
      ({ x with begun := true, frames := l, bal := max (-127) (min 127 c) }, if 127 < c ∨ c < -127 then some d.request else none)

/-- The panel is driven: not in POWERUP, PFAIL or the discharge (R420, R426). -/
def State.panelDrives (s : State) : Bool := !s.pnl.discharged && s.mst != stPowerup && s.mst != stPfail

/-- The requests of which a pixel is driven or waits. -/
def State.running (s : State) : List Nat := s.pnl.pixels.flatMap fun e => (e.2.drive.toList ++ e.2.wait.toList).map PixelWait.request

/-- PANEL_FRAME (R420, R424): a frame boundary. Pixels whose last frame has ended finish, then every driven pixel takes its next frame, in INIT the one of
its waveform, and VCON moves by at most 10 mV (R417). -/
def execPanelFrame (s : State) : Host.Outcome State Fault Refusal :=
  done <|
    if !s.panelDrives then s
    else
      let s := s.pnl.pixels.foldl (fun s e =>
        let r := e.2.finish.frame
        let s := s.setPixel e.1 r.1
        match r.2 with
        | some n =>
          if s.pnl.saturated.contains n then s
          else (s.modPnl fun p => { p with saturated := n :: p.saturated }).bump pnlBase Reg.PNL_CNT_BALSAT
        | none => s) s
      let left := s.running
      let s := s.modPnl fun p => { p with saturated := p.saturated.filter left.contains, init := p.init.tail }
      let mv := s.prd Reg.PNL_VCON_MV
      let t := s.pnl.vconTarget
      let s := s.pwr_ Reg.PNL_VCON_MV (if mv ≤ t then min t (mv + 10) else max t (mv - 10))
      s.showSlots

/-! Temperature and contrast (R416, R417). -/

/-- Boundaries between the bands, °C. -/
def bandEdges : List Rat := [-10, 0, 10, 20, 30, 40, 55]

/-- The band changes when the temperature passes a boundary by more than 1 °C. -/
def nextBand (b : Nat) (t : Rat) : Nat :=
  let up := (bandEdges.filter fun e => decide (e + 1 < t)).length
  let dn := (bandEdges.filter fun e => decide (e - 1 ≤ t)).length
  if b < up then up else if dn < b then dn else b

/-- VCON in mV for a temperature, clamped to 4.0–6.0 V. -/
def State.contrast (s : State) (t : Rat) : Nat :=
  let trim := (BitVec.ofNat 8 (s.prd Reg.PNL_CTRIM_TRIM)).toInt
  (wholeOf (ratClamp 4000 6000 (Config.v25 + Config.tcv * (t - 25) + (trim * 10 : Int)))).toNat

/-- PANEL_TEMPERATURE (R416, R417). -/
def execPanelTemperature (temp : Word) (s : State) : Host.Outcome State Fault Refusal :=
  done <|
    if s.mst = stPowerup then s
    else
      let t := f32x temp
      let s := s.wrw pnlBase Reg.PNL_TEMP temp
      let s := s.pwr_ Reg.PNL_STATUS_BAND (nextBand (s.prd Reg.PNL_STATUS_BAND) t)
      let s := s.setFlag pnlBase Reg.PNL_STATUS_TOUT (t < -25 || 70 < t)
      s.modPnl fun p => { p with vconTarget := s.contrast t }

/-! Updates (R418, R419). -/

/-- The level the frame buffer holds for a pixel (R422). -/
def State.fbLevel (s : State) (i : Nat) : BitVec 4 :=
  let b := (Store.get 0 s.pnl.fb (i / 2)).toNat
  BitVec.ofNat 4 (if i % 2 = 0 then b else b / 16)

/-- Granule of the frame buffer that holds a pixel. -/
def fbGranule (i : Nat) : Nat := i / 64

/-- One pixel of an accepted request (R419, R420): an idle pixel takes part where its target differs, or always in a full update; a driven one holds the
request as pending. -/
def State.takePixel (s : State) (w : PixelWait) (i : Nat) : State :=
  let x := s.pixel i
  let w := { w with target := s.fbLevel i }
  match x.drive with
  | some _ => s.setPixel i { x with wait := some w }
  | none => if w.full || w.target != x.level then s.setPixel i { x with drive := some w, begun := false, frames := [] } else s

/-- A request accepted for a list of pixels. Poisoned granules are left out, counted, and block errors of PNL (R419). -/
def State.acceptUpdate (s : State) (slot : Nat) (full : Bool) (pixels : List Nat) : State :=
  let s := (s.bump pnlBase Reg.PNL_CNT_UPDATES).modPnl fun p => { p with requests := p.requests + 1 }
  let bad := ((pixels.map fbGranule).eraseDups).filter fun g => s.pnl.poison.contains g
  let s := bad.foldl (fun s _ => ((s.bump pnlBase Reg.PNL_CNT2_SKIPPED).bump memBase Reg.MEM_PORT_POISONED).blockError 4 3 []) s
  let w : PixelWait := ⟨0, s.prd Reg.PNL_STATUS_BAND, full, slot, s.pnl.requests⟩
  ((pixels.filter fun i => !bad.contains (fbGranule i)).foldl (fun s i => s.takePixel w i) s).showSlots

/-- Pixels of a rectangle. -/
def rectPixels (x0 y0 x1 y1 : Nat) : List Nat :=
  (List.range (y1 + 1 - y0)).flatMap fun j => (List.range (x1 + 1 - x0)).map fun i => (y0 + j) * panelWidth + x0 + i

/-- SRC as it is in force: 1 at once, 0 from the next rendering on (R423). -/
def State.panelSrc (s : State) : Bool := s.flag pnlBase Reg.PNL_CFG_SRC || s.pnl.src

/-- A write of PNL.CFG (R423, R427). -/
def State.setPanelCfg (s : State) (w : Word) : State :=
  (s.setReg (pnlBase + Reg.PNL_CFG_SRC.off) w).modPnl fun p => { p with src := p.src || getField w 0 1 == 1 }

/-- PNL.UPD:GO (R418). A refused request counts. -/
def decideUpdate (byRenderer : Bool) (s : State) : Code × State :=
  let x0 := s.prd Reg.PNL_RECT0_X0
  let y0 := s.prd Reg.PNL_RECT0_Y0
  let x1 := s.prd Reg.PNL_RECT1_X1
  let y1 := s.prd Reg.PNL_RECT1_Y1
  let refuse (c : Code) : Code × State := (c, s.bump pnlBase Reg.PNL_CNT2_REFUSED)
  if s.mst = stPfail then refuse E_STATE
  else if !s.panelSrc && !byRenderer then refuse E_STATE
  else if x1 < x0 || y1 < y0 || panelWidth ≤ x1 || panelHeight ≤ y1 then refuse E_RANGE
  else if s.flag pnlBase Reg.PNL_STATUS_INITRUN then refuse E_BUSY
  else (E_OK, s.acceptUpdate (s.prd Reg.PNL_UPD_SLOT) (s.flag pnlBase Reg.PNL_UPD_MODE) (rectPixels x0 y0 x1 y1))

/-- UPDATE_REQUEST (R418): PNL.UPD:GO from a port, or a request of the page renderer, which no port is answered for. -/
def execUpdateRequest (p : Port) (byRenderer : Bool) (s : State) : Host.Outcome State Fault Refusal :=
  if byRenderer then done (if s.mst = stPowerup then s else (decideUpdate true s).2) else command p (decideUpdate false) s

/-! Frame buffer and pages (R421–R424). -/

/-- Bytes written into the frame buffer from an index on. -/
def State.fbWrite (s : State) (at_ : Nat) : List Byte → State
  | [] => s
  | b :: l => (s.modPnl fun p => { p with fb := Store.set 0 p.fb at_ b }).fbWrite (at_ + 1) l

/-- R422: PNL.FBADDR and PNL.FBDAT0–7 in one transaction. -/
def decideFrameBuffer (granule : Word) (data : List Word) (s : State) : Code × State :=
  if !s.panelSrc then (E_STATE, s)
  else if data.length ≠ 8 then (E_ORDER, s)
  else if 1500 ≤ granule.toNat then (E_RANGE, s)
  else
    let s := s.pwr_ Reg.PNL_FBADDR_GRAN granule.toNat
    let s := (List.range 8).foldl (fun s i => s.setReg (pnlBase + Reg.PNL_FBDAT0.off + 4 * i) (data.getD i 0)) s
    let s := s.modPnl fun p => { p with poison := p.poison.filter (· != granule.toNat) }
    (E_OK, s.fbWrite (32 * granule.toNat) (data.flatMap fun w => leList w.toNat 4))

/-- FRAME_BUFFER_WRITE. -/
def execFrameBufferWrite (p : Port) (granule : Word) (data : List Word) (s : State) : Host.Outcome State Fault Refusal :=
  command p (decideFrameBuffer granule data) s

/-- One pixel of the frame buffer. -/
def State.fbPixel (s : State) (i : Nat) (v : BitVec 4) : State :=
  let b := (Store.get 0 s.pnl.fb (i / 2)).toNat
  let b := if i % 2 = 0 then b / 16 * 16 + v.toNat else v.toNat * 16 + b % 16
  s.modPnl fun p => { p with fb := Store.set 0 p.fb (i / 2) (BitVec.ofNat 8 b) }

/-- What a page shows (R421): its layout, and its rows from the process image of the last boundary. A value is shown to DEC decimal places. -/
def State.pageRows (s : State) : Nat × List Config.RowText :=
  match findRec s.img.active T_PANEL (s.prd Reg.PNL_CFG_PAGE) 0xFFFF with
  | some r =>
    let dec := recByte r 1
    (recByte r 0, (List.range (if recByte r 0 = 1 then 6 else 2)).map fun i =>
      let id := recU32 r (2 + 4 * i)
      let w := s.sig id
      if id = 0 then .blank else .signal id (wholeOf (f32x w.val * 10 ^ dec)) dec w.qual)
  | none =>
    (0, [.status 0 s.mst, .status 1 s.addr, .status 2 (s.rdw nvjBase Reg.IMG_STATION).toNat,
      .status 3 ((s.rdw nvjBase Reg.IMG_ID_LO).toNat + 2 ^ 32 * (s.rdw nvjBase Reg.IMG_ID_HI).toNat), .status 4 (s.reg (modBase + Reg.MOD_HEALTH_HULOW.off)).toNat])

/-- A row whose text has changed is drawn into the frame buffer, and requested as a partial update of its rectangle on a slot (R421; DESIGN CHOICE, log entry
146). -/
def State.drawRow (s : State) (slot : Fin 8) (layout row : Nat) (t : Config.RowText) : State :=
  let (x0, y0, x1, y1) := Config.rowRect layout row
  let px := rectPixels x0 y0 (min x1 (panelWidth - 1)) (min y1 (panelHeight - 1))
  let s := px.zipIdx.foldl (fun s e => s.fbPixel e.1 (Config.rowPixel layout row t e.2)) s
  if s.flag pnlBase Reg.PNL_STATUS_INITRUN then s.bump pnlBase Reg.PNL_CNT2_REFUSED
  else s.acceptUpdate ((slot.val + row) % 8) false px

/-- PAGE_RENDER (R421, R423): CP3 renders the page that PNL.CFG:PAGE names, and requests the rows whose text differs from what was rendered last, on the
slots from `slot` on. -/
def execPageRender (slot : Fin 8) (s : State) : Host.Outcome State Fault Refusal :=
  done <|
    if s.flag pnlBase Reg.PNL_CFG_SRC || !s.dutyUp 3 || !s.panelDrives then s
    else
      let page := s.pageRows
      let old (i : Nat) : Option Config.RowText := if s.pnl.page.1 = page.1 then s.pnl.page.2[i]? else none
      let s := s.modPnl fun p => { p with src := false, page := page }
      let s := (page.2.zipIdx.filter fun x => old x.2 != some x.1).foldl (fun s x => s.drawRow slot page.1 x.2 x.1) s
      s.setFlag pnlBase Reg.PNL_STATUS_STALE false

/-- PAGE_STALE (R421). -/
def execPageStale (s : State) : Host.Outcome State Fault Refusal :=
  done <| if s.flag pnlBase Reg.PNL_CFG_SRC || s.mst = stPowerup then s else s.setFlag pnlBase Reg.PNL_STATUS_STALE true

/-- The first entry into ENUM after POWERUP starts the INIT update (R424). -/
def State.panelInit (s : State) : State :=
  if s.pnl.enumSeen then s
  else (s.setFlag pnlBase Reg.PNL_STATUS_INITRUN true).modPnl fun p => { p with enumSeen := true, init := initFrames (s.prd Reg.PNL_STATUS_BAND) }

/-- INIT_UPDATE_COMPLETE (R424): the waveform has been driven to its end, and every pixel stands at level 15 with c = 0 and p = 15. -/
def execInitUpdateComplete (s : State) : Host.Outcome State Fault Refusal :=
  done <|
    if s.flag pnlBase Reg.PNL_STATUS_INITRUN && s.panelDrives && s.pnl.init.isEmpty then
      ((s.setFlag pnlBase Reg.PNL_STATUS_INITRUN false).modPnl fun p => { p with pixels := [] }).showSlots
    else s

/-- Entry into PFAIL: the drive stops and every pixel is idle (R420). -/
def State.panelStop (s : State) : State :=
  let s := s.setFlag pnlBase Reg.PNL_STATUS_INITRUN false
  (s.modPnl fun p => { p with
    init := []
    pixels := Store.mapVals Pixel.init (fun _ x => { x with drive := none, begun := false, frames := [], wait := none }) p.pixels }).showSlots

/-- R426: the discharge: the electrodes are shorted and VCON is discharged. -/
def State.panelDischarge (s : State) : State := (s.panelStop.modPnl fun p => { p with discharged := true, vconTarget := 0 }).pwr_ Reg.PNL_VCON_MV 0

end Sys2Proof.Machine
end

