-- ==== Sys2Proof/Machine/Stored.lean ====
section
/-! DEFINITION. The registers kept in the journal: how their writes are decided and take effect (R331, R349, R355, R356, R370, R410, R427, R447). -/

namespace Sys2Proof.Machine

/-- Bits of a register that the fields of a page cover. -/
def fieldMask (fs : List Field) (off : Nat) : Nat :=
  (fs.filter fun f => f.off == off).foldl (fun m f => m ||| ((2 ^ f.width - 1) * 2 ^ f.lo)) 0

/-- A write sets a bit that no field covers (R4). -/
def reservedSet (fs : List Field) (off : Nat) (w : Word) : Bool := w.toNat ||| fieldMask fs off != fieldMask fs off

/-- The value of a register as the staged writes will leave it. -/
def State.coming (s : State) (a : Nat) : Word := (s.fab.staged.foldl (fun v e => if e.1 = a then some e.2 else v) none).getD (s.reg a)

/-- The kinds of stored registers. -/
inductive StoredReg where
  | netCfg (p : Path) | netVlan (p : Path) | netIp (p : Path) | netXcfg
  | tmCfg | tmAsym
  | canCfg (c : Fin 2) | canNbt (c : Fin 2) | canDbt (c : Fin 2) | canTdc (c : Fin 2)
  | recCfg | ctrim
  deriving DecidableEq, Repr

/-- The stored register at a service address. -/
def storedAt (a : Nat) : Option StoredReg :=
  let net (p : Path) : Option StoredReg :=
    if a = netBase p + 0x20 then some (.netCfg p) else if a = netBase p + 0x24 then some (.netVlan p)
    else if a = netBase p + 0x28 then some (.netIp p) else if a = netBase p + 0x2C then some .netXcfg else none
  let can (c : Fin 2) : Option StoredReg :=
    if a = canBase c.val + 0x20 then some (.canCfg c) else if a = canBase c.val + 0x24 then some (.canNbt c)
    else if a = canBase c.val + 0x28 then some (.canDbt c) else if a = canBase c.val + 0x2C then some (.canTdc c) else none
  if a = tmBase + 0x20 then some .tmCfg
  else if a = tmBase + 0x24 then some .tmAsym
  else if a = recBase + 0x20 then some .recCfg
  else if a = pnlBase + 0x30 then some .ctrim
  else (net .a).or ((net .b).or ((can 0).or (can 1)))

/-- The fields of the page that maps a stored register, and its offset there. -/
def StoredReg.map : StoredReg → List Field × Nat
  | .netCfg _ => (Page.net.fields, 0x20)
  | .netVlan _ => (Page.net.fields, 0x24)
  | .netIp _ => (Page.net.fields, 0x28)
  | .netXcfg => (Page.net.fields, 0x2C)
  | .tmCfg => (Page.tm.fields, 0x20)
  | .tmAsym => (Page.tm.fields, 0x24)
  | .canCfg _ => (Page.can.fields, 0x20)
  | .canNbt _ => (Page.can.fields, 0x24)
  | .canDbt _ => (Page.can.fields, 0x28)
  | .canTdc _ => (Page.can.fields, 0x2C)
  | .recCfg => (Page.recd.fields, 0x20)
  | .ctrim => (Page.pnl.fields, 0x30)

/-- A field of a word. -/
def fieldOf (w : Word) (f : Field) : Nat := getField w f.lo f.width

/-- The mode rule of a stored register: NET.CFG:PMODE (R332, R447). -/
def State.storedMode (s : State) (r : StoredReg) (w : Word) : Code :=
  match r with
  | .netCfg p =>
    let m := fieldOf w Reg.NET_CFG_PMODE
    if s.tabor then if (p == .b && m != 0) || m == 1 || m == 2 then E_TABOR else E_OK
    else if m = 3 then E_CARILLON else E_OK
  | _ => E_OK

/-- Field values that the maps declare illegal (R332, R352, R355, R356, R371, R410, R427). -/
def State.storedIllegal (s : State) (r : StoredReg) (w : Word) : Bool :=
  match r with
  | .netCfg _ => fieldOf w Reg.NET_CFG_AN == 1 && fieldOf w Reg.NET_CFG_PMODE != 2
  | .netVlan _ => fieldOf w Reg.NET_VLAN_VID == 4095
  | .netIp _ => w != 0 && (w.toNat / 2 ^ 24 == 0 || w.toNat / 2 ^ 24 == 127 || 224 ≤ w.toNat / 2 ^ 24)
  | .netXcfg =>
    let e := fieldOf w Reg.NET_XCFG_ECDIV
    e == 0 || 64 < e || fieldOf w Reg.NET_XCFG_IMPTMO < 3 * e + 1
  | .tmCfg =>
    let log := fieldOf w Reg.TM_CFG_LOGSYNC
    fieldOf w Reg.TM_CFG_SRC == 3 || (fieldOf w Reg.TM_CFG_CHAINGM == 1 && fieldOf w Reg.TM_CFG_SRC == 1) ||
      fieldOf w Reg.TM_CFG_SLEWMAX == 0 || 500 < fieldOf w Reg.TM_CFG_SLEWMAX || (1 ≤ log && log ≤ 8)
  | .tmAsym =>
    let out (n : Nat) : Bool := 10000 < (BitVec.ofNat 16 n).toInt.natAbs
    out (fieldOf w Reg.TM_ASYM_NA) || out (fieldOf w Reg.TM_ASYM_NB)
  | .canCfg _ => 2 ≤ fieldOf w Reg.CAN_CFG_OPMODE
  | .canNbt _ =>
    let b := fieldOf w Reg.CAN_NBT_NBRP
    let t1 := fieldOf w Reg.CAN_NBT_NTSEG1
    let t2 := fieldOf w Reg.CAN_NBT_NTSEG2
    let j := fieldOf w Reg.CAN_NBT_NSJW
    b == 0 || 256 < b || t1 < 2 || t2 < 2 || j == 0 || t2 < j || b * (1 + t1 + t2) < 250
  | .canDbt c =>
    let b := fieldOf w Reg.CAN_DBT_DBRP
    let t1 := fieldOf w Reg.CAN_DBT_DTSEG1
    let t2 := fieldOf w Reg.CAN_DBT_DTSEG2
    let j := fieldOf w Reg.CAN_DBT_DSJW
    b == 0 || t1 == 0 || t2 == 0 || j == 0 || t2 < j || b * (1 + t1 + t2) < 50 ||
      (2 < b && fieldOf (s.coming (canBase c.val + 0x2C)) Reg.CAN_TDC_TDCEN == 1)
  | .canTdc c => fieldOf w Reg.CAN_TDC_TDCEN == 1 && 2 < fieldOf (s.coming (canBase c.val + 0x28)) Reg.CAN_DBT_DBRP
  | .recCfg => fieldOf w Reg.REC_CFG_PERIOD == 0 || 1440 < fieldOf w Reg.REC_CFG_PERIOD
  | .ctrim => 50 < (BitVec.ofNat 8 (fieldOf w Reg.PNL_CTRIM_TRIM)).toInt.natAbs

/-- How a write of a stored register is judged before the journal stores it: the order of R5, then NV_DEGRADED (R331). -/
def State.storedCheck (s : State) (p : Port) (r : StoredReg) (w : Word) : Code :=
  if s.storedMode r w ≠ E_OK then s.storedMode r w
  else if p ≠ .service then E_ACCESS
  else if s.mst = stRun then E_STATE
  else if reservedSet r.map.1 r.map.2 w then E_RANGE
  else if s.storedIllegal r w then E_RANGE
  else if s.flag modBase Reg.MOD_HEALTH_NV_DEGRADED then E_NV_WEAR
  else E_OK

/-- NET.CFG takes effect at once; a change of PMODE or AN restarts link training (R331), and PMODE 0 turns the path off (R313, R326). -/
def State.setNetCfg (s : State) (p : Path) (w : Word) : State :=
  let old := s.reg (netBase p + 0x20)
  let s := s.setReg (netBase p + 0x20) w
  if old = w then s
  else
    let s := (s.nset p Reg.NET_STATUS_LINK false).modPath p fun x => { x with held := false }
    if s.cageOn p then (s.identify p).updateElig p else s.pathOff p

/-- A stored write takes effect at a boundary rather than at once (R331, R349, R370). -/
def StoredReg.staged : StoredReg → Bool
  | .netXcfg | .tmCfg | .tmAsym | .canCfg _ | .canNbt _ | .canDbt _ | .canTdc _ => true
  | _ => false

/-- The effect of a stored write (R331). NET.XCFG is one register of both paths. -/
def State.putStored (s : State) (r : StoredReg) (a : Nat) (w : Word) : State :=
  match r with
  | .netCfg p => s.setNetCfg p w
  | .netXcfg => (s.setReg (netBase .a + 0x2C) w).setReg (netBase .b + 0x2C) w
  | .tmCfg => let old := s.tsrc; (s.setReg a w).srcChanged old
  | .canCfg c | .canNbt c | .canDbt c | .canTdc c => (s.setReg a w).canReconf c
  | _ => s.setReg a w

/-- An accepted stored write: at once, or staged for the next boundary. -/
def State.takeStored (s : State) (r : StoredReg) (a : Nat) (w : Word) : State := if r.staged then s.stage a w else s.putStored r a w

/-- Where the journal keeps a stored register. -/
def storedHome (a : Nat) : List Nat := settingsHome (Config.settingPlace a)

/-- The write of a stored register, but for the journal (R331). -/
def decideStored (p : Port) (a : Nat) (w : Word) (s : State) : Code × State :=
  match storedAt a with
  | none => (E_ADDR, s)
  | some r =>
    let c := s.storedCheck p r w
    if c ≠ E_OK then (c, s) else (E_OK, s.takeStored r a w)

/-- STORED_REGISTER_WRITE (R331). -/
def execStoredRegisterWrite (p : Port) (a : BitVec 32) (w : Word) (o : NvOutcome) (s : State) : Host.Outcome State Fault Refusal :=
  command p (journaled (storedHome a.toNat) o (decideStored p a.toNat w)) s

end Sys2Proof.Machine
end

