-- ==== Sys2Proof/Machine/Power.lean ====
section
/-! DEFINITION. Clocks, reset sources, the hold-up bank and the power-fail sequence (17). -/

namespace Sys2Proof.Machine

/-! Reset (R430, R431). -/

def causeNum : ResetCause → Nat
  | .por => 1
  | .pfret => 2
  | .cmd => 3
  | .pll => 4
  | .aon => 5

/-- The lowest code of the sources that assert together (R431). -/
def lowestSource (l : List ResetCause) : Option ResetCause :=
  [ResetCause.por, .pfret, .cmd, .pll, .aon].find? fun c => l.contains c

/-- Addresses whose registers the journal keeps, or that follow pins and the always-on island, and so outlive a reset (R384, R386, R394, R410, R443). -/
def keptAddresses : List Nat :=
  [modBase + 0x14, nvjBase + 0x20, nvjBase + 0x24, nvjBase + 0x28, nvjBase + 0x2C, nvjBase + 0x30, nvjBase + 0xD4, recBase + 0x20, recBase + 0x2C, recBase + 0x30,
    pnlBase + 0x30, tmBase + 0x20, tmBase + 0x24, pwrBase + 0x24, pwrBase + 0x30, pwrBase + 0x34, pwrBase + 0x38] ++
  [0x20, 0x24, 0x28, 0x2C].flatMap fun o => [netBase .a + o, netBase .b + o, canBase 0 + o, canBase 1 + o]

/-- Fields kept of registers that are not kept whole. -/
def keptFields : List (Nat × Field) :=
  [(modBase, Reg.MOD_HEALTH_NV_DEGRADED), (modBase, Reg.MOD_HEALTH_SPARELOW), (recBase, Reg.REC_STATUS_NOFLUSH), (nvjBase, Reg.IMG_STATUS_BOOT),
    (pwrBase, Reg.PWR_STATUS_SUPOK), (pwrBase, Reg.PWR_STATUS_SUPLOW), (pwrBase, Reg.PWR_STATUS_HUREADY), (pwrBase, Reg.PWR_STATUS_REFNA),
    (pwrBase, Reg.PWR_STATUS_REFNB), (pwrBase, Reg.PWR_STATUS_REFCH)]

/-- R460: MODE takes NEXT, and stored NET.CFG values that are illegal in the new mode take the reset values of that mode. -/
def State.takeMode (s : State) : State :=
  let s := s.wr modBase Reg.MOD_MODE_MODE (s.rd modBase Reg.MOD_MODE_NEXT)
  let fix (p : Path) (s : State) : State :=
    let m := s.rd (netBase p) Reg.NET_CFG_PMODE
    let illegal := if s.tabor then (p == .b && m != 0) || m == 1 || m == 2 else m == 3
    if illegal then (s.wr (netBase p) Reg.NET_CFG_PMODE (if s.tabor then (if p == .a then 3 else 0) else 1)).wr (netBase p) Reg.NET_CFG_AN 1 else s
  fix .b (fix .a s)

/-- Every reset (R430): all regions at their reset values, the journal kept as committed, pins as they are. `c` is the CAUSE. -/
def State.resetBy (s : State) (c : ResetCause) : State :=
  -- RESTART writes the changed summaries first (R403); staged journal-stored writes are in the journal already
  let s := if c = .cmd ∧ s.recWrites then s.saveSummaries else s
  let s := s.fab.staged.foldl (fun s e => match storedAt e.1 with
    | some .netXcfg => (s.setReg (netBase .a + 0x2C) e.2).setReg (netBase .b + 0x2C) e.2
    | some _ => s.setReg e.1 e.2
    | none => s) s
  let keepBank (b : Bank) : Bank := { Bank.empty with savedBase := b.savedBase, savedMain := b.savedMain, savedOk := b.savedOk, savedSlots := b.savedSlots }
  let r : State := { State.reset with
    pending := s.pending, outbox := s.outbox, free := s.free,
    img := { State.reset.img with b0 := keepBank s.img.b0, b1 := keepBank s.img.b1, keys := s.img.keys },
    jrn := s.jrn,
    recd := { State.reset.recd with sums := s.recd.saved, saved := s.recd.saved, area := s.recd.area, unsealed := s.recd.unsealed, log := s.recd.log },
    toc := { State.reset.toc with safeIn := s.toc.safeIn },
    net := { State.reset.net with a := { PathSt.init with cage := s.net.a.cage }, b := { PathSt.init with cage := s.net.b.cage } },
    axs := Store.mapVals AxSt.init (fun _ a => a.renewed) s.axs,
    can0 := { CanSt.init with supplyOk := s.can0.supplyOk },
    can1 := { CanSt.init with supplyOk := s.can1.supplyOk },
    pwr := { State.reset.pwr with refBad := s.pwr.refBad } }
  let r := keptAddresses.foldl (fun r a => r.setReg a (s.reg a)) r
  let r := keptFields.foldl (fun r e => r.wr e.1 e.2 (s.rd e.1 e.2)) r
  -- a module that was unpowered starts with its bank discharged (R441)
  let r := r.when (c == .por) fun r => r.setFlag pwrBase Reg.PWR_STATUS_HUREADY false
  let r := r.setFlag nvjBase Reg.NVJ_STATUS_CLOSING false
  let r := r.setFlag tbBase Reg.TB_STATUS_SAFEIN (s.flag tbBase Reg.TB_STATUS_SAFEIN)
  let r := r.wr pwrBase Reg.PWR_RST_CAUSE (causeNum c)
  -- a commit pending at a restart is abandoned (R57)
  let r := r.when (4 ≤ s.rd nvjBase Reg.IMG_STATUS_PHASE) fun r => r.wr nvjBase Reg.IMG_STATUS_RESULT E_STATE.toNat
  let r := r.when (s.mst == stPfail) fun r => r.bump pwrBase Reg.PWR_PFCNT_PFAILS
  let r := r.when (c == .pfret) fun r => r.bump pwrBase Reg.PWR_PFCNT_RETURNS
  r.takeMode

/-- RESET_SOURCE (R430, R431, R441, R442). In PFAIL a clock or island source abandons the sequence, and only the end of the sequence with SUP present, or
the return of SUP to an unpowered module, restarts the module. -/
def execResetSource (causes : List ResetCause) (s : State) : Host.Outcome State Fault Refusal :=
  done <|
    match lowestSource causes with
    | none => s
    | some c =>
      if s.mst ≠ stPfail then s.resetBy c
      else if s.pwr.unpowered then if c = .por then s.resetBy .por else s
      else if s.pwr.ended then if causes.contains .pfret then s.resetBy .pfret else s
      else if causes.contains .pll ∨ causes.contains .aon then { s with pwr := { s.pwr with abandoned := 2 } }
      else s

/-! Clocks (R429). -/

def refBit : ClockId → Option (Nat × Field)
  | .refNa => some (0, Reg.PWR_STATUS_REFNA)
  | .refNb => some (1, Reg.PWR_STATUS_REFNB)
  | .refCh => some (2, Reg.PWR_STATUS_REFCH)
  | _ => none

/-- A reference clock meets or leaves its tolerance. -/
def State.setRef (s : State) (k : ClockId) (good : Bool) : State :=
  match refBit k with
  | some (i, f) =>
    let m := s.pwr.refBad.toNat
    let m := if good == bitSet m i then (if good then m - 2 ^ i else m + 2 ^ i) else m
    (s.modPwr fun p => { p with refBad := BitVec.ofNat 3 m }).setFlag pwrBase f good
  | none => s

/-- CLOCK_FAULT (R429): the consequence of the supervision table. -/
def execClockFault (k : ClockId) (s : State) : Host.Outcome State Fault Refusal :=
  match k with
  | .rootPll => execResetSource [.pll] (s.setFlag pwrBase Reg.PWR_STATUS_PLLLOCK false)
  | .divided r => done (s.regionFault r.val)
  | .refNa => done ((s.setRef k false).islandFault .a)
  | .refNb => done ((s.setRef k false).islandFault .b)
  | .refCh => done (((s.setRef k false).linkLoss .up).linkLoss .down)

/-- REFERENCE_CLOCK_RETURN (R429): the path island, or the chain links, can be used again. -/
def execReferenceClockReturn (k : ClockId) (s : State) : Host.Outcome State Fault Refusal :=
  done <|
    match k with
    | .refNa => ((s.setRef k true).identify .a).updateElig .a
    | .refNb => ((s.setRef k true).identify .b).updateElig .b
    | .refCh => s.setRef k true
    | _ => s

/-! Hold-up bank (R435) and SUP (R436). -/

/-- PWR.CTRL:HUTEST. -/
def decideHutest (s : State) : Code × State :=
  if s.mst = stRun ∨ s.mst = stPfail then (E_STATE, s)
  else if s.pwr.measuring then (E_BUSY, s)
  else (E_OK, s.modPwr fun p => { p with measuring := true })

/-- HUTEST (R435). -/
def execHutest (p : Port) (s : State) : Host.Outcome State Fault Refusal := command p decideHutest s

/-- The result of a measurement: HULOW sets below 840 µF and clears at 840 µF or more with HUREADY set. -/
def State.measured (s : State) (uf : Nat) : State :=
  let s := s.wr pwrBase Reg.PWR_CAP_UF uf
  if uf < 840 then s.setFlag pwrBase Reg.PWR_STATUS_HULOW true
  else if s.flag pwrBase Reg.PWR_STATUS_HUREADY then s.setFlag pwrBase Reg.PWR_STATUS_HULOW false
  else s

/-- BANK_MEASUREMENT_COMPLETE (R435). -/
def execBankMeasurementComplete (uf : BitVec 16) (s : State) : Host.Outcome State Fault Refusal :=
  done <| if s.pwr.measuring then (s.modPwr fun p => { p with measuring := false }).measured uf.toNat else s

/-- HULOW_TIMEOUT (R435). -/
def execHulowTimeout (s : State) : Host.Outcome State Fault Refusal :=
  done <|
    if s.mst = stPfail ∨ s.mst = stSelftest ∨ s.flag pwrBase Reg.PWR_STATUS_HUREADY then s else s.setFlag pwrBase Reg.PWR_STATUS_HULOW true

/-- The bank stands at a voltage, in 10 mV: HUREADY is set while that is at or above 46.0 V (R435, R443). -/
def State.setBank (s : State) (v : Nat) : State := (s.wr pwrBase Reg.PWR_SUPV_VBANK v).setFlag pwrBase Reg.PWR_STATUS_HUREADY (4600 ≤ v)

/-- HUREADY (R435): the bank crosses 46.0 V; `vbank` in 10 mV. -/
def execHuready (vbank : BitVec 16) (s : State) : Host.Outcome State Fault Refusal := done (s.setBank vbank.toNat)

/-- SUPOK and SUPLOW of a SUP in mV (R436, R443). -/
def State.setSup (s : State) (mv : Nat) : State :=
  ((s.wr pwrBase Reg.PWR_SUPV_SUP mv).setFlag pwrBase Reg.PWR_STATUS_SUPOK (5600 ≤ mv)).setFlag pwrBase Reg.PWR_STATUS_SUPLOW (5600 ≤ mv && mv < 6000)

/-- SUPLOW (R436). -/
def execSuplow (supMv : BitVec 16) (s : State) : Host.Outcome State Fault Refusal := done (s.setSup supMv.toNat)

/-! The power-fail sequence (R437–R442). -/

/-- The boot pointer names the active bank. -/
def State.bootActive (s : State) : State :=
  ((s.modImg fun i => { i with bootUpdate := false }).setFlag nvjBase Reg.IMG_STATUS_BOOT s.activeBank).setFlag nvjBase Reg.IMG_STATUS_VOLATILE false

/-- R42, R58: the boot bank becomes the active bank where a commit made a SAVED bank active and the update is still to come; the boot pointer is kept in the
journal (R384), and one that it does not take is still to come. -/
def State.updateBoot (s : State) (o : NvOutcome) : State :=
  if s.img.bootUpdate then
    let r := s.commitTxn (controlHome Config.bootPlace) o
    if r.1 = E_OK then r.2.bootActive else r.2
  else s

/-- R45: a SAVE that is cut off leaves the saved copy invalid. -/
def State.cutSave (s : State) : State :=
  if s.rd nvjBase Reg.IMG_STATUS_PHASE = 3 then s.wr nvjBase Reg.IMG_STATUS_PHASE 0 else s

/-- Step 1: the outputs are shed, Tocsin, sequencer, chain, CAN and queue block stop (R437). -/
def State.shed (s : State) : State :=
  let s := (s.abandonCommit E_STATE).cutSave
  let s := (s.modFab fun f => { f with runPending := false, stopPending := false, staged := f.staged, back := [] }).leaveService
  let s := ((List.range 4).foldl State.syncOff ((s.goMst stPfail).setTstate tsStopped)).drive
  let s := s.cells.foldl (fun s id => if kindOf id == some .ax then s.driveCell id else s) s
  let s := (((s.chainOff).canOff 0).canOff 1).queueOff
  let s := ([Path.a, .b].foldl (fun s p => s.modPath p fun x => { x with queue := [], next := [] }) s).modNet fun n => { n with outPdus := [] }
  ((s.panelStop.modTab fun t => { t with pairs := [], latch := [] }).wr tabBase Reg.TAB_STATUS_PENDING 0).modMgmt fun m =>
    { m with queue := [], held := [], memory := m.memory.filter fun e => e.2.isSome }

/-- LASTGASP payload (R440). -/
def State.lastgaspPayload (s : State) (supMv : Nat) (closed : Bool) : List Byte :=
  let flags := (if s.causes != 0 then 1 else 0) + (if closed then 2 else 0) + (if s.flag modBase Reg.MOD_HEALTH_NV_DEGRADED then 4 else 0) +
    (if s.flag pwrBase Reg.PWR_STATUS_HULOW then 8 else 0)
  leList s.pwr.pfPrev 1 ++ leList flags 1 ++ leList (supMv / 10) 2 ++ leList (s.time.cycles / 500000000) 4 ++
    leList (s.rdw nvjBase Reg.IMG_ID_LO).toNat 4 ++ leList (s.rdw nvjBase Reg.IMG_ID_HI).toNat 4

/-- Step 4 (R440, R459): the Snare holder sends one LASTGASP frame; in Tabor mode NA sends the station-down message. -/
def State.sendLastgasp (s : State) (supMv : Nat) : State :=
  let msg := s.lastgaspPayload supMv true
  let frame (p : Path) : Output := .sahvos p (s.netFrame p 5 false 0 1 16 msg)
  if s.tabor then (if s.role .a = roleOff then s else s.emit (.stationDown msg))
  else match s.net.snare.toNat with
    | 1 => s.emit (frame .a)
    | 2 => s.emit (frame .b)
    | _ => s

/-- A step of the sequence is complete: the power-fail word names it (R439). -/
def State.stepDone (s : State) (n : Nat) : State := (s.modPwr fun p => { p with steps := n }).wr pwrBase Reg.PWR_PFLAST_STEP n

/-- The work of a step that completes (R437). -/
def State.stepWork (s : State) (supMv : Nat) (o : NvOutcome) : Nat → State
  -- the boot-bank update completes as the journal closes (R58, R387)
  | 2 => (s.closeJournal o).when s.img.bootUpdate State.bootActive
  | 3 => s.recFlush true
  | 4 => s.sendLastgasp supMv
  | 5 => s.panelDischarge
  | _ => s

/-- The steps not yet completed, in order, as far as `stop`; the one after it has begun and is not complete. With the bank below 14.0 V before step 3, 4
or 5, neither that step nor a later one starts (R438). -/
def State.runSequence (s : State) (supMv : Nat) (checks : List (BitVec 16)) (vbank : BitVec 16) (stop : Nat) (o : NvOutcome) : Nat → State
  | 0 => s
  | fuel + 1 =>
    let i := s.pwr.steps + 1
    if 5 < i ∨ s.pwr.barred then s
    else if 3 ≤ i ∧ (checks.getD (i - 3) vbank).toNat < 1400 then s.modPwr fun p => { p with barred := true, begun := 0 }
    else if stop < i then s.modPwr fun p => { p with begun := i }
    else State.runSequence ((s.stepWork supMv o i).stepDone i) supMv checks vbank stop o fuel

/-- POWER_FAIL (R436, R437): the module enters PFAIL and runs the steps as far as `stop`; in PFAIL the row carries the sequence further. `checks` are the
bank voltages, in 10 mV, that R438 reads before steps 3, 4 and 5; `o` is how the journal's closing writes come out (R388). -/
def execPowerFail (volts : PfVolts) (checks : List (BitVec 16)) (stop : Fin 6) (o : NvOutcome) (s : State) : Host.Outcome State Fault Refusal :=
  done <|
    if s.mst = stPfail then
      if s.pwr.ended ∨ s.pwr.unpowered ∨ s.pwr.abandoned ≠ 0 then s
      else (s.setBank volts.vbank.toNat).runSequence s.pwr.supMv checks volts.vbank stop.val o 6
    else
      let s := (s.setSup volts.sup.toNat).setBank volts.vbank.toNat
      let prev := s.mst
      let s := s.modPwr fun p =>
        { p with measuring := false, pfPrev := prev, supMv := volts.sup.toNat, steps := 0, begun := 0, barred := false, abandoned := 0, ended := false, unpowered := false }
      let s := s.setReg (pwrBase + Reg.PWR_PFLAST_STEP.off) 0
      let s := s.shed.setFlag nvjBase Reg.NVJ_STATUS_CLOSING true
      s.runSequence volts.sup.toNat checks volts.vbank stop.val o 6

/-- The recorder at the end of a sequence that has not flushed it: a flush that had begun leaves its records unsealed (R407, R438). -/
def State.cutFlush (s : State) : State := if s.pwr.begun = 3 then s.recFlush false else s.recFlushOff

/-- The end of a sequence: PWR.PFLAST and PWR.PFE (R439, R443). One that a low bank kept from going on is ABANDONED (R438). -/
def State.endSequence (s : State) (durUs emj vend : BitVec 16) : State :=
  let s := s.when (s.pwr.steps < 3) State.cutFlush
  let a := if s.pwr.barred && s.pwr.abandoned == 0 then 1 else s.pwr.abandoned
  let s := (s.wr pwrBase Reg.PWR_PFLAST_STEP s.pwr.steps).setFlag pwrBase Reg.PWR_PFLAST_COMPLETE (s.pwr.steps == 5 && a == 0)
  let s := (s.setFlag pwrBase Reg.PWR_PFLAST_ABANDONED (a != 0)).wr pwrBase Reg.PWR_PFLAST_ABCAUSE a
  let s := (((s.setBank vend.toNat).wr pwrBase Reg.PWR_PFLAST_DURUS durUs.toNat).wr pwrBase Reg.PWR_PFE_EMJ emj.toNat).wr pwrBase Reg.PWR_PFE_VEND vend.toNat
  s.modPwr fun p => { p with ended := true }

/-- BANK_EXHAUSTED (R438, R441): below 14.0 V at a check the sequence is abandoned; below 12.0 V the module is unpowered. -/
def execBankExhausted (below12 : Bool) (durUs emj vend : BitVec 16) (s : State) : Host.Outcome State Fault Refusal :=
  done <|
    if s.mst ≠ stPfail ∨ s.pwr.unpowered then s
    else
      let s := if s.pwr.ended then s else ({ s with pwr := { s.pwr with abandoned := if s.pwr.abandoned = 0 then 1 else s.pwr.abandoned } }).endSequence durUs emj vend
      if below12 then s.modPwr fun p => { p with unpowered := true } else s

/-- POWER_FAIL_SEQUENCE_END (R441): PFRET with SUP present; otherwise the module waits. -/
def execPowerFailSequenceEnd (durUs emj vend : BitVec 16) (supPresent : Bool) (s : State) : Host.Outcome State Fault Refusal :=
  done <|
    if s.mst ≠ stPfail ∨ s.pwr.ended ∨ s.pwr.unpowered then s
    else
      let s := s.endSequence durUs emj vend
      if supPresent then s.resetBy .pfret else s

/-- SUP_PRESENT (R441): SUP at or above 6.0 V for 10 ms after the sequence ended. -/
def execSupPresent (s : State) : Host.Outcome State Fault Refusal :=
  done <| if s.mst = stPfail ∧ s.pwr.ended ∧ ¬s.pwr.unpowered then s.resetBy .pfret else s

end Sys2Proof.Machine
end

