-- ==== Sys2Proof/Machine/Ed25519.lean ====
section
/-! DEFINITION. Ed25519 (pure) verification as R36 and R37 use it. The spec names RFC 8032 and gives the equation; the curve, the encoding of
points and SHA-512 are those of RFC 8032 and FIPS 180-4 (PRESUMED, log entry 28). -/

namespace Sys2Proof.Machine

/-! SHA-512. -/

/-- The greatest `x` below 2^`bits` beyond `acc` with `x`^`e` ≤ `n`, bit by bit. -/
def rootBits (e n : Nat) : Nat → Nat → Nat
  | 0, acc => acc
  | b + 1, acc => rootBits e n b (if (acc + 2 ^ b) ^ e ≤ n then acc + 2 ^ b else acc)

def isPrime (n : Nat) : Bool := 2 ≤ n && (List.range n).all fun k => k < 2 || n % k != 0

/-- The first 80 primes: those below 410. -/
def primes80 : List Nat := (List.range 410).filter isPrime

/-- Fractional bits of the cube roots and square roots of primes: the constants of SHA-512. -/
def shaK : List (BitVec 64) := primes80.map fun p => BitVec.ofNat 64 (rootBits 3 (p * 2 ^ 192) 70 0)
def shaH : List (BitVec 64) := (primes80.take 8).map fun p => BitVec.ofNat 64 (rootBits 2 (p * 2 ^ 128) 70 0)

/-- The message schedule, newest word first, extended by `n` words. -/
def shaSchedule : Nat → List (BitVec 64) → List (BitVec 64)
  | 0, w => w
  | n + 1, w =>
    let a := w.getD 1 0
    let b := w.getD 14 0
    let s1 := (a.rotateRight 19) ^^^ (a.rotateRight 61) ^^^ (a >>> 6)
    let s0 := (b.rotateRight 1) ^^^ (b.rotateRight 8) ^^^ (b >>> 7)
    shaSchedule n ((s1 + w.getD 6 0 + s0 + w.getD 15 0) :: w)

/-- One round on the eight working words. -/
def shaRound (v : List (BitVec 64)) (kw : BitVec 64) : List (BitVec 64) :=
  match v with
  | [a, b, c, d, e, f, g, h] =>
    let t1 := h + ((e.rotateRight 14) ^^^ (e.rotateRight 18) ^^^ (e.rotateRight 41)) + ((e &&& f) ^^^ (~~~e &&& g)) + kw
    let t2 := ((a.rotateRight 28) ^^^ (a.rotateRight 34) ^^^ (a.rotateRight 39)) + ((a &&& b) ^^^ (a &&& c) ^^^ (b &&& c))
    [t1 + t2, a, b, c, d + t1, e, f, g]
  | _ => v

/-- One block of 16 words. -/
def shaBlock (h : List (BitVec 64)) (block : List (BitVec 64)) : List (BitVec 64) :=
  let w := (shaSchedule 64 block.reverse).reverse
  List.zipWith (· + ·) h ((List.zipWith (· + ·) shaK w).foldl shaRound h)

/-- Big-endian number of a byte list. -/
def bytesBe (l : List Byte) : Nat := l.foldl (fun n b => n * 256 + b.toNat) 0

/-- `n` bytes of a number, most significant first. -/
def beOf : Nat → Nat → List Byte
  | 0, _ => []
  | k + 1, n => BitVec.ofNat 8 (n / 256 ^ k) :: beOf k n

/-- Words of 8 bytes, `n` of them. -/
def shaWords : Nat → List Byte → List (BitVec 64)
  | 0, _ => []
  | n + 1, l => BitVec.ofNat 64 (bytesBe (l.take 8)) :: shaWords n (l.drop 8)

/-- `n` blocks of the padded message. -/
def shaBlocks : Nat → List Byte → List (BitVec 64) → List (BitVec 64)
  | 0, _, h => h
  | n + 1, l, h => shaBlocks n (l.drop 128) (shaBlock h (shaWords 16 (l.take 128)))

def sha512 (m : List Byte) : List Byte :=
  let pad := (239 - m.length % 128) % 128
  let padded := m ++ (0x80 : Byte) :: (List.replicate pad (0 : Byte) ++ beOf 16 (m.length * 8))
  (shaBlocks (padded.length / 128) padded shaH).flatMap fun w => beOf 8 w.toNat

/-! The curve: −x² + y² = 1 + d x² y² modulo 2^255 − 19. -/

def edP : Nat := 2 ^ 255 - 19
/-- The group order L. -/
def edL : Nat := 2 ^ 252 + 27742317777372353535851937790883648493

/-- `x` to the power of the low `bits` bits of `e`, modulo p. -/
def edPow : Nat → Nat → Nat → Nat
  | 0, _, _ => 1
  | b + 1, x, e =>
    let h := edPow b (x * x % edP) (e / 2)
    if e % 2 = 1 then h * x % edP else h

def edInv (x : Nat) : Nat := edPow 255 x (edP - 2)
def edD : Nat := (edP - 121665) * edInv 121666 % edP

/-- A point in extended coordinates. -/
structure EdPoint where
  x : Nat
  y : Nat
  z : Nat
  t : Nat
  deriving DecidableEq, Repr

def edZero : EdPoint := ⟨0, 1, 1, 0⟩

/-- The sum of two points; the addition law is complete. -/
def edAdd (p q : EdPoint) : EdPoint :=
  let a := (p.y + edP - p.x) * (q.y + edP - q.x) % edP
  let b := (p.y + p.x) * (q.y + q.x) % edP
  let c := 2 * p.t * q.t % edP * edD % edP
  let d := 2 * p.z * q.z % edP
  let e := b + edP - a
  let f := d + edP - c
  let g := d + c
  let h := b + a
  ⟨e * f % edP, g * h % edP, f * g % edP, e * h % edP⟩

/-- The multiple of a point by the low `bits` bits of `n`. -/
def edMul : Nat → Nat → EdPoint → EdPoint
  | 0, _, _ => edZero
  | b + 1, n, p =>
    let h := edMul b (n / 2) (edAdd p p)
    if n % 2 = 1 then edAdd h p else h

def edSame (p q : EdPoint) : Bool :=
  (p.x * q.z) % edP == (q.x * p.z) % edP && (p.y * q.z) % edP == (q.y * p.z) % edP

/-- The point of a 32-byte string (RFC 8032, 5.1.3); `none` where it does not decode. -/
def edDecode (w : BitVec 256) : Option EdPoint :=
  let sign := w.toNat / 2 ^ 255
  let y := w.toNat % 2 ^ 255
  if y ≥ edP then none
  else
    let u := (y * y + edP - 1) % edP
    let v := (edD * (y * y) + 1) % edP
    let v3 := v * v % edP * v % edP
    let x0 := u * v3 % edP * edPow 255 (u * (v3 * v3 % edP * v % edP) % edP) ((edP - 5) / 8) % edP
    let vx := v * (x0 * x0 % edP) % edP
    let x? : Option Nat :=
      if vx = u then some x0
      else if vx = (edP - u) % edP then some (x0 * edPow 255 2 ((edP - 1) / 4) % edP)
      else none
    match x? with
    | none => none
    | some x =>
      if x = 0 ∧ sign = 1 then none
      else
        let x := if x % 2 = sign then x else edP - x
        some ⟨x, y, 1, x * y % edP⟩

/-- The base point: y = 4/5, x even. -/
def edBase : EdPoint := (edDecode (BitVec.ofNat 256 (4 * edInv 5 % edP))).getD edZero

/-- A public key is valid: it decodes as a point and is not of small order (R39). -/
def keyValid (k : BitVec 256) : Bool :=
  match edDecode k with
  | some a => !edSame (edMul 4 8 a) edZero
  | none => false

/-- Bytes of a 32-byte string held as R28 holds a record: byte i in bits [8i+7:8i]. -/
def bytes32 (w : BitVec 256) : List Byte := (List.range 32).map fun i => BitVec.ofNat 8 (w.toNat / 2 ^ (8 * i))

/-- Little-endian number of a byte list. -/
def bytesLe (l : List Byte) : Nat := bytesBe l.reverse

/-- R37: the cofactorless equation [S]B = R + [k]A, with R a point and S below the group order; the message is the records as bytes (R36). -/
def ed25519 (key : BitVec 256) (message : List (BitVec 256)) (r s : BitVec 256) : Bool :=
  match edDecode key, edDecode r with
  | some a, some rp =>
    let k := bytesLe (sha512 (bytes32 r ++ bytes32 key ++ message.flatMap bytes32)) % edL
    decide (s.toNat < edL) && edSame (edMul 253 s.toNat edBase) (edAdd rp (edMul 253 k a))
  | _, _ => false

end Sys2Proof.Machine
end

