-- ==== Sys2Proof/Machine/Format.lean ====
section
/-! DEFINITION. The legal values of image records (R35): what a record of each type and kind of target must hold by itself, in this file's order of
chapters. A record whose cell ID names hardware that R16 does not implement is not judged here (R34). -/

namespace Sys2Proof.Machine

/-! Payload fields. A binary32 field is compared at its exact value, a decimal limit at its nearest binary32 (R498). -/

def pFin (r : Record) (i : Nat) : Bool := f32Finite (recWord r i)
def pNum (r : Record) (i : Nat) : Bool := !f32IsNaN (recWord r i)
def pVal (r : Record) (i : Nat) : Rat := f32x (recWord r i)
def pIn (r : Record) (i : Nat) (lo hi : Rat) : Bool := pFin r i && decide (lo ≤ pVal r i ∧ pVal r i ≤ hi)
def pZero (r : Record) (i : Nat) : Bool := pFin r i && pVal r i == 0
def pPos (r : Record) (i : Nat) : Bool := pNum r i && decide (0 < pVal r i)
def pNonneg (r : Record) (i : Nat) : Bool := pFin r i && decide (0 ≤ pVal r i)
/-- A byte, or a 16-bit field, in a range. -/
def pByte (r : Record) (i lo hi : Nat) : Bool := lo ≤ recByte r i && recByte r i ≤ hi
def pHalf (r : Record) (i lo hi : Nat) : Bool := lo ≤ recU16 r i && recU16 r i ≤ hi
/-- Signed 16-bit field. -/
def pShort (r : Record) (i : Nat) : Int := (BitVec.ofNat 16 (recU16 r i)).toInt
/-- Bit `b` of byte `i`. -/
def pBit (r : Record) (i b : Nat) : Bool := recByte r i / 2 ^ b % 2 == 1

/-! The Station Image (02). -/

/-- HEADER (R33, R50 stage 2). -/
def headerLegal (r : Record) : Bool :=
  recU16 r 0 == 1 && pByte r 2 0 1 && pByte r 3 0 1 && recByte r 4 ≤ recByte r 5 && pByte r 7 0 63 && 4 ≤ recU32 r 8 && recU32 r 8 ≤ 65536 &&
    (recByte r 2 == 1 || recU64 r 12 == 0) && recZero r 24 26

/-- CAN placement of an exported signal (R359). -/
def canPlaceLegal (r : Record) : Bool :=
  recByte r 10 < 16 && (!pBit r 10 3 || pBit r 10 2) && recByte r 11 ≤ 60 && recByte r 11 % 4 == 0 && (pBit r 10 2 || recByte r 11 ≤ 4) &&
    recU32 r 12 ≤ (if pBit r 10 1 then 0x1FFFFFFF else 0x7FF) && pHalf r 16 1 1024

def signalLegal (r : Record) : Bool :=
  1 ≤ sigId r && sigId r ≤ 0xFFFFFFFE && pByte r 6 0 15 && recByte r 7 < 8 && pHalf r 8 0 8191 &&
    (if pBit r 7 2 then canPlaceLegal r else recZero r 10 18) && recZero r 18 26

def bindLegal (r : Record) : Bool := recSub r < 16 && pNum r 4 && pByte r 10 0 2 && recZero r 11 26

def deleteLegal (r : Record) : Bool :=
  let ty := recByte r 0
  recZero r 8 26 &&
    (if ty = T_SIGNAL then true
     else if ty = T_TRIPIN then recU16 r 2 == 0xFFFF && recU32 r 4 ≤ 255
     else recU32 r 4 == 0)

/-! Cells, Blocks, Regions and the Stroke (03). -/

/-- Function cell, SUB 0 (R81, R82); the number of TABLE records is judged with the image. -/
def fcRecLegal (r : Record) : Bool :=
  (match fcShape (fcOp r) with
   | none => false
   | some (least, most, _) =>
     least ≤ fcNin r && fcNin r ≤ most &&
       fcParamsLegal (fcOp r) (fcNin r) (((f32 (fcParam r 0)).floor.toNat + 2) / 3) (fun _ => []) (fcParam r)) &&
    recByte r 2 < 2 && recZero r 3 4 && pNum r 20 && recZero r 24 26

/-! Loop Engine (04). -/

def lpRecLegal (r : Record) : Bool :=
  match recSub r with
  | 0 =>
    let leader := lpKind r = 1
    pByte r 0 0 2 && recByte r 1 < 32 && pByte r 2 0 2 && recByte r 3 < 32 && lpSchedSrc r ≤ 4 && lpPvBad r ≤ 2 &&
      (if leader then pByte r 4 2 4 && pByte r 5 0 1 && pNum r 22 && decide (0 ≤ pVal r 22) else pByte r 4 0 0 && pByte r 5 0 0 && pZero r 22) &&
      pFin r 6 && pFin r 10 && decide (lpOutLo r < lpOutHi r) && pIn r 14 (lpOutLo r) (lpOutHi r) && pIn r 18 (lpOutLo r) (lpOutHi r)
  | 1 =>
    pFin r 0 && pFin r 4 && decide (lpSpLo r < lpSpHi r) && pNonneg r 8 && pNonneg r 12 && pIn r 16 (lpSpLo r) (lpSpHi r) && recZero r 20 26
  | 10 => ((List.range 6).all fun k => pFin r (4 * k)) && pByte r 24 1 8 && pByte r 25 0 1
  | 11 => pFin r 0 && pNonneg r 4 && pNonneg r 8 && recZero r 12 26
  | 12 =>
    pByte r 0 0 1 && pByte r 1 2 16 && pByte r 2 0 7 && recZero r 3 4 && pPos r 4 && pIn r 8 (mkRat 1 2) (dec 95 2) && pPos r 12 &&
      (pZero r 16 || pIn r 16 1 1000000) && recZero r 20 26
  | k =>
    2 ≤ k && k ≤ 9 && ([0, 4, 8, 12, 16, 20].all fun off => gainLegal off false (recWord r off)) && recZero r 24 26

/-! Phasor Engine (05). -/

def phRecLegal (r : Record) : Bool :=
  match recSub r with
  | 0 =>
    ((List.range 8).all fun k => (recByte r k < 32 || recByte r k == 0xFF) && recByte r (8 + k) ≤ 8 && (recByte r (8 + k) == 0) == (recByte r k == 0xFF)) &&
      pByte r 16 0 1 && pByte r 17 0 1 && pByte r 18 1 3 && recByte r 19 < 4 && pIn r 20 1 1000000 && (recByte r 24 < 32 || recByte r 24 == 0xFF) &&
      recByte r 25 < 8
  | 1 => ((List.range 6).all fun k => pFin r (4 * k) && pVal r (4 * k) != 0) && recZero r 24 26
  | 2 =>
    ((List.range 2).all fun k => pFin r (4 * k) && pVal r (4 * k) != 0) &&
      ((List.range 8).all fun k => decide (-1000 ≤ pShort r (8 + 2 * k) ∧ pShort r (8 + 2 * k) ≤ 1000)) && recZero r 24 26
  | 3 =>
    pIn r 0 (-1) 1 && pIn r 4 (-1) 1 && decide (pVal r 0 < pVal r 4) && pFin r 8 && pFin r 12 && decide (pVal r 8 < pVal r 12) &&
      pIn r 16 (dec 1 1) 30 && pIn r 20 0 (mkRat 1 2) && pByte r 24 1 50 && recZero r 25 26
  | 4 => ((List.range 5).all fun k => pNonneg r (4 * k)) && recZero r 25 26
  | 5 => pFin r 0 && pFin r 4 && pIn r 8 (dec 5 2) 2 && recZero r 12 26
  | _ => false

/-! Tocsin Safety Logic (06). -/

/-- TRIPIN (R163): INDEX by source, and the fields that belong to one source. SUB above 0 is a trip input above 255, judged at stage 5 (R50). -/
def tripinLegal (r : Record) : Bool :=
  let i := recU16 r 2
  (match recByte r 1 with
   | 0 => i < 32
   | 1 => i < 64
   | 2 => i < 32 && i % 8 < 5
   | 3 => i < 32
   | 4 => i < 15
   | 5 => i == 0
   | _ => false) &&
    recByte r 4 < 4 && pHalf r 6 0 480 && (recByte r 1 == 3 || recByte r 1 == 5 || recU32 r 8 == 0) &&
    (match recByte r 1 with
     | 3 => pHalf r 12 1 1000 && pByte r 14 1 255
     | 5 => pHalf r 12 1 65535 && recByte r 14 == 0
     | _ => recU16 r 12 == 0 && recByte r 14 == 0) && recZero r 15 26

/-- TRIP (R172). -/
def tripLegal (r : Record) : Bool :=
  match recSub r with
  | 0 =>
    recByte r 0 < 8 && 1 ≤ recByte r 1 && pByte r 2 0 2 && pByte r 3 0 8 &&
      ((List.range 8).all fun k => k < recByte r 3 || recU16 r (4 + 2 * k) == 0) && (recByte r 20 < 8 || recByte r 20 == 0xFF) && pByte r 21 0 31 &&
      recZero r 22 26
  | 1 => recZero r 16 26
  | 2 => recZero r 16 26
  | 3 => pHalf r 4 1 200 && recZero r 6 26
  | _ => false

/-! Universal Channels (07). -/

def ucRecLegal (r : Record) : Bool :=
  match recSub r with
  | 0 =>
    let f := recByte r 0
    let g := recByte r 1
    let out := 5 ≤ f
    let eng := f = 1 ∨ f = 2 ∨ 5 ≤ f
    let wires := recByte r 2 / 32 % 4
    pByte r 0 1 6 && g ≤ (if f = 1 then 2 else if f = 4 then 6 else if f = 5 then 1 else 1) && recByte r 2 < 128 &&
      (!pBit r 2 0 || f == 2 || f == 6) && (!pBit r 2 1 || ((f == 2 || f == 6) && g == 1)) && (!pBit r 2 2 || (f == 1 && g != 1)) &&
      (!pBit r 2 4 || f == 2 || f == 6) && (if f = 3 then wires ≤ 2 else wires == 0) && recByte r 3 ≤ 7 && (!pBit r 2 2 || recByte r 3 == 0) &&
      (!(f == 3 || f == 4) || recByte r 3 ≤ 4) && pByte r 4 0 2 && (recByte r 4 == 0 || (decide out && pBit r 2 1)) && pByte r 5 0 2 &&
      (!decide out || recByte r 5 == 0) && (if recByte r 5 = 2 then pByte r 6 2 32 else recByte r 6 == 0) && recZero r 7 8 &&
      (if eng then pFin r 8 && pFin r 12 && pVal r 8 != pVal r 12 else pZero r 8 && pZero r 12) &&
      (if out then pIn r 16 (ratMin (pVal r 8) (pVal r 12)) (ratMax (pVal r 8) (pVal r 12)) else pZero r 16) &&
      (if recByte r 5 = 1 then pIn r 20 0 (dec 1 1) else pZero r 20) && recZero r 24 26
  | 1 =>
    pIn r 0 3 (dec 36 1) && pIn r 4 21 23 && pIn r 8 0 100 && pByte r 12 0 1 && recZero r 13 16 && pIn r 16 (-40) 100 && recZero r 20 26
  | 2 =>
    recByte r 0 < 4 && pByte r 1 1 16 && recByte r 2 < 4 && recZero r 3 4 && pFin r 4 && pFin r 8 && (recByte r 0 != 3 || decide (pVal r 4 < pVal r 8)) &&
      pNonneg r 12 && recZero r 16 26
  | 3 =>
    let n := recByte r 1
    pByte r 0 0 1 && (if recByte r 0 = 0 then n == 1 else 1 ≤ n && n ≤ 4) &&
      ((List.range 4).all fun k => recByte r (2 + k) < 64 && (k < n || recByte r (2 + k) == 0)) &&
      ((List.range n).all fun k => (List.range k).all fun j => recByte r (2 + j) != recByte r (2 + k)) && pByte r 6 1 100 && pByte r 7 0 1 && recZero r 8 26
  | _ => false

/-! Digital Points (08). -/

def dpRecLegal (r : Record) : Bool :=
  let k := recByte r 0
  let inp := k == 1 || k == 2
  let out := k == 3 || k == 4
  recSub r == 0 && pByte r 0 1 5 && (if inp then recByte r 1 ≤ 6 else recByte r 1 == 0) && recByte r 2 < 32 && (!pBit r 2 0 || inp) &&
    (!pBit r 2 1 || k == 2) && (!pBit r 2 2 || (out && recTarget r % 2 == 0)) && (!pBit r 2 3 || k == 3) && (!pBit r 2 4 || out) &&
    (k != 4 || pBit r 2 4) && (if out then recByte r 3 ≤ 1 && pHalf r 4 1 60000 else recByte r 3 == 0 && recU16 r 4 == 0) &&
    (recByte r 6 == 0xFF || (k == 3 && recByte r 6 ≤ 3)) && recZero r 7 26

/-! Motion Axes (09). -/

def axRecLegal (r : Record) : Bool :=
  match recSub r with
  | 0 =>
    pByte r 0 0 1 && recByte r 1 < 128 && (!pBit r 1 5 || pBit r 1 0) && pByte r 2 0 5 && (recByte r 2 != 4 || pBit r 1 0) && pByte r 3 0 6 &&
      pIn r 4 (dec 1 3) 1000000 && pFin r 16 && pFin r 20 && decide (0 < pVal r 16) && decide (pVal r 16 ≤ pVal r 20) && decide (pVal r 20 ≤ 10000) &&
      pIn r 8 0 (pVal r 16) && pIn r 12 0 (pVal r 16) && pHalf r 24 1 1000
  | 1 => ((List.range 6).all fun k => pIn r (4 * k) 1 1000000) && recZero r 24 26
  | 2 =>
    pIn r 0 (dec 1 1) 3 && pIn r 4 0 (pVal r 0) && pHalf r 8 0 10000 && pHalf r 10 50 400 && pByte r 12 2 20 && recZero r 13 14 && pFin r 14 && recZero r 18 26
  | 3 =>
    pFin r 0 && decide (1 ≤ pVal r 0) && pIn r 4 (dec 1 1) 100 && pFin r 8 && pHalf r 12 1 600 && pFin r 14 && pFin r 18 &&
      ((pVal r 14 == 0 && pVal r 18 == 0) || decide (pVal r 14 < pVal r 18)) && recZero r 22 26
  | 4 =>
    4 ≤ recU32 r 0 && recU32 r 0 ≤ 1000000 && recU32 r 0 % 4 == 0 && pHalf r 4 4 10000 && pIn r 6 (dec 1 1) 100 && pHalf r 10 1 1000 && recZero r 12 26
  | _ => false

/-! Station Chain (10), CAN (13), Recorder (15), Panel (16). -/

/-- Peer context (R288). -/
def pcRecLegal (r : Record) : Bool := recSub r == 0 && 1 ≤ recU16 r 0 && recZero r 2 26

/-- Queue pair (R292). -/
def qpRecLegal (r : Record) : Bool :=
  let ring (i : Nat) : Bool := recByte r i == 0 || pByte r i 3 12
  recSub r == 0 && pByte r 0 0 15 && pByte r 1 0 7 && ring 2 && ring 3 && (recByte r 2 != 0 || recByte r 3 != 0) && recZero r 4 26

/-- Mailbox (R365). -/
def mbRecLegal (r : Record) : Bool :=
  let most := if pBit r 0 0 then 0x1FFFFFFF else 0x7FF
  recSub r == 0 && recByte r 0 < 16 && recByte r 0 / 2 % 4 != 3 && recZero r 1 2 && 1 ≤ recU16 r 2 && recU32 r 4 ≤ most && recU32 r 8 ≤ most && recZero r 12 26

/-- RECORDER (R395), with the INDEX ranges of the source table (R396). -/
def recorderLegal (r : Record) : Bool :=
  let i := recU16 r 2
  recTarget r ≤ 1023 && recByte r 0 ≤ 12 && recByte r 1 < 2 &&
    (i == 0xFFFF ||
      match recByte r 0 with
      | 0 => i < 128
      | 1 => i < 128
      | 2 => i < 256
      | 3 => i < 256
      | 4 => 1 ≤ i && i ≤ 6
      | 5 => i < 4
      | 6 => i < 4
      | 7 => i < 32
      | 8 => i < 2
      | 9 => i == 0
      | 10 => i < 64
      | 11 => i < 3
      | _ => i == 0) &&
    pFin r 4 && (!pBit r 1 0 || decide (0 < pVal r 4)) && pFin r 8 && decide (pVal r 4 < pVal r 8) &&
    (if recU16 r 12 = 0 then recU16 r 14 == 1 else pHalf r 14 1 60000) && (recByte r 0 == 12 || recU32 r 16 == 0) && recZero r 20 26

/-- PANEL (R421). -/
def panelLegal (r : Record) : Bool :=
  recSub r < 16 && pByte r 0 1 2 && pByte r 1 0 6 && (recByte r 0 == 1 || recZero r 10 26)

/-- TABLE (R82, R501, R206; 09 microstep table). -/
def tableLegal (r : Record) (k : Kind) : Bool :=
  match k with
  | .fc => recSub r ≤ 10 && recZero r 24 26
  | .uc => recSub r ≤ 10 && recZero r 24 26
  | .ax => recSub r < 19 || (recSub r == 19 && recZero r 18 26)
  | _ => false

/-- TARGET and SUB of a record fit its TYPE (the record types of R30). -/
def fieldsLegal (r : Record) : Bool :=
  let ty := recType r
  if ty = T_HEADER ∨ ty = T_MODULE ∨ ty = T_SIGNAL ∨ ty = T_DELETE ∨ ty = T_SIGHDR then recSub r == 0 && recTarget r == 0xFFFF
  else if ty = T_TRIPIN ∨ ty = T_PANEL then recTarget r == 0xFFFF
  else if ty = T_RATE ∨ ty = T_RECORDER then recSub r == 0
  else true

/-- The record breaks no rule that it can break by itself (R30, R35). -/
def recordLegal (r : Record) : Bool :=
  let ty := recType r
  fieldsLegal r &&
    if ty = T_HEADER then headerLegal r
    else if ty = T_MODULE then pHalf r 0 1 800 && pByte r 2 0 1 && recZero r 3 26
    else if ty = T_CELL then
      match kindOf (recTarget r) with
      | none => true
      | some .fc => recSub r == 0 && fcRecLegal r
      | some .lp => lpRecLegal r
      | some .ph => phRecLegal r
      | some .tout => false
      | some .uc => ucRecLegal r
      | some .dp => dpRecLegal r
      | some .ax => axRecLegal r
      | some .pc => pcRecLegal r
      | some .qp => qpRecLegal r
      | some .mbx => mbRecLegal r
    else if ty = T_BIND then bindLegal r
    else if ty = T_SIGNAL then signalLegal r
    else if ty = T_RATE then pByte r 0 0 10 && recU16 r 1 < 2 ^ recByte r 0 && recZero r 3 26
    else if ty = T_TRIP then
      match kindOf (recTarget r) with
      | none => true
      | some .tout => tripLegal r
      | some _ => false
    else if ty = T_TRIPIN then tripinLegal r
    else if ty = T_RECORDER then recorderLegal r
    else if ty = T_PANEL then panelLegal r
    else if ty = T_TABLE then
      match kindOf (recTarget r) with
      | none => true
      | some k => tableLegal r k
    else if ty = T_DELETE then deleteLegal r
    else if ty = T_SIGHDR then pByte r 0 0 3 && recByte r 1 == 1 && recZero r 2 26
    else ty == T_PAD

end Sys2Proof.Machine
end

