-- ==== Sys2Proof/Machine/References.lean ====
section
/-! DEFINITION. What the records of an effective image must hold together (stage 2 of R50): references between records, the records that a cell
requires, its inputs and ports. Each check names the record that breaks the rule; a record that is missing is laid to the cell's SUB 0. -/

namespace Sys2Proof.Machine

/-- The CELL record of a cell with a sub-record number is there. -/
def hasSub (img : List Record) (id sub : Nat) : Bool := (findRec img T_CELL sub id).isSome
def hasBind (img : List Record) (id input : Nat) : Bool := (findRec img T_BIND input id).isSome
/-- BIND and TABLE records that target a cell. -/
def bindsOf (img : List Record) (id : Nat) : List Record := img.filter fun r => recType r == T_BIND && recTarget r == id
def tablesOf (img : List Record) (id : Nat) : List Record := img.filter fun r => recType r == T_TABLE && recTarget r == id
def sub0 (img : List Record) (id : Nat) : Record := getRec img T_CELL 0 id
/-- A cell ID that R16 does not implement is left to stage 5 (R34). -/
def cellGone (img : List Record) (id : Nat) : Bool := (kindOf id).isSome && !imgHasCell img id
def signalOf (img : List Record) (sig : Nat) : Option Record := (signalsOf img).find? fun r => sigId r == sig
/-- T_S of an image in nanoseconds. -/
def imgTsNs (img : List Record) : Nat := recU16 (moduleOf img) 0 * 125000

/-! Inputs. -/

/-- KIND of a digital point of the image; 0 where it has none. -/
def dpKindOf (img : List Record) (n : Nat) : Nat := recByte (sub0 img (dpId n)) 0
def dpOut (k : Nat) : Bool := k == 3 || k == 4
def ucFuncOf (img : List Record) (n : Nat) : Nat := recByte (sub0 img (ucId n)) 0
/-- A universal channel in an output function takes a command, unless it is a HART multidrop host (R205). -/
def ucTakesCommand (img : List Record) (id : Nat) : Bool :=
  5 ≤ recByte (sub0 img id) 0 && !(recByte (sub0 img id) 0 == 6 && pBit (sub0 img id) 2 4 && recByte (getRec img T_CELL 3 id) 0 == 1)

/-- The target's kind defines an input (R34, R81, R114, R154, R205, R225, R245, R502). -/
def hasInput (img : List Record) (id i : Nat) : Bool :=
  let r := sub0 img id
  match kindOf id with
  | some .fc => i < fcNin r
  | some .lp => i < 7
  | some .ph => i == 0
  | some .tout => i == 0
  | some .uc => i == 0 && ucTakesCommand img id
  | some .dp => i == 0 && dpOut (recByte r 0) && recByte r 6 == 0xFF
  | some .ax => i < 2
  | _ => false

/-- Whole strokes that cover a time (R204). -/
def strokesFor (ns ts : Nat) : Nat := (ns + ts - 1) / ts

/-- The least non-zero BOUND with which a signal may be read (R79, R204). -/
def leastBound (img : List Record) (sig : Record) : Nat :=
  let id := sigProducer sig
  let d := (rateOf img id).1
  let ts := imgTsNs img
  match kindOf id with
  | some .uc =>
    max (d - 1) (if sigPort sig < 2 then strokesFor (ratePeriodNs (recByte (sub0 img id) 3)) ts
      else strokesFor (recByte (getRec img T_CELL 3 id) 6 * 100000000) ts)
  | some _ => d - 1
  | none => 0

/-- A BIND record on an input that its target has not, or to a signal that is not defined or cannot be read within its BOUND (R34, R50, R79). -/
def bindBad (img : List Record) (r : Record) : Bool :=
  ((kindOf (recTarget r)).isSome && (!imgHasCell img (recTarget r) || !hasInput img (recTarget r) (recSub r))) ||
    match signalOf img (bindSig r) with
    | none => true
    | some g => bindBound r != 0 && bindBound r < leastBound img g

/-! Signals. -/

/-- Ports of a phasor group whose inputs it has (R150). -/
def phHasPort (img : List Record) (id port : Nat) : Bool :=
  let r := sub0 img id
  let roles := (List.range 8).map fun k => recByte r (8 + k)
  let volts := [1, 2, 3].all roles.contains
  let amps := [4, 5, 6].all roles.contains
  if port = 7 ∨ port = 8 then volts && amps
  else if port = 9 ∨ port = 10 ∨ port = 14 then volts
  else if port = 11 ∨ port = 12 ∨ port = 13 then amps
  else true

/-- The export frame on CAN that a signal belongs to (R359). -/
def canFrameOf (r : Record) : Bool × Bool × Nat := (pBit r 10 0, pBit r 10 1, recU32 r 12)

def signalBad (img : List Record) (r : Record) : Bool :=
  let id := sigProducer r
  (id != 0xFFFE && (kindOf id).isSome &&
      (!imgHasCell img id || !hasPort img id (sigPort r) || (kindOf id == some .ph && !phHasPort img id (sigPort r)) ||
        (kindOf id == some .dp && recByte (sub0 img id) 0 == 5))) ||
    (pBit r 7 2 &&
      (signalsOf img).any fun g =>
        pBit g 7 2 && sigId g != sigId r && canFrameOf g == canFrameOf r &&
          (recByte g 10 / 4 != recByte r 10 / 4 || recU16 g 16 != recU16 r 16 || recByte g 11 == recByte r 11))

/-! Function cells and tables. -/

/-- TABLE records that a table of `n` points needs (R501). -/
def tablesFor (n : Nat) : Nat := (n + 2) / 3

/-- The TABLE records of a table of `n` points are there. -/
def tableWhole (img : List Record) (id n : Nat) : Bool :=
  (List.range (tablesFor n)).all fun k => (findRec img T_TABLE k id).isSome

/-- A TABLE record beyond a table of `n` points, with bytes beyond the last point, or with an x that does not rise (R82, R501, R206). -/
def pointsBad (img : List Record) (r : Record) (n : Nat) : Bool :=
  let k := recSub r
  let x (j : Nat) : Word := recWord (getRec img T_TABLE (j / 3) (recTarget r)) (8 * (j % 3))
  tablesFor n ≤ k || (k + 1 == tablesFor n && n % 3 != 0 && !recZero r (8 * (n % 3)) 24) ||
    (List.range 3).any fun i => let j := 3 * k + i
      j < n && (f32IsNaN (x j) || (0 < j && !decide (f32x (x (j - 1)) < f32x (x j))))

/-- Points of a CHAR cell. -/
def charPoints (r : Record) : Nat := (f32 (fcParam r 0)).floor.toNat

def fcBad (img : List Record) (r : Record) : Bool :=
  let id := recTarget r
  !((List.range (fcNin r)).all fun i => hasBind img id i) || (fcOp r == 0x0E && !tableWhole img id (charPoints r))

/-- A TABLE record on a cell that has no such table, or that its table rejects (R501, R206; 09: a microstep table is given whole and never
decreases). -/
def tableBad (img : List Record) (r : Record) : Bool :=
  let id := recTarget r
  let r0 := sub0 img id
  cellGone img id ||
    match kindOf id with
    | some .fc => fcOp r0 != 0x0E || pointsBad img r (charPoints r0)
    | some .uc => recByte r0 5 != 2 || pointsBad img r (recByte r0 6)
    | some .ax =>
      let entry (k : Nat) : Nat := recU16 (getRec img T_TABLE (k / 13) id) (2 * (k % 13))
      (tablesOf img id).length != 20 ||
        (List.range 13).any fun j => let k := 13 * recSub r + j
          0 < k && k < 256 && entry k < entry (k - 1)
    | some _ => true
    | none => false

/-! Loops (R108–R116). -/

/-- Breakpoint b_j of a slot, from 1. -/
def lpBreakOf (img : List Record) (id j : Nat) : Rat :=
  if j ≤ 6 then f32 (recWord (getRec img T_CELL 10 id) (4 * (j - 1))) else f32 (recWord (getRec img T_CELL 11 id) 0)

def nsetsOf (img : List Record) (id : Nat) : Nat := (findRec img T_CELL 10 id).elim 1 fun r => recByte r 24
def interpOf (img : List Record) (id : Nat) : Bool := recByte (getRec img T_CELL 10 id) 25 == 1

/-- The leader of a member: the nearest slot of lower index in its block that is a leader and whose group reaches it. -/
def leaderOf (img : List Record) (id : Nat) : Option Nat :=
  [1, 2, 3].findSome? fun k =>
    if k ≤ idCell id ∧ hasSub img (id - k) 0 ∧ lpKind (sub0 img (id - k)) = 1 ∧ k < lpGroupN (sub0 img (id - k)) then some (id - k) else none

def lpBad (img : List Record) (r : Record) : Bool :=
  let id := recTarget r
  let n := nsetsOf img id
  let bs := (List.range (n - 1)).map fun j => lpBreakOf img id (j + 1)
  let gaps := List.zipWith (fun a b => b - a) bs bs.tail
  match recSub r with
  | 0 =>
    !hasSub img id 1 || !((List.range n).all fun k => hasSub img id (2 + k)) || ((n == 8 || interpOf img id) && !hasSub img id 11) ||
      !hasBind img id 0 || (lpMode0 r == 2 && !hasBind img id 1) || (hasBind img id 3 != hasBind img id 4) || (lpSchedSrc r == 4 && !hasBind img id 6) ||
      (lpKind r == 2 && (hasBind img id 3 || hasBind img id 4 || hasBind img id 5)) ||
      (lpKind r == 1 &&
        !((List.range (lpGroupN r - 1)).all fun k => idCell id + k + 1 < 64 && hasSub img (id + k + 1) 0 && lpKind (sub0 img (id + k + 1)) == 2)) ||
      (lpKind r == 2 &&
        match leaderOf img id with
        | none => true
        | some l => (findRec img T_RATE 0 id).isNone && rateOf img id != rateOf img l)
  | 10 => (gaps.any fun g => !decide (0 < g)) || (List.range 6).any fun j => n ≤ j + 1 && !pZero r (4 * j)
  | 11 =>
    (n < 8 && !pZero r 0) || (n == 8 && gaps.getLast?.any fun g => !decide (0 < g)) ||
      (gaps.any fun g => !decide (2 * pVal r 4 < g) || !decide (2 * pVal r 8 ≤ g)) || (interpOf img id && !pPos r 8)
  | 12 => false
  | 1 => false
  | k => n + 2 ≤ k || (lpKind (sub0 img id) != 0 && pZero r 4)

/-- A member's RATE record must equal its leader's (R116). -/
def rateBad (img : List Record) (r : Record) : Bool :=
  let id := recTarget r
  cellGone img id ||
    (kindOf id == some .lp && lpKind (sub0 img id) == 2 &&
      match leaderOf img id with
      | some l => rateOf img id != rateOf img l
      | none => false)

/-! Phasor groups (R143, R144). -/

def phBad (img : List Record) (r : Record) : Bool :=
  let id := recTarget r
  let r0 := sub0 img id
  let roles := (List.range 8).map fun k => recByte r0 (8 + k)
  let cnt (k : Nat) : Nat := (roles.filter (· == k)).length
  let syncen := pBit r0 19 0
  match recSub r with
  | 0 =>
    let volts := ([1, 2, 3].filter roles.contains)
    let close := recByte r 24
    !hasSub img id 1 || ((recByte r 6 != 0xFF || recByte r 7 != 0xFF) && !hasSub img id 2) || (syncen && (!hasSub img id 3 || !hasSub img id 5)) ||
      ((List.range 7).any fun k => 1 < cnt (k + 1)) || !roles.contains (recByte r 18) || (syncen && !roles.contains 7) ||
      !([0, 3].contains (([4, 5, 6].filter roles.contains).length)) || (volts.length != 3 && volts != [recByte r 18]) ||
      (close != 0xFF && !(dpKindOf img close == 3 && recByte (sub0 img (dpId close)) 6 == idCell id))
  | 3 =>
    !pBit r0 19 1 &&
      (!decide ((0 < pVal r 0 ∧ 0 < pVal r 4) ∨ (pVal r 0 < 0 ∧ pVal r 4 < 0)) || decide (ratAbs (pVal r 0) < dec 5 3) || decide (ratAbs (pVal r 4) < dec 5 3))
  | 5 =>
    let vnom := pVal r0 20
    !decide (pVal r 4 < pVal r 0) || !decide (pVal r 0 ≤ dec 12 1 * vnom) || !decide (dec 2 2 * vnom ≤ pVal r 4)
  | _ => false

/-! Tocsin (R166, R172, R173). -/

def tripins (img : List Record) : List Record := img.filter fun r => recType r == T_TRIPIN
def trips0 (img : List Record) : List Record := img.filter fun r => recType r == T_TRIP && recSub r == 0
def tripInput (r : Record) : Nat := 256 * recSub r + recByte r 0
/-- Received connection IDs, each once, in record order. -/
def connIds (l : List Record) : List Nat := ((l.filter fun r => recByte r 1 == 3).map fun r => recU32 r 8).eraseDups

def tripinBad (img : List Record) (r : Record) : Bool :=
  let i := recU16 r 2
  match recByte r 1 with
  | 0 => !(dpKindOf img i == 1 || dpKindOf img i == 2)
  | 1 => !pBit (getRec img T_CELL 2 (ucId (i / 2))) 0 (i % 2) || !imgHasCell img (ucId (i / 2))
  | 3 =>
    ((tripins img).any fun q => recByte q 1 == 3 && recU32 q 8 == recU32 r 8 && (recU16 q 12 != recU16 r 12 || recByte q 14 != recByte r 14)) ||
      ((connIds (tripins img)).drop 16).contains (recU32 r 8)
  | 5 => (signalOf img (recU32 r 8)).isNone
  | _ => false

/-- Inputs that the masks of a trip output select (R172). -/
def selectedOf (img : List Record) (id : Nat) : List Nat :=
  let lo := getRec img T_TRIP 1 id
  let hi := getRec img T_TRIP 2 id
  ((List.range 128).filter fun k => pBit lo (k / 8) (k % 8)) ++ ((List.range 128).filter fun k => pBit hi (k / 8) (k % 8)).map (· + 128)

/-- Targets of a TRIP record with SUB 0. -/
def tripTargets (r : Record) : List Nat := (List.range (recByte r 3)).map fun k => recU16 r (4 + 2 * k)

/-- A target that a trip output may command (R173, R225). -/
def targetLegal (img : List Record) (action id : Nat) : Bool :=
  match kindOf id with
  | none => true
  | some .dp => let k := recByte (sub0 img id) 0
    if action = 2 then k == 4 else dpOut k
  | some .uc => action != 2 && 5 ≤ recByte (sub0 img id) 0
  | some .ax => action != 2 && imgHasCell img id
  | some _ => false

/-- A mask record selects an input that no TRIPIN configures. -/
def maskBad (img : List Record) (r : Record) (base : Nat) : Bool :=
  (List.range 128).any fun k => pBit r (k / 8) (k % 8) && !((tripins img).any fun q => tripInput q == base + k)

def tripBad (img : List Record) (r : Record) : Bool :=
  let id := recTarget r
  let tx := recByte r 20
  match recSub r with
  | 0 =>
    let has (k : Nat) : Bool := (findRec img T_TRIP k id).isSome
    !has 1 || !has 2 || (tx != 0xFF && !has 3) || (selectedOf img id).isEmpty || min (selectedOf img id).length 255 < recByte r 1 ||
      ((tripTargets r).any fun t => !targetLegal img (recByte r 2) t) ||
      ((trips0 img).any fun q => recTarget q != id &&
        (((tripTargets q).any fun t => (tripTargets r).contains t && recByte q 2 != recByte r 2) ||
          (tx != 0xFF && recByte q 20 == tx && recByte q 21 == recByte r 21)))
  | 1 => (findRec img T_TRIP 0 id).isNone || maskBad img r 0
  | 2 => (findRec img T_TRIP 0 id).isNone || maskBad img r 128
  | 3 =>
    match findRec img T_TRIP 0 id with
    | none => true
    | some r0 =>
      recByte r0 20 == 0xFF ||
        (trips0 img).any fun q => recByte q 20 == recByte r0 20 &&
          match findRec img T_TRIP 3 (recTarget q) with
          | some q3 => q3.toNat % 2 ^ 208 != r.toNat % 2 ^ 208
          | none => false
  | _ => true

/-! Universal channels (R199, R205, R206), points (R225), axes (R244, R245). -/

def ucBad (img : List Record) (r : Record) : Bool :=
  let id := recTarget r
  let r0 := sub0 img id
  match recSub r with
  | 0 =>
    (pBit r 2 4 && !hasSub img id 3) || (ucTakesCommand img id && !hasBind img id 0) || (recByte r 5 == 2 && !tableWhole img id (recByte r 6))
  | 1 => (!pZero r 8 && !(recByte r0 0 == 3 && recByte r0 2 / 32 % 4 == 0)) || (recByte r 12 != 0 && recByte r0 0 != 4)
  | 2 => pBit r0 2 2 && recByte r 0 != 0
  | _ => !pBit r0 2 4

def dpBad (img : List Record) (r : Record) : Bool :=
  let id := recTarget r
  let k := recByte r 0
  let neighbour := sub0 img (if id % 2 = 0 then id + 1 else id - 1)
  (k == 5 && !(id % 2 == 1 && pBit neighbour 2 2)) || (pBit r 2 2 && recByte neighbour 0 != 5) || (dpOut k && recByte r 6 == 0xFF && !hasBind img id 0) ||
    (k == 3 && recByte r 6 != 0xFF && recByte (sub0 img (phId (recByte r 6))) 24 != cellNum id) ||
    (k == 3 && recByte r 6 != 0xFF && !imgHasCell img (phId (recByte r 6))) ||
    (dpOut k && recU16 r 4 * 1000000 < 2 * (rateOf img id).1 * imgTsNs img)

def axBad (img : List Record) (r : Record) : Bool :=
  let id := recTarget r
  let r0 := sub0 img id
  let r3 := getRec img T_CELL 3 id
  match recSub r with
  | 0 =>
    !hasSub img id 1 || !hasSub img id 2 || (recByte r 2 != 0 && !hasSub img id 3) || (pBit r 1 0 && !hasSub img id 4) || !hasBind img id 0
  | 2 => decide (pVal r3 14 < pVal r3 18) && !pIn r 14 (pVal r3 14) (pVal r3 18)
  | 3 => decide (pVal r0 20 < pVal r 0)
  | 4 => !pBit r0 1 0
  | _ => false

/-! All of stage 2 that one record of an effective image can break with the others. -/

def refBad (img : List Record) (r : Record) : Bool :=
  let ty := recType r
  let id := recTarget r
  if ty = T_CELL then
    (kindOf id).isSome && (!hasSub img id 0 ||
      match kindOf id with
      | some .fc => fcBad img r
      | some .lp => lpBad img r
      | some .ph => phBad img r
      | some .uc => ucBad img r
      | some .dp => dpBad img r
      | some .ax => axBad img r
      | _ => false)
  else if ty = T_BIND then bindBad img r
  else if ty = T_SIGNAL then signalBad img r
  else if ty = T_RATE then rateBad img r
  else if ty = T_TABLE then tableBad img r
  else if ty = T_TRIPIN then recSub r == 0 && tripinBad img r
  else if ty = T_TRIP then (kindOf id).isSome && tripBad img r
  else if ty = T_RECORDER then recByte r 0 == 12 && (signalOf img (recU32 r 16)).isNone
  else if ty = T_PANEL then
    (List.range 6).any fun k => recU32 r (2 + 4 * k) != 0 && (signalOf img (recU32 r (2 + 4 * k))).isNone
  else false

end Sys2Proof.Machine
end

