-- ==== Sys2Proof/Machine/Validate.lean ====
section
/-! DEFINITION. Sections, delta images and the five stages of validation (R33, R50, R59–R61, R500). -/

namespace Sys2Proof.Machine

/-- What a validation ends with; stage 0 is success (R50, IMG.FAILREC). -/
structure Verdict where
  code : Code
  stage : Nat
  /-- the record named lies in the delta section -/
  delta : Bool
  index : Nat
  deriving DecidableEq, Repr

def Verdict.ok : Verdict := ⟨E_OK, 0, false, 0⟩
def Verdict.passed (v : Verdict) : Bool := v.stage == 0

/-- A record of an effective image with its section: true for the delta section. -/
abbrev Entry := Bool × Record

/-- Place of an entry in index order, base section first. -/
def entryKey (e : Entry) : Nat := e.1.toNat * 65536 + recSeq e.2

/-- Lowest entry in index order, base section first (R500). -/
def lowestEntry (l : List Entry) : Option Entry :=
  l.foldl (fun m e => match m with
    | none => some e
    | some k => if entryKey e < entryKey k then some e else some k) none

/-- The verdict of a stage on the entries that break it. -/
def judge (code : Code) (stage : Nat) (broken : List Entry) : Verdict :=
  match lowestEntry broken with
  | none => Verdict.ok
  | some e => ⟨code, stage, e.1, recSeq e.2⟩

/-- The first failure among several verdicts (R50). -/
def firstOf : List (Unit → Verdict) → Verdict
  | [] => Verdict.ok
  | f :: rest => let v := f ()
    if v.passed then firstOf rest else v

/-! Sections (R33, R38). -/

def secHeader (sec : List Record) : Record := sec.getD 0 0
def secSighdr (sec : List Record) : Record := sec.getD (sec.length - 3) 0
def secR (sec : List Record) : Record := sec.getD (sec.length - 2) 0
def secS (sec : List Record) : Record := sec.getD (sec.length - 1) 0
/-- The image ID of a section; that of no section reads 0. -/
def imageIdOf (sec : List Record) : Nat := match sec with
  | [] => 0
  | _ => recU64 (secR sec) 0
def secIsDelta (sec : List Record) : Bool := recByte (secHeader sec) 2 == 1
/-- The records between HEADER and SIGHDR, PAD left out (R30, R61). -/
def secBody (sec : List Record) : List Record := ((sec.take (sec.length - 3)).drop 1).filter fun r => recType r != T_PAD

/-- A DELETE record removes another record: the one of its key, or all that belong to a cell (R61). -/
def belongsTo (id : Nat) (r : Record) : Bool :=
  ([T_CELL, T_TRIP, T_BIND, T_RATE, T_TABLE].contains (recType r) && recTarget r == id) || (recType r == T_SIGNAL && sigProducer r == id)
def deletes (d r : Record) : Bool :=
  let ty := recByte d 0
  let sub := recByte d 1
  let id := recU16 d 2
  if sub = 0xFF ∧ (ty = T_CELL ∨ ty = T_TRIP ∧ kindOf id = some .tout) then belongsTo id r
  else if ty = T_SIGNAL then recKey r == some (T_SIGNAL, 0, recU32 d 4)
  else if ty = T_TRIPIN then recKey r == some (T_TRIPIN, sub, recU32 d 4)
  else recKey r == some (ty, sub, id)

def deletesOf (sec : List Record) : List Record := (secBody sec).filter fun r => recType r == T_DELETE
def suppliedBy (sec : List Record) : List Record := (secBody sec).filter fun r => recType r != T_DELETE

/-- R61: the base with the delta applied; each entry tells the section it comes from. -/
def applyDelta (base delta : List Record) : List Entry :=
  let gone := deletesOf delta
  let put := suppliedBy delta
  let kept := (base.filter fun r => !gone.any fun d => deletes d r).map fun r =>
    match put.find? fun q => recKey q == recKey r with
    | some q => (true, q)
    | none => (false, r)
  kept ++ (put.filter fun q => !base.any fun r => recKey r == recKey q).map fun q => (true, q)

/-- The effective image of a bank's sections: a full section, or a base section and a delta section (R61). -/
def effectiveOf (base main : List Record) : List Entry :=
  match base with
  | [] => (secBody main).map fun r => (false, r)
  | _ => applyDelta (secBody base) main

/-- The records that cells run. -/
def recordsOf (l : List Entry) : List Record := l.map Prod.snd

/-! Stage 2. -/

/-- Indices at which a section departs from the layout of R33, holds a record that is illegal by itself, or a key that a later record repeats (R32). -/
def sectionBad (sec : List Record) : List Nat :=
  let n := sec.length
  let full := !secIsDelta sec
  -- a section of fewer than three records shows its HEADER alone, whose RECORDS is then illegal
  (List.range (if n < 3 then 1 else n - 2)).filter fun i =>
    let r := sec.getD i 0
    let ty := recType r
    let key := recKey r
    recSeq r != i || !recordLegal r ||
      (if i = 0 then ty != T_HEADER
       else ty == T_HEADER || (ty == T_MODULE && i != 1) || (full && i == 1 && ty != T_MODULE) || (ty == T_SIGHDR) != (i == n - 3) ||
         (full && ty == T_DELETE) || (key.isSome && ty != T_MODULE && ((sec.take (n - 2)).drop (i + 1)).any fun q => recKey q == key))

/-- Indices of the delta section whose records R61 rejects: a DELETE that keys nothing in the base, or the MODULE record, and of two records that
exclude each other the lower. -/
def deltaBad (base : Option (List Record)) (sec : List Record) : List Nat :=
  let body := secBody sec
  let gone := deletesOf sec
  let b := base.getD []
  -- a DELETE removes the record's key: the record itself, or one of the base with its key
  let clears (d y : Record) : Bool := deletes d y || ((recKey y).isSome && b.any fun r => deletes d r && recKey r == recKey y)
  let clash (x y : Record) : Bool :=
    if recType x = T_DELETE then
      if recType y = T_DELETE then x.toNat % 2 ^ 208 == y.toNat % 2 ^ 208 || b.any fun r => deletes x r && deletes y r
      else clears x y
    else gone.contains y && clears y x
  (body.filter fun x =>
    (recType x == T_DELETE && (recByte x 0 == T_MODULE || (base.isSome && !b.any (deletes x)))) || body.any fun y => recSeq x < recSeq y && clash x y).map recSeq

/-- The place of a record in a bank: the section, true for a delta, and the index. -/
abbrev Place := Bool × Nat

/-- The verdict of stage 2 on the places that break it: the lowest is named, base section first (R500). -/
def judgeFormat (broken : List Place) : Verdict :=
  match broken.foldl (fun (m : Option Place) p => match m with
    | none => some p
    | some k => if p.1.toNat * 65536 + p.2 < k.1.toNat * 65536 + k.2 then some p else some k) none with
  | none => Verdict.ok
  | some p => ⟨E_IMG_FORMAT, 2, p.1, p.2⟩

/-- Places of an effective image whose references break R34 or R50. A record whose SEQ is not its index is named by `sectionBad`. -/
def refsBad (base main : List Record) : List Place :=
  let l := effectiveOf base main
  let placed (e : Entry) : Bool := (if e.1 || base.isEmpty then main else base).getD (recSeq e.2) 0 == e.2
  (l.filter fun e => placed e && refBad (recordsOf l) e.2).map fun e => (e.1, recSeq e.2)

/-- Stage 2 on a bank: a base section as a full image; then the section staged, by itself and in the effective image. A delta that has no base is
judged alone (R60). -/
def stageFormat (base main : List Record) : Verdict :=
  let d := secIsDelta main
  let orphan := base.isEmpty && d
  let whole (d : Bool) (l : List Nat) : List Place := l.map fun i => (d, i)
  firstOf
    [ fun _ => if base.isEmpty then Verdict.ok
        else judgeFormat (whole false (sectionBad base ++ if secIsDelta base then [0] else []) ++ refsBad [] base),
      fun _ => judgeFormat (whole d (sectionBad main ++ if d then deltaBad (if orphan then none else some (secBody base)) main else []) ++
        if orphan then [] else refsBad base main) ]

/-! Stage 3. -/

/-- The section's signature verifies through an ACTIVE key slot (R36, R37). -/
def sectionSigned (active : Nat → Bool) (keys : List (BitVec 256)) (sec : List Record) : Bool :=
  let slot := recByte (secSighdr sec) 0
  active slot && ed25519 (keys.getD slot 0) (sec.take (sec.length - 2)) (secR sec) (secS sec)

def stageSignature (active : Nat → Bool) (keys : List (BitVec 256)) (base main : List Record) : Verdict :=
  if !base.isEmpty && !sectionSigned active keys base then ⟨E_IMG_SIG, 3, false, base.length - 3⟩
  else if !sectionSigned active keys main then ⟨E_IMG_SIG, 3, secIsDelta main, main.length - 3⟩
  else Verdict.ok

/-! Stage 4. -/

/-- A section is for this module: hardware revision 3, release 2, the mode and the address (R50). -/
def headerFits (mode addr : Nat) (sec : List Record) : Bool :=
  let h := secHeader sec
  recByte h 4 ≤ 3 && 3 ≤ recByte h 5 && recByte h 6 == 2 && recByte h 3 == mode && (recByte h 7 == 0 || recByte h 7 == addr)

/-- The one signal that a Tabor template cell produces, on port 0 (R446). -/
def templateSignal (img : List Record) (id : Nat) : Option Record :=
  match (signalsOf img).filter fun r => sigProducer r == id with
  | [r] => if sigPort r = 0 then some r else none
  | _ => none

/-- The output cells with the template cells that command them (R446): UC16–UC23 from FC4064, DP16–DP31 from FC4072. -/
def templatePairs : List (Nat × Nat) :=
  (List.range 8).map (fun n => (ucId (16 + n), fcId (4064 + n))) ++ (List.range 16).map fun i => (dpId (16 + i), fcId (4072 + i))

/-- Records by which an image departs from R444–R446; a record that is missing is laid to HEADER, given here as the entry of a whole section. -/
def taborBad (l : List Entry) (header : Entry) : List Entry :=
  let img := recordsOf l
  let entryOf (ty sub id : Nat) : Entry := (l.find? fun e => recType e.2 == ty && recSub e.2 == sub && recTarget e.2 == id).getD header
  let cellBad (id sub : Nat) (ok : Record → Bool) : List Entry :=
    match findRec img T_CELL sub id with
    | some r => if ok r then [] else [entryOf T_CELL sub id]
    | none => [header]
  let hundred (r : Record) (i : Nat) : Bool := pFin r i && pVal r i == 100
  ((List.range 16).flatMap fun n => cellBad (ucId n) 0 fun r => pByte r 0 1 4 && !pBit r 2 2) ++
  ((List.range 8).flatMap fun n => cellBad (ucId (16 + n)) 0 fun r => recByte r 0 == 6 && recByte r 1 == 1) ++
  ((List.range 16).flatMap fun n => cellBad (dpId n) 0 fun r => recByte r 0 == 1) ++
  ((List.range 16).flatMap fun n => cellBad (dpId (16 + n)) 0 fun r => dpOut (recByte r 0) && !pBit r 2 2) ++
  ((List.range 32).flatMap fun n => cellBad (lpId n) 0 fun r => lpKind r == 0 && pZero r 6 && hundred r 10) ++
  ((List.range 32).flatMap fun n => cellBad (lpId n) 1 fun r => pZero r 0 && hundred r 4) ++
  (if recU16 (moduleOf img) 0 = 80 then [] else [entryOf T_MODULE 0 0xFFFF]) ++
  (l.filter fun e => recType e.2 == T_SIGNAL && (sigProducer e.2 == 0xFFFE || pBit e.2 7 0)) ++
  (templatePairs.flatMap fun p =>
    (cellBad p.2 0 fun r => fcOp r == 0x34 && (rateOf img p.2).1 == 1 && (templateSignal img p.2).isSome) ++
      match findRec img T_BIND 0 p.1, templateSignal img p.2 with
      | some b, some g => if bindSig b = sigId g ∧ bindBound b = 0 then [] else [entryOf T_BIND 0 p.1]
      | _, _ => [header])

/-- Stage 4; `wanted` is the image ID that a delta must name (R50, R59). -/
def stageCompat (mode addr : Nat) (wanted : Nat) (base main : List Record) : Verdict :=
  let d := secIsDelta main
  firstOf
    [ fun _ => if base.isEmpty || headerFits mode addr base then Verdict.ok else ⟨E_IMG_COMPAT, 4, false, 0⟩,
      fun _ => if headerFits mode addr main then Verdict.ok else ⟨E_IMG_COMPAT, 4, d, 0⟩,
      fun _ => if d && (base.isEmpty || recU64 (secHeader main) 12 != wanted) then ⟨E_IMG_COMPAT, 4, true, 0⟩ else Verdict.ok,
      fun _ => if mode = 1 then judge E_IMG_COMPAT 4 (taborBad (effectiveOf base main) (d, secHeader main)) else Verdict.ok ]

/-! Stage 5. -/

/-- Cell IDs that a record names, in TARGET and in payload fields. -/
def namedCells (r : Record) : List Nat :=
  let ty := recType r
  (if [T_CELL, T_BIND, T_RATE, T_TABLE, T_TRIP].contains ty then [recTarget r] else []) ++
    (if ty = T_SIGNAL ∧ sigProducer r ≠ 0xFFFE then [sigProducer r] else []) ++ (if ty = T_TRIP ∧ recSub r = 0 then tripTargets r else [])

/-- SIGNAL entries, in index order, that exceed 8,192 or reuse a SLOT (R18, R500). -/
def signalExcess : Nat → List Nat → List Entry → Option Entry
  | _, _, [] => none
  | n, slots, e :: rest =>
    if 8192 ≤ n ∨ slots.contains (sigSlot e.2) then some e else signalExcess (n + 1) (sigSlot e.2 :: slots) rest

/-- Entries in index order: base section first. -/
def inOrder (l : List Entry) : List Entry := l.mergeSort fun a b => decide (entryKey a ≤ entryKey b)

/-- Channels of a phasor group's inputs. -/
def groupChannels (r : Record) : List Nat := ((List.range 8).map (recByte r)).filter (· != 0xFF)

/-- Entries that take part when a channel stands in two groups, or in a group and in a function that excludes waveform mode (R144, R50). -/
def waveBad (l : List Entry) : List Entry :=
  let groups := l.filter fun e => recType e.2 == T_CELL && recSub e.2 == 0 && kindOf (recTarget e.2) == some .ph
  let excluded (r : Record) : Bool := recByte r 0 != 1 || recByte r 1 == 1
  l.filter fun e =>
    recType e.2 == T_CELL && recSub e.2 == 0 &&
      match kindOf (recTarget e.2) with
      | some .ph =>
        (groupChannels e.2).any fun c =>
          (groups.any fun g => recTarget g.2 != recTarget e.2 && (groupChannels g.2).contains c) ||
            (l.any fun u => recType u.2 == T_CELL && recSub u.2 == 0 && recTarget u.2 == ucId c && excluded u.2)
      | some .uc => excluded e.2 && groups.any fun g => (groupChannels g.2).contains (cellNum (recTarget e.2))
      | _ => false

/-- A cell with what its evaluation costs: divisor, phase, CLK_CELL cycles, bound inputs, published signals. -/
structure CellCost where
  id : Nat
  div : Nat
  phase : Nat
  cycles : Nat
  inputs : Nat
  ports : Nat

def cellCosts (img : List Record) : List CellCost :=
  (cellsOf img).map fun id =>
    let r := rateOf img id
    { id := id, div := r.1, phase := r.2,
      cycles := match kindOf id with
        | some .fc => fcCost (sub0 img id)
        | some .lp => lpCost img id
        | _ => 0,
      inputs := (bindsOf img id).length, ports := ((signalsOf img).filter fun g => sigProducer g == id).length }

def CellCost.due (c : CellCost) (n : Nat) : Bool := n % c.div == c.phase
def CellCost.block (c : CellCost) : Nat := c.id / 256

/-- Process-image allotment of a list of due cells of one block (R86). -/
def allotment (l : List CellCost) : Nat := (l.map CellCost.inputs).sum + ((l.map CellCost.ports).sum + 3) / 4

/-- Cycles of CLK_CELL that a function or loop block has in a stroke (R85). -/
def cyclesPerStroke (tsUnits : Nat) : Nat := (tsUnits * 125 - 15) * 250

/-- The entry that stands for a block in a stroke: SUB 0 of its lowest-numbered due cell (R500). -/
def standsFor (l : List Entry) (due : List CellCost) : List Entry :=
  match (due.map CellCost.id).foldl (fun m i => some (match m with
    | none => i
    | some k => min i k)) (none : Option Nat) with
  | none => []
  | some id => l.filter fun e => (recType e.2 == T_CELL || recType e.2 == T_TRIP) && recSub e.2 == 0 && recTarget e.2 == id

/-- The first stroke of the 1,024-stroke cycle in which a block's evaluations exceed its cycles (R85), or a region's allotments half its tokens (R86). -/
def budgetBad (l : List Entry) : List Entry :=
  let img := recordsOf l
  let cs := cellCosts img
  let ts := recU16 (moduleOf img) 0
  let imports := ((signalsOf img).filter fun g => sigProducer g == 0xFFFE).length
  let blocks := (cs.map CellCost.block).eraseDups.mergeSort
  let evalOver := (List.range 1024).findSome? fun n =>
    (blocks.find? fun b => cyclesPerStroke ts < ((cs.filter fun c => c.block == b && c.due n).map CellCost.cycles).sum).map fun b => (n, b)
  let region (n k : Nat) : Nat :=
    ((blocks.filter fun b => b / 32 == k).map fun b => allotment (cs.filter fun c => c.block == b && c.due n)).sum + (if k = 3 then (imports + 3) / 4 else 0)
  let tokenOver := (List.range 1024).findSome? fun n => ((List.range 5).find? fun k => ts * 31250 < region n k).map fun k => (n, k)
  match evalOver with
  | some (n, b) => standsFor l (cs.filter fun c => c.block == b && c.due n)
  | none =>
    match tokenOver with
    | none => []
    | some (n, k) =>
      match standsFor l (cs.filter fun c => c.id / 8192 == k && c.due n) with
      | [] => l.filter fun e => recType e.2 == T_SIGNAL && sigProducer e.2 == 0xFFFE
      | es => es

/-- SIGNAL entries beyond the number that can be exported on the chain or the plant network (R287, R318). -/
def exportBad (l : List Entry) : List Entry :=
  let exp (bit : Nat) : List Entry := inOrder (l.filter fun e => recType e.2 == T_SIGNAL && pBit e.2 7 bit)
  ((exp 1).drop 8160).take 1 ++ ((exp 0).drop 5824).take 1

/-- SIGNAL entries of the CAN export frames beyond 64 of a controller (R359). -/
def canExportBad (l : List Entry) : List Entry :=
  [false, true].flatMap fun c =>
    let es := inOrder (l.filter fun e => recType e.2 == T_SIGNAL && pBit e.2 7 2 && pBit e.2 10 0 == c)
    let frames := ((es.map fun e => canFrameOf e.2).eraseDups).drop 64
    es.filter fun e => frames.contains (canFrameOf e.2)

/-- Stage 5, in the order in which R50 lists the checks, the export limits after them. -/
def stageResource (base main : List Record) : Verdict :=
  let l := effectiveOf base main
  let sigs := inOrder (l.filter fun e => recType e.2 == T_SIGNAL)
  let res (b : List Entry) : Verdict := judge E_IMG_RESOURCE 5 b
  firstOf
    [ fun _ => res (l.filter fun e => (namedCells e.2).any fun id => (kindOf id).isNone),
      fun _ => res (signalExcess 0 [] sigs).toList,
      fun _ => res (l.filter fun e => recType e.2 == T_TRIPIN && recSub e.2 != 0),
      fun _ => res (waveBad l),
      fun _ => res (budgetBad l),
      fun _ => if 65536 < base.length + main.length then ⟨E_IMG_RESOURCE, 5, true, 0⟩ else Verdict.ok,
      fun _ => res (exportBad l),
      fun _ => res (canExportBad l) ]

/-! All stages. -/

/-- Stage 1: no stored record reads uncorrectable, and HEADER:RECORDS is their number (R50, R500). -/
def stageCheck (badBase bad : List Nat) (base main : List Record) : Verdict :=
  let d := secIsDelta main
  let first (l : List Nat) : Option Nat := l.foldl (fun m i => some (match m with
    | none => i
    | some k => min i k)) none
  match first badBase, first bad with
  | some i, _ => ⟨E_IMG_CHECK, 1, false, i⟩
  | none, some i => ⟨E_IMG_CHECK, 1, d, i⟩
  | none, none =>
    if !base.isEmpty && recU32 (secHeader base) 8 != base.length then ⟨E_IMG_CHECK, 1, false, 0⟩
    else if main.isEmpty || recU32 (secHeader main) 8 != main.length then ⟨E_IMG_CHECK, 1, d, 0⟩
    else Verdict.ok

/-- R50: the stages in order, the first failure deciding. -/
def validateBank (b : Bank) (active : Nat → Bool) (keys : List (BitVec 256)) (mode addr wanted : Nat) : Verdict :=
  firstOf
    [ fun _ => stageCheck b.badBase b.bad b.base b.main,
      fun _ => stageFormat b.base b.main,
      fun _ => stageSignature active keys b.base b.main,
      fun _ => stageCompat mode addr wanted b.base b.main,
      fun _ => stageResource b.base b.main ]

end Sys2Proof.Machine
end

