-- ==== Sys2Proof/Machine/ImageCmd.lean ====
section
/-! DEFINITION. Commands on the image store and the key slots (R39, R42–R52, R57, R64), and the completions of the operations they start. -/

namespace Sys2Proof.Machine

/-! Phases of IMG.STATUS:PHASE (R63). -/
def phIdle : Nat := 0
def phStaging : Nat := 1
def phValidating : Nat := 2
def phSaving : Nat := 3
def phPreparing : Nat := 4
def phPending : Nat := 5

def State.imgPhase (s : State) : Nat := s.rd nvjBase Reg.IMG_STATUS_PHASE
def State.setPhase (s : State) (n : Nat) : State := s.wr nvjBase Reg.IMG_STATUS_PHASE n
def State.setResult (s : State) (c : Code) : State := s.wr nvjBase Reg.IMG_STATUS_RESULT c.toNat

/-- The operation in progress ends with a result. -/
def State.endOp (s : State) (c : Code) : State := (s.setPhase phIdle).setResult c

/-- A bank is the active one; none is before the first commit. -/
def State.isActive (s : State) (b : Bool) : Bool := s.img.committed && s.activeBank == b

def State.validBank (s : State) (b : Bool) : Bool := s.flag nvjBase (bankValid b)

/-- IMG.CTRL:BANK takes the bank that an accepted operation names (R46). -/
def State.nameBank (s : State) (b : Bool) : State := s.setFlag nvjBase Reg.IMG_CTRL_BANK b

/-- Module state and phase in which operations are accepted (R47). -/
def State.imgOpen (s : State) : Code :=
  if !s.mstIn [stLoad, stReady, stRun, stService] then E_STATE
  else if s.imgPhase ≠ phIdle then E_BUSY
  else E_OK

/-- No bank takes record-window units any longer (R49). -/
def State.endStaging (s : State) : State :=
  (s.modBank false fun x => { x with staging := false }).modBank true fun x => { x with staging := false }

/-! OPEN (R48). -/

def decideOpen (b : Bool) (s : State) : Code × State :=
  if s.imgOpen ≠ E_OK then (s.imgOpen, s)
  else if s.isActive b then (E_LOCKED, s)
  else
    let s := (((s.nameBank b).setFlag nvjBase (bankValid b) false).setFlag nvjBase (bankSaved b) false).setFlag nvjBase (bankDelta b) false
    let s := s.endStaging.modBank b fun x =>
      { x with base := [], main := [], bad := [], badBase := [], slots := 0, staging := true }
    (E_OK, ((s.wr nvjBase Reg.IMG_NEXT_NEXT 0).setPhase phStaging).modImg fun i => { i with nextBank := b })

def execImgOpen (p : Port) (b : Bool) (s : State) : Host.Outcome State Fault Refusal := command p (decideOpen b) s

/-- OPEN_COMPLETE (R48). Image operations are CP1's, and rest while it is stopped (R190, R504). -/
def execOpenComplete (s : State) : Host.Outcome State Fault Refusal := done <| if s.imgPhase = phStaging ∧ s.dutyUp 1 then s.endOp E_OK else s

/-! Record window (R30, R49). -/

/-- The bank open for staging. -/
def State.stagingBank (s : State) : Option Bool := if s.img.b0.staging then some false else if s.img.b1.staging then some true else none

def decideUnit (u : BitVec 288) (s : State) : Code × State :=
  if !s.mstIn [stLoad, stReady, stRun, stService] then (E_STATE, s)
  else if phValidating ≤ s.imgPhase then (E_BUSY, s)
  else
    match s.stagingBank with
    | none => (E_ORDER, s)
    | some b =>
      let n := (s.bank b).main.length
      let r := decodeWord (u.extractLsb' 0 256) (u.extractLsb' 256 20) n
      if r.1.bad then (E_IMG_CHECK, s)
      else if 65536 ≤ n then (E_FULL, s)
      else if u.extractLsb' 276 12 ≠ 0 then (E_RANGE, s)
      else
        let s := s.modBank b fun x => { x with main := x.main ++ [r.2] }
        let s := s.wr nvjBase Reg.IMG_NEXT_NEXT (n + 1)
        let s := s.setFlag nvjBase (bankDelta b) (secIsDelta (s.bank b).main)
        (E_OK, s.when r.1.corrected fun s => s.bump nvjBase Reg.IMG_CORR_CORR)

def execRecordUnit (p : Port) (u : BitVec 288) (s : State) : Host.Outcome State Fault Refusal := command p (decideUnit u) s

/-! VALIDATE (R50, R60). -/

/-- The full image of a bank, and the indices of its records that read uncorrectable: its base section, or its own. -/
def fullOf (b : Bank) : List Record × List Nat := if b.base.isEmpty then (b.main, b.bad) else (b.base, b.badBase)

/-- The base section that a VALIDATE gives a bank (R60): a delta takes the full image of the active bank, and while no bank is active keeps the base
that it holds; a full section has none. -/
def State.takeBase (s : State) (x : Bank) : Bank :=
  if !secIsDelta x.main then { x with base := [], badBase := [] }
  else if s.img.committed then
    let f := fullOf (s.bank s.activeBank)
    { x with base := f.1, badBase := f.2 }
  else x

/-- The working copy equals the saved copy (IMG.STATUS:BnSAVED, R63). -/
def Bank.likeSaved (x : Bank) : Bool :=
  x.savedOk && x.bad.isEmpty && x.badBase.isEmpty && x.savedBase == x.base && x.savedMain == x.main

def decideValidate (b : Bool) (s : State) : Code × State :=
  if s.imgOpen ≠ E_OK then (s.imgOpen, s)
  else if s.isActive b then (E_LOCKED, s)
  else
    let s := (s.nameBank b).endStaging.modBank b s.takeBase
    let s := s.setFlag nvjBase (bankSaved b) (s.bank b).likeSaved
    (E_OK, (s.setPhase phValidating).modImg fun i => { i with nextBank := b })

def execImgValidate (p : Port) (b : Bool) (s : State) : Host.Outcome State Fault Refusal := command p (decideValidate b) s

/-- A key slot is ACTIVE (R39). -/
def keyField (slot : Nat) : Field := ⟨0xD4, 2 * slot, 2, .ro⟩
def State.keyActive (s : State) (slot : Nat) : Bool := slot < 4 && s.rd nvjBase (keyField slot) == 1

/-- The image ID that a delta must name (R50, R59): that of the full image in the active bank, and before one is active that of the bank's own base. -/
def State.wantedBase (s : State) (b : Bool) : Nat :=
  if s.img.committed then imageIdOf (fullOf (s.bank s.activeBank)).1 else imageIdOf (s.bank b).base

def State.verdict (s : State) (b : Bool) : Verdict :=
  validateBank (s.bank b) s.keyActive s.img.keys s.tabor.toNat (s.rd modBase Reg.MOD_ADDR_ADDR) (s.wantedBase b)

/-- The key slots that verify the sections of a bank, as a mask. -/
def slotsOf (b : Bank) : BitVec 4 :=
  let bit (sec : List Record) : BitVec 4 := if sec.isEmpty then 0 else BitVec.ofNat 4 (2 ^ (recByte (secSighdr sec) 0 % 4))
  bit b.base ||| bit b.main

/-- The outcome of a validation: the bank's VALID bit and key slots, and IMG.FAILREC (R50, R500). -/
def State.recordVerdict (s : State) (b : Bool) (v : Verdict) : State :=
  let s := s.setFlag nvjBase (bankValid b) v.passed
  let s := s.modBank b fun x => { x with slots := if v.passed then slotsOf x else 0 }
  ((s.wr nvjBase Reg.IMG_FAILREC_INDEX v.index).setFlag nvjBase Reg.IMG_FAILREC_SECTION v.delta).wr nvjBase Reg.IMG_FAILREC_STAGE v.stage

/-- VALIDATE_COMPLETE (R50). -/
def execValidateComplete (s : State) : Host.Outcome State Fault Refusal :=
  done <|
    if s.imgPhase = phValidating ∧ s.dutyUp 1 then
      let b := s.img.nextBank
      let v := s.verdict b
      (s.recordVerdict b v).endOp v.code
    else s

/-! SAVE (R42–R45). -/

def decideSave (b : Bool) (s : State) : Code × State :=
  if s.imgOpen ≠ E_OK then (s.imgOpen, s)
  else if !s.validBank b then (E_STATE, s)
  else if s.flag modBase Reg.MOD_HEALTH_NV_DEGRADED then (E_NV_WEAR, s)
  else if s.bootBank = b ∧ !s.isActive b then (E_LOCKED, s)
  else if s.flag nvjBase (bankSaved b) then (E_OK, s.nameBank b)
  else
    -- the saved copy is marked invalid before its first record (R386)
    let s := (s.nameBank b).modBank b fun x => { x with savedOk := false, savedSlots := 0 }
    (E_OK, (s.setPhase phSaving).modImg fun i => { i with nextBank := b })

def execImgSave (p : Port) (b : Bool) (s : State) : Host.Outcome State Fault Refusal := command p (decideSave b) s

/-- SAVE_COMPLETE (R42, R44, R388, R389): `blocks` are those of the image store that the save wrote. A SAVE of a bank that has become the donor meanwhile
cannot be kept (R392). -/
def execSaveComplete (blocks : List Nat) (o : NvOutcome) (s : State) : Host.Outcome State Fault Refusal :=
  done <|
    if s.imgPhase ≠ phSaving ∨ !s.dutyUp 1 then s
    else
      let b := s.img.nextBank
      let (ok, s) := s.nvWrite blocks o
      if !ok || (s.flag nvjBase Reg.NVJ_STATUS_DEGRADED && s.bootBank != b) then s.endOp E_NV_FAIL
      else
        let s := s.modBank b fun x => { x with savedBase := x.base, savedMain := x.main, savedOk := true, savedSlots := x.slots }
        let s := (s.setFlag nvjBase (bankSaved b) true).endOp E_OK
        s.when (s.isActive b) fun s => (s.modImg fun i => { i with bootUpdate := true }).updateBoot .clean

/-! COMMIT (R51, R52, R217). -/

/-- The Tocsin records of an image, and the limit comparators that they name. -/
def tocsinRecords (img : List Record) : List Record := img.filter fun r => recType r == T_TRIP || recType r == T_TRIPIN
def sameRecords (a b : List Record) : Bool :=
  (a.all fun r => b.any fun q => recContent q == recContent r) && b.all fun r => a.any fun q => recContent q == recContent r
def comparatorChannels (img : List Record) : List Nat := ((tripins img).filter fun r => recByte r 1 == 1).map fun r => recU16 r 2 / 2

/-- In RUN a commit leaves Tocsin, its comparators and the stroke period as they are (R51, R217). -/
def sameTocsin (old new : List Record) : Bool :=
  sameRecords (tocsinRecords old) (tocsinRecords new) && recU16 (moduleOf old) 0 == recU16 (moduleOf new) 0 &&
    (comparatorChannels old).all fun c =>
      (findRec old T_CELL 2 (ucId c)).map (fun r => recContent r) == (findRec new T_CELL 2 (ucId c)).map fun r => recContent r

/-- The effective image of a bank's working copy. -/
def State.effective (s : State) (b : Bool) : List Record := recordsOf (effectiveOf (s.bank b).base (s.bank b).main)

/-- Strokes from the one that runs to the one whose number's low 32 bits are IMG.AT, as it stood at COMMIT (DEDUCED, log entry 59); `none` where that has
passed (R52). -/
def State.strokesToAt (s : State) : Option Nat :=
  let d := (s.img.atNo.toNat + 2 ^ 32 - (s.strokeNo + 1) % 2 ^ 32) % 2 ^ 32
  if d < 2 ^ 31 then some d else none

/-- A preparing or pending commit whose boundary has passed is abandoned (R52). -/
def State.commitLate (s : State) : State := if s.img.atStroke ∧ s.strokesToAt.isNone then s.abandonCommit E_TIMEOUT else s

/-- Preparation of a bank starts. -/
def State.prepare (s : State) (b atStroke : Bool) (at_ : Word) : State :=
  (s.setPhase phPreparing).modImg fun i => { i with next := s.effective b, nextBank := b, atStroke := atStroke, atNo := at_ }

/-- COMMIT (R51, R52); `at_` is IMG.AT as it stands when the transaction takes effect. -/
def decideCommit (b atStroke : Bool) (at_ : Word) (s : State) : Code × State :=
  if s.imgOpen ≠ E_OK then (s.imgOpen, s)
  else if s.isActive b then (E_LOCKED, s)
  else if !s.validBank b then (E_STATE, s)
  else if s.mst = stRun ∧ !sameTocsin s.img.active (s.effective b) then (E_STATE, s)
  else
    let s := ((s.nameBank b).setFlag nvjBase Reg.IMG_CTRL_ATSTROKE atStroke).endStaging
    (E_OK, (s.prepare b atStroke at_).commitLate)

def execImgCommit (p : Port) (b atStroke : Bool) (s : State) : Host.Outcome State Fault Refusal := command p (decideCommit b atStroke (s.rdw nvjBase Reg.IMG_AT)) s

/-- PREPARATION_COMPLETE (R52). -/
def execPreparationComplete (s : State) : Host.Outcome State Fault Refusal :=
  done <| if s.imgPhase = phPreparing ∧ s.dutyUp 1 then (s.setPhase phPending).commitLate else s

/-- BOOT_BANK_UPDATE (R42); how its journal writes come out is a free value (DESIGN CHOICE, log entry 142). -/
def execBootBankUpdate (s : State) : Host.Outcome State Fault Refusal :=
  done <| if s.dutyUp 1 && s.img.bootUpdate then s.drawOutcome.2.updateBoot s.drawOutcome.1 else s

/-! ABORT and NOP (R57, R47). -/

def decideAbort (s : State) : Code × State :=
  if !s.mstIn [stLoad, stReady, stRun, stService] then (E_STATE, s)
  else
    let s := s.endStaging
    let b := s.img.nextBank
    let ph := s.imgPhase
    if ph = phIdle then (E_OK, s)
    else if ph = phPreparing ∨ ph = phPending then (E_OK, s.abandonCommit E_OK)
    else if ph = phStaging then (E_OK, s.endOp E_OK)
    else (E_OK, ((s.setFlag nvjBase (bankValid b) false).modBank b fun x => { x with slots := 0 }).endOp E_OK)

def execImgAbort (p : Port) (s : State) : Host.Outcome State Fault Refusal := command p decideAbort s

/-- OP = NOP of IMG.CTRL: no operation, so R47 does not judge it (DEDUCED, log entry 114). -/
def decideImgNop (s : State) : Code × State := (E_OK, s)

def execImgNop (p : Port) (s : State) : Host.Outcome State Fault Refusal := command p decideImgNop s

/-! Key slots (R39, R64). -/

def State.anyKeyActive (s : State) : Bool := (List.range 4).any s.keyActive

/-- R39: the port and the module state in which key operations are accepted. -/
def State.keyGate (s : State) (p : Port) : Code :=
  if p ≠ .service then E_ACCESS
  else if s.mst = stService ∨ (s.mst = stLoad ∧ !s.anyKeyActive) then E_OK
  else E_STATE

def State.keyAt (s : State) (slot : Nat) : BitVec 256 := s.img.keys.getD slot 0

/-- Where the journal keeps a key slot. -/
def keyHome (slot : Nat) : List Nat := controlHome (Config.keyPlace slot)

def decideKeyInstall (p : Port) (slot : Nat) (key : BitVec 256) (s : State) : Code × State :=
  if s.keyGate p ≠ E_OK then (s.keyGate p, s)
  else if s.keyActive slot then (E_LOCKED, s)
  else if !keyValid key ∨ ((List.range 4).any fun k => k != slot && s.keyActive k && s.keyAt k == key) then (E_RANGE, s)
  else (E_OK, (s.wr nvjBase (keyField slot) 1).modImg fun i => { i with keys := listSet i.keys slot key })

def execKeyInstall (p : Port) (w : KeySlotWrite) (key : BitVec 256) (s : State) : Host.Outcome State Fault Refusal :=
  command p (journaled (keyHome w.slot.val) w.o (decideKeyInstall p w.slot.val key)) s

def decideKeyRevoke (p : Port) (slot : Nat) (s : State) : Code × State :=
  if s.keyGate p ≠ E_OK then (s.keyGate p, s)
  else if !s.keyActive slot then (E_STATE, s)
  else if ((List.range 4).filter s.keyActive).length = 1 then (E_STATE, s)
  else if s.keyUse / 2 ^ slot % 2 = 1 then (E_LOCKED, s)
  else (E_OK, (s.wr nvjBase (keyField slot) 2).modImg fun i => { i with keys := listSet i.keys slot 0 })

def execKeyRevoke (p : Port) (w : KeySlotWrite) (s : State) : Host.Outcome State Fault Refusal :=
  command p (journaled (keyHome w.slot.val) w.o (decideKeyRevoke p w.slot.val)) s

/-- OP = NOP of KEY.CTRL: no key operation, so R39 does not judge it (DEDUCED, log entry 114). -/
def decideKeyNop (s : State) : Code × State := (E_OK, s)

def execKeyNop (p : Port) (s : State) : Host.Outcome State Fault Refusal := command p decideKeyNop s

end Sys2Proof.Machine
end

