-- ==== Sys2Proof/Machine/Tabor.lean ====
section
/-! DEFINITION. Tabor mode (18): the legacy registers and messages of the Type 41 (R446–R452), bonded pairs, the alarm queue, time setting and the
change of mode. -/

namespace Sys2Proof.Machine

/-- Type 41 response to a native result code (R451); 0 stands for the acknowledge. -/
def exceptionOf (c : Code) : Nat :=
  if c = E_OK then 0
  else if c = E_ADDR ∨ c = E_ALIGN then 0x82
  else if c = E_RANGE ∨ c = E_RATE then 0x83
  else if c = E_ACCESS ∨ c = E_LOCKED ∨ c = E_TABOR then 0x81
  else if c = E_STATE ∨ c = E_BUSY ∨ c = E_FULL then 0x84
  else 0x85

/-- The module answers Type 41 messages: Tabor mode with NA on and CP1 at its duties (R190, R447, R473). -/
def State.taborUp (s : State) : Bool :=
  s.tabor && s.role .a != roleOff && s.mstIn [stEnum, stLoad, stReady, stRun, stSafe, stService] && s.dutyUp 1

/-- NA accepts a message: its exchange cycle is not missed (R448). -/
def State.taborHeard (s : State) : State := s.modPath .a fun x => { x with heard := true }

def State.reply41 (s : State) (requester exception : Nat) (data : List (BitVec 16)) : State := s.emit (.type41 requester exception data)

/-- TAB.STATUS follows the queue and the pending writes (R461). -/
def State.showTab (s : State) : State :=
  let s := (s.wr tabBase Reg.TAB_STATUS_QLEN s.tab.queue.length).wr tabBase Reg.TAB_STATUS_PENDING s.tab.pairs.length
  s.setFlag tabBase Reg.TAB_STATUS_OVFPEND (s.tab.refused != 0)

/-! Legacy registers (R449). -/

/-- Loop number and register of a legacy loop address. -/
def legacyLoop (a : Nat) : Option (Nat × Nat) := if 0x400 ≤ a ∧ a < 0x600 ∧ a % 16 ≤ 8 then some ((a - 0x400) / 16, a % 16) else none

def legacyListed (a : Nat) : Bool :=
  a < 2 || (0x100 ≤ a && a < 0x120) || (0x200 ≤ a && a < 0x208) || (0x300 ≤ a && a < 0x304) || (0x310 ≤ a && a < 0x330) || (legacyLoop a).isSome

/-- The partner of a register of a bonded pair (R449). -/
def legacyPartner (a : Nat) : Option Nat :=
  if a = 0x301 then some 0x302
  else if a = 0x302 then some 0x301
  else match legacyLoop a with
    | some (_, 4) => some (a + 1)
    | some (_, 5) => some (a - 1)
    | some (_, 7) => some (a + 1)
    | some (_, 8) => some (a - 1)
    | _ => none

/-- The word last published on a port of a cell; the reset value of CELL.STATE:QUAL before that (R104). -/
def State.portWord (s : State) (id port : Nat) : SigWord :=
  (Store.get none s.fab.ports (id * 16 + port)).getD ⟨0, Q_BAD_CONFIG, 0, 65535⟩

/-- The AO template cells and the DO template cells (R446). -/
def aoCell (n : Nat) : Nat := fcId (4064 + n)
def doCell (i : Nat) : Nat := fcId (4072 + i)

def bits16 (f : Nat → Bool) : Nat := ((List.range 16).map fun i => if f i then 2 ^ i else 0).sum

/-- A signed 16-bit register; a number beyond ±32,767 is clamped (AIn, R449). -/
def signed16 (x : Int) : BitVec 16 := BitVec.ofInt 16 (max (-32767) (min 32767 x))

/-- A scaled value as the legacy register carries it: `none` where R449 states no encoding for it. -/
def unsigned16 (q : Rat) : Option (BitVec 16) :=
  let x := roundNear q
  if 0 ≤ x ∧ x < 65536 then some (BitVec.ofInt 16 x) else none

/-- Fraction of the range of a channel, `none` where the channel has no range. -/
def State.legacyFraction (s : State) (uc : Nat) (v : Rat) : Option (BitVec 16) :=
  let span := s.ucEuHi uc - s.ucEuLo uc
  if span = 0 then none else some (signed16 (roundNear (10000 * ((v - s.ucEuLo uc) / span))))

/-- Legacy AI status word (R449). -/
def legacyStatus (w : SigWord) : Nat :=
  let q := w.qual
  bits16 fun i =>
    match i with
    | 0 => q == Q_BAD_SENSOR || q == Q_BAD_COMM || q == Q_BAD_CONFIG || q == Q_BAD_HW || q == Q_SAFE
    | 1 => q == Q_LOW_RANGE
    | 2 => q == Q_HIGH_RANGE
    | 3 => q == Q_HELD || q == Q_SUBSTITUTED || q == Q_UNCERTAIN || q == Q_COMPLIANCE
    | 4 => q == Q_SIMULATED || flHas w.flags FL_SIM || flHas w.flags FL_FORCED
    | _ => false

/-- A legacy register as it reads, but for the latch of DICNTi_HI (R449); `none` where the spec states no value. -/
def State.legacyValue (s : State) (a : Nat) : Option (BitVec 16) :=
  let nat (n : Nat) : Option (BitVec 16) := some (BitVec.ofNat 16 n)
  let lpw (k : Nat) (f : Field) : Rat := f32 (s.rdw (cellBase (lpId k)) f)
  let gain (k off : Nat) : Rat := f32 (s.lpGain (lpId k) 0 off)
  if a = 0 then
    nat (s.mst + 16 + (if s.tstate = tsArmed then 32 else 0) + (if s.flag modBase Reg.MOD_HEALTH_NV_DEGRADED then 64 else 0))
  else if a = 1 then nat s.addr
  else if a < 0x110 then s.legacyFraction (a - 0x100) (f32 (s.portWord (ucId (a - 0x100)) 0).val)
  else if a < 0x120 then nat (legacyStatus (s.portWord (ucId (a - 0x110)) 0))
  else if a < 0x208 then s.legacyFraction (16 + (a - 0x200)) (f32 (s.rdw (cellBase (aoCell (a - 0x200))) Reg.FC_P0))
  else if a = 0x300 then nat (bits16 fun i => f32True (s.portWord (dpId i) 0).val)
  else if a = 0x301 then none
  else if a = 0x302 then nat (bits16 fun i => f32True (s.rdw (cellBase (doCell i)) Reg.FC_P0))
  else if a = 0x303 then nat (bits16 fun i => f32True (s.portWord (dpId (16 + i)) 0).val)
  else if a < 0x330 then
    let n := (f32 (s.portWord (dpId ((a - 0x310) / 2)) 1).val).floor.toNat
    nat (if a % 2 = 0 then n % 65536 else n / 65536)
  else
    match legacyLoop a with
    | some (k, 0) => unsigned16 (100 * lpw k Reg.LP_SP)
    | some (k, 1) => unsigned16 (100 * lpw k Reg.LP_OUT)
    | some (k, 2) => nat (s.rd (cellBase (lpId k)) Reg.LP_MODE_ACT)
    | some (k, 3) =>
      let x := roundNear (100 * lpw k Reg.LP_PV)
      if -32768 ≤ x ∧ x ≤ 32767 then some (BitVec.ofInt 16 x) else none
    | some (k, 4) => if gain k 0 = 0 then none else unsigned16 (1000 / gain k 0)
    | some (k, 5) => unsigned16 (10 * gain k 4)
    | some (k, 6) => unsigned16 (100 * gain k 8)
    | some (k, 7) => unsigned16 (100 * lpw k Reg.LP_RATE_UP)
    | some (k, _) => unsigned16 (100 * lpw k Reg.LP_RATE_DN)
    | none => none

/-- A read of one legacy register; a value the spec leaves unstated is a free value. -/
def State.legacyRead (s : State) (a : Nat) : BitVec 16 × State :=
  match s.legacyValue a with
  | some v => (v, s)
  | none => let (w, s) := s.draw; (w.setWidth 16, s)

/-- The registers of one read message. DICNTi_LO latches DICNTi_HI; a latched half is returned within the message, or where the requester's last message
latched it (R450). `old` are those latches, `new` the ones of this message. -/
def State.legacyReads (s : State) (old new : List (BitVec 16 × BitVec 16 × Nat)) (requester : Nat) : List Nat → List (BitVec 16) × List (BitVec 16 × BitVec 16 × Nat) × State
  | [] => ([], new, s)
  | a :: l =>
    let count := 0x310 ≤ a && a < 0x330
    let latched := if count && a % 2 == 1 then (new ++ old).find? fun e => e.1.toNat == a else none
    let (v, s) := match latched with
      | some e => (e.2.1, s)
      | none => s.legacyRead a
    let new := if count && a % 2 == 0 then
        (BitVec.ofNat 16 (a + 1), (s.legacyRead (a + 1)).1, requester) :: new.filter fun e => e.1.toNat != a + 1
      else new
    let (vs, new, s) := s.legacyReads old new requester l
    (v :: vs, new, s)

/-- READ_REGISTERS (R448–R450). A count outside 1–120 is a value out of range. -/
def execReadRegisters (requester : Nat) (addr : BitVec 16) (n : Nat) (s : State) : Host.Outcome State Fault Refusal :=
  done <|
    if !s.taborUp then s
    else
      let mine := s.tab.latch.filter fun e => e.2.2 == requester
      let others := s.tab.latch.filter fun e => e.2.2 != requester
      let s := s.taborHeard.modTab fun t => { t with latch := others }
      let as := (List.range n).map (addr.toNat + ·)
      if n = 0 ∨ 120 < n then s.reply41 requester (exceptionOf E_RANGE) []
      else if !(as.all legacyListed) then s.reply41 requester (exceptionOf E_ADDR) []
      else
        let (vs, new, s) := s.legacyReads mine [] requester as
        (s.modTab fun t => { t with latch := others ++ new }).reply41 requester 0 vs

/-! Writes (R451, R452, R454). -/

/-- The judgement of one legacy value for its register alone (R449, R452). -/
def legacyAlone (a v : Nat) : Code :=
  if !legacyListed a then E_ADDR
  else
    let bad : Bool :=
      if a = 0 then 128 ≤ v
      else if a = 1 then 64 ≤ v
      else if 0x200 ≤ a ∧ a < 0x208 then v = 0x8000
      else match legacyLoop a with
        | some (_, 0) => 10000 < v
        | some (_, 1) => 10000 < v
        | some (_, 2) => 3 ≤ v
        | some (_, 4) => v < 10 || 10000 < v
        | _ => false
    if bad then E_RANGE else E_OK

/-- Gains of set 0 (R449): judged, then staged. -/
def decideGains0 (k : Nat) (ws : List (Nat × Word)) (s : State) : Code × State :=
  match ws.find? fun x => loopRegCheck k x.1 x.2 s != E_OK with
  | some x => (loopRegCheck k x.1 x.2 s, s)
  | none => (E_OK, ws.foldl (fun s x => s.stage (2 ^ 32 + cellBase (lpId k) + x.1) x.2) s)

/-- DOMASK and DOVAL committed as one write (R454): each point with a mask bit takes its value. -/
def decideOutputs (mask val : Nat) (s : State) : Code × State :=
  ((List.range 16).filter (bitSet mask)).foldl (fun r i =>
    if r.1 ≠ E_OK then r else decideFcParam (4072 + i) (0, f32OfBool (bitSet val i)) r.2) (E_OK, s)

/-- The native write of a register that has no partner (R449). A read-only register ignores the write (R3). -/
def legacyNative (a v : Nat) (s : State) : Code × State :=
  let pct : Word := toF32c (mkRat v 100)
  if 0x200 ≤ a ∧ a < 0x208 then
    let n := a - 0x200
    let lo := s.ucEuLo (16 + n)
    decideFcParam (4064 + n) (0, toF32c (lo + mkRat (BitVec.ofNat 16 v).toInt 10000 * (s.ucEuHi (16 + n) - lo))) s
  else match legacyLoop a with
    | some (k, 0) => decideLoopStaged k [(0x24, pct)] s
    | some (k, 1) => decideLoopStaged k [(0x28, pct)] s
    | some (k, 2) => decideLoopMode k v s
    | some (k, 6) => decideGains0 k [(0x4C, pct)] s
    | _ => (E_OK, s)

/-- The native write of a bonded pair, by the lower of its addresses (R452, R454). -/
def pairNative (a lo hi : Nat) (s : State) : Code × State :=
  if a = 0x301 then decideOutputs lo hi s
  else match legacyLoop a with
    | some (k, 4) => decideGains0 k [(0x44, toF32c (mkRat 1000 lo)), (0x48, toF32c (mkRat hi 10))] s
    | some (k, _) => decideLoopStaged k [(0x5C, toF32c (mkRat lo 100)), (0x60, toF32c (mkRat hi 100))] s
    | none => (E_ADDR, s)

/-- A pair from the value of register `a` and its partner's. -/
def pairOf (a v b w : Nat) (s : State) : Code × State := if a < b then pairNative a v w s else pairNative b w v s

def State.pendingAt (s : State) (a : Nat) : Option PairWrite := s.tab.pairs.find? fun p => p.addr.toNat == a
def State.dropPending (s : State) (a : Nat) : State := s.modTab fun t => { t with pairs := t.pairs.filter fun p => p.addr.toNat != a }
def State.holdPending (s : State) (a v : Nat) : State :=
  (s.dropPending a).modTab fun t => { t with pairs := t.pairs ++ [⟨BitVec.ofNat 16 a, BitVec.ofNat 16 v, 8⟩] }

/-- One register of a write message, `all` being the whole message: code, the pending write that an illegal pair discards, and the state (R452). -/
def State.legacyWrite (s : State) (all : List (Nat × Nat)) (a v : Nat) : Code × Option Nat × State :=
  match legacyPartner a with
  | none => let r := legacyNative a v s; (r.1, none, r.2)
  | some b =>
    match all.find? fun e => e.1 == b with
    | some e =>
      if b < a then (E_OK, none, s)
      else let r := pairOf a v b e.2 s; (r.1, none, (r.2.dropPending a).dropPending b)
    | none =>
      match s.pendingAt a, s.pendingAt b with
      | some _, _ => (E_OK, none, s.holdPending a v)
      | none, some p => let r := pairOf a v b p.value.toNat s; (r.1, some b, r.2.dropPending b)
      | none, none => if 16 ≤ s.tab.pairs.length then (E_FULL, none, s) else (E_OK, none, s.holdPending a v)

def State.legacyWrites (s : State) (all : List (Nat × Nat)) : List (Nat × Nat) → Code × Option Nat × State
  | [] => (E_OK, none, s)
  | e :: l =>
    let r := s.legacyWrite all e.1 e.2
    if r.1 ≠ E_OK then r else r.2.2.legacyWrites all l

/-- A write message is decided as a whole (R451). -/
def State.decideLegacy (s : State) (ws : List (Nat × Nat)) : Code × State :=
  match ws.find? fun e => legacyAlone e.1 e.2 != E_OK with
  | some e => (legacyAlone e.1 e.2, s)
  | none =>
    let r := s.legacyWrites ws ws
    if r.1 = E_OK then (E_OK, r.2.2.showTab)
    else match r.2.1 with
      | some b => (r.1, (s.dropPending b).showTab)
      | none => (r.1, s)

/-- WRITE_REGISTERS (R448, R451, R452). -/
def execWriteRegisters (requester : Nat) (writes : List (BitVec 16 × BitVec 16)) (s : State) : Host.Outcome State Fault Refusal :=
  done <|
    if !s.taborUp then s
    else
      let s := s.taborHeard.modTab fun t => { t with latch := t.latch.filter fun e => e.2.2 != requester }
      let ws := writes.map fun e => (e.1.toNat, e.2.toNat)
      if ws.isEmpty || 100 < ws.length then s.reply41 requester (exceptionOf E_RANGE) []
      else let r := s.decideLegacy ws; r.2.reply41 requester (exceptionOf r.1) []

/-- R453: the record of a discarded pending write. -/
def State.discardPending (s : State) (a : Nat) : State :=
  let s := ((s.dropPending a).wr tabBase Reg.TAB_PAIR_CODE E_PAIR.toNat).wr tabBase Reg.TAB_PAIR_ADDR a
  let key := match legacyLoop a with | some (k, _) => keyOfCell (lpId k) | none => 0
  ((s.bump tabBase Reg.TAB_CNT_PAIRDISC).showTab).notice .pair a E_PAIR.toNat key

/-- PAIR_DISCARD (R453): the eighth boundary has passed. -/
def execPairDiscard (addr : BitVec 16) (s : State) : Host.Outcome State Fault Refusal :=
  done <|
    match s.pendingAt addr.toNat with
    | some p => if p.left = 0 then s.discardPending addr.toNat else s
    | none => s

/-- A boundary brings each pending write one nearer to its discard (R453). -/
def State.agePairs (s : State) : State := s.modTab fun t => { t with pairs := t.pairs.map fun p => { p with left := p.left - 1 } }

/-- Cells to which a pending write belongs. -/
def legacyCells (a : Nat) : List Nat :=
  match legacyLoop a with
  | some (k, _) => [lpId k]
  | none => (List.range 16).map doCell

/-- Pending writes of cells that a commit changes are discarded with the same record (R453). -/
def State.commitPairs (s : State) (changed : List Nat) : State :=
  (s.tab.pairs.filter fun p => (legacyCells p.addr.toNat).any changed.contains).foldl (fun s p => s.discardPending p.addr.toNat) s

/-- UNSUPPORTED_MESSAGE (R448). -/
def execUnsupportedMessage (_ty : Byte) (s : State) : Host.Outcome State Fault Refusal :=
  done <| if s.taborUp then s.reply41 0 0x81 [] else s

/-- The cyclic broadcast of image N (R448): AI0–AI15, their status words, DI, DO readback and loop outputs 0–31. -/
def broadcastAddrs : List Nat := (List.range 32).map (0x100 + ·) ++ [0x300, 0x303] ++ (List.range 32).map (0x401 + 16 * ·)

def State.broadcast (s : State) : State :=
  if s.tabor && s.pathActive .a then
    let r := broadcastAddrs.foldl (fun (x : List (BitVec 16) × State) a => let r := x.2.legacyRead a; (x.1 ++ [r.1], r.2)) (([] : List (BitVec 16)), s)
    r.2.emit (.broadcast s.strokeNo ((s.rdw tmBase Reg.STK_TB_SLO).toNat + s.rd tmBase Reg.STK_TB_SHI_S * 2 ^ 32) (s.rdw tmBase Reg.STK_TB_NS).toNat r.1)
  else s

/-! Legacy alarm queue (R455–R457). -/

/-- Milliseconds of the time base, 48 bits (R457). -/
def State.stamp48 (s : State) : BitVec 48 := BitVec.ofNat 48 (s.time.sec.toNat * 1000 + s.time.ns / 1000000)

/-- An entry joins the queue with the time base value of that instant (R348, R455, R457). -/
def State.addAlarm (s : State) (kind : AlarmKind) (source newState : BitVec 16) : State :=
  let a : Alarm := { seq := s.tab.seq, event := Config.alarmCode kind, source := source, state := newState, stamp := s.stamp48 }
  ((s.modTab fun t => { t with queue := t.queue ++ [a], seq := t.seq + 1 }).bump tabBase Reg.TAB_AQCNT_ACCEPTED).showTab

/-- ALARM_QUEUE_ACCEPT (R455, R456): the first of the notifications detected, which the row names; a full queue refuses it. -/
def execAlarmQueueAccept (event : AlarmKind) (source newState : BitVec 16) (s : State) : Host.Outcome State Fault Refusal :=
  done <|
    match s.tab.noticed with
    | [] => s
    | n :: rest =>
      let named := n.kind == event && BitVec.ofNat 16 n.source == source && BitVec.ofNat 16 n.state == newState
      if !s.tabor || !s.mstIn [stEnum, stLoad, stReady, stRun, stSafe, stService] || !named then s
      else
        let s := s.modTab fun t => { t with noticed := rest }
        if 256 ≤ s.tab.queue.length then
          ((s.modTab fun t => { t with refused := min (t.refused + 1) 65535 }).bump tabBase Reg.TAB_CNT_LOST).showTab
        else s.addAlarm event source newState

/-- A free entry takes the OVERFLOW entry first (R456); the spec gives it no source number. -/
def State.overflowEntry (s : State) : State :=
  if s.tab.refused = 0 then s
  else
    let n := s.tab.refused
    let (w, s) := s.draw
    (s.modTab fun t => { t with refused := 0 }).addAlarm .overflow (w.setWidth 16) (BitVec.ofNat 16 n)

def Alarm.words (a : Alarm) : List (BitVec 16) :=
  [a.seq, a.event.setWidth 16, a.source, a.state, a.stamp.extractLsb' 0 16, a.stamp.extractLsb' 16 16, a.stamp.extractLsb' 32 16]

/-- ALARM_QUEUE_READ (R456): the oldest entry; what an empty queue answers is not stated. -/
def execAlarmQueueRead (s : State) : Host.Outcome State Fault Refusal :=
  done <|
    if !s.taborUp then s
    else
      let s := s.taborHeard
      match s.tab.queue with
      | a :: _ => s.reply41 0 0 a.words
      | [] => let (w, s) := s.draw; s.reply41 0 (w.toNat % 256) []

/-- ALARM_ACKNOWLEDGE (R456). -/
def execAlarmAcknowledge (seq : BitVec 16) (s : State) : Host.Outcome State Fault Refusal :=
  done <|
    if !s.taborUp then s
    else
      let s := s.taborHeard
      match s.tab.queue with
      | a :: l =>
        if a.seq = seq then
          let s := (s.modTab fun t => { t with queue := l }).bump tabBase Reg.TAB_AQCNT_ACKED
          s.overflowEntry.showTab.reply41 0 0 []
        else s.reply41 0 0x84 []
      | [] => s.reply41 0 0x84 []

/-! Time setting and mode (R458, R460). -/

/-- TIME_SET (R458): a write of TM.SET without the port rule. -/
def execTimeSet (ms : BitVec 48) (s : State) : Host.Outcome State Fault Refusal :=
  done <|
    if !s.taborUp then s
    else
      let sec := ms.toNat / 1000
      let r := decideTmSet .service (ms.toNat % 1000 * 1000000) (sec % 2 ^ 32) (sec / 2 ^ 32) s.taborHeard
      r.2.reply41 0 (exceptionOf r.1) []

/-- The write of MOD.MODE:NEXT (R460), but for the journal. -/
def decideModeNext (p : Port) (next : Bool) (s : State) : Code × State :=
  if p ≠ .service then (E_ACCESS, s)
  else if !s.mstIn [stReady, stService] then (E_STATE, s)
  else if s.flag modBase Reg.MOD_HEALTH_NV_DEGRADED then (E_NV_WEAR, s)
  else (E_OK, s.setFlag modBase Reg.MOD_MODE_NEXT next)

/-- Where the journal keeps MOD.MODE:NEXT. -/
def modeHome : List Nat := settingsHome (Config.settingPlace (modBase + Reg.MOD_MODE_NEXT.off))

/-- MODE_NEXT_WRITE (R460). -/
def execModeNextWrite (p : Port) (next : Bool) (o : NvOutcome) (s : State) : Host.Outcome State Fault Refusal :=
  command p (journaled modeHome o (decideModeNext p next)) s

end Sys2Proof.Machine
end

