-- ==== Sys2Proof/Machine/Commit.lean ====
section
/-! DEFINITION. The commit switch-over (R53–R56, R62, R100): which cells it starts, changes and removes, and what they keep; and the entry of a cell into
START for every other cause. -/

namespace Sys2Proof.Machine

/-- Register page of a kind of cell. -/
def kindPage : Kind → Page
  | .uc => .uc | .dp => .dp | .ax => .ax | .ph => .ph | .lp => .lp
  | .fc => .fc | .tout => .tout | .pc => .pc | .qp => .qp | .mbx => .mbx

/-- The counters of a cell's pages return to 0. -/
def State.clearCounters (s : State) (id : Nat) : State :=
  match kindOf id with
  -- NEW marks the frame that a mailbox keeps (R369)
  | some k => ((Page.fields .cell ++ Page.fields (kindPage k)).filter fun f => f.acc == .rclr && !(k == .mbx && f.off == Reg.MBX_META_NEW.off)).foldl (fun s f => s.wr (cellBase id) f 0) s
  | none => s

/-! Entry into START (R54, R83, R128, R267). -/

/-- An axis keeps its reference through a change that leaves SPU, ENC and SUB 4 (R267). -/
def sameReference (old new : List Record) (id : Nat) : Bool :=
  let a := getRec old T_CELL 0 id
  let b := getRec new T_CELL 0 id
  recU32 a 4 == recU32 b 4 && recByte a 1 % 2 == recByte b 1 % 2 &&
    (findRec old T_CELL 4 id).map (fun r => recContent r) == (findRec new T_CELL 4 id).map fun r => recContent r

/-- A trip output enters START: tripped, with its reset signal not yet read (R176, R502). -/
def State.startTo (s : State) (id : Nat) : State :=
  (s.setTripped (cellNum id) true).modToc fun t => { t with resetLevel := Store.erase t.resetLevel (cellNum id) }

/-- A cell enters START; `old` is the image that ran before. -/
def State.startCell (s : State) (id : Nat) (c : StartCause) (old : List Record) : State :=
  let s := s.setCst id csStart
  let loads := c == .fresh || c == .changed
  match kindOf id with
  | some .uc => s.startUc id c
  | some .dp => s.startDp id c
  | some .ax => s.startAx id c old (sameReference old s.img.active id)
  | some .ph => s.startPh id (!loads)
  | some .lp => s.startLp id c
  | some .fc => if loads then s.startFc id else s.modFc (cellNum id) fun _ => FcSt.init
  | some .tout => s.startTo id
  | some .pc => s.when loads fun s => s.startPeer (cellNum id)
  | some .qp => s.when loads fun s => s.startQp (cellNum id)
  | some .mbx => s.startMailbox (cellNum id)
  | none => s

/-! Cells at a commit (R54). -/

/-- The records keyed to a cell. -/
def keyedTo (img : List Record) (id : Nat) : List Record :=
  img.filter fun r =>
    if recType r = T_SIGNAL then sigProducer r == id
    else [T_CELL, T_BIND, T_RATE, T_TABLE, T_TRIP].contains (recType r) && recTarget r == id

def cellChanged (old new : List Record) (id : Nat) : Bool := !sameRecords (keyedTo old id) (keyedTo new id)

/-- Every register of a page to its unlisted value. -/
def State.dropPage (s : State) (id : Nat) : State :=
  let b := cellBase id
  { s with regs := s.regs.filter fun e => !(b ≤ e.1 && e.1 < b + 0x100) }

/-- The hidden state of a cell's kind is forgotten. A mailbox keeps its stored frame (R369). -/
def State.forgetKind (s : State) (id : Nat) : State :=
  let n := cellNum id
  match kindOf id with
  | some .uc => s.modUc n fun _ => UcSt.init
  | some .dp => s.modDp n fun _ => DpSt.init
  | some .ax => s.modAx n AxSt.renewed
  | some .ph => s.modPh n fun _ => PhasorSt.init
  | some .lp => s.modLp n fun _ => LoopSt.init
  | some .fc => s.modFc n fun _ => FcSt.init
  | some .pc => s.modPeer n fun _ => PeerSt.init
  | some .qp => s.modQp n fun _ => QpSt.init
  | _ => s

/-- Nothing of a cell's hidden state remains, its published words included. -/
def State.forgetCell (s : State) (id : Nat) : State :=
  ((s.modCell id fun _ => CellSt.init).modFab fun f => { f with ports := f.ports.filter fun e => e.1 / 16 != id }).forgetKind id

/-- A removed cell: OFF, outputs de-energised, nothing kept; the permit of a removed group ends (R54, R158). -/
def State.removeCell (s : State) (id : Nat) : State :=
  let s := match kindOf id with
    | some .ph => s.permitAt (cellNum id) false
    | some .qp => s.stopQp (cellNum id)
    | some .tout => s.startTo id
    | some .mbx => s.modMb (cellNum id) fun _ => MbxSt.init
    | _ => s
  (s.unforce id).forgetCell id |>.dropPage id

/-- A safe command, the hardwired line, the isolation of its block or a transceiver without supply meets a cell that starts (R91, R94, R102, R186, R369). -/
def State.meetStart (s : State) (id : Nat) : State :=
  let s := s.when (s.physical id && s.flag tbBase Reg.TB_STATUS_HWSAFE && !(s.cell id).line) fun s => s.lineCell id true
  let s := s.when (s.commanded id) fun s => s.takeSafe id
  let s := s.when (s.isolated (idRegion id) (idBlock id)) fun s => s.isolateCell id (s.blk (idRegion id) (idBlock id)).cause
  s.when (s.mbxUnsupplied id) fun s => s.isolateCell id true

/-- A new cell: START with nothing kept, outputs de-energised until its first evaluation (R54). A mailbox keeps its stored frame (R369). -/
def State.newCell (s : State) (old : List Record) (id : Nat) : State :=
  let s := (s.forgetCell id).when (kindOf id != some .mbx) fun s => s.dropPage id
  let qual : Qual := match (s.produced id).find? fun r => sigPort r == 0 with
    | some r => (s.sig (sigId r)).qual
    | none => Q_BAD_CONFIG
  (((s.setFlag (cellBase id) Reg.CELL_STATE_EXISTS true).wr (cellBase id) Reg.CELL_STATE_QUAL qual.toNat).startCell id .fresh old).meetStart id

/-- A changed cell: START with what its chapter keeps; its force and its latched FAULT go (R54, R55, R92). A changed queue pair stops first (R100); a changed
trip output keeps nothing. -/
def State.changeCell (s : State) (old : List Record) (id : Nat) : State :=
  let b := cellBase id
  let s := match kindOf id with
    | some .qp => s.stopQp (cellNum id)
    | some .tout => s.clearPage id
    | _ => s
  let s := (((s.unforce id).wr b Reg.CELL_FORCE_PORT 0).wrw b Reg.CELL_FVAL 0).clearCounters id
  let s := ((s.setFlag b Reg.CELL_STATE_LATCHED false).wr b Reg.CELL_STATE_RETRIES 0).setFlag b Reg.CELL_STATE_ISOL false
  let keep := s.physical id
  let s := s.modCell id fun c => { CellSt.init with cmd := if keep then c.cmd else 0, act := c.act, line := keep && c.line, params := c.params }
  let s := s.when (!keep) fun s => s.wr b Reg.CELL_STATE_SOURCE 0
  (if kindOf id == some .ph then s.changePh id old else s.startCell id .changed old).meetStart id

/-- The state that a trip input starts with: INVALID while its source is invalid, otherwise DEMAND (R165). No entry is counted. -/
def State.startTripIn (s : State) (r : Record) : State :=
  let src := s.tripSource r
  let s := s.modTin (tiNum r) fun _ => { TripIn.init with state := if src.2.1 then 2 else 1, raw := src.1 }
  s.setFlag tbBase (demandField (tiNum r)) (countsDemand r (s.tin (tiNum r)))

/-- Trip inputs that a commit instantiates, changes or removes lose their state and their bypass, and a comparator reports anew (R164, R165, R179). -/
def State.commitTripins (s : State) (old new : List Record) : State :=
  let was := Machine.tripins old
  let now := Machine.tripins new
  let same (r : Record) : Bool := was.any fun q => tiNum q == tiNum r && recContent q == recContent r
  let gone := was.filter fun r => !(now.any fun q => tiNum q == tiNum r)
  let s := gone.foldl (fun s r => ((s.endBypass (tiNum r)).modTin (tiNum r) fun _ => TripIn.init).setFlag tbBase (demandField (tiNum r)) false) s
  let s := (now.filter fun r => !same r).foldl (fun s r =>
    let s := s.endBypass (tiNum r)
    let s := s.when (tiSrc r == 1) fun s => s.modUc (tiIndex r / 2) fun u => { u with waiting := tiNum r :: u.waiting }
    s.startTripIn r) s
  let ids := (now.filter fun r => tiSrc r == 3).map tiId
  (s.modToc fun t => { t with conns := t.conns.filter fun e => ids.contains e.1 }).countBypasses

/-- IMG.ID, IMG.BASE and IMG.STATION of the active bank (R62). -/
def State.showImage (s : State) (b : Bool) : State :=
  let k := s.bank b
  let id := imageIdOf k.main
  let base := imageIdOf k.base
  let s := (s.wrw nvjBase Reg.IMG_ID_LO (BitVec.ofNat 32 id)).wrw nvjBase Reg.IMG_ID_HI (BitVec.ofNat 32 (id / 2 ^ 32))
  let s := (s.wrw nvjBase Reg.IMG_BASE_LO (BitVec.ofNat 32 base)).wrw nvjBase Reg.IMG_BASE_HI (BitVec.ofNat 32 (base / 2 ^ 32))
  s.wrw nvjBase Reg.IMG_STATION (BitVec.ofNat 32 (recU32 (secHeader k.main) 20))

/-- The directory is replaced as a whole: a signal that stays keeps its word (R53, R56). -/
def State.replaceDirectory (s : State) (new : List Record) : State :=
  let ids := (signalsOf new).map sigId
  s.modFab fun f => { f with words := f.words.filter fun e => ids.contains e.1, freshAt := f.freshAt.filter fun e => ids.contains e.1 }

/-- R53: the switch-over to the effective image of bank `b`; `load` where every cell enters START (R22). -/
def State.takeCommit (s : State) (b : Bool) (new : List Record) (load : Bool) : State :=
  let old := s.img.active
  let olds := cellsOf old
  let news := cellsOf new
  let removed := olds.filter fun id => !news.contains id
  let fresh := news.filter fun id => load || !olds.contains id
  let changed := news.filter fun id => !load && olds.contains id && cellChanged old new id
  let firstCommit := s.recState == rsOff
  let s := (s.modImg fun i => { i with active := new, next := [], committed := true }).setFlag nvjBase Reg.IMG_STATUS_ACTIVE b
  -- the matrix is written anew (R185)
  let s := s.modToc fun t => { t with matrixBad := false }
  let s := (s.replaceDirectory new).wr tmBase Reg.STK_CFG_TS_UNITS (tsUnitsOf new)
  let s := removed.foldl State.removeCell s
  let s := changed.foldl (fun s id => s.changeCell old id) s
  let s := fresh.foldl (fun s id => s.newCell old id) s
  let s := (List.range 4).foldl State.sumLoad s
  let s := ((s.commitTripins old new).rebindImports old).commitCan old
  let s := if firstCommit then s.recStart else s.commitRec old
  let s := (s.commitPairs (changed ++ removed)).showImage b
  let s := ((s.bump nvjBase Reg.IMG_COMMITS_COMMITS).endOp E_OK)
  let boot := s.bootBank == b
  let s := s.setFlag nvjBase Reg.IMG_STATUS_VOLATILE (!boot)
  s.modImg fun i => { i with bootUpdate := !boot && s.flag nvjBase (bankSaved b) && !s.flag modBase Reg.MOD_HEALTH_NV_DEGRADED }

end Sys2Proof.Machine
end

