-- ==== Sys2Proof/Machine/StartUp.lean ====
section
/-! DEFINITION. Start-up (R22, R40, R283–R286, R432): the self-tests, chime enumeration, and the boot bank. RESET_SOURCE stands in Power.lean. -/

namespace Sys2Proof.Machine

/-- RAILS_GOOD_PLL_LOCKED (R22): POWERUP → SELFTEST. The pairs start in lockstep, and the chain lanes turn on (R273). -/
def execRailsGoodPllLocked (s : State) : Host.Outcome State Fault Refusal :=
  done <|
    if s.mst ≠ stPowerup then s
    else
      let s := (s.goMst stSelftest).setFlag pwrBase Reg.PWR_STATUS_PLLLOCK true
      let s := s.setFlag pwrBase Reg.PWR_STATUS_SUPOK true
      let ref (i : Nat) (f : Field) (s : State) : State := s.setFlag pwrBase f (s.pwr.refBad.toNat / 2 ^ i % 2 == 0)
      let s := ref 2 Reg.PWR_STATUS_REFCH (ref 1 Reg.PWR_STATUS_REFNB (ref 0 Reg.PWR_STATUS_REFNA s))
      ((((List.range 4).foldl (fun s n => s.setFlag (cpBase n) Reg.CP_STATUS_LOCKSTEP true) s).chainOn).identify .a).identify .b

/-! Chime enumeration (R283–R286), a duty of CP2, which an isolated CP2 does not carry (R190, R504). Chime OP codes: 1 TOKEN, 2 END, 3 CLASH, 4 REQ. -/

/-- A provisional address is taken, and the TOKEN passes on; without a DOWN neighbour the module is the tail. -/
def State.takeAddr (s : State) (v : Nat) : State :=
  ((s.modChain fun c => { c with provisional := some v }).chime .down 1 (v + 1)).confirmTail

/-- A TOKEN acted on in ENUM. -/
def State.enumToken (s : State) (v : Nat) : State :=
  let s := s.modChain fun c => { c with tokenSeen := true }
  if s.chain.provisional.isSome then s
  else if v ≤ 63 then s.takeAddr v
  else ((s.setFlag chBase Reg.CH_STATUS_OVERFLOW true).chime .down 1 64).leaveEnum 0

/-- CHIME_HEAD_START: 100 ms after ENUM entry. -/
def execChimeHeadStart (s : State) : Host.Outcome State Fault Refusal :=
  done <|
    if s.mst ≠ stEnum ∨ s.chain.provisional.isSome ∨ !s.sahvosUp then s
    else if s.link .up ≠ 2 then (s.setFlag chBase Reg.CH_STATUS_HEAD true).takeAddr 1
    else if s.chain.tokenSeen then s
    else s.chime .up 4 0

/-- CHIME_TOKEN: kept before ENUM, taken in ENUM, answered with END or CLASH after it. -/
def execChimeToken (port : ChainPort) (v : BitVec 8) (s : State) : Host.Outcome State Fault Refusal :=
  done <|
    if s.link port ≠ 2 ∨ !s.sahvosUp then s
    else if s.mst = stSelftest then if port = .up then s.modChain fun c => { c with kept := some v.toNat } else s
    else if s.mst = stEnum then if port = .up then s.enumToken v.toNat else s
    else if s.addr = 0 then s
    else if v.toNat = s.addr then s.chime port 2 (s.rd chBase Reg.CH_STATUS_COUNT)
    else s.chime port 3 0

/-- CHIME_END: an END on DOWN. -/
def execChimeEnd (v : BitVec 8) (s : State) : Host.Outcome State Fault Refusal :=
  done <|
    if s.link .down ≠ 2 ∨ !s.sahvosUp then s
    else if s.mst = stEnum then s.confirmAddr v.toNat
    else (s.wr chBase Reg.CH_STATUS_COUNT v.toNat).chime .up 2 v.toNat

/-- CHIME_CLASH: a CLASH on DOWN. Outside ENUM it is only forwarded (R285, R286). -/
def execChimeClash (s : State) : Host.Outcome State Fault Refusal :=
  done <|
    if s.link .down ≠ 2 ∨ !s.sahvosUp then s
    else if s.mst = stEnum then
      if s.chain.provisional.isSome then ((s.setFlag chBase Reg.CH_STATUS_CLASH true).chime .up 3 0).leaveEnum 0 else s
    else s.chime .up 3 0

/-- CHIME_REQ: a REQ from DOWN outside ENUM (R285). -/
def execChimeReq (s : State) : Host.Outcome State Fault Refusal :=
  done <| if s.link .down ≠ 2 ∨ s.mst = stEnum ∨ s.addr = 0 ∨ !s.sahvosUp then s else s.chime .down 1 (min 64 (s.addr + 1))

/-- ENUM_WINDOW_CLOSE: the address as held (R284). -/
def execEnumWindowClose (s : State) : Host.Outcome State Fault Refusal :=
  done <|
    if s.mst ≠ stEnum then s
    else
      let s := s.when (!s.chain.tokenSeen) fun s => s.setFlag chBase Reg.CH_STATUS_NOHEAD true
      s.leaveEnum (s.chain.provisional.getD 0)

/-! Self-tests (R432). -/

/-- ENUM is entered: a TOKEN kept is acted on, and SAFE_IN_N is first evaluated (R187, R284, R424). -/
def State.enterEnum (s : State) : State :=
  let s := (s.goMst stEnum).panelInit
  let s := match s.chain.kept with
    | some v => (s.modChain fun c => { c with kept := none }).enumToken v
    | none => s
  if s.toc.safeIn then s else s.safetyFault .safeIn 0 0

/-- The digits of the tests that failed, lowest first (R432, R499). -/
def State.failedTests (s : State) (r : SelfTest) : List Nat :=
  let fails (d : Nat) : Bool :=
    match d with
    | 4 => r.failed.contains 4 || (List.range 5).any fun k => s.flag modBase (regFltField k)
    | 5 => r.tocsinSub != 0 || s.causeLatched .tstFail
    | 6 => (r.missed.take 4).any (· != 0) || s.causes % 8 != 0
    | 7 => !r.bankReached || decide (r.capUF.toNat < 840)
    | d => r.failed.contains d
  [1, 2, 3, 4, 5, 6, 7, 8].filter fails

/-- PWR.STFAIL:DETAIL of a failed test (R443): of test 6 the pair, the lowest that left an injection unflagged, else that of the latched cause. -/
def State.failDetail (s : State) (r : SelfTest) (d : Nat) : Nat :=
  let faults := ((List.range 5).filter fun k => s.flag modBase (regFltField k)).foldl (fun m k => m + 2 ^ k) 0
  if d = 4 then r.detail.toNat % 32 ||| faults
  else if [1, 2].contains d then r.detail.toNat
  else if d = 6 then ((List.range 4).find? fun n => r.missed.getD n 0 != 0).getD (s.rd tbBase Reg.TB_CAUSE_PAIR)
  else 0

/-! What the journal's duplicated partitions give at a start (R385). -/

/-- A channel's factory calibration is poison where both copies of its word are uncorrectable: as the start found them, or as the scrubber left them. -/
def State.readFactory (s : State) (found : BitVec 32) : State :=
  s.modJrn fun j => { j with fcalBad := (List.range 32).filter fun n => found.getLsbD n || s.copiesBad (factoryHome (Config.calPlace n)) }

/-- The service addresses of the stored registers. -/
def storedAddrs : List Nat :=
  [netBase .a, netBase .b].flatMap (fun b => [b + 0x20, b + 0x24, b + 0x28]) ++
  [netBase .a + 0x2C, tmBase + 0x20, tmBase + 0x24, recBase + 0x20, pnlBase + 0x30] ++
  [canBase 0, canBase 1].flatMap fun b => [b + 0x20, b + 0x24, b + 0x28, b + 0x2C]

/-- A stored register whose two copies are poison reads what the spec leaves open: a free value that the register can hold, else what it held (DESIGN CHOICE,
log entry 140). -/
def State.readSetting (s : State) (a : Nat) : State :=
  match storedAt a with
  | none => s
  | some r =>
    if !s.copiesBad (storedHome a) then s
    else
      let (w, s) := s.draw
      if reservedSet r.map.1 r.map.2 w || s.storedIllegal r w then s else s.setReg a w

/-- A trim whose two copies are poison is a free value (DESIGN CHOICE, log entry 140). -/
def State.readTrim (s : State) (key : Nat) : State :=
  if !s.copiesBad (settingsHome (Config.trimPlace key)) then s
  else
    let (g, s) := s.draw
    let (o, s) := s.draw
    if f32Finite g && f32Finite o then s.modJrn fun j => { j with trims := Store.set none j.trims key (some (g, o)) } else s

/-- A key slot whose two copies are poison stands in a free state, and the boot pointer names a free bank (DESIGN CHOICE, log entry 140). -/
def State.readControl (s : State) : State :=
  let s := (List.range 4).foldl (fun s n =>
    if !s.copiesBad (keyHome n) then s else let (w, s) := s.draw; s.wr nvjBase (keyField n) (w.toNat % 3)) s
  if !s.copiesBad (controlHome Config.bootPlace) then s else let (w, s) := s.draw; s.setFlag nvjBase Reg.IMG_STATUS_BOOT (w.toNat % 2 == 1)

/-- The settings and control blocks as the start reads them. -/
def State.readSettings (s : State) : State :=
  ((s.jrn.trims.map Prod.fst).foldl State.readTrim (storedAddrs.foldl State.readSetting s)).readControl

/-- SELFTEST_COMPLETE (R432, R184, R194, R385). -/
def execSelftestComplete (r : SelfTest) (s : State) : Host.Outcome State Fault Refusal :=
  done <|
    if s.mst ≠ stSelftest ∨ s.rd pwrBase Reg.PWR_STFAIL_DIGIT ≠ 0 then s
    else
      let s := if r.tocsinSub = 0 then (s.setFlag tbBase Reg.TB_STATUS_STPASS true).setTstate tsDisarmed else s.safetyFault .tstFail 0 r.tocsinSub
      let s := (List.range 4).foldl (fun s n =>
        (s.wr (cpBase n) Reg.CP_INJ_INJECTED 973).wr (cpBase n) Reg.CP_INJ_MISSED (min 65535 (r.missed.getD n 0))) s
      let s := s.when r.bankReached fun s => s.setFlag pwrBase Reg.PWR_STATUS_HUREADY true
      -- uncorrectable words that test 2 meets outside the reserved 64 MiB are counted and poisoned (R378, R432)
      let s := (r.dramBad.filter fun g => 2097152 ≤ g).foldl (fun s g => s.meetWord .dram false 4 g .uncorrectable) s
      let s := (s.applyPend s.jrn.pend.length r.replay).measured r.capUF.toNat
      let s := ((s.wrw pwrBase Reg.PWR_CNVFAIL r.cnvFail).readFactory r.fcalBad).readSettings
      match s.failedTests r with
      | [] => s.enterEnum
      | d :: _ =>
        let s := (s.wr pwrBase Reg.PWR_STFAIL_DIGIT d).wr modBase Reg.MOD_ERR_STFAIL d
        s.wr pwrBase Reg.PWR_STFAIL_DETAIL (s.failDetail r d)

/-! The boot bank (R22, R40, R45, R385). -/

/-- A bank's working copy is read from its saved copy and validated; `bad` are the indices that read uncorrectable, base section first. -/
def State.loadBank (s : State) (b : Bool) (bad : List Nat) : State :=
  let s := s.modBank b fun x =>
    if x.savedOk then
      let n := x.savedBase.length
      { x with base := x.savedBase, main := x.savedMain, badBase := bad.filter (· < n), bad := (bad.filter (n ≤ ·)).map (· - n), staging := false }
    else { x with base := [], main := [], bad := [], badBase := [], slots := 0, staging := false }
  let v := s.verdict b
  let s := (s.recordVerdict b v).modBank b fun x => { x with savedSlots := if v.passed then x.slots else x.savedSlots }
  let s := (s.setFlag nvjBase (bankSaved b) (s.bank b).likeSaved).setFlag nvjBase (bankDelta b) (secIsDelta (s.bank b).main)
  s.wr modBase (if b then Reg.MOD_ERR_B1CODE else Reg.MOD_ERR_B0CODE) v.code.toNat

/-- NVJ counts the journal words that LOAD corrected and those it read uncorrectable or misdirected (R382); which of the two each was is a free value. -/
def State.countLoad (s : State) (corrected bad : Nat) : State :=
  let (v, s) := s.draw
  let (w, s) := s.draw
  let one := v.toNat % (corrected + 1)
  let unc := w.toNat % (bad + 1)
  let s := (s.bumpBy nvjBase Reg.NVJ_ECC1_CORR1 one).bumpBy nvjBase Reg.NVJ_ECC1_CORR2 (corrected - one)
  ((s.bumpBy nvjBase Reg.NVJ_ECC2_UNCORR unc).bumpBy nvjBase Reg.NVJ_ECC2_MISDIR (bad - unc)).bumpBy nvjBase Reg.IMG_CORR_CORR corrected

/-- BOOT_BANK_READ (R22, R40): the boot bank where it is valid, else the other bank, which becomes the boot bank, is prepared for the commit that takes
the module to READY at a boundary (R52, R432); where neither is valid a download is awaited. -/
def execBootBankRead (bad0 bad1 : List Nat) (corrected : BitVec 16) (s : State) : Host.Outcome State Fault Refusal :=
  done <|
    if s.mst ≠ stLoad ∨ s.imgPhase ≠ phIdle ∨ s.img.committed ∨ !s.dutyUp 1 then s
    else
      let s := ((s.loadBank false bad0).loadBank true bad1).countLoad corrected.toNat (bad0.length + bad1.length)
      let b := s.bootBank
      if s.validBank b then s.prepare b false 0
      else if s.validBank (!b) then ((s.commitTxn (controlHome Config.bootPlace) .clean).2.setFlag nvjBase Reg.IMG_STATUS_BOOT (!b)).prepare (!b) false 0
      else s

end Sys2Proof.Machine
end

