-- ==== Sys2Proof/Machine/ModCmd.lean ====
section
/-! DEFINITION. MOD.CMD (R22–R25, R475, R476) and the image autostart. -/

namespace Sys2Proof.Machine

/-! Codes of MOD.CMD:OP (R475). -/
def opNop : Nat := 0
def opRun : Nat := 1
def opStop : Nat := 2
def opService : Nat := 3
def opServiceExit : Nat := 4
def opRelease : Nat := 5
def opRestart : Nat := 6

/-- The conditions of RUN in READY (R22, R25). -/
def State.runAllowed (s : State) : Bool :=
  s.mst == stReady && s.flag tbBase Reg.TB_STATUS_STPASS && s.tstate == tsArmed && !s.flag tbBase Reg.TB_STATUS_DBGFLAG

/-- RUN: the first stroke boundary is scheduled. -/
def decideRun (s : State) : Code × State :=
  if s.runAllowed then (E_OK, s.modFab fun f => { f with runPending := true }) else (E_STATE, s)

/-- STOP: taken at the next boundary. -/
def decideStop (s : State) : Code × State :=
  if s.mst = stRun then (E_OK, s.modFab fun f => { f with stopPending := true }) else (E_STATE, s)

/-- SERVICE from READY or SAFE, through the service port (R476). A queue pair with an enabled ring is in RUN from here on (R91, R299). -/
def decideService (p : Port) (s : State) : Code × State :=
  if p ≠ .service then (E_ACCESS, s)
  else if s.mst = stReady ∨ s.mst = stSafe then
    let fromSafe := s.mst == stSafe
    (E_OK, (((s.modToc fun t => { t with serviceFromSafe := fromSafe }).modFab fun f => { f with runPending := false }).goMst stService).startPairs)
  else (E_STATE, s)

/-- SERVICE_EXIT (R22, R184, R195): debuggers are detached, forces and simulations go; a split CP0 latches TST_FAIL sub 5; where Tocsin leaves SAFE, the
trip outputs enter START. In READY no output stays driven (R21), and the entry into SAFE ends every bypass (R179). -/
def decideServiceExit (s : State) : Code × State :=
  if s.mst ≠ stService then (E_STATE, s)
  else
    let s := (List.range 4).foldl (fun s n => s.setFlag (cpBase n) Reg.CP_STATUS_DEBUG false) s
    let s := s.leaveService
    let s := s.modToc fun t => { t with serviceFromSafe := false }
    if s.flag (cpBase 0) Reg.CP_STATUS_SPLIT then (E_OK, s.safetyFault .tstFail 0 5)
    else if s.causes != 0 then (E_OK, (s.goMst stSafe).endBypasses.drive)
    else
      let s := (s.goMst stReady).when (s.tstate == tsSafe) fun s =>
        let outs := s.cells.filter fun id => kindOf id == some .tout && s.cst id != csFault
        outs.foldl (fun s id => s.startCell id .release s.img.active) (s.setTstate tsDisarmed)
      (E_OK, s.drive)

/-- RELEASE (R22, R184, R186): every cause cleared, SAFE_IN_N high and the self-test passed. Cells not in FAULT enter START; no output is driven (R21). -/
def decideRelease (s : State) : Code × State :=
  if s.mst = stSafe && s.causes == 0 && s.toc.safeIn && s.flag tbBase Reg.TB_STATUS_STPASS && !s.flag tbBase Reg.TB_STATUS_RETESTING then
    let s := (s.goMst stReady).when (s.tstate == tsSafe) fun s => s.setTstate tsDisarmed
    let s := s.setLine false
    let s := s.cells.foldl (fun s id => (s.modCell id fun c => { c with cmd := 0 })) s
    (E_OK, (s.cells.foldl (fun s id => if s.cst id == csFault then s else s.startCell id .release s.img.active) s).drive)
  else (E_STATE, s)

/-- MOD.CMD:OP but RESTART, which is answered before it acts (R24, R473). R22 lists NOP for no state, so it is E_STATE and changes nothing (R23). -/
def decideModCmd (p : Port) (op : Nat) (s : State) : Code × State :=
  match op with
  | 0 => (E_STATE, s)
  | 1 => decideRun s
  | 2 => decideStop s
  | 3 => decideService p s
  | 4 => decideServiceExit s
  | 5 => decideRelease s
  | _ => (E_RANGE, s)

/-- RESTART is accepted: in every state but POWERUP and PFAIL, and in SELFTEST once a test has failed, through the service port (R24). -/
def State.restartReaches (s : State) (p : Port) : Bool :=
  match s.gate p with
  | .full => true
  | .pwrOnly => true
  | _ => false

/-- MOD_CMD_NOP (R23, R475). -/
def execModCmdNop (p : Port) (s : State) : Host.Outcome State Fault Refusal := command p (decideModCmd p opNop) s

/-- MOD_CMD_RUN (R22). -/
def execModCmdRun (p : Port) (s : State) : Host.Outcome State Fault Refusal := command p (decideModCmd p opRun) s

/-- AUTOSTART (R22, R30): MODULE:AUTOSTART = 1 schedules RUN on its own once the conditions of RUN hold. -/
def execAutostart (s : State) : Host.Outcome State Fault Refusal :=
  done <| if s.runAllowed && recByte (moduleOf s.img.active) 2 == 1 then (decideRun s).2 else s

/-- MOD_CMD_STOP (R22). -/
def execModCmdStop (p : Port) (s : State) : Host.Outcome State Fault Refusal := command p (decideModCmd p opStop) s

/-- MOD_CMD_SERVICE (R476). -/
def execModCmdService (p : Port) (s : State) : Host.Outcome State Fault Refusal := command p (decideModCmd p opService) s

/-- MOD_CMD_SERVICE_EXIT (R22, R195). -/
def execModCmdServiceExit (p : Port) (s : State) : Host.Outcome State Fault Refusal := command p (decideModCmd p opServiceExit) s

/-- MOD_CMD_RELEASE (R22). -/
def execModCmdRelease (p : Port) (s : State) : Host.Outcome State Fault Refusal := command p (decideModCmd p opRelease) s

/-- MOD_CMD_RESTART (R24, R473): answered with OK, then reset source CMD. -/
def execModCmdRestart (p : Port) (s : State) : Host.Outcome State Fault Refusal :=
  match s.gate p with
  | .refuse c => done (s.answer p c)
  | _ => if s.restartReaches p then done ((s.answer p E_OK).resetBy .cmd) else done s

end Sys2Proof.Machine
end

