-- ==== Sys2Proof/Machine/Access.lean ====
section
/-! DEFINITION. Service addresses (R4, R7, R16, R104, R105): what an address implements, the fields it maps, what a read of it returns, and what a read clears. -/

namespace Sys2Proof.Machine

def addrRegion (a : Nat) : Nat := a / 2 ^ 28
def addrBlock (a : Nat) : Nat := a / 2 ^ 20 % 256
def addrCell (a : Nat) : Nat := a / 2 ^ 8 % 4096
def addrOff (a : Nat) : Nat := a % 256

/-- The address of offset 0 of the same cell or page. -/
def addrBase (a : Nat) : Nat := a - a % 256

/-- Region, block and cell index are implemented (R7, R16). -/
def addrImplemented (a : Nat) : Bool :=
  let r := addrRegion a
  let b := addrBlock a
  let c := addrCell a
  if c = 0xFFF then blockExists r b
  else if c = 0xFFE then (r == 4 && b == 2) || (r == 3 && b == 0)
  else if r = 4 ∧ b = 2 then c < 1024
  else (kindAt r b c).isSome

/-- The cell with a cell ID in whose page an address lies. -/
def addrCellId (a : Nat) : Option Nat :=
  if (kindAt (addrRegion a) (addrBlock a) (addrCell a)).isSome then some (cellId (addrRegion a) (addrBlock a) (addrCell a)) else none

/-- Block-level fields of a block beside its common registers. -/
def blockFields (r b : Nat) : List Field :=
  match r with
  | 0 => Page.modr.fields
  | 1 => if b < 4 then [] else if b < 8 then Page.db.fields else if b < 10 then Page.mb.fields else []
  | 2 => if b = 24 then Page.tb.fields else if 25 ≤ b then Page.cp.fields else []
  | 3 =>
    if b < 2 then Page.net.fields else if b = 2 then Page.ch.fields else if b = 3 then Page.qb.fields
    else if b = 4 then Page.tm.fields ++ Page.stk.fields
    else Page.can.fields ++ Page.can.fields.map fun f => { f with off := f.off + 0x70 }
  | 4 =>
    if b = 0 then Page.mem.fields else if b = 1 then Page.nvj.fields ++ Page.img.fields else if b = 2 then Page.recd.fields
    else if b = 3 then Page.pnl.fields else Page.pwr.fields
  | _ => []

/-- The fields of the register at an address; none where the map declares that it reads 0. -/
def fieldsAt (a : Nat) : List Field :=
  let r := addrRegion a
  let b := addrBlock a
  let c := addrCell a
  let all : List Field :=
    if c = 0xFFF then (if r = 0 then [] else Page.blk.fields) ++ blockFields r b
    else if c = 0xFFE then (if r = 4 then Page.recd2.fields else Page.tab.fields)
    else if r = 4 then Page.code.fields
    else match kindAt r b c with
      | some k => Page.cell.fields ++ (kindPage k).fields
      | none => []
  all.filter fun f => f.off == addrOff a

/-- The address by itself: E_ADDR for a target that is not implemented, then E_ALIGN (R7). -/
def addrCheck (a : Nat) : Code := if !addrImplemented a then E_ADDR else if a % 4 ≠ 0 then E_ALIGN else E_OK

/-! Views: registers that show other state. -/

/-- The connection that TB.SCSEL selects, numbered by its lowest trip input (R196). -/
def State.selectedConn (s : State) : Option Nat :=
  let recs := (List.range 256).filterMap fun n => (s.tripin n).bind fun r => if tiSrc r = 3 then some (tiId r) else none
  (recs.eraseDups)[s.rd tbBase Reg.TB_SCSEL_CONN]?

/-- The registers of TB that show the selected input and connection (R196). -/
def State.tbView (s : State) (off : Nat) : Option Word :=
  let t := s.tin (s.rd tbBase Reg.TB_TISEL_INPUT)
  let conn := s.selectedConn
  let c := conn.elim SafeConn.init s.conn
  let w (lo hi : Nat) : Option Word := some (BitVec.ofNat 32 (lo + hi * 65536))
  match off with
  | 0x38 => w (t.state.toNat + t.bypass.isSome.toNat * 4 + t.raw.toNat * 8) (s.bypassLeft t)
  | 0x40 => w t.demands.toNat t.invalids.toNat
  | 0x78 => w (c.valid.toNat + c.senderSafe.toNat * 2) c.lastSeq.toNat
  | 0x7C => w c.seqErr.toNat c.timeouts.toNat
  | 0x84 => some (BitVec.ofNat 32 (conn.getD 0))
  | _ => none

/-- The registers of a CAN controller that show the buffer TXSEL (R362, R371). -/
def State.canView (s : State) (c : Fin 2) (off : Nat) : Option Word :=
  let x := s.buf c (s.txsel c)
  if off = 0x44 then some x.id
  else if off = 0x48 then some (BitVec.ofNat 32 (x.dlc * 4))
  else if 0x50 ≤ off ∧ off ≤ 0x8C then some (x.data.getD ((off - 0x50) / 4) 0)
  else none

/-- Registers of the time block that show the time base (R333, R351, R352). -/
def State.tmView (s : State) (off : Nat) : Option Word :=
  match off with
  | 0x2C => some (BitVec.ofNat 32 s.time.ns)
  | 0x30 => some (BitVec.ofNat 32 s.time.sec.toNat)
  | 0x34 => some (BitVec.ofNat 32 (s.time.sec.toNat / 2 ^ 32))
  | 0x40 => some (BitVec.ofInt 32 s.addendNow)
  | 0x44 => some s.time.holdadd
  | _ => none

/-- Block-level registers that show other state; `none` where the register holds its own value. -/
def State.blockView (s : State) (r b off : Nat) : Option Word :=
  if r = 0 then
    if off = 0 then some (BitVec.ofNat 32 (3 + 2 * 256 + Config.fwMinor.toNat * 65536 + 0x73 * 2 ^ 24)) else none
  else if off = 0 then
    some (setField (s.reg (blkBase r b)) Reg.BLK_STATE_ISOCELLS.lo Reg.BLK_STATE_ISOCELLS.width (s.faultCells r b))
  else if r = 2 ∧ b = 24 then s.tbView off
  else if r = 3 ∧ b < 2 then
    let m := (Config.mac (b == 1)).toNat
    if off = 0x30 then some (BitVec.ofNat 32 m) else if off = 0x34 then some (BitVec.ofNat 32 (m / 2 ^ 32)) else none
  else if r = 3 ∧ b = 3 then
    if off = 0x20 then
      -- transfers in progress; how many transactions they have in flight is open, and QB.PEAK is the most (R311)
      let busy := (List.range 32).any fun n => (s.qp n).txDesc.isSome || (s.qp n).rxDesc.isSome
      some (if busy then BitVec.ofNat 32 ((Config.freeWord s.free).toNat % (s.rd qbBase Reg.QB_PEAK_PEAK + 1)) else 0)
    else if off = 0x2C then some (s.rootOf (s.rd qbBase Reg.IOMMU_SEL_DOMAIN))
    else none
  else if r = 3 ∧ b = 4 then s.tmView off
  else if r = 3 ∧ b = 5 then if off < 0x90 then s.canView 0 off else s.canView 1 (off - 0x70)
  else if r = 4 ∧ b = 2 then if 0x40 ≤ off ∧ off ≤ 0xBC then s.logWord ((off - 0x40) / 4) else none
  else if r = 4 ∧ b = 3 then
    if 0x44 ≤ off ∧ off ≤ 0x60 then
      let g := s.rd pnlBase Reg.PNL_FBADDR_GRAN * 32 + (off - 0x44)
      some (BitVec.ofNat 32 (leNat ((List.range 4).map fun i => Store.get 0 s.pnl.fb (g + i))))
    else none
  else none

/-- The word that a read of an implemented address returns (R3, R4, R104): write-only fields and reserved bits read 0. -/
def State.readWord (s : State) (a : Nat) : Word :=
  let r := addrRegion a
  let b := addrBlock a
  let c := addrCell a
  let off := addrOff a
  let held := s.reg a
  let shown : Word :=
    if c = 0xFFF then (s.blockView r b off).getD held
    else if c = 0xFFE then held
    else if r = 4 then (s.codeWords c).getD (off / 4) 0
    else match addrCellId a with
      | some id =>
        if !s.exists_ id then if off = 0 then 0x140 else 0
        else if kindOf id = some .lp ∧ 0x44 ≤ off ∧ off ≤ 0x58 then s.lpGain id (s.rd (cellBase id) Reg.LP_GAIN_GSEL) (gainOff off)
        else held
      | none => held
  let readable := (fieldsAt a).filter fun f => f.acc != .wo
  BitVec.ofNat 32 (shown.toNat &&& fieldMask readable off)

/-- A completed read clears the RCLR fields of the register (R6). -/
def State.clearRead (s : State) (a : Nat) : State :=
  if a = tbBase + 0x40 then s.modTin (s.rd tbBase Reg.TB_TISEL_INPUT) fun t => { t with demands := 0, invalids := 0 }
  else if a = tbBase + 0x7C then
    match s.selectedConn with
    | some c => s.modConn c fun x => { x with seqErr := 0, timeouts := 0 }
    | none => s
  else ((fieldsAt a).filter fun f => f.acc == .rclr).foldl (fun s f => s.wr (addrBase a) f 0) s

/-! What a port may reach. -/

/-- A common block register of CP1, which the PWR block serves while CP1 is isolated (R473). -/
def cp1Common (a : Nat) : Bool := addrBase a == cpBase 1 && addrOff a < 0x10

/-- Reads that the PWR block executes (R473). -/
def State.pwrReads (s : State) (a : Nat) : Bool :=
  addrRegion a == 0 || addrBase a == pwrBase || (s.isolated 2 26 && cp1Common a)

/-- The Tabor registers of NA (R461). -/
def taborPage (a : Nat) : Bool := addrBase a == tabBase && addrOff a < 0x10

/-- How a read of one register is judged: the target, the alignment, what the executing block reaches, the mode, and the log window (R7, R409, R461, R473). -/
def State.readCheck (s : State) (pwrOnly : Bool) (a : Nat) : Code :=
  if addrCheck a ≠ E_OK then addrCheck a
  else if pwrOnly && !s.pwrReads a then E_STATE
  else if taborPage a && !s.tabor then E_CARILLON
  else if addrBase a = recBase ∧ 0x40 ≤ addrOff a ∧ addrOff a ≤ 0xBC ∧ (s.logWord 0).isNone then E_RANGE
  else E_OK

end Sys2Proof.Machine
end

