-- ==== Sys2Proof/Machine/WriteReg.lean ====
section
/-! DEFINITION. The write of one register within a write transaction (R469): what decides it and what it changes, register by register of the field maps. -/

namespace Sys2Proof.Machine

/-- The surroundings of one register write: the port, whether the decision of R470 on the held writes is being taken, and the writes of the same
transaction before and after it. -/
structure WriteCtx where
  p : Port
  deciding : Bool
  before : List (Nat × Word)
  cur : Nat × Word
  rest : List (Nat × Word)
  deriving DecidableEq, Repr

/-- Every write of the transaction, in order. -/
def WriteCtx.whole (x : WriteCtx) : List (Nat × Word) := x.before ++ x.cur :: x.rest

/-! Registers written as a group in one transaction. -/

/-- The group that the present write belongs to: each successive `grp.length` writes of the transaction to registers of the group. -/
def WriteCtx.chunk (x : WriteCtx) (grp : List Nat) : List (Nat × Word) :=
  let n := grp.length
  let i := (x.before.filter fun e => grp.contains e.1).length
  ((x.whole.filter fun e => grp.contains e.1).drop (i / n * n)).take n

/-- The present write is the last of its group. -/
def WriteCtx.closes (x : WriteCtx) (grp : List Nat) : Bool :=
  ((x.before.filter fun e => grp.contains e.1).length + 1) % grp.length == 0

/-- The ranks of R5 that stand before reserved bits. -/
def beforeReserved (c : Code) : Bool := [E_TABOR, E_CARILLON, E_ACCESS, E_STATE].contains c

/-- TM.SET (R350), the record window (R47) and the frame-buffer window (R422). -/
def tmGroup : List Nat := [tmBase + 0x58, tmBase + 0x5C, tmBase + 0x60]
def windowGroup : List Nat := (List.range 9).map fun i => nvjBase + 0xB0 + 4 * i
def frameGroup : List Nat := (List.range 9).map fun i => pnlBase + 0x40 + 4 * i

/-- A group of registers that one transaction writes as a whole: E_ORDER for an incomplete one, decided at its last register, with the reserved bits of
all at their rank in R5. -/
def WriteCtx.asGroup (x : WriteCtx) (grp : List Nat) (gate : Code) (f : (Nat → Word) → State → Code × State) (s : State) : Code × State :=
  let ws := x.chunk grp
  if gate ≠ E_OK then (gate, s)
  else if !(grp.all fun g => ws.any fun e => e.1 == g) then (E_ORDER, s)
  else if x.closes grp then
    let r := f (fun i => ((ws.find? fun e => e.1 == grp.getD i 0).map Prod.snd).getD 0) s
    if (ws.any fun e => reservedSet (fieldsAt e.1) (addrOff e.1) e.2) && !beforeReserved r.1 then (E_RANGE, s) else r
  else (E_OK, s)

/-- An effect after another that passed. -/
def andThen (r : Code × State) (f : State → Code × State) : Code × State :=
  if r.1 = E_OK then f r.2 else r

/-! Cells. -/

/-- CELL.CTRL (R91, R104). -/
def writeCellCtrl (id : Nat) (w : Word) (s : State) : Code × State :=
  andThen (if getField w 0 1 = 1 then decideCellClear id s else (E_OK, s)) fun s =>
    match getField w 1 2 with
    | 0 => (E_OK, s)
    | 1 => decideTestEnter id s
    | 2 => decideTestLeave id s
    | _ => (E_RANGE, s)

/-- MODE, PORT and VALUE of a force as the writes accepted so far will leave them. -/
def State.comingForce (s : State) (id : Nat) : Nat × Nat × Word :=
  match s.fab.forces.reverse.find? fun f => f.1 == id with
  | some f => f.2
  | none => (s.rd (cellBase id) Reg.CELL_FORCE_MODE, s.rd (cellBase id) Reg.CELL_FORCE_PORT, s.rdw (cellBase id) Reg.CELL_FVAL)

/-- CELL.FVAL (R104). -/
def writeFval (p : Port) (id : Nat) (w : Word) (s : State) : Code × State :=
  let f := s.comingForce id
  if p ≠ .service then (E_ACCESS, s)
  else if !s.exists_ id ∨ s.mst ≠ stService then (E_STATE, s)
  else if f32IsNaN w then (E_RANGE, s)
  else (E_OK, s.modFab fun b => { b with forces := b.forces ++ [(id, f.1, f.2.1, w)] })

/-- FC.P0–FC.P3 (R106), each on what the earlier writes of the transaction leave (R469). -/
def writeFcParam (id off : Nat) (w : Word) (s : State) : Code × State :=
  decideFcParam (cellNum id) (⟨(off - 0x24) / 4 % 4, Nat.mod_lt _ (by decide)⟩, w) s

/-- LP.GAIN (R141, R142): the selector at once, the detune reset staged. -/
def writeLoopGain (lp : Nat) (w : Word) (s : State) : Code × State :=
  andThen (decideGainSelect lp (getField w 0 3) s) fun s => if getField w 11 1 = 1 then decideDetuneReset lp s else (E_OK, s)

/-- PH.TCB (R162). -/
def writePhTcb (id : Nat) (w : Word) (s : State) : Code × State :=
  if !f32Finite w ∨ f32 w < 0 ∨ mkRat 1 2 < f32 w then (E_RANGE, s)
  else if s.rd (cellBase id) Reg.PH_STATUS_SYNC = syClosing then (E_BUSY, s)
  else (E_OK, s.stage (cellBase id + Reg.PH_TCB.off) w)

/-- UC.TRIM.CTRL (R222, R223). -/
def writeTrimCtrl (p : Port) (n : Nat) (w : Word) (s : State) : Code × State :=
  match getField w 0 3 with
  | 0 => decideTrim p n .nop s
  | 1 => decideTrim p n .caplo s
  | 2 => decideTrim p n .caphi s
  | 3 => decideTrim p n .apply s
  | 4 => decideTrim p n .clear s
  | 5 => decideTrim p n .discard s
  | _ => (E_RANGE, s)

/-- HART.REQ and HART.DATA (R221, R223): a request with GO takes the data words of its transaction with it. -/
def writeHart (x : WriteCtx) (n off : Nat) (s : State) : Code × State :=
  let b := cellBase (ucId n)
  let go (e : Nat × Word) : Bool := e.1 == b + 0x60 && getField e.2 31 1 == 1
  let slot (a : Nat) : Fin 8 := ⟨(a - b - 0x68) / 4 % 8, Nat.mod_lt _ (by decide)⟩
  if off = 0x60 then
    let data := (x.whole.filter fun e => b + 0x68 ≤ e.1 && e.1 ≤ b + 0x84).map fun e => (slot e.1, e.2)
    decideHartRequest n (some x.cur.2) (if go x.cur then data else []) s
  else if x.whole.any go then (E_OK, s)
  else decideHartRequest n none [(slot x.cur.1, x.cur.2)] s

/-- AX.IRUN and AX.IHOLD (R268): each against the other as the staged writes will leave it. -/
def writeCurrent (id off : Nat) (w : Word) (s : State) : Code × State :=
  let b := cellBase id
  let bad : Bool :=
    if off = 0x50 then f32 w < nearestF32 (mkRat 1 10) || 3 < f32 w || f32 w < f32 (s.coming (b + 0x54))
    else f32 w < 0 || f32 (s.coming (b + 0x50)) < f32 w
  if !f32Finite w || bad then (E_RANGE, s) else (E_OK, s.stage (b + off) w)

/-- A rate register of an axis (R249, R470): checked where it is accepted; the decision takes the axis's rates of the transaction together. -/
def writeRate (x : WriteCtx) (n off : Nat) (s : State) : Code × State :=
  let b := cellBase (axId n)
  let mine (e : Nat × Word) : Bool := addrBase e.1 == b && axRateOffs.contains (addrOff e.1)
  if !s.rateLegal n off x.cur.2 then (E_RANGE, s)
  else if !x.deciding ∨ x.before.any mine then (E_OK, s)
  else s.rateDecision n ((x.whole.filter mine).map fun e => (addrOff e.1, e.2))

/-- AX.HCTRL (R257, R258). GO and ABORT together are illegal, at their rank after the port and state rules of both (R5). -/
def writeHctrl (n : Nat) (w : Word) (s : State) : Code × State :=
  if getField w 0 2 = 3 then
    let first := [(decideHomingGo n s).1, (decideHomingAbort n s).1].filter beforeReserved
    (first.headD E_RANGE, s)
  else if getField w 0 1 = 1 then decideHomingGo n s
  else if getField w 1 1 = 1 then decideHomingAbort n s
  else (E_OK, s)

/-- QP.TXBASE and QP.RXBASE (R312). -/
def writeRingBase (n off : Nat) (w : Word) (s : State) : Code × State :=
  let b := cellBase (qpId n)
  if w.toNat % 32 ≠ 0 then (E_ALIGN, s)
  else if s.flag b (ringOn (off == 0x28)) then (E_BUSY, s)
  else (E_OK, s.setReg (b + off) w)

/-- TOUT.CTRL:RESET (R178, R470): held until the applying scan decides it. -/
def writeTripReset (x : WriteCtx) (k : Nat) (s : State) : Code × State :=
  if getField x.cur.2 0 1 = 0 ∨ !x.deciding then (E_OK, s) else s.applyReset k

/-- A register of a cell with a cell ID: first, but for the service port of forces and trims, that the active image instantiates the cell (R5, R104). -/
def writeCell (x : WriteCtx) (id off : Nat) (s : State) : Code × State :=
  let w := x.cur.2
  let n := cellNum id
  if off = 0x0C then decideForce x.p id (getField w 0 2) (getField w 2 4) (s.comingForce id).2.2 s
  else if off = 0x10 then writeFval x.p id w s
  else if kindOf id = some .uc ∧ off = 0x3C ∧ x.p ≠ .service ∧ 1 ≤ getField w 0 3 ∧ getField w 0 3 ≤ 5 then (E_ACCESS, s)
  else if !s.exists_ id then (E_STATE, s)
  else if off = 0x08 then writeCellCtrl id w s
  else if off < 0x20 then (E_OK, s)
  else match kindOf id with
    | some .fc => if 0x24 ≤ off ∧ off ≤ 0x30 then writeFcParam id off w s else (E_OK, s)
    | some .lp =>
      if off = 0x20 then decideLoopMode n (getField w 0 2) s
      else if off = 0x40 then writeLoopGain n w s
      else if off = 0x24 ∨ off = 0x28 ∨ (0x44 ≤ off ∧ off ≤ 0x60) then decideLoopStaged n [(off, w)] s
      else (E_OK, s)
    | some .ph =>
      if off = 0x80 then writePhTcb id w s
      else if off = 0x84 ∧ getField w 0 1 = 1 then decideSyncBlock n s
      else (E_OK, s)
    | some .tout => if off = 0x24 then writeTripReset x n s else (E_OK, s)
    | some .uc =>
      if off = 0x38 then if f32IsNaN w then (E_RANGE, s) else (E_OK, s.setReg (cellBase id + off) w)
      else if off = 0x3C then writeTrimCtrl x.p n w s
      else if off = 0x60 ∨ (0x68 ≤ off ∧ off ≤ 0x84) then writeHart x n off s
      else (E_OK, s)
    | some .dp => if off = 0x30 ∧ getField w 0 1 = 1 then decideRearm n s else (E_OK, s)
    | some .ax =>
      if axRateOffs.contains off then writeRate x n off s
      else if off = 0x50 ∨ off = 0x54 then writeCurrent id off w s
      else if off = 0x58 then writeHctrl n w s
      else (E_OK, s)
    | some .qp =>
      if off = 0x24 ∨ off = 0x28 then writeRingBase n off w s
      else if off = 0x2C ∨ off = 0x30 then decidePost n (off == 0x30) (getField w 16 12) s
      else if off = 0x34 then decideQpCtrl n (getField w 0 6) s
      else (E_OK, s)
    | _ => (E_OK, s)

/-! Blocks. -/

/-- TB.CTRL (R189, R196, R503). -/
def writeTbCtrl (w : Word) (s : State) : Code × State :=
  let ack := getField w 0 1 == 1
  let retest := getField w 1 1 == 1
  if retest && s.mst != stSafe then (E_STATE, s)
  else if ack && (decideCauseAck s).1 != E_OK then (E_STATE, s)
  else if ack && retest then (E_RANGE, s)
  else if ack then decideCauseAck s
  else if retest then decideRetest s
  else (E_OK, s)

/-- CP.DBG (R195, R198). -/
def writeDebug (p : Port) (pair : Nat) (w : Word) (s : State) : Code × State :=
  match getField w 0 2 with
  | 0 => decideDebugNop p pair s
  | 1 => decideDebugAttach p pair s
  | 2 => decideDebugDetach p pair s
  | _ => ((debugGate p s).getD E_RANGE, s)

/-- The registers of a controller that are not kept in the journal (R362, R363, R371); `off` as CAN0 maps it. -/
def writeCan (c : Fin 2) (off : Nat) (w : Word) (s : State) : Code × State :=
  let load (f : TxBuf → TxBuf) : Code × State := if s.bufBusy c then (E_BUSY, s) else (E_OK, s.modBuf c (s.txsel c) f)
  if off = 0x40 then
    andThen (if getField w 2 1 = 1 then decideCanRecover c s else (E_OK, s)) fun s =>
      if getField w 0 2 = 3 then (E_RANGE, s) else (E_OK, s.wr (canBase c.val) Reg.CAN_CTRL_TXSEL (getField w 0 2))
  else if off = 0x44 then load fun b => { b with id := w }
  else if off = 0x48 then decideTxCmd c w s
  else if 0x50 ≤ off ∧ off ≤ 0x8C then load fun b => { b with data := b.data.set ((off - 0x50) / 4) w }
  else (E_OK, s)

/-- TM.SET (R350), STK.CFG:SYNC and STK.PHASE (R107). -/
def writeTm (x : WriteCtx) (off : Nat) (s : State) : Code × State :=
  let w := x.cur.2
  if off = 0x58 ∨ off = 0x5C ∨ off = 0x60 then
    x.asGroup tmGroup (if x.p = .service then E_OK else E_ACCESS)
      (fun v s => decideTmSet x.p (v 0).toNat (v 1).toNat (v 2).toNat s) s
  else if off = 0xC0 then if s.mst = stRun then (E_STATE, s) else (E_OK, s.wr tmBase Reg.STK_CFG_SYNC (getField w 16 1))
  else if off = 0xD8 then
    if s.mst = stRun then (E_STATE, s) else if 100000000 ≤ w.toNat then (E_RANGE, s) else (E_OK, s.wrw tmBase Reg.STK_PHASE w)
  else (E_OK, s)

/-- IMG.CTRL (R46, R47, R63): an operation acts on the bank written with it. -/
def writeImgCtrl (x : WriteCtx) (s : State) : Code × State :=
  let w := x.cur.2
  let b := getField w 4 1 == 1
  -- IMG.AT written in the same transaction takes effect with it (R469)
  let at_ := ((x.rest.reverse.find? fun e => e.1 == nvjBase + Reg.IMG_AT.off).map Prod.snd).getD (s.rdw nvjBase Reg.IMG_AT)
  let atStroke := getField w 5 1 == 1
  let r : Code × State :=
    match getField w 0 4 with
    | 0 => decideImgNop s
    | 1 => decideOpen b s
    | 2 => decideValidate b s
    | 3 => decideSave b s
    | 4 => decideCommit b atStroke at_ s
    | 5 => decideAbort s
    | _ => (E_RANGE, s)
  andThen r fun s => (E_OK, (s.nameBank b).setFlag nvjBase Reg.IMG_CTRL_ATSTROKE atStroke)

/-- The record window (R47, R49). -/
def writeWindow (x : WriteCtx) (s : State) : Code × State :=
  let gate : Code := if !s.mstIn [stLoad, stReady, stRun, stService] then E_STATE else if phValidating ≤ s.imgPhase then E_BUSY else E_OK
  x.asGroup windowGroup gate
    (fun v s => decideUnit (BitVec.ofNat 288 ((List.range 9).map fun i => (v i).toNat * 2 ^ (32 * i)).sum) s) s

/-- KEY.CTRL (R39, R64). -/
def writeKeyCtrl (x : WriteCtx) (s : State) : Code × State :=
  let w := x.cur.2
  let slot := getField w 0 2
  let addrs := x.whole.map Prod.fst
  let nine := (List.range 9).map fun i => nvjBase + 0xDC + 4 * i
  match getField w 2 2 with
  | 0 => decideKeyNop s
  | 1 =>
    if s.keyGate x.p ≠ E_OK then (s.keyGate x.p, s)
    else if addrs.length ≠ 9 ∨ !(nine.all addrs.contains) then (E_ORDER, s)
    else
      let word (i : Nat) : Nat := ((x.whole.find? fun e => e.1 == nvjBase + 0xDC + 4 * i).map fun e => e.2.toNat).getD 0
      journaled (keyHome slot) .clean (decideKeyInstall x.p slot (BitVec.ofNat 256 ((List.range 8).map fun i => word i * 2 ^ (32 * i)).sum)) s
  | 2 =>
    if s.keyGate x.p ≠ E_OK then (s.keyGate x.p, s)
    else if addrs.any fun a => nvjBase + 0xDC ≤ a && a < nvjBase + 0xFC then (E_ORDER, s)
    else journaled (keyHome slot) .clean (decideKeyRevoke x.p slot) s
  | _ => (E_RANGE, s)

/-- PNL.UPD (R418, R427). -/
def writeUpd (w : Word) (s : State) : Code × State :=
  let s' := (s.wr pnlBase Reg.PNL_UPD_SLOT (getField w 0 3)).wr pnlBase Reg.PNL_UPD_MODE (getField w 3 1)
  if getField w 4 1 = 1 then decideUpdate false s' else (E_OK, s')

/-- The frame-buffer window (R422). -/
def writeFrame (x : WriteCtx) (s : State) : Code × State :=
  x.asGroup frameGroup (if s.panelSrc then E_OK else E_STATE)
    (fun v s => decideFrameBuffer (v 0) ((List.range 8).map fun i => v (i + 1)) s) s

/-- MOD.CMD (R475, R476); RESTART acts after the whole transaction has been answered (R473). -/
def writeModCmd (p : Port) (w : Word) (s : State) : Code × State :=
  if getField w 0 4 = opRestart then (E_OK, s) else decideModCmd p (getField w 0 4) s

/-- A block-level register. -/
def writeBlock (x : WriteCtx) (r b off : Nat) (s : State) : Code × State :=
  let w := x.cur.2
  let a := x.cur.1
  let keep : Code × State := (E_OK, s.setReg a w)
  if (storedAt a).isSome then decideStored x.p a w s
  else if r = 0 then
    if off = 0x08 then writeModCmd x.p w s
    else if off = 0x14 then decideModeNext x.p (getField w 1 1 == 1) s
    else (E_OK, s)
  else if off = 0x0C then if getField w 0 1 = 1 then decideReint r b s else (E_OK, s)
  else if off < 0x20 then (E_OK, s)
  else match r, b with
    | 2, 24 =>
      if off = 0x28 then writeTbCtrl w s
      else if off = 0x34 ∨ off = 0x74 then keep
      else if off = 0x3C then decideBypass x.p (getField w 0 16) s
      else (E_OK, s)
    | 2, b => if 25 ≤ b ∧ off = 0x30 then writeDebug x.p (b - 25) w s else (E_OK, s)
    | 3, 0 => if off = 0x3C ∧ getField w 0 1 = 1 then decideSwitch .a s else (E_OK, s)
    | 3, 1 => if off = 0x3C ∧ getField w 0 1 = 1 then decideSwitch .b s else (E_OK, s)
    | 3, 3 =>
      if off = 0x28 then keep
      else if off = 0x2C then decideRoot w s
      else if off = 0x30 then decideInvalidate (getField w 0 4) (getField w 4 1 == 1) s
      else (E_OK, s)
    | 3, 4 => writeTm x off s
    | 3, 5 => if off < 0x90 then writeCan 0 off w s else writeCan 1 (off - 0x70) w s
    | 4, 0 =>
      if off = 0x3C then
        if getField w 0 8 = 0 ∨ 168 < getField w 0 8 then (E_RANGE, s) else keep
      else (E_OK, s)
    | 4, 1 =>
      if off = 0x80 then writeImgCtrl x s
      else if off = 0x90 then keep
      else if 0xB0 ≤ off ∧ off ≤ 0xD0 then writeWindow x s
      else if off = 0xFC then writeKeyCtrl x s
      else (E_OK, s)
    | 4, 2 => if off = 0x28 then decideRecCtrl x.p (getField w 0 3) s else (E_OK, s)
    | 4, 3 =>
      if off = 0x20 then (E_OK, s.setPanelCfg w)
      else if off = 0x34 ∨ off = 0x38 then keep
      else if off = 0x3C then writeUpd w s
      else if 0x40 ≤ off ∧ off ≤ 0x60 then writeFrame x s
      else (E_OK, s)
    | 4, 4 => if off = 0x44 ∧ getField w 0 1 = 1 then decideHutest s else (E_OK, s)
    | _, _ => (E_OK, s)

/-- The second block-level pages (R411, R461). -/
def writeSecond (x : WriteCtx) (s : State) : Code × State :=
  if taborPage x.cur.1 then (if s.tabor then E_OK else E_CARILLON, s)
  else if 480768 ≤ getField x.cur.2 0 20 then (E_RANGE, s)
  else (E_OK, s.wrw rec2Base Reg.REC_LOGSEL_INDEX x.cur.2)

/-- The decision on one register of an implemented address: its own decision, with the reserved bits of R4 at their rank in R5, those of a group with the
decision on the group. -/
def writeMapped (x : WriteCtx) (s : State) : Code × State :=
  let a := x.cur.1
  let r : Code × State :=
    if addrCell a = 0xFFF then writeBlock x (addrRegion a) (addrBlock a) (addrOff a) s
    else if addrCell a = 0xFFE then writeSecond x s
    else match addrCellId a with
      | some id => writeCell x id (addrOff a) s
      | none => (E_OK, s)
  if !(tmGroup ++ windowGroup ++ frameGroup).contains a && reservedSet (fieldsAt a) (addrOff a) x.cur.2 && !beforeReserved r.1 then (E_RANGE, s) else r

end Sys2Proof.Machine
end

