-- ==== Sys2Proof/Machine/Manage.lean ====
section
/-! DEFINITION. Management transactions (R462–R474): arrival and checks, the queue and the remembered identifiers, reads, writes, and held writes. -/

namespace Sys2Proof

open Sys2Proof.Machine

/-! The checks of a request (R464, R465, R467). -/

/-- Registers that the request reads. -/
def MgmtReq.readCount (r : MgmtReq) : Nat := ((r.ops.filter fun o => o.op.toNat == opRead).map fun o => o.count.toNat).sum

/-- Bytes that the operations take, with the request's head (R465). -/
def MgmtReq.length (r : MgmtReq) : Nat := 4 + (r.ops.map fun o => 8 + 4 * o.data.length).sum

/-- The length is too great, or disagrees with the contents: with the transport's statement of it, or with the operations (R464). -/
def MgmtReq.badSize (r : MgmtReq) : Bool :=
  1468 < r.bytes.length || r.declared != r.bytes.length || r.length != r.bytes.length || r.ops.length != r.nops.toNat ||
    r.ops.any fun o => o.data.length != (if o.op.toNat == opWrite then o.count.toNat else 0)

/-- A field outside its legal values (R465, R467). -/
def MgmtReq.badField (r : MgmtReq) : Bool :=
  r.reserved != 0 || r.nops == 0 || 64 < r.nops.toNat ||
    r.ops.any fun o => o.reserved != 0 || o.count == 0 || 64 < o.count.toNat || (o.op.toNat != opRead && o.op.toNat != opWrite)

/-- Reads and writes together. -/
def MgmtReq.mixed (r : MgmtReq) : Bool := (r.ops.any fun o => o.op.toNat == opRead) && r.ops.any fun o => o.op.toNat == opWrite

/-- A run of registers passes offset 0xFC of its cell or block. -/
def MgmtOp.overruns (o : MgmtOp) : Bool := 64 < o.addr.toNat % 256 / 4 + o.count.toNat

/-- How a request is rejected as a whole: the code and FAILOP (R467). -/
def MgmtReq.reject (r : MgmtReq) : Option (Code × Nat) :=
  if r.badSize || r.badField then some (E_RANGE, 0xFF)
  else if r.mixed then some (E_ORDER, 0xFF)
  else if 365 < r.readCount then some (E_RANGE, 0xFF)
  else (r.ops.findIdx? MgmtOp.overruns).map fun i => (E_ADDR, i)

def MgmtReq.isRead (r : MgmtReq) : Bool := r.ops.any fun o => o.op.toNat == opRead

/-- The registers of the request in order, each with the index of its operation. -/
def MgmtReq.registers (r : MgmtReq) : List (Nat × Nat × Word) :=
  (r.ops.zip (List.range r.ops.length)).flatMap fun e =>
    (List.range e.1.count.toNat).map fun k => (e.2, e.1.addr.toNat + 4 * k, e.1.data.getD k 0)

end Sys2Proof

namespace Sys2Proof.Machine

/-! Remembered identifiers (R472). -/

def sameRequester (a b : MgmtReq) : Bool := sameSource a.requester b.requester

/-- Two seconds in CLK_FAB cycles. -/
def rememberCycles : Nat := 1000000000

/-- Responses older than 2 s are forgotten. -/
def State.forgetOld (s : State) : State :=
  s.modMgmt fun m => { m with memory := m.memory.filter fun e =>
    match e.2 with
    | some (_, t) => decide (s.time.cycles < t + rememberCycles)
    | none => true }

/-- A request is remembered, beside the last seven others of its requester; it has no response yet. -/
def State.remember (s : State) (r : MgmtReq) : State :=
  s.modMgmt fun m =>
    let others := m.memory.filter fun e => !sameRequester e.1 r
    let mine := m.memory.filter fun e => sameRequester e.1 r
    { m with memory := (r, none) :: mine.take 7 ++ others }

/-! Arrival (R471, R472). -/

/-- The order in which arrivals of one CLK_FAB cycle are taken (R471). -/
def portRank : Port → Nat
  | .service => 0
  | .chainUp => 1
  | .chainDown => 2
  | .na => 3
  | .nb => 4

/-- The queue with an arrival at its place: by the cycle of arrival, then by port. -/
def enqueue (q : List (Nat × MgmtReq)) (t : Nat) (r : MgmtReq) : List (Nat × MgmtReq) :=
  match q with
  | [] => [(t, r)]
  | e :: rest => if t = e.1 ∧ portRank r.port < portRank e.2.port then (t, r) :: e :: rest else e :: enqueue rest t r

/-- A checked request joins the queue, or finds it full: E_BUSY, and it is not remembered, since nothing was executed. -/
def State.queueRequest (s : State) (r : MgmtReq) : State :=
  if 32 ≤ s.mgmt.queue.length then s.respond r E_BUSY 0xFF []
  else (s.remember r).modMgmt fun m => { m with queue := enqueue m.queue s.time.cycles r }

/-- A request that reaches the module: duplicates first, then the checks of R467. -/
def State.takeRequest (s : State) (r : MgmtReq) : State :=
  let s := s.forgetOld
  match s.mgmt.memory.find? fun e => sameRequester e.1 r && e.1.tid == r.tid with
  | some (q, a) =>
    if q.bytes = r.bytes then match a with
      | some (o, _) => s.sendResponse r o
      | none => s
    else s.sendResponse r (responseBytes r E_ORDER 0xFF [])
  | none =>
    match r.reject with
    | some (c, i) => (s.remember r).respond r c i []
    | none => s.queueRequest r

/-- Where a transport counts its malformed frames (R330, R309); the service port has no such counter. -/
def State.malformed (s : State) : Requester → State
  | .usb => s
  | .mac p _ => s.bump (netBase p) Reg.NET_ERRCNT_FILTERED
  | .udp p _ _ _ => s.bump (netBase p) Reg.NET_ERRCNT_FILTERED
  | .chain _ _ => dropFrame s

/-- What becomes of an arriving request (R464, R473, R474). -/
def State.arrive (s : State) (r : MgmtReq) : State :=
  match s.gate r.port with
  | .silent => s
  | .refuse c => if r.bytes.length < 2 then s.malformed r.requester else s.sendResponse r (responseBytes r c 0xFF [])
  | _ => if r.bytes.length < 2 then s.malformed r.requester else s.takeRequest r

/-- A frame delivered from a chain port is a MGMT frame to this module (R279, R462). -/
def State.mgmtHere (s : State) (f : ChainFrame) : Bool :=
  f.ty == 4 && f.poisoned.isEmpty && f.badFlits == 0 && (f.dst == 0 || f.dst.toNat == s.addr)

/-- The length that a MGMT frame's TSPEC states (R463). -/
def mgmtLength (f : ChainFrame) : Nat := tspec f 26 + 256 * tspec f 27

/-- The bytes that a MGMT frame holds of its transaction: those of the stated length where its flits and the padding of 0 agree with it, else all it
holds, so that the length disagrees with the contents (R463, R464). -/
def mgmtBytes (f : ChainFrame) : List Byte :=
  let all := f.payload.flatten
  if f.payload.length = (mgmtLength f + 31) / 32 ∧ (all.drop (mgmtLength f)).all (· == 0) then all.take (mgmtLength f) else all

/-- TSPEC bytes 28–31 of a request's frame are not as R463 lays down (DESIGN CHOICE, log entry 127). -/
def badMgmt (f : ChainFrame) : Bool := tspec f 28 != 3 || tspec f 29 != 0 || tspec f 30 != 0 || tspec f 31 != 0

/-- MANAGEMENT_REQUEST (R462, R463, R467, R471–R474): a transfer of the service port with a header of KIND 3, or a MGMT frame. -/
def execManagementRequest (a : MgmtArrival) (s : State) : Host.Outcome State Fault Refusal :=
  done <|
    match a with
    | .usb h bytes => if h.ver = 1 ∧ h.kind = 3 then s.arrive ⟨.usb, h.count.toNat, bytes⟩ else s
    | .chain p f =>
      if !s.mgmtHere f then s
      else if badMgmt f then dropFrame s
      else s.arrive ⟨.chain p f.src, mgmtLength f, mgmtBytes f⟩

/-- What R330 drops of the management frames: a broken Sahvos frame, or a datagram that is not to NET.IP or whose header is not of KIND 3 (R317). -/
def State.mreqFiltered (s : State) (p : Path) (ip : Option (BitVec 32)) (h : Sahvos) (bytes : List Byte) : Bool :=
  match ip with
  | none => badSahvos h 3 || h.count.toNat != bytes.length
  | some ip => s.rdw (netBase p) Reg.NET_IP == 0 || s.rdw (netBase p) Reg.NET_IP != ip || h.ver != 1 || h.kind != 3

/-- MREQ (R317, R330, R462): an MREQ frame, or a datagram by its destination IP address, source IP address and source UDP port, with the Sahvos header and
the bytes after it; the policer decides whether it is served. -/
def execMreq (rx : NetRx) (datagram : Option (BitVec 32 × BitVec 32 × BitVec 16)) (r : MreqFrame) (s : State) :
    Host.Outcome State Fault Refusal :=
  let p := rx.path
  done <| s.receive p rx.head fun s =>
    if s.mreqFiltered p (datagram.map Prod.fst) r.head r.bytes || (datagram.isNone && rx.head.dst != macOf p) then s.bump (netBase p) Reg.NET_ERRCNT_FILTERED
    else
      let who : Requester := datagram.elim (.mac p r.mac) fun d => .udp p d.2.1 d.2.2 r.mac
      let (ok, s) := s.police p
      if ok then (s.bump (netBase p) Reg.NET_MGMTCNT_MREQ).arrive ⟨who, r.head.count.toNat, r.bytes⟩ else s

/-! Execution. -/

/-- Which block executes a transaction now: CP1, the PWR block, or none while CP1 is held; `none` too where the port is not answered (R473). -/
inductive Runs where
  | cp1 | pwr | waits | lost
  deriving DecidableEq, Repr

def State.runs (s : State) (p : Port) : Runs :=
  match s.gate p with
  | .full => if s.flag (cpBase 1) Reg.CP_STATUS_HELD then .waits else .cp1
  | .pwrOnly => .pwr
  | _ => .lost

/-- The front of the queue leaves it. -/
def State.popRequest (s : State) : State := s.modMgmt fun m => { m with queue := m.queue.tail }

/-- The front of the queue is lost unanswered: its identifier is not remembered, so that a retry is executed (R472, R473). -/
def State.dropRequest (s : State) : State :=
  s.modMgmt fun m => { m with queue := m.queue.tail, memory := m.memory.filter fun e => e.2.isSome || some e.1 != (m.queue.head?.map Prod.snd) }

/-- The read of a transaction (R6, R468). -/
def State.readAll (s : State) (r : MgmtReq) (pwrOnly : Bool) : State :=
  let regs := r.registers
  match regs.find? fun e => s.readCheck pwrOnly e.2.1 != E_OK with
  | some e => s.respond r (s.readCheck pwrOnly e.2.1) e.1 []
  | none =>
    let data := regs.map fun e => s.readWord e.2.1
    let s := regs.foldl (fun s e => s.clearRead e.2.1) s
    let s := s.when (regs.any fun e => e.2.1 == qbBase + Reg.QB_STATUS_INFLIGHT.off) fun s => { s with free := s.free + 1 }
    s.respond r E_OK 0xFF data

/-- READ_TRANSACTION (R468): the transaction at the front of the queue, where it reads. -/
def execReadTransaction (s : State) : Host.Outcome State Fault Refusal :=
  done <|
    match s.mgmt.queue with
    | [] => s
    | (_, r) :: _ =>
      if !r.isRead then s
      else match s.runs r.port with
        | .waits => s
        | .lost => s.dropRequest
        | .cp1 => s.popRequest.readAll r false
        | .pwr => s.popRequest.readAll r true

/-! Writes (R469). -/

/-- One register for both paths: NET.XCFG (R332). -/
def sameRegister (a : Nat) : Nat := if a = netBase .b + 0x2C then netBase .a + 0x2C else a

/-- The registers that held transactions write (R471). -/
def State.heldRegisters (s : State) : List Nat := s.mgmt.held.flatMap fun r => r.registers.map fun e => sameRegister e.2.1

/-- Writes that the PWR block executes: RESTART, and the common block registers of an isolated CP1 (R473). -/
def State.pwrWrites (s : State) (a : Nat) (w : Word) : Bool :=
  (a == modBase + Reg.MOD_CMD_OP.off && w.toNat == opRestart) || (s.isolated 2 26 && cp1Common a)

/-- The decision on one register write of a transaction. -/
def writeRegister (x : WriteCtx) (pwrOnly : Bool) (busy : List Nat) (s : State) : Code × State :=
  let a := x.cur.1
  if addrCheck a ≠ E_OK then (addrCheck a, s)
  else if pwrOnly && !s.pwrWrites a x.cur.2 then (E_STATE, s)
  else if busy.contains (sameRegister a) then (E_BUSY, s)
  else if (fieldsAt a).isEmpty then (if taborPage a && !s.tabor then E_CARILLON else E_ADDR, s)
  else writeMapped x s

/-- Register after register, each on the state the earlier ones leave: the state after all, or the code, the operation, the
address and the word of the first that fails. -/
def writeAll (p : Port) (deciding pwrOnly : Bool) (busy : List Nat) (before : List (Nat × Word)) :
    List (Nat × Nat × Word) → State → (Code × Nat × Nat × Word) ⊕ State
  | [], s => .inr s
  | (i, a, w) :: rest, s =>
    let x : WriteCtx := ⟨p, deciding, before, (a, w), rest.map Prod.snd⟩
    let r := writeRegister x pwrOnly busy s
    if r.1 ≠ E_OK then .inl (r.1, i, a, w) else writeAll p deciding pwrOnly busy (before ++ [(a, w)]) rest r.2

/-- The kinds of write whose result is decided later (R470). -/
def heldKind (a : Nat) (w : Word) : Option Nat :=
  if (storedAt a).isSome || a == modBase + Reg.MOD_MODE_NEXT.off then some 3
  else if a = recBase + Reg.REC_CTRL_CLEAR.off then if getField w 2 1 = 1 then some 5 else none
  else match addrCellId a with
    | some id =>
      let off := addrOff a
      match kindOf id with
      | some .tout => if off = Reg.TOUT_CTRL_RESET.off ∧ getField w 0 1 = 1 then some 1 else none
      | some .ax => if axRateOffs.contains off then some 2 else none
      | some .uc => if off = Reg.UC_TRIM_CTRL_OP.off ∧ (getField w 0 3 = 3 ∨ getField w 0 3 = 4) then some 4 else none
      | _ => none
    | none => none

def heldKinds (regs : List (Nat × Nat × Word)) : List Nat := (regs.filterMap fun e => heldKind e.2.1 e.2.2).eraseDups

/-- A transaction holds MOD.CMD:OP = RESTART. -/
def restarts (regs : List (Nat × Nat × Word)) : Bool :=
  regs.any fun e => e.2.1 == modBase + Reg.MOD_CMD_OP.off && getField e.2.2 0 4 == opRestart

/-- The transaction passes: its effects, the answer, and then a restart it asked for (R473). -/
def State.passWrite (s : State) (r : MgmtReq) : State :=
  (s.respond r E_OK 0xFF []).when (restarts r.registers) fun s => s.resetBy .cmd

/-- The transaction fails at a register: nothing of it takes effect, but a refused update request counts (R418). One with a reserved bit is such a request
where a row of its table answers it first (R5). -/
def State.failWrite (s : State) (r : MgmtReq) (c : Code) (i a : Nat) (w : Word) : State :=
  let update := a == pnlBase + Reg.PNL_UPD_GO.off && getField w 4 1 == 1 && (w.toNat < 32 || beforeReserved c)
  (s.when update fun s => s.bump pnlBase Reg.PNL_CNT2_REFUSED).respond r c i []

/-- The write of a transaction (R469, R470). -/
def State.writeTransaction (s : State) (r : MgmtReq) (pwrOnly : Bool) : State :=
  let regs := r.registers
  let kinds := heldKinds regs
  if !pwrOnly ∧ 1 < kinds.length then s.respond r E_ORDER 0xFF []
  else match writeAll r.port false pwrOnly s.heldRegisters [] regs s with
    | .inl (c, i, a, w) => s.failWrite r c i a w
    | .inr s' => if kinds.isEmpty ∨ pwrOnly then s'.passWrite r else s.modMgmt fun m => { m with held := m.held ++ [r] }

/-- WRITE_TRANSACTION (R469): the transaction at the front of the queue, where it writes. -/
def execWriteTransaction (s : State) : Host.Outcome State Fault Refusal :=
  done <|
    match s.mgmt.queue with
    | [] => s
    | (_, r) :: _ =>
      if r.isRead then s
      else match s.runs r.port with
        | .waits => s
        | .lost => s.dropRequest
        | .cp1 => s.popRequest.writeTransaction r false
        | .pwr => s.popRequest.writeTransaction r true

/-! Held writes (R470). -/

/-- The granules in which the journal keeps a register write (R331, R222, R405, R460). -/
def State.keptHome (s : State) (a : Nat) (w : Word) : List Nat :=
  if (storedAt a).isSome then storedHome (sameRegister a)
  else if a = modBase + Reg.MOD_MODE_NEXT.off then modeHome
  else match heldKind a w with
    | some 4 => (addrCellId a).elim [] fun id => s.trimHome (cellNum id)
    | some 5 => s.savedHome
    | _ => []

/-- HELD_WRITE_DECISION (R470): the decision on the `index`-th held transaction: of a trip reset or rates on the state of the applying scan or boundary, of what
the journal keeps by its one transaction, whose writes come out as `o`. Nothing of it takes effect once CP1 is isolated (R193, R473; DEDUCED, log entry 141). -/
def execHeldWriteDecision (index : Nat) (o : NvOutcome) (s : State) : Host.Outcome State Fault Refusal :=
  done <|
    match s.mgmt.held[index]? with
    | none => s
    | some r =>
      match s.runs r.port with
      | .waits => s
      | .pwr => (s.modMgmt fun m => { m with held := m.held.eraseIdx index }).respond r E_INTERNAL 0xFF []
      | .lost => s.modMgmt fun m => { m with held := m.held.eraseIdx index, memory := m.memory.filter fun e => e.2.isSome || e.1 != r }
      | .cp1 =>
        let s := s.modMgmt fun m => { m with held := m.held.eraseIdx index }
        match writeAll r.port true false [] [] r.registers s with
        | .inl (c, _, a, w) => s.failWrite r c 0xFF a w
        | .inr t =>
          let homes := r.registers.flatMap fun e => s.keptHome e.2.1 e.2.2
          if homes.isEmpty then t.passWrite r
          else
            let k := s.commitTxn homes o
            if k.1 ≠ E_OK then k.2.respond r k.1 0xFF []
            else match writeAll r.port true false [] [] r.registers k.2 with
              | .inl (c, _) => k.2.respond r c 0xFF []
              | .inr t => t.passWrite r

end Sys2Proof.Machine
end

