-- ==== Sys2Proof/Machine/Stroke.lean ====
section
/-! DEFINITION. The stroke (03): its boundaries (R65–R70, R103), publication (R71–R77), and the evaluation window (R71, R75). -/

namespace Sys2Proof.Machine

/-! When a boundary falls (R65–R70, R345). -/

/-- Boundaries fall from ENUM onward, but in PFAIL (R65). -/
def State.strokesRun (s : State) : Bool := s.mstIn [stEnum, stLoad, stReady, stRun, stSafe, stService]

/-- STK.PHASE mod T_S (R66). -/
def State.strokePhase (s : State) : Nat := (s.rdw tmBase Reg.STK_PHASE).toNat % max 1 s.tsNs

/-- The first R66 instant at or after a time in ns: instant and number. -/
def State.edgeFrom (s : State) (t : Int) : Int × Nat :=
  let ts : Int := max 1 s.tsNs
  let n := (-((s.strokePhase - t) / ts)).toNat
  (n * ts + s.strokePhase, n)

/-- With SYNC = 1, the instant and the number of the next boundary: the first R66 instant in ENUM; for a backward step of at most 1 s that of the
stroke's own number; otherwise the first R66 instant at least T_S / 2 after the previous boundary, which is the next one unless T_S, STK.PHASE, SYNC or
the time has changed (R66, R70, R345). -/
def State.nextEdge (s : State) : Int × Nat :=
  if s.fab.boundaries = 0 then s.edgeFrom (s.nowNs + 1)
  else if s.time.stepped = 2 then (((s.strokeNo + 1) * s.tsNs + s.strokePhase : Nat), s.strokeNo + 1)
  else
    let t := s.time.edge + (s.tsNs + 1) / 2
    -- after a step the instant does not lie before the time stepped to
    s.edgeFrom (if s.time.stepped = 1 then max t (s.time.steppedTo.getD 0 : Nat) else t)

/-- The time base runs to the CLK_FAB cycle at which it first reads an instant or later. -/
def State.runTo (s : State) (t : Int) : State :=
  let goal : Int := t * 2 ^ 32
  if goal ≤ s.now32 then s
  else s.advance (s.cyclesTo goal 40 ((goal - s.now32) / (2 ^ 33 - 8589934) + 1).toNat)

/-- The registers of the stroke sequencer report a boundary (R107); SLIPS counts a number that does not follow the last (R69). -/
def State.showEdge (s : State) (t : Int) (n : Nat) : State :=
  let ns := t.toNat
  let s := s.when (s.fab.boundaries != 0 && n != s.strokeNo + 1) fun s => s.bump tmBase Reg.STK_SLIP_SLIPS
  let s := (s.wrw tmBase Reg.STK_NUM_LO (BitVec.ofNat 32 n)).wrw tmBase Reg.STK_NUM_HI (BitVec.ofNat 32 (n / 2 ^ 32))
  let s := (s.wrw tmBase Reg.STK_TB_NS (BitVec.ofNat 32 (ns % 1000000000))).wrw tmBase Reg.STK_TB_SLO (BitVec.ofNat 32 (ns / 1000000000))
  s.wr tmBase Reg.STK_TB_SHI_S (ns / 1000000000 / 2 ^ 32)

/-- A boundary falls: the time base, the number, the boundary count (R66, R67, R69). -/
def State.passEdge (s : State) : State :=
  let s :=
    if s.flag tmBase Reg.STK_CFG_SYNC then
      let e := s.nextEdge
      (s.runTo e.1).showEdge e.1 e.2
    else if s.fab.boundaries = 0 then s.showEdge s.nowNs 0
    else
      let s := s.advance (s.tsNs / 2 - (s.time.cycles - s.time.edgeCycle))
      s.showEdge s.nowNs (s.strokeNo + 1)
  let edge : Int := (s.rdw tmBase Reg.STK_TB_NS).toNat + 1000000000 * ((s.rdw tmBase Reg.STK_TB_SLO).toNat + 2 ^ 32 * s.rd tmBase Reg.STK_TB_SHI_S)
  let s := s.modTime fun x => { x with edge := edge, edgeCycle := x.cycles, stepped := 0 }
  (s.setFlag tmBase Reg.TM_STATUS_PAUSED false).modFab fun f => { f with boundaries := f.boundaries + 1, before := none }

/-! Publication (R71–R77). -/

/-- What a port of a cell carries from this boundary, given what it carried: refreshed or not, and the word. A cell in FAULT publishes BAD_HW (R94) unless a
safe command drives it (R87), and an output point goes on publishing its readback with it (R234); a simulated port carries its value (R87, R88); a held result is published; otherwise the word ages (R74). -/
def State.portStep (s : State) (id port : Nat) (old : SigWord) : Bool × SigWord :=
  let force := (s.cell id).force
  let safe := s.src id == 3 && s.physical id
  let x : Bool × SigWord :=
    match s.held id port with
    | some w => if w.age = 0 then (true, w) else (false, { w with flags := flKept w.flags, age := old.aged.age })
    | none => (false, old.aged)
  if s.cst id == csFault && !safe && kindOf id != some .ax then
    if kindOf id == some .dp && s.dpOutput (cellNum id) then (x.1, if x.1 then x.2 else { x.2 with qual := Q_BAD_HW, flags := 0 })
    else (false, { old.aged with qual := Q_BAD_HW })
  else
    if force.1 = 2 && force.2.1 == port && s.src id != 3 && s.dueClosing id && !s.fab.late.contains id then
      (true, ⟨force.2.2, Q_SIMULATED, FL_SIM ||| (x.2.flags &&& FL_INIT), 0⟩)
    else x

/-- A signal takes its word; a refresh is marked (R237). -/
def State.putSignal (s : State) (sig : Nat) (x : Bool × SigWord) : State :=
  (s.setSig sig x.2).when x.1 fun s => s.modFab fun f => { f with freshAt := Store.set none f.freshAt sig (some f.boundaries) }

/-- Ports of a cell that have carried a word, or carry one now. -/
def State.livePorts (s : State) (id : Nat) : List Nat :=
  (List.range 16).filter fun p =>
    (s.held id p).isSome || (Store.get none s.fab.ports (id * 16 + p)).isSome || ((s.cell id).force.1 == 2 && (s.cell id).force.2.1 == p)

/-- UC.VALUE and UC.AUX read what ports 0 and 1 of a channel carry (R223); LP.OUT and LP.MODE:INITREQ what a loop has published on ports 0 and 2 (R142). -/
def State.showPort (s : State) (id port : Nat) (fresh : Bool) (w : Word) : State :=
  match kindOf id, port with
  | some .uc, 0 => s.wrw (cellBase id) Reg.UC_VALUE w
  | some .uc, 1 => s.wrw (cellBase id) Reg.UC_AUX w
  | some .lp, 0 => s.when fresh fun s => s.wrw (cellBase id) Reg.LP_OUT w
  | some .lp, 2 => s.when fresh fun s => s.setFlag (cellBase id) Reg.LP_MODE_INITREQ (f32True w)
  | _, _ => s

/-- A cell publishes its ports and signals; CELL.STATE:QUAL follows port 0 (R104). -/
def State.publishCell (s : State) (id : Nat) : State :=
  let words := (s.livePorts id).map fun p => (p, s.portStep id p (s.portWord id p))
  let sigs := (s.produced id).map fun r => (sigId r, s.portStep id (sigPort r) (s.sig (sigId r)))
  let s := s.modFab fun f => { f with ports := words.foldl (fun m e => Store.set none m (id * 16 + e.1) (some e.2.2.published)) f.ports }
  let s := sigs.foldl (fun s e => s.putSignal e.1 e.2) s
  let s := words.foldl (fun s e => s.showPort id e.1 e.2.1 e.2.2.published.val) s
  match words.find? fun e => e.1 == 0 with
  | some e => s.wr (cellBase id) Reg.CELL_STATE_QUAL e.2.2.qual.toNat
  | none => s.when (s.cst id == csFault) fun s => s.wr (cellBase id) Reg.CELL_STATE_QUAL Q_BAD_HW.toNat

/-- Port 4 of a leader carries the quality and flags of the selected slot's port 0, as published (R118), unless port 4 is itself simulated or the leader
is in FAULT. -/
def State.followSelected (s : State) (lead : Nat) : State :=
  if kindOf lead != some .lp || lpKind (s.cfg lead 0) != 1 || s.cst lead == csFault || ((s.cell lead).force.1 == 2 && (s.cell lead).force.2.1 == 4) then s
  else
    let sel := lead + s.rd (cellBase lead) Reg.LP_SEL_SELECTED
    match Store.get none s.fab.ports (sel * 16), Store.get none s.fab.ports (lead * 16 + 4) with
    | some w, some p =>
      let s := s.modFab fun f => { f with ports := Store.set none f.ports (lead * 16 + 4) (some { p with qual := w.qual, flags := w.flags }) }
      ((s.produced lead).filter fun r => sigPort r == 4).foldl (fun s r =>
        s.setSig (sigId r) { (s.sig (sigId r)) with qual := w.qual, flags := w.flags }) s
    | _, _ => s

/-- Results of a trip output: TRIPPED and n, with quality GOOD (R180). -/
def State.closeTo (s : State) (k : Nat) : State :=
  let id := toId k
  if !s.dueClosing id || s.cst id == csFault then s
  else
    let init := s.initFlag id
    let s := (s.hold id 0 ⟨f32OfBool (s.tripped k), Q_GOOD, init, 0⟩).hold id 1 ⟨toF32c (s.rd (cellBase id) Reg.TOUT_STATE_NDEM : Nat), Q_GOOD, init, 0⟩
    (s.modCell id fun c => { c with first := false }).evalEnd id false

/-- Results of a phasor group: the newest result set of the stroke (R150–R152). -/
def State.closePh (s : State) (g : Nat) : State :=
  let id := phId g
  let b := cellBase id
  let p := s.ph g
  let s :=
    if p.fresh && s.dueClosing id && [csRun, csRecover, csTest].contains (s.cst id) then
      let init := s.initFlag id
      let s := (List.range 15).foldl (fun s i => s.hold id i ⟨p.vals.getD i 0, p.quals.getD i Q_GOOD, init, 0⟩) s
      let status := setField (BitVec.ofNat 32 (getField (s.reg (b + Reg.PH_STATUS_SYNC.off)) 0 14)) 5 1 (if p.permitSeen || s.flag b Reg.PH_STATUS_PERMIT then 1 else 0)
      ((s.hold id 15 ⟨status, Q_GOOD, init, 0⟩).modCell id fun c => { c with first := false }).evalEnd id false
    else s
  s.modPh g fun p => { p with fresh := false, permitSeen := s.flag b Reg.PH_STATUS_PERMIT }

/-- Strokes evaluate in these states, and the cells of a stroke publish (R21, R93; DEDUCED, log entry 63: in READY the cells hold OFF or START and publish nothing). -/
def State.evaluating (s : State) : Bool := s.mstIn [stRun, stSafe, stService]

/-- A cell whose work of the stroke is discarded publishes nothing new (R75, R94): what its hardware delivered in the stroke is gone. What a point has caught
stands until its next publication (R227). -/
def State.skipStroke (s : State) (id : Nat) : State :=
  match kindOf id with
  | some .uc => s.modUc (cellNum id) fun u => { u with fresh := false }
  | some .ph => s.modPh (cellNum id) fun p => { p with fresh := false, permitSeen := s.flag (cellBase id) Reg.PH_STATUS_PERMIT }
  | _ => s

/-- A cell whose state held a word that could not be read publishes its last values with HELD, and the error is counted (R94). -/
def State.closeUnread (s : State) (id : Nat) : State :=
  let s := (s.skipStroke id).modCell id fun c => { c with unread := false }
  let s := (List.range 16).foldl (fun s p => match Store.get none s.fab.ports (id * 16 + p) with
    | some w => s.hold id p { w with qual := Q_HELD, age := 0 }
    | none => s) s
  s.evalEnd id true

/-- The cells whose results a boundary takes from their hardware rather than from an evaluation window. A due stroke of a queue pair in RECOVER is one of
its 8 evaluations (DESIGN CHOICE, log entry 135). -/
def State.closeCell (s : State) (id : Nat) : State :=
  if !s.fab.opened then s
  else if s.fab.late.contains id then s.skipStroke id
  else if (s.cell id).unread && s.dueClosing id && [csStart, csRun, csTest, csRecover].contains (s.cst id) &&
      !([some .fc, some .lp].contains (kindOf id)) then s.closeUnread id
  else
    match kindOf id with
    | some .uc => s.closeUc (cellNum id)
    | some .dp => s.closeDp (cellNum id)
    | some .ax => s.closeAx (cellNum id)
    | some .ph => s.closePh (cellNum id)
    | some .tout => s.closeTo (cellNum id)
    | some .qp => if s.cst id == csRecover && s.dueClosing id then s.evalEnd id false else s
    | _ => s

/-- A cell in FAULT whose words are imported: BAD_HW, ageing (R94). -/
def State.importFault (s : State) (id : Nat) : State :=
  ((s.produced id).foldl (fun s r => s.setSig (sigId r) { (s.sig (sigId r)).aged with qual := Q_BAD_HW }) s).wr (cellBase id) Reg.CELL_STATE_QUAL Q_BAD_HW.toNat

/-- CELL.STATE:QUAL of a peer context: the quality its signals carry; where they differ the spec does not say which. -/
def State.peerQual (s : State) (id : Nat) : State :=
  match ((s.produced id).map fun r => (s.sig (sigId r)).qual).eraseDups with
  | [] => s
  | [q] => s.wr (cellBase id) Reg.CELL_STATE_QUAL q.toNat
  | _ => let (w, s) := s.draw; s.wr (cellBase id) Reg.CELL_STATE_QUAL (w.toNat % 13)

/-- A simulated port of an importing cell carries its value (R87, R88); `old` is what its signals carried before the boundary. -/
def State.simulateImport (s : State) (id : Nat) (old : Nat → SigWord) : State :=
  let force := (s.cell id).force
  if force.1 ≠ 2 then s
  else
    let due := s.dueClosing id
    let s := ((s.produced id).filter fun r => sigPort r == force.2.1).foldl (fun s r =>
      s.putSignal (sigId r) (if due then (true, ⟨force.2.2, Q_SIMULATED, FL_SIM ||| ((s.sig (sigId r)).flags &&& FL_INIT), 0⟩) else (false, (old (sigId r)).aged))) s
    s.when (due && force.2.1 == 0) fun s => s.wr (cellBase id) Reg.CELL_STATE_QUAL Q_SIMULATED.toNat

/-- Chain imports and CAN mailboxes publish (R77, R290, R368). One whose work of the stroke is discarded publishes nothing new (R75, R94). -/
def State.publishImport (s : State) (id : Nat) : State :=
  match kindOf id with
  | some .pc =>
    if s.cst id == csFault then s.importFault id
    else if s.fab.late.contains id then (s.produced id).foldl (fun s r => s.setSig (sigId r) (s.sig (sigId r)).aged) s
    else
      let t := ((s.publishPeer (cellNum id)).peerQual id).simulateImport id s.sig
      if t.dueClosing id && t.cst id != csOff then (t.evalEnd id false).startToRun id else t
  | some .mbx =>
    if s.cst id == csFault then s.importFault id
    else if s.fab.late.contains id then (s.produced id).foldl (fun s r => s.setSig (sigId r) (s.sig (sigId r)).aged) s
    else (s.publishMailbox (cellNum id)).simulateImport id s.sig
  | _ => s.publishCell id

/-- Step 3: the image of the boundary (R103). -/
def State.publishImage (s : State) : State :=
  let s := s.cells.foldl State.closeCell s
  let s := s.cells.foldl State.followSelected (s.cells.foldl State.publishImport s)
  (s.publishNet.modFab fun f => { f with back := [], late := [] }).watchSignals

/-! Staged writes (step 4). -/

/-- The loop slot in whose page a service address lies. -/
def loopAt (a : Nat) : Option Nat :=
  let r := a / 2 ^ 28
  let b := a / 2 ^ 20 % 256
  let c := a / 256 % 4096
  if r = 2 ∧ b < 8 ∧ c < 64 then some (cellId r b c) else none

/-- A staged register write takes effect; `key` carries a gain set above the address (R141). -/
def State.applyWrite (s : State) (key : Nat) (w : Word) : State :=
  let a := key % 2 ^ 32
  match storedAt a with
  | some r => s.putStored r a w
  | none =>
    match loopAt a with
    | some id => s.applyLoopWrite id key w
    | none => s.setReg a w

/-- A staged force or simulation takes effect, in SERVICE (R87, R88). -/
def State.applyForce (s : State) (f : Nat × Nat × Nat × Word) : State :=
  let (id, mode, port, value) := f
  let b := cellBase id
  if s.mst ≠ stService ∨ !s.exists_ id then s
  else
    let s := s.modCell id fun c => { c with force := (mode, if mode = 0 then 0 else port, if mode = 0 then 0 else value) }
    let s := ((s.wr b Reg.CELL_FORCE_MODE mode).wr b Reg.CELL_FORCE_PORT port).wrw b Reg.CELL_FVAL value
    s.when (s.src id != 3) fun s => s.wr b Reg.CELL_STATE_SOURCE (s.ownSource id)

/-- What waits in the field cells for a boundary: trims, rearms, axis rates and homing (R222, R236, R249, R257). -/
def State.applyCell (s : State) (id : Nat) : State :=
  let n := cellNum id
  match kindOf id with
  | some .uc => (s.loadTrim n).sendHart n
  | some .dp => s.applyRearm n
  | some .ax => ((s.applyRates n).startHoming n).homeReqEdge n
  | _ => s

/-- Step 4. -/
def State.applyStaged (s : State) : State :=
  let writes := s.fab.staged
  let forces := s.fab.forces
  let s := s.modFab fun f => { f with staged := [], forces := [] }
  let s := writes.foldl (fun s e => s.applyWrite e.1 e.2) s
  let s := forces.foldl State.applyForce s
  (s.cells.foldl State.applyCell s).restoreSheds

/-! The commit (step 5). -/

/-- The switch-over falls at this boundary (R52); a commit whose boundary comes too early or is skipped is abandoned (R52, R69). -/
def State.commitStep (s : State) : State :=
  let ph := s.imgPhase
  let go (s : State) : State :=
    let load := s.mst == stLoad
    let b := s.img.nextBank
    let s := s.takeCommit b s.img.next load
    s.when load fun s => (s.goMst stReady).nameBank (!b)
  if s.img.atStroke && (ph == phPreparing || ph == phPending) then
    let d := (s.img.atNo.toNat + 2 ^ 32 - s.strokeNo % 2 ^ 32) % 2 ^ 32
    if d = 0 then if ph = phPending then go s else s.abandonCommit E_TIMEOUT
    else if d < 2 ^ 31 then s else s.abandonCommit E_TIMEOUT
  else if ph = phPending then go s
  else s

/-! RUN and STOP (step 8). -/

/-- The module enters RUN: every cell that is not in FAULT or SAFE is in START, one that has reached RUN in SERVICE too (R433); an AUTOARM output without DEMAND enters RUN at the same instant (R91, R176). -/
def State.enterRun (s : State) : State :=
  let s := s.goMst stRun
  let s := s.cells.foldl (fun s id => if [csOff, csRun, csTest, csRecover].contains (s.cst id) then (s.startCell id .runEntry s.img.active).meetStart id else s) s
  -- the filter of every input settles anew, on cells that a RELEASE has left in START too (R227)
  let s := (List.range 32).foldl (fun s n => s.modDp n fun d => { d with settled := false }) s
  let s := s.startPairs
  s.tripOuts.foldl (fun s kr =>
    let id := toId kr.1
    if trAutoArm kr.2 && s.cst id == csStart && s.tstate == tsArmed && !s.flag (cellBase id) Reg.TOUT_STATE_DEMAND then
      (s.setCst id csRun).setTripped kr.1 false
    else s) s

/-- STOP: outputs are de-energised and the cells enter OFF, a latched FAULT too (R91; DEDUCED, log entry 136); the rings of queue pairs keep running (R22, R91, R299). -/
def State.leaveRun (s : State) : State :=
  let s := s.goMst stReady
  let s := s.cells.foldl (fun s id =>
    match kindOf id with
    | some .tout => (s.setCst id csOff).startTo id
    | _ => (s.setCst id csOff).driveCell id) s
  (List.range 4).foldl State.syncLeave s

def State.runStep (s : State) : State :=
  if s.fab.stopPending && s.mst == stRun then (s.modFab fun f => { f with stopPending := false, runPending := false }).leaveRun
  else if s.fab.runPending && s.mst == stReady then (s.modFab fun f => { f with runPending := false }).enterRun
  else s

/-! The drive instant and the rest of a boundary. -/

/-- A field output cell that is due in the opening stroke reads its command (R73, R74). -/
def State.takeCommand (s : State) (id : Nat) : State :=
  if !s.dueOpening id then s
  else
    match kindOf id with
    | some .uc => s.takeUcCommand (cellNum id)
    | some .dp => s.takeDpCommand (cellNum id)
    | some .ax => s.takeAxCommand (cellNum id)
    | _ => s

/-- Output cells drive the values of the image (R73). -/
def State.driveImage (s : State) : State :=
  let s := (List.range 4).foldl State.energiseAx (s.cells.foldl State.releaseSafe s)
  (if s.evaluating then s.cells.foldl State.takeCommand s else s).drive

/-- Strokes with an isolating cause absent (R91, R94); a block in RECOVER has returned once none of its cells is on its way back. -/
def State.countAbsent (s : State) : State :=
  let s := s.cells.foldl (fun s id =>
    if s.cst id == csFault && !(s.cell id).cause then s.modCell id fun c => { c with absent := c.absent + 1 } else s) s
  ([0, 1, 2, 3, 4] : List Nat).foldl (fun s r =>
    ((List.range 29).filter fun b => blockExists r b && r != 0).foldl (fun s b =>
      if s.isolated r b then
        if (s.blk r b).cause then s else s.modBlk r b fun x => { x with absent := x.absent + 1 }
      else if s.blkSt r b = bkRecover ∧
          !((s.cellsIn r b).any fun id => s.cst id == csRecover || (s.cst id == csFault && !s.flag (cellBase id) Reg.CELL_STATE_LATCHED)) then
        s.wr (blkBase r b) Reg.BLK_STATE_STATE bkRun
      else s) s) s

/-- CLOSEREQ as published at the boundary (R154), and what the sync machines do on leaving RUN (R157). -/
def State.phasorEdge (s : State) (g : Nat) : State :=
  let id := phId g
  if !s.exists_ id then s
  else
    let s := match s.input id 0 0 with
      | some i => (s.noteInput id 0 i).modPh g fun p => { p with closeReq := i.live && f32True i.val }
      | none => s.modPh g fun p => { p with closeReq := false }
    s.underOld g fun s => s.syncLeave g

/-- A rising edge of a trip output's reset signal asks for a reset at the next scan (R502). -/
def State.resetEdge (s : State) (k : Nat) : State :=
  let id := toId k
  match s.input id 0 0 with
  | some i =>
    if s.cst id == csOff then s
    else
      let level := i.live && f32True i.val
      let was := Store.get none s.toc.resetLevel k
      let s := s.modToc fun t => { t with resetLevel := Store.set none t.resetLevel k (some level) }
      s.when (level && was == some false) fun s => s.modToc fun t => { t with resets := t.resets ++ [(k, none)] }
  | none => s

/-- The ports export the image as published, under the configuration that produced it (R53, R99, R101). -/
def State.exportImage (s : State) (img : List Record) (words : Store (Option SigWord)) (units : Nat) : State :=
  let now := s.img.active
  let kept := s.fab.words
  let ts := s.rd tmBase Reg.STK_CFG_TS_UNITS
  let e := ((s.modImg fun i => { i with active := img }).modFab fun f => { f with words := words }).wr tmBase Reg.STK_CFG_TS_UNITS units
  let e := ((e.exportChain.exportNet).exportCan).broadcast
  ((e.modImg fun i => { i with active := now }).modFab fun f => { f with words := kept }).wr tmBase Reg.STK_CFG_TS_UNITS ts

/-- A stroke boundary (R103). Faults, Tocsin commands and queue completions that fall with it are happenings of their own before it. -/
def State.strokeBoundary (s : State) (snareFault : Bool) : State :=
  if !s.strokesRun then s
  else
    let s := (s.passEdge.endCycles).readSnare snareFault
    let img := s.img.active
    let units := s.rd tmBase Reg.STK_CFG_TS_UNITS
    let s := s.publishImage
    let words := s.fab.words
    let s := ((s.applyStaged.commitStep).pathRoles).runStep
    let s := s.driveImage.countAbsent
    let s := (List.range 4).foldl State.phasorEdge s
    let s := (s.tripOuts.map Prod.fst).foldl State.resetEdge s
    (s.modFab fun f => { f with opened := s.evaluating }).agePairs.exportImage img words units

/-- STROKE_BOUNDARY. -/
def execStrokeBoundary (snareFault : Bool) (s : State) : Host.Outcome State Fault Refusal := done (s.strokeBoundary snareFault)

/-! The evaluation window (R71, R75, R85, R86). -/

/-- A loop slot or function cell that evaluates in the running stroke. -/
def State.evaluates (s : State) (id : Nat) : Bool :=
  s.dueOpening id && !([csOff, csFault].contains (s.cst id)) && !s.isolated (idRegion id) (idBlock id) && !s.fab.late.contains id &&
    match kindOf id with
    | some .fc => s.cst id != csTest
    | some .lp => true
    | _ => false

/-- One evaluation; the first that completes without an error takes a function cell from START to RUN (R91). -/
def State.evaluate (s : State) (id : Nat) : State :=
  match kindOf id with
  | some .fc =>
    let s := s.evalFc id
    if (s.cell id).errHist.head? == some false then s.startToRun id else s
  | _ => s.evalLp id

/-- Cycles of CLK_CELL of one evaluation (R85, R140). -/
def State.evalCost (s : State) (id : Nat) : Nat :=
  match kindOf id with
  | some .fc => fcCost (s.cfg id 0)
  | _ => s.lpCostNow id

/-- A field of BLK.LOAD keeps its peak. -/
def State.peak (s : State) (r b : Nat) (f : Field) (n : Nat) : State :=
  s.wr (blkBase r b) f (max (s.rd (blkBase r b) f) (min n 65535))

/-- BLK.LOAD of the blocks (R105): cycles against the budget of R85; a block with a bound input or a signal of a due cell uses its allotment whole. -/
def State.showLoad (s : State) (ids : List Nat) : State :=
  let budget := max 1 (cyclesPerStroke (s.rd tmBase Reg.STK_CFG_TS_UNITS))
  let s := (ids.map (· / 256)).eraseDups.foldl (fun s b =>
    s.peak (b / 32) (b % 32) Reg.BLK_LOAD_EVAL (((ids.filter fun id => id / 256 == b).map s.evalCost).sum * 1024 / budget)) s
  let due := s.cells.filter fun id => s.dueOpening id && !s.isolated (idRegion id) (idBlock id) &&
    ((s.img.active.any fun r => recType r == T_BIND && recTarget r == id) || !(s.produced id).isEmpty)
  let s := (due.map (· / 256)).eraseDups.foldl (fun s b => s.peak (b / 32) (b % 32) Reg.BLK_LOAD_TOK 1024) s
  -- network imports are charged to one allotment that NA and NB share (R86)
  s.when ((signalsOf s.img.active).any fun r => sigProducer r == 0xFFFE) fun s => (s.peak 3 0 Reg.BLK_LOAD_TOK 1024).peak 3 1 Reg.BLK_LOAD_TOK 1024

/-- EVALUATION_WINDOW_OPEN: due cells evaluate on the image of the boundary; their results wait for the next (R71). The window opens once in a stroke. -/
def execEvaluationWindowOpen (s : State) : Host.Outcome State Fault Refusal :=
  done <|
    if !s.evaluating || s.fab.before.isSome then s
    else
      let ids := s.cells.filter s.evaluates
      let t := ids.foldl State.evaluate s
      let before : Before := ⟨s.regs, s.fab.cells, s.fab.fcs, s.fab.loops, ids.filter fun id => t.cst id == csFault, false⟩
      (t.modFab fun f => { f with before := some before }).showLoad ids

/-- EVALUATION_WINDOW_CLOSE (R75): the cells named have not finished. The window closes once in a stroke. -/
def execEvaluationWindowClose (unfinished : List Nat) (s : State) : Host.Outcome State Fault Refusal :=
  done <|
    let ids := unfinished.eraseDups.filter fun id => s.exists_ id && s.dueOpening id
    match s.fab.before with
    | some b =>
      if b.closed then s
      else
        let s := s.modFab fun f => { f with before := some { b with closed := true } }
        if ids.isEmpty then s
        else
          let s := (ids.foldl State.discardWork s).bump tmBase Reg.STK_SLIP_LATE
          (ids.map (· / 256)).eraseDups.foldl (fun s k => s.bump (blkBase (k / 32) (k % 32)) Reg.BLK_ERR_OVERRUNS) s
    | none => s

end Sys2Proof.Machine
end

