-- ==== Sys2Proof/Machine/Dispatch.lean ====
section
/-! DEFINITION. The meaning of each command: one arm per row of the table. -/

namespace Sys2Proof.Machine

def exec (i : Instr) (s : State) : Host.Outcome State Fault Refusal :=
  match i with
  | .resetSource causes => Sys2Proof.Machine.execResetSource causes s
  | .railsGoodPllLocked => Sys2Proof.Machine.execRailsGoodPllLocked s
  | .selftestComplete r => Sys2Proof.Machine.execSelftestComplete r s
  | .enumWindowClose => Sys2Proof.Machine.execEnumWindowClose s
  | .chimeHeadStart => Sys2Proof.Machine.execChimeHeadStart s
  | .chimeToken port v => Sys2Proof.Machine.execChimeToken port v s
  | .chimeEnd v => Sys2Proof.Machine.execChimeEnd v s
  | .chimeClash => Sys2Proof.Machine.execChimeClash s
  | .chimeReq => Sys2Proof.Machine.execChimeReq s
  | .bootBankRead bad0 bad1 corrected => Sys2Proof.Machine.execBootBankRead bad0 bad1 corrected s
  | .modCmdNop p => Sys2Proof.Machine.execModCmdNop p s
  | .modCmdRun p => Sys2Proof.Machine.execModCmdRun p s
  | .autostart => Sys2Proof.Machine.execAutostart s
  | .modCmdStop p => Sys2Proof.Machine.execModCmdStop p s
  | .modCmdService p => Sys2Proof.Machine.execModCmdService p s
  | .modCmdServiceExit p => Sys2Proof.Machine.execModCmdServiceExit p s
  | .modCmdRelease p => Sys2Proof.Machine.execModCmdRelease p s
  | .modCmdRestart p => Sys2Proof.Machine.execModCmdRestart p s
  | .safetyRelevantFault c pair sub => Sys2Proof.Machine.execSafetyRelevantFault c pair sub s
  | .lockstepOutputMismatch pair => Sys2Proof.Machine.execLockstepOutputMismatch pair s
  | .clapperFault pair => Sys2Proof.Machine.execClapperFault pair s
  | .delayFault pair => Sys2Proof.Machine.execDelayFault pair s
  | .safeInNTransition high => Sys2Proof.Machine.execSafeInNTransition high s
  | .safeInHardwireTimeout => Sys2Proof.Machine.execSafeInHardwireTimeout s
  | .backgroundCompare diverged executing => Sys2Proof.Machine.execBackgroundCompare diverged executing s
  | .resyncRelease pair timeUs => Sys2Proof.Machine.execResyncRelease pair timeUs s
  | .debugAttach p pair => Sys2Proof.Machine.execDebugAttach p pair s
  | .debugDetach p pair => Sys2Proof.Machine.execDebugDetach p pair s
  | .debugNop p pair => Sys2Proof.Machine.execDebugNop p pair s
  | .imgOpen p bank => Sys2Proof.Machine.execImgOpen p bank s
  | .openComplete => Sys2Proof.Machine.execOpenComplete s
  | .recordUnit p unit => Sys2Proof.Machine.execRecordUnit p unit s
  | .imgValidate p bank => Sys2Proof.Machine.execImgValidate p bank s
  | .validateComplete => Sys2Proof.Machine.execValidateComplete s
  | .imgSave p bank => Sys2Proof.Machine.execImgSave p bank s
  | .saveComplete blocks o => Sys2Proof.Machine.execSaveComplete blocks o s
  | .imgCommit p bank atStroke => Sys2Proof.Machine.execImgCommit p bank atStroke s
  | .preparationComplete => Sys2Proof.Machine.execPreparationComplete s
  | .bootBankUpdate => Sys2Proof.Machine.execBootBankUpdate s
  | .imgAbort p => Sys2Proof.Machine.execImgAbort p s
  | .imgNop p => Sys2Proof.Machine.execImgNop p s
  | .keyInstall p w key => Sys2Proof.Machine.execKeyInstall p w key s
  | .keyRevoke p w => Sys2Proof.Machine.execKeyRevoke p w s
  | .keyNop p => Sys2Proof.Machine.execKeyNop p s
  | .strokeBoundary snareFault => Sys2Proof.Machine.execStrokeBoundary snareFault s
  | .evaluationWindowOpen => Sys2Proof.Machine.execEvaluationWindowOpen s
  | .evaluationWindowClose unfinished => Sys2Proof.Machine.execEvaluationWindowClose unfinished s
  | .blockError block e => Sys2Proof.Machine.execBlockError block e s
  | .regionFault region => Sys2Proof.Machine.execRegionFault region s
  | .blockRecover region block => Sys2Proof.Machine.execBlockRecover region block s
  | .blockReintegrate p region block => Sys2Proof.Machine.execBlockReintegrate p region block s
  | .faultRetry cell => Sys2Proof.Machine.execFaultRetry cell s
  | .recoverComplete cell => Sys2Proof.Machine.execRecoverComplete cell s
  | .cellClear p cell => Sys2Proof.Machine.execCellClear p cell s
  | .cellTestEnter p cell => Sys2Proof.Machine.execCellTestEnter p cell s
  | .cellTestLeave p cell => Sys2Proof.Machine.execCellTestLeave p cell s
  | .forceWrite p cell mode port value => Sys2Proof.Machine.execForceWrite p cell mode port value s
  | .functionParameterWrite p fc vals => Sys2Proof.Machine.execFunctionParameterWrite p fc vals s
  | .oscillationDetect lp => Sys2Proof.Machine.execOscillationDetect lp s
  | .detuneRelax lp => Sys2Proof.Machine.execDetuneRelax lp s
  | .loopModeRequest p lp req => Sys2Proof.Machine.execLoopModeRequest p lp req s
  | .loopStagedWrite p lp writes => Sys2Proof.Machine.execLoopStagedWrite p lp writes s
  | .gainSelect p lp gsel => Sys2Proof.Machine.execGainSelect p lp gsel s
  | .detuneReset p lp => Sys2Proof.Machine.execDetuneReset p lp s
  | .resultSet g m => Sys2Proof.Machine.execResultSet g m s
  | .syncArm g => Sys2Proof.Machine.execSyncArm g s
  | .permitRise g => Sys2Proof.Machine.execPermitRise g s
  | .permitFall g => Sys2Proof.Machine.execPermitFall g s
  | .syncBlock p g => Sys2Proof.Machine.execSyncBlock p g s
  | .phasorEventPickup g e => Sys2Proof.Machine.execPhasorEventPickup g e s
  | .phasorInvalidTimeout g => Sys2Proof.Machine.execPhasorInvalidTimeout g s
  | .tocsinScan evalNs missed columnOk railsOk => Sys2Proof.Machine.execTocsinScan evalNs missed columnOk railsOk s
  | .scanWatchdogExpiry => Sys2Proof.Machine.execScanWatchdogExpiry s
  | .matrixCrcCheck ok => Sys2Proof.Machine.execMatrixCrcCheck ok s
  | .safetyPduReceive pdu => Sys2Proof.Machine.execSafetyPduReceive pdu s
  | .safetyConnectionTimeout connId => Sys2Proof.Machine.execSafetyConnectionTimeout connId s
  | .safetyPduSend txConn => Sys2Proof.Machine.execSafetyPduSend txConn s
  | .tripReset p o => Sys2Proof.Machine.execTripReset p o s
  | .bypass p seconds => Sys2Proof.Machine.execBypass p seconds s
  | .bypassExpiry input => Sys2Proof.Machine.execBypassExpiry input s
  | .causeAck p => Sys2Proof.Machine.execCauseAck p s
  | .retest p => Sys2Proof.Machine.execRetest p s
  | .retestComplete failSub => Sys2Proof.Machine.execRetestComplete failSub s
  | .converterResult uc e aux cj openLead atLimit => Sys2Proof.Machine.execConverterResult uc e aux cj openLead atLimit s
  | .burnOutTest uc isOpen => Sys2Proof.Machine.execBurnOutTest uc isOpen s
  | .referenceSelfCheck uc ok => Sys2Proof.Machine.execReferenceSelfCheck uc ok s
  | .complianceSample uc hdrLow readback => Sys2Proof.Machine.execComplianceSample uc hdrLow readback s
  | .complianceEntry uc => Sys2Proof.Machine.execComplianceEntry uc s
  | .complianceExit uc => Sys2Proof.Machine.execComplianceExit uc s
  | .outputOpenLoop uc => Sys2Proof.Machine.execOutputOpenLoop uc s
  | .outputStageFault uc => Sys2Proof.Machine.execOutputStageFault uc s
  | .channelSupplyFailure uc f => Sys2Proof.Machine.execChannelSupplyFailure uc f s
  | .hartPoll uc dev => Sys2Proof.Machine.execHartPoll uc dev s
  | .hartReply uc dev r => Sys2Proof.Machine.execHartReply uc dev r s
  | .hartNoReply uc dev badFrames => Sys2Proof.Machine.execHartNoReply uc dev badFrames s
  | .hartRequest p uc req data => Sys2Proof.Machine.execHartRequest p uc req data s
  | .hartPassThroughComplete uc frames rc dstat data => Sys2Proof.Machine.execHartPassThroughComplete uc frames rc dstat data s
  | .trimCaplo p uc => Sys2Proof.Machine.execTrimCaplo p uc s
  | .trimCaphi p uc => Sys2Proof.Machine.execTrimCaphi p uc s
  | .trimApply p uc o => Sys2Proof.Machine.execTrimApply p uc o s
  | .trimClear p uc o => Sys2Proof.Machine.execTrimClear p uc o s
  | .trimDiscard p uc => Sys2Proof.Machine.execTrimDiscard p uc s
  | .trimNop p uc => Sys2Proof.Machine.execTrimNop p uc s
  | .inputFilterSettle dp on => Sys2Proof.Machine.execInputFilterSettle dp on s
  | .fieldSupplySample db volts levels amps => Sys2Proof.Machine.execFieldSupplySample db volts levels amps s
  | .fieldSupplyConditionSet db c => Sys2Proof.Machine.execFieldSupplyConditionSet db c s
  | .fieldSupplyConditionClear db c => Sys2Proof.Machine.execFieldSupplyConditionClear db c s
  | .shedRestore db => Sys2Proof.Machine.execShedRestore db s
  | .rearm p dp => Sys2Proof.Machine.execRearm p dp s
  | .cellWatchdogExpiry dp => Sys2Proof.Machine.execCellWatchdogExpiry dp s
  | .blockLinkLoss region block => Sys2Proof.Machine.execBlockLinkLoss region block s
  | .wiringFault dp w other => Sys2Proof.Machine.execWiringFault dp w other s
  | .supervisionFaultSet dp f => Sys2Proof.Machine.execSupervisionFaultSet dp f s
  | .supervisionFaultClear dp f => Sys2Proof.Machine.execSupervisionFaultClear dp f s
  | .profileUpdate ax enc => Sys2Proof.Machine.execProfileUpdate ax enc s
  | .axisRateWrite p ax writes => Sys2Proof.Machine.execAxisRateWrite p ax writes s
  | .holdCurrent ax => Sys2Proof.Machine.execHoldCurrent ax s
  | .limitInputChange ax inp on withinLwin thirdInLwin => Sys2Proof.Machine.execLimitInputChange ax inp on withinLwin thirdInLwin s
  | .limitChatterClear ax inp => Sys2Proof.Machine.execLimitChatterClear ax inp s
  | .homingGo p ax => Sys2Proof.Machine.execHomingGo p ax s
  | .homingAbort p ax => Sys2Proof.Machine.execHomingAbort p ax s
  | .homingSwitchFound ax => Sys2Proof.Machine.execHomingSwitchFound ax s
  | .homingRestEnd ax => Sys2Proof.Machine.execHomingRestEnd ax s
  | .homingReferenceEdge ax => Sys2Proof.Machine.execHomingReferenceEdge ax s
  | .homingTimeout ax => Sys2Proof.Machine.execHomingTimeout ax s
  | .homingNoIndex ax => Sys2Proof.Machine.execHomingNoIndex ax s
  | .encoderError e => Sys2Proof.Machine.execEncoderError e s
  | .stall ax => Sys2Proof.Machine.execStall ax s
  | .stallClear ax => Sys2Proof.Machine.execStallClear ax s
  | .chopsat ax cycles held => Sys2Proof.Machine.execChopsat ax cycles held s
  | .motorSupplyConditionSet mb c volts => Sys2Proof.Machine.execMotorSupplyConditionSet mb c volts s
  | .motorSupplyConditionClear mb c volts => Sys2Proof.Machine.execMotorSupplyConditionClear mb c volts s
  | .axisFault ax k => Sys2Proof.Machine.execAxisFault ax k s
  | .chainLinkTrained port => Sys2Proof.Machine.execChainLinkTrained port s
  | .chainLinkLoss loss => Sys2Proof.Machine.execChainLinkLoss loss s
  | .alignmentFlit port flits => Sys2Proof.Machine.execAlignmentFlit port flits s
  | .chainFrameReceive port f returned => Sys2Proof.Machine.execChainFrameReceive port f returned s
  | .frameForward port => Sys2Proof.Machine.execFrameForward port s
  | .piFrame f => Sys2Proof.Machine.execPiFrame f s
  | .chainSafetyFrame f => Sys2Proof.Machine.execChainSafetyFrame f s
  | .peerTimeout pc => Sys2Proof.Machine.execPeerTimeout pc s
  | .bulkFrame f => Sys2Proof.Machine.execBulkFrame f s
  | .bulknak f => Sys2Proof.Machine.execBulknak f s
  | .receiveMessageTimeout qp => Sys2Proof.Machine.execReceiveMessageTimeout qp s
  | .descriptorPost p qp rx tail => Sys2Proof.Machine.execDescriptorPost p qp rx tail s
  | .ringTxen p qp => Sys2Proof.Machine.execRingTxen p qp s
  | .ringTxdis p qp => Sys2Proof.Machine.execRingTxdis p qp s
  | .ringRxen p qp => Sys2Proof.Machine.execRingRxen p qp s
  | .ringRxdis p qp => Sys2Proof.Machine.execRingRxdis p qp s
  | .txresume p qp => Sys2Proof.Machine.execTxresume p qp s
  | .rxresume p qp => Sys2Proof.Machine.execRxresume p qp s
  | .descriptorStart => Sys2Proof.Machine.execDescriptorStart s
  | .descriptorComplete qp => Sys2Proof.Machine.execDescriptorComplete qp s
  | .midTransferFault ring granule word => Sys2Proof.Machine.execMidTransferFault ring granule word s
  | .descriptorAccessFault qp rx writeback word => Sys2Proof.Machine.execDescriptorAccessFault qp rx writeback word s
  | .iommuInvalidate p domain all => Sys2Proof.Machine.execIommuInvalidate p domain all s
  | .sfpInsert path id => Sys2Proof.Machine.execSfpInsert path id s
  | .sfpDiagnostics path flags => Sys2Proof.Machine.execSfpDiagnostics path flags s
  | .networkLinkChange path up held100ms => Sys2Proof.Machine.execNetworkLinkChange path up held100ms s
  | .cyclicFrame rx f => Sys2Proof.Machine.execCyclicFrame rx f s
  | .networkSafetyFrame rx f => Sys2Proof.Machine.execNetworkSafetyFrame rx f s
  | .safetyFrameSend => Sys2Proof.Machine.execSafetyFrameSend s
  | .lastgaspReceive rx f => Sys2Proof.Machine.execLastgaspReceive rx f s
  | .mreq rx datagram r => Sys2Proof.Machine.execMreq rx datagram r s
  | .arpRequest rx ip requesterMac => Sys2Proof.Machine.execArpRequest rx ip requesterMac s
  | .icmpEcho rx ip requesterIp => Sys2Proof.Machine.execIcmpEcho rx ip requesterIp s
  | .switchoverTrigger path => Sys2Proof.Machine.execSwitchoverTrigger path s
  | .callFollow path => Sys2Proof.Machine.execCallFollow path s
  | .callEnd path => Sys2Proof.Machine.execCallEnd path s
  | .islandFault path => Sys2Proof.Machine.execIslandFault path s
  | .switch p path => Sys2Proof.Machine.execSwitch p path s
  | .storedRegisterWrite p addr value o => Sys2Proof.Machine.execStoredRegisterWrite p addr value o s
  | .syncMessage at_ head followUp twoStep body => Sys2Proof.Machine.execSyncMessage at_ head followUp twoStep body s
  | .delayReqSend => Sys2Proof.Machine.execDelayReqSend s
  | .delayResp at_ head r => Sys2Proof.Machine.execDelayResp at_ head r s
  | .announce at_ head gm steps utc => Sys2Proof.Machine.execAnnounce at_ head gm steps utc s
  | .holdoverTimeout => Sys2Proof.Machine.execHoldoverTimeout s
  | .followerCompare drift => Sys2Proof.Machine.execFollowerCompare drift s
  | .chainSyncSend => Sys2Proof.Machine.execChainSyncSend s
  | .chainAnnounceSend => Sys2Proof.Machine.execChainAnnounceSend s
  | .chainDelayReq r => Sys2Proof.Machine.execChainDelayReq r s
  | .tmSet p ns slo shi => Sys2Proof.Machine.execTmSet p ns slo shi s
  | .canIntegration c => Sys2Proof.Machine.execCanIntegration c s
  | .canErrorStateChange c tx rx => Sys2Proof.Machine.execCanErrorStateChange c tx rx s
  | .busOffRecovery c => Sys2Proof.Machine.execBusOffRecovery c s
  | .canRecover p c => Sys2Proof.Machine.execCanRecover p c s
  | .canFrameReceive c f => Sys2Proof.Machine.execCanFrameReceive c f s
  | .remoteFrame c => Sys2Proof.Machine.execRemoteFrame c s
  | .canFrameStart c => Sys2Proof.Machine.execCanFrameStart c s
  | .canTxDone c => Sys2Proof.Machine.execCanTxDone c s
  | .canTxError c e at_ => Sys2Proof.Machine.execCanTxError c e at_ s
  | .txRequest p c => Sys2Proof.Machine.execTxRequest p c s
  | .txCancel p c => Sys2Proof.Machine.execTxCancel p c s
  | .mailboxRead p m during => Sys2Proof.Machine.execMailboxRead p m during s
  | .mailboxTimeout m => Sys2Proof.Machine.execMailboxTimeout m s
  | .transceiverSupplyFault c => Sys2Proof.Machine.execTransceiverSupplyFault c s
  | .scrubStep m granule flips => Sys2Proof.Machine.execScrubStep m granule flips s
  | .journalTransactionCommit homes fails worn => Sys2Proof.Machine.execJournalTransactionCommit homes fails worn s
  | .journalApply granules o => Sys2Proof.Machine.execJournalApply granules o s
  | .blockRetirement logical => Sys2Proof.Machine.execBlockRetirement logical s
  | .wearLevelExchange hi lo => Sys2Proof.Machine.execWearLevelExchange hi lo s
  | .occurrenceTake => Sys2Proof.Machine.execOccurrenceTake s
  | .summaryWrite o => Sys2Proof.Machine.execSummaryWrite o s
  | .intervalEnd o => Sys2Proof.Machine.execIntervalEnd o s
  | .recFreeze p => Sys2Proof.Machine.execRecFreeze p s
  | .recUnfreeze p => Sys2Proof.Machine.execRecUnfreeze p s
  | .recClear p o => Sys2Proof.Machine.execRecClear p o s
  | .freezeTimeout => Sys2Proof.Machine.execFreezeTimeout s
  | .panelFrame => Sys2Proof.Machine.execPanelFrame s
  | .panelTemperature temp => Sys2Proof.Machine.execPanelTemperature temp s
  | .updateRequest p byRenderer => Sys2Proof.Machine.execUpdateRequest p byRenderer s
  | .frameBufferWrite p granule data => Sys2Proof.Machine.execFrameBufferWrite p granule data s
  | .pageRender slot => Sys2Proof.Machine.execPageRender slot s
  | .pageStale => Sys2Proof.Machine.execPageStale s
  | .initUpdateComplete => Sys2Proof.Machine.execInitUpdateComplete s
  | .clockFault c => Sys2Proof.Machine.execClockFault c s
  | .hutest p => Sys2Proof.Machine.execHutest p s
  | .bankMeasurementComplete uf => Sys2Proof.Machine.execBankMeasurementComplete uf s
  | .hulowTimeout => Sys2Proof.Machine.execHulowTimeout s
  | .powerFail volts checks stop o => Sys2Proof.Machine.execPowerFail volts checks stop o s
  | .bankExhausted below12 durUs emj vend => Sys2Proof.Machine.execBankExhausted below12 durUs emj vend s
  | .powerFailSequenceEnd durUs emj vend supPresent => Sys2Proof.Machine.execPowerFailSequenceEnd durUs emj vend supPresent s
  | .supPresent => Sys2Proof.Machine.execSupPresent s
  | .readRegisters requester addr n => Sys2Proof.Machine.execReadRegisters requester addr n s
  | .writeRegisters requester writes => Sys2Proof.Machine.execWriteRegisters requester writes s
  | .pairDiscard addr => Sys2Proof.Machine.execPairDiscard addr s
  | .unsupportedMessage ty => Sys2Proof.Machine.execUnsupportedMessage ty s
  | .alarmQueueAccept event source newState => Sys2Proof.Machine.execAlarmQueueAccept event source newState s
  | .alarmQueueRead => Sys2Proof.Machine.execAlarmQueueRead s
  | .alarmAcknowledge seq => Sys2Proof.Machine.execAlarmAcknowledge seq s
  | .timeSet ms => Sys2Proof.Machine.execTimeSet ms s
  | .modeNextWrite p next o => Sys2Proof.Machine.execModeNextWrite p next o s
  | .managementRequest a => Sys2Proof.Machine.execManagementRequest a s
  | .readTransaction => Sys2Proof.Machine.execReadTransaction s
  | .writeTransaction => Sys2Proof.Machine.execWriteTransaction s
  | .heldWriteDecision index o => Sys2Proof.Machine.execHeldWriteDecision index o s
  | .receiveFilterDrop rx f => Sys2Proof.Machine.execReceiveFilterDrop rx f s
  | .canReceiveError c e more => Sys2Proof.Machine.execCanReceiveError c e more s
  | .transceiverSupplyGood c => Sys2Proof.Machine.execTransceiverSupplyGood c s
  | .referenceClockReturn c => Sys2Proof.Machine.execReferenceClockReturn c s
  | .regionFaultClear region => Sys2Proof.Machine.execRegionFaultClear region s
  | .suplow supMv => Sys2Proof.Machine.execSuplow supMv s
  | .huready vbank => Sys2Proof.Machine.execHuready vbank s
  | .sfpRemove path => Sys2Proof.Machine.execSfpRemove path s

end Sys2Proof.Machine
end

