-- ==== Sys2Proof/Safety.lean ====
section
/-! DEFINITION. What claims about runs speak of: the canonical forms of the stores, the fields that follow other state, the safe condition of the outputs. -/

namespace Sys2Proof

open Sys2Proof.Machine

/-- The registers and the DMA memory are in canonical form: addresses rising, nothing listed that an unlisted address reads as. -/
abbrev Canonical (s : State) : Prop := Store.wf 0 s.regs = true ∧ Memory.wf s.q.mem = true

/-- The fields that follow other state agree with it (R188, R196, R475): the MFLT contact with the module state, the hold of CP0 and Tocsin's state; the
cause and debug bits of MOD.STATE with Tocsin's; the supply bits of MOD.HEALTH with PWR.STATUS. -/
abbrev Mirrored (s : State) : Prop :=
  s.flag tbBase Reg.TB_STATUS_MFLTOPEN = s.mfltOpen ∧
  s.flag modBase Reg.MOD_STATE_CAUSE = (s.rd tbBase Reg.TB_CAUSE_LATCHED != 0) ∧
  s.flag modBase Reg.MOD_STATE_DBGFLAG = s.flag tbBase Reg.TB_STATUS_DBGFLAG ∧
  s.flag modBase Reg.MOD_HEALTH_HULOW = s.flag pwrBase Reg.PWR_STATUS_HULOW ∧
  s.flag modBase Reg.MOD_HEALTH_SUPLOW = s.flag pwrBase Reg.PWR_STATUS_SUPLOW

/-- The segment display's copy of the module (R425), before the discharge of the panel: address, state, mode and self-test result unless the Control region
is down, what Tocsin gives always but while that region is down, and the hardwired line. -/
abbrev SegmentsShown (s : State) : Prop :=
  s.pnl.discharged = false → (s.controlDown = false →
    s.rd pnlBase Reg.SEG_STATE_ADDR = s.rd modBase Reg.MOD_ADDR_ADDR ∧ s.rd pnlBase Reg.SEG_STATE_STATE = s.mst ∧
    s.flag pnlBase Reg.SEG_STATE_MODE = s.tabor ∧ s.flag pnlBase Reg.SEG_STATE_ERR = (s.rd modBase Reg.MOD_ERR_STFAIL != 0)) ∧
  s.flag pnlBase Reg.SEG_STATE_SAFE = (s.flag tbBase Reg.TB_STATUS_HWSAFE || (!s.controlDown && s.rd tbBase Reg.TB_STATUS_TSTATE == 3)) ∧
  s.flag pnlBase Reg.SEG_STATE_DBG = s.flag tbBase Reg.TB_STATUS_DBGFLAG ∧ s.flag pnlBase Reg.SEG_STATE_LASTKNOWN = s.controlDown

/-- The port of a command row that reaches the module as R473 and R447 say; RESTART and REINT of CP1, which the PWR block also serves, apart. -/
def commandPort : Instr → Option Port
  | .modCmdNop p | .modCmdRun p | .modCmdStop p | .modCmdService p | .modCmdServiceExit p | .modCmdRelease p | .debugAttach p _ | .debugDetach p _
    | .debugNop p _ | .imgOpen p _ | .recordUnit p _ | .imgValidate p _ | .imgSave p _ | .imgCommit p _ _ | .imgAbort p | .imgNop p
    | .keyInstall p _ _ | .keyRevoke p _ | .keyNop p | .cellClear p _ | .cellTestEnter p _ | .cellTestLeave p _ | .forceWrite p _ _ _ _
    | .functionParameterWrite p _ _ | .loopModeRequest p _ _ | .loopStagedWrite p _ _ | .gainSelect p _ _ | .detuneReset p _ | .syncBlock p _
    | .tripReset p _ | .bypass p _ | .causeAck p | .retest p | .hartRequest p _ _ _ | .trimCaplo p _ | .trimCaphi p _ | .trimApply p _ _
    | .trimClear p _ _ | .trimDiscard p _ | .trimNop p _ | .rearm p _ | .axisRateWrite p _ _ | .homingGo p _ | .homingAbort p _
    | .descriptorPost p _ _ _ | .ringTxen p _ | .ringTxdis p _ | .ringRxen p _ | .ringRxdis p _ | .txresume p _ | .rxresume p _
    | .iommuInvalidate p _ _ | .switch p _ | .storedRegisterWrite p _ _ _ | .tmSet p _ _ _ | .canRecover p _ | .txRequest p _ | .txCancel p _
    | .mailboxRead p _ _ | .recFreeze p | .recUnfreeze p | .recClear p _ | .updateRequest p false | .frameBufferWrite p _ _ | .hutest p
    | .modeNextWrite p _ _ => some p
  | _ => none

/-- Service addresses of the registers in which a field follows other state at every instant: TB.STATUS (MFLTOPEN), MOD.STATE (CAUSE, DBGFLAG), MOD.HEALTH,
TM.STATUS (CGM), KEY.USE, CANn.STATUS and CANn.ECNT (R357), SEG.STATE (R425). -/
def followers : List Nat :=
  [tbBase + Reg.TB_STATUS_MFLTOPEN.off, modBase + Reg.MOD_STATE_CAUSE.off, modBase + Reg.MOD_HEALTH_HULOW.off, tmBase + Reg.TM_STATUS_CGM.off,
   nvjBase + Reg.KEY_USE_INUSE.off, canBase 0 + Reg.CAN_STATUS_ESTATE.off, canBase 0 + Reg.CAN_ECNT_TEC.off, canBase 1 + Reg.CAN_STATUS_ESTATE.off,
   canBase 1 + Reg.CAN_ECNT_TEC.off, pnlBase + Reg.SEG_STATE_STATE.off]

/-- The journal takes a transaction that changes the granules `homes` at once: it is up, has room, and none of the blocks is read-only (R386, R387, R391). -/
abbrev JournalTakes (s : State) (homes : List Nat) : Prop :=
  s.journalUp = true ∧ s.jrn.pend.length + homes.length ≤ 8192 ∧ s.writable (blocksOf homes) = true ∧
  s.writable (s.logBlocks (homes.length + 1)) = true

/-- Service addresses of the journal's registers that a transaction changes. -/
def journalRegs : List Nat :=
  [nvjBase + Reg.NVJ_PEND_PEND.off, nvjBase + Reg.NVJ_WEARMAX.off, nvjBase + Reg.NVJ_WEARAVG.off, nvjBase + Reg.NVJ_WCNT_VFAIL.off]

/-- Every register of `t` reads as in `s`, but for those at the addresses of `l` and for the followers. -/
abbrev RegsKept (l : List Nat) (s t : State) : Prop := ∀ a, a ∉ l → a ∉ followers → t.reg a = s.reg a

/-- The command answers a next state, of which `P` holds. -/
def Answers (i : Instr) (s : State) (P : State → Prop) : Prop := ∃ t, exec i s = .next t ∧ P t

/-- The parameter writes of one transaction, staged in their order (R106). -/
def Machine.State.stageParams (s : State) (fc : Nat) (vals : List (Fin 4 × Word)) : State :=
  vals.foldl (fun s v => s.stage (cellBase (fcId fc) + 0x24 + 4 * v.1.val) v.2) s

/-- Commands from port `p` reach the module (R473, R474, R447): it is in none of POWERUP, SELFTEST and PFAIL, CP1 is not isolated, and in Tabor mode the
port is none of the network's. -/
abbrev Served (s : State) (p : Port) : Prop :=
  s.mst ≠ stPowerup ∧ s.mst ≠ stSelftest ∧ s.mst ≠ stPfail ∧ s.isolated 2 26 = false ∧ (s.tabor = false ∨ (p ≠ .na ∧ p ≠ .nb))

/-- The rectangle of an update request lies on the panel, and the INIT update is over (R418, R424). -/
abbrev UpdateLegal (s : State) : Prop :=
  s.prd Reg.PNL_RECT0_X0 ≤ s.prd Reg.PNL_RECT1_X1 ∧ s.prd Reg.PNL_RECT0_Y0 ≤ s.prd Reg.PNL_RECT1_Y1 ∧ s.prd Reg.PNL_RECT1_X1 < 400 ∧
  s.prd Reg.PNL_RECT1_Y1 < 240 ∧ s.flag pnlBase Reg.PNL_STATUS_INITRUN = false

/-- The request that an arrival brings to this module: a transfer of the service port of KIND 3, or a MGMT frame as R463 lays it down. -/
def requestOf (s : State) : MgmtArrival → Option MgmtReq
  | .usb h bytes => if h.ver = 1 ∧ h.kind = 3 then some ⟨.usb, h.count.toNat, bytes⟩ else none
  | .chain p f => if s.mgmtHere f ∧ !badMgmt f then some ⟨.chain p f.src, mgmtLength f, mgmtBytes f⟩ else none

/-- An arrival is the request `r`, which has a TID to answer under. -/
abbrev Brings (s : State) (a : MgmtArrival) (r : MgmtReq) : Prop := requestOf s a = some r ∧ 2 ≤ r.bytes.length

/-- A chime frame leaves port `p` as it is made: the link is UP, nothing waits at the port, and channel 2 has the credit of its two flits (R274, R275). -/
abbrev ChimeClear (s : State) (p : ChainPort) : Prop := s.link p = 2 ∧ (s.cport p).queue = [] ∧ 2 ≤ perVc (s.cport p).cred 2

/-- The TLB holds a translation of an address of a domain to `pa` for the access, the domain is enabled, and the granule at `pa` is not poisoned (R303, R304). -/
abbrev TlbMaps (s : State) (dom iova : Nat) (write : Bool) (pa : Nat) : Prop :=
  rootEn (s.rootOf dom) = true ∧ s.memPoisoned pa = false ∧
  ((s.q.tlb.find? (tlbHits dom iova)).any fun e =>
    (if write then e.wr else e.rd) && pa == e.pa + iova % (if e.big then 2 ^ 21 else 4096)) = true

/-- A PTP message reaches the time block: CP2 takes it, and on a path its receiver lets it through (R330, R341). -/
abbrev PtpHeard (s : State) (f : PtpFrom) : Prop :=
  s.ptpUp = true ∧ ∀ p h, f = .path p h → s.role p ≠ roleOff ∧ s.dropRx p h = none

/-- A Delay_Resp is of the parent and answers the outstanding Delay_Req, after a Sync (R337, R341). -/
abbrev Measures (s : State) (f : PtpFrom) (h : PtpHead) (r : DelayAnswer) (sent arrived corr left : Int) : Prop :=
  s.ptpUsed f = true ∧ s.fromParent h = true ∧ intervalIn (-7) 127 h.logInterval = true ∧ r.requester = portIdentity ∧
  s.time.sync = some (sent, arrived, corr) ∧ s.time.req = some (h.seq, left)

/-- A CAN controller's error counters after they have risen; beyond 127 RP stands for REC (R358, R371). -/
abbrev Counters (s : State) (c : Fin 2) (tx rx tec rec_ : Nat) : Prop :=
  tec = min 511 (s.crd c Reg.CAN_ECNT_TEC + tx) ∧ rec_ = if s.cflag c Reg.CAN_ECNT_RP then 128 else s.crd c Reg.CAN_ECNT_REC + rx

/-- A run step is safe: the block answers a next state. -/
def Runs (s : State) : Prop := ∃ t, step s = .next t

end Sys2Proof
end

