-- ==== Sys2Proof/Certificates/Slice0/Obligations.lean ====
section
/-! DEFINITION. The statements for the provers. Each says of its rows that they answer a next state under conditions on the state and the operands, and what
that next state holds; the statements about the whole block stand first. -/

open Sys2Proof Sys2Proof.Machine

/-! Start-up and enumeration (17, 10, 01). -/

/-- R22, R430, R431, R432: a reset source outside PFAIL takes the module to POWERUP with the cause and keeps keys and saved copies; good rails take POWERUP to
SELFTEST; a passed self-test arms nothing but takes SELFTEST to ENUM, and a failed test 1 stays there.
(Readings and choices of the model that it rests on: log entries 12, 13.) -/
def Obligations.StartUpPathFromResetToEnum : Prop :=
  (∀ (s : State) (l : List ResetCause) (c : ResetCause), s.mst ≠ stPfail → lowestSource l = some c →
    Answers (.resetSource l) s fun t =>
      t.mst = stPowerup ∧ t.rd pwrBase Reg.PWR_RST_CAUSE = causeNum c ∧ t.tstate = tsStopped ∧ t.img.active = [] ∧ t.img.keys = s.img.keys ∧
      t.img.b0.savedMain = s.img.b0.savedMain ∧ t.img.b1.savedMain = s.img.b1.savedMain ∧ t.q.mem = [] ∧ t.pending = s.pending) ∧
  (∀ s : State, s.mst = stPowerup →
    Answers .railsGoodPllLocked s fun t =>
      t.mst = stSelftest ∧ t.rd modBase Reg.MOD_STATE_PREV = stPowerup ∧ t.flag pwrBase Reg.PWR_STATUS_PLLLOCK = true ∧ t.link .up = 1 ∧ t.link .down = 1 ∧
      (∀ n < 4, t.flag (cpBase n) Reg.CP_STATUS_LOCKSTEP = true) ∧ t.q.mem = s.q.mem) ∧
  (∀ (s : State) (r : SelfTest), s.mst = stSelftest → s.rd pwrBase Reg.PWR_STFAIL_DIGIT = 0 → r.failed = [] → r.tocsinSub = 0 →
    r.missed = [0, 0, 0, 0] → r.bankReached = true → 840 ≤ r.capUF.toNat → (∀ k < 5, s.flag modBase (regFltField k) = false) → s.causes = 0 → s.chain.kept = none → s.toc.safeIn = true →
    Answers (.selftestComplete r) s fun t =>
      t.mst = stEnum ∧ t.tstate = tsDisarmed ∧ t.flag tbBase Reg.TB_STATUS_STPASS = true ∧ t.rd pwrBase Reg.PWR_STFAIL_DIGIT = 0 ∧ t.q.mem = s.q.mem) ∧
  (∀ (s : State) (r : SelfTest), s.mst = stSelftest → s.rd pwrBase Reg.PWR_STFAIL_DIGIT = 0 → 1 ∈ r.failed → r.tocsinSub = 0 →
    Answers (.selftestComplete r) s fun t =>
      t.mst = stSelftest ∧ t.rd pwrBase Reg.PWR_STFAIL_DIGIT = 1 ∧ t.rd modBase Reg.MOD_ERR_STFAIL = 1)

/-- R283–R286: the head takes address 1 and passes the TOKEN on; a module with an UP neighbour takes the TOKEN's address or asks for one; an address beyond 63
is an overflow; END confirms; CLASH withdraws; outside ENUM a TOKEN is answered and a REQ brings a TOKEN; the window closes with the address as held.
(Readings and choices of the model that it rests on: log entry 91.) -/
def Obligations.ChimeEnumerationGivesAddresses : Prop :=
  (∀ s : State, s.mst = stEnum → s.chain.provisional = none → s.sahvosUp = true → s.link .up ≠ 2 → ChimeClear s .down →
    Answers .chimeHeadStart s fun t =>
      t.flag chBase Reg.CH_STATUS_HEAD = true ∧ t.chain.provisional = some 1 ∧ t.outbox = s.outbox ++ [.chime .down 1 2] ∧ t.mst = stEnum) ∧
  (∀ s : State, s.mst = stEnum → s.chain.provisional = none → s.sahvosUp = true → ChimeClear s .up → s.chain.tokenSeen = false →
    Answers .chimeHeadStart s fun t => t.outbox = s.outbox ++ [.chime .up 4 0] ∧ t.chain.provisional = none) ∧
  (∀ (s : State) (v : BitVec 8), s.mst = stEnum → s.chain.provisional = none → s.sahvosUp = true → s.link .up = 2 → ChimeClear s .down → v.toNat ≤ 63 →
    Answers (.chimeToken .up v) s fun t =>
      t.chain.provisional = some v.toNat ∧ t.outbox = s.outbox ++ [.chime .down 1 (v.toNat + 1)] ∧ t.mst = stEnum) ∧
  (∀ (s : State) (v : BitVec 8), s.mst = stEnum → s.chain.provisional = none → s.sahvosUp = true → s.link .up = 2 → 64 ≤ v.toNat →
    Answers (.chimeToken .up v) s fun t => t.flag chBase Reg.CH_STATUS_OVERFLOW = true ∧ t.addr = 0 ∧ t.mst = stLoad) ∧
  (∀ (s : State) (p : ChainPort) (v : BitVec 8), s.mst = stRun → s.sahvosUp = true → ChimeClear s p → s.addr ≠ 0 →
    Answers (.chimeToken p v) s fun t =>
      t.outbox = s.outbox ++ [if v.toNat = s.addr then .chime p 2 (s.rd chBase Reg.CH_STATUS_COUNT) else .chime p 3 0]) ∧
  (∀ (s : State) (a : Nat) (v : BitVec 8), s.mst = stEnum → s.chain.provisional = some a → a ≤ 63 → v.toNat ≤ 63 → s.sahvosUp = true → s.link .down = 2 →
    Answers (.chimeEnd v) s fun t =>
      t.mst = stLoad ∧ t.addr = a ∧ t.rd chBase Reg.CH_STATUS_COUNT = v.toNat ∧ t.chain.provisional = none) ∧
  (∀ (s : State) (a : Nat), s.mst = stEnum → s.chain.provisional = some a → s.sahvosUp = true → s.link .down = 2 →
    Answers .chimeClash s fun t => t.flag chBase Reg.CH_STATUS_CLASH = true ∧ t.addr = 0 ∧ t.mst = stLoad) ∧
  (∀ s : State, s.mst ≠ stEnum → s.addr ≠ 0 → s.sahvosUp = true → ChimeClear s .down →
    Answers .chimeReq s fun t => t.outbox = s.outbox ++ [.chime .down 1 (min 64 (s.addr + 1))] ∧ t.addr = s.addr) ∧
  (∀ (s : State) (a : Nat), s.mst = stEnum → s.chain.provisional = some a → a ≤ 63 →
    Answers .enumWindowClose s fun t => t.mst = stLoad ∧ t.addr = a ∧ t.chain.provisional = none) ∧
  (∀ s : State, s.mst = stEnum → s.chain.provisional = none → s.chain.tokenSeen = false →
    Answers .enumWindowClose s fun t => t.mst = stLoad ∧ t.addr = 0 ∧ t.flag chBase Reg.CH_STATUS_NOHEAD = true)

/-- R22–R25, R184, R475, R476: NOP, which R22 lists for no state, is E_STATE and changes nothing; RUN and AUTOSTART schedule RUN in READY with Tocsin armed; STOP is taken in RUN; SERVICE leads from
READY to SERVICE; RESTART resets by CMD after its answer; and outside those states the commands are E_STATE; SERVICE_EXIT without a cause leads to READY, with
one to SAFE; RELEASE leads from SAFE to READY with Tocsin DISARMED once every cause is cleared, SAFE_IN_N is high and the self-test has passed, and is E_STATE
with a cause latched. -/
def Obligations.ModuleCommandsMoveTheModuleState : Prop :=
  (∀ (s : State) (p : Port), Served s p → exec (.modCmdNop p) s = .next (s.answer p E_STATE).settle) ∧
  (∀ (s : State) (p : Port), Served s p → s.mst = stReady → s.tstate = tsArmed → s.flag tbBase Reg.TB_STATUS_STPASS = true →
      s.flag tbBase Reg.TB_STATUS_DBGFLAG = false →
    exec (.modCmdRun p) s = .next ((s.modFab fun f => { f with runPending := true }).answer p E_OK).settle) ∧
  (∀ (s : State) (p : Port), Served s p → s.tstate ≠ tsArmed → exec (.modCmdRun p) s = .next (s.answer p E_STATE).settle) ∧
  (∀ s : State, s.mst = stReady → s.tstate = tsArmed → s.flag tbBase Reg.TB_STATUS_STPASS = true → s.flag tbBase Reg.TB_STATUS_DBGFLAG = false →
      recByte (moduleOf s.img.active) 2 = 1 →
    exec .autostart s = .next (s.modFab fun f => { f with runPending := true }).settle) ∧
  (∀ (s : State) (p : Port), Served s p → s.mst = stRun →
    exec (.modCmdStop p) s = .next ((s.modFab fun f => { f with stopPending := true }).answer p E_OK).settle) ∧
  (∀ (s : State) (p : Port), Served s p → s.mst ≠ stRun → exec (.modCmdStop p) s = .next (s.answer p E_STATE).settle) ∧
  (∀ s : State, Served s .service → s.mst = stReady →
    Answers (.modCmdService .service) s fun t =>
      t.mst = stService ∧ t.rd modBase Reg.MOD_STATE_PREV = stReady ∧ t.toc.serviceFromSafe = false ∧ t.outbox = s.outbox ++ [.result .service E_OK] ∧
      ((∀ n < 32, s.cst (qpId n) ≠ csStart) → RegsKept [modBase + Reg.MOD_STATE_STATE.off] s t)) ∧
  (∀ (s : State) (p : Port), Served s p → p ≠ .service → exec (.modCmdService p) s = .next (s.answer p E_ACCESS).settle) ∧
  (∀ (s : State) (p : Port), Served s p →
    Answers (.modCmdRestart p) s fun t =>
      t.mst = stPowerup ∧ t.rd pwrBase Reg.PWR_RST_CAUSE = 3 ∧ t.outbox = s.outbox ++ [.result p E_OK] ∧ t.img.keys = s.img.keys) ∧
  (∀ (s : State) (p : Port), Served s p → s.mst = stService → s.causes = 0 → s.flag (cpBase 0) Reg.CP_STATUS_SPLIT = false → s.tstate ≠ tsSafe →
    Answers (.modCmdServiceExit p) s fun t =>
      t.mst = stReady ∧ t.rd modBase Reg.MOD_STATE_PREV = stService ∧ t.fab.forces = [] ∧ t.outbox = s.outbox ++ [.result p E_OK]) ∧
  (∀ (s : State) (p : Port), Served s p → s.mst = stService → s.causes ≠ 0 → s.flag (cpBase 0) Reg.CP_STATUS_SPLIT = false →
    Answers (.modCmdServiceExit p) s fun t => t.mst = stSafe ∧ t.outbox = s.outbox ++ [.result p E_OK]) ∧
  (∀ (s : State) (p : Port), Served s p → s.mst ≠ stService → exec (.modCmdServiceExit p) s = .next (s.answer p E_STATE).settle) ∧
  (∀ (s : State) (p : Port), Served s p → s.mst = stSafe → s.causes = 0 → s.toc.safeIn = true → s.flag tbBase Reg.TB_STATUS_STPASS = true →
      s.flag tbBase Reg.TB_STATUS_RETESTING = false → s.tstate = tsSafe →
    Answers (.modCmdRelease p) s fun t =>
      t.mst = stReady ∧ t.tstate = tsDisarmed ∧ t.flag tbBase Reg.TB_STATUS_HWSAFE = false ∧ t.outbox = s.outbox ++ [.result p E_OK]) ∧
  (∀ (s : State) (p : Port), Served s p → s.causes ≠ 0 → exec (.modCmdRelease p) s = .next (s.answer p E_STATE).settle)

/-! Safety and lockstep (06). -/

/-- R22, R186, R187, R189, R191: a safety-relevant fault in ENUM to SERVICE latches its cause, takes the module to SAFE and Tocsin with it, and trips every
output; a mismatch, CLAPPER or delay fault of an unsplit pair is such a fault, and of a split pair nothing; a filtered fall of SAFE_IN_N in RUN is the cause
SAFE_IN; a rise only shows; the line is asserted where Tocsin has not followed. -/
def Obligations.SafetyFaultsTakeTheModuleToSafe : Prop :=
  (∀ (s : State) (c : Cause) (pair : Fin 4) (sub : BitVec 4), s.mst ∈ [stEnum, stLoad, stReady, stRun, stService] → s.splitCause c pair.val = false →
    Answers (.safetyRelevantFault c pair sub) s fun t =>
      t.mst = stSafe ∧ t.causeLatched c = true ∧
      (s.tstate = tsArmed → (c = .safeIn → s.flag (cpBase 0) Reg.CP_STATUS_HELD = false) → t.tstate = tsSafe) ∧ (∀ k < 128, t.tripped k = true) ∧ t.q.mem = s.q.mem) ∧
  (∀ (s : State) (pair : Fin 4), s.mst = stRun → s.pairSplit pair.val = false →
    Answers (.lockstepOutputMismatch pair) s fun t =>
      t.mst = stSafe ∧ t.causeLatched .mismatch = true ∧ (pair = 0 → t.flag (cpBase 0) Reg.CP_STATUS_HELD = true)) ∧
  (∀ (s : State) (pair : Fin 4), s.mst = stRun → s.pairSplit pair.val = false →
    Answers (.clapperFault pair) s fun t => t.mst = stSafe ∧ t.causeLatched .clapperFault = true) ∧
  (∀ (s : State) (pair : Fin 4), s.mst = stRun → s.pairSplit pair.val = false →
    Answers (.delayFault pair) s fun t => t.mst = stSafe ∧ t.causeLatched .delayFault = true) ∧
  (∀ (s : State) (pair : Fin 4), s.pairSplit pair.val = true →
    exec (.lockstepOutputMismatch pair) s = .next s.settle ∧ exec (.clapperFault pair) s = .next s.settle ∧ exec (.delayFault pair) s = .next s.settle) ∧
  (∀ s : State, s.mst = stRun →
    Answers (.safeInNTransition false) s fun t =>
      t.mst = stSafe ∧ t.causeLatched .safeIn = true ∧ t.toc.safeIn = false ∧ t.flag tbBase Reg.TB_STATUS_SAFEIN = false) ∧
  (∀ s : State,
    Answers (.safeInNTransition true) s fun t =>
      t.mst = s.mst ∧ t.toc.safeIn = true ∧ t.flag tbBase Reg.TB_STATUS_SAFEIN = true ∧
      RegsKept [tbBase + Reg.TB_STATUS_SAFEIN.off] s t ∧ t.q.mem = s.q.mem) ∧
  (∀ s : State, s.causeLatched .safeIn = true → s.tstate ≠ tsSafe →
    Answers .safeInHardwireTimeout s fun t => t.flag tbBase Reg.TB_STATUS_HWSAFE = true)

/-- R192, R193, R195: a background compare counts for each pair that compares and changes nothing else where none differs; a release counts and clears HELD, but of
CP0 while TST_FAIL or a cause that only a restart clears holds it; ATTACH splits a pair through the service port in SERVICE, of CP0 stopping Tocsin with the
line asserted and every output tripped, and is OK without effect on a pair that it has attached; DETACH releases the pair and NOP does nothing; through other
ports the three are E_ACCESS, and outside SERVICE E_STATE. -/
def Obligations.PairsCompareResyncAndDebug : Prop :=
  (∀ s : State,
    Answers (.backgroundCompare 0 false) s fun t =>
      (∀ n < 4, t.rdw (cpBase n) Reg.CP_CMPCNT = s.rdw (cpBase n) Reg.CP_CMPCNT + (if s.compares n then 1 else 0)) ∧ t.mst = s.mst ∧
      RegsKept [cpBase 0 + Reg.CP_CMPCNT.off, cpBase 1 + Reg.CP_CMPCNT.off, cpBase 2 + Reg.CP_CMPCNT.off, cpBase 3 + Reg.CP_CMPCNT.off] s t) ∧
  (∀ (s : State) (pair : Fin 4) (us : Nat), s.flag (cpBase pair.val) Reg.CP_STATUS_HELD = true → s.isolated 2 (25 + pair.val) = false →
      s.hardHeld pair.val = false →
    Answers (.resyncRelease pair us) s fun t =>
      t.flag (cpBase pair.val) Reg.CP_STATUS_HELD = false ∧ t.mst = s.mst ∧
      t.rd (cpBase pair.val) Reg.CP_DIV_RESYNCS = min (s.rd (cpBase pair.val) Reg.CP_DIV_RESYNCS + 1) 65535) ∧
  (∀ (s : State) (us : Nat), s.flag (cpBase 0) Reg.CP_STATUS_HELD = true → s.isolated 2 25 = false → s.hardHeld 0 = true →
    Answers (.resyncRelease 0 us) s fun t =>
      t.flag (cpBase 0) Reg.CP_STATUS_HELD = true ∧ t.mst = s.mst ∧ t.toc.cp0Ok = true ∧ t.causes = s.causes ∧
      t.rd (cpBase 0) Reg.CP_DIV_RESYNCS = min (s.rd (cpBase 0) Reg.CP_DIV_RESYNCS + 1) 65535) ∧
  (∀ (s : State) (pair : Fin 4), Served s .service → s.mst = stService → pair ≠ 0 → s.flag (cpBase pair.val) Reg.CP_STATUS_DEBUG = false →
    Answers (.debugAttach .service pair) s fun t =>
      t.flag (cpBase pair.val) Reg.CP_STATUS_DEBUG = true ∧ t.flag (cpBase pair.val) Reg.CP_STATUS_SPLIT = true ∧
      t.flag (cpBase pair.val) Reg.CP_STATUS_LOCKSTEP = false ∧ t.flag tbBase Reg.TB_STATUS_DBGFLAG = true ∧
      (s.tstate = tsArmed → t.tstate = tsDisarmed) ∧ t.outbox = s.outbox ++ [.result .service E_OK]) ∧
  (∀ s : State, Served s .service → s.mst = stService → s.flag (cpBase 0) Reg.CP_STATUS_DEBUG = false →
    Answers (.debugAttach .service 0) s fun t =>
      t.flag (cpBase 0) Reg.CP_STATUS_DEBUG = true ∧ t.flag (cpBase 0) Reg.CP_STATUS_SPLIT = true ∧ t.flag (cpBase 0) Reg.CP_STATUS_LOCKSTEP = false ∧
      t.flag tbBase Reg.TB_STATUS_DBGFLAG = true ∧ t.tstate = tsStopped ∧ t.flag tbBase Reg.TB_STATUS_HWSAFE = true ∧ (∀ k < 128, t.tripped k = true) ∧
      t.outbox = s.outbox ++ [.result .service E_OK]) ∧
  (∀ (s : State) (pair : Fin 4), Served s .service → s.mst = stService → s.flag (cpBase pair.val) Reg.CP_STATUS_DEBUG = true →
    exec (.debugAttach .service pair) s = .next (s.answer .service E_OK).settle) ∧
  (∀ (s : State) (pair : Fin 4), Served s .service → s.mst = stService →
    exec (.debugDetach .service pair) s = .next ((s.setFlag (cpBase pair.val) Reg.CP_STATUS_DEBUG false).answer .service E_OK).settle ∧
    exec (.debugNop .service pair) s = .next (s.answer .service E_OK).settle) ∧
  (∀ (s : State) (p : Port) (pair : Fin 4) (c : Code), Served s p → (p ≠ .service ∨ s.mst ≠ stService) → c = (if p = .service then E_STATE else E_ACCESS) →
    exec (.debugAttach p pair) s = .next (s.answer p c).settle ∧ exec (.debugDetach p pair) s = .next (s.answer p c).settle ∧
    exec (.debugNop p pair) s = .next (s.answer p c).settle)

/-! Station image and keys (02). -/

/-- R40, R42, R47–R49, R50, R64: the boot bank is prepared where it is valid and otherwise a download is awaited; OPEN empties a bank for staging, and ends;
RECORD_UNIT appends the word that decodes; VALIDATE starts and records its verdict.
(Readings and choices of the model that it rests on: log entries 59, 60.) -/
def Obligations.ImageBanksAreStagedAndValidated : Prop :=
  (∀ (s : State) (bad0 bad1 : List Nat) (n : BitVec 16), s.mst = stLoad → s.imgPhase = phIdle → s.img.committed = false → s.dutyUp 1 = true →
      ((s.loadBank false bad0).loadBank true bad1).validBank s.bootBank = true →
    Answers (.bootBankRead bad0 bad1 n) s fun t => t.imgPhase = phPreparing ∧ t.img.nextBank = s.bootBank ∧ t.img.atStroke = false ∧ t.mst = stLoad) ∧
  (∀ (s : State) (bad0 bad1 : List Nat) (n : BitVec 16), s.mst = stLoad → s.imgPhase = phIdle → s.img.committed = false → s.dutyUp 1 = true →
      s.img.b0.savedOk = false → s.img.b1.savedOk = false →
    Answers (.bootBankRead bad0 bad1 n) s fun t =>
      t.imgPhase = phIdle ∧ t.mst = stLoad ∧ t.validBank false = false ∧ t.validBank true = false ∧ t.img.b0.main = [] ∧ t.img.b1.main = []) ∧
  (∀ (s : State) (p : Port) (b : Bool), Served s p → s.imgOpen = E_OK → s.isActive b = false →
    Answers (.imgOpen p b) s fun t =>
      t.imgPhase = phStaging ∧ t.validBank b = false ∧ t.flag nvjBase (bankSaved b) = false ∧ (t.bank b).main = [] ∧ (t.bank b).staging = true ∧
      (t.bank (!b)).staging = false ∧ t.rd nvjBase Reg.IMG_NEXT_NEXT = 0 ∧ t.outbox = s.outbox ++ [.result p E_OK] ∧
      RegsKept [nvjBase + Reg.IMG_CTRL_BANK.off, nvjBase + Reg.IMG_STATUS_PHASE.off, nvjBase + Reg.IMG_NEXT_NEXT.off] s t) ∧
  (∀ (s : State) (p : Port) (b : Bool), Served s p → s.imgOpen = E_OK → s.isActive b = true →
    exec (.imgOpen p b) s = .next (s.answer p E_LOCKED).settle) ∧
  (∀ s : State, s.imgPhase = phStaging → s.dutyUp 1 = true →
    Answers .openComplete s fun t =>
      t.imgPhase = phIdle ∧ t.rd nvjBase Reg.IMG_STATUS_RESULT = 0 ∧ t.img = s.img ∧ RegsKept [nvjBase + Reg.IMG_STATUS_PHASE.off] s t) ∧
  (∀ (s : State) (p : Port) (u : BitVec 288) (b : Bool), Served s p → s.mst ∈ [stLoad, stReady, stRun, stService] → s.imgPhase < phValidating →
      s.stagingBank = some b → (decodeWord (u.extractLsb' 0 256) (u.extractLsb' 256 20) (s.bank b).main.length).1.bad = false →
      (s.bank b).main.length < 65536 → u.extractLsb' 276 12 = 0 →
    Answers (.recordUnit p u) s fun t =>
      (t.bank b).main = (s.bank b).main ++ [(decodeWord (u.extractLsb' 0 256) (u.extractLsb' 256 20) (s.bank b).main.length).2] ∧
      t.rd nvjBase Reg.IMG_NEXT_NEXT = (s.bank b).main.length + 1 ∧ t.outbox = s.outbox ++ [.result p E_OK] ∧ t.bank (!b) = s.bank (!b)) ∧
  (∀ (s : State) (p : Port) (b : Bool), Served s p → s.imgOpen = E_OK → s.isActive b = false →
    Answers (.imgValidate p b) s fun t =>
      t.imgPhase = phValidating ∧ t.img.nextBank = b ∧ (t.bank b).main = (s.bank b).main ∧ (t.bank b).staging = false ∧
      t.outbox = s.outbox ++ [.result p E_OK]) ∧
  (∀ s : State, s.imgPhase = phValidating → s.dutyUp 1 = true →
    Answers .validateComplete s fun t =>
      t.imgPhase = phIdle ∧ t.validBank s.img.nextBank = (s.verdict s.img.nextBank).passed ∧
      t.rd nvjBase Reg.IMG_STATUS_RESULT = (s.verdict s.img.nextBank).code.toNat ∧ t.validBank (!s.img.nextBank) = s.validBank (!s.img.nextBank))

/-- R42–R47, R51, R52, R57: SAVE writes the saved copy, and the boot bank follows a completed SAVE of the active bank; a SAVE whose writes fail ends in E_NV_FAIL and
leaves the bank unsaved; COMMIT prepares a valid bank that is not active, in RUN one that leaves Tocsin and the stroke period as they are, which then waits for its
boundary, with ATSTROKE = 1 that of IMG.AT, and is abandoned where that has passed; the boot bank follows a committed SAVED bank; ABORT abandons a pending commit,
ends a VALIDATE or SAVE with the bank not VALID, and ends staging alone when idle; NOP has no effect.
(Readings and choices of the model that it rests on: log entries 59, 114, 142. How the journal writes of the boot-bank update come out is a free value.) -/
def Obligations.ImageBanksAreSavedAndCommitted : Prop :=
  (∀ (s : State) (p : Port) (b : Bool), Served s p → s.imgOpen = E_OK → s.validBank b = true → s.flag modBase Reg.MOD_HEALTH_NV_DEGRADED = false →
      (s.bootBank ≠ b ∨ s.isActive b = true) → s.flag nvjBase (bankSaved b) = false →
    Answers (.imgSave p b) s fun t =>
      t.imgPhase = phSaving ∧ t.img.nextBank = b ∧ (t.bank b).savedOk = false ∧ (t.bank b).main = (s.bank b).main ∧
      t.outbox = s.outbox ++ [.result p E_OK]) ∧
  (∀ (s : State) (blocks : List Nat) (o : NvOutcome), s.imgPhase = phSaving → s.dutyUp 1 = true → (s.nvWrite blocks o).1 = true →
      ((s.nvWrite blocks o).2.flag nvjBase Reg.NVJ_STATUS_DEGRADED = false ∨ s.bootBank = s.img.nextBank) →
    Answers (.saveComplete blocks o) s fun t =>
      t.imgPhase = phIdle ∧ t.rd nvjBase Reg.IMG_STATUS_RESULT = 0 ∧ t.flag nvjBase (bankSaved s.img.nextBank) = true ∧
      (t.bank s.img.nextBank).savedOk = true ∧ (t.bank s.img.nextBank).savedMain = (s.bank s.img.nextBank).main) ∧
  (∀ s : State, s.imgPhase = phSaving → s.dutyUp 1 = true → s.isActive s.img.nextBank = true → s.flag nvjBase Reg.NVJ_STATUS_DEGRADED = false →
      JournalTakes s (controlHome Config.bootPlace) →
    Answers (.saveComplete [] .clean) s fun t =>
      t.bootBank = s.img.nextBank ∧ t.flag nvjBase Reg.IMG_STATUS_VOLATILE = false ∧ t.img.bootUpdate = false ∧ t.img.active = s.img.active) ∧
  (∀ (s : State) (blocks : List Nat) (o : NvOutcome), s.imgPhase = phSaving → s.dutyUp 1 = true → (s.nvWrite blocks o).1 = false →
      s.flag nvjBase (bankSaved s.img.nextBank) = false → (s.bank s.img.nextBank).savedOk = false →
    Answers (.saveComplete blocks o) s fun t =>
      t.imgPhase = phIdle ∧ t.rd nvjBase Reg.IMG_STATUS_RESULT = E_NV_FAIL.toNat ∧ t.flag nvjBase (bankSaved s.img.nextBank) = false ∧
      (t.bank s.img.nextBank).savedOk = false ∧ t.bootBank = s.bootBank) ∧
  (∀ (s : State) (p : Port) (b : Bool), Served s p → s.imgOpen = E_OK → s.isActive b = false → s.validBank b = true →
      (s.mst = stRun → sameTocsin s.img.active (s.effective b) = true) →
    Answers (.imgCommit p b false) s fun t =>
      t.imgPhase = phPreparing ∧ t.img.nextBank = b ∧ t.img.atStroke = false ∧ t.img.active = s.img.active ∧ t.outbox = s.outbox ++ [.result p E_OK]) ∧
  (∀ (s : State) (p : Port) (b : Bool) (d : Nat), Served s p → s.imgOpen = E_OK → s.isActive b = false → s.validBank b = true →
      (s.mst = stRun → sameTocsin s.img.active (s.effective b) = true) →
      d = ((s.rdw nvjBase Reg.IMG_AT).toNat + 2 ^ 32 - (s.strokeNo + 1) % 2 ^ 32) % 2 ^ 32 →
    Answers (.imgCommit p b true) s fun t =>
      t.img.active = s.img.active ∧ t.outbox = s.outbox ++ [.result p E_OK] ∧
      (d < 2 ^ 31 → t.imgPhase = phPreparing ∧ t.img.nextBank = b ∧ t.img.atStroke = true ∧ t.img.atNo = s.rdw nvjBase Reg.IMG_AT) ∧
      (2 ^ 31 ≤ d → t.imgPhase = phIdle ∧ t.rd nvjBase Reg.IMG_STATUS_RESULT = E_TIMEOUT.toNat ∧
        t.rd nvjBase Reg.IMG_COMMITS_ABANDONED = min (s.rd nvjBase Reg.IMG_COMMITS_ABANDONED + 1) 65535)) ∧
  (∀ (s : State) (p : Port) (b a : Bool), Served s p → s.imgOpen = E_OK → s.isActive b = false →
      (s.validBank b = false ∨ (s.mst = stRun ∧ sameTocsin s.img.active (s.effective b) = false)) →
    exec (.imgCommit p b a) s = .next (s.answer p E_STATE).settle) ∧
  (∀ s : State, s.imgPhase = phPreparing → s.img.atStroke = false → s.dutyUp 1 = true →
    Answers .preparationComplete s fun t => t.imgPhase = phPending ∧ t.img = s.img ∧ RegsKept [nvjBase + Reg.IMG_STATUS_PHASE.off] s t) ∧
  (∀ s : State, s.img.bootUpdate = true → s.dutyUp 1 = true → JournalTakes s (controlHome Config.bootPlace) →
    Answers .bootBankUpdate s fun t =>
      (∀ b ∈ s.logBlocks ((controlHome Config.bootPlace).length + 1), b ∉ s.drawOutcome.1.worn) →
        t.bootBank = s.activeBank ∧ t.flag nvjBase Reg.IMG_STATUS_VOLATILE = false ∧ t.img.bootUpdate = false ∧
        RegsKept ((nvjBase + Reg.IMG_STATUS_BOOT.off) :: journalRegs) s t) ∧
  (∀ s : State, s.img.bootUpdate = true → s.dutyUp 1 = true →
      (s.drawOutcome.2.commitTxn (controlHome Config.bootPlace) s.drawOutcome.1).1 ≠ E_OK →
    Answers .bootBankUpdate s fun t => t.bootBank = s.bootBank) ∧
  (∀ s : State, s.img.bootUpdate = false → exec .bootBankUpdate s = .next s.settle) ∧
  (∀ (s : State) (p : Port), Served s p → s.mst ∈ [stLoad, stReady, stRun, stService] → s.imgPhase = phPending →
    Answers (.imgAbort p) s fun t =>
      t.imgPhase = phIdle ∧ t.rd nvjBase Reg.IMG_STATUS_RESULT = 0 ∧ t.img.next = [] ∧ t.img.active = s.img.active ∧
      t.rd nvjBase Reg.IMG_COMMITS_ABANDONED = min (s.rd nvjBase Reg.IMG_COMMITS_ABANDONED + 1) 65535 ∧ t.outbox = s.outbox ++ [.result p E_OK]) ∧
  (∀ (s : State) (p : Port), Served s p → s.mst ∈ [stLoad, stReady, stRun, stService] → s.imgPhase = phIdle →
    exec (.imgAbort p) s = .next (s.endStaging.answer p E_OK).settle) ∧
  (∀ (s : State) (p : Port), Served s p → s.mst ∈ [stLoad, stReady, stRun, stService] → s.imgPhase ∈ [phValidating, phSaving] →
    Answers (.imgAbort p) s fun t =>
      t.imgPhase = phIdle ∧ t.rd nvjBase Reg.IMG_STATUS_RESULT = 0 ∧ t.validBank s.img.nextBank = false ∧
      (t.bank s.img.nextBank).savedOk = (s.bank s.img.nextBank).savedOk ∧ t.img.active = s.img.active ∧ t.outbox = s.outbox ++ [.result p E_OK]) ∧
  (∀ (s : State) (p : Port), Served s p → s.mst ∉ [stLoad, stReady, stRun, stService] →
    exec (.imgAbort p) s = .next (s.answer p E_STATE).settle) ∧
  (∀ (s : State) (p : Port), Served s p → exec (.imgNop p) s = .next (s.answer p E_OK).settle)

/-- R39, R64: in SERVICE, through the service port, a valid key enters a slot that holds none and no other slot holds; a slot that is not the last active one
and verifies nothing held is revoked; where the journal does not take the change it is E_NV_FAIL and the slots stand; the other ports are E_ACCESS; NOP changes
nothing.
(Readings and choices of the model that it rests on: log entries 114, 142.) -/
def Obligations.KeySlotsAreInstalledAndRevoked : Prop :=
  (∀ (s : State) (slot : Fin 4) (key : BitVec 256), Served s .service → s.mst = stService → s.keyActive slot.val = false → keyValid key = true →
      (∀ k < 4, k ≠ slot.val → s.keyActive k = true → s.keyAt k ≠ key) → s.img.keys.length = 4 → JournalTakes s (keyHome slot.val) →
    Answers (.keyInstall .service ⟨slot, .clean⟩ key) s fun t =>
      t.keyActive slot.val = true ∧ t.keyAt slot.val = key ∧ t.outbox = s.outbox ++ [.result .service E_OK] ∧
      RegsKept ((nvjBase + (keyField 0).off) :: journalRegs) s t) ∧
  (∀ (s : State) (slot : Fin 4), Served s .service → s.mst = stService → s.keyActive slot.val = true →
      (∃ k < 4, k ≠ slot.val ∧ s.keyActive k = true) → s.keyUse / 2 ^ slot.val % 2 = 0 → s.img.keys.length = 4 →
      JournalTakes s (keyHome slot.val) →
    Answers (.keyRevoke .service ⟨slot, .clean⟩) s fun t =>
      t.keyActive slot.val = false ∧ t.rd nvjBase (keyField slot.val) = 2 ∧ t.keyAt slot.val = 0 ∧ t.outbox = s.outbox ++ [.result .service E_OK] ∧
      RegsKept ((nvjBase + (keyField 0).off) :: journalRegs) s t) ∧
  (∀ (s : State) (slot : Fin 4) (key : BitVec 256) (o : NvOutcome), Served s .service → (decideKeyInstall .service slot.val key s).1 = E_OK →
      (s.commitTxn (keyHome slot.val) o).1 ≠ E_OK →
    Answers (.keyInstall .service ⟨slot, o⟩ key) s fun t =>
      t.img.keys = s.img.keys ∧ t.keyActive slot.val = s.keyActive slot.val ∧ t.outbox = s.outbox ++ [.result .service E_NV_FAIL]) ∧
  (∀ (s : State) (slot : Fin 4) (o : NvOutcome), Served s .service → (decideKeyRevoke .service slot.val s).1 = E_OK →
      (s.commitTxn (keyHome slot.val) o).1 ≠ E_OK →
    Answers (.keyRevoke .service ⟨slot, o⟩) s fun t =>
      t.img.keys = s.img.keys ∧ t.keyActive slot.val = s.keyActive slot.val ∧ t.outbox = s.outbox ++ [.result .service E_NV_FAIL]) ∧
  (∀ (s : State) (p : Port) (slot : Fin 4) (key : BitVec 256) (o : NvOutcome), Served s p → p ≠ .service →
    exec (.keyInstall p ⟨slot, o⟩ key) s = .next (s.answer p E_ACCESS).settle ∧ exec (.keyRevoke p ⟨slot, o⟩) s = .next (s.answer p E_ACCESS).settle) ∧
  (∀ (s : State) (p : Port), Served s p → exec (.keyNop p) s = .next (s.answer p E_OK).settle)

/-! Strokes, cells and blocks (03). -/

/-- R65, R69, R71, R75, R91, R94, R105, R238, R504: a boundary before the first commit counts, takes up the staged writes and moves no other state of the
module; an evaluation window over no cell evaluates nothing, and its close with nothing unfinished ends it; a block error counts, and the fourth within 64
strokes isolates the block; a region fault shows and counts, and clears; an isolated block with its cause away for 256 strokes returns through RECOVER; REINT
lifts a latched isolation and is E_STATE otherwise.
(Readings and choices of the model that it rests on: log entries 61, 73, 120.) -/
def Obligations.BoundariesAndBlockIsolation : Prop :=
  (∀ s : State, s.mst = stLoad → s.img.active = [] → s.img.committed = false → s.imgPhase = phIdle → s.fab.staged = [] → s.fab.forces = [] →
    Answers (.strokeBoundary false) s fun t =>
      t.fab.boundaries = s.fab.boundaries + 1 ∧ t.mst = stLoad ∧ t.img.active = [] ∧ t.flag tmBase Reg.TM_STATUS_PAUSED = false) ∧
  (∀ s : State, s.mst ∉ [stEnum, stLoad, stReady, stRun, stSafe, stService] → exec (.strokeBoundary false) s = .next s.settle) ∧
  (∀ (s u v : State) (snare : Bool), s.strokesRun = true → u = ((s.passEdge.endCycles).readSnare snare).publishImage →
      v = ((List.range 4).foldl State.phasorEdge (((u.applyStaged.commitStep).pathRoles).runStep.driveImage.countAbsent)) →
    exec (.strokeBoundary snare) s =
      .next (((((v.tripOuts.map Prod.fst).foldl State.resetEdge v).modFab fun f =>
        { f with opened := ((v.tripOuts.map Prod.fst).foldl State.resetEdge v).evaluating }).agePairs.exportImage
          ((s.passEdge.endCycles).readSnare snare).img.active u.fab.words (((s.passEdge.endCycles).readSnare snare).rd tmBase Reg.STK_CFG_TS_UNITS)).settle)) ∧
  (∀ s : State, s.mst ∈ [stRun, stSafe, stService] → s.img.active = [] → s.fab.before = none →
    Answers .evaluationWindowOpen s fun t => t.fab.before = some ⟨s.regs, s.fab.cells, s.fab.fcs, s.fab.loops, [], false⟩ ∧ RegsKept [] s t) ∧
  (∀ s u : State, s.evaluating = true → s.fab.before = none → u = (s.cells.filter s.evaluates).foldl State.evaluate s →
    Answers .evaluationWindowOpen s fun t =>
      t.fab.back = u.fab.back ∧ t.fab.words = u.fab.words ∧ t.fab.cells = u.fab.cells ∧ t.fab.fcs = u.fab.fcs ∧ t.fab.loops = u.fab.loops ∧
      t.fab.before = some ⟨s.regs, s.fab.cells, s.fab.fcs, s.fab.loops, (s.cells.filter s.evaluates).filter fun id => u.cst id == csFault, false⟩) ∧
  (∀ (s : State) (b : Before), s.fab.before = some b → b.closed = false →
    Answers (.evaluationWindowClose []) s fun t =>
      t.fab.before = some { b with closed := true } ∧ t.fab.back = s.fab.back ∧ t.outbox = s.outbox ∧ RegsKept [] s t) ∧
  (∀ (s : State) (b : Before) (l : List Nat) (id : Nat), s.fab.before = some b → b.closed = false → id ∈ l → s.exists_ id = true → s.dueOpening id = true →
    Answers (.evaluationWindowClose l) s fun t =>
      id ∈ t.fab.late ∧ t.rd tmBase Reg.STK_SLIP_LATE = min (s.rd tmBase Reg.STK_SLIP_LATE + 1) (2 ^ Reg.STK_SLIP_LATE.width - 1) ∧ t.outbox = s.outbox) ∧
  (∀ (s : State) (r b : Nat) (l : List Nat), blockExists r b = true → r ≠ 0 → (s.countBlockError r b).1 = false →
    exec (.blockError (r, b) ⟨l, none⟩) s =
      .next (((((s.countBlockError r b).2.cellsIn r b).filter l.contains).foldl State.discardWork (s.countBlockError r b).2).settle)) ∧
  (∀ (s : State) (r b : Nat) (l : List Nat), blockExists r b = true → r ≠ 0 → (s.countBlockError r b).1 = true →
    exec (.blockError (r, b) ⟨l, none⟩) s =
      .next ((((((s.countBlockError r b).2.cellsIn r b).filter l.contains).foldl State.discardWork (s.countBlockError r b).2).isolateBlk r b false).settle)) ∧
  (∀ (s : State) (r b : Nat), blockExists r b = true → r ≠ 0 → (s.blk r b).errAt = [] →
    Answers (.blockError (r, b) ⟨[], none⟩) s fun t =>
      t.rd (blkBase r b) Reg.BLK_ERR_ERRORS = min (s.rd (blkBase r b) Reg.BLK_ERR_ERRORS + 1) (2 ^ Reg.BLK_ERR_ERRORS.width - 1) ∧
      t.isolated r b = s.isolated r b ∧ RegsKept [blkBase r b + Reg.BLK_ERR_ERRORS.off] s t) ∧
  (∀ (s : State) (b : Nat), b < 8 → 3 < ((s.fab.boundaries :: ((s.blk 2 b).errAt.filter fun t => s.fab.boundaries < t + 64)).length) →
      s.cellsIn 2 b = [] → s.isolated 2 b = false →
    Answers (.blockError (2, b) ⟨[], none⟩) s fun t => t.isolated 2 b = true) ∧
  (∀ (s : State) (region : Fin 5), s.flag modBase (regFltField region.val) = false →
    Answers (.regionFault region) s fun t =>
      t.flag modBase (regFltField region.val) = true ∧
      t.rd modBase Reg.MOD_HEALTH_REGFAULTS = min (s.rd modBase Reg.MOD_HEALTH_REGFAULTS + 1) (2 ^ Reg.MOD_HEALTH_REGFAULTS.width - 1)) ∧
  (∀ (s : State) (region : Fin 5), s.flag modBase (regFltField region.val) = true →
    Answers (.regionFaultClear region) s fun t => t.flag modBase (regFltField region.val) = false ∧ t.mst = s.mst ∧ RegsKept [] s t) ∧
  (∀ (s : State) (r b : Nat), s.isolated r b = true → s.flag (blkBase r b) Reg.BLK_STATE_LATCHED = false → (s.blk r b).cause = false →
      256 ≤ (s.blk r b).absent → r < 5 → b < 32 →
    Answers (.blockRecover r b) s fun t =>
      t.blkSt r b = bkRecover ∧ t.outbox = s.outbox ∧
      t.rd (blkBase r b) Reg.BLK_STATE_RETRIES = min (s.rd (blkBase r b) Reg.BLK_STATE_RETRIES + 1) (2 ^ Reg.BLK_STATE_RETRIES.width - 1) ∧
      RegsKept [blkBase r b + Reg.BLK_STATE_STATE.off] s t) ∧
  (∀ (s : State) (p : Port) (r b : Nat), Served s p → blockExists r b = true → r ≠ 0 → s.isolated r b = true →
      s.flag (blkBase r b) Reg.BLK_STATE_LATCHED = true → (s.blk r b).cause = false →
    Answers (.blockReintegrate p r b) s fun t =>
      t.blkSt r b = bkRecover ∧ t.flag (blkBase r b) Reg.BLK_STATE_LATCHED = false ∧ t.rd (blkBase r b) Reg.BLK_STATE_RETRIES = 0 ∧
      t.outbox = s.outbox ++ [.result p E_OK] ∧ RegsKept [blkBase r b + Reg.BLK_STATE_STATE.off] s t) ∧
  (∀ (s : State) (p : Port) (r b : Nat), Served s p → s.isolated r b = false → exec (.blockReintegrate p r b) s = .next (s.answer p E_STATE).settle)

/-- R52–R56, R62, R92: a pending commit takes effect at its boundary: the directory and the active bank are replaced together, COMMITS counts and the operation
ends; a signal that stays keeps its word; a new function cell starts with the parameters of its record and nothing kept, a changed one too, its force, counters and
latched FAULT gone, and neither touches a register of another page; of a removed cell nothing remains; where no cell is new, changed or removed,
all cell state is kept. With ATSTROKE = 1 a commit waits for the boundary of its number, and is abandoned where that has passed or comes too early.
(Readings and choices of the model that it rests on: log entry 59.) -/
def Obligations.CommitsReplaceTheImage : Prop :=
  (∀ s : State, s.imgPhase = phPending → (s.img.atStroke = false ∨ s.img.atNo.toNat = s.strokeNo % 2 ^ 32) →
    (s.mst ≠ stLoad → s.commitStep = s.takeCommit s.img.nextBank s.img.next false) ∧
    (s.mst = stLoad → s.commitStep = ((s.takeCommit s.img.nextBank s.img.next true).goMst stReady).nameBank (!s.img.nextBank) ∧
      s.commitStep.mst = stReady)) ∧
  (∀ s : State, s.img.atStroke = true → s.imgPhase ∈ [phPreparing, phPending] →
    (∀ d, d = (s.img.atNo.toNat + 2 ^ 32 - s.strokeNo % 2 ^ 32) % 2 ^ 32 →
      (0 < d → d < 2 ^ 31 → s.commitStep = s) ∧
      (2 ^ 31 ≤ d ∨ (d = 0 ∧ s.imgPhase = phPreparing) →
        s.commitStep.imgPhase = phIdle ∧ s.commitStep.rd nvjBase Reg.IMG_STATUS_RESULT = E_TIMEOUT.toNat ∧ s.commitStep.img.active = s.img.active ∧
        s.commitStep.rd nvjBase Reg.IMG_COMMITS_ABANDONED = min (s.rd nvjBase Reg.IMG_COMMITS_ABANDONED + 1) 65535 ∧
        s.commitStep.fab = s.fab))) ∧
  (∀ s : State, s.imgPhase ∉ [phPreparing, phPending] → s.commitStep = s) ∧
  (∀ (s t : State) (b load : Bool) (new : List Record), t = s.takeCommit b new load →
    t.img.active = new ∧ t.img.next = [] ∧ t.img.committed = true ∧ t.imgPhase = phIdle ∧ t.rd nvjBase Reg.IMG_STATUS_RESULT = 0 ∧
    t.flag nvjBase Reg.IMG_STATUS_VOLATILE = (t.bootBank != b)) ∧
  (∀ (s t : State) (b : Bool) (new : List Record), t = s.takeCommit b new false →
      (∀ id, id ∈ cellsOf s.img.active ↔ id ∈ cellsOf new) → (∀ id ∈ cellsOf new, cellChanged s.img.active new id = false) →
    t.activeBank = b ∧ t.fab.cells = s.fab.cells ∧ t.fab.fcs = s.fab.fcs ∧ t.fab.loops = s.fab.loops ∧ t.fab.phasors = s.fab.phasors ∧
    (∀ id, (kindOf id).isSome = true → t.cst id = s.cst id) ∧
    t.rd nvjBase Reg.IMG_COMMITS_COMMITS = min (s.rd nvjBase Reg.IMG_COMMITS_COMMITS + 1) 65535 ∧ t.mst = s.mst) ∧
  (∀ (s : State) (new : List Record) (id : Nat), Store.get none (s.replaceDirectory new).fab.words id =
    (if id ∈ (signalsOf new).map sigId then Store.get none s.fab.words id else none)) ∧
  (∀ (s t : State) (old : List Record) (id : Nat), kindOf id = some .fc → s.isolated (idRegion id) (idBlock id) = false → t = s.newCell old id →
    t.exists_ id = true ∧ t.cst id = csStart ∧ t.fc (cellNum id) = FcSt.init ∧ (t.cell id).force = (0, 0, 0) ∧ (t.cell id).errHist = [] ∧
    (∀ i < 4, t.reg (cellBase id + 0x24 + 4 * i) = fcParam (s.cfg id 0) i) ∧
    (∀ a, (a < cellBase id ∨ cellBase id + 256 ≤ a) → t.reg a = s.reg a)) ∧
  (∀ (s t : State) (old : List Record) (id : Nat), kindOf id = some .fc → s.isolated (idRegion id) (idBlock id) = false → t = s.changeCell old id →
    t.exists_ id = s.exists_ id ∧ t.cst id = csStart ∧ t.fc (cellNum id) = FcSt.init ∧ (t.cell id).force = (0, 0, 0) ∧
    t.rd (cellBase id) Reg.CELL_FORCE_MODE = 0 ∧ t.rd (cellBase id) Reg.CELL_FORCE_PORT = 0 ∧ t.rdw (cellBase id) Reg.CELL_FVAL = 0 ∧
    t.rd (cellBase id) Reg.CELL_ERR_ERRORS = 0 ∧ t.flag (cellBase id) Reg.CELL_STATE_LATCHED = false ∧ t.rd (cellBase id) Reg.CELL_STATE_RETRIES = 0 ∧
    (∀ i < 4, t.reg (cellBase id + 0x24 + 4 * i) = fcParam (s.cfg id 0) i) ∧
    (∀ a, (a < cellBase id ∨ cellBase id + 256 ≤ a) → t.reg a = s.reg a)) ∧
  (∀ (s t : State) (id : Nat), t = s.removeCell id →
    t.exists_ id = false ∧ t.cell id = CellSt.init ∧ (∀ i < 64, t.reg (cellBase id + 4 * i) = 0) ∧
    (∀ port < 16, Store.get none t.fab.ports (id * 16 + port) = none))

/-- R88, R91, R104, R106: the fault of a cell is tried again after 256 strokes without its cause, and counted; CLEAR lifts it at once; eight good evaluations
lead from RECOVER to RUN; TEST is entered from RUN in SERVICE and left for RECOVER; where these do not hold, the commands are E_STATE; a force through the
service port in SERVICE waits for the boundary; other ports are E_ACCESS; legal parameters of a function cell wait for the boundary in the order given, and
illegal ones are E_RANGE with nothing staged. -/
def Obligations.CellsRecoverAndTakeForces : Prop :=
  (∀ (s : State) (id : Nat), s.exists_ id = true → s.cst id = csFault → s.flag (cellBase id) Reg.CELL_STATE_LATCHED = false → s.causeAbsent id = true →
      256 ≤ (s.cell id).absent → s.commanded id = false → s.follower id = false →
    Answers (.faultRetry id) s fun t =>
      t.cst id = csRecover ∧ t.mst = s.mst ∧
      t.rd (cellBase id) Reg.CELL_STATE_RETRIES = min (s.rd (cellBase id) Reg.CELL_STATE_RETRIES + 1) (2 ^ Reg.CELL_STATE_RETRIES.width - 1)) ∧
  (∀ (s : State) (p : Port) (id : Nat), Served s p → s.exists_ id = true → s.cst id = csFault → s.causeAbsent id = true → s.commanded id = false → s.follower id = false →
    Answers (.cellClear p id) s fun t =>
      t.cst id = csRecover ∧ t.flag (cellBase id) Reg.CELL_STATE_LATCHED = false ∧ t.rd (cellBase id) Reg.CELL_STATE_RETRIES = 0 ∧
      t.outbox = s.outbox ++ [.result p E_OK]) ∧
  (∀ (s : State) (id : Nat), s.exists_ id = true → s.cst id = csRecover → 8 ≤ (s.cell id).good → s.follower id = false →
    Answers (.recoverComplete id) s fun t => t.cst id = csRun ∧ t.mst = s.mst) ∧
  (∀ (s : State) (p : Port) (id : Nat), Served s p → s.exists_ id = true → s.cst id = csRun → s.mst = stService → s.follower id = false →
    Answers (.cellTestEnter p id) s fun t => t.cst id = csTest ∧ t.outbox = s.outbox ++ [.result p E_OK]) ∧
  (∀ (s : State) (p : Port) (id : Nat), Served s p → s.exists_ id = true → s.cst id = csTest → s.commanded id = false → s.follower id = false →
    Answers (.cellTestLeave p id) s fun t => t.cst id = csRecover ∧ t.outbox = s.outbox ++ [.result p E_OK]) ∧
  (∀ (s : State) (p : Port) (id : Nat), Served s p → s.cst id = csRun → s.mst ≠ stService →
    exec (.cellTestEnter p id) s = .next (s.answer p E_STATE).settle ∧ exec (.cellTestLeave p id) s = .next (s.answer p E_STATE).settle ∧
    exec (.cellClear p id) s = .next (s.answer p E_STATE).settle) ∧
  (∀ (s : State) (id : Nat) (mode : BitVec 2) (port : BitVec 4) (v : Word), Served s .service → s.exists_ id = true → s.mst = stService →
      mode.toNat ≠ 3 → (mode.toNat = 1 → s.physical id = true) → hasPort s.img.active id port.toNat = true → f32IsNaN v = false →
    exec (.forceWrite .service id mode port v) s =
      .next ((s.modFab fun f => { f with forces := f.forces ++ [(id, mode.toNat, port.toNat, v)] }).answer .service E_OK).settle) ∧
  (∀ (s : State) (p : Port) (id : Nat) (mode : BitVec 2) (port : BitVec 4) (v : Word), Served s p → p ≠ .service →
    exec (.forceWrite p id mode port v) s = .next (s.answer p E_ACCESS).settle) ∧
  (∀ (s : State) (p : Port) (fc : Fin 4096) (x : Word), Served s p → s.exists_ (fcId fc.val) = true → fcOp (s.cfg (fcId fc.val) 0) = 0x01 →
      f32IsNaN x = false → (∀ i < 4, f32IsNaN (s.reg (cellBase (fcId fc.val) + 0x24 + 4 * i)) = false) → s.fab.staged = [] →
    exec (.functionParameterWrite p fc [(0, x)]) s =
      .next ((s.modFab fun f => { f with staged := [(cellBase (fcId fc.val) + 0x24, x)] }).answer p E_OK).settle) ∧
  (∀ (s : State) (p : Port) (fc : Fin 4096) (vals : List (Fin 4 × Word)), Served s p → s.exists_ (fcId fc.val) = true →
      (∀ k < vals.length, (s.stageParams fc.val (vals.take k)).fcParamLegal fc.val (vals.getD k (0, 0)) = true) →
    exec (.functionParameterWrite p fc vals) s =
      .next ((s.modFab fun f => { f with staged := f.staged ++ vals.map fun v => (cellBase (fcId fc.val) + 0x24 + 4 * v.1.val, v.2) }).answer
        p E_OK).settle) ∧
  (∀ (s : State) (p : Port) (fc : Fin 4096) (vals : List (Fin 4 × Word)) (k : Nat), Served s p → s.exists_ (fcId fc.val) = true → k < vals.length →
      (s.stageParams fc.val (vals.take k)).fcParamLegal fc.val (vals.getD k (0, 0)) = false →
    exec (.functionParameterWrite p fc vals) s = .next (s.answer p E_RANGE).settle) ∧
  (∀ (s : State) (fc : Nat) (i : Fin 4) (x : Word), f32IsNaN x = true → s.fcParamLegal fc (i, x) = false) ∧
  (∀ (s : State) (fc : Nat) (i : Fin 4) (x : Word), fcOp (s.cfg (fcId fc) 0) = 0x06 → f32x (s.fcParamsWith fc (i, x) 1) < f32x (s.fcParamsWith fc (i, x) 0) →
    s.fcParamLegal fc (i, x) = false) ∧
  (∀ (s : State) (fc : Nat) (i : Fin 4) (x : Word), fcOp (s.cfg (fcId fc) 0) ∈ [0x0C, 0x25, 0x26, 0x27, 0x28] →
      f32x (s.fcParamsWith fc (i, x) 0) < 0 → s.fcParamLegal fc (i, x) = false)

/-! Loops (04). -/

/-- R133, R139, R141, R142: a mode request, the set-point, a gain and DRESET wait for the boundary; GSEL takes effect at once; values outside their ranges are
E_RANGE with nothing staged; 2 × NCYC short half-cycles raise the detune level up to DMAX and then set OSCLIM; a quiet loop's level falls by one. -/
def Obligations.LoopCommandsAndDetuning : Prop :=
  (∀ (s : State) (p : Port) (lp : Fin 512) (req : BitVec 2), Served s p → s.exists_ (lpId lp.val) = true → req.toNat = 1 →
    exec (.loopModeRequest p lp req) s =
      .next ((s.modFab fun f => { f with staged := f.staged ++ [(cellBase (lpId lp.val) + 0x20, 1)] }).answer p E_OK).settle) ∧
  (∀ (s : State) (p : Port) (lp : Fin 512) (req : BitVec 2), Served s p → s.exists_ (lpId lp.val) = true → req.toNat ≠ 3 →
      (req.toNat = 2 → (s.bind (lpId lp.val) 1).isSome = true ∧ ∃ i, s.lpInput (lpId lp.val) 1 = some i ∧ i.live = true) →
      (req.toNat = 0 → lpKind (s.cfg (lpId lp.val) 0) ≠ 2) →
    exec (.loopModeRequest p lp req) s =
      .next ((s.modFab fun f => { f with staged := f.staged ++ [(cellBase (lpId lp.val) + 0x20, BitVec.ofNat 32 req.toNat)] }).answer p E_OK).settle) ∧
  (∀ (s : State) (p : Port) (lp : Fin 512) (req : BitVec 2), Served s p → s.exists_ (lpId lp.val) = true → req.toNat = 3 →
    exec (.loopModeRequest p lp req) s = .next (s.answer p E_RANGE).settle) ∧
  (∀ (s : State) (p : Port) (lp : Fin 512) (w : Word), Served s p → s.exists_ (lpId lp.val) = true → f32Finite w = true →
      lpSpLo (s.cfg (lpId lp.val) 1) ≤ f32 w → f32 w ≤ lpSpHi (s.cfg (lpId lp.val) 1) →
    exec (.loopStagedWrite p lp [(0x24, w)]) s =
      .next ((s.modFab fun f => { f with staged := f.staged ++ [(cellBase (lpId lp.val) + 0x24, w)] }).answer p E_OK).settle) ∧
  (∀ (s : State) (p : Port) (lp : Fin 512) (ws : List (Nat × Word)), Served s p → (∀ x ∈ ws, loopRegCheck lp.val x.1 x.2 s = E_OK) →
    exec (.loopStagedWrite p lp ws) s =
      .next ((s.modFab fun f => { f with staged := f.staged ++ ws.map fun x =>
        ((if 0x44 ≤ x.1 ∧ x.1 ≤ 0x58 then s.rd (cellBase (lpId lp.val)) Reg.LP_GAIN_GSEL + 1 else 0) * 2 ^ 32 + cellBase (lpId lp.val) + x.1, x.2) }).answer
        p E_OK).settle) ∧
  (∀ (s : State) (p : Port) (lp : Fin 512) (w : Word), Served s p → s.exists_ (lpId lp.val) = true →
      f32 w < lpSpLo (s.cfg (lpId lp.val) 1) →
    exec (.loopStagedWrite p lp [(0x24, w)]) s = .next (s.answer p E_RANGE).settle) ∧
  (∀ (s : State) (p : Port) (lp : Fin 512) (sel : BitVec 3), Served s p → s.exists_ (lpId lp.val) = true → sel.toNat < s.lpNsets (lpId lp.val) →
    exec (.gainSelect p lp sel) s = .next ((s.wr (cellBase (lpId lp.val)) Reg.LP_GAIN_GSEL sel.toNat).answer p E_OK).settle) ∧
  (∀ (s : State) (p : Port) (lp : Fin 512), Served s p → s.exists_ (lpId lp.val) = true →
    exec (.detuneReset p lp) s =
      .next ((s.modFab fun f => { f with staged := f.staged ++ [(cellBase (lpId lp.val) + Reg.LP_GAIN_DRESET.off, BitVec.ofNat 32 (2 ^ Reg.LP_GAIN_DRESET.lo))] }).answer
        p E_OK).settle) ∧
  (∀ (s : State) (p : Port) (lp : Fin 512), Served s p → s.exists_ (lpId lp.val) = false →
    exec (.detuneReset p lp) s = .next (s.answer p E_STATE).settle) ∧
  (∀ (s : State) (lp : Fin 512), recByte (s.cfg (lpId lp.val) 12) 0 = 1 → 2 * recByte (s.cfg (lpId lp.val) 12) 1 ≤ (s.lp lp.val).oscCount →
      s.rd (cellBase (lpId lp.val)) Reg.LP_GAIN_DLEVEL < 7 →
    Answers (.oscillationDetect lp) s fun t =>
      t.rd (cellBase (lpId lp.val)) Reg.LP_OSC_DETECTS = min (s.rd (cellBase (lpId lp.val)) Reg.LP_OSC_DETECTS + 1) 65535 ∧
      (s.rd (cellBase (lpId lp.val)) Reg.LP_GAIN_DLEVEL < recByte (s.cfg (lpId lp.val) 12) 2 →
        t.rd (cellBase (lpId lp.val)) Reg.LP_GAIN_DLEVEL = s.rd (cellBase (lpId lp.val)) Reg.LP_GAIN_DLEVEL + 1) ∧
      (recByte (s.cfg (lpId lp.val) 12) 2 ≤ s.rd (cellBase (lpId lp.val)) Reg.LP_GAIN_DLEVEL →
        t.flag (cellBase (lpId lp.val)) Reg.LP_GAIN_OSCLIM = true ∧
        t.rd (cellBase (lpId lp.val)) Reg.LP_GAIN_DLEVEL = s.rd (cellBase (lpId lp.val)) Reg.LP_GAIN_DLEVEL) ∧
      (t.lp lp.val).oscCount = 0 ∧
      RegsKept [cellBase (lpId lp.val) + Reg.LP_GAIN_DLEVEL.off, cellBase (lpId lp.val) + Reg.LP_OSC_DETECTS.off] s t) ∧
  (∀ (s : State) (lp : Fin 512), 0 < f32 (recWord (s.cfg (lpId lp.val) 12) 16) →
      f32 (recWord (s.cfg (lpId lp.val) 12) 16) ≤ (s.lp lp.val).quiet + s.lpElapsed lp.val →
      0 < s.rd (cellBase (lpId lp.val)) Reg.LP_GAIN_DLEVEL →
    Answers (.detuneRelax lp) s fun t =>
      t.rd (cellBase (lpId lp.val)) Reg.LP_GAIN_DLEVEL = s.rd (cellBase (lpId lp.val)) Reg.LP_GAIN_DLEVEL - 1 ∧
      t.flag (cellBase (lpId lp.val)) Reg.LP_GAIN_OSCLIM = false ∧ (t.lp lp.val).quiet + t.lpElapsed lp.val = 0 ∧
      RegsKept [cellBase (lpId lp.val) + Reg.LP_GAIN_DLEVEL.off, cellBase (lpId lp.val) + Reg.LP_OSC_RELAXES.off] s t)

/-! The phasor engine (05). -/

/-- R153, R157, R158, R160, R161: a window with a gap counts and starts the sets anew; the sync machine arms after its dwell; the permit rises in CLOSING with
its instant and angle recorded and falls to DONE, counted; BLOCK ends an attempt; an event that has been held is picked up; 20 ms without a set is INVALID.
(Readings and choices of the model that it rests on: log entry 89.) -/
def Obligations.PhasorGroupsSynchroniseAndReport : Prop :=
  (∀ (s : State) (g : Fin 4) (m : PhasorMeas), s.exists_ (phId g.val) = true → s.cst (phId g.val) ∉ [csOff, csFault] → (s.ph g.val).old = none →
      (s.takeSamples g.val m).phGap g.val = true →
    Answers (.resultSet g m) s fun t =>
      (t.ph g.val).sets = 0 ∧
      t.rd (cellBase (phId g.val)) Reg.PH_ERR_GAPS = min (s.rd (cellBase (phId g.val)) Reg.PH_ERR_GAPS + 1) 65535 ∧
      RegsKept [cellBase (phId g.val) + Reg.PH_ERR_GAPS.off] s t) ∧
  (∀ (s : State) (g : Fin 4) (m : PhasorMeas), s.exists_ (phId g.val) = true → s.cst (phId g.val) = csRun → (s.ph g.val).old = none →
      (s.takeSamples g.val m).phGap g.val = false → s.phCloseDp g.val = none →
    Answers (.resultSet g m) s fun t =>
      (t.ph g.val).sets = (s.ph g.val).sets + 1 ∧ (t.ph g.val).fresh = true ∧ t.flag (cellBase (phId g.val)) Reg.PH_STATUS_INVALID = false) ∧
  (∀ (s : State) (g : Fin 4) (m : PhasorMeas), s.exists_ (phId g.val) = true → s.cst (phId g.val) ∉ [csOff, csFault] → (s.ph g.val).old = none →
      (s.takeSamples g.val m).phGap g.val = false →
    exec (.resultSet g m) s = .next ((s.takeSamples g.val m).completeSet g.val).settle) ∧
  (∀ (s : State) (g : Fin 4) (m : PhasorMeas), s.exists_ (phId g.val) = true → s.cst (phId g.val) ∈ [csOff, csFault] →
    exec (.resultSet g m) s = .next (s.takeSamples g.val m).settle) ∧
  (∀ (s : State) (g : Fin 4), s.rd (cellBase (phId g.val)) Reg.PH_STATUS_SYNC = syInside → (s.ph g.val).condHeld = true →
      (s.ph g.val).closeReq = true →
      s.dwellNeed g.val (s.ph g.val).dead (f32 (s.rdw (cellBase (phId g.val)) Reg.PH_F_RUN)) ≤ (s.ph g.val).dwell →
    Answers (.syncArm g) s fun t =>
      t.rd (cellBase (phId g.val)) Reg.PH_STATUS_SYNC = syArmed ∧ RegsKept [cellBase (phId g.val) + Reg.PH_STATUS_SYNC.off] s t) ∧
  (∀ (s : State) (g : Fin 4) (cycle : Nat) (adv : Word), s.rd (cellBase (phId g.val)) Reg.PH_STATUS_SYNC = syClosing →
      s.flag (cellBase (phId g.val)) Reg.PH_STATUS_PERMIT = false → (s.ph g.val).edge = some (cycle, adv) →
      (∀ d, (s.ph g.val).closeDp = some d → d < 32) →
    Answers (.permitRise g) s fun t =>
      t.flag (cellBase (phId g.val)) Reg.PH_STATUS_PERMIT = true ∧
      t.rdw (cellBase (phId g.val)) Reg.PH_PT_NS = BitVec.ofNat 32 (s.readingAt cycle % 1000000000) ∧
      t.rdw (cellBase (phId g.val)) Reg.PH_PT_S = BitVec.ofNat 32 (s.readingAt cycle / 1000000000) ∧ t.rdw (cellBase (phId g.val)) Reg.PH_ADV = adv) ∧
  (∀ (s : State) (g : Fin 4), s.rd (cellBase (phId g.val)) Reg.PH_STATUS_SYNC = syClosing →
      s.flag (cellBase (phId g.val)) Reg.PH_STATUS_PERMIT = true → s.cst (phId g.val) = csRun → s.mst = stRun → (s.ph g.val).old = none →
      (∀ d, (s.ph g.val).closeDp = some d → d < 32) →
    Answers (.permitFall g) s fun t =>
      t.flag (cellBase (phId g.val)) Reg.PH_STATUS_PERMIT = false ∧ t.rd (cellBase (phId g.val)) Reg.PH_STATUS_SYNC = syDone ∧
      t.rd (cellBase (phId g.val)) Reg.PH_CNT_CLOSES = min (s.rd (cellBase (phId g.val)) Reg.PH_CNT_CLOSES + 1) 65535 ∧ (t.ph g.val).edge = none) ∧
  (∀ (s : State) (p : Port) (g : Fin 4), Served s p → s.exists_ (phId g.val) = true →
      s.rd (cellBase (phId g.val)) Reg.PH_STATUS_SYNC ∈ [syOutside, syInside, syArmed] →
    exec (.syncBlock p g) s = .next ((s.wr (cellBase (phId g.val)) Reg.PH_STATUS_SYNC syDone).answer p E_OK).settle) ∧
  (∀ (s : State) (p : Port) (g : Fin 4), Served s p → s.rd (cellBase (phId g.val)) Reg.PH_STATUS_SYNC = syClosing →
    exec (.syncBlock p g) s = .next (s.answer p E_STATE).settle) ∧
  (∀ (s : State) (g : Fin 4) (e : Fin 5), s.phThresh g.val e.val ≠ 0 → max 1 (80 * s.phDelay g.val e.val) ≤ (s.ph g.val).evHeld.getD e.val 0 →
      s.rd (cellBase (phId g.val)) Reg.PH_STATUS_EVT / 2 ^ e.val % 2 = 0 →
    Answers (.phasorEventPickup g e) s fun t =>
      t.rd (cellBase (phId g.val)) Reg.PH_STATUS_EVT = s.rd (cellBase (phId g.val)) Reg.PH_STATUS_EVT + 2 ^ e.val ∧
      RegsKept [cellBase (phId g.val) + Reg.PH_STATUS_EVT.off] s t) ∧
  (∀ (s : State) (g : Fin 4),
    exec (.phasorInvalidTimeout g) s =
      .next ((s.setFlag (cellBase (phId g.val)) Reg.PH_STATUS_INVALID true).modPh g.val fun p => { p with stale := true }).settle)

/-! Tocsin (06). -/

/-- R174, R181, R184, R185: in RUN with Tocsin ARMED, an evaluated output in RUN is tripped when its demands reach its K, is no longer tripped without demand
unless it latches, and outside that state is tripped whatever its inputs; a completed scan counts and, with nothing configured and every condition of R184
met, arms Tocsin; a missed scan counts as missed; the scan watchdog, a column fault, a failing matrix CRC or an unreadable word of the matrix, and rails that disagree in two
consecutive scans are TST_FAIL with their subcodes. -/
def Obligations.TocsinScansTripsAndTestsItself : Prop :=
  (∀ (s : State) (dem byp : List Nat) (k : Nat) (r : Record), s.tstate = tsArmed → s.mst = stRun → s.cst (toId k) = csRun → k < 128 →
      s.tripK k r byp ≤ s.tripN k dem byp → (s.evalTripOut dem byp (k, r)).tripped k = true) ∧
  (∀ (s : State) (dem byp : List Nat) (k : Nat) (r : Record), s.tstate = tsArmed → s.mst = stRun → s.cst (toId k) = csRun → k < 128 →
      s.tripN k dem byp < s.tripK k r byp →
      (s.evalTripOut dem byp (k, r)).tripped k = (trLatch r && s.tripped k)) ∧
  (∀ (s : State) (dem byp : List Nat) (k : Nat) (r : Record), s.tstate ≠ tsArmed ∨ s.mst = stSafe → k < 128 →
      (s.evalTripOut dem byp (k, r)).tripped k = true) ∧
  (∀ (s : State) (dem byp : List Nat) (k j : Nat) (r : Record), k < 128 → j < 128 → j ≠ k →
      (s.evalTripOut dem byp (k, r)).tripped j = s.tripped j) ∧
  (∀ (s : State) (ns : BitVec 16) (c r : Bool), s.scanning = true →
    Answers (.tocsinScan ns true c r) s fun t =>
      t.rdw tbBase Reg.TB_SCANCNT = s.rdw tbBase Reg.TB_SCANCNT + 1 ∧
      t.rd tbBase Reg.TB_SCANMAX_MISSED = min (s.rd tbBase Reg.TB_SCANMAX_MISSED + 1) 65535 ∧
      RegsKept [tbBase + Reg.TB_SCANCNT.off, tbBase + Reg.TB_SCANMAX_MISSED.off] s t) ∧
  (∀ (s : State) (ns : BitVec 16), s.scanning = true → s.tstate = tsDisarmed → s.mst = stReady → s.img.committed = true →
      s.flag tbBase Reg.TB_STATUS_STPASS = true → s.flag tbBase Reg.TB_STATUS_DBGFLAG = false → s.toc.safeIn = true → s.causes = 0 →
      s.tripins = [] → s.tripOuts = [] → s.physicalCells = [] → s.toc.inputs = [] → s.toc.resets = [] →
    Answers (.tocsinScan ns false true true) s fun t =>
      t.tstate = tsArmed ∧ t.mst = stReady ∧ t.rdw tbBase Reg.TB_SCANCNT = s.rdw tbBase Reg.TB_SCANCNT + 1) ∧
  (∀ (s : State) (ns : BitVec 16) (c r : Bool), s.scanning = true →
    exec (.tocsinScan ns false c r) s =
      .next (((s.wrw tbBase Reg.TB_SCANCNT (s.rdw tbBase Reg.TB_SCANCNT + 1)).wr tbBase Reg.TB_SCANMAX_EVALNS
        (max (s.rd tbBase Reg.TB_SCANMAX_EVALNS) ns.toNat)).scan c r).settle) ∧
  (∀ (s : State) (ns : BitVec 16), s.scanning = true →
    Answers (.tocsinScan ns false true true) s fun t => t.toc.scanned = true ∧ t.toc.rails = 0) ∧
  (∀ s : State, s.scanning = false → exec (.tocsinScan 0 false true true) s = .next s.settle) ∧
  (∀ s : State, s.mst = stRun → s.tstate = tsArmed →
    Answers .scanWatchdogExpiry s fun t => t.mst = stSafe ∧ t.causeLatched .tstFail = true ∧ t.rd tbBase Reg.TB_CAUSE_SUB = 1 ∧ t.tstate = tsSafe) ∧
  (∀ (s : State) (ns : BitVec 16), s.mst = stRun → s.scanning = true →
    Answers (.tocsinScan ns false false true) s fun t => t.mst = stSafe ∧ t.causeLatched .tstFail = true ∧ t.rd tbBase Reg.TB_CAUSE_SUB = 2) ∧
  (∀ (s : State) (ns : BitVec 16), s.mst = stRun → s.scanning = true → 1 ≤ s.toc.rails →
    Answers (.tocsinScan ns false true false) s fun t => t.mst = stSafe ∧ t.causeLatched .tstFail = true ∧ t.rd tbBase Reg.TB_CAUSE_SUB = 4) ∧
  (∀ (s : State) (ns : BitVec 16), s.mst = stRun → s.scanning = true → s.toc.rails = 0 →
    Answers (.tocsinScan ns false true false) s fun t => t.mst = stRun ∧ t.toc.rails = 1 ∧ t.causes = s.causes) ∧
  (∀ (s : State) (ok : Bool), s.mst = stRun → s.scanning = true → (ok = false ∨ s.toc.matrixBad = true) →
    Answers (.matrixCrcCheck ok) s fun t => t.mst = stSafe ∧ t.causeLatched .tstFail = true ∧ t.rd tbBase Reg.TB_CAUSE_SUB = 3) ∧
  (∀ s : State, s.toc.matrixBad = false → exec (.matrixCrcCheck true) s = .next s.settle)

/-- R167, R169–R171: a PDU with a wrong CRC and one of an unknown connection only count; a valid connection that times out is invalid; a transmitted
connection hands its PDU to the safety class with the next sequence number. -/
def Obligations.SafetyConnectionsReceiveAndSend : Prop :=
  (∀ (s : State) (pdu : BitVec 128), pduCrc pdu ≠ pduCrcField pdu →
    exec (.safetyPduReceive pdu) s = .next (s.bump tbBase Reg.TB_SCFAIL_CRCERR).settle) ∧
  (∀ (s : State) (pdu : BitVec 128), pduCrc pdu = pduCrcField pdu → pduFlags pdu < 2 → pduRes pdu = 0 → s.connRecs (pduConn pdu) = [] →
    exec (.safetyPduReceive pdu) s = .next (s.bump tbBase Reg.TB_SCFAIL_UNKNOWN).settle) ∧
  (∀ (s : State) (pdu : BitVec 128) (r : Record) (l : List Record), pduCrc pdu = pduCrcField pdu → pduFlags pdu < 2 → pduRes pdu = 0 →
      s.connRecs (pduConn pdu) = r :: l → (s.conn (pduConn pdu)).seen = true →
      0 < (BitVec.ofNat 16 (pduSeq pdu) - (s.conn (pduConn pdu)).lastSeq).toNat →
      (BitVec.ofNat 16 (pduSeq pdu) - (s.conn (pduConn pdu)).lastSeq).toNat ≤ tiSeqWin r →
    Answers (.safetyPduReceive pdu) s fun t =>
      (t.conn (pduConn pdu)).bits = BitVec.ofNat 32 (pduBits pdu) ∧ (t.conn (pduConn pdu)).lastSeq = BitVec.ofNat 16 (pduSeq pdu) ∧
      (t.conn (pduConn pdu)).valid = ((s.conn (pduConn pdu)).valid || (s.conn (pduConn pdu)).chained) ∧ RegsKept [] s t) ∧
  (∀ (s : State) (id : BitVec 32), (s.conn id.toNat).valid = true →
    Answers (.safetyConnectionTimeout id) s fun t =>
      (t.conn id.toNat).valid = false ∧ (t.conn id.toNat).timeouts = sat16 (s.conn id.toNat).timeouts ∧ (t.conn id.toNat).bits = (s.conn id.toNat).bits ∧
      RegsKept [] s t) ∧
  (∀ (s : State) (n : Fin 8) (k : Nat) (r : Record) (l : List (Nat × Record)), s.txOuts n.val = (k, r) :: l → s.scanning = true →
      recU16 (getRec s.img.active T_TRIP 3 (toId k)) 4 ≤ (Store.get (0, 0) s.toc.tx n.val).2 → s.link .up ≠ 2 → s.link .down ≠ 2 →
    Answers (.safetyPduSend n) s fun t =>
      t.net.outPdus = s.net.outPdus ++ [s.buildPdu (recU32 (getRec s.img.active T_TRIP 3 (toId k)) 0) (Store.get (0, 0) s.toc.tx n.val).1.toNat ((k, r) :: l)] ∧
      (Store.get (0, 0) t.toc.tx n.val).1 = (Store.get (0, 0) s.toc.tx n.val).1 + 1 ∧ RegsKept [] s t) ∧
  (∀ (s : State) (n : Fin 8) (k : Nat) (r : Record) (l : List (Nat × Record)), s.txOuts n.val = (k, r) :: l → s.scanning = true →
      recU16 (getRec s.img.active T_TRIP 3 (toId k)) 4 ≤ (Store.get (0, 0) s.toc.tx n.val).2 →
    Answers (.safetyPduSend n) s fun t =>
      t.net.outPdus = s.net.outPdus ++ [s.buildPdu (recU32 (getRec s.img.active T_TRIP 3 (toId k)) 0) (Store.get (0, 0) s.toc.tx n.val).1.toNat ((k, r) :: l)] ∧
      Store.get (0, 0) t.toc.tx n.val = ((Store.get (0, 0) s.toc.tx n.val).1 + 1, 0))

/-- R178, R179, R189, R503: a trip reset waits for the next scan; a bypass is granted in RUN or SERVICE through the service port within its limit and ends when it
runs out; an input that is not configured or a time beyond the limit is E_RANGE, and an input without bypass E_LOCKED; ACK
clears SAFE_IN once the input is high; RETEST runs in SAFE and its pass clears TST_FAIL; in other states these are E_STATE.
(Readings and choices of the model that it rests on: log entries 77, 78.) -/
def Obligations.ResetsBypassesAndAcknowledgements : Prop :=
  (∀ (s : State) (p : Port) (o : Fin 128), Served s p → s.exists_ (toId o.val) = true → s.scanning = true →
    exec (.tripReset p o) s = .next (s.modToc fun t => { t with resets := t.resets ++ [(o.val, some p)] }).settle) ∧
  (∀ (s : State) (p : Port) (o : Fin 128), Served s p → s.exists_ (toId o.val) = false →
    exec (.tripReset p o) s = .next (s.answer p E_STATE).settle) ∧
  (∀ (s : State) (r : Record) (secs : BitVec 16), Served s .service → s.mst ∈ [stRun, stService] → s.tripin (s.rd tbBase Reg.TB_TISEL_INPUT) = some r →
      tiBypMax r ≠ 0 → 0 < secs.toNat → secs.toNat ≤ 60 * tiBypMax r → s.bypassed = [] →
    Answers (.bypass .service secs) s fun t =>
      (t.tin (s.rd tbBase Reg.TB_TISEL_INPUT)).bypass = some (s.time.cycles + secs.toNat * 500000000) ∧
      t.outbox = s.outbox ++ [.result .service E_OK] ∧ t.mst = s.mst) ∧
  (∀ (s : State) (p : Port) (secs : BitVec 16), Served s p → p ≠ .service → exec (.bypass p secs) s = .next (s.answer p E_ACCESS).settle) ∧
  (∀ (s : State) (secs : BitVec 16), Served s .service → s.mst ∉ [stRun, stService] → exec (.bypass .service secs) s = .next (s.answer .service E_STATE).settle) ∧
  (∀ (s : State) (secs : BitVec 16), Served s .service → s.mst ∈ [stRun, stService] →
      (s.tripin (s.rd tbBase Reg.TB_TISEL_INPUT)).all (fun r => tiBypMax r != 0 && decide (60 * tiBypMax r < secs.toNat)) = true →
    exec (.bypass .service secs) s = .next (s.answer .service E_RANGE).settle) ∧
  (∀ (s : State) (r : Record) (secs : BitVec 16), Served s .service → s.mst ∈ [stRun, stService] →
      s.tripin (s.rd tbBase Reg.TB_TISEL_INPUT) = some r → tiBypMax r = 0 →
    exec (.bypass .service secs) s = .next (s.answer .service E_LOCKED).settle) ∧
  (∀ (s : State) (i : Fin 256), (s.tin i.val).bypass.isSome = true →
    Answers (.bypassExpiry i) s fun t => (t.tin i.val).bypass = none ∧ t.mst = s.mst) ∧
  (∀ (s : State) (p : Port), Served s p → s.causeLatched .safeIn = true → s.toc.safeIn = true → s.causeLatched .dormantCp0 = false →
    Answers (.causeAck p) s fun t => t.causeLatched .safeIn = false ∧ t.outbox = s.outbox ++ [.result p E_OK] ∧ t.mst = s.mst) ∧
  (∀ (s : State) (p : Port), Served s p → s.causes = 0 → exec (.causeAck p) s = .next (s.answer p E_STATE).settle) ∧
  (∀ (s : State) (p : Port), Served s p → s.mst = stSafe → s.flag tbBase Reg.TB_STATUS_RETESTING = false →
    exec (.retest p) s = .next ((s.setFlag tbBase Reg.TB_STATUS_RETESTING true).answer p E_OK).settle) ∧
  (∀ (s : State) (p : Port), Served s p → s.mst ≠ stSafe → exec (.retest p) s = .next (s.answer p E_STATE).settle) ∧
  (∀ s : State, s.flag tbBase Reg.TB_STATUS_RETESTING = true → s.rd tbBase Reg.TB_CAUSE_SUB ≠ 5 → s.flag (cpBase 0) Reg.CP_STATUS_SPLIT = false →
    Answers (.retestComplete 0) s fun t =>
      t.flag tbBase Reg.TB_STATUS_RETESTING = false ∧ t.flag tbBase Reg.TB_STATUS_STPASS = true ∧ t.causeLatched .tstFail = false ∧ t.mst = s.mst)

/-! Universal channels (07). -/

/-- R206, R207, R213, R214: a result inside the valid band of a voltage input is scaled to engineering units with quality GOOD; an open loop is a sensor fault,
counted; a failed reference holds the value and is an error; a compliance limit is entered, counted, and left; a stage fault, and a supply or an output's temperature out of
tolerance, isolate the channel and switch its output off; the cause is absent once it is back, but for a channel whose start-up check failed.
(Readings and choices of the model that it rests on: log entries 16, 90.) -/
def Obligations.ChannelResultsAndChannelFaults : Prop :=
  (∀ (s : State) (uc : Fin 32) (e aux cj : Word) (o l : Bool), s.exists_ (ucId uc.val) = true → s.ucFunc uc.val = 1 → s.ucRange uc.val = 1 →
      s.ucWave uc.val = false → s.ucNe43 uc.val = false → s.ucHart uc.val = false → s.ucChar uc.val = 0 → s.cst (ucId uc.val) = csRun →
      s.flag (cellBase (ucId uc.val)) Reg.UC_TRIM_STAT_ACTIVE = false → s.flag (cellBase (ucId uc.val)) Reg.UC_STATUS_FCALBAD = false →
      (s.uc uc.val).sensorBad = false → -(dec 2 1) ≤ f32 e → f32 e ≤ dec 102 1 → s.mst ≠ stPfail → s.ucAbandoned uc.val = false →
    Answers (.converterResult uc e aux cj o l) s fun t =>
      (t.uc uc.val).value = toF32c (s.ucEuLo uc.val + f32 e / 10 * (s.ucEuHi uc.val - s.ucEuLo uc.val)) ∧ (t.uc uc.val).qual = Q_GOOD ∧
      (t.uc uc.val).fresh = true ∧ t.rdw (cellBase (ucId uc.val)) Reg.UC_RAW = toF32c (f32 e) ∧ t.cst (ucId uc.val) = csRun) ∧
  (∀ (s : State) (uc : Fin 32) (e aux cj : Word) (o l : Bool), s.exists_ (ucId uc.val) = true → s.cst (ucId uc.val) ≠ csFault → s.ucOutput uc.val = false →
      s.mst ≠ stPfail → s.ucAbandoned uc.val = false →
    exec (.converterResult uc e aux cj o l) s = .next (s.inputResult uc.val e aux cj o l).settle) ∧
  (∀ (s : State) (uc : Fin 32) (e aux cj : Word) (o l : Bool), s.exists_ (ucId uc.val) = true → s.cst (ucId uc.val) ≠ csFault → s.ucOutput uc.val = true →
      s.mst ≠ stPfail → s.ucAbandoned uc.val = false →
    Answers (.converterResult uc e aux cj o l) s fun t =>
      (t.uc uc.val).value = toF32c (s.ucEngineering uc.val (f32 e)) ∧ (t.uc uc.val).aux = e ∧ (t.uc uc.val).qual = Q_GOOD ∧ (t.uc uc.val).fresh = true ∧
      t.cst (ucId uc.val) = s.cst (ucId uc.val)) ∧
  (∀ (s : State) (uc : Fin 32), s.exists_ (ucId uc.val) = true → s.ucFunc uc.val = 4 → s.cst (ucId uc.val) = csRun → (s.uc uc.val).sensorBad = false → s.mst ≠ stPfail →
    Answers (.burnOutTest uc true) s fun t =>
      t.flag (cellBase (ucId uc.val)) Reg.UC_STATUS_OPEN = true ∧ (t.uc uc.val).sensorBad = true ∧ (t.uc uc.val).qual = Q_BAD_SENSOR ∧
      t.rd (cellBase (ucId uc.val)) Reg.UC_CNT_SENSOR = min (s.rd (cellBase (ucId uc.val)) Reg.UC_CNT_SENSOR + 1) 65535 ∧
      RegsKept [cellBase (ucId uc.val) + Reg.UC_STATUS_OPEN.off, cellBase (ucId uc.val) + Reg.UC_CNT_SENSOR.off] s t) ∧
  (∀ (s : State) (uc : Fin 32) (last : Nat → Word → Word), s.exists_ (ucId uc.val) = true → s.cst (ucId uc.val) ∉ [csOff, csFault] → s.mst ≠ stPfail →
      (∀ n w, last n w = ((Store.get none s.fab.ports (ucId uc.val * 16 + n)).map SigWord.val).getD w) →
    exec (.referenceSelfCheck uc false) s =
      .next ((((s.modUc uc.val fun u => { u with fresh := false, qual := Q_HELD, value := last 0 u.value, aux := last 1 u.aux }).evalEnd
        (ucId uc.val) true).driveUc uc.val).settle)) ∧
  (∀ (s : State) (uc : Fin 32), exec (.referenceSelfCheck uc true) s = .next s.settle) ∧
  (∀ (s : State) (uc : Fin 32), s.exists_ (ucId uc.val) = true → s.cst (ucId uc.val) = csRun → (s.cell (ucId uc.val)).errHist = [] → s.mst ≠ stPfail →
    Answers (.referenceSelfCheck uc false) s fun t =>
      (t.uc uc.val).fresh = false ∧ (t.uc uc.val).qual = Q_HELD ∧ t.cst (ucId uc.val) = csRun ∧
      t.rd (cellBase (ucId uc.val)) Reg.CELL_ERR_ERRORS =
        min (s.rd (cellBase (ucId uc.val)) Reg.CELL_ERR_ERRORS + 1) (2 ^ Reg.CELL_ERR_ERRORS.width - 1)) ∧
  (∀ (s : State) (uc : Fin 32) (h : Bool) (rb : Word), s.exists_ (ucId uc.val) = true → s.ucOutput uc.val = true → s.mst ≠ stPfail →
    Answers (.complianceSample uc h rb) s fun t =>
      t.flag (cellBase (ucId uc.val)) Reg.UC_STATUS_HDRLOW = h ∧ (t.uc uc.val).readback = rb ∧
      RegsKept [cellBase (ucId uc.val) + Reg.UC_STATUS_HDRLOW.off] s t) ∧
  (∀ (s : State) (uc : Fin 32), s.exists_ (ucId uc.val) = true → s.ucOutput uc.val = true →
      s.flag (cellBase (ucId uc.val)) Reg.UC_STATUS_COMPL = false → s.flag (cellBase (ucId uc.val)) Reg.UC_STATUS_HDRLOW = true →
      (s.uc uc.val).shortfall = true →
    Answers (.complianceEntry uc) s fun t =>
      t.flag (cellBase (ucId uc.val)) Reg.UC_STATUS_COMPL = true ∧
      t.rd (cellBase (ucId uc.val)) Reg.UC_CNT_COMPLS = min (s.rd (cellBase (ucId uc.val)) Reg.UC_CNT_COMPLS + 1) 65535) ∧
  (∀ (s : State) (uc : Fin 32), s.flag (cellBase (ucId uc.val)) Reg.UC_STATUS_COMPL = true → (s.uc uc.val).shortfall = false →
    exec (.complianceExit uc) s = .next (s.setFlag (cellBase (ucId uc.val)) Reg.UC_STATUS_COMPL false).settle) ∧
  (∀ (s : State) (uc : Fin 32), s.exists_ (ucId uc.val) = true → s.ucFunc uc.val = 6 →
      s.flag (cellBase (ucId uc.val)) Reg.UC_STATUS_HDRLOW = true → 1 ≤ f32 (s.rdw (cellBase (ucId uc.val)) Reg.UC_DRIVE) →
    Answers (.outputOpenLoop uc) s fun t =>
      t.flag (cellBase (ucId uc.val)) Reg.UC_STATUS_OPEN = true ∧ (t.uc uc.val).sensorBad = true ∧ (t.uc uc.val).cmd = (s.uc uc.val).cmd) ∧
  (∀ (s : State) (uc : Fin 32), s.exists_ (ucId uc.val) = true → s.ucOutput uc.val = true → s.cst (ucId uc.val) = csRun →
      s.flag (cellBase (ucId uc.val)) Reg.UC_STATUS_HDRLOW = false →
    Answers (.outputStageFault uc) s fun t =>
      t.cst (ucId uc.val) = csFault ∧ t.flag (cellBase (ucId uc.val)) Reg.CELL_STATE_ISOL = true ∧
      t.rdw (cellBase (ucId uc.val)) Reg.UC_DRIVE = 0 ∧ (t.uc uc.val).on = false) ∧
  (∀ (s : State) (uc : Fin 32) (hot : Bool), s.exists_ (ucId uc.val) = true → s.cst (ucId uc.val) = csRun → (hot = true → s.ucOutput uc.val = true) →
    Answers (.channelSupplyFailure uc ⟨hot, true⟩) s fun t =>
      t.cst (ucId uc.val) = csFault ∧ t.flag (cellBase (ucId uc.val)) Reg.CELL_STATE_ISOL = true ∧ (t.uc uc.val).stageBad = true ∧
      (t.cell (ucId uc.val)).cause = true ∧
      (s.ucOutput uc.val = true → t.rdw (cellBase (ucId uc.val)) Reg.UC_DRIVE = 0 ∧ (t.uc uc.val).on = false)) ∧
  (∀ (s : State) (uc : Fin 32) (present : Bool), s.ucOutput uc.val = false → exec (.channelSupplyFailure uc ⟨true, present⟩) s = .next s.settle) ∧
  (∀ (s : State) (uc : Fin 32) (hot : Bool), s.exists_ (ucId uc.val) = true → s.cst (ucId uc.val) = csFault → (s.cell (ucId uc.val)).cause = true →
      (hot = true → s.ucOutput uc.val = true) →
    Answers (.channelSupplyFailure uc ⟨hot, false⟩) s fun t =>
      t.cst (ucId uc.val) = csFault ∧ (t.cell (ucId uc.val)).cause = s.startFailed (ucId uc.val) ∧ RegsKept [] s t)

/-- R218, R219, R221: a poll sends Command 3, after Command 0 to a device not yet identified; a reply clears the misses and gives its primary variable; a
missing one counts; a pass-through request without GO changes the fields, with GO it is sent, and its completion gives DONE or FAILED. -/
def Obligations.HartPollsRepliesAndRequests : Prop :=
  (∀ (s : State) (uc : Fin 32) (dev : Fin 4), s.hartActive uc.val dev.val = true → (s.uc uc.val).ident.getD dev.val false = true →
    exec (.hartPoll uc dev) s = .next (s.emit (.hart uc.val dev.val 3 [])).settle) ∧
  (∀ (s : State) (uc : Fin 32) (dev : Fin 4), s.hartActive uc.val dev.val = true → (s.uc uc.val).ident.getD dev.val false = false →
    Answers (.hartPoll uc dev) s fun t => t.outbox = s.outbox ++ [.hart uc.val dev.val 0 [], .hart uc.val dev.val 3 []] ∧ RegsKept [] s t) ∧
  (∀ (s : State) (uc : Fin 32) (w : Word) (r : HartReply), s.hartActive uc.val 0 = true → s.ucMultidrop uc.val = false → r.burst = false →
      r.badFrames = 0 → r.malfunction = false → r.pvOutOfLimits = false → r.vars = [some w, none, none, none] → f32Finite w = true →
      (s.uc uc.val).hartPorts.length = 4 →
    Answers (.hartReply uc 0 r) s fun t =>
      (t.uc uc.val).miss.getD 0 0 = 0 ∧ (t.uc uc.val).hartPorts.getD 0 none = some ⟨w, Q_GOOD, 0, 0⟩ ∧
      (t.uc uc.val).hartPorts.getD 1 none = (s.uc uc.val).hartPorts.getD 1 none ∧ t.outbox = s.outbox) ∧
  (∀ (s : State) (uc : Fin 32) (dev : Fin 4) (r : HartReply), s.hartActive uc.val dev.val = true → (r.burst = true → s.ucBurst uc.val = true) →
      (s.uc uc.val).hartPorts.length = 4 →
    Answers (.hartReply uc dev r) s fun t =>
      (r.burst = false → (t.uc uc.val).miss.getD dev.val 0 = 0) ∧ t.outbox = s.outbox ∧
      t.rd (cellBase (ucId uc.val)) Reg.UC_HCNT_COMMERR =
        min (s.rd (cellBase (ucId uc.val)) Reg.UC_HCNT_COMMERR + r.badFrames.toNat) (2 ^ Reg.UC_HCNT_COMMERR.width - 1) ∧
      ∀ pv ∈ s.hartFeeds uc.val dev.val, ∀ w, r.vars.getD pv.2 none = some w → f32Finite w = true →
        (t.uc uc.val).hartPorts.getD pv.1 none = some ⟨w, if r.malfunction then Q_BAD_SENSOR
          else if (if pv.1 = 0 then r.pvOutOfLimits else r.nonPvOutOfLimits) then Q_UNCERTAIN else Q_GOOD, 0, 0⟩) ∧
  (∀ (s : State) (uc : Fin 32) (dev : Fin 4), s.hartActive uc.val dev.val = true → (s.uc uc.val).miss.length = 4 →
    Answers (.hartNoReply uc dev 0) s fun t =>
      (t.uc uc.val).miss.getD dev.val 0 = (s.uc uc.val).miss.getD dev.val 0 + 1 ∧ (t.uc uc.val).ident.getD dev.val false = false ∧
      t.rd (cellBase (ucId uc.val)) Reg.UC_HCNT_NORESP = min (s.rd (cellBase (ucId uc.val)) Reg.UC_HCNT_NORESP + 1) 65535) ∧
  (∀ (s : State) (uc : Fin 32) (dev : Fin 4) (bad : BitVec 2), s.hartActive uc.val dev.val = true → (s.uc uc.val).hartPorts.length = 4 →
    Answers (.hartNoReply uc dev bad) s fun t =>
      (t.uc uc.val).ident.getD dev.val false = false ∧ t.outbox = s.outbox ∧
      t.rd (cellBase (ucId uc.val)) Reg.UC_HCNT_NORESP = min (s.rd (cellBase (ucId uc.val)) Reg.UC_HCNT_NORESP + 1) 65535 ∧
      ∀ pv ∈ s.hartFeeds uc.val dev.val,
        ((t.uc uc.val).hartPorts.getD pv.1 none).map SigWord.qual = some (if (s.uc uc.val).miss.getD dev.val 0 < 2 then Q_HELD else Q_BAD_COMM)) ∧
  (∀ (s : State) (p : Port) (uc : Fin 32) (req : Word), Served s p → s.exists_ (ucId uc.val) = true → getField req 31 1 = 0 → getField req 24 7 = 0 →
      getField req 16 2 < s.ucNdev uc.val → getField req 18 6 ≤ 32 →
    exec (.hartRequest p uc req []) s =
      .next ((s.setReg (cellBase (ucId uc.val) + 0x60) (BitVec.ofNat 32 (getField req 0 24))).answer p E_OK).settle) ∧
  (∀ (s : State) (p : Port) (uc : Fin 32) (req : Word) (data : List (Fin 8 × Word)), Served s p → s.exists_ (ucId uc.val) = true → getField req 31 1 = 0 →
      getField req 24 7 = 0 → getField req 16 2 < s.ucNdev uc.val → getField req 18 6 ≤ 32 →
      (data = [] ∨ s.rd (cellBase (ucId uc.val)) Reg.HART_RSP_STATE ≠ 1) →
    exec (.hartRequest p uc req data) s =
      .next (((data.foldl (fun s d => s.setReg (cellBase (ucId uc.val) + 0x68 + 4 * d.1.val) d.2) s).setReg (cellBase (ucId uc.val) + 0x60)
        (BitVec.ofNat 32 (getField req 0 24))).answer p E_OK).settle) ∧
  (∀ (s : State) (p : Port) (uc : Fin 32) (req : Word) (data : List (Fin 8 × Word)), Served s p → s.exists_ (ucId uc.val) = true →
      s.ucHart uc.val = true → s.mst ∈ [stReady, stRun, stService] → s.rd (cellBase (ucId uc.val)) Reg.HART_RSP_STATE ≠ 1 → getField req 31 1 = 1 →
      getField req 24 7 = 0 → getField req 16 2 < s.ucNdev uc.val → getField req 18 6 ≤ 32 → s.dutyUp 3 = true →
    Answers (.hartRequest p uc req data) s fun t =>
      t.rd (cellBase (ucId uc.val)) Reg.HART_RSP_STATE = 1 ∧
      t.outbox = s.outbox ++ [.hart uc.val (getField req 16 2) (getField req 0 16)
        ((wordBytes ((List.range 8).map fun i =>
          (data.foldl (fun s d => s.setReg (cellBase (ucId uc.val) + 0x68 + 4 * d.1.val) d.2) s).reg (cellBase (ucId uc.val) + 0x68 + 4 * i))).take
            (getField req 18 6)), .result p E_OK]) ∧
  (∀ (s : State) (p : Port) (uc : Fin 32) (req : Word), Served s p → s.exists_ (ucId uc.val) = true → s.ucHart uc.val = true → s.dutyUp 3 = true →
      s.mst ∈ [stReady, stRun, stService] → s.rd (cellBase (ucId uc.val)) Reg.HART_RSP_STATE ≠ 1 → getField req 31 1 = 1 → getField req 24 7 = 0 →
      getField req 16 2 < s.ucNdev uc.val → getField req 18 6 = 0 →
    Answers (.hartRequest p uc req []) s fun t =>
      t.rd (cellBase (ucId uc.val)) Reg.HART_RSP_STATE = 1 ∧
      t.outbox = s.outbox ++ [.hart uc.val (getField req 16 2) (getField req 0 16) [], .result p E_OK]) ∧
  (∀ (s : State) (p : Port) (uc : Fin 32) (req : Word), Served s p → s.exists_ (ucId uc.val) = false →
    exec (.hartRequest p uc req []) s = .next (s.answer p E_STATE).settle) ∧
  (∀ (s : State) (uc : Fin 32) (bad : BitVec 2) (rc ds : Byte) (data : List Byte), s.rd (cellBase (ucId uc.val)) Reg.HART_RSP_STATE = 1 → s.dutyUp 3 = true →
      data.length ≤ 32 →
    Answers (.hartPassThroughComplete uc ⟨true, bad⟩ rc ds data) s fun t =>
      t.rd (cellBase (ucId uc.val)) Reg.UC_HCNT_COMMERR =
        min (s.rd (cellBase (ucId uc.val)) Reg.UC_HCNT_COMMERR + bad.toNat) (2 ^ Reg.UC_HCNT_COMMERR.width - 1) ∧
      t.rd (cellBase (ucId uc.val)) Reg.HART_RSP_STATE = 2 ∧ t.rd (cellBase (ucId uc.val)) Reg.HART_RSP_RC = rc.toNat ∧
      t.rd (cellBase (ucId uc.val)) Reg.HART_RSP_DSTAT = ds.toNat ∧ t.rd (cellBase (ucId uc.val)) Reg.HART_RSP_LEN = data.length ∧
      t.reg (cellBase (ucId uc.val) + 0x68) = bytesWord data 0) ∧
  (∀ (s : State) (uc : Fin 32) (bad : BitVec 2) (rc ds : Byte), s.rd (cellBase (ucId uc.val)) Reg.HART_RSP_STATE = 1 → s.dutyUp 3 = true →
    exec (.hartPassThroughComplete uc ⟨false, bad⟩ rc ds []) s =
      .next ((s.bumpBy (cellBase (ucId uc.val)) Reg.UC_HCNT_COMMERR bad.toNat).wr (cellBase (ucId uc.val)) Reg.HART_RSP_STATE 3).settle)

/-- R222: through the service port, where the rows of R222 find nothing against it, CAPLO and CAPHI record the mean of the last results with the reference, APPLY
stores gain and offset and forgets both points, CLEAR removes the stored trim, DISCARD the points; what the journal does not take is E_NV_FAIL; NOP does nothing;
other ports are E_ACCESS.
(Readings and choices of the model that it rests on: log entries 16, 142.) -/
def Obligations.TrimsAreCapturedAppliedAndCleared : Prop :=
  (∀ (s : State) (uc : Fin 32), Served s .service → s.exists_ (ucId uc.val) = true → s.trimCheck .service uc.val .caplo = none →
      s.ucOutput uc.val = false → (s.uc uc.val).raws ≠ [] →
    Answers (.trimCaplo .service uc) s fun t =>
      (t.uc uc.val).capLo = some (toF32c (((s.uc uc.val).raws.map f32).sum / ((s.uc uc.val).raws.length : Rat)),
        s.rdw (cellBase (ucId uc.val)) Reg.UC_TRIM_REF) ∧ (t.uc uc.val).capHi = (s.uc uc.val).capHi ∧
      t.flag (cellBase (ucId uc.val)) Reg.UC_TRIM_STAT_CAPLO = true ∧ t.outbox = s.outbox ++ [.result .service E_OK]) ∧
  (∀ (s : State) (uc : Fin 32), Served s .service → s.exists_ (ucId uc.val) = true → s.trimCheck .service uc.val .caphi = none →
      s.ucOutput uc.val = false → (s.uc uc.val).raws ≠ [] →
    Answers (.trimCaphi .service uc) s fun t =>
      (t.uc uc.val).capHi = some (toF32c (((s.uc uc.val).raws.map f32).sum / ((s.uc uc.val).raws.length : Rat)),
        s.rdw (cellBase (ucId uc.val)) Reg.UC_TRIM_REF) ∧ (t.uc uc.val).capLo = (s.uc uc.val).capLo ∧
      t.flag (cellBase (ucId uc.val)) Reg.UC_TRIM_STAT_CAPHI = true ∧ t.outbox = s.outbox ++ [.result .service E_OK]) ∧
  (∀ (s : State) (uc : Fin 32) (lo hi : Word × Word) (g o : Rat), Served s .service → s.exists_ (ucId uc.val) = true →
      s.trimCheck .service uc.val .apply = none → (s.uc uc.val).capLo = some lo → (s.uc uc.val).capHi = some hi →
      s.trimOf uc.val lo hi = some (g, o) → JournalTakes s (s.trimHome uc.val) →
    Answers (.trimApply .service uc .clean) s fun t =>
      Store.get none t.jrn.trims (s.trimKey uc.val) = some (toF32c g, toF32c o) ∧ (t.uc uc.val).capLo = none ∧ (t.uc uc.val).capHi = none ∧
      t.outbox = s.outbox ++ [.result .service E_OK]) ∧
  (∀ (s : State) (uc : Fin 32), Served s .service → s.exists_ (ucId uc.val) = true → s.trimCheck .service uc.val .clear = none →
      JournalTakes s (s.trimHome uc.val) →
    Answers (.trimClear .service uc .clean) s fun t =>
      t.jrn.trims = Store.set none s.jrn.trims (s.trimKey uc.val) none ∧ t.uc uc.val = s.uc uc.val ∧ t.outbox = s.outbox ++ [.result .service E_OK] ∧
      RegsKept journalRegs s t) ∧
  (∀ (s : State) (uc : Fin 32) (op : TrimOp) (o : NvOutcome), Served s .service → s.exists_ (ucId uc.val) = true → s.trimCheck .service uc.val op = none →
      (s.commitTxn (s.trimHome uc.val) o).1 ≠ E_OK →
    (op = .apply → Answers (.trimApply .service uc o) s fun t => t.jrn.trims = s.jrn.trims ∧ t.outbox = s.outbox ++ [.result .service E_NV_FAIL]) ∧
    (op = .clear → Answers (.trimClear .service uc o) s fun t => t.jrn.trims = s.jrn.trims ∧ t.outbox = s.outbox ++ [.result .service E_NV_FAIL])) ∧
  (∀ (s : State) (uc : Fin 32), Served s .service → s.exists_ (ucId uc.val) = true → s.trimCheck .service uc.val .discard = none →
    Answers (.trimDiscard .service uc) s fun t =>
      (t.uc uc.val).capLo = none ∧ (t.uc uc.val).capHi = none ∧ t.flag (cellBase (ucId uc.val)) Reg.UC_TRIM_STAT_CAPLO = false ∧
      t.flag (cellBase (ucId uc.val)) Reg.UC_TRIM_STAT_CAPHI = false ∧ t.jrn = s.jrn) ∧
  (∀ (s : State) (p : Port) (uc : Fin 32), Served s p → s.exists_ (ucId uc.val) = true → exec (.trimNop p uc) s = .next (s.answer p E_OK).settle) ∧
  (∀ (s : State) (p : Port) (uc : Fin 32) (o : NvOutcome), Served s p → p ≠ .service →
    exec (.trimCaplo p uc) s = .next (s.answer p E_ACCESS).settle ∧ exec (.trimCaphi p uc) s = .next (s.answer p E_ACCESS).settle ∧
    exec (.trimApply p uc o) s = .next (s.answer p E_ACCESS).settle ∧ exec (.trimClear p uc o) s = .next (s.answer p E_ACCESS).settle ∧
    exec (.trimDiscard p uc) s = .next (s.answer p E_ACCESS).settle)

/-! Digital points (08). -/

/-- R227, R235, R236: a settled input shows its level and counts its rising edges; a supply sample shows; LOW and MISSING are counted once, shown, and clear; the
restore after a shed waits for the boundary; REARM of a held-off point is taken. -/
def Obligations.PointInputsAndFieldSupply : Prop :=
  (∀ (s : State) (dp : Fin 32), s.mst ≠ stPfail → s.dpInput dp.val = true → (s.dp dp.val).settled = true → s.flag (cellBase (dpId dp.val)) Reg.DP_STATUS_IN = false →
    Answers (.inputFilterSettle dp true) s fun t =>
      t.flag (cellBase (dpId dp.val)) Reg.DP_STATUS_IN = true ∧
      t.rdw (cellBase (dpId dp.val)) Reg.DP_EDGES = s.rdw (cellBase (dpId dp.val)) Reg.DP_EDGES + 1 ∧ (t.dp dp.val).settled = true ∧
      RegsKept [cellBase (dpId dp.val) + Reg.DP_STATUS_IN.off, cellBase (dpId dp.val) + Reg.DP_EDGES.off] s t) ∧
  (∀ (s : State) (dp : Fin 32), s.mst ≠ stPfail → s.dpInput dp.val = true →
    Answers (.inputFilterSettle dp false) s fun t =>
      t.flag (cellBase (dpId dp.val)) Reg.DP_STATUS_IN = false ∧ (t.dp dp.val).settled = true ∧
      RegsKept [cellBase (dpId dp.val) + Reg.DP_STATUS_IN.off] s t) ∧
  (∀ (s : State) (db : Fin 4) (v : Word) (terms hot : BitVec 8) (amps : List Word), s.mst ≠ stPfail →
    Answers (.fieldSupplySample db v ⟨terms, hot⟩ amps) s fun t => t.rdw (dbBase db.val) Reg.DB_FSV = v ∧ t.mst = s.mst) ∧
  (∀ (s : State) (db : Fin 4), s.flag (dbBase db.val) Reg.DB_FS_LOW = false →
    Answers (.fieldSupplyConditionSet db .low) s fun t =>
      t.flag (dbBase db.val) Reg.DB_FS_LOW = true ∧
      t.rd (dbBase db.val) Reg.DB_CNT_LOWS = min (s.rd (dbBase db.val) Reg.DB_CNT_LOWS + 1) (2 ^ Reg.DB_CNT_LOWS.width - 1)) ∧
  (∀ (s : State) (db : Fin 4), s.flag (dbBase db.val) Reg.DB_FS_MISSING = false →
    Answers (.fieldSupplyConditionSet db .missing) s fun t =>
      t.flag (dbBase db.val) Reg.DB_FS_MISSING = true ∧
      t.rd (dbBase db.val) Reg.DB_CNT2_MISSINGS = min (s.rd (dbBase db.val) Reg.DB_CNT2_MISSINGS + 1) (2 ^ Reg.DB_CNT2_MISSINGS.width - 1)) ∧
  (∀ (s : State) (db : Fin 4),
    Answers (.fieldSupplyConditionSet db .high) s fun t => t.flag (dbBase db.val) Reg.DB_FS_HIGH = true ∧ t.mst = s.mst) ∧
  (∀ (s : State) (db : Fin 4), s.flag (dbBase db.val) Reg.DB_FS_SHED = false →
    Answers (.fieldSupplyConditionSet db .shed) s fun t =>
      t.flag (dbBase db.val) Reg.DB_FS_SHED = true ∧
      t.rd (dbBase db.val) Reg.DB_CNT_SHEDS = min (s.rd (dbBase db.val) Reg.DB_CNT_SHEDS + 1) (2 ^ Reg.DB_CNT_SHEDS.width - 1)) ∧
  (∀ (s : State) (db : Fin 4) (c : FsCond), (match c with
      | .high => false
      | .low => s.flag (dbBase db.val) Reg.DB_FS_LOW
      | .shed => s.flag (dbBase db.val) Reg.DB_FS_SHED
      | .missing => s.flag (dbBase db.val) Reg.DB_FS_MISSING) = true →
    exec (.fieldSupplyConditionSet db c) s = .next (s.driveDb db.val).settle) ∧
  (∀ (s : State) (db : Fin 4),
    exec (.fieldSupplyConditionClear db .high) s = .next (s.setFlag (dbBase db.val) Reg.DB_FS_HIGH false).settle ∧
    exec (.fieldSupplyConditionClear db .low) s = .next (s.setFlag (dbBase db.val) Reg.DB_FS_LOW false).settle ∧
    exec (.fieldSupplyConditionClear db .shed) s = .next s.settle) ∧
  (∀ (s : State) (db : Fin 4),
    Answers (.fieldSupplyConditionClear db .missing) s fun t => t.flag (dbBase db.val) Reg.DB_FS_MISSING = false ∧ t.mst = s.mst) ∧
  (∀ (s : State) (db : Fin 4), s.flag (dbBase db.val) Reg.DB_FS_SHED = true → s.flag (dbBase db.val) Reg.DB_FS_MISSING = false →
      s.fld.restore.contains db.val = false →
    Answers (.shedRestore db) s fun t => t.fld.restore = s.fld.restore ++ [db.val] ∧ RegsKept [] s t) ∧
  (∀ (s : State) (p : Port) (dp : Fin 32), Served s p → s.exists_ (dpId dp.val) = true →
      s.flag (cellBase (dpId dp.val)) Reg.DP_STATUS_LATCHOFF = true →
    exec (.rearm p dp) s = .next ((s.modDp (s.dpLead dp.val) fun d => { d with rearm := true }).answer p E_OK).settle) ∧
  (∀ (s : State) (p : Port) (dp : Fin 32), Served s p → s.flag (cellBase (dpId dp.val)) Reg.DP_STATUS_LATCHOFF = false →
    exec (.rearm p dp) s = .next (s.answer p E_STATE).settle)

/-- R237–R240: an expired watchdog shows and counts; the loss of a digital block's link counts and isolates the block; an overload isolates its point; a
supervision fault shows and counts, and clears. -/
def Obligations.PointWatchdogWiringAndSupervision : Prop :=
  (∀ (s : State) (dp : Fin 32), s.dpOutput dp.val = true → s.src (dpId dp.val) = 0 → (s.dp dp.val).driven = true →
      s.flag (cellBase (dpId dp.val)) Reg.DP_STATUS_WDOG = false →
    Answers (.cellWatchdogExpiry dp) s fun t =>
      t.flag (cellBase (dpId dp.val)) Reg.DP_STATUS_WDOG = true ∧
      t.rd (cellBase (dpId dp.val)) Reg.DP_CNT_WDOGS =
        min (s.rd (cellBase (dpId dp.val)) Reg.DP_CNT_WDOGS + 1) (2 ^ Reg.DP_CNT_WDOGS.width - 1)) ∧
  (∀ (s : State) (b : Nat), 4 ≤ b → b < 8 →
    Answers (.blockLinkLoss 1 b) s fun t =>
      t.isolated 1 b = true ∧ t.mst = s.mst ∧
      t.rd (blkBase 1 b) Reg.DB_CNT2_LINKOFFS = min (s.rd (blkBase 1 b) Reg.DB_CNT2_LINKOFFS + 1) (2 ^ Reg.DB_CNT2_LINKOFFS.width - 1)) ∧
  (∀ (s : State) (dp other : Fin 32) (w : Wiring), w ≠ .parallel →
      (w = .shortFs → s.flag (dbBase (dpBlk dp.val)) Reg.DB_FS_LOW = false ∧ s.flag (dbBase (dpBlk dp.val)) Reg.DB_FS_MISSING = false) →
    exec (.wiringFault dp w other) s = .next (s.wiringFault dp.val w).settle) ∧
  (∀ (s : State) (dp other : Fin 32), s.flag (dbBase (dpBlk dp.val)) Reg.DB_FS_LOW = false → s.flag (dbBase (dpBlk dp.val)) Reg.DB_FS_MISSING = false →
    exec (.wiringFault dp .parallel other) s = .next ((s.wiringFault dp.val .parallel).wiringFault other.val .parallel).settle) ∧
  (∀ (s : State) (dp other : Fin 32) (w : Wiring), s.dpOutput dp.val = true → s.dpLead dp.val = dp.val → s.cst (dpId dp.val) = csRun → w ≠ .parallel →
      s.flag (dbBase (dpBlk dp.val)) Reg.DB_FS_LOW = false → s.flag (dbBase (dpBlk dp.val)) Reg.DB_FS_MISSING = false →
    Answers (.wiringFault dp w other) s fun t =>
      t.cst (dpId dp.val) = csFault ∧ t.flag (cellBase (dpId dp.val)) Reg.DP_STATUS_DRV = false) ∧
  (∀ (s : State) (dp other : Fin 32), s.dpOutput dp.val = true → s.dpLead dp.val = dp.val → s.cst (dpId dp.val) = csRun →
      s.flag (cellBase (dpId dp.val)) Reg.DP_STATUS_OVERLOAD = false →
    Answers (.wiringFault dp .overload other) s fun t =>
      t.cst (dpId dp.val) = csFault ∧ t.flag (cellBase (dpId dp.val)) Reg.DP_STATUS_OVERLOAD = true ∧
      t.flag (cellBase (dpId dp.val)) Reg.DP_STATUS_DRV = false ∧
      t.rd (cellBase (dpId dp.val)) Reg.DP_CNT_WIRING =
        min (s.rd (cellBase (dpId dp.val)) Reg.DP_CNT_WIRING + 1) (2 ^ Reg.DP_CNT_WIRING.width - 1)) ∧
  (∀ (s : State) (dp : Fin 32) (f : Supervision), s.supervised dp.val f = true → s.flag (cellBase (dpId dp.val)) (supField f) = false →
    Answers (.supervisionFaultSet dp f) s fun t =>
      t.flag (cellBase (dpId dp.val)) (supField f) = true ∧
      t.rd (cellBase (dpId dp.val)) Reg.DP_CNT_WIRING =
        min (s.rd (cellBase (dpId dp.val)) Reg.DP_CNT_WIRING + 1) (2 ^ Reg.DP_CNT_WIRING.width - 1)) ∧
  (∀ (s : State) (dp : Fin 32) (f : Supervision), s.supervised dp.val f = true →
    Answers (.supervisionFaultClear dp f) s fun t => t.flag (cellBase (dpId dp.val)) (supField f) = false ∧ t.mst = s.mst)

/-! Motion axes (09). -/

/-- R246, R247, R249, R252, R259: an update accelerates by A1 · 4 µs toward the commanded speed, decelerates under a stopping plan by D2 · 4 µs, leaves an axis
without a target at rest, and takes the encoder's count; legal rates wait for their boundary and others are E_RANGE; THOLD of standstill lowers the current.
(Readings and choices of the model that it rests on: log entries 16, 87.) -/
def Obligations.AxesMoveUnderTheirProfile : Prop :=
  (∀ (s : State) (ax : Fin 4) (enc : Word) (v a : Rat), s.mst ≠ stPfail → s.exists_ (axId ax.val) = true → (s.ax ax.val).bridges = true → (s.ax ax.val).stopping = none →
      s.homing ax.val = false → (s.ax ax.val).idle = false → s.src (axId ax.val) ≠ 3 → (s.ax ax.val).cmdHow ≠ 3 → s.axVel ax.val = true →
      s.axEnc ax.val = false → s.axf ax.val Reg.AX_STATUS_LIMP = false → (s.ax ax.val).speed = v → s.axRate ax.val Reg.AX_A1 = a →
      0 ≤ (s.ax ax.val).frac → 0 < v → 0 < a → s.axVstart ax.val ≤ v → s.axVstop ax.val ≤ v → v < s.axV1 ax.val → v + a * axDt ≤ (s.ax ax.val).vcmd →
      v + a * axDt ≤ s.axRate ax.val Reg.AX_VMAX →
    Answers (.profileUpdate ax enc) s fun t =>
      (t.ax ax.val).speed = v + a * axDt ∧ t.rdw (axB ax.val) Reg.AX_VEL = toF32c (v + a * axDt) ∧ t.rd (axB ax.val) Reg.AX_STATUS_PHASE = 1 ∧
      t.rdw (axB ax.val) Reg.AX_POS =
        BitVec.ofInt 32 (((s.axPos ax.val : Rat) + (s.ax ax.val).frac + (v + (v + a * axDt)) / 2 * axDt * 256).floor) ∧
      RegsKept [axB ax.val + Reg.AX_STATUS_MOVING.off, axB ax.val + Reg.AX_POS.off, axB ax.val + Reg.AX_VEL.off] s t) ∧
  (∀ (s : State) (ax : Fin 4) (enc : Word) (v : Rat) (p : StopPlan), s.mst ≠ stPfail → s.exists_ (axId ax.val) = true → (s.ax ax.val).bridges = true →
      (s.ax ax.val).stopping = some p → s.axEnc ax.val = false → (s.ax ax.val).speed = v → p.knee < v → 0 < v → 0 < v - p.d2 * axDt →
      p.vstop < v - p.d2 * axDt →
    Answers (.profileUpdate ax enc) s fun t => (t.ax ax.val).speed = v - p.d2 * axDt ∧ (t.ax ax.val).stopping = some p) ∧
  (∀ (s : State) (ax : Fin 4) (enc : Word), s.mst ≠ stPfail → s.exists_ (axId ax.val) = true → (s.ax ax.val).bridges = true → (s.ax ax.val).stopping = none →
      s.homing ax.val = false → (s.ax ax.val).idle = true → s.axSafe ax.val = false → s.axEnc ax.val = false → (s.ax ax.val).speed = 0 →
    Answers (.profileUpdate ax enc) s fun t =>
      (t.ax ax.val).speed = 0 ∧ t.axf ax.val Reg.AX_STATUS_MOVING = false ∧
      RegsKept [axB ax.val + Reg.AX_STATUS_MOVING.off, axB ax.val + Reg.AX_VEL.off] s t) ∧
  (∀ (s u : State) (ax : Fin 4) (enc : Word), s.mst ≠ stPfail → s.exists_ (axId ax.val) = true → (s.ax ax.val).bridges = true →
      u = (s.resumeHoming ax.val).resumeSafe ax.val → (u.nextSpeed ax.val).1 ≠ 0 →
    Answers (.profileUpdate ax enc) s fun t =>
      (t.ax ax.val).speed = (u.nextSpeed ax.val).1 ∧ t.rdw (axB ax.val) Reg.AX_VEL = toF32c (u.nextSpeed ax.val).1 ∧
      t.axf ax.val Reg.AX_STATUS_MOVING = true) ∧
  (∀ (s u : State) (ax : Fin 4) (enc : Word), s.mst ≠ stPfail → s.exists_ (axId ax.val) = true → (s.ax ax.val).bridges = true →
      u = (s.resumeHoming ax.val).resumeSafe ax.val → (u.nextSpeed ax.val).1 = 0 →
    Answers (.profileUpdate ax enc) s fun t =>
      (t.ax ax.val).speed = 0 ∧ t.rdw (axB ax.val) Reg.AX_VEL = 0 ∧ t.axf ax.val Reg.AX_STATUS_MOVING = false) ∧
  (∀ (s : State) (ax : Fin 4) (enc : Word), s.mst ≠ stPfail → s.exists_ (axId ax.val) = true → (s.ax ax.val).bridges = false → s.axEnc ax.val = true →
    Answers (.profileUpdate ax enc) s fun t =>
      t.rdw (axB ax.val) Reg.AX_ENC = enc ∧ t.axPos ax.val = s.axPos ax.val ∧
      RegsKept [axB ax.val + Reg.AX_STATUS_ENCERR.off, axB ax.val + Reg.AX_ENC.off, axB ax.val + Reg.AX_FERR.off] s t) ∧
  (∀ (s : State) (p : Port) (ax : Fin 4) (off : Nat) (w : Word), Served s p → s.exists_ (axId ax.val) = true → off ∈ axRateOffs →
      s.rateLegal ax.val off w = true →
    exec (.axisRateWrite p ax [(off, w)]) s = .next (s.modAx ax.val fun a => { a with rates := a.rates ++ [(some p, [(off, w)])] }).settle) ∧
  (∀ (s : State) (p : Port) (ax : Fin 4) (ws : List (Nat × Word)), Served s p → s.exists_ (axId ax.val) = true →
      (∀ w ∈ ws, w.1 ∈ axRateOffs ∧ s.rateLegal ax.val w.1 w.2 = true) →
    exec (.axisRateWrite p ax ws) s = .next (s.modAx ax.val fun a => { a with rates := a.rates ++ [(some p, ws)] }).settle) ∧
  (∀ (s : State) (p : Port) (ax : Fin 4) (off : Nat) (w : Word), Served s p → s.exists_ (axId ax.val) = true → off ∈ axRateOffs →
      s.rateLegal ax.val off w = false →
    exec (.axisRateWrite p ax [(off, w)]) s = .next (s.answer p E_RANGE).settle) ∧
  (∀ (s : State) (ax : Fin 4), (s.ax ax.val).bridges = true → (s.ax ax.val).speed = 0 →
    exec (.holdCurrent ax) s = .next (s.setAxf ax.val Reg.AX_STATUS_HOLD true).settle)

/-- R251, R259, R261, R262, R265: an encoder error shows, counts, and restarts the count of valid edges; a stall shows and counts, and with STALLACT 1 stops
the axis at DSAFE; it clears with STALLACT 0; the chopper's offsets show, at most 400 mA; a motor supply condition shows, counts once, and switches the phase
currents of both axes off; it clears as it came; an axis fault that can be detected, an open phase at a target current of at least 0.5 A and a short with the
bridges on, isolates the axis, shows, and switches its currents off, and a bridge that has cooled is no cause any more. -/
def Obligations.AxisFaultsShowAndSwitchOff : Prop :=
  (∀ (s : State) (mb : Fin 2), exec (.encoderError (.supply mb)) s = .next ((s.encErr (2 * mb.val)).encErr (2 * mb.val + 1)).settle) ∧
  (∀ (s : State) (ax : Fin 4), s.exists_ (axId ax.val) = true → s.axEnc ax.val = true →
    Answers (.encoderError (.axis ax)) s fun t =>
      t.axf ax.val Reg.AX_STATUS_ENCERR = true ∧ (t.ax ax.val).validEdges = 0 ∧
      t.rd (axB ax.val) Reg.AX_CNT2_ENCERRS = min (s.rd (axB ax.val) Reg.AX_CNT2_ENCERRS + 1) 65535 ∧
      RegsKept [axB ax.val + Reg.AX_STATUS_ENCERR.off, axB ax.val + Reg.AX_CNT2_ENCERRS.off] s t) ∧
  (∀ (s : State) (ax : Fin 4), s.exists_ (axId ax.val) = true → s.axEnc ax.val = true → s.axf ax.val Reg.AX_STATUS_ENCERR = false →
      s.axf ax.val Reg.AX_STATUS_STALL = false → s.axFerrLimit ax.val < ratAbs (s.axFollowing ax.val) →
      (s.axStallAct ax.val = true → (s.ax ax.val).speed ≠ 0) →
    Answers (.stall ax) s fun t =>
      t.axf ax.val Reg.AX_STATUS_STALL = true ∧
      t.rd (axB ax.val) Reg.AX_CNT2_STALLS = min (s.rd (axB ax.val) Reg.AX_CNT2_STALLS + 1) 65535 ∧
      (t.ax ax.val).stopping = (if s.axStallAct ax.val ∧ s.src (axId ax.val) ≠ 3 ∧ s.limitStopping ax.val = false then some (planOne (s.axDsafe ax.val)) else (s.ax ax.val).stopping) ∧
      RegsKept [axB ax.val + Reg.AX_STATUS_STALL.off, axB ax.val + Reg.AX_CNT2_STALLS.off] s t) ∧
  (∀ (s : State) (ax : Fin 4), s.axStallAct ax.val = false → s.axf ax.val Reg.AX_STATUS_ENCERR = false →
      ratAbs (s.axFollowing ax.val) < s.axFerrLimit ax.val / 2 →
    exec (.stallClear ax) s = .next (s.setAxf ax.val Reg.AX_STATUS_STALL false).settle) ∧
  (∀ (s : State) (ax : Fin 4) (a b : Option ChopCycle) (held : Bool × Bool), s.exists_ (axId ax.val) = true → (s.ax ax.val).bridges = true →
    Answers (.chopsat ax (a, b) held) s fun t =>
      (t.ax ax.val).offA = s.adaptOffset ax.val (s.phaseAmps ax.val).1 (s.ax ax.val).offA a ∧
      (t.ax ax.val).offB = s.adaptOffset ax.val (s.phaseAmps ax.val).2 (s.ax ax.val).offB b ∧
      (t.ax ax.val).satA = ((t.ax ax.val).offA == 400 && (held.1 || (s.ax ax.val).satA)) ∧
      (t.ax ax.val).satB = ((t.ax ax.val).offB == 400 && (held.2 || (s.ax ax.val).satB)) ∧
      t.axf ax.val Reg.AX_STATUS_CHOPSAT = ((t.ax ax.val).satA || (t.ax ax.val).satB) ∧
      RegsKept [axB ax.val + Reg.AX_STATUS_CHOPSAT.off, axB ax.val + Reg.AX_CHOP_OFFA.off] s t) ∧
  (∀ (s : State) (mb : Fin 2) (volts : Word), s.flag (mbBase mb.val) Reg.MB_MS_UNDER = false → f32 volts < mkRat 55 10 →
    Answers (.motorSupplyConditionSet mb .under volts) s fun t =>
      t.flag (mbBase mb.val) Reg.MB_MS_UNDER = true ∧ t.flag (mbBase mb.val) Reg.MB_MS_OFF = true ∧ t.rdw (mbBase mb.val) Reg.MB_MSV = volts ∧
      t.rd (mbBase mb.val) Reg.MB_CNT_UNDERS = min (s.rd (mbBase mb.val) Reg.MB_CNT_UNDERS + 1) 65535 ∧
      (∀ n < 4, n / 2 = mb.val → s.exists_ (axId n) = true → (t.ax n).bridges = false)) ∧
  (∀ (s : State) (mb : Fin 2) (volts : Word), s.flag (mbBase mb.val) Reg.MB_MS_OVER = false → 42 < f32 volts →
    Answers (.motorSupplyConditionSet mb .over volts) s fun t =>
      t.flag (mbBase mb.val) Reg.MB_MS_OVER = true ∧ t.flag (mbBase mb.val) Reg.MB_MS_OFF = true ∧
      t.rd (mbBase mb.val) Reg.MB_CNT_OVERS = min (s.rd (mbBase mb.val) Reg.MB_CNT_OVERS + 1) 65535) ∧
  (∀ (s : State) (mb : Fin 2) (volts : Word), s.flag (mbBase mb.val) Reg.MB_MS_OVER = false → 6 ≤ f32 volts →
    Answers (.motorSupplyConditionClear mb .under volts) s fun t =>
      t.flag (mbBase mb.val) Reg.MB_MS_UNDER = false ∧ t.flag (mbBase mb.val) Reg.MB_MS_OFF = false ∧ t.rdw (mbBase mb.val) Reg.MB_MSV = volts) ∧
  (∀ (s : State) (mb : Fin 2) (volts : Word), f32 volts ≤ 41 →
    Answers (.motorSupplyConditionClear mb .over volts) s fun t =>
      t.flag (mbBase mb.val) Reg.MB_MS_OVER = false ∧ t.flag (mbBase mb.val) Reg.MB_MS_OFF = s.flag (mbBase mb.val) Reg.MB_MS_UNDER) ∧
  (∀ (s : State) (ax : Fin 4) (k : AxisFaultKind), s.exists_ (axId ax.val) = true → s.cst (axId ax.val) = csRun →
      s.detectable ax.val k = true →
    Answers (.axisFault ax k) s fun t =>
      t.cst (axId ax.val) = csFault ∧ t.flag (axB ax.val) Reg.CELL_STATE_ISOL = true ∧ t.axf ax.val Reg.AX_STATUS_PHFLT = true ∧
      (t.ax ax.val).bridges = false) ∧
  (∀ (s : State) (ax : Fin 4) (k : AxisFaultKind), s.exists_ (axId ax.val) = true → s.detectable ax.val k = false → (∀ p, k ≠ .overTemp p) →
    exec (.axisFault ax k) s = .next (s.noteAxCause ax.val).settle) ∧
  (∀ (s : State) (ax : Fin 4), s.exists_ (axId ax.val) = true →
    exec (.axisFault ax (.overTemp false)) s = .next ((s.modAx ax.val fun a => { a with hot := false }).noteAxCause ax.val).settle)

/-- R253–R255: HOME shows as its input says; a limit met in the direction of motion stops the axis at LDEC and counts; chatter clears. R256–R258: homing is
accepted at standstill, searches, rests, creeps, takes its reference, and fails with its cause when aborted, timed out or without an index. -/
def Obligations.AxisLimitsAndHoming : Prop :=
  (∀ (s : State) (ax : Fin 4) (on w c : Bool), s.exists_ (axId ax.val) = true →
    exec (.limitInputChange ax .home on w c) s = .next ((s.modAx ax.val fun a => { a with inH := on }).showLimits ax.val).settle) ∧
  (∀ (s : State) (ax : Fin 4) (on w c : Bool), s.exists_ (axId ax.val) = true →
    Answers (.limitInputChange ax .home on w c) s fun t =>
      t.axf ax.val Reg.AX_STATUS_HOME = (on != s.axOpt ax.val 3) ∧ RegsKept [axB ax.val + Reg.AX_STATUS_HOME.off] s t) ∧
  (∀ (s : State) (ax : Fin 4) (on : Bool), s.exists_ (axId ax.val) = true → s.homing ax.val = false → (on != s.axOpt ax.val 1) = true →
      0 < (s.ax ax.val).speed →
    Answers (.limitInputChange ax .limP on false false) s fun t =>
      t.axf ax.val Reg.AX_STATUS_LIMP = true ∧ t.axf ax.val Reg.AX_STATUS_LIMSTOP = true ∧ (t.ax ax.val).stopping = some (planOne (s.axLdec ax.val)) ∧
      t.rd (axB ax.val) Reg.AX_CNT_LIMSTOPS = min (s.rd (axB ax.val) Reg.AX_CNT_LIMSTOPS + 1) 65535 ∧
      RegsKept [axB ax.val + Reg.AX_STATUS_LIMP.off, axB ax.val + Reg.AX_CNT_LIMSTOPS.off] s t) ∧
  (∀ (s : State) (ax : Fin 4) (on : Bool), s.exists_ (axId ax.val) = true → s.homing ax.val = false → (on != s.axOpt ax.val 2) = true →
      0 < (s.ax ax.val).speed → (s.ax ax.val).inP = s.axOpt ax.val 1 →
    exec (.limitInputChange ax .limN on false false) s = .next ((s.modAx ax.val fun a => { a with inN := on }).showLimits ax.val).settle) ∧
  (∀ (s : State) (ax : Fin 4), (s.ax ax.val).chatP = true → (s.ax ax.val).chatN = false → (s.ax ax.val).fltN = false → s.cst (axId ax.val) ≠ csFault →
    Answers (.limitChatterClear ax .limP) s fun t =>
      t.axf ax.val Reg.AX_STATUS_LIMCHAT = false ∧ (t.ax ax.val).chatP = false ∧ RegsKept [axB ax.val + Reg.AX_STATUS_LIMCHAT.off] s t) ∧
  (∀ (s : State) (p : Port) (ax : Fin 4), Served s p → s.exists_ (axId ax.val) = true → s.axHmeth ax.val ≠ 0 → (s.mst = stRun ∨ s.mst = stService) →
      s.cst (axId ax.val) = csRun → s.src (axId ax.val) = 0 → s.homing ax.val = false → (s.ax ax.val).homePending = false →
      (s.ax ax.val).speed = 0 → s.flag (mbBase (axBlk ax.val)) Reg.MB_MS_OFF = false →
    exec (.homingGo p ax) s = .next ((s.modAx ax.val fun a => { a with homePending := true }).answer p E_OK).settle) ∧
  (∀ (s : State) (p : Port) (ax : Fin 4), Served s p → s.exists_ (axId ax.val) = true → s.axHmeth ax.val = 0 →
    exec (.homingGo p ax) s = .next (s.answer p E_ACCESS).settle) ∧
  (∀ (s : State) (p : Port) (ax : Fin 4), Served s p → s.homing ax.val = true →
    Answers (.homingAbort p ax) s fun t =>
      t.rd (axB ax.val) Reg.AX_HSTAT_STATE = hsFailed ∧ t.rd (axB ax.val) Reg.AX_HSTAT_CAUSE = 4 ∧ t.axf ax.val Reg.AX_STATUS_HOMED = false ∧
      t.outbox = s.outbox ++ [.result p E_OK]) ∧
  (∀ (s : State) (ax : Fin 4), s.homing ax.val = true → s.homeStep ax.val = 1 → s.axHmeth ax.val = 3 → (s.ax ax.val).homeBack = false →
      s.axf ax.val Reg.AX_STATUS_HOME = true → (s.ax ax.val).speed ≠ 0 →
    Answers (.homingSwitchFound ax) s fun t =>
      t.homeStep ax.val = 2 ∧ (t.ax ax.val).stopping = some (s.planNormal ax.val) ∧ RegsKept [axB ax.val + Reg.AX_HSTAT_STEP.off] s t) ∧
  (∀ (s : State) (ax : Fin 4), s.homing ax.val = true → s.homeStep ax.val = 1 → s.axHmeth ax.val = 1 → s.axf ax.val Reg.AX_STATUS_LIMN = true →
      (s.ax ax.val).speed ≠ 0 →
    Answers (.homingSwitchFound ax) s fun t => t.homeStep ax.val = 2 ∧ (t.ax ax.val).stopping = some (planOne (s.axLdec ax.val))) ∧
  (∀ (s : State) (ax : Fin 4), s.homing ax.val = true → s.homeStep ax.val = 3 → s.dutyUp 3 = true →
    exec (.homingRestEnd ax) s = .next (s.wr (axB ax.val) Reg.AX_HSTAT_STEP 4).settle) ∧
  (∀ (s : State) (ax : Fin 4), s.homing ax.val = true → s.homeStep ax.val = 5 →
    Answers (.homingReferenceEdge ax) s fun t =>
      t.rd (axB ax.val) Reg.AX_HSTAT_STATE = hsDone ∧ t.axf ax.val Reg.AX_STATUS_HOMED = true ∧ t.axf ax.val Reg.AX_STATUS_HOMING = false ∧
      t.rdw (axB ax.val) Reg.AX_HREF = s.rdw (axB ax.val) Reg.AX_POS ∧
      t.rdw (axB ax.val) Reg.AX_POS = BitVec.ofInt 32 (s.axMicro ax.val (s.axHoffs ax.val)) ∧ (t.ax ax.val).speed = 0) ∧
  (∀ (s : State) (ax : Fin 4), s.homing ax.val = true → s.homeStep ax.val = 4 → s.axHmeth ax.val = 4 → (s.ax ax.val).homeBack = false →
      s.axf ax.val Reg.AX_STATUS_HOME = false → (s.ax ax.val).paused = false → s.dutyUp 3 = true →
    exec (.homingReferenceEdge ax) s = .next (s.wr (axB ax.val) Reg.AX_HSTAT_STEP 5).settle) ∧
  (∀ (s : State) (ax : Fin 4), s.homing ax.val = true →
    Answers (.homingTimeout ax) s fun t =>
      t.rd (axB ax.val) Reg.AX_HSTAT_STATE = hsFailed ∧ t.rd (axB ax.val) Reg.AX_HSTAT_CAUSE = 1 ∧
      t.rd (axB ax.val) Reg.AX_CNT3_HFAILS = min (s.rd (axB ax.val) Reg.AX_CNT3_HFAILS + 1) 65535 ∧
      RegsKept [axB ax.val + Reg.AX_HSTAT_STATE.off, axB ax.val + Reg.AX_STATUS_HOMED.off, axB ax.val + Reg.AX_CNT3_HFAILS.off] s t) ∧
  (∀ (s : State) (ax : Fin 4), s.homing ax.val = true → s.homeStep ax.val = 5 →
    Answers (.homingNoIndex ax) s fun t =>
      t.rd (axB ax.val) Reg.AX_HSTAT_STATE = hsFailed ∧ t.rd (axB ax.val) Reg.AX_HSTAT_CAUSE = 7)

/-! The station chain (10). -/

/-- R273, R275, R276, R278–R280: training brings a port UP with its partner's credits; a loss leads to TRAINING and counts, and a frame that it cuts short ends onward
with a poisoned flit; an alignment flit sets the credits; a
frame for this module is delivered and frees its buffer, a bad one is dropped and counted; the waiting frame with credit leaves.
(Readings and choices of the model that it rests on: log entry 92.) -/
def Obligations.ChainLinksCarryFrames : Prop :=
  (∀ (s : State) (p : ChainPort), s.link p = 1 → s.flag pwrBase Reg.PWR_STATUS_REFCH = true →
    Answers (.chainLinkTrained p) s fun t =>
      t.link p = 2 ∧ t.link (otherPort p) = s.link (otherPort p) ∧ (t.cport p).cred = [512, 512, 128, 32] ∧ (t.cport p).sent = [0, 0, 0, 0] ∧
      (t.cport p).freed = [0, 0, 0, 0] ∧ RegsKept [chBase + (linkField p).off] s t) ∧
  (∀ (s : State) (p : ChainPort), s.link p = 2 → (s.cport p).queue = [] → s.mst ≠ stEnum →
    Answers (.chainLinkLoss ⟨p, []⟩) s fun t =>
      t.link p = 1 ∧ t.rd chBase (linkDownsField p) = min (s.rd chBase (linkDownsField p) + 1) 65535 ∧ t.mst = s.mst ∧
      RegsKept [chBase + (linkField p).off, chBase + (linkDownsField p).off] s t) ∧
  (∀ (s : State) (p : ChainPort) (cut : List ChainFrame), s.link p = 2 →
    exec (.chainLinkLoss ⟨p, cut⟩) s = .next ((cut.foldl (fun s f => s.cutFrame p f) s).linkLoss p).settle) ∧
  (∀ (s : State) (p : ChainPort) (f : ChainFrame), s.link p = 2 → s.link (otherPort p) = 2 → s.badHeader p f = false → f.poisoned = [] →
      (f.ty == 3 && ptpPeerDelay f) = false → s.delivers f = false → s.forwards p f = true → (s.cport p).queue = [] → s.mst ≠ stEnum →
    Answers (.chainLinkLoss ⟨p, [f]⟩) s fun t =>
      (t.cport (otherPort p)).queue = (s.cport (otherPort p)).queue ++ [⟨onwardFrame { f with badFlits := max 1 (f.len - f.flits) }, s.now16, false, 0, 0⟩] ∧
      t.rd chBase (poisonedField p) = min (s.rd chBase (poisonedField p) + 1) 65535 ∧
      t.rd chBase Reg.CH_DROP_FRAMES = min (s.rd chBase Reg.CH_DROP_FRAMES + 1) 65535 ∧ t.link p = 1 ∧ t.outbox = s.outbox) ∧
  (∀ (s : State) (p : ChainPort), s.link p = 2 →
    exec (.chainLinkLoss ⟨p, []⟩) s =
      .next ((((s.setLink p 1).bump chBase (linkDownsField p)).flushPort p).when (p == .down) State.confirmTail).settle) ∧
  (∀ (s : State) (p : ChainPort) (freed : List (BitVec 16)) (returned : List Nat), s.link p = 2 →
    Answers (.alignmentFlit p ⟨freed, returned⟩) s fun t =>
      (t.cport p).cred =
        (List.range 4).map (fun vc => vcBuffer vc - (perVc (s.cport p).sent vc + 65536 - (freed.getD vc 0).toNat) % 65536) ∧
      t.cport (otherPort p) = s.cport (otherPort p) ∧ RegsKept [chBase + (resyncField p).off] s t) ∧
  (∀ (s : State) (p : ChainPort) (f : ChainFrame), s.link p = 2 → s.badFrame p f = false → f.badFlits = 0 → f.poisoned = [] → f.corrected = [] →
      (f.ty == 3 && ptpPeerDelay f) = false → f.dst.toNat = s.addr → s.addr ≠ 0 → f.dst ≠ 0x7F →
    Answers (.chainFrameReceive p f []) s fun t =>
      t.outbox = s.outbox ++ [.deliver f] ∧
      (t.cport p).freed = (addVc (s.cport p).freed f.vc.val f.flits).map (fun n => n % 65536) ∧
      t.cport (otherPort p) = s.cport (otherPort p) ∧ RegsKept [chBase + (corrField p).off] s t) ∧
  (∀ (s : State) (p : ChainPort) (f : ChainFrame), s.link p = 2 → s.badFrame p f = true → f.badFlits = 0 → f.poisoned = [] → f.corrected = [] →
    Answers (.chainFrameReceive p f []) s fun t =>
      t.outbox = s.outbox ∧ t.rd chBase Reg.CH_DROP_FRAMES = min (s.rd chBase Reg.CH_DROP_FRAMES + 1) 65535 ∧
      RegsKept [chBase + Reg.CH_DROP_FRAMES.off] s t) ∧
  (∀ (s : State) (p : ChainPort) (f : ChainFrame), s.link p = 2 → s.link (otherPort p) = 2 → s.badFrame p f = false → f.badFlits = 0 → f.poisoned = [] →
      f.corrected = [] → (f.ty == 3 && ptpPeerDelay f) = false → s.delivers f = false → s.forwards p f = true →
    Answers (.chainFrameReceive p f []) s fun t =>
      (t.cport (otherPort p)).queue = (s.cport (otherPort p)).queue ++ [⟨onwardFrame f, s.now16, false, 0, 0⟩] ∧
      (t.cport p).freed = (s.cport p).freed ∧ t.outbox = s.outbox ∧ RegsKept [] s t) ∧
  (∀ (s : State) (p : ChainPort) (f : ChainFrame) (returned : List Nat), s.link p = 2 →
    exec (.chainFrameReceive p f returned) s =
      .next ((s.modCport p fun c => { c with cred := (List.range 4).map fun vc => min (vcBuffer vc) (perVc c.cred vc + perVc returned vc) }).receiveFrame
        p f).settle) ∧
  (∀ (s : State) (p : ChainPort) (w : Waiting), s.link p = 2 → (s.cport p).queue = [w] → w.own = true → w.f.ty ≠ 7 → (s.cport p).next = [] →
      perVc (s.cport p).cred w.f.vc.val ≠ 0 → w.f.flits - w.sent ≤ perVc (s.cport p).cred w.f.vc.val →
    Answers (.frameForward p) s fun t =>
      t.outbox = s.outbox ++ [.chain p w.f] ∧ (t.cport p).queue = [] ∧
      (t.cport p).cred = subVc (s.cport p).cred w.f.vc.val (w.f.flits - w.sent) ∧ RegsKept [] s t) ∧
  (∀ (s : State) (p : ChainPort) (w : Waiting), s.link p = 2 → (s.cport p).queue = [w] → w.own = true → (s.cport p).next = [] →
      perVc (s.cport p).cred w.f.vc.val ≠ 0 → w.sent + perVc (s.cport p).cred w.f.vc.val < w.f.flits →
    Answers (.frameForward p) s fun t =>
      t.outbox = s.outbox ∧ (t.cport p).queue = [{ w with sent := w.sent + perVc (s.cport p).cred w.f.vc.val }] ∧ RegsKept [] s t) ∧
  (∀ (s : State) (p : ChainPort), s.link p = 2 → exec (.frameForward p) s = .next ((s.egress p).nextImage p).settle)

/-- R289–R291: a one-part process image completes at its peer context; a peer that stays silent for TIMEOUT is timed out and counted; the PDUs of a safety
frame reach Tocsin.
(Readings and choices of the model that it rests on: log entry 5.) -/
def Obligations.ProcessImagesAndSafetyFramesArrive : Prop :=
  (∀ (s : State) (f : ChainFrame) (k : Nat), f.ty = 1 → f.src.toNat = k → 1 ≤ k → k < 64 → s.exists_ (pcId k) = true → s.pcSelf k = false →
      s.isolated 3 2 = false → tspec f 29 = 1 → tspec f 28 = 0 → f.poisoned = [] → f.badFlits = 0 → (s.peer k).last ≠ some f.stroke → (s.peer k).asm = [] →
      (s.peer k).image = none →
    Answers (.piFrame f) s fun t =>
      (t.peer k).image = some (f.stroke, tspec f 26 + 256 * tspec f 27, tspec f 30 % 2 == 1, piEntries f) ∧
      t.outbox = s.outbox ∧ RegsKept [] s t) ∧
  (∀ (s : State) (f : ChainFrame) (k : Nat) (x : PeerSt × Nat × Option (List (Nat × SigWord))), f.ty = 1 → f.src.toNat = k → 1 ≤ k → k < 64 → s.exists_ (pcId k) = true →
      s.pcSelf k = false → s.isolated 3 2 = false → 1 ≤ tspec f 29 → tspec f 29 ≤ 16 → tspec f 28 < tspec f 29 → f.poisoned = [] → f.badFlits = 0 →
      x = (s.peer k).addPart f.stroke (tspec f 29) (tspec f 28) (tspec f 26 + 256 * tspec f 27) (tspec f 30 % 2 == 1) (piEntries f) →
    Answers (.piFrame f) s fun t =>
      t.peer k = x.1 ∧ t.outbox = s.outbox ∧
      t.rd (cellBase (pcId k)) Reg.PC_CNT_INCOMPLETE =
        min (s.rd (cellBase (pcId k)) Reg.PC_CNT_INCOMPLETE + x.2.1) (2 ^ Reg.PC_CNT_INCOMPLETE.width - 1) ∧
      t.rd (cellBase (pcId k)) Reg.PC_CNT_SKIPPED =
        min (s.rd (cellBase (pcId k)) Reg.PC_CNT_SKIPPED + (x.2.2.isSome && (s.peer k).image.isSome).toNat) (2 ^ Reg.PC_CNT_SKIPPED.width - 1)) ∧
  (∀ (s : State) (pc : Fin 64), s.exists_ (pcId pc.val) = true → s.pcSelf pc.val = false → (s.peer pc.val).timedOut = false →
      (s.peer pc.val).image = none → s.pcTimeout pc.val ≤ (s.peer pc.val).silent + 1 →
    Answers (.peerTimeout pc) s fun t =>
      (t.peer pc.val).timedOut = true ∧ t.flag (cellBase (pcId pc.val)) Reg.PC_STATE_PRESENT = false ∧
      t.rd (cellBase (pcId pc.val)) Reg.PC_CNT2_TIMEOUTS = min (s.rd (cellBase (pcId pc.val)) Reg.PC_CNT2_TIMEOUTS + 1) 65535) ∧
  (∀ (s : State) (f : ChainFrame), f.ty = 2 → f.poisoned = [] → f.badFlits = 0 →
    exec (.chainSafetyFrame f) s = .next (((framePdus f).foldl State.receivePdu s).settle))

/-! Queue pairs (10). -/

/-- R293, R304, R307, R312: TAIL takes a value below the ring's size, and others are E_RANGE; a ring with a size, an enabled domain and no halt is enabled; without
a descriptor in progress it is disabled at once; RESUME lifts a halt and is E_STATE without one; an invalidation empties the TLB of a domain, or all of it. -/
def Obligations.RingsArePostedEnabledAndResumed : Prop :=
  (∀ (s : State) (p : Port) (qp : Fin 32) (rx : Bool) (tail : BitVec 12), Served s p → s.exists_ (qpId qp.val) = true →
      tail.toNat < 2 ^ s.rd (cellBase (qpId qp.val)) (ringLog rx) →
    exec (.descriptorPost p qp rx tail) s = .next ((s.wr (cellBase (qpId qp.val)) (ringTail rx) tail.toNat).answer p E_OK).settle) ∧
  (∀ (s : State) (p : Port) (qp : Fin 32) (rx : Bool) (tail : BitVec 12), Served s p → s.exists_ (qpId qp.val) = true →
      2 ^ s.rd (cellBase (qpId qp.val)) (ringLog rx) ≤ tail.toNat →
    exec (.descriptorPost p qp rx tail) s = .next (s.answer p E_RANGE).settle) ∧
  (∀ (s : State) (p : Port) (qp : Fin 32), Served s p → s.exists_ (qpId qp.val) = true → s.ringSize qp.val false ≠ 0 →
      s.flag (cellBase (qpId qp.val)) Reg.QP_STATUS_TXHALT = false → rootEn (s.rootOf (s.qpDomain qp.val)) = true → s.cst (qpId qp.val) = csStart →
      (s.mst = stRun ∨ s.mst = stService) →
    Answers (.ringTxen p qp) s fun t =>
      t.flag (cellBase (qpId qp.val)) Reg.QP_STATUS_TXON = true ∧ t.cst (qpId qp.val) = csRun ∧ t.outbox = s.outbox ++ [.result p E_OK] ∧
      RegsKept [cellBase (qpId qp.val) + Reg.QP_STATUS_TXON.off, cellBase (qpId qp.val) + Reg.CELL_STATE_STATE.off] s t) ∧
  (∀ (s : State) (p : Port) (qp : Fin 32), Served s p → s.exists_ (qpId qp.val) = true → s.ringSize qp.val true ≠ 0 →
      s.flag (cellBase (qpId qp.val)) Reg.QP_STATUS_RXHALT = false → rootEn (s.rootOf (s.qpDomain qp.val)) = true → s.cst (qpId qp.val) = csStart →
      (s.mst = stRun ∨ s.mst = stService) →
    Answers (.ringRxen p qp) s fun t =>
      t.flag (cellBase (qpId qp.val)) Reg.QP_STATUS_RXON = true ∧ t.cst (qpId qp.val) = csRun ∧ t.outbox = s.outbox ++ [.result p E_OK] ∧
      RegsKept [cellBase (qpId qp.val) + Reg.QP_STATUS_RXON.off, cellBase (qpId qp.val) + Reg.CELL_STATE_STATE.off] s t) ∧
  (∀ (s : State) (p : Port) (qp : Fin 32), Served s p → s.exists_ (qpId qp.val) = true → (s.qp qp.val).txDesc = none →
    exec (.ringTxdis p qp) s = .next ((s.setFlag (cellBase (qpId qp.val)) Reg.QP_STATUS_TXON false).answer p E_OK).settle) ∧
  (∀ (s : State) (p : Port) (qp : Fin 32), Served s p → s.exists_ (qpId qp.val) = true → (s.qp qp.val).rxDesc = none →
    exec (.ringRxdis p qp) s = .next ((s.setFlag (cellBase (qpId qp.val)) Reg.QP_STATUS_RXON false).answer p E_OK).settle) ∧
  (∀ (s : State) (p : Port) (qp : Fin 32), Served s p → s.exists_ (qpId qp.val) = true →
      s.flag (cellBase (qpId qp.val)) Reg.QP_STATUS_TXHALT = true →
    Answers (.txresume p qp) s fun t =>
      t.flag (cellBase (qpId qp.val)) Reg.QP_STATUS_TXHALT = false ∧ t.flag (cellBase (qpId qp.val)) Reg.QP_STATUS_TXWBF = false ∧
      t.rd (cellBase (qpId qp.val)) Reg.QP_STATUS_TXCODE = 0 ∧ t.outbox = s.outbox ++ [.result p E_OK] ∧ t.q = s.q ∧
      RegsKept [cellBase (qpId qp.val) + Reg.QP_STATUS_TXHALT.off] s t) ∧
  (∀ (s : State) (p : Port) (qp : Fin 32), Served s p → s.exists_ (qpId qp.val) = true →
      s.flag (cellBase (qpId qp.val)) Reg.QP_STATUS_RXHALT = true →
    Answers (.rxresume p qp) s fun t =>
      t.flag (cellBase (qpId qp.val)) Reg.QP_STATUS_RXHALT = false ∧ t.flag (cellBase (qpId qp.val)) Reg.QP_STATUS_RXWBF = false ∧
      t.rd (cellBase (qpId qp.val)) Reg.QP_STATUS_RXCODE = 0 ∧ t.outbox = s.outbox ++ [.result p E_OK] ∧ t.q = s.q ∧
      RegsKept [cellBase (qpId qp.val) + Reg.QP_STATUS_RXHALT.off] s t) ∧
  (∀ (s : State) (p : Port) (qp : Fin 32), Served s p → s.exists_ (qpId qp.val) = true →
      s.flag (cellBase (qpId qp.val)) Reg.QP_STATUS_TXHALT = false →
    exec (.txresume p qp) s = .next (s.answer p E_STATE).settle) ∧
  (∀ (s : State) (p : Port) (dom : BitVec 4), Served s p →
    exec (.iommuInvalidate p dom true) s = .next ((s.modQ fun q => { q with tlb := [] }).answer p E_OK).settle ∧
    exec (.iommuInvalidate p dom false) s =
      .next ((s.modQ fun q => { q with tlb := q.tlb.filter fun t => t.domain != dom.toNat }).answer p E_OK).settle)

/-- R293, R300, R301, R305, R306: the one ready ring starts its posted descriptor; a COPY of one granule moves its bytes, writes the descriptor back and moves
HEAD; a fault in mid-transfer and one in reading the descriptor halt the ring, with the fault in QB.FLT, the latter without moving HEAD. -/
def Obligations.DescriptorsStartCopyAndFault : Prop :=
  (∀ (s : State) (n pd src : Nat) (d : Desc), s.nextRing = some (2 * n) → (s.qp n).txDesc = none → (s.qp n).txDone = 0 → (s.qp n).txBuf = [] →
      TlbMaps s (s.qpDomain n) (s.headIova n false) false pd → d = parseDesc (s.memGranule pd) → txInvalid s.addr (s.memGranule pd) = none →
      s.sendUnreachable d = false → s.reachable d = true → d.op = 1 → 32 < d.len → d.buf < 2 ^ 32 → TlbMaps s (s.qpDomain n) d.buf false src →
    Answers .descriptorStart s fun t =>
      (t.qp n).txDesc = some d ∧ (t.qp n).txDone = 1 ∧ (t.qp n).txBuf = [s.memGranule src] ∧ t.q.lastRing = 2 * n ∧ t.q.mem = s.q.mem ∧
      t.outbox = s.outbox ∧ RegsKept [qbBase + Reg.QB_PEAK_PEAK.off] s t) ∧
  (∀ (s u : State) (r : Nat), s.nextRing = some r → u = (s.modQ fun q => { q with lastRing := r }) →
    exec .descriptorStart s = .next (if r % 2 = 1 then u.rxTurn (r / 2) else u.engineTurn (r / 2)).settle) ∧
  (∀ s : State, s.nextRing = none → exec .descriptorStart s = .next s.settle) ∧
  (∀ (s : State) (qp : Fin 32) (d : Desc), s.queueUp = true → (s.qp qp.val).txDesc = some d → s.reachable d = true → s.runsTo qp.val (granules d.len) = true →
    exec (.descriptorComplete qp) s = .next (s.inFlight.transferTx qp.val d (granules d.len) fun s => (none, s)).settle) ∧
  (∀ (s : State) (qp : Fin 32) (d : Desc) (k : Nat) (w : WordRead), s.queueUp = true → (s.qp qp.val).txDesc = some d → s.reachable d = true →
      k < granules d.len → (s.qp qp.val).txDone ≤ k → s.runsTo qp.val k = true →
    exec (.midTransferFault ⟨qp, false⟩ k w) s =
      .next (s.inFlight.faultTx qp.val d k fun u => u.reportedFault (s.qpDomain qp.val) ((d.buf + 32 * k) % 2 ^ 32) false w).settle) ∧
  (∀ (s : State) (qp : Fin 32) (d : Desc) (m : Nat × Nat × Nat) (w : WordRead), s.queueUp = true → (s.qp qp.val).rxDesc = some d →
      (s.qp qp.val).rxMsg = some m →
      (s.inFlight.reportedFault (s.qpDomain qp.val) ((d.buf + 32 * granules (s.qp qp.val).rxUsed) % 2 ^ 32) true w).1.isSome = true →
    Answers (.midTransferFault ⟨qp, true⟩ (granules (s.qp qp.val).rxUsed) w) s fun t => (t.qp qp.val).rxMsg = none ∧ (t.qp qp.val).rxDropped = some m) ∧
  (∀ (s : State) (qp : Fin 32) (rx writeback : Bool) (w : WordRead) (x : Option (AccessFault × Nat) × State), s.ringRuns qp.val rx = true →
      s.posted qp.val rx = true → (if rx then (s.qp qp.val).rxDesc.isSome else (s.qp qp.val).txDesc.isSome) = writeback →
      x = s.inFlight.reportedFault (s.qpDomain qp.val) (s.headIova qp.val rx) writeback w →
    exec (.descriptorAccessFault qp rx writeback w) s =
      .next (match x.1 with
        | some e => x.2.accessFault qp.val rx writeback e.1
        | none => x.2).settle) ∧
  (∀ (s : State) (qp : Fin 32) (d : Desc) (src dst head : Nat), s.queueUp = true → (s.qp qp.val).txDesc = some d → (s.qp qp.val).txDone = 0 →
      s.contended (2 * qp.val) = false → d.op = 2 → d.len = 32 →
      d.buf < 2 ^ 32 → d.dest < 2 ^ 32 → 0 < s.ringSize qp.val false → s.ringSize qp.val false ≤ 4096 → TlbMaps s (s.qpDomain qp.val) d.buf false src →
      TlbMaps s (s.qpDomain qp.val) d.dest true dst → TlbMaps s (s.qpDomain qp.val) (s.headIova qp.val false) false head →
      TlbMaps s (s.qpDomain qp.val) (s.headIova qp.val false) true head → (dst + 32 ≤ head ∨ head + 32 ≤ dst) →
    Answers (.descriptorComplete qp) s fun t =>
      (∀ i < 32, t.memByte (dst + i) = s.memByte (src + i)) ∧ t.memByte (head + 28) = E_OK ∧ t.memByte (head + 29) = 1 ∧
      (∀ a, (a < dst ∨ dst + 32 ≤ a) → (a < head + 24 ∨ head + 32 ≤ a) → t.memByte a = s.memByte a) ∧ (t.qp qp.val).txDesc = none ∧
      t.rd (cellBase (qpId qp.val)) Reg.QP_TXPTR_HEAD =
        (s.rd (cellBase (qpId qp.val)) Reg.QP_TXPTR_HEAD + 1) % s.ringSize qp.val false) ∧
  (∀ (s : State) (qp : Fin 32) (d : Desc) (src head : Nat) (w : WordRead), s.queueUp = true → (s.qp qp.val).txDesc = some d → (s.qp qp.val).txDone = 0 →
      d.op = 2 → 1 ≤ d.len → d.buf < 2 ^ 32 → (readOutcome .dram (src / 32) w.flips).bad = true → src / 32 ≠ head / 32 →
      TlbMaps s (s.qpDomain qp.val) d.buf false src → TlbMaps s (s.qpDomain qp.val) (s.headIova qp.val false) false head →
      TlbMaps s (s.qpDomain qp.val) (s.headIova qp.val false) true head →
    Answers (.midTransferFault ⟨qp, false⟩ 0 w) s fun t =>
      t.flag (cellBase (qpId qp.val)) Reg.QP_STATUS_TXHALT = true ∧ t.rd (cellBase (qpId qp.val)) Reg.QP_STATUS_TXCODE = E_POISON.toNat ∧
      t.flag (cellBase (qpId qp.val)) Reg.QP_STATUS_TXWBF = false ∧ t.rd qbBase Reg.QB_FLT_KIND = 0 ∧ t.rd qbBase Reg.QB_FLT_QP = qp.val ∧
      t.rdw qbBase Reg.QB_FLTADDR = BitVec.ofNat 32 d.buf ∧ t.memByte (head + 28) = E_POISON ∧
      (∀ a, (a < head + 24 ∨ head + 32 ≤ a) → t.memByte a = s.memByte a) ∧ (t.qp qp.val).txDesc = none) ∧
  (∀ (s : State) (qp : Fin 32) (head : Nat) (w : WordRead), s.ringRuns qp.val false = true → s.posted qp.val false = true → (s.qp qp.val).txDesc = none →
      TlbMaps s (s.qpDomain qp.val) (s.headIova qp.val false) false head → (readOutcome .dram (head / 32) w.flips).bad = true →
    Answers (.descriptorAccessFault qp false false w) s fun t =>
      t.flag (cellBase (qpId qp.val)) Reg.QP_STATUS_TXHALT = true ∧ t.flag (cellBase (qpId qp.val)) Reg.QP_STATUS_TXWBF = true ∧
      t.rd (cellBase (qpId qp.val)) Reg.QP_STATUS_TXCODE = E_POISON.toNat ∧ t.rd qbBase Reg.QB_FLT_KIND = 1 ∧
      t.rdw qbBase Reg.QB_FLTADDR = BitVec.ofNat 32 (s.headIova qp.val false) ∧
      t.rd (cellBase (qpId qp.val)) Reg.QP_TXPTR_HEAD = s.rd (cellBase (qpId qp.val)) Reg.QP_TXPTR_HEAD ∧ t.q.mem = s.q.mem) ∧
  (∀ (s : State) (qp : Fin 32) (w : WordRead), s.ringRuns qp.val false = true → s.posted qp.val false = true → (s.qp qp.val).txDesc = none →
      rootEn (s.rootOf (s.qpDomain qp.val)) = false →
    Answers (.descriptorAccessFault qp false false w) s fun t =>
      t.flag (cellBase (qpId qp.val)) Reg.QP_STATUS_TXHALT = true ∧ t.rd (cellBase (qpId qp.val)) Reg.QP_STATUS_TXCODE = E_ADDR.toNat ∧
      t.rd qbBase Reg.QB_FLT_KIND = 1 ∧ t.rd qbBase Reg.IOMMU_TLB_FAULTS = min (s.rd qbBase Reg.IOMMU_TLB_FAULTS + 1) 65535 ∧ t.q.mem = s.q.mem)

/-- R297: the first frame of a message writes its granule at the start of the buffer in use and changes no other byte; a message for a ring without
descriptors is dropped and counted; a message that stays silent ends. -/
def Obligations.BulkMessagesAreReceived : Prop :=
  (∀ (s : State) (f : ChainFrame) (g : List Byte) (d : Desc) (pa : Nat), f.ty = 5 → tspec f 26 < 32 → s.exists_ (qpId (tspec f 26)) = true →
      tspec f 30 = 1 → f.payload = [g] → f.poisoned = [] → s.ringSize (tspec f 26) true ≠ 0 → s.pairRuns (tspec f 26) = true →
      (s.qp (tspec f 26)).rxFrame = none → s.contended (2 * tspec f 26 + 1) = false → (s.qp (tspec f 26)).rxMsg = none → (s.qp (tspec f 26)).rxDesc = some d → (s.qp (tspec f 26)).rxUsed = 0 → d.buf < 2 ^ 32 → 64 ≤ d.len →
      TlbMaps s (s.qpDomain (tspec f 26)) d.buf true pa →
    Answers (.bulkFrame f) s fun t =>
      (∀ i < (g.take f.valid.toNat).length, t.memByte (pa + i) = (g.take f.valid.toNat).getD i 0) ∧
      (∀ a, a < pa ∨ pa + (g.take f.valid.toNat).length ≤ a → t.memByte a = s.memByte a) ∧
      (t.qp (tspec f 26)).rxMsg = some (bulkId f) ∧ (t.qp (tspec f 26)).rxUsed = f.valid.toNat ∧ (t.qp (tspec f 26)).rxDesc = some d ∧
      t.outbox = s.outbox ∧ RegsKept [qbBase + Reg.QB_PEAK_PEAK.off] s t) ∧
  (∀ (s : State) (f : ChainFrame), f.ty = 5 → tspec f 26 < 32 → s.exists_ (qpId (tspec f 26)) = true → (s.qp (tspec f 26)).rxFrame = none →
    exec (.bulkFrame f) s =
      .next (if s.contended (2 * tspec f 26 + 1) then s.openFrames (tspec f 26) [f]
        else (s.modQ fun q => { q with lastRing := 2 * tspec f 26 + 1 }).bulkIn (tspec f 26) f).settle) ∧
  (∀ (s : State) (f : ChainFrame), f.ty = 5 → tspec f 26 < 32 → s.exists_ (qpId (tspec f 26)) = true → (s.qp (tspec f 26)).rxFrame.isSome = true →
    exec (.bulkFrame f) s = .next (s.modQp (tspec f 26) fun q => { q with rxq := q.rxq ++ [f] }).settle) ∧
  (∀ (s : State) (f : ChainFrame), f.ty = 5 → tspec f 26 < 32 → s.exists_ (qpId (tspec f 26)) = false → tspec f 30 % 2 = 1 →
    exec (.bulkFrame f) s = .next (s.nak f E_STATE).settle) ∧
  (∀ (s : State) (f : ChainFrame), f.ty = 5 → tspec f 26 < 32 → s.exists_ (qpId (tspec f 26)) = true → (s.qp (tspec f 26)).rxDropped ≠ some (bulkId f) →
      (s.qp (tspec f 26)).rxFrame = none → s.ringSize (tspec f 26) true = 0 →
    Answers (.bulkFrame f) s fun t =>
      t.rd (cellBase (qpId (tspec f 26))) Reg.QP_CNT_NOBUF = min (s.rd (cellBase (qpId (tspec f 26))) Reg.QP_CNT_NOBUF + 1) 65535 ∧
      (t.qp (tspec f 26)).rxMsg = none ∧ (t.qp (tspec f 26)).rxDropped = some (bulkId f) ∧ t.q.mem = s.q.mem) ∧
  (∀ (s : State) (qp : Fin 32), s.queueUp = true → (s.qp qp.val).rxDesc = none →
    Answers (.receiveMessageTimeout qp) s fun t => (t.qp qp.val).rxMsg = none ∧ t.q.mem = s.q.mem ∧ RegsKept [] s t) ∧
  (∀ (s : State) (qp : Fin 32) (d : Desc) (m : Nat × Nat × Nat) (head : Nat), s.queueUp = true → (s.qp qp.val).rxMsg = some m →
      (s.qp qp.val).rxDesc = some d → 0 < s.ringSize qp.val true → s.ringSize qp.val true ≤ 4096 → TlbMaps s (s.qpDomain qp.val) (s.headIova qp.val true) false head →
      TlbMaps s (s.qpDomain qp.val) (s.headIova qp.val true) true head →
    Answers (.receiveMessageTimeout qp) s fun t =>
      (t.qp qp.val).rxMsg = none ∧ (t.qp qp.val).rxDesc = none ∧ t.memByte (head + 28) = E_TIMEOUT ∧ t.memByte (head + 29) = 3 ∧
      (∀ a, (a < head + 24 ∨ head + 32 ≤ a) → t.memByte a = s.memByte a) ∧
      t.rd (cellBase (qpId qp.val)) Reg.QP_RXPTR_HEAD =
        (s.rd (cellBase (qpId qp.val)) Reg.QP_RXPTR_HEAD + 1) % s.ringSize qp.val true)

/-! Network paths (11). -/

/-- R313, R314, R325, R326, R330: a supported transceiver takes an enabled path to STANDBY, another one and a removal to OFF; a link held for 100 ms makes the path
eligible; an alarm that sets is recorded; an island fault turns the path OFF, and in PFAIL frees the Snare alone; a frame with a wrong FCS or length is counted
as such, and one of another destination, VLAN or EtherType as filtered. -/
def Obligations.NetworkPathsComeAndGo : Prop :=
  (∀ (s : State) (p : Path) (c : SfpCode), s.mst ≠ stPowerup → s.mst ≠ stPfail → s.role p = roleOff → s.cageOn p = true → modeTakes (s.nrd p Reg.NET_CFG_PMODE) c = true →
    Answers (.sfpInsert p (.code c false)) s fun t =>
      (t.path p).cage = some (.code c false) ∧ t.nrd p Reg.NET_STATUS_SFP = 1 ∧ t.role p = roleStandby ∧ t.nflag p Reg.NET_STATUS_LINK = false ∧ t.elig p = false ∧
      RegsKept [netBase p + Reg.NET_STATUS_SFP.off] s t) ∧
  (∀ (s : State) (p : Path) (c : SfpCode) (high : Bool), s.mst ≠ stPowerup → s.mst ≠ stPfail → s.cageOn p = true →
      (high = true ∨ modeTakes (s.nrd p Reg.NET_CFG_PMODE) c = false) →
    Answers (.sfpInsert p (.code c high)) s fun t => t.nrd p Reg.NET_STATUS_SFP = 2 ∧ t.role p = roleOff ∧ t.elig p = false) ∧
  (∀ (s : State) (p : Path), s.mst ≠ stPowerup → s.mst ≠ stPfail → s.cageOn p = true →
    Answers (.sfpInsert p .faulty) s fun t => t.nrd p Reg.NET_STATUS_SFP = 3 ∧ t.role p = roleOff ∧ t.elig p = false) ∧
  (∀ (s : State) (p : Path) (id : SfpId), s.mst = stPowerup ∨ s.cageOn p = false →
    Answers (.sfpInsert p id) s fun t => (t.path p).cage = some id ∧ t.role p = s.role p ∧ RegsKept [] s t) ∧
  (∀ (s : State) (p : Path), s.mst ≠ stPfail →
    Answers (.sfpRemove p) s fun t =>
      t.nrd p Reg.NET_STATUS_SFP = 0 ∧ t.nflag p Reg.NET_STATUS_LINK = false ∧ t.role p = roleOff ∧ t.elig p = false ∧ (t.path p).diag = 0) ∧
  (∀ (s : State) (p : Path) (flags : BitVec 16), s.nrd p Reg.NET_STATUS_SFP ≠ 0 → flags &&& ~~~(s.path p).diag = 0 →
    Answers (.sfpDiagnostics p flags) s fun t => (t.path p).diag = flags ∧ t.recd = s.recd ∧ RegsKept [] s t) ∧
  (∀ (s : State) (p : Path) (flags : BitVec 16), s.nrd p Reg.NET_STATUS_SFP ≠ 0 →
    Answers (.sfpDiagnostics p flags) s fun t => (t.path p).diag = flags ∧ t.outbox = s.outbox ∧ RegsKept [recBase + Reg.REC_MISS_QLOST.off] s t) ∧
  (∀ (s : State) (p : Path), s.nrd p Reg.NET_STATUS_SFP ≠ 0 → (s.path p).diag = 0 → s.recd.queue.length < 4096 →
      s.rd recBase Reg.REC_STATUS_STATE ≠ 0 →
    Answers (.sfpDiagnostics p 1) s fun t =>
      (t.path p).diag = 1 ∧ (∃ o, t.recd.queue = s.recd.queue ++ [o] ∧ o.src = 8 ∧ o.index = pathNum p) ∧ RegsKept [] s t) ∧
  (∀ (s : State) (p : Path) (up held : Bool), s.role p ≠ roleOff → s.nrd p Reg.NET_STATUS_SFP = 1 →
    Answers (.networkLinkChange p up held) s fun t =>
      t.nflag p Reg.NET_STATUS_LINK = up ∧ t.elig p = (up && held) ∧ t.role p = s.role p ∧ RegsKept [netBase p + Reg.NET_STATUS_LINK.off] s t) ∧
  (∀ (s : State) (p : Path), s.mst ≠ stPfail →
    Answers (.islandFault p) s fun t => t.role p = roleOff ∧ t.nflag p Reg.NET_STATUS_LINK = false ∧ t.elig p = false ∧ t.mst = s.mst) ∧
  (∀ (s : State) (p : Path), s.mst = stPfail → s.net.snare.toNat = pathNum p + 1 →
    Answers (.islandFault p) s fun t => t.net.snare = 0 ∧ t.role p = s.role p ∧ t.nflag p Reg.NET_STATUS_LINK = false ∧ t.mst = s.mst) ∧
  (∀ (s : State) (p : Path) (h : MacHead) (ty : BitVec 16) (f : Option Sahvos), s.role p ≠ roleOff → s.sahvosUp = true →
      (h.fcsOk = false ∨ h.length < 64 ∨ 1522 < h.length) →
    exec (.receiveFilterDrop ⟨p, h⟩ ⟨ty, f⟩) s = .next (s.bump (netBase p) Reg.NET_ERRCNT_BADFCS).settle) ∧
  (∀ (s : State) (p : Path) (h : MacHead) (ty : BitVec 16) (f : Option Sahvos), s.role p ≠ roleOff → s.sahvosUp = true → h.fcsOk = true →
      64 ≤ h.length → h.length ≤ 1522 →
      ((h.dst ∉ [macOf p, 0xFFFFFFFFFFFF, groupMac 1, groupMac 2, ptpMac]) ∨ (h.vid.elim 0 BitVec.toNat ≠ s.nrd p Reg.NET_VLAN_VID)) →
    exec (.receiveFilterDrop ⟨p, h⟩ ⟨ty, f⟩) s = .next (s.bump (netBase p) Reg.NET_ERRCNT_FILTERED).settle) ∧
  (∀ (s : State) (p : Path) (h : MacHead) (ty : BitVec 16) (f : Option Sahvos), s.role p ≠ roleOff → s.sahvosUp = true → s.dropRx p h = none →
      ty ∉ [0x88F7, 0x88B5] →
    exec (.receiveFilterDrop ⟨p, h⟩ ⟨ty, f⟩) s = .next (s.bump (netBase p) Reg.NET_ERRCNT_FILTERED).settle) ∧
  (∀ (s : State) (p : Path) (h : MacHead) (ty : BitVec 16) (f : Option Sahvos), s.role p = roleOff →
    exec (.receiveFilterDrop ⟨p, h⟩ ⟨ty, f⟩) s = .next s.settle)

/-- R317, R319, R320, R329, R330: a CYCLIC frame counts, is heard, and enters its publisher's image; SAFETY frames give their PDUs to Tocsin and waiting PDUs leave
in one frame; a LASTGASP is recorded; ARP, echo and management requests to a served address within the policer are answered or queued. -/
def Obligations.NetworkFramesAreReceivedAndServed : Prop :=
  (∀ (s : State) (p : Path) (h : MacHead) (f : Sahvos), s.role p ≠ roleOff → s.sahvosUp = true → s.dropRx p h = none → s.tabor = false → badSahvos f 1 = false →
    Answers (.cyclicFrame ⟨p, h⟩ f) s fun t =>
      t.nrd p Reg.NET_RXCNT_CYCLIC = min (s.nrd p Reg.NET_RXCNT_CYCLIC + 1) 65535 ∧ (t.path p).heard = true ∧
      t.publisher (publisherOf f) =
        ((s.publisher (publisherOf f)).addPart f.stroke f.nparts.toNat f.part.toNat f.units.toNat false
          (f.entries.map fun e => (e.1.toNat, SigWord.ofBits e.2))).1 ∧
      RegsKept [netBase p + Reg.NET_RXCNT_CYCLIC.off, netBase p + Reg.NET_STATUS_ARMED.off, netBase p + Reg.NET_DROPCNT_CONFLICT.off] s t) ∧
  (∀ (s : State) (p : Path) (h : MacHead) (f : Sahvos), s.role p ≠ roleOff → s.sahvosUp = true → s.dropRx p h = none → badSahvos f 1 = true →
    exec (.cyclicFrame ⟨p, h⟩ f) s = .next (s.bump (netBase p) Reg.NET_ERRCNT_FILTERED).settle) ∧
  (∀ (s : State) (p : Path) (h : MacHead) (f : Sahvos), s.role p ≠ roleOff → s.sahvosUp = true → s.dropRx p h = none → s.tabor = false → badSahvos f 2 = false →
    exec (.networkSafetyFrame ⟨p, h⟩ f) s = .next (f.pdus.foldl State.receivePdu (s.bump (netBase p) Reg.NET_RXCNT_SAFETY)).settle) ∧
  (∀ s : State, s.net.outPdus ≠ [] → s.sends .a = true → s.tabor = false → (s.path .a).queue = [] → (s.path .a).next = [] →
    Answers .safetyFrameSend s fun t =>
      t.outbox = s.outbox ++ [.sahvos .a (s.netFrame .a 2 false 0 1 (s.net.outPdus.take 32).length
        ((s.net.outPdus.take 32).flatMap fun d => leList d.toNat 16))] ∧
      t.net.outPdus = s.net.outPdus.drop 32 ∧ RegsKept [] s t) ∧
  (∀ (s u : State) (p : Path), s.net.outPdus ≠ [] → [Path.a, Path.b].find? s.sends = some p → s.tabor = false → u = s.pump p →
    Answers .safetyFrameSend s fun t =>
      t.outbox = u.outbox ++ [.sahvos p (u.netFrame p 2 false 0 1 (s.net.outPdus.take 32).length
        ((s.net.outPdus.take 32).flatMap fun d => leList d.toNat 16))] ∧
      t.net.outPdus = s.net.outPdus.drop 32) ∧
  (∀ s : State, s.sends .a = false → s.sends .b = false →
    Answers .safetyFrameSend s fun t => t.net.outPdus = [] ∧ t.outbox = s.outbox ∧ RegsKept [] s t) ∧
  (∀ (s : State) (p : Path) (h : MacHead) (f : Sahvos), s.role p ≠ roleOff → s.sahvosUp = true → s.dropRx p h = none → s.tabor = false → badSahvos f 5 = false →
      s.recd.queue.length < 4096 → s.rd recBase Reg.REC_STATUS_STATE ≠ 0 →
    Answers (.lastgaspReceive ⟨p, h⟩ f) s fun t =>
      (∃ o, t.recd.queue = s.recd.queue ++ [o] ∧ o.src = 10 ∧ o.index = f.addr.toNat ∧ o.mag = toF32c f.station.toNat) ∧ RegsKept [] s t) ∧
  (∀ (s : State) (p : Path) (h : MacHead) (ip : BitVec 32) (mac : BitVec 48), s.servesIp p ip = true → s.sahvosUp = true → s.dropRx p h = none → 1 ≤ (s.path p).bucket →
    Answers (.arpRequest ⟨p, h⟩ ip mac) s fun t => t.outbox = s.outbox ++ [.arpReply p mac] ∧ RegsKept [] s t) ∧
  (∀ (s : State) (p : Path) (h : MacHead) (ip from_ : BitVec 32), s.servesIp p ip = true → s.sahvosUp = true → s.dropRx p h = none → 1 ≤ (s.path p).bucket →
    Answers (.icmpEcho ⟨p, h⟩ ip from_) s fun t => t.outbox = s.outbox ++ [.icmpReply p from_] ∧ RegsKept [] s t) ∧
  (∀ (s : State) (p : Path) (h : MacHead) (ip : BitVec 32) (mac : BitVec 48), s.role p ≠ roleOff → s.sahvosUp = true → s.dropRx p h = none → s.servesIp p ip = false →
    exec (.arpRequest ⟨p, h⟩ ip mac) s = .next (s.bump (netBase p) Reg.NET_ERRCNT_FILTERED).settle) ∧
  (∀ (s : State) (p : Path) (mac : BitVec 48) (d : Option (BitVec 32 × BitVec 32 × BitVec 16)) (m : MacHead) (h : Sahvos) (bytes : List Byte),
      s.role p ≠ roleOff → s.sahvosUp = true → s.dropRx p m = none →
      (s.mreqFiltered p (d.map Prod.fst) h bytes = true ∨ (d = none ∧ m.dst ≠ macOf p)) →
    exec (.mreq ⟨p, m⟩ d ⟨mac, h, bytes⟩) s = .next (s.bump (netBase p) Reg.NET_ERRCNT_FILTERED).settle) ∧
  (∀ (s u : State) (p : Path) (mac : BitVec 48) (d : Option (BitVec 32 × BitVec 32 × BitVec 16)) (m : MacHead) (h : Sahvos) (bytes : List Byte),
      s.role p ≠ roleOff → s.sahvosUp = true → s.dropRx p m = none → (d = none → m.dst = macOf p) →
      s.mreqFiltered p (d.map Prod.fst) h bytes = false → s.police p = (true, u) →
    exec (.mreq ⟨p, m⟩ d ⟨mac, h, bytes⟩) s =
      .next ((u.bump (netBase p) Reg.NET_MGMTCNT_MREQ).arrive
        ⟨d.elim (.mac p mac) fun d => .udp p d.2.1 d.2.2 mac, h.count.toNat, bytes⟩).settle) ∧
  (∀ (s : State) (mac : BitVec 48) (m : MacHead) (h : Sahvos) (bytes : List Byte) (r : MgmtReq), s.role .a ≠ roleOff → s.sahvosUp = true →
      s.dropRx .a m = none → m.dst = macOf .a → 1 ≤ (s.path .a).bucket →
      Served s .na → s.mgmt.memory = [] → s.mgmt.queue = [] → s.mreqFiltered .a none h bytes = false → r = ⟨.mac .a mac, h.count.toNat, bytes⟩ →
      r.reject = none →
    Answers (.mreq ⟨.a, m⟩ none ⟨mac, h, bytes⟩) s fun t =>
      t.mgmt.queue = [(s.time.cycles, r)] ∧ t.outbox = s.outbox ∧
      t.nrd .a Reg.NET_MGMTCNT_MREQ = min (s.nrd .a Reg.NET_MGMTCNT_MREQ + 1) 65535 ∧ RegsKept [netBase .a + Reg.NET_MGMTCNT_MREQ.off] s t)

/-- R326, R328, R331: an armed ACTIVE path with two missed cycles switches over at the next boundary where the other is eligible, else has no alternative; it follows a
CALL; a CALL ends; SWITCH names an eligible standby path; stored registers are written in their states through the service port, where the journal takes the write.
(Readings and choices of the model that it rests on: log entries 5, 53, 142.) -/
def Obligations.PathsSwitchOverAndRegistersAreStored : Prop :=
  (∀ (s : State) (p : Path), s.pathActive p = true → s.nflag p Reg.NET_STATUS_ARMED = true → 2 ≤ s.nrd p Reg.NET_STATUS_MISS → s.net.pendingKind < 2 →
      s.tabor = false → s.mst ≠ stPfail → s.elig (otherPath p) = true →
    Answers (.switchoverTrigger p) s fun t =>
      t.nflag p Reg.NET_STATUS_SWPEND = true ∧ t.net.pendingKind = 3 ∧
      t.nrd p Reg.NET_MISSCNT_SWITCHOVERS = min (s.nrd p Reg.NET_MISSCNT_SWITCHOVERS + 1) 65535 ∧ t.role p = s.role p ∧
      RegsKept [netBase p + Reg.NET_STATUS_SWPEND.off, netBase p + Reg.NET_MISSCNT_SWITCHOVERS.off] s t) ∧
  (∀ (s : State) (p : Path), s.pathActive p = true → s.nflag p Reg.NET_STATUS_ARMED = true → 2 ≤ s.nrd p Reg.NET_STATUS_MISS → s.net.pendingKind < 2 →
      s.tabor = false → s.mst ≠ stPfail → s.elig (otherPath p) = false →
    exec (.switchoverTrigger p) s = .next (s.nset p Reg.NET_STATUS_NOALT true).settle) ∧
  (∀ (s : State) (p : Path), s.pathActive p = true → s.follow = true → 2 ≤ (s.path (otherPath p)).callRun → s.elig (otherPath p) = true →
      s.net.pendingKind < 2 → s.tabor = false → s.mst ≠ stPfail → s.nrd p Reg.NET_STATUS_MISS < 2 → s.nflag p Reg.NET_STATUS_NOALT = false →
    Answers (.callFollow p) s fun t =>
      t.nflag p Reg.NET_STATUS_SWPEND = true ∧ t.net.pendingKind = 2 ∧
      t.nrd p Reg.NET_MGMTCNT_FOLLOWS = min (s.nrd p Reg.NET_MGMTCNT_FOLLOWS + 1) 65535) ∧
  (∀ (s : State) (p : Path), s.nflag p Reg.NET_STATUS_CALLING = true → (s.path p).calls = 0 →
    exec (.callEnd p) s = .next (s.nset p Reg.NET_STATUS_CALLING false).settle) ∧
  (∀ (s : State) (port : Port) (p : Path), Served s port → s.tabor = false → s.mst ∈ [stReady, stRun, stService] →
      s.nflag .a Reg.NET_STATUS_SWPEND = false → s.nflag .b Reg.NET_STATUS_SWPEND = false → s.role p = roleStandby → s.elig p = true →
      s.pathActive (otherPath p) = true →
    Answers (.switch port p) s fun t =>
      t.net.pendingKind = 1 ∧ t.nflag (otherPath p) Reg.NET_STATUS_SWPEND = true ∧
      t.outbox = s.outbox ++ [.result port E_OK] ∧ RegsKept [netBase (otherPath p) + Reg.NET_STATUS_SWPEND.off] s t) ∧
  (∀ (s : State) (port : Port) (p : Path), Served s port → s.tabor = true → exec (.switch port p) s = .next (s.answer port E_TABOR).settle) ∧
  (∀ (s : State) (port : Port) (p : Path), Served s port → s.tabor = false → s.mst ∉ [stReady, stRun, stService] →
    exec (.switch port p) s = .next (s.answer port E_STATE).settle) ∧
  (∀ (s u : State) (a : BitVec 32) (r : StoredReg) (w : Word) (o : NvOutcome), Served s .service → storedAt a.toNat = some r →
      s.storedCheck .service r w = E_OK → s.commitTxn (storedHome a.toNat) o = (E_OK, u) → u.storedCheck .service r w = E_OK →
    exec (.storedRegisterWrite .service a w o) s =
      .next ((if r.staged then u.modFab fun f => { f with staged := f.staged ++ [(a.toNat, w)] } else u.putStored r a.toNat w).answer .service E_OK).settle) ∧
  (∀ (s : State) (w : Word), Served s .service → s.storedCheck .service .recCfg w = E_OK → JournalTakes s (storedHome (recBase + 0x20)) →
    Answers (.storedRegisterWrite .service (BitVec.ofNat 32 (recBase + 0x20)) w .clean) s fun t =>
      t.reg (recBase + 0x20) = w ∧ t.outbox = s.outbox ++ [.result .service E_OK] ∧ RegsKept ((recBase + 0x20) :: journalRegs) s t) ∧
  (∀ (s : State) (a : BitVec 32) (r : StoredReg) (w : Word) (o : NvOutcome), Served s .service → storedAt a.toNat = some r →
      s.storedCheck .service r w = E_OK → (s.commitTxn (storedHome a.toNat) o).1 ≠ E_OK →
    Answers (.storedRegisterWrite .service a w o) s fun t => t.fab.staged = s.fab.staged ∧ t.outbox = s.outbox ++ [.result .service E_NV_FAIL]) ∧
  (∀ (s : State) (p : Port) (w : Word) (o : NvOutcome), Served s p → p ≠ .service →
    exec (.storedRegisterWrite p (BitVec.ofNat 32 (recBase + 0x20)) w o) s = .next (s.answer p E_ACCESS).settle) ∧
  (∀ (s : State) (w : Word) (o : NvOutcome), Served s .service → s.mst = stRun →
    exec (.storedRegisterWrite .service (BitVec.ofNat 32 (recBase + 0x20)) w o) s = .next (s.answer .service E_STATE).settle)

/-! The time base (12). -/

/-- R334, R341–R344: an accepted Sync of the parent counts, names its port and is kept for the next measurement, a two-step one with its Follow_Up; others are discarded;
a Delay_Req leaves on the port of the parent; the best of the masters heard gives the parent's data, on the chain address 1; followers found off are reloaded at the next
compare, and the fourth in a row is a region fault; the chain's time master sends Sync and Announce and answers Delay_Req.
(Readings and choices of the model that it rests on: log entries 143, 144, 145.) -/
def Obligations.TimeMessagesAreUsedOrDiscarded : Prop :=
  (∀ (s : State) (f : PtpFrom) (h : PtpHead) (b : PtpBody), PtpHeard s f → s.ptpUsed f = true → s.fromParent h = true →
      intervalIn (-7) 1 h.logInterval = true → s.servoState ≠ svLocked → s.time.moved = false →
    Answers (.syncMessage f h false false b) s fun t =>
      t.trd Reg.TM_PCNT_SYNCRX = min (s.trd Reg.TM_PCNT_SYNCRX + 1) 65535 ∧ t.trd Reg.TM_STATUS_PORT = ptpCode f ∧ t.time.half = none ∧
      (∃ arrived : Int, t.time.sync = some (ptpTime b, arrived, b.correction.toInt) ∧
        (arrived - s.nowNs * 65536).natAbs ≤ s.stampError f * 65536) ∧
      RegsKept [tmBase + Reg.TM_PCNT_SYNCRX.off, tmBase + Reg.TM_STATUS_PORT.off] s t) ∧
  (∀ (s u : State) (f : PtpFrom) (h : PtpHead) (two : Bool) (b : PtpBody) (arrived : Int), PtpHeard s f → s.ptpUsed f = true → s.fromParent h = true →
      intervalIn (-7) 1 h.logInterval = true → s.stamp f = (arrived, u) →
    exec (.syncMessage f h false two b) s =
      .next (if two then u.modTime fun x => { x with half := some (h.seq, arrived, b.correction.toInt) }
        else u.acceptSync f (ptpTime b) arrived b.correction.toInt).settle) ∧
  (∀ (s : State) (f : PtpFrom) (h : PtpHead) (two : Bool) (b : PtpBody) (seq : BitVec 16) (arrived corr : Int), PtpHeard s f → s.ptpUsed f = true →
      s.fromParent h = true → intervalIn (-7) 1 h.logInterval = true → s.time.half = some (seq, arrived, corr) →
    exec (.syncMessage f h true two b) s =
      .next (if seq = h.seq then s.acceptSync f (ptpTime b) arrived (corr + b.correction.toInt)
        else s.bump tmBase Reg.TM_PCNT_DISCARDS).settle) ∧
  (∀ (s : State) (f : PtpFrom) (h : PtpHead) (fu two : Bool) (b : PtpBody), PtpHeard s f →
      (s.ptpUsed f = false ∨ s.fromParent h = false ∨ intervalIn (-7) 1 h.logInterval = false ∨
        (fu = true ∧ s.time.half = none)) →
    exec (.syncMessage f h fu two b) s = .next (s.bump tmBase Reg.TM_PCNT_DISCARDS).settle) ∧
  (∀ s u : State, s.ptpUp = true → s.time.parent ≠ none → s.tsrc = 1 → u = s.draw.2 →
    exec .delayReqSend s =
      .next ((u.sendPtp 1 (u.ptpMessage 1 0 1 0x7F 0 (s.draw.1.setWidth 16) u.ptpStamp)).sentReq (.chain 1) (s.draw.1.setWidth 16)).settle) ∧
  (∀ s : State, s.ptpUp = true → s.time.parent ≠ none → s.tsrc = 0 → s.pathActive .a = true →
    Answers .delayReqSend s fun t =>
      ∃ (seq : BitVec 16) (left : Int), t.time.req = some (seq, left) ∧
        t.outbox = s.outbox ++ [.ptp .a ptpMac (s.nrd .a Reg.NET_VLAN_VID) (s.nrd .a Reg.NET_VLAN_PCPDATA) 0x88F7
          (s.ptpMessage 1 0 1 0x7F 0 seq s.ptpStamp)]) ∧
  (∀ (s : State) (src : BitVec 8) (a : Announce) (changed : Bool), s.ptpUp = true → s.ptpUsed (.chain src) = true →
      a.head.domain.toNat = s.trd Reg.TM_CFG_DOMAIN → intervalIn (-3) 4 a.head.logInterval = true →
      changed = (s.time.parent.isSome && s.time.parent != some a.head.sender && s.servoState != svFree) →
    Answers (.announce (.chain src) a.head a.gm a.steps a.utc) s fun t =>
      t.time.parent = some a.head.sender ∧ t.trd Reg.TM_STATUS_PORT = 2 ∧ t.time.quality = (a.gm.priority1, a.gm.variance, a.gm.priority2) ∧
      t.rdw tmBase Reg.TM_GMID_LO = BitVec.ofNat 32 a.gm.id.toNat ∧ t.rdw tmBase Reg.TM_GMID_HI = BitVec.ofNat 32 (a.gm.id.toNat / 2 ^ 32) ∧
      t.trd Reg.TM_GMQ_CLASS = a.gm.clockClass.toNat ∧ t.trd Reg.TM_GMQ_STEPS = a.steps.toNat ∧
      t.servoState = (if changed && s.servoState == svLocked then svSlew else s.servoState) ∧
      t.trd Reg.TM_CNT_MCHANGES = (if changed then min (s.trd Reg.TM_CNT_MCHANGES + 1) 65535 else s.trd Reg.TM_CNT_MCHANGES)) ∧
  (∀ (s : State) (p : Path) (h : MacHead) (a : Announce), PtpHeard s (.path p h) → s.ptpUsed (.path p h) = true →
      a.head.domain.toNat = s.trd Reg.TM_CFG_DOMAIN → intervalIn (-3) 4 a.head.logInterval = true → a.head.sender ≠ Config.clockIdentity → a.steps.toNat < 255 →
    exec (.announce (.path p h) a.head a.gm a.steps a.utc) s =
      .next (match (s.keepMaster a).bestMaster with
        | some b => (s.keepMaster a).selectMaster (pathNum p) b
        | none => s.keepMaster a).settle) ∧
  (∀ (s : State) (p : Path) (h : MacHead) (a : Announce), PtpHeard s (.path p h) → s.ptpUsed (.path p h) = true →
      a.head.domain.toNat = s.trd Reg.TM_CFG_DOMAIN → intervalIn (-3) 4 a.head.logInterval = true → a.head.sender ≠ Config.clockIdentity → a.steps.toNat < 255 →
      s.time.masters = [] →
    Answers (.announce (.path p h) a.head a.gm a.steps a.utc) s fun t =>
      t.time.masters = [⟨a, s.time.cycles, false⟩] ∧ t.time.parent = s.time.parent ∧ RegsKept [] s t) ∧
  (∀ (s : State) (p : Path) (h : MacHead) (a b : Announce) (t0 : Nat), PtpHeard s (.path p h) → s.ptpUsed (.path p h) = true →
      a.head.domain.toNat = s.trd Reg.TM_CFG_DOMAIN → intervalIn (-3) 4 a.head.logInterval = true → a.head.sender ≠ Config.clockIdentity → a.steps.toNat < 255 →
      s.time.masters = [⟨b, t0, false⟩] → b.head.sender = a.head.sender → s.time.cycles - t0 ≤ 4 * intervalCycles a.head.logInterval.toInt →
    Answers (.announce (.path p h) a.head a.gm a.steps a.utc) s fun t =>
      t.time.parent = some a.head.sender ∧ t.trd Reg.TM_STATUS_PORT = pathNum p ∧ t.rdw tmBase Reg.TM_GMID_LO = BitVec.ofNat 32 a.gm.id.toNat) ∧
  (∀ (s : State) (f : PtpFrom) (a : Announce), PtpHeard s f →
      (s.ptpUsed f = false ∨ a.head.domain.toNat ≠ s.trd Reg.TM_CFG_DOMAIN ∨ intervalIn (-3) 4 a.head.logInterval = false) →
    exec (.announce f a.head a.gm a.steps a.utc) s = .next (s.bump tmBase Reg.TM_PCNT_DISCARDS).settle) ∧
  (∀ (s : State) (drift : List (BitVec 16)), s.time.reloads = [0, 0, 0, 0, 0] →
      (∀ r < 5, (s.time.followers.getD r 0 + (drift.getD r 0).toInt).natAbs ≤ 4) →
    Answers (.followerCompare drift) s fun t =>
      t.time.followers = (List.range 5).map (fun r => s.time.followers.getD r 0 + (drift.getD r 0).toInt) ∧ t.time.reloads = [0, 0, 0, 0, 0] ∧
      t.trd Reg.TM_CNT2_FOLLOWERR = s.trd Reg.TM_CNT2_FOLLOWERR ∧ t.mst = s.mst ∧ RegsKept [tmBase + Reg.TM_CNT2_FOLLOWERR.off] s t) ∧
  (∀ (s : State) (drift : List (BitVec 16)) (diff : List Int) (runs : List Nat),
      diff = (List.range 5).map (fun r => s.time.followers.getD r 0 + (drift.getD r 0).toInt) →
      runs = (List.range 5).map (fun r => if 4 < (diff.getD r 0).natAbs then s.time.reloads.getD r 0 + 1 else 0) →
    exec (.followerCompare drift) s =
      .next ((((List.range 5).filter fun r => runs.getD r 0 == 4).foldl State.regionFault
        ((s.bumpBy tmBase Reg.TM_CNT2_FOLLOWERR ((List.range 5).filter fun r => s.time.reloads.getD r 0 != 0).length).modTime fun x =>
          { x with followers := (List.range 5).map (fun r => if s.time.reloads.getD r 0 != 0 then 0 else diff.getD r 0), reloads := runs })).settle)) ∧
  (∀ (s : State) (d : Int), s.time.reloads = [1, 0, 0, 0, 0] → s.time.followers = [d, 0, 0, 0, 0] → d.natAbs ≤ 4 →
    Answers (.followerCompare []) s fun t =>
      t.time.followers = [0, 0, 0, 0, 0] ∧ t.time.reloads = [0, 0, 0, 0, 0] ∧
      t.trd Reg.TM_CNT2_FOLLOWERR = min (s.trd Reg.TM_CNT2_FOLLOWERR + 1) 65535) ∧
  (∀ (s : State) (d : BitVec 16), s.time.reloads = [3, 0, 0, 0, 0] → s.time.followers = [0, 0, 0, 0, 0] → 4 < d.toInt.natAbs →
    Answers (.followerCompare [d]) s fun t => t.flag modBase (regFltField 0) = true) ∧
  (∀ s : State, s.ptpUp = true → s.chainMaster = true →
    exec .chainSyncSend s =
      .next (s.draw.2.sendPtp 0x7F (s.draw.2.ptpMessage 0 0 0 s.draw.2.logSync 0 (s.draw.1.setWidth 16) s.draw.2.ptpStamp)).settle) ∧
  (∀ s u : State, s.ptpUp = true → s.chainMaster = true → s.tsrc = 2 → u = s.draw.2.draw.2 →
    ∃ (seq var : BitVec 16) (p1 p2 acc src : Byte),
      exec .chainAnnounceSend s =
        .next (u.sendPtp 0x7F (u.ptpMessage 11 0 5 0 0 seq (u.ptpStamp ++ beBytes 0 2 ++ [0, p1, 248, acc] ++ beBytes var.toNat 2 ++ [p2] ++
          beBytes Config.clockIdentity.toNat 8 ++ beBytes 0 2 ++ [src]))).settle) ∧
  (∀ s u : State, s.ptpUp = true → s.chainMaster = true → s.tsrc = 0 → u = s.draw.2.draw.2 →
    ∃ (seq : BitVec 16) (src : Byte),
      exec .chainAnnounceSend s =
        .next (u.sendPtp 0x7F (u.ptpMessage 11 (4 * s.trd Reg.TM_UTC_UTCVALID + 8 * s.trd Reg.TM_UTC_PTPTS) 5 0 0 seq (u.ptpStamp ++
          beBytes (s.trd Reg.TM_UTC_UTCOFF) 2 ++ [0, s.time.quality.1, BitVec.ofNat 8 (s.trd Reg.TM_GMQ_CLASS), BitVec.ofNat 8 (s.trd Reg.TM_GMQ_ACCURACY)] ++
          beBytes s.time.quality.2.1.toNat 2 ++ [s.time.quality.2.2] ++ beBytes (s.rdw tmBase Reg.TM_GMID_HI ++ s.rdw tmBase Reg.TM_GMID_LO).toNat 8 ++
          beBytes ((s.trd Reg.TM_GMQ_STEPS + 1) % 65536) 2 ++ [src]))).settle) ∧
  (∀ (s : State) (src : BitVec 8) (seq : BitVec 16) (who : BitVec 80) (corr : BitVec 64), s.ptpUp = true → s.chainMaster = true →
    exec (.chainDelayReq ⟨src, seq, who, corr⟩) s =
      .next (s.sendPtp src (s.ptpMessage 9 0 3 s.logSync corr seq (s.ptpStamp ++ beBytes who.toNat 10))).settle) ∧
  (∀ (s : State) (src : BitVec 8) (seq : BitVec 16) (who : BitVec 80) (corr : BitVec 64), s.ptpUp = true → s.chainMaster = false →
    exec (.chainDelayReq ⟨src, seq, who, corr⟩) s = .next (s.bump tmBase Reg.TM_PCNT_DISCARDS).settle)

/-- R337–R339, R350, R352: a Delay_Resp that answers the outstanding request completes a measurement, and any other is not used; a first offset within 1 ms leads from FREE to SLEW with valid time; a second offset beyond 1 ms that agrees with the first steps the time; silence
leads to HOLDOVER with ADDEND at HOLDADD, and to the best other master; TM.SET within 1 ms slews, beyond it steps, and is refused to other ports, values and states.
(Readings and choices of the model that it rests on: log entries 26, 98, 143, 144.) -/
def Obligations.ServoSlewsStepsAndHolds : Prop :=
  (∀ (s : State) (f : PtpFrom) (h : PtpHead) (r : DelayAnswer) (sent arrived corr left delay : Int), PtpHeard s f → Measures s f h r sent arrived corr left →
      delay = (arrived - sent - corr + (ptpTime r.body - left - r.body.correction.toInt)) / 2 →
    exec (.delayResp f h r) s =
      .next ((((s.wrw tmBase Reg.TM_MPD (BitVec.ofNat 32 (min (2 ^ 32 - 1) (wholeOf (mkRat delay 65536)).toNat))).modTime fun x =>
        { x with req := none, delay := some delay, moved := false }).measure delay).settle)) ∧
  (∀ (s : State) (f : PtpFrom) (h : PtpHead) (r : DelayAnswer) (sent arrived corr left delay o : Int), PtpHeard s f → Measures s f h r sent arrived corr left →
      delay = (arrived - sent - corr + (ptpTime r.body - left - r.body.correction.toInt)) / 2 →
      o = wholeOf (mkRat (arrived - sent - corr - delay) 65536) - s.asym → s.servoState = svFree → s.time.prevOffset = none → o.natAbs ≤ 1000000 →
      s.trd Reg.TM_STATUS_BIGBACK = 0 →
    Answers (.delayResp f h r) s fun t =>
      t.servoState = svSlew ∧ t.trd Reg.TM_STATUS_TIMEVALID = 1 ∧ (t.rdw tmBase Reg.TM_OFFSET).toInt = o ∧ t.time.prevOffset = some o ∧
      t.time.req = none ∧ t.time.delay = some delay ∧ t.nowNs = s.nowNs) ∧
  (∀ (s : State) (f : PtpFrom) (h : PtpHead) (r : DelayAnswer) (sent arrived corr left delay o q : Int), PtpHeard s f → Measures s f h r sent arrived corr left →
      delay = (arrived - sent - corr + (ptpTime r.body - left - r.body.correction.toInt)) / 2 →
      o = wholeOf (mkRat (arrived - sent - corr - delay) 65536) - s.asym → s.time.prevOffset = some q → 1000000 < q.natAbs → 1000000 < o.natAbs →
      agree q o = true → s.mst ∉ [stRun, stService] → s.trd Reg.TM_STATUS_BIGBACK = 0 → 8 ≤ (s.nowNs : Int) - o →
      (s.nowNs : Int) - o + 8 < 2 ^ 48 * 1000000000 →
    Answers (.delayResp f h r) s fun t =>
      ((t.nowNs : Int) - (s.nowNs - o)).natAbs ≤ 8 ∧ t.servoState = svSlew ∧ t.trd Reg.TM_STATUS_TIMEVALID = 1 ∧
      t.trd Reg.TM_CNT_STEPS = min (s.trd Reg.TM_CNT_STEPS + 1) 65535) ∧
  (∀ (s : State) (f : PtpFrom) (h : PtpHead) (r : DelayAnswer), PtpHeard s f →
      (s.ptpUsed f = false ∨ s.fromParent h = false ∨ r.requester ≠ portIdentity ∨ s.time.req = none ∨ s.time.sync = none) →
    exec (.delayResp f h r) s = .next (s.bump tmBase Reg.TM_PCNT_DISCARDS).settle) ∧
  (∀ s : State, s.servoState = svSlew ∨ s.servoState = svLocked → s.time.masters = [] →
    Answers .holdoverTimeout s fun t =>
      t.servoState = svHoldover ∧ t.trd Reg.TM_CNT2_HOLDOVERS = min (s.trd Reg.TM_CNT2_HOLDOVERS + 1) 65535 ∧
      t.addend = max (-8589934) (min 8589934 s.holdadd) ∧
      RegsKept [tmBase + Reg.TM_STATUS_STATE.off, tmBase + Reg.TM_CNT2_HOLDOVERS.off] s t) ∧
  (∀ s : State, s.servoState = svFree ∨ s.servoState = svHoldover → s.time.masters = [] → exec .holdoverTimeout s = .next s.settle) ∧
  (∀ (s : State) (a : Announce), s.servoState = svFree ∨ s.servoState = svHoldover → s.ptpUp = true → s.tsrc = 0 → s.pathActive .a = true →
      s.bestMaster = some a → exec .holdoverTimeout s = .next (s.selectMaster 0 a).settle) ∧
  (∀ (s : State) (ns slo shi : Word), Served s .service → ns.toNat < 1000000000 → shi.toNat < 65536 →
      s.servoState = svFree →
      (((slo.toNat + shi.toNat * 2 ^ 32) * 1000000000 + ns.toNat : Nat) - (s.nowNs : Int)).natAbs ≤ 1000000 →
    Answers (.tmSet .service ns slo shi) s fun t =>
      t.time.slew = (((slo.toNat + shi.toNat * 2 ^ 32) * 1000000000 + ns.toNat) * 2 ^ 32 : Nat) - (s.now32 : Int) ∧ t.nowNs = s.nowNs ∧
      t.trd Reg.TM_STATUS_TIMEVALID = 1 ∧ t.outbox = s.outbox ++ [.result .service E_OK] ∧
      RegsKept [tmBase + Reg.TM_STATUS_TIMEVALID.off] s t) ∧
  (∀ (s : State) (ns slo shi : Word), Served s .service → ns.toNat < 1000000000 → shi.toNat < 65536 → s.mst ∉ [stRun, stService] →
      s.servoState = svFree →
      1000000 < (((slo.toNat + shi.toNat * 2 ^ 32) * 1000000000 + ns.toNat : Nat) - (s.nowNs : Int)).natAbs →
    Answers (.tmSet .service ns slo shi) s fun t =>
      t.nowNs = (slo.toNat + shi.toNat * 2 ^ 32) * 1000000000 + ns.toNat ∧
      t.trd Reg.TM_CNT_STEPS = min (s.trd Reg.TM_CNT_STEPS + 1) 65535 ∧ t.trd Reg.TM_STATUS_TIMEVALID = 1 ∧
      t.outbox = s.outbox ++ [.result .service E_OK]) ∧
  (∀ (s : State) (p : Port) (ns slo shi : Word), Served s p → p ≠ .service →
    exec (.tmSet p ns slo shi) s = .next (s.answer p E_ACCESS).settle) ∧
  (∀ (s : State) (ns slo shi : Word), Served s .service → 1000000000 ≤ ns.toNat →
    exec (.tmSet .service ns slo shi) s = .next (s.answer .service E_RANGE).settle) ∧
  (∀ (s : State) (ns slo shi : Word), Served s .service → ns.toNat < 1000000000 → s.servoState = svLocked →
    exec (.tmSet .service ns slo shi) s = .next (s.answer .service E_STATE).settle)

/-! CAN ports (13). -/

/-- R354, R357, R358, R369: integration leads to ERROR_ACTIVE; the counters lead to ERROR_PASSIVE and BUS_OFF, counted; recovery leads back with TEC 0, at once only where it
was asked for; a receive error shows its code and sends an error frame; a supply fault turns the controller OFF and isolates its mailboxes.
(Readings and choices of the model that it rests on: log entries 30, 99.) -/
def Obligations.CanControllersChangeState : Prop :=
  (∀ (s : State) (c : Fin 2), s.canState c = ceIntegrating →
    exec (.canIntegration c) s = .next (s.cwr c Reg.CAN_STATUS_ESTATE ceActive).settle) ∧
  (∀ (s : State) (c : Fin 2) (tx rx : BitVec 5) (tec rec_ : Nat), s.canLive c = true → Counters s c (8 * tx.toNat) (8 * rx.toNat) tec rec_ → tec ≤ 127 →
      rec_ ≤ 127 →
    Answers (.canErrorStateChange c tx rx) s fun t =>
      t.canState c = ceActive ∧ t.crd c Reg.CAN_ECNT_TEC = tec ∧ t.crd c Reg.CAN_ECNT_REC = rec_ ∧ t.cflag c Reg.CAN_ECNT_RP = false) ∧
  (∀ (s : State) (c : Fin 2) (tx rx : BitVec 5) (tec rec_ : Nat), s.canLive c = true → Counters s c (8 * tx.toNat) (8 * rx.toNat) tec rec_ → 127 < tec →
      tec ≤ 255 →
    Answers (.canErrorStateChange c tx rx) s fun t => t.canState c = cePassive ∧ t.crd c Reg.CAN_ECNT_TEC = tec) ∧
  (∀ (s : State) (c : Fin 2) (tx rx : BitVec 5) (tec rec_ : Nat), s.canLive c = true → Counters s c (8 * tx.toNat) (8 * rx.toNat) tec rec_ → tec ≤ 127 →
      127 < rec_ →
    Answers (.canErrorStateChange c tx rx) s fun t =>
      t.canState c = cePassive ∧ t.crd c Reg.CAN_ECNT_TEC = tec ∧ t.crd c Reg.CAN_ECNT_REC = 127 ∧ t.cflag c Reg.CAN_ECNT_RP = true) ∧
  (∀ (s : State) (c : Fin 2) (tx rx : BitVec 5), s.canLive c = false → exec (.canErrorStateChange c tx rx) s = .next s.settle) ∧
  (∀ (s : State) (c : Fin 2) (tx rx : BitVec 5) (tec rec_ : Nat), s.canLive c = true → Counters s c (8 * tx.toNat) (8 * rx.toNat) tec rec_ → 255 < tec →
    Answers (.canErrorStateChange c tx rx) s fun t =>
      t.canState c = ceBusOff ∧ t.crd c Reg.CAN_CNT_BUSOFFS = min (s.crd c Reg.CAN_CNT_BUSOFFS + 1) 65535 ∧ (t.can c).queue = [] ∧
      (t.can c).onBus = none) ∧
  (∀ (s : State) (c : Fin 2), s.canState c = ceBusOff → (s.cflag c Reg.CAN_CFG_BOAUTO = true ∨ (s.can c).recovering = true) →
    Answers (.busOffRecovery c) s fun t => t.canState c = ceActive ∧ t.crd c Reg.CAN_ECNT_TEC = 0 ∧ (t.can c).recovering = false) ∧
  (∀ (s : State) (c : Fin 2), s.canState c = ceBusOff → s.cflag c Reg.CAN_CFG_BOAUTO = false → (s.can c).recovering = false →
    exec (.busOffRecovery c) s = .next s.settle) ∧
  (∀ (s : State) (p : Port) (c : Fin 2), Served s p → s.canState c = ceBusOff →
    exec (.canRecover p c) s = .next ((s.modCan c fun x => { x with recovering := true }).answer p E_OK).settle) ∧
  (∀ (s : State) (p : Port) (c : Fin 2), Served s p → s.canState c ≠ ceBusOff → exec (.canRecover p c) s = .next (s.answer p E_STATE).settle) ∧
  (∀ (s : State) (c : Fin 2) (more : BitVec 5) (tec rec_ : Nat), s.canLive c = true → s.canMonitor c = false →
      Counters s c 0 (1 + 8 * more.toNat) tec rec_ → rec_ ≤ 127 → tec ≤ 127 →
    Answers (.canReceiveError c .crc more) s fun t =>
      t.crd c Reg.CAN_STATUS_LEC = 6 ∧ t.crd c Reg.CAN_ECNT_REC = rec_ ∧ t.outbox = s.outbox ++ [.canError c] ∧ t.canState c = ceActive) ∧
  (∀ (s : State) (c : Fin 2) (e : CanFail) (n : Nat) (more : BitVec 5) (tec rec_ : Nat), s.canLive c = true → lecCode e = some n →
      Counters s c 0 (1 + 8 * more.toNat) tec rec_ → tec ≤ 255 →
    Answers (.canReceiveError c e more) s fun t =>
      t.crd c Reg.CAN_STATUS_LEC = n ∧ t.crd c Reg.CAN_ECNT_REC = min 127 rec_ ∧ t.cflag c Reg.CAN_ECNT_RP = decide (127 < rec_) ∧
      t.canState c = (if tec ≤ 127 ∧ rec_ ≤ 127 then ceActive else cePassive) ∧
      t.outbox = s.outbox ++ (if s.canMonitor c then [] else [.canError c]) ∧ t.mbx = s.mbx) ∧
  (∀ (s : State) (c : Fin 2) (e : CanFail) (more : BitVec 5), s.canLive c = false → exec (.canReceiveError c e more) s = .next s.settle) ∧
  (∀ (s : State) (c : Fin 2),
    Answers (.transceiverSupplyFault c) s fun t =>
      (t.can c).supplyOk = false ∧ t.canState c = ceOff ∧
      (∀ m ∈ mailboxesOf c, s.exists_ (mbId m) = true → s.cst (mbId m) = csRun → t.cst (mbId m) = csFault)) ∧
  (∀ (s : State) (c : Fin 2),
    Answers (.transceiverSupplyGood c) s fun t =>
      (t.can c).supplyOk = true ∧ ∀ m ∈ mailboxesOf c, s.exists_ (mbId m) = true → (t.cell (mbId m)).cause = false) ∧
  (∀ (s : State) (c : Fin 2), s.canState c = ceOff → s.cflag c Reg.CAN_CFG_EN = true → s.mst ∈ [stReady, stRun, stSafe, stService] →
    Answers (.transceiverSupplyGood c) s fun t => (t.can c).supplyOk = true ∧ t.canState c = ceIntegrating ∧ t.crd c Reg.CAN_ECNT_TEC = 0)

/-- R354, R358, R366–R368: a data frame enters the first mailbox that matches, counted, and shows as new; one that none matches, and a remote frame, count, and each lowers
REC; a read gives the mailbox's words as they stood and clears NEW, and a frame that comes during it waits in the shadow for its end; a mailbox that is silent for TIMEOUT
times out.
(Readings and choices of the model that it rests on: log entry 5.) -/
def Obligations.MailboxesReceiveAndAreRead : Prop :=
  (∀ (s : State) (c : Fin 2) (f : CanFrame) (m : Nat), s.canLive c = true → f.fdf = false →
      ((mailboxesOf c).find? fun m => s.exists_ (mbId m) && mbMatches (s.cfg (mbId m) 0) f) = some m →
    Answers (.canFrameReceive c f) s fun t =>
      t.rd (cellBase (mbId m)) Reg.MBX_CNT_FRAMES = min (s.rd (cellBase (mbId m)) Reg.MBX_CNT_FRAMES + 1) 65535 ∧
      t.rd (cellBase (mbId m)) Reg.MBX_INFO_ID = f.id.toNat ∧ t.flag (cellBase (mbId m)) Reg.MBX_META_NEW = true ∧
      t.rd (cellBase (mbId m)) Reg.MBX_META_DLC = f.dlc.toNat ∧ t.reg (cellBase (mbId m) + 0x30) = BitVec.ofNat 32 (leNat ((frameData f).take 4)) ∧
      (t.mb m).newest = some f ∧ (t.mb m).fresh = true ∧ t.outbox = s.outbox) ∧
  (∀ (s : State) (c : Fin 2) (f : CanFrame), s.canLive c = true → f.fdf = false →
      ((mailboxesOf c).find? fun m => s.exists_ (mbId m) && mbMatches (s.cfg (mbId m) 0) f) = none →
    Answers (.canFrameReceive c f) s fun t =>
      t.crd c Reg.CAN_CNT2_NOMATCH = min (s.crd c Reg.CAN_CNT2_NOMATCH + 1) 65535 ∧ t.mbx = s.mbx ∧ t.outbox = s.outbox) ∧
  (∀ (s : State) (c : Fin 2) (f : CanFrame), s.canLive c = true → f.fdf = true → s.cflag c Reg.CAN_CFG_FDEN = false → s.canMonitor c = false →
    Answers (.canFrameReceive c f) s fun t => t.crd c Reg.CAN_STATUS_LEC = 2 ∧ t.mbx = s.mbx ∧ t.outbox = s.outbox ++ [.canError c]) ∧
  (∀ (s : State) (c : Fin 2), s.canLive c = true →
    exec (.remoteFrame c) s = .next ((s.goodReception c).bump (canBase c.val) Reg.CAN_CNT2_NOMATCH).settle) ∧
  (∀ (s : State) (c : Fin 2), s.canLive c = true → s.cflag c Reg.CAN_ECNT_RP = false →
    Answers (.remoteFrame c) s fun t =>
      t.crd c Reg.CAN_ECNT_REC = s.crd c Reg.CAN_ECNT_REC - 1 ∧ t.cflag c Reg.CAN_STATUS_ALONE = false ∧ t.crd c Reg.CAN_STATUS_ACKERRS = 0 ∧
      t.canState c = s.canState c ∧ t.mbx = s.mbx ∧ t.outbox = s.outbox) ∧
  (∀ (s : State) (c : Fin 2) (f : CanFrame), s.canLive c = false →
    exec (.canFrameReceive c f) s = .next s.settle ∧ exec (.remoteFrame c) s = .next s.settle) ∧
  (∀ (s : State) (p : Port) (m : Fin 32) (during : List CanFrame), Served s p →
    Answers (.mailboxRead p m during) s fun t =>
      t.outbox = (during.foldl (fun u f => u.takeFrameCan (if m.val < 16 then 0 else 1) (some m.val) f)
        (s.wr (cellBase (mbId m.val)) Reg.MBX_META_NEW 0)).outbox ++ [.read p (s.mailboxWords m.val), .result p E_OK] ∧
      (t.mb m.val).shadow = none) ∧
  (∀ (s : State) (p : Port) (m : Fin 32) (c : Fin 2) (f : CanFrame), Served s p → c.val = m.val / 16 → s.canLive c = true → f.fdf = false →
      ((mailboxesOf c).find? fun k => s.exists_ (mbId k) && mbMatches (s.cfg (mbId k) 0) f) = some m.val → (s.mb m.val).shadow = none →
    Answers (.mailboxRead p m [f]) s fun t =>
      t.rd (cellBase (mbId m.val)) Reg.MBX_INFO_ID = f.id.toNat ∧ t.flag (cellBase (mbId m.val)) Reg.MBX_META_NEW = true ∧
      t.flag (cellBase (mbId m.val)) Reg.MBX_META_SHADOW = false ∧ (t.mb m.val).newest = some f ∧
      t.outbox = s.outbox ++ [.read p (s.mailboxWords m.val), .result p E_OK]) ∧
  (∀ (s : State) (p : Port) (m : Fin 32), Served s p → (s.mb m.val).shadow = none →
    exec (.mailboxRead p m []) s =
      .next (((s.wr (cellBase (mbId m.val)) Reg.MBX_META_NEW 0).emit (.read p (s.mailboxWords m.val))).answer p E_OK).settle) ∧
  (∀ (s : State) (m : Fin 32), s.exists_ (mbId m.val) = true → (s.mb m.val).timedOut = false → (s.mb m.val).heard = false →
      mbTimeout (s.cfg (mbId m.val) 0) ≤ (s.mb m.val).silent + 1 →
    Answers (.mailboxTimeout m) s fun t => (t.mb m.val).timedOut = true ∧ (t.mb m.val).newest = (s.mb m.val).newest ∧ RegsKept [] s t)

/-- R361–R364: a request makes a loaded buffer PENDING; the candidate goes on the bus; acknowledged it is DONE and TEC falls; without acknowledgement it is PENDING again,
or NOACK at the limit; lost arbitration sends no error frame; CANCEL ends a pending buffer and marks an active one.
(Readings and choices of the model that it rests on: log entries 30, 31.) -/
def Obligations.TransmitBuffersSendAndEnd : Prop :=
  (∀ (s : State) (p : Port) (c : Fin 2), Served s p → s.mst ∈ [stReady, stRun, stSafe, stService] → s.cflag c Reg.CAN_CFG_EN = true →
      s.canMonitor c = false → s.bufBusy c = false → (bufIde (s.buf c (s.txsel c)) = true ∨ bufId (s.buf c (s.txsel c)) ≤ 0x7FF) →
      ((s.buf c (s.txsel c)).dlc ≤ 8 ∧ bufBrs (s.buf c (s.txsel c)) = false ∧ bufFdf (s.buf c (s.txsel c)) = false ∨
        bufFdf (s.buf c (s.txsel c)) = true ∧ s.cflag c Reg.CAN_CFG_FDEN = true) → s.txsel c < 3 →
    Answers (.txRequest p c) s fun t =>
      t.bufSt c (s.txsel c) = bsPending ∧ t.outbox = s.outbox ++ [.result p E_OK] ∧
      RegsKept [canBase c.val + Reg.CAN_TXB_STAT_ST0.off] s t) ∧
  (∀ (s : State) (p : Port) (c : Fin 2), Served s p → s.mst ∈ [stReady, stRun, stSafe, stService] → s.cflag c Reg.CAN_CFG_EN = true →
      s.canMonitor c = false → s.bufBusy c = true →
    exec (.txRequest p c) s = .next (s.answer p E_BUSY).settle) ∧
  (∀ (s : State) (p : Port) (c : Fin 2), Served s p →
      (s.mst ∉ [stReady, stRun, stSafe, stService] ∨ s.cflag c Reg.CAN_CFG_EN = false ∨ s.canMonitor c = true) →
    exec (.txRequest p c) s = .next (s.answer p E_STATE).settle) ∧
  (∀ (s : State) (p : Port) (c : Fin 2), Served s p → s.mst ∈ [stReady, stRun, stSafe, stService] → s.cflag c Reg.CAN_CFG_EN = true →
      s.canMonitor c = false → s.bufBusy c = false →
      ((bufIde (s.buf c (s.txsel c)) = false ∧ 0x7FF < bufId (s.buf c (s.txsel c))) ∨
        (bufFdf (s.buf c (s.txsel c)) = false ∧ (bufBrs (s.buf c (s.txsel c)) = true ∨ 8 < (s.buf c (s.txsel c)).dlc))) →
    exec (.txRequest p c) s = .next (s.answer p E_RANGE).settle) ∧
  (∀ (s : State) (c : Fin 2) (b : Nat), s.canLive c = true → s.canMonitor c = false → (s.can c).onBus = none → s.candidate c = some (.inl b) → b < 3 →
    Answers (.canFrameStart c) s fun t =>
      t.bufSt c b = bsActive ∧ (t.can c).onBus = some (.inl b) ∧
      t.outbox = s.outbox ++ [.canFrame c (BitVec.ofNat 29 (bufId (s.buf c b))) (bufIde (s.buf c b)) (bufFdf (s.buf c b)) (bufBrs (s.buf c b))
        (s.sendsEsi c (bufFdf (s.buf c b)))
        (s.buf c b).dlc (bufData (s.buf c b))] ∧ RegsKept [canBase c.val + Reg.CAN_TXB_STAT_ST0.off] s t) ∧
  (∀ (s : State) (c : Fin 2) (e : Export), s.canLive c = true → s.canMonitor c = false → (s.can c).onBus = none → s.candidate c = some (.inr e) →
    Answers (.canFrameStart c) s fun t =>
      (t.can c).onBus = some (.inr e) ∧ (t.can c).queue = (s.can c).queue.erase e ∧
      t.outbox = s.outbox ++ [.canFrame c e.id e.ide e.fdf e.brs (s.sendsEsi c e.fdf) (dlcFor e.data.length) e.data] ∧ RegsKept [] s t) ∧
  (∀ (s : State) (c : Fin 2) (b : Nat), s.canLive c = true → (s.can c).onBus = some (.inl b) → b < 3 →
    Answers (.canTxDone c) s fun t =>
      t.bufSt c b = bsDone ∧ (t.can c).onBus = none ∧ t.crd c Reg.CAN_ECNT_TEC = s.crd c Reg.CAN_ECNT_TEC - 1 ∧
      t.cflag c Reg.CAN_STATUS_ALONE = false ∧ t.crd c Reg.CAN_STATUS_ACKERRS = 0 ∧ t.outbox = s.outbox) ∧
  (∀ (s : State) (c : Fin 2) (e : Export), s.canLive c = true → (s.can c).onBus = some (.inr e) → s.crd c Reg.CAN_ECNT_TEC ≤ 255 →
    Answers (.canTxDone c) s fun t =>
      (t.can c).onBus = none ∧ (t.can c).queue = (s.can c).queue ∧ t.crd c Reg.CAN_ECNT_TEC = s.crd c Reg.CAN_ECNT_TEC - 1 ∧
      t.cflag c Reg.CAN_STATUS_ALONE = false ∧ t.crd c Reg.CAN_STATUS_ACKERRS = 0 ∧ t.outbox = s.outbox) ∧
  (∀ (s : State) (c : Fin 2) (e : CanFail) (ph : TxPhase) (more : BitVec 5), (s.can c).onBus = none →
    exec (.canTxDone c) s = .next s.settle ∧ exec (.canTxError c e ⟨ph, more⟩) s = .next s.settle) ∧
  (∀ (s : State) (c : Fin 2) (b n tec : Nat) (e : CanFail) (ph : TxPhase) (more : BitVec 5), s.canLive c = true → (s.can c).onBus = some (.inl b) → b < 3 →
      lecCode e = some n → e ≠ .ack → tec = min 511 (s.crd c Reg.CAN_ECNT_TEC + s.tecRise c e ph more.toNat) →
    Answers (.canTxError c e ⟨ph, more⟩) s fun t =>
      t.bufSt c b = (if s.cxl c b then bsAborted else bsPending) ∧ t.crd c Reg.CAN_STATUS_LEC = n ∧ t.crd c Reg.CAN_ECNT_TEC = tec ∧
      t.crd c Reg.CAN_STATUS_ACKERRS = s.crd c Reg.CAN_STATUS_ACKERRS ∧ t.outbox = s.outbox ++ [.canError c] ∧ (t.can c).onBus = none ∧
      t.canState c = (if 255 < tec then ceBusOff else if 127 < tec ∨ s.cflag c Reg.CAN_ECNT_RP = true then cePassive else ceActive)) ∧
  (∀ (s : State) (c : Fin 2) (x : Export) (ph : TxPhase) (more : BitVec 5), s.canLive c = true → (s.can c).onBus = some (.inr x) → s.crd c Reg.CAN_ECNT_TEC ≤ 255 →
    Answers (.canTxError c .arbitration ⟨ph, more⟩) s fun t =>
      (t.can c).onBus = none ∧ t.outbox = s.outbox ∧
      (((s.can c).queue.any fun q => sameFrame q x) = false → (t.can c).queue = (s.can c).queue ++ [x]) ∧
      (((s.can c).queue.any fun q => sameFrame q x) = true → (t.can c).queue = (s.can c).queue ∧
        t.crd c Reg.CAN_CNT2_XSKIP = min (s.crd c Reg.CAN_CNT2_XSKIP + 1) 65535)) ∧
  (∀ (s : State) (c : Fin 2) (e : CanFail) (ph : TxPhase) (more : BitVec 5), Answers (.canTxError c e ⟨ph, more⟩) s fun t => (t.can c).onBus = none) ∧
  (∀ (s : State) (c : Fin 2) (b : Nat) (ph : TxPhase) (more : BitVec 5), s.canLive c = true → (s.can c).onBus = some (.inl b) → b < 3 → s.cxl c b = false →
      s.crd c Reg.CAN_CFG_ALONELIM = 0 →
    Answers (.canTxError c .ack ⟨ph, more⟩) s fun t =>
      t.bufSt c b = bsPending ∧ t.crd c Reg.CAN_STATUS_LEC = 3 ∧
      t.crd c Reg.CAN_ECNT_TEC = (if s.canState c = cePassive then min 511 (s.crd c Reg.CAN_ECNT_TEC) else min 511 (s.crd c Reg.CAN_ECNT_TEC + 8)) ∧
      t.crd c Reg.CAN_STATUS_ACKERRS = min 255 (s.crd c Reg.CAN_STATUS_ACKERRS + 1) ∧ t.outbox = s.outbox ++ [.canError c] ∧ (t.can c).onBus = none) ∧
  (∀ (s : State) (c : Fin 2) (b : Nat) (ph : TxPhase) (more : BitVec 5), s.canLive c = true → (s.can c).onBus = some (.inl b) → b < 3 → s.cxl c b = false →
      s.crd c Reg.CAN_CFG_ALONELIM ≠ 0 → s.crd c Reg.CAN_CFG_ALONELIM ≤ min 255 (s.crd c Reg.CAN_STATUS_ACKERRS + 1) →
    Answers (.canTxError c .ack ⟨ph, more⟩) s fun t =>
      t.bufSt c b = bsNoack ∧ t.cflag c Reg.CAN_STATUS_ALONE = true ∧ t.crd c Reg.CAN_STATUS_ACKERRS = 0 ∧
      t.crd c Reg.CAN_CNT_ALONES = min (s.crd c Reg.CAN_CNT_ALONES + 1) 65535) ∧
  (∀ (s : State) (c : Fin 2) (b : Nat) (ph : TxPhase) (more : BitVec 5), s.canLive c = true → (s.can c).onBus = some (.inl b) → b < 3 → s.cxl c b = false →
    Answers (.canTxError c .arbitration ⟨ph, more⟩) s fun t =>
      t.bufSt c b = bsPending ∧ t.crd c Reg.CAN_STATUS_LEC = s.crd c Reg.CAN_STATUS_LEC ∧ t.outbox = s.outbox) ∧
  (∀ (s : State) (p : Port) (c : Fin 2), Served s p → s.bufSt c (s.txsel c) = bsPending →
    exec (.txCancel p c) s = .next ((s.setBuf c (s.txsel c) bsCancelled).answer p E_OK).settle) ∧
  (∀ (s : State) (p : Port) (c : Fin 2), Served s p → s.bufSt c (s.txsel c) = bsActive →
    exec (.txCancel p c) s = .next ((s.setCxl c (s.txsel c) true).answer p E_OK).settle) ∧
  (∀ (s : State) (p : Port) (c : Fin 2), Served s p → s.bufSt c (s.txsel c) ∉ [bsPending, bsActive] →
    exec (.txCancel p c) s = .next (s.answer p E_STATE).settle)

/-! Memory, journal and recorder (14, 15). -/

/-- R377, R378, R382, R383, R385, R386, R388, R389, R390, R391: a scrubbed word corrected with one bit counts; an uncorrectable one is counted, noted and poisons its
granule; no stored byte of the DMA memory changes; a journal granule stays unreadable, and a corrected one above block 63 is rewritten, which is a write of its block; a
transaction waits with its granules in the log, whose blocks it writes, and one that cannot be written changes nothing with E_NV_FAIL; application brings the oldest
granules to their blocks, but to none that is read-only; a worn-out block is retired for a spare, whose count starts anew; with nothing left it becomes read-only; levelling
exchanges the blocks behind two logical numbers.
(Readings and choices of the model that it rests on: log entries 27, 100, 101, 142.) -/
def Obligations.MemoryIsScrubbedAndBlocksWear : Prop :=
  (∀ (s : State) (g : Nat) (flips : BitVec 276), s.mst ≠ stPfail → s.mst ≠ stPowerup → g + 1 < dramGranules → g ∉ s.q.poison →
      readOutcome .dram g flips = .corr1 →
    Answers (.scrubStep .dram g flips) s fun t =>
      t.rd memBase Reg.MEM_DRAM1_CORR1 = min (s.rd memBase Reg.MEM_DRAM1_CORR1 + 1) 65535 ∧
      t.rd memBase Reg.MEM_SCRUBST_PROGRESS = (g + 1) * 1024 / dramGranules ∧ t.q = s.q ∧
      RegsKept [memBase + Reg.MEM_DRAM1_CORR1.off, memBase + Reg.MEM_SCRUBST_PROGRESS.off] s t) ∧
  (∀ (s : State) (g : Nat) (flips : BitVec 276), s.mst ≠ stPfail → s.mst ≠ stPowerup → 2097152 ≤ g → g + 1 < dramGranules → g ∉ s.q.poison →
      readOutcome .dram g flips = .uncorrectable →
    Answers (.scrubStep .dram g flips) s fun t =>
      g ∈ t.q.poison ∧ t.q.mem = s.q.mem ∧ t.rd memBase Reg.MEM_DRAM2_UNCORR = min (s.rd memBase Reg.MEM_DRAM2_UNCORR + 1) 65535 ∧
      t.flag memBase Reg.MEM_ERRINFO_VALID = true ∧ t.rd memBase Reg.MEM_ERRINFO_MEMORY = 0 ∧ t.rd memBase Reg.MEM_ERRINFO_KIND = 0 ∧
      t.rd memBase Reg.MEM_ERRINFO_REGION = 4 ∧ t.rd memBase Reg.MEM_ERRADDR_PA = g ∧ t.img = s.img) ∧
  (∀ (s : State) (g : Nat) (flips : BitVec 276), s.mst ≠ stPfail → s.mst ≠ stPowerup → 2097152 ≤ g →
    Answers (.scrubStep .dram g flips) s fun t =>
      t.rd memBase Reg.MEM_SCRUBST_PROGRESS = (g + 1) % dramGranules * 1024 / dramGranules ∧ t.q.mem = s.q.mem ∧ t.jrn = s.jrn ∧
      (g ∈ t.q.poison ↔ g ∈ s.q.poison ∨ newlyBad (readOutcome .dram g flips) = true) ∧
      (g + 1 = dramGranules → t.rd memBase Reg.MEM_SCRUBST_PASSES = (s.rd memBase Reg.MEM_SCRUBST_PASSES + 1) % 65536) ∧
      (∀ f, faultField .dram false (s.outcomeAt .dram g flips) = some (memBase, f) → t.rd memBase f = min (s.rd memBase f + 1) 65535)) ∧
  (∀ (s : State) (g : Nat) (flips : BitVec 276), s.mst ≠ stPfail → s.mst ≠ stPowerup → newlyBad (s.outcomeAt .sram g flips) = false →
    Answers (.scrubStep .sram g flips) s fun t =>
      t.q = s.q ∧ t.img = s.img ∧ t.jrn = s.jrn ∧ t.pnl = s.pnl ∧
      (∀ f, faultField .sram false (s.outcomeAt .sram g flips) = some (memBase, f) → t.rd memBase f = min (s.rd memBase f + 1) 65535)) ∧
  (∀ (s : State) (g : Nat) (flips : BitVec 276), s.mst ≠ stPfail → s.mst ≠ stPowerup → newlyBad (s.outcomeAt .sram g flips) = true →
    exec (.scrubStep .sram g flips) s =
      .next (((s.meetWord .sram false 4 g (s.outcomeAt .sram g flips)).loseWord (Config.sramItem g)).settle)) ∧
  (∀ (s : State) (port : Bool) (region g : Nat) (o : Decoded), newlyBad o = true → region < 5 →
    g ∈ (s.meetWord .sram port region g o).q.sram ∧ (s.meetWord .sram port region g o).q.mem = s.q.mem ∧
    (s.meetWord .sram port region g o).flag memBase Reg.MEM_ERRINFO_VALID = true ∧
    (s.meetWord .sram port region g o).rd memBase Reg.MEM_ERRINFO_MEMORY = (if port then 2 else 1) ∧
    (s.meetWord .sram port region g o).rd memBase Reg.MEM_ERRINFO_REGION = region ∧
    (s.meetWord .sram port region g o).rd memBase Reg.MEM_ERRINFO_KIND = (if o = .misdirected then 1 else 0)) ∧
  (∀ (s : State) (b : Bool) (i : Nat), s.flag nvjBase (bankSaved b) = false →
    (s.loseWord (.record b false i)).flag nvjBase (bankValid b) = false ∧ i ∈ ((s.bankFault b false i).bank b).bad ∧
    i ∈ ((s.bankFault b true i).bank b).badBase) ∧
  (∀ (s : State) (b base : Bool) (i : Nat), s.flag nvjBase (bankSaved b) = true → s.loseWord (.record b base i) = s.blockError 4 1 []) ∧
  (∀ (s : State) (g : Nat) (flips : BitVec 276), s.mst ≠ stPfail → s.mst ≠ stPowerup → s.standing (g / 128) = true →
    Answers (.scrubStep .journal g flips) s fun t =>
      t.q = s.q ∧
      (∀ f, faultField .journal false (readOutcome .journal g flips) = some (nvjBase, f) → t.rd nvjBase f = min (s.rd nvjBase f + 1) 65535) ∧
      (newlyBad (readOutcome .journal g flips) = true → g ∈ t.jrn.bad) ∧
      ((readOutcome .journal g flips = .clean ∨ readOutcome .journal g flips = .poisoned ∨ g / 128 < 64) →
        newlyBad (readOutcome .journal g flips) = false → t.jrn = s.jrn) ∧
      (g + 1 = (s.topBlock + 1) * 128 → t.rd nvjBase Reg.NVJ_SCRUBST_PASSES = (s.rd nvjBase Reg.NVJ_SCRUBST_PASSES + 1) % 65536)) ∧
  (∀ (s : State) (g : Nat) (flips : BitVec 276), s.standing (g / 128) = false → exec (.scrubStep .journal g flips) s = .next s.settle) ∧
  (∀ (s : State) (m : MemKind) (g : Nat) (flips : BitVec 276), (s.mst = stPfail ∨ s.mst = stPowerup) →
    exec (.scrubStep m g flips) s = .next s.settle) ∧
  (∀ (s : State) (g : Nat) (flips : BitVec 276), s.mst ≠ stPfail → s.mst ≠ stPowerup → s.standing (g / 128) = true → 64 ≤ g / 128 →
      g / 128 ∉ s.jrn.readOnly → readOutcome .journal g flips = .corr1 →
    Answers (.scrubStep .journal g flips) s fun t =>
      t.rd nvjBase Reg.NVJ_ECC1_CORR1 = min (s.rd nvjBase Reg.NVJ_ECC1_CORR1 + 1) 65535 ∧ t.wearOf (g / 128) = s.wearOf (g / 128) + 1 ∧
      (∀ b, b ≠ g / 128 → t.wearOf b = s.wearOf b) ∧ t.q = s.q) ∧
  (∀ (s : State) (homes : List Nat) (fails : Nat), JournalTakes s homes →
    Answers (.journalTransactionCommit homes fails []) s fun t =>
      t.jrn.pend = s.jrn.pend ++ homes ∧ t.rd nvjBase Reg.NVJ_PEND_PEND = s.jrn.pend.length + homes.length ∧
      (∀ b, t.wearOf b = s.wearOf b + (if b ∈ s.logBlocks (homes.length + 1) then 1 else 0)) ∧
      t.rd nvjBase Reg.NVJ_WCNT_VFAIL = min (s.rd nvjBase Reg.NVJ_WCNT_VFAIL + fails) 65535 ∧ t.jrn.readOnly = s.jrn.readOnly ∧
      t.outbox = s.outbox ++ [.journal E_OK] ∧ t.q = s.q ∧ RegsKept journalRegs s t) ∧
  (∀ (s : State) (homes : List Nat), s.journalUp = true → homes.length ≤ 8192 → 8192 < s.jrn.pend.length + homes.length → s.jrn.readOnly = [] →
    Answers (.journalTransactionCommit homes 0 []) s fun t =>
      t.jrn.pend = s.jrn.pend.drop (s.jrn.pend.length + homes.length - 8192) ++ homes ∧ t.rd nvjBase Reg.NVJ_PEND_PEND = 8192 ∧
      t.outbox = s.outbox ++ [.journal E_OK] ∧ RegsKept journalRegs s t) ∧
  (∀ (s : State) (homes : List Nat) (o : NvOutcome), s.journalUp = true → (8192 < homes.length ∨ s.writable (blocksOf homes) = false) →
    exec (.journalTransactionCommit homes o.fails o.worn) s = .next (s.emit (.journal E_NV_FAIL)).settle) ∧
  (∀ (s : State) (homes : List Nat) (b : Nat), JournalTakes s homes → b ∈ s.logBlocks (homes.length + 1) →
      0 < s.rd nvjBase Reg.NVJ_SPARES_SPARES → s.rd nvjBase Reg.NVJ_SPARES_SPARES ≠ 32 →
    Answers (.journalTransactionCommit homes 0 [b]) s fun t =>
      t.jrn.pend = s.jrn.pend ++ homes ∧ t.rd nvjBase Reg.NVJ_WCNT_VFAIL = min (s.rd nvjBase Reg.NVJ_WCNT_VFAIL + 2) 65535 ∧
      t.rd nvjBase Reg.NVJ_SPARES_SPARES = s.rd nvjBase Reg.NVJ_SPARES_SPARES - 1 ∧
      t.physOf b = 16896 - s.rd nvjBase Reg.NVJ_SPARES_SPARES ∧ t.wearOf b = 2 ∧ t.outbox = s.outbox ++ [.journal E_OK]) ∧
  (∀ (s : State) (homes : List Nat) (o : NvOutcome), s.journalUp = false → exec (.journalTransactionCommit homes o.fails o.worn) s = .next s.settle) ∧
  (∀ (s : State) (n fails : Nat), s.mst ≠ stPowerup → s.dutyUp 3 = true → s.jrn.readOnly = [] → s.jrn.pend.length ≤ 8192 →
    Answers (.journalApply n ⟨fails, []⟩) s fun t =>
      t.jrn.pend = s.jrn.pend.drop n ∧ t.rd nvjBase Reg.NVJ_PEND_PEND = s.jrn.pend.length - n ∧
      (∀ b, t.wearOf b = s.wearOf b + (if b ∈ blocksOf (s.jrn.pend.take n) then 1 else 0)) ∧
      (∀ g, g ∈ t.jrn.bad ↔ g ∈ s.jrn.bad ∧ g ∉ s.jrn.pend.take n) ∧
      t.rd nvjBase Reg.NVJ_WCNT_VFAIL = min (s.rd nvjBase Reg.NVJ_WCNT_VFAIL + fails) 65535 ∧ RegsKept journalRegs s t) ∧
  (∀ (s : State) (g : Nat) (l : List Nat), s.mst ≠ stPowerup → s.dutyUp 3 = true → s.jrn.pend = g :: l → g / 128 ∈ s.jrn.readOnly →
      s.jrn.pend.length ≤ 8192 →
    Answers (.journalApply 1 .clean) s fun t => t.jrn.pend = s.jrn.pend ∧ t.jrn.wear = s.jrn.wear ∧ t.jrn.bad = s.jrn.bad) ∧
  (∀ (s : State) (n : Nat) (o : NvOutcome), (s.mst = stPowerup ∨ s.dutyUp 3 = false) → exec (.journalApply n o) s = .next s.settle) ∧
  (∀ (s : State) (b : Nat), s.journalUp = true → s.standing b = true → b ∉ s.jrn.readOnly → s.wornOut b = true →
      0 < s.rd nvjBase Reg.NVJ_SPARES_SPARES → s.rd nvjBase Reg.NVJ_SPARES_SPARES ≠ 32 →
    Answers (.blockRetirement b) s fun t =>
      t.rd nvjBase Reg.NVJ_SPARES_SPARES = s.rd nvjBase Reg.NVJ_SPARES_SPARES - 1 ∧
      t.rd nvjBase Reg.NVJ_SPARES_RETIRED = min (s.rd nvjBase Reg.NVJ_SPARES_RETIRED + 1) 32767 ∧
      t.rd nvjBase Reg.NVJ_WCNT_RETIRES = min (s.rd nvjBase Reg.NVJ_WCNT_RETIRES + 1) 65535 ∧
      t.physOf b = 16896 - s.rd nvjBase Reg.NVJ_SPARES_SPARES ∧ t.wearOf b = 1 ∧
      (∀ c, c ≠ b → t.physOf c = s.physOf c ∧ t.wearOf c = s.wearOf c) ∧ t.recblks = s.recblks ∧ t.img = s.img) ∧
  (∀ (s : State) (b : Nat), s.journalUp = true → s.standing b = true → b ∉ s.jrn.readOnly → s.wornOut b = true →
      s.rd nvjBase Reg.NVJ_SPARES_SPARES = 0 → s.recblks = 0 → s.imageDonor = none →
    Answers (.blockRetirement b) s fun t => t.jrn.readOnly = b :: s.jrn.readOnly ∧ t.jrn.wear = s.jrn.wear ∧ RegsKept [] s t) ∧
  (∀ (s : State) (b : Nat), s.journalUp = true → s.standing b = true → b ∉ s.jrn.readOnly → s.wornOut b = true →
      s.rd nvjBase Reg.NVJ_SPARES_SPARES = 0 → 0 < s.recblks → b ≠ 1295 + s.recblks →
    Answers (.blockRetirement b) s fun t =>
      t.recblks = s.recblks - 1 ∧ t.physOf b = s.physOf (1295 + s.recblks) ∧ t.wearOf b = s.wearOf (1295 + s.recblks) + 1 ∧
      t.wearOf (1295 + s.recblks) = 0 ∧ t.rd nvjBase Reg.NVJ_WCNT_RETIRES = min (s.rd nvjBase Reg.NVJ_WCNT_RETIRES + 1) 65535 ∧ t.img = s.img) ∧
  (∀ (s : State) (b : Nat), s.journalUp = true → s.standing b = true → b ∉ s.jrn.readOnly → s.wornOut b = true →
      s.rd nvjBase Reg.NVJ_SPARES_SPARES = 0 → 0 < s.recblks → b = 1295 + s.recblks →
    Answers (.blockRetirement b) s fun t =>
      t.recblks = s.recblks - 1 ∧ t.wearOf b = 0 ∧ b ∉ t.jrn.readOnly ∧
      t.rd nvjBase Reg.NVJ_WCNT_RETIRES = min (s.rd nvjBase Reg.NVJ_WCNT_RETIRES + 1) 65535) ∧
  (∀ (s : State) (b d : Nat), s.journalUp = true → s.standing b = true → b ∉ s.jrn.readOnly → s.wornOut b = true →
      s.rd nvjBase Reg.NVJ_SPARES_SPARES = 0 → s.recblks = 0 → s.imageDonor = some d → b ≠ d →
    Answers (.blockRetirement b) s fun t =>
      t.flag nvjBase Reg.NVJ_STATUS_DEGRADED = true ∧
      t.rd nvjBase Reg.NVJ_PART_IMGBLKS = s.rd nvjBase Reg.NVJ_PART_IMGBLKS - 1 ∧ t.physOf b = s.physOf d ∧ t.wearOf b = s.wearOf d + 1 ∧
      (s.flag nvjBase Reg.NVJ_STATUS_DEGRADED = false → t.flag nvjBase (bankSaved (!s.bootBank)) = false ∧ t.img.bootUpdate = false)) ∧
  (∀ (s : State) (b : Nat), (s.journalUp = false ∨ s.standing b = false ∨ b ∈ s.jrn.readOnly ∨ s.wornOut b = false) →
    exec (.blockRetirement b) s = .next s.settle) ∧
  (∀ (s : State) (hi lo : Nat), (s.journalUp = false ∨ s.extremes hi lo = false ∨ s.wearOf hi ≤ s.wearOf lo + 1048576) →
    exec (.wearLevelExchange hi lo) s = .next s.settle) ∧
  (∀ (s : State) (hi lo : Nat), s.journalUp = true → s.extremes hi lo = true → s.wearOf lo + 1048576 < s.wearOf hi →
    Answers (.wearLevelExchange hi lo) s fun t =>
      t.physOf hi = s.physOf lo ∧ t.physOf lo = s.physOf hi ∧ t.wearOf hi = s.wearOf lo + 1 ∧ t.wearOf lo = s.wearOf hi + 1 ∧
      (∀ c, c ≠ hi → c ≠ lo → t.wearOf c = s.wearOf c ∧ t.physOf c = s.physOf c) ∧
      RegsKept [nvjBase + Reg.NVJ_WEARMAX.off, nvjBase + Reg.NVJ_WEARAVG.off] s t)

/-- R397, R398, R400, R402, R404: the first occurrence is taken by the code it feeds: admitted without a rate limit or with a token, refused without one, counted while
FROZEN; the changed summaries and the interval records that wait are written in one transaction, as far as the log holds them; a failed write counts and keeps them,
and the interval that has ended keeps records of its own. -/
def Obligations.OccurrencesAreTakenAndWritten : Prop :=
  (∀ (s : State) (o : Occurrence) (c : Nat) (r : Record), s.recState = rsRecording → s.dutyUp 3 = true → firstOccurrence s.recd.queue = some o →
      (codesOf s.img.active).filter (fun cr => feeds cr.2 o) = [(c, r)] → rcRlim r = 0 →
    Answers .occurrenceTake s fun t =>
      t.recd.queue = s.recd.queue.filter (fun x => x.seq != o.seq) ∧
      Store.get Summary.zero t.recd.sums c = (Store.get Summary.zero s.recd.sums c).admitOcc o.mag (o.s, o.ns) (binOf r (f32x o.mag)) ∧
      (∀ d, d ≠ c → Store.get Summary.zero t.recd.sums d = Store.get Summary.zero s.recd.sums d) ∧ c ∈ t.recd.changed ∧ RegsKept [] s t) ∧
  (∀ (s : State) (o : Occurrence) (c : Nat) (r : Record), s.recState = rsRecording → s.dutyUp 3 = true → firstOccurrence s.recd.queue = some o →
      (codesOf s.img.active).filter (fun cr => feeds cr.2 o) = [(c, r)] → rcRlim r ≠ 0 → Store.get none s.recd.bucket c = none →
    Answers .occurrenceTake s fun t =>
      Store.get Summary.zero t.recd.sums c = (Store.get Summary.zero s.recd.sums c).admitOcc o.mag (o.s, o.ns) (binOf r (f32x o.mag)) ∧
      Store.get none t.recd.bucket c = some ((rcRlim r : Rat) - 1, o.s.toNat * 1000000000 + o.ns.toNat)) ∧
  (∀ (s : State) (o : Occurrence) (c : Nat) (r : Record) (tok : Rat), s.recState = rsRecording → s.dutyUp 3 = true → firstOccurrence s.recd.queue = some o →
      (codesOf s.img.active).filter (fun cr => feeds cr.2 o) = [(c, r)] → rcRlim r ≠ 0 → tok < 1 →
      Store.get none s.recd.bucket c = some (tok, o.s.toNat * 1000000000 + o.ns.toNat) →
    Answers .occurrenceTake s fun t =>
      Store.get Summary.zero t.recd.sums c =
        { Store.get Summary.zero s.recd.sums c with excess := min ((Store.get Summary.zero s.recd.sums c).excess + 1) 65535 }) ∧
  (∀ (s : State) (o : Occurrence) (c : Nat) (r : Record), s.recState = rsFrozen → s.dutyUp 3 = true → firstOccurrence s.recd.queue = some o →
      (codesOf s.img.active).filter (fun cr => feeds cr.2 o) = [(c, r)] →
    Answers .occurrenceTake s fun t =>
      t.rd recBase Reg.REC_FRZ_FRZ = min (s.rd recBase Reg.REC_FRZ_FRZ + 1) 65535 ∧ Store.get 0 t.recd.frozen c = Store.get 0 s.recd.frozen c + 1 ∧
      t.recd.sums = s.recd.sums ∧ RegsKept [recBase + Reg.REC_FRZ_FRZ.off] s t) ∧
  (∀ s : State, (s.recd.queue = [] ∨ s.recState = rsOff ∨ s.dutyUp 3 = false) → exec .occurrenceTake s = .next s.settle) ∧
  (∀ (s : State) (o : Occurrence), s.recState ≠ rsOff → s.dutyUp 3 = true → firstOccurrence s.recd.queue = some o →
    Answers .occurrenceTake s fun t =>
      t.recd.queue = s.recd.queue.filter (fun x => x.seq != o.seq) ∧
      (∀ c, (∀ e ∈ codesOf s.img.active, e.1 = c → feeds e.2 o = false) →
        Store.get Summary.zero t.recd.sums c = Store.get Summary.zero s.recd.sums c ∧ Store.get 0 t.recd.frozen c = Store.get 0 s.recd.frozen c) ∧
      t.recd.log = s.recd.log ∧ t.recState = s.recState ∧ RegsKept [recBase + Reg.REC_FRZ_FRZ.off] s t) ∧
  (∀ (s : State) (o : Occurrence) (c : Nat) (r : Record), s.recState ∈ [rsFull, rsStopped] → s.dutyUp 3 = true → firstOccurrence s.recd.queue = some o →
      (codesOf s.img.active).filter (fun cr => feeds cr.2 o) = [(c, r)] →
    Answers .occurrenceTake s fun t => Store.get Summary.zero t.recd.sums c = (Store.get Summary.zero s.recd.sums c).miss 1) ∧
  (∀ (s : State) (c : Nat), s.recWrites = true → s.recd.changed = [c] → s.recd.due = [] → JournalTakes s (summaryHome [c]) →
    Answers (.summaryWrite .clean) s fun t =>
      Store.get Summary.zero t.recd.saved c = Store.get Summary.zero s.recd.sums c ∧
      (∀ d, d ≠ c → Store.get Summary.zero t.recd.saved d = Store.get Summary.zero s.recd.saved d) ∧ t.recd.changed = [] ∧ t.recd.sums = s.recd.sums ∧
      t.jrn.pend = s.jrn.pend ++ summaryHome [c] ∧ RegsKept (journalRegs ++ [recBase + Reg.REC_LOGUSED_USED.off, recBase + Reg.REC_LOGCAP_CAP.off]) s t) ∧
  (∀ (s : State) (new : List LogRec), s.recWrites = true → (s.recd.changed ≠ [] ∨ s.recd.due ≠ []) →
      new = (s.recd.due.take (2048 - s.recd.changed.length)).take (s.rd recBase Reg.REC_LOGCAP_CAP - s.recd.log.length) →
      JournalTakes s (summaryHome s.recd.changed ++ logHome s.recd.log.length new.length) →
    Answers (.summaryWrite .clean) s fun t =>
      (∀ c, Store.get Summary.zero t.recd.saved c = Store.get Summary.zero (if c ∈ s.recd.changed then s.recd.sums else s.recd.saved) c) ∧
      t.recd.changed = [] ∧ t.recd.since = [] ∧ t.recd.sums = s.recd.sums ∧ t.recd.log = s.recd.log ++ new ∧ t.recd.due = s.recd.due.drop new.length ∧
      RegsKept (journalRegs ++ [recBase + Reg.REC_LOGUSED_USED.off, recBase + Reg.REC_LOGCAP_CAP.off]) s t) ∧
  (∀ (s : State) (o : NvOutcome), (s.recWrites = false ∨ (s.recd.changed = [] ∧ s.recd.due = [])) → exec (.summaryWrite o) s = .next s.settle) ∧
  (∀ (s : State) (o : NvOutcome), s.recWrites = true → s.recd.changed ≠ [] → s.recd.due = [] → (s.commitTxn (summaryHome s.recd.changed) o).1 ≠ E_OK →
    Answers (.summaryWrite o) s fun t =>
      t.rd recBase Reg.REC_MISS2_WFAIL = min (s.rd recBase Reg.REC_MISS2_WFAIL + 1) (2 ^ Reg.REC_MISS2_WFAIL.width - 1) ∧
      t.recd.changed = s.recd.changed ∧ t.recd.saved = s.recd.saved ∧ t.recd.sums = s.recd.sums) ∧
  (∀ (s : State) (o : NvOutcome), s.recWrites = true →
    Answers (.intervalEnd o) s fun t =>
      t.recd.part = [] ∧ t.recd.interval = s.intervalNo ∧ t.recd.sums = s.recd.sums ∧ t.recd.frozen = s.recd.frozen) ∧
  (∀ (s : State) (o : NvOutcome), s.recWrites = false → exec (.intervalEnd o) s = .next s.settle) ∧
  (∀ (s : State) (new : List LogRec), s.recWrites = true →
      new = ((s.recd.due ++ s.intervalRecords).take (2048 - s.recd.changed.length)).take (s.rd recBase Reg.REC_LOGCAP_CAP - s.recd.log.length) →
      JournalTakes s (summaryHome s.recd.changed ++ logHome s.recd.log.length new.length) →
    Answers (.intervalEnd .clean) s fun t =>
      t.recd.log = s.recd.log ++ new ∧ t.recd.due = (s.recd.due ++ s.intervalRecords).drop new.length ∧ t.recd.changed = [] ∧
      (t.recd.log.length < 2 ^ Reg.REC_LOGUSED_USED.width → t.rd recBase Reg.REC_LOGUSED_USED = t.recd.log.length) ∧
      (s.recState = rsRecording → t.recState = if t.logFull then rsFull else rsRecording) ∧ (s.recState ≠ rsRecording → t.recState = s.recState)) ∧
  (∀ (s : State) (o : NvOutcome) (new : List LogRec), s.recWrites = true →
      new = ((s.recd.due ++ s.intervalRecords).take (2048 - s.recd.changed.length)).take (s.rd recBase Reg.REC_LOGCAP_CAP - s.recd.log.length) →
      (s.closeInterval.commitTxn (summaryHome s.recd.changed ++ logHome s.recd.log.length new.length) o).1 ≠ E_OK →
    Answers (.intervalEnd o) s fun t =>
      t.rd recBase Reg.REC_MISS2_WFAIL = min (s.rd recBase Reg.REC_MISS2_WFAIL + 1) (2 ^ Reg.REC_MISS2_WFAIL.width - 1) ∧
      t.recd.due = s.recd.due ++ s.intervalRecords ∧ t.recd.changed = s.recd.changed ∧ t.recd.saved = s.recd.saved)

/-- R403, R404, R405: FREEZE from RECORDING stops recording with the counter at 0 and again is accepted; UNFREEZE and the time limit end a freeze, pending misses
falling into MISSED; CLEAR through the service port empties summaries and log; elsewhere the commands are refused. -/
def Obligations.RecorderFreezesUnfreezesAndClears : Prop :=
  (∀ (s : State) (p : Port), Served s p → s.recState = rsRecording →
    Answers (.recFreeze p) s fun t =>
      t.recState = rsFrozen ∧ t.rd recBase Reg.REC_FRZ_FRZ = 0 ∧ t.recd.frozen = [] ∧ t.recd.sums = s.recd.sums ∧ t.recd.log = s.recd.log ∧
      t.outbox = s.outbox ++ [.result p E_OK] ∧ RegsKept [recBase + Reg.REC_STATUS_STATE.off, recBase + Reg.REC_FRZ_FRZ.off] s t) ∧
  (∀ (s : State) (p : Port), Served s p → s.recState = rsFrozen → exec (.recFreeze p) s = .next (s.answer p E_OK).settle) ∧
  (∀ (s : State) (p : Port), Served s p → s.recState ≠ rsRecording → s.recState ≠ rsFrozen → exec (.recFreeze p) s = .next (s.answer p E_STATE).settle) ∧
  (∀ (s : State) (p : Port) (c n : Nat), Served s p → s.recState = rsFrozen → s.recd.frozen = [(c, n)] → s.logFull = false →
    Answers (.recUnfreeze p) s fun t =>
      t.recState = rsRecording ∧ t.flag recBase Reg.REC_STATUS_FRZTMO = false ∧ t.recd.frozen = [] ∧
      Store.get Summary.zero t.recd.sums c = (Store.get Summary.zero s.recd.sums c).miss n ∧ t.outbox = s.outbox ++ [.result p E_OK] ∧
      RegsKept [recBase + Reg.REC_STATUS_STATE.off] s t) ∧
  (∀ (s : State) (p : Port), Served s p → s.recState = rsFrozen →
    Answers (.recUnfreeze p) s fun t =>
      t.recState = (if s.logFull then rsFull else rsRecording) ∧ t.flag recBase Reg.REC_STATUS_FRZTMO = false ∧ t.recd.frozen = [] ∧
      t.recd.log = s.recd.log ∧ t.recd.saved = s.recd.saved ∧ t.outbox = s.outbox ++ [.result p E_OK] ∧ RegsKept [recBase + Reg.REC_STATUS_STATE.off] s t ∧
      (Store.wf 0 s.recd.frozen = true → ∀ c, Store.get Summary.zero t.recd.sums c =
        if Store.get 0 s.recd.frozen c = 0 then Store.get Summary.zero s.recd.sums c
        else (Store.get Summary.zero s.recd.sums c).miss (Store.get 0 s.recd.frozen c))) ∧
  (∀ (s : State) (p : Port), Served s p → s.recState ≠ rsFrozen → exec (.recUnfreeze p) s = .next (s.answer p E_STATE).settle) ∧
  (∀ s : State, s.recState = rsFrozen →
    Answers .freezeTimeout s fun t =>
      t.recState = (if s.logFull then rsFull else rsRecording) ∧ t.flag recBase Reg.REC_STATUS_FRZTMO = true ∧ t.recd.frozen = [] ∧
      t.recd.log = s.recd.log ∧ t.outbox = s.outbox ∧ RegsKept [recBase + Reg.REC_STATUS_STATE.off] s t ∧
      (Store.wf 0 s.recd.frozen = true → ∀ c, Store.get Summary.zero t.recd.sums c =
        if Store.get 0 s.recd.frozen c = 0 then Store.get Summary.zero s.recd.sums c
        else (Store.get Summary.zero s.recd.sums c).miss (Store.get 0 s.recd.frozen c))) ∧
  (∀ (s : State) (c n : Nat), s.recState = rsFrozen → s.recd.frozen = [(c, n)] → s.logFull = false →
    Answers .freezeTimeout s fun t =>
      t.recState = rsRecording ∧ t.flag recBase Reg.REC_STATUS_FRZTMO = true ∧ t.recd.frozen = [] ∧
      Store.get Summary.zero t.recd.sums c = (Store.get Summary.zero s.recd.sums c).miss n ∧ t.outbox = s.outbox) ∧
  (∀ s : State, s.recState ≠ rsFrozen → exec .freezeTimeout s = .next s.settle) ∧
  (∀ s : State, Served s .service → s.mst ∈ [stReady, stRun, stService] → s.recState ≠ rsOff → s.recState ≠ rsStopped → JournalTakes s s.savedHome →
    Answers (.recClear .service .clean) s fun t =>
      t.recState = rsRecording ∧ t.recd.sums = [] ∧ t.recd.saved = [] ∧ t.recd.log = [] ∧ t.recd.bucket = [] ∧ t.recd.frozen = [] ∧
      t.rd recBase Reg.REC_LOGUSED_USED = 0 ∧ t.jrn.pend = s.jrn.pend ++ s.savedHome ∧ t.outbox = s.outbox ++ [.result .service E_OK] ∧
      RegsKept ([recBase + Reg.REC_STATUS_STATE.off, recBase + Reg.REC_LOGUSED_USED.off, recBase + Reg.REC_LOGCAP_CAP.off] ++ journalRegs) s t) ∧
  (∀ (s : State) (o : NvOutcome), Served s .service → s.mst ∈ [stReady, stRun, stService] → s.recState ≠ rsOff → s.recState ≠ rsStopped →
      (s.commitTxn s.savedHome o).1 ≠ E_OK →
    Answers (.recClear .service o) s fun t =>
      t.recd.sums = s.recd.sums ∧ t.recd.saved = s.recd.saved ∧ t.outbox = s.outbox ++ [.result .service E_NV_FAIL]) ∧
  (∀ (s : State) (p : Port) (o : NvOutcome), Served s p → p ≠ .service → exec (.recClear p o) s = .next (s.answer p E_ACCESS).settle) ∧
  (∀ (s : State) (o : NvOutcome), Served s .service → (s.mst ∉ [stReady, stRun, stService] ∨ s.recState = rsOff ∨ s.recState = rsStopped) →
    exec (.recClear .service o) s = .next (s.answer .service E_STATE).settle)

/-! The panel (16). -/

/-- R413, R414, R416, R417, R420, R424: at a frame boundary a driven pixel takes its next frame into its balance, one whose last frame has ended takes its target level,
and VCON moves by at most 10 mV; a temperature is shown, chooses the band and the contrast; the INIT update takes a frame of its waveform at each boundary and ends
after the last with every pixel idle at level 15.
(Readings and choices of the model that it rests on: log entries 25, 104.) -/
def Obligations.PanelFramesAndTemperature : Prop :=
  (∀ (s : State) (i : Nat) (x : Pixel) (d : PixelWait) (f : Int) (l : List Int), s.panelDrives = true → s.pnl.pixels = [(i, x)] → x.drive = some d →
      x.begun = true → x.frames = f :: l → (x.bal + f).natAbs ≤ 127 → s.pnl.vconTarget < 65536 →
    Answers .panelFrame s fun t =>
      t.pixel i = { x with frames := l, bal := x.bal + f } ∧
      t.prd Reg.PNL_VCON_MV = (if s.prd Reg.PNL_VCON_MV ≤ s.pnl.vconTarget then min s.pnl.vconTarget (s.prd Reg.PNL_VCON_MV + 10)
        else max s.pnl.vconTarget (s.prd Reg.PNL_VCON_MV - 10)) ∧
      t.pnl.fb = s.pnl.fb ∧ t.pnl.init = s.pnl.init.tail ∧ RegsKept [pnlBase + Reg.PNL_VCON_MV.off, pnlBase + Reg.PNL_STATUS_SLOTS.off] s t) ∧
  (∀ (s : State) (i : Nat) (x : Pixel) (d : PixelWait), s.panelDrives = true → s.pnl.pixels = [(i, x)] → x.drive = some d → x.begun = true → x.frames = [] →
      x.wait = none →
    Answers .panelFrame s fun t =>
      t.pixel i = { x with prev := x.level, level := d.target, begun := false, drive := none } ∧ t.prd Reg.PNL_STATUS_SLOTS = 0) ∧
  (∀ s : State, s.panelDrives = true → Store.wf Pixel.init s.pnl.pixels = true → s.pnl.vconTarget < 65536 →
    Answers .panelFrame s fun t =>
      (∀ i, t.pixel i = ((s.pixel i).finish.frame).1) ∧
      t.prd Reg.PNL_VCON_MV = (if s.prd Reg.PNL_VCON_MV ≤ s.pnl.vconTarget then min s.pnl.vconTarget (s.prd Reg.PNL_VCON_MV + 10)
        else max s.pnl.vconTarget (s.prd Reg.PNL_VCON_MV - 10)) ∧
      t.pnl.fb = s.pnl.fb ∧ t.pnl.init = s.pnl.init.tail ∧ t.pnl.vconTarget = s.pnl.vconTarget ∧ t.outbox = s.outbox ∧
      RegsKept [pnlBase + Reg.PNL_VCON_MV.off, pnlBase + Reg.PNL_STATUS_SLOTS.off, pnlBase + Reg.PNL_CNT_BALSAT.off] s t) ∧
  (∀ s : State, s.panelDrives = false → exec .panelFrame s = .next s.settle) ∧
  (∀ (s : State) (w : Word), s.mst ≠ stPowerup →
    Answers (.panelTemperature w) s fun t =>
      t.rdw pnlBase Reg.PNL_TEMP = w ∧ t.prd Reg.PNL_STATUS_BAND = nextBand (s.prd Reg.PNL_STATUS_BAND) (f32x w) ∧
      t.flag pnlBase Reg.PNL_STATUS_TOUT = decide (f32x w < -25 ∨ 70 < f32x w) ∧ t.pnl.vconTarget = s.contrast (f32x w) ∧ t.pnl.pixels = s.pnl.pixels ∧
      RegsKept [pnlBase + Reg.PNL_TEMP.off, pnlBase + Reg.PNL_STATUS_BAND.off] s t) ∧
  (∀ s : State, s.flag pnlBase Reg.PNL_STATUS_INITRUN = true → s.panelDrives = true → s.pnl.init = [] →
    Answers .initUpdateComplete s fun t =>
      t.flag pnlBase Reg.PNL_STATUS_INITRUN = false ∧ t.prd Reg.PNL_STATUS_SLOTS = 0 ∧ (∀ i, t.pixel i = Pixel.init) ∧
      RegsKept [pnlBase + Reg.PNL_STATUS_INITRUN.off] s t) ∧
  (∀ s : State, (s.flag pnlBase Reg.PNL_STATUS_INITRUN = false ∨ s.panelDrives = false ∨ s.pnl.init ≠ []) →
    exec .initUpdateComplete s = .next s.settle)

/-- R418–R422: an update request of one pixel drives it toward the level in the frame buffer, or waits at it; requests with SRC 0, a bad rectangle or during INIT are
refused and counted; a frame-buffer write stores its 32 bytes and no other; the page renderer draws the rows that have changed, takes SRC = 0 into force and clears STALE.
(Readings and choices of the model that it rests on: log entries 104, 146.) -/
def Obligations.UpdatesPagesAndFrameBuffer : Prop :=
  (∀ (s : State) (p : Port) (x y : Nat), Served s p → s.panelSrc = true → s.flag pnlBase Reg.PNL_STATUS_INITRUN = false →
      s.prd Reg.PNL_RECT0_X0 = x → s.prd Reg.PNL_RECT1_X1 = x → s.prd Reg.PNL_RECT0_Y0 = y → s.prd Reg.PNL_RECT1_Y1 = y → x < 400 → y < 240 →
      s.pnl.poison = [] → (s.pixel (y * 400 + x)).drive = none → s.fbLevel (y * 400 + x) ≠ (s.pixel (y * 400 + x)).level →
    Answers (.updateRequest p false) s fun t =>
      (t.pixel (y * 400 + x)).drive =
        some ⟨s.fbLevel (y * 400 + x), s.prd Reg.PNL_STATUS_BAND, s.flag pnlBase Reg.PNL_UPD_MODE, s.prd Reg.PNL_UPD_SLOT, s.pnl.requests + 1⟩ ∧
      (t.pixel (y * 400 + x)).level = (s.pixel (y * 400 + x)).level ∧ (t.pixel (y * 400 + x)).bal = (s.pixel (y * 400 + x)).bal ∧
      (∀ j, j ≠ y * 400 + x → t.pixel j = s.pixel j) ∧ t.prd Reg.PNL_CNT_UPDATES = min (s.prd Reg.PNL_CNT_UPDATES + 1) 65535 ∧
      t.outbox = s.outbox ++ [.result p E_OK] ∧ RegsKept [pnlBase + Reg.PNL_CNT_UPDATES.off, pnlBase + Reg.PNL_STATUS_SLOTS.off] s t) ∧
  (∀ (s : State) (p : Port) (x y : Nat) (d : PixelWait), Served s p → s.panelSrc = true →
      s.flag pnlBase Reg.PNL_STATUS_INITRUN = false → s.prd Reg.PNL_RECT0_X0 = x → s.prd Reg.PNL_RECT1_X1 = x → s.prd Reg.PNL_RECT0_Y0 = y →
      s.prd Reg.PNL_RECT1_Y1 = y → x < 400 → y < 240 → s.pnl.poison = [] → (s.pixel (y * 400 + x)).drive = some d →
    Answers (.updateRequest p false) s fun t =>
      (t.pixel (y * 400 + x)).wait =
        some ⟨s.fbLevel (y * 400 + x), s.prd Reg.PNL_STATUS_BAND, s.flag pnlBase Reg.PNL_UPD_MODE, s.prd Reg.PNL_UPD_SLOT, s.pnl.requests + 1⟩ ∧
      (t.pixel (y * 400 + x)).drive = some d ∧ (t.pixel (y * 400 + x)).frames = (s.pixel (y * 400 + x)).frames) ∧
  (∀ (s : State) (p : Port), Served s p → s.panelSrc = true → UpdateLegal s →
    exec (.updateRequest p false) s =
      .next ((s.acceptUpdate (s.prd Reg.PNL_UPD_SLOT) (s.flag pnlBase Reg.PNL_UPD_MODE)
        (rectPixels (s.prd Reg.PNL_RECT0_X0) (s.prd Reg.PNL_RECT0_Y0) (s.prd Reg.PNL_RECT1_X1) (s.prd Reg.PNL_RECT1_Y1))).answer p E_OK).settle) ∧
  (∀ (s : State) (p : Port), s.mst ≠ stPowerup → s.mst ≠ stPfail → UpdateLegal s →
    exec (.updateRequest p true) s =
      .next (s.acceptUpdate (s.prd Reg.PNL_UPD_SLOT) (s.flag pnlBase Reg.PNL_UPD_MODE)
        (rectPixels (s.prd Reg.PNL_RECT0_X0) (s.prd Reg.PNL_RECT0_Y0) (s.prd Reg.PNL_RECT1_X1) (s.prd Reg.PNL_RECT1_Y1))).settle) ∧
  (∀ (s : State) (p : Port), Served s p → s.panelSrc = false →
    exec (.updateRequest p false) s = .next ((s.bump pnlBase Reg.PNL_CNT2_REFUSED).answer p E_STATE).settle) ∧
  (∀ (s : State) (p : Port), Served s p → s.panelSrc = true → s.prd Reg.PNL_RECT1_X1 < s.prd Reg.PNL_RECT0_X0 →
    exec (.updateRequest p false) s = .next ((s.bump pnlBase Reg.PNL_CNT2_REFUSED).answer p E_RANGE).settle) ∧
  (∀ (s : State) (p : Port), Served s p → s.panelSrc = true → s.prd Reg.PNL_RECT0_X0 ≤ s.prd Reg.PNL_RECT1_X1 →
      s.prd Reg.PNL_RECT0_Y0 ≤ s.prd Reg.PNL_RECT1_Y1 → s.prd Reg.PNL_RECT1_X1 < 400 → s.prd Reg.PNL_RECT1_Y1 < 240 →
      s.flag pnlBase Reg.PNL_STATUS_INITRUN = true →
    exec (.updateRequest p false) s = .next ((s.bump pnlBase Reg.PNL_CNT2_REFUSED).answer p E_BUSY).settle) ∧
  (∀ (s : State) (p : Port) (g : Word) (data : List Word), Served s p → s.panelSrc = true → data.length = 8 → g.toNat < 1500 →
    Answers (.frameBufferWrite p g data) s fun t =>
      (∀ i < 32, Store.get 0 t.pnl.fb (32 * g.toNat + i) = (data.getD (i / 4) 0).extractLsb' (8 * (i % 4)) 8) ∧
      (∀ a, (a < 32 * g.toNat ∨ 32 * g.toNat + 32 ≤ a) → Store.get 0 t.pnl.fb a = Store.get 0 s.pnl.fb a) ∧ g.toNat ∉ t.pnl.poison ∧
      t.prd Reg.PNL_FBADDR_GRAN = g.toNat ∧ t.pnl.pixels = s.pnl.pixels ∧ t.outbox = s.outbox ++ [.result p E_OK]) ∧
  (∀ (s : State) (p : Port) (g : Word) (data : List Word), Served s p → s.panelSrc = true → data.length ≠ 8 →
    exec (.frameBufferWrite p g data) s = .next (s.answer p E_ORDER).settle) ∧
  (∀ (s : State) (p : Port) (g : Word) (data : List Word), Served s p → s.panelSrc = false →
    exec (.frameBufferWrite p g data) s = .next (s.answer p E_STATE).settle) ∧
  (∀ (s : State) (p : Port) (g : Word) (data : List Word), Served s p → data.length = 8 → s.panelSrc = true → 1500 ≤ g.toNat →
    exec (.frameBufferWrite p g data) s = .next (s.answer p E_RANGE).settle) ∧
  (∀ (s : State) (sl : Fin 8) (rows : List Config.RowText) (layout : Nat), s.flag pnlBase Reg.PNL_CFG_SRC = false → s.dutyUp 3 = true → s.panelDrives = true →
      s.pageRows = (layout, rows) →
    Answers (.pageRender sl) s fun t => t.pnl.page = (layout, rows) ∧ t.pnl.src = false ∧ t.flag pnlBase Reg.PNL_STATUS_STALE = false) ∧
  (∀ (s : State) (sl : Fin 8), s.flag pnlBase Reg.PNL_CFG_SRC = false → s.dutyUp 3 = true → s.panelDrives = true → s.pageRows = s.pnl.page →
    Answers (.pageRender sl) s fun t =>
      t.pnl.src = false ∧ t.pnl.fb = s.pnl.fb ∧ t.pnl.pixels = s.pnl.pixels ∧ t.prd Reg.PNL_CNT_UPDATES = s.prd Reg.PNL_CNT_UPDATES ∧
      t.flag pnlBase Reg.PNL_STATUS_STALE = false ∧ RegsKept [pnlBase + Reg.PNL_STATUS_STALE.off] s t) ∧
  (∀ (s : State) (sl : Fin 8) (layout row : Nat) (x : Config.RowText) (l : List (Config.RowText × Nat)), s.flag pnlBase Reg.PNL_CFG_SRC = false → s.dutyUp 3 = true →
      s.panelDrives = true → s.pageRows.1 = layout → s.pnl.page.1 = layout →
      (s.pageRows.2.zipIdx.filter fun y => s.pnl.page.2[y.2]? != some y.1) = (x, row) :: l →
    exec (.pageRender sl) s =
      .next ((((l.foldl (fun s y => s.drawRow sl layout y.2 y.1)
        ((s.modPnl fun p => { p with src := false, page := s.pageRows }).drawRow sl layout row x))).setFlag pnlBase Reg.PNL_STATUS_STALE false).settle)) ∧
  (∀ (s : State) (sl : Fin 8), (s.flag pnlBase Reg.PNL_CFG_SRC = true ∨ s.dutyUp 3 = false ∨ s.panelDrives = false) → exec (.pageRender sl) s = .next s.settle) ∧
  (∀ s : State, s.flag pnlBase Reg.PNL_CFG_SRC = false → s.mst ≠ stPowerup →
    exec .pageStale s = .next (s.setFlag pnlBase Reg.PNL_STATUS_STALE true).settle)

/-! Clocks, hold-up and power failure (17). -/

/-- R429, R430, R94: a lost path reference turns the path's island OFF, a lost chain reference takes both links to TRAINING, a lost root PLL resets the module with cause 4,
a lost divided clock is a region fault; a returning reference shows and lets the island start again. -/
def Obligations.ClocksFailAndReturn : Prop :=
  (∀ s : State, s.mst ≠ stPfail →
    Answers (.clockFault .refNa) s fun t =>
      t.role .a = roleOff ∧ t.flag pwrBase Reg.PWR_STATUS_REFNA = false ∧ t.elig .a = false ∧ t.role .b = s.role .b ∧ t.mst = s.mst) ∧
  (∀ s : State, s.mst ≠ stPfail →
    Answers (.clockFault .refNb) s fun t =>
      t.role .b = roleOff ∧ t.flag pwrBase Reg.PWR_STATUS_REFNB = false ∧ t.elig .b = false ∧ t.role .a = s.role .a ∧ t.mst = s.mst) ∧
  (∀ s : State, s.link .up = 2 → s.link .down = 2 →
    Answers (.clockFault .refCh) s fun t => t.link .up = 1 ∧ t.link .down = 1 ∧ t.flag pwrBase Reg.PWR_STATUS_REFCH = false) ∧
  (∀ s : State, s.mst ≠ stPfail →
    Answers (.clockFault .rootPll) s fun t =>
      t.mst = stPowerup ∧ t.rd pwrBase Reg.PWR_RST_CAUSE = 4 ∧ t.flag pwrBase Reg.PWR_STATUS_PLLLOCK = false ∧ t.img.keys = s.img.keys) ∧
  (∀ s : State, s.mst = stPfail → s.pwr.unpowered = false → s.pwr.ended = false →
    Answers (.clockFault .rootPll) s fun t => t.mst = stPfail ∧ t.pwr.abandoned = 2) ∧
  (∀ (s : State) (r : Fin 5), s.flag modBase (regFltField r.val) = false →
    Answers (.clockFault (.divided r)) s fun t =>
      t.flag modBase (regFltField r.val) = true ∧
      t.rd modBase Reg.MOD_HEALTH_REGFAULTS = min (s.rd modBase Reg.MOD_HEALTH_REGFAULTS + 1) (2 ^ Reg.MOD_HEALTH_REGFAULTS.width - 1)) ∧
  (∀ s : State,
    Answers (.referenceClockReturn .refCh) s fun t =>
      t.flag pwrBase Reg.PWR_STATUS_REFCH = true ∧ t.link .up = s.link .up ∧ t.link .down = s.link .down ∧ RegsKept [pwrBase + Reg.PWR_STATUS_REFCH.off] s t) ∧
  (∀ (s : State) (c : SfpCode), s.mst ≠ stPowerup → s.mst ≠ stPfail → s.role .a = roleOff → (s.path .a).cage = some (.code c false) →
      modeTakes (s.nrd .a Reg.NET_CFG_PMODE) c = true →
    Answers (.referenceClockReturn .refNa) s fun t =>
      t.role .a = roleStandby ∧ t.nrd .a Reg.NET_STATUS_SFP = 1 ∧ t.nflag .a Reg.NET_STATUS_LINK = false ∧ t.flag pwrBase Reg.PWR_STATUS_REFNA = true) ∧
  (∀ s : State, s.role .a = roleOff → s.nrd .a Reg.NET_CFG_PMODE = 0 →
    Answers (.referenceClockReturn .refNa) s fun t => t.role .a = roleOff ∧ t.flag pwrBase Reg.PWR_STATUS_REFNA = true)

/-- R435, R436, R443: HUTEST starts a measurement outside RUN while none runs; its result shows in PWR.CAP and, below 840 µF, as HULOW in PWR and MOD.HEALTH; a bank not
ready in time is HULOW; HUREADY follows 46.0 V, SUPOK 5.6 V, and SUPLOW the range below 6.0 V. -/
def Obligations.HoldUpBankAndSupplyShow : Prop :=
  (∀ (s : State) (p : Port), Served s p → s.mst ≠ stRun → s.pwr.measuring = false →
    Answers (.hutest p) s fun t => t.pwr = { s.pwr with measuring := true } ∧ t.outbox = s.outbox ++ [.result p E_OK] ∧ RegsKept [] s t) ∧
  (∀ (s : State) (p : Port), Served s p → s.mst = stRun → exec (.hutest p) s = .next (s.answer p E_STATE).settle) ∧
  (∀ (s : State) (p : Port), Served s p → s.mst ≠ stRun → s.pwr.measuring = true → exec (.hutest p) s = .next (s.answer p E_BUSY).settle) ∧
  (∀ (s : State) (uf : BitVec 16), s.pwr.measuring = true → uf.toNat < 840 →
    Answers (.bankMeasurementComplete uf) s fun t =>
      t.rd pwrBase Reg.PWR_CAP_UF = uf.toNat ∧ t.flag pwrBase Reg.PWR_STATUS_HULOW = true ∧ t.flag modBase Reg.MOD_HEALTH_HULOW = true ∧
      t.pwr = { s.pwr with measuring := false } ∧ RegsKept [pwrBase + Reg.PWR_CAP_UF.off, pwrBase + Reg.PWR_STATUS_HULOW.off] s t) ∧
  (∀ (s : State) (uf : BitVec 16), s.pwr.measuring = true → 840 ≤ uf.toNat → s.flag pwrBase Reg.PWR_STATUS_HUREADY = true →
    Answers (.bankMeasurementComplete uf) s fun t =>
      t.rd pwrBase Reg.PWR_CAP_UF = uf.toNat ∧ t.flag pwrBase Reg.PWR_STATUS_HULOW = false ∧ t.flag modBase Reg.MOD_HEALTH_HULOW = false) ∧
  (∀ (s : State) (uf : BitVec 16), s.pwr.measuring = false → exec (.bankMeasurementComplete uf) s = .next s.settle) ∧
  (∀ s : State, s.mst ≠ stPfail → s.mst ≠ stSelftest → s.flag pwrBase Reg.PWR_STATUS_HUREADY = false →
    Answers .hulowTimeout s fun t =>
      t.flag pwrBase Reg.PWR_STATUS_HULOW = true ∧ t.flag modBase Reg.MOD_HEALTH_HULOW = true ∧ RegsKept [pwrBase + Reg.PWR_STATUS_HULOW.off] s t) ∧
  (∀ (s : State) (v : BitVec 16),
    Answers (.huready v) s fun t =>
      t.flag pwrBase Reg.PWR_STATUS_HUREADY = decide (4600 ≤ v.toNat) ∧ t.rd pwrBase Reg.PWR_SUPV_VBANK = v.toNat ∧ t.mst = s.mst ∧
      RegsKept [pwrBase + Reg.PWR_STATUS_HUREADY.off, pwrBase + Reg.PWR_SUPV_VBANK.off] s t) ∧
  (∀ (s : State) (v : BitVec 16),
    Answers (.suplow v) s fun t =>
      t.flag pwrBase Reg.PWR_STATUS_SUPOK = decide (5600 ≤ v.toNat) ∧ t.flag pwrBase Reg.PWR_STATUS_SUPLOW = decide (5600 ≤ v.toNat ∧ v.toNat < 6000) ∧
      t.flag modBase Reg.MOD_HEALTH_SUPLOW = decide (5600 ≤ v.toNat ∧ v.toNat < 6000) ∧ t.rd pwrBase Reg.PWR_SUPV_SUP = v.toNat ∧ t.mst = s.mst)

/-- R273, R308, R357, R403, R436–R440, R459: a power failure takes the module to PFAIL with Tocsin STOPPED, links down, CAN off and no descriptor in progress, and with step 3
the recorder OFF; with enough energy all five steps complete, the journal closed, one LASTGASP sent and the panel discharged; in PFAIL the row carries the sequence further
until it has ended.
(Readings and choices of the model that it rests on: log entry 105.) -/
def Obligations.PowerFailShedsAndCloses : Prop :=
  (∀ (s : State) (sup vb : BitVec 16) (checks : List (BitVec 16)) (stop : Fin 6) (o : NvOutcome), s.mst ≠ stPfail →
    Answers (.powerFail ⟨sup, vb⟩ checks stop o) s fun t =>
      t.mst = stPfail ∧ t.rd modBase Reg.MOD_STATE_PREV = s.mst ∧ t.tstate = tsStopped ∧ t.flag tbBase Reg.TB_STATUS_MFLTOPEN = true ∧
      t.link .up = 0 ∧ t.link .down = 0 ∧ (∀ c : Fin 2, t.rd (canBase c.val) Reg.CAN_STATUS_ESTATE = 0) ∧ (∀ n, (t.qp n).txDesc = none) ∧
      (3 ≤ t.pwr.steps → t.recState = rsOff) ∧ t.rd pwrBase Reg.PWR_PFLAST_STEP = t.pwr.steps ∧ t.pwr.steps ≤ stop.val ∧ t.pwr.ended = false ∧ t.mgmt.queue = [] ∧
      t.q.mem = s.q.mem ∧ t.img.keys = s.img.keys) ∧
  (∀ (s : State) (sup vb : BitVec 16) (checks : List (BitVec 16)) (o : NvOutcome), s.mst ≠ stPfail → (∀ i < 3, 1400 ≤ (checks.getD i vb).toNat) →
    Answers (.powerFail ⟨sup, vb⟩ checks 5 o) s fun t =>
      t.pwr.steps = 5 ∧ t.flag nvjBase Reg.NVJ_STATUS_CLOSING = false ∧ t.pnl.discharged = true ∧
      t.prd Reg.PNL_VCON_MV = 0 ∧ (∀ i, (t.pixel i).drive = none)) ∧
  (∀ (s : State) (sup vb : BitVec 16) (checks : List (BitVec 16)) (stop : Fin 6) (fails : Nat), s.mst ≠ stPfail → 2 ≤ stop.val → s.jrn.readOnly = [] →
    Answers (.powerFail ⟨sup, vb⟩ checks stop ⟨fails, []⟩) s fun t => t.jrn.pend = [] ∧ t.rd nvjBase Reg.NVJ_PEND_PEND = 0) ∧
  (∀ (s : State) (sup vb : BitVec 16) (checks : List (BitVec 16)) (o : NvOutcome), s.mst ≠ stPfail → (∀ i < 3, 1400 ≤ (checks.getD i vb).toNat) → s.tabor = false →
      s.net.snare = 1 →
    Answers (.powerFail ⟨sup, vb⟩ checks 5 o) s fun t =>
      ∃ f : NetFrame, Output.sahvos .a f ∈ t.outbox ∧ f.kind = 5 ∧ f.dst = groupMac 5 ∧ f.addr = s.addr ∧ f.stroke = s.strokeNo ∧ f.payload.length = 16 ∧
        f.payload.take 1 = [BitVec.ofNat 8 s.mst]) ∧
  (∀ (s : State) (sup vb : BitVec 16) (checks : List (BitVec 16)) (stop : Fin 6) (o : NvOutcome), s.mst = stPfail → s.pwr.ended = false → s.pwr.unpowered = false →
      s.pwr.abandoned = 0 →
    exec (.powerFail ⟨sup, vb⟩ checks stop o) s =
      .next ((s.setBank vb.toNat).runSequence s.pwr.supMv checks vb stop.val o 6).settle) ∧
  (∀ (s : State) (sup vb : BitVec 16) (checks : List (BitVec 16)) (stop : Fin 6) (o : NvOutcome), s.mst = stPfail →
      (s.pwr.ended = true ∨ s.pwr.unpowered = true ∨ s.pwr.abandoned ≠ 0) →
    exec (.powerFail ⟨sup, vb⟩ checks stop o) s = .next s.settle)

/-- R438, R439, R441, R442, R443: the end of the sequence is recorded in PWR.PFLAST and PWR.PFE; with SUP present it resets with cause 2, and so does SUP's return to a module
that has ended; a bank below 14.0 V abandons the sequence with ABCAUSE 1, below 12.0 V leaves it unpowered; a
flush that had begun and was cut off has sealed some of its records.
(Readings and choices of the model that it rests on: log entry 105.) -/
def Obligations.PowerFailEndsAndReturns : Prop :=
  (∀ (s : State) (d e v : BitVec 16), s.mst = stPfail → s.pwr.ended = false → s.pwr.unpowered = false → s.pwr.steps ≤ 5 → s.pwr.abandoned < 4 →
      s.pwr.barred = false → (s.pwr.begun ≠ 3 ∨ 3 ≤ s.pwr.steps) →
    Answers (.powerFailSequenceEnd d e v false) s fun t =>
      t.mst = stPfail ∧ t.pwr.ended = true ∧ t.rd pwrBase Reg.PWR_PFLAST_STEP = s.pwr.steps ∧
      t.flag pwrBase Reg.PWR_PFLAST_COMPLETE = decide (s.pwr.steps = 5 ∧ s.pwr.abandoned = 0) ∧
      t.flag pwrBase Reg.PWR_PFLAST_ABANDONED = decide (s.pwr.abandoned ≠ 0) ∧ t.rd pwrBase Reg.PWR_PFLAST_ABCAUSE = s.pwr.abandoned ∧
      t.rd pwrBase Reg.PWR_PFLAST_DURUS = d.toNat ∧ t.rd pwrBase Reg.PWR_PFE_EMJ = e.toNat ∧ t.rd pwrBase Reg.PWR_PFE_VEND = v.toNat ∧
      (s.pwr.steps < 3 → t.recState = rsOff) ∧
      RegsKept [pwrBase + Reg.PWR_PFLAST_STEP.off, pwrBase + Reg.PWR_PFE_EMJ.off, pwrBase + Reg.PWR_STATUS_HUREADY.off,
        pwrBase + Reg.PWR_SUPV_VBANK.off, recBase + Reg.REC_STATUS_STATE.off] s t) ∧
  (∀ (s : State) (d e v : BitVec 16), s.mst = stPfail → s.pwr.ended = false → s.pwr.unpowered = false → s.pwr.begun = 3 → s.pwr.steps < 3 →
    Answers (.powerFailSequenceEnd d e v false) s fun t =>
      t.pwr.ended = true ∧ t.recState = rsOff ∧ s.recd.unsealed ≤ t.recd.unsealed ∧ t.recd.unsealed ≤ s.recd.unsealed + 1 ∧
      (∃ k, t.recd.area = s.recd.area ++ s.flushRecords.take k) ∧ t.recd.log = s.recd.log ∧ t.recd.saved = s.recd.saved) ∧
  (∀ (s : State) (d e v : BitVec 16), s.mst = stPfail → s.pwr.ended = false → s.pwr.unpowered = false → s.pwr.abandoned = 0 → s.pwr.barred = true →
    Answers (.powerFailSequenceEnd d e v false) s fun t =>
      t.pwr.ended = true ∧ t.flag pwrBase Reg.PWR_PFLAST_ABANDONED = true ∧ t.rd pwrBase Reg.PWR_PFLAST_ABCAUSE = 1 ∧
      t.flag pwrBase Reg.PWR_PFLAST_COMPLETE = false) ∧
  (∀ (s : State) (d e v : BitVec 16), s.mst = stPfail → s.pwr.ended = false → s.pwr.unpowered = false → (s.pwr.begun ≠ 3 ∨ 3 ≤ s.pwr.steps) →
    Answers (.powerFailSequenceEnd d e v true) s fun t =>
      t.mst = stPowerup ∧ t.rd pwrBase Reg.PWR_RST_CAUSE = 2 ∧
      t.rd pwrBase Reg.PWR_PFCNT_RETURNS = min (s.rd pwrBase Reg.PWR_PFCNT_RETURNS + 1) 65535 ∧
      t.rd pwrBase Reg.PWR_PFCNT_PFAILS = min (s.rd pwrBase Reg.PWR_PFCNT_PFAILS + 1) 65535 ∧ t.img.keys = s.img.keys ∧ t.jrn = s.jrn) ∧
  (∀ s : State, s.mst = stPfail → s.pwr.ended = true → s.pwr.unpowered = false →
    Answers .supPresent s fun t => t.mst = stPowerup ∧ t.rd pwrBase Reg.PWR_RST_CAUSE = 2) ∧
  (∀ s : State, s.mst ≠ stPfail → exec .supPresent s = .next s.settle) ∧
  (∀ (s : State) (b : Bool) (d e v : BitVec 16), s.mst = stPfail → s.pwr.ended = false → s.pwr.unpowered = false → s.pwr.abandoned = 0 →
    Answers (.bankExhausted b d e v) s fun t =>
      t.pwr.ended = true ∧ t.pwr.unpowered = b ∧ t.flag pwrBase Reg.PWR_PFLAST_ABANDONED = true ∧ t.rd pwrBase Reg.PWR_PFLAST_ABCAUSE = 1 ∧
      t.flag pwrBase Reg.PWR_PFLAST_COMPLETE = false ∧ t.mst = stPfail) ∧
  (∀ (s : State) (b : Bool) (d e v : BitVec 16), s.mst ≠ stPfail → exec (.bankExhausted b d e v) s = .next s.settle)

/-! Tabor mode (18). -/

/-- R448–R453: a listed register reads as its legacy value, 1 as the address of the module; other addresses answer 82H and a count outside 1–120 83H; a SETPOINT write is staged as its
percentage; one register of a bonded pair waits for its partner, and is discarded with its record; other messages answer 81H.
(Readings and choices of the model that it rests on: log entry 106.) -/
def Obligations.LegacyRegistersAndPairs : Prop :=
  (∀ (s : State) (r : Nat) (a v : BitVec 16), s.taborUp = true → legacyListed a.toNat = true → (a.toNat < 0x310 ∨ 0x330 ≤ a.toNat) →
      s.legacyValue a.toNat = some v →
    Answers (.readRegisters r a 1) s fun t => t.outbox = s.outbox ++ [.type41 r 0 [v]] ∧ (t.path .a).heard = true ∧ t.tab.pairs = s.tab.pairs ∧ RegsKept [] s t) ∧
  (∀ (s : State) (r : Nat), s.taborUp = true →
    Answers (.readRegisters r 1 1) s fun t => t.outbox = s.outbox ++ [.type41 r 0 [BitVec.ofNat 16 s.addr]]) ∧
  (∀ (s : State) (r : Nat) (lo hi : BitVec 16), s.taborUp = true → s.legacyValue 0x310 = some lo → s.legacyValue 0x311 = some hi →
    Answers (.readRegisters r 0x310 1) s fun t => t.outbox = s.outbox ++ [.type41 r 0 [lo]] ∧ (0x311, hi, r) ∈ t.tab.latch) ∧
  (∀ (s : State) (r : Nat) (a : BitVec 16), s.taborUp = true → legacyListed a.toNat = false →
    Answers (.readRegisters r a 1) s fun t => t.outbox = s.outbox ++ [.type41 r 0x82 []] ∧ RegsKept [] s t) ∧
  (∀ (s : State) (r : Nat) (a : BitVec 16), s.taborUp = true → Answers (.readRegisters r a 0) s fun t => t.outbox = s.outbox ++ [.type41 r 0x83 []]) ∧
  (∀ (s : State) (r n : Nat) (a : BitVec 16), s.taborUp = true → 1 ≤ n → n ≤ 120 →
      (∀ i < n, legacyListed (a.toNat + i) = true ∧ (a.toNat + i < 0x310 ∨ 0x330 ≤ a.toNat + i) ∧ (s.legacyValue (a.toNat + i)).isSome) →
    Answers (.readRegisters r a n) s fun t =>
      t.outbox = s.outbox ++ [.type41 r 0 ((List.range n).map fun i => (s.legacyValue (a.toNat + i)).getD 0)] ∧ t.free = s.free ∧ RegsKept [] s t) ∧
  (∀ (s : State) (r n : Nat) (a : BitVec 16), s.taborUp = true →
    Answers (.readRegisters r a n) s fun t =>
      (∃ (e : Nat) (vs : List (BitVec 16)), t.outbox = s.outbox ++ [.type41 r e vs] ∧
        (e = 0 ↔ 1 ≤ n ∧ n ≤ 120 ∧ ∀ i < n, legacyListed (a.toNat + i) = true) ∧ (e = 0 → vs.length = n)) ∧
      (t.path .a).heard = true ∧ t.tab.pairs = s.tab.pairs ∧ t.fab.staged = s.fab.staged ∧ RegsKept [] s t) ∧
  (∀ (s : State) (r n : Nat) (a : BitVec 16) (ws : List (BitVec 16 × BitVec 16)), s.taborUp = false →
    exec (.readRegisters r a n) s = .next s.settle ∧ exec (.writeRegisters r ws) s = .next s.settle) ∧
  (∀ (s : State) (r : Nat) (ws : List (BitVec 16 × BitVec 16)), s.taborUp = true →
    Answers (.writeRegisters r ws) s fun t =>
      (∃ e : Nat, t.outbox = s.outbox ++ [.type41 r e []] ∧ ((ws = [] ∨ 100 < ws.length) → e = 0x83) ∧
        (∀ w ∈ ws, ws.length ≤ 100 → legacyListed w.1.toNat = false → e ≠ 0)) ∧
      (t.path .a).heard = true ∧ ((ws = [] ∨ 100 < ws.length) → t.fab.staged = s.fab.staged ∧ t.tab.pairs = s.tab.pairs)) ∧
  (∀ (s : State) (r k : Nat) (v : BitVec 16), s.taborUp = true → k < 32 → v.toNat ≤ 10000 →
      loopRegCheck k 0x24 (toF32c (mkRat v.toNat 100)) s = E_OK →
    Answers (.writeRegisters r [(BitVec.ofNat 16 (0x400 + 16 * k), v)]) s fun t =>
      t.fab.staged = s.fab.staged ++ [(cellBase (lpId k) + 0x24, toF32c (mkRat v.toNat 100))] ∧ t.outbox = s.outbox ++ [.type41 r 0 []]) ∧
  (∀ (s : State) (r : Nat) (v : BitVec 16), s.taborUp = true → s.pendingAt 0x301 = none → s.pendingAt 0x302 = none → s.tab.pairs.length < 16 →
    Answers (.writeRegisters r [(0x301, v)]) s fun t =>
      t.tab.pairs = s.tab.pairs ++ [⟨0x301, v, 8⟩] ∧ t.rd tabBase Reg.TAB_STATUS_PENDING = s.tab.pairs.length + 1 ∧
      t.outbox = s.outbox ++ [.type41 r 0 []] ∧ t.fab.staged = s.fab.staged ∧ RegsKept [tabBase + Reg.TAB_STATUS_PENDING.off] s t) ∧
  (∀ (s : State) (r : Nat) (v : BitVec 16), s.taborUp = true → s.pendingAt 0x301 = none → s.pendingAt 0x302 = none → 16 ≤ s.tab.pairs.length →
    Answers (.writeRegisters r [(0x301, v)]) s fun t => t.tab.pairs = s.tab.pairs ∧ t.outbox = s.outbox ++ [.type41 r 0x84 []]) ∧
  (∀ (s : State) (r : Nat) (a v : BitVec 16), s.taborUp = true → legacyListed a.toNat = false →
    Answers (.writeRegisters r [(a, v)]) s fun t => t.outbox = s.outbox ++ [.type41 r 0x82 []] ∧ t.fab.staged = s.fab.staged ∧ RegsKept [] s t) ∧
  (∀ (s : State) (a : BitVec 16) (p : PairWrite), s.pendingAt a.toNat = some p → p.left = 0 →
    Answers (.pairDiscard a) s fun t =>
      t.tab.pairs = s.tab.pairs.filter (fun q => q.addr.toNat != a.toNat) ∧ t.rd tabBase Reg.TAB_PAIR_CODE = E_PAIR.toNat ∧
      t.rd tabBase Reg.TAB_PAIR_ADDR = a.toNat ∧ t.rd tabBase Reg.TAB_CNT_PAIRDISC = min (s.rd tabBase Reg.TAB_CNT_PAIRDISC + 1) 65535 ∧
      (s.tabor = true → s.mst ∈ [stEnum, stLoad, stReady, stRun, stSafe, stService] → ∃ n ∈ t.tab.noticed, n.kind = .pair ∧ n.source = a.toNat ∧ n.state = E_PAIR.toNat)) ∧
  (∀ (s : State) (a : BitVec 16), s.pendingAt a.toNat = none → exec (.pairDiscard a) s = .next s.settle) ∧
  (∀ (s : State) (ty : Byte), s.taborUp = true → exec (.unsupportedMessage ty) s = .next (s.reply41 0 0x81 []).settle)

/-- R455–R458, R460: a notified alarm takes the next sequence number and its time stamp while the queue has room, and is counted as lost where it has none; a read gives the oldest
entry; a row that does not name the first notification changes nothing; the number of an entry acknowledges it, another answers 84H; a time is set in FREE; the mode to
come is stored through the service port, by a journal transaction.
(Readings and choices of the model that it rests on: log entries 106, 142, 147.) -/
def Obligations.LegacyAlarmsTimeAndMode : Prop :=
  (∀ (s : State) (n : Notice) (l : List Notice), s.tabor = true → s.mst ∈ [stEnum, stLoad, stReady, stRun, stSafe, stService] → s.tab.noticed = n :: l →
      s.tab.queue.length < 256 →
    Answers (.alarmQueueAccept n.kind (BitVec.ofNat 16 n.source) (BitVec.ofNat 16 n.state)) s fun t =>
      t.tab.queue = s.tab.queue ++ [⟨s.tab.seq, Config.alarmCode n.kind, BitVec.ofNat 16 n.source, BitVec.ofNat 16 n.state, s.stamp48⟩] ∧
      t.tab.seq = s.tab.seq + 1 ∧ t.tab.noticed = l ∧ t.rd tabBase Reg.TAB_STATUS_QLEN = s.tab.queue.length + 1 ∧
      t.rd tabBase Reg.TAB_AQCNT_ACCEPTED = min (s.rd tabBase Reg.TAB_AQCNT_ACCEPTED + 1) 65535 ∧
      RegsKept [tabBase + Reg.TAB_STATUS_QLEN.off, tabBase + Reg.TAB_AQCNT_ACCEPTED.off] s t) ∧
  (∀ (s : State) (n : Notice) (l : List Notice), s.tabor = true → s.mst ∈ [stEnum, stLoad, stReady, stRun, stSafe, stService] → s.tab.noticed = n :: l →
      256 ≤ s.tab.queue.length →
    Answers (.alarmQueueAccept n.kind (BitVec.ofNat 16 n.source) (BitVec.ofNat 16 n.state)) s fun t =>
      t.tab.queue = s.tab.queue ∧ t.tab.noticed = l ∧ t.tab.refused = min (s.tab.refused + 1) 65535 ∧ t.flag tabBase Reg.TAB_STATUS_OVFPEND = true ∧
      t.rd tabBase Reg.TAB_CNT_LOST = min (s.rd tabBase Reg.TAB_CNT_LOST + 1) 65535) ∧
  (∀ (s : State) (ev : AlarmKind) (src new : BitVec 16), (s.tabor = false ∨ s.tab.noticed = []) → exec (.alarmQueueAccept ev src new) s = .next s.settle) ∧
  (∀ (s : State) (n : Notice) (l : List Notice) (ev : AlarmKind) (src new : BitVec 16), s.tab.noticed = n :: l →
      (ev ≠ n.kind ∨ src ≠ BitVec.ofNat 16 n.source ∨ new ≠ BitVec.ofNat 16 n.state) →
    exec (.alarmQueueAccept ev src new) s = .next s.settle) ∧
  (∀ (s : State) (a : Alarm) (l : List Alarm), s.taborUp = true → s.tab.queue = a :: l →
    Answers .alarmQueueRead s fun t => t.outbox = s.outbox ++ [.type41 0 0 a.words] ∧ t.tab = s.tab ∧ RegsKept [] s t) ∧
  (∀ (s : State) (a : Alarm) (l : List Alarm), s.taborUp = true → s.tab.queue = a :: l → s.tab.refused = 0 →
    Answers (.alarmAcknowledge a.seq) s fun t =>
      t.tab.queue = l ∧ t.outbox = s.outbox ++ [.type41 0 0 []] ∧
      t.rd tabBase Reg.TAB_AQCNT_ACKED = min (s.rd tabBase Reg.TAB_AQCNT_ACKED + 1) 65535) ∧
  (∀ (s : State) (a : Alarm) (l : List Alarm), s.taborUp = true → s.tab.queue = a :: l → s.tab.refused ≠ 0 →
    Answers (.alarmAcknowledge a.seq) s fun t =>
      ∃ e : Alarm, t.tab.queue = l ++ [e] ∧ e.seq = s.tab.seq ∧ e.state = BitVec.ofNat 16 s.tab.refused ∧ t.tab.refused = 0) ∧
  (∀ (s : State) (q : BitVec 16), s.taborUp = true → (∀ a l, s.tab.queue = a :: l → a.seq ≠ q) →
    Answers (.alarmAcknowledge q) s fun t => t.tab = s.tab ∧ t.outbox = s.outbox ++ [.type41 0 0x84 []] ∧ RegsKept [] s t) ∧
  (∀ (s : State) (ms : BitVec 48), s.taborUp = true → s.servoState = svFree → s.nowNs + 1000000 < ms.toNat * 1000000 →
    Answers (.timeSet ms) s fun t =>
      t.nowNs = ms.toNat * 1000000 ∧ t.flag tmBase Reg.TM_STATUS_TIMEVALID = true ∧ t.outbox = s.outbox ++ [.type41 0 0 []]) ∧
  (∀ (s : State) (ms : BitVec 48), s.taborUp = true → s.servoState = svLocked →
    Answers (.timeSet ms) s fun t => t.time = s.time ∧ t.outbox = s.outbox ++ [.type41 0 0x84 []]) ∧
  (∀ (s : State) (next : Bool), Served s .service → s.mst ∈ [stReady, stService] → s.flag modBase Reg.MOD_HEALTH_NV_DEGRADED = false →
      JournalTakes s modeHome →
    Answers (.modeNextWrite .service next .clean) s fun t =>
      t.flag modBase Reg.MOD_MODE_NEXT = next ∧ t.tabor = s.tabor ∧ t.outbox = s.outbox ++ [.result .service E_OK] ∧
      RegsKept ((modBase + Reg.MOD_MODE_NEXT.off) :: journalRegs) s t) ∧
  (∀ (s : State) (next : Bool) (o : NvOutcome), Served s .service → s.mst ∈ [stReady, stService] →
      s.flag modBase Reg.MOD_HEALTH_NV_DEGRADED = false → (s.commitTxn modeHome o).1 ≠ E_OK →
    Answers (.modeNextWrite .service next o) s fun t =>
      t.flag modBase Reg.MOD_MODE_NEXT = s.flag modBase Reg.MOD_MODE_NEXT ∧ t.outbox = s.outbox ++ [.result .service E_NV_FAIL]) ∧
  (∀ (s : State) (p : Port) (next : Bool) (o : NvOutcome), Served s p → p ≠ .service → exec (.modeNextWrite p next o) s = .next (s.answer p E_ACCESS).settle) ∧
  (∀ (s : State) (next : Bool) (o : NvOutcome), Served s .service → s.mst ∉ [stReady, stService] →
    exec (.modeNextWrite .service next o) s = .next (s.answer .service E_STATE).settle)

/-! Management (19). -/

/-- R462–R467, R471–R473: a request joins the queue and is remembered; one that the checks reject is answered at once; a request seen again is answered with its remembered
response and executed no second time; another under its TID is E_ORDER; a full queue is E_BUSY; POWERUP and PFAIL are silent; a transfer that is no request is discarded, and
a MGMT frame to others is not taken; the bytes of a response, and its MGMT frame.
(Readings and choices of the model that it rests on: log entries 43, 44, 127.) -/
def Obligations.RequestsAreCheckedQueuedAndRemembered : Prop :=
  (∀ (s : State) (a : MgmtArrival) (r : MgmtReq), Brings s a r → Served s r.port → s.mgmt.memory = [] → s.mgmt.queue = [] → r.reject = none →
    Answers (.managementRequest a) s fun t =>
      t.mgmt.queue = [(s.time.cycles, r)] ∧ t.mgmt.memory = [(r, none)] ∧ t.mgmt.held = s.mgmt.held ∧ t.outbox = s.outbox ∧ RegsKept [] s t) ∧
  (∀ (s : State) (a : MgmtArrival) (r : MgmtReq) (c : Code) (i : Nat), Brings s a r → Served s r.port → s.mgmt.memory = [] → r.reject = some (c, i) →
    Answers (.managementRequest a) s fun t =>
      t.outbox = (s.sendResponse r (responseBytes r c i [])).outbox ∧ t.mgmt.queue = s.mgmt.queue ∧
      t.mgmt.memory = [(r, some (responseBytes r c i [], s.time.cycles))] ∧ RegsKept [] s t) ∧
  (∀ (s : State) (a : MgmtArrival) (r q : MgmtReq) (o : List Byte) (c : Nat), Brings s a r → Served s r.port → s.mgmt.memory = [(q, some (o, c))] →
      s.time.cycles < c + 1000000000 → sameRequester q r = true → q.bytes = r.bytes →
    Answers (.managementRequest a) s fun t => t.outbox = (s.sendResponse r o).outbox ∧ t.mgmt = s.mgmt ∧ RegsKept [] s t) ∧
  (∀ (s : State) (a : MgmtArrival) (r q : MgmtReq), Brings s a r → Served s r.port → s.mgmt.memory = [(q, none)] → sameRequester q r = true →
      q.bytes = r.bytes →
    exec (.managementRequest a) s = .next s.settle) ∧
  (∀ (s : State) (a : MgmtArrival) (r q : MgmtReq), Brings s a r → Served s r.port → s.mgmt.memory = [(q, none)] → sameRequester q r = true →
      q.tid = r.tid → q.bytes ≠ r.bytes →
    Answers (.managementRequest a) s fun t =>
      t.outbox = (s.sendResponse r (responseBytes r E_ORDER 0xFF [])).outbox ∧ t.mgmt = s.mgmt ∧ RegsKept [] s t) ∧
  (∀ (s : State) (a : MgmtArrival) (r : MgmtReq), Brings s a r → Served s r.port → s.mgmt.memory = [] → s.mgmt.queue.length = 32 → r.reject = none →
    Answers (.managementRequest a) s fun t =>
      t.outbox = (s.sendResponse r (responseBytes r E_BUSY 0xFF [])).outbox ∧ t.mgmt.queue = s.mgmt.queue ∧ t.mgmt.memory = []) ∧
  (∀ (s : State) (a : MgmtArrival) (r : MgmtReq), Brings s a r → exec (.managementRequest a) s = .next (s.arrive r).settle) ∧
  (∀ (s : State) (a : MgmtArrival) (r : MgmtReq), Brings s a r → (s.mst = stPowerup ∨ s.mst = stPfail) →
    exec (.managementRequest a) s = .next s.settle) ∧
  (∀ (s : State) (h : Sahvos) (bytes : List Byte), (h.ver ≠ 1 ∨ h.kind ≠ 3) → exec (.managementRequest (.usb h bytes)) s = .next s.settle) ∧
  (∀ (s : State) (p : ChainPort) (f : ChainFrame), s.mgmtHere f = false → exec (.managementRequest (.chain p f)) s = .next s.settle) ∧
  (∀ (s : State) (p : ChainPort) (f : ChainFrame), s.mgmtHere f = true → badMgmt f = true →
    exec (.managementRequest (.chain p f)) s = .next (dropFrame s).settle) ∧
  (∀ r : MgmtReq, (1468 < r.bytes.length ∨ r.declared ≠ r.bytes.length ∨ r.reserved ≠ 0 ∨ r.nops = 0 ∨ 64 < r.nops.toNat) →
    r.reject = some (E_RANGE, 0xFF)) ∧
  (∀ (s : State) (r : MgmtReq) (dst : BitVec 8) (c : Code) (i : Nat) (data : List Word),
    (responseBytes r c i data).length = 8 + 4 * data.length ∧
    (responseBytes r c i data).take 8 = leList r.tid.toNat 2 ++ [c, BitVec.ofNat 8 i, r.nops, 0, 0, 0] ∧
    (s.chainResponse dst (responseBytes r c i data)).ty = 4 ∧
    (s.chainResponse dst (responseBytes r c i data)).tspec = leList (8 + 4 * data.length) 2 ++ [4, 0, 0, 0] ∧
    ((s.chainResponse dst (responseBytes r c i data)).payload.flatten.take (8 + 4 * data.length)) = responseBytes r c i data)

/-- R6, R468, R471, R473: a read transaction at the front answers the word of its register, clears what a read clears and no other register, and a failing one answers its
code and changes no register; while CP1 is held it waits.
(Readings and choices of the model that it rests on: log entry 41.) -/
def Obligations.ReadTransactionsAnswerAndClear : Prop :=
  (∀ (s : State) (n a : Nat) (r : MgmtReq) (rest : List (Nat × MgmtReq)), s.mgmt.queue = (n, r) :: rest → r.isRead = true → Served s r.port →
      s.flag (cpBase 1) Reg.CP_STATUS_HELD = false → r.registers = [(0, a, 0)] → s.readCheck false a = E_OK → a ≠ qbBase + Reg.QB_STATUS_INFLIGHT.off →
    Answers .readTransaction s fun t =>
      t.outbox = ((s.clearRead a).sendResponse r (responseBytes r E_OK 0xFF [s.readWord a])).outbox ∧ t.mgmt.queue = rest ∧ t.free = s.free ∧ t.mst = s.mst ∧ RegsKept [a] s t ∧
      (∀ f ∈ fieldsAt a, f.acc = .rclr → a ≠ tbBase + 0x40 → a ≠ tbBase + 0x7C → a ∉ followers → t.rd (addrBase a) f = 0)) ∧
  (∀ (s : State) (n a : Nat) (r : MgmtReq) (rest : List (Nat × MgmtReq)), s.mgmt.queue = (n, r) :: rest → r.isRead = true → Served s r.port →
      s.flag (cpBase 1) Reg.CP_STATUS_HELD = false → r.registers = [(0, a, 0)] → s.readCheck false a ≠ E_OK →
    Answers .readTransaction s fun t =>
      t.outbox = (s.sendResponse r (responseBytes r (s.readCheck false a) 0 [])).outbox ∧ t.mgmt.queue = rest ∧ RegsKept [] s t) ∧
  (∀ (s : State) (n : Nat) (r : MgmtReq) (rest : List (Nat × MgmtReq)), s.mgmt.queue = (n, r) :: rest → Served s r.port →
      s.flag (cpBase 1) Reg.CP_STATUS_HELD = true →
    exec .readTransaction s = .next s.settle ∧ exec .writeTransaction s = .next s.settle) ∧
  (∀ (s : State) (n : Nat) (r : MgmtReq) (rest : List (Nat × MgmtReq)), s.mgmt.queue = (n, r) :: rest → r.isRead = true → Served s r.port →
      s.flag (cpBase 1) Reg.CP_STATUS_HELD = false →
    exec .readTransaction s = .next (s.popRequest.readAll r false).settle ∧ exec .writeTransaction s = .next s.settle) ∧
  (∀ (s : State) (n : Nat) (r : MgmtReq) (rest : List (Nat × MgmtReq)), s.mgmt.queue = (n, r) :: rest → r.isRead = true → Served s r.port →
      s.flag (cpBase 1) Reg.CP_STATUS_HELD = false → (∀ e ∈ r.registers, s.readCheck false e.2.1 = E_OK) →
    Answers .readTransaction s fun t =>
      t.mgmt.queue = rest ∧ t.fab.staged = s.fab.staged ∧ RegsKept (r.registers.map fun e => e.2.1) s t ∧
      t.outbox = ((r.registers.foldl (fun u e => u.clearRead e.2.1) s).sendResponse r
        (responseBytes r E_OK 0xFF (r.registers.map fun e => s.readWord e.2.1))).outbox) ∧
  (∀ s : State, s.mgmt.queue = [] → exec .readTransaction s = .next s.settle ∧ exec .writeTransaction s = .next s.settle)

/-- R469–R471, R393: a write transaction takes effect and answers where every register write passes, and has no effect where one fails; one of a kind decided later is held and
answered with its decision, of what the journal keeps with its transaction, and waits or ends with E_INTERNAL where CP1 is held or isolated; two such kinds are E_ORDER;
MEM.SCRUB takes 1 to 168 and refuses other periods.
(Readings and choices of the model that it rests on: log entries 47, 141.) -/
def Obligations.WriteTransactionsPassFailOrAreHeld : Prop :=
  (∀ (s : State) (n : Nat) (r : MgmtReq) (rest : List (Nat × MgmtReq)), s.mgmt.queue = (n, r) :: rest → r.isRead = false → Served s r.port →
      s.flag (cpBase 1) Reg.CP_STATUS_HELD = false →
    exec .writeTransaction s = .next (s.popRequest.writeTransaction r false).settle ∧ exec .readTransaction s = .next s.settle) ∧
  (∀ (s : State) (k : Nat) (o : NvOutcome), s.mgmt.held[k]? = none → exec (.heldWriteDecision k o) s = .next s.settle) ∧
  (∀ (s t : State) (n : Nat) (r : MgmtReq) (rest : List (Nat × MgmtReq)), s.mgmt.queue = (n, r) :: rest → r.isRead = false → Served s r.port →
      s.flag (cpBase 1) Reg.CP_STATUS_HELD = false → heldKinds r.registers = [] → restarts r.registers = false →
      writeAll r.port false false s.heldRegisters [] r.registers s.popRequest = .inr t →
    exec .writeTransaction s = .next (t.respond r E_OK 0xFF []).settle) ∧
  (∀ (s : State) (n i a : Nat) (r : MgmtReq) (rest : List (Nat × MgmtReq)) (c : Code) (w : Word), s.mgmt.queue = (n, r) :: rest → r.isRead = false →
      Served s r.port → s.flag (cpBase 1) Reg.CP_STATUS_HELD = false → (heldKinds r.registers).length ≤ 1 → a ≠ pnlBase + Reg.PNL_UPD_GO.off →
      writeAll r.port false false s.heldRegisters [] r.registers s.popRequest = .inl (c, i, a, w) →
    Answers .writeTransaction s fun t =>
      t.outbox = (s.sendResponse r (responseBytes r c i [])).outbox ∧ t.fab = s.fab ∧ t.img = s.img ∧ t.mgmt.queue = rest ∧ RegsKept [] s t) ∧
  (∀ (s : State) (n : Nat) (r : MgmtReq) (rest : List (Nat × MgmtReq)), s.mgmt.queue = (n, r) :: rest → r.isRead = false →
      Served s r.port → s.flag (cpBase 1) Reg.CP_STATUS_HELD = false → 1 < (heldKinds r.registers).length →
    Answers .writeTransaction s fun t => t.outbox = (s.sendResponse r (responseBytes r E_ORDER 0xFF [])).outbox ∧ t.fab = s.fab ∧ RegsKept [] s t) ∧
  (∀ (s u : State) (n k : Nat) (r : MgmtReq) (rest : List (Nat × MgmtReq)), s.mgmt.queue = (n, r) :: rest → r.isRead = false →
      Served s r.port → s.flag (cpBase 1) Reg.CP_STATUS_HELD = false → heldKinds r.registers = [k] →
      writeAll r.port false false s.heldRegisters [] r.registers s.popRequest = .inr u →
    Answers .writeTransaction s fun t =>
      t.mgmt.held = s.mgmt.held ++ [r] ∧ t.mgmt.queue = rest ∧ t.outbox = s.outbox ∧ t.fab = s.fab ∧ RegsKept [] s t) ∧
  (∀ (s : State) (n : Nat) (r : MgmtReq) (rest : List (Nat × MgmtReq)) (w : Word), s.mgmt.queue = (n, r) :: rest → r.isRead = false → Served s r.port →
      s.flag (cpBase 1) Reg.CP_STATUS_HELD = false → s.mgmt.held = [] → r.registers = [(0, memBase + 0x3C, w)] → 1 ≤ w.toNat → w.toNat ≤ 168 →
    Answers .writeTransaction s fun t =>
      t.rdw memBase Reg.MEM_SCRUB_PERIOD = w ∧ t.outbox = (s.sendResponse r (responseBytes r E_OK 0xFF [])).outbox ∧ RegsKept [memBase + 0x3C] s t) ∧
  (∀ (s : State) (n : Nat) (r : MgmtReq) (rest : List (Nat × MgmtReq)) (w : Word), s.mgmt.queue = (n, r) :: rest → r.isRead = false → Served s r.port →
      s.flag (cpBase 1) Reg.CP_STATUS_HELD = false → s.mgmt.held = [] → r.registers = [(0, memBase + 0x3C, w)] → (w.toNat = 0 ∨ 168 < w.toNat) →
    Answers .writeTransaction s fun t =>
      t.rdw memBase Reg.MEM_SCRUB_PERIOD = s.rdw memBase Reg.MEM_SCRUB_PERIOD ∧ t.outbox = (s.sendResponse r (responseBytes r E_RANGE 0 [])).outbox) ∧
  (∀ (s u t : State) (k : Nat) (o : NvOutcome) (r : MgmtReq), s.mgmt.held[k]? = some r → s.runs r.port = .cp1 → restarts r.registers = false →
      u = s.modMgmt (fun m => { m with held := m.held.eraseIdx k }) → (r.registers.flatMap fun e => u.keptHome e.2.1 e.2.2) = [] →
      writeAll r.port true false [] [] r.registers u = .inr t →
    exec (.heldWriteDecision k o) s = .next (t.respond r E_OK 0xFF []).settle) ∧
  (∀ (s u v w t : State) (k : Nat) (o : NvOutcome) (r : MgmtReq) (homes : List Nat), s.mgmt.held[k]? = some r → s.runs r.port = .cp1 →
      restarts r.registers = false → u = s.modMgmt (fun m => { m with held := m.held.eraseIdx k }) → homes ≠ [] →
      homes = (r.registers.flatMap fun e => u.keptHome e.2.1 e.2.2) → writeAll r.port true false [] [] r.registers u = .inr w →
      u.commitTxn homes o = (E_OK, v) → writeAll r.port true false [] [] r.registers v = .inr t →
    exec (.heldWriteDecision k o) s = .next (t.respond r E_OK 0xFF []).settle) ∧
  (∀ (s u w : State) (k : Nat) (o : NvOutcome) (r : MgmtReq) (homes : List Nat), s.mgmt.held[k]? = some r → s.runs r.port = .cp1 →
      u = s.modMgmt (fun m => { m with held := m.held.eraseIdx k }) → homes ≠ [] →
      homes = (r.registers.flatMap fun e => u.keptHome e.2.1 e.2.2) → writeAll r.port true false [] [] r.registers u = .inr w →
      (u.commitTxn homes o).1 ≠ E_OK →
    Answers (.heldWriteDecision k o) s fun t =>
      t.mgmt.held = s.mgmt.held.eraseIdx k ∧ t.outbox = (s.sendResponse r (responseBytes r E_NV_FAIL 0xFF [])).outbox ∧ t.fab = s.fab) ∧
  (∀ (s : State) (k i a : Nat) (o : NvOutcome) (r : MgmtReq) (c : Code) (w : Word), s.mgmt.held[k]? = some r → s.runs r.port = .cp1 →
      a ≠ pnlBase + Reg.PNL_UPD_GO.off →
      writeAll r.port true false [] [] r.registers (s.modMgmt fun m => { m with held := m.held.eraseIdx k }) = .inl (c, i, a, w) →
    Answers (.heldWriteDecision k o) s fun t =>
      t.mgmt.held = s.mgmt.held.eraseIdx k ∧ t.outbox = (s.sendResponse r (responseBytes r c 0xFF [])).outbox ∧ t.fab = s.fab ∧ RegsKept [] s t) ∧
  (∀ (s : State) (k : Nat) (o : NvOutcome) (r : MgmtReq), s.mgmt.held[k]? = some r → Served s r.port → s.flag (cpBase 1) Reg.CP_STATUS_HELD = true →
    exec (.heldWriteDecision k o) s = .next s.settle) ∧
  (∀ (s : State) (k : Nat) (o : NvOutcome) (r : MgmtReq), s.mgmt.held[k]? = some r → s.runs r.port = .pwr →
    Answers (.heldWriteDecision k o) s fun t =>
      t.mgmt.held = s.mgmt.held.eraseIdx k ∧ t.outbox = (s.sendResponse r (responseBytes r E_INTERNAL 0xFF [])).outbox ∧ t.fab = s.fab ∧ RegsKept [] s t)

/-! Rules of single chapters, whole. -/

/-- R78, R80: an input resolves its bound word in three steps, with the fallbacks of its BIND record; the value taken in step 3 is kept, and START forgets it. Of two
resolved inputs the quality of higher rank is published, between equal ranks the lower code; combination does not depend on the order of the inputs, and
adding an input never lowers the rank. -/
def Obligations.InputsResolveAndQualitiesCombine : Prop :=
  (∀ (s : State) (id n : Nat) (safe : Word) (b : Record), s.bind id n = some b → qualBad (s.sig (bindSig b)).qual = true →
    ∃ i, s.input id n safe = some i ∧ i.live = false) ∧
  (∀ (s : State) (id n : Nat) (safe : Word) (b : Record), s.bind id n = some b → qualBad (s.sig (bindSig b)).qual = false →
      bindBound b ≠ 0 → bindBound b < (s.sig (bindSig b)).age →
    ∃ i, s.input id n safe = some i ∧ i.live = false) ∧
  (∀ (s : State) (id n : Nat) (safe : Word) (b : Record), s.bind id n = some b → qualBad (s.sig (bindSig b)).qual = false →
      (bindBound b = 0 ∨ (s.sig (bindSig b)).age ≤ bindBound b) →
    ∃ i, s.input id n safe = some i ∧ i.live = true ∧ i.val = (s.sig (bindSig b)).val ∧ i.qual = (s.sig (bindSig b)).qual ∧
      i.flags = (s.sig (bindSig b)).flags) ∧
  (∀ (s : State) (id n : Nat) (safe v : Word) (b : Record) (i : Input), s.bind id n = some b → s.input id n safe = some i → i.live = false →
      bindFallback b = 0 → Store.get none (s.cell id).lastIn n = some v → i.val = v ∧ i.qual = Q_HELD) ∧
  (∀ (s : State) (id n : Nat) (safe : Word) (b : Record) (i : Input), s.bind id n = some b → s.input id n safe = some i → i.live = false →
      bindFallback b = 0 → Store.get none (s.cell id).lastIn n = none → i.val = bindSubst b ∧ i.qual = Q_SUBSTITUTED) ∧
  (∀ (s : State) (id n : Nat) (safe : Word) (b : Record) (i : Input), s.bind id n = some b → s.input id n safe = some i → i.live = false →
      bindFallback b = 1 → i.val = bindSubst b ∧ i.qual = Q_SUBSTITUTED) ∧
  (∀ (s : State) (id n : Nat) (safe : Word) (b : Record) (i : Input), s.bind id n = some b → s.input id n safe = some i → i.live = false →
      bindFallback b = 2 → i.val = safe ∧ i.qual = Q_SUBSTITUTED) ∧
  (∀ q : BitVec 4, qualBad q = true ↔ q ∈ [Q_BAD_SENSOR, Q_BAD_COMM, Q_BAD_CONFIG, Q_BAD_HW] ∨ 12 < q.toNat) ∧
  (∀ (s : State) (id n : Nat) (i : Input), i.live = true → Store.get none ((s.noteInput id n i).cell id).lastIn n = some i.val) ∧
  (∀ (s : State) (id n : Nat) (i : Input), i.live = false → s.noteInput id n i = s) ∧
  (∀ (s : State) (id : Nat), ((s.setCst id csStart).cell id).lastIn = []) ∧
  (∀ a b : BitVec 4, a.toNat ≤ 12 → b.toNat ≤ 12 → qualRank a < qualRank b → qualCombine [a, b] = b ∧ qualCombine [b, a] = b) ∧
  (∀ a b : BitVec 4, a.toNat ≤ 12 → b.toNat ≤ 12 → qualRank a = qualRank b → a.toNat ≤ b.toNat → qualCombine [a, b] = a ∧ qualCombine [b, a] = a) ∧
  (∀ l m : List (BitVec 4), (∀ q ∈ l, q.toNat ≤ 12) → l.Perm m → qualCombine l = qualCombine m) ∧
  (∀ (l : List (BitVec 4)) (q : BitVec 4), q ∈ l → qualRank q ≤ qualRank (qualCombine l)) ∧
  (∀ l : List (BitVec 4), l ≠ [] → (∀ q ∈ l, q.toNat ≤ 12) → qualCombine l ∈ l)

/-- R48: OPEN, VALIDATE and COMMIT of the active bank are E_LOCKED; OPEN of the other bank clears its working copy, VALID and SAVED and sets IMG.NEXT to 0, and leaves its
saved copy untouched. -/
def Obligations.TheActiveBankIsLocked : Prop :=
  (∀ (s : State) (p : Port) (b a : Bool), Served s p → s.imgOpen = E_OK → s.isActive b = true →
    exec (.imgOpen p b) s = .next (s.answer p E_LOCKED).settle ∧ exec (.imgValidate p b) s = .next (s.answer p E_LOCKED).settle ∧
    exec (.imgCommit p b a) s = .next (s.answer p E_LOCKED).settle) ∧
  (∀ (s : State) (p : Port) (b : Bool), Served s p → s.imgOpen = E_OK → s.isActive b = false →
    Answers (.imgOpen p b) s fun t =>
      (t.bank b).base = [] ∧ (t.bank b).main = [] ∧ t.validBank b = false ∧ t.flag nvjBase (bankSaved b) = false ∧ t.rd nvjBase Reg.IMG_NEXT_NEXT = 0 ∧
      (t.bank b).savedBase = (s.bank b).savedBase ∧ (t.bank b).savedMain = (s.bank b).savedMain ∧ (t.bank b).savedOk = (s.bank b).savedOk ∧
      (t.bank b).savedSlots = (s.bank b).savedSlots ∧ (t.bank (!b)).main = (s.bank (!b)).main)

/-- R298: the BULKNAK that the module makes for a frame names the sending pair, MSGSEQ and the code in TSPEC; one that arrives is counted by its sending pair, which records
MSGSEQ, and it changes no descriptor, no ring and no byte of memory. -/
def Obligations.BulknaksAreMadeAndCounted : Prop :=
  (∀ (s : State) (f : ChainFrame) (code : Code),
    (s.nakFrame f code).ty = 6 ∧ tspec (s.nakFrame f code) 26 = tspec f 27 ∧ tspec (s.nakFrame f code) 28 = tspec f 28 ∧
    tspec (s.nakFrame f code) 29 = tspec f 29 ∧ tspec (s.nakFrame f code) 31 = code.toNat ∧ (s.nakFrame f code).dst = f.src) ∧
  (∀ (s : State) (f : ChainFrame), f.ty = 6 → tspec f 26 < 32 → s.exists_ (qpId (tspec f 26)) = true →
    Answers (.bulknak f) s fun t =>
      t.rd (cellBase (qpId (tspec f 26))) Reg.QP_CNT_NAKS = min (s.rd (cellBase (qpId (tspec f 26))) Reg.QP_CNT_NAKS + 1) 65535 ∧
      t.rd (cellBase (qpId (tspec f 26))) Reg.QP_NAKSEQ_MSGSEQ = tspec f 28 + 256 * tspec f 29 ∧
      t.rd (cellBase (qpId (tspec f 26))) Reg.QP_NAKSEQ_CODE = tspec f 31 ∧ t.q = s.q ∧ t.outbox = s.outbox ∧
      RegsKept [cellBase (qpId (tspec f 26)) + Reg.QP_CNT_NAKS.off, cellBase (qpId (tspec f 26)) + Reg.QP_NAKSEQ_CODE.off] s t)

/-- R374–R378: a word encoded at an address decodes clean there; with the poison pattern over its check bits it decodes as poisoned; any one flipped data bit is corrected,
and so is a flipped overall parity bit; at an address of other parity it is misdirected. -/
def Obligations.WordsDecodeAsEncoded : Prop :=
  (∀ (d : BitVec 256) (a : Nat), decodeWord d (checkBits d a) a = (.clean, d)) ∧
  (∀ (d : BitVec 256) (a : Nat), decodeWord d (checkBits d a ^^^ 7) a = (.poisoned, d)) ∧
  (∀ (d : BitVec 256) (a : Nat), decodeWord d (checkBits d a ^^^ 0x40000) a = (.corr1, d)) ∧
  (∀ (d : BitVec 256) (a i : Nat), i < 256 → decodeWord (d ^^^ BitVec.twoPow 256 i) (checkBits d a) a = (.corr1, d)) ∧
  (∀ (d : BitVec 256) (a b : Nat), apar a ≠ apar b → decodeWord d (checkBits d a) b = (.misdirected, d))

/-! The whole block. -/

/-- A step takes the command at the front of the queue and answers what it does with the rest of the queue; no command of the block ends in a fault or a
refusal; with nothing waiting one CLK_FAB cycle passes, which moves the time base alone (the model's choice, log entry 1). -/
def Obligations.StepRunsFrontCommand : Prop :=
  (∀ (i : Instr) (s : State), step { s with pending := i :: s.pending } = exec i s) ∧
  (∀ (i : Instr) (s : State), ∃ t, exec i s = .next t) ∧
  (∀ s : State, s.pending = [] → ∃ t, step s = .next t ∧ t.time.cycles = s.time.cycles + 1 ∧ t = { s with time := t.time })

/-- R22, R104, R196, R243, R332, R352, R371, R384, R393, R410: after the first power-on reset the module is in POWERUP in Carillon mode with Tocsin STOPPED, every trip
output tripped, MFLT open, links off, no image, no key and nothing waiting, and its registers hold the reset values of their maps; the stores are
canonical, and the fields that follow other state agree with it.
(Readings and choices of the model that it rests on: log entries 9, 10, 11.) -/
def Obligations.ResetLeavesTheModuleInPowerup : Prop :=
  State.reset.mst = stPowerup ∧ State.reset.tabor = false ∧ State.reset.tstate = tsStopped ∧ (∀ k < 128, State.reset.tripped k = true) ∧
  State.reset.flag tbBase Reg.TB_STATUS_MFLTOPEN = true ∧ State.reset.link .up = 0 ∧ State.reset.link .down = 0 ∧ State.reset.img.active = [] ∧
  (∀ k < 4, State.reset.keyActive k = false) ∧ State.reset.pending = [] ∧ State.reset.q.mem = [] ∧ State.reset.mgmt.queue = [] ∧
  State.reset.rd pwrBase Reg.PWR_RST_CAUSE = 1 ∧ State.reset.rd memBase Reg.MEM_SCRUB_PERIOD = 12 ∧ State.reset.rd nvjBase Reg.NVJ_SPARES_SPARES = 512 ∧
  State.reset.recblks = 15088 ∧ State.reset.rd recBase Reg.REC_CFG_PERIOD = 60 ∧ State.reset.nrd .a Reg.NET_CFG_PMODE = 1 ∧
  State.reset.nrd .b Reg.NET_CFG_PMODE = 1 ∧ State.reset.trd Reg.STK_CFG_TS_UNITS = 8 ∧ State.reset.flag tmBase Reg.STK_CFG_SYNC = true ∧
  State.reset.trd Reg.TM_CFG_SLEWMAX = 100 ∧ State.reset.prd Reg.PNL_RECT1_X1 = 399 ∧ State.reset.prd Reg.PNL_RECT1_Y1 = 239 ∧
  Canonical State.reset ∧ Mirrored State.reset ∧ SegmentsShown State.reset

/-- R188, R196, R425, R475: every step keeps the fields that follow other state equal to it: the MFLT contact, the cause and debug bits of MOD.STATE, the supply bits of
MOD.HEALTH, and the segment display. -/
def Obligations.StepsKeepTheMirrors : Prop :=
  ∀ s t : State, Mirrored s → SegmentsShown s → step s = .next t → Mirrored t ∧ SegmentsShown t

/-- R3, R373: every step keeps the stores in their one canonical form, the registers and the DMA-visible memory: keys rising, and nothing listed that an unlisted
key reads as. -/
def Obligations.StepsKeepTheStoresCanonical : Prop :=
  ∀ s t : State, Canonical s → step s = .next t → Canonical t

/-- R447, R473, R474: a command row from a port has no effect in POWERUP and PFAIL; in Tabor mode NA answers E_TABOR and NB nothing; with CP1 isolated only the service port is
answered, with E_STATE. -/
def Obligations.PortsAreServedByState : Prop :=
  (∀ (i : Instr) (p : Port) (s : State), commandPort i = some p → (s.mst = stPowerup ∨ s.mst = stPfail) → exec i s = .next s.settle) ∧
  (∀ (i : Instr) (s : State), commandPort i = some .na → s.mst ∉ [stPowerup, stSelftest, stPfail] → s.isolated 2 26 = false → s.tabor = true →
    exec i s = .next (s.answer .na E_TABOR).settle) ∧
  (∀ (i : Instr) (s : State), commandPort i = some .nb → s.tabor = true → exec i s = .next s.settle) ∧
  (∀ (i : Instr) (p : Port) (s : State), commandPort i = some p → p ≠ .service → s.isolated 2 26 = true → s.mst ∉ [stPowerup, stSelftest, stPfail] →
    exec i s = .next s.settle) ∧
  (∀ (i : Instr) (s : State), commandPort i = some .service → s.isolated 2 26 = true → s.mst ∉ [stPowerup, stSelftest, stPfail] →
    exec i s = .next (s.answer .service E_STATE).settle)
end

