-- ==== Sys2Proof/Laws/Store.lean ====
section
/-! SUPPORT. Laws of the sparse stores: a read after a write, at the written key and elsewhere, on any store; and the canonical form,
which every operation keeps. -/

namespace Sys2Proof.Machine

variable {α : Type}

@[simp] theorem Store.get_nil (d : α) (a : Nat) : Store.get d [] a = d := rfl

theorem Store.get_erase (d : α) (m : Store α) (a b : Nat) :
    Store.get d (Store.erase m a) b = if b = a then d else Store.get d m b := by
  induction m with
  | nil => simp [Store.erase, Store.get]
  | cons e m ih =>
    obtain ⟨k, v⟩ := e
    unfold Store.erase
    split
    · next h => rw [ih]; simp only [Store.get]; split <;> simp_all
    · next h => simp only [Store.get]; rw [ih]; split <;> simp_all
                omega

theorem Store.get_insert (d : α) (m : Store α) (a b : Nat) (x : α) :
    Store.get d (Store.insert m a x) b = if b = a then x else Store.get d m b := by
  induction m with
  | nil => simp [Store.insert, Store.get]
  | cons e m ih =>
    obtain ⟨k, v⟩ := e
    unfold Store.insert
    split
    · simp only [Store.get]
    · split
      · next h => subst h; simp only [Store.get]; split <;> rfl
      · next h => simp only [Store.get]; rw [ih]; split <;> simp_all
                  omega

/-- A read after a write: the value written at its key, what stood there elsewhere. -/
@[simp] theorem Store.get_set [DecidableEq α] (d : α) (m : Store α) (a b : Nat) (x : α) :
    Store.get d (Store.set d m a x) b = if b = a then x else Store.get d m b := by
  unfold Store.set
  split
  · next h => rw [Store.get_erase]; split <;> simp_all
  · exact Store.get_insert d m a b x

theorem Store.above_mono {m : Store α} {a b : Nat} (h : a ≤ b) (hm : Store.above b m = true) : Store.above a m = true := by
  cases m with
  | nil => rfl
  | cons e m => simp only [Store.above, decide_eq_true_eq] at *; omega

theorem Store.above_erase [DecidableEq α] (d : α) {m : Store α} {k : Nat} (a : Nat) (hm : Store.above k m = true) (hw : Store.wf d m = true) :
    Store.above k (Store.erase m a) = true := by
  induction m with
  | nil => rfl
  | cons e m ih =>
    obtain ⟨j, v⟩ := e
    simp only [Store.wf, Bool.and_eq_true] at hw
    simp only [Store.above, decide_eq_true_eq] at hm
    unfold Store.erase
    split
    · exact ih (Store.above_mono (Nat.le_of_lt hm) hw.1.2) hw.2
    · simp only [Store.above, decide_eq_true_eq]; exact hm

theorem Store.wf_erase [DecidableEq α] (d : α) (m : Store α) (a : Nat) (hw : Store.wf d m = true) : Store.wf d (Store.erase m a) = true := by
  induction m with
  | nil => rfl
  | cons e m ih =>
    obtain ⟨j, v⟩ := e
    have hw' := hw
    simp only [Store.wf, Bool.and_eq_true] at hw
    unfold Store.erase
    split
    · exact ih hw.2
    · simp only [Store.wf, Bool.and_eq_true]
      exact ⟨⟨hw.1.1, Store.above_erase d a hw.1.2 hw.2⟩, ih hw.2⟩

theorem Store.above_insert {m : Store α} {k a : Nat} (x : α) (hm : Store.above k m = true) (h : k < a) :
    Store.above k (Store.insert m a x) = true := by
  cases m with
  | nil => simpa [Store.insert, Store.above] using h
  | cons e m =>
    simp only [Store.above, decide_eq_true_eq] at hm
    unfold Store.insert
    repeat (first | split | (simp only [Store.above, decide_eq_true_eq]; omega))

theorem Store.wf_insert [DecidableEq α] (d : α) (m : Store α) (a : Nat) (x : α) (hx : x ≠ d) (hw : Store.wf d m = true) :
    Store.wf d (Store.insert m a x) = true := by
  induction m with
  | nil => simp [Store.insert, Store.wf, Store.above, hx]
  | cons e m ih =>
    obtain ⟨j, v⟩ := e
    have hw' := hw
    simp only [Store.wf, Bool.and_eq_true, decide_eq_true_eq] at hw
    unfold Store.insert
    split
    · next h =>
      simp only [Store.wf, Bool.and_eq_true, decide_eq_true_eq]
      exact ⟨⟨hx, by simpa only [Store.above, decide_eq_true_eq] using h⟩, hw⟩
    · split
      · next h => subst h; simp [Store.wf, hx, hw]
      · next h1 h2 =>
        simp only [Store.wf, Bool.and_eq_true, decide_eq_true_eq]
        exact ⟨⟨hw.1.1, Store.above_insert x hw.1.2 (by omega)⟩, ih hw.2⟩

/-- A write keeps the canonical form. -/
theorem Store.wf_set [DecidableEq α] (d : α) (m : Store α) (a : Nat) (x : α) (hw : Store.wf d m = true) :
    Store.wf d (Store.set d m a x) = true := by
  unfold Store.set
  split
  · exact Store.wf_erase d m a hw
  · next h => exact Store.wf_insert d m a x h hw

theorem Store.above_filter [DecidableEq α] (d : α) (p : Nat × α → Bool) {m : Store α} {k : Nat} (hm : Store.above k m = true)
    (hw : Store.wf d m = true) : Store.above k (List.filter p m) = true := by
  induction m with
  | nil => rfl
  | cons e m ih =>
    obtain ⟨j, v⟩ := e
    simp only [Store.wf, Bool.and_eq_true] at hw
    rw [List.filter_cons]
    simp only [Store.above, decide_eq_true_eq] at hm
    split
    · simpa only [Store.above, decide_eq_true_eq] using hm
    · exact ih (Store.above_mono (Nat.le_of_lt hm) hw.1.2) hw.2

/-- Removing entries keeps the canonical form. -/
theorem Store.wf_filter [DecidableEq α] (d : α) (p : Nat × α → Bool) (m : Store α) (hw : Store.wf d m = true) :
    Store.wf d (List.filter p m) = true := by
  induction m with
  | nil => rfl
  | cons e m ih =>
    obtain ⟨j, v⟩ := e
    simp only [Store.wf, Bool.and_eq_true] at hw
    rw [List.filter_cons]
    split
    · simp only [Store.wf, Bool.and_eq_true]
      exact ⟨⟨hw.1.1, Store.above_filter d p hw.1.2 hw.2⟩, ih hw.2⟩
    · exact ih hw.2

theorem Store.above_mapVals [DecidableEq α] (d : α) (f : Nat → α → α) {m : Store α} {k : Nat} (hm : Store.above k m = true)
    (hw : Store.wf d m = true) : Store.above k (Store.mapVals d f m) = true := by
  induction m with
  | nil => rfl
  | cons e m ih =>
    obtain ⟨j, v⟩ := e
    simp only [Store.wf, Bool.and_eq_true] at hw
    simp only [Store.above, decide_eq_true_eq] at hm
    unfold Store.mapVals
    split
    · exact ih (Store.above_mono (Nat.le_of_lt hm) hw.1.2) hw.2
    · simpa only [Store.above, decide_eq_true_eq] using hm

/-- Mapping the listed values keeps the canonical form. -/
theorem Store.wf_mapVals [DecidableEq α] (d : α) (f : Nat → α → α) (m : Store α) (hw : Store.wf d m = true) :
    Store.wf d (Store.mapVals d f m) = true := by
  induction m with
  | nil => rfl
  | cons e m ih =>
    obtain ⟨j, v⟩ := e
    simp only [Store.wf, Bool.and_eq_true] at hw
    unfold Store.mapVals
    split
    · exact ih hw.2
    · next h =>
      simp only [Store.wf, Bool.and_eq_true, decide_eq_true_eq]
      exact ⟨⟨h, Store.above_mapVals d f hw.1.2 hw.2⟩, ih hw.2⟩

end Sys2Proof.Machine
end

