-- ==== Sys2Proof/Laws/Registers.lean ====
section
/-! SUPPORT. Laws of the registers: what a register, a field and a flag read after a write of another or of the same. -/

namespace Sys2Proof.Machine

/-! Fields of a word. -/

theorem split_word (w lo width : Nat) :
    w = (w / 2 ^ lo / 2 ^ width * 2 ^ width + w / 2 ^ lo % 2 ^ width) * 2 ^ lo + w % 2 ^ lo := by
  have h1 := Nat.div_add_mod w (2 ^ lo)
  have h2 := Nat.div_add_mod (w / 2 ^ lo) (2 ^ width)
  rw [Nat.mul_comm (w / 2 ^ lo / 2 ^ width), h2, Nat.mul_comm (w / 2 ^ lo), h1]

/-- The number that a field write forms, by its three parts. -/
theorem setField_nat (w lo width v : Nat) :
    w - w / 2 ^ lo % 2 ^ width * 2 ^ lo + v % 2 ^ width * 2 ^ lo =
      (w / 2 ^ lo / 2 ^ width * 2 ^ width + v % 2 ^ width) * 2 ^ lo + w % 2 ^ lo := by
  have h := split_word w lo width
  rw [Nat.add_mul] at h ⊢
  generalize w / 2 ^ lo / 2 ^ width * 2 ^ width * 2 ^ lo = A at *
  generalize w / 2 ^ lo % 2 ^ width * 2 ^ lo = B at *
  generalize w % 2 ^ lo = C at *
  omega

theorem setField_lt (w lo width v : Nat) (hw : w < 2 ^ 32) (h : lo + width ≤ 32) :
    (w / 2 ^ lo / 2 ^ width * 2 ^ width + v % 2 ^ width) * 2 ^ lo + w % 2 ^ lo < 2 ^ 32 := by
  have hP : 0 < 2 ^ lo := Nat.two_pow_pos lo
  have hQ : 0 < 2 ^ width := Nat.two_pow_pos width
  have hv : v % 2 ^ width < 2 ^ width := Nat.mod_lt _ hQ
  have hl : w % 2 ^ lo < 2 ^ lo := Nat.mod_lt _ hP
  have e : 2 ^ 32 = 2 ^ (32 - lo - width) * 2 ^ width * 2 ^ lo := by
    rw [← Nat.pow_add, ← Nat.pow_add]; congr 1; omega
  have hh : w / 2 ^ lo / 2 ^ width < 2 ^ (32 - lo - width) := by
    rw [Nat.div_div_eq_div_mul, Nat.div_lt_iff_lt_mul (Nat.mul_pos hP hQ)]
    rw [e] at hw; rw [Nat.mul_comm (2 ^ lo), ← Nat.mul_assoc]; exact hw
  rw [e]
  have h1 : w / 2 ^ lo / 2 ^ width * 2 ^ width + v % 2 ^ width + 1 ≤ 2 ^ (32 - lo - width) * 2 ^ width := by
    have := Nat.mul_le_mul_right (2 ^ width) hh
    rw [Nat.succ_mul] at this
    omega
  have h2 := Nat.mul_le_mul_right (2 ^ lo) h1
  rw [Nat.succ_mul] at h2
  omega

theorem setField_toNat (w : Word) (lo width v : Nat) (h : lo + width ≤ 32) :
    (setField w lo width v).toNat =
      (w.toNat / 2 ^ lo / 2 ^ width * 2 ^ width + v % 2 ^ width) * 2 ^ lo + w.toNat % 2 ^ lo := by
  unfold setField
  rw [setField_nat, BitVec.toNat_ofNat, Nat.mod_eq_of_lt (setField_lt _ _ _ _ w.isLt h)]

/-- A field reads what was written to it. -/
theorem getField_setField (w : Word) (lo width v : Nat) (h : lo + width ≤ 32) :
    getField (setField w lo width v) lo width = v % 2 ^ width := by
  unfold getField
  rw [setField_toNat w lo width v h, Nat.mul_comm _ (2 ^ lo), Nat.mul_add_div (Nat.two_pow_pos lo),
    Nat.div_eq_of_lt (Nat.mod_lt _ (Nat.two_pow_pos lo)), Nat.add_zero, Nat.mul_comm _ (2 ^ width), Nat.mul_add_mod, Nat.mod_mod]

/-- A field below the one written keeps its value. -/
theorem getField_setField_below (w : Word) (lo width v lo' width' : Nat) (h : lo + width ≤ 32) (hd : lo' + width' ≤ lo) :
    getField (setField w lo width v) lo' width' = getField w lo' width' := by
  unfold getField
  rw [setField_toNat w lo width v h]
  have e : 2 ^ lo = 2 ^ (lo - lo' - width') * 2 ^ width' * 2 ^ lo' := by
    rw [← Nat.pow_add, ← Nat.pow_add]; congr 1; omega
  have key : ∀ A, (A * 2 ^ lo + w.toNat % 2 ^ lo) / 2 ^ lo' % 2 ^ width' = w.toNat % 2 ^ lo / 2 ^ lo' % 2 ^ width' := by
    intro A
    have : A * 2 ^ lo + w.toNat % 2 ^ lo = w.toNat % 2 ^ lo + 2 ^ lo' * (A * 2 ^ (lo - lo' - width') * 2 ^ width') := by
      rw [e]; ring
    rw [this, Nat.add_mul_div_left _ _ (Nat.two_pow_pos lo'), Nat.add_mul_mod_self_right]
  rw [key]
  conv_rhs => rw [← Nat.div_add_mod w.toNat (2 ^ lo), Nat.mul_comm (2 ^ lo)]
  rw [key]

/-- A field above the one written keeps its value. -/
theorem getField_setField_above (w : Word) (lo width v lo' width' : Nat) (h : lo + width ≤ 32) (hd : lo + width ≤ lo') :
    getField (setField w lo width v) lo' width' = getField w lo' width' := by
  unfold getField
  rw [setField_toNat w lo width v h]
  have e : 2 ^ lo' = 2 ^ lo * 2 ^ width * 2 ^ (lo' - lo - width) := by
    rw [← Nat.pow_add, ← Nat.pow_add]; congr 1; omega
  have hdiv : ∀ x : Nat, x / 2 ^ lo' = x / 2 ^ lo / 2 ^ width / 2 ^ (lo' - lo - width) := by
    intro x; rw [e, Nat.div_div_eq_div_mul, Nat.div_div_eq_div_mul, Nat.mul_assoc]
  rw [hdiv, hdiv w.toNat, Nat.mul_comm _ (2 ^ lo), Nat.mul_add_div (Nat.two_pow_pos lo),
    Nat.div_eq_of_lt (Nat.mod_lt w.toNat (Nat.two_pow_pos lo)), Nat.add_zero, Nat.mul_comm _ (2 ^ width), Nat.mul_add_div (Nat.two_pow_pos width),
    Nat.div_eq_of_lt (Nat.mod_lt v (Nat.two_pow_pos width)), Nat.add_zero]

theorem getField_lt (w : Word) (lo width : Nat) : getField w lo width < 2 ^ width :=
  Nat.mod_lt _ (Nat.two_pow_pos width)

/-! Registers. -/

@[simp] theorem State.reg_setReg (s : State) (a b : Nat) (v : Word) : (s.setReg a v).reg b = if b = a then v else s.reg b := by
  simp [State.reg, State.setReg]

/-- A register that a field write does not touch. -/
theorem State.reg_wr_of_ne (s : State) (b : Nat) (f : Field) (v a : Nat) (h : a ≠ b + f.off) : (s.wr b f v).reg a = s.reg a := by
  simp [State.wr, h]

/-- The field written. -/
theorem State.rd_wr_same (s : State) (b : Nat) (f : Field) (v : Nat) (h : f.lo + f.width ≤ 32) :
    (s.wr b f v).rd b f = v % 2 ^ f.width := by
  simp [State.wr, State.rd, getField_setField _ _ _ _ h]

/-- A field of another register. -/
theorem State.rd_wr_of_ne (s : State) (b c : Nat) (f g : Field) (v : Nat) (h : c + g.off ≠ b + f.off) :
    (s.wr b f v).rd c g = s.rd c g := by
  simp [State.wr, State.rd, h]

/-- Another field of the same register. -/
theorem State.rd_wr_other (s : State) (b : Nat) (f g : Field) (v : Nat) (hf : f.lo + f.width ≤ 32)
    (h : g.lo + g.width ≤ f.lo ∨ f.lo + f.width ≤ g.lo) : (s.wr b f v).rd b g = s.rd b g := by
  by_cases he : b + g.off = b + f.off
  · simp only [State.wr, State.rd, State.reg_setReg, he, if_true]
    rcases h with h | h
    · exact getField_setField_below _ _ _ _ _ _ hf h
    · exact getField_setField_above _ _ _ _ _ _ hf h
  · exact State.rd_wr_of_ne s b b f g v he

theorem State.rd_lt (s : State) (b : Nat) (f : Field) : s.rd b f < 2 ^ f.width := getField_lt _ _ _

/-- The flag written. -/
theorem State.flag_setFlag_same (s : State) (b : Nat) (f : Field) (v : Bool) (h : f.lo + f.width ≤ 32) (hw : f.width = 1) :
    (s.setFlag b f v).flag b f = v := by
  unfold State.flag State.setFlag
  rw [State.rd_wr_same s b f _ h, hw]
  cases v <;> rfl

/-- The register of a whole-register write. -/
@[simp] theorem State.rdw_wrw_same (s : State) (b : Nat) (f : Field) (v : Word) : (s.wrw b f v).rdw b f = v := by
  simp [State.wrw, State.rdw]

/-- A field write of a register in the canonical form leaves it so. -/
theorem State.wf_setReg (s : State) (a : Nat) (v : Word) (h : Store.wf 0 s.regs = true) : Store.wf 0 (s.setReg a v).regs = true :=
  Store.wf_set 0 s.regs a v h

theorem State.wf_wr (s : State) (b : Nat) (f : Field) (v : Nat) (h : Store.wf 0 s.regs = true) : Store.wf 0 (s.wr b f v).regs = true :=
  State.wf_setReg s _ _ h

/-- A saturating counter (R94) after a rise by one: one more, and no more at its end. -/
theorem State.rd_bump (s : State) (b : Nat) (f : Field) (h : f.lo + f.width ≤ 32) :
    (s.bump b f).rd b f = min (s.rd b f + 1) (2 ^ f.width - 1) := by
  unfold State.bump State.bumpBy
  rw [State.rd_wr_same _ _ _ _ h]
  have := Nat.two_pow_pos f.width
  exact Nat.mod_eq_of_lt (by omega)

end Sys2Proof.Machine
end

