-- ==== Sys2Proof/Laws/State.lean ====
section
/-! SUPPORT. What each named update of the state leaves alone: one lemma per field and update, and for the updates that write no register, what registers and
fields then read. The parentheses of (rfl) keep a lemma out of dsimp, so that simp rewrites with it and the kernel never compares whole states. -/

namespace Sys2Proof.Machine

@[simp] theorem State.setReg_pending (s : State) (a : Nat) (v : Word) : (s.setReg a v).pending = s.pending := (rfl)
@[simp] theorem State.setReg_outbox (s : State) (a : Nat) (v : Word) : (s.setReg a v).outbox = s.outbox := (rfl)
@[simp] theorem State.setReg_free (s : State) (a : Nat) (v : Word) : (s.setReg a v).free = s.free := (rfl)
@[simp] theorem State.setReg_fab (s : State) (a : Nat) (v : Word) : (s.setReg a v).fab = s.fab := (rfl)
@[simp] theorem State.setReg_img (s : State) (a : Nat) (v : Word) : (s.setReg a v).img = s.img := (rfl)
@[simp] theorem State.setReg_toc (s : State) (a : Nat) (v : Word) : (s.setReg a v).toc = s.toc := (rfl)
@[simp] theorem State.setReg_ucs (s : State) (a : Nat) (v : Word) : (s.setReg a v).ucs = s.ucs := (rfl)
@[simp] theorem State.setReg_dps (s : State) (a : Nat) (v : Word) : (s.setReg a v).dps = s.dps := (rfl)
@[simp] theorem State.setReg_axs (s : State) (a : Nat) (v : Word) : (s.setReg a v).axs = s.axs := (rfl)
@[simp] theorem State.setReg_fld (s : State) (a : Nat) (v : Word) : (s.setReg a v).fld = s.fld := (rfl)
@[simp] theorem State.setReg_chain (s : State) (a : Nat) (v : Word) : (s.setReg a v).chain = s.chain := (rfl)
@[simp] theorem State.setReg_q (s : State) (a : Nat) (v : Word) : (s.setReg a v).q = s.q := (rfl)
@[simp] theorem State.setReg_net (s : State) (a : Nat) (v : Word) : (s.setReg a v).net = s.net := (rfl)
@[simp] theorem State.setReg_time (s : State) (a : Nat) (v : Word) : (s.setReg a v).time = s.time := (rfl)
@[simp] theorem State.setReg_can0 (s : State) (a : Nat) (v : Word) : (s.setReg a v).can0 = s.can0 := (rfl)
@[simp] theorem State.setReg_can1 (s : State) (a : Nat) (v : Word) : (s.setReg a v).can1 = s.can1 := (rfl)
@[simp] theorem State.setReg_mbx (s : State) (a : Nat) (v : Word) : (s.setReg a v).mbx = s.mbx := (rfl)
@[simp] theorem State.setReg_jrn (s : State) (a : Nat) (v : Word) : (s.setReg a v).jrn = s.jrn := (rfl)
@[simp] theorem State.setReg_recd (s : State) (a : Nat) (v : Word) : (s.setReg a v).recd = s.recd := (rfl)
@[simp] theorem State.setReg_pnl (s : State) (a : Nat) (v : Word) : (s.setReg a v).pnl = s.pnl := (rfl)
@[simp] theorem State.setReg_pwr (s : State) (a : Nat) (v : Word) : (s.setReg a v).pwr = s.pwr := (rfl)
@[simp] theorem State.setReg_tab (s : State) (a : Nat) (v : Word) : (s.setReg a v).tab = s.tab := (rfl)
@[simp] theorem State.setReg_mgmt (s : State) (a : Nat) (v : Word) : (s.setReg a v).mgmt = s.mgmt := (rfl)

@[simp] theorem State.wr_pending (s : State) (b : Nat) (f : Field) (v : Nat) : (s.wr b f v).pending = s.pending := (rfl)
@[simp] theorem State.wr_outbox (s : State) (b : Nat) (f : Field) (v : Nat) : (s.wr b f v).outbox = s.outbox := (rfl)
@[simp] theorem State.wr_free (s : State) (b : Nat) (f : Field) (v : Nat) : (s.wr b f v).free = s.free := (rfl)
@[simp] theorem State.wr_fab (s : State) (b : Nat) (f : Field) (v : Nat) : (s.wr b f v).fab = s.fab := (rfl)
@[simp] theorem State.wr_img (s : State) (b : Nat) (f : Field) (v : Nat) : (s.wr b f v).img = s.img := (rfl)
@[simp] theorem State.wr_toc (s : State) (b : Nat) (f : Field) (v : Nat) : (s.wr b f v).toc = s.toc := (rfl)
@[simp] theorem State.wr_ucs (s : State) (b : Nat) (f : Field) (v : Nat) : (s.wr b f v).ucs = s.ucs := (rfl)
@[simp] theorem State.wr_dps (s : State) (b : Nat) (f : Field) (v : Nat) : (s.wr b f v).dps = s.dps := (rfl)
@[simp] theorem State.wr_axs (s : State) (b : Nat) (f : Field) (v : Nat) : (s.wr b f v).axs = s.axs := (rfl)
@[simp] theorem State.wr_fld (s : State) (b : Nat) (f : Field) (v : Nat) : (s.wr b f v).fld = s.fld := (rfl)
@[simp] theorem State.wr_chain (s : State) (b : Nat) (f : Field) (v : Nat) : (s.wr b f v).chain = s.chain := (rfl)
@[simp] theorem State.wr_q (s : State) (b : Nat) (f : Field) (v : Nat) : (s.wr b f v).q = s.q := (rfl)
@[simp] theorem State.wr_net (s : State) (b : Nat) (f : Field) (v : Nat) : (s.wr b f v).net = s.net := (rfl)
@[simp] theorem State.wr_time (s : State) (b : Nat) (f : Field) (v : Nat) : (s.wr b f v).time = s.time := (rfl)
@[simp] theorem State.wr_can0 (s : State) (b : Nat) (f : Field) (v : Nat) : (s.wr b f v).can0 = s.can0 := (rfl)
@[simp] theorem State.wr_can1 (s : State) (b : Nat) (f : Field) (v : Nat) : (s.wr b f v).can1 = s.can1 := (rfl)
@[simp] theorem State.wr_mbx (s : State) (b : Nat) (f : Field) (v : Nat) : (s.wr b f v).mbx = s.mbx := (rfl)
@[simp] theorem State.wr_jrn (s : State) (b : Nat) (f : Field) (v : Nat) : (s.wr b f v).jrn = s.jrn := (rfl)
@[simp] theorem State.wr_recd (s : State) (b : Nat) (f : Field) (v : Nat) : (s.wr b f v).recd = s.recd := (rfl)
@[simp] theorem State.wr_pnl (s : State) (b : Nat) (f : Field) (v : Nat) : (s.wr b f v).pnl = s.pnl := (rfl)
@[simp] theorem State.wr_pwr (s : State) (b : Nat) (f : Field) (v : Nat) : (s.wr b f v).pwr = s.pwr := (rfl)
@[simp] theorem State.wr_tab (s : State) (b : Nat) (f : Field) (v : Nat) : (s.wr b f v).tab = s.tab := (rfl)
@[simp] theorem State.wr_mgmt (s : State) (b : Nat) (f : Field) (v : Nat) : (s.wr b f v).mgmt = s.mgmt := (rfl)

@[simp] theorem State.wrw_pending (s : State) (b : Nat) (f : Field) (v : Word) : (s.wrw b f v).pending = s.pending := (rfl)
@[simp] theorem State.wrw_outbox (s : State) (b : Nat) (f : Field) (v : Word) : (s.wrw b f v).outbox = s.outbox := (rfl)
@[simp] theorem State.wrw_free (s : State) (b : Nat) (f : Field) (v : Word) : (s.wrw b f v).free = s.free := (rfl)
@[simp] theorem State.wrw_fab (s : State) (b : Nat) (f : Field) (v : Word) : (s.wrw b f v).fab = s.fab := (rfl)
@[simp] theorem State.wrw_img (s : State) (b : Nat) (f : Field) (v : Word) : (s.wrw b f v).img = s.img := (rfl)
@[simp] theorem State.wrw_toc (s : State) (b : Nat) (f : Field) (v : Word) : (s.wrw b f v).toc = s.toc := (rfl)
@[simp] theorem State.wrw_ucs (s : State) (b : Nat) (f : Field) (v : Word) : (s.wrw b f v).ucs = s.ucs := (rfl)
@[simp] theorem State.wrw_dps (s : State) (b : Nat) (f : Field) (v : Word) : (s.wrw b f v).dps = s.dps := (rfl)
@[simp] theorem State.wrw_axs (s : State) (b : Nat) (f : Field) (v : Word) : (s.wrw b f v).axs = s.axs := (rfl)
@[simp] theorem State.wrw_fld (s : State) (b : Nat) (f : Field) (v : Word) : (s.wrw b f v).fld = s.fld := (rfl)
@[simp] theorem State.wrw_chain (s : State) (b : Nat) (f : Field) (v : Word) : (s.wrw b f v).chain = s.chain := (rfl)
@[simp] theorem State.wrw_q (s : State) (b : Nat) (f : Field) (v : Word) : (s.wrw b f v).q = s.q := (rfl)
@[simp] theorem State.wrw_net (s : State) (b : Nat) (f : Field) (v : Word) : (s.wrw b f v).net = s.net := (rfl)
@[simp] theorem State.wrw_time (s : State) (b : Nat) (f : Field) (v : Word) : (s.wrw b f v).time = s.time := (rfl)
@[simp] theorem State.wrw_can0 (s : State) (b : Nat) (f : Field) (v : Word) : (s.wrw b f v).can0 = s.can0 := (rfl)
@[simp] theorem State.wrw_can1 (s : State) (b : Nat) (f : Field) (v : Word) : (s.wrw b f v).can1 = s.can1 := (rfl)
@[simp] theorem State.wrw_mbx (s : State) (b : Nat) (f : Field) (v : Word) : (s.wrw b f v).mbx = s.mbx := (rfl)
@[simp] theorem State.wrw_jrn (s : State) (b : Nat) (f : Field) (v : Word) : (s.wrw b f v).jrn = s.jrn := (rfl)
@[simp] theorem State.wrw_recd (s : State) (b : Nat) (f : Field) (v : Word) : (s.wrw b f v).recd = s.recd := (rfl)
@[simp] theorem State.wrw_pnl (s : State) (b : Nat) (f : Field) (v : Word) : (s.wrw b f v).pnl = s.pnl := (rfl)
@[simp] theorem State.wrw_pwr (s : State) (b : Nat) (f : Field) (v : Word) : (s.wrw b f v).pwr = s.pwr := (rfl)
@[simp] theorem State.wrw_tab (s : State) (b : Nat) (f : Field) (v : Word) : (s.wrw b f v).tab = s.tab := (rfl)
@[simp] theorem State.wrw_mgmt (s : State) (b : Nat) (f : Field) (v : Word) : (s.wrw b f v).mgmt = s.mgmt := (rfl)

@[simp] theorem State.setFlag_pending (s : State) (b : Nat) (f : Field) (v : Bool) : (s.setFlag b f v).pending = s.pending := (rfl)
@[simp] theorem State.setFlag_outbox (s : State) (b : Nat) (f : Field) (v : Bool) : (s.setFlag b f v).outbox = s.outbox := (rfl)
@[simp] theorem State.setFlag_free (s : State) (b : Nat) (f : Field) (v : Bool) : (s.setFlag b f v).free = s.free := (rfl)
@[simp] theorem State.setFlag_fab (s : State) (b : Nat) (f : Field) (v : Bool) : (s.setFlag b f v).fab = s.fab := (rfl)
@[simp] theorem State.setFlag_img (s : State) (b : Nat) (f : Field) (v : Bool) : (s.setFlag b f v).img = s.img := (rfl)
@[simp] theorem State.setFlag_toc (s : State) (b : Nat) (f : Field) (v : Bool) : (s.setFlag b f v).toc = s.toc := (rfl)
@[simp] theorem State.setFlag_ucs (s : State) (b : Nat) (f : Field) (v : Bool) : (s.setFlag b f v).ucs = s.ucs := (rfl)
@[simp] theorem State.setFlag_dps (s : State) (b : Nat) (f : Field) (v : Bool) : (s.setFlag b f v).dps = s.dps := (rfl)
@[simp] theorem State.setFlag_axs (s : State) (b : Nat) (f : Field) (v : Bool) : (s.setFlag b f v).axs = s.axs := (rfl)
@[simp] theorem State.setFlag_fld (s : State) (b : Nat) (f : Field) (v : Bool) : (s.setFlag b f v).fld = s.fld := (rfl)
@[simp] theorem State.setFlag_chain (s : State) (b : Nat) (f : Field) (v : Bool) : (s.setFlag b f v).chain = s.chain := (rfl)
@[simp] theorem State.setFlag_q (s : State) (b : Nat) (f : Field) (v : Bool) : (s.setFlag b f v).q = s.q := (rfl)
@[simp] theorem State.setFlag_net (s : State) (b : Nat) (f : Field) (v : Bool) : (s.setFlag b f v).net = s.net := (rfl)
@[simp] theorem State.setFlag_time (s : State) (b : Nat) (f : Field) (v : Bool) : (s.setFlag b f v).time = s.time := (rfl)
@[simp] theorem State.setFlag_can0 (s : State) (b : Nat) (f : Field) (v : Bool) : (s.setFlag b f v).can0 = s.can0 := (rfl)
@[simp] theorem State.setFlag_can1 (s : State) (b : Nat) (f : Field) (v : Bool) : (s.setFlag b f v).can1 = s.can1 := (rfl)
@[simp] theorem State.setFlag_mbx (s : State) (b : Nat) (f : Field) (v : Bool) : (s.setFlag b f v).mbx = s.mbx := (rfl)
@[simp] theorem State.setFlag_jrn (s : State) (b : Nat) (f : Field) (v : Bool) : (s.setFlag b f v).jrn = s.jrn := (rfl)
@[simp] theorem State.setFlag_recd (s : State) (b : Nat) (f : Field) (v : Bool) : (s.setFlag b f v).recd = s.recd := (rfl)
@[simp] theorem State.setFlag_pnl (s : State) (b : Nat) (f : Field) (v : Bool) : (s.setFlag b f v).pnl = s.pnl := (rfl)
@[simp] theorem State.setFlag_pwr (s : State) (b : Nat) (f : Field) (v : Bool) : (s.setFlag b f v).pwr = s.pwr := (rfl)
@[simp] theorem State.setFlag_tab (s : State) (b : Nat) (f : Field) (v : Bool) : (s.setFlag b f v).tab = s.tab := (rfl)
@[simp] theorem State.setFlag_mgmt (s : State) (b : Nat) (f : Field) (v : Bool) : (s.setFlag b f v).mgmt = s.mgmt := (rfl)

@[simp] theorem State.bumpBy_pending (s : State) (b : Nat) (f : Field) (n : Nat) : (s.bumpBy b f n).pending = s.pending := (rfl)
@[simp] theorem State.bumpBy_outbox (s : State) (b : Nat) (f : Field) (n : Nat) : (s.bumpBy b f n).outbox = s.outbox := (rfl)
@[simp] theorem State.bumpBy_free (s : State) (b : Nat) (f : Field) (n : Nat) : (s.bumpBy b f n).free = s.free := (rfl)
@[simp] theorem State.bumpBy_fab (s : State) (b : Nat) (f : Field) (n : Nat) : (s.bumpBy b f n).fab = s.fab := (rfl)
@[simp] theorem State.bumpBy_img (s : State) (b : Nat) (f : Field) (n : Nat) : (s.bumpBy b f n).img = s.img := (rfl)
@[simp] theorem State.bumpBy_toc (s : State) (b : Nat) (f : Field) (n : Nat) : (s.bumpBy b f n).toc = s.toc := (rfl)
@[simp] theorem State.bumpBy_ucs (s : State) (b : Nat) (f : Field) (n : Nat) : (s.bumpBy b f n).ucs = s.ucs := (rfl)
@[simp] theorem State.bumpBy_dps (s : State) (b : Nat) (f : Field) (n : Nat) : (s.bumpBy b f n).dps = s.dps := (rfl)
@[simp] theorem State.bumpBy_axs (s : State) (b : Nat) (f : Field) (n : Nat) : (s.bumpBy b f n).axs = s.axs := (rfl)
@[simp] theorem State.bumpBy_fld (s : State) (b : Nat) (f : Field) (n : Nat) : (s.bumpBy b f n).fld = s.fld := (rfl)
@[simp] theorem State.bumpBy_chain (s : State) (b : Nat) (f : Field) (n : Nat) : (s.bumpBy b f n).chain = s.chain := (rfl)
@[simp] theorem State.bumpBy_q (s : State) (b : Nat) (f : Field) (n : Nat) : (s.bumpBy b f n).q = s.q := (rfl)
@[simp] theorem State.bumpBy_net (s : State) (b : Nat) (f : Field) (n : Nat) : (s.bumpBy b f n).net = s.net := (rfl)
@[simp] theorem State.bumpBy_time (s : State) (b : Nat) (f : Field) (n : Nat) : (s.bumpBy b f n).time = s.time := (rfl)
@[simp] theorem State.bumpBy_can0 (s : State) (b : Nat) (f : Field) (n : Nat) : (s.bumpBy b f n).can0 = s.can0 := (rfl)
@[simp] theorem State.bumpBy_can1 (s : State) (b : Nat) (f : Field) (n : Nat) : (s.bumpBy b f n).can1 = s.can1 := (rfl)
@[simp] theorem State.bumpBy_mbx (s : State) (b : Nat) (f : Field) (n : Nat) : (s.bumpBy b f n).mbx = s.mbx := (rfl)
@[simp] theorem State.bumpBy_jrn (s : State) (b : Nat) (f : Field) (n : Nat) : (s.bumpBy b f n).jrn = s.jrn := (rfl)
@[simp] theorem State.bumpBy_recd (s : State) (b : Nat) (f : Field) (n : Nat) : (s.bumpBy b f n).recd = s.recd := (rfl)
@[simp] theorem State.bumpBy_pnl (s : State) (b : Nat) (f : Field) (n : Nat) : (s.bumpBy b f n).pnl = s.pnl := (rfl)
@[simp] theorem State.bumpBy_pwr (s : State) (b : Nat) (f : Field) (n : Nat) : (s.bumpBy b f n).pwr = s.pwr := (rfl)
@[simp] theorem State.bumpBy_tab (s : State) (b : Nat) (f : Field) (n : Nat) : (s.bumpBy b f n).tab = s.tab := (rfl)
@[simp] theorem State.bumpBy_mgmt (s : State) (b : Nat) (f : Field) (n : Nat) : (s.bumpBy b f n).mgmt = s.mgmt := (rfl)

@[simp] theorem State.bump_pending (s : State) (b : Nat) (f : Field) : (s.bump b f).pending = s.pending := (rfl)
@[simp] theorem State.bump_outbox (s : State) (b : Nat) (f : Field) : (s.bump b f).outbox = s.outbox := (rfl)
@[simp] theorem State.bump_free (s : State) (b : Nat) (f : Field) : (s.bump b f).free = s.free := (rfl)
@[simp] theorem State.bump_fab (s : State) (b : Nat) (f : Field) : (s.bump b f).fab = s.fab := (rfl)
@[simp] theorem State.bump_img (s : State) (b : Nat) (f : Field) : (s.bump b f).img = s.img := (rfl)
@[simp] theorem State.bump_toc (s : State) (b : Nat) (f : Field) : (s.bump b f).toc = s.toc := (rfl)
@[simp] theorem State.bump_ucs (s : State) (b : Nat) (f : Field) : (s.bump b f).ucs = s.ucs := (rfl)
@[simp] theorem State.bump_dps (s : State) (b : Nat) (f : Field) : (s.bump b f).dps = s.dps := (rfl)
@[simp] theorem State.bump_axs (s : State) (b : Nat) (f : Field) : (s.bump b f).axs = s.axs := (rfl)
@[simp] theorem State.bump_fld (s : State) (b : Nat) (f : Field) : (s.bump b f).fld = s.fld := (rfl)
@[simp] theorem State.bump_chain (s : State) (b : Nat) (f : Field) : (s.bump b f).chain = s.chain := (rfl)
@[simp] theorem State.bump_q (s : State) (b : Nat) (f : Field) : (s.bump b f).q = s.q := (rfl)
@[simp] theorem State.bump_net (s : State) (b : Nat) (f : Field) : (s.bump b f).net = s.net := (rfl)
@[simp] theorem State.bump_time (s : State) (b : Nat) (f : Field) : (s.bump b f).time = s.time := (rfl)
@[simp] theorem State.bump_can0 (s : State) (b : Nat) (f : Field) : (s.bump b f).can0 = s.can0 := (rfl)
@[simp] theorem State.bump_can1 (s : State) (b : Nat) (f : Field) : (s.bump b f).can1 = s.can1 := (rfl)
@[simp] theorem State.bump_mbx (s : State) (b : Nat) (f : Field) : (s.bump b f).mbx = s.mbx := (rfl)
@[simp] theorem State.bump_jrn (s : State) (b : Nat) (f : Field) : (s.bump b f).jrn = s.jrn := (rfl)
@[simp] theorem State.bump_recd (s : State) (b : Nat) (f : Field) : (s.bump b f).recd = s.recd := (rfl)
@[simp] theorem State.bump_pnl (s : State) (b : Nat) (f : Field) : (s.bump b f).pnl = s.pnl := (rfl)
@[simp] theorem State.bump_pwr (s : State) (b : Nat) (f : Field) : (s.bump b f).pwr = s.pwr := (rfl)
@[simp] theorem State.bump_tab (s : State) (b : Nat) (f : Field) : (s.bump b f).tab = s.tab := (rfl)
@[simp] theorem State.bump_mgmt (s : State) (b : Nat) (f : Field) : (s.bump b f).mgmt = s.mgmt := (rfl)

/-! A notice changes the Tabor sub-state alone, and a change of module state the registers and it. -/

theorem State.notice_cases (s : State) (k : AlarmKind) (a b c : Nat) : ∃ t, s.notice k a b c = { s with tab := t } := by
  unfold State.notice
  split
  · exact ⟨_, rfl⟩
  · exact ⟨s.tab, rfl⟩

theorem State.goMst_cases (s : State) (n : Nat) : ∃ t r, s.goMst n = { s with tab := t, regs := r } := by
  unfold State.goMst
  dsimp only
  split
  · exact ⟨s.tab, _, rfl⟩
  · obtain ⟨t, h⟩ := State.notice_cases ((s.wr modBase Reg.MOD_STATE_PREV s.mst).wr modBase Reg.MOD_STATE_STATE n) .module 0 n 0
    exact ⟨t, _, h⟩

@[simp] theorem State.notice_regs (s : State) (k : AlarmKind) (a b c : Nat) : (s.notice k a b c).regs = s.regs := by
  obtain ⟨t, h⟩ := s.notice_cases k a b c; rw [h]
@[simp] theorem State.notice_pending (s : State) (k : AlarmKind) (a b c : Nat) : (s.notice k a b c).pending = s.pending := by
  obtain ⟨t, h⟩ := s.notice_cases k a b c; rw [h]
@[simp] theorem State.notice_outbox (s : State) (k : AlarmKind) (a b c : Nat) : (s.notice k a b c).outbox = s.outbox := by
  obtain ⟨t, h⟩ := s.notice_cases k a b c; rw [h]
@[simp] theorem State.notice_free (s : State) (k : AlarmKind) (a b c : Nat) : (s.notice k a b c).free = s.free := by
  obtain ⟨t, h⟩ := s.notice_cases k a b c; rw [h]
@[simp] theorem State.notice_fab (s : State) (k : AlarmKind) (a b c : Nat) : (s.notice k a b c).fab = s.fab := by
  obtain ⟨t, h⟩ := s.notice_cases k a b c; rw [h]
@[simp] theorem State.notice_img (s : State) (k : AlarmKind) (a b c : Nat) : (s.notice k a b c).img = s.img := by
  obtain ⟨t, h⟩ := s.notice_cases k a b c; rw [h]
@[simp] theorem State.notice_toc (s : State) (k : AlarmKind) (a b c : Nat) : (s.notice k a b c).toc = s.toc := by
  obtain ⟨t, h⟩ := s.notice_cases k a b c; rw [h]
@[simp] theorem State.notice_ucs (s : State) (k : AlarmKind) (a b c : Nat) : (s.notice k a b c).ucs = s.ucs := by
  obtain ⟨t, h⟩ := s.notice_cases k a b c; rw [h]
@[simp] theorem State.notice_dps (s : State) (k : AlarmKind) (a b c : Nat) : (s.notice k a b c).dps = s.dps := by
  obtain ⟨t, h⟩ := s.notice_cases k a b c; rw [h]
@[simp] theorem State.notice_axs (s : State) (k : AlarmKind) (a b c : Nat) : (s.notice k a b c).axs = s.axs := by
  obtain ⟨t, h⟩ := s.notice_cases k a b c; rw [h]
@[simp] theorem State.notice_fld (s : State) (k : AlarmKind) (a b c : Nat) : (s.notice k a b c).fld = s.fld := by
  obtain ⟨t, h⟩ := s.notice_cases k a b c; rw [h]
@[simp] theorem State.notice_chain (s : State) (k : AlarmKind) (a b c : Nat) : (s.notice k a b c).chain = s.chain := by
  obtain ⟨t, h⟩ := s.notice_cases k a b c; rw [h]
@[simp] theorem State.notice_q (s : State) (k : AlarmKind) (a b c : Nat) : (s.notice k a b c).q = s.q := by
  obtain ⟨t, h⟩ := s.notice_cases k a b c; rw [h]
@[simp] theorem State.notice_net (s : State) (k : AlarmKind) (a b c : Nat) : (s.notice k a b c).net = s.net := by
  obtain ⟨t, h⟩ := s.notice_cases k a b c; rw [h]
@[simp] theorem State.notice_time (s : State) (k : AlarmKind) (a b c : Nat) : (s.notice k a b c).time = s.time := by
  obtain ⟨t, h⟩ := s.notice_cases k a b c; rw [h]
@[simp] theorem State.notice_can0 (s : State) (k : AlarmKind) (a b c : Nat) : (s.notice k a b c).can0 = s.can0 := by
  obtain ⟨t, h⟩ := s.notice_cases k a b c; rw [h]
@[simp] theorem State.notice_can1 (s : State) (k : AlarmKind) (a b c : Nat) : (s.notice k a b c).can1 = s.can1 := by
  obtain ⟨t, h⟩ := s.notice_cases k a b c; rw [h]
@[simp] theorem State.notice_mbx (s : State) (k : AlarmKind) (a b c : Nat) : (s.notice k a b c).mbx = s.mbx := by
  obtain ⟨t, h⟩ := s.notice_cases k a b c; rw [h]
@[simp] theorem State.notice_jrn (s : State) (k : AlarmKind) (a b c : Nat) : (s.notice k a b c).jrn = s.jrn := by
  obtain ⟨t, h⟩ := s.notice_cases k a b c; rw [h]
@[simp] theorem State.notice_recd (s : State) (k : AlarmKind) (a b c : Nat) : (s.notice k a b c).recd = s.recd := by
  obtain ⟨t, h⟩ := s.notice_cases k a b c; rw [h]
@[simp] theorem State.notice_pnl (s : State) (k : AlarmKind) (a b c : Nat) : (s.notice k a b c).pnl = s.pnl := by
  obtain ⟨t, h⟩ := s.notice_cases k a b c; rw [h]
@[simp] theorem State.notice_pwr (s : State) (k : AlarmKind) (a b c : Nat) : (s.notice k a b c).pwr = s.pwr := by
  obtain ⟨t, h⟩ := s.notice_cases k a b c; rw [h]
@[simp] theorem State.notice_mgmt (s : State) (k : AlarmKind) (a b c : Nat) : (s.notice k a b c).mgmt = s.mgmt := by
  obtain ⟨t, h⟩ := s.notice_cases k a b c; rw [h]
@[simp] theorem State.notice_reg (s : State) (k : AlarmKind) (a b c x : Nat) : (s.notice k a b c).reg x = s.reg x := by
  simp only [State.reg, State.notice_regs]
@[simp] theorem State.notice_rd (s : State) (k : AlarmKind) (a b c x : Nat) (f : Field) : (s.notice k a b c).rd x f = s.rd x f := by
  simp only [State.rd, State.notice_reg]

@[simp] theorem State.goMst_pending (s : State) (n : Nat) : (s.goMst n).pending = s.pending := by obtain ⟨t, r, h⟩ := s.goMst_cases n; rw [h]
@[simp] theorem State.goMst_outbox (s : State) (n : Nat) : (s.goMst n).outbox = s.outbox := by obtain ⟨t, r, h⟩ := s.goMst_cases n; rw [h]
@[simp] theorem State.goMst_free (s : State) (n : Nat) : (s.goMst n).free = s.free := by obtain ⟨t, r, h⟩ := s.goMst_cases n; rw [h]
@[simp] theorem State.goMst_fab (s : State) (n : Nat) : (s.goMst n).fab = s.fab := by obtain ⟨t, r, h⟩ := s.goMst_cases n; rw [h]
@[simp] theorem State.goMst_img (s : State) (n : Nat) : (s.goMst n).img = s.img := by obtain ⟨t, r, h⟩ := s.goMst_cases n; rw [h]
@[simp] theorem State.goMst_toc (s : State) (n : Nat) : (s.goMst n).toc = s.toc := by obtain ⟨t, r, h⟩ := s.goMst_cases n; rw [h]
@[simp] theorem State.goMst_ucs (s : State) (n : Nat) : (s.goMst n).ucs = s.ucs := by obtain ⟨t, r, h⟩ := s.goMst_cases n; rw [h]
@[simp] theorem State.goMst_dps (s : State) (n : Nat) : (s.goMst n).dps = s.dps := by obtain ⟨t, r, h⟩ := s.goMst_cases n; rw [h]
@[simp] theorem State.goMst_axs (s : State) (n : Nat) : (s.goMst n).axs = s.axs := by obtain ⟨t, r, h⟩ := s.goMst_cases n; rw [h]
@[simp] theorem State.goMst_fld (s : State) (n : Nat) : (s.goMst n).fld = s.fld := by obtain ⟨t, r, h⟩ := s.goMst_cases n; rw [h]
@[simp] theorem State.goMst_chain (s : State) (n : Nat) : (s.goMst n).chain = s.chain := by obtain ⟨t, r, h⟩ := s.goMst_cases n; rw [h]
@[simp] theorem State.goMst_q (s : State) (n : Nat) : (s.goMst n).q = s.q := by obtain ⟨t, r, h⟩ := s.goMst_cases n; rw [h]
@[simp] theorem State.goMst_net (s : State) (n : Nat) : (s.goMst n).net = s.net := by obtain ⟨t, r, h⟩ := s.goMst_cases n; rw [h]
@[simp] theorem State.goMst_time (s : State) (n : Nat) : (s.goMst n).time = s.time := by obtain ⟨t, r, h⟩ := s.goMst_cases n; rw [h]
@[simp] theorem State.goMst_can0 (s : State) (n : Nat) : (s.goMst n).can0 = s.can0 := by obtain ⟨t, r, h⟩ := s.goMst_cases n; rw [h]
@[simp] theorem State.goMst_can1 (s : State) (n : Nat) : (s.goMst n).can1 = s.can1 := by obtain ⟨t, r, h⟩ := s.goMst_cases n; rw [h]
@[simp] theorem State.goMst_mbx (s : State) (n : Nat) : (s.goMst n).mbx = s.mbx := by obtain ⟨t, r, h⟩ := s.goMst_cases n; rw [h]
@[simp] theorem State.goMst_jrn (s : State) (n : Nat) : (s.goMst n).jrn = s.jrn := by obtain ⟨t, r, h⟩ := s.goMst_cases n; rw [h]
@[simp] theorem State.goMst_recd (s : State) (n : Nat) : (s.goMst n).recd = s.recd := by obtain ⟨t, r, h⟩ := s.goMst_cases n; rw [h]
@[simp] theorem State.goMst_pnl (s : State) (n : Nat) : (s.goMst n).pnl = s.pnl := by obtain ⟨t, r, h⟩ := s.goMst_cases n; rw [h]
@[simp] theorem State.goMst_pwr (s : State) (n : Nat) : (s.goMst n).pwr = s.pwr := by obtain ⟨t, r, h⟩ := s.goMst_cases n; rw [h]
@[simp] theorem State.goMst_mgmt (s : State) (n : Nat) : (s.goMst n).mgmt = s.mgmt := by obtain ⟨t, r, h⟩ := s.goMst_cases n; rw [h]

@[simp] theorem State.emit_pending (s : State) (o : Output) : (s.emit o).pending = s.pending := (rfl)
@[simp] theorem State.emit_regs (s : State) (o : Output) : (s.emit o).regs = s.regs := (rfl)
@[simp] theorem State.emit_free (s : State) (o : Output) : (s.emit o).free = s.free := (rfl)
@[simp] theorem State.emit_fab (s : State) (o : Output) : (s.emit o).fab = s.fab := (rfl)
@[simp] theorem State.emit_img (s : State) (o : Output) : (s.emit o).img = s.img := (rfl)
@[simp] theorem State.emit_toc (s : State) (o : Output) : (s.emit o).toc = s.toc := (rfl)
@[simp] theorem State.emit_ucs (s : State) (o : Output) : (s.emit o).ucs = s.ucs := (rfl)
@[simp] theorem State.emit_dps (s : State) (o : Output) : (s.emit o).dps = s.dps := (rfl)
@[simp] theorem State.emit_axs (s : State) (o : Output) : (s.emit o).axs = s.axs := (rfl)
@[simp] theorem State.emit_fld (s : State) (o : Output) : (s.emit o).fld = s.fld := (rfl)
@[simp] theorem State.emit_chain (s : State) (o : Output) : (s.emit o).chain = s.chain := (rfl)
@[simp] theorem State.emit_q (s : State) (o : Output) : (s.emit o).q = s.q := (rfl)
@[simp] theorem State.emit_net (s : State) (o : Output) : (s.emit o).net = s.net := (rfl)
@[simp] theorem State.emit_time (s : State) (o : Output) : (s.emit o).time = s.time := (rfl)
@[simp] theorem State.emit_can0 (s : State) (o : Output) : (s.emit o).can0 = s.can0 := (rfl)
@[simp] theorem State.emit_can1 (s : State) (o : Output) : (s.emit o).can1 = s.can1 := (rfl)
@[simp] theorem State.emit_mbx (s : State) (o : Output) : (s.emit o).mbx = s.mbx := (rfl)
@[simp] theorem State.emit_jrn (s : State) (o : Output) : (s.emit o).jrn = s.jrn := (rfl)
@[simp] theorem State.emit_recd (s : State) (o : Output) : (s.emit o).recd = s.recd := (rfl)
@[simp] theorem State.emit_pnl (s : State) (o : Output) : (s.emit o).pnl = s.pnl := (rfl)
@[simp] theorem State.emit_pwr (s : State) (o : Output) : (s.emit o).pwr = s.pwr := (rfl)
@[simp] theorem State.emit_tab (s : State) (o : Output) : (s.emit o).tab = s.tab := (rfl)
@[simp] theorem State.emit_mgmt (s : State) (o : Output) : (s.emit o).mgmt = s.mgmt := (rfl)
@[simp] theorem State.emit_reg (s : State) (o : Output) (x : Nat) : (s.emit o).reg x = s.reg x := (rfl)
@[simp] theorem State.emit_rd (s : State) (o : Output) (x : Nat) (y : Field) : (s.emit o).rd x y = s.rd x y := (rfl)
@[simp] theorem State.emit_rdw (s : State) (o : Output) (x : Nat) (y : Field) : (s.emit o).rdw x y = s.rdw x y := (rfl)
@[simp] theorem State.emit_flag (s : State) (o : Output) (x : Nat) (y : Field) : (s.emit o).flag x y = s.flag x y := (rfl)
@[simp] theorem State.emit_mst (s : State) (o : Output) : (s.emit o).mst = s.mst := (rfl)

@[simp] theorem State.answer_pending (s : State) (p : Port) (c : Code) : (s.answer p c).pending = s.pending := (rfl)
@[simp] theorem State.answer_regs (s : State) (p : Port) (c : Code) : (s.answer p c).regs = s.regs := (rfl)
@[simp] theorem State.answer_free (s : State) (p : Port) (c : Code) : (s.answer p c).free = s.free := (rfl)
@[simp] theorem State.answer_fab (s : State) (p : Port) (c : Code) : (s.answer p c).fab = s.fab := (rfl)
@[simp] theorem State.answer_img (s : State) (p : Port) (c : Code) : (s.answer p c).img = s.img := (rfl)
@[simp] theorem State.answer_toc (s : State) (p : Port) (c : Code) : (s.answer p c).toc = s.toc := (rfl)
@[simp] theorem State.answer_ucs (s : State) (p : Port) (c : Code) : (s.answer p c).ucs = s.ucs := (rfl)
@[simp] theorem State.answer_dps (s : State) (p : Port) (c : Code) : (s.answer p c).dps = s.dps := (rfl)
@[simp] theorem State.answer_axs (s : State) (p : Port) (c : Code) : (s.answer p c).axs = s.axs := (rfl)
@[simp] theorem State.answer_fld (s : State) (p : Port) (c : Code) : (s.answer p c).fld = s.fld := (rfl)
@[simp] theorem State.answer_chain (s : State) (p : Port) (c : Code) : (s.answer p c).chain = s.chain := (rfl)
@[simp] theorem State.answer_q (s : State) (p : Port) (c : Code) : (s.answer p c).q = s.q := (rfl)
@[simp] theorem State.answer_net (s : State) (p : Port) (c : Code) : (s.answer p c).net = s.net := (rfl)
@[simp] theorem State.answer_time (s : State) (p : Port) (c : Code) : (s.answer p c).time = s.time := (rfl)
@[simp] theorem State.answer_can0 (s : State) (p : Port) (c : Code) : (s.answer p c).can0 = s.can0 := (rfl)
@[simp] theorem State.answer_can1 (s : State) (p : Port) (c : Code) : (s.answer p c).can1 = s.can1 := (rfl)
@[simp] theorem State.answer_mbx (s : State) (p : Port) (c : Code) : (s.answer p c).mbx = s.mbx := (rfl)
@[simp] theorem State.answer_jrn (s : State) (p : Port) (c : Code) : (s.answer p c).jrn = s.jrn := (rfl)
@[simp] theorem State.answer_recd (s : State) (p : Port) (c : Code) : (s.answer p c).recd = s.recd := (rfl)
@[simp] theorem State.answer_pnl (s : State) (p : Port) (c : Code) : (s.answer p c).pnl = s.pnl := (rfl)
@[simp] theorem State.answer_pwr (s : State) (p : Port) (c : Code) : (s.answer p c).pwr = s.pwr := (rfl)
@[simp] theorem State.answer_tab (s : State) (p : Port) (c : Code) : (s.answer p c).tab = s.tab := (rfl)
@[simp] theorem State.answer_mgmt (s : State) (p : Port) (c : Code) : (s.answer p c).mgmt = s.mgmt := (rfl)
@[simp] theorem State.answer_reg (s : State) (p : Port) (c : Code) (x : Nat) : (s.answer p c).reg x = s.reg x := (rfl)
@[simp] theorem State.answer_rd (s : State) (p : Port) (c : Code) (x : Nat) (y : Field) : (s.answer p c).rd x y = s.rd x y := (rfl)
@[simp] theorem State.answer_rdw (s : State) (p : Port) (c : Code) (x : Nat) (y : Field) : (s.answer p c).rdw x y = s.rdw x y := (rfl)
@[simp] theorem State.answer_flag (s : State) (p : Port) (c : Code) (x : Nat) (y : Field) : (s.answer p c).flag x y = s.flag x y := (rfl)
@[simp] theorem State.answer_mst (s : State) (p : Port) (c : Code) : (s.answer p c).mst = s.mst := (rfl)

@[simp] theorem State.modFab_pending (s : State) (g : FabricSt → FabricSt) : (s.modFab g).pending = s.pending := (rfl)
@[simp] theorem State.modFab_regs (s : State) (g : FabricSt → FabricSt) : (s.modFab g).regs = s.regs := (rfl)
@[simp] theorem State.modFab_outbox (s : State) (g : FabricSt → FabricSt) : (s.modFab g).outbox = s.outbox := (rfl)
@[simp] theorem State.modFab_free (s : State) (g : FabricSt → FabricSt) : (s.modFab g).free = s.free := (rfl)
@[simp] theorem State.modFab_img (s : State) (g : FabricSt → FabricSt) : (s.modFab g).img = s.img := (rfl)
@[simp] theorem State.modFab_toc (s : State) (g : FabricSt → FabricSt) : (s.modFab g).toc = s.toc := (rfl)
@[simp] theorem State.modFab_ucs (s : State) (g : FabricSt → FabricSt) : (s.modFab g).ucs = s.ucs := (rfl)
@[simp] theorem State.modFab_dps (s : State) (g : FabricSt → FabricSt) : (s.modFab g).dps = s.dps := (rfl)
@[simp] theorem State.modFab_axs (s : State) (g : FabricSt → FabricSt) : (s.modFab g).axs = s.axs := (rfl)
@[simp] theorem State.modFab_fld (s : State) (g : FabricSt → FabricSt) : (s.modFab g).fld = s.fld := (rfl)
@[simp] theorem State.modFab_chain (s : State) (g : FabricSt → FabricSt) : (s.modFab g).chain = s.chain := (rfl)
@[simp] theorem State.modFab_q (s : State) (g : FabricSt → FabricSt) : (s.modFab g).q = s.q := (rfl)
@[simp] theorem State.modFab_net (s : State) (g : FabricSt → FabricSt) : (s.modFab g).net = s.net := (rfl)
@[simp] theorem State.modFab_time (s : State) (g : FabricSt → FabricSt) : (s.modFab g).time = s.time := (rfl)
@[simp] theorem State.modFab_can0 (s : State) (g : FabricSt → FabricSt) : (s.modFab g).can0 = s.can0 := (rfl)
@[simp] theorem State.modFab_can1 (s : State) (g : FabricSt → FabricSt) : (s.modFab g).can1 = s.can1 := (rfl)
@[simp] theorem State.modFab_mbx (s : State) (g : FabricSt → FabricSt) : (s.modFab g).mbx = s.mbx := (rfl)
@[simp] theorem State.modFab_jrn (s : State) (g : FabricSt → FabricSt) : (s.modFab g).jrn = s.jrn := (rfl)
@[simp] theorem State.modFab_recd (s : State) (g : FabricSt → FabricSt) : (s.modFab g).recd = s.recd := (rfl)
@[simp] theorem State.modFab_pnl (s : State) (g : FabricSt → FabricSt) : (s.modFab g).pnl = s.pnl := (rfl)
@[simp] theorem State.modFab_pwr (s : State) (g : FabricSt → FabricSt) : (s.modFab g).pwr = s.pwr := (rfl)
@[simp] theorem State.modFab_tab (s : State) (g : FabricSt → FabricSt) : (s.modFab g).tab = s.tab := (rfl)
@[simp] theorem State.modFab_mgmt (s : State) (g : FabricSt → FabricSt) : (s.modFab g).mgmt = s.mgmt := (rfl)
@[simp] theorem State.modFab_reg (s : State) (g : FabricSt → FabricSt) (x : Nat) : (s.modFab g).reg x = s.reg x := (rfl)
@[simp] theorem State.modFab_rd (s : State) (g : FabricSt → FabricSt) (x : Nat) (y : Field) : (s.modFab g).rd x y = s.rd x y := (rfl)
@[simp] theorem State.modFab_rdw (s : State) (g : FabricSt → FabricSt) (x : Nat) (y : Field) : (s.modFab g).rdw x y = s.rdw x y := (rfl)
@[simp] theorem State.modFab_flag (s : State) (g : FabricSt → FabricSt) (x : Nat) (y : Field) : (s.modFab g).flag x y = s.flag x y := (rfl)
@[simp] theorem State.modFab_mst (s : State) (g : FabricSt → FabricSt) : (s.modFab g).mst = s.mst := (rfl)

@[simp] theorem State.modImg_pending (s : State) (g : ImageSt → ImageSt) : (s.modImg g).pending = s.pending := (rfl)
@[simp] theorem State.modImg_regs (s : State) (g : ImageSt → ImageSt) : (s.modImg g).regs = s.regs := (rfl)
@[simp] theorem State.modImg_outbox (s : State) (g : ImageSt → ImageSt) : (s.modImg g).outbox = s.outbox := (rfl)
@[simp] theorem State.modImg_free (s : State) (g : ImageSt → ImageSt) : (s.modImg g).free = s.free := (rfl)
@[simp] theorem State.modImg_fab (s : State) (g : ImageSt → ImageSt) : (s.modImg g).fab = s.fab := (rfl)
@[simp] theorem State.modImg_toc (s : State) (g : ImageSt → ImageSt) : (s.modImg g).toc = s.toc := (rfl)
@[simp] theorem State.modImg_ucs (s : State) (g : ImageSt → ImageSt) : (s.modImg g).ucs = s.ucs := (rfl)
@[simp] theorem State.modImg_dps (s : State) (g : ImageSt → ImageSt) : (s.modImg g).dps = s.dps := (rfl)
@[simp] theorem State.modImg_axs (s : State) (g : ImageSt → ImageSt) : (s.modImg g).axs = s.axs := (rfl)
@[simp] theorem State.modImg_fld (s : State) (g : ImageSt → ImageSt) : (s.modImg g).fld = s.fld := (rfl)
@[simp] theorem State.modImg_chain (s : State) (g : ImageSt → ImageSt) : (s.modImg g).chain = s.chain := (rfl)
@[simp] theorem State.modImg_q (s : State) (g : ImageSt → ImageSt) : (s.modImg g).q = s.q := (rfl)
@[simp] theorem State.modImg_net (s : State) (g : ImageSt → ImageSt) : (s.modImg g).net = s.net := (rfl)
@[simp] theorem State.modImg_time (s : State) (g : ImageSt → ImageSt) : (s.modImg g).time = s.time := (rfl)
@[simp] theorem State.modImg_can0 (s : State) (g : ImageSt → ImageSt) : (s.modImg g).can0 = s.can0 := (rfl)
@[simp] theorem State.modImg_can1 (s : State) (g : ImageSt → ImageSt) : (s.modImg g).can1 = s.can1 := (rfl)
@[simp] theorem State.modImg_mbx (s : State) (g : ImageSt → ImageSt) : (s.modImg g).mbx = s.mbx := (rfl)
@[simp] theorem State.modImg_jrn (s : State) (g : ImageSt → ImageSt) : (s.modImg g).jrn = s.jrn := (rfl)
@[simp] theorem State.modImg_recd (s : State) (g : ImageSt → ImageSt) : (s.modImg g).recd = s.recd := (rfl)
@[simp] theorem State.modImg_pnl (s : State) (g : ImageSt → ImageSt) : (s.modImg g).pnl = s.pnl := (rfl)
@[simp] theorem State.modImg_pwr (s : State) (g : ImageSt → ImageSt) : (s.modImg g).pwr = s.pwr := (rfl)
@[simp] theorem State.modImg_tab (s : State) (g : ImageSt → ImageSt) : (s.modImg g).tab = s.tab := (rfl)
@[simp] theorem State.modImg_mgmt (s : State) (g : ImageSt → ImageSt) : (s.modImg g).mgmt = s.mgmt := (rfl)
@[simp] theorem State.modImg_reg (s : State) (g : ImageSt → ImageSt) (x : Nat) : (s.modImg g).reg x = s.reg x := (rfl)
@[simp] theorem State.modImg_rd (s : State) (g : ImageSt → ImageSt) (x : Nat) (y : Field) : (s.modImg g).rd x y = s.rd x y := (rfl)
@[simp] theorem State.modImg_rdw (s : State) (g : ImageSt → ImageSt) (x : Nat) (y : Field) : (s.modImg g).rdw x y = s.rdw x y := (rfl)
@[simp] theorem State.modImg_flag (s : State) (g : ImageSt → ImageSt) (x : Nat) (y : Field) : (s.modImg g).flag x y = s.flag x y := (rfl)
@[simp] theorem State.modImg_mst (s : State) (g : ImageSt → ImageSt) : (s.modImg g).mst = s.mst := (rfl)

@[simp] theorem State.modToc_pending (s : State) (g : TocsinSt → TocsinSt) : (s.modToc g).pending = s.pending := (rfl)
@[simp] theorem State.modToc_regs (s : State) (g : TocsinSt → TocsinSt) : (s.modToc g).regs = s.regs := (rfl)
@[simp] theorem State.modToc_outbox (s : State) (g : TocsinSt → TocsinSt) : (s.modToc g).outbox = s.outbox := (rfl)
@[simp] theorem State.modToc_free (s : State) (g : TocsinSt → TocsinSt) : (s.modToc g).free = s.free := (rfl)
@[simp] theorem State.modToc_fab (s : State) (g : TocsinSt → TocsinSt) : (s.modToc g).fab = s.fab := (rfl)
@[simp] theorem State.modToc_img (s : State) (g : TocsinSt → TocsinSt) : (s.modToc g).img = s.img := (rfl)
@[simp] theorem State.modToc_ucs (s : State) (g : TocsinSt → TocsinSt) : (s.modToc g).ucs = s.ucs := (rfl)
@[simp] theorem State.modToc_dps (s : State) (g : TocsinSt → TocsinSt) : (s.modToc g).dps = s.dps := (rfl)
@[simp] theorem State.modToc_axs (s : State) (g : TocsinSt → TocsinSt) : (s.modToc g).axs = s.axs := (rfl)
@[simp] theorem State.modToc_fld (s : State) (g : TocsinSt → TocsinSt) : (s.modToc g).fld = s.fld := (rfl)
@[simp] theorem State.modToc_chain (s : State) (g : TocsinSt → TocsinSt) : (s.modToc g).chain = s.chain := (rfl)
@[simp] theorem State.modToc_q (s : State) (g : TocsinSt → TocsinSt) : (s.modToc g).q = s.q := (rfl)
@[simp] theorem State.modToc_net (s : State) (g : TocsinSt → TocsinSt) : (s.modToc g).net = s.net := (rfl)
@[simp] theorem State.modToc_time (s : State) (g : TocsinSt → TocsinSt) : (s.modToc g).time = s.time := (rfl)
@[simp] theorem State.modToc_can0 (s : State) (g : TocsinSt → TocsinSt) : (s.modToc g).can0 = s.can0 := (rfl)
@[simp] theorem State.modToc_can1 (s : State) (g : TocsinSt → TocsinSt) : (s.modToc g).can1 = s.can1 := (rfl)
@[simp] theorem State.modToc_mbx (s : State) (g : TocsinSt → TocsinSt) : (s.modToc g).mbx = s.mbx := (rfl)
@[simp] theorem State.modToc_jrn (s : State) (g : TocsinSt → TocsinSt) : (s.modToc g).jrn = s.jrn := (rfl)
@[simp] theorem State.modToc_recd (s : State) (g : TocsinSt → TocsinSt) : (s.modToc g).recd = s.recd := (rfl)
@[simp] theorem State.modToc_pnl (s : State) (g : TocsinSt → TocsinSt) : (s.modToc g).pnl = s.pnl := (rfl)
@[simp] theorem State.modToc_pwr (s : State) (g : TocsinSt → TocsinSt) : (s.modToc g).pwr = s.pwr := (rfl)
@[simp] theorem State.modToc_tab (s : State) (g : TocsinSt → TocsinSt) : (s.modToc g).tab = s.tab := (rfl)
@[simp] theorem State.modToc_mgmt (s : State) (g : TocsinSt → TocsinSt) : (s.modToc g).mgmt = s.mgmt := (rfl)
@[simp] theorem State.modToc_reg (s : State) (g : TocsinSt → TocsinSt) (x : Nat) : (s.modToc g).reg x = s.reg x := (rfl)
@[simp] theorem State.modToc_rd (s : State) (g : TocsinSt → TocsinSt) (x : Nat) (y : Field) : (s.modToc g).rd x y = s.rd x y := (rfl)
@[simp] theorem State.modToc_rdw (s : State) (g : TocsinSt → TocsinSt) (x : Nat) (y : Field) : (s.modToc g).rdw x y = s.rdw x y := (rfl)
@[simp] theorem State.modToc_flag (s : State) (g : TocsinSt → TocsinSt) (x : Nat) (y : Field) : (s.modToc g).flag x y = s.flag x y := (rfl)
@[simp] theorem State.modToc_mst (s : State) (g : TocsinSt → TocsinSt) : (s.modToc g).mst = s.mst := (rfl)

@[simp] theorem State.modChain_pending (s : State) (g : ChainSt → ChainSt) : (s.modChain g).pending = s.pending := (rfl)
@[simp] theorem State.modChain_regs (s : State) (g : ChainSt → ChainSt) : (s.modChain g).regs = s.regs := (rfl)
@[simp] theorem State.modChain_outbox (s : State) (g : ChainSt → ChainSt) : (s.modChain g).outbox = s.outbox := (rfl)
@[simp] theorem State.modChain_free (s : State) (g : ChainSt → ChainSt) : (s.modChain g).free = s.free := (rfl)
@[simp] theorem State.modChain_fab (s : State) (g : ChainSt → ChainSt) : (s.modChain g).fab = s.fab := (rfl)
@[simp] theorem State.modChain_img (s : State) (g : ChainSt → ChainSt) : (s.modChain g).img = s.img := (rfl)
@[simp] theorem State.modChain_toc (s : State) (g : ChainSt → ChainSt) : (s.modChain g).toc = s.toc := (rfl)
@[simp] theorem State.modChain_ucs (s : State) (g : ChainSt → ChainSt) : (s.modChain g).ucs = s.ucs := (rfl)
@[simp] theorem State.modChain_dps (s : State) (g : ChainSt → ChainSt) : (s.modChain g).dps = s.dps := (rfl)
@[simp] theorem State.modChain_axs (s : State) (g : ChainSt → ChainSt) : (s.modChain g).axs = s.axs := (rfl)
@[simp] theorem State.modChain_fld (s : State) (g : ChainSt → ChainSt) : (s.modChain g).fld = s.fld := (rfl)
@[simp] theorem State.modChain_q (s : State) (g : ChainSt → ChainSt) : (s.modChain g).q = s.q := (rfl)
@[simp] theorem State.modChain_net (s : State) (g : ChainSt → ChainSt) : (s.modChain g).net = s.net := (rfl)
@[simp] theorem State.modChain_time (s : State) (g : ChainSt → ChainSt) : (s.modChain g).time = s.time := (rfl)
@[simp] theorem State.modChain_can0 (s : State) (g : ChainSt → ChainSt) : (s.modChain g).can0 = s.can0 := (rfl)
@[simp] theorem State.modChain_can1 (s : State) (g : ChainSt → ChainSt) : (s.modChain g).can1 = s.can1 := (rfl)
@[simp] theorem State.modChain_mbx (s : State) (g : ChainSt → ChainSt) : (s.modChain g).mbx = s.mbx := (rfl)
@[simp] theorem State.modChain_jrn (s : State) (g : ChainSt → ChainSt) : (s.modChain g).jrn = s.jrn := (rfl)
@[simp] theorem State.modChain_recd (s : State) (g : ChainSt → ChainSt) : (s.modChain g).recd = s.recd := (rfl)
@[simp] theorem State.modChain_pnl (s : State) (g : ChainSt → ChainSt) : (s.modChain g).pnl = s.pnl := (rfl)
@[simp] theorem State.modChain_pwr (s : State) (g : ChainSt → ChainSt) : (s.modChain g).pwr = s.pwr := (rfl)
@[simp] theorem State.modChain_tab (s : State) (g : ChainSt → ChainSt) : (s.modChain g).tab = s.tab := (rfl)
@[simp] theorem State.modChain_mgmt (s : State) (g : ChainSt → ChainSt) : (s.modChain g).mgmt = s.mgmt := (rfl)
@[simp] theorem State.modChain_reg (s : State) (g : ChainSt → ChainSt) (x : Nat) : (s.modChain g).reg x = s.reg x := (rfl)
@[simp] theorem State.modChain_rd (s : State) (g : ChainSt → ChainSt) (x : Nat) (y : Field) : (s.modChain g).rd x y = s.rd x y := (rfl)
@[simp] theorem State.modChain_rdw (s : State) (g : ChainSt → ChainSt) (x : Nat) (y : Field) : (s.modChain g).rdw x y = s.rdw x y := (rfl)
@[simp] theorem State.modChain_flag (s : State) (g : ChainSt → ChainSt) (x : Nat) (y : Field) : (s.modChain g).flag x y = s.flag x y := (rfl)
@[simp] theorem State.modChain_mst (s : State) (g : ChainSt → ChainSt) : (s.modChain g).mst = s.mst := (rfl)

@[simp] theorem State.modQ_pending (s : State) (g : QueueSt → QueueSt) : (s.modQ g).pending = s.pending := (rfl)
@[simp] theorem State.modQ_regs (s : State) (g : QueueSt → QueueSt) : (s.modQ g).regs = s.regs := (rfl)
@[simp] theorem State.modQ_outbox (s : State) (g : QueueSt → QueueSt) : (s.modQ g).outbox = s.outbox := (rfl)
@[simp] theorem State.modQ_free (s : State) (g : QueueSt → QueueSt) : (s.modQ g).free = s.free := (rfl)
@[simp] theorem State.modQ_fab (s : State) (g : QueueSt → QueueSt) : (s.modQ g).fab = s.fab := (rfl)
@[simp] theorem State.modQ_img (s : State) (g : QueueSt → QueueSt) : (s.modQ g).img = s.img := (rfl)
@[simp] theorem State.modQ_toc (s : State) (g : QueueSt → QueueSt) : (s.modQ g).toc = s.toc := (rfl)
@[simp] theorem State.modQ_ucs (s : State) (g : QueueSt → QueueSt) : (s.modQ g).ucs = s.ucs := (rfl)
@[simp] theorem State.modQ_dps (s : State) (g : QueueSt → QueueSt) : (s.modQ g).dps = s.dps := (rfl)
@[simp] theorem State.modQ_axs (s : State) (g : QueueSt → QueueSt) : (s.modQ g).axs = s.axs := (rfl)
@[simp] theorem State.modQ_fld (s : State) (g : QueueSt → QueueSt) : (s.modQ g).fld = s.fld := (rfl)
@[simp] theorem State.modQ_chain (s : State) (g : QueueSt → QueueSt) : (s.modQ g).chain = s.chain := (rfl)
@[simp] theorem State.modQ_net (s : State) (g : QueueSt → QueueSt) : (s.modQ g).net = s.net := (rfl)
@[simp] theorem State.modQ_time (s : State) (g : QueueSt → QueueSt) : (s.modQ g).time = s.time := (rfl)
@[simp] theorem State.modQ_can0 (s : State) (g : QueueSt → QueueSt) : (s.modQ g).can0 = s.can0 := (rfl)
@[simp] theorem State.modQ_can1 (s : State) (g : QueueSt → QueueSt) : (s.modQ g).can1 = s.can1 := (rfl)
@[simp] theorem State.modQ_mbx (s : State) (g : QueueSt → QueueSt) : (s.modQ g).mbx = s.mbx := (rfl)
@[simp] theorem State.modQ_jrn (s : State) (g : QueueSt → QueueSt) : (s.modQ g).jrn = s.jrn := (rfl)
@[simp] theorem State.modQ_recd (s : State) (g : QueueSt → QueueSt) : (s.modQ g).recd = s.recd := (rfl)
@[simp] theorem State.modQ_pnl (s : State) (g : QueueSt → QueueSt) : (s.modQ g).pnl = s.pnl := (rfl)
@[simp] theorem State.modQ_pwr (s : State) (g : QueueSt → QueueSt) : (s.modQ g).pwr = s.pwr := (rfl)
@[simp] theorem State.modQ_tab (s : State) (g : QueueSt → QueueSt) : (s.modQ g).tab = s.tab := (rfl)
@[simp] theorem State.modQ_mgmt (s : State) (g : QueueSt → QueueSt) : (s.modQ g).mgmt = s.mgmt := (rfl)
@[simp] theorem State.modQ_reg (s : State) (g : QueueSt → QueueSt) (x : Nat) : (s.modQ g).reg x = s.reg x := (rfl)
@[simp] theorem State.modQ_rd (s : State) (g : QueueSt → QueueSt) (x : Nat) (y : Field) : (s.modQ g).rd x y = s.rd x y := (rfl)
@[simp] theorem State.modQ_rdw (s : State) (g : QueueSt → QueueSt) (x : Nat) (y : Field) : (s.modQ g).rdw x y = s.rdw x y := (rfl)
@[simp] theorem State.modQ_flag (s : State) (g : QueueSt → QueueSt) (x : Nat) (y : Field) : (s.modQ g).flag x y = s.flag x y := (rfl)
@[simp] theorem State.modQ_mst (s : State) (g : QueueSt → QueueSt) : (s.modQ g).mst = s.mst := (rfl)

@[simp] theorem State.modNet_pending (s : State) (g : NetSt → NetSt) : (s.modNet g).pending = s.pending := (rfl)
@[simp] theorem State.modNet_regs (s : State) (g : NetSt → NetSt) : (s.modNet g).regs = s.regs := (rfl)
@[simp] theorem State.modNet_outbox (s : State) (g : NetSt → NetSt) : (s.modNet g).outbox = s.outbox := (rfl)
@[simp] theorem State.modNet_free (s : State) (g : NetSt → NetSt) : (s.modNet g).free = s.free := (rfl)
@[simp] theorem State.modNet_fab (s : State) (g : NetSt → NetSt) : (s.modNet g).fab = s.fab := (rfl)
@[simp] theorem State.modNet_img (s : State) (g : NetSt → NetSt) : (s.modNet g).img = s.img := (rfl)
@[simp] theorem State.modNet_toc (s : State) (g : NetSt → NetSt) : (s.modNet g).toc = s.toc := (rfl)
@[simp] theorem State.modNet_ucs (s : State) (g : NetSt → NetSt) : (s.modNet g).ucs = s.ucs := (rfl)
@[simp] theorem State.modNet_dps (s : State) (g : NetSt → NetSt) : (s.modNet g).dps = s.dps := (rfl)
@[simp] theorem State.modNet_axs (s : State) (g : NetSt → NetSt) : (s.modNet g).axs = s.axs := (rfl)
@[simp] theorem State.modNet_fld (s : State) (g : NetSt → NetSt) : (s.modNet g).fld = s.fld := (rfl)
@[simp] theorem State.modNet_chain (s : State) (g : NetSt → NetSt) : (s.modNet g).chain = s.chain := (rfl)
@[simp] theorem State.modNet_q (s : State) (g : NetSt → NetSt) : (s.modNet g).q = s.q := (rfl)
@[simp] theorem State.modNet_time (s : State) (g : NetSt → NetSt) : (s.modNet g).time = s.time := (rfl)
@[simp] theorem State.modNet_can0 (s : State) (g : NetSt → NetSt) : (s.modNet g).can0 = s.can0 := (rfl)
@[simp] theorem State.modNet_can1 (s : State) (g : NetSt → NetSt) : (s.modNet g).can1 = s.can1 := (rfl)
@[simp] theorem State.modNet_mbx (s : State) (g : NetSt → NetSt) : (s.modNet g).mbx = s.mbx := (rfl)
@[simp] theorem State.modNet_jrn (s : State) (g : NetSt → NetSt) : (s.modNet g).jrn = s.jrn := (rfl)
@[simp] theorem State.modNet_recd (s : State) (g : NetSt → NetSt) : (s.modNet g).recd = s.recd := (rfl)
@[simp] theorem State.modNet_pnl (s : State) (g : NetSt → NetSt) : (s.modNet g).pnl = s.pnl := (rfl)
@[simp] theorem State.modNet_pwr (s : State) (g : NetSt → NetSt) : (s.modNet g).pwr = s.pwr := (rfl)
@[simp] theorem State.modNet_tab (s : State) (g : NetSt → NetSt) : (s.modNet g).tab = s.tab := (rfl)
@[simp] theorem State.modNet_mgmt (s : State) (g : NetSt → NetSt) : (s.modNet g).mgmt = s.mgmt := (rfl)
@[simp] theorem State.modNet_reg (s : State) (g : NetSt → NetSt) (x : Nat) : (s.modNet g).reg x = s.reg x := (rfl)
@[simp] theorem State.modNet_rd (s : State) (g : NetSt → NetSt) (x : Nat) (y : Field) : (s.modNet g).rd x y = s.rd x y := (rfl)
@[simp] theorem State.modNet_rdw (s : State) (g : NetSt → NetSt) (x : Nat) (y : Field) : (s.modNet g).rdw x y = s.rdw x y := (rfl)
@[simp] theorem State.modNet_flag (s : State) (g : NetSt → NetSt) (x : Nat) (y : Field) : (s.modNet g).flag x y = s.flag x y := (rfl)
@[simp] theorem State.modNet_mst (s : State) (g : NetSt → NetSt) : (s.modNet g).mst = s.mst := (rfl)

@[simp] theorem State.modTime_pending (s : State) (g : TimeSt → TimeSt) : (s.modTime g).pending = s.pending := (rfl)
@[simp] theorem State.modTime_regs (s : State) (g : TimeSt → TimeSt) : (s.modTime g).regs = s.regs := (rfl)
@[simp] theorem State.modTime_outbox (s : State) (g : TimeSt → TimeSt) : (s.modTime g).outbox = s.outbox := (rfl)
@[simp] theorem State.modTime_free (s : State) (g : TimeSt → TimeSt) : (s.modTime g).free = s.free := (rfl)
@[simp] theorem State.modTime_fab (s : State) (g : TimeSt → TimeSt) : (s.modTime g).fab = s.fab := (rfl)
@[simp] theorem State.modTime_img (s : State) (g : TimeSt → TimeSt) : (s.modTime g).img = s.img := (rfl)
@[simp] theorem State.modTime_toc (s : State) (g : TimeSt → TimeSt) : (s.modTime g).toc = s.toc := (rfl)
@[simp] theorem State.modTime_ucs (s : State) (g : TimeSt → TimeSt) : (s.modTime g).ucs = s.ucs := (rfl)
@[simp] theorem State.modTime_dps (s : State) (g : TimeSt → TimeSt) : (s.modTime g).dps = s.dps := (rfl)
@[simp] theorem State.modTime_axs (s : State) (g : TimeSt → TimeSt) : (s.modTime g).axs = s.axs := (rfl)
@[simp] theorem State.modTime_fld (s : State) (g : TimeSt → TimeSt) : (s.modTime g).fld = s.fld := (rfl)
@[simp] theorem State.modTime_chain (s : State) (g : TimeSt → TimeSt) : (s.modTime g).chain = s.chain := (rfl)
@[simp] theorem State.modTime_q (s : State) (g : TimeSt → TimeSt) : (s.modTime g).q = s.q := (rfl)
@[simp] theorem State.modTime_net (s : State) (g : TimeSt → TimeSt) : (s.modTime g).net = s.net := (rfl)
@[simp] theorem State.modTime_can0 (s : State) (g : TimeSt → TimeSt) : (s.modTime g).can0 = s.can0 := (rfl)
@[simp] theorem State.modTime_can1 (s : State) (g : TimeSt → TimeSt) : (s.modTime g).can1 = s.can1 := (rfl)
@[simp] theorem State.modTime_mbx (s : State) (g : TimeSt → TimeSt) : (s.modTime g).mbx = s.mbx := (rfl)
@[simp] theorem State.modTime_jrn (s : State) (g : TimeSt → TimeSt) : (s.modTime g).jrn = s.jrn := (rfl)
@[simp] theorem State.modTime_recd (s : State) (g : TimeSt → TimeSt) : (s.modTime g).recd = s.recd := (rfl)
@[simp] theorem State.modTime_pnl (s : State) (g : TimeSt → TimeSt) : (s.modTime g).pnl = s.pnl := (rfl)
@[simp] theorem State.modTime_pwr (s : State) (g : TimeSt → TimeSt) : (s.modTime g).pwr = s.pwr := (rfl)
@[simp] theorem State.modTime_tab (s : State) (g : TimeSt → TimeSt) : (s.modTime g).tab = s.tab := (rfl)
@[simp] theorem State.modTime_mgmt (s : State) (g : TimeSt → TimeSt) : (s.modTime g).mgmt = s.mgmt := (rfl)
@[simp] theorem State.modTime_reg (s : State) (g : TimeSt → TimeSt) (x : Nat) : (s.modTime g).reg x = s.reg x := (rfl)
@[simp] theorem State.modTime_rd (s : State) (g : TimeSt → TimeSt) (x : Nat) (y : Field) : (s.modTime g).rd x y = s.rd x y := (rfl)
@[simp] theorem State.modTime_rdw (s : State) (g : TimeSt → TimeSt) (x : Nat) (y : Field) : (s.modTime g).rdw x y = s.rdw x y := (rfl)
@[simp] theorem State.modTime_flag (s : State) (g : TimeSt → TimeSt) (x : Nat) (y : Field) : (s.modTime g).flag x y = s.flag x y := (rfl)
@[simp] theorem State.modTime_mst (s : State) (g : TimeSt → TimeSt) : (s.modTime g).mst = s.mst := (rfl)

@[simp] theorem State.modJrn_pending (s : State) (g : JournalSt → JournalSt) : (s.modJrn g).pending = s.pending := (rfl)
@[simp] theorem State.modJrn_regs (s : State) (g : JournalSt → JournalSt) : (s.modJrn g).regs = s.regs := (rfl)
@[simp] theorem State.modJrn_outbox (s : State) (g : JournalSt → JournalSt) : (s.modJrn g).outbox = s.outbox := (rfl)
@[simp] theorem State.modJrn_free (s : State) (g : JournalSt → JournalSt) : (s.modJrn g).free = s.free := (rfl)
@[simp] theorem State.modJrn_fab (s : State) (g : JournalSt → JournalSt) : (s.modJrn g).fab = s.fab := (rfl)
@[simp] theorem State.modJrn_img (s : State) (g : JournalSt → JournalSt) : (s.modJrn g).img = s.img := (rfl)
@[simp] theorem State.modJrn_toc (s : State) (g : JournalSt → JournalSt) : (s.modJrn g).toc = s.toc := (rfl)
@[simp] theorem State.modJrn_ucs (s : State) (g : JournalSt → JournalSt) : (s.modJrn g).ucs = s.ucs := (rfl)
@[simp] theorem State.modJrn_dps (s : State) (g : JournalSt → JournalSt) : (s.modJrn g).dps = s.dps := (rfl)
@[simp] theorem State.modJrn_axs (s : State) (g : JournalSt → JournalSt) : (s.modJrn g).axs = s.axs := (rfl)
@[simp] theorem State.modJrn_fld (s : State) (g : JournalSt → JournalSt) : (s.modJrn g).fld = s.fld := (rfl)
@[simp] theorem State.modJrn_chain (s : State) (g : JournalSt → JournalSt) : (s.modJrn g).chain = s.chain := (rfl)
@[simp] theorem State.modJrn_q (s : State) (g : JournalSt → JournalSt) : (s.modJrn g).q = s.q := (rfl)
@[simp] theorem State.modJrn_net (s : State) (g : JournalSt → JournalSt) : (s.modJrn g).net = s.net := (rfl)
@[simp] theorem State.modJrn_time (s : State) (g : JournalSt → JournalSt) : (s.modJrn g).time = s.time := (rfl)
@[simp] theorem State.modJrn_can0 (s : State) (g : JournalSt → JournalSt) : (s.modJrn g).can0 = s.can0 := (rfl)
@[simp] theorem State.modJrn_can1 (s : State) (g : JournalSt → JournalSt) : (s.modJrn g).can1 = s.can1 := (rfl)
@[simp] theorem State.modJrn_mbx (s : State) (g : JournalSt → JournalSt) : (s.modJrn g).mbx = s.mbx := (rfl)
@[simp] theorem State.modJrn_recd (s : State) (g : JournalSt → JournalSt) : (s.modJrn g).recd = s.recd := (rfl)
@[simp] theorem State.modJrn_pnl (s : State) (g : JournalSt → JournalSt) : (s.modJrn g).pnl = s.pnl := (rfl)
@[simp] theorem State.modJrn_pwr (s : State) (g : JournalSt → JournalSt) : (s.modJrn g).pwr = s.pwr := (rfl)
@[simp] theorem State.modJrn_tab (s : State) (g : JournalSt → JournalSt) : (s.modJrn g).tab = s.tab := (rfl)
@[simp] theorem State.modJrn_mgmt (s : State) (g : JournalSt → JournalSt) : (s.modJrn g).mgmt = s.mgmt := (rfl)
@[simp] theorem State.modJrn_reg (s : State) (g : JournalSt → JournalSt) (x : Nat) : (s.modJrn g).reg x = s.reg x := (rfl)
@[simp] theorem State.modJrn_rd (s : State) (g : JournalSt → JournalSt) (x : Nat) (y : Field) : (s.modJrn g).rd x y = s.rd x y := (rfl)
@[simp] theorem State.modJrn_rdw (s : State) (g : JournalSt → JournalSt) (x : Nat) (y : Field) : (s.modJrn g).rdw x y = s.rdw x y := (rfl)
@[simp] theorem State.modJrn_flag (s : State) (g : JournalSt → JournalSt) (x : Nat) (y : Field) : (s.modJrn g).flag x y = s.flag x y := (rfl)
@[simp] theorem State.modJrn_mst (s : State) (g : JournalSt → JournalSt) : (s.modJrn g).mst = s.mst := (rfl)

@[simp] theorem State.modRec_pending (s : State) (g : RecSt → RecSt) : (s.modRec g).pending = s.pending := (rfl)
@[simp] theorem State.modRec_regs (s : State) (g : RecSt → RecSt) : (s.modRec g).regs = s.regs := (rfl)
@[simp] theorem State.modRec_outbox (s : State) (g : RecSt → RecSt) : (s.modRec g).outbox = s.outbox := (rfl)
@[simp] theorem State.modRec_free (s : State) (g : RecSt → RecSt) : (s.modRec g).free = s.free := (rfl)
@[simp] theorem State.modRec_fab (s : State) (g : RecSt → RecSt) : (s.modRec g).fab = s.fab := (rfl)
@[simp] theorem State.modRec_img (s : State) (g : RecSt → RecSt) : (s.modRec g).img = s.img := (rfl)
@[simp] theorem State.modRec_toc (s : State) (g : RecSt → RecSt) : (s.modRec g).toc = s.toc := (rfl)
@[simp] theorem State.modRec_ucs (s : State) (g : RecSt → RecSt) : (s.modRec g).ucs = s.ucs := (rfl)
@[simp] theorem State.modRec_dps (s : State) (g : RecSt → RecSt) : (s.modRec g).dps = s.dps := (rfl)
@[simp] theorem State.modRec_axs (s : State) (g : RecSt → RecSt) : (s.modRec g).axs = s.axs := (rfl)
@[simp] theorem State.modRec_fld (s : State) (g : RecSt → RecSt) : (s.modRec g).fld = s.fld := (rfl)
@[simp] theorem State.modRec_chain (s : State) (g : RecSt → RecSt) : (s.modRec g).chain = s.chain := (rfl)
@[simp] theorem State.modRec_q (s : State) (g : RecSt → RecSt) : (s.modRec g).q = s.q := (rfl)
@[simp] theorem State.modRec_net (s : State) (g : RecSt → RecSt) : (s.modRec g).net = s.net := (rfl)
@[simp] theorem State.modRec_time (s : State) (g : RecSt → RecSt) : (s.modRec g).time = s.time := (rfl)
@[simp] theorem State.modRec_can0 (s : State) (g : RecSt → RecSt) : (s.modRec g).can0 = s.can0 := (rfl)
@[simp] theorem State.modRec_can1 (s : State) (g : RecSt → RecSt) : (s.modRec g).can1 = s.can1 := (rfl)
@[simp] theorem State.modRec_mbx (s : State) (g : RecSt → RecSt) : (s.modRec g).mbx = s.mbx := (rfl)
@[simp] theorem State.modRec_jrn (s : State) (g : RecSt → RecSt) : (s.modRec g).jrn = s.jrn := (rfl)
@[simp] theorem State.modRec_pnl (s : State) (g : RecSt → RecSt) : (s.modRec g).pnl = s.pnl := (rfl)
@[simp] theorem State.modRec_pwr (s : State) (g : RecSt → RecSt) : (s.modRec g).pwr = s.pwr := (rfl)
@[simp] theorem State.modRec_tab (s : State) (g : RecSt → RecSt) : (s.modRec g).tab = s.tab := (rfl)
@[simp] theorem State.modRec_mgmt (s : State) (g : RecSt → RecSt) : (s.modRec g).mgmt = s.mgmt := (rfl)
@[simp] theorem State.modRec_reg (s : State) (g : RecSt → RecSt) (x : Nat) : (s.modRec g).reg x = s.reg x := (rfl)
@[simp] theorem State.modRec_rd (s : State) (g : RecSt → RecSt) (x : Nat) (y : Field) : (s.modRec g).rd x y = s.rd x y := (rfl)
@[simp] theorem State.modRec_rdw (s : State) (g : RecSt → RecSt) (x : Nat) (y : Field) : (s.modRec g).rdw x y = s.rdw x y := (rfl)
@[simp] theorem State.modRec_flag (s : State) (g : RecSt → RecSt) (x : Nat) (y : Field) : (s.modRec g).flag x y = s.flag x y := (rfl)
@[simp] theorem State.modRec_mst (s : State) (g : RecSt → RecSt) : (s.modRec g).mst = s.mst := (rfl)

@[simp] theorem State.modPnl_pending (s : State) (g : PanelSt → PanelSt) : (s.modPnl g).pending = s.pending := (rfl)
@[simp] theorem State.modPnl_regs (s : State) (g : PanelSt → PanelSt) : (s.modPnl g).regs = s.regs := (rfl)
@[simp] theorem State.modPnl_outbox (s : State) (g : PanelSt → PanelSt) : (s.modPnl g).outbox = s.outbox := (rfl)
@[simp] theorem State.modPnl_free (s : State) (g : PanelSt → PanelSt) : (s.modPnl g).free = s.free := (rfl)
@[simp] theorem State.modPnl_fab (s : State) (g : PanelSt → PanelSt) : (s.modPnl g).fab = s.fab := (rfl)
@[simp] theorem State.modPnl_img (s : State) (g : PanelSt → PanelSt) : (s.modPnl g).img = s.img := (rfl)
@[simp] theorem State.modPnl_toc (s : State) (g : PanelSt → PanelSt) : (s.modPnl g).toc = s.toc := (rfl)
@[simp] theorem State.modPnl_ucs (s : State) (g : PanelSt → PanelSt) : (s.modPnl g).ucs = s.ucs := (rfl)
@[simp] theorem State.modPnl_dps (s : State) (g : PanelSt → PanelSt) : (s.modPnl g).dps = s.dps := (rfl)
@[simp] theorem State.modPnl_axs (s : State) (g : PanelSt → PanelSt) : (s.modPnl g).axs = s.axs := (rfl)
@[simp] theorem State.modPnl_fld (s : State) (g : PanelSt → PanelSt) : (s.modPnl g).fld = s.fld := (rfl)
@[simp] theorem State.modPnl_chain (s : State) (g : PanelSt → PanelSt) : (s.modPnl g).chain = s.chain := (rfl)
@[simp] theorem State.modPnl_q (s : State) (g : PanelSt → PanelSt) : (s.modPnl g).q = s.q := (rfl)
@[simp] theorem State.modPnl_net (s : State) (g : PanelSt → PanelSt) : (s.modPnl g).net = s.net := (rfl)
@[simp] theorem State.modPnl_time (s : State) (g : PanelSt → PanelSt) : (s.modPnl g).time = s.time := (rfl)
@[simp] theorem State.modPnl_can0 (s : State) (g : PanelSt → PanelSt) : (s.modPnl g).can0 = s.can0 := (rfl)
@[simp] theorem State.modPnl_can1 (s : State) (g : PanelSt → PanelSt) : (s.modPnl g).can1 = s.can1 := (rfl)
@[simp] theorem State.modPnl_mbx (s : State) (g : PanelSt → PanelSt) : (s.modPnl g).mbx = s.mbx := (rfl)
@[simp] theorem State.modPnl_jrn (s : State) (g : PanelSt → PanelSt) : (s.modPnl g).jrn = s.jrn := (rfl)
@[simp] theorem State.modPnl_recd (s : State) (g : PanelSt → PanelSt) : (s.modPnl g).recd = s.recd := (rfl)
@[simp] theorem State.modPnl_pwr (s : State) (g : PanelSt → PanelSt) : (s.modPnl g).pwr = s.pwr := (rfl)
@[simp] theorem State.modPnl_tab (s : State) (g : PanelSt → PanelSt) : (s.modPnl g).tab = s.tab := (rfl)
@[simp] theorem State.modPnl_mgmt (s : State) (g : PanelSt → PanelSt) : (s.modPnl g).mgmt = s.mgmt := (rfl)
@[simp] theorem State.modPnl_reg (s : State) (g : PanelSt → PanelSt) (x : Nat) : (s.modPnl g).reg x = s.reg x := (rfl)
@[simp] theorem State.modPnl_rd (s : State) (g : PanelSt → PanelSt) (x : Nat) (y : Field) : (s.modPnl g).rd x y = s.rd x y := (rfl)
@[simp] theorem State.modPnl_rdw (s : State) (g : PanelSt → PanelSt) (x : Nat) (y : Field) : (s.modPnl g).rdw x y = s.rdw x y := (rfl)
@[simp] theorem State.modPnl_flag (s : State) (g : PanelSt → PanelSt) (x : Nat) (y : Field) : (s.modPnl g).flag x y = s.flag x y := (rfl)
@[simp] theorem State.modPnl_mst (s : State) (g : PanelSt → PanelSt) : (s.modPnl g).mst = s.mst := (rfl)

@[simp] theorem State.modPwr_pending (s : State) (g : PowerSt → PowerSt) : (s.modPwr g).pending = s.pending := (rfl)
@[simp] theorem State.modPwr_regs (s : State) (g : PowerSt → PowerSt) : (s.modPwr g).regs = s.regs := (rfl)
@[simp] theorem State.modPwr_outbox (s : State) (g : PowerSt → PowerSt) : (s.modPwr g).outbox = s.outbox := (rfl)
@[simp] theorem State.modPwr_free (s : State) (g : PowerSt → PowerSt) : (s.modPwr g).free = s.free := (rfl)
@[simp] theorem State.modPwr_fab (s : State) (g : PowerSt → PowerSt) : (s.modPwr g).fab = s.fab := (rfl)
@[simp] theorem State.modPwr_img (s : State) (g : PowerSt → PowerSt) : (s.modPwr g).img = s.img := (rfl)
@[simp] theorem State.modPwr_toc (s : State) (g : PowerSt → PowerSt) : (s.modPwr g).toc = s.toc := (rfl)
@[simp] theorem State.modPwr_ucs (s : State) (g : PowerSt → PowerSt) : (s.modPwr g).ucs = s.ucs := (rfl)
@[simp] theorem State.modPwr_dps (s : State) (g : PowerSt → PowerSt) : (s.modPwr g).dps = s.dps := (rfl)
@[simp] theorem State.modPwr_axs (s : State) (g : PowerSt → PowerSt) : (s.modPwr g).axs = s.axs := (rfl)
@[simp] theorem State.modPwr_fld (s : State) (g : PowerSt → PowerSt) : (s.modPwr g).fld = s.fld := (rfl)
@[simp] theorem State.modPwr_chain (s : State) (g : PowerSt → PowerSt) : (s.modPwr g).chain = s.chain := (rfl)
@[simp] theorem State.modPwr_q (s : State) (g : PowerSt → PowerSt) : (s.modPwr g).q = s.q := (rfl)
@[simp] theorem State.modPwr_net (s : State) (g : PowerSt → PowerSt) : (s.modPwr g).net = s.net := (rfl)
@[simp] theorem State.modPwr_time (s : State) (g : PowerSt → PowerSt) : (s.modPwr g).time = s.time := (rfl)
@[simp] theorem State.modPwr_can0 (s : State) (g : PowerSt → PowerSt) : (s.modPwr g).can0 = s.can0 := (rfl)
@[simp] theorem State.modPwr_can1 (s : State) (g : PowerSt → PowerSt) : (s.modPwr g).can1 = s.can1 := (rfl)
@[simp] theorem State.modPwr_mbx (s : State) (g : PowerSt → PowerSt) : (s.modPwr g).mbx = s.mbx := (rfl)
@[simp] theorem State.modPwr_jrn (s : State) (g : PowerSt → PowerSt) : (s.modPwr g).jrn = s.jrn := (rfl)
@[simp] theorem State.modPwr_recd (s : State) (g : PowerSt → PowerSt) : (s.modPwr g).recd = s.recd := (rfl)
@[simp] theorem State.modPwr_pnl (s : State) (g : PowerSt → PowerSt) : (s.modPwr g).pnl = s.pnl := (rfl)
@[simp] theorem State.modPwr_tab (s : State) (g : PowerSt → PowerSt) : (s.modPwr g).tab = s.tab := (rfl)
@[simp] theorem State.modPwr_mgmt (s : State) (g : PowerSt → PowerSt) : (s.modPwr g).mgmt = s.mgmt := (rfl)
@[simp] theorem State.modPwr_reg (s : State) (g : PowerSt → PowerSt) (x : Nat) : (s.modPwr g).reg x = s.reg x := (rfl)
@[simp] theorem State.modPwr_rd (s : State) (g : PowerSt → PowerSt) (x : Nat) (y : Field) : (s.modPwr g).rd x y = s.rd x y := (rfl)
@[simp] theorem State.modPwr_rdw (s : State) (g : PowerSt → PowerSt) (x : Nat) (y : Field) : (s.modPwr g).rdw x y = s.rdw x y := (rfl)
@[simp] theorem State.modPwr_flag (s : State) (g : PowerSt → PowerSt) (x : Nat) (y : Field) : (s.modPwr g).flag x y = s.flag x y := (rfl)
@[simp] theorem State.modPwr_mst (s : State) (g : PowerSt → PowerSt) : (s.modPwr g).mst = s.mst := (rfl)

@[simp] theorem State.modTab_pending (s : State) (g : TaborSt → TaborSt) : (s.modTab g).pending = s.pending := (rfl)
@[simp] theorem State.modTab_regs (s : State) (g : TaborSt → TaborSt) : (s.modTab g).regs = s.regs := (rfl)
@[simp] theorem State.modTab_outbox (s : State) (g : TaborSt → TaborSt) : (s.modTab g).outbox = s.outbox := (rfl)
@[simp] theorem State.modTab_free (s : State) (g : TaborSt → TaborSt) : (s.modTab g).free = s.free := (rfl)
@[simp] theorem State.modTab_fab (s : State) (g : TaborSt → TaborSt) : (s.modTab g).fab = s.fab := (rfl)
@[simp] theorem State.modTab_img (s : State) (g : TaborSt → TaborSt) : (s.modTab g).img = s.img := (rfl)
@[simp] theorem State.modTab_toc (s : State) (g : TaborSt → TaborSt) : (s.modTab g).toc = s.toc := (rfl)
@[simp] theorem State.modTab_ucs (s : State) (g : TaborSt → TaborSt) : (s.modTab g).ucs = s.ucs := (rfl)
@[simp] theorem State.modTab_dps (s : State) (g : TaborSt → TaborSt) : (s.modTab g).dps = s.dps := (rfl)
@[simp] theorem State.modTab_axs (s : State) (g : TaborSt → TaborSt) : (s.modTab g).axs = s.axs := (rfl)
@[simp] theorem State.modTab_fld (s : State) (g : TaborSt → TaborSt) : (s.modTab g).fld = s.fld := (rfl)
@[simp] theorem State.modTab_chain (s : State) (g : TaborSt → TaborSt) : (s.modTab g).chain = s.chain := (rfl)
@[simp] theorem State.modTab_q (s : State) (g : TaborSt → TaborSt) : (s.modTab g).q = s.q := (rfl)
@[simp] theorem State.modTab_net (s : State) (g : TaborSt → TaborSt) : (s.modTab g).net = s.net := (rfl)
@[simp] theorem State.modTab_time (s : State) (g : TaborSt → TaborSt) : (s.modTab g).time = s.time := (rfl)
@[simp] theorem State.modTab_can0 (s : State) (g : TaborSt → TaborSt) : (s.modTab g).can0 = s.can0 := (rfl)
@[simp] theorem State.modTab_can1 (s : State) (g : TaborSt → TaborSt) : (s.modTab g).can1 = s.can1 := (rfl)
@[simp] theorem State.modTab_mbx (s : State) (g : TaborSt → TaborSt) : (s.modTab g).mbx = s.mbx := (rfl)
@[simp] theorem State.modTab_jrn (s : State) (g : TaborSt → TaborSt) : (s.modTab g).jrn = s.jrn := (rfl)
@[simp] theorem State.modTab_recd (s : State) (g : TaborSt → TaborSt) : (s.modTab g).recd = s.recd := (rfl)
@[simp] theorem State.modTab_pnl (s : State) (g : TaborSt → TaborSt) : (s.modTab g).pnl = s.pnl := (rfl)
@[simp] theorem State.modTab_pwr (s : State) (g : TaborSt → TaborSt) : (s.modTab g).pwr = s.pwr := (rfl)
@[simp] theorem State.modTab_mgmt (s : State) (g : TaborSt → TaborSt) : (s.modTab g).mgmt = s.mgmt := (rfl)
@[simp] theorem State.modTab_reg (s : State) (g : TaborSt → TaborSt) (x : Nat) : (s.modTab g).reg x = s.reg x := (rfl)
@[simp] theorem State.modTab_rd (s : State) (g : TaborSt → TaborSt) (x : Nat) (y : Field) : (s.modTab g).rd x y = s.rd x y := (rfl)
@[simp] theorem State.modTab_rdw (s : State) (g : TaborSt → TaborSt) (x : Nat) (y : Field) : (s.modTab g).rdw x y = s.rdw x y := (rfl)
@[simp] theorem State.modTab_flag (s : State) (g : TaborSt → TaborSt) (x : Nat) (y : Field) : (s.modTab g).flag x y = s.flag x y := (rfl)
@[simp] theorem State.modTab_mst (s : State) (g : TaborSt → TaborSt) : (s.modTab g).mst = s.mst := (rfl)

@[simp] theorem State.modMgmt_pending (s : State) (g : MgmtSt → MgmtSt) : (s.modMgmt g).pending = s.pending := (rfl)
@[simp] theorem State.modMgmt_regs (s : State) (g : MgmtSt → MgmtSt) : (s.modMgmt g).regs = s.regs := (rfl)
@[simp] theorem State.modMgmt_outbox (s : State) (g : MgmtSt → MgmtSt) : (s.modMgmt g).outbox = s.outbox := (rfl)
@[simp] theorem State.modMgmt_free (s : State) (g : MgmtSt → MgmtSt) : (s.modMgmt g).free = s.free := (rfl)
@[simp] theorem State.modMgmt_fab (s : State) (g : MgmtSt → MgmtSt) : (s.modMgmt g).fab = s.fab := (rfl)
@[simp] theorem State.modMgmt_img (s : State) (g : MgmtSt → MgmtSt) : (s.modMgmt g).img = s.img := (rfl)
@[simp] theorem State.modMgmt_toc (s : State) (g : MgmtSt → MgmtSt) : (s.modMgmt g).toc = s.toc := (rfl)
@[simp] theorem State.modMgmt_ucs (s : State) (g : MgmtSt → MgmtSt) : (s.modMgmt g).ucs = s.ucs := (rfl)
@[simp] theorem State.modMgmt_dps (s : State) (g : MgmtSt → MgmtSt) : (s.modMgmt g).dps = s.dps := (rfl)
@[simp] theorem State.modMgmt_axs (s : State) (g : MgmtSt → MgmtSt) : (s.modMgmt g).axs = s.axs := (rfl)
@[simp] theorem State.modMgmt_fld (s : State) (g : MgmtSt → MgmtSt) : (s.modMgmt g).fld = s.fld := (rfl)
@[simp] theorem State.modMgmt_chain (s : State) (g : MgmtSt → MgmtSt) : (s.modMgmt g).chain = s.chain := (rfl)
@[simp] theorem State.modMgmt_q (s : State) (g : MgmtSt → MgmtSt) : (s.modMgmt g).q = s.q := (rfl)
@[simp] theorem State.modMgmt_net (s : State) (g : MgmtSt → MgmtSt) : (s.modMgmt g).net = s.net := (rfl)
@[simp] theorem State.modMgmt_time (s : State) (g : MgmtSt → MgmtSt) : (s.modMgmt g).time = s.time := (rfl)
@[simp] theorem State.modMgmt_can0 (s : State) (g : MgmtSt → MgmtSt) : (s.modMgmt g).can0 = s.can0 := (rfl)
@[simp] theorem State.modMgmt_can1 (s : State) (g : MgmtSt → MgmtSt) : (s.modMgmt g).can1 = s.can1 := (rfl)
@[simp] theorem State.modMgmt_mbx (s : State) (g : MgmtSt → MgmtSt) : (s.modMgmt g).mbx = s.mbx := (rfl)
@[simp] theorem State.modMgmt_jrn (s : State) (g : MgmtSt → MgmtSt) : (s.modMgmt g).jrn = s.jrn := (rfl)
@[simp] theorem State.modMgmt_recd (s : State) (g : MgmtSt → MgmtSt) : (s.modMgmt g).recd = s.recd := (rfl)
@[simp] theorem State.modMgmt_pnl (s : State) (g : MgmtSt → MgmtSt) : (s.modMgmt g).pnl = s.pnl := (rfl)
@[simp] theorem State.modMgmt_pwr (s : State) (g : MgmtSt → MgmtSt) : (s.modMgmt g).pwr = s.pwr := (rfl)
@[simp] theorem State.modMgmt_tab (s : State) (g : MgmtSt → MgmtSt) : (s.modMgmt g).tab = s.tab := (rfl)
@[simp] theorem State.modMgmt_reg (s : State) (g : MgmtSt → MgmtSt) (x : Nat) : (s.modMgmt g).reg x = s.reg x := (rfl)
@[simp] theorem State.modMgmt_rd (s : State) (g : MgmtSt → MgmtSt) (x : Nat) (y : Field) : (s.modMgmt g).rd x y = s.rd x y := (rfl)
@[simp] theorem State.modMgmt_rdw (s : State) (g : MgmtSt → MgmtSt) (x : Nat) (y : Field) : (s.modMgmt g).rdw x y = s.rdw x y := (rfl)
@[simp] theorem State.modMgmt_flag (s : State) (g : MgmtSt → MgmtSt) (x : Nat) (y : Field) : (s.modMgmt g).flag x y = s.flag x y := (rfl)
@[simp] theorem State.modMgmt_mst (s : State) (g : MgmtSt → MgmtSt) : (s.modMgmt g).mst = s.mst := (rfl)

@[simp] theorem State.modCell_pending (s : State) (k : Nat) (g : CellSt → CellSt) : (s.modCell k g).pending = s.pending := (rfl)
@[simp] theorem State.modCell_regs (s : State) (k : Nat) (g : CellSt → CellSt) : (s.modCell k g).regs = s.regs := (rfl)
@[simp] theorem State.modCell_outbox (s : State) (k : Nat) (g : CellSt → CellSt) : (s.modCell k g).outbox = s.outbox := (rfl)
@[simp] theorem State.modCell_free (s : State) (k : Nat) (g : CellSt → CellSt) : (s.modCell k g).free = s.free := (rfl)
@[simp] theorem State.modCell_img (s : State) (k : Nat) (g : CellSt → CellSt) : (s.modCell k g).img = s.img := (rfl)
@[simp] theorem State.modCell_toc (s : State) (k : Nat) (g : CellSt → CellSt) : (s.modCell k g).toc = s.toc := (rfl)
@[simp] theorem State.modCell_ucs (s : State) (k : Nat) (g : CellSt → CellSt) : (s.modCell k g).ucs = s.ucs := (rfl)
@[simp] theorem State.modCell_dps (s : State) (k : Nat) (g : CellSt → CellSt) : (s.modCell k g).dps = s.dps := (rfl)
@[simp] theorem State.modCell_axs (s : State) (k : Nat) (g : CellSt → CellSt) : (s.modCell k g).axs = s.axs := (rfl)
@[simp] theorem State.modCell_fld (s : State) (k : Nat) (g : CellSt → CellSt) : (s.modCell k g).fld = s.fld := (rfl)
@[simp] theorem State.modCell_chain (s : State) (k : Nat) (g : CellSt → CellSt) : (s.modCell k g).chain = s.chain := (rfl)
@[simp] theorem State.modCell_q (s : State) (k : Nat) (g : CellSt → CellSt) : (s.modCell k g).q = s.q := (rfl)
@[simp] theorem State.modCell_net (s : State) (k : Nat) (g : CellSt → CellSt) : (s.modCell k g).net = s.net := (rfl)
@[simp] theorem State.modCell_time (s : State) (k : Nat) (g : CellSt → CellSt) : (s.modCell k g).time = s.time := (rfl)
@[simp] theorem State.modCell_can0 (s : State) (k : Nat) (g : CellSt → CellSt) : (s.modCell k g).can0 = s.can0 := (rfl)
@[simp] theorem State.modCell_can1 (s : State) (k : Nat) (g : CellSt → CellSt) : (s.modCell k g).can1 = s.can1 := (rfl)
@[simp] theorem State.modCell_mbx (s : State) (k : Nat) (g : CellSt → CellSt) : (s.modCell k g).mbx = s.mbx := (rfl)
@[simp] theorem State.modCell_jrn (s : State) (k : Nat) (g : CellSt → CellSt) : (s.modCell k g).jrn = s.jrn := (rfl)
@[simp] theorem State.modCell_recd (s : State) (k : Nat) (g : CellSt → CellSt) : (s.modCell k g).recd = s.recd := (rfl)
@[simp] theorem State.modCell_pnl (s : State) (k : Nat) (g : CellSt → CellSt) : (s.modCell k g).pnl = s.pnl := (rfl)
@[simp] theorem State.modCell_pwr (s : State) (k : Nat) (g : CellSt → CellSt) : (s.modCell k g).pwr = s.pwr := (rfl)
@[simp] theorem State.modCell_tab (s : State) (k : Nat) (g : CellSt → CellSt) : (s.modCell k g).tab = s.tab := (rfl)
@[simp] theorem State.modCell_mgmt (s : State) (k : Nat) (g : CellSt → CellSt) : (s.modCell k g).mgmt = s.mgmt := (rfl)
@[simp] theorem State.modCell_reg (s : State) (k : Nat) (g : CellSt → CellSt) (x : Nat) : (s.modCell k g).reg x = s.reg x := (rfl)
@[simp] theorem State.modCell_rd (s : State) (k : Nat) (g : CellSt → CellSt) (x : Nat) (y : Field) : (s.modCell k g).rd x y = s.rd x y := (rfl)
@[simp] theorem State.modCell_rdw (s : State) (k : Nat) (g : CellSt → CellSt) (x : Nat) (y : Field) : (s.modCell k g).rdw x y = s.rdw x y := (rfl)
@[simp] theorem State.modCell_flag (s : State) (k : Nat) (g : CellSt → CellSt) (x : Nat) (y : Field) : (s.modCell k g).flag x y = s.flag x y := (rfl)
@[simp] theorem State.modCell_mst (s : State) (k : Nat) (g : CellSt → CellSt) : (s.modCell k g).mst = s.mst := (rfl)

@[simp] theorem State.modUc_pending (s : State) (k : Nat) (g : UcSt → UcSt) : (s.modUc k g).pending = s.pending := (rfl)
@[simp] theorem State.modUc_regs (s : State) (k : Nat) (g : UcSt → UcSt) : (s.modUc k g).regs = s.regs := (rfl)
@[simp] theorem State.modUc_outbox (s : State) (k : Nat) (g : UcSt → UcSt) : (s.modUc k g).outbox = s.outbox := (rfl)
@[simp] theorem State.modUc_free (s : State) (k : Nat) (g : UcSt → UcSt) : (s.modUc k g).free = s.free := (rfl)
@[simp] theorem State.modUc_fab (s : State) (k : Nat) (g : UcSt → UcSt) : (s.modUc k g).fab = s.fab := (rfl)
@[simp] theorem State.modUc_img (s : State) (k : Nat) (g : UcSt → UcSt) : (s.modUc k g).img = s.img := (rfl)
@[simp] theorem State.modUc_toc (s : State) (k : Nat) (g : UcSt → UcSt) : (s.modUc k g).toc = s.toc := (rfl)
@[simp] theorem State.modUc_dps (s : State) (k : Nat) (g : UcSt → UcSt) : (s.modUc k g).dps = s.dps := (rfl)
@[simp] theorem State.modUc_axs (s : State) (k : Nat) (g : UcSt → UcSt) : (s.modUc k g).axs = s.axs := (rfl)
@[simp] theorem State.modUc_fld (s : State) (k : Nat) (g : UcSt → UcSt) : (s.modUc k g).fld = s.fld := (rfl)
@[simp] theorem State.modUc_chain (s : State) (k : Nat) (g : UcSt → UcSt) : (s.modUc k g).chain = s.chain := (rfl)
@[simp] theorem State.modUc_q (s : State) (k : Nat) (g : UcSt → UcSt) : (s.modUc k g).q = s.q := (rfl)
@[simp] theorem State.modUc_net (s : State) (k : Nat) (g : UcSt → UcSt) : (s.modUc k g).net = s.net := (rfl)
@[simp] theorem State.modUc_time (s : State) (k : Nat) (g : UcSt → UcSt) : (s.modUc k g).time = s.time := (rfl)
@[simp] theorem State.modUc_can0 (s : State) (k : Nat) (g : UcSt → UcSt) : (s.modUc k g).can0 = s.can0 := (rfl)
@[simp] theorem State.modUc_can1 (s : State) (k : Nat) (g : UcSt → UcSt) : (s.modUc k g).can1 = s.can1 := (rfl)
@[simp] theorem State.modUc_mbx (s : State) (k : Nat) (g : UcSt → UcSt) : (s.modUc k g).mbx = s.mbx := (rfl)
@[simp] theorem State.modUc_jrn (s : State) (k : Nat) (g : UcSt → UcSt) : (s.modUc k g).jrn = s.jrn := (rfl)
@[simp] theorem State.modUc_recd (s : State) (k : Nat) (g : UcSt → UcSt) : (s.modUc k g).recd = s.recd := (rfl)
@[simp] theorem State.modUc_pnl (s : State) (k : Nat) (g : UcSt → UcSt) : (s.modUc k g).pnl = s.pnl := (rfl)
@[simp] theorem State.modUc_pwr (s : State) (k : Nat) (g : UcSt → UcSt) : (s.modUc k g).pwr = s.pwr := (rfl)
@[simp] theorem State.modUc_tab (s : State) (k : Nat) (g : UcSt → UcSt) : (s.modUc k g).tab = s.tab := (rfl)
@[simp] theorem State.modUc_mgmt (s : State) (k : Nat) (g : UcSt → UcSt) : (s.modUc k g).mgmt = s.mgmt := (rfl)
@[simp] theorem State.modUc_reg (s : State) (k : Nat) (g : UcSt → UcSt) (x : Nat) : (s.modUc k g).reg x = s.reg x := (rfl)
@[simp] theorem State.modUc_rd (s : State) (k : Nat) (g : UcSt → UcSt) (x : Nat) (y : Field) : (s.modUc k g).rd x y = s.rd x y := (rfl)
@[simp] theorem State.modUc_rdw (s : State) (k : Nat) (g : UcSt → UcSt) (x : Nat) (y : Field) : (s.modUc k g).rdw x y = s.rdw x y := (rfl)
@[simp] theorem State.modUc_flag (s : State) (k : Nat) (g : UcSt → UcSt) (x : Nat) (y : Field) : (s.modUc k g).flag x y = s.flag x y := (rfl)
@[simp] theorem State.modUc_mst (s : State) (k : Nat) (g : UcSt → UcSt) : (s.modUc k g).mst = s.mst := (rfl)

@[simp] theorem State.modDp_pending (s : State) (k : Nat) (g : DpSt → DpSt) : (s.modDp k g).pending = s.pending := (rfl)
@[simp] theorem State.modDp_regs (s : State) (k : Nat) (g : DpSt → DpSt) : (s.modDp k g).regs = s.regs := (rfl)
@[simp] theorem State.modDp_outbox (s : State) (k : Nat) (g : DpSt → DpSt) : (s.modDp k g).outbox = s.outbox := (rfl)
@[simp] theorem State.modDp_free (s : State) (k : Nat) (g : DpSt → DpSt) : (s.modDp k g).free = s.free := (rfl)
@[simp] theorem State.modDp_fab (s : State) (k : Nat) (g : DpSt → DpSt) : (s.modDp k g).fab = s.fab := (rfl)
@[simp] theorem State.modDp_img (s : State) (k : Nat) (g : DpSt → DpSt) : (s.modDp k g).img = s.img := (rfl)
@[simp] theorem State.modDp_toc (s : State) (k : Nat) (g : DpSt → DpSt) : (s.modDp k g).toc = s.toc := (rfl)
@[simp] theorem State.modDp_ucs (s : State) (k : Nat) (g : DpSt → DpSt) : (s.modDp k g).ucs = s.ucs := (rfl)
@[simp] theorem State.modDp_axs (s : State) (k : Nat) (g : DpSt → DpSt) : (s.modDp k g).axs = s.axs := (rfl)
@[simp] theorem State.modDp_fld (s : State) (k : Nat) (g : DpSt → DpSt) : (s.modDp k g).fld = s.fld := (rfl)
@[simp] theorem State.modDp_chain (s : State) (k : Nat) (g : DpSt → DpSt) : (s.modDp k g).chain = s.chain := (rfl)
@[simp] theorem State.modDp_q (s : State) (k : Nat) (g : DpSt → DpSt) : (s.modDp k g).q = s.q := (rfl)
@[simp] theorem State.modDp_net (s : State) (k : Nat) (g : DpSt → DpSt) : (s.modDp k g).net = s.net := (rfl)
@[simp] theorem State.modDp_time (s : State) (k : Nat) (g : DpSt → DpSt) : (s.modDp k g).time = s.time := (rfl)
@[simp] theorem State.modDp_can0 (s : State) (k : Nat) (g : DpSt → DpSt) : (s.modDp k g).can0 = s.can0 := (rfl)
@[simp] theorem State.modDp_can1 (s : State) (k : Nat) (g : DpSt → DpSt) : (s.modDp k g).can1 = s.can1 := (rfl)
@[simp] theorem State.modDp_mbx (s : State) (k : Nat) (g : DpSt → DpSt) : (s.modDp k g).mbx = s.mbx := (rfl)
@[simp] theorem State.modDp_jrn (s : State) (k : Nat) (g : DpSt → DpSt) : (s.modDp k g).jrn = s.jrn := (rfl)
@[simp] theorem State.modDp_recd (s : State) (k : Nat) (g : DpSt → DpSt) : (s.modDp k g).recd = s.recd := (rfl)
@[simp] theorem State.modDp_pnl (s : State) (k : Nat) (g : DpSt → DpSt) : (s.modDp k g).pnl = s.pnl := (rfl)
@[simp] theorem State.modDp_pwr (s : State) (k : Nat) (g : DpSt → DpSt) : (s.modDp k g).pwr = s.pwr := (rfl)
@[simp] theorem State.modDp_tab (s : State) (k : Nat) (g : DpSt → DpSt) : (s.modDp k g).tab = s.tab := (rfl)
@[simp] theorem State.modDp_mgmt (s : State) (k : Nat) (g : DpSt → DpSt) : (s.modDp k g).mgmt = s.mgmt := (rfl)
@[simp] theorem State.modDp_reg (s : State) (k : Nat) (g : DpSt → DpSt) (x : Nat) : (s.modDp k g).reg x = s.reg x := (rfl)
@[simp] theorem State.modDp_rd (s : State) (k : Nat) (g : DpSt → DpSt) (x : Nat) (y : Field) : (s.modDp k g).rd x y = s.rd x y := (rfl)
@[simp] theorem State.modDp_rdw (s : State) (k : Nat) (g : DpSt → DpSt) (x : Nat) (y : Field) : (s.modDp k g).rdw x y = s.rdw x y := (rfl)
@[simp] theorem State.modDp_flag (s : State) (k : Nat) (g : DpSt → DpSt) (x : Nat) (y : Field) : (s.modDp k g).flag x y = s.flag x y := (rfl)
@[simp] theorem State.modDp_mst (s : State) (k : Nat) (g : DpSt → DpSt) : (s.modDp k g).mst = s.mst := (rfl)

@[simp] theorem State.modAx_pending (s : State) (k : Nat) (g : AxSt → AxSt) : (s.modAx k g).pending = s.pending := (rfl)
@[simp] theorem State.modAx_regs (s : State) (k : Nat) (g : AxSt → AxSt) : (s.modAx k g).regs = s.regs := (rfl)
@[simp] theorem State.modAx_outbox (s : State) (k : Nat) (g : AxSt → AxSt) : (s.modAx k g).outbox = s.outbox := (rfl)
@[simp] theorem State.modAx_free (s : State) (k : Nat) (g : AxSt → AxSt) : (s.modAx k g).free = s.free := (rfl)
@[simp] theorem State.modAx_fab (s : State) (k : Nat) (g : AxSt → AxSt) : (s.modAx k g).fab = s.fab := (rfl)
@[simp] theorem State.modAx_img (s : State) (k : Nat) (g : AxSt → AxSt) : (s.modAx k g).img = s.img := (rfl)
@[simp] theorem State.modAx_toc (s : State) (k : Nat) (g : AxSt → AxSt) : (s.modAx k g).toc = s.toc := (rfl)
@[simp] theorem State.modAx_ucs (s : State) (k : Nat) (g : AxSt → AxSt) : (s.modAx k g).ucs = s.ucs := (rfl)
@[simp] theorem State.modAx_dps (s : State) (k : Nat) (g : AxSt → AxSt) : (s.modAx k g).dps = s.dps := (rfl)
@[simp] theorem State.modAx_fld (s : State) (k : Nat) (g : AxSt → AxSt) : (s.modAx k g).fld = s.fld := (rfl)
@[simp] theorem State.modAx_chain (s : State) (k : Nat) (g : AxSt → AxSt) : (s.modAx k g).chain = s.chain := (rfl)
@[simp] theorem State.modAx_q (s : State) (k : Nat) (g : AxSt → AxSt) : (s.modAx k g).q = s.q := (rfl)
@[simp] theorem State.modAx_net (s : State) (k : Nat) (g : AxSt → AxSt) : (s.modAx k g).net = s.net := (rfl)
@[simp] theorem State.modAx_time (s : State) (k : Nat) (g : AxSt → AxSt) : (s.modAx k g).time = s.time := (rfl)
@[simp] theorem State.modAx_can0 (s : State) (k : Nat) (g : AxSt → AxSt) : (s.modAx k g).can0 = s.can0 := (rfl)
@[simp] theorem State.modAx_can1 (s : State) (k : Nat) (g : AxSt → AxSt) : (s.modAx k g).can1 = s.can1 := (rfl)
@[simp] theorem State.modAx_mbx (s : State) (k : Nat) (g : AxSt → AxSt) : (s.modAx k g).mbx = s.mbx := (rfl)
@[simp] theorem State.modAx_jrn (s : State) (k : Nat) (g : AxSt → AxSt) : (s.modAx k g).jrn = s.jrn := (rfl)
@[simp] theorem State.modAx_recd (s : State) (k : Nat) (g : AxSt → AxSt) : (s.modAx k g).recd = s.recd := (rfl)
@[simp] theorem State.modAx_pnl (s : State) (k : Nat) (g : AxSt → AxSt) : (s.modAx k g).pnl = s.pnl := (rfl)
@[simp] theorem State.modAx_pwr (s : State) (k : Nat) (g : AxSt → AxSt) : (s.modAx k g).pwr = s.pwr := (rfl)
@[simp] theorem State.modAx_tab (s : State) (k : Nat) (g : AxSt → AxSt) : (s.modAx k g).tab = s.tab := (rfl)
@[simp] theorem State.modAx_mgmt (s : State) (k : Nat) (g : AxSt → AxSt) : (s.modAx k g).mgmt = s.mgmt := (rfl)
@[simp] theorem State.modAx_reg (s : State) (k : Nat) (g : AxSt → AxSt) (x : Nat) : (s.modAx k g).reg x = s.reg x := (rfl)
@[simp] theorem State.modAx_rd (s : State) (k : Nat) (g : AxSt → AxSt) (x : Nat) (y : Field) : (s.modAx k g).rd x y = s.rd x y := (rfl)
@[simp] theorem State.modAx_rdw (s : State) (k : Nat) (g : AxSt → AxSt) (x : Nat) (y : Field) : (s.modAx k g).rdw x y = s.rdw x y := (rfl)
@[simp] theorem State.modAx_flag (s : State) (k : Nat) (g : AxSt → AxSt) (x : Nat) (y : Field) : (s.modAx k g).flag x y = s.flag x y := (rfl)
@[simp] theorem State.modAx_mst (s : State) (k : Nat) (g : AxSt → AxSt) : (s.modAx k g).mst = s.mst := (rfl)

@[simp] theorem State.modMb_pending (s : State) (k : Nat) (g : MbxSt → MbxSt) : (s.modMb k g).pending = s.pending := (rfl)
@[simp] theorem State.modMb_regs (s : State) (k : Nat) (g : MbxSt → MbxSt) : (s.modMb k g).regs = s.regs := (rfl)
@[simp] theorem State.modMb_outbox (s : State) (k : Nat) (g : MbxSt → MbxSt) : (s.modMb k g).outbox = s.outbox := (rfl)
@[simp] theorem State.modMb_free (s : State) (k : Nat) (g : MbxSt → MbxSt) : (s.modMb k g).free = s.free := (rfl)
@[simp] theorem State.modMb_fab (s : State) (k : Nat) (g : MbxSt → MbxSt) : (s.modMb k g).fab = s.fab := (rfl)
@[simp] theorem State.modMb_img (s : State) (k : Nat) (g : MbxSt → MbxSt) : (s.modMb k g).img = s.img := (rfl)
@[simp] theorem State.modMb_toc (s : State) (k : Nat) (g : MbxSt → MbxSt) : (s.modMb k g).toc = s.toc := (rfl)
@[simp] theorem State.modMb_ucs (s : State) (k : Nat) (g : MbxSt → MbxSt) : (s.modMb k g).ucs = s.ucs := (rfl)
@[simp] theorem State.modMb_dps (s : State) (k : Nat) (g : MbxSt → MbxSt) : (s.modMb k g).dps = s.dps := (rfl)
@[simp] theorem State.modMb_axs (s : State) (k : Nat) (g : MbxSt → MbxSt) : (s.modMb k g).axs = s.axs := (rfl)
@[simp] theorem State.modMb_fld (s : State) (k : Nat) (g : MbxSt → MbxSt) : (s.modMb k g).fld = s.fld := (rfl)
@[simp] theorem State.modMb_chain (s : State) (k : Nat) (g : MbxSt → MbxSt) : (s.modMb k g).chain = s.chain := (rfl)
@[simp] theorem State.modMb_q (s : State) (k : Nat) (g : MbxSt → MbxSt) : (s.modMb k g).q = s.q := (rfl)
@[simp] theorem State.modMb_net (s : State) (k : Nat) (g : MbxSt → MbxSt) : (s.modMb k g).net = s.net := (rfl)
@[simp] theorem State.modMb_time (s : State) (k : Nat) (g : MbxSt → MbxSt) : (s.modMb k g).time = s.time := (rfl)
@[simp] theorem State.modMb_can0 (s : State) (k : Nat) (g : MbxSt → MbxSt) : (s.modMb k g).can0 = s.can0 := (rfl)
@[simp] theorem State.modMb_can1 (s : State) (k : Nat) (g : MbxSt → MbxSt) : (s.modMb k g).can1 = s.can1 := (rfl)
@[simp] theorem State.modMb_jrn (s : State) (k : Nat) (g : MbxSt → MbxSt) : (s.modMb k g).jrn = s.jrn := (rfl)
@[simp] theorem State.modMb_recd (s : State) (k : Nat) (g : MbxSt → MbxSt) : (s.modMb k g).recd = s.recd := (rfl)
@[simp] theorem State.modMb_pnl (s : State) (k : Nat) (g : MbxSt → MbxSt) : (s.modMb k g).pnl = s.pnl := (rfl)
@[simp] theorem State.modMb_pwr (s : State) (k : Nat) (g : MbxSt → MbxSt) : (s.modMb k g).pwr = s.pwr := (rfl)
@[simp] theorem State.modMb_tab (s : State) (k : Nat) (g : MbxSt → MbxSt) : (s.modMb k g).tab = s.tab := (rfl)
@[simp] theorem State.modMb_mgmt (s : State) (k : Nat) (g : MbxSt → MbxSt) : (s.modMb k g).mgmt = s.mgmt := (rfl)
@[simp] theorem State.modMb_reg (s : State) (k : Nat) (g : MbxSt → MbxSt) (x : Nat) : (s.modMb k g).reg x = s.reg x := (rfl)
@[simp] theorem State.modMb_rd (s : State) (k : Nat) (g : MbxSt → MbxSt) (x : Nat) (y : Field) : (s.modMb k g).rd x y = s.rd x y := (rfl)
@[simp] theorem State.modMb_rdw (s : State) (k : Nat) (g : MbxSt → MbxSt) (x : Nat) (y : Field) : (s.modMb k g).rdw x y = s.rdw x y := (rfl)
@[simp] theorem State.modMb_flag (s : State) (k : Nat) (g : MbxSt → MbxSt) (x : Nat) (y : Field) : (s.modMb k g).flag x y = s.flag x y := (rfl)
@[simp] theorem State.modMb_mst (s : State) (k : Nat) (g : MbxSt → MbxSt) : (s.modMb k g).mst = s.mst := (rfl)

@[simp] theorem State.modFc_pending (s : State) (k : Nat) (g : FcSt → FcSt) : (s.modFc k g).pending = s.pending := (rfl)
@[simp] theorem State.modFc_regs (s : State) (k : Nat) (g : FcSt → FcSt) : (s.modFc k g).regs = s.regs := (rfl)
@[simp] theorem State.modFc_outbox (s : State) (k : Nat) (g : FcSt → FcSt) : (s.modFc k g).outbox = s.outbox := (rfl)
@[simp] theorem State.modFc_free (s : State) (k : Nat) (g : FcSt → FcSt) : (s.modFc k g).free = s.free := (rfl)
@[simp] theorem State.modFc_img (s : State) (k : Nat) (g : FcSt → FcSt) : (s.modFc k g).img = s.img := (rfl)
@[simp] theorem State.modFc_toc (s : State) (k : Nat) (g : FcSt → FcSt) : (s.modFc k g).toc = s.toc := (rfl)
@[simp] theorem State.modFc_ucs (s : State) (k : Nat) (g : FcSt → FcSt) : (s.modFc k g).ucs = s.ucs := (rfl)
@[simp] theorem State.modFc_dps (s : State) (k : Nat) (g : FcSt → FcSt) : (s.modFc k g).dps = s.dps := (rfl)
@[simp] theorem State.modFc_axs (s : State) (k : Nat) (g : FcSt → FcSt) : (s.modFc k g).axs = s.axs := (rfl)
@[simp] theorem State.modFc_fld (s : State) (k : Nat) (g : FcSt → FcSt) : (s.modFc k g).fld = s.fld := (rfl)
@[simp] theorem State.modFc_chain (s : State) (k : Nat) (g : FcSt → FcSt) : (s.modFc k g).chain = s.chain := (rfl)
@[simp] theorem State.modFc_q (s : State) (k : Nat) (g : FcSt → FcSt) : (s.modFc k g).q = s.q := (rfl)
@[simp] theorem State.modFc_net (s : State) (k : Nat) (g : FcSt → FcSt) : (s.modFc k g).net = s.net := (rfl)
@[simp] theorem State.modFc_time (s : State) (k : Nat) (g : FcSt → FcSt) : (s.modFc k g).time = s.time := (rfl)
@[simp] theorem State.modFc_can0 (s : State) (k : Nat) (g : FcSt → FcSt) : (s.modFc k g).can0 = s.can0 := (rfl)
@[simp] theorem State.modFc_can1 (s : State) (k : Nat) (g : FcSt → FcSt) : (s.modFc k g).can1 = s.can1 := (rfl)
@[simp] theorem State.modFc_mbx (s : State) (k : Nat) (g : FcSt → FcSt) : (s.modFc k g).mbx = s.mbx := (rfl)
@[simp] theorem State.modFc_jrn (s : State) (k : Nat) (g : FcSt → FcSt) : (s.modFc k g).jrn = s.jrn := (rfl)
@[simp] theorem State.modFc_recd (s : State) (k : Nat) (g : FcSt → FcSt) : (s.modFc k g).recd = s.recd := (rfl)
@[simp] theorem State.modFc_pnl (s : State) (k : Nat) (g : FcSt → FcSt) : (s.modFc k g).pnl = s.pnl := (rfl)
@[simp] theorem State.modFc_pwr (s : State) (k : Nat) (g : FcSt → FcSt) : (s.modFc k g).pwr = s.pwr := (rfl)
@[simp] theorem State.modFc_tab (s : State) (k : Nat) (g : FcSt → FcSt) : (s.modFc k g).tab = s.tab := (rfl)
@[simp] theorem State.modFc_mgmt (s : State) (k : Nat) (g : FcSt → FcSt) : (s.modFc k g).mgmt = s.mgmt := (rfl)
@[simp] theorem State.modFc_reg (s : State) (k : Nat) (g : FcSt → FcSt) (x : Nat) : (s.modFc k g).reg x = s.reg x := (rfl)
@[simp] theorem State.modFc_rd (s : State) (k : Nat) (g : FcSt → FcSt) (x : Nat) (y : Field) : (s.modFc k g).rd x y = s.rd x y := (rfl)
@[simp] theorem State.modFc_rdw (s : State) (k : Nat) (g : FcSt → FcSt) (x : Nat) (y : Field) : (s.modFc k g).rdw x y = s.rdw x y := (rfl)
@[simp] theorem State.modFc_flag (s : State) (k : Nat) (g : FcSt → FcSt) (x : Nat) (y : Field) : (s.modFc k g).flag x y = s.flag x y := (rfl)
@[simp] theorem State.modFc_mst (s : State) (k : Nat) (g : FcSt → FcSt) : (s.modFc k g).mst = s.mst := (rfl)

@[simp] theorem State.modLp_pending (s : State) (k : Nat) (g : LoopSt → LoopSt) : (s.modLp k g).pending = s.pending := (rfl)
@[simp] theorem State.modLp_regs (s : State) (k : Nat) (g : LoopSt → LoopSt) : (s.modLp k g).regs = s.regs := (rfl)
@[simp] theorem State.modLp_outbox (s : State) (k : Nat) (g : LoopSt → LoopSt) : (s.modLp k g).outbox = s.outbox := (rfl)
@[simp] theorem State.modLp_free (s : State) (k : Nat) (g : LoopSt → LoopSt) : (s.modLp k g).free = s.free := (rfl)
@[simp] theorem State.modLp_img (s : State) (k : Nat) (g : LoopSt → LoopSt) : (s.modLp k g).img = s.img := (rfl)
@[simp] theorem State.modLp_toc (s : State) (k : Nat) (g : LoopSt → LoopSt) : (s.modLp k g).toc = s.toc := (rfl)
@[simp] theorem State.modLp_ucs (s : State) (k : Nat) (g : LoopSt → LoopSt) : (s.modLp k g).ucs = s.ucs := (rfl)
@[simp] theorem State.modLp_dps (s : State) (k : Nat) (g : LoopSt → LoopSt) : (s.modLp k g).dps = s.dps := (rfl)
@[simp] theorem State.modLp_axs (s : State) (k : Nat) (g : LoopSt → LoopSt) : (s.modLp k g).axs = s.axs := (rfl)
@[simp] theorem State.modLp_fld (s : State) (k : Nat) (g : LoopSt → LoopSt) : (s.modLp k g).fld = s.fld := (rfl)
@[simp] theorem State.modLp_chain (s : State) (k : Nat) (g : LoopSt → LoopSt) : (s.modLp k g).chain = s.chain := (rfl)
@[simp] theorem State.modLp_q (s : State) (k : Nat) (g : LoopSt → LoopSt) : (s.modLp k g).q = s.q := (rfl)
@[simp] theorem State.modLp_net (s : State) (k : Nat) (g : LoopSt → LoopSt) : (s.modLp k g).net = s.net := (rfl)
@[simp] theorem State.modLp_time (s : State) (k : Nat) (g : LoopSt → LoopSt) : (s.modLp k g).time = s.time := (rfl)
@[simp] theorem State.modLp_can0 (s : State) (k : Nat) (g : LoopSt → LoopSt) : (s.modLp k g).can0 = s.can0 := (rfl)
@[simp] theorem State.modLp_can1 (s : State) (k : Nat) (g : LoopSt → LoopSt) : (s.modLp k g).can1 = s.can1 := (rfl)
@[simp] theorem State.modLp_mbx (s : State) (k : Nat) (g : LoopSt → LoopSt) : (s.modLp k g).mbx = s.mbx := (rfl)
@[simp] theorem State.modLp_jrn (s : State) (k : Nat) (g : LoopSt → LoopSt) : (s.modLp k g).jrn = s.jrn := (rfl)
@[simp] theorem State.modLp_recd (s : State) (k : Nat) (g : LoopSt → LoopSt) : (s.modLp k g).recd = s.recd := (rfl)
@[simp] theorem State.modLp_pnl (s : State) (k : Nat) (g : LoopSt → LoopSt) : (s.modLp k g).pnl = s.pnl := (rfl)
@[simp] theorem State.modLp_pwr (s : State) (k : Nat) (g : LoopSt → LoopSt) : (s.modLp k g).pwr = s.pwr := (rfl)
@[simp] theorem State.modLp_tab (s : State) (k : Nat) (g : LoopSt → LoopSt) : (s.modLp k g).tab = s.tab := (rfl)
@[simp] theorem State.modLp_mgmt (s : State) (k : Nat) (g : LoopSt → LoopSt) : (s.modLp k g).mgmt = s.mgmt := (rfl)
@[simp] theorem State.modLp_reg (s : State) (k : Nat) (g : LoopSt → LoopSt) (x : Nat) : (s.modLp k g).reg x = s.reg x := (rfl)
@[simp] theorem State.modLp_rd (s : State) (k : Nat) (g : LoopSt → LoopSt) (x : Nat) (y : Field) : (s.modLp k g).rd x y = s.rd x y := (rfl)
@[simp] theorem State.modLp_rdw (s : State) (k : Nat) (g : LoopSt → LoopSt) (x : Nat) (y : Field) : (s.modLp k g).rdw x y = s.rdw x y := (rfl)
@[simp] theorem State.modLp_flag (s : State) (k : Nat) (g : LoopSt → LoopSt) (x : Nat) (y : Field) : (s.modLp k g).flag x y = s.flag x y := (rfl)
@[simp] theorem State.modLp_mst (s : State) (k : Nat) (g : LoopSt → LoopSt) : (s.modLp k g).mst = s.mst := (rfl)

@[simp] theorem State.modPh_pending (s : State) (k : Nat) (g : PhasorSt → PhasorSt) : (s.modPh k g).pending = s.pending := (rfl)
@[simp] theorem State.modPh_regs (s : State) (k : Nat) (g : PhasorSt → PhasorSt) : (s.modPh k g).regs = s.regs := (rfl)
@[simp] theorem State.modPh_outbox (s : State) (k : Nat) (g : PhasorSt → PhasorSt) : (s.modPh k g).outbox = s.outbox := (rfl)
@[simp] theorem State.modPh_free (s : State) (k : Nat) (g : PhasorSt → PhasorSt) : (s.modPh k g).free = s.free := (rfl)
@[simp] theorem State.modPh_img (s : State) (k : Nat) (g : PhasorSt → PhasorSt) : (s.modPh k g).img = s.img := (rfl)
@[simp] theorem State.modPh_toc (s : State) (k : Nat) (g : PhasorSt → PhasorSt) : (s.modPh k g).toc = s.toc := (rfl)
@[simp] theorem State.modPh_ucs (s : State) (k : Nat) (g : PhasorSt → PhasorSt) : (s.modPh k g).ucs = s.ucs := (rfl)
@[simp] theorem State.modPh_dps (s : State) (k : Nat) (g : PhasorSt → PhasorSt) : (s.modPh k g).dps = s.dps := (rfl)
@[simp] theorem State.modPh_axs (s : State) (k : Nat) (g : PhasorSt → PhasorSt) : (s.modPh k g).axs = s.axs := (rfl)
@[simp] theorem State.modPh_fld (s : State) (k : Nat) (g : PhasorSt → PhasorSt) : (s.modPh k g).fld = s.fld := (rfl)
@[simp] theorem State.modPh_chain (s : State) (k : Nat) (g : PhasorSt → PhasorSt) : (s.modPh k g).chain = s.chain := (rfl)
@[simp] theorem State.modPh_q (s : State) (k : Nat) (g : PhasorSt → PhasorSt) : (s.modPh k g).q = s.q := (rfl)
@[simp] theorem State.modPh_net (s : State) (k : Nat) (g : PhasorSt → PhasorSt) : (s.modPh k g).net = s.net := (rfl)
@[simp] theorem State.modPh_time (s : State) (k : Nat) (g : PhasorSt → PhasorSt) : (s.modPh k g).time = s.time := (rfl)
@[simp] theorem State.modPh_can0 (s : State) (k : Nat) (g : PhasorSt → PhasorSt) : (s.modPh k g).can0 = s.can0 := (rfl)
@[simp] theorem State.modPh_can1 (s : State) (k : Nat) (g : PhasorSt → PhasorSt) : (s.modPh k g).can1 = s.can1 := (rfl)
@[simp] theorem State.modPh_mbx (s : State) (k : Nat) (g : PhasorSt → PhasorSt) : (s.modPh k g).mbx = s.mbx := (rfl)
@[simp] theorem State.modPh_jrn (s : State) (k : Nat) (g : PhasorSt → PhasorSt) : (s.modPh k g).jrn = s.jrn := (rfl)
@[simp] theorem State.modPh_recd (s : State) (k : Nat) (g : PhasorSt → PhasorSt) : (s.modPh k g).recd = s.recd := (rfl)
@[simp] theorem State.modPh_pnl (s : State) (k : Nat) (g : PhasorSt → PhasorSt) : (s.modPh k g).pnl = s.pnl := (rfl)
@[simp] theorem State.modPh_pwr (s : State) (k : Nat) (g : PhasorSt → PhasorSt) : (s.modPh k g).pwr = s.pwr := (rfl)
@[simp] theorem State.modPh_tab (s : State) (k : Nat) (g : PhasorSt → PhasorSt) : (s.modPh k g).tab = s.tab := (rfl)
@[simp] theorem State.modPh_mgmt (s : State) (k : Nat) (g : PhasorSt → PhasorSt) : (s.modPh k g).mgmt = s.mgmt := (rfl)
@[simp] theorem State.modPh_reg (s : State) (k : Nat) (g : PhasorSt → PhasorSt) (x : Nat) : (s.modPh k g).reg x = s.reg x := (rfl)
@[simp] theorem State.modPh_rd (s : State) (k : Nat) (g : PhasorSt → PhasorSt) (x : Nat) (y : Field) : (s.modPh k g).rd x y = s.rd x y := (rfl)
@[simp] theorem State.modPh_rdw (s : State) (k : Nat) (g : PhasorSt → PhasorSt) (x : Nat) (y : Field) : (s.modPh k g).rdw x y = s.rdw x y := (rfl)
@[simp] theorem State.modPh_flag (s : State) (k : Nat) (g : PhasorSt → PhasorSt) (x : Nat) (y : Field) : (s.modPh k g).flag x y = s.flag x y := (rfl)
@[simp] theorem State.modPh_mst (s : State) (k : Nat) (g : PhasorSt → PhasorSt) : (s.modPh k g).mst = s.mst := (rfl)

@[simp] theorem State.modQp_pending (s : State) (k : Nat) (g : QpSt → QpSt) : (s.modQp k g).pending = s.pending := (rfl)
@[simp] theorem State.modQp_regs (s : State) (k : Nat) (g : QpSt → QpSt) : (s.modQp k g).regs = s.regs := (rfl)
@[simp] theorem State.modQp_outbox (s : State) (k : Nat) (g : QpSt → QpSt) : (s.modQp k g).outbox = s.outbox := (rfl)
@[simp] theorem State.modQp_free (s : State) (k : Nat) (g : QpSt → QpSt) : (s.modQp k g).free = s.free := (rfl)
@[simp] theorem State.modQp_fab (s : State) (k : Nat) (g : QpSt → QpSt) : (s.modQp k g).fab = s.fab := (rfl)
@[simp] theorem State.modQp_img (s : State) (k : Nat) (g : QpSt → QpSt) : (s.modQp k g).img = s.img := (rfl)
@[simp] theorem State.modQp_toc (s : State) (k : Nat) (g : QpSt → QpSt) : (s.modQp k g).toc = s.toc := (rfl)
@[simp] theorem State.modQp_ucs (s : State) (k : Nat) (g : QpSt → QpSt) : (s.modQp k g).ucs = s.ucs := (rfl)
@[simp] theorem State.modQp_dps (s : State) (k : Nat) (g : QpSt → QpSt) : (s.modQp k g).dps = s.dps := (rfl)
@[simp] theorem State.modQp_axs (s : State) (k : Nat) (g : QpSt → QpSt) : (s.modQp k g).axs = s.axs := (rfl)
@[simp] theorem State.modQp_fld (s : State) (k : Nat) (g : QpSt → QpSt) : (s.modQp k g).fld = s.fld := (rfl)
@[simp] theorem State.modQp_chain (s : State) (k : Nat) (g : QpSt → QpSt) : (s.modQp k g).chain = s.chain := (rfl)
@[simp] theorem State.modQp_net (s : State) (k : Nat) (g : QpSt → QpSt) : (s.modQp k g).net = s.net := (rfl)
@[simp] theorem State.modQp_time (s : State) (k : Nat) (g : QpSt → QpSt) : (s.modQp k g).time = s.time := (rfl)
@[simp] theorem State.modQp_can0 (s : State) (k : Nat) (g : QpSt → QpSt) : (s.modQp k g).can0 = s.can0 := (rfl)
@[simp] theorem State.modQp_can1 (s : State) (k : Nat) (g : QpSt → QpSt) : (s.modQp k g).can1 = s.can1 := (rfl)
@[simp] theorem State.modQp_mbx (s : State) (k : Nat) (g : QpSt → QpSt) : (s.modQp k g).mbx = s.mbx := (rfl)
@[simp] theorem State.modQp_jrn (s : State) (k : Nat) (g : QpSt → QpSt) : (s.modQp k g).jrn = s.jrn := (rfl)
@[simp] theorem State.modQp_recd (s : State) (k : Nat) (g : QpSt → QpSt) : (s.modQp k g).recd = s.recd := (rfl)
@[simp] theorem State.modQp_pnl (s : State) (k : Nat) (g : QpSt → QpSt) : (s.modQp k g).pnl = s.pnl := (rfl)
@[simp] theorem State.modQp_pwr (s : State) (k : Nat) (g : QpSt → QpSt) : (s.modQp k g).pwr = s.pwr := (rfl)
@[simp] theorem State.modQp_tab (s : State) (k : Nat) (g : QpSt → QpSt) : (s.modQp k g).tab = s.tab := (rfl)
@[simp] theorem State.modQp_mgmt (s : State) (k : Nat) (g : QpSt → QpSt) : (s.modQp k g).mgmt = s.mgmt := (rfl)
@[simp] theorem State.modQp_reg (s : State) (k : Nat) (g : QpSt → QpSt) (x : Nat) : (s.modQp k g).reg x = s.reg x := (rfl)
@[simp] theorem State.modQp_rd (s : State) (k : Nat) (g : QpSt → QpSt) (x : Nat) (y : Field) : (s.modQp k g).rd x y = s.rd x y := (rfl)
@[simp] theorem State.modQp_rdw (s : State) (k : Nat) (g : QpSt → QpSt) (x : Nat) (y : Field) : (s.modQp k g).rdw x y = s.rdw x y := (rfl)
@[simp] theorem State.modQp_flag (s : State) (k : Nat) (g : QpSt → QpSt) (x : Nat) (y : Field) : (s.modQp k g).flag x y = s.flag x y := (rfl)
@[simp] theorem State.modQp_mst (s : State) (k : Nat) (g : QpSt → QpSt) : (s.modQp k g).mst = s.mst := (rfl)

@[simp] theorem State.modPath_pending (s : State) (p : Path) (g : PathSt → PathSt) : (s.modPath p g).pending = s.pending := by cases p <;> rfl
@[simp] theorem State.modPath_regs (s : State) (p : Path) (g : PathSt → PathSt) : (s.modPath p g).regs = s.regs := by cases p <;> rfl
@[simp] theorem State.modPath_outbox (s : State) (p : Path) (g : PathSt → PathSt) : (s.modPath p g).outbox = s.outbox := by cases p <;> rfl
@[simp] theorem State.modPath_free (s : State) (p : Path) (g : PathSt → PathSt) : (s.modPath p g).free = s.free := by cases p <;> rfl
@[simp] theorem State.modPath_fab (s : State) (p : Path) (g : PathSt → PathSt) : (s.modPath p g).fab = s.fab := by cases p <;> rfl
@[simp] theorem State.modPath_img (s : State) (p : Path) (g : PathSt → PathSt) : (s.modPath p g).img = s.img := by cases p <;> rfl
@[simp] theorem State.modPath_toc (s : State) (p : Path) (g : PathSt → PathSt) : (s.modPath p g).toc = s.toc := by cases p <;> rfl
@[simp] theorem State.modPath_ucs (s : State) (p : Path) (g : PathSt → PathSt) : (s.modPath p g).ucs = s.ucs := by cases p <;> rfl
@[simp] theorem State.modPath_dps (s : State) (p : Path) (g : PathSt → PathSt) : (s.modPath p g).dps = s.dps := by cases p <;> rfl
@[simp] theorem State.modPath_axs (s : State) (p : Path) (g : PathSt → PathSt) : (s.modPath p g).axs = s.axs := by cases p <;> rfl
@[simp] theorem State.modPath_fld (s : State) (p : Path) (g : PathSt → PathSt) : (s.modPath p g).fld = s.fld := by cases p <;> rfl
@[simp] theorem State.modPath_chain (s : State) (p : Path) (g : PathSt → PathSt) : (s.modPath p g).chain = s.chain := by cases p <;> rfl
@[simp] theorem State.modPath_q (s : State) (p : Path) (g : PathSt → PathSt) : (s.modPath p g).q = s.q := by cases p <;> rfl
@[simp] theorem State.modPath_time (s : State) (p : Path) (g : PathSt → PathSt) : (s.modPath p g).time = s.time := by cases p <;> rfl
@[simp] theorem State.modPath_can0 (s : State) (p : Path) (g : PathSt → PathSt) : (s.modPath p g).can0 = s.can0 := by cases p <;> rfl
@[simp] theorem State.modPath_can1 (s : State) (p : Path) (g : PathSt → PathSt) : (s.modPath p g).can1 = s.can1 := by cases p <;> rfl
@[simp] theorem State.modPath_mbx (s : State) (p : Path) (g : PathSt → PathSt) : (s.modPath p g).mbx = s.mbx := by cases p <;> rfl
@[simp] theorem State.modPath_jrn (s : State) (p : Path) (g : PathSt → PathSt) : (s.modPath p g).jrn = s.jrn := by cases p <;> rfl
@[simp] theorem State.modPath_recd (s : State) (p : Path) (g : PathSt → PathSt) : (s.modPath p g).recd = s.recd := by cases p <;> rfl
@[simp] theorem State.modPath_pnl (s : State) (p : Path) (g : PathSt → PathSt) : (s.modPath p g).pnl = s.pnl := by cases p <;> rfl
@[simp] theorem State.modPath_pwr (s : State) (p : Path) (g : PathSt → PathSt) : (s.modPath p g).pwr = s.pwr := by cases p <;> rfl
@[simp] theorem State.modPath_tab (s : State) (p : Path) (g : PathSt → PathSt) : (s.modPath p g).tab = s.tab := by cases p <;> rfl
@[simp] theorem State.modPath_mgmt (s : State) (p : Path) (g : PathSt → PathSt) : (s.modPath p g).mgmt = s.mgmt := by cases p <;> rfl
@[simp] theorem State.modPath_reg (s : State) (p : Path) (g : PathSt → PathSt) (x : Nat) : (s.modPath p g).reg x = s.reg x := by cases p <;> rfl
@[simp] theorem State.modPath_rd (s : State) (p : Path) (g : PathSt → PathSt) (x : Nat) (y : Field) : (s.modPath p g).rd x y = s.rd x y := by cases p <;> rfl
@[simp] theorem State.modPath_rdw (s : State) (p : Path) (g : PathSt → PathSt) (x : Nat) (y : Field) : (s.modPath p g).rdw x y = s.rdw x y := by cases p <;> rfl
@[simp] theorem State.modPath_flag (s : State) (p : Path) (g : PathSt → PathSt) (x : Nat) (y : Field) : (s.modPath p g).flag x y = s.flag x y := by cases p <;> rfl
@[simp] theorem State.modPath_mst (s : State) (p : Path) (g : PathSt → PathSt) : (s.modPath p g).mst = s.mst := by cases p <;> rfl

@[simp] theorem State.modCan_pending (s : State) (c : Fin 2) (g : CanSt → CanSt) : (s.modCan c g).pending = s.pending := by unfold State.modCan; split <;> rfl
@[simp] theorem State.modCan_regs (s : State) (c : Fin 2) (g : CanSt → CanSt) : (s.modCan c g).regs = s.regs := by unfold State.modCan; split <;> rfl
@[simp] theorem State.modCan_outbox (s : State) (c : Fin 2) (g : CanSt → CanSt) : (s.modCan c g).outbox = s.outbox := by unfold State.modCan; split <;> rfl
@[simp] theorem State.modCan_free (s : State) (c : Fin 2) (g : CanSt → CanSt) : (s.modCan c g).free = s.free := by unfold State.modCan; split <;> rfl
@[simp] theorem State.modCan_fab (s : State) (c : Fin 2) (g : CanSt → CanSt) : (s.modCan c g).fab = s.fab := by unfold State.modCan; split <;> rfl
@[simp] theorem State.modCan_img (s : State) (c : Fin 2) (g : CanSt → CanSt) : (s.modCan c g).img = s.img := by unfold State.modCan; split <;> rfl
@[simp] theorem State.modCan_toc (s : State) (c : Fin 2) (g : CanSt → CanSt) : (s.modCan c g).toc = s.toc := by unfold State.modCan; split <;> rfl
@[simp] theorem State.modCan_ucs (s : State) (c : Fin 2) (g : CanSt → CanSt) : (s.modCan c g).ucs = s.ucs := by unfold State.modCan; split <;> rfl
@[simp] theorem State.modCan_dps (s : State) (c : Fin 2) (g : CanSt → CanSt) : (s.modCan c g).dps = s.dps := by unfold State.modCan; split <;> rfl
@[simp] theorem State.modCan_axs (s : State) (c : Fin 2) (g : CanSt → CanSt) : (s.modCan c g).axs = s.axs := by unfold State.modCan; split <;> rfl
@[simp] theorem State.modCan_fld (s : State) (c : Fin 2) (g : CanSt → CanSt) : (s.modCan c g).fld = s.fld := by unfold State.modCan; split <;> rfl
@[simp] theorem State.modCan_chain (s : State) (c : Fin 2) (g : CanSt → CanSt) : (s.modCan c g).chain = s.chain := by unfold State.modCan; split <;> rfl
@[simp] theorem State.modCan_q (s : State) (c : Fin 2) (g : CanSt → CanSt) : (s.modCan c g).q = s.q := by unfold State.modCan; split <;> rfl
@[simp] theorem State.modCan_net (s : State) (c : Fin 2) (g : CanSt → CanSt) : (s.modCan c g).net = s.net := by unfold State.modCan; split <;> rfl
@[simp] theorem State.modCan_time (s : State) (c : Fin 2) (g : CanSt → CanSt) : (s.modCan c g).time = s.time := by unfold State.modCan; split <;> rfl
@[simp] theorem State.modCan_mbx (s : State) (c : Fin 2) (g : CanSt → CanSt) : (s.modCan c g).mbx = s.mbx := by unfold State.modCan; split <;> rfl
@[simp] theorem State.modCan_jrn (s : State) (c : Fin 2) (g : CanSt → CanSt) : (s.modCan c g).jrn = s.jrn := by unfold State.modCan; split <;> rfl
@[simp] theorem State.modCan_recd (s : State) (c : Fin 2) (g : CanSt → CanSt) : (s.modCan c g).recd = s.recd := by unfold State.modCan; split <;> rfl
@[simp] theorem State.modCan_pnl (s : State) (c : Fin 2) (g : CanSt → CanSt) : (s.modCan c g).pnl = s.pnl := by unfold State.modCan; split <;> rfl
@[simp] theorem State.modCan_pwr (s : State) (c : Fin 2) (g : CanSt → CanSt) : (s.modCan c g).pwr = s.pwr := by unfold State.modCan; split <;> rfl
@[simp] theorem State.modCan_tab (s : State) (c : Fin 2) (g : CanSt → CanSt) : (s.modCan c g).tab = s.tab := by unfold State.modCan; split <;> rfl
@[simp] theorem State.modCan_mgmt (s : State) (c : Fin 2) (g : CanSt → CanSt) : (s.modCan c g).mgmt = s.mgmt := by unfold State.modCan; split <;> rfl
@[simp] theorem State.modCan_reg (s : State) (c : Fin 2) (g : CanSt → CanSt) (x : Nat) : (s.modCan c g).reg x = s.reg x := by unfold State.modCan; split <;> rfl
@[simp] theorem State.modCan_rd (s : State) (c : Fin 2) (g : CanSt → CanSt) (x : Nat) (y : Field) : (s.modCan c g).rd x y = s.rd x y := by unfold State.modCan; split <;> rfl
@[simp] theorem State.modCan_rdw (s : State) (c : Fin 2) (g : CanSt → CanSt) (x : Nat) (y : Field) : (s.modCan c g).rdw x y = s.rdw x y := by unfold State.modCan; split <;> rfl
@[simp] theorem State.modCan_flag (s : State) (c : Fin 2) (g : CanSt → CanSt) (x : Nat) (y : Field) : (s.modCan c g).flag x y = s.flag x y := by unfold State.modCan; split <;> rfl
@[simp] theorem State.modCan_mst (s : State) (c : Fin 2) (g : CanSt → CanSt) : (s.modCan c g).mst = s.mst := by unfold State.modCan; split <;> rfl

@[simp] theorem State.modFab_fab (s : State) (g) : (s.modFab g).fab = g s.fab := (rfl)
@[simp] theorem State.modImg_img (s : State) (g) : (s.modImg g).img = g s.img := (rfl)
@[simp] theorem State.modToc_toc (s : State) (g) : (s.modToc g).toc = g s.toc := (rfl)
@[simp] theorem State.modChain_chain (s : State) (g) : (s.modChain g).chain = g s.chain := (rfl)
@[simp] theorem State.modQ_q (s : State) (g) : (s.modQ g).q = g s.q := (rfl)
@[simp] theorem State.modNet_net (s : State) (g) : (s.modNet g).net = g s.net := (rfl)
@[simp] theorem State.modTime_time (s : State) (g) : (s.modTime g).time = g s.time := (rfl)
@[simp] theorem State.modJrn_jrn (s : State) (g) : (s.modJrn g).jrn = g s.jrn := (rfl)
@[simp] theorem State.modRec_recd (s : State) (g) : (s.modRec g).recd = g s.recd := (rfl)
@[simp] theorem State.modPnl_pnl (s : State) (g) : (s.modPnl g).pnl = g s.pnl := (rfl)
@[simp] theorem State.modPwr_pwr (s : State) (g) : (s.modPwr g).pwr = g s.pwr := (rfl)
@[simp] theorem State.modTab_tab (s : State) (g) : (s.modTab g).tab = g s.tab := (rfl)
@[simp] theorem State.modMgmt_mgmt (s : State) (g) : (s.modMgmt g).mgmt = g s.mgmt := (rfl)
@[simp] theorem State.emit_outbox (s : State) (o : Output) : (s.emit o).outbox = s.outbox ++ [o] := (rfl)
@[simp] theorem State.answer_outbox (s : State) (p : Port) (c : Code) : (s.answer p c).outbox = s.outbox ++ [.result p c] := (rfl)

/-- What `modCell` leaves at a number: the changed value at its own, the old one elsewhere. -/
@[simp] theorem State.modCell_cell (s : State) (k j : Nat) (g : CellSt → CellSt) : (s.modCell k g).cell j = if j = k then g (s.cell k) else s.cell j := by
  simp [State.modCell, State.cell, State.modFab]
/-- What `modUc` leaves at a number: the changed value at its own, the old one elsewhere. -/
@[simp] theorem State.modUc_uc (s : State) (k j : Nat) (g : UcSt → UcSt) : (s.modUc k g).uc j = if j = k then g (s.uc k) else s.uc j := by
  simp [State.modUc, State.uc]
/-- What `modDp` leaves at a number: the changed value at its own, the old one elsewhere. -/
@[simp] theorem State.modDp_dp (s : State) (k j : Nat) (g : DpSt → DpSt) : (s.modDp k g).dp j = if j = k then g (s.dp k) else s.dp j := by
  simp [State.modDp, State.dp]
/-- What `modAx` leaves at a number: the changed value at its own, the old one elsewhere. -/
@[simp] theorem State.modAx_ax (s : State) (k j : Nat) (g : AxSt → AxSt) : (s.modAx k g).ax j = if j = k then g (s.ax k) else s.ax j := by
  simp [State.modAx, State.ax]
/-- What `modMb` leaves at a number: the changed value at its own, the old one elsewhere. -/
@[simp] theorem State.modMb_mb (s : State) (k j : Nat) (g : MbxSt → MbxSt) : (s.modMb k g).mb j = if j = k then g (s.mb k) else s.mb j := by
  simp [State.modMb, State.mb]
/-- What `modFc` leaves at a number: the changed value at its own, the old one elsewhere. -/
@[simp] theorem State.modFc_fc (s : State) (k j : Nat) (g : FcSt → FcSt) : (s.modFc k g).fc j = if j = k then g (s.fc k) else s.fc j := by
  simp [State.modFc, State.fc, State.modFab]
/-- What `modLp` leaves at a number: the changed value at its own, the old one elsewhere. -/
@[simp] theorem State.modLp_lp (s : State) (k j : Nat) (g : LoopSt → LoopSt) : (s.modLp k g).lp j = if j = k then g (s.lp k) else s.lp j := by
  simp [State.modLp, State.lp, State.modFab]
/-- What `modPh` leaves at a number: the changed value at its own, the old one elsewhere. -/
@[simp] theorem State.modPh_ph (s : State) (k j : Nat) (g : PhasorSt → PhasorSt) : (s.modPh k g).ph j = if j = k then g (s.ph k) else s.ph j := by
  simp [State.modPh, State.ph, State.modFab]
/-- What `modQp` leaves at a number: the changed value at its own, the old one elsewhere. -/
@[simp] theorem State.modQp_qp (s : State) (k j : Nat) (g : QpSt → QpSt) : (s.modQp k g).qp j = if j = k then g (s.qp k) else s.qp j := by
  simp [State.modQp, State.qp, State.modQ]

@[simp] theorem State.when_true (s : State) (f : State → State) : s.when true f = f s := (rfl)
@[simp] theorem State.when_false (s : State) (f : State → State) : s.when false f = s := (rfl)

end Sys2Proof.Machine
end

