-- ==== Sys2Proof/Laws/Memory.lean ====
section
/-! SUPPORT. Laws of the DMA-visible memory: what a byte reads after a write, that every memory operation keeps the canonical form, and which operations
leave memory alone. -/

namespace Sys2Proof.Machine

/-- A byte after a write: the byte written where the write reaches, what stood there elsewhere. -/
theorem memWrite_get (m : List Host.Cell) (l : List Byte) : ∀ a b : Nat,
    Store.get memDefault (memWrite m a l) b = if a ≤ b ∧ b < a + l.length then l.getD (b - a) 0 else Store.get memDefault m b := by
  induction l generalizing m with
  | nil => intro a b; simp [memWrite]
  | cons x l ih =>
    intro a b
    rw [memWrite, ih, Store.get_set]
    by_cases h1 : b = a
    · subst h1; simp
    · by_cases h2 : a + 1 ≤ b ∧ b < a + 1 + l.length
      · have h3 : a ≤ b ∧ b < a + (x :: l).length := by simp only [List.length_cons]; omega
        have h4 : b - a = (b - (a + 1)) + 1 := by omega
        rw [if_pos h2, if_pos h3, h4, List.getD_cons_succ]
      · have h3 : ¬(a ≤ b ∧ b < a + (x :: l).length) := by simp only [List.length_cons]; omega
        rw [if_neg h2, if_neg h3, if_neg h1]

/-- A byte below or beyond a write is what it was. -/
theorem memWrite_outside (m : List Host.Cell) (l : List Byte) (a b : Nat) (h : b < a ∨ a + l.length ≤ b) :
    Store.get memDefault (memWrite m a l) b = Store.get memDefault m b := by
  rw [memWrite_get, if_neg (by omega)]

/-- A write keeps the canonical form. -/
theorem memWrite_wf (m : List Host.Cell) (l : List Byte) : ∀ a : Nat, Memory.wf m = true → Memory.wf (memWrite m a l) = true := by
  induction l generalizing m with
  | nil => intro a h; exact h
  | cons x l ih => intro a h; exact ih _ _ (Store.wf_set _ _ _ _ h)

theorem reset_memory_wf : Memory.wf State.reset.q.mem = true := rfl

/-! Accesses through the IOMMU: all but a granule's write leave memory alone. -/

@[simp] theorem State.meetPoison_q (s : State) : s.meetPoison.q = s.q := by simp [State.meetPoison]

theorem State.tlbFill_mem (s : State) (t : TlbEntry) : (s.tlbFill t).q.mem = s.q.mem := by
  unfold State.tlbFill
  split <;> simp [State.draw, State.modQ]

theorem State.lookup_mem (s : State) (dom iova : Nat) : (s.lookup dom iova).2.q.mem = s.q.mem := by
  unfold State.lookup
  split
  · simp
  · split
    · rfl
    · dsimp only
      split
      · rw [State.tlbFill_mem, State.bump_q]
      · unfold State.when
        split <;> simp

theorem State.translate_mem (s : State) (dom iova : Nat) (write : Bool) : (s.translate dom iova write).2.q.mem = s.q.mem := by
  have h := s.lookup_mem dom iova
  unfold State.translate
  split
  · next e t ht => rw [ht] at h; exact h
  · next t u ht =>
    rw [ht] at h
    dsimp only at h
    cases write <;> simp only [Bool.false_eq_true, if_true, if_false] <;> split <;> simp [h]

theorem State.readGranule_mem (s : State) (dom iova : Nat) : (s.readGranule dom iova).2.q.mem = s.q.mem := by
  have h := s.translate_mem dom iova false
  unfold State.readGranule
  split
  · next e t ht => rw [ht] at h; exact h
  · next pa u ht =>
    rw [ht] at h
    dsimp only at h
    split <;> simp [h]

/-- A granule's write either leaves memory alone, or writes its bytes at the translated address. -/
theorem State.writeGranule_mem (s : State) (dom iova : Nat) (bytes : List Byte) :
    (s.writeGranule dom iova bytes).2.q.mem = s.q.mem ∨ ∃ pa, (s.writeGranule dom iova bytes).2.q.mem = memWrite s.q.mem pa bytes := by
  have h := s.translate_mem dom iova true
  unfold State.writeGranule
  split
  · next e t ht => rw [ht] at h; exact Or.inl h
  · next pa u ht =>
    rw [ht] at h
    dsimp only at h
    split
    · exact Or.inl (by simp [h])
    · exact Or.inr ⟨pa, by simp [State.modQ, h]⟩

theorem State.writeGranule_wf (s : State) (dom iova : Nat) (bytes : List Byte) (hm : Memory.wf s.q.mem = true) :
    Memory.wf (s.writeGranule dom iova bytes).2.q.mem = true := by
  rcases s.writeGranule_mem dom iova bytes with h | ⟨pa, h⟩
  · rw [h]; exact hm
  · rw [h]; exact memWrite_wf _ _ _ hm

end Sys2Proof.Machine
end

