-- ==== Sys2Proof/Laws/Settle.lean ====
section
/-! SUPPORT. What `settle`, the end of every command, does: it writes registers only, and of them only the fields that follow other state. -/

namespace Sys2Proof.Machine

/-- Two fields share no bit. -/
abbrev Apart (b : Nat) (g : Field) (c : Nat) (f : Field) : Prop :=
  c + f.off ≠ b + g.off ∨ g.lo + g.width ≤ f.lo ∨ f.lo + f.width ≤ g.lo

/-- A field keeps its value when one apart from it is written. -/
theorem State.rd_wr_apart (s : State) (b c : Nat) (g f : Field) (v : Nat) (hf : f.lo + f.width ≤ 32) (h : Apart b g c f) :
    (s.wr c f v).rd b g = s.rd b g := by
  by_cases he : b + g.off = c + f.off
  · simp only [State.wr, State.rd, State.reg_setReg, he, if_true]
    rcases h with h | h | h
    · exact absurd he.symm h
    · exact getField_setField_below _ _ _ _ _ _ hf h
    · exact getField_setField_above _ _ _ _ _ _ hf h
  · exact State.rd_wr_of_ne s c b f g v he

theorem State.rd_setFlag_apart (s : State) (b c : Nat) (g f : Field) (v : Bool) (hf : f.lo + f.width ≤ 32) (h : Apart b g c f) :
    (s.setFlag c f v).rd b g = s.rd b g := State.rd_wr_apart s b c g f _ hf h

/-- A register that a follower's field does not stand in. -/
theorem State.reg_track_of_ne (s : State) (c : Nat) (f : Field) (v : State → Bool) (a : Nat) (h : a ≠ c + f.off) :
    (s.track c f v).reg a = s.reg a := State.reg_wr_of_ne s c f _ a h

theorem State.rd_track_apart (s : State) (b c : Nat) (g f : Field) (v : State → Bool) (hf : f.lo + f.width ≤ 32) (h : Apart b g c f) :
    (s.track c f v).rd b g = s.rd b g := State.rd_wr_apart s b c g f _ hf h

theorem State.flag_track_apart (s : State) (b c : Nat) (g f : Field) (v : State → Bool) (hf : f.lo + f.width ≤ 32) (h : Apart b g c f) :
    (s.track c f v).flag b g = s.flag b g := by simp only [State.flag, State.rd_track_apart s b c g f v hf h]

theorem State.flag_track_same (s : State) (c : Nat) (f : Field) (v : State → Bool) (hf : f.lo + f.width ≤ 32) (hw : f.width = 1) :
    (s.track c f v).flag c f = v s := State.flag_setFlag_same s c f _ hf hw

/-- The fields that `settle` writes, but for the whole of CAN0.ECNT and CAN1.ECNT. -/
def followerFields : List (Nat × Field) :=
  [(tbBase, Reg.TB_STATUS_MFLTOPEN), (modBase, Reg.MOD_STATE_CAUSE), (modBase, Reg.MOD_STATE_DBGFLAG), (modBase, Reg.MOD_HEALTH_HULOW),
   (modBase, Reg.MOD_HEALTH_SUPLOW), (modBase, Reg.MOD_HEALTH_NOPATH), (modBase, Reg.MOD_HEALTH_HOLDOVER), (modBase, Reg.MOD_HEALTH_CPISO),
   (tmBase, Reg.TM_STATUS_CGM), (nvjBase, Reg.KEY_USE_INUSE), (canBase 0, Reg.CAN_STATUS_ESTATE), (canBase 0, Reg.CAN_STATUS_ACKERRS),
   (canBase 1, Reg.CAN_STATUS_ESTATE), (canBase 1, Reg.CAN_STATUS_ACKERRS),
   (pnlBase, Reg.SEG_STATE_ADDR), (pnlBase, Reg.SEG_STATE_STATE), (pnlBase, Reg.SEG_STATE_MODE),
   (pnlBase, Reg.SEG_STATE_ERR), (pnlBase, Reg.SEG_STATE_SAFE), (pnlBase, Reg.SEG_STATE_DBG), (pnlBase, Reg.SEG_STATE_LASTKNOWN)]

/-- A field that shares no bit with a follower. -/
abbrev NoFollower (b : Nat) (g : Field) : Prop :=
  (∀ x ∈ followerFields, Apart b g x.1 x.2) ∧ b + g.off ≠ canBase 0 + Reg.CAN_ECNT_TEC.off ∧ b + g.off ≠ canBase 1 + Reg.CAN_ECNT_TEC.off

theorem State.mirror_rd (s : State) (b : Nat) (g : Field) (h : NoFollower b g) : s.mirror.rd b g = s.rd b g := by
  replace h := h.1
  simp only [followerFields, List.forall_mem_cons] at h
  unfold State.mirror
  dsimp only
  rw [State.rd_track_apart _ _ _ _ _ _ (by decide) h.2.2.2.2.2.2.2.2.1, State.rd_track_apart _ _ _ _ _ _ (by decide) h.2.2.2.2.2.2.2.1,
    State.rd_track_apart _ _ _ _ _ _ (by decide) h.2.2.2.2.2.2.1, State.rd_track_apart _ _ _ _ _ _ (by decide) h.2.2.2.2.2.1,
    State.rd_track_apart _ _ _ _ _ _ (by decide) h.2.2.2.2.1, State.rd_track_apart _ _ _ _ _ _ (by decide) h.2.2.2.1,
    State.rd_track_apart _ _ _ _ _ _ (by decide) h.2.2.1, State.rd_track_apart _ _ _ _ _ _ (by decide) h.2.1,
    State.rd_track_apart _ _ _ _ _ _ (by decide) h.1]

theorem State.canAuto_rd (s : State) (c : Fin 2) (b : Nat) (g : Field) (h1 : Apart b g (canBase c.val) Reg.CAN_STATUS_ESTATE)
    (h2 : Apart b g (canBase c.val) Reg.CAN_STATUS_ACKERRS) (h3 : b + g.off ≠ canBase c.val + Reg.CAN_ECNT_TEC.off) :
    (s.canAuto c).rd b g = s.rd b g := by
  unfold State.canAuto
  dsimp only
  split
  · rw [State.rd, State.reg_setReg, if_neg h3, ← State.rd, State.rd_wr_apart _ _ _ _ _ _ (by decide) h2, State.rd_wr_apart _ _ _ _ _ _ (by decide) h1]
  · rfl

theorem State.showSegments_rd (s : State) (b : Nat) (g : Field) (h1 : Apart b g pnlBase Reg.SEG_STATE_ADDR) (h2 : Apart b g pnlBase Reg.SEG_STATE_STATE)
    (h3 : Apart b g pnlBase Reg.SEG_STATE_MODE) (h4 : Apart b g pnlBase Reg.SEG_STATE_ERR) (h5 : Apart b g pnlBase Reg.SEG_STATE_SAFE)
    (h6 : Apart b g pnlBase Reg.SEG_STATE_DBG) (h7 : Apart b g pnlBase Reg.SEG_STATE_LASTKNOWN) : s.showSegments.rd b g = s.rd b g := by
  unfold State.showSegments
  dsimp only
  rw [State.rd_track_apart _ _ _ _ _ _ (by decide) h7, State.rd_track_apart _ _ _ _ _ _ (by decide) h6,
    State.rd_track_apart _ _ _ _ _ _ (by decide) h5]
  split
  · unfold State.darkSegments
    dsimp only
    rw [State.rd_track_apart _ _ _ _ _ _ (by decide) h4, State.rd_track_apart _ _ _ _ _ _ (by decide) h3,
      State.rd_wr_apart _ _ _ _ _ _ (by decide) h2, State.rd_wr_apart _ _ _ _ _ _ (by decide) h1]
  · split
    · rfl
    · unfold State.copySegments
      dsimp only
      rw [State.rd_track_apart _ _ _ _ _ _ (by decide) h4, State.rd_track_apart _ _ _ _ _ _ (by decide) h3,
        State.rd_wr_apart _ _ _ _ _ _ (by decide) h2, State.rd_wr_apart _ _ _ _ _ _ (by decide) h1]

/-- A field apart from every follower keeps its value. -/
theorem State.settle_rd (s : State) (b : Nat) (g : Field) (h : NoFollower b g) : s.settle.rd b g = s.rd b g := by
  have m := s.mirror_rd b g h
  obtain ⟨h, e0, e1⟩ := h
  simp only [followerFields, List.forall_mem_cons] at h
  obtain ⟨-, -, -, -, -, -, -, -, -, hk, a0, a1, b0, b1, c1, c2, c3, c4, c5, c6, c7, -⟩ := h
  unfold State.settle State.showKeys
  rw [State.showSegments_rd _ _ _ c1 c2 c3 c4 c5 c6 c7, State.canAuto_rd _ 1 _ _ b0 b1 e1, State.canAuto_rd _ 0 _ _ a0 a1 e0,
    State.rd_wr_apart _ _ _ _ _ _ (by decide) hk, m]

theorem State.settle_flag (s : State) (b : Nat) (g : Field) (h : NoFollower b g) : s.settle.flag b g = s.flag b g := by
  simp only [State.flag, s.settle_rd b g h]

theorem State.settle_mst (s : State) : s.settle.mst = s.mst := s.settle_rd _ _ (by decide)

/-- A register of no follower. -/
theorem State.settle_reg (s : State) (a : Nat) (h : a ∉ followers) : s.settle.reg a = s.reg a := by
  simp only [followers, List.mem_cons, List.not_mem_nil, or_false, not_or] at h
  obtain ⟨h1, h2, h3, h4, h5, h6, h7, h8, h9, h10⟩ := h
  have seg : ∀ u : State, u.showSegments.reg a = u.reg a := by
    intro u
    unfold State.showSegments
    dsimp only
    rw [State.reg_track_of_ne, State.reg_track_of_ne, State.reg_track_of_ne]
    · split
      · unfold State.darkSegments
        dsimp only
        rw [State.reg_track_of_ne, State.reg_track_of_ne, State.reg_wr_of_ne, State.reg_wr_of_ne] <;> exact h10
      · split
        · rfl
        · unfold State.copySegments
          dsimp only
          rw [State.reg_track_of_ne, State.reg_track_of_ne, State.reg_wr_of_ne, State.reg_wr_of_ne] <;> exact h10
    all_goals exact h10
  have can : ∀ (u : State) (c : Fin 2), a ≠ canBase c.val + Reg.CAN_STATUS_ESTATE.off → a ≠ canBase c.val + Reg.CAN_ECNT_TEC.off →
      (u.canAuto c).reg a = u.reg a := by
    intro u c g1 g2
    unfold State.canAuto
    dsimp only
    split
    · rw [State.reg_setReg, if_neg g2, State.reg_wr_of_ne, State.reg_wr_of_ne] <;> exact g1
    · rfl
  unfold State.settle State.showKeys State.mirror
  rw [seg, can _ 1 h8 h9, can _ 0 h6 h7, State.reg_wr_of_ne _ _ _ _ _ h5]
  dsimp only
  rw [State.reg_track_of_ne, State.reg_track_of_ne, State.reg_track_of_ne, State.reg_track_of_ne, State.reg_track_of_ne,
    State.reg_track_of_ne, State.reg_track_of_ne, State.reg_track_of_ne, State.reg_track_of_ne]
  all_goals first | exact h1 | exact h2 | exact h3 | exact h4

/-- `t` is `s` with other registers. -/
def OnlyRegs (s t : State) : Prop := ∃ r, t = { s with regs := r }

theorem OnlyRegs.refl (s : State) : OnlyRegs s s := ⟨s.regs, rfl⟩

theorem OnlyRegs.trans {s t u : State} (h : OnlyRegs s t) (k : OnlyRegs t u) : OnlyRegs s u := by
  obtain ⟨r, rfl⟩ := h
  obtain ⟨q, rfl⟩ := k
  exact ⟨q, rfl⟩

theorem OnlyRegs.wr (s : State) (b : Nat) (f : Field) (v : Nat) : OnlyRegs s (s.wr b f v) := ⟨_, rfl⟩

theorem OnlyRegs.track (s : State) (b : Nat) (f : Field) (v : State → Bool) : OnlyRegs s (s.track b f v) := ⟨_, rfl⟩

theorem OnlyRegs.mirror (s : State) : OnlyRegs s s.mirror := by
  unfold State.mirror
  exact (((((((((OnlyRegs.track _ _ _ _).trans (.track _ _ _ _)).trans (.track _ _ _ _)).trans (.track _ _ _ _)).trans (.track _ _ _ _)).trans
    (.track _ _ _ _)).trans (.track _ _ _ _)).trans (.track _ _ _ _)).trans (.track _ _ _ _))

theorem OnlyRegs.canAuto (s : State) (c : Fin 2) : OnlyRegs s (s.canAuto c) := by
  unfold State.canAuto
  dsimp only
  split
  · exact ⟨_, rfl⟩
  · exact .refl s

theorem OnlyRegs.copySegments (s : State) : OnlyRegs s s.copySegments := by
  unfold State.copySegments
  exact (((OnlyRegs.wr _ _ _ _).trans (.wr _ _ _ _)).trans (.track _ _ _ _)).trans (.track _ _ _ _)

theorem OnlyRegs.darkSegments (s : State) : OnlyRegs s s.darkSegments := by
  unfold State.darkSegments
  exact (((OnlyRegs.wr _ _ _ _).trans (.wr _ _ _ _)).trans (.track _ _ _ _)).trans (.track _ _ _ _)

theorem OnlyRegs.showSegments (s : State) : OnlyRegs s s.showSegments := by
  unfold State.showSegments
  dsimp only
  refine OnlyRegs.trans ?_ (((OnlyRegs.track _ _ _ _).trans (.track _ _ _ _)).trans (.track _ _ _ _))
  split
  · exact .darkSegments s
  · split
    · exact .refl s
    · exact .copySegments s

/-- `settle` is a change of registers alone. -/
theorem OnlyRegs.settle (s : State) : OnlyRegs s s.settle := by
  unfold State.settle State.showKeys
  exact ((((OnlyRegs.mirror s).trans (.wr _ _ _ _)).trans (.canAuto _ _)).trans (.canAuto _ _)).trans (.showSegments _)

@[simp] theorem State.settle_pending (s : State) : s.settle.pending = s.pending := by obtain ⟨r, h⟩ := OnlyRegs.settle s; rw [h]
@[simp] theorem State.settle_outbox (s : State) : s.settle.outbox = s.outbox := by obtain ⟨r, h⟩ := OnlyRegs.settle s; rw [h]
@[simp] theorem State.settle_free (s : State) : s.settle.free = s.free := by obtain ⟨r, h⟩ := OnlyRegs.settle s; rw [h]
@[simp] theorem State.settle_fab (s : State) : s.settle.fab = s.fab := by obtain ⟨r, h⟩ := OnlyRegs.settle s; rw [h]
@[simp] theorem State.settle_img (s : State) : s.settle.img = s.img := by obtain ⟨r, h⟩ := OnlyRegs.settle s; rw [h]
@[simp] theorem State.settle_toc (s : State) : s.settle.toc = s.toc := by obtain ⟨r, h⟩ := OnlyRegs.settle s; rw [h]
@[simp] theorem State.settle_ucs (s : State) : s.settle.ucs = s.ucs := by obtain ⟨r, h⟩ := OnlyRegs.settle s; rw [h]
@[simp] theorem State.settle_dps (s : State) : s.settle.dps = s.dps := by obtain ⟨r, h⟩ := OnlyRegs.settle s; rw [h]
@[simp] theorem State.settle_axs (s : State) : s.settle.axs = s.axs := by obtain ⟨r, h⟩ := OnlyRegs.settle s; rw [h]
@[simp] theorem State.settle_fld (s : State) : s.settle.fld = s.fld := by obtain ⟨r, h⟩ := OnlyRegs.settle s; rw [h]
@[simp] theorem State.settle_chain (s : State) : s.settle.chain = s.chain := by obtain ⟨r, h⟩ := OnlyRegs.settle s; rw [h]
@[simp] theorem State.settle_q (s : State) : s.settle.q = s.q := by obtain ⟨r, h⟩ := OnlyRegs.settle s; rw [h]
@[simp] theorem State.settle_net (s : State) : s.settle.net = s.net := by obtain ⟨r, h⟩ := OnlyRegs.settle s; rw [h]
@[simp] theorem State.settle_time (s : State) : s.settle.time = s.time := by obtain ⟨r, h⟩ := OnlyRegs.settle s; rw [h]
@[simp] theorem State.settle_can0 (s : State) : s.settle.can0 = s.can0 := by obtain ⟨r, h⟩ := OnlyRegs.settle s; rw [h]
@[simp] theorem State.settle_can1 (s : State) : s.settle.can1 = s.can1 := by obtain ⟨r, h⟩ := OnlyRegs.settle s; rw [h]
@[simp] theorem State.settle_mbx (s : State) : s.settle.mbx = s.mbx := by obtain ⟨r, h⟩ := OnlyRegs.settle s; rw [h]
@[simp] theorem State.settle_jrn (s : State) : s.settle.jrn = s.jrn := by obtain ⟨r, h⟩ := OnlyRegs.settle s; rw [h]
@[simp] theorem State.settle_recd (s : State) : s.settle.recd = s.recd := by obtain ⟨r, h⟩ := OnlyRegs.settle s; rw [h]
@[simp] theorem State.settle_pnl (s : State) : s.settle.pnl = s.pnl := by obtain ⟨r, h⟩ := OnlyRegs.settle s; rw [h]
@[simp] theorem State.settle_pwr (s : State) : s.settle.pwr = s.pwr := by obtain ⟨r, h⟩ := OnlyRegs.settle s; rw [h]
@[simp] theorem State.settle_tab (s : State) : s.settle.tab = s.tab := by obtain ⟨r, h⟩ := OnlyRegs.settle s; rw [h]
@[simp] theorem State.settle_mgmt (s : State) : s.settle.mgmt = s.mgmt := by obtain ⟨r, h⟩ := OnlyRegs.settle s; rw [h]

/-! The end of a command, by what the port lets through. -/

theorem gate_served (s : State) (p : Port) (h : Served s p) : s.gate p = .full := by
  obtain ⟨h1, h2, h3, h4, h5⟩ := h
  unfold State.gate
  rcases h5 with h5 | ⟨h5, h6⟩
  · simp [h1, h2, h3, h4, h5]
  · simp [h1, h2, h3, h4, h5, h6]

/-- A command row where the port reaches the module: its decision, answered. -/
theorem command_served (p : Port) (f : State → Code × State) (s : State) (h : Served s p) :
    command p f s = .next ((f s).2.answer p (f s).1).settle := by
  simp [command, gate_served s p h, done]

theorem commandHeld_served (p : Port) (f : State → Option Code × State) (s : State) (c : Code) (h : Served s p) (hc : (f s).1 = some c) :
    commandHeld p f s = .next ((f s).2.answer p c).settle := by
  simp [commandHeld, gate_served s p h, done, hc]

/-! The mirrored fields after `settle`. -/

/-- A follower field of the mirror keeps its value in what `settle` does after it. -/
theorem State.settle_rd_mirror (s : State) (b : Nat) (g : Field) (hk : Apart b g nvjBase Reg.KEY_USE_INUSE)
    (ha : ∀ c : Fin 2, Apart b g (canBase c.val) Reg.CAN_STATUS_ESTATE ∧ Apart b g (canBase c.val) Reg.CAN_STATUS_ACKERRS ∧
      b + g.off ≠ canBase c.val + Reg.CAN_ECNT_TEC.off)
    (hs : b + g.off ≠ pnlBase + Reg.SEG_STATE_STATE.off) : s.settle.rd b g = s.mirror.rd b g := by
  unfold State.settle State.showKeys
  have n : ∀ f : Field, f.off = Reg.SEG_STATE_STATE.off → Apart b g pnlBase f := fun f h => Or.inl (by rw [h]; exact Ne.symm hs)
  rw [State.showSegments_rd _ _ _ (n _ rfl) (n _ rfl) (n _ rfl) (n _ rfl) (n _ rfl) (n _ rfl) (n _ rfl),
    State.canAuto_rd _ 1 _ _ (ha 1).1 (ha 1).2.1 (ha 1).2.2, State.canAuto_rd _ 0 _ _ (ha 0).1 (ha 0).2.1 (ha 0).2.2,
    State.rd_wr_apart _ _ _ _ _ _ (by decide) hk]


end Sys2Proof.Machine
end

