-- ==== Sys2Proof/Laws/Canonical.lean ====
section
/-! SUPPORT. The operations through which every command changes the registers and the DMA memory keep both in canonical form. -/

namespace Sys2Proof.Machine

variable {s : State}

theorem canonical_setReg (h : Canonical s) (a : Nat) (v : Word) : Canonical (s.setReg a v) := ⟨Store.wf_set 0 _ _ _ h.1, h.2⟩

theorem canonical_wr (h : Canonical s) (b : Nat) (f : Field) (v : Nat) : Canonical (s.wr b f v) := canonical_setReg h _ _

theorem canonical_wrw (h : Canonical s) (b : Nat) (f : Field) (v : Word) : Canonical (s.wrw b f v) := canonical_setReg h _ _

theorem canonical_setFlag (h : Canonical s) (b : Nat) (f : Field) (v : Bool) : Canonical (s.setFlag b f v) := canonical_setReg h _ _

theorem canonical_bumpBy (h : Canonical s) (b : Nat) (f : Field) (n : Nat) : Canonical (s.bumpBy b f n) := canonical_setReg h _ _

theorem canonical_bump (h : Canonical s) (b : Nat) (f : Field) : Canonical (s.bump b f) := canonical_setReg h _ _

theorem canonical_track (h : Canonical s) (b : Nat) (f : Field) (v : State → Bool) : Canonical (s.track b f v) := canonical_setReg h _ _

theorem canonical_dropPage (h : Canonical s) (id : Nat) : Canonical (s.dropPage id) := ⟨Store.wf_filter 0 _ _ h.1, h.2⟩

theorem canonical_clearPage (h : Canonical s) (id : Nat) : Canonical (s.clearPage id) := ⟨Store.wf_filter 0 _ _ h.1, h.2⟩

theorem canonical_when (h : Canonical s) (c : Bool) {f : State → State} (hf : Canonical s → Canonical (f s)) : Canonical (s.when c f) := by
  cases c
  · exact h
  · exact hf h

theorem canonical_foldl {α : Type} (f : State → α → State) (hf : ∀ s a, Canonical s → Canonical (f s a)) (l : List α) :
    ∀ s, Canonical s → Canonical (l.foldl f s) := by
  induction l with
  | nil => exact fun _ h => h
  | cons a l ih => exact fun s h => ih _ (hf s a h)

/-- A change of anything but the registers and the queue block's state. -/
theorem canonical_of_eq {t : State} (h : Canonical s) (hr : t.regs = s.regs) (hq : t.q.mem = s.q.mem) : Canonical t := by
  unfold Canonical
  rw [hr, hq]
  exact h

theorem canonical_writeGranule (h : Canonical s) (dom iova : Nat) (bytes : List Byte) (hr : Store.wf 0 (s.writeGranule dom iova bytes).2.regs = true) :
    Canonical (s.writeGranule dom iova bytes).2 := ⟨hr, State.writeGranule_wf s dom iova bytes h.2⟩

theorem canonical_canAuto (h : Canonical s) (c : Fin 2) : Canonical (s.canAuto c) := by
  unfold State.canAuto
  dsimp only
  split
  · exact canonical_setReg (canonical_wr (canonical_wr h _ _ _) _ _ _) _ _
  · exact h

theorem canonical_mirror (h : Canonical s) : Canonical s.mirror := by
  unfold State.mirror
  iterate 9 apply canonical_track
  exact h

theorem canonical_showSegments (h : Canonical s) : Canonical s.showSegments := by
  unfold State.showSegments State.darkSegments State.copySegments
  iterate 3 apply canonical_track
  split
  · iterate 2 apply canonical_track
    iterate 2 apply canonical_wr
    exact h
  · split
    · exact h
    · iterate 2 apply canonical_track
      iterate 2 apply canonical_wr
      exact h

/-- The end of a command keeps the stores canonical. -/
theorem canonical_settle (h : Canonical s) : Canonical s.settle := by
  unfold State.settle State.showKeys
  exact canonical_showSegments (canonical_canAuto (canonical_canAuto (canonical_wr (canonical_mirror h) _ _ _) _) _)

end Sys2Proof.Machine
end

