-- ==== Sys2Proof/Laws/Step.lean ====
section
/-! SUPPORT. What a step, the end of a command and the operations that many commands share can do: one lemma each, to be cited in place of unfolding it. -/

namespace Sys2Proof.Machine

/-- A step is one clock cycle, or the command at the front with the rest of the queue. -/
theorem step_cases (s t : State) (h : step s = .next t) :
    (s.pending = [] ∧ t = s.tick) ∨ ∃ i rest, s.pending = i :: rest ∧ exec i { s with pending := rest } = .next t := by
  unfold step at h
  split at h
  · next hp => exact Or.inl ⟨hp, by cases h; rfl⟩
  · next i rest hp => exact Or.inr ⟨i, rest, hp, h⟩

@[simp] theorem done_eq (s : State) : done s = .next s.settle := rfl

/-- A command row always ends in a settled state: that of its arrival, answered or not, or what its decision leaves, answered. -/
theorem command_cases (p : Port) (f : State → Code × State) (s : State) :
    command p f s = .next s.settle ∨ (∃ c, command p f s = .next (s.answer p c).settle) ∨ command p f s = .next ((f s).2.answer p (f s).1).settle := by
  unfold command
  split
  · exact Or.inl rfl
  · exact Or.inr (Or.inl ⟨_, rfl⟩)
  · exact Or.inr (Or.inl ⟨_, rfl⟩)
  · exact Or.inr (Or.inr rfl)

theorem commandHeld_cases (p : Port) (f : State → Option Code × State) (s : State) :
    ∃ t, commandHeld p f s = .next t.settle ∧ (t = s ∨ (∃ c, t = s.answer p c) ∨ t = (f s).2 ∨ ∃ c, (f s).1 = some c ∧ t = (f s).2.answer p c) := by
  unfold commandHeld
  split
  · exact ⟨s, rfl, Or.inl rfl⟩
  · exact ⟨_, rfl, Or.inr (Or.inl ⟨_, rfl⟩)⟩
  · exact ⟨_, rfl, Or.inr (Or.inl ⟨_, rfl⟩)⟩
  · cases hc : (f s).1 with
    | none => exact ⟨(f s).2, by simp [hc, done], Or.inr (Or.inr (Or.inl rfl))⟩
    | some c => exact ⟨(f s).2.answer p c, by simp [hc, done], Or.inr (Or.inr (Or.inr ⟨c, rfl, rfl⟩))⟩

/-! Shared operations. -/

/-- An occurrence is offered to the queue, or counted where it cannot be taken; it changes nothing but the recorder's queue and one counter. -/
theorem State.occur_cases (s : State) (src index : Nat) (mag : Rat) (key sig : Nat) :
    s.occur src index mag key sig = s.bump recBase Reg.REC_MISS_QLOST ∨
      ∃ o : Occurrence, o.src = src ∧ o.index = index ∧ o.key = key ∧ o.sig = sig ∧
        s.occur src index mag key sig = s.modRec fun r => { r with queue := r.queue ++ [o], seq := r.seq + 1 } := by
  unfold State.occur
  split
  · exact Or.inl rfl
  · exact Or.inr ⟨_, rfl, rfl, rfl, rfl, rfl⟩

/-- A change of module state leaves the state that it left in PREV. -/
theorem State.goMst_mst (s : State) (n : Nat) (h : n < 2 ^ Reg.MOD_STATE_STATE.width) : (s.goMst n).mst = n := by
  unfold State.goMst State.mst
  dsimp only
  split
  · rw [State.rd_wr_same _ _ _ _ (by decide), Nat.mod_eq_of_lt h]
  · rw [State.notice_rd, State.rd_wr_same _ _ _ _ (by decide), Nat.mod_eq_of_lt h]

theorem State.draw_snd (s : State) : s.draw.2 = { s with free := s.free + 1 } := rfl
theorem State.drawOutcome_snd (s : State) : s.drawOutcome.2 = { s with free := s.free + 1 } := rfl

/-- The end of an evaluation without an error changes the hidden state of its cell alone. -/
theorem State.evalEnd_good (s : State) (id : Nat) :
    s.evalEnd id false = s.modCell id fun c => { c with errHist := (false :: (s.cell id).errHist).take 64, good := c.good + 1 } := rfl

/-- A cell that a safe command takes: nothing for a trip output, and SAFE for every other but one in FAULT. -/
theorem State.takeSafe_tout (s : State) (id : Nat) (h : kindOf id = some .tout) : s.takeSafe id = s := by
  simp [State.takeSafe, h]

end Sys2Proof.Machine
end

