-- ==== Sys2Proof/WellFormed.lean ====
section
/-! DEFINITION. Which commands are well formed: the operands that name hardware name hardware the module has (R16, R17), and what arrives from outside has the
shape that its chapter gives it. A command that arrives ill formed still has its meaning in the machine; claims about well-formed commands start here. -/

namespace Sys2Proof

open Sys2Proof.Machine

/-- A cell with a cell ID (R9, R16). -/
def isCell (id : Nat) : Bool := id < 65536 && (kindOf id).isSome

/-- A block with common registers (R16, R105). -/
def isBlock (r b : Nat) : Bool := r != 0 && blockExists r b

/-- Registers of a loop slot that LOOP_STAGED_WRITE names: SP, MAN, the gains and the ramp rates (R141). -/
def loopOffsets : List Nat := [0x24, 0x28, 0x44, 0x48, 0x4C, 0x50, 0x54, 0x58, 0x5C, 0x60]

/-- The rate registers of an axis (R249). -/
def rateOffsets : List Nat := [0x3C, 0x40, 0x44, 0x48, 0x4C]

/-- A chain frame (R277): the bytes of TSPEC, and granules of 32 bytes. -/
def frameWf (f : ChainFrame) : Bool :=
  f.tspec.length == 6 && (f.payload.all fun g => g.length == 32) && 1 ≤ f.flits && (f.poisoned ++ f.corrected).all fun p => p < f.flits

/-- A CAN data frame (R353): classic frames carry at most 8 bytes, and the identifier fits its format. -/
def canFrameWf (f : CanFrame) : Bool :=
  (f.fdf || f.data.length ≤ 8) && f.data.length ≤ 64 && (f.ide || f.id.toNat < 0x800) && (f.fdf || !f.brs)

/-- Logical blocks of the journal (R384). -/
def journalBlocks : Nat := 16384

/-- An outcome of journal writes names logical blocks. -/
def outcomeWf (o : NvOutcome) : Bool := o.worn.all (· < journalBlocks) && o.fails ≤ 16384

/-- Granules of 32 bytes of each memory (R373): 2 GiB, 8 MiB, 64 MiB. -/
def memGranules : MemKind → Nat
  | .dram => 2 ^ 26
  | .sram => 2 ^ 18
  | .journal => 2 ^ 21

/-- A request as its transport received it: a network frame holds at most 1,468 bytes of it (R315, R316). -/
def arrivalWf : MgmtArrival → Bool
  | .usb _ bytes => bytes.length < 65536
  | .chain _ f => frameWf f

/-- The well-formed commands. -/
def WellFormed : Instr → Bool
  | .resetSource causes => !causes.isEmpty
  | .safetyRelevantFault _ _ sub => sub.toNat ≤ 6
  | .saveComplete blocks o => blocks.all (· < journalBlocks) && outcomeWf o
  | .evaluationWindowClose unfinished => unfinished.all isCell
  | .blockError b e => isBlock b.1 b.2 && e.word.all (fun w => w.1 < memGranules .sram) && e.affected.all fun id => id / 0x2000 == b.1 && id / 0x100 % 32 == b.2
  | .blockRecover r b => isBlock r b
  | .blockReintegrate _ r b => isBlock r b
  | .faultRetry c => isCell c
  | .recoverComplete c => isCell c
  | .cellClear _ c => isCell c
  | .cellTestEnter _ c => isCell c
  | .cellTestLeave _ c => isCell c
  | .forceWrite _ c _ _ _ => isCell c
  | .functionParameterWrite _ _ vals => !vals.isEmpty
  | .loopStagedWrite _ _ ws => !ws.isEmpty && ws.all fun w => loopOffsets.contains w.1
  | .resultSet _ m => m.samples.length == 16 && m.samples.all fun r => r.length == 8
  | .retestComplete sub => sub ≤ 6
  | .hartReply _ _ r => r.vars.length ≤ 4 && r.badFrames.toNat < 3
  | .hartNoReply _ _ n => n.toNat ≤ 3
  | .hartPassThroughComplete _ _ _ _ d => d.length ≤ 32
  | .fieldSupplySample _ _ _ amps => amps.length == 8
  | .blockLinkLoss r b => isBlock r b && r == 1
  | .axisRateWrite _ _ ws => !ws.isEmpty && ws.all fun w => rateOffsets.contains w.1
  | .alignmentFlit _ c => c.freed.length == 4 && c.returned.length == 4
  | .chainLinkLoss l => l.cut.all frameWf
  | .chainFrameReceive _ f returned => frameWf f && returned.length == 4
  | .piFrame f => frameWf f
  | .chainSafetyFrame f => frameWf f
  | .peerTimeout pc => pc.val != 0
  | .bulkFrame f => frameWf f
  | .bulknak f => frameWf f
  | .midTransferFault _ g _ => g < 2 ^ 21
  | .cyclicFrame _ f => f.pdus.isEmpty
  | .networkSafetyFrame _ f => f.entries.isEmpty
  | .lastgaspReceive _ f => f.entries.isEmpty && f.pdus.isEmpty
  | .mreq _ _ r => r.bytes.length ≤ 1468
  | .followerCompare drift => drift.length == 5
  | .storedRegisterWrite _ a _ o => a.toNat % 4 == 0 && outcomeWf o
  | .canFrameReceive _ f => canFrameWf f
  | .mailboxRead _ _ during => during.all canFrameWf
  | .scrubStep m g _ => g < memGranules m
  | .journalTransactionCommit homes fails worn => homes.length ≤ 8192 && homes.all (fun g => g < memGranules .journal) && outcomeWf ⟨fails, worn⟩
  | .journalApply n o => n ≤ 8192 && outcomeWf o
  | .trimApply _ _ o => outcomeWf o
  | .trimClear _ _ o => outcomeWf o
  | .keyInstall _ w _ => outcomeWf w.o
  | .keyRevoke _ w => outcomeWf w.o
  | .summaryWrite o => outcomeWf o
  | .intervalEnd o => outcomeWf o
  | .recClear _ o => outcomeWf o
  | .modeNextWrite _ _ o => outcomeWf o
  | .heldWriteDecision _ o => outcomeWf o
  | .selftestComplete r => outcomeWf r.replay
  | .blockRetirement l => l < journalBlocks
  | .wearLevelExchange a b => a < journalBlocks && b < journalBlocks && a != b
  | .frameBufferWrite _ _ d => d.length ≤ 8
  | .powerFail _ checks _ o => checks.length ≤ 5 && outcomeWf o
  | .readRegisters _ _ n => n < 65536
  | .managementRequest a => arrivalWf a
  | .railsGoodPllLocked | .enumWindowClose | .chimeHeadStart | .chimeToken .. => true
  | .chimeEnd .. | .chimeClash | .chimeReq | .bootBankRead .. | .modCmdNop .. => true
  | .modCmdRun .. | .autostart | .modCmdStop .. | .modCmdService .. | .modCmdServiceExit .. => true
  | .modCmdRelease .. | .modCmdRestart .. | .lockstepOutputMismatch .. | .clapperFault .. | .delayFault .. => true
  | .safeInNTransition .. | .safeInHardwireTimeout | .backgroundCompare .. | .resyncRelease .. | .debugAttach .. => true
  | .debugDetach .. | .debugNop .. | .imgOpen .. | .openComplete | .recordUnit .. => true
  | .imgValidate .. | .validateComplete | .imgSave .. | .imgCommit .. | .preparationComplete => true
  | .imgAbort .. | .imgNop .. => true
  | .bootBankUpdate | .keyNop .. | .strokeBoundary .. | .evaluationWindowOpen | .regionFault .. | .oscillationDetect .. => true
  | .detuneRelax .. | .loopModeRequest .. | .gainSelect .. | .detuneReset .. | .syncArm .. => true
  | .permitRise .. | .permitFall .. | .syncBlock .. | .phasorEventPickup .. | .phasorInvalidTimeout .. => true
  | .tocsinScan .. | .scanWatchdogExpiry | .matrixCrcCheck .. | .safetyPduReceive .. | .safetyConnectionTimeout .. => true
  | .safetyPduSend .. | .tripReset .. | .bypass .. | .bypassExpiry .. | .causeAck .. => true
  | .retest .. | .converterResult .. | .burnOutTest .. | .referenceSelfCheck .. | .complianceSample .. => true
  | .complianceEntry .. | .complianceExit .. | .outputOpenLoop .. | .outputStageFault .. | .channelSupplyFailure .. => true
  | .hartPoll .. | .hartRequest .. | .trimCaplo .. | .trimCaphi .. => true
  | .trimDiscard .. | .trimNop .. | .inputFilterSettle .. | .fieldSupplyConditionSet .. => true
  | .fieldSupplyConditionClear .. | .shedRestore .. | .rearm .. | .cellWatchdogExpiry .. | .wiringFault .. => true
  | .supervisionFaultSet .. | .supervisionFaultClear .. | .profileUpdate .. | .holdCurrent .. | .limitInputChange .. => true
  | .limitChatterClear .. | .homingGo .. | .homingAbort .. | .homingSwitchFound .. | .homingRestEnd .. => true
  | .homingReferenceEdge .. | .homingTimeout .. | .homingNoIndex .. | .encoderError .. | .stall .. => true
  | .stallClear .. | .chopsat .. | .motorSupplyConditionSet .. | .motorSupplyConditionClear .. | .axisFault .. => true
  | .chainLinkTrained .. | .frameForward .. | .receiveMessageTimeout .. | .descriptorPost .. => true
  | .ringTxen .. | .ringTxdis .. | .ringRxen .. | .ringRxdis .. | .txresume .. => true
  | .rxresume .. | .descriptorStart | .descriptorComplete .. | .descriptorAccessFault .. | .iommuInvalidate .. => true
  | .sfpInsert .. | .sfpDiagnostics .. | .networkLinkChange .. | .safetyFrameSend | .arpRequest .. => true
  | .icmpEcho .. | .switchoverTrigger .. | .callFollow .. | .callEnd .. | .islandFault .. => true
  | .switch .. | .syncMessage .. | .delayReqSend | .delayResp .. | .announce .. => true
  | .holdoverTimeout | .chainSyncSend | .chainAnnounceSend | .chainDelayReq .. => true
  | .tmSet .. | .canIntegration .. | .canErrorStateChange .. | .busOffRecovery .. | .canRecover .. => true
  | .remoteFrame .. | .canFrameStart .. | .canTxDone .. | .canTxError .. | .txRequest .. => true
  | .txCancel .. | .mailboxTimeout .. | .transceiverSupplyFault .. | .occurrenceTake => true
  | .recFreeze .. | .recUnfreeze .. | .freezeTimeout => true
  | .panelFrame | .panelTemperature .. | .updateRequest .. | .pageRender .. | .pageStale | .initUpdateComplete => true
  | .clockFault .. | .hutest .. | .bankMeasurementComplete .. | .hulowTimeout | .bankExhausted .. => true
  | .powerFailSequenceEnd .. | .supPresent | .writeRegisters .. | .pairDiscard .. | .unsupportedMessage .. => true
  | .alarmQueueAccept .. | .alarmQueueRead | .alarmAcknowledge .. | .timeSet .. => true
  | .readTransaction | .writeTransaction | .receiveFilterDrop .. | .canReceiveError .. => true
  | .transceiverSupplyGood .. | .referenceClockReturn .. | .regionFaultClear .. | .suplow .. | .huready .. => true
  | .sfpRemove .. => true

end Sys2Proof
end

