-- ==== Sys2Proof/Tests/Slice0.lean ====
section
/-! SUPPORT. Tests: ill-formed commands that WellFormed refuses; results that worked examples and check values of the spec give; and for every statement
of Certificates/Slice0 that has hypotheses, states and operands that meet them, clause by clause. -/

set_option Elab.async false

namespace Sys2Proof.Machine

/-- The module after reset, in a module state. -/
def inSt (m : Nat) : State := State.reset.wr modBase Reg.MOD_STATE_STATE m

/-- A record of the station image. -/
def aRec (ty sub target payload : Nat) : Record := BitVec.ofNat 256 (ty * 2 ^ 248 + sub * 2 ^ 240 + target * 2 ^ 224 + payload)

/-- The running configuration holds these records too. -/
def State.put (s : State) (l : List Record) : State := s.modImg fun x => { x with active := l ++ x.active }

/-- A cell of the running configuration, with its SUB 0 payload and its state. -/
def State.withCell (s : State) (id st payload : Nat) : State :=
  ((s.put [aRec T_CELL 0 id payload]).wr (cellBase id) Reg.CELL_STATE_EXISTS 1).wr (cellBase id) Reg.CELL_STATE_STATE st

/-! One term of each kind that happenings carry. -/
def aFrame : ChainFrame :=
  { dst := 1, src := 2, ty := 1, hops := 1, len := 1, valid := 0, stroke := 7, timeS := 0, timeNs := 0, tspec := [0, 0, 0, 1, 0, 0], payload := [],
    vc := 0, flits := 1, badFlits := 0, corrected := [], poisoned := [] }
def aSahvos : Sahvos :=
  { ver := 1, kind := 1, flags := 0, addr := 1, station := 0, stroke := 7, timeS := 0, timeNs := 0, units := 4, part := 0, nparts := 1, count := 0,
    entries := [], pdus := [] }
def aHead : MacHead := { fcsOk := true, length := 64, dst := 0xFFFFFFFFFFFF, vid := none }
def aPtp : PtpHead := { sender := 3, domain := 0, seq := 9, logInterval := 0 }
def aTest : SelfTest :=
  { failed := [], tocsinSub := 0, missed := [0, 0, 0, 0], bankReached := true, capUF := 1000, cnvFail := 0, detail := 0, fcalBad := 0,
    dramBad := [], replay := .clean }
def aMeas : PhasorMeas := { samples := List.replicate 16 (List.replicate 8 (some 0)) }
def aReply : HartReply :=
  { vars := [some 0x3F800000, none, none, none], malfunction := false, pvOutOfLimits := false, nonPvOutOfLimits := false, burst := false, badFrames := 0 }
def aCan : CanFrame := { id := 5, ide := false, fdf := false, brs := false, esi := false, dlc := 1, data := [7] }
def aAnnounce : Announce :=
  { head := aPtp, gm := { id := 4, priority1 := 128, clockClass := 6, accuracy := 0x21, variance := 0, priority2 := 128 }, steps := 1,
    utc := { offset := 37, valid := true, ptpTimescale := true } }

/-- The bytes of a request by its operations: address, OP and data; a read is of one register. -/
def aBytes (ops : List (Nat × Nat × List Word)) : List Byte :=
  leList 5 2 ++ [BitVec.ofNat 8 ops.length, 0] ++ ops.flatMap fun e =>
    leList e.1 4 ++ [BitVec.ofNat 8 (max 1 e.2.2.length), BitVec.ofNat 8 e.2.1, 0, 0] ++ e.2.2.flatMap fun w => leList w.toNat 4

/-- A request of the service port. -/
def aReqOf (ops : List (Nat × Nat × List Word)) : MgmtReq := ⟨.usb, (aBytes ops).length, aBytes ops⟩
def aReq : MgmtReq := aReqOf [(0x400FFF3C, 1, [])]

/-- Its arrival. -/
def aUsb (r : MgmtReq) : MgmtArrival := .usb { aSahvos with kind := 3, count := BitVec.ofNat 16 r.declared } r.bytes
def aOcc : Occurrence := { src := 1, index := 0, mag := 0, stroke := 0, s := 0, ns := 0, key := 0, seq := 0, sig := 0 }
def aPixel : Pixel := { Pixel.init with drive := some ⟨0, 0, false, 0, 1⟩, begun := true, frames := [1, 1] }
def aDesc : Desc := { buf := 0, dest := 0, len := 32, op := 2, last := true, daddr := 0, dqp := 0 }

/-- A public key, and a full section of five records that it signs (RFC 8032). -/
def aKey : BitVec 256 := 0xb83155126486dc1d5f0da59b30d6e46799c04be718dd701dbe10cef3bf07a103
def aSection : List Record :=
  [0x0100ffff00000000000000000000000000000000000000050002030000000001, 0x0200ffff00010000000000000000000000000000000000000000000000000008,
   0xf000ffff00020000000000000000000000000000000000000000000000000100, 0x43c8b6f37be143798751917ffb056a71818ecd486d6901e1dab552050e7f5b12,
   0x0dc76ae405b4fbc67ee2b4f52700bb3e4b4521dd9c65cf3c1860641ffeb92713]

/-- LOAD with the section saved in bank 0 and its key in slot 0. -/
def savedBank : State :=
  ((inSt stLoad).wr nvjBase (keyField 0) 1).modImg fun x => { x with keys := [aKey, 0, 0, 0], b0 := { x.b0 with savedMain := aSection, savedOk := true } }

/-- What a transaction leaves, where it passes. -/
def passed (x : (Code × Nat × Nat × Word) ⊕ State) : State := match x with
  | .inr t => t
  | .inl _ => State.reset

/-- What a step leaves. -/
def stepped (x : Host.Outcome State Fault Refusal) : State := match x with
  | .next t => t
  | _ => State.reset

/-- A write of one register, or of two. -/
def aWrite (l : List (Nat × Word)) : MgmtReq := aReqOf (l.map fun e => (e.1, 2, [e.2]))

theorem passed_eq (x : (Code × Nat × Nat × Word) ⊕ State) (h : x.isRight = true) : x = .inr (passed x) := by
  cases x <;> simp_all [passed]

theorem stepped_eq (x : Host.Outcome State Fault Refusal) (h : (match x with
    | .next _ => true
    | _ => false) = true) : x = .next (stepped x) := by
  cases x <;> simp_all [stepped]

/-- A broadcast without a VLAN tag passes a path's receiver where none is configured. -/

theorem rx_ok (s : State) (p : Path) (h : s.nrd p Reg.NET_VLAN_VID = 0) : s.dropRx p aHead = none := by
  simp [State.dropRx, aHead, h]

/-- So does a frame to the path itself. -/

theorem rx_mac (s : State) (p : Path) (h : s.nrd p Reg.NET_VLAN_VID = 0) : s.dropRx p { aHead with dst := macOf p } = none := by
  simp [State.dropRx, aHead, h]

/-- What the time block hears on the chain, and on a path. -/

theorem heard_chain (s : State) (src : BitVec 8) (h : s.ptpUp = true) : PtpHeard s (.chain src) := ⟨h, fun _ _ e => nomatch e⟩

theorem heard_path (s : State) (p : Path) (h : s.ptpUp = true) (r : s.role p ≠ roleOff) (v : s.nrd p Reg.NET_VLAN_VID = 0) :
    PtpHeard s (.path p aHead) := ⟨h, fun _ _ e => by cases e; exact ⟨r, rx_ok s p v⟩⟩

/-- Another clock announces itself. -/
def anAnnounce : Announce := { aAnnounce with head := { aPtp with sender := Config.clockIdentity + 1 } }

theorem another : anAnnounce.head.sender ≠ Config.clockIdentity := by simp [anAnnounce]

/-- A transmit ring with a posted descriptor, whose domain maps page 0. -/
def ringSt : State :=
  (((((inSt stReady).withCell (qpId 31) csRun 0).wr (cellBase (qpId 31)) Reg.QP_CFG_TXLOG 4).wr (cellBase (qpId 31)) Reg.QP_STATUS_TXON 1).wr
    (cellBase (qpId 31)) Reg.QP_TXPTR_TAIL 1).modQp 31 (fun x => { x with live := true })
    |>.modQ fun x => { x with tlb := [⟨0, false, 0, 0, true, true⟩], roots := [(0, 0x80000000)] }

/-- CP3 is isolated, and the journal takes no transaction. -/
def noJournal (s : State) : State := s.wr (blkBase 2 28) Reg.BLK_STATE_STATE bkIsolated

/-- The flips that make a word the poison pattern. -/
def poisonFlips : BitVec 276 := 7#276 <<< 256

/-- A held write of REC.CFG, which the journal keeps. -/
def keptWrite : MgmtReq := aWrite [(recBase + 0x20, 60)]
def heldSt : State := (inSt stReady).modMgmt fun x => { x with held := [keptWrite] }
def heldU (s : State) : State := s.modMgmt fun m => { m with held := m.held.eraseIdx 0 }
def heldHomes (s : State) : List Nat := keptWrite.registers.flatMap fun e => (heldU s).keptHome e.2.1 e.2.2
def heldV (s : State) : State := ((heldU s).commitTxn (heldHomes s) .clean).2
def heldT (s : State) : State := passed (writeAll keptWrite.port true false [] [] keptWrite.registers s)

theorem pair_eq {α : Type} (x : Code × α) (c : Code) (h : x.1 = c) : x = (c, x.2) := by cases x; simp_all

/-- A run of hypotheses that one decision settles, before others. -/

theorem met2 {a b z : Prop} (h : a ∧ b) (k : z) : a ∧ b ∧ z := by simp_all

theorem met3 {a b c z : Prop} (h : a ∧ b ∧ c) (k : z) : a ∧ b ∧ c ∧ z := by simp_all

theorem met4 {a b c d z : Prop} (h : a ∧ b ∧ c ∧ d) (k : z) : a ∧ b ∧ c ∧ d ∧ z := by simp_all

theorem met5 {a b c d e z : Prop} (h : a ∧ b ∧ c ∧ d ∧ e) (k : z) : a ∧ b ∧ c ∧ d ∧ e ∧ z := by simp_all

/-! Well-formed commands. -/

/-- An ill-formed term for each check of WellFormed (first half). -/
theorem test_wf_refuses_one : (([ .resetSource [], .safetyRelevantFault .tstFail 0 7, .saveComplete [] ⟨0, [16384]⟩, .saveComplete [16384] .clean, 
     .evaluationWindowClose [0], .blockError (1, 11) ⟨[], none⟩, .blockError (1, 0) ⟨[cellId 1 1 0], none⟩, 
     .blockError (1, 0) ⟨[], some (2 ^ 18, ⟨false, 1⟩)⟩, .blockRecover 0 0, .blockReintegrate .service 5 0, .faultRetry (cellId 1 0 8), 
     .recoverComplete 0x10000, .cellClear .service (cellId 2 31 0), .cellTestEnter .service 0, .cellTestLeave .service 0, 
     .forceWrite .service 0 1 0 0, .functionParameterWrite .service 0 [], .loopStagedWrite .service 0 [], 
     .loopStagedWrite .service 0 [(0x2C, 0)], .resultSet 0 { samples := [] }, .resultSet 0 { samples := List.replicate 16 [] }, 
     .retestComplete 7, .hartReply 0 0 { aReply with vars := List.replicate 5 none }, .hartReply 0 0 { aReply with badFrames := 3 }, 
     .hartPassThroughComplete 0 ⟨true, 0⟩ 0 0 (List.replicate 33 0), .fieldSupplySample 0 0 ⟨0, 0⟩ [], .blockLinkLoss 2 0, 
     .axisRateWrite .service 0 [], .axisRateWrite .service 0 [(0x50, 0)], .alignmentFlit .up ⟨[], [0, 0, 0, 0]⟩, 
     .alignmentFlit .up ⟨[0, 0, 0, 0], []⟩, .chainLinkLoss ⟨.up, [{ aFrame with tspec := [] }]⟩, 
     .chainFrameReceive .up { aFrame with tspec := [] } [0, 0, 0, 0], .chainFrameReceive .up aFrame [], .piFrame { aFrame with flits := 0 }, 
     .chainSafetyFrame { aFrame with payload := [[1]] } ] : List Instr).all fun i => !WellFormed i) = true := by decide +kernel

/-- An ill-formed term for each check of WellFormed (second half). -/
theorem test_wf_refuses_two : (([ .peerTimeout 0, .bulkFrame { aFrame with poisoned := [1] }, .bulknak { aFrame with tspec := [] }, 
     .midTransferFault ⟨0, false⟩ (2 ^ 21) ⟨true, 1⟩, .cyclicFrame ⟨.a, aHead⟩ { aSahvos with pdus := [0] }, 
     .networkSafetyFrame ⟨.a, aHead⟩ { aSahvos with entries := [(1, 0)] }, .lastgaspReceive ⟨.a, aHead⟩ { aSahvos with pdus := [0] }, 
     .mreq ⟨.a, aHead⟩ none ⟨0, aSahvos, List.replicate 1469 0⟩, .followerCompare [0], .storedRegisterWrite .service 0x400FFF21 0 .clean, 
     .canFrameReceive 0 { aCan with data := List.replicate 9 0 }, .canFrameReceive 0 { aCan with fdf := true, data := List.replicate 65 0 }, 
     .canFrameReceive 0 { aCan with id := 0x800 }, .mailboxRead .service 0 [{ aCan with brs := true }], .scrubStep .journal (2 ^ 21) 0, 
     .journalTransactionCommit [2 ^ 21] 0 [], .journalTransactionCommit [] 0 [16384], .journalApply 8193 .clean, .journalApply 1 ⟨0, [16384]⟩, 
     .trimApply .service 0 ⟨0, [16384]⟩, .trimClear .service 0 ⟨0, [16384]⟩, .keyInstall .service ⟨0, ⟨0, [16384]⟩⟩ 0, 
     .keyRevoke .service ⟨0, ⟨0, [16384]⟩⟩, .summaryWrite ⟨0, [16384]⟩, .intervalEnd ⟨0, [16384]⟩, .recClear .service ⟨0, [16384]⟩, 
     .modeNextWrite .service true ⟨0, [16384]⟩, .heldWriteDecision 0 ⟨0, [16384]⟩, .selftestComplete { aTest with replay := ⟨0, [16384]⟩ }, 
     .blockRetirement 16384, .wearLevelExchange 5 5, .frameBufferWrite .service 0 (List.replicate 9 0), 
     .powerFail ⟨0, 0⟩ (List.replicate 6 0) 0 .clean, .readRegisters 0 0 65536, .managementRequest (.usb aSahvos (List.replicate 65536 0)), 
     .managementRequest (.chain .up { aFrame with tspec := [] }) ] : List Instr).all fun i => !WellFormed i) = true := by decide +kernel

/-- Terms at the ends of the ranges pass. -/
theorem test_wf_takes : (([ .resetSource [.cmd], .safetyRelevantFault .tstFail 0 6, .blockError (1, 10) ⟨[], none⟩, .cellClear .service (cellId 1 0 7), 
     .loopStagedWrite .service 0 [(0x24, 0)], .resultSet 0 aMeas, .hartReply 0 0 aReply, 
     .chainFrameReceive .up { aFrame with payload := [List.replicate 32 0] } [0, 0, 0, 0], .peerTimeout 63, 
     .mreq ⟨.a, aHead⟩ none ⟨0, aSahvos, List.replicate 1468 0⟩, .canFrameReceive 0 aCan, .scrubStep .journal (2 ^ 21 - 1) 0, 
     .journalApply 8192 ⟨2, [16383]⟩, .powerFail ⟨0, 0⟩ (List.replicate 5 0) 0 .clean ] : List Instr).all WellFormed) = true := by decide +kernel

/-! Results that the spec states. -/

/-- Service addresses of the worked examples of chapters 04, 06, 07, 08, 09, 10, 11 and 13 (R7, R17). -/
theorem test_addresses :
    cellBase (lpId 72) + Reg.LP_SP.off = 0x20100824 ∧ lpId 72 = 0x4108 ∧ cellBase (toId 3) + Reg.TOUT_CTRL_RESET.off = 0x21800324 ∧ toId 3 = 0x5803 ∧
    cellBase (ucId 17) = 0x10200100 ∧ ucId 17 = 0x2201 ∧ cellBase (dpId 9) + Reg.DP_CTRL_REARM.off = 0x10500130 ∧ dpId 20 = 0x2604 ∧
    cellBase (axId 2) + Reg.AX_HCTRL_GO.off = 0x10900058 ∧ axId 1 = 0x2801 ∧ cellBase (qpId 12) + Reg.QP_CTRL_TXEN.off = 0x30300C34 ∧
    netBase .a + Reg.NET_CTRL_SWITCH.off = 0x300FFF3C ∧ canBase 1 + Reg.CAN_TXB_CMD_REQ.off = 0x305FFFB8 ∧ fcId 1000 = 0x4BE8 ∧ lpId 300 = 0x442C := by
  decide +kernel

/-- R168: the check value of the CRC over "123456789". -/
theorem test_crc32c : crc32c [0x31, 0x32, 0x33, 0x34, 0x35, 0x36, 0x37, 0x38, 0x39] = 0xE3069283 := by decide +kernel

/-- R38: the image ID of the section of chapter 02's example, from the first bytes of its R value. -/
theorem test_image_id : imageIdOf [0, BitVec.ofNat 256 0x5A17C0DE00429B13, 0] = 0x5A17C0DE00429B13 := by decide +kernel

/-- The trim of chapter 07's example: points 4.000 mA read as 4.012 and 20.000 mA read as 19.982 give gain 1.0018785 and offset −0.019537 mA. -/
theorem test_trim_example :
    (((inSt stService).withCell (ucId 17) csRun 0x00000106).trimOf 17 (0x40800000, 0x4080624E) (0x41A00000, 0x419FDB23)).any (fun go =>
      decide (dec 10018780 7 ≤ go.1 ∧ go.1 ≤ dec 10018790 7 ∧ -(dec 19540 6) ≤ go.2 ∧ go.2 ≤ -(dec 19530 6))) = true := by decide +kernel

/-- The journal of chapter 14's example: blocks 100 and 140 worn out, no spare left, one recorder block, bank 1 valid and saved. -/
def wornJournal : State :=
  (((((inSt stRun).modJrn fun j => { j with worn := [100, 140] }).wr nvjBase Reg.NVJ_SPARES_SPARES 0).wr nvjBase Reg.NVJ_SPARES_RETIRED 15599).wr nvjBase Reg.NVJ_PART_RECBLKS 1).wr nvjBase
    Reg.IMG_STATUS_B1SAVED 1

/-- Chapter 14's example at t0: block 1,296 leaves the recorder partition for block 100. -/
theorem test_retirement_recorder_donor :
    let t := stepped (execBlockRetirement 100 wornJournal)
    t.rd nvjBase Reg.NVJ_PART_RECBLKS = 0 ∧ t.rd nvjBase Reg.NVJ_SPARES_RETIRED = 15600 ∧ t.flag modBase Reg.MOD_HEALTH_NV_DEGRADED = false := by
  decide +kernel

/-- Chapter 14's example nine days later: the highest logical block of bank 1 replaces block 140, and the journal is degraded. -/
theorem test_retirement_image_donor :
    let t := stepped (execBlockRetirement 140 (stepped (execBlockRetirement 100 wornJournal)))
    t.rd nvjBase Reg.NVJ_PART_IMGBLKS = 1039 ∧ t.rd nvjBase Reg.NVJ_SPARES_RETIRED = 15601 ∧ t.flag nvjBase Reg.NVJ_STATUS_DEGRADED = true ∧
      t.flag nvjBase Reg.IMG_STATUS_B1SAVED = false := by
  decide +kernel

/-- Chapter 13's example: of buffers with identifiers 0x300 and 0x0C0, both pending, the controller starts the second. -/
theorem test_can_lowest_identifier :
    let s := ((((inSt stRun).cwr 1 Reg.CAN_STATUS_ESTATE ceActive).setBuf 1 0 bsPending).setBuf 1 1 bsPending)
    ((s.modBuf 1 0 fun b => { b with id := 0x300 }).modBuf 1 1 fun b => { b with id := 0x0C0 }).candidate 1 = some (.inl 1) := by
  decide +kernel

/-- Chapter 06's example: input 11 allows 60 minutes, and a bypass of 1,800 s is granted. -/
theorem test_bypass_example :
    let r := aRec T_TRIPIN 0 0xFFFF (11 + 0x100 + 10 * 0x10000 + 2 * 2 ^ 32 + 2 * 2 ^ 40 + 60 * 2 ^ 48)
    let t := stepped (execBypass .service 1800 (((inSt stRun).put [r]).wr tbBase Reg.TB_TISEL_INPUT 11))
    t.rd tbBase Reg.TB_STATUS_NBYP = 1 ∧ (t.tin 11).granted = 1800 ∧ t.outbox = [.result .service E_OK] := by
  decide +kernel

/-- R36, R37, R50: a full section signed by the key in slot 0 validates, and boots. -/
theorem test_signed_section : ((savedBank.loadBank false []).loadBank true []).validBank savedBank.bootBank = true := by decide +kernel

/-- R283, R285: the head names itself 1 and offers 2 downward. -/
theorem test_head_start :
    let t := stepped (execChimeHeadStart (((inSt stEnum).setLink .down 2).modCport .down fun c => { c with cred := [8, 8, 8, 8] }))
    t.chain.provisional = some 1 ∧ t.outbox = [.chime .down 1 2] := by
  decide +kernel

/-- R393, R465: a transaction that writes MEM.SCRUB is answered OK; 169 is outside its range. -/
theorem test_write_transaction :
    let go (w : Word) := stepped (execWriteTransaction ((inSt stReady).modMgmt fun x => { x with queue := [(0, aWrite [(memBase + 0x3C, w)])] }))
    (go 168).rd memBase Reg.MEM_SCRUB_PERIOD = 168 ∧ (go 169).rd memBase Reg.MEM_SCRUB_PERIOD = 12 ∧
      (go 169).outbox = [.usb { (inSt stReady).mgmtFrame .a 0 ([5, 0, E_RANGE, 0, 1, 0, 0, 0]) with vid := 0, pcp := 0 }] := by
  decide +kernel

/-- R374–R377: a word with one flipped bit is corrected, and one read at an address of the other parity is misdirected or worse. -/
theorem test_word_code :
    (decodeWord (5 ^^^ 64) (checkBits 5 3) 3).2 = 5 ∧ (decodeWord (5 ^^^ 64) (checkBits 5 3) 3).1.corrected = true ∧
      (decodeWord 5 (checkBits 5 3) 2).1.bad = true := by
  decide +kernel

/-! Hypotheses met. -/

theorem test_met_StartUpPathFromResetToEnum :
    (∃ (s : State) (l : List ResetCause) (c : ResetCause), s.mst ≠ stPfail ∧ lowestSource l = some c) ∧
    (∃ (s : State), s.mst = stPowerup) ∧
    (∃ (s : State) (r : SelfTest), s.mst = stSelftest ∧ s.rd pwrBase Reg.PWR_STFAIL_DIGIT = 0 ∧ r.failed = [] ∧ r.tocsinSub = 0 ∧ r.missed = [0, 0, 0, 0] ∧
      r.bankReached = true ∧ 840 ≤ r.capUF.toNat ∧ (∀ k < 5, s.flag modBase (regFltField k) = false) ∧ s.causes = 0 ∧ s.chain.kept = none ∧
      s.toc.safeIn = true) ∧
    (∃ (s : State) (r : SelfTest), s.mst = stSelftest ∧ s.rd pwrBase Reg.PWR_STFAIL_DIGIT = 0 ∧ 1 ∈ r.failed ∧ r.tocsinSub = 0) :=
  ⟨⟨inSt stReady, [.cmd], .cmd, by decide +kernel⟩,
   ⟨inSt stPowerup, by decide +kernel⟩,
   ⟨(inSt stSelftest).modToc fun x => { x with safeIn := true }, aTest, by decide +kernel⟩,
   ⟨inSt stSelftest, { aTest with failed := [1] }, by decide +kernel⟩⟩

theorem test_met_ChimeEnumerationGivesAddresses :
    (∃ (s : State), s.mst = stEnum ∧ s.chain.provisional = none ∧ s.sahvosUp = true ∧ s.link .up ≠ 2 ∧ ChimeClear s .down) ∧
    (∃ (s : State), s.mst = stEnum ∧ s.chain.provisional = none ∧ s.sahvosUp = true ∧ ChimeClear s .up ∧ s.chain.tokenSeen = false) ∧
    (∃ (s : State) (v : BitVec 8), s.mst = stEnum ∧ s.chain.provisional = none ∧ s.sahvosUp = true ∧ s.link .up = 2 ∧ ChimeClear s .down ∧ v.toNat ≤ 63) ∧
    (∃ (s : State) (v : BitVec 8), s.mst = stEnum ∧ s.chain.provisional = none ∧ s.sahvosUp = true ∧ s.link .up = 2 ∧ 64 ≤ v.toNat) ∧
    (∃ (s : State) (p : ChainPort), s.mst = stRun ∧ s.sahvosUp = true ∧ ChimeClear s p ∧ s.addr ≠ 0) ∧
    (∃ (s : State) (a : Nat) (v : BitVec 8), s.mst = stEnum ∧ s.chain.provisional = some a ∧ a ≤ 63 ∧ v.toNat ≤ 63 ∧ s.sahvosUp = true ∧ s.link .down = 2) ∧
    (∃ (s : State) (a : Nat), s.mst = stEnum ∧ s.chain.provisional = some a ∧ s.sahvosUp = true ∧ s.link .down = 2) ∧
    (∃ (s : State), s.mst ≠ stEnum ∧ s.addr ≠ 0 ∧ s.sahvosUp = true ∧ ChimeClear s .down) ∧
    (∃ (s : State) (a : Nat), s.mst = stEnum ∧ s.chain.provisional = some a ∧ a ≤ 63) ∧
    (∃ (s : State), s.mst = stEnum ∧ s.chain.provisional = none ∧ s.chain.tokenSeen = false) :=
  ⟨⟨((inSt stEnum).setLink .down 2).modCport .down fun x => { x with cred := [9, 9, 9, 9] }, by decide +kernel⟩,
   ⟨((inSt stEnum).setLink .up 2).modCport .up fun x => { x with cred := [9, 9, 9, 9] }, by decide +kernel⟩,
   ⟨(((inSt stEnum).setLink .up 2).setLink .down 2).modCport .down fun x => { x with cred := [9, 9, 9, 9] }, 0, by decide +kernel⟩,
   ⟨(inSt stEnum).setLink .up 2, 64, by decide +kernel⟩,
   ⟨(((inSt stRun).wr modBase Reg.MOD_ADDR_ADDR 63).setLink .down 2).modCport .down fun x => { x with cred := [9, 9, 9, 9] }, .down, by decide +kernel⟩,
   ⟨((inSt stEnum).modChain fun x => { x with provisional := some 0 }).setLink .down 2, 0, 0, by decide +kernel⟩,
   ⟨((inSt stEnum).modChain fun x => { x with provisional := some 0 }).setLink .down 2, 0, by decide +kernel⟩,
   ⟨(((inSt stReady).wr modBase Reg.MOD_ADDR_ADDR 63).setLink .down 2).modCport .down fun x => { x with cred := [9, 9, 9, 9] }, by decide +kernel⟩,
   ⟨(inSt stEnum).modChain fun x => { x with provisional := some 0 }, 0, by decide +kernel⟩,
   ⟨inSt stEnum, by decide +kernel⟩⟩

theorem test_met_ModuleCommandsMoveTheModuleState :
    (∃ (s : State) (p : Port), Served s p) ∧
    (∃ (s : State) (p : Port), Served s p ∧ s.mst = stReady ∧ s.tstate = tsArmed ∧ s.flag tbBase Reg.TB_STATUS_STPASS = true ∧
      s.flag tbBase Reg.TB_STATUS_DBGFLAG = false) ∧
    (∃ (s : State) (p : Port), Served s p ∧ s.tstate ≠ tsArmed) ∧
    (∃ (s : State), s.mst = stReady ∧ s.tstate = tsArmed ∧ s.flag tbBase Reg.TB_STATUS_STPASS = true ∧ s.flag tbBase Reg.TB_STATUS_DBGFLAG = false ∧
      recByte (moduleOf s.img.active) 2 = 1) ∧
    (∃ (s : State) (p : Port), Served s p ∧ s.mst = stRun) ∧
    (∃ (s : State) (p : Port), Served s p ∧ s.mst ≠ stRun) ∧
    (∃ (s : State), Served s .service ∧ s.mst = stReady) ∧
    (∃ (s : State) (p : Port), Served s p ∧ p ≠ .service) ∧
    (∃ (s : State) (p : Port), Served s p) ∧
    (∃ (s : State) (p : Port), Served s p ∧ s.mst = stService ∧ s.causes = 0 ∧ s.flag (cpBase 0) Reg.CP_STATUS_SPLIT = false ∧ s.tstate ≠ tsSafe) ∧
    (∃ (s : State) (p : Port), Served s p ∧ s.mst = stService ∧ s.causes ≠ 0 ∧ s.flag (cpBase 0) Reg.CP_STATUS_SPLIT = false) ∧
    (∃ (s : State) (p : Port), Served s p ∧ s.mst ≠ stService) ∧
    (∃ (s : State) (p : Port), Served s p ∧ s.mst = stSafe ∧ s.causes = 0 ∧ s.toc.safeIn = true ∧ s.flag tbBase Reg.TB_STATUS_STPASS = true ∧
      s.flag tbBase Reg.TB_STATUS_RETESTING = false ∧ s.tstate = tsSafe) ∧
    (∃ (s : State) (p : Port), Served s p ∧ s.causes ≠ 0) :=
  ⟨⟨inSt stReady, .service, by decide +kernel⟩,
   ⟨((inSt stReady).wr tbBase Reg.TB_STATUS_TSTATE tsArmed).wr tbBase Reg.TB_STATUS_STPASS 1, .service, by decide +kernel⟩,
   ⟨inSt stReady, .service, by decide +kernel⟩,
   ⟨(((inSt stReady).wr tbBase Reg.TB_STATUS_TSTATE tsArmed).wr tbBase Reg.TB_STATUS_STPASS 1).put [aRec T_MODULE 0 0xFFFF 0x10000], by decide +kernel⟩,
   ⟨inSt stRun, .service, by decide +kernel⟩,
   ⟨inSt stReady, .service, by decide +kernel⟩,
   ⟨inSt stReady, by decide +kernel⟩,
   ⟨inSt stReady, .chainUp, by decide +kernel⟩,
   ⟨inSt stReady, .service, by decide +kernel⟩,
   ⟨inSt stService, .service, by decide +kernel⟩,
   ⟨(inSt stService).wr tbBase Reg.TB_CAUSE_LATCHED 1, .service, by decide +kernel⟩,
   ⟨inSt stReady, .service, by decide +kernel⟩,
   ⟨(((inSt stSafe).modToc fun x => { x with safeIn := true }).wr tbBase Reg.TB_STATUS_STPASS 1).wr tbBase Reg.TB_STATUS_TSTATE tsSafe, .service,
     by decide +kernel⟩,
   ⟨(inSt stReady).wr tbBase Reg.TB_CAUSE_LATCHED 1, .service, by decide +kernel⟩⟩

theorem test_met_SafetyFaultsTakeTheModuleToSafe :
    (∃ (s : State) (c : Cause) (pair : Fin 4), s.mst ∈ [stEnum, stLoad, stReady, stRun, stService] ∧ s.splitCause c pair.val = false) ∧
    (∃ (s : State) (pair : Fin 4), s.mst = stRun ∧ s.pairSplit pair.val = false) ∧
    (∃ (s : State) (pair : Fin 4), s.mst = stRun ∧ s.pairSplit pair.val = false) ∧
    (∃ (s : State) (pair : Fin 4), s.mst = stRun ∧ s.pairSplit pair.val = false) ∧
    (∃ (s : State) (pair : Fin 4), s.pairSplit pair.val = true) ∧
    (∃ (s : State), s.mst = stRun) ∧
    (∃ (s : State), s.causeLatched .safeIn = true ∧ s.tstate ≠ tsSafe) :=
  ⟨⟨inSt stEnum, .safeIn, 3, by decide +kernel⟩,
   ⟨inSt stRun, 3, by decide +kernel⟩,
   ⟨inSt stRun, 3, by decide +kernel⟩,
   ⟨inSt stRun, 3, by decide +kernel⟩,
   ⟨(inSt stReady).wr (cpBase 3) Reg.CP_STATUS_SPLIT 1, 3, by decide +kernel⟩,
   ⟨inSt stRun, by decide +kernel⟩,
   ⟨(inSt stReady).wr tbBase Reg.TB_CAUSE_LATCHED 32, by decide +kernel⟩⟩

theorem test_met_PairsCompareResyncAndDebug :
    (∃ (s : State) (pair : Fin 4), s.flag (cpBase pair.val) Reg.CP_STATUS_HELD = true ∧ s.isolated 2 (25 + pair.val) = false ∧ s.hardHeld pair.val = false) ∧
    (∃ (s : State), s.flag (cpBase 0) Reg.CP_STATUS_HELD = true ∧ s.isolated 2 25 = false ∧ s.hardHeld 0 = true) ∧
    (∃ (s : State) (pair : Fin 4), Served s .service ∧ s.mst = stService ∧ pair ≠ 0 ∧ s.flag (cpBase pair.val) Reg.CP_STATUS_DEBUG = false) ∧
    (∃ (s : State), Served s .service ∧ s.mst = stService ∧ s.flag (cpBase 0) Reg.CP_STATUS_DEBUG = false) ∧
    (∃ (s : State) (pair : Fin 4), Served s .service ∧ s.mst = stService ∧ s.flag (cpBase pair.val) Reg.CP_STATUS_DEBUG = true) ∧
    (∃ (s : State), Served s .service ∧ s.mst = stService) ∧
    (∃ (s : State) (p : Port) (c : Code), Served s p ∧ (p ≠ .service ∨ s.mst ≠ stService) ∧ c = (if p = .service then E_STATE else E_ACCESS)) :=
  ⟨⟨(inSt stReady).wr (cpBase 3) Reg.CP_STATUS_HELD 1, 3, by decide +kernel⟩,
   ⟨((inSt stReady).wr (cpBase 0) Reg.CP_STATUS_HELD 1).modToc fun x => { x with hardCp0 := true }, by decide +kernel⟩,
   ⟨inSt stService, 3, by decide +kernel⟩,
   ⟨inSt stService, by decide +kernel⟩,
   ⟨(inSt stService).wr (cpBase 3) Reg.CP_STATUS_DEBUG 1, 3, by decide +kernel⟩,
   ⟨inSt stService, by decide +kernel⟩,
   ⟨inSt stReady, .chainUp, E_ACCESS, by decide +kernel⟩⟩

theorem test_met_ImageBanksAreStagedAndValidated :
    (∃ (s : State) (bad0 : List Nat) (bad1 : List Nat), s.mst = stLoad ∧ s.imgPhase = phIdle ∧ s.img.committed = false ∧ s.dutyUp 1 = true ∧
      ((s.loadBank false bad0).loadBank true bad1).validBank s.bootBank = true) ∧
    (∃ (s : State), s.mst = stLoad ∧ s.imgPhase = phIdle ∧ s.img.committed = false ∧ s.dutyUp 1 = true ∧ s.img.b0.savedOk = false ∧
      s.img.b1.savedOk = false) ∧
    (∃ (s : State) (p : Port) (b : Bool), Served s p ∧ s.imgOpen = E_OK ∧ s.isActive b = false) ∧
    (∃ (s : State) (p : Port) (b : Bool), Served s p ∧ s.imgOpen = E_OK ∧ s.isActive b = true) ∧
    (∃ (s : State), s.imgPhase = phStaging ∧ s.dutyUp 1 = true) ∧
    (∃ (s : State) (p : Port) (u : BitVec 288) (b : Bool), Served s p ∧ s.mst ∈ [stLoad, stReady, stRun, stService] ∧ s.imgPhase < phValidating ∧
      s.stagingBank = some b ∧ (decodeWord (u.extractLsb' 0 256) (u.extractLsb' 256 20) (s.bank b).main.length).1.bad = false ∧
      (s.bank b).main.length < 65536 ∧ u.extractLsb' 276 12 = 0) ∧
    (∃ (s : State) (p : Port) (b : Bool), Served s p ∧ s.imgOpen = E_OK ∧ s.isActive b = false) ∧
    (∃ (s : State), s.imgPhase = phValidating ∧ s.dutyUp 1 = true) :=
  ⟨⟨savedBank, [], [], by decide +kernel, by decide +kernel, by decide +kernel, by decide +kernel, test_signed_section⟩,
   ⟨inSt stLoad, by decide +kernel⟩,
   ⟨inSt stReady, .service, true, by decide +kernel⟩,
   ⟨((inSt stReady).modImg fun x => { x with committed := true }).wr nvjBase Reg.IMG_STATUS_ACTIVE (Bool.toNat true), .service, true, by decide +kernel⟩,
   ⟨(inSt stReady).setPhase phStaging, by decide +kernel⟩,
   ⟨(inSt stLoad).modImg fun x => { x with b0 := { x.b0 with staging := true } }, .service, 0, false, by decide +kernel⟩,
   ⟨inSt stReady, .service, true, by decide +kernel⟩,
   ⟨(inSt stReady).setPhase phValidating, by decide +kernel⟩⟩

theorem test_met_ImageBanksAreSavedAndCommitted :
    (∃ (s : State) (p : Port) (b : Bool), Served s p ∧ s.imgOpen = E_OK ∧ s.validBank b = true ∧ s.flag modBase Reg.MOD_HEALTH_NV_DEGRADED = false ∧
      (s.bootBank ≠ b ∨ s.isActive b = true) ∧ s.flag nvjBase (bankSaved b) = false) ∧
    (∃ (s : State) (blocks : List Nat) (o : NvOutcome), s.imgPhase = phSaving ∧ s.dutyUp 1 = true ∧ (s.nvWrite blocks o).1 = true ∧
      ((s.nvWrite blocks o).2.flag nvjBase Reg.NVJ_STATUS_DEGRADED = false ∨ s.bootBank = s.img.nextBank)) ∧
    (∃ (s : State), s.imgPhase = phSaving ∧ s.dutyUp 1 = true ∧ s.isActive s.img.nextBank = true ∧ s.flag nvjBase Reg.NVJ_STATUS_DEGRADED = false ∧
      JournalTakes s (controlHome Config.bootPlace)) ∧
    (∃ (s : State) (blocks : List Nat) (o : NvOutcome), s.imgPhase = phSaving ∧ s.dutyUp 1 = true ∧ (s.nvWrite blocks o).1 = false ∧
      s.flag nvjBase (bankSaved s.img.nextBank) = false ∧ (s.bank s.img.nextBank).savedOk = false) ∧
    (∃ (s : State) (p : Port) (b : Bool), Served s p ∧ s.imgOpen = E_OK ∧ s.isActive b = false ∧ s.validBank b = true ∧
      (s.mst = stRun → sameTocsin s.img.active (s.effective b) = true)) ∧
    (∃ (s : State) (p : Port) (b : Bool) (d : Nat), Served s p ∧ s.imgOpen = E_OK ∧ s.isActive b = false ∧ s.validBank b = true ∧
      (s.mst = stRun → sameTocsin s.img.active (s.effective b) = true) ∧
      d = ((s.rdw nvjBase Reg.IMG_AT).toNat + 2 ^ 32 - (s.strokeNo + 1) % 2 ^ 32) % 2 ^ 32) ∧
    (∃ (s : State) (p : Port) (b : Bool), Served s p ∧ s.imgOpen = E_OK ∧ s.isActive b = false ∧ (s.validBank b = false ∨ (s.mst = stRun ∧
      sameTocsin s.img.active (s.effective b) = false))) ∧
    (∃ (s : State), s.imgPhase = phPreparing ∧ s.img.atStroke = false ∧ s.dutyUp 1 = true) ∧
    (∃ (s : State), s.img.bootUpdate = true ∧ s.dutyUp 1 = true ∧ JournalTakes s (controlHome Config.bootPlace)) ∧
    (∃ (s : State), s.img.bootUpdate = true ∧ s.dutyUp 1 = true ∧ (s.drawOutcome.2.commitTxn (controlHome Config.bootPlace) s.drawOutcome.1).1 ≠ E_OK) ∧
    (∃ (s : State), s.img.bootUpdate = false) ∧
    (∃ (s : State) (p : Port), Served s p ∧ s.mst ∈ [stLoad, stReady, stRun, stService] ∧ s.imgPhase = phPending) ∧
    (∃ (s : State) (p : Port), Served s p ∧ s.mst ∈ [stLoad, stReady, stRun, stService] ∧ s.imgPhase = phIdle) ∧
    (∃ (s : State) (p : Port), Served s p ∧ s.mst ∈ [stLoad, stReady, stRun, stService] ∧ s.imgPhase ∈ [phValidating, phSaving]) ∧
    (∃ (s : State) (p : Port), Served s p ∧ s.mst ∉ [stLoad, stReady, stRun, stService]) ∧
    (∃ (s : State) (p : Port), Served s p) :=
  ⟨⟨(inSt stReady).wr nvjBase (bankValid true) 1, .service, true, by decide +kernel⟩,
   ⟨(inSt stReady).setPhase phSaving, [], .clean, by decide +kernel⟩,
   ⟨(((inSt stReady).setPhase phSaving).modImg fun x => { x with committed := true, nextBank := false }).wr nvjBase Reg.IMG_STATUS_ACTIVE 0,
     by decide +kernel⟩,
   ⟨((inSt stReady).setPhase phSaving).modJrn fun j => { j with readOnly := [5] }, [5], .clean, by decide +kernel⟩,
   ⟨(inSt stReady).wr nvjBase (bankValid true) 1, .service, true, by decide +kernel⟩,
   ⟨(inSt stReady).wr nvjBase (bankValid true) 1, .service, true,
     ((((inSt stReady).wr nvjBase (bankValid true) 1).rdw nvjBase Reg.IMG_AT).toNat + 2 ^ 32 - (((inSt stReady).wr nvjBase (bankValid true) 1).strokeNo + 1) % 2 ^ 32) % 2 ^ 32,
     by decide +kernel⟩,
   ⟨inSt stReady, .service, true, by decide +kernel⟩,
   ⟨(inSt stReady).setPhase phPreparing, by decide +kernel⟩,
   ⟨(inSt stReady).modImg fun x => { x with bootUpdate := true }, by decide +kernel⟩,
   ⟨((inSt stReady).modImg fun x => { x with bootUpdate := true }).wr (blkBase 2 28) Reg.BLK_STATE_STATE bkIsolated, by decide +kernel⟩,
   ⟨inSt stReady, by decide +kernel⟩,
   ⟨(inSt stLoad).setPhase phPending, .service, by decide +kernel⟩,
   ⟨inSt stLoad, .service, by decide +kernel⟩,
   ⟨(inSt stLoad).setPhase phValidating, .service, by decide +kernel⟩,
   ⟨inSt stSafe, .service, by decide +kernel⟩,
   ⟨inSt stReady, .service, by decide +kernel⟩⟩

theorem test_met_KeySlotsAreInstalledAndRevoked :
    (∃ (s : State) (slot : Fin 4) (key : BitVec 256), Served s .service ∧ s.mst = stService ∧ s.keyActive slot.val = false ∧ keyValid key = true ∧
      (∀ k < 4, k ≠ slot.val → s.keyActive k = true → s.keyAt k ≠ key) ∧ s.img.keys.length = 4 ∧ JournalTakes s (keyHome slot.val)) ∧
    (∃ (s : State) (slot : Fin 4), Served s .service ∧ s.mst = stService ∧ s.keyActive slot.val = true ∧ (∃ k < 4, k ≠ slot.val ∧ s.keyActive k = true) ∧
      s.keyUse / 2 ^ slot.val % 2 = 0 ∧ s.img.keys.length = 4 ∧ JournalTakes s (keyHome slot.val)) ∧
    (∃ (s : State) (slot : Fin 4) (key : BitVec 256) (o : NvOutcome), Served s .service ∧ (decideKeyInstall .service slot.val key s).1 = E_OK ∧
      (s.commitTxn (keyHome slot.val) o).1 ≠ E_OK) ∧
    (∃ (s : State) (slot : Fin 4) (o : NvOutcome), Served s .service ∧ (decideKeyRevoke .service slot.val s).1 = E_OK ∧
      (s.commitTxn (keyHome slot.val) o).1 ≠ E_OK) ∧
    (∃ (s : State) (p : Port), Served s p ∧ p ≠ .service) ∧
    (∃ (s : State) (p : Port), Served s p) :=
  ⟨⟨inSt stService, 3, aKey, by decide +kernel⟩,
   ⟨((inSt stService).wr nvjBase (keyField 3) 1).wr nvjBase (keyField 0) 1, 3, by decide +kernel⟩,
   ⟨(inSt stService).wr (blkBase 2 28) Reg.BLK_STATE_STATE bkIsolated, 3, aKey, .clean, by decide +kernel⟩,
   ⟨(((inSt stService).wr nvjBase (keyField 0) 1).wr nvjBase (keyField 3) 1).wr (blkBase 2 28) Reg.BLK_STATE_STATE bkIsolated, 3, .clean,
     by decide +kernel⟩,
   ⟨inSt stReady, .chainUp, by decide +kernel⟩,
   ⟨inSt stReady, .service, by decide +kernel⟩⟩

theorem test_met_BoundariesAndBlockIsolation :
    (∃ (s : State), s.mst = stLoad ∧ s.img.active = [] ∧ s.img.committed = false ∧ s.imgPhase = phIdle ∧ s.fab.staged = [] ∧ s.fab.forces = []) ∧
    (∃ (s : State), s.mst ∉ [stEnum, stLoad, stReady, stRun, stSafe, stService]) ∧
    (∃ (s : State) (u : State) (v : State) (snare : Bool), s.strokesRun = true ∧ u = ((s.passEdge.endCycles).readSnare snare).publishImage ∧
      v = ((List.range 4).foldl State.phasorEdge (((u.applyStaged.commitStep).pathRoles).runStep.driveImage.countAbsent))) ∧
    (∃ (s : State), s.mst ∈ [stRun, stSafe, stService] ∧ s.img.active = [] ∧ s.fab.before = none) ∧
    (∃ (s : State) (u : State), s.evaluating = true ∧ s.fab.before = none ∧ u = (s.cells.filter s.evaluates).foldl State.evaluate s) ∧
    (∃ (s : State) (b : Before), s.fab.before = some b ∧ b.closed = false) ∧
    (∃ (s : State) (b : Before) (l : List Nat) (id : Nat), s.fab.before = some b ∧ b.closed = false ∧ id ∈ l ∧ s.exists_ id = true ∧ s.dueOpening id = true) ∧
    (∃ (s : State) (r : Nat) (b : Nat), blockExists r b = true ∧ r ≠ 0 ∧ (s.countBlockError r b).1 = false) ∧
    (∃ (s : State) (r : Nat) (b : Nat), blockExists r b = true ∧ r ≠ 0 ∧ (s.countBlockError r b).1 = true) ∧
    (∃ (s : State) (r : Nat) (b : Nat), blockExists r b = true ∧ r ≠ 0 ∧ (s.blk r b).errAt = []) ∧
    (∃ (s : State) (b : Nat), b < 8 ∧ (3 < ((s.fab.boundaries :: ((s.blk 2 b).errAt.filter fun t => s.fab.boundaries < t + 64)).length)) ∧
      s.cellsIn 2 b = [] ∧ s.isolated 2 b = false) ∧
    (∃ (s : State) (region : Fin 5), s.flag modBase (regFltField region.val) = false) ∧
    (∃ (s : State) (region : Fin 5), s.flag modBase (regFltField region.val) = true) ∧
    (∃ (s : State) (r : Nat) (b : Nat), s.isolated r b = true ∧ s.flag (blkBase r b) Reg.BLK_STATE_LATCHED = false ∧ (s.blk r b).cause = false ∧
      256 ≤ (s.blk r b).absent ∧ r < 5 ∧ b < 32) ∧
    (∃ (s : State) (p : Port) (r : Nat) (b : Nat), Served s p ∧ blockExists r b = true ∧ r ≠ 0 ∧ s.isolated r b = true ∧
      s.flag (blkBase r b) Reg.BLK_STATE_LATCHED = true ∧ (s.blk r b).cause = false) ∧
    (∃ (s : State) (p : Port) (r : Nat) (b : Nat), Served s p ∧ s.isolated r b = false) :=
  ⟨⟨inSt stLoad, by decide +kernel⟩,
   ⟨inSt stPowerup, by decide +kernel⟩,
   ⟨inSt stReady, (((inSt stReady).passEdge.endCycles).readSnare true).publishImage,
     (List.range 4).foldl State.phasorEdge ((((((((inSt stReady).passEdge.endCycles).readSnare true).publishImage)).applyStaged.commitStep).pathRoles).runStep.driveImage.countAbsent),
     true, by decide +kernel, rfl, rfl⟩,
   ⟨inSt stRun, by decide +kernel⟩,
   ⟨inSt stRun, ((inSt stRun).cells.filter (inSt stRun).evaluates).foldl State.evaluate (inSt stRun), met2 (by decide +kernel) (rfl)⟩,
   ⟨(inSt stRun).modFab fun x => { x with before := some { regs := [], cells := [], fcs := [], loops := [], isolated := [], closed := false } },
     { regs := [], cells := [], fcs := [], loops := [], isolated := [], closed := false }, by decide +kernel⟩,
   ⟨((inSt stRun).withCell (ucId 3) csRun 0).modFab fun x => { x with before := some { regs := [], cells := [], fcs := [], loops := [], isolated := [], closed := false } },
     { regs := [], cells := [], fcs := [], loops := [], isolated := [], closed := false }, [ucId 3], ucId 3, by decide +kernel⟩,
   ⟨inSt stReady, 1, 0, by decide +kernel⟩,
   ⟨(inSt stReady).modBlk 1 0 fun x => { x with errAt := [0, 0, 0] }, 1, 0, by decide +kernel⟩,
   ⟨inSt stReady, 1, 0, by decide +kernel⟩,
   ⟨(inSt stReady).modBlk 2 0 fun x => { x with errAt := [0, 0, 0] }, 0, by decide +kernel⟩,
   ⟨inSt stReady, 4, by decide +kernel⟩,
   ⟨(inSt stReady).wr modBase (regFltField 4) 1, 4, by decide +kernel⟩,
   ⟨((inSt stReady).wr (blkBase 2 0) Reg.BLK_STATE_STATE bkIsolated).modBlk 2 0 fun x => { x with absent := 256 }, 2, 0, by decide +kernel⟩,
   ⟨((inSt stReady).wr (blkBase 2 0) Reg.BLK_STATE_STATE bkIsolated).wr (blkBase 2 0) Reg.BLK_STATE_LATCHED 1, .service, 2, 0, by decide +kernel⟩,
   ⟨inSt stReady, .service, 0, 0, by decide +kernel⟩⟩

theorem test_met_CommitsReplaceTheImage :
    (∃ (s : State), s.imgPhase = phPending ∧ (s.img.atStroke = false ∨ s.img.atNo.toNat = s.strokeNo % 2 ^ 32)) ∧
    (∃ (s : State), s.img.atStroke = true ∧ s.imgPhase ∈ [phPreparing, phPending]) ∧
    (∃ (s : State), s.imgPhase ∉ [phPreparing, phPending]) ∧
    (∃ (s : State) (t : State) (b : Bool) (load : Bool) (new : List Record), t = s.takeCommit b new load) ∧
    (∃ (s : State) (t : State) (b : Bool) (new : List Record), t = s.takeCommit b new false ∧ (∀ id, id ∈ cellsOf s.img.active ↔ id ∈ cellsOf new) ∧
      (∀ id ∈ cellsOf new, cellChanged s.img.active new id = false)) ∧
    (∃ (s : State) (t : State) (old : List Record) (id : Nat), kindOf id = some .fc ∧ s.isolated (idRegion id) (idBlock id) = false ∧ t = s.newCell old id) ∧
    (∃ (s : State) (t : State) (old : List Record) (id : Nat), kindOf id = some .fc ∧ s.isolated (idRegion id) (idBlock id) = false ∧
      t = s.changeCell old id) ∧
    (∃ (s : State) (t : State) (id : Nat), t = s.removeCell id) :=
  ⟨⟨(inSt stReady).setPhase phPending, by decide +kernel⟩,
   ⟨((inSt stReady).modImg fun x => { x with atStroke := true }).setPhase phPending, by decide +kernel⟩,
   ⟨inSt stReady, by decide +kernel⟩,
   ⟨inSt stReady, (inSt stReady).takeCommit true ([]) true, true, true, [], rfl⟩,
   ⟨inSt stReady, (inSt stReady).takeCommit true ([]) false, true, [], rfl, fun _ => Iff.rfl, by decide +kernel⟩,
   ⟨inSt stReady, (inSt stReady).newCell ([]) ((fcId 0)), [], fcId 0, met2 (by decide +kernel) (rfl)⟩,
   ⟨inSt stReady, (inSt stReady).changeCell ([]) ((fcId 0)), [], fcId 0, met2 (by decide +kernel) (rfl)⟩,
   ⟨inSt stReady, (inSt stReady).removeCell 0, 0, rfl⟩⟩

theorem test_met_CellsRecoverAndTakeForces :
    (∃ (s : State) (id : Nat), s.exists_ id = true ∧ s.cst id = csFault ∧ s.flag (cellBase id) Reg.CELL_STATE_LATCHED = false ∧ s.causeAbsent id = true ∧
      256 ≤ (s.cell id).absent ∧ s.commanded id = false ∧ s.follower id = false) ∧
    (∃ (s : State) (p : Port) (id : Nat), Served s p ∧ s.exists_ id = true ∧ s.cst id = csFault ∧ s.causeAbsent id = true ∧ s.commanded id = false ∧
      s.follower id = false) ∧
    (∃ (s : State) (id : Nat), s.exists_ id = true ∧ s.cst id = csRecover ∧ 8 ≤ (s.cell id).good ∧ s.follower id = false) ∧
    (∃ (s : State) (p : Port) (id : Nat), Served s p ∧ s.exists_ id = true ∧ s.cst id = csRun ∧ s.mst = stService ∧ s.follower id = false) ∧
    (∃ (s : State) (p : Port) (id : Nat), Served s p ∧ s.exists_ id = true ∧ s.cst id = csTest ∧ s.commanded id = false ∧ s.follower id = false) ∧
    (∃ (s : State) (p : Port) (id : Nat), Served s p ∧ s.cst id = csRun ∧ s.mst ≠ stService) ∧
    (∃ (s : State) (id : Nat) (mode : BitVec 2) (port : BitVec 4) (v : Word), Served s .service ∧ s.exists_ id = true ∧ s.mst = stService ∧
      mode.toNat ≠ 3 ∧ (mode.toNat = 1 → s.physical id = true) ∧ hasPort s.img.active id port.toNat = true ∧ f32IsNaN v = false) ∧
    (∃ (s : State) (p : Port), Served s p ∧ p ≠ .service) ∧
    (∃ (s : State) (p : Port) (fc : Fin 4096) (x : Word), Served s p ∧ s.exists_ (fcId fc.val) = true ∧ fcOp (s.cfg (fcId fc.val) 0) = 0x01 ∧
      f32IsNaN x = false ∧ (∀ i < 4, f32IsNaN (s.reg (cellBase (fcId fc.val) + 0x24 + 4 * i)) = false) ∧ s.fab.staged = []) ∧
    (∃ (s : State) (p : Port) (fc : Fin 4096) (vals : List (Fin 4 × Word)), Served s p ∧ s.exists_ (fcId fc.val) = true ∧
      (∀ k < vals.length, (s.stageParams fc.val (vals.take k)).fcParamLegal fc.val (vals.getD k (0, 0)) = true)) ∧
    (∃ (s : State) (p : Port) (fc : Fin 4096) (vals : List (Fin 4 × Word)) (k : Nat), Served s p ∧ s.exists_ (fcId fc.val) = true ∧ k < vals.length ∧
      (s.stageParams fc.val (vals.take k)).fcParamLegal fc.val (vals.getD k (0, 0)) = false) ∧
    (∃ (x : Word), f32IsNaN x = true) ∧
    (∃ (s : State) (fc : Nat) (i : Fin 4) (x : Word), fcOp (s.cfg (fcId fc) 0) = 0x06 ∧
      f32x (s.fcParamsWith fc (i, x) 1) < f32x (s.fcParamsWith fc (i, x) 0)) ∧
    (∃ (s : State) (fc : Nat) (i : Fin 4) (x : Word), fcOp (s.cfg (fcId fc) 0) ∈ [0x0C, 0x25, 0x26, 0x27, 0x28] ∧ f32x (s.fcParamsWith fc (i, x) 0) < 0) :=
  ⟨⟨(((inSt stReady).wr (cellBase (ucId 3)) Reg.CELL_STATE_EXISTS 1).wr (cellBase (ucId 3)) Reg.CELL_STATE_STATE csFault).modCell (ucId 3) fun x => { x with absent := 256 },
     ucId 3, by decide +kernel⟩,
   ⟨((inSt stReady).wr (cellBase 0) Reg.CELL_STATE_EXISTS 1).wr (cellBase 0) Reg.CELL_STATE_STATE csFault, .service, 0, by decide +kernel⟩,
   ⟨(((inSt stReady).wr (cellBase (ucId 3)) Reg.CELL_STATE_EXISTS 1).wr (cellBase (ucId 3)) Reg.CELL_STATE_STATE csRecover).modCell (ucId 3) fun x => { x with good := 8 },
     ucId 3, by decide +kernel⟩,
   ⟨((inSt stService).wr (cellBase 0) Reg.CELL_STATE_EXISTS 1).wr (cellBase 0) Reg.CELL_STATE_STATE csRun, .service, 0, by decide +kernel⟩,
   ⟨((inSt stReady).wr (cellBase 0) Reg.CELL_STATE_EXISTS 1).wr (cellBase 0) Reg.CELL_STATE_STATE csTest, .service, 0, by decide +kernel⟩,
   ⟨(inSt stReady).wr (cellBase 0) Reg.CELL_STATE_STATE csRun, .service, 0, by decide +kernel⟩,
   ⟨((inSt stService).withCell (ucId 31) csRun 0x5).wr (cellBase (ucId 31)) Reg.CELL_STATE_EXISTS 1, ucId 31, 1, 0, 0, by decide +kernel⟩,
   ⟨inSt stReady, .chainUp, by decide +kernel⟩,
   ⟨((inSt stReady).withCell (fcId 0) csRun 1).wr (cellBase (fcId 0)) Reg.CELL_STATE_EXISTS 1, .service, 0, 0, by decide +kernel⟩,
   ⟨(inSt stReady).wr (cellBase (fcId 4095)) Reg.CELL_STATE_EXISTS 1, .service, 4095, [], by decide +kernel⟩,
   ⟨(inSt stReady).wr (cellBase (fcId 4095)) Reg.CELL_STATE_EXISTS 1, .service, 4095, [((0 : Fin 4), (0x7FC00000 : Word))], 0, by decide +kernel⟩,
   ⟨0x7FC00000, by decide +kernel⟩,
   ⟨(inSt stReady).withCell (fcId 0) csRun 6, 0, 0, 0x41200000, by decide +kernel⟩,
   ⟨(inSt stReady).withCell (fcId 0) csRun 0x0C, 0, 0, 0xBF800000, by decide +kernel⟩⟩

theorem test_met_LoopCommandsAndDetuning :
    (∃ (s : State) (p : Port) (lp : Fin 512) (req : BitVec 2), Served s p ∧ s.exists_ (lpId lp.val) = true ∧ req.toNat = 1) ∧
    (∃ (s : State) (p : Port) (lp : Fin 512) (req : BitVec 2), Served s p ∧ s.exists_ (lpId lp.val) = true ∧ req.toNat ≠ 3 ∧
      (req.toNat = 2 → (s.bind (lpId lp.val) 1).isSome = true ∧ ∃ i, s.lpInput (lpId lp.val) 1 = some i ∧ i.live = true) ∧
      (req.toNat = 0 → lpKind (s.cfg (lpId lp.val) 0) ≠ 2)) ∧
    (∃ (s : State) (p : Port) (lp : Fin 512) (req : BitVec 2), Served s p ∧ s.exists_ (lpId lp.val) = true ∧ req.toNat = 3) ∧
    (∃ (s : State) (p : Port) (lp : Fin 512) (w : Word), Served s p ∧ s.exists_ (lpId lp.val) = true ∧ f32Finite w = true ∧
      lpSpLo (s.cfg (lpId lp.val) 1) ≤ f32 w ∧ f32 w ≤ lpSpHi (s.cfg (lpId lp.val) 1)) ∧
    (∃ (s : State) (p : Port) (lp : Fin 512) (ws : List (Nat × Word)), Served s p ∧ (∀ x ∈ ws, loopRegCheck lp.val x.1 x.2 s = E_OK)) ∧
    (∃ (s : State) (p : Port) (lp : Fin 512) (w : Word), Served s p ∧ s.exists_ (lpId lp.val) = true ∧ f32 w < lpSpLo (s.cfg (lpId lp.val) 1)) ∧
    (∃ (s : State) (p : Port) (lp : Fin 512) (sel : BitVec 3), Served s p ∧ s.exists_ (lpId lp.val) = true ∧ sel.toNat < s.lpNsets (lpId lp.val)) ∧
    (∃ (s : State) (p : Port) (lp : Fin 512), Served s p ∧ s.exists_ (lpId lp.val) = true) ∧
    (∃ (s : State) (p : Port) (lp : Fin 512), Served s p ∧ s.exists_ (lpId lp.val) = false) ∧
    (∃ (s : State) (lp : Fin 512), recByte (s.cfg (lpId lp.val) 12) 0 = 1 ∧ 2 * recByte (s.cfg (lpId lp.val) 12) 1 ≤ (s.lp lp.val).oscCount ∧
      s.rd (cellBase (lpId lp.val)) Reg.LP_GAIN_DLEVEL < 7) ∧
    (∃ (s : State) (lp : Fin 512), 0 < f32 (recWord (s.cfg (lpId lp.val) 12) 16) ∧
      f32 (recWord (s.cfg (lpId lp.val) 12) 16) ≤ (s.lp lp.val).quiet + s.lpElapsed lp.val ∧ 0 < s.rd (cellBase (lpId lp.val)) Reg.LP_GAIN_DLEVEL) :=
  ⟨⟨(inSt stReady).wr (cellBase (lpId 511)) Reg.CELL_STATE_EXISTS 1, .service, 511, 1, by decide +kernel⟩,
   ⟨(inSt stReady).wr (cellBase (lpId 511)) Reg.CELL_STATE_EXISTS 1, .service, 511, 0, by decide +kernel⟩,
   ⟨(inSt stReady).wr (cellBase (lpId 511)) Reg.CELL_STATE_EXISTS 1, .service, 511, 3, by decide +kernel⟩,
   ⟨(inSt stReady).wr (cellBase (lpId 511)) Reg.CELL_STATE_EXISTS 1, .service, 511, 0, by decide +kernel⟩,
   ⟨inSt stReady, .service, 511, [], by decide +kernel⟩,
   ⟨(((inSt stReady).withCell (lpId 511) csRun 0).put [aRec T_CELL 1 (lpId 511) 0x42c800003f800000]).wr (cellBase (lpId 511)) Reg.CELL_STATE_EXISTS 1,
     .service, 511, 0, by decide +kernel⟩,
   ⟨(inSt stReady).wr (cellBase (lpId 511)) Reg.CELL_STATE_EXISTS 1, .service, 511, 0, by decide +kernel⟩,
   ⟨(inSt stReady).wr (cellBase (lpId 511)) Reg.CELL_STATE_EXISTS 1, .service, 511, by decide +kernel⟩,
   ⟨inSt stReady, .service, 511, by decide +kernel⟩,
   ⟨(((inSt stReady).withCell (lpId 511) csRun 0).put [aRec T_CELL 12 (lpId 511) 0x101]).modLp 511 fun x => { x with oscCount := 2 }, 511,
     by decide +kernel⟩,
   ⟨((((inSt stReady).withCell (lpId 511) csRun 0).put [aRec T_CELL 12 (lpId 511) 0x3f80000000000000000000000000000000000000]).modLp 511 fun x => { x with quiet := 5000 }).wr (cellBase (lpId 511)) Reg.LP_GAIN_DLEVEL 1,
     511, by decide +kernel⟩⟩

theorem test_met_PhasorGroupsSynchroniseAndReport :
    (∃ (s : State) (g : Fin 4) (m : PhasorMeas), s.exists_ (phId g.val) = true ∧ s.cst (phId g.val) ∉ [csOff, csFault] ∧ (s.ph g.val).old = none ∧
      (s.takeSamples g.val m).phGap g.val = true) ∧
    (∃ (s : State) (g : Fin 4) (m : PhasorMeas), s.exists_ (phId g.val) = true ∧ s.cst (phId g.val) = csRun ∧ (s.ph g.val).old = none ∧
      (s.takeSamples g.val m).phGap g.val = false ∧ s.phCloseDp g.val = none) ∧
    (∃ (s : State) (g : Fin 4) (m : PhasorMeas), s.exists_ (phId g.val) = true ∧ s.cst (phId g.val) ∉ [csOff, csFault] ∧ (s.ph g.val).old = none ∧
      (s.takeSamples g.val m).phGap g.val = false) ∧
    (∃ (s : State) (g : Fin 4), s.exists_ (phId g.val) = true ∧ s.cst (phId g.val) ∈ [csOff, csFault]) ∧
    (∃ (s : State) (g : Fin 4), s.rd (cellBase (phId g.val)) Reg.PH_STATUS_SYNC = syInside ∧ (s.ph g.val).condHeld = true ∧ (s.ph g.val).closeReq = true ∧
      s.dwellNeed g.val (s.ph g.val).dead (f32 (s.rdw (cellBase (phId g.val)) Reg.PH_F_RUN)) ≤ (s.ph g.val).dwell) ∧
    (∃ (s : State) (g : Fin 4) (cycle : Nat) (adv : Word), s.rd (cellBase (phId g.val)) Reg.PH_STATUS_SYNC = syClosing ∧
      s.flag (cellBase (phId g.val)) Reg.PH_STATUS_PERMIT = false ∧ (s.ph g.val).edge = some (cycle, adv) ∧
      (∀ d, (s.ph g.val).closeDp = some d → d < 32)) ∧
    (∃ (s : State) (g : Fin 4), s.rd (cellBase (phId g.val)) Reg.PH_STATUS_SYNC = syClosing ∧ s.flag (cellBase (phId g.val)) Reg.PH_STATUS_PERMIT = true ∧
      s.cst (phId g.val) = csRun ∧ s.mst = stRun ∧ (s.ph g.val).old = none ∧ (∀ d, (s.ph g.val).closeDp = some d → d < 32)) ∧
    (∃ (s : State) (p : Port) (g : Fin 4), Served s p ∧ s.exists_ (phId g.val) = true ∧
      s.rd (cellBase (phId g.val)) Reg.PH_STATUS_SYNC ∈ [syOutside, syInside, syArmed]) ∧
    (∃ (s : State) (p : Port) (g : Fin 4), Served s p ∧ s.rd (cellBase (phId g.val)) Reg.PH_STATUS_SYNC = syClosing) ∧
    (∃ (s : State) (g : Fin 4) (e : Fin 5), s.phThresh g.val e.val ≠ 0 ∧ max 1 (80 * s.phDelay g.val e.val) ≤ (s.ph g.val).evHeld.getD e.val 0 ∧
      s.rd (cellBase (phId g.val)) Reg.PH_STATUS_EVT / 2 ^ e.val % 2 = 0) :=
  ⟨⟨(inSt stReady).withCell (phId 3) csRun 0, 3, aMeas, by decide +kernel⟩,
   ⟨(inSt stReady).withCell (phId 3) csRun 0xffffffffffffffffffffffffffffffffffffffffffffffffff, 3, aMeas, by decide +kernel⟩,
   ⟨(inSt stReady).withCell (phId 3) csRun 0xffffffffffffffffffffffffffffffffffffffffffffffffff, 3, aMeas, by decide +kernel⟩,
   ⟨(inSt stReady).wr (cellBase (phId 3)) Reg.CELL_STATE_EXISTS 1, 3, by decide +kernel⟩,
   ⟨(((inSt stReady).wr (cellBase (phId 3)) Reg.PH_STATUS_SYNC syInside).modPh 3 fun x => { x with condHeld := true }).modPh 3 fun x => { x with closeReq := true },
     3, by decide +kernel⟩,
   ⟨((inSt stReady).wr (cellBase (phId 3)) Reg.PH_STATUS_SYNC syClosing).modPh 3 fun x => { x with edge := some (0, 0) }, 3, 0, 0, by decide +kernel⟩,
   ⟨(((inSt stRun).wr (cellBase (phId 3)) Reg.PH_STATUS_SYNC syClosing).wr (cellBase (phId 3)) Reg.PH_STATUS_PERMIT 1).wr (cellBase (phId 3)) Reg.CELL_STATE_STATE csRun,
     3, by decide +kernel⟩,
   ⟨((inSt stReady).wr (cellBase (phId 3)) Reg.CELL_STATE_EXISTS 1).wr (cellBase (phId 3)) Reg.PH_STATUS_SYNC syInside, .service, 3, by decide +kernel⟩,
   ⟨(inSt stReady).wr (cellBase (phId 3)) Reg.PH_STATUS_SYNC syClosing, .service, 3, by decide +kernel⟩,
   ⟨(((inSt stReady).withCell (phId 3) csRun 0).put [aRec T_CELL 4 (phId 3) 0x3f80000000000000000000000000000000000000]).modPh 3 fun x => { x with evHeld := [0, 0, 0, 0, 1] },
     3, 4, by decide +kernel⟩⟩

theorem test_met_TocsinScansTripsAndTestsItself :
    (∃ (s : State) (dem : List Nat) (byp : List Nat) (k : Nat) (r : Record), s.tstate = tsArmed ∧ s.mst = stRun ∧ s.cst (toId k) = csRun ∧ k < 128 ∧
      s.tripK k r byp ≤ s.tripN k dem byp) ∧
    (∃ (s : State) (dem : List Nat) (byp : List Nat) (k : Nat) (r : Record), s.tstate = tsArmed ∧ s.mst = stRun ∧ s.cst (toId k) = csRun ∧ k < 128 ∧
      s.tripN k dem byp < s.tripK k r byp) ∧
    (∃ (s : State) (k : Nat), (s.tstate ≠ tsArmed ∨ s.mst = stSafe) ∧ k < 128) ∧
    (∃ (k : Nat) (j : Nat), k < 128 ∧ j < 128 ∧ j ≠ k) ∧
    (∃ (s : State), s.scanning = true) ∧
    (∃ (s : State), s.scanning = true ∧ s.tstate = tsDisarmed ∧ s.mst = stReady ∧ s.img.committed = true ∧ s.flag tbBase Reg.TB_STATUS_STPASS = true ∧
      s.flag tbBase Reg.TB_STATUS_DBGFLAG = false ∧ s.toc.safeIn = true ∧ s.causes = 0 ∧ s.tripins = [] ∧ s.tripOuts = [] ∧ s.physicalCells = [] ∧
      s.toc.inputs = [] ∧ s.toc.resets = []) ∧
    (∃ (s : State), s.scanning = true) ∧
    (∃ (s : State), s.scanning = true) ∧
    (∃ (s : State), s.scanning = false) ∧
    (∃ (s : State), s.mst = stRun ∧ s.tstate = tsArmed) ∧
    (∃ (s : State), s.mst = stRun ∧ s.scanning = true) ∧
    (∃ (s : State), s.mst = stRun ∧ s.scanning = true ∧ 1 ≤ s.toc.rails) ∧
    (∃ (s : State), s.mst = stRun ∧ s.scanning = true ∧ s.toc.rails = 0) ∧
    (∃ (s : State) (ok : Bool), s.mst = stRun ∧ s.scanning = true ∧ (ok = false ∨ s.toc.matrixBad = true)) ∧
    (∃ (s : State), s.toc.matrixBad = false) :=
  ⟨⟨((inSt stRun).wr tbBase Reg.TB_STATUS_TSTATE tsArmed).wr (cellBase (toId 0)) Reg.CELL_STATE_STATE csRun, [], [], 0, 0, by decide +kernel⟩,
   ⟨(((inSt stRun).put [aRec T_TRIP 0 (toId 0) 0x101]).wr tbBase Reg.TB_STATUS_TSTATE tsArmed).wr (cellBase (toId 0)) Reg.CELL_STATE_STATE csRun, [], [],
     0, aRec T_TRIP 0 (toId 0) 0x101, by decide +kernel⟩,
   ⟨inSt stReady, 0, by decide +kernel⟩,
   ⟨0, 1, by decide +kernel⟩,
   ⟨(inSt stReady).wr tbBase Reg.TB_STATUS_TSTATE tsDisarmed, by decide +kernel⟩,
   ⟨((((inSt stReady).wr tbBase Reg.TB_STATUS_TSTATE tsDisarmed).modImg fun x => { x with committed := true }).wr tbBase Reg.TB_STATUS_STPASS 1).modToc fun x => { x with safeIn := true },
     by decide +kernel⟩,
   ⟨(inSt stReady).wr tbBase Reg.TB_STATUS_TSTATE tsDisarmed, by decide +kernel⟩,
   ⟨(inSt stReady).wr tbBase Reg.TB_STATUS_TSTATE tsDisarmed, by decide +kernel⟩,
   ⟨inSt stReady, by decide +kernel⟩,
   ⟨(inSt stRun).wr tbBase Reg.TB_STATUS_TSTATE tsArmed, by decide +kernel⟩,
   ⟨(inSt stRun).wr tbBase Reg.TB_STATUS_TSTATE tsDisarmed, by decide +kernel⟩,
   ⟨((inSt stRun).wr tbBase Reg.TB_STATUS_TSTATE tsDisarmed).modToc fun x => { x with rails := 1 }, by decide +kernel⟩,
   ⟨((inSt stRun).wr tbBase Reg.TB_STATUS_TSTATE tsDisarmed).modToc fun x => { x with rails := 0 }, by decide +kernel⟩,
   ⟨(inSt stRun).wr tbBase Reg.TB_STATUS_TSTATE tsDisarmed, false, by decide +kernel⟩,
   ⟨inSt stReady, by decide +kernel⟩⟩

theorem test_met_SafetyConnectionsReceiveAndSend :
    (∃ (pdu : BitVec 128), pduCrc pdu ≠ pduCrcField pdu) ∧
    (∃ (s : State) (pdu : BitVec 128), pduCrc pdu = pduCrcField pdu ∧ pduFlags pdu < 2 ∧ pduRes pdu = 0 ∧ s.connRecs (pduConn pdu) = []) ∧
    (∃ (s : State) (pdu : BitVec 128) (r : Record) (l : List Record), pduCrc pdu = pduCrcField pdu ∧ pduFlags pdu < 2 ∧ pduRes pdu = 0 ∧
      s.connRecs (pduConn pdu) = r :: l ∧ (s.conn (pduConn pdu)).seen = true ∧
      0 < (BitVec.ofNat 16 (pduSeq pdu) - (s.conn (pduConn pdu)).lastSeq).toNat ∧
      (BitVec.ofNat 16 (pduSeq pdu) - (s.conn (pduConn pdu)).lastSeq).toNat ≤ tiSeqWin r) ∧
    (∃ (s : State) (id : BitVec 32), (s.conn id.toNat).valid = true) ∧
    (∃ (s : State) (n : Fin 8) (k : Nat) (r : Record) (l : List (Nat × Record)), s.txOuts n.val = (k, r) :: l ∧ s.scanning = true ∧
      recU16 (getRec s.img.active T_TRIP 3 (toId k)) 4 ≤ (Store.get (0, 0) s.toc.tx n.val).2 ∧ s.link .up ≠ 2 ∧ s.link .down ≠ 2) ∧
    (∃ (s : State) (n : Fin 8) (k : Nat) (r : Record) (l : List (Nat × Record)), s.txOuts n.val = (k, r) :: l ∧ s.scanning = true ∧
      recU16 (getRec s.img.active T_TRIP 3 (toId k)) 4 ≤ (Store.get (0, 0) s.toc.tx n.val).2) :=
  ⟨⟨0, by decide +kernel⟩,
   ⟨inSt stReady, 0xdd4fcb3b000000000000000100000009, by decide +kernel⟩,
   ⟨((inSt stReady).put [aRec T_TRIPIN 0 0xFFFF 0x20000000000090000000000000303]).modConn 9 fun x => { x with seen := true, lastSeq := 4 },
     0x2117e3ee000000010000000500000009, aRec T_TRIPIN 0 0xFFFF 0x20000000000090000000000000303, [], by decide +kernel⟩,
   ⟨(inSt stReady).modConn 9 fun x => { x with valid := true }, 9, by decide +kernel⟩,
   ⟨(((inSt stReady).put [aRec T_TRIP 0 (toId 5) 0x20000000000000000000000000000000000000001]).wr (cellBase (toId 5)) Reg.CELL_STATE_EXISTS 1).wr tbBase Reg.TB_STATUS_TSTATE tsDisarmed,
     2, 5, aRec T_TRIP 0 (toId 5) 0x20000000000000000000000000000000000000001, [], by decide +kernel⟩,
   ⟨((inSt stReady).put [aRec T_TRIP 0 (toId 5) 0x20000000000000000000000000000000000000001]).wr tbBase Reg.TB_STATUS_TSTATE tsDisarmed, 2, 5,
     aRec T_TRIP 0 (toId 5) 0x20000000000000000000000000000000000000001, [], by decide +kernel⟩⟩

theorem test_met_ResetsBypassesAndAcknowledgements :
    (∃ (s : State) (p : Port) (o : Fin 128), Served s p ∧ s.exists_ (toId o.val) = true ∧ s.scanning = true) ∧
    (∃ (s : State) (p : Port) (o : Fin 128), Served s p ∧ s.exists_ (toId o.val) = false) ∧
    (∃ (s : State) (r : Record) (secs : BitVec 16), Served s .service ∧ s.mst ∈ [stRun, stService] ∧ s.tripin (s.rd tbBase Reg.TB_TISEL_INPUT) = some r ∧
      tiBypMax r ≠ 0 ∧ 0 < secs.toNat ∧ secs.toNat ≤ 60 * tiBypMax r ∧ s.bypassed = []) ∧
    (∃ (s : State) (p : Port), Served s p ∧ p ≠ .service) ∧
    (∃ (s : State), Served s .service ∧ s.mst ∉ [stRun, stService]) ∧
    (∃ (s : State) (secs : BitVec 16), Served s .service ∧ s.mst ∈ [stRun, stService] ∧
      (s.tripin (s.rd tbBase Reg.TB_TISEL_INPUT)).all (fun r => tiBypMax r != 0 && decide (60 * tiBypMax r < secs.toNat)) = true) ∧
    (∃ (s : State) (r : Record), Served s .service ∧ s.mst ∈ [stRun, stService] ∧ s.tripin (s.rd tbBase Reg.TB_TISEL_INPUT) = some r ∧ tiBypMax r = 0) ∧
    (∃ (s : State) (i : Fin 256), (s.tin i.val).bypass.isSome = true) ∧
    (∃ (s : State) (p : Port), Served s p ∧ s.causeLatched .safeIn = true ∧ s.toc.safeIn = true ∧ s.causeLatched .dormantCp0 = false) ∧
    (∃ (s : State) (p : Port), Served s p ∧ s.causes = 0) ∧
    (∃ (s : State) (p : Port), Served s p ∧ s.mst = stSafe ∧ s.flag tbBase Reg.TB_STATUS_RETESTING = false) ∧
    (∃ (s : State) (p : Port), Served s p ∧ s.mst ≠ stSafe) ∧
    (∃ (s : State), s.flag tbBase Reg.TB_STATUS_RETESTING = true ∧ s.rd tbBase Reg.TB_CAUSE_SUB ≠ 5 ∧ s.flag (cpBase 0) Reg.CP_STATUS_SPLIT = false) :=
  ⟨⟨((inSt stReady).wr (cellBase (toId 127)) Reg.CELL_STATE_EXISTS 1).wr tbBase Reg.TB_STATUS_TSTATE tsDisarmed, .service, 127, by decide +kernel⟩,
   ⟨inSt stReady, .service, 127, by decide +kernel⟩,
   ⟨(inSt stRun).put [aRec T_TRIPIN 0 0xFFFF 0xa000000000000], aRec T_TRIPIN 0 0xFFFF 0xa000000000000, 60, by decide +kernel⟩,
   ⟨inSt stReady, .chainUp, by decide +kernel⟩,
   ⟨inSt stReady, by decide +kernel⟩,
   ⟨inSt stRun, 0, by decide +kernel⟩,
   ⟨(inSt stRun).put [aRec T_TRIPIN 0 0 0], aRec T_TRIPIN 0 0 0, by decide +kernel⟩,
   ⟨(inSt stReady).modTin 255 fun x => { x with bypass := some 5 }, 255, by decide +kernel⟩,
   ⟨((inSt stReady).wr tbBase Reg.TB_CAUSE_LATCHED 32).modToc fun x => { x with safeIn := true }, .service, by decide +kernel⟩,
   ⟨inSt stReady, .service, by decide +kernel⟩,
   ⟨inSt stSafe, .service, by decide +kernel⟩,
   ⟨inSt stReady, .service, by decide +kernel⟩,
   ⟨(inSt stReady).wr tbBase Reg.TB_STATUS_RETESTING 1, by decide +kernel⟩⟩

theorem test_met_ChannelResultsAndChannelFaults :
    (∃ (s : State) (uc : Fin 32) (e : Word), s.exists_ (ucId uc.val) = true ∧ s.ucFunc uc.val = 1 ∧ s.ucRange uc.val = 1 ∧ s.ucWave uc.val = false ∧
      s.ucNe43 uc.val = false ∧ s.ucHart uc.val = false ∧ s.ucChar uc.val = 0 ∧ s.cst (ucId uc.val) = csRun ∧
      s.flag (cellBase (ucId uc.val)) Reg.UC_TRIM_STAT_ACTIVE = false ∧ s.flag (cellBase (ucId uc.val)) Reg.UC_STATUS_FCALBAD = false ∧
      (s.uc uc.val).sensorBad = false ∧ -(dec 2 1) ≤ f32 e ∧ f32 e ≤ dec 102 1 ∧ s.mst ≠ stPfail ∧ s.ucAbandoned uc.val = false) ∧
    (∃ (s : State) (uc : Fin 32), s.exists_ (ucId uc.val) = true ∧ s.cst (ucId uc.val) ≠ csFault ∧ s.ucOutput uc.val = false ∧ s.mst ≠ stPfail ∧
      s.ucAbandoned uc.val = false) ∧
    (∃ (s : State) (uc : Fin 32), s.exists_ (ucId uc.val) = true ∧ s.cst (ucId uc.val) ≠ csFault ∧ s.ucOutput uc.val = true ∧ s.mst ≠ stPfail ∧
      s.ucAbandoned uc.val = false) ∧
    (∃ (s : State) (uc : Fin 32), s.exists_ (ucId uc.val) = true ∧ s.ucFunc uc.val = 4 ∧ s.cst (ucId uc.val) = csRun ∧ (s.uc uc.val).sensorBad = false ∧
      s.mst ≠ stPfail) ∧
    (∃ (s : State) (uc : Fin 32) (last : Nat → Word → Word), s.exists_ (ucId uc.val) = true ∧ s.cst (ucId uc.val) ∉ [csOff, csFault] ∧ s.mst ≠ stPfail ∧
      (∀ n w, last n w = ((Store.get none s.fab.ports (ucId uc.val * 16 + n)).map SigWord.val).getD w)) ∧
    (∃ (s : State) (uc : Fin 32), s.exists_ (ucId uc.val) = true ∧ s.cst (ucId uc.val) = csRun ∧ (s.cell (ucId uc.val)).errHist = [] ∧ s.mst ≠ stPfail) ∧
    (∃ (s : State) (uc : Fin 32), s.exists_ (ucId uc.val) = true ∧ s.ucOutput uc.val = true ∧ s.mst ≠ stPfail) ∧
    (∃ (s : State) (uc : Fin 32), s.exists_ (ucId uc.val) = true ∧ s.ucOutput uc.val = true ∧ s.flag (cellBase (ucId uc.val)) Reg.UC_STATUS_COMPL = false ∧
      s.flag (cellBase (ucId uc.val)) Reg.UC_STATUS_HDRLOW = true ∧ (s.uc uc.val).shortfall = true) ∧
    (∃ (s : State) (uc : Fin 32), s.flag (cellBase (ucId uc.val)) Reg.UC_STATUS_COMPL = true ∧ (s.uc uc.val).shortfall = false) ∧
    (∃ (s : State) (uc : Fin 32), s.exists_ (ucId uc.val) = true ∧ s.ucFunc uc.val = 6 ∧ s.flag (cellBase (ucId uc.val)) Reg.UC_STATUS_HDRLOW = true ∧
      1 ≤ f32 (s.rdw (cellBase (ucId uc.val)) Reg.UC_DRIVE)) ∧
    (∃ (s : State) (uc : Fin 32), s.exists_ (ucId uc.val) = true ∧ s.ucOutput uc.val = true ∧ s.cst (ucId uc.val) = csRun ∧
      s.flag (cellBase (ucId uc.val)) Reg.UC_STATUS_HDRLOW = false) ∧
    (∃ (s : State) (uc : Fin 32) (hot : Bool), s.exists_ (ucId uc.val) = true ∧ s.cst (ucId uc.val) = csRun ∧ (hot = true → s.ucOutput uc.val = true)) ∧
    (∃ (s : State) (uc : Fin 32), s.ucOutput uc.val = false) ∧
    (∃ (s : State) (uc : Fin 32) (hot : Bool), s.exists_ (ucId uc.val) = true ∧ s.cst (ucId uc.val) = csFault ∧ (s.cell (ucId uc.val)).cause = true ∧
      (hot = true → s.ucOutput uc.val = true)) :=
  ⟨⟨(((inSt stReady).withCell (ucId 31) csRun 0x101).wr (cellBase (ucId 31)) Reg.CELL_STATE_EXISTS 1).wr (cellBase (ucId 31)) Reg.CELL_STATE_STATE csRun,
     31, 0, by decide +kernel⟩,
   ⟨(inSt stReady).wr (cellBase (ucId 31)) Reg.CELL_STATE_EXISTS 1, 31, by decide +kernel⟩,
   ⟨((inSt stReady).withCell (ucId 31) csRun 0x5).wr (cellBase (ucId 31)) Reg.CELL_STATE_EXISTS 1, 31, by decide +kernel⟩,
   ⟨(((inSt stReady).withCell (ucId 31) csRun 0x4).wr (cellBase (ucId 31)) Reg.CELL_STATE_EXISTS 1).wr (cellBase (ucId 31)) Reg.CELL_STATE_STATE csRun,
     31, by decide +kernel⟩,
   ⟨(inSt stReady).withCell (ucId 31) csRun 1, 31,
     fun n w => ((Store.get none ((inSt stReady).withCell (ucId 31) csRun 1).fab.ports (ucId (31 : Fin 32).val * 16 + n)).map SigWord.val).getD w,
     met3 (by decide +kernel) (fun _ _ => rfl)⟩,
   ⟨((inSt stReady).wr (cellBase (ucId 31)) Reg.CELL_STATE_EXISTS 1).wr (cellBase (ucId 31)) Reg.CELL_STATE_STATE csRun, 31, by decide +kernel⟩,
   ⟨((inSt stReady).withCell (ucId 31) csRun 0x5).wr (cellBase (ucId 31)) Reg.CELL_STATE_EXISTS 1, 31, by decide +kernel⟩,
   ⟨((((inSt stReady).withCell (ucId 31) csRun 0x5).wr (cellBase (ucId 31)) Reg.CELL_STATE_EXISTS 1).wr (cellBase (ucId 31)) Reg.UC_STATUS_HDRLOW 1).modUc 31 fun x => { x with shortfall := true },
     31, by decide +kernel⟩,
   ⟨(inSt stReady).wr (cellBase (ucId 31)) Reg.UC_STATUS_COMPL 1, 31, by decide +kernel⟩,
   ⟨((((inSt stReady).withCell (ucId 31) csRun 0x6).wr (cellBase (ucId 31)) Reg.CELL_STATE_EXISTS 1).wr (cellBase (ucId 31)) Reg.UC_STATUS_HDRLOW 1).wr (cellBase (ucId 31)) Reg.UC_DRIVE 0x40000000,
     31, by decide +kernel⟩,
   ⟨(((inSt stReady).withCell (ucId 31) csRun 0x5).wr (cellBase (ucId 31)) Reg.CELL_STATE_EXISTS 1).wr (cellBase (ucId 31)) Reg.CELL_STATE_STATE csRun,
     31, by decide +kernel⟩,
   ⟨((inSt stReady).wr (cellBase (ucId 31)) Reg.CELL_STATE_EXISTS 1).wr (cellBase (ucId 31)) Reg.CELL_STATE_STATE csRun, 31, false, by decide +kernel⟩,
   ⟨inSt stReady, 31, by decide +kernel⟩,
   ⟨(((inSt stReady).wr (cellBase (ucId 31)) Reg.CELL_STATE_EXISTS 1).wr (cellBase (ucId 31)) Reg.CELL_STATE_STATE csFault).modCell (ucId 31) fun x => { x with cause := true },
     31, false, by decide +kernel⟩⟩

theorem test_met_HartPollsRepliesAndRequests :
    (∃ (s : State) (uc : Fin 32) (dev : Fin 4), s.hartActive uc.val dev.val = true ∧ (s.uc uc.val).ident.getD dev.val false = true) ∧
    (∃ (s : State) (uc : Fin 32) (dev : Fin 4), s.hartActive uc.val dev.val = true ∧ (s.uc uc.val).ident.getD dev.val false = false) ∧
    (∃ (s : State) (uc : Fin 32) (w : Word) (r : HartReply), s.hartActive uc.val 0 = true ∧ s.ucMultidrop uc.val = false ∧ r.burst = false ∧
      r.badFrames = 0 ∧ (r.malfunction = false) ∧ r.pvOutOfLimits = false ∧ r.vars = [some w, none, none, none] ∧ f32Finite w = true ∧
      (s.uc uc.val).hartPorts.length = 4) ∧
    (∃ (s : State) (uc : Fin 32) (dev : Fin 4) (r : HartReply), s.hartActive uc.val dev.val = true ∧ (r.burst = true → s.ucBurst uc.val = true) ∧
      (s.uc uc.val).hartPorts.length = 4) ∧
    (∃ (s : State) (uc : Fin 32) (dev : Fin 4), s.hartActive uc.val dev.val = true ∧ (s.uc uc.val).miss.length = 4) ∧
    (∃ (s : State) (uc : Fin 32) (dev : Fin 4), s.hartActive uc.val dev.val = true ∧ (s.uc uc.val).hartPorts.length = 4) ∧
    (∃ (s : State) (p : Port) (uc : Fin 32) (req : Word), Served s p ∧ s.exists_ (ucId uc.val) = true ∧ getField req 31 1 = 0 ∧ getField req 24 7 = 0 ∧
      getField req 16 2 < s.ucNdev uc.val ∧ getField req 18 6 ≤ 32) ∧
    (∃ (s : State) (p : Port) (uc : Fin 32) (req : Word) (data : List (Fin 8 × Word)), Served s p ∧ s.exists_ (ucId uc.val) = true ∧
      getField req 31 1 = 0 ∧ getField req 24 7 = 0 ∧ getField req 16 2 < s.ucNdev uc.val ∧ getField req 18 6 ≤ 32 ∧
      (data = [] ∨ s.rd (cellBase (ucId uc.val)) Reg.HART_RSP_STATE ≠ 1)) ∧
    (∃ (s : State) (p : Port) (uc : Fin 32) (req : Word), Served s p ∧ s.exists_ (ucId uc.val) = true ∧ s.ucHart uc.val = true ∧
      s.mst ∈ [stReady, stRun, stService] ∧ s.rd (cellBase (ucId uc.val)) Reg.HART_RSP_STATE ≠ 1 ∧ getField req 31 1 = 1 ∧ getField req 24 7 = 0 ∧
      getField req 16 2 < s.ucNdev uc.val ∧ getField req 18 6 ≤ 32 ∧ s.dutyUp 3 = true) ∧
    (∃ (s : State) (p : Port) (uc : Fin 32) (req : Word), Served s p ∧ s.exists_ (ucId uc.val) = true ∧ s.ucHart uc.val = true ∧ s.dutyUp 3 = true ∧
      s.mst ∈ [stReady, stRun, stService] ∧ s.rd (cellBase (ucId uc.val)) Reg.HART_RSP_STATE ≠ 1 ∧ getField req 31 1 = 1 ∧ getField req 24 7 = 0 ∧
      getField req 16 2 < s.ucNdev uc.val ∧ getField req 18 6 = 0) ∧
    (∃ (s : State) (p : Port) (uc : Fin 32), Served s p ∧ s.exists_ (ucId uc.val) = false) ∧
    (∃ (s : State) (uc : Fin 32) (data : List Byte), s.rd (cellBase (ucId uc.val)) Reg.HART_RSP_STATE = 1 ∧ s.dutyUp 3 = true ∧ data.length ≤ 32) ∧
    (∃ (s : State) (uc : Fin 32), s.rd (cellBase (ucId uc.val)) Reg.HART_RSP_STATE = 1 ∧ s.dutyUp 3 = true) :=
  ⟨⟨(((inSt stReady).withCell (ucId 31) csRun 0x100101).put [aRec T_CELL 3 (ucId 31) 0x400]).modUc 31 fun x => { x with ident := [true, true, true, true] },
     31, 3, by decide +kernel⟩,
   ⟨((inSt stReady).withCell (ucId 31) csRun 0x100101).put [aRec T_CELL 3 (ucId 31) 0x400], 31, 3, by decide +kernel⟩,
   ⟨((inSt stReady).withCell (ucId 31) csRun 0x100101).put [aRec T_CELL 3 (ucId 31) 0x400], 31, 0x3F800000, aReply, by decide +kernel⟩,
   ⟨((inSt stReady).withCell (ucId 31) csRun 0x100101).put [aRec T_CELL 3 (ucId 31) 0x400], 31, 3, aReply, by decide +kernel⟩,
   ⟨((inSt stReady).withCell (ucId 31) csRun 0x100101).put [aRec T_CELL 3 (ucId 31) 0x400], 31, 3, by decide +kernel⟩,
   ⟨((inSt stReady).withCell (ucId 31) csRun 0x100101).put [aRec T_CELL 3 (ucId 31) 0x400], 31, 3, by decide +kernel⟩,
   ⟨(((inSt stReady).withCell (ucId 31) csRun 0x100101).put [aRec T_CELL 3 (ucId 31) 0x400]).wr (cellBase (ucId 31)) Reg.CELL_STATE_EXISTS 1, .service,
     31, 0x00830000, by decide +kernel⟩,
   ⟨(((inSt stReady).withCell (ucId 31) csRun 0x100101).put [aRec T_CELL 3 (ucId 31) 0x400]).wr (cellBase (ucId 31)) Reg.CELL_STATE_EXISTS 1, .service,
     31, 0, [], by decide +kernel⟩,
   ⟨(((inSt stReady).withCell (ucId 31) csRun 0x100101).put [aRec T_CELL 3 (ucId 31) 0x400]).wr (cellBase (ucId 31)) Reg.CELL_STATE_EXISTS 1, .service,
     31, 0x80030000, by decide +kernel⟩,
   ⟨(((inSt stReady).withCell (ucId 31) csRun 0x100101).put [aRec T_CELL 3 (ucId 31) 0x400]).wr (cellBase (ucId 31)) Reg.CELL_STATE_EXISTS 1, .service,
     31, 0x80030000, by decide +kernel⟩,
   ⟨inSt stReady, .service, 31, by decide +kernel⟩,
   ⟨(inSt stReady).wr (cellBase (ucId 31)) Reg.HART_RSP_STATE 1, 31, [], by decide +kernel⟩,
   ⟨(inSt stReady).wr (cellBase (ucId 31)) Reg.HART_RSP_STATE 1, 31, by decide +kernel⟩⟩

theorem test_met_TrimsAreCapturedAppliedAndCleared :
    (∃ (s : State) (uc : Fin 32), Served s .service ∧ s.exists_ (ucId uc.val) = true ∧ s.trimCheck .service uc.val .caplo = none ∧
      s.ucOutput uc.val = false ∧ (s.uc uc.val).raws ≠ []) ∧
    (∃ (s : State) (uc : Fin 32), Served s .service ∧ s.exists_ (ucId uc.val) = true ∧ s.trimCheck .service uc.val .caphi = none ∧
      s.ucOutput uc.val = false ∧ (s.uc uc.val).raws ≠ []) ∧
    (∃ (s : State) (uc : Fin 32) (lo : Word × Word) (hi : Word × Word) (g : Rat) (o : Rat), Served s .service ∧ s.exists_ (ucId uc.val) = true ∧
      s.trimCheck .service uc.val .apply = none ∧ (s.uc uc.val).capLo = some lo ∧ (s.uc uc.val).capHi = some hi ∧
      s.trimOf uc.val lo hi = some (g, o) ∧ JournalTakes s (s.trimHome uc.val)) ∧
    (∃ (s : State) (uc : Fin 32), Served s .service ∧ s.exists_ (ucId uc.val) = true ∧ s.trimCheck .service uc.val .clear = none ∧
      JournalTakes s (s.trimHome uc.val)) ∧
    (∃ (s : State) (uc : Fin 32) (op : TrimOp) (o : NvOutcome), Served s .service ∧ s.exists_ (ucId uc.val) = true ∧
      s.trimCheck .service uc.val op = none ∧ (s.commitTxn (s.trimHome uc.val) o).1 ≠ E_OK) ∧
    (∃ (s : State) (uc : Fin 32), Served s .service ∧ s.exists_ (ucId uc.val) = true ∧ s.trimCheck .service uc.val .discard = none) ∧
    (∃ (s : State) (p : Port) (uc : Fin 32), Served s p ∧ s.exists_ (ucId uc.val) = true) ∧
    (∃ (s : State) (p : Port), Served s p ∧ p ≠ .service) :=
  ⟨⟨(((inSt stService).withCell (ucId 31) csRun 0x101).wr (cellBase (ucId 31)) Reg.CELL_STATE_EXISTS 1).modUc 31 fun x => { x with raws := [0x40000000] },
     31, by decide +kernel⟩,
   ⟨(((inSt stService).withCell (ucId 31) csRun 0x101).wr (cellBase (ucId 31)) Reg.CELL_STATE_EXISTS 1).modUc 31 fun x => { x with raws := [0x40000000] },
     31, by decide +kernel⟩,
   ⟨((inSt stService).withCell (ucId 31) csRun 0x101).modUc 31 fun x => { x with capLo := some (0, 0), capHi := some (0x41200000, 0x41200000) }, 31,
     (0, 0), (0x41200000, 0x41200000), 1, 0, by decide +kernel⟩,
   ⟨((inSt stService).withCell (ucId 31) csRun 0x101).wr (cellBase (ucId 31)) Reg.CELL_STATE_EXISTS 1, 31, by decide +kernel⟩,
   ⟨(((inSt stService).withCell (ucId 31) csRun 1).wr (cellBase (ucId 31)) Reg.CELL_STATE_EXISTS 1).wr (blkBase 2 28) Reg.BLK_STATE_STATE bkIsolated, 31,
     .clear, .clean, by decide +kernel⟩,
   ⟨((inSt stService).withCell (ucId 31) csRun 0x101).wr (cellBase (ucId 31)) Reg.CELL_STATE_EXISTS 1, 31, by decide +kernel⟩,
   ⟨(inSt stReady).wr (cellBase (ucId 31)) Reg.CELL_STATE_EXISTS 1, .service, 31, by decide +kernel⟩,
   ⟨inSt stReady, .chainUp, by decide +kernel⟩⟩

theorem test_met_PointInputsAndFieldSupply :
    (∃ (s : State) (dp : Fin 32), s.mst ≠ stPfail ∧ s.dpInput dp.val = true ∧ (s.dp dp.val).settled = true ∧
      s.flag (cellBase (dpId dp.val)) Reg.DP_STATUS_IN = false) ∧
    (∃ (s : State) (dp : Fin 32), s.mst ≠ stPfail ∧ s.dpInput dp.val = true) ∧
    (∃ (s : State), s.mst ≠ stPfail) ∧
    (∃ (s : State) (db : Fin 4), s.flag (dbBase db.val) Reg.DB_FS_LOW = false) ∧
    (∃ (s : State) (db : Fin 4), s.flag (dbBase db.val) Reg.DB_FS_MISSING = false) ∧
    (∃ (s : State) (db : Fin 4), s.flag (dbBase db.val) Reg.DB_FS_SHED = false) ∧
    (∃ (s : State) (db : Fin 4) (c : FsCond),
      (match c with | .high => false | .low => s.flag (dbBase db.val) Reg.DB_FS_LOW | .shed => s.flag (dbBase db.val) Reg.DB_FS_SHED | .missing => s.flag (dbBase db.val) Reg.DB_FS_MISSING) = true) ∧
    (∃ (s : State) (db : Fin 4), s.flag (dbBase db.val) Reg.DB_FS_SHED = true ∧ s.flag (dbBase db.val) Reg.DB_FS_MISSING = false ∧
      s.fld.restore.contains db.val = false) ∧
    (∃ (s : State) (p : Port) (dp : Fin 32), Served s p ∧ s.exists_ (dpId dp.val) = true ∧ s.flag (cellBase (dpId dp.val)) Reg.DP_STATUS_LATCHOFF = true) ∧
    (∃ (s : State) (p : Port) (dp : Fin 32), Served s p ∧ s.flag (cellBase (dpId dp.val)) Reg.DP_STATUS_LATCHOFF = false) :=
  ⟨⟨((inSt stReady).withCell (dpId 31) csRun 0x1).modDp 31 fun x => { x with settled := true }, 31, by decide +kernel⟩,
   ⟨(inSt stReady).withCell (dpId 31) csRun 0x1, 31, by decide +kernel⟩,
   ⟨inSt stReady, by decide +kernel⟩,
   ⟨inSt stReady, 3, by decide +kernel⟩,
   ⟨State.reset.wr (dbBase 3) Reg.DB_FS_MISSING 0, 3, by decide +kernel⟩,
   ⟨inSt stReady, 3, by decide +kernel⟩,
   ⟨(inSt stReady).wr (dbBase 3) Reg.DB_FS_LOW 1, 3, .low, by decide +kernel⟩,
   ⟨((inSt stReady).wr (dbBase 3) Reg.DB_FS_SHED 1).wr (dbBase 3) Reg.DB_FS_MISSING 0, 3, by decide +kernel⟩,
   ⟨((inSt stReady).wr (cellBase (dpId 31)) Reg.CELL_STATE_EXISTS 1).wr (cellBase (dpId 31)) Reg.DP_STATUS_LATCHOFF 1, .service, 31, by decide +kernel⟩,
   ⟨inSt stReady, .service, 31, by decide +kernel⟩⟩

theorem test_met_PointWatchdogWiringAndSupervision :
    (∃ (s : State) (dp : Fin 32), s.dpOutput dp.val = true ∧ s.src (dpId dp.val) = 0 ∧ (s.dp dp.val).driven = true ∧
      s.flag (cellBase (dpId dp.val)) Reg.DP_STATUS_WDOG = false) ∧
    (∃ (b : Nat), 4 ≤ b ∧ b < 8) ∧
    (∃ (s : State) (dp : Fin 32) (w : Wiring), w ≠ .parallel ∧ (w = .shortFs → s.flag (dbBase (dpBlk dp.val)) Reg.DB_FS_LOW = false ∧
      s.flag (dbBase (dpBlk dp.val)) Reg.DB_FS_MISSING = false)) ∧
    (∃ (s : State) (dp : Fin 32), s.flag (dbBase (dpBlk dp.val)) Reg.DB_FS_LOW = false ∧ s.flag (dbBase (dpBlk dp.val)) Reg.DB_FS_MISSING = false) ∧
    (∃ (s : State) (dp : Fin 32) (w : Wiring), s.dpOutput dp.val = true ∧ s.dpLead dp.val = dp.val ∧ s.cst (dpId dp.val) = csRun ∧ w ≠ .parallel ∧
      s.flag (dbBase (dpBlk dp.val)) Reg.DB_FS_LOW = false ∧ s.flag (dbBase (dpBlk dp.val)) Reg.DB_FS_MISSING = false) ∧
    (∃ (s : State) (dp : Fin 32), s.dpOutput dp.val = true ∧ s.dpLead dp.val = dp.val ∧ s.cst (dpId dp.val) = csRun ∧
      s.flag (cellBase (dpId dp.val)) Reg.DP_STATUS_OVERLOAD = false) ∧
    (∃ (s : State) (dp : Fin 32) (f : Supervision), s.supervised dp.val f = true ∧ s.flag (cellBase (dpId dp.val)) (supField f) = false) ∧
    (∃ (s : State) (dp : Fin 32) (f : Supervision), s.supervised dp.val f = true) :=
  ⟨⟨((inSt stReady).withCell (dpId 31) csRun 0x3).modDp 31 fun x => { x with driven := true }, 31, by decide +kernel⟩,
   ⟨7, by decide +kernel⟩,
   ⟨(inSt stReady).wr (dbBase 3) Reg.DB_FS_MISSING 0, 31, .shortFs, by decide +kernel⟩,
   ⟨(inSt stReady).wr (dbBase 3) Reg.DB_FS_MISSING 0, 31, by decide +kernel⟩,
   ⟨(((inSt stReady).withCell (dpId 31) csRun 0x3).wr (cellBase (dpId 31)) Reg.CELL_STATE_STATE csRun).wr (dbBase 3) Reg.DB_FS_MISSING 0, 31, .shortFs,
     by decide +kernel⟩,
   ⟨((inSt stReady).withCell (dpId 31) csRun 0x3).wr (cellBase (dpId 31)) Reg.CELL_STATE_STATE csRun, 31, by decide +kernel⟩,
   ⟨((inSt stReady).withCell (dpId 31) csRun 0xffffff02).wr (dbBase 3) Reg.DB_FS_MISSING 0, 31, .wbreak, by decide +kernel⟩,
   ⟨((inSt stReady).withCell (dpId 31) csRun 0xffffff03).wr (dbBase 3) Reg.DB_FS_MISSING 0, 31, .open_, by decide +kernel⟩⟩

theorem test_met_AxesMoveUnderTheirProfile :
    (∃ (s : State) (ax : Fin 4) (v : Rat) (a : Rat), s.mst ≠ stPfail ∧ s.exists_ (axId ax.val) = true ∧ (s.ax ax.val).bridges = true ∧
      (s.ax ax.val).stopping = none ∧ s.homing ax.val = false ∧ (s.ax ax.val).idle = false ∧ s.src (axId ax.val) ≠ 3 ∧ (s.ax ax.val).cmdHow ≠ 3 ∧
      s.axVel ax.val = true ∧ s.axEnc ax.val = false ∧ s.axf ax.val Reg.AX_STATUS_LIMP = false ∧ (s.ax ax.val).speed = v ∧
      s.axRate ax.val Reg.AX_A1 = a ∧ 0 ≤ (s.ax ax.val).frac ∧ 0 < v ∧ 0 < a ∧ s.axVstart ax.val ≤ v ∧ s.axVstop ax.val ≤ v ∧ v < s.axV1 ax.val ∧
      v + a * axDt ≤ (s.ax ax.val).vcmd ∧ v + a * axDt ≤ s.axRate ax.val Reg.AX_VMAX) ∧
    (∃ (s : State) (ax : Fin 4) (v : Rat) (p : StopPlan), s.mst ≠ stPfail ∧ s.exists_ (axId ax.val) = true ∧ (s.ax ax.val).bridges = true ∧
      (s.ax ax.val).stopping = some p ∧ s.axEnc ax.val = false ∧ (s.ax ax.val).speed = v ∧ p.knee < v ∧ 0 < v ∧ 0 < v - p.d2 * axDt ∧
      p.vstop < v - p.d2 * axDt) ∧
    (∃ (s : State) (ax : Fin 4), s.mst ≠ stPfail ∧ s.exists_ (axId ax.val) = true ∧ (s.ax ax.val).bridges = true ∧ (s.ax ax.val).stopping = none ∧
      s.homing ax.val = false ∧ (s.ax ax.val).idle = true ∧ s.axSafe ax.val = false ∧ s.axEnc ax.val = false ∧ (s.ax ax.val).speed = 0) ∧
    (∃ (s : State) (u : State) (ax : Fin 4), s.mst ≠ stPfail ∧ s.exists_ (axId ax.val) = true ∧ (s.ax ax.val).bridges = true ∧
      u = (s.resumeHoming ax.val).resumeSafe ax.val ∧ (u.nextSpeed ax.val).1 ≠ 0) ∧
    (∃ (s : State) (u : State) (ax : Fin 4), s.mst ≠ stPfail ∧ s.exists_ (axId ax.val) = true ∧ (s.ax ax.val).bridges = true ∧
      u = (s.resumeHoming ax.val).resumeSafe ax.val ∧ (u.nextSpeed ax.val).1 = 0) ∧
    (∃ (s : State) (ax : Fin 4), s.mst ≠ stPfail ∧ s.exists_ (axId ax.val) = true ∧ (s.ax ax.val).bridges = false ∧ s.axEnc ax.val = true) ∧
    (∃ (s : State) (p : Port) (ax : Fin 4) (off : Nat) (w : Word), Served s p ∧ s.exists_ (axId ax.val) = true ∧ off ∈ axRateOffs ∧
      s.rateLegal ax.val off w = true) ∧
    (∃ (s : State) (p : Port) (ax : Fin 4) (ws : List (Nat × Word)), Served s p ∧ s.exists_ (axId ax.val) = true ∧ (∀ w ∈ ws, w.1 ∈ axRateOffs ∧
      s.rateLegal ax.val w.1 w.2 = true)) ∧
    (∃ (s : State) (p : Port) (ax : Fin 4) (off : Nat) (w : Word), Served s p ∧ s.exists_ (axId ax.val) = true ∧ off ∈ axRateOffs ∧
      s.rateLegal ax.val off w = false) ∧
    (∃ (s : State) (ax : Fin 4), (s.ax ax.val).bridges = true ∧ (s.ax ax.val).speed = 0) :=
  ⟨⟨(((((((inSt stReady).withCell (axId 3) csRun 0x42480000000000003f8000000000000000000001).wr (cellBase (axId 3)) Reg.CELL_STATE_EXISTS 1).modAx 3 fun x => { x with bridges := true }).modAx 3 fun x => { x with speed := 2 }).wr (axB 3) Reg.AX_A1 0x3f800000).wr (axB 3) Reg.AX_VMAX 0x42700000).modAx 3 fun x => { x with idle := false, vcmd := 40 },
     3, 2, 1, by decide +kernel⟩,
   ⟨((((inSt stReady).wr (cellBase (axId 3)) Reg.CELL_STATE_EXISTS 1).modAx 3 fun x => { x with bridges := true }).modAx 3 fun x => { x with stopping := some (⟨1, 1, 1, 1⟩) }).modAx 3 fun x => { x with speed := 20 },
     3, 20, ⟨1, 1, 1, 1⟩, by decide +kernel⟩,
   ⟨(((inSt stReady).wr (cellBase (axId 3)) Reg.CELL_STATE_EXISTS 1).modAx 3 fun x => { x with bridges := true }).modAx 3 fun x => { x with idle := true },
     3, by decide +kernel⟩,
   ⟨((((((inSt stReady).withCell (axId 3) csRun 0x42480000000000003f8000000000000000000001).wr (cellBase (axId 3)) Reg.CELL_STATE_EXISTS 1).modAx 3 fun x => { x with bridges := true }).wr (axB 3) Reg.AX_A1 0x3f800000).wr (axB 3) Reg.AX_VMAX 0x42700000).modAx 3 fun x => { x with idle := false, vcmd := 40, speed := 2 },
     ((((((((inSt stReady).withCell (axId 3) csRun 0x42480000000000003f8000000000000000000001).wr (cellBase (axId 3)) Reg.CELL_STATE_EXISTS 1).modAx 3 fun x => { x with bridges := true }).wr (axB 3) Reg.AX_A1 0x3f800000).wr (axB 3) Reg.AX_VMAX 0x42700000).modAx 3 fun x => { x with idle := false, vcmd := 40, speed := 2 }).resumeHoming 3).resumeSafe 3,
     3, met3 (by decide +kernel) ⟨rfl, by decide +kernel⟩⟩,
   ⟨((inSt stReady).wr (cellBase (axId 3)) Reg.CELL_STATE_EXISTS 1).modAx 3 fun x => { x with bridges := true },
     ((((inSt stReady).wr (cellBase (axId 3)) Reg.CELL_STATE_EXISTS 1).modAx 3 fun x => { x with bridges := true }).resumeHoming 3).resumeSafe 3, 3,
     met3 (by decide +kernel) ⟨rfl, by decide +kernel⟩⟩,
   ⟨((inSt stReady).withCell (axId 3) csRun 0x100).wr (cellBase (axId 3)) Reg.CELL_STATE_EXISTS 1, 3, by decide +kernel⟩,
   ⟨(inSt stReady).wr (cellBase (axId 3)) Reg.CELL_STATE_EXISTS 1, .service, 3, Reg.AX_A1.off, 0x40000000, by decide +kernel⟩,
   ⟨(inSt stReady).wr (cellBase (axId 3)) Reg.CELL_STATE_EXISTS 1, .service, 3, [], by decide +kernel⟩,
   ⟨(inSt stReady).wr (cellBase (axId 3)) Reg.CELL_STATE_EXISTS 1, .service, 3, Reg.AX_A1.off, 0x7FC00000, by decide +kernel⟩,
   ⟨(inSt stReady).modAx 3 fun x => { x with bridges := true }, 3, by decide +kernel⟩⟩

theorem test_met_AxisFaultsShowAndSwitchOff :
    (∃ (s : State) (ax : Fin 4), s.exists_ (axId ax.val) = true ∧ s.axEnc ax.val = true) ∧
    (∃ (s : State) (ax : Fin 4), s.exists_ (axId ax.val) = true ∧ s.axEnc ax.val = true ∧ s.axf ax.val Reg.AX_STATUS_ENCERR = false ∧
      s.axf ax.val Reg.AX_STATUS_STALL = false ∧ s.axFerrLimit ax.val < ratAbs (s.axFollowing ax.val) ∧
      (s.axStallAct ax.val = true → (s.ax ax.val).speed ≠ 0)) ∧
    (∃ (s : State) (ax : Fin 4), s.axStallAct ax.val = false ∧ s.axf ax.val Reg.AX_STATUS_ENCERR = false ∧
      ratAbs (s.axFollowing ax.val) < s.axFerrLimit ax.val / 2) ∧
    (∃ (s : State) (ax : Fin 4), s.exists_ (axId ax.val) = true ∧ (s.ax ax.val).bridges = true) ∧
    (∃ (s : State) (mb : Fin 2) (volts : Word), s.flag (mbBase mb.val) Reg.MB_MS_UNDER = false ∧ f32 volts < mkRat 55 10) ∧
    (∃ (s : State) (mb : Fin 2) (volts : Word), s.flag (mbBase mb.val) Reg.MB_MS_OVER = false ∧ 42 < f32 volts) ∧
    (∃ (s : State) (mb : Fin 2) (volts : Word), s.flag (mbBase mb.val) Reg.MB_MS_OVER = false ∧ 6 ≤ f32 volts) ∧
    (∃ (volts : Word), f32 volts ≤ 41) ∧
    (∃ (s : State) (ax : Fin 4) (k : AxisFaultKind), s.exists_ (axId ax.val) = true ∧ s.cst (axId ax.val) = csRun ∧ s.detectable ax.val k = true) ∧
    (∃ (s : State) (ax : Fin 4) (k : AxisFaultKind), s.exists_ (axId ax.val) = true ∧ s.detectable ax.val k = false ∧ (∀ p, k ≠ .overTemp p)) ∧
    (∃ (s : State) (ax : Fin 4), s.exists_ (axId ax.val) = true) :=
  ⟨⟨((inSt stReady).withCell (axId 3) csRun 0x100).wr (cellBase (axId 3)) Reg.CELL_STATE_EXISTS 1, 3, by decide +kernel⟩,
   ⟨(((inSt stReady).withCell (axId 3) csRun 0x100).wr (cellBase (axId 3)) Reg.CELL_STATE_EXISTS 1).wr (axB 3) Reg.AX_POS 512, 3, by decide +kernel⟩,
   ⟨(inSt stReady).put [aRec T_CELL 4 (axId 3) 0x40800000000000000000], 3, by decide +kernel⟩,
   ⟨((inSt stReady).wr (cellBase (axId 3)) Reg.CELL_STATE_EXISTS 1).modAx 3 fun x => { x with bridges := true }, 3, by decide +kernel⟩,
   ⟨State.reset.wr (mbBase 1) Reg.MB_MS_UNDER 0, 1, 5, by decide +kernel⟩,
   ⟨inSt stReady, 1, 0x42480000, by decide +kernel⟩,
   ⟨inSt stReady, 1, 0x41c00000, by decide +kernel⟩,
   ⟨0, by decide +kernel⟩,
   ⟨(((inSt stReady).wr (cellBase (axId 3)) Reg.CELL_STATE_EXISTS 1).wr (cellBase (axId 3)) Reg.CELL_STATE_STATE csRun).modAx 3 fun x => { x with bridges := true },
     3, .phaseShort, by decide +kernel⟩,
   ⟨(inSt stReady).wr (cellBase (axId 3)) Reg.CELL_STATE_EXISTS 1, 3, .openPhase true, by decide +kernel⟩,
   ⟨(inSt stReady).wr (cellBase (axId 3)) Reg.CELL_STATE_EXISTS 1, 3, by decide +kernel⟩⟩

theorem test_met_AxisLimitsAndHoming :
    (∃ (s : State) (ax : Fin 4), s.exists_ (axId ax.val) = true) ∧
    (∃ (s : State) (ax : Fin 4), s.exists_ (axId ax.val) = true) ∧
    (∃ (s : State) (ax : Fin 4) (on : Bool), s.exists_ (axId ax.val) = true ∧ s.homing ax.val = false ∧ (on != s.axOpt ax.val 1) = true ∧
      0 < (s.ax ax.val).speed) ∧
    (∃ (s : State) (ax : Fin 4) (on : Bool), s.exists_ (axId ax.val) = true ∧ s.homing ax.val = false ∧ (on != s.axOpt ax.val 2) = true ∧
      0 < (s.ax ax.val).speed ∧ (s.ax ax.val).inP = s.axOpt ax.val 1) ∧
    (∃ (s : State) (ax : Fin 4), (s.ax ax.val).chatP = true ∧ (s.ax ax.val).chatN = false ∧ (s.ax ax.val).fltN = false ∧ s.cst (axId ax.val) ≠ csFault) ∧
    (∃ (s : State) (p : Port) (ax : Fin 4), Served s p ∧ s.exists_ (axId ax.val) = true ∧ s.axHmeth ax.val ≠ 0 ∧ (s.mst = stRun ∨ s.mst = stService) ∧
      s.cst (axId ax.val) = csRun ∧ s.src (axId ax.val) = 0 ∧ s.homing ax.val = false ∧ (s.ax ax.val).homePending = false ∧ (s.ax ax.val).speed = 0 ∧
      s.flag (mbBase (axBlk ax.val)) Reg.MB_MS_OFF = false) ∧
    (∃ (s : State) (p : Port) (ax : Fin 4), Served s p ∧ s.exists_ (axId ax.val) = true ∧ s.axHmeth ax.val = 0) ∧
    (∃ (s : State) (p : Port) (ax : Fin 4), Served s p ∧ s.homing ax.val = true) ∧
    (∃ (s : State) (ax : Fin 4), s.homing ax.val = true ∧ s.homeStep ax.val = 1 ∧ s.axHmeth ax.val = 3 ∧ (s.ax ax.val).homeBack = false ∧
      s.axf ax.val Reg.AX_STATUS_HOME = true ∧ (s.ax ax.val).speed ≠ 0) ∧
    (∃ (s : State) (ax : Fin 4), s.homing ax.val = true ∧ s.homeStep ax.val = 1 ∧ s.axHmeth ax.val = 1 ∧ s.axf ax.val Reg.AX_STATUS_LIMN = true ∧
      (s.ax ax.val).speed ≠ 0) ∧
    (∃ (s : State) (ax : Fin 4), s.homing ax.val = true ∧ s.homeStep ax.val = 3 ∧ s.dutyUp 3 = true) ∧
    (∃ (s : State) (ax : Fin 4), s.homing ax.val = true ∧ s.homeStep ax.val = 5) ∧
    (∃ (s : State) (ax : Fin 4), s.homing ax.val = true ∧ s.homeStep ax.val = 4 ∧ s.axHmeth ax.val = 4 ∧ (s.ax ax.val).homeBack = false ∧
      s.axf ax.val Reg.AX_STATUS_HOME = false ∧ (s.ax ax.val).paused = false ∧ s.dutyUp 3 = true) ∧
    (∃ (s : State) (ax : Fin 4), s.homing ax.val = true) ∧
    (∃ (s : State) (ax : Fin 4), s.homing ax.val = true ∧ s.homeStep ax.val = 5) :=
  ⟨⟨(inSt stReady).wr (cellBase (axId 3)) Reg.CELL_STATE_EXISTS 1, 3, by decide +kernel⟩,
   ⟨(inSt stReady).wr (cellBase (axId 3)) Reg.CELL_STATE_EXISTS 1, 3, by decide +kernel⟩,
   ⟨((inSt stReady).wr (cellBase (axId 3)) Reg.CELL_STATE_EXISTS 1).modAx 3 fun x => { x with speed := 1 }, 3, true, by decide +kernel⟩,
   ⟨((inSt stReady).withCell (axId 3) csRun 0).modAx 3 fun x => { x with speed := 1 }, 3, true, by decide +kernel⟩,
   ⟨(inSt stReady).modAx 3 fun x => { x with chatP := true }, 3, by decide +kernel⟩,
   ⟨((((inSt stRun).withCell (axId 3) csRun 0x10000).wr (mbBase 1) Reg.MB_MS_OFF 0).wr (cellBase (axId 3)) Reg.CELL_STATE_EXISTS 1).wr (cellBase (axId 3)) Reg.CELL_STATE_STATE csRun,
     .service, 3, by decide +kernel⟩,
   ⟨(inSt stReady).wr (cellBase (axId 3)) Reg.CELL_STATE_EXISTS 1, .service, 3, by decide +kernel⟩,
   ⟨(inSt stReady).wr (axB 3) Reg.AX_HSTAT_STATE hsRunning, .service, 3, by decide +kernel⟩,
   ⟨(((((inSt stReady).withCell (axId 3) csRun 0x30000).wr (axB 3) Reg.AX_HSTAT_STATE hsRunning).wr (axB 3) Reg.AX_HSTAT_STEP 1).setAxf 3 Reg.AX_STATUS_HOME true).modAx 3 fun x => { x with speed := 1 },
     3, by decide +kernel⟩,
   ⟨(((((inSt stReady).withCell (axId 3) csRun 0x10000).wr (axB 3) Reg.AX_HSTAT_STATE hsRunning).wr (axB 3) Reg.AX_HSTAT_STEP 1).setAxf 3 Reg.AX_STATUS_LIMN true).modAx 3 fun x => { x with speed := 1 },
     3, by decide +kernel⟩,
   ⟨((inSt stReady).wr (axB 3) Reg.AX_HSTAT_STATE hsRunning).wr (axB 3) Reg.AX_HSTAT_STEP 3, 3, by decide +kernel⟩,
   ⟨((inSt stReady).wr (axB 3) Reg.AX_HSTAT_STATE hsRunning).wr (axB 3) Reg.AX_HSTAT_STEP 5, 3, by decide +kernel⟩,
   ⟨(((inSt stReady).withCell (axId 3) csRun 0x40000).wr (axB 3) Reg.AX_HSTAT_STATE hsRunning).wr (axB 3) Reg.AX_HSTAT_STEP 4, 3, by decide +kernel⟩,
   ⟨(inSt stReady).wr (axB 3) Reg.AX_HSTAT_STATE hsRunning, 3, by decide +kernel⟩,
   ⟨((inSt stReady).wr (axB 3) Reg.AX_HSTAT_STATE hsRunning).wr (axB 3) Reg.AX_HSTAT_STEP 5, 3, by decide +kernel⟩⟩

theorem test_met_ChainLinksCarryFrames :
    (∃ (s : State) (p : ChainPort), s.link p = 1 ∧ s.flag pwrBase Reg.PWR_STATUS_REFCH = true) ∧
    (∃ (s : State) (p : ChainPort), s.link p = 2 ∧ (s.cport p).queue = [] ∧ s.mst ≠ stEnum) ∧
    (∃ (s : State) (p : ChainPort), s.link p = 2) ∧
    (∃ (s : State) (p : ChainPort) (f : ChainFrame), s.link p = 2 ∧ s.link (otherPort p) = 2 ∧ s.badHeader p f = false ∧ f.poisoned = [] ∧
      (f.ty == 3 && ptpPeerDelay f) = false ∧ s.delivers f = false ∧ s.forwards p f = true ∧ (s.cport p).queue = [] ∧ s.mst ≠ stEnum) ∧
    (∃ (s : State) (p : ChainPort), s.link p = 2) ∧
    (∃ (s : State) (p : ChainPort), s.link p = 2) ∧
    (∃ (s : State) (p : ChainPort) (f : ChainFrame), s.link p = 2 ∧ s.badFrame p f = false ∧ f.badFlits = 0 ∧ f.poisoned = [] ∧ f.corrected = [] ∧
      (f.ty == 3 && ptpPeerDelay f) = false ∧ f.dst.toNat = s.addr ∧ s.addr ≠ 0 ∧ f.dst ≠ 0x7F) ∧
    (∃ (s : State) (p : ChainPort) (f : ChainFrame), s.link p = 2 ∧ s.badFrame p f = true ∧ f.badFlits = 0 ∧ f.poisoned = [] ∧ f.corrected = []) ∧
    (∃ (s : State) (p : ChainPort) (f : ChainFrame), s.link p = 2 ∧ s.link (otherPort p) = 2 ∧ s.badFrame p f = false ∧ f.badFlits = 0 ∧ f.poisoned = [] ∧
      f.corrected = [] ∧ (f.ty == 3 && ptpPeerDelay f) = false ∧ s.delivers f = false ∧ s.forwards p f = true) ∧
    (∃ (s : State) (p : ChainPort), s.link p = 2) ∧
    (∃ (s : State) (p : ChainPort) (w : Waiting), s.link p = 2 ∧ (s.cport p).queue = [w] ∧ w.own = true ∧ w.f.ty ≠ 7 ∧ (s.cport p).next = [] ∧
      perVc (s.cport p).cred w.f.vc.val ≠ 0 ∧ w.f.flits - w.sent ≤ perVc (s.cport p).cred w.f.vc.val) ∧
    (∃ (s : State) (p : ChainPort) (w : Waiting), s.link p = 2 ∧ (s.cport p).queue = [w] ∧ w.own = true ∧ (s.cport p).next = [] ∧
      perVc (s.cport p).cred w.f.vc.val ≠ 0 ∧ w.sent + perVc (s.cport p).cred w.f.vc.val < w.f.flits) ∧
    (∃ (s : State) (p : ChainPort), s.link p = 2) :=
  ⟨⟨((inSt stReady).setLink .down 1).wr pwrBase Reg.PWR_STATUS_REFCH 1, .down, by decide +kernel⟩,
   ⟨(inSt stReady).setLink .down 2, .down, by decide +kernel⟩,
   ⟨(inSt stReady).setLink .down 2, .down, by decide +kernel⟩,
   ⟨((inSt stReady).setLink .down 2).setLink (otherPort .down) 2, .down, aFrame, by decide +kernel⟩,
   ⟨(inSt stReady).setLink .down 2, .down, by decide +kernel⟩,
   ⟨(inSt stReady).setLink .down 2, .down, by decide +kernel⟩,
   ⟨((inSt stReady).setLink .down 2).wr modBase Reg.MOD_ADDR_ADDR 63, .down, { aFrame with dst := 63, tspec := [0, 0, 0, 1, 0, 1] }, by decide +kernel⟩,
   ⟨(inSt stReady).setLink .down 2, .down, { aFrame with len := 0, flits := 0, vc := 3 }, by decide +kernel⟩,
   ⟨((inSt stReady).setLink .down 2).setLink (otherPort .down) 2, .down, aFrame, by decide +kernel⟩,
   ⟨(inSt stReady).setLink .down 2, .down, by decide +kernel⟩,
   ⟨((inSt stReady).setLink .down 2).modCport .down fun x => { x with queue := [{ f := aFrame, arrived := 0, own := true, passed := 0, sent := 0 }], cred := [9, 9, 9, 9] },
     .down, { f := aFrame, arrived := 0, own := true, passed := 0, sent := 0 }, by decide +kernel⟩,
   ⟨((inSt stReady).setLink .down 2).modCport .down fun x => { x with queue := [{ f := { aFrame with flits := 4, payload := List.replicate 3 (List.replicate 32 0), len := 4 }, arrived := 0, own := true, passed := 0, sent := 1 }], cred := [2, 2, 2, 2] },
     .down,
     { f := { aFrame with flits := 4, payload := List.replicate 3 (List.replicate 32 0), len := 4 }, arrived := 0, own := true, passed := 0, sent := 1 },
     by decide +kernel⟩,
   ⟨(inSt stReady).setLink .down 2, .down, by decide +kernel⟩⟩

theorem test_met_ProcessImagesAndSafetyFramesArrive :
    (∃ (s : State) (f : ChainFrame) (k : Nat), f.ty = 1 ∧ f.src.toNat = k ∧ 1 ≤ k ∧ k < 64 ∧ s.exists_ (pcId k) = true ∧ s.pcSelf k = false ∧
      s.isolated 3 2 = false ∧ tspec f 29 = 1 ∧ tspec f 28 = 0 ∧ f.poisoned = [] ∧ f.badFlits = 0 ∧ (s.peer k).last ≠ some f.stroke ∧
      (s.peer k).asm = [] ∧ (s.peer k).image = none) ∧
    (∃ (s : State) (f : ChainFrame) (k : Nat) (x : PeerSt × Nat × Option (List (Nat × SigWord))), f.ty = 1 ∧ f.src.toNat = k ∧ 1 ≤ k ∧ k < 64 ∧
      s.exists_ (pcId k) = true ∧ s.pcSelf k = false ∧ s.isolated 3 2 = false ∧ 1 ≤ tspec f 29 ∧ tspec f 29 ≤ 16 ∧ tspec f 28 < tspec f 29 ∧
      f.poisoned = [] ∧ f.badFlits = 0 ∧
      x = (s.peer k).addPart f.stroke (tspec f 29) (tspec f 28) (tspec f 26 + 256 * tspec f 27) (tspec f 30 % 2 == 1) (piEntries f)) ∧
    (∃ (s : State) (pc : Fin 64), s.exists_ (pcId pc.val) = true ∧ s.pcSelf pc.val = false ∧ (s.peer pc.val).timedOut = false ∧
      (s.peer pc.val).image = none ∧ s.pcTimeout pc.val ≤ (s.peer pc.val).silent + 1) ∧
    (∃ (f : ChainFrame), f.ty = 2 ∧ f.poisoned = [] ∧ f.badFlits = 0) :=
  ⟨⟨((inSt stReady).wr modBase Reg.MOD_ADDR_ADDR 1).wr (cellBase (pcId 2)) Reg.CELL_STATE_EXISTS 1, aFrame, 2, by decide +kernel⟩,
   ⟨((inSt stReady).wr modBase Reg.MOD_ADDR_ADDR 1).withCell (pcId 2) csRun 0, aFrame, 2,
     ((((inSt stReady).wr modBase Reg.MOD_ADDR_ADDR 1).withCell (pcId 2) csRun 0).peer 2).addPart aFrame.stroke (tspec aFrame 29) (tspec aFrame 28) (tspec aFrame 26 + 256 * tspec aFrame 27) (tspec aFrame 30 % 2 == 1) (piEntries aFrame),
     met5 (by decide +kernel) (met5 (by decide +kernel) (met2 (by decide +kernel) (rfl)))⟩,
   ⟨(((inSt stReady).wr modBase Reg.MOD_ADDR_ADDR 1).withCell (pcId 63) csRun 0x1).wr (cellBase (pcId 63)) Reg.CELL_STATE_EXISTS 1, 63,
     by decide +kernel⟩,
   ⟨{ aFrame with ty := 2 }, by decide +kernel⟩⟩

theorem test_met_RingsArePostedEnabledAndResumed :
    (∃ (s : State) (p : Port) (qp : Fin 32) (rx : Bool) (tail : BitVec 12), Served s p ∧ s.exists_ (qpId qp.val) = true ∧
      tail.toNat < 2 ^ s.rd (cellBase (qpId qp.val)) (ringLog rx)) ∧
    (∃ (s : State) (p : Port) (qp : Fin 32) (rx : Bool) (tail : BitVec 12), Served s p ∧ s.exists_ (qpId qp.val) = true ∧
      2 ^ s.rd (cellBase (qpId qp.val)) (ringLog rx) ≤ tail.toNat) ∧
    (∃ (s : State) (p : Port) (qp : Fin 32), Served s p ∧ s.exists_ (qpId qp.val) = true ∧ s.ringSize qp.val false ≠ 0 ∧
      s.flag (cellBase (qpId qp.val)) Reg.QP_STATUS_TXHALT = false ∧ rootEn (s.rootOf (s.qpDomain qp.val)) = true ∧ s.cst (qpId qp.val) = csStart ∧
      (s.mst = stRun ∨ s.mst = stService)) ∧
    (∃ (s : State) (p : Port) (qp : Fin 32), Served s p ∧ s.exists_ (qpId qp.val) = true ∧ s.ringSize qp.val true ≠ 0 ∧
      s.flag (cellBase (qpId qp.val)) Reg.QP_STATUS_RXHALT = false ∧ rootEn (s.rootOf (s.qpDomain qp.val)) = true ∧ s.cst (qpId qp.val) = csStart ∧
      (s.mst = stRun ∨ s.mst = stService)) ∧
    (∃ (s : State) (p : Port) (qp : Fin 32), Served s p ∧ s.exists_ (qpId qp.val) = true ∧ (s.qp qp.val).txDesc = none) ∧
    (∃ (s : State) (p : Port) (qp : Fin 32), Served s p ∧ s.exists_ (qpId qp.val) = true ∧ (s.qp qp.val).rxDesc = none) ∧
    (∃ (s : State) (p : Port) (qp : Fin 32), Served s p ∧ s.exists_ (qpId qp.val) = true ∧ s.flag (cellBase (qpId qp.val)) Reg.QP_STATUS_TXHALT = true) ∧
    (∃ (s : State) (p : Port) (qp : Fin 32), Served s p ∧ s.exists_ (qpId qp.val) = true ∧ s.flag (cellBase (qpId qp.val)) Reg.QP_STATUS_RXHALT = true) ∧
    (∃ (s : State) (p : Port) (qp : Fin 32), Served s p ∧ s.exists_ (qpId qp.val) = true ∧ s.flag (cellBase (qpId qp.val)) Reg.QP_STATUS_TXHALT = false) ∧
    (∃ (s : State) (p : Port), Served s p) :=
  ⟨⟨((inSt stReady).wr (cellBase (qpId 31)) Reg.CELL_STATE_EXISTS 1).wr (cellBase (qpId 31)) Reg.QP_CFG_RXLOG 4, .service, 31, true, 15,
     by decide +kernel⟩,
   ⟨((inSt stReady).wr (cellBase (qpId 31)) Reg.CELL_STATE_EXISTS 1).wr (cellBase (qpId 31)) Reg.QP_CFG_RXLOG 4, .service, 31, true, 16,
     by decide +kernel⟩,
   ⟨((((inSt stRun).wr (cellBase (qpId 31)) Reg.CELL_STATE_EXISTS 1).wr (cellBase (qpId 31)) Reg.CELL_STATE_STATE csStart).wr (cellBase (qpId 31)) Reg.QP_CFG_TXLOG 4).modQ fun x => { x with roots := [(0, 0x80000000)] },
     .service, 31, by decide +kernel⟩,
   ⟨((((inSt stRun).wr (cellBase (qpId 31)) Reg.CELL_STATE_EXISTS 1).wr (cellBase (qpId 31)) Reg.CELL_STATE_STATE csStart).wr (cellBase (qpId 31)) Reg.QP_CFG_RXLOG 4).modQ fun x => { x with roots := [(0, 0x80000000)] },
     .service, 31, by decide +kernel⟩,
   ⟨(inSt stReady).wr (cellBase (qpId 31)) Reg.CELL_STATE_EXISTS 1, .service, 31, by decide +kernel⟩,
   ⟨(inSt stReady).wr (cellBase (qpId 31)) Reg.CELL_STATE_EXISTS 1, .service, 31, by decide +kernel⟩,
   ⟨((inSt stReady).wr (cellBase (qpId 31)) Reg.CELL_STATE_EXISTS 1).wr (cellBase (qpId 31)) Reg.QP_STATUS_TXHALT 1, .service, 31, by decide +kernel⟩,
   ⟨((inSt stReady).wr (cellBase (qpId 31)) Reg.CELL_STATE_EXISTS 1).wr (cellBase (qpId 31)) Reg.QP_STATUS_RXHALT 1, .service, 31, by decide +kernel⟩,
   ⟨(inSt stReady).wr (cellBase (qpId 31)) Reg.CELL_STATE_EXISTS 1, .service, 31, by decide +kernel⟩,
   ⟨inSt stReady, .service, by decide +kernel⟩⟩

theorem test_met_DescriptorsStartCopyAndFault :
    (∃ (s : State) (n : Nat) (pd : Nat) (src : Nat) (d : Desc), s.nextRing = some (2 * n) ∧ (s.qp n).txDesc = none ∧ (s.qp n).txDone = 0 ∧
      (s.qp n).txBuf = [] ∧ TlbMaps s (s.qpDomain n) (s.headIova n false) false pd ∧ d = parseDesc (s.memGranule pd) ∧
      txInvalid s.addr (s.memGranule pd) = none ∧ s.sendUnreachable d = false ∧ s.reachable d = true ∧ d.op = 1 ∧ 32 < d.len ∧ d.buf < 2 ^ 32 ∧
      TlbMaps s (s.qpDomain n) d.buf false src) ∧
    (∃ (s : State) (u : State) (r : Nat), s.nextRing = some r ∧ (u = (s.modQ fun q => { q with lastRing := r }))) ∧
    (∃ (s : State), s.nextRing = none) ∧
    (∃ (s : State) (qp : Fin 32) (d : Desc), s.queueUp = true ∧ (s.qp qp.val).txDesc = some d ∧ s.reachable d = true ∧
      s.runsTo qp.val (granules d.len) = true) ∧
    (∃ (s : State) (qp : Fin 32) (d : Desc) (k : Nat), s.queueUp = true ∧ (s.qp qp.val).txDesc = some d ∧ s.reachable d = true ∧ k < granules d.len ∧
      (s.qp qp.val).txDone ≤ k ∧ s.runsTo qp.val k = true) ∧
    (∃ (s : State) (qp : Fin 32) (d : Desc) (m : Nat × Nat × Nat) (w : WordRead), s.queueUp = true ∧ (s.qp qp.val).rxDesc = some d ∧
      (s.qp qp.val).rxMsg = some m ∧
      (s.inFlight.reportedFault (s.qpDomain qp.val) ((d.buf + 32 * granules (s.qp qp.val).rxUsed) % 2 ^ 32) true w).1.isSome = true) ∧
    (∃ (s : State) (qp : Fin 32) (rx : Bool) (writeback : Bool) (w : WordRead) (x : Option (AccessFault × Nat) × State), s.ringRuns qp.val rx = true ∧
      s.posted qp.val rx = true ∧ (if rx then (s.qp qp.val).rxDesc.isSome else (s.qp qp.val).txDesc.isSome) = writeback ∧
      x = s.inFlight.reportedFault (s.qpDomain qp.val) (s.headIova qp.val rx) writeback w) ∧
    (∃ (s : State) (qp : Fin 32) (d : Desc) (src : Nat) (dst : Nat) (head : Nat), s.queueUp = true ∧ (s.qp qp.val).txDesc = some d ∧
      (s.qp qp.val).txDone = 0 ∧ s.contended (2 * qp.val) = false ∧ d.op = 2 ∧ d.len = 32 ∧ d.buf < 2 ^ 32 ∧ d.dest < 2 ^ 32 ∧
      0 < s.ringSize qp.val false ∧ s.ringSize qp.val false ≤ 4096 ∧ TlbMaps s (s.qpDomain qp.val) d.buf false src ∧
      TlbMaps s (s.qpDomain qp.val) d.dest true dst ∧ TlbMaps s (s.qpDomain qp.val) (s.headIova qp.val false) false head ∧
      TlbMaps s (s.qpDomain qp.val) (s.headIova qp.val false) true head ∧ (dst + 32 ≤ head ∨ head + 32 ≤ dst)) ∧
    (∃ (s : State) (qp : Fin 32) (d : Desc) (src : Nat) (head : Nat) (w : WordRead), s.queueUp = true ∧ (s.qp qp.val).txDesc = some d ∧
      (s.qp qp.val).txDone = 0 ∧ d.op = 2 ∧ 1 ≤ d.len ∧ d.buf < 2 ^ 32 ∧ (readOutcome .dram (src / 32) w.flips).bad = true ∧ src / 32 ≠ head / 32 ∧
      TlbMaps s (s.qpDomain qp.val) d.buf false src ∧ TlbMaps s (s.qpDomain qp.val) (s.headIova qp.val false) false head ∧
      TlbMaps s (s.qpDomain qp.val) (s.headIova qp.val false) true head) ∧
    (∃ (s : State) (qp : Fin 32) (head : Nat) (w : WordRead), s.ringRuns qp.val false = true ∧ s.posted qp.val false = true ∧ (s.qp qp.val).txDesc = none ∧
      TlbMaps s (s.qpDomain qp.val) (s.headIova qp.val false) false head ∧ (readOutcome .dram (head / 32) w.flips).bad = true) ∧
    (∃ (s : State) (qp : Fin 32), s.ringRuns qp.val false = true ∧ s.posted qp.val false = true ∧ (s.qp qp.val).txDesc = none ∧
      rootEn (s.rootOf (s.qpDomain qp.val)) = false) :=
  ⟨⟨(((((((((inSt stReady).withCell (qpId 31) csRun 0).wr (cellBase (qpId 31)) Reg.QP_CFG_TXLOG 4).wr (cellBase (qpId 31)) Reg.QP_STATUS_TXON 1).wr (cellBase (qpId 31)) Reg.QP_TXPTR_TAIL 1).modQp 31 fun x => { x with live := true }).modQ fun x => { x with tlb := [⟨0, false, 0, 0, true, true⟩], roots := [(0, 0x80000000)] }).wr modBase Reg.MOD_ADDR_ADDR 1).setLink .down 2).modQ fun x => { x with mem := [(9, 1), (12, 1), (14, 2)] },
     31, 0, 0, { aDesc with len := 256, op := 1, last := false, daddr := 2 }, by decide +kernel⟩,
   ⟨ringSt, ringSt.modQ fun q => { q with lastRing := 62 }, 62, by decide +kernel, rfl⟩,
   ⟨inSt stReady, by decide +kernel⟩,
   ⟨(inSt stReady).modQp 31 fun x => { x with txDesc := some aDesc }, 31, aDesc, by decide +kernel⟩,
   ⟨(inSt stReady).modQp 31 fun x => { x with txDesc := some aDesc }, 31, aDesc, 0, by decide +kernel⟩,
   ⟨((inSt stReady).modQp 31 fun x => { x with rxDesc := some aDesc }).modQp 31 fun x => { x with rxMsg := some ((2, 3, 1)) }, 31, aDesc, (2, 3, 1),
     ⟨false, 0⟩, by decide +kernel⟩,
   ⟨ringSt, 31, false, false, ⟨false, 0⟩,
     ringSt.inFlight.reportedFault (ringSt.qpDomain (31 : Fin 32).val) (ringSt.headIova (31 : Fin 32).val false) false ⟨false, 0⟩,
     met3 (by decide +kernel) (rfl)⟩,
   ⟨((((((inSt stReady).withCell (qpId 31) csRun 0).wr (cellBase (qpId 31)) Reg.QP_CFG_TXLOG 4).wr (cellBase (qpId 31)) Reg.QP_STATUS_TXON 1).wr (cellBase (qpId 31)) Reg.QP_TXPTR_TAIL 1).modQ fun x => { x with tlb := [⟨0, false, 0, 0, true, true⟩], roots := [(0, 0x80000000)] }).modQp 31 fun x => { x with txDesc := some ({ aDesc with buf := 1024, dest := 2048 }) },
     31, { aDesc with buf := 1024, dest := 2048 }, 1024, 2048, 0, by decide +kernel⟩,
   ⟨((((((inSt stReady).withCell (qpId 31) csRun 0).wr (cellBase (qpId 31)) Reg.QP_CFG_TXLOG 4).wr (cellBase (qpId 31)) Reg.QP_STATUS_TXON 1).wr (cellBase (qpId 31)) Reg.QP_TXPTR_TAIL 1).modQ fun x => { x with tlb := [⟨0, false, 0, 0, true, true⟩], roots := [(0, 0x80000000)] }).modQp 31 fun x => { x with txDesc := some ({ aDesc with buf := 1024, dest := 2048 }) },
     31, { aDesc with buf := 1024, dest := 2048 }, 1024, 0, ⟨false, poisonFlips⟩, by decide +kernel⟩,
   ⟨((((((inSt stReady).withCell (qpId 31) csRun 0).wr (cellBase (qpId 31)) Reg.QP_CFG_TXLOG 4).wr (cellBase (qpId 31)) Reg.QP_STATUS_TXON 1).wr (cellBase (qpId 31)) Reg.QP_TXPTR_TAIL 1).modQp 31 fun x => { x with live := true }).modQ fun x => { x with tlb := [⟨0, false, 0, 0, true, true⟩], roots := [(0, 0x80000000)] },
     31, 0, ⟨false, poisonFlips⟩, by decide +kernel⟩,
   ⟨ringSt.modQ fun x => { x with roots := [] }, 31, by decide +kernel⟩⟩

theorem test_met_BulkMessagesAreReceived :
    (∃ (s : State) (f : ChainFrame) (g : List Byte) (d : Desc) (pa : Nat), f.ty = 5 ∧ tspec f 26 < 32 ∧ s.exists_ (qpId (tspec f 26)) = true ∧
      tspec f 30 = 1 ∧ f.payload = [g] ∧ f.poisoned = [] ∧ s.ringSize (tspec f 26) true ≠ 0 ∧ s.pairRuns (tspec f 26) = true ∧
      (s.qp (tspec f 26)).rxFrame = none ∧ s.contended (2 * tspec f 26 + 1) = false ∧ (s.qp (tspec f 26)).rxMsg = none ∧
      (s.qp (tspec f 26)).rxDesc = some d ∧ (s.qp (tspec f 26)).rxUsed = 0 ∧ d.buf < 2 ^ 32 ∧ 64 ≤ d.len ∧
      TlbMaps s (s.qpDomain (tspec f 26)) d.buf true pa) ∧
    (∃ (s : State) (f : ChainFrame), f.ty = 5 ∧ tspec f 26 < 32 ∧ s.exists_ (qpId (tspec f 26)) = true ∧ (s.qp (tspec f 26)).rxFrame = none) ∧
    (∃ (s : State) (f : ChainFrame), f.ty = 5 ∧ tspec f 26 < 32 ∧ s.exists_ (qpId (tspec f 26)) = true ∧ (s.qp (tspec f 26)).rxFrame.isSome = true) ∧
    (∃ (s : State) (f : ChainFrame), f.ty = 5 ∧ tspec f 26 < 32 ∧ s.exists_ (qpId (tspec f 26)) = false ∧ tspec f 30 % 2 = 1) ∧
    (∃ (s : State) (f : ChainFrame), f.ty = 5 ∧ tspec f 26 < 32 ∧ s.exists_ (qpId (tspec f 26)) = true ∧ (s.qp (tspec f 26)).rxDropped ≠ some (bulkId f) ∧
      (s.qp (tspec f 26)).rxFrame = none ∧ s.ringSize (tspec f 26) true = 0) ∧
    (∃ (s : State) (qp : Fin 32), s.queueUp = true ∧ (s.qp qp.val).rxDesc = none) ∧
    (∃ (s : State) (qp : Fin 32) (d : Desc) (m : Nat × Nat × Nat) (head : Nat), s.queueUp = true ∧ (s.qp qp.val).rxMsg = some m ∧
      (s.qp qp.val).rxDesc = some d ∧ 0 < s.ringSize qp.val true ∧ s.ringSize qp.val true ≤ 4096 ∧
      TlbMaps s (s.qpDomain qp.val) (s.headIova qp.val true) false head ∧ TlbMaps s (s.qpDomain qp.val) (s.headIova qp.val true) true head) :=
  ⟨⟨(((((inSt stReady).withCell (qpId 3) csRun 0).wr (cellBase (qpId 3)) Reg.QP_CFG_RXLOG 4).modQ fun x => { x with tlb := [⟨0, false, 0, 0, true, true⟩], roots := [(0, 0x80000000)] }).modQp 3 fun x => { x with live := true }).modQp 3 fun x => { x with rxDesc := some { aDesc with buf := 1024, len := 64 } },
     { aFrame with ty := 5, vc := 2, valid := 32, len := 2, flits := 2, tspec := [3, 0, 0, 0, 1, 0], payload := [List.replicate 32 5] },
     List.replicate 32 5, { aDesc with buf := 1024, len := 64 }, 1024, by decide +kernel⟩,
   ⟨(inSt stReady).withCell (qpId 3) csRun 0,
     { aFrame with ty := 5, vc := 2, valid := 32, len := 2, flits := 2, tspec := [3, 0, 0, 0, 1, 0], payload := [List.replicate 32 5] },
     by decide +kernel⟩,
   ⟨((inSt stReady).withCell (qpId 3) csRun 0).modQp 3 fun x => { x with rxFrame := some (aFrame, 0) },
     { aFrame with ty := 5, tspec := [3, 0, 0, 0, 1, 0] }, by decide +kernel⟩,
   ⟨inSt stReady, { aFrame with ty := 5, vc := 2, valid := 32, len := 2, flits := 2, tspec := [3, 0, 0, 0, 1, 0], payload := [List.replicate 32 5] },
     by decide +kernel⟩,
   ⟨(inSt stReady).withCell (qpId 3) csRun 0,
     { aFrame with ty := 5, vc := 2, valid := 32, len := 2, flits := 2, tspec := [3, 0, 0, 0, 1, 0], payload := [List.replicate 32 5] },
     by decide +kernel⟩,
   ⟨inSt stReady, 31, by decide +kernel⟩,
   ⟨((((inSt stReady).withCell (qpId 3) csRun 0).wr (cellBase (qpId 3)) Reg.QP_CFG_RXLOG 4).modQ fun x => { x with tlb := [⟨0, false, 0, 0, true, true⟩], roots := [(0, 0x80000000)] }).modQp 3 fun x => { x with rxDesc := some { aDesc with buf := 1024, len := 64 }, rxMsg := some (2, 3, 1) },
     3, { aDesc with buf := 1024, len := 64 }, (2, 3, 1), 0, by decide +kernel⟩⟩

theorem test_met_NetworkPathsComeAndGo :
    (∃ (s : State) (p : Path) (c : SfpCode), s.mst ≠ stPowerup ∧ s.mst ≠ stPfail ∧ s.role p = roleOff ∧ s.cageOn p = true ∧
      modeTakes (s.nrd p Reg.NET_CFG_PMODE) c = true) ∧
    (∃ (s : State) (p : Path) (c : SfpCode) (high : Bool), s.mst ≠ stPowerup ∧ s.mst ≠ stPfail ∧ s.cageOn p = true ∧
      (high = true ∨ modeTakes (s.nrd p Reg.NET_CFG_PMODE) c = false)) ∧
    (∃ (s : State) (p : Path), s.mst ≠ stPowerup ∧ s.mst ≠ stPfail ∧ s.cageOn p = true) ∧
    (∃ (s : State) (p : Path), (s.mst = stPowerup ∨ s.cageOn p = false)) ∧
    (∃ (s : State), s.mst ≠ stPfail) ∧
    (∃ (s : State) (p : Path) (flags : BitVec 16), s.nrd p Reg.NET_STATUS_SFP ≠ 0 ∧ flags &&& ~~~(s.path p).diag = 0) ∧
    (∃ (s : State) (p : Path), s.nrd p Reg.NET_STATUS_SFP ≠ 0) ∧
    (∃ (s : State) (p : Path), s.nrd p Reg.NET_STATUS_SFP ≠ 0 ∧ (s.path p).diag = 0 ∧ s.recd.queue.length < 4096 ∧ s.rd recBase Reg.REC_STATUS_STATE ≠ 0) ∧
    (∃ (s : State) (p : Path), s.role p ≠ roleOff ∧ s.nrd p Reg.NET_STATUS_SFP = 1) ∧
    (∃ (s : State), s.mst ≠ stPfail) ∧
    (∃ (s : State) (p : Path), s.mst = stPfail ∧ s.net.snare.toNat = pathNum p + 1) ∧
    (∃ (s : State) (p : Path) (h : MacHead), s.role p ≠ roleOff ∧ s.sahvosUp = true ∧ (h.fcsOk = false ∨ h.length < 64 ∨ 1522 < h.length)) ∧
    (∃ (s : State) (p : Path) (h : MacHead), s.role p ≠ roleOff ∧ s.sahvosUp = true ∧ h.fcsOk = true ∧ 64 ≤ h.length ∧ h.length ≤ 1522 ∧
      ((h.dst ∉ [macOf p, 0xFFFFFFFFFFFF, groupMac 1, groupMac 2, ptpMac]) ∨ (h.vid.elim 0 BitVec.toNat ≠ s.nrd p Reg.NET_VLAN_VID))) ∧
    (∃ (s : State) (p : Path) (h : MacHead) (ty : BitVec 16), s.role p ≠ roleOff ∧ s.sahvosUp = true ∧ s.dropRx p h = none ∧ ty ∉ [0x88F7, 0x88B5]) ∧
    (∃ (s : State) (p : Path), s.role p = roleOff) :=
  ⟨⟨((inSt stReady).wr pwrBase (refField .a) 1).nwr .a Reg.NET_STATUS_ROLE roleOff, .a, .sr, by decide +kernel⟩,
   ⟨((inSt stReady).nwr .b Reg.NET_CFG_PMODE 1).wr pwrBase (refField .b) 1, .b, .sr, true, by decide +kernel⟩,
   ⟨((inSt stReady).nwr .b Reg.NET_CFG_PMODE 1).wr pwrBase (refField .b) 1, .b, by decide +kernel⟩,
   ⟨inSt stPowerup, .b, by decide +kernel⟩,
   ⟨inSt stReady, by decide +kernel⟩,
   ⟨(inSt stReady).nwr .b Reg.NET_STATUS_SFP 1, .b, 0, by decide +kernel⟩,
   ⟨(inSt stReady).nwr .b Reg.NET_STATUS_SFP 1, .b, by decide +kernel⟩,
   ⟨((inSt stReady).nwr .b Reg.NET_STATUS_SFP 1).setRec_ rsRecording, .b, by decide +kernel⟩,
   ⟨((inSt stReady).nwr .b Reg.NET_STATUS_ROLE 1).nwr .b Reg.NET_STATUS_SFP 1, .b, by decide +kernel⟩,
   ⟨inSt stReady, by decide +kernel⟩,
   ⟨(inSt stPfail).modNet fun x => { x with snare := 2 }, .b, by decide +kernel⟩,
   ⟨(inSt stReady).nwr .b Reg.NET_STATUS_ROLE 1, .b, { aHead with fcsOk := false }, by decide +kernel⟩,
   ⟨(inSt stReady).nwr .b Reg.NET_STATUS_ROLE 1, .b, { aHead with vid := some 5 }, met5 (by decide +kernel) (Or.inr (by decide +kernel))⟩,
   ⟨(inSt stReady).nwr .b Reg.NET_STATUS_ROLE 1, .b, aHead, 0, met2 (by decide +kernel) ⟨rx_ok _ _ (by decide +kernel), by decide +kernel⟩⟩,
   ⟨(inSt stReady).nwr .b Reg.NET_STATUS_ROLE roleOff, .b, by decide +kernel⟩⟩

theorem test_met_NetworkFramesAreReceivedAndServed :
    (∃ (s : State) (p : Path) (h : MacHead) (f : Sahvos), s.role p ≠ roleOff ∧ s.sahvosUp = true ∧ s.dropRx p h = none ∧ s.tabor = false ∧
      badSahvos f 1 = false) ∧
    (∃ (s : State) (p : Path) (h : MacHead) (f : Sahvos), s.role p ≠ roleOff ∧ s.sahvosUp = true ∧ s.dropRx p h = none ∧ badSahvos f 1 = true) ∧
    (∃ (s : State) (p : Path) (h : MacHead) (f : Sahvos), s.role p ≠ roleOff ∧ s.sahvosUp = true ∧ s.dropRx p h = none ∧ s.tabor = false ∧
      badSahvos f 2 = false) ∧
    (∃ (s : State), s.net.outPdus ≠ [] ∧ s.sends .a = true ∧ s.tabor = false ∧ (s.path .a).queue = [] ∧ (s.path .a).next = []) ∧
    (∃ (s : State) (u : State) (p : Path), s.net.outPdus ≠ [] ∧ [Path.a, Path.b].find? s.sends = some p ∧ s.tabor = false ∧ u = s.pump p) ∧
    (∃ (s : State), s.sends .a = false ∧ s.sends .b = false) ∧
    (∃ (s : State) (p : Path) (h : MacHead) (f : Sahvos), s.role p ≠ roleOff ∧ s.sahvosUp = true ∧ s.dropRx p h = none ∧ s.tabor = false ∧
      badSahvos f 5 = false ∧ s.recd.queue.length < 4096 ∧ s.rd recBase Reg.REC_STATUS_STATE ≠ 0) ∧
    (∃ (s : State) (p : Path) (h : MacHead) (ip : BitVec 32), s.servesIp p ip = true ∧ s.sahvosUp = true ∧ s.dropRx p h = none ∧ 1 ≤ (s.path p).bucket) ∧
    (∃ (s : State) (p : Path) (h : MacHead) (ip : BitVec 32), s.servesIp p ip = true ∧ s.sahvosUp = true ∧ s.dropRx p h = none ∧ 1 ≤ (s.path p).bucket) ∧
    (∃ (s : State) (p : Path) (h : MacHead) (ip : BitVec 32), s.role p ≠ roleOff ∧ s.sahvosUp = true ∧ s.dropRx p h = none ∧ s.servesIp p ip = false) ∧
    (∃ (s : State) (p : Path) (d : Option (BitVec 32 × BitVec 32 × BitVec 16)) (m : MacHead) (h : Sahvos) (bytes : List Byte), s.role p ≠ roleOff ∧
      s.sahvosUp = true ∧ s.dropRx p m = none ∧ (s.mreqFiltered p (d.map Prod.fst) h bytes = true ∨ (d = none ∧ m.dst ≠ macOf p))) ∧
    (∃ (s : State) (u : State) (p : Path) (d : Option (BitVec 32 × BitVec 32 × BitVec 16)) (m : MacHead) (h : Sahvos) (bytes : List Byte),
      s.role p ≠ roleOff ∧ s.sahvosUp = true ∧ s.dropRx p m = none ∧ (d = none → m.dst = macOf p) ∧
      s.mreqFiltered p (d.map Prod.fst) h bytes = false ∧ s.police p = (true, u)) ∧
    (∃ (s : State) (mac : BitVec 48) (m : MacHead) (h : Sahvos) (bytes : List Byte) (r : MgmtReq), s.role .a ≠ roleOff ∧ s.sahvosUp = true ∧
      s.dropRx .a m = none ∧ m.dst = macOf .a ∧ 1 ≤ (s.path .a).bucket ∧ Served s .na ∧ s.mgmt.memory = [] ∧ s.mgmt.queue = [] ∧
      s.mreqFiltered .a none h bytes = false ∧ r = ⟨.mac .a mac, h.count.toNat, bytes⟩ ∧ r.reject = none) :=
  ⟨⟨(inSt stReady).nwr .b Reg.NET_STATUS_ROLE 1, .b, aHead, aSahvos, met2 (by decide +kernel) ⟨rx_ok _ _ (by decide +kernel), by decide +kernel⟩⟩,
   ⟨(inSt stReady).nwr .b Reg.NET_STATUS_ROLE 1, .b, aHead, { aSahvos with ver := 2 }, met2 (by decide +kernel) ⟨rx_ok _ _ (by decide +kernel),
     by decide +kernel⟩⟩,
   ⟨(inSt stReady).nwr .b Reg.NET_STATUS_ROLE 1, .b, aHead, { aSahvos with kind := 2, count := 1, pdus := [0] },
     met2 (by decide +kernel) ⟨rx_ok _ _ (by decide +kernel), by decide +kernel⟩⟩,
   ⟨((inSt stReady).modNet fun x => { x with outPdus := [5], snare := 1 }).nwr .a Reg.NET_STATUS_ROLE 2, by decide +kernel⟩,
   ⟨((inSt stReady).modNet fun x => { x with outPdus := [5], snare := 1 }).nwr .a Reg.NET_STATUS_ROLE 2,
     (((inSt stReady).modNet fun x => { x with outPdus := [5], snare := 1 }).nwr .a Reg.NET_STATUS_ROLE 2).pump .a, .a,
     met3 (by decide +kernel) (rfl)⟩,
   ⟨inSt stReady, by decide +kernel⟩,
   ⟨((inSt stReady).nwr .b Reg.NET_STATUS_ROLE 1).setRec_ rsRecording, .b, aHead, { aSahvos with kind := 5, count := 16 },
     met2 (by decide +kernel) ⟨rx_ok _ _ (by decide +kernel), by decide +kernel⟩⟩,
   ⟨((inSt stReady).wr (netBase .b) Reg.NET_IP 5).nwr .b Reg.NET_STATUS_ROLE 2, .b, aHead, 5, met2 (by decide +kernel) ⟨rx_ok _ _ (by decide +kernel),
     by decide +kernel⟩⟩,
   ⟨((inSt stReady).wr (netBase .b) Reg.NET_IP 5).nwr .b Reg.NET_STATUS_ROLE 2, .b, aHead, 5, met2 (by decide +kernel) ⟨rx_ok _ _ (by decide +kernel),
     by decide +kernel⟩⟩,
   ⟨(inSt stReady).nwr .b Reg.NET_STATUS_ROLE 1, .b, aHead, 0, met2 (by decide +kernel) ⟨rx_ok _ _ (by decide +kernel), by decide +kernel⟩⟩,
   ⟨(inSt stReady).nwr .b Reg.NET_STATUS_ROLE 1, .b, none, aHead, aSahvos, [], met2 (by decide +kernel) ⟨rx_ok _ _ (by decide +kernel),
     Or.inl (by decide +kernel)⟩⟩,
   ⟨(((inSt stReady).nwr .b Reg.NET_STATUS_ROLE 2).wr (netBase .b) Reg.NET_IP 5).modPath .b fun x => { x with bucket := 9 },
     (((((inSt stReady).nwr .b Reg.NET_STATUS_ROLE 2).wr (netBase .b) Reg.NET_IP 5).modPath .b fun x => { x with bucket := 9 }).police .b).2, .b,
     some (5, 9, 7), aHead, { aSahvos with kind := 3, count := 12 }, aBytes [(0x400FFF3C, 1, [])],
     met2 (by decide +kernel) ⟨rx_ok _ _ (by decide +kernel), (fun h => nomatch h), by decide +kernel, Prod.ext (by decide +kernel) rfl⟩⟩,
   ⟨((inSt stReady).nwr .a Reg.NET_STATUS_ROLE 2).modPath .a fun x => { x with bucket := 9 }, 7, { aHead with dst := macOf .a },
     { aSahvos with kind := 3, count := 12 }, aBytes [(0x400FFF3C, 1, [])], ⟨.mac .a 7, 12, aBytes [(0x400FFF3C, 1, [])]⟩,
     met2 (by decide +kernel) ⟨rx_mac _ _ (by decide +kernel), rfl, met5 (by decide +kernel) ⟨rfl, by decide +kernel⟩⟩⟩⟩

theorem test_met_PathsSwitchOverAndRegistersAreStored :
    (∃ (s : State) (p : Path), s.pathActive p = true ∧ s.nflag p Reg.NET_STATUS_ARMED = true ∧ 2 ≤ s.nrd p Reg.NET_STATUS_MISS ∧ s.net.pendingKind < 2 ∧
      s.tabor = false ∧ s.mst ≠ stPfail ∧ s.elig (otherPath p) = true) ∧
    (∃ (s : State) (p : Path), s.pathActive p = true ∧ s.nflag p Reg.NET_STATUS_ARMED = true ∧ 2 ≤ s.nrd p Reg.NET_STATUS_MISS ∧ s.net.pendingKind < 2 ∧
      s.tabor = false ∧ s.mst ≠ stPfail ∧ s.elig (otherPath p) = false) ∧
    (∃ (s : State) (p : Path), s.pathActive p = true ∧ s.follow = true ∧ 2 ≤ (s.path (otherPath p)).callRun ∧ s.elig (otherPath p) = true ∧
      s.net.pendingKind < 2 ∧ s.tabor = false ∧ s.mst ≠ stPfail ∧ s.nrd p Reg.NET_STATUS_MISS < 2 ∧ s.nflag p Reg.NET_STATUS_NOALT = false) ∧
    (∃ (s : State) (p : Path), s.nflag p Reg.NET_STATUS_CALLING = true ∧ (s.path p).calls = 0) ∧
    (∃ (s : State) (port : Port) (p : Path), Served s port ∧ s.tabor = false ∧ s.mst ∈ [stReady, stRun, stService] ∧
      s.nflag .a Reg.NET_STATUS_SWPEND = false ∧ s.nflag .b Reg.NET_STATUS_SWPEND = false ∧ s.role p = roleStandby ∧ s.elig p = true ∧
      s.pathActive (otherPath p) = true) ∧
    (∃ (s : State) (port : Port), Served s port ∧ s.tabor = true) ∧
    (∃ (s : State) (port : Port), Served s port ∧ s.tabor = false ∧ s.mst ∉ [stReady, stRun, stService]) ∧
    (∃ (s : State) (u : State) (a : BitVec 32) (r : StoredReg) (w : Word) (o : NvOutcome), Served s .service ∧ storedAt a.toNat = some r ∧
      s.storedCheck .service r w = E_OK ∧ s.commitTxn (storedHome a.toNat) o = (E_OK, u) ∧ u.storedCheck .service r w = E_OK) ∧
    (∃ (s : State) (w : Word), Served s .service ∧ s.storedCheck .service .recCfg w = E_OK ∧ JournalTakes s (storedHome (recBase + 0x20))) ∧
    (∃ (s : State) (a : BitVec 32) (r : StoredReg) (w : Word) (o : NvOutcome), Served s .service ∧ storedAt a.toNat = some r ∧
      s.storedCheck .service r w = E_OK ∧ (s.commitTxn (storedHome a.toNat) o).1 ≠ E_OK) ∧
    (∃ (s : State) (p : Port), Served s p ∧ p ≠ .service) ∧
    (∃ (s : State), Served s .service ∧ s.mst = stRun) :=
  ⟨⟨((((inSt stReady).nwr .b Reg.NET_STATUS_ROLE 2).nset .b Reg.NET_STATUS_ARMED true).nwr .b Reg.NET_STATUS_MISS 2).nset (otherPath .b) Reg.NET_STATUS_ELIG true,
     .b, by decide +kernel⟩,
   ⟨(((inSt stReady).nwr .b Reg.NET_STATUS_ROLE 2).nset .b Reg.NET_STATUS_ARMED true).nwr .b Reg.NET_STATUS_MISS 2, .b, by decide +kernel⟩,
   ⟨(((((inSt stReady).nwr .b Reg.NET_STATUS_ROLE 2).nset (otherPath .b) Reg.NET_STATUS_ELIG true).nset .a Reg.NET_XCFG_FOLLOW true).modPath .a fun x => { x with callRun := 2 }).nset .a Reg.NET_STATUS_ELIG true,
     .b, by decide +kernel⟩,
   ⟨(inSt stReady).nset .b Reg.NET_STATUS_CALLING true, .b, by decide +kernel⟩,
   ⟨(((inSt stReady).nwr .b Reg.NET_STATUS_ROLE roleStandby).nset .b Reg.NET_STATUS_ELIG true).nwr (otherPath .b) Reg.NET_STATUS_ROLE 2, .service, .b,
     by decide +kernel⟩,
   ⟨(inSt stReady).wr modBase Reg.MOD_MODE_MODE 1, .service, by decide +kernel⟩,
   ⟨inSt stLoad, .service, by decide +kernel⟩,
   ⟨inSt stReady, ((inSt stReady).commitTxn (storedHome (BitVec.ofNat 32 (canBase 0 + 0x20)).toNat) .clean).2, BitVec.ofNat 32 (canBase 0 + 0x20),
     .canCfg 0, 0x4022, .clean, met3 (by decide +kernel) ⟨Prod.ext (by decide +kernel) rfl, by decide +kernel⟩⟩,
   ⟨inSt stReady, 60, by decide +kernel⟩,
   ⟨(inSt stReady).wr (blkBase 2 28) Reg.BLK_STATE_STATE bkIsolated, BitVec.ofNat 32 (recBase + 0x20), .recCfg, 60, .clean, by decide +kernel⟩,
   ⟨inSt stReady, .chainUp, by decide +kernel⟩,
   ⟨inSt stRun, by decide +kernel⟩⟩

theorem test_met_TimeMessagesAreUsedOrDiscarded :
    (∃ (s : State) (f : PtpFrom) (h : PtpHead), PtpHeard s f ∧ s.ptpUsed f = true ∧ s.fromParent h = true ∧ intervalIn (-7) 1 h.logInterval = true ∧
      s.servoState ≠ svLocked ∧ s.time.moved = false) ∧
    (∃ (s : State) (u : State) (f : PtpFrom) (h : PtpHead) (arrived : Int), PtpHeard s f ∧ s.ptpUsed f = true ∧ s.fromParent h = true ∧
      intervalIn (-7) 1 h.logInterval = true ∧ s.stamp f = (arrived, u)) ∧
    (∃ (s : State) (f : PtpFrom) (h : PtpHead) (seq : BitVec 16) (arrived : Int) (corr : Int), PtpHeard s f ∧ s.ptpUsed f = true ∧ s.fromParent h = true ∧
      intervalIn (-7) 1 h.logInterval = true ∧ s.time.half = some (seq, arrived, corr)) ∧
    (∃ (s : State) (f : PtpFrom) (h : PtpHead) (fu : Bool), PtpHeard s f ∧
      (s.ptpUsed f = false ∨ s.fromParent h = false ∨ intervalIn (-7) 1 h.logInterval = false ∨ (fu = true ∧ s.time.half = none))) ∧
    (∃ (s : State) (u : State), s.ptpUp = true ∧ s.time.parent ≠ none ∧ s.tsrc = 1 ∧ u = s.draw.2) ∧
    (∃ (s : State), s.ptpUp = true ∧ s.time.parent ≠ none ∧ s.tsrc = 0 ∧ s.pathActive .a = true) ∧
    (∃ (s : State) (src : BitVec 8) (a : Announce) (changed : Bool), s.ptpUp = true ∧ s.ptpUsed (.chain src) = true ∧
      a.head.domain.toNat = s.trd Reg.TM_CFG_DOMAIN ∧ intervalIn (-3) 4 a.head.logInterval = true ∧
      changed = (s.time.parent.isSome && s.time.parent != some a.head.sender && s.servoState != svFree)) ∧
    (∃ (s : State) (p : Path) (h : MacHead) (a : Announce), PtpHeard s (.path p h) ∧ s.ptpUsed (.path p h) = true ∧
      a.head.domain.toNat = s.trd Reg.TM_CFG_DOMAIN ∧ intervalIn (-3) 4 a.head.logInterval = true ∧ a.head.sender ≠ Config.clockIdentity ∧
      a.steps.toNat < 255) ∧
    (∃ (s : State) (p : Path) (h : MacHead) (a : Announce), PtpHeard s (.path p h) ∧ s.ptpUsed (.path p h) = true ∧
      a.head.domain.toNat = s.trd Reg.TM_CFG_DOMAIN ∧ intervalIn (-3) 4 a.head.logInterval = true ∧ a.head.sender ≠ Config.clockIdentity ∧
      a.steps.toNat < 255 ∧ s.time.masters = []) ∧
    (∃ (s : State) (p : Path) (h : MacHead) (a : Announce) (b : Announce) (t0 : Nat), PtpHeard s (.path p h) ∧ s.ptpUsed (.path p h) = true ∧
      a.head.domain.toNat = s.trd Reg.TM_CFG_DOMAIN ∧ intervalIn (-3) 4 a.head.logInterval = true ∧ a.head.sender ≠ Config.clockIdentity ∧
      a.steps.toNat < 255 ∧ s.time.masters = [⟨b, t0, false⟩] ∧ b.head.sender = a.head.sender ∧
      s.time.cycles - t0 ≤ 4 * intervalCycles a.head.logInterval.toInt) ∧
    (∃ (s : State) (f : PtpFrom) (a : Announce), PtpHeard s f ∧
      (s.ptpUsed f = false ∨ a.head.domain.toNat ≠ s.trd Reg.TM_CFG_DOMAIN ∨ intervalIn (-3) 4 a.head.logInterval = false)) ∧
    (∃ (s : State) (drift : List (BitVec 16)), s.time.reloads = [0, 0, 0, 0, 0] ∧
      (∀ r < 5, (s.time.followers.getD r 0 + (drift.getD r 0).toInt).natAbs ≤ 4)) ∧
    (∃ (s : State) (drift : List (BitVec 16)) (diff : List Int) (runs : List Nat),
      (diff = (List.range 5).map (fun r => s.time.followers.getD r 0 + (drift.getD r 0).toInt)) ∧
      (runs = (List.range 5).map (fun r => if 4 < (diff.getD r 0).natAbs then s.time.reloads.getD r 0 + 1 else 0))) ∧
    (∃ (s : State) (d : Int), s.time.reloads = [1, 0, 0, 0, 0] ∧ s.time.followers = [d, 0, 0, 0, 0] ∧ d.natAbs ≤ 4) ∧
    (∃ (s : State) (d : BitVec 16), s.time.reloads = [3, 0, 0, 0, 0] ∧ s.time.followers = [0, 0, 0, 0, 0] ∧ 4 < d.toInt.natAbs) ∧
    (∃ (s : State), s.ptpUp = true ∧ s.chainMaster = true) ∧
    (∃ (s : State) (u : State), s.ptpUp = true ∧ s.chainMaster = true ∧ s.tsrc = 2 ∧ u = s.draw.2.draw.2) ∧
    (∃ (s : State) (u : State), s.ptpUp = true ∧ s.chainMaster = true ∧ s.tsrc = 0 ∧ u = s.draw.2.draw.2) ∧
    (∃ (s : State), s.ptpUp = true ∧ s.chainMaster = true) ∧
    (∃ (s : State), s.ptpUp = true ∧ s.chainMaster = false) :=
  ⟨⟨((inSt stReady).wr tmBase Reg.TM_CFG_SRC 1).modTime fun x => { x with parent := some 3 }, .chain 1, aPtp, heard_chain _ _ (by decide +kernel),
     by decide +kernel⟩,
   ⟨((inSt stReady).wr tmBase Reg.TM_CFG_SRC 1).modTime fun x => { x with parent := some 3 },
     ((((inSt stReady).wr tmBase Reg.TM_CFG_SRC 1).modTime fun x => { x with parent := some 3 }).stamp (.chain 1)).2, .chain 1, aPtp,
     ((((inSt stReady).wr tmBase Reg.TM_CFG_SRC 1).modTime fun x => { x with parent := some 3 }).stamp (.chain 1)).1,
     heard_chain _ _ (by decide +kernel), met3 (by decide +kernel) (rfl)⟩,
   ⟨(((inSt stReady).wr tmBase Reg.TM_CFG_SRC 1).modTime fun x => { x with parent := some 3 }).modTime fun x => { x with half := some (9, 0, 0) },
     .chain 1, aPtp, 9, 0, 0, heard_chain _ _ (by decide +kernel), by decide +kernel⟩,
   ⟨inSt stReady, .chain 2, aPtp, true, heard_chain _ _ (by decide +kernel), by decide +kernel⟩,
   ⟨((inSt stReady).wr tmBase Reg.TM_CFG_SRC 1).modTime fun x => { x with parent := some 0 },
     (((inSt stReady).wr tmBase Reg.TM_CFG_SRC 1).modTime fun x => { x with parent := some 0 }).draw.2, met3 (by decide +kernel) (rfl)⟩,
   ⟨((((inSt stReady).wr tmBase Reg.TM_CFG_SRC 0).nwr .a Reg.NET_STATUS_ROLE 2).modTime fun x => { x with parent := some 0 }).wr tmBase Reg.TM_CFG_SRC 0,
     by decide +kernel⟩,
   ⟨(inSt stReady).wr tmBase Reg.TM_CFG_SRC 1, 1, aAnnounce,
     ((inSt stReady).wr tmBase Reg.TM_CFG_SRC 1).time.parent.isSome && ((inSt stReady).wr tmBase Reg.TM_CFG_SRC 1).time.parent != some aAnnounce.head.sender && ((inSt stReady).wr tmBase Reg.TM_CFG_SRC 1).servoState != svFree,
     met4 (by decide +kernel) (rfl)⟩,
   ⟨(inSt stReady).nwr .b Reg.NET_STATUS_ROLE 2, .b, aHead, anAnnounce, heard_path _ _ (by decide +kernel) (by decide +kernel) (by decide +kernel),
     met3 (by decide +kernel) ⟨another, by decide +kernel⟩⟩,
   ⟨(inSt stReady).nwr .b Reg.NET_STATUS_ROLE 2, .b, aHead, anAnnounce, heard_path _ _ (by decide +kernel) (by decide +kernel) (by decide +kernel),
     met3 (by decide +kernel) ⟨another, by decide +kernel⟩⟩,
   ⟨((inSt stReady).nwr .b Reg.NET_STATUS_ROLE 2).modTime fun x => { x with masters := [⟨anAnnounce, 0, false⟩] }, .b, aHead, anAnnounce, anAnnounce, 0,
     heard_path _ _ (by decide +kernel) (by decide +kernel) (by decide +kernel), met3 (by decide +kernel) ⟨another, by decide +kernel, rfl, rfl,
     by decide +kernel⟩⟩,
   ⟨inSt stReady, .chain 2, aAnnounce, heard_chain _ _ (by decide +kernel), by decide +kernel⟩,
   ⟨(inSt stReady).modTime fun x => { x with reloads := [0, 0, 0, 0, 0] }, [], by decide +kernel⟩,
   ⟨inSt stReady, [], [0, 0, 0, 0, 0], [0, 0, 0, 0, 0], by decide +kernel⟩,
   ⟨((inSt stReady).modTime fun x => { x with reloads := [1, 0, 0, 0, 0] }).modTime fun x => { x with followers := [0, 0, 0, 0, 0] }, 0,
     by decide +kernel⟩,
   ⟨((inSt stReady).modTime fun x => { x with reloads := [3, 0, 0, 0, 0] }).modTime fun x => { x with followers := [0, 0, 0, 0, 0] }, 100,
     by decide +kernel⟩,
   ⟨(((inSt stReady).wr tmBase Reg.TM_CFG_CHAINGM 1).wr chBase Reg.CH_STATUS_HEAD 1).wr modBase Reg.MOD_ADDR_ADDR 1, by decide +kernel⟩,
   ⟨((((inSt stReady).wr tmBase Reg.TM_CFG_SRC 2).wr tmBase Reg.TM_CFG_CHAINGM 1).wr chBase Reg.CH_STATUS_HEAD 1).wr modBase Reg.MOD_ADDR_ADDR 1,
     (((((inSt stReady).wr tmBase Reg.TM_CFG_SRC 2).wr tmBase Reg.TM_CFG_CHAINGM 1).wr chBase Reg.CH_STATUS_HEAD 1).wr modBase Reg.MOD_ADDR_ADDR 1).draw.2.draw.2,
     met3 (by decide +kernel) (rfl)⟩,
   ⟨((((inSt stReady).wr tmBase Reg.TM_CFG_SRC 0).wr tmBase Reg.TM_CFG_CHAINGM 1).wr chBase Reg.CH_STATUS_HEAD 1).wr modBase Reg.MOD_ADDR_ADDR 1,
     (((((inSt stReady).wr tmBase Reg.TM_CFG_SRC 0).wr tmBase Reg.TM_CFG_CHAINGM 1).wr chBase Reg.CH_STATUS_HEAD 1).wr modBase Reg.MOD_ADDR_ADDR 1).draw.2.draw.2,
     met3 (by decide +kernel) (rfl)⟩,
   ⟨(((inSt stReady).wr tmBase Reg.TM_CFG_CHAINGM 1).wr chBase Reg.CH_STATUS_HEAD 1).wr modBase Reg.MOD_ADDR_ADDR 1, by decide +kernel⟩,
   ⟨inSt stReady, by decide +kernel⟩⟩

theorem test_met_ServoSlewsStepsAndHolds :
    (∃ (s : State) (f : PtpFrom) (h : PtpHead) (r : DelayAnswer) (sent : Int) (arrived : Int) (corr : Int) (left : Int) (delay : Int), PtpHeard s f ∧
      Measures s f h r sent arrived corr left ∧ delay = (arrived - sent - corr + (ptpTime r.body - left - r.body.correction.toInt)) / 2) ∧
    (∃ (s : State) (f : PtpFrom) (h : PtpHead) (r : DelayAnswer) (sent : Int) (arrived : Int) (corr : Int) (left : Int) (delay : Int) (o : Int),
      PtpHeard s f ∧ Measures s f h r sent arrived corr left ∧
      delay = (arrived - sent - corr + (ptpTime r.body - left - r.body.correction.toInt)) / 2 ∧
      o = wholeOf (mkRat (arrived - sent - corr - delay) 65536) - s.asym ∧ s.servoState = svFree ∧ s.time.prevOffset = none ∧ o.natAbs ≤ 1000000 ∧
      s.trd Reg.TM_STATUS_BIGBACK = 0) ∧
    (∃ (s : State) (f : PtpFrom) (h : PtpHead) (r : DelayAnswer) (sent : Int) (arrived : Int) (corr : Int) (left : Int) (delay : Int) (o : Int) (q : Int),
      PtpHeard s f ∧ Measures s f h r sent arrived corr left ∧
      delay = (arrived - sent - corr + (ptpTime r.body - left - r.body.correction.toInt)) / 2 ∧
      o = wholeOf (mkRat (arrived - sent - corr - delay) 65536) - s.asym ∧ s.time.prevOffset = some q ∧ 1000000 < q.natAbs ∧ 1000000 < o.natAbs ∧
      agree q o = true ∧ s.mst ∉ [stRun, stService] ∧ s.trd Reg.TM_STATUS_BIGBACK = 0 ∧ 8 ≤ (s.nowNs : Int) - o ∧
      (s.nowNs : Int) - o + 8 < 2 ^ 48 * 1000000000) ∧
    (∃ (s : State) (f : PtpFrom) (h : PtpHead) (r : DelayAnswer), PtpHeard s f ∧
      (s.ptpUsed f = false ∨ s.fromParent h = false ∨ r.requester ≠ portIdentity ∨ s.time.req = none ∨ s.time.sync = none)) ∧
    (∃ (s : State), (s.servoState = svSlew ∨ s.servoState = svLocked) ∧ s.time.masters = []) ∧
    (∃ (s : State), (s.servoState = svFree ∨ s.servoState = svHoldover) ∧ s.time.masters = []) ∧
    (∃ (s : State) (a : Announce), (s.servoState = svFree ∨ s.servoState = svHoldover) ∧ s.ptpUp = true ∧ s.tsrc = 0 ∧ s.pathActive .a = true ∧
      s.bestMaster = some a) ∧
    (∃ (s : State) (ns : Word) (slo : Word) (shi : Word), Served s .service ∧ ns.toNat < 1000000000 ∧ shi.toNat < 65536 ∧ s.servoState = svFree ∧
      (((slo.toNat + shi.toNat * 2 ^ 32) * 1000000000 + ns.toNat : Nat) - (s.nowNs : Int)).natAbs ≤ 1000000) ∧
    (∃ (s : State) (ns : Word) (slo : Word) (shi : Word), Served s .service ∧ ns.toNat < 1000000000 ∧ shi.toNat < 65536 ∧ s.mst ∉ [stRun, stService] ∧
      s.servoState = svFree ∧ 1000000 < (((slo.toNat + shi.toNat * 2 ^ 32) * 1000000000 + ns.toNat : Nat) - (s.nowNs : Int)).natAbs) ∧
    (∃ (s : State) (p : Port), Served s p ∧ p ≠ .service) ∧
    (∃ (s : State) (ns : Word), Served s .service ∧ 1000000000 ≤ ns.toNat) ∧
    (∃ (s : State) (ns : Word), Served s .service ∧ ns.toNat < 1000000000 ∧ s.servoState = svLocked) :=
  ⟨⟨((inSt stReady).wr tmBase Reg.TM_CFG_SRC 1).modTime fun x => { x with parent := some 3, sync := some (0, 0, 0), req := some (9, 0) }, .chain 1, aPtp,
     ⟨portIdentity, ⟨0, 4, 0⟩⟩, 0, 0, 0, 0, 131072, heard_chain _ _ (by decide +kernel), ⟨by decide +kernel, by decide +kernel, by decide +kernel,
     rfl, by decide +kernel, by decide +kernel⟩, by decide +kernel⟩,
   ⟨((inSt stReady).wr tmBase Reg.TM_CFG_SRC 1).modTime fun x => { x with parent := some 3, sync := some (0, 0, 0), req := some (9, 0) }, .chain 1, aPtp,
     ⟨portIdentity, ⟨0, 4, 0⟩⟩, 0, 0, 0, 0, 131072, -2, heard_chain _ _ (by decide +kernel), ⟨by decide +kernel, by decide +kernel, by decide +kernel,
     rfl, by decide +kernel, by decide +kernel⟩, by decide +kernel⟩,
   ⟨((inSt stReady).wr tmBase Reg.TM_CFG_SRC 1).modTime fun x => { x with parent := some 3, sync := some (0, (-393215737856), 0), req := some (9, 0), prevOffset := some (-3000000) },
     .chain 1, aPtp, ⟨portIdentity, ⟨0, 4, 0⟩⟩, 0, -393215737856, 0, 0, -196607737856, -3000000, -3000000, heard_chain _ _ (by decide +kernel),
     ⟨by decide +kernel, by decide +kernel, by decide +kernel, rfl, by decide +kernel, by decide +kernel⟩, by decide +kernel⟩,
   ⟨inSt stReady, .chain 2, aPtp, ⟨portIdentity, ⟨0, 5, 0⟩⟩, heard_chain _ _ (by decide +kernel), by decide +kernel⟩,
   ⟨(inSt stReady).wr tmBase Reg.TM_STATUS_STATE svSlew, by decide +kernel⟩,
   ⟨inSt stReady, by decide +kernel⟩,
   ⟨(((inSt stReady).wr tmBase Reg.TM_CFG_SRC 0).nwr .a Reg.NET_STATUS_ROLE 2).modTime fun x => { x with masters := [⟨aAnnounce, 0, true⟩] }, aAnnounce,
     by decide +kernel⟩,
   ⟨inSt stReady, 0, 0, 0, by decide +kernel⟩,
   ⟨inSt stReady, 5, 7, 0, by decide +kernel⟩,
   ⟨inSt stReady, .chainUp, by decide +kernel⟩,
   ⟨inSt stReady, 1000000000, by decide +kernel⟩,
   ⟨(inSt stReady).wr tmBase Reg.TM_STATUS_STATE svLocked, 0, by decide +kernel⟩⟩

theorem test_met_CanControllersChangeState :
    (∃ (s : State) (c : Fin 2), s.canState c = ceIntegrating) ∧
    (∃ (s : State) (c : Fin 2) (tx : BitVec 5) (rx : BitVec 5) (tec : Nat) (rec_ : Nat), s.canLive c = true ∧
      Counters s c (8 * tx.toNat) (8 * rx.toNat) tec rec_ ∧ tec ≤ 127 ∧ rec_ ≤ 127) ∧
    (∃ (s : State) (c : Fin 2) (tx : BitVec 5) (rx : BitVec 5) (tec : Nat) (rec_ : Nat), s.canLive c = true ∧
      Counters s c (8 * tx.toNat) (8 * rx.toNat) tec rec_ ∧ 127 < tec ∧ tec ≤ 255) ∧
    (∃ (s : State) (c : Fin 2) (tx : BitVec 5) (rx : BitVec 5) (tec : Nat) (rec_ : Nat), s.canLive c = true ∧
      Counters s c (8 * tx.toNat) (8 * rx.toNat) tec rec_ ∧ tec ≤ 127 ∧ 127 < rec_) ∧
    (∃ (s : State) (c : Fin 2), s.canLive c = false) ∧
    (∃ (s : State) (c : Fin 2) (tx : BitVec 5) (rx : BitVec 5) (tec : Nat) (rec_ : Nat), s.canLive c = true ∧
      Counters s c (8 * tx.toNat) (8 * rx.toNat) tec rec_ ∧ 255 < tec) ∧
    (∃ (s : State) (c : Fin 2), s.canState c = ceBusOff ∧ (s.cflag c Reg.CAN_CFG_BOAUTO = true ∨ (s.can c).recovering = true)) ∧
    (∃ (s : State) (c : Fin 2), s.canState c = ceBusOff ∧ s.cflag c Reg.CAN_CFG_BOAUTO = false ∧ (s.can c).recovering = false) ∧
    (∃ (s : State) (p : Port) (c : Fin 2), Served s p ∧ s.canState c = ceBusOff) ∧
    (∃ (s : State) (p : Port) (c : Fin 2), Served s p ∧ s.canState c ≠ ceBusOff) ∧
    (∃ (s : State) (c : Fin 2) (more : BitVec 5) (tec : Nat) (rec_ : Nat), s.canLive c = true ∧ s.canMonitor c = false ∧
      Counters s c 0 (1 + 8 * more.toNat) tec rec_ ∧ rec_ ≤ 127 ∧ tec ≤ 127) ∧
    (∃ (s : State) (c : Fin 2) (e : CanFail) (n : Nat) (more : BitVec 5) (tec : Nat) (rec_ : Nat), s.canLive c = true ∧ lecCode e = some n ∧
      Counters s c 0 (1 + 8 * more.toNat) tec rec_ ∧ tec ≤ 255) ∧
    (∃ (s : State) (c : Fin 2), s.canLive c = false) ∧
    (∃ (s : State) (c : Fin 2), s.canState c = ceOff ∧ s.cflag c Reg.CAN_CFG_EN = true ∧ s.mst ∈ [stReady, stRun, stSafe, stService]) :=
  ⟨⟨(inSt stReady).cwr 1 Reg.CAN_STATUS_ESTATE ceIntegrating, 1, by decide +kernel⟩,
   ⟨(inSt stReady).cwr 1 Reg.CAN_STATUS_ESTATE ceActive, 1, 0, 0, 0, 0, by decide +kernel⟩,
   ⟨(inSt stReady).cwr 1 Reg.CAN_STATUS_ESTATE ceActive, 1, 16, 0, 128, 0, by decide +kernel⟩,
   ⟨(inSt stReady).cwr 1 Reg.CAN_STATUS_ESTATE ceActive, 1, 0, 16, 0, 128, by decide +kernel⟩,
   ⟨inSt stReady, 1, by decide +kernel⟩,
   ⟨((inSt stReady).cwr 1 Reg.CAN_STATUS_ESTATE ceActive).cwr 1 Reg.CAN_ECNT_TEC 200, 1, 7, 0, 256, 0, by decide +kernel⟩,
   ⟨(inSt stReady).cwr 1 Reg.CAN_STATUS_ESTATE ceBusOff, 1, by decide +kernel⟩,
   ⟨((inSt stReady).cwr 1 Reg.CAN_STATUS_ESTATE ceBusOff).cwr 1 Reg.CAN_CFG_BOAUTO 0, 1, by decide +kernel⟩,
   ⟨(inSt stReady).cwr 1 Reg.CAN_STATUS_ESTATE ceBusOff, .service, 1, by decide +kernel⟩,
   ⟨inSt stReady, .service, 1, by decide +kernel⟩,
   ⟨(inSt stReady).cwr 1 Reg.CAN_STATUS_ESTATE ceActive, 1, 0, 0, 1, by decide +kernel⟩,
   ⟨(inSt stReady).cwr 1 Reg.CAN_STATUS_ESTATE ceActive, 1, .crc, 6, 0, 0, 1, by decide +kernel⟩,
   ⟨inSt stReady, 1, by decide +kernel⟩,
   ⟨((inSt stReady).cwr 1 Reg.CAN_STATUS_ESTATE ceOff).cwr 1 Reg.CAN_CFG_EN 1, 1, by decide +kernel⟩⟩

theorem test_met_MailboxesReceiveAndAreRead :
    (∃ (s : State) (c : Fin 2) (f : CanFrame) (m : Nat), s.canLive c = true ∧ f.fdf = false ∧
      ((mailboxesOf c).find? fun m => s.exists_ (mbId m) && mbMatches (s.cfg (mbId m) 0) f) = some m) ∧
    (∃ (s : State) (c : Fin 2) (f : CanFrame), s.canLive c = true ∧ f.fdf = false ∧
      ((mailboxesOf c).find? fun m => s.exists_ (mbId m) && mbMatches (s.cfg (mbId m) 0) f) = none) ∧
    (∃ (s : State) (c : Fin 2) (f : CanFrame), s.canLive c = true ∧ f.fdf = true ∧ s.cflag c Reg.CAN_CFG_FDEN = false ∧ s.canMonitor c = false) ∧
    (∃ (s : State) (c : Fin 2), s.canLive c = true) ∧
    (∃ (s : State) (c : Fin 2), s.canLive c = true ∧ s.cflag c Reg.CAN_ECNT_RP = false) ∧
    (∃ (s : State) (c : Fin 2), s.canLive c = false) ∧
    (∃ (s : State) (p : Port), Served s p) ∧
    (∃ (s : State) (p : Port) (m : Fin 32) (c : Fin 2) (f : CanFrame), Served s p ∧ c.val = m.val / 16 ∧ s.canLive c = true ∧ f.fdf = false ∧
      ((mailboxesOf c).find? fun k => s.exists_ (mbId k) && mbMatches (s.cfg (mbId k) 0) f) = some m.val ∧ (s.mb m.val).shadow = none) ∧
    (∃ (s : State) (p : Port) (m : Fin 32), Served s p ∧ (s.mb m.val).shadow = none) ∧
    (∃ (s : State) (m : Fin 32), s.exists_ (mbId m.val) = true ∧ (s.mb m.val).timedOut = false ∧ (s.mb m.val).heard = false ∧
      mbTimeout (s.cfg (mbId m.val) 0) ≤ (s.mb m.val).silent + 1) :=
  ⟨⟨((inSt stReady).withCell (mbId 0) csRun 0x500000000).cwr 0 Reg.CAN_STATUS_ESTATE ceActive, 0, aCan, 0, by decide +kernel⟩,
   ⟨(inSt stReady).cwr 1 Reg.CAN_STATUS_ESTATE ceActive, 1, aCan, by decide +kernel⟩,
   ⟨((inSt stReady).cwr 1 Reg.CAN_STATUS_ESTATE ceActive).cwr 1 Reg.CAN_CFG_FDEN 0, 1, { aCan with fdf := true }, by decide +kernel⟩,
   ⟨(inSt stReady).cwr 1 Reg.CAN_STATUS_ESTATE ceActive, 1, by decide +kernel⟩,
   ⟨((inSt stReady).cwr 1 Reg.CAN_STATUS_ESTATE ceActive).cwr 1 Reg.CAN_ECNT_RP 0, 1, by decide +kernel⟩,
   ⟨inSt stReady, 1, by decide +kernel⟩,
   ⟨inSt stReady, .service, by decide +kernel⟩,
   ⟨((inSt stReady).withCell (mbId 0) csRun 0x500000000).cwr 0 Reg.CAN_STATUS_ESTATE ceActive, .service, 0, 0, aCan, by decide +kernel⟩,
   ⟨inSt stReady, .service, 31, by decide +kernel⟩,
   ⟨(inSt stReady).wr (cellBase (mbId 31)) Reg.CELL_STATE_EXISTS 1, 31, by decide +kernel⟩⟩

theorem test_met_TransmitBuffersSendAndEnd :
    (∃ (s : State) (p : Port) (c : Fin 2), Served s p ∧ s.mst ∈ [stReady, stRun, stSafe, stService] ∧ s.cflag c Reg.CAN_CFG_EN = true ∧
      s.canMonitor c = false ∧ s.bufBusy c = false ∧ (bufIde (s.buf c (s.txsel c)) = true ∨ bufId (s.buf c (s.txsel c)) ≤ 0x7FF) ∧
      ((s.buf c (s.txsel c)).dlc ≤ 8 ∧ bufBrs (s.buf c (s.txsel c)) = false ∧
      bufFdf (s.buf c (s.txsel c)) = false ∨ bufFdf (s.buf c (s.txsel c)) = true ∧ s.cflag c Reg.CAN_CFG_FDEN = true) ∧ s.txsel c < 3) ∧
    (∃ (s : State) (p : Port) (c : Fin 2), Served s p ∧ s.mst ∈ [stReady, stRun, stSafe, stService] ∧ s.cflag c Reg.CAN_CFG_EN = true ∧
      s.canMonitor c = false ∧ s.bufBusy c = true) ∧
    (∃ (s : State) (p : Port) (c : Fin 2), Served s p ∧
      (s.mst ∉ [stReady, stRun, stSafe, stService] ∨ s.cflag c Reg.CAN_CFG_EN = false ∨ s.canMonitor c = true)) ∧
    (∃ (s : State) (p : Port) (c : Fin 2), Served s p ∧ s.mst ∈ [stReady, stRun, stSafe, stService] ∧ s.cflag c Reg.CAN_CFG_EN = true ∧
      s.canMonitor c = false ∧ s.bufBusy c = false ∧ ((bufIde (s.buf c (s.txsel c)) = false ∧
      0x7FF < bufId (s.buf c (s.txsel c))) ∨ (bufFdf (s.buf c (s.txsel c)) = false ∧
      (bufBrs (s.buf c (s.txsel c)) = true ∨ 8 < (s.buf c (s.txsel c)).dlc)))) ∧
    (∃ (s : State) (c : Fin 2) (b : Nat), s.canLive c = true ∧ s.canMonitor c = false ∧ (s.can c).onBus = none ∧ s.candidate c = some (.inl b) ∧ b < 3) ∧
    (∃ (s : State) (c : Fin 2) (e : Export), s.canLive c = true ∧ s.canMonitor c = false ∧ (s.can c).onBus = none ∧ s.candidate c = some (.inr e)) ∧
    (∃ (s : State) (c : Fin 2) (b : Nat), s.canLive c = true ∧ (s.can c).onBus = some (.inl b) ∧ b < 3) ∧
    (∃ (s : State) (c : Fin 2) (e : Export), s.canLive c = true ∧ (s.can c).onBus = some (.inr e) ∧ s.crd c Reg.CAN_ECNT_TEC ≤ 255) ∧
    (∃ (s : State) (c : Fin 2), (s.can c).onBus = none) ∧
    (∃ (s : State) (c : Fin 2) (b : Nat) (n : Nat) (tec : Nat) (e : CanFail) (ph : TxPhase) (more : BitVec 5), s.canLive c = true ∧
      (s.can c).onBus = some (.inl b) ∧ b < 3 ∧ lecCode e = some n ∧ e ≠ .ack ∧ tec = min 511 (s.crd c Reg.CAN_ECNT_TEC + s.tecRise c e ph more.toNat)) ∧
    (∃ (s : State) (c : Fin 2) (x : Export), s.canLive c = true ∧ (s.can c).onBus = some (.inr x) ∧ s.crd c Reg.CAN_ECNT_TEC ≤ 255) ∧
    (∃ (s : State) (c : Fin 2) (b : Nat), s.canLive c = true ∧ (s.can c).onBus = some (.inl b) ∧ b < 3 ∧ s.cxl c b = false ∧
      s.crd c Reg.CAN_CFG_ALONELIM = 0) ∧
    (∃ (s : State) (c : Fin 2) (b : Nat), s.canLive c = true ∧ (s.can c).onBus = some (.inl b) ∧ b < 3 ∧ s.cxl c b = false ∧
      s.crd c Reg.CAN_CFG_ALONELIM ≠ 0 ∧ s.crd c Reg.CAN_CFG_ALONELIM ≤ min 255 (s.crd c Reg.CAN_STATUS_ACKERRS + 1)) ∧
    (∃ (s : State) (c : Fin 2) (b : Nat), s.canLive c = true ∧ (s.can c).onBus = some (.inl b) ∧ b < 3 ∧ s.cxl c b = false) ∧
    (∃ (s : State) (p : Port) (c : Fin 2), Served s p ∧ s.bufSt c (s.txsel c) = bsPending) ∧
    (∃ (s : State) (p : Port) (c : Fin 2), Served s p ∧ s.bufSt c (s.txsel c) = bsActive) ∧
    (∃ (s : State) (p : Port) (c : Fin 2), Served s p ∧ s.bufSt c (s.txsel c) ∉ [bsPending, bsActive]) :=
  ⟨⟨((inSt stReady).cwr 1 Reg.CAN_CFG_EN 1).modBuf 1 0 fun x => { x with id := 0x20000005 }, .service, 1, by decide +kernel⟩,
   ⟨((inSt stReady).cwr 1 Reg.CAN_CFG_EN 1).setBuf 1 0 bsPending, .service, 1, by decide +kernel⟩,
   ⟨inSt stReady, .service, 1, by decide +kernel⟩,
   ⟨((inSt stReady).cwr 1 Reg.CAN_CFG_EN 1).modBuf 1 0 fun x => { x with id := 0x800 }, .service, 1, by decide +kernel⟩,
   ⟨((inSt stReady).cwr 1 Reg.CAN_STATUS_ESTATE ceActive).setBuf 1 0 bsPending, 1, 0, by decide +kernel⟩,
   ⟨(((inSt stReady).cwr 1 Reg.CAN_STATUS_ESTATE ceActive).cwr 1 Reg.CAN_CFG_TXORD 1).modCan 1 fun x => { x with queue := [{ id := 5, ide := false, fdf := false, brs := false, data := [] }] },
     1, { id := 5, ide := false, fdf := false, brs := false, data := [] }, by decide +kernel⟩,
   ⟨((inSt stReady).cwr 1 Reg.CAN_STATUS_ESTATE ceActive).modCan 1 fun x => { x with onBus := some (.inl 0) }, 1, 0, by decide +kernel⟩,
   ⟨((inSt stReady).cwr 1 Reg.CAN_STATUS_ESTATE ceActive).modCan 1 fun x => { x with onBus := some (.inr ({ id := 5, ide := false, fdf := false, brs := false, data := [] })) },
     1, { id := 5, ide := false, fdf := false, brs := false, data := [] }, by decide +kernel⟩,
   ⟨inSt stReady, 1, by decide +kernel⟩,
   ⟨((inSt stReady).cwr 1 Reg.CAN_STATUS_ESTATE ceActive).modCan 1 fun x => { x with onBus := some (.inl 0) }, 1, 0, 4, 8, .bit1, .after, 0,
     by decide +kernel⟩,
   ⟨((inSt stReady).cwr 1 Reg.CAN_STATUS_ESTATE ceActive).modCan 1 fun x => { x with onBus := some (.inr ({ id := 5, ide := false, fdf := false, brs := false, data := [] })) },
     1, { id := 5, ide := false, fdf := false, brs := false, data := [] }, by decide +kernel⟩,
   ⟨(((inSt stReady).cwr 1 Reg.CAN_STATUS_ESTATE ceActive).modCan 1 fun x => { x with onBus := some (.inl 0) }).cwr 1 Reg.CAN_CFG_ALONELIM 0, 1, 0,
     by decide +kernel⟩,
   ⟨(((inSt stReady).cwr 1 Reg.CAN_STATUS_ESTATE ceActive).modCan 1 fun x => { x with onBus := some (.inl 0) }).cwr 1 Reg.CAN_STATUS_ACKERRS 255, 1, 0,
     by decide +kernel⟩,
   ⟨((inSt stReady).cwr 1 Reg.CAN_STATUS_ESTATE ceActive).modCan 1 fun x => { x with onBus := some (.inl 0) }, 1, 0, by decide +kernel⟩,
   ⟨(inSt stReady).setBuf 1 0 bsPending, .service, 1, by decide +kernel⟩,
   ⟨(inSt stReady).setBuf 1 0 bsActive, .service, 1, by decide +kernel⟩,
   ⟨inSt stReady, .service, 1, by decide +kernel⟩⟩

theorem test_met_MemoryIsScrubbedAndBlocksWear :
    (∃ (s : State) (g : Nat) (flips : BitVec 276), s.mst ≠ stPfail ∧ s.mst ≠ stPowerup ∧ g + 1 < dramGranules ∧ g ∉ s.q.poison ∧
      readOutcome .dram g flips = .corr1) ∧
    (∃ (s : State) (g : Nat) (flips : BitVec 276), s.mst ≠ stPfail ∧ s.mst ≠ stPowerup ∧ 2097152 ≤ g ∧ g + 1 < dramGranules ∧ g ∉ s.q.poison ∧
      readOutcome .dram g flips = .uncorrectable) ∧
    (∃ (s : State) (g : Nat), s.mst ≠ stPfail ∧ s.mst ≠ stPowerup ∧ 2097152 ≤ g) ∧
    (∃ (s : State) (g : Nat) (flips : BitVec 276), s.mst ≠ stPfail ∧ s.mst ≠ stPowerup ∧ newlyBad (s.outcomeAt .sram g flips) = false) ∧
    (∃ (s : State) (g : Nat) (flips : BitVec 276), s.mst ≠ stPfail ∧ s.mst ≠ stPowerup ∧ newlyBad (s.outcomeAt .sram g flips) = true) ∧
    (∃ (region : Nat) (o : Decoded), newlyBad o = true ∧ region < 5) ∧
    (∃ (s : State) (b : Bool), s.flag nvjBase (bankSaved b) = false) ∧
    (∃ (s : State) (b : Bool), s.flag nvjBase (bankSaved b) = true) ∧
    (∃ (s : State) (g : Nat), s.mst ≠ stPfail ∧ s.mst ≠ stPowerup ∧ s.standing (g / 128) = true) ∧
    (∃ (s : State) (g : Nat), s.standing (g / 128) = false) ∧
    (∃ (s : State), (s.mst = stPfail ∨ s.mst = stPowerup)) ∧
    (∃ (s : State) (g : Nat) (flips : BitVec 276), s.mst ≠ stPfail ∧ s.mst ≠ stPowerup ∧ s.standing (g / 128) = true ∧ 64 ≤ g / 128 ∧
      g / 128 ∉ s.jrn.readOnly ∧ readOutcome .journal g flips = .corr1) ∧
    (∃ (s : State) (homes : List Nat), JournalTakes s homes) ∧
    (∃ (s : State) (homes : List Nat), s.journalUp = true ∧ homes.length ≤ 8192 ∧ 8192 < s.jrn.pend.length + homes.length ∧ s.jrn.readOnly = []) ∧
    (∃ (s : State) (homes : List Nat), s.journalUp = true ∧ (8192 < homes.length ∨ s.writable (blocksOf homes) = false)) ∧
    (∃ (s : State) (homes : List Nat) (b : Nat), JournalTakes s homes ∧ b ∈ s.logBlocks (homes.length + 1) ∧ 0 < s.rd nvjBase Reg.NVJ_SPARES_SPARES ∧
      s.rd nvjBase Reg.NVJ_SPARES_SPARES ≠ 32) ∧
    (∃ (s : State), s.journalUp = false) ∧
    (∃ (s : State), s.mst ≠ stPowerup ∧ s.dutyUp 3 = true ∧ s.jrn.readOnly = [] ∧ s.jrn.pend.length ≤ 8192) ∧
    (∃ (s : State) (g : Nat) (l : List Nat), s.mst ≠ stPowerup ∧ s.dutyUp 3 = true ∧ s.jrn.pend = g :: l ∧ g / 128 ∈ s.jrn.readOnly ∧
      s.jrn.pend.length ≤ 8192) ∧
    (∃ (s : State), (s.mst = stPowerup ∨ s.dutyUp 3 = false)) ∧
    (∃ (s : State) (b : Nat), s.journalUp = true ∧ s.standing b = true ∧ b ∉ s.jrn.readOnly ∧ s.wornOut b = true ∧ 0 < s.rd nvjBase Reg.NVJ_SPARES_SPARES ∧
      s.rd nvjBase Reg.NVJ_SPARES_SPARES ≠ 32) ∧
    (∃ (s : State) (b : Nat), s.journalUp = true ∧ s.standing b = true ∧ b ∉ s.jrn.readOnly ∧ s.wornOut b = true ∧ s.rd nvjBase Reg.NVJ_SPARES_SPARES = 0 ∧
      s.recblks = 0 ∧ s.imageDonor = none) ∧
    (∃ (s : State) (b : Nat), s.journalUp = true ∧ s.standing b = true ∧ b ∉ s.jrn.readOnly ∧ s.wornOut b = true ∧ s.rd nvjBase Reg.NVJ_SPARES_SPARES = 0 ∧
      0 < s.recblks ∧ b ≠ 1295 + s.recblks) ∧
    (∃ (s : State) (b : Nat), s.journalUp = true ∧ s.standing b = true ∧ b ∉ s.jrn.readOnly ∧ s.wornOut b = true ∧ s.rd nvjBase Reg.NVJ_SPARES_SPARES = 0 ∧
      0 < s.recblks ∧ b = 1295 + s.recblks) ∧
    (∃ (s : State) (b : Nat) (d : Nat), s.journalUp = true ∧ s.standing b = true ∧ b ∉ s.jrn.readOnly ∧ s.wornOut b = true ∧
      s.rd nvjBase Reg.NVJ_SPARES_SPARES = 0 ∧ s.recblks = 0 ∧ s.imageDonor = some d ∧ b ≠ d) ∧
    (∃ (s : State) (b : Nat), (s.journalUp = false ∨ s.standing b = false ∨ b ∈ s.jrn.readOnly ∨ s.wornOut b = false)) ∧
    (∃ (s : State) (hi : Nat) (lo : Nat), (s.journalUp = false ∨ s.extremes hi lo = false ∨ s.wearOf hi ≤ s.wearOf lo + 1048576)) ∧
    (∃ (s : State) (hi : Nat) (lo : Nat), s.journalUp = true ∧ s.extremes hi lo = true ∧ s.wearOf lo + 1048576 < s.wearOf hi) :=
  ⟨⟨inSt stReady, 0, 1, by decide +kernel⟩,
   ⟨inSt stReady, 2097152, 7, by decide +kernel⟩,
   ⟨inSt stReady, 2097152, by decide +kernel⟩,
   ⟨inSt stReady, 0, 0, by decide +kernel⟩,
   ⟨inSt stReady, 0, 7, by decide +kernel⟩,
   ⟨0, .uncorrectable, by decide +kernel⟩,
   ⟨inSt stReady, true, by decide +kernel⟩,
   ⟨(inSt stReady).wr nvjBase (bankSaved true) 1, true, by decide +kernel⟩,
   ⟨inSt stReady, 0, by decide +kernel⟩,
   ⟨inSt stReady, 12800000, by decide +kernel⟩,
   ⟨inSt stPfail, by decide +kernel⟩,
   ⟨inSt stReady, 8192, 1, by decide +kernel⟩,
   ⟨inSt stReady, [], by decide +kernel⟩,
   ⟨(inSt stReady).modJrn fun x => { x with pend := List.replicate 8192 0 }, [5], by decide +kernel⟩,
   ⟨(inSt stReady).modJrn fun x => { x with readOnly := [1] }, [128], by decide +kernel⟩,
   ⟨(inSt stReady).wr nvjBase Reg.NVJ_SPARES_SPARES 5, [], 128, by decide +kernel⟩,
   ⟨(inSt stReady).wr (blkBase 2 28) Reg.BLK_STATE_STATE bkIsolated, by decide +kernel⟩,
   ⟨inSt stReady, by decide +kernel⟩,
   ⟨((inSt stReady).modJrn fun x => { x with pend := 0 :: ([]) }).modJrn fun x => { x with readOnly := [0] }, 0, [], by decide +kernel⟩,
   ⟨inSt stPowerup, by decide +kernel⟩,
   ⟨((inSt stReady).modJrn fun x => { x with worn := [5] }).wr nvjBase Reg.NVJ_SPARES_SPARES 5, 5, by decide +kernel⟩,
   ⟨((((inSt stReady).modJrn fun x => { x with worn := [5] }).wr nvjBase Reg.NVJ_SPARES_SPARES 0).wr nvjBase Reg.NVJ_PART_RECBLKS 0).wr nvjBase Reg.NVJ_PART_IMGBLKS 0,
     5, by decide +kernel⟩,
   ⟨((inSt stReady).modJrn fun x => { x with worn := [5] }).wr nvjBase Reg.NVJ_SPARES_SPARES 0, 5, by decide +kernel⟩,
   ⟨(((inSt stReady).modJrn fun x => { x with worn := [1359] }).wr nvjBase Reg.NVJ_SPARES_SPARES 0).wr nvjBase Reg.NVJ_PART_RECBLKS 64, 1359,
     by decide +kernel⟩,
   ⟨((((inSt stReady).modJrn fun x => { x with worn := [5] }).wr nvjBase Reg.NVJ_SPARES_SPARES 0).wr nvjBase Reg.NVJ_PART_RECBLKS 0).wr nvjBase Reg.NVJ_PART_IMGBLKS 1040,
     5, 1295, by decide +kernel⟩,
   ⟨inSt stReady, 0, by decide +kernel⟩,
   ⟨inSt stReady, 0, 0, by decide +kernel⟩,
   ⟨(inSt stReady).setWear 64 2000000, 64, 65, by decide +kernel⟩⟩

theorem test_met_OccurrencesAreTakenAndWritten :
    (∃ (s : State) (o : Occurrence) (c : Nat) (r : Record), s.recState = rsRecording ∧ s.dutyUp 3 = true ∧ firstOccurrence s.recd.queue = some o ∧
      (codesOf s.img.active).filter (fun cr => feeds cr.2 o) = [(c, r)] ∧ rcRlim r = 0) ∧
    (∃ (s : State) (o : Occurrence) (c : Nat) (r : Record), s.recState = rsRecording ∧ s.dutyUp 3 = true ∧ firstOccurrence s.recd.queue = some o ∧
      (codesOf s.img.active).filter (fun cr => feeds cr.2 o) = [(c, r)] ∧ rcRlim r ≠ 0 ∧ Store.get none s.recd.bucket c = none) ∧
    (∃ (s : State) (o : Occurrence) (c : Nat) (r : Record) (tok : Rat), s.recState = rsRecording ∧ s.dutyUp 3 = true ∧
      firstOccurrence s.recd.queue = some o ∧ (codesOf s.img.active).filter (fun cr => feeds cr.2 o) = [(c, r)] ∧ rcRlim r ≠ 0 ∧ tok < 1 ∧
      Store.get none s.recd.bucket c = some (tok, o.s.toNat * 1000000000 + o.ns.toNat)) ∧
    (∃ (s : State) (o : Occurrence) (c : Nat) (r : Record), s.recState = rsFrozen ∧ s.dutyUp 3 = true ∧ firstOccurrence s.recd.queue = some o ∧
      (codesOf s.img.active).filter (fun cr => feeds cr.2 o) = [(c, r)]) ∧
    (∃ (s : State), (s.recd.queue = [] ∨ s.recState = rsOff ∨ s.dutyUp 3 = false)) ∧
    (∃ (s : State) (o : Occurrence), s.recState ≠ rsOff ∧ s.dutyUp 3 = true ∧ firstOccurrence s.recd.queue = some o) ∧
    (∃ (s : State) (o : Occurrence) (c : Nat) (r : Record), s.recState ∈ [rsFull, rsStopped] ∧ s.dutyUp 3 = true ∧ firstOccurrence s.recd.queue = some o ∧
      (codesOf s.img.active).filter (fun cr => feeds cr.2 o) = [(c, r)]) ∧
    (∃ (s : State) (c : Nat), s.recWrites = true ∧ s.recd.changed = [c] ∧ s.recd.due = [] ∧ JournalTakes s (summaryHome [c])) ∧
    (∃ (s : State) (new : List LogRec), s.recWrites = true ∧ (s.recd.changed ≠ [] ∨ s.recd.due ≠ []) ∧
      new = (s.recd.due.take (2048 - s.recd.changed.length)).take (s.rd recBase Reg.REC_LOGCAP_CAP - s.recd.log.length) ∧
      JournalTakes s (summaryHome s.recd.changed ++ logHome s.recd.log.length new.length)) ∧
    (∃ (s : State), (s.recWrites = false ∨ (s.recd.changed = [] ∧ s.recd.due = []))) ∧
    (∃ (s : State) (o : NvOutcome), s.recWrites = true ∧ s.recd.changed ≠ [] ∧ s.recd.due = [] ∧ (s.commitTxn (summaryHome s.recd.changed) o).1 ≠ E_OK) ∧
    (∃ (s : State), s.recWrites = true) ∧
    (∃ (s : State), s.recWrites = false) ∧
    (∃ (s : State) (new : List LogRec), s.recWrites = true ∧
      new = ((s.recd.due ++ s.intervalRecords).take (2048 - s.recd.changed.length)).take (s.rd recBase Reg.REC_LOGCAP_CAP - s.recd.log.length) ∧
      JournalTakes s (summaryHome s.recd.changed ++ logHome s.recd.log.length new.length)) ∧
    (∃ (s : State) (o : NvOutcome) (new : List LogRec), s.recWrites = true ∧
      new = ((s.recd.due ++ s.intervalRecords).take (2048 - s.recd.changed.length)).take (s.rd recBase Reg.REC_LOGCAP_CAP - s.recd.log.length) ∧
      (s.closeInterval.commitTxn (summaryHome s.recd.changed ++ logHome s.recd.log.length new.length) o).1 ≠ E_OK) :=
  ⟨⟨(((inSt stReady).setRec_ rsRecording).put [aRec T_RECORDER 0 4 0x1]).modRec fun x => { x with queue := [aOcc] }, aOcc, 4, aRec T_RECORDER 0 4 0x1,
     by decide +kernel⟩,
   ⟨(((inSt stReady).setRec_ rsRecording).put [aRec T_RECORDER 0 4 0x3000000000000000000000001]).modRec fun x => { x with queue := [aOcc] }, aOcc, 4,
     aRec T_RECORDER 0 4 0x3000000000000000000000001, by decide +kernel⟩,
   ⟨((((inSt stReady).setRec_ rsRecording).put [aRec T_RECORDER 0 4 0x3000000000000000000000001]).modRec fun x => { x with queue := [aOcc] }).modRec fun x => { x with bucket := [(4, some (0, 0))] },
     aOcc, 4, aRec T_RECORDER 0 4 0x3000000000000000000000001, 0, by decide +kernel⟩,
   ⟨(((inSt stReady).setRec_ rsFrozen).put [aRec T_RECORDER 0 4 0x1]).modRec fun x => { x with queue := [aOcc] }, aOcc, 4, aRec T_RECORDER 0 4 0x1,
     by decide +kernel⟩,
   ⟨inSt stReady, by decide +kernel⟩,
   ⟨((inSt stReady).setRec_ rsRecording).modRec fun x => { x with queue := [aOcc] }, aOcc, by decide +kernel⟩,
   ⟨(((inSt stReady).setRec_ rsFull).put [aRec T_RECORDER 0 4 0x1]).modRec fun x => { x with queue := [aOcc] }, aOcc, 4, aRec T_RECORDER 0 4 0x1,
     by decide +kernel⟩,
   ⟨((inSt stReady).setRec_ rsRecording).modRec fun x => { x with changed := [0] }, 0, by decide +kernel⟩,
   ⟨((inSt stReady).setRec_ rsRecording).modRec fun x => { x with changed := [4] }, [], by decide +kernel⟩,
   ⟨inSt stReady, by decide +kernel⟩,
   ⟨(((inSt stReady).setRec_ rsRecording).modRec fun x => { x with changed := [3] }).modJrn fun x => { x with readOnly := [1296] }, .clean,
     by decide +kernel⟩,
   ⟨(inSt stReady).setRec_ rsRecording, by decide +kernel⟩,
   ⟨inSt stReady, by decide +kernel⟩,
   ⟨(inSt stReady).setRec_ rsRecording, [], by decide +kernel⟩,
   ⟨(((inSt stReady).setRec_ rsRecording).modRec fun x => { x with changed := [3] }).modJrn fun x => { x with readOnly := [1296] }, .clean, [],
     by decide +kernel⟩⟩

theorem test_met_RecorderFreezesUnfreezesAndClears :
    (∃ (s : State) (p : Port), Served s p ∧ s.recState = rsRecording) ∧
    (∃ (s : State) (p : Port), Served s p ∧ s.recState = rsFrozen) ∧
    (∃ (s : State) (p : Port), Served s p ∧ s.recState ≠ rsRecording ∧ s.recState ≠ rsFrozen) ∧
    (∃ (s : State) (p : Port) (c : Nat) (n : Nat), Served s p ∧ s.recState = rsFrozen ∧ s.recd.frozen = [(c, n)] ∧ s.logFull = false) ∧
    (∃ (s : State) (p : Port), Served s p ∧ s.recState = rsFrozen) ∧
    (∃ (s : State) (p : Port), Served s p ∧ s.recState ≠ rsFrozen) ∧
    (∃ (s : State), s.recState = rsFrozen) ∧
    (∃ (s : State) (c : Nat) (n : Nat), s.recState = rsFrozen ∧ s.recd.frozen = [(c, n)] ∧ s.logFull = false) ∧
    (∃ (s : State), s.recState ≠ rsFrozen) ∧
    (∃ (s : State), Served s .service ∧ s.mst ∈ [stReady, stRun, stService] ∧ s.recState ≠ rsOff ∧ s.recState ≠ rsStopped ∧ JournalTakes s s.savedHome) ∧
    (∃ (s : State) (o : NvOutcome), Served s .service ∧ s.mst ∈ [stReady, stRun, stService] ∧ s.recState ≠ rsOff ∧ s.recState ≠ rsStopped ∧
      (s.commitTxn s.savedHome o).1 ≠ E_OK) ∧
    (∃ (s : State) (p : Port), Served s p ∧ p ≠ .service) ∧
    (∃ (s : State), Served s .service ∧ (s.mst ∉ [stReady, stRun, stService] ∨ s.recState = rsOff ∨ s.recState = rsStopped)) :=
  ⟨⟨(inSt stReady).setRec_ rsRecording, .service, by decide +kernel⟩,
   ⟨(inSt stReady).setRec_ rsFrozen, .service, by decide +kernel⟩,
   ⟨inSt stReady, .service, by decide +kernel⟩,
   ⟨((inSt stReady).setRec_ rsFrozen).modRec fun x => { x with frozen := [(0, 0)] }, .service, 0, 0, by decide +kernel⟩,
   ⟨(inSt stReady).setRec_ rsFrozen, .service, by decide +kernel⟩,
   ⟨inSt stReady, .service, by decide +kernel⟩,
   ⟨(inSt stReady).setRec_ rsFrozen, by decide +kernel⟩,
   ⟨((inSt stReady).setRec_ rsFrozen).modRec fun x => { x with frozen := [(0, 0)] }, 0, 0, by decide +kernel⟩,
   ⟨inSt stReady, by decide +kernel⟩,
   ⟨(inSt stReady).setRec_ rsRecording, by decide +kernel⟩,
   ⟨(((inSt stReady).setRec_ rsRecording).modRec fun x => { x with changed := [3] }).wr (blkBase 2 28) Reg.BLK_STATE_STATE bkIsolated, .clean,
     by decide +kernel⟩,
   ⟨inSt stReady, .chainUp, by decide +kernel⟩,
   ⟨inSt stLoad, by decide +kernel⟩⟩

theorem test_met_PanelFramesAndTemperature :
    (∃ (s : State) (i : Nat) (x : Pixel) (d : PixelWait) (f : Int) (l : List Int), s.panelDrives = true ∧ s.pnl.pixels = [(i, x)] ∧ x.drive = some d ∧
      x.begun = true ∧ x.frames = f :: l ∧ (x.bal + f).natAbs ≤ 127 ∧ s.pnl.vconTarget < 65536) ∧
    (∃ (s : State) (i : Nat) (x : Pixel) (d : PixelWait), s.panelDrives = true ∧ s.pnl.pixels = [(i, x)] ∧ x.drive = some d ∧ x.begun = true ∧
      x.frames = [] ∧ x.wait = none) ∧
    (∃ (s : State), s.panelDrives = true ∧ Store.wf Pixel.init s.pnl.pixels = true ∧ s.pnl.vconTarget < 65536) ∧
    (∃ (s : State), s.panelDrives = false) ∧
    (∃ (s : State), s.mst ≠ stPowerup) ∧
    (∃ (s : State), s.flag pnlBase Reg.PNL_STATUS_INITRUN = true ∧ s.panelDrives = true ∧ s.pnl.init = []) ∧
    (∃ (s : State), (s.flag pnlBase Reg.PNL_STATUS_INITRUN = false ∨ s.panelDrives = false ∨ s.pnl.init ≠ [])) :=
  ⟨⟨(inSt stReady).modPnl fun x => { x with pixels := [(0, aPixel)] }, 0, aPixel, ⟨0, 0, false, 0, 1⟩, 1, [1], by decide +kernel⟩,
   ⟨(inSt stReady).modPnl fun x => { x with pixels := [(0, { aPixel with frames := [] })] }, 0, { aPixel with frames := [] }, ⟨0, 0, false, 0, 1⟩,
     by decide +kernel⟩,
   ⟨inSt stReady, by decide +kernel⟩,
   ⟨(inSt stReady).modPnl fun x => { x with discharged := true }, by decide +kernel⟩,
   ⟨inSt stReady, by decide +kernel⟩,
   ⟨(inSt stReady).wr pnlBase Reg.PNL_STATUS_INITRUN 1, by decide +kernel⟩,
   ⟨inSt stReady, by decide +kernel⟩⟩

theorem test_met_UpdatesPagesAndFrameBuffer :
    (∃ (s : State) (p : Port) (x : Nat) (y : Nat), Served s p ∧ s.panelSrc = true ∧ s.flag pnlBase Reg.PNL_STATUS_INITRUN = false ∧
      s.prd Reg.PNL_RECT0_X0 = x ∧ s.prd Reg.PNL_RECT1_X1 = x ∧ s.prd Reg.PNL_RECT0_Y0 = y ∧ s.prd Reg.PNL_RECT1_Y1 = y ∧ x < 400 ∧ y < 240 ∧
      s.pnl.poison = [] ∧ (s.pixel (y * 400 + x)).drive = none ∧ s.fbLevel (y * 400 + x) ≠ (s.pixel (y * 400 + x)).level) ∧
    (∃ (s : State) (p : Port) (x : Nat) (y : Nat) (d : PixelWait), Served s p ∧ s.panelSrc = true ∧ s.flag pnlBase Reg.PNL_STATUS_INITRUN = false ∧
      s.prd Reg.PNL_RECT0_X0 = x ∧ s.prd Reg.PNL_RECT1_X1 = x ∧ s.prd Reg.PNL_RECT0_Y0 = y ∧ s.prd Reg.PNL_RECT1_Y1 = y ∧ x < 400 ∧ y < 240 ∧
      s.pnl.poison = [] ∧ (s.pixel (y * 400 + x)).drive = some d) ∧
    (∃ (s : State) (p : Port), Served s p ∧ s.panelSrc = true ∧ UpdateLegal s) ∧
    (∃ (s : State), s.mst ≠ stPowerup ∧ s.mst ≠ stPfail ∧ UpdateLegal s) ∧
    (∃ (s : State) (p : Port), Served s p ∧ s.panelSrc = false) ∧
    (∃ (s : State) (p : Port), Served s p ∧ s.panelSrc = true ∧ s.prd Reg.PNL_RECT1_X1 < s.prd Reg.PNL_RECT0_X0) ∧
    (∃ (s : State) (p : Port), Served s p ∧ s.panelSrc = true ∧ s.prd Reg.PNL_RECT0_X0 ≤ s.prd Reg.PNL_RECT1_X1 ∧
      s.prd Reg.PNL_RECT0_Y0 ≤ s.prd Reg.PNL_RECT1_Y1 ∧ s.prd Reg.PNL_RECT1_X1 < 400 ∧ s.prd Reg.PNL_RECT1_Y1 < 240 ∧
      s.flag pnlBase Reg.PNL_STATUS_INITRUN = true) ∧
    (∃ (s : State) (p : Port) (g : Word) (data : List Word), Served s p ∧ s.panelSrc = true ∧ data.length = 8 ∧ g.toNat < 1500) ∧
    (∃ (s : State) (p : Port) (data : List Word), Served s p ∧ s.panelSrc = true ∧ data.length ≠ 8) ∧
    (∃ (s : State) (p : Port), Served s p ∧ s.panelSrc = false) ∧
    (∃ (s : State) (p : Port) (g : Word) (data : List Word), Served s p ∧ data.length = 8 ∧ s.panelSrc = true ∧ 1500 ≤ g.toNat) ∧
    (∃ (s : State) (rows : List Config.RowText) (layout : Nat), s.flag pnlBase Reg.PNL_CFG_SRC = false ∧ s.dutyUp 3 = true ∧ s.panelDrives = true ∧
      s.pageRows = (layout, rows)) ∧
    (∃ (s : State), s.flag pnlBase Reg.PNL_CFG_SRC = false ∧ s.dutyUp 3 = true ∧ s.panelDrives = true ∧ s.pageRows = s.pnl.page) ∧
    (∃ (s : State) (layout : Nat) (row : Nat) (x : Config.RowText) (l : List (Config.RowText × Nat)), s.flag pnlBase Reg.PNL_CFG_SRC = false ∧
      s.dutyUp 3 = true ∧ s.panelDrives = true ∧ s.pageRows.1 = layout ∧ s.pnl.page.1 = layout ∧
      (s.pageRows.2.zipIdx.filter fun y => s.pnl.page.2[y.2]? != some y.1) = (x, row) :: l) ∧
    (∃ (s : State), (s.flag pnlBase Reg.PNL_CFG_SRC = true ∨ s.dutyUp 3 = false ∨ s.panelDrives = false)) ∧
    (∃ (s : State), s.flag pnlBase Reg.PNL_CFG_SRC = false ∧ s.mst ≠ stPowerup) :=
  ⟨⟨(((((inSt stReady).wr pnlBase Reg.PNL_RECT0_X0 0).wr pnlBase Reg.PNL_RECT1_X1 0).wr pnlBase Reg.PNL_RECT0_Y0 0).wr pnlBase Reg.PNL_RECT1_Y1 0).wr pnlBase Reg.PNL_CFG_SRC 1,
     .service, 0, 0, by decide +kernel⟩,
   ⟨((((((inSt stReady).wr pnlBase Reg.PNL_RECT0_X0 0).wr pnlBase Reg.PNL_RECT1_X1 0).wr pnlBase Reg.PNL_RECT0_Y0 0).wr pnlBase Reg.PNL_RECT1_Y1 0).modPnl fun x => { x with pixels := [(0, aPixel)] }).wr pnlBase Reg.PNL_CFG_SRC 1,
     .service, 0, 0, ⟨0, 0, false, 0, 1⟩, by decide +kernel⟩,
   ⟨(((((inSt stReady).wr pnlBase Reg.PNL_RECT0_X0 1).wr pnlBase Reg.PNL_RECT1_X1 2).wr pnlBase Reg.PNL_RECT0_Y0 1).wr pnlBase Reg.PNL_RECT1_Y1 2).wr pnlBase Reg.PNL_CFG_SRC 1,
     .service, by decide +kernel⟩,
   ⟨((((inSt stReady).wr pnlBase Reg.PNL_RECT0_X0 1).wr pnlBase Reg.PNL_RECT1_X1 2).wr pnlBase Reg.PNL_RECT0_Y0 1).wr pnlBase Reg.PNL_RECT1_Y1 2,
     by decide +kernel⟩,
   ⟨inSt stReady, .service, by decide +kernel⟩,
   ⟨(((inSt stReady).wr pnlBase Reg.PNL_RECT0_X0 9).wr pnlBase Reg.PNL_RECT1_X1 8).wr pnlBase Reg.PNL_CFG_SRC 1, .service, by decide +kernel⟩,
   ⟨((inSt stReady).wr pnlBase Reg.PNL_STATUS_INITRUN 1).wr pnlBase Reg.PNL_CFG_SRC 1, .service, by decide +kernel⟩,
   ⟨(inSt stReady).wr pnlBase Reg.PNL_CFG_SRC 1, .service, 1499, [1, 2, 3, 4, 5, 6, 7, 8], by decide +kernel⟩,
   ⟨(inSt stReady).wr pnlBase Reg.PNL_CFG_SRC 1, .service, [], by decide +kernel⟩,
   ⟨inSt stReady, .service, by decide +kernel⟩,
   ⟨(inSt stReady).wr pnlBase Reg.PNL_CFG_SRC 1, .service, 1500, [1, 2, 3, 4, 5, 6, 7, 8], by decide +kernel⟩,
   ⟨inSt stReady, (inSt stReady).pageRows.2, (inSt stReady).pageRows.1, met3 (by decide +kernel) (rfl)⟩,
   ⟨(inSt stReady).modPnl fun x => { x with page := (inSt stReady).pageRows }, by decide +kernel⟩,
   ⟨(inSt stReady).modPnl fun x => { x with page := (0, (inSt stReady).pageRows.2.set 0 .blank) }, 0, 0, .status 0 stReady, [], by decide +kernel⟩,
   ⟨(inSt stReady).wr pnlBase Reg.PNL_CFG_SRC 1, by decide +kernel⟩,
   ⟨inSt stReady, by decide +kernel⟩⟩

theorem test_met_ClocksFailAndReturn :
    (∃ (s : State), s.mst ≠ stPfail) ∧
    (∃ (s : State), s.mst ≠ stPfail) ∧
    (∃ (s : State), s.link .up = 2 ∧ s.link .down = 2) ∧
    (∃ (s : State), s.mst ≠ stPfail) ∧
    (∃ (s : State), s.mst = stPfail ∧ s.pwr.unpowered = false ∧ s.pwr.ended = false) ∧
    (∃ (s : State) (r : Fin 5), s.flag modBase (regFltField r.val) = false) ∧
    (∃ (s : State) (c : SfpCode), s.mst ≠ stPowerup ∧ s.mst ≠ stPfail ∧ s.role .a = roleOff ∧ (s.path .a).cage = some (.code c false) ∧
      modeTakes (s.nrd .a Reg.NET_CFG_PMODE) c = true) ∧
    (∃ (s : State), s.role .a = roleOff ∧ s.nrd .a Reg.NET_CFG_PMODE = 0) :=
  ⟨⟨inSt stReady, by decide +kernel⟩,
   ⟨inSt stReady, by decide +kernel⟩,
   ⟨((inSt stReady).setLink .up 2).setLink .down 2, by decide +kernel⟩,
   ⟨inSt stReady, by decide +kernel⟩,
   ⟨inSt stPfail, by decide +kernel⟩,
   ⟨inSt stReady, 4, by decide +kernel⟩,
   ⟨((inSt stReady).modPath .a fun x => { x with cage := some (.code .sr false) }).nwr .a Reg.NET_CFG_PMODE 1, .sr, by decide +kernel⟩,
   ⟨(inSt stReady).nwr .a Reg.NET_CFG_PMODE 0, by decide +kernel⟩⟩

theorem test_met_HoldUpBankAndSupplyShow :
    (∃ (s : State) (p : Port), Served s p ∧ s.mst ≠ stRun ∧ s.pwr.measuring = false) ∧
    (∃ (s : State) (p : Port), Served s p ∧ s.mst = stRun) ∧
    (∃ (s : State) (p : Port), Served s p ∧ s.mst ≠ stRun ∧ s.pwr.measuring = true) ∧
    (∃ (s : State) (uf : BitVec 16), s.pwr.measuring = true ∧ uf.toNat < 840) ∧
    (∃ (s : State) (uf : BitVec 16), s.pwr.measuring = true ∧ 840 ≤ uf.toNat ∧ s.flag pwrBase Reg.PWR_STATUS_HUREADY = true) ∧
    (∃ (s : State), s.pwr.measuring = false) ∧
    (∃ (s : State), s.mst ≠ stPfail ∧ s.mst ≠ stSelftest ∧ s.flag pwrBase Reg.PWR_STATUS_HUREADY = false) :=
  ⟨⟨inSt stReady, .service, by decide +kernel⟩,
   ⟨inSt stRun, .service, by decide +kernel⟩,
   ⟨(inSt stReady).modPwr fun x => { x with measuring := true }, .service, by decide +kernel⟩,
   ⟨(inSt stReady).modPwr fun x => { x with measuring := true }, 0, by decide +kernel⟩,
   ⟨((inSt stReady).modPwr fun x => { x with measuring := true }).wr pwrBase Reg.PWR_STATUS_HUREADY 1, 840, by decide +kernel⟩,
   ⟨inSt stReady, by decide +kernel⟩,
   ⟨inSt stReady, by decide +kernel⟩⟩

theorem test_met_PowerFailShedsAndCloses :
    (∃ (s : State), s.mst ≠ stPfail) ∧
    (∃ (s : State) (vb : BitVec 16) (checks : List (BitVec 16)), s.mst ≠ stPfail ∧ (∀ i < 3, 1400 ≤ (checks.getD i vb).toNat)) ∧
    (∃ (s : State) (stop : Fin 6), s.mst ≠ stPfail ∧ 2 ≤ stop.val ∧ s.jrn.readOnly = []) ∧
    (∃ (s : State) (vb : BitVec 16) (checks : List (BitVec 16)), s.mst ≠ stPfail ∧ (∀ i < 3, 1400 ≤ (checks.getD i vb).toNat) ∧ s.tabor = false ∧
      s.net.snare = 1) ∧
    (∃ (s : State), s.mst = stPfail ∧ s.pwr.ended = false ∧ s.pwr.unpowered = false ∧ s.pwr.abandoned = 0) ∧
    (∃ (s : State), s.mst = stPfail ∧ (s.pwr.ended = true ∨ s.pwr.unpowered = true ∨ s.pwr.abandoned ≠ 0)) :=
  ⟨⟨inSt stReady, by decide +kernel⟩,
   ⟨inSt stReady, 1400, [], by decide +kernel⟩,
   ⟨inSt stReady, 5, by decide +kernel⟩,
   ⟨(inSt stReady).modNet fun x => { x with snare := 1 }, 1400, [], by decide +kernel⟩,
   ⟨(inSt stPfail).modPwr fun x => { x with abandoned := 0 }, by decide +kernel⟩,
   ⟨(inSt stPfail).modPwr fun x => { x with ended := true }, by decide +kernel⟩⟩

theorem test_met_PowerFailEndsAndReturns :
    (∃ (s : State), s.mst = stPfail ∧ s.pwr.ended = false ∧ s.pwr.unpowered = false ∧ s.pwr.steps ≤ 5 ∧ s.pwr.abandoned < 4 ∧ s.pwr.barred = false ∧
      (s.pwr.begun ≠ 3 ∨ 3 ≤ s.pwr.steps)) ∧
    (∃ (s : State), s.mst = stPfail ∧ s.pwr.ended = false ∧ s.pwr.unpowered = false ∧ s.pwr.begun = 3 ∧ s.pwr.steps < 3) ∧
    (∃ (s : State), s.mst = stPfail ∧ s.pwr.ended = false ∧ s.pwr.unpowered = false ∧ s.pwr.abandoned = 0 ∧ s.pwr.barred = true) ∧
    (∃ (s : State), s.mst = stPfail ∧ s.pwr.ended = false ∧ s.pwr.unpowered = false ∧ (s.pwr.begun ≠ 3 ∨ 3 ≤ s.pwr.steps)) ∧
    (∃ (s : State), s.mst = stPfail ∧ s.pwr.ended = true ∧ s.pwr.unpowered = false) ∧
    (∃ (s : State), s.mst ≠ stPfail) ∧
    (∃ (s : State), s.mst = stPfail ∧ s.pwr.ended = false ∧ s.pwr.unpowered = false ∧ s.pwr.abandoned = 0) ∧
    (∃ (s : State), s.mst ≠ stPfail) :=
  ⟨⟨inSt stPfail, by decide +kernel⟩,
   ⟨(inSt stPfail).modPwr fun x => { x with begun := 3 }, by decide +kernel⟩,
   ⟨((inSt stPfail).modPwr fun x => { x with abandoned := 0 }).modPwr fun x => { x with barred := true }, by decide +kernel⟩,
   ⟨inSt stPfail, by decide +kernel⟩,
   ⟨(inSt stPfail).modPwr fun x => { x with ended := true }, by decide +kernel⟩,
   ⟨inSt stReady, by decide +kernel⟩,
   ⟨(inSt stPfail).modPwr fun x => { x with abandoned := 0 }, by decide +kernel⟩,
   ⟨inSt stReady, by decide +kernel⟩⟩

theorem test_met_LegacyRegistersAndPairs :
    (∃ (s : State) (a : BitVec 16) (v : BitVec 16), s.taborUp = true ∧ legacyListed a.toNat = true ∧ (a.toNat < 0x310 ∨ 0x330 ≤ a.toNat) ∧
      s.legacyValue a.toNat = some v) ∧
    (∃ (s : State), s.taborUp = true) ∧
    (∃ (s : State) (lo : BitVec 16) (hi : BitVec 16), s.taborUp = true ∧ s.legacyValue 0x310 = some lo ∧ s.legacyValue 0x311 = some hi) ∧
    (∃ (s : State) (a : BitVec 16), s.taborUp = true ∧ legacyListed a.toNat = false) ∧
    (∃ (s : State), s.taborUp = true) ∧
    (∃ (s : State) (n : Nat) (a : BitVec 16), s.taborUp = true ∧ 1 ≤ n ∧ n ≤ 120 ∧ (∀ i < n, legacyListed (a.toNat + i) = true ∧
      (a.toNat + i < 0x310 ∨ 0x330 ≤ a.toNat + i) ∧ (s.legacyValue (a.toNat + i)).isSome)) ∧
    (∃ (s : State), s.taborUp = true) ∧
    (∃ (s : State), s.taborUp = false) ∧
    (∃ (s : State), s.taborUp = true) ∧
    (∃ (s : State) (k : Nat) (v : BitVec 16), s.taborUp = true ∧ k < 32 ∧ v.toNat ≤ 10000 ∧ loopRegCheck k 0x24 (toF32c (mkRat v.toNat 100)) s = E_OK) ∧
    (∃ (s : State), s.taborUp = true ∧ s.pendingAt 0x301 = none ∧ s.pendingAt 0x302 = none ∧ s.tab.pairs.length < 16) ∧
    (∃ (s : State), s.taborUp = true ∧ s.pendingAt 0x301 = none ∧ s.pendingAt 0x302 = none ∧ 16 ≤ s.tab.pairs.length) ∧
    (∃ (s : State) (a : BitVec 16), s.taborUp = true ∧ legacyListed a.toNat = false) ∧
    (∃ (s : State) (a : BitVec 16) (p : PairWrite), s.pendingAt a.toNat = some p ∧ p.left = 0) ∧
    (∃ (s : State) (a : BitVec 16), s.pendingAt a.toNat = none) ∧
    (∃ (s : State), s.taborUp = true) :=
  ⟨⟨((inSt stReady).wr modBase Reg.MOD_MODE_MODE 1).nwr .a Reg.NET_STATUS_ROLE 2, 1, 0, by decide +kernel⟩,
   ⟨((inSt stReady).wr modBase Reg.MOD_MODE_MODE 1).nwr .a Reg.NET_STATUS_ROLE 2, by decide +kernel⟩,
   ⟨((inSt stReady).wr modBase Reg.MOD_MODE_MODE 1).nwr .a Reg.NET_STATUS_ROLE 2, 0, 0, by decide +kernel⟩,
   ⟨((inSt stReady).wr modBase Reg.MOD_MODE_MODE 1).nwr .a Reg.NET_STATUS_ROLE 2, 2, by decide +kernel⟩,
   ⟨((inSt stReady).wr modBase Reg.MOD_MODE_MODE 1).nwr .a Reg.NET_STATUS_ROLE 2, by decide +kernel⟩,
   ⟨((inSt stReady).wr modBase Reg.MOD_MODE_MODE 1).nwr .a Reg.NET_STATUS_ROLE 2, 2, 0, by decide +kernel⟩,
   ⟨((inSt stReady).wr modBase Reg.MOD_MODE_MODE 1).nwr .a Reg.NET_STATUS_ROLE 2, by decide +kernel⟩,
   ⟨inSt stReady, by decide +kernel⟩,
   ⟨((inSt stReady).wr modBase Reg.MOD_MODE_MODE 1).nwr .a Reg.NET_STATUS_ROLE 2, by decide +kernel⟩,
   ⟨((((inSt stReady).wr modBase Reg.MOD_MODE_MODE 1).nwr .a Reg.NET_STATUS_ROLE 2).withCell (lpId 3) csRun 0).put [aRec T_CELL 1 (lpId 3) 0x42c8000000000000],
     3, 50, by decide +kernel⟩,
   ⟨((inSt stReady).wr modBase Reg.MOD_MODE_MODE 1).nwr .a Reg.NET_STATUS_ROLE 2, by decide +kernel⟩,
   ⟨(((inSt stReady).wr modBase Reg.MOD_MODE_MODE 1).nwr .a Reg.NET_STATUS_ROLE 2).modTab fun x => { x with pairs := List.replicate 16 { addr := 0x101, value := 5, left := 8 } },
     by decide +kernel⟩,
   ⟨((inSt stReady).wr modBase Reg.MOD_MODE_MODE 1).nwr .a Reg.NET_STATUS_ROLE 2, 2, by decide +kernel⟩,
   ⟨(inSt stReady).modTab fun x => { x with pairs := [{ addr := 0x301, value := 5, left := 0 }] }, 0x301, { addr := 0x301, value := 5, left := 0 },
     by decide +kernel⟩,
   ⟨inSt stReady, 0, by decide +kernel⟩,
   ⟨((inSt stReady).wr modBase Reg.MOD_MODE_MODE 1).nwr .a Reg.NET_STATUS_ROLE 2, by decide +kernel⟩⟩

theorem test_met_LegacyAlarmsTimeAndMode :
    (∃ (s : State) (n : Notice) (l : List Notice), s.tabor = true ∧ s.mst ∈ [stEnum, stLoad, stReady, stRun, stSafe, stService] ∧ s.tab.noticed = n :: l ∧
      s.tab.queue.length < 256) ∧
    (∃ (s : State) (n : Notice) (l : List Notice), s.tabor = true ∧ s.mst ∈ [stEnum, stLoad, stReady, stRun, stSafe, stService] ∧ s.tab.noticed = n :: l ∧
      256 ≤ s.tab.queue.length) ∧
    (∃ (s : State), (s.tabor = false ∨ s.tab.noticed = [])) ∧
    (∃ (s : State) (n : Notice) (l : List Notice) (ev : AlarmKind) (src : BitVec 16) (new : BitVec 16), s.tab.noticed = n :: l ∧
      (ev ≠ n.kind ∨ src ≠ BitVec.ofNat 16 n.source ∨ new ≠ BitVec.ofNat 16 n.state)) ∧
    (∃ (s : State) (a : Alarm) (l : List Alarm), s.taborUp = true ∧ s.tab.queue = a :: l) ∧
    (∃ (s : State) (a : Alarm) (l : List Alarm), s.taborUp = true ∧ s.tab.queue = a :: l ∧ s.tab.refused = 0) ∧
    (∃ (s : State) (a : Alarm) (l : List Alarm), s.taborUp = true ∧ s.tab.queue = a :: l ∧ s.tab.refused ≠ 0) ∧
    (∃ (s : State) (q : BitVec 16), s.taborUp = true ∧ (∀ a l, s.tab.queue = a :: l → a.seq ≠ q)) ∧
    (∃ (s : State) (ms : BitVec 48), s.taborUp = true ∧ s.servoState = svFree ∧ s.nowNs + 1000000 < ms.toNat * 1000000) ∧
    (∃ (s : State), s.taborUp = true ∧ s.servoState = svLocked) ∧
    (∃ (s : State), Served s .service ∧ s.mst ∈ [stReady, stService] ∧ s.flag modBase Reg.MOD_HEALTH_NV_DEGRADED = false ∧ JournalTakes s modeHome) ∧
    (∃ (s : State) (o : NvOutcome), Served s .service ∧ s.mst ∈ [stReady, stService] ∧ s.flag modBase Reg.MOD_HEALTH_NV_DEGRADED = false ∧
      (s.commitTxn modeHome o).1 ≠ E_OK) ∧
    (∃ (s : State) (p : Port), Served s p ∧ p ≠ .service) ∧
    (∃ (s : State), Served s .service ∧ s.mst ∉ [stReady, stService]) :=
  ⟨⟨((inSt stEnum).wr modBase Reg.MOD_MODE_MODE 1).modTab fun x => { x with noticed := (⟨0, 0, .module, 0, 3⟩) :: ([]) }, ⟨0, 0, .module, 0, 3⟩, [],
     by decide +kernel⟩,
   ⟨(((inSt stEnum).wr modBase Reg.MOD_MODE_MODE 1).modTab fun x => { x with noticed := (⟨0, 0, .module, 0, 3⟩) :: ([]) }).modTab fun x => { x with queue := List.replicate 256 { seq := 3, event := 1, source := 2, state := 1, stamp := 0 } },
     ⟨0, 0, .module, 0, 3⟩, [], by decide +kernel⟩,
   ⟨inSt stReady, by decide +kernel⟩,
   ⟨(inSt stReady).modTab fun x => { x with noticed := (⟨0, 0, .module, 0, 3⟩) :: ([]) }, ⟨0, 0, .module, 0, 3⟩, [], .input, 0, 0, by decide +kernel⟩,
   ⟨(((inSt stReady).wr modBase Reg.MOD_MODE_MODE 1).nwr .a Reg.NET_STATUS_ROLE 2).modTab fun x => { x with queue := [{ seq := 3, event := 1, source := 2, state := 1, stamp := 0 }], refused := 0 },
     { seq := 3, event := 1, source := 2, state := 1, stamp := 0 }, [], by decide +kernel⟩,
   ⟨(((inSt stReady).wr modBase Reg.MOD_MODE_MODE 1).nwr .a Reg.NET_STATUS_ROLE 2).modTab fun x => { x with queue := [{ seq := 3, event := 1, source := 2, state := 1, stamp := 0 }], refused := 0 },
     { seq := 3, event := 1, source := 2, state := 1, stamp := 0 }, [], by decide +kernel⟩,
   ⟨(((inSt stReady).wr modBase Reg.MOD_MODE_MODE 1).nwr .a Reg.NET_STATUS_ROLE 2).modTab fun x => { x with queue := [{ seq := 3, event := 1, source := 2, state := 1, stamp := 0 }], refused := 1 },
     { seq := 3, event := 1, source := 2, state := 1, stamp := 0 }, [], by decide +kernel⟩,
   ⟨((inSt stReady).wr modBase Reg.MOD_MODE_MODE 1).nwr .a Reg.NET_STATUS_ROLE 2, 0, by decide +kernel, fun _ _ h => by cases h⟩,
   ⟨((inSt stReady).wr modBase Reg.MOD_MODE_MODE 1).nwr .a Reg.NET_STATUS_ROLE 2, 5, by decide +kernel⟩,
   ⟨(((inSt stReady).wr modBase Reg.MOD_MODE_MODE 1).nwr .a Reg.NET_STATUS_ROLE 2).wr tmBase Reg.TM_STATUS_STATE svLocked, by decide +kernel⟩,
   ⟨inSt stReady, by decide +kernel⟩,
   ⟨(inSt stReady).wr (blkBase 2 28) Reg.BLK_STATE_STATE bkIsolated, .clean, by decide +kernel⟩,
   ⟨inSt stReady, .chainUp, by decide +kernel⟩,
   ⟨inSt stLoad, by decide +kernel⟩⟩

theorem test_met_RequestsAreCheckedQueuedAndRemembered :
    (∃ (s : State) (a : MgmtArrival) (r : MgmtReq), Brings s a r ∧ Served s r.port ∧ s.mgmt.memory = [] ∧ s.mgmt.queue = [] ∧ r.reject = none) ∧
    (∃ (s : State) (a : MgmtArrival) (r : MgmtReq) (c : Code) (i : Nat), Brings s a r ∧ Served s r.port ∧ s.mgmt.memory = [] ∧ r.reject = some (c, i)) ∧
    (∃ (s : State) (a : MgmtArrival) (r : MgmtReq) (q : MgmtReq) (o : List Byte) (c : Nat), Brings s a r ∧ Served s r.port ∧
      s.mgmt.memory = [(q, some (o, c))] ∧ s.time.cycles < c + 1000000000 ∧ sameRequester q r = true ∧ q.bytes = r.bytes) ∧
    (∃ (s : State) (a : MgmtArrival) (r : MgmtReq) (q : MgmtReq), Brings s a r ∧ Served s r.port ∧ s.mgmt.memory = [(q, none)] ∧ sameRequester q r = true ∧
      q.bytes = r.bytes) ∧
    (∃ (s : State) (a : MgmtArrival) (r : MgmtReq) (q : MgmtReq), Brings s a r ∧ Served s r.port ∧ s.mgmt.memory = [(q, none)] ∧ sameRequester q r = true ∧
      q.tid = r.tid ∧ q.bytes ≠ r.bytes) ∧
    (∃ (s : State) (a : MgmtArrival) (r : MgmtReq), Brings s a r ∧ Served s r.port ∧ s.mgmt.memory = [] ∧ s.mgmt.queue.length = 32 ∧ r.reject = none) ∧
    (∃ (s : State) (a : MgmtArrival) (r : MgmtReq), Brings s a r) ∧
    (∃ (s : State) (a : MgmtArrival) (r : MgmtReq), Brings s a r ∧ (s.mst = stPowerup ∨ s.mst = stPfail)) ∧
    (∃ (h : Sahvos), (h.ver ≠ 1 ∨ h.kind ≠ 3)) ∧
    (∃ (s : State) (f : ChainFrame), s.mgmtHere f = false) ∧
    (∃ (s : State) (f : ChainFrame), s.mgmtHere f = true ∧ badMgmt f = true) ∧
    (∃ (r : MgmtReq), (1468 < r.bytes.length ∨ r.declared ≠ r.bytes.length ∨ r.reserved ≠ 0 ∨ r.nops = 0 ∨ 64 < r.nops.toNat)) :=
  ⟨⟨inSt stReady, aUsb aReq, aReq, by decide +kernel⟩,
   ⟨inSt stReady, aUsb (aReqOf [(0x400FFF3C, 7, [])]), aReqOf [(0x400FFF3C, 7, [])], E_RANGE, 255, by decide +kernel⟩,
   ⟨(inSt stReady).modMgmt fun x => { x with memory := [(aReq, some ([], 0))] }, aUsb aReq, aReq, aReq, [], 0, by decide +kernel⟩,
   ⟨(inSt stReady).modMgmt fun x => { x with memory := [(aReq, none)] }, aUsb aReq, aReq, aReq, by decide +kernel⟩,
   ⟨(inSt stReady).modMgmt fun x => { x with memory := [(aReqOf [(0x400FFF3C, 7, [])], none)] }, aUsb aReq, aReq, aReqOf [(0x400FFF3C, 7, [])],
     by decide +kernel⟩,
   ⟨(inSt stReady).modMgmt fun x => { x with queue := List.replicate 32 (0, aReq) }, aUsb aReq, aReq, by decide +kernel⟩,
   ⟨inSt stReady, aUsb aReq, aReq, by decide +kernel⟩,
   ⟨inSt stPowerup, aUsb aReq, aReq, by decide +kernel⟩,
   ⟨aSahvos, by decide +kernel⟩,
   ⟨inSt stReady, aFrame, by decide +kernel⟩,
   ⟨inSt stReady, { aFrame with ty := 4, dst := 0, tspec := [12, 0, 4, 0, 0, 0] }, by decide +kernel⟩,
   ⟨{ aReq with declared := 5 }, by decide +kernel⟩⟩

theorem test_met_ReadTransactionsAnswerAndClear :
    (∃ (s : State) (n : Nat) (a : Nat) (r : MgmtReq) (rest : List (Nat × MgmtReq)), s.mgmt.queue = (n, r) :: rest ∧ r.isRead = true ∧ Served s r.port ∧
      s.flag (cpBase 1) Reg.CP_STATUS_HELD = false ∧ r.registers = [(0, a, 0)] ∧ s.readCheck false a = E_OK ∧ a ≠ qbBase + Reg.QB_STATUS_INFLIGHT.off) ∧
    (∃ (s : State) (n : Nat) (a : Nat) (r : MgmtReq) (rest : List (Nat × MgmtReq)), s.mgmt.queue = (n, r) :: rest ∧ r.isRead = true ∧ Served s r.port ∧
      s.flag (cpBase 1) Reg.CP_STATUS_HELD = false ∧ r.registers = [(0, a, 0)] ∧ s.readCheck false a ≠ E_OK) ∧
    (∃ (s : State) (n : Nat) (r : MgmtReq) (rest : List (Nat × MgmtReq)), s.mgmt.queue = (n, r) :: rest ∧ Served s r.port ∧
      s.flag (cpBase 1) Reg.CP_STATUS_HELD = true) ∧
    (∃ (s : State) (n : Nat) (r : MgmtReq) (rest : List (Nat × MgmtReq)), s.mgmt.queue = (n, r) :: rest ∧ r.isRead = true ∧ Served s r.port ∧
      s.flag (cpBase 1) Reg.CP_STATUS_HELD = false) ∧
    (∃ (s : State) (n : Nat) (r : MgmtReq) (rest : List (Nat × MgmtReq)), s.mgmt.queue = (n, r) :: rest ∧ r.isRead = true ∧ Served s r.port ∧
      s.flag (cpBase 1) Reg.CP_STATUS_HELD = false ∧ (∀ e ∈ r.registers, s.readCheck false e.2.1 = E_OK)) ∧
    (∃ (s : State), s.mgmt.queue = []) :=
  ⟨⟨(inSt stReady).modMgmt fun x => { x with queue := [(0, aReq)] }, 0, 0x400FFF3C, aReq, [], by decide +kernel⟩,
   ⟨(inSt stReady).modMgmt fun x => { x with queue := [(0, aReqOf [(0x00000020, 1, [])])] }, 0, 0x00000020, aReqOf [(0x00000020, 1, [])], [],
     by decide +kernel⟩,
   ⟨((inSt stReady).modMgmt fun x => { x with queue := [(0, aReq)] }).wr (cpBase 1) Reg.CP_STATUS_HELD 1, 0, aReq, [], by decide +kernel⟩,
   ⟨(inSt stReady).modMgmt fun x => { x with queue := (0, aReq) :: ([]) }, 0, aReq, [], by decide +kernel⟩,
   ⟨(inSt stReady).modMgmt fun x => { x with queue := (0, aReq) :: ([]) }, 0, aReq, [], by decide +kernel⟩,
   ⟨inSt stReady, by decide +kernel⟩⟩

theorem test_met_WriteTransactionsPassFailOrAreHeld :
    (∃ (s : State) (n : Nat) (r : MgmtReq) (rest : List (Nat × MgmtReq)), s.mgmt.queue = (n, r) :: rest ∧ r.isRead = false ∧ Served s r.port ∧
      s.flag (cpBase 1) Reg.CP_STATUS_HELD = false) ∧
    (∃ (s : State) (k : Nat), s.mgmt.held[k]? = none) ∧
    (∃ (s : State) (t : State) (n : Nat) (r : MgmtReq) (rest : List (Nat × MgmtReq)), s.mgmt.queue = (n, r) :: rest ∧ r.isRead = false ∧ Served s r.port ∧
      s.flag (cpBase 1) Reg.CP_STATUS_HELD = false ∧ heldKinds r.registers = [] ∧ restarts r.registers = false ∧
      writeAll r.port false false s.heldRegisters [] r.registers s.popRequest = .inr t) ∧
    (∃ (s : State) (n : Nat) (i : Nat) (a : Nat) (r : MgmtReq) (rest : List (Nat × MgmtReq)) (c : Code) (w : Word), s.mgmt.queue = (n, r) :: rest ∧
      r.isRead = false ∧ Served s r.port ∧ s.flag (cpBase 1) Reg.CP_STATUS_HELD = false ∧ (heldKinds r.registers).length ≤ 1 ∧
      a ≠ pnlBase + Reg.PNL_UPD_GO.off ∧ writeAll r.port false false s.heldRegisters [] r.registers s.popRequest = .inl (c, i, a, w)) ∧
    (∃ (s : State) (n : Nat) (r : MgmtReq) (rest : List (Nat × MgmtReq)), s.mgmt.queue = (n, r) :: rest ∧ r.isRead = false ∧ Served s r.port ∧
      s.flag (cpBase 1) Reg.CP_STATUS_HELD = false ∧ 1 < (heldKinds r.registers).length) ∧
    (∃ (s : State) (u : State) (n : Nat) (k : Nat) (r : MgmtReq) (rest : List (Nat × MgmtReq)), s.mgmt.queue = (n, r) :: rest ∧ r.isRead = false ∧
      Served s r.port ∧ s.flag (cpBase 1) Reg.CP_STATUS_HELD = false ∧ heldKinds r.registers = [k] ∧
      writeAll r.port false false s.heldRegisters [] r.registers s.popRequest = .inr u) ∧
    (∃ (s : State) (n : Nat) (r : MgmtReq) (rest : List (Nat × MgmtReq)) (w : Word), s.mgmt.queue = (n, r) :: rest ∧ r.isRead = false ∧ Served s r.port ∧
      s.flag (cpBase 1) Reg.CP_STATUS_HELD = false ∧ s.mgmt.held = [] ∧ r.registers = [(0, memBase + 0x3C, w)] ∧ 1 ≤ w.toNat ∧ w.toNat ≤ 168) ∧
    (∃ (s : State) (n : Nat) (r : MgmtReq) (rest : List (Nat × MgmtReq)) (w : Word), s.mgmt.queue = (n, r) :: rest ∧ r.isRead = false ∧ Served s r.port ∧
      s.flag (cpBase 1) Reg.CP_STATUS_HELD = false ∧ s.mgmt.held = [] ∧ r.registers = [(0, memBase + 0x3C, w)] ∧ (w.toNat = 0 ∨ 168 < w.toNat)) ∧
    (∃ (s : State) (u : State) (t : State) (k : Nat) (r : MgmtReq), s.mgmt.held[k]? = some r ∧ s.runs r.port = .cp1 ∧ restarts r.registers = false ∧
      (u = s.modMgmt (fun m => { m with held := m.held.eraseIdx k })) ∧ (r.registers.flatMap fun e => u.keptHome e.2.1 e.2.2) = [] ∧
      writeAll r.port true false [] [] r.registers u = .inr t) ∧
    (∃ (s : State) (u : State) (v : State) (w : State) (t : State) (k : Nat) (o : NvOutcome) (r : MgmtReq) (homes : List Nat), s.mgmt.held[k]? = some r ∧
      s.runs r.port = .cp1 ∧ restarts r.registers = false ∧ (u = s.modMgmt (fun m => { m with held := m.held.eraseIdx k })) ∧ homes ≠ [] ∧
      (homes = (r.registers.flatMap fun e => u.keptHome e.2.1 e.2.2)) ∧ writeAll r.port true false [] [] r.registers u = .inr w ∧
      u.commitTxn homes o = (E_OK, v) ∧ writeAll r.port true false [] [] r.registers v = .inr t) ∧
    (∃ (s : State) (u : State) (w : State) (k : Nat) (o : NvOutcome) (r : MgmtReq) (homes : List Nat), s.mgmt.held[k]? = some r ∧ s.runs r.port = .cp1 ∧
      (u = s.modMgmt (fun m => { m with held := m.held.eraseIdx k })) ∧ homes ≠ [] ∧ (homes = (r.registers.flatMap fun e => u.keptHome e.2.1 e.2.2)) ∧
      writeAll r.port true false [] [] r.registers u = .inr w ∧ (u.commitTxn homes o).1 ≠ E_OK) ∧
    (∃ (s : State) (k : Nat) (i : Nat) (a : Nat) (r : MgmtReq) (c : Code) (w : Word), s.mgmt.held[k]? = some r ∧ s.runs r.port = .cp1 ∧
      a ≠ pnlBase + Reg.PNL_UPD_GO.off ∧
      (writeAll r.port true false [] [] r.registers (s.modMgmt fun m => { m with held := m.held.eraseIdx k }) = .inl (c, i, a, w))) ∧
    (∃ (s : State) (k : Nat) (r : MgmtReq), s.mgmt.held[k]? = some r ∧ Served s r.port ∧ s.flag (cpBase 1) Reg.CP_STATUS_HELD = true) ∧
    (∃ (s : State) (k : Nat) (r : MgmtReq), s.mgmt.held[k]? = some r ∧ s.runs r.port = .pwr) :=
  ⟨⟨(inSt stReady).modMgmt fun x => { x with queue := [(0, aWrite [(memBase + 0x3C, 5)])] }, 0, aWrite [(memBase + 0x3C, 5)], [], by decide +kernel⟩,
   ⟨inSt stReady, 0, by decide +kernel⟩,
   ⟨(inSt stReady).modMgmt fun x => { x with queue := [(0, aWrite [(memBase + 0x3C, 5)])] },
     passed (writeAll .service false false (((inSt stReady).modMgmt fun x => { x with queue := [(0, aWrite [(memBase + 0x3C, 5)])] })).heldRegisters [] (aWrite [(memBase + 0x3C, 5)]).registers (((inSt stReady).modMgmt fun x => { x with queue := [(0, aWrite [(memBase + 0x3C, 5)])] })).popRequest),
     0, aWrite [(memBase + 0x3C, 5)], [], met5 (by decide +kernel) ⟨by decide +kernel, passed_eq _ (by decide +kernel)⟩⟩,
   ⟨(inSt stReady).modMgmt fun x => { x with queue := [(0, aWrite [(memBase + 0x3C, 0)])] }, 0, 0, memBase + 0x3C, aWrite [(memBase + 0x3C, 0)], [],
     E_RANGE, 0, by decide +kernel⟩,
   ⟨(inSt stReady).modMgmt fun x => { x with queue := [(0, aWrite [(recBase + 0x20, 60), (recBase + Reg.REC_CTRL_CLEAR.off, 4)])] }, 0,
     aWrite [(recBase + 0x20, 60), (recBase + Reg.REC_CTRL_CLEAR.off, 4)], [], by decide +kernel⟩,
   ⟨(inSt stReady).modMgmt fun x => { x with queue := [(0, aWrite [(recBase + 0x20, 60)])] },
     passed (writeAll .service false false (((inSt stReady).modMgmt fun x => { x with queue := [(0, aWrite [(recBase + 0x20, 60)])] })).heldRegisters [] (aWrite [(recBase + 0x20, 60)]).registers (((inSt stReady).modMgmt fun x => { x with queue := [(0, aWrite [(recBase + 0x20, 60)])] })).popRequest),
     0, 3, aWrite [(recBase + 0x20, 60)], [], met5 (by decide +kernel) (passed_eq _ (by decide +kernel))⟩,
   ⟨(inSt stReady).modMgmt fun x => { x with queue := [(0, aWrite [(memBase + 0x3C, 5)])] }, 0, aWrite [(memBase + 0x3C, 5)], [], 5, by decide +kernel⟩,
   ⟨(inSt stReady).modMgmt fun x => { x with queue := [(0, aWrite [(memBase + 0x3C, 0)])] }, 0, aWrite [(memBase + 0x3C, 0)], [], 0, by decide +kernel⟩,
   ⟨(inSt stReady).modMgmt fun x => { x with held := [aWrite [(memBase + 0x3C, 5)]] },
     ((inSt stReady).modMgmt fun x => { x with held := [aWrite [(memBase + 0x3C, 5)]] }).modMgmt (fun m => { m with held := m.held.eraseIdx 0 }),
     passed (writeAll .service true false [] [] (aWrite [(memBase + 0x3C, 5)]).registers (((inSt stReady).modMgmt fun x => { x with held := [aWrite [(memBase + 0x3C, 5)]] }).modMgmt fun m => { m with held := m.held.eraseIdx 0 })),
     0, aWrite [(memBase + 0x3C, 5)], met3 (by decide +kernel) ⟨rfl, by decide +kernel, passed_eq _ (by decide +kernel)⟩⟩,
   ⟨heldSt, heldU heldSt, heldV heldSt, heldT (heldU heldSt), heldT (heldV heldSt), 0, .clean, keptWrite, heldHomes heldSt,
     met3 (by decide +kernel) ⟨rfl, by decide +kernel, rfl, passed_eq _ (by decide +kernel), pair_eq _ _ (by decide +kernel),
     passed_eq _ (by decide +kernel)⟩⟩,
   ⟨noJournal heldSt, heldU (noJournal heldSt), heldT (heldU (noJournal heldSt)), 0, .clean, keptWrite, heldHomes (noJournal heldSt),
     met2 (by decide +kernel) ⟨rfl, by decide +kernel, rfl, passed_eq _ (by decide +kernel), by decide +kernel⟩⟩,
   ⟨(inSt stReady).modMgmt fun x => { x with held := [aWrite [(memBase + 0x3C, 0)]] }, 0, 0, memBase + 0x3C, aWrite [(memBase + 0x3C, 0)], E_RANGE, 0,
     by decide +kernel⟩,
   ⟨((inSt stReady).wr (cpBase 1) Reg.CP_STATUS_HELD 1).modMgmt fun x => { x with held := [aReq] }, 0, aReq, by decide +kernel⟩,
   ⟨((inSt stReady).modMgmt fun x => { x with held := [aWrite [(recBase + 0x20, 60)]] }).wr (blkBase 2 26) Reg.BLK_STATE_STATE bkIsolated, 0,
     aWrite [(recBase + 0x20, 60)], by decide +kernel⟩⟩

theorem test_met_InputsResolveAndQualitiesCombine :
    (∃ (s : State) (id : Nat) (n : Nat) (b : Record), s.bind id n = some b ∧ qualBad (s.sig (bindSig b)).qual = true) ∧
    (∃ (s : State) (id : Nat) (n : Nat) (b : Record), s.bind id n = some b ∧ qualBad (s.sig (bindSig b)).qual = false ∧ bindBound b ≠ 0 ∧
      bindBound b < (s.sig (bindSig b)).age) ∧
    (∃ (s : State) (id : Nat) (n : Nat) (b : Record), s.bind id n = some b ∧ qualBad (s.sig (bindSig b)).qual = false ∧
      (bindBound b = 0 ∨ (s.sig (bindSig b)).age ≤ bindBound b)) ∧
    (∃ (s : State) (id : Nat) (n : Nat) (safe : Word) (v : Word) (b : Record) (i : Input), s.bind id n = some b ∧ s.input id n safe = some i ∧
      i.live = false ∧ bindFallback b = 0 ∧ Store.get none (s.cell id).lastIn n = some v) ∧
    (∃ (s : State) (id : Nat) (n : Nat) (safe : Word) (b : Record) (i : Input), s.bind id n = some b ∧ s.input id n safe = some i ∧ i.live = false ∧
      bindFallback b = 0 ∧ Store.get none (s.cell id).lastIn n = none) ∧
    (∃ (s : State) (id : Nat) (n : Nat) (safe : Word) (b : Record) (i : Input), s.bind id n = some b ∧ s.input id n safe = some i ∧ i.live = false ∧
      bindFallback b = 1) ∧
    (∃ (s : State) (id : Nat) (n : Nat) (safe : Word) (b : Record) (i : Input), s.bind id n = some b ∧ s.input id n safe = some i ∧ i.live = false ∧
      bindFallback b = 2) ∧
    (∃ (i : Input), i.live = true) ∧
    (∃ (i : Input), i.live = false) ∧
    (∃ (a : BitVec 4) (b : BitVec 4), a.toNat ≤ 12 ∧ b.toNat ≤ 12 ∧ qualRank a < qualRank b) ∧
    (∃ (a : BitVec 4) (b : BitVec 4), a.toNat ≤ 12 ∧ b.toNat ≤ 12 ∧ qualRank a = qualRank b ∧ a.toNat ≤ b.toNat) ∧
    (∃ (l : List (BitVec 4)) (m : List (BitVec 4)), (∀ q ∈ l, q.toNat ≤ 12) ∧ l.Perm m) ∧
    (∃ (l : List (BitVec 4)) (q : BitVec 4), q ∈ l) ∧
    (∃ (l : List (BitVec 4)), l ≠ [] ∧ (∀ q ∈ l, q.toNat ≤ 12)) :=
  ⟨⟨((inSt stReady).put [aRec T_BIND 2 (fcId 3) 0x4040000000000009]).modFab fun x => { x with words := [(9, some { val := 0x3F800000, qual := 10, flags := 0, age := 0 })] },
     fcId 3, 2, aRec T_BIND 2 (fcId 3) 0x4040000000000009, by decide +kernel⟩,
   ⟨((inSt stReady).put [aRec T_BIND 2 (fcId 3) 0x24040000000000009]).modFab fun x => { x with words := [(9, some { val := 0x3F800000, qual := 0, flags := 0, age := 3 })] },
     fcId 3, 2, aRec T_BIND 2 (fcId 3) 0x24040000000000009, by decide +kernel⟩,
   ⟨((inSt stReady).put [aRec T_BIND 2 (fcId 3) 0x24040000000000009]).modFab fun x => { x with words := [(9, some { val := 0x3F800000, qual := 0, flags := 0, age := 2 })] },
     fcId 3, 2, aRec T_BIND 2 (fcId 3) 0x24040000000000009, by decide +kernel⟩,
   ⟨(((inSt stReady).put [aRec T_BIND 2 (fcId 3) 0x4040000000000009]).modFab fun x => { x with words := [(9, some { val := 0x3F800000, qual := 10, flags := 0, age := 0 })] }).modCell (fcId 3) fun x => { x with lastIn := [(2, some 7)] },
     fcId 3, 2, 0, 7, aRec T_BIND 2 (fcId 3) 0x4040000000000009,
     (((((inSt stReady).put [aRec T_BIND 2 (fcId 3) 0x4040000000000009]).modFab fun x => { x with words := [(9, some { val := 0x3F800000, qual := 10, flags := 0, age := 0 })] }).modCell (fcId 3) fun x => { x with lastIn := [(2, some 7)] }).input (fcId 3) 2 0).getD { val := 0, qual := 0, flags := 0, live := true, raw := 0, age := 0 },
     by decide +kernel⟩,
   ⟨((inSt stReady).put [aRec T_BIND 2 (fcId 3) 0x4040000000000009]).modFab fun x => { x with words := [(9, some { val := 0x3F800000, qual := 10, flags := 0, age := 0 })] },
     fcId 3, 2, 0, aRec T_BIND 2 (fcId 3) 0x4040000000000009,
     (((((inSt stReady).put [aRec T_BIND 2 (fcId 3) 0x4040000000000009]).modFab fun x => { x with words := [(9, some { val := 0x3F800000, qual := 10, flags := 0, age := 0 })] })).input (fcId 3) 2 0).getD { val := 0, qual := 0, flags := 0, live := true, raw := 0, age := 0 },
     by decide +kernel⟩,
   ⟨((inSt stReady).put [aRec T_BIND 2 (fcId 3) 0x100004040000000000009]).modFab fun x => { x with words := [(9, some { val := 0x3F800000, qual := 10, flags := 0, age := 0 })] },
     fcId 3, 2, 0, aRec T_BIND 2 (fcId 3) 0x100004040000000000009,
     (((((inSt stReady).put [aRec T_BIND 2 (fcId 3) 0x100004040000000000009]).modFab fun x => { x with words := [(9, some { val := 0x3F800000, qual := 10, flags := 0, age := 0 })] })).input (fcId 3) 2 0).getD { val := 0, qual := 0, flags := 0, live := true, raw := 0, age := 0 },
     by decide +kernel⟩,
   ⟨((inSt stReady).put [aRec T_BIND 2 (fcId 3) 0x200004040000000000009]).modFab fun x => { x with words := [(9, some { val := 0x3F800000, qual := 10, flags := 0, age := 0 })] },
     fcId 3, 2, 0, aRec T_BIND 2 (fcId 3) 0x200004040000000000009,
     (((((inSt stReady).put [aRec T_BIND 2 (fcId 3) 0x200004040000000000009]).modFab fun x => { x with words := [(9, some { val := 0x3F800000, qual := 10, flags := 0, age := 0 })] })).input (fcId 3) 2 0).getD { val := 0, qual := 0, flags := 0, live := true, raw := 0, age := 0 },
     by decide +kernel⟩,
   ⟨{ val := 0, qual := 0, flags := 0, live := true, raw := 0, age := 0 }, by decide +kernel⟩,
   ⟨{ val := 0, qual := 0, flags := 0, live := false, raw := 0, age := 0 }, by decide +kernel⟩,
   ⟨0, 1, by decide +kernel⟩,
   ⟨0, 0, by decide +kernel⟩,
   ⟨[], [], by decide +kernel⟩,
   ⟨[0], 0, by decide +kernel⟩,
   ⟨[0], by decide +kernel⟩⟩

theorem test_met_TheActiveBankIsLocked :
    (∃ (s : State) (p : Port) (b : Bool), Served s p ∧ s.imgOpen = E_OK ∧ s.isActive b = true) ∧
    (∃ (s : State) (p : Port) (b : Bool), Served s p ∧ s.imgOpen = E_OK ∧ s.isActive b = false) :=
  ⟨⟨((inSt stReady).modImg fun x => { x with committed := true }).wr nvjBase Reg.IMG_STATUS_ACTIVE (Bool.toNat true), .service, true, by decide +kernel⟩,
   ⟨inSt stReady, .service, true, by decide +kernel⟩⟩

theorem test_met_BulknaksAreMadeAndCounted :
    ∃ (s : State) (f : ChainFrame), f.ty = 6 ∧ tspec f 26 < 32 ∧ s.exists_ (qpId (tspec f 26)) = true :=
  ⟨(inSt stReady).withCell (qpId 3) csRun 0, { aFrame with ty := 6, tspec := [3, 0, 0, 0, 0, 0] }, by decide +kernel⟩

theorem test_met_WordsDecodeAsEncoded :
    (∃ (i : Nat), i < 256) ∧
    (∃ (a : Nat) (b : Nat), apar a ≠ apar b) :=
  ⟨⟨0, by decide +kernel⟩,
   ⟨1, 0, by decide +kernel⟩⟩

theorem test_met_StepRunsFrontCommand :
    ∃ (s : State), s.pending = [] :=
  ⟨inSt stReady, by decide +kernel⟩

theorem test_met_StepsKeepTheMirrors :
    ∃ (s : State) (t : State), Mirrored s ∧ SegmentsShown s ∧ step s = .next t :=
  ⟨(inSt stReady).settle, stepped (step (inSt stReady).settle), met2 (by decide +kernel) (stepped_eq _ (by decide +kernel))⟩

theorem test_met_StepsKeepTheStoresCanonical :
    ∃ (s : State) (t : State), Canonical s ∧ step s = .next t :=
  ⟨inSt stReady, stepped (step (inSt stReady)), by decide +kernel, stepped_eq _ (by decide +kernel)⟩

theorem test_met_PortsAreServedByState :
    (∃ (i : Instr) (p : Port) (s : State), commandPort i = some p ∧ (s.mst = stPowerup ∨ s.mst = stPfail)) ∧
    (∃ (i : Instr) (s : State), commandPort i = some .na ∧ s.mst ∉ [stPowerup, stSelftest, stPfail] ∧ s.isolated 2 26 = false ∧ s.tabor = true) ∧
    (∃ (i : Instr) (s : State), commandPort i = some .nb ∧ s.tabor = true) ∧
    (∃ (i : Instr) (p : Port) (s : State), commandPort i = some p ∧ p ≠ .service ∧ s.isolated 2 26 = true ∧ s.mst ∉ [stPowerup, stSelftest, stPfail]) ∧
    (∃ (i : Instr) (s : State), commandPort i = some .service ∧ s.isolated 2 26 = true ∧ s.mst ∉ [stPowerup, stSelftest, stPfail]) :=
  ⟨⟨.recFreeze .service, .service, inSt stPowerup, by decide +kernel⟩,
   ⟨.recFreeze .na, (inSt stReady).wr modBase Reg.MOD_MODE_MODE 1, by decide +kernel⟩,
   ⟨.recFreeze .nb, (inSt stReady).wr modBase Reg.MOD_MODE_MODE 1, by decide +kernel⟩,
   ⟨.recFreeze .chainUp, .chainUp, (inSt stReady).wr (blkBase 2 26) Reg.BLK_STATE_STATE bkIsolated, by decide +kernel⟩,
   ⟨.recFreeze .service, (inSt stReady).wr (blkBase 2 26) Reg.BLK_STATE_STATE bkIsolated, by decide +kernel⟩⟩

end Sys2Proof.Machine
end

