-- ==== Sys2Proof/Proofs/WfStoresRules.lean ====
section
/-! Canonical form of the registers and the DMA memory: the rules for the ways in which the model's operations are put together. Each
operation of the model then has one lemma `WfStores.<operation>`, and a proof written with the dot, as `hs.wr.modFab.occur`, follows the
operation's own text: a branch by `ite`, or by `ifThen` and `ifElse` where one side leaves the state as it is, a repetition by `foldl`. -/

namespace Sys2Proof

open Sys2Proof.Machine

variable {s t u : State} {α β : Type}

/-- `Canonical` as a definition of its own: where two states are compared, neither unification nor the kernel looks into their stores. -/
def WfStores (s : State) : Prop := Canonical s

/-- What a step answers is in canonical form, if it is a state. -/
def NextWf (o : Host.Outcome State Fault Refusal) : Prop := ∀ t, o = .next t → WfStores t

namespace WfStores

theorem of_eq {t : State} (hs : WfStores s) (hr : t.regs = s.regs) (hm : t.q.mem = s.q.mem) : WfStores t := canonical_of_eq hs hr hm

/-! Writes of registers, from the laws of `Laws/Canonical.lean`. -/

theorem setReg {a : Nat} {v : Word} (hs : WfStores s) : WfStores (s.setReg a v) := canonical_setReg hs a v
theorem wr {b : Nat} {f : Field} {v : Nat} (hs : WfStores s) : WfStores (s.wr b f v) := canonical_wr hs b f v
theorem wrw {b : Nat} {f : Field} {v : Word} (hs : WfStores s) : WfStores (s.wrw b f v) := canonical_wrw hs b f v
theorem setFlag {b : Nat} {f : Field} {v : Bool} (hs : WfStores s) : WfStores (s.setFlag b f v) := canonical_setFlag hs b f v
theorem bumpBy {b : Nat} {f : Field} {n : Nat} (hs : WfStores s) : WfStores (s.bumpBy b f n) := canonical_bumpBy hs b f n
theorem bump {b : Nat} {f : Field} (hs : WfStores s) : WfStores (s.bump b f) := canonical_bump hs b f
theorem clearPage {id : Nat} (hs : WfStores s) : WfStores (s.clearPage id) := canonical_clearPage hs id
theorem dropPage {id : Nat} (hs : WfStores s) : WfStores (s.dropPage id) := canonical_dropPage hs id
theorem reset : WfStores State.reset := ⟨by decide, by decide⟩
theorem settle (hs : WfStores s) : WfStores s.settle := canonical_settle hs

/-! Branches, repetitions and pairs. -/

protected theorem ite {c : Prop} [Decidable c] (ht : WfStores t) (hu : WfStores u) : WfStores (if c then t else u) := by
  split
  · exact ht
  · exact hu

protected theorem pair {a : α} (hs : WfStores s) : WfStores (a, s).2 := hs

theorem iteSnd {c : Prop} [Decidable c] {p q : α × State} (hp : WfStores p.2) (hq : WfStores q.2) : WfStores (if c then p else q).2 := by
  split
  · exact hp
  · exact hq

theorem iteSnd2 {c : Prop} [Decidable c] {p q : α × β × State} (hp : WfStores p.2.2) (hq : WfStores q.2.2) :
    WfStores (if c then p else q).2.2 := by
  split
  · exact hp
  · exact hq

/-- A branch that goes on from the state of the other one. -/
theorem ifThen {c : Prop} [Decidable c] (hs : WfStores s) (ht : WfStores s → WfStores t) : WfStores (if c then t else s) := .ite (ht hs) hs

theorem ifElse {c : Prop} [Decidable c] (hs : WfStores s) (ht : WfStores s → WfStores t) : WfStores (if c then s else t) := .ite hs (ht hs)

theorem when {c : Bool} {f : State → State} (hs : WfStores s) (hf : ∀ t, WfStores t → WfStores (f t)) : WfStores (s.when c f) :=
  canonical_when hs c (hf s)

theorem foldl {f : State → α → State} {l : List α} (hs : WfStores s) (hf : ∀ t a, WfStores t → WfStores (f t a)) : WfStores (l.foldl f s) :=
  canonical_foldl f hf l s hs

theorem foldlSnd {f : α × State → β → α × State} {l : List β} {x : α × State} (hx : WfStores x.2)
    (hf : ∀ y b, WfStores y.2 → WfStores (f y b).2) : WfStores (l.foldl f x).2 := by
  induction l generalizing x with
  | nil => exact hx
  | cons b l ih => exact ih (hf x b hx)

/-- The state of a pair that has been taken apart. -/
theorem out {p : α × State} {a : α} (h : p = (a, t)) (hp : WfStores p.2) : WfStores t := by rwa [h] at hp

theorem modQ {f : QueueSt → QueueSt} (hs : WfStores s) (hf : (f s.q).mem = s.q.mem) : WfStores (s.modQ f) := of_eq hs rfl hf

/-! Changes of one part of the state that is neither the registers nor the queue block. -/

theorem withFld {x : FieldSt} (hs : WfStores s) : WfStores { s with fld := x } := of_eq hs rfl rfl
theorem withPwr {x : PowerSt} (hs : WfStores s) : WfStores { s with pwr := x } := of_eq hs rfl rfl
theorem withCan0 {x : CanSt} (hs : WfStores s) : WfStores { s with can0 := x } := of_eq hs rfl rfl
theorem withCan1 {x : CanSt} (hs : WfStores s) : WfStores { s with can1 := x } := of_eq hs rfl rfl
theorem withFree {n : Nat} (hs : WfStores s) : WfStores { s with free := n } := of_eq hs rfl rfl
theorem withPending {l : List Instr} (hs : WfStores s) : WfStores { s with pending := l } := of_eq hs rfl rfl

/-! The ends of a command. -/

theorem next (hs : WfStores s) : NextWf (.next s) := by
  rintro t ⟨⟩
  exact hs

protected theorem done (hs : WfStores s) : NextWf (done s) := hs.settle.next

end WfStores

theorem WfStores.iteNext {c : Prop} [Decidable c] {o p : Host.Outcome State Fault Refusal} (ho : NextWf o) (hp : NextWf p) :
    NextWf (if c then o else p) := by
  split
  · exact ho
  · exact hp

end Sys2Proof
end

