-- ==== Sys2Proof/Proofs/OperationsKeepStores.lean ====
section
/-! Every operation of the model keeps the registers and the DMA memory in canonical form: one lemma per operation, in the order of the model's files. -/

namespace Sys2Proof

open Sys2Proof.Machine

namespace WfStores

variable {s : State}

/-! `Machine/Ops.lean`. -/

theorem emit {o : Output} (hs : WfStores s) : WfStores (s.emit o) := .of_eq hs rfl rfl

theorem answer {p : Port} {c : Code} (hs : WfStores s) : WfStores (s.answer p c) := hs.emit

theorem draw (hs : WfStores s) : WfStores s.draw.2 := .of_eq hs rfl rfl

theorem drawOutcome (hs : WfStores s) : WfStores s.drawOutcome.2 := .of_eq hs rfl rfl

theorem modFab {f : FabricSt → FabricSt} (hs : WfStores s) : WfStores (s.modFab f) := .of_eq hs rfl rfl

theorem modImg {f : ImageSt → ImageSt} (hs : WfStores s) : WfStores (s.modImg f) := .of_eq hs rfl rfl

theorem modToc {f : TocsinSt → TocsinSt} (hs : WfStores s) : WfStores (s.modToc f) := .of_eq hs rfl rfl

theorem modChain {f : ChainSt → ChainSt} (hs : WfStores s) : WfStores (s.modChain f) := .of_eq hs rfl rfl

theorem modNet {f : NetSt → NetSt} (hs : WfStores s) : WfStores (s.modNet f) := .of_eq hs rfl rfl

theorem modTime {f : TimeSt → TimeSt} (hs : WfStores s) : WfStores (s.modTime f) := .of_eq hs rfl rfl

theorem modJrn {f : JournalSt → JournalSt} (hs : WfStores s) : WfStores (s.modJrn f) := .of_eq hs rfl rfl

theorem modRec {f : RecSt → RecSt} (hs : WfStores s) : WfStores (s.modRec f) := .of_eq hs rfl rfl

theorem modPnl {f : PanelSt → PanelSt} (hs : WfStores s) : WfStores (s.modPnl f) := .of_eq hs rfl rfl

theorem modPwr {f : PowerSt → PowerSt} (hs : WfStores s) : WfStores (s.modPwr f) := .of_eq hs rfl rfl

theorem modTab {f : TaborSt → TaborSt} (hs : WfStores s) : WfStores (s.modTab f) := .of_eq hs rfl rfl

theorem modMgmt {f : MgmtSt → MgmtSt} (hs : WfStores s) : WfStores (s.modMgmt f) := .of_eq hs rfl rfl

theorem notice {kind : AlarmKind} {source new key : Nat} (hs : WfStores s) : WfStores (s.notice kind source new key) := .ite hs.modTab hs

theorem goMst {n : Nat} (hs : WfStores s) : WfStores (s.goMst n) := hs.wr.wr.ifElse fun hs => hs.notice

theorem modCell {id : Nat} {f : CellSt → CellSt} (hs : WfStores s) : WfStores (s.modCell id f) := hs.modFab

theorem modUc {n : Nat} {f : UcSt → UcSt} (hs : WfStores s) : WfStores (s.modUc n f) := .of_eq hs rfl rfl

theorem modDp {n : Nat} {f : DpSt → DpSt} (hs : WfStores s) : WfStores (s.modDp n f) := .of_eq hs rfl rfl

theorem modAx {n : Nat} {f : AxSt → AxSt} (hs : WfStores s) : WfStores (s.modAx n f) := .of_eq hs rfl rfl

theorem modMb {n : Nat} {f : MbxSt → MbxSt} (hs : WfStores s) : WfStores (s.modMb n f) := .of_eq hs rfl rfl

theorem modFc {n : Nat} {f : FcSt → FcSt} (hs : WfStores s) : WfStores (s.modFc n f) := hs.modFab

theorem modLp {n : Nat} {f : LoopSt → LoopSt} (hs : WfStores s) : WfStores (s.modLp n f) := hs.modFab

theorem modPh {n : Nat} {f : PhasorSt → PhasorSt} (hs : WfStores s) : WfStores (s.modPh n f) := hs.modFab

theorem modCan {c : Fin 2} {f : CanSt → CanSt} (hs : WfStores s) : WfStores (s.modCan c f) := .ite hs.withCan0 hs.withCan1

theorem modPath {p : Path} {f : PathSt → PathSt} (hs : WfStores s) : WfStores (s.modPath p f) := by
  unfold State.modPath
  split <;> exact hs.modNet

theorem modQp {n : Nat} {f : QpSt → QpSt} (hs : WfStores s) : WfStores (s.modQp n f) := hs.modQ rfl

theorem setNow32 {t : Nat} (hs : WfStores s) : WfStores (s.setNow32 t) := hs.modTime

theorem advance {n : Nat} (hs : WfStores s) : WfStores (s.advance n) := hs.setNow32.modTime

/-! `Machine/Operands.lean`. -/

theorem setSig {sigid : Nat} {w : SigWord} (hs : WfStores s) : WfStores (s.setSig sigid w) := hs.modFab

theorem noteInput {id n : Nat} {i : Input} (hs : WfStores s) : WfStores (s.noteInput id n i) := hs.when fun _ hs => hs.modCell

theorem hold {id port : Nat} {w : SigWord} (hs : WfStores s) : WfStores (s.hold id port w) := hs.modFab

theorem dropHeld {id : Nat} (hs : WfStores s) : WfStores (s.dropHeld id) := hs.modFab

/-! `Machine/Cells.lean`. -/

theorem loopCst {id was n : Nat} (hs : WfStores s) : WfStores (s.loopCst id was n) := .ite hs.modLp hs

theorem syncOff {g : Nat} (hs : WfStores s) : WfStores (s.syncOff g) := .ite hs hs.wr.modPh

theorem endPermit {g next : Nat} (hs : WfStores s) : WfStores (s.endPermit g next) := by
  unfold State.endPermit
  refine .modPh (.wr (.bump (.setFlag ?_)))
  split
  · exact hs.modDp
  · exact hs

theorem startPh {id : Nat} {keep : Bool} (hs : WfStores s) : WfStores (s.startPh id keep) := hs.wrw.setFlag.wr.modPh

theorem phCst {id was n : Nat} (hs : WfStores s) : WfStores (s.phCst id was n) :=
  .ite (((hs.setFlag.when fun _ hs => hs.endPermit).ifElse fun hs => hs.syncOff).when fun _ hs => hs.startPh) hs

theorem setComparator {n c : Nat} {v : Bool} (hs : WfStores s) : WfStores (s.setComparator n c v) := hs.setFlag.ifThen fun hs => hs.notice

theorem ucCst {id n : Nat} (hs : WfStores s) : WfStores (s.ucCst id n) := .ite hs.setComparator.setComparator.modUc hs

theorem dpCst {id n : Nat} (hs : WfStores s) : WfStores (s.dpCst id n) := .ite hs.setFlag.setFlag.setFlag hs

theorem setCst {id n : Nat} (hs : WfStores s) : WfStores (s.setCst id n) := by
  unfold State.setCst
  refine .ite ?_ ?_
  · exact (hs.wr.loopCst.phCst.ucCst.dpCst.when fun _ hs => hs.setFlag).modCell
  · exact (hs.wr.loopCst.phCst.ucCst.dpCst.when fun _ hs => hs.setFlag).ifThen fun hs => hs.modCell

theorem takeSafe {id : Nat} (hs : WfStores s) : WfStores (s.takeSafe id) := .ite hs (hs.wr.ifElse fun hs => hs.setCst)

theorem releaseSafe {id : Nat} (hs : WfStores s) : WfStores (s.releaseSafe id) := .ite (hs.wr.ifThen fun hs => hs.setCst) hs

theorem toRecover {id : Nat} (hs : WfStores s) : WfStores (s.toRecover id) := hs.setCst.ifThen fun hs => hs.takeSafe

theorem enterFault {id : Nat} {cause : Bool} (hs : WfStores s) : WfStores (s.enterFault id cause) :=
  (hs.setCst.setFlag.bump.modCell.when fun _ hs => hs.setFlag).dropHeld

theorem againFault {id : Nat} {cause : Bool} (hs : WfStores s) : WfStores (s.againFault id cause) := hs.modCell

theorem isolateCell {id : Nat} {cause : Bool} (hs : WfStores s) : WfStores (s.isolateCell id cause) := .ite hs.enterFault (.ite hs.againFault hs)

theorem evalEnd {id : Nat} {err : Bool} (hs : WfStores s) : WfStores (s.evalEnd id err) :=
  hs.modCell.ifThen fun hs => hs.bump.ifThen fun hs => hs.modCell.isolateCell

theorem setCause {id : Nat} {present : Bool} (hs : WfStores s) : WfStores (s.setCause id present) := hs.modCell

theorem modBlk {r b : Nat} {f : BlockSt → BlockSt} (hs : WfStores s) : WfStores (s.modBlk r b f) := hs.modFab

theorem isolateBlock {r b : Nat} {cause : Bool} (hs : WfStores s) : WfStores (s.isolateBlock r b cause) := by
  unfold State.isolateBlock
  refine .ite ?_ ?_
  · exact hs.modBlk
  · exact (hs.wr.when fun _ hs => hs.setFlag).modBlk.foldl fun _ _ hs => .ite hs.againFault hs.enterFault

theorem countBlockError {r b : Nat} (hs : WfStores s) : WfStores (s.countBlockError r b).2 := hs.bump.modBlk

theorem unforce {id : Nat} (hs : WfStores s) : WfStores (s.unforce id) := hs.modCell.wr.when fun _ hs => hs.wr

theorem leaveService (hs : WfStores s) : WfStores s.leaveService :=
  (hs.foldl fun _ _ hs => .ifThen (.ite hs hs.unforce) fun hs => hs.toRecover).modFab

/-! `Machine/Occur.lean`. -/

theorem occur {src index : Nat} {mag : Rat} {key sig : Nat} (hs : WfStores s) : WfStores (s.occur src index mag key sig) := .ite hs.bump hs.modRec

/-! `Machine/Blocks.lean`. -/

theorem modBank {b : Bool} {f : Bank → Bank} (hs : WfStores s) : WfStores (s.modBank b f) := hs.modImg

theorem setRec_ {n : Nat} (hs : WfStores s) : WfStores (s.setRec_ n) := hs.wr

theorem showLog (hs : WfStores s) : WfStores s.showLog := hs.wr.wr

theorem recShrink {b : Nat} (hs : WfStores s) : WfStores (s.recShrink b) :=
  (hs.when fun _ hs => hs.setFlag).bumpBy.modRec.showLog.ifThen fun hs => hs.setRec_

theorem setPhys {b p : Nat} (hs : WfStores s) : WfStores (s.setPhys b p) := hs.modJrn

theorem showWear (hs : WfStores s) : WfStores s.showWear := hs.wrw.wrw

theorem setWear {b n : Nat} (hs : WfStores s) : WfStores (s.setWear b n) := hs.modJrn

theorem wearBlocks {blocks : List Nat} (hs : WfStores s) : WfStores (s.wearBlocks blocks) := (hs.foldl fun _ _ hs => hs.setWear).showWear

theorem dropBlock {b : Nat} (hs : WfStores s) : WfStores (s.dropBlock b) := hs.modJrn

theorem countRetire (hs : WfStores s) : WfStores s.countRetire := hs.bump.bump.occur

theorem degrade (hs : WfStores s) : WfStores s.degrade := .ite hs hs.setFlag.setFlag.setFlag.modBank.modImg.occur

theorem replaceBlock {b p n : Nat} (hs : WfStores s) : WfStores (s.replaceBlock b p n) := hs.setPhys.setWear.modJrn.countRetire.showWear

theorem donate {b donor p n : Nat} (hs : WfStores s) : WfStores (s.donate b donor p n) := .ite hs.countRetire.showWear hs.replaceBlock

theorem retire {b : Nat} (hs : WfStores s) : WfStores (s.retire b) := by
  unfold State.retire
  refine .ite (hs.wr.replaceBlock.ifThen fun hs => hs.setFlag.setFlag.occur) ?_
  refine .ite hs.dropBlock.wr.recShrink.donate ?_
  split
  · exact hs.dropBlock.wr.degrade.donate
  · exact hs.modJrn

theorem nvWrite {blocks : List Nat} {o : NvOutcome} (hs : WfStores s) : WfStores (s.nvWrite blocks o).2 := by
  unfold State.nvWrite
  refine .iteSnd hs ?_
  refine .iteSnd hs.bumpBy.wearBlocks.modJrn ?_
  refine .iteSnd hs.bumpBy.wearBlocks.modJrn ?_
  refine .iteSnd ?_ ?_
  · exact (hs.bumpBy.wearBlocks.modJrn.foldl fun _ _ hs => hs.retire).wearBlocks
  · exact .pair (hs.bumpBy.wearBlocks.modJrn.foldl fun _ _ hs => hs.retire)

theorem setPend {l : List Nat} (hs : WfStores s) : WfStores (s.setPend l) := hs.modJrn.wr

theorem applyPend {n : Nat} {o : NvOutcome} (hs : WfStores s) : WfStores (s.applyPend n o) := hs.nvWrite.modJrn.setPend

theorem commitTxn {homes : List Nat} {o : NvOutcome} (hs : WfStores s) : WfStores (s.commitTxn homes o).2 := by
  unfold State.commitTxn
  refine .iteSnd hs ?_
  dsimp only
  split
  · next heq => exact .out heq (hs.when fun _ hs => hs.applyPend).nvWrite
  · next heq => exact .setPend (.modJrn (.out heq (hs.when fun _ hs => hs.applyPend).nvWrite))

protected theorem journaled {homes : List Nat} {o : NvOutcome} {f : State → Code × State}
    (hs : WfStores s) (hf : ∀ t, WfStores t → WfStores (f t).2) : WfStores (journaled homes o f s).2 :=
  .iteSnd (hf _ hs) (.iteSnd (hf _ hs.commitTxn) hs.commitTxn)

/-! `Machine/Settle.lean`. -/

protected theorem command {p : Port} {f : State → Code × State} (hs : WfStores s) (hf : ∀ t, WfStores t → WfStores (f t).2) :
    NextWf (command p f s) := by
  unfold command
  split
  · exact hs.done
  · exact hs.answer.done
  · exact hs.answer.done
  · exact (hf _ hs).answer.done

protected theorem commandHeld {p : Port} {f : State → Option Code × State} (hs : WfStores s) (hf : ∀ t, WfStores t → WfStores (f t).2) :
    NextWf (commandHeld p f s) := by
  unfold commandHeld
  split
  · exact hs.done
  · exact hs.answer.done
  · exact hs.answer.done
  · refine .done ?_
    split
    · exact (hf _ hs).answer
    · exact hf _ hs

/-! `Machine/Field.lean`. -/

theorem startToRun {id : Nat} (hs : WfStores s) : WfStores (s.startToRun id) := .ite hs.setCst hs

/-! `Machine/Axes.lean`. -/

theorem setAxf {n : Nat} {f : Field} {v : Bool} (hs : WfStores s) : WfStores (s.setAxf n f v) := hs.setFlag

theorem setAxPos {n : Nat} {x : Int} (hs : WfStores s) : WfStores (s.setAxPos n x) := hs.wrw

theorem posFromEnc {n : Nat} (hs : WfStores s) : WfStores (s.posFromEnc n) := hs.setAxPos.modAx

theorem latchEnc {n : Nat} (hs : WfStores s) : WfStores (s.latchEnc n) := hs.modAx

theorem stopAx {n : Nat} {p : StopPlan} (hs : WfStores s) : WfStores (s.stopAx n p) := hs.modAx

theorem failHoming {n cause : Nat} (hs : WfStores s) : WfStores (s.failHoming n cause) := .ite hs.wr.wr.wr.setAxf.setAxf.bump.modAx.stopAx hs

theorem showSpeed {n : Nat} {old new : Rat} (hs : WfStores s) : WfStores (s.showSpeed n old new) :=
  (hs.setAxf.setAxf.wr.setAxf.when fun _ hs => hs.setAxf).wrw

theorem showLimits {n : Nat} (hs : WfStores s) : WfStores (s.showLimits n) := hs.setAxf.setAxf.setAxf.modAx.setAxf

theorem loadAxRegs {n : Nat} (hs : WfStores s) : WfStores (s.loadAxRegs n) :=
  hs.setFlag.setFlag.setFlag.setFlag.setFlag.wr.wr.wrw.wrw.wrw.wrw.wrw.wrw.wrw.showLimits

theorem latchIfUnhomed {n : Nat} (hs : WfStores s) : WfStores (s.latchIfUnhomed n) := .ite hs hs.latchEnc

theorem adoptAx {n : Nat} (hs : WfStores s) : WfStores (s.adoptAx n) := .ite hs.modAx.loadAxRegs.latchIfUnhomed hs

theorem bridgesOff {n : Nat} (hs : WfStores s) : WfStores (s.bridgesOff n) := .ite (hs.modAx.when fun _ hs => hs.setAxf).setAxf.showSpeed.adoptAx hs

theorem bridgesOn {n : Nat} (hs : WfStores s) : WfStores (s.bridgesOn n) := .ite hs (.setAxf (.modAx (.ite hs.posFromEnc hs)))

theorem setTarget {n : Nat} {t : Int} {p : StopPlan} (hs : WfStores s) : WfStores (s.setTarget n t p) := hs.wrw.ifElse fun hs => hs.modAx.setAxf

theorem stopSafe {n : Nat} (hs : WfStores s) : WfStores (s.stopSafe n) := .ite hs hs.stopAx

theorem safeStop {n : Nat} (hs : WfStores s) : WfStores (s.safeStop n) := .ite (.setTarget (.ite hs hs.modAx)) hs.stopSafe

theorem resumeSafe {n : Nat} (hs : WfStores s) : WfStores (s.resumeSafe n) := .ite hs.safeStop hs

theorem driveAx {n : Nat} (hs : WfStores s) : WfStores (s.driveAx n) := by
  unfold State.driveAx
  refine .ite ?_ ?_
  · exact hs
  · exact (((hs.setAxf.ifElse fun hs => .ite hs.failHoming (.ite hs.failHoming (.ite hs.failHoming (.ite hs.failHoming hs)))).when
      fun _ hs => hs.bridgesOff).setAxf.when fun _ hs => hs.modAx).ifThen fun hs => hs.bridgesOn.safeStop

theorem atRest {n : Nat} (hs : WfStores s) : WfStores (s.atRest n) := (hs.modAx.adoptAx.ifThen fun hs => hs.wr).ifThen fun hs => hs.posFromEnc.setAxf

theorem travel {n : Nat} {old new : Rat} (hs : WfStores s) : WfStores (s.travel n old new) := hs.setAxPos.modAx

theorem readEnc {n : Nat} {c : Word} (hs : WfStores s) : WfStores (s.readEnc n c) := (hs.wrw.modAx.when fun _ hs => hs.setAxf).wrw

theorem resumeHoming {n : Nat} (hs : WfStores s) : WfStores (s.resumeHoming n) := .ite hs.modAx.wr hs

protected theorem execProfileUpdate {ax : Fin 4} {enc : Word} (hs : WfStores s) : NextWf (execProfileUpdate ax enc s) := by
  unfold execProfileUpdate
  refine .done ?_
  refine .ite hs ?_
  refine .ifThen ?_ fun hs => hs.readEnc
  refine .ite ?_ ?_
  · exact .showSpeed (.ifThen (.modAx (.ite hs.resumeHoming.resumeSafe.setAxPos.modAx (hs.resumeHoming.resumeSafe.ifElse fun hs => hs.travel)))
      fun hs => hs.atRest)
  · exact hs

protected theorem decideRateWrite {who : Option Port} {n : Nat} {writes : List (Nat × Word)} (hs : WfStores s) :
    WfStores (decideRateWrite who n writes s).2 :=
  .iteSnd hs (.iteSnd hs (.iteSnd hs hs.modAx))

protected theorem execAxisRateWrite {p : Port} {ax : Fin 4} {writes : List (Nat × Word)} (hs : WfStores s) :
    NextWf (execAxisRateWrite p ax writes s) :=
  hs.commandHeld fun _ hs => hs.decideRateWrite

theorem rateDecision {n : Nat} {writes : List (Nat × Word)} (hs : WfStores s) : WfStores (s.rateDecision n writes).2 := by
  unfold State.rateDecision
  refine .iteSnd ?_ ?_
  · exact .iteSnd hs (.iteSnd (hs.foldl fun _ _ hs => hs.setReg).modAx (.pair (hs.foldl fun _ _ hs => hs.setReg)))
  · exact .pair ((hs.foldl fun _ _ hs => hs.setReg).when fun _ hs => hs.modAx.setAxf)

theorem applyRates {n : Nat} (hs : WfStores s) : WfStores (s.applyRates n) := by
  unfold State.applyRates
  refine hs.modAx.foldl ?_
  intro _ _ hs
  dsimp only
  split
  · exact hs.rateDecision.answer
  · exact hs.rateDecision

protected theorem execHoldCurrent {ax : Fin 4} (hs : WfStores s) : NextWf (execHoldCurrent ax s) := .done (.ite hs.setAxf hs)

theorem limitStop {n : Nat} (hs : WfStores s) : WfStores (s.limitStop n) := .ite hs.stopAx.modAx.setAxf.bump hs

theorem noteAxCause {n : Nat} (hs : WfStores s) : WfStores (s.noteAxCause n) := .ite hs.setCause hs

theorem wrongLimit {n : Nat} {i : AxisInput} (hs : WfStores s) : WfStores (s.wrongLimit n i) := by
  unfold State.wrongLimit
  refine .ite hs ?_
  split
  · exact hs.failHoming
  · exact hs.failHoming
  · exact hs.failHoming
  · exact hs.failHoming
  · exact hs.failHoming
  · exact hs.failHoming
  · exact hs

protected theorem execLimitInputChange {ax : Fin 4} {i : AxisInput} {on withinLwin thirdInLwin : Bool} (hs : WfStores s) :
    NextWf (execLimitInputChange ax i on withinLwin thirdInLwin s) :=
  (hs.modAx.ifElse fun hs => hs.showLimits.ifElse fun hs => .ifThen (.when (.ite hs.wrongLimit.limitStop hs) fun _ hs => hs.bump.setAxf.modAx)
    fun hs => hs.modAx.isolateCell.noteAxCause.driveAx).done

protected theorem execLimitChatterClear {ax : Fin 4} {i : AxisInput} (hs : WfStores s) : NextWf (execLimitChatterClear ax i s) :=
  (hs.modAx.when fun _ hs => hs.setAxf.modAx).noteAxCause.done

protected theorem decideHomingGo {n : Nat} (hs : WfStores s) : WfStores (decideHomingGo n s).2 :=
  .iteSnd hs (.iteSnd hs (.iteSnd hs (.iteSnd hs (.iteSnd hs (.iteSnd hs hs.modAx)))))

protected theorem execHomingGo {p : Port} {ax : Fin 4} (hs : WfStores s) : NextWf (execHomingGo p ax s) := hs.command fun _ hs => hs.decideHomingGo

protected theorem decideHomingAbort {n : Nat} (hs : WfStores s) : WfStores (decideHomingAbort n s).2 := .iteSnd hs.failHoming hs

protected theorem execHomingAbort {p : Port} {ax : Fin 4} (hs : WfStores s) : NextWf (execHomingAbort p ax s) :=
  hs.command fun _ hs => hs.decideHomingAbort

theorem takeReference {n : Nat} (hs : WfStores s) : WfStores (s.takeReference n) :=
  hs.wrw.setAxPos.wrw.modAx.latchEnc.showSpeed.wr.wr.wr.setAxf.setAxf

theorem startHoming {n : Nat} (hs : WfStores s) : WfStores (s.startHoming n) := .ite (hs.modAx.wr.wr.wr.setAxf.ifThen fun hs => hs.takeReference) hs

protected theorem execHomingSwitchFound {ax : Fin 4} (hs : WfStores s) : NextWf (execHomingSwitchFound ax s) :=
  .done (.ite hs (.ite (.ite hs.stopAx.wr hs) (.ite hs.modAx.showSpeed.wr hs)))

theorem nextHomeStep {n : Nat} (hs : WfStores s) : WfStores (s.nextHomeStep n) := .ite hs.wr hs.modAx.showSpeed

protected theorem execHomingRestEnd {ax : Fin 4} (hs : WfStores s) : NextWf (execHomingRestEnd ax s) := .done (.ite hs.nextHomeStep hs)

protected theorem execHomingReferenceEdge {ax : Fin 4} (hs : WfStores s) : NextWf (execHomingReferenceEdge ax s) :=
  .done (.ite hs (.ite hs.takeReference (.ite (.ite hs (.ite hs.nextHomeStep hs.takeReference)) hs)))

protected theorem execHomingTimeout {ax : Fin 4} (hs : WfStores s) : NextWf (execHomingTimeout ax s) := hs.failHoming.done

protected theorem execHomingNoIndex {ax : Fin 4} (hs : WfStores s) : NextWf (execHomingNoIndex ax s) := .done (.ite hs.failHoming hs)

theorem encErr {n : Nat} (hs : WfStores s) : WfStores (s.encErr n) := .ite hs.setAxf.bump.modAx hs

protected theorem execEncoderError {e : EncoderFault} (hs : WfStores s) : NextWf (execEncoderError e s) := by
  unfold execEncoderError
  refine .done ?_
  split
  · exact hs.encErr
  · exact hs.encErr.encErr

protected theorem execStall {ax : Fin 4} (hs : WfStores s) : NextWf (execStall ax s) :=
  .done (.ite (hs.setAxf.bump.ifThen fun hs => .ifThen (.ite hs hs.stopSafe) fun hs => hs.atRest) hs)

protected theorem execStallClear {ax : Fin 4} (hs : WfStores s) : NextWf (execStallClear ax s) := .done (.ite hs.setAxf hs)

protected theorem execChopsat {ax : Fin 4} {cycles : Option ChopCycle × Option ChopCycle} {held : Bool × Bool} (hs : WfStores s) :
    NextWf (execChopsat ax cycles held s) :=
  .done (.ite hs.modAx.modAx.wr.wr.setAxf hs)

theorem showMs {mb : Nat} (hs : WfStores s) : WfStores (s.showMs mb) := hs.setFlag

protected theorem execMotorSupplyConditionSet {mb : Fin 2} {c : MsCond} {volts : Word} (hs : WfStores s) :
    NextWf (execMotorSupplyConditionSet mb c volts s) := by
  unfold execMotorSupplyConditionSet
  refine .done ?_
  refine .foldl ?_ fun _ _ hs => hs.driveAx
  refine .showMs ?_
  split <;> exact hs.wrw.ifElse fun hs => hs.setFlag.bump

protected theorem execMotorSupplyConditionClear {mb : Fin 2} {c : MsCond} {volts : Word} (hs : WfStores s) :
    NextWf (execMotorSupplyConditionClear mb c volts s) := by
  unfold execMotorSupplyConditionClear
  refine .done ?_
  refine .foldl ?_ fun _ _ hs => hs.driveAx
  refine .showMs ?_
  split <;> exact hs.wrw.ifElse fun hs => hs.setFlag

protected theorem execAxisFault {ax : Fin 4} {k : AxisFaultKind} (hs : WfStores s) : NextWf (execAxisFault ax k s) := by
  unfold execAxisFault
  refine .done ?_
  refine .ifElse ?_ fun hs => .ite hs.isolateCell.setAxf.noteAxCause.driveAx hs.noteAxCause
  split
  · exact hs.modAx
  · exact hs

theorem takeAxCommand {n : Nat} (hs : WfStores s) : WfStores (s.takeAxCommand n) := by
  unfold State.takeAxCommand
  refine .ite hs ?_
  refine .ite ?_ ?_
  · refine .ifElse ?_ fun hs => hs.setAxf.safeStop
    refine .modAx ?_
    split
    · exact hs.noteInput
    · exact hs
  · refine .ite ?_ ?_
    · refine .setAxf (.modAx (.setAxf (.modAx ?_)))
      split
      · exact hs.noteInput
      · exact hs
    · refine .setTarget (.modAx (.setAxf (.modAx ?_)))
      split
      · exact hs.noteInput
      · exact hs

theorem homeReqEdge {n : Nat} (hs : WfStores s) : WfStores (s.homeReqEdge n) := by
  unfold State.homeReqEdge
  dsimp only
  split
  · exact hs
  · exact hs.noteInput.modAx.ifThen fun hs => .ite hs.decideHomingGo hs.bump

theorem publishAx {n : Nat} (hs : WfStores s) : WfStores (s.publishAx n) := (hs.hold.hold.ifThen fun hs => hs.hold).hold.modCell

theorem closeAx {n : Nat} (hs : WfStores s) : WfStores (s.closeAx n) := .ite hs (.publishAx (.ite hs hs.evalEnd.startToRun.modAx))

theorem energiseAx {n : Nat} (hs : WfStores s) : WfStores (s.energiseAx n) := .ite hs.bridgesOn hs

theorem startAx {id : Nat} {c : StartCause} {old : List Record} {sameRef : Bool} (hs : WfStores s) : WfStores (s.startAx id c old sameRef) := by
  unfold State.startAx
  dsimp only
  split
  · exact hs.modAx.loadAxRegs.latchEnc.driveAx
  · exact ((hs.modAx.failHoming.modAx.modAx.ifElse fun hs => hs.setAxf).ifElse fun hs => hs.loadAxRegs.latchIfUnhomed).driveAx
  · exact hs.modAx.latchIfUnhomed.showLimits.driveAx

/-! `Machine/FuncCells.lean`. -/

theorem startFc {id : Nat} (hs : WfStores s) : WfStores (s.startFc id) := hs.wr.wr.wr.wrw.wrw.wrw.wrw.wr.modFc

theorem evalFc {id : Nat} (hs : WfStores s) : WfStores (s.evalFc id) := by
  unfold State.evalFc
  dsimp only
  split
  · exact ((hs.foldl fun _ _ hs => hs.noteInput).modCell.modFc.foldl fun _ _ hs => hs.hold).evalEnd
  · refine .evalEnd ?_
    split <;> exact (hs.foldl fun _ _ hs => hs.noteInput).modCell.hold

/-! `Machine/Channels.lean`. -/

theorem loadTrim {n : Nat} (hs : WfStores s) : WfStores (s.loadTrim n) := by
  unfold State.loadTrim
  dsimp only
  split <;> exact hs.wrw.wrw.setFlag

theorem driveUc {n : Nat} (hs : WfStores s) : WfStores (s.driveUc n) := by
  unfold State.driveUc
  refine .ite hs ?_
  split
  · exact hs.wrw.wrw.modUc
  · exact .ite hs hs.wrw.wrw.modUc

theorem takeUcCommand {n : Nat} (hs : WfStores s) : WfStores (s.takeUcCommand n) := by
  unfold State.takeUcCommand
  refine .ite hs ?_
  split
  · exact hs
  · exact hs.noteInput.modUc

theorem enterSensor {n : Nat} (hs : WfStores s) : WfStores (s.enterSensor n) := .ite hs hs.bump.modUc

theorem leaveSensor {n : Nat} (hs : WfStores s) : WfStores (s.leaveSensor n) := hs.setFlag.setFlag.wr.modUc

theorem trackSensor {n : Nat} {raw e : Rat} {openLead atLimit : Bool} (hs : WfStores s) : WfStores (s.trackSensor n raw e openLead atLimit) :=
  (((((hs.modUc.when fun _ hs => hs.setFlag).when fun _ hs => hs.setFlag).when fun _ hs => hs.wr).when fun _ hs => hs.wr).when
    fun _ hs => hs.enterSensor).ifThen fun hs => hs.leaveSensor

theorem compareUc {n : Nat} {v : Rat} (hs : WfStores s) : WfStores (s.compareUc n v) :=
  .ite hs (.ite hs.setComparator.setComparator hs.setComparator.setComparator.modUc)

theorem inputResult {n : Nat} {ew aux cj : Word} {openLead atLimit : Bool} (hs : WfStores s) :
    WfStores (s.inputResult n ew aux cj openLead atLimit) :=
  hs.setFlag.wrw.modUc.trackSensor.modUc.compareUc

theorem readbackResult {n : Nat} {ew : Word} (hs : WfStores s) : WfStores (s.readbackResult n ew) :=
  (hs.modUc.ifThen fun hs => hs.leaveSensor).modUc.compareUc

protected theorem execConverterResult {uc : Fin 32} {e aux cj : Word} {openLead atLimit : Bool} (hs : WfStores s) :
    NextWf (execConverterResult uc e aux cj openLead atLimit s) :=
  .done (.ite hs (.ite hs.readbackResult hs.inputResult))

protected theorem execBurnOutTest {uc : Fin 32} {isOpen : Bool} (hs : WfStores s) : NextWf (execBurnOutTest uc isOpen s) :=
  .done (.ite hs (.ite hs.setFlag.enterSensor.modUc (.ite hs.leaveSensor hs)))

protected theorem execReferenceSelfCheck {uc : Fin 32} {ok : Bool} (hs : WfStores s) : NextWf (execReferenceSelfCheck uc ok s) :=
  .done (.ite hs hs.modUc.evalEnd.driveUc)

protected theorem execComplianceSample {uc : Fin 32} {hdrLow : Bool} {readback : Word} (hs : WfStores s) :
    NextWf (execComplianceSample uc hdrLow readback s) :=
  .done (.ite hs hs.setFlag.modUc)

protected theorem execComplianceEntry {uc : Fin 32} (hs : WfStores s) : NextWf (execComplianceEntry uc s) := .done (.ite hs.setFlag.bump.occur hs)

protected theorem execComplianceExit {uc : Fin 32} (hs : WfStores s) : NextWf (execComplianceExit uc s) := .done (.ite hs.setFlag hs)

protected theorem execOutputOpenLoop {uc : Fin 32} (hs : WfStores s) : NextWf (execOutputOpenLoop uc s) := .done (.ite hs.setFlag.enterSensor hs)

protected theorem execOutputStageFault {uc : Fin 32} (hs : WfStores s) : NextWf (execOutputStageFault uc s) :=
  .done (.ite hs.modUc.isolateCell.driveUc hs)

protected theorem execChannelSupplyFailure {uc : Fin 32} {f : SupplyFault} (hs : WfStores s) : NextWf (execChannelSupplyFailure uc f s) :=
  .done (.ite hs (.ite hs.modUc.isolateCell.driveUc (hs.when fun _ hs => hs.setCause)))

protected theorem execHartPoll {uc : Fin 32} {dev : Fin 4} (hs : WfStores s) : NextWf (execHartPoll uc dev s) :=
  .done (.ite (hs.when fun _ hs => hs.emit.modUc).emit hs)

protected theorem execHartReply {uc : Fin 32} {dev : Fin 4} {r : HartReply} (hs : WfStores s) : NextWf (execHartReply uc dev r s) := by
  unfold execHartReply
  refine .done ?_
  refine .ite hs ?_
  refine (hs.bumpBy.when fun _ hs => hs.modUc).foldl ?_
  intro _ _ hs
  split
  · exact hs
  · exact hs.modUc

protected theorem execHartNoReply {uc : Fin 32} {dev : Fin 4} {badFrames : BitVec 2} (hs : WfStores s) :
    NextWf (execHartNoReply uc dev badFrames s) :=
  .done (.ite hs (hs.bump.bumpBy.modUc.foldl fun _ _ hs => hs.modUc))

theorem sendHart {n : Nat} (hs : WfStores s) : WfStores (s.sendHart n) := by
  unfold State.sendHart
  split
  · exact .ite hs.emit.modUc hs
  · exact hs

protected theorem decideHartRequest {n : Nat} {req : Option Word} {data : List (Fin 8 × Word)} (hs : WfStores s) :
    WfStores (decideHartRequest n req data s).2 := by
  have hd : WfStores (data.foldl (fun s d => s.setReg (cellBase (ucId n) + 0x68 + 4 * d.1.val) d.2) s) := hs.foldl fun _ _ hs => hs.setReg
  unfold decideHartRequest
  refine .iteSnd hs ?_
  cases req with
  | none => exact .iteSnd hs hd
  | some w =>
    refine .iteSnd (.iteSnd hs (.iteSnd hs ?_)) (.iteSnd hs (.iteSnd hs (.iteSnd hs (.iteSnd hs ?_))))
    · exact hd.setReg
    · exact hd.setReg.wr.modUc.sendHart

protected theorem execHartRequest {p : Port} {uc : Fin 32} {req : Word} {data : List (Fin 8 × Word)} (hs : WfStores s) :
    NextWf (execHartRequest p uc req data s) :=
  hs.command fun _ hs => hs.decideHartRequest

protected theorem execHartPassThroughComplete {uc : Fin 32} {frames : HartFrames} {rc dstat : Byte} {data : List Byte} (hs : WfStores s) :
    NextWf (execHartPassThroughComplete uc frames rc dstat data s) :=
  .done (.ite hs (.ite (hs.bumpBy.foldl fun _ _ hs => hs.setReg).wr.wr.wr.wr hs.bumpBy.wr))

theorem setCaps {n : Nat} {lo hi : Option (Word × Word)} (hs : WfStores s) : WfStores (s.setCaps n lo hi) := hs.setFlag.setFlag.modUc

theorem trimPoint {n : Nat} (hs : WfStores s) : WfStores (s.trimPoint n).2 := .iteSnd hs (.iteSnd hs.draw hs)

theorem trimEffect {n : Nat} {op : TrimOp} (hs : WfStores s) : WfStores (s.trimEffect n op) := by
  unfold State.trimEffect
  dsimp only
  split
  · exact hs
  · exact hs.trimPoint.setCaps
  · exact hs.trimPoint.setCaps
  · split
    · split
      · exact hs.modJrn.setCaps
      · exact hs
    · exact hs
  · exact hs.modJrn
  · exact hs.setCaps

protected theorem decideTrim {p : Port} {n : Nat} {op : TrimOp} (hs : WfStores s) : WfStores (decideTrim p n op s).2 := by
  unfold decideTrim
  refine .iteSnd hs ?_
  refine .iteSnd hs ?_
  split
  · exact hs
  · exact hs.trimEffect

protected theorem execTrimCaplo {p : Port} {uc : Fin 32} (hs : WfStores s) : NextWf (execTrimCaplo p uc s) := hs.command fun _ hs => hs.decideTrim

protected theorem execTrimCaphi {p : Port} {uc : Fin 32} (hs : WfStores s) : NextWf (execTrimCaphi p uc s) := hs.command fun _ hs => hs.decideTrim

protected theorem execTrimApply {p : Port} {uc : Fin 32} {o : NvOutcome} (hs : WfStores s) : NextWf (execTrimApply p uc o s) :=
  hs.command fun _ hs => hs.journaled fun _ hs => hs.decideTrim

protected theorem execTrimClear {p : Port} {uc : Fin 32} {o : NvOutcome} (hs : WfStores s) : NextWf (execTrimClear p uc o s) :=
  hs.command fun _ hs => hs.journaled fun _ hs => hs.decideTrim

protected theorem execTrimDiscard {p : Port} {uc : Fin 32} (hs : WfStores s) : NextWf (execTrimDiscard p uc s) := hs.command fun _ hs => hs.decideTrim

protected theorem execTrimNop {p : Port} {uc : Fin 32} (hs : WfStores s) : NextWf (execTrimNop p uc s) := hs.command fun _ hs => hs.decideTrim

theorem publishUc {n : Nat} (hs : WfStores s) : WfStores (s.publishUc n) := .ite hs (hs.hold.hold.when fun _ hs => hs.modCell).modUc

theorem publishHart {n : Nat} (hs : WfStores s) : WfStores (s.publishHart n) := by
  unfold State.publishHart
  refine .ite hs ?_
  refine .modUc ?_
  refine hs.foldl ?_
  intro _ _ hs
  split
  · exact hs.hold
  · exact hs

theorem evalUc {n : Nat} (hs : WfStores s) : WfStores (s.evalUc n) := .ite hs (.ite hs hs.evalEnd.startToRun.modUc)

theorem closeUc {n : Nat} (hs : WfStores s) : WfStores (s.closeUc n) := .publishHart (.ite hs.evalUc.publishUc hs)

theorem startUc {id : Nat} {c : StartCause} (hs : WfStores s) : WfStores (s.startUc id c) :=
  ((hs.when fun _ hs =>
    hs.wr.wr.wr.setFlag.setFlag.setFlag.setFlag.setFlag.wr.wr.wr.setFlag.wrw.wrw.wr.setFlag.setComparator.setComparator.setReg.setFlag.modUc.setCaps.loadTrim).modUc.when
    fun _ hs => hs.modUc.isolateCell).ifElse fun hs => hs.driveUc

/-! `Machine/Points.lean`. -/

theorem followBond {n : Nat} (hs : WfStores s) : WfStores (s.followBond n) :=
  .ite ((hs.when fun _ hs => hs.bump).foldl fun _ _ hs => hs.wr).setReg.wrw hs

theorem driveDp {n : Nat} (hs : WfStores s) : WfStores (s.driveDp n) := .ite hs (hs.when fun _ hs => hs.setFlag).setFlag.setFlag.followBond

theorem driveDb {db : Nat} (hs : WfStores s) : WfStores (s.driveDb db) := hs.foldl fun _ _ hs => hs.driveDp

protected theorem execInputFilterSettle {dp : Fin 32} {on : Bool} (hs : WfStores s) : NextWf (execInputFilterSettle dp on s) :=
  .done (.ite hs ((hs.when fun _ hs => hs.notice).setFlag.when fun _ hs => hs.wrw).modDp)

theorem cancelRestore {db : Nat} (hs : WfStores s) : WfStores (s.cancelRestore db) := .of_eq hs rfl rfl

theorem sumLoad {db : Nat} (hs : WfStores s) : WfStores (s.sumLoad db) := hs.wrw

theorem watchWiring {n : Nat} (hs : WfStores s) : WfStores (s.watchWiring n) := .ite hs (.ite hs.setCause (hs.when fun _ hs => hs.setCause))

theorem sampleDp {n : Nat} {terms hot : BitVec 8} {amps : List Word} (hs : WfStores s) : WfStores (s.sampleDp n terms hot amps) :=
  .ite hs.setFlag.modDp.wrw.watchWiring.followBond hs

protected theorem execFieldSupplySample {db : Fin 4} {volts : Word} {levels : PointLevels} {amps : List Word} (hs : WfStores s) :
    NextWf (execFieldSupplySample db volts levels amps s) :=
  .done (.ite hs ((hs.wrw.ifThen fun hs => hs.cancelRestore).foldl fun _ _ hs => hs.sampleDp).sumLoad)

theorem enterFs {db : Nat} {c : FsCond} (hs : WfStores s) : WfStores (s.enterFs db c) := by
  unfold State.enterFs
  dsimp only
  split
  · exact hs.setFlag
  · exact .ite hs hs.setFlag.bump
  · exact .ite hs hs.setFlag.bump
  · exact .ite hs hs.setFlag.bump.cancelRestore

protected theorem execFieldSupplyConditionSet {db : Fin 4} {c : FsCond} (hs : WfStores s) : NextWf (execFieldSupplyConditionSet db c s) :=
  hs.enterFs.driveDb.done

protected theorem execFieldSupplyConditionClear {db : Fin 4} {c : FsCond} (hs : WfStores s) : NextWf (execFieldSupplyConditionClear db c s) := by
  unfold execFieldSupplyConditionClear
  refine .done ?_
  split
  · exact hs.setFlag
  · exact hs.setFlag
  · exact hs
  · exact hs.setFlag.driveDb

protected theorem execShedRestore {db : Fin 4} (hs : WfStores s) : NextWf (execShedRestore db s) := .done (.ite hs.withFld hs)

theorem restoreSheds (hs : WfStores s) : WfStores s.restoreSheds := hs.withFld.foldl fun _ _ hs => hs.setFlag.foldl fun _ _ hs => .ite hs.setFlag hs

protected theorem decideRearm {n : Nat} (hs : WfStores s) : WfStores (decideRearm n s).2 := .iteSnd hs hs.modDp

protected theorem execRearm {p : Port} {dp : Fin 32} (hs : WfStores s) : NextWf (execRearm p dp s) := hs.command fun _ hs => hs.decideRearm

theorem restartWatchdog {n : Nat} (hs : WfStores s) : WfStores (s.restartWatchdog n) := hs.setFlag

protected theorem execCellWatchdogExpiry {dp : Fin 32} (hs : WfStores s) : NextWf (execCellWatchdogExpiry dp s) :=
  .done (.ite hs.setFlag.bump.driveDp hs)

theorem wiringFault {n : Nat} {w : Wiring} (hs : WfStores s) : WfStores (s.wiringFault n w) := by
  unfold State.wiringFault
  refine .ite ?_ ?_
  · exact hs
  · exact (((hs.when fun _ hs => hs.bump).when fun _ hs => hs.setFlag).setFlag.isolateCell.when fun _ hs => hs.setFlag).driveDp

protected theorem execWiringFault {dp : Fin 32} {w : Wiring} {other : Fin 32} (hs : WfStores s) : NextWf (execWiringFault dp w other s) :=
  .done (.ite hs (hs.wiringFault.ifThen fun hs => hs.wiringFault))

protected theorem execSupervisionFaultSet {dp : Fin 32} {f : Supervision} (hs : WfStores s) : NextWf (execSupervisionFaultSet dp f s) :=
  .done (.ite hs.setFlag.bump.followBond hs)

protected theorem execSupervisionFaultClear {dp : Fin 32} {f : Supervision} (hs : WfStores s) : NextWf (execSupervisionFaultClear dp f s) :=
  .done (.ite hs.setFlag.followBond hs)

theorem takeDpCommand {n : Nat} (hs : WfStores s) : WfStores (s.takeDpCommand n) := by
  unfold State.takeDpCommand
  refine .ite hs.modDp ?_
  split
  · exact hs.modDp
  · exact (hs.modDp.noteInput.modDp.ifThen fun hs => hs.restartWatchdog).ifElse fun hs => hs.setFlag

theorem applyRearm {n : Nat} (hs : WfStores s) : WfStores (s.applyRearm n) := .ite hs.setFlag.modDp hs

theorem publishDp {n : Nat} (hs : WfStores s) : WfStores (s.publishDp n) := .ite hs hs.hold.hold.modCell.modDp

theorem closeDp {n : Nat} (hs : WfStores s) : WfStores (s.closeDp n) := .ite hs (.publishDp (.ite hs hs.evalEnd.startToRun.modDp))

theorem startDp {id : Nat} {c : StartCause} (hs : WfStores s) : WfStores (s.startDp id c) :=
  (hs.when fun _ hs => (hs.wr.wr.setFlag.setFlag.setFlag.setFlag.setFlag.setFlag.wr.wr.setReg.setFlag.when
    fun _ hs => hs.wrw).modDp).wrw.modDp.driveDp

/-! `Machine/Drive.lean`. -/

theorem driveCell {id : Nat} (hs : WfStores s) : WfStores (s.driveCell id) := by
  unfold State.driveCell
  split
  · exact hs.driveUc
  · exact hs.driveDp
  · exact hs.driveAx
  · exact hs

theorem drive (hs : WfStores s) : WfStores s.drive := hs.foldl fun _ _ hs => hs.driveCell

theorem commandCell {id action : Nat} (hs : WfStores s) : WfStores (s.commandCell id action) := hs.modCell.takeSafe.driveCell

theorem uncommandCell {id : Nat} (hs : WfStores s) : WfStores (s.uncommandCell id) := hs.modCell

theorem lineCell {id : Nat} {on : Bool} (hs : WfStores s) : WfStores (s.lineCell id on) := .ite hs.modCell.takeSafe.driveCell hs.modCell.driveCell

theorem leaveFault {id : Nat} (hs : WfStores s) : WfStores (s.leaveFault id) := by
  unfold State.leaveFault
  split
  · exact hs.modUc
  · exact hs.setAxf
  · exact hs

theorem faultToRecover {id : Nat} (hs : WfStores s) : WfStores (s.faultToRecover id) := hs.leaveFault.toRecover.driveCell

/-! `Machine/Tocsin.lean`. -/

theorem setTstate {n : Nat} (hs : WfStores s) : WfStores (s.setTstate n) := hs.wr

theorem modTin {n : Nat} {f : TripIn → TripIn} (hs : WfStores s) : WfStores (s.modTin n f) := hs.modToc

theorem modConn {id : Nat} {f : SafeConn → SafeConn} (hs : WfStores s) : WfStores (s.modConn id f) := hs.modToc

theorem countBypasses (hs : WfStores s) : WfStores s.countBypasses := hs.wr

theorem endBypass {n : Nat} (hs : WfStores s) : WfStores (s.endBypass n) := .ite hs.modTin.occur.countBypasses hs

theorem endBypasses (hs : WfStores s) : WfStores s.endBypasses := hs.foldl fun _ _ hs => hs.endBypass

theorem setTripped {k : Nat} {v : Bool} (hs : WfStores s) : WfStores (s.setTripped k v) :=
  (hs.when fun _ hs => hs.modToc).setFlag.ifThen fun hs => hs.setFlag

theorem tripAll (hs : WfStores s) : WfStores s.tripAll := hs.foldl fun _ _ hs => hs.setTripped

theorem takeTrip {k n : Nat} (hs : WfStores s) : WfStores (s.takeTrip k n) := hs.bump.wrw.wrw.occur.notice

theorem evalTripOut {demand byp : List Nat} {kr : Nat × Record} (hs : WfStores s) : WfStores (s.evalTripOut demand byp kr) := by
  unfold State.evalTripOut
  refine .ite hs.setFlag.wr.wr.setCst.setTripped ?_
  refine .ite hs.setFlag.wr.wr.setTripped ?_
  refine .ite ?_ ?_
  · exact hs.setFlag.wr.wr.ifElse fun hs => hs.setTripped.takeTrip
  · exact hs.setFlag.wr.wr.ifElse fun hs => hs.setTripped

theorem issueCommands (hs : WfStores s) : WfStores s.issueCommands := by
  unfold State.issueCommands
  refine .foldl ?_ fun _ _ hs => hs.setFlag
  refine hs.foldl ?_
  intro _ _ hs
  split
  · exact hs.commandCell
  · exact hs.uncommandCell

theorem latchCause {c : Cause} {pair sub : Nat} (hs : WfStores s) : WfStores (s.latchCause c pair sub) :=
  (((hs.when fun _ hs => hs.wr).wr.when fun _ hs => hs.wr).when fun _ hs => hs.wr).when fun _ hs => hs.occur

theorem clearCause {c : Cause} (hs : WfStores s) : WfStores (s.clearCause c) := .ite ((hs.wr.when fun _ hs => hs.wr).when fun _ hs => hs.wr) hs

theorem abandonCommit {c : Code} (hs : WfStores s) : WfStores (s.abandonCommit c) := .ite hs.wr.wr.bump.modImg hs

theorem setLine {on : Bool} (hs : WfStores s) : WfStores (s.setLine on) := .ite hs (hs.setFlag.foldl fun _ _ hs => hs.lineCell)

theorem safetyFault {c : Cause} {pair sub : Nat} (hs : WfStores s) : WfStores (s.safetyFault c pair sub) := by
  unfold State.safetyFault
  refine .ite hs ?_
  refine .ite (.ite (hs.latchCause.when fun _ hs => hs.setTstate) hs) ?_
  refine .ite ?_ ?_
  · exact .ite hs.latchCause hs
  · exact (((hs.latchCause.when fun _ hs => hs.abandonCommit.modFab.goMst.leaveService.endBypasses.foldl fun _ _ hs => hs.syncOff).when
      fun _ hs => hs.setTstate).modToc.tripAll.when fun _ hs => hs.modToc).ifThen fun hs => hs.setFlag.setLine

theorem sampleInputs (hs : WfStores s) : WfStores s.sampleInputs := hs.foldl fun _ _ hs => hs.modTin.setFlag

theorem tryArm (hs : WfStores s) : WfStores s.tryArm := hs.when fun _ hs => hs.setTstate

theorem applyReset {k : Nat} (hs : WfStores s) : WfStores (s.applyReset k).2 :=
  .iteSnd hs (.iteSnd hs (.iteSnd hs (hs.setTripped.bump.when fun _ hs => hs.setCst).occur))

theorem applyResets (hs : WfStores s) : WfStores s.applyResets := by
  unfold State.applyResets
  refine .modToc ?_
  refine hs.foldl ?_
  intro _ _ hs
  dsimp only
  split
  · exact hs.applyReset.answer
  · exact hs.applyReset.when fun _ hs => hs.bump

theorem expireBypasses (hs : WfStores s) : WfStores s.expireBypasses := hs.foldl fun _ _ hs => hs.endBypass

theorem scan {columnOk railsOk : Bool} (hs : WfStores s) : WfStores (s.scan columnOk railsOk) :=
  (((hs.expireBypasses.sampleInputs.tryArm.foldl fun _ _ hs => hs.evalTripOut).applyResets.issueCommands.when fun _ hs => hs.setLine).modToc.when
    fun _ hs => hs.safetyFault).when fun _ hs => hs.safetyFault

protected theorem execTocsinScan {evalNs : BitVec 16} {missed columnOk railsOk : Bool} (hs : WfStores s) :
    NextWf (execTocsinScan evalNs missed columnOk railsOk s) :=
  .done (.ite (.ite hs.wrw.wr.bump hs.wrw.wr.scan) hs)

protected theorem execScanWatchdogExpiry (hs : WfStores s) : NextWf (execScanWatchdogExpiry s) := .done (.ite hs hs.safetyFault)

protected theorem execMatrixCrcCheck {ok : Bool} (hs : WfStores s) : NextWf (execMatrixCrcCheck ok s) := .done (.ite hs.safetyFault hs)

theorem receivePdu {pdu : BitVec 128} (hs : WfStores s) : WfStores (s.receivePdu pdu) := by
  unfold State.receivePdu
  refine .ite hs.bump ?_
  split
  · exact hs.bump
  · exact hs.modConn

protected theorem execSafetyPduReceive {pdu : BitVec 128} (hs : WfStores s) : NextWf (execSafetyPduReceive pdu s) := hs.receivePdu.done

protected theorem execSafetyConnectionTimeout {connId : BitVec 32} (hs : WfStores s) : NextWf (execSafetyConnectionTimeout connId s) :=
  (hs.when fun _ hs => hs.modConn).done

protected theorem decideTripReset {who : Option Port} {k : Nat} (hs : WfStores s) : WfStores (decideTripReset who k s).2 := .iteSnd hs hs.modToc

protected theorem execTripReset {p : Port} {o : Fin 128} (hs : WfStores s) : NextWf (execTripReset p o s) :=
  hs.commandHeld fun _ hs => hs.decideTripReset

protected theorem decideBypass {p : Port} {seconds : Nat} (hs : WfStores s) : WfStores (decideBypass p seconds s).2 := by
  unfold decideBypass
  refine .iteSnd hs ?_
  refine .iteSnd hs ?_
  split
  · exact hs
  · exact .iteSnd hs (.iteSnd hs (.iteSnd hs.modTin (.iteSnd hs hs.modTin.occur.countBypasses)))

protected theorem execBypass {p : Port} {seconds : BitVec 16} (hs : WfStores s) : NextWf (execBypass p seconds s) :=
  hs.command fun _ hs => hs.decideBypass

protected theorem execBypassExpiry {i : Fin 256} (hs : WfStores s) : NextWf (execBypassExpiry i s) := (hs.when fun _ hs => hs.modTin).endBypass.done

protected theorem decideCauseAck (hs : WfStores s) : WfStores (decideCauseAck s).2 :=
  .iteSnd (.pair ((hs.when fun _ hs => hs.clearCause).when fun _ hs => hs.clearCause)) hs

protected theorem execCauseAck {p : Port} (hs : WfStores s) : NextWf (execCauseAck p s) := hs.command fun _ hs => hs.decideCauseAck

protected theorem decideRetest (hs : WfStores s) : WfStores (decideRetest s).2 := .iteSnd hs (.iteSnd hs hs.setFlag)

protected theorem execRetest {p : Port} (hs : WfStores s) : NextWf (execRetest p s) := hs.command fun _ hs => hs.decideRetest

protected theorem execRetestComplete {failSub : Nat} (hs : WfStores s) : NextWf (execRetestComplete failSub s) := by
  unfold execRetestComplete
  refine .done ?_
  refine .ite ?_ ?_
  · exact .ite ((hs.setFlag.setFlag.when fun _ hs => hs.clearCause).when fun _ hs => hs.setFlag) hs.setFlag.safetyFault
  · exact hs

/-! `Machine/Chain.lean`. -/

theorem setLink {p : ChainPort} {n : Nat} (hs : WfStores s) : WfStores (s.setLink p n) := hs.wr

theorem modCport {p : ChainPort} {f : ChainPortSt → ChainPortSt} (hs : WfStores s) : WfStores (s.modCport p f) := by
  unfold State.modCport
  split <;> exact hs.modChain

protected theorem dropFrame (hs : WfStores s) : WfStores (dropFrame s) := hs.bump

theorem correct {f : ChainFrame} {arrived : Nat} (hs : WfStores s) : WfStores (s.correct f arrived).2 :=
  .iteSnd (.iteSnd hs.bump (hs.when fun _ hs => hs.dropFrame).bump.wr) hs

theorem free_ {ingress : ChainPort} {vc n : Nat} (hs : WfStores s) : WfStores (s.free_ ingress vc n) := hs.modCport

theorem emitFrame {p : ChainPort} {f : ChainFrame} (hs : WfStores s) : WfStores (s.emitFrame p f) := .ite hs.emit hs.emit

theorem egress {p : ChainPort} (hs : WfStores s) : WfStores (s.egress p) := by
  unfold State.egress
  split
  · exact hs
  · split
    · exact hs
    · exact .ifThen (.when (.modCport (.iteSnd hs hs.correct)) fun _ hs => hs.free_) fun hs => hs.emitFrame

theorem originate {p : ChainPort} {f : ChainFrame} (hs : WfStores s) : WfStores (s.originate p f) := .ite hs (hs.modCport.ifThen fun hs => hs.egress)

theorem sendChain {f : ChainFrame} (hs : WfStores s) : WfStores (s.sendChain f) := .ite hs.originate.originate (.ite hs.originate hs.originate)

theorem chime {p : ChainPort} {op v : Nat} (hs : WfStores s) : WfStores (s.chime p op v) := hs.originate

protected theorem execChainLinkTrained {p : ChainPort} (hs : WfStores s) : NextWf (execChainLinkTrained p s) := .done (.ite hs.setLink.modCport hs)

theorem dropOnward {egress : ChainPort} {f : ChainFrame} (hs : WfStores s) : WfStores (s.dropOnward egress f) :=
  (hs.when fun _ hs => hs.dropFrame).ifThen fun hs => hs.originate

theorem flushPort {p : ChainPort} (hs : WfStores s) : WfStores (s.flushPort p) := hs.modCport.foldl fun _ _ hs => .ite hs hs.free_.dropOnward

theorem leaveEnum {a : Nat} (hs : WfStores s) : WfStores (s.leaveEnum a) := hs.wr.wr.modChain.goMst

theorem confirmAddr {v : Nat} (hs : WfStores s) : WfStores (s.confirmAddr v) := by
  unfold State.confirmAddr
  split
  · exact hs.wr.chime.leaveEnum
  · exact hs

theorem confirmTail (hs : WfStores s) : WfStores s.confirmTail := by
  unfold State.confirmTail
  split
  · exact .ite hs.confirmAddr hs
  · exact hs

theorem linkLoss {p : ChainPort} (hs : WfStores s) : WfStores (s.linkLoss p) := .ite (hs.setLink.bump.flushPort.when fun _ hs => hs.confirmTail) hs

theorem chainOff (hs : WfStores s) : WfStores s.chainOff := hs.setLink.setLink.modChain

theorem chainOn (hs : WfStores s) : WfStores s.chainOn := hs.setLink.setLink

theorem takeCredits {p : ChainPort} {returned : List Nat} (hs : WfStores s) : WfStores (s.takeCredits p returned) := hs.modCport

protected theorem execAlignmentFlit {p : ChainPort} {flits : FlitCounts} (hs : WfStores s) : NextWf (execAlignmentFlit p flits s) :=
  .done (.ite hs.takeCredits.bumpBy.modCport hs)

theorem deliverFrame {f : ChainFrame} (hs : WfStores s) : WfStores (s.deliverFrame f) := .ite hs (.ite hs.dropFrame hs.emit)

theorem passFrame {p : ChainPort} {f : ChainFrame} (hs : WfStores s) : WfStores (s.passFrame p f) := by
  unfold State.passFrame
  refine .ite ((hs.when fun _ hs => hs.dropFrame).when fun _ hs => hs.deliverFrame).free_ ?_
  refine .ite ?_ ?_
  · exact (((hs.when fun _ hs => hs.dropFrame).when fun _ hs => hs.deliverFrame).when fun _ hs => hs.bump).modCport
  · exact ((hs.when fun _ hs => hs.dropFrame).when fun _ hs => hs.deliverFrame).free_.dropOnward

theorem receiveFrame {p : ChainPort} {f : ChainFrame} (hs : WfStores s) : WfStores (s.receiveFrame p f) :=
  .ite hs.bumpBy.bumpBy.bumpBy.dropFrame.free_ hs.bumpBy.bumpBy.bumpBy.passFrame

protected theorem execChainFrameReceive {p : ChainPort} {f : ChainFrame} {returned : List Nat} (hs : WfStores s) :
    NextWf (execChainFrameReceive p f returned s) :=
  .done (.ite hs.takeCredits.receiveFrame hs)

theorem cutFrame {p : ChainPort} {f : ChainFrame} (hs : WfStores s) : WfStores (s.cutFrame p f) := .ite hs.dropFrame hs.passFrame

protected theorem execChainLinkLoss {loss : LinkLoss} (hs : WfStores s) : NextWf (execChainLinkLoss loss s) :=
  .done (.ite (hs.foldl fun _ _ hs => hs.cutFrame).linkLoss hs)

theorem nextImage {p : ChainPort} (hs : WfStores s) : WfStores (s.nextImage p) := .ite hs (hs.modCport.foldl fun _ _ hs => hs.originate)

protected theorem execFrameForward {p : ChainPort} (hs : WfStores s) : NextWf (execFrameForward p s) := .done (.ite hs.egress.nextImage hs)

theorem modPeer {k : Nat} {f : PeerSt → PeerSt} (hs : WfStores s) : WfStores (s.modPeer k f) := hs.modChain

protected theorem execPiFrame {f : ChainFrame} (hs : WfStores s) : NextWf (execPiFrame f s) :=
  .done (.ite (hs.modPeer.bumpBy.when fun _ hs => hs.bump) hs)

theorem enterTimeout {k : Nat} (hs : WfStores s) : WfStores (s.enterTimeout k) := hs.modPeer.bump.setFlag

theorem peerWords {k : Nat} {f : SigWord → SigWord} (hs : WfStores s) : WfStores (s.peerWords k f) := hs.foldl fun _ _ hs => hs.setSig

theorem publishPeer {k : Nat} (hs : WfStores s) : WfStores (s.publishPeer k) := by
  unfold State.publishPeer
  refine .ite hs.setFlag.peerWords ?_
  split
  · refine (hs.setFlag.when fun _ hs => hs.bump).modPeer.setFlag.wrw.foldl ?_
    intro _ _ hs
    dsimp only
    split
    · exact hs.setSig.modFab
    · exact hs.setSig
  · exact .ite (hs.setFlag.modPeer.when fun _ hs => hs.enterTimeout).peerWords hs.setFlag.modPeer.peerWords

protected theorem execPeerTimeout {pc : Fin 64} (hs : WfStores s) : NextWf (execPeerTimeout pc s) := .done (.ite hs.enterTimeout.peerWords hs)

theorem startPeer {k : Nat} (hs : WfStores s) : WfStores (s.startPeer k) := hs.setFlag.wr.modPeer

theorem exportPort {p : ChainPort} {frames : List ChainFrame} (hs : WfStores s) : WfStores (s.exportPort p frames) :=
  .ite hs (.ite (hs.when fun _ hs => hs.bump).modCport (hs.foldl fun _ _ hs => hs.originate))

theorem exportChain (hs : WfStores s) : WfStores s.exportChain := .ite hs hs.exportPort.exportPort

protected theorem execSafetyPduSend {n : Fin 8} (hs : WfStores s) : NextWf (execSafetyPduSend n s) := by
  unfold execSafetyPduSend
  refine .done ?_
  split
  · exact hs
  · exact .ite hs.modToc.emit.modNet.sendChain hs

protected theorem execChainSafetyFrame {f : ChainFrame} (hs : WfStores s) : NextWf (execChainSafetyFrame f s) :=
  .done (.ite (hs.foldl fun _ _ hs => hs.receivePdu) hs)

/-! `Machine/Words.lean`. -/

theorem noteError {m : MemKind} {port : Bool} {region granule : Nat} {o : Decoded} (hs : WfStores s) :
    WfStores (s.noteError m port region granule o) :=
  hs.wr.wr.wr.setFlag.wr

theorem poisonGranule {m : MemKind} {granule : Nat} (hs : WfStores s) : WfStores (s.poisonGranule m granule) := by
  unfold State.poisonGranule
  dsimp only
  split
  · exact hs.modQ rfl
  · exact hs.modQ rfl
  · exact hs

theorem meetWord {m : MemKind} {port : Bool} {region granule : Nat} {o : Decoded} (hs : WfStores s) :
    WfStores (s.meetWord m port region granule o) := by
  unfold State.meetWord
  refine .ifElse ?_ fun hs => .ite hs.modJrn hs.noteError.poisonGranule
  split
  · exact hs.bump
  · exact hs

/-! `Machine/Queue.lean`. -/

theorem meetPoison (hs : WfStores s) : WfStores s.meetPoison := hs.bump

theorem inFlight (hs : WfStores s) : WfStores s.inFlight := hs.draw.wr

theorem tlbFill {t : TlbEntry} (hs : WfStores s) : WfStores (s.tlbFill t) := .ite (hs.modQ rfl) (hs.draw.modQ rfl)

theorem lookup {dom iova : Nat} (hs : WfStores s) : WfStores (s.lookup dom iova).2 := by
  unfold State.lookup
  refine .iteSnd hs.bump ?_
  split
  · exact hs
  · dsimp only
    split
    · exact hs.bump.tlbFill
    · exact (hs.bump.when fun _ hs => hs.meetPoison).bump

theorem translate {dom iova : Nat} {write : Bool} (hs : WfStores s) : WfStores (s.translate dom iova write).2 := by
  unfold State.translate
  split
  · next heq => exact .out heq hs.lookup
  · next heq => exact .iteSnd (.out heq hs.lookup) (.bump (.out heq hs.lookup))

theorem readGranule {dom iova : Nat} (hs : WfStores s) : WfStores (s.readGranule dom iova).2 := by
  unfold State.readGranule
  split
  · next heq => exact .out heq hs.translate
  · next heq => exact .iteSnd (.meetPoison (.out heq hs.translate)) (.out heq hs.translate)

theorem writeGranule {dom iova : Nat} {bytes : List Byte} (hs : WfStores s) : WfStores (s.writeGranule dom iova bytes).2 := by
  refine canonical_writeGranule hs dom iova bytes ?_
  unfold State.writeGranule
  split
  · next heq => exact (WfStores.out heq hs.translate).1
  · next heq =>
    have ht := WfStores.out heq hs.translate
    split
    · exact ht.meetPoison.1
    · exact ht.1

theorem haltRing {n : Nat} {rx wbf : Bool} {kind iova : Nat} {code : Code} (hs : WfStores s) : WfStores (s.haltRing n rx wbf kind iova code) :=
  hs.setFlag.setFlag.wr.wr.wr.wr.wr.wrw

theorem ringIdle {n : Nat} {rx : Bool} (hs : WfStores s) : WfStores (s.ringIdle n rx) := hs.modQp.when fun _ hs => hs.setFlag

theorem accessFault {n : Nat} {rx writeback : Bool} {e : AccessFault} (hs : WfStores s) : WfStores (s.accessFault n rx writeback e) :=
  hs.haltRing.ringIdle

theorem completeDesc {n : Nat} {rx : Bool} {count : Nat} {code : Code} {flags saddr sqp : Nat} (hs : WfStores s) :
    WfStores (s.completeDesc n rx count code flags saddr sqp).2 := by
  unfold State.completeDesc
  dsimp only
  split
  · next heq => exact .accessFault (.out heq hs.inFlight.readGranule)
  · next heq =>
      split
      · next heq' => exact .accessFault (.out heq' (.writeGranule (.out heq hs.inFlight.readGranule)))
      · next heq' => exact .ringIdle (.wr (.out heq' (.writeGranule (.out heq hs.inFlight.readGranule))))

theorem dataFault {n : Nat} {rx : Bool} {count iova : Nat} {e : AccessFault} {saddr sqp : Nat} (hs : WfStores s) :
    WfStores (s.dataFault n rx count iova e saddr sqp) := by
  unfold State.dataFault
  split
  · next heq => exact .out heq hs.completeDesc
  · next heq => exact .haltRing (.out heq hs.completeDesc)

theorem endMessage {n : Nat} (hs : WfStores s) : WfStores (s.endMessage n) := hs.modQp

theorem skipTx {n : Nat} {d : Desc} {code : Code} (hs : WfStores s) : WfStores (s.skipTx n d code) := hs.completeDesc.when fun _ hs => hs.endMessage

theorem startTx {n : Nat} (hs : WfStores s) : WfStores (s.startTx n) := by
  unfold State.startTx
  split
  · next heq => exact .accessFault (.out heq hs.readGranule)
  · next heq =>
      dsimp only
      split
      · exact .skipTx (.out heq hs.readGranule)
      · exact .ite (.skipTx (.out heq hs.readGranule)) (.modQp (.out heq hs.readGranule))

theorem sendBulk {n : Nat} {d : Desc} {valid mflags : Nat} {fcode : Code} {payload : List (List Byte)} (hs : WfStores s) :
    WfStores (s.sendBulk n d valid mflags fcode payload) :=
  hs.sendChain.modQp

theorem sendFull {n : Nat} {d : Desc} (hs : WfStores s) : WfStores (s.sendFull n d) := .ite hs (hs.sendBulk.modQp.when fun _ hs => hs.endMessage)

theorem issue {n : Nat} {d : Desc} (hs : WfStores s) : WfStores (s.issue n d).2 := by
  unfold State.issue
  dsimp only
  split
  · next heq => exact .out heq hs.readGranule
  · next heq =>
      refine .iteSnd ?_ (.sendFull (.modQp (.out heq hs.readGranule)))
      split
      · next heq' => exact .out heq' (.writeGranule (.out heq hs.readGranule))
      · next heq' => exact .modQp (.out heq' (.writeGranule (.out heq hs.readGranule)))

theorem issueTo {n : Nat} {d : Desc} {stop fuel : Nat} (hs : WfStores s) : WfStores (s.issueTo n d stop fuel).2 := by
  induction fuel generalizing s with
  | zero => exact hs
  | succ fuel ih =>
    unfold State.issueTo
    refine .iteSnd hs ?_
    split
    · next heq => exact WfStores.out heq hs.issue
    · next heq => exact ih (.out heq hs.issue)

theorem stopTx {n : Nat} {d : Desc} {e : AccessFault} {iova : Nat} (hs : WfStores s) : WfStores (s.stopTx n d e iova) :=
  (hs.when fun _ hs => hs.sendBulk.endMessage).dataFault

theorem transferTx {n : Nat} {d : Desc} {stop : Nat} {atStop : State → Option (AccessFault × Nat) × State} (hs : WfStores s)
    (hatStop : ∀ t, WfStores t → WfStores (atStop t).2) : WfStores (s.transferTx n d stop atStop) := by
  unfold State.transferTx
  split
  next f t heq =>
  have ht := WfStores.out heq hs.issueTo
  cases f with
  | some f => exact ht.stopTx
  | none =>
    have hu := hatStop t ht
    dsimp only
    generalize atStop t = r at hu
    obtain ⟨f, u⟩ := r
    cases f with
    | some f => exact WfStores.stopTx hu
    | none => exact .ite hu (WfStores.completeDesc hu)

theorem faultTx {n : Nat} {d : Desc} {stop : Nat} {atStop : State → Option (AccessFault × Nat) × State}
    (hs : WfStores s) (hatStop : ∀ t, WfStores t → WfStores (atStop t).2) : WfStores (s.faultTx n d stop atStop) := by
  unfold State.faultTx
  split
  · next heq => exact .stopTx (.out heq hs.issueTo)
  · next heq =>
      split
      · next heq' => exact .stopTx (.out heq' (hatStop _ (.out heq hs.issueTo)))
      · next heq' => exact .out heq' (hatStop _ (.out heq hs.issueTo))

theorem nak {f : ChainFrame} {code : Code} (hs : WfStores s) : WfStores (s.nak f code) := hs.sendChain

theorem dropRest {n : Nat} {f : ChainFrame} (hs : WfStores s) : WfStores (s.dropRest n f) := hs.modQp

theorem dropMessage {n : Nat} {f : ChainFrame} {code : Code} (hs : WfStores s) : WfStores (s.dropMessage n f code) := hs.nak.bump.dropRest

theorem completeRx {n : Nat} {code : Code} {msgEnd : Bool} {src pair : Nat} (hs : WfStores s) : WfStores (s.completeRx n code msgEnd src pair) :=
  .ite hs.completeDesc hs

theorem endRx {n : Nat} {code : Code} (hs : WfStores s) : WfStores (s.endRx n code) := by
  unfold State.endRx
  split
  · exact hs.completeRx.modQp
  · exact hs

theorem openRx {n fuel : Nat} (hs : WfStores s) : WfStores (s.openRx n fuel).2 := by
  induction fuel generalizing s with
  | zero => exact hs
  | succ fuel ih =>
    unfold State.openRx
    refine .iteSnd hs ?_
    split
    · next heq => exact .accessFault (.out heq hs.inFlight.readGranule)
    · next heq =>
      have ht := WfStores.out heq hs.inFlight.readGranule
      split
      · exact ih ht.completeDesc
      · exact ht.modQp

theorem needRx {n : Nat} (hs : WfStores s) : WfStores (s.needRx n).2 := .iteSnd hs hs.openRx

theorem takeGranule {n : Nat} {f : ChainFrame} {g : List Byte} {valid : Nat} {final : Bool} (hs : WfStores s) :
    WfStores (s.takeGranule n f g valid final).2 := by
  unfold State.takeGranule
  split
  · next heq => exact .dropMessage (.out heq hs.needRx)
  · next heq =>
      dsimp only
      split
      · exact .out heq hs.needRx
      · split
        · next heq'' => exact .dropRest (.dataFault (.out heq'' (.writeGranule (.out heq hs.needRx))))
        · next heq'' => exact .pair (.ifThen (.modQp (.out heq'' (.writeGranule (.out heq hs.needRx)))) fun hs => hs.completeRx)

theorem takeFlit {n : Nat} {f : ChainFrame} {i : Nat} {g : List Byte} {final : Bool} (hs : WfStores s) : WfStores (s.takeFlit n f i g final).2 :=
  .iteSnd hs.needRx.endRx.dropRest hs.inFlight.takeGranule

theorem takeGranules {n : Nat} {f : ChainFrame} {i : Nat} {l : List (List Byte)} (hs : WfStores s) :
    WfStores (s.takeGranules n f i l).2 := by
  induction l generalizing s i with
  | nil => exact hs
  | cons g l ih =>
    unfold State.takeGranules
    split
    · next heq => exact WfStores.out heq hs.takeFlit
    · next heq => exact ih (.out heq hs.takeFlit)

theorem endFrame {n : Nat} {f : ChainFrame} (hs : WfStores s) : WfStores (s.endFrame n f) := by
  unfold State.endFrame
  refine .ite ?_ (.ite hs.endRx hs)
  split
  · next heq => exact .dropMessage (.out heq hs.needRx)
  · next heq => exact .endRx (.out heq hs.needRx)

theorem takeFrame {n : Nat} {f : ChainFrame} (hs : WfStores s) : WfStores (s.takeFrame n f) := by
  unfold State.takeFrame
  split
  · next heq => exact .out heq hs.takeGranules
  · next heq => exact .endFrame (.out heq hs.takeGranules)

theorem beginFrame {n : Nat} {f : ChainFrame} (hs : WfStores s) : WfStores (s.beginFrame n f).2 := by
  unfold State.beginFrame
  refine .iteSnd hs ?_
  refine .iteSnd hs.dropMessage ?_
  refine .iteSnd ?_ (.iteSnd hs (.iteSnd hs.dropMessage hs))
  dsimp only
  split
  · next heq => exact .dropMessage (.out heq hs.endRx.modQp.needRx)
  · next heq => exact .modQp (.out heq hs.endRx.modQp.needRx)

theorem bulkIn {n : Nat} {f : ChainFrame} (hs : WfStores s) : WfStores (s.bulkIn n f) := by
  unfold State.bulkIn
  split
  · next heq => exact .out heq hs.beginFrame
  · next heq => exact .takeFrame (.out heq hs.beginFrame)

theorem openFrames {n : Nat} {l : List ChainFrame} (hs : WfStores s) : WfStores (s.openFrames n l) := by
  induction l generalizing s with
  | nil => exact hs.modQp
  | cons f l ih =>
    unfold State.openFrames
    split
    · next heq => exact ih (.out heq hs.beginFrame)
    · next heq =>
      have ht := WfStores.out heq hs.beginFrame
      exact .ite (ih ht.endFrame) ht.modQp

theorem grantTx {n : Nat} (hs : WfStores s) : WfStores (s.grantTx n) := by
  unfold State.grantTx
  split
  · exact hs
  · dsimp only
    split
    · next heq' => exact .stopTx (.out heq' hs.modQp.issue)
    · next heq' => exact .out heq' hs.modQp.issue

theorem engineTurn {n : Nat} (hs : WfStores s) : WfStores (s.engineTurn n) := by
  unfold State.engineTurn
  dsimp only
  split
  · exact (hs.inFlight.ifElse fun hs => hs.startTx).ifThen fun hs => hs.grantTx
  · exact hs.inFlight.ifElse fun hs => hs.startTx

theorem rxTurn {n : Nat} (hs : WfStores s) : WfStores (s.rxTurn n) := by
  unfold State.rxTurn
  split
  · exact hs
  · refine .ite hs.dropMessage.openFrames ?_
    split
    · exact hs.openFrames
    · dsimp only
      split
      · next heq'' => exact .openFrames (.out heq'' hs.needRx.modQp.takeFlit)
      · next heq'' =>
          refine .ite ?_ ?_
          · exact .openFrames (.endFrame (.out heq'' hs.needRx.modQp.takeFlit))
          · exact .modQp (.out heq'' hs.needRx.modQp.takeFlit)

protected theorem execDescriptorStart (hs : WfStores s) : NextWf (execDescriptorStart s) := by
  unfold execDescriptorStart
  refine .done ?_
  split
  · exact hs
  · exact .ite (hs.modQ rfl).rxTurn (hs.modQ rfl).engineTurn

protected theorem execDescriptorComplete {qp : Fin 32} (hs : WfStores s) : NextWf (execDescriptorComplete qp s) := by
  unfold execDescriptorComplete
  refine .done ?_
  dsimp only
  split
  · exact .ite (hs.inFlight.transferTx fun _ hs => hs) hs
  · exact hs

theorem reportedFault {dom iova : Nat} {write : Bool} {word : WordRead} (hs : WfStores s) : WfStores (s.reportedFault dom iova write word).2 := by
  unfold State.reportedFault
  split
  · next heq => exact .out heq hs.translate
  · next heq => exact .meetWord (.out heq hs.translate)

protected theorem execBulkFrame {f : ChainFrame} (hs : WfStores s) : NextWf (execBulkFrame f s) :=
  .done (.ite hs (.ite (.ite hs.modQp (.ite hs.openFrames (hs.modQ rfl).bulkIn)) (.ite hs.nak hs)))

protected theorem execBulknak {f : ChainFrame} (hs : WfStores s) : NextWf (execBulknak f s) := .done (.ite hs.bump.wr.wr hs)

protected theorem execReceiveMessageTimeout {qp : Fin 32} (hs : WfStores s) : NextWf (execReceiveMessageTimeout qp s) := .done (.ite hs.endRx hs)

protected theorem execMidTransferFault {ring : RingId} {k : Nat} {word : WordRead} (hs : WfStores s) : NextWf (execMidTransferFault ring k word s) := by
  unfold execMidTransferFault
  refine .done ?_
  refine .ite hs ?_
  refine .ite ?_ ?_
  · split
    · refine .ite ?_ hs
      dsimp only
      split
      · next heq' => exact .modQp (.dataFault (.out heq' hs.inFlight.reportedFault))
      · next heq' => exact .out heq' hs.inFlight.reportedFault
    · exact hs
  · split
    · exact .ite (hs.inFlight.faultTx fun _ hs => hs.reportedFault) hs
    · exact hs

protected theorem execDescriptorAccessFault {qp : Fin 32} {rx writeback : Bool} {word : WordRead} (hs : WfStores s) :
    NextWf (execDescriptorAccessFault qp rx writeback word s) := by
  unfold execDescriptorAccessFault
  refine .done ?_
  refine .ite ?_ hs
  split
  · next heq => exact .accessFault (.out heq hs.inFlight.reportedFault)
  · next heq => exact .out heq hs.inFlight.reportedFault

protected theorem decidePost {n : Nat} {rx : Bool} {tail : Nat} (hs : WfStores s) : WfStores (decidePost n rx tail s).2 :=
  .iteSnd hs (.iteSnd hs hs.wr)

protected theorem execDescriptorPost {p : Port} {qp : Fin 32} {rx : Bool} {tail : BitVec 12} (hs : WfStores s) :
    NextWf (execDescriptorPost p qp rx tail s) :=
  hs.command fun _ hs => hs.decidePost

theorem startPair {n : Nat} (hs : WfStores s) : WfStores (s.startPair n) := .ite hs.setCst.modQp hs

theorem startPairs (hs : WfStores s) : WfStores s.startPairs := hs.foldl fun _ _ hs => hs.startPair

theorem enableRing {n : Nat} {rx : Bool} (hs : WfStores s) : WfStores (s.enableRing n rx) := hs.setFlag.modQp.startPair

theorem disableRing {n : Nat} {rx : Bool} (hs : WfStores s) : WfStores (s.disableRing n rx) := .ite hs.modQp hs.setFlag

theorem resumeRing {n : Nat} {rx : Bool} (hs : WfStores s) : WfStores (s.resumeRing n rx) := hs.setFlag.setFlag.wr

protected theorem decideQpCtrl {n ctrl : Nat} (hs : WfStores s) : WfStores (decideQpCtrl n ctrl s).2 := by
  unfold decideQpCtrl
  refine .iteSnd hs ?_
  refine .iteSnd hs ?_
  refine .iteSnd hs ?_
  refine .iteSnd hs ?_
  refine .iteSnd hs ?_
  refine .iteSnd ?_ ?_
  · exact hs
  · exact .pair (hs.foldl fun _ _ hs => ((hs.when fun _ hs => hs.enableRing).when fun _ hs => hs.disableRing).when fun _ hs => hs.resumeRing)

protected theorem execRingTxen {p : Port} {qp : Fin 32} (hs : WfStores s) : NextWf (execRingTxen p qp s) := hs.command fun _ hs => hs.decideQpCtrl

protected theorem execRingTxdis {p : Port} {qp : Fin 32} (hs : WfStores s) : NextWf (execRingTxdis p qp s) := hs.command fun _ hs => hs.decideQpCtrl

protected theorem execRingRxen {p : Port} {qp : Fin 32} (hs : WfStores s) : NextWf (execRingRxen p qp s) := hs.command fun _ hs => hs.decideQpCtrl

protected theorem execRingRxdis {p : Port} {qp : Fin 32} (hs : WfStores s) : NextWf (execRingRxdis p qp s) := hs.command fun _ hs => hs.decideQpCtrl

protected theorem execTxresume {p : Port} {qp : Fin 32} (hs : WfStores s) : NextWf (execTxresume p qp s) := hs.command fun _ hs => hs.decideQpCtrl

protected theorem execRxresume {p : Port} {qp : Fin 32} (hs : WfStores s) : NextWf (execRxresume p qp s) := hs.command fun _ hs => hs.decideQpCtrl

protected theorem decideInvalidate {dom : Nat} {all : Bool} (hs : WfStores s) : WfStores (decideInvalidate dom all s).2 := hs.modQ rfl

protected theorem execIommuInvalidate {p : Port} {domain : BitVec 4} {all : Bool} (hs : WfStores s) : NextWf (execIommuInvalidate p domain all s) :=
  hs.command fun _ hs => hs.decideInvalidate

protected theorem decideRoot {w : Word} (hs : WfStores s) : WfStores (decideRoot w s).2 := .iteSnd hs (.iteSnd hs (.iteSnd hs (hs.modQ rfl)))

theorem startQp {n : Nat} (hs : WfStores s) : WfStores (s.startQp n) := hs.wr.wr.wr.wr.modQp

theorem stopQp {n : Nat} (hs : WfStores s) : WfStores (s.stopQp n) := by
  unfold State.stopQp
  dsimp only
  split
  · refine .dataFault ?_
    split
    · exact .ite (hs.draw.transferTx fun _ hs => hs) hs.draw.dataFault
    · exact hs
  · refine .dataFault ?_
    split
    · exact .ite (hs.draw.transferTx fun _ hs => hs) hs.draw.dataFault
    · exact hs
  · split
    · exact .ite (hs.draw.transferTx fun _ hs => hs) hs.draw.dataFault
    · exact hs

theorem queueOff (hs : WfStores s) : WfStores s.queueOff := hs.modQ rfl

/-! `Machine/Network.lean`. -/

theorem nwr {p : Path} {f : Field} {v : Nat} (hs : WfStores s) : WfStores (s.nwr p f v) := hs.wr

theorem nset {p : Path} {f : Field} {v : Bool} (hs : WfStores s) : WfStores (s.nset p f v) := hs.setFlag

theorem updateElig {p : Path} (hs : WfStores s) : WfStores (s.updateElig p) := hs.nset

theorem setSnare {code : Nat} (hs : WfStores s) : WfStores (s.setSnare code) := hs.modNet.nwr.nwr

theorem pathOff {p : Path} (hs : WfStores s) : WfStores (s.pathOff p) :=
  .ite hs (hs.nwr.nset.nset.nset.nset.modPath.when fun _ hs => hs.modNet.setSnare)

theorem tryStandby {p : Path} (hs : WfStores s) : WfStores (s.tryStandby p) := .ite hs.nwr.nset.modPath hs

theorem identify {p : Path} (hs : WfStores s) : WfStores (s.identify p) := by
  unfold State.identify
  split
  · exact hs
  · exact .ite hs (.ite hs.nwr.tryStandby.updateElig hs.nwr.pathOff)

protected theorem execSfpInsert {p : Path} {id : SfpId} (hs : WfStores s) : NextWf (execSfpInsert p id s) :=
  (hs.modPath.ifElse fun hs => hs.identify).done

protected theorem execSfpRemove {p : Path} (hs : WfStores s) : NextWf (execSfpRemove p s) := hs.nwr.nset.modPath.pathOff.done

protected theorem execSfpDiagnostics {p : Path} {flags : BitVec 16} (hs : WfStores s) : NextWf (execSfpDiagnostics p flags s) :=
  .done (.ite hs (hs.foldl fun _ _ hs => hs.occur).modPath)

protected theorem execNetworkLinkChange {p : Path} {up held100ms : Bool} (hs : WfStores s) : NextWf (execNetworkLinkChange p up held100ms s) :=
  .done (.ite hs hs.nset.modPath.updateElig)

theorem receive {p : Path} {h : MacHead} {k : State → State} (hs : WfStores s) (hk : ∀ t, WfStores t → WfStores (k t)) :
    WfStores (s.receive p h k) := by
  unfold State.receive
  refine .ite hs ?_
  split
  · exact hs.bump
  · exact hk _ hs

theorem police {p : Path} (hs : WfStores s) : WfStores (s.police p).2 := .iteSnd hs.modPath hs.modPath.bump

protected theorem execReceiveFilterDrop {rx : NetRx} {f : OtherFrame} (hs : WfStores s) : NextWf (execReceiveFilterDrop rx f s) :=
  (hs.receive fun _ hs => .ite hs.bump (.ite hs hs.bump)).done

theorem setBound {sig k : Nat} (hs : WfStores s) : WfStores (s.setBound sig k) := hs.modNet

theorem bindEntry {p : Path} {imports : List Nat} {k sig : Nat} (hs : WfStores s) : WfStores (s.bindEntry p imports k sig) := by
  unfold State.bindEntry
  refine .ite ?_ hs
  split
  · exact hs.setBound
  · exact .ite hs hs.bump

protected theorem execCyclicFrame {rx : NetRx} {f : Sahvos} (hs : WfStores s) : NextWf (execCyclicFrame rx f s) :=
  (hs.receive fun _ hs => .ite hs.bump ((hs.bump.modPath.when fun _ hs => hs.nset).modNet.foldl fun _ _ hs => hs.bindEntry)).done

protected theorem execNetworkSafetyFrame {rx : NetRx} {f : Sahvos} (hs : WfStores s) : NextWf (execNetworkSafetyFrame rx f s) :=
  (hs.receive fun _ hs => .ite hs.bump (hs.bump.foldl fun _ _ hs => hs.receivePdu)).done

theorem sendRun {p : Path} {l : List NetFrame} (hs : WfStores s) : WfStores (s.sendRun p l) := by
  induction l generalizing s with
  | nil => exact hs.modPath
  | cons f l ih => exact .ite (ih hs.modPath.bump.emit) hs.modPath

theorem pump {p : Path} (hs : WfStores s) : WfStores (s.pump p) := .ite hs.modPath (hs.sendRun.ifThen fun hs => hs.modPath.sendRun)

protected theorem execSafetyFrameSend (hs : WfStores s) : NextWf (execSafetyFrameSend s) := by
  unfold execSafetyFrameSend
  refine .done ?_
  split
  · exact hs
  · split
    · exact .ite hs.modNet hs.pump.modPath.emit.modNet
    · exact hs.modNet

protected theorem execLastgaspReceive {rx : NetRx} {f : Sahvos} (hs : WfStores s) : NextWf (execLastgaspReceive rx f s) :=
  (hs.receive fun _ hs => .ite hs.bump hs.occur).done

theorem serveIp {p : Path} {h : MacHead} {ip : BitVec 32} {o : Output} (hs : WfStores s) : WfStores (s.serveIp p h ip o) :=
  hs.receive fun _ hs => .ite hs.bump (hs.police.ifThen fun hs => hs.emit)

protected theorem execArpRequest {rx : NetRx} {ip : BitVec 32} {requesterMac : BitVec 48} (hs : WfStores s) :
    NextWf (execArpRequest rx ip requesterMac s) :=
  hs.serveIp.done

protected theorem execIcmpEcho {rx : NetRx} {ip requesterIp : BitVec 32} (hs : WfStores s) : NextWf (execIcmpEcho rx ip requesterIp s) :=
  hs.serveIp.done

theorem trigger {p : Path} {kind : Nat} (hs : WfStores s) : WfStores (s.trigger p kind) := hs.nset.modNet

protected theorem execSwitchoverTrigger {p : Path} (hs : WfStores s) : NextWf (execSwitchoverTrigger p s) :=
  .done (.ite (.ite hs.bump.trigger hs.nset) hs)

protected theorem execCallFollow {p : Path} (hs : WfStores s) : NextWf (execCallFollow p s) := .done (.ite hs.bump.trigger hs)

protected theorem execCallEnd {p : Path} (hs : WfStores s) : NextWf (execCallEnd p s) := .done (.ite hs.nset hs)

theorem islandFault {p : Path} (hs : WfStores s) : WfStores (s.islandFault p) := (hs.nset.modPath.when fun _ hs => hs.setSnare).pathOff

protected theorem execIslandFault {p : Path} (hs : WfStores s) : NextWf (execIslandFault p s) := hs.islandFault.done

protected theorem decideSwitch {p : Path} (hs : WfStores s) : WfStores (decideSwitch p s).2 :=
  .iteSnd hs (.iteSnd hs (.iteSnd hs (.iteSnd hs (.pair (hs.when fun _ hs => hs.nset.modNet)))))

protected theorem execSwitch {p : Port} {path : Path} (hs : WfStores s) : NextWf (execSwitch p path s) := hs.command fun _ hs => hs.decideSwitch

theorem endCycle {p : Path} (hs : WfStores s) : WfStores (s.endCycle p) := .ite hs.modPath.nwr.nset (hs.modPath.nwr.when fun _ hs => hs.bump)

theorem endCycles (hs : WfStores s) : WfStores s.endCycles := .ite hs.endCycle.endCycle hs

theorem movePort (hs : WfStores s) : WfStores s.movePort := hs.when fun _ hs => hs.modTime

theorem seize {p : Path} {call : Bool} (hs : WfStores s) : WfStores (s.seize p call) := hs.nwr.nset.movePort.nset.modPath.setSnare

theorem pathRoles (hs : WfStores s) : WfStores s.pathRoles := by
  unfold State.pathRoles
  refine .ite hs ?_
  split
  · exact .ite (hs.nwr.nset.nset.nset.setSnare.modNet.modPath.when fun _ hs => hs.seize) hs
  · dsimp only
    split
    · exact hs.modNet.seize
    · exact hs

theorem readSnare {fault : Bool} (hs : WfStores s) : WfStores (s.readSnare fault) := (hs.when fun _ hs => hs.occur).setSnare

theorem takeEntry {imports : List Nat} {k : Nat} {got : List Nat} {e : Nat × SigWord} (hs : WfStores s) : WfStores (s.takeEntry imports k got e).2 :=
  .iteSnd hs.modNet.setSig.modFab hs

theorem staleImport {sig : Nat} (hs : WfStores s) : WfStores (s.staleImport sig) :=
  .ite hs.setSig (.ite hs.setBound.setSig (.ite hs.setSig hs.setSig))

theorem publishNet (hs : WfStores s) : WfStores s.publishNet := by
  unfold State.publishNet
  dsimp only
  split
  · refine .modNet (.nwr (.nwr (.foldl (.modNet ?_) fun _ _ hs => hs.staleImport)))
    split
    · exact hs.foldlSnd fun _ _ hs => hs.foldlSnd fun _ _ hs => hs.takeEntry
    · exact hs
  · refine .foldl (.modNet ?_) fun _ _ hs => hs.staleImport
    split
    · exact hs.foldlSnd fun _ _ hs => hs.foldlSnd fun _ _ hs => hs.takeEntry
    · exact hs

theorem exportNet (hs : WfStores s) : WfStores s.exportNet := by
  unfold State.exportNet
  dsimp only
  split
  · exact hs.pump.pump.ifElse fun hs => .ite (hs.when fun _ hs => hs.bump).modPath hs.modPath.pump
  · exact hs.pump.pump

theorem rebindImports {old : List Record} (hs : WfStores s) : WfStores (s.rebindImports old) := hs.modNet

/-! `Machine/Reply.lean`. -/

theorem sendResponse {r : MgmtReq} {bytes : List Byte} (hs : WfStores s) : WfStores (s.sendResponse r bytes) := by
  unfold State.sendResponse
  split
  · exact hs.emit
  · exact .ite hs hs.emit
  · exact .ite hs hs.emit
  · exact .ite hs.originate hs.sendChain

theorem respond {r : MgmtReq} {c : Code} {failop : Nat} {data : List Word} (hs : WfStores s) : WfStores (s.respond r c failop data) :=
  hs.sendResponse.modMgmt

/-! `Machine/Lockstep.lean`. -/

protected theorem execSafetyRelevantFault {c : Cause} {pair : Fin 4} {sub : BitVec 4} (hs : WfStores s) :
    NextWf (execSafetyRelevantFault c pair sub s) :=
  .done (.ite hs hs.safetyFault)

protected theorem execLockstepOutputMismatch {pair : Fin 4} (hs : WfStores s) : NextWf (execLockstepOutputMismatch pair s) :=
  .done (.ite hs hs.safetyFault)

protected theorem execClapperFault {pair : Fin 4} (hs : WfStores s) : NextWf (execClapperFault pair s) := .done (.ite hs hs.safetyFault)

protected theorem execDelayFault {pair : Fin 4} (hs : WfStores s) : NextWf (execDelayFault pair s) := .done (.ite hs hs.safetyFault)

theorem setSafeIn {high : Bool} (hs : WfStores s) : WfStores (s.setSafeIn high) := hs.modToc.setFlag

protected theorem execSafeInNTransition {high : Bool} (hs : WfStores s) : NextWf (execSafeInNTransition high s) :=
  (hs.setSafeIn.ifThen fun hs => hs.safetyFault).done

protected theorem execSafeInHardwireTimeout (hs : WfStores s) : NextWf (execSafeInHardwireTimeout s) := .done (.ite hs.setLine hs)

theorem diverge {pair : Nat} (hs : WfStores s) : WfStores (s.diverge pair) := by
  unfold State.diverge
  refine .ite ?_ ?_
  · exact hs.bump.setFlag.safetyFault
  · exact hs.bump.setFlag.countBlockError.ifThen fun hs => hs.isolateBlock.foldl fun _ _ hs => hs.driveAx

theorem loseTransaction (hs : WfStores s) : WfStores s.loseTransaction := by
  unfold State.loseTransaction
  split
  · exact hs
  · exact hs.modMgmt.respond

protected theorem execBackgroundCompare {diverged : BitVec 4} {executing : Bool} (hs : WfStores s) :
    NextWf (execBackgroundCompare diverged executing s) :=
  ((hs.when fun _ hs => hs.loseTransaction).foldl fun _ _ hs => .ite (hs.wrw.ifThen fun hs => hs.diverge) hs).done

protected theorem execResyncRelease {pair : Fin 4} {timeUs : Nat} (hs : WfStores s) : NextWf (execResyncRelease pair timeUs s) :=
  .done (.ite (((hs.when fun _ hs => hs.wr).bump.occur.when fun _ hs => hs.modToc).ifElse fun hs => hs.setFlag) hs)

protected theorem decideDebugAttach {p : Port} {pair : Nat} (hs : WfStores s) : WfStores (decideDebugAttach p pair s).2 := by
  unfold decideDebugAttach
  split
  · exact hs
  · refine .iteSnd hs ?_
    refine .iteSnd ?_ ?_
    · exact hs.setFlag.setFlag.setFlag.setFlag.occur.setTstate.tripAll.setLine
    · exact .pair (hs.setFlag.setFlag.setFlag.setFlag.occur.when fun _ hs => hs.setTstate.tripAll)

protected theorem execDebugAttach {p : Port} {pair : Fin 4} (hs : WfStores s) : NextWf (execDebugAttach p pair s) :=
  hs.command fun _ hs => hs.decideDebugAttach

protected theorem decideDebugDetach {p : Port} {pair : Nat} (hs : WfStores s) : WfStores (decideDebugDetach p pair s).2 := by
  unfold decideDebugDetach
  split
  · exact hs
  · exact hs.setFlag

protected theorem execDebugDetach {p : Port} {pair : Fin 4} (hs : WfStores s) : NextWf (execDebugDetach p pair s) :=
  hs.command fun _ hs => hs.decideDebugDetach

protected theorem decideDebugNop {p : Port} {_pair : Nat} (hs : WfStores s) : WfStores (decideDebugNop p _pair s).2 := by
  unfold decideDebugNop
  split <;> exact hs

protected theorem execDebugNop {p : Port} {pair : Fin 4} (hs : WfStores s) : NextWf (execDebugNop p pair s) :=
  hs.command fun _ hs => hs.decideDebugNop

/-! `Machine/Phasor.lean`. -/

theorem syncLeave {g : Nat} (hs : WfStores s) : WfStores (s.syncLeave g) := .ite hs.syncOff hs

theorem permitAt {g : Nat} {high : Bool} (hs : WfStores s) : WfStores (s.permitAt g high) := by
  unfold State.permitAt
  split
  · exact hs.modDp.driveDp
  · exact hs

theorem syncStep {g : Nat} {x : PhaseSet} {held dead : Bool} {late : Nat} (hs : WfStores s) : WfStores (s.syncStep g x held dead late) := by
  unfold State.syncStep
  refine .ite (hs.syncLeave.ifThen fun hs => hs.wr) ?_
  refine .ite (hs.syncLeave.ifThen fun hs => hs.modPh.wr) ?_
  refine .ite (.ite hs.syncLeave.modPh hs.syncLeave.modPh.wr) ?_
  refine .ite ?_ (hs.syncLeave.ifThen fun hs => .ite hs hs.wr)
  refine .ite hs.syncLeave.modPh.bump.wr ?_
  refine .ite hs.syncLeave.wr ?_
  refine .ite hs.syncLeave.modPh.wr ?_
  split
  · exact hs.syncLeave.modPh.wr
  · exact hs.syncLeave

theorem trackEvents {g : Nat} {x : PhaseSet} (hs : WfStores s) : WfStores (s.trackEvents g x) :=
  hs.foldl fun _ _ hs => (hs.when fun _ hs => hs.wr).modPh

theorem writeSet {g : Nat} {x : PhaseSet} (hs : WfStores s) : WfStores (s.writeSet g x) :=
  (hs.wrw.wrw.wrw.wrw.wrw.wrw.wrw.foldl fun _ _ hs => hs.setReg.setReg).bumpBy.setFlag.setFlag.setFlag.setFlag

theorem underOld {g : Nat} {f : State → State} (hs : WfStores s) (hf : ∀ t, WfStores t → WfStores (f t)) : WfStores (s.underOld g f) := by
  unfold State.underOld
  split
  · exact hf _ hs
  · exact (hf _ hs.modImg).modImg

theorem takeSamples {g : Nat} {m : PhasorMeas} (hs : WfStores s) : WfStores (s.takeSamples g m) := hs.modPh

theorem gapSet {g : Nat} (hs : WfStores s) : WfStores (s.gapSet g) := hs.bump.modPh

theorem completeSet {g : Nat} (hs : WfStores s) : WfStores (s.completeSet g) := by
  unfold State.completeSet
  dsimp only
  split
  · exact (hs.draw.draw.writeSet.modPh.when fun _ hs => hs.setCst).setFlag.syncStep.trackEvents.ifThen fun hs => hs.restartWatchdog.driveDp
  · exact (hs.draw.draw.writeSet.modPh.when fun _ hs => hs.setCst).setFlag.syncStep.trackEvents

protected theorem execResultSet {g : Fin 4} {m : PhasorMeas} (hs : WfStores s) : NextWf (execResultSet g m s) :=
  .done (.ite hs (hs.takeSamples.ifElse fun hs => hs.underOld fun _ hs => .ite hs.gapSet hs.completeSet))

protected theorem execSyncArm {g : Fin 4} (hs : WfStores s) : NextWf (execSyncArm g s) := .done (.ite hs.wr hs)

theorem changePh {id : Nat} {old : List Record} (hs : WfStores s) : WfStores (s.changePh id old) := .ite hs.modPh hs.setCst.startPh

theorem fallPermit {g : Nat} (hs : WfStores s) : WfStores (s.fallPermit g) := .ite (hs.endPermit.permitAt.modPh.ifThen fun hs => hs.setCst.startPh) hs

protected theorem execPermitFall {g : Fin 4} (hs : WfStores s) : NextWf (execPermitFall g s) := hs.fallPermit.done

theorem risePermit {g : Nat} (hs : WfStores s) : WfStores (s.risePermit g) := by
  unfold State.risePermit
  dsimp only
  split
  · exact hs.setFlag.wrw.wrw.wrw.modPh.permitAt
  · exact hs

protected theorem execPermitRise {g : Fin 4} (hs : WfStores s) : NextWf (execPermitRise g s) := hs.risePermit.done

protected theorem decideSyncBlock {g : Nat} (hs : WfStores s) : WfStores (decideSyncBlock g s).2 := .iteSnd hs (.iteSnd hs hs.wr)

protected theorem execSyncBlock {p : Port} {g : Fin 4} (hs : WfStores s) : NextWf (execSyncBlock p g s) := hs.command fun _ hs => hs.decideSyncBlock

protected theorem execPhasorEventPickup {g : Fin 4} {e : Fin 5} (hs : WfStores s) : NextWf (execPhasorEventPickup g e s) := .done (.ite hs.wr hs)

protected theorem execPhasorInvalidTimeout {g : Fin 4} (hs : WfStores s) : NextWf (execPhasorInvalidTimeout g s) := hs.setFlag.modPh.done

/-! `Machine/Loops.lean`. -/

theorem setLpGain {id set off : Nat} {w : Word} (hs : WfStores s) : WfStores (s.setLpGain id set off w) := hs.modCell

theorem setAct {id act : Nat} (hs : WfStores s) : WfStores (s.setAct id act) := hs.wr.ifThen fun hs => hs.notice

theorem lpPrepare {id : Nat} (hs : WfStores s) : WfStores (s.lpPrepare id).2 := by
  unfold State.lpPrepare
  refine .modLp (.setFlag (.wr ?_))
  refine .when ?_ fun _ hs => hs.bump
  refine .ifThen ?_ fun hs => hs.wrw
  split
  · refine .wrw ?_
    split
    · refine .wrw (.bumpBy (.setFlag (.wr (.setAct ?_))))
      refine hs.foldl ?_
      intro _ _ hs
      split
      · exact hs.noteInput
      · exact hs
    · refine .bumpBy (.setFlag (.wr (.setAct ?_)))
      refine hs.foldl ?_
      intro _ _ hs
      split
      · exact hs.noteInput
      · exact hs
  · split
    · refine .wrw (.bumpBy (.setFlag (.wr (.setAct ?_))))
      refine hs.foldl ?_
      intro _ _ hs
      split
      · exact hs.noteInput
      · exact hs
    · refine .bumpBy (.setFlag (.wr (.setAct ?_)))
      refine hs.foldl ?_
      intro _ _ hs
      split
      · exact hs.noteInput
      · exact hs

theorem holdSel {id : Nat} {init : BitVec 12} {a : Option (Rat × Qual × BitVec 12)} (hs : WfStores s) : WfStores (s.holdSel id init a) := by
  unfold State.holdSel
  split
  · exact hs.hold
  · exact hs

theorem lpNote {x : LpEval} (hs : WfStores s) : WfStores (s.lpNote x) := (hs.setFlag.setFlag.setFlag.when fun _ hs => hs.wr).wrw.wrw

theorem lpShowMan {x : LpEval} {u : Rat} (hs : WfStores s) : WfStores (s.lpShowMan x u) := hs.when fun _ hs => hs.wrw

theorem lpFinish {x : LpEval} {i v u : Rat} {q : Qual} {fl : BitVec 12} {selected : Bool} {sel : Option (Rat × Qual × BitVec 12)}
    (hs : WfStores s) : WfStores (s.lpFinish x i v u q fl selected sel) :=
  hs.setFlag.setFlag.lpNote.wrw.wrw.lpShowMan.modCell.modLp.hold.hold.hold.hold.holdSel.evalEnd.when fun _ hs => hs.setCst

theorem lpError {x : LpEval} {sel : Option (Rat × Qual × BitVec 12)} (hs : WfStores s) : WfStores (s.lpError x sel) :=
  hs.lpNote.lpShowMan.modCell.modLp.hold.holdSel.evalEnd

theorem evalSingle {id : Nat} (hs : WfStores s) : WfStores (s.evalSingle id) := .ite hs.lpPrepare.lpError hs.lpPrepare.lpFinish

theorem evalGroup {lead : Nat} (hs : WfStores s) : WfStores (s.evalGroup lead) :=
  .foldl (.modLp (.wr (.when (hs.foldlSnd fun _ _ hs => hs.lpPrepare) fun _ hs => hs.bump))) fun _ _ hs => .ite hs.lpError hs.lpFinish

theorem evalLp {id : Nat} (hs : WfStores s) : WfStores (s.evalLp id) := by
  unfold State.evalLp
  split
  · exact hs.evalSingle
  · exact hs.evalGroup
  · exact hs

theorem startLp {id : Nat} {c : StartCause} (hs : WfStores s) : WfStores (s.startLp id c) :=
  (((((hs.wr.wr.setFlag.wr.setFlag.setAct.when fun _ hs => hs.setFlag).wrw.ifElse fun hs => hs.wrw.setFlag).when fun _ hs => hs.wrw.wrw.wr).when
    fun _ hs => hs.modCell).when fun _ hs => hs.wr.wr).modLp

protected theorem execOscillationDetect {lp : Fin 512} (hs : WfStores s) : NextWf (execOscillationDetect lp s) :=
  .done (.ite (.ite hs.modLp.bump.wr hs.modLp.bump.setFlag) hs)

protected theorem execDetuneRelax {lp : Fin 512} (hs : WfStores s) : NextWf (execDetuneRelax lp s) := .done (.ite hs.wr.setFlag.bump.modLp hs)

theorem stage {addr : Nat} {w : Word} (hs : WfStores s) : WfStores (s.stage addr w) := hs.modFab

protected theorem decideLoopMode {lp req : Nat} (hs : WfStores s) : WfStores (decideLoopMode lp req s).2 :=
  .iteSnd hs (.iteSnd hs (.iteSnd hs (.iteSnd hs (.iteSnd hs hs.stage))))

protected theorem execLoopModeRequest {p : Port} {lp : Fin 512} {req : BitVec 2} (hs : WfStores s) : NextWf (execLoopModeRequest p lp req s) :=
  hs.command fun _ hs => hs.decideLoopMode

theorem stageLoop {lp off : Nat} {w : Word} (hs : WfStores s) : WfStores (s.stageLoop lp off w) := hs.stage

protected theorem decideLoopStaged {lp : Nat} {ws : List (Nat × Word)} (hs : WfStores s) : WfStores (decideLoopStaged lp ws s).2 := by
  unfold decideLoopStaged
  split
  · exact hs
  · exact .pair (hs.foldl fun _ _ hs => hs.stageLoop)

protected theorem execLoopStagedWrite {p : Port} {lp : Fin 512} {ws : List (Nat × Word)} (hs : WfStores s) :
    NextWf (execLoopStagedWrite p lp ws s) :=
  hs.command fun _ hs => hs.decideLoopStaged

protected theorem decideGainSelect {lp sel : Nat} (hs : WfStores s) : WfStores (decideGainSelect lp sel s).2 := .iteSnd hs (.iteSnd hs hs.wr)

protected theorem execGainSelect {p : Port} {lp : Fin 512} {gsel : BitVec 3} (hs : WfStores s) : NextWf (execGainSelect p lp gsel s) :=
  hs.command fun _ hs => hs.decideGainSelect

protected theorem decideDetuneReset {lp : Nat} (hs : WfStores s) : WfStores (decideDetuneReset lp s).2 := .iteSnd hs hs.stage

protected theorem execDetuneReset {p : Port} {lp : Fin 512} (hs : WfStores s) : NextWf (execDetuneReset p lp s) :=
  hs.command fun _ hs => hs.decideDetuneReset

theorem applyLoopWrite {id key : Nat} {w : Word} (hs : WfStores s) : WfStores (s.applyLoopWrite id key w) :=
  .ite hs.setLpGain (.ite hs.wr.setFlag.modLp (.ite hs.wr.setFlag hs.setReg))

/-! `Machine/Faults.lean`. -/

theorem isolateBlk {r b : Nat} {cause : Bool} (hs : WfStores s) : WfStores (s.isolateBlk r b cause) := by
  unfold State.isolateBlk
  refine .ite hs ?_
  refine .ite ?_ ?_
  · exact (hs.isolateBlock.when fun _ hs => hs.setFlag).drive
  · exact ((hs.isolateBlock.when fun _ hs => hs.setFlag).foldl fun _ _ hs => hs.driveAx).foldl fun _ _ hs => hs.driveCell

theorem unevaluate {b : Before} {id : Nat} (hs : WfStores s) : WfStores (s.unevaluate b id) := by
  unfold State.unevaluate
  refine .ite hs ?_
  refine .ite ?_ ?_
  · exact (((hs.foldl fun _ _ hs => hs.setReg).when fun _ hs => hs.wr).when fun _ hs => hs.setFlag.setFlag.modCell).modCell.wr.modLp
  · exact (((hs.foldl fun _ _ hs => hs.setReg).when fun _ hs => hs.wr).when fun _ hs => hs.setFlag.setFlag.modCell).modCell.modFc

theorem discardWork {id : Nat} (hs : WfStores s) : WfStores (s.discardWork id) := by
  unfold State.discardWork
  dsimp only
  split
  · exact hs.dropHeld.modFab.unevaluate
  · exact hs.dropHeld.modFab

theorem blockError {r b : Nat} {affected : List Nat} (hs : WfStores s) : WfStores (s.blockError r b affected) :=
  .ite ((hs.countBlockError.foldl fun _ _ hs => hs.discardWork).ifThen fun hs => hs.isolateBlk) hs

protected theorem execBlockLinkLoss {r b : Nat} (hs : WfStores s) : NextWf (execBlockLinkLoss r b s) :=
  .done (.ite ((hs.when fun _ hs => hs.bump).when fun _ hs => hs.bump).countBlockError.isolateBlk hs)

theorem regionFault {r : Nat} (hs : WfStores s) : WfStores (s.regionFault r) :=
  .ite hs ((hs.setFlag.bump.when fun _ hs => hs.setFlag).foldl fun _ _ hs => hs.isolateBlk)

protected theorem execRegionFault {region : Fin 5} (hs : WfStores s) : NextWf (execRegionFault region s) := hs.regionFault.done

protected theorem execRegionFaultClear {region : Fin 5} (hs : WfStores s) : NextWf (execRegionFaultClear region s) :=
  .done (.ite (hs.setFlag.foldl fun _ _ hs => hs.modBlk.foldl fun _ _ hs => hs.modCell) hs)

theorem recoverBlk {r b : Nat} (hs : WfStores s) : WfStores (s.recoverBlk r b) := hs.wr.modBlk

protected theorem execBlockRecover {r b : Nat} (hs : WfStores s) : NextWf (execBlockRecover r b s) := .done (.ite hs.bump.recoverBlk hs)

protected theorem decideReint {r b : Nat} (hs : WfStores s) : WfStores (decideReint r b s).2 :=
  .iteSnd (.pair (hs.setFlag.wr.modBlk.ifElse fun hs => hs.recoverBlk)) hs

protected theorem execBlockReintegrate {p : Port} {r b : Nat} (hs : WfStores s) : NextWf (execBlockReintegrate p r b s) :=
  .iteNext hs.decideReint.answer.done (hs.command fun _ hs => hs.decideReint)

protected theorem execFaultRetry {id : Nat} (hs : WfStores s) : NextWf (execFaultRetry id s) := .done (.ite hs.bump.faultToRecover hs)

protected theorem execRecoverComplete {id : Nat} (hs : WfStores s) : NextWf (execRecoverComplete id s) := .done (.ite hs.setCst.driveCell hs)

protected theorem decideCellClear {id : Nat} (hs : WfStores s) : WfStores (decideCellClear id s).2 := .iteSnd hs hs.setFlag.wr.faultToRecover

protected theorem execCellClear {p : Port} {id : Nat} (hs : WfStores s) : NextWf (execCellClear p id s) := hs.command fun _ hs => hs.decideCellClear

protected theorem decideTestEnter {id : Nat} (hs : WfStores s) : WfStores (decideTestEnter id s).2 := .iteSnd hs.setCst.driveCell hs

protected theorem execCellTestEnter {p : Port} {id : Nat} (hs : WfStores s) : NextWf (execCellTestEnter p id s) :=
  hs.command fun _ hs => hs.decideTestEnter

protected theorem decideTestLeave {id : Nat} (hs : WfStores s) : WfStores (decideTestLeave id s).2 := .iteSnd hs.toRecover.driveCell hs

protected theorem execCellTestLeave {p : Port} {id : Nat} (hs : WfStores s) : NextWf (execCellTestLeave p id s) :=
  hs.command fun _ hs => hs.decideTestLeave

protected theorem decideForce {p : Port} {id mode port : Nat} {value : Word} (hs : WfStores s) : WfStores (decideForce p id mode port value s).2 :=
  .iteSnd hs (.iteSnd hs (.iteSnd hs (.iteSnd hs (.iteSnd hs hs.modFab))))

protected theorem execForceWrite {p : Port} {id : Nat} {mode : BitVec 2} {port : BitVec 4} {value : Word} (hs : WfStores s) :
    NextWf (execForceWrite p id mode port value s) :=
  hs.command fun _ hs => hs.decideForce

protected theorem decideFcParam {fc : Nat} {v : Fin 4 × Word} (hs : WfStores s) : WfStores (decideFcParam fc v s).2 :=
  .iteSnd hs (.iteSnd hs hs.stage)

protected theorem decideFcParams {fc : Nat} {l : List (Fin 4 × Word)} (hs : WfStores s) {t : State} (ht : WfStores t) :
    WfStores (decideFcParams fc s l t).2 := by
  induction l generalizing t with
  | nil => exact ht
  | cons v l ih => exact .iteSnd (ih ht.decideFcParam) hs

protected theorem execFunctionParameterWrite {p : Port} {fc : Fin 4096} {vals : List (Fin 4 × Word)}
    (hs : WfStores s) :
    NextWf (execFunctionParameterWrite p fc vals s) :=
  hs.command fun _ ht => hs.decideFcParams ht

/-! `Machine/Recorder.lean`. -/

theorem modCode {c : Nat} {f : Summary → Summary} (hs : WfStores s) : WfStores (s.modCode c f) := hs.modRec

theorem feedCode {o : Occurrence} {c : Nat} {r : Record} (hs : WfStores s) : WfStores (s.feedCode o c r) :=
  .ite (.ite hs.modCode (.ite hs.modRec.modCode hs.modRec.modCode)) (.ite hs.modRec.bump hs.modCode)

protected theorem execOccurrenceTake (hs : WfStores s) : NextWf (execOccurrenceTake s) := by
  unfold execOccurrenceTake
  refine .done ?_
  refine .ite hs ?_
  split
  · exact hs
  · exact hs.modRec.foldl fun _ _ hs => hs.feedCode

theorem saveSummaries (hs : WfStores s) : WfStores s.saveSummaries := hs.modRec

theorem recWrite {o : NvOutcome} (hs : WfStores s) : WfStores (s.recWrite o) := .ite hs.commitTxn.modRec.saveSummaries.showLog hs.commitTxn.bump

protected theorem execSummaryWrite {o : NvOutcome} (hs : WfStores s) : NextWf (execSummaryWrite o s) := .done (.ite hs hs.recWrite)

theorem closeInterval (hs : WfStores s) : WfStores s.closeInterval := hs.modRec

theorem endInterval {o : NvOutcome} (hs : WfStores s) : WfStores (s.endInterval o) := .ite hs (hs.closeInterval.recWrite.when fun _ hs => hs.setRec_)

protected theorem execIntervalEnd {o : NvOutcome} (hs : WfStores s) : NextWf (execIntervalEnd o s) := hs.endInterval.done

theorem unfreeze {timeout : Bool} (hs : WfStores s) : WfStores (s.unfreeze timeout) := (hs.modRec.foldl fun _ _ hs => hs.modCode).setFlag.setRec_

theorem recClear (hs : WfStores s) : WfStores s.recClear := hs.modRec.showLog.setRec_

protected theorem decideRecCtrl {p : Port} {bits : Nat} (hs : WfStores s) : WfStores (decideRecCtrl p bits s).2 := by
  unfold decideRecCtrl
  refine .iteSnd hs ?_
  refine .iteSnd ?_ ?_
  · exact .iteSnd hs (.iteSnd hs hs.recClear)
  · exact .iteSnd (.iteSnd hs.wr.modRec.setRec_ (.iteSnd hs hs)) (.iteSnd (.iteSnd hs.unfreeze hs) hs)

protected theorem execRecFreeze {p : Port} (hs : WfStores s) : NextWf (execRecFreeze p s) := hs.command fun _ hs => hs.decideRecCtrl

protected theorem execRecUnfreeze {p : Port} (hs : WfStores s) : NextWf (execRecUnfreeze p s) := hs.command fun _ hs => hs.decideRecCtrl

protected theorem execRecClear {p : Port} {o : NvOutcome} (hs : WfStores s) : NextWf (execRecClear p o s) :=
  hs.command fun _ hs => hs.journaled fun _ hs => hs.decideRecCtrl

protected theorem execFreezeTimeout (hs : WfStores s) : NextWf (execFreezeTimeout s) := .done (.ite hs.unfreeze hs)

theorem recStart (hs : WfStores s) : WfStores s.recStart := by
  unfold State.recStart
  refine .ite ?_ ?_
  · exact hs
  · exact .ite hs.modRec.modRec.setRec_ (hs.modRec.bumpBy.when fun _ hs => hs.commitTxn).modRec.showLog.setRec_

theorem recFlush {complete : Bool} (hs : WfStores s) : WfStores (s.recFlush complete) :=
  .ite hs (.setRec_ (.modRec (.wearBlocks (.iteSnd2 hs hs.draw.draw))))

theorem recFlushOff (hs : WfStores s) : WfStores s.recFlushOff := .ite hs hs.setRec_

theorem commitRec {old : List Record} (hs : WfStores s) : WfStores (s.commitRec old) := by
  unfold State.commitRec
  refine hs.modRec.foldl ?_
  intro _ _ hs
  split
  · exact .ite hs (hs.modRec.ifElse fun hs => hs.modRec)
  · exact hs.modRec

theorem watchSignals (hs : WfStores s) : WfStores s.watchSignals := hs.foldl fun _ _ hs => .ite hs (hs.when fun _ hs => hs.occur).modRec

/-! `Machine/Timebase.lean`. -/

theorem twr {f : Field} {v : Nat} (hs : WfStores s) : WfStores (s.twr f v) := hs.wr

theorem tick (hs : WfStores s) : WfStores s.tick := hs.advance

theorem stepTime {ns : Nat} (hs : WfStores s) : WfStores (s.stepTime ns) :=
  (hs.setNow32.bump.setFlag.foldl fun _ _ hs => hs.modPh).modTime.endInterval

theorem goServo {n : Nat} (hs : WfStores s) : WfStores (s.goServo n) := ((hs.when fun _ hs => hs.bump).when fun _ hs => hs.modTime).twr

theorem setAddend {a : Int} (hs : WfStores s) : WfStores (s.setAddend a) := hs.modTime

theorem holdOver (hs : WfStores s) : WfStores s.holdOver := hs.setAddend.goServo

theorem servo {offset : Int} (hs : WfStores s) : WfStores (s.servo offset) := hs.setAddend

theorem offsetMeasured {offset : Int} {step : Nat} (hs : WfStores s) : WfStores (s.offsetMeasured offset step) := by
  unfold State.offsetMeasured
  refine .ifThen ?_ fun hs => hs.servo
  refine .ite (hs.wrw.when fun _ hs => hs.wrw).modTime.twr.holdOver ?_
  refine .ite (hs.wrw.when fun _ hs => hs.wrw).modTime.stepTime.twr.twr.goServo ?_
  refine .ite (hs.wrw.when fun _ hs => hs.wrw).modTime.twr.goServo.modTime ?_
  refine .ite ?_ ?_
  · exact (hs.wrw.when fun _ hs => hs.wrw).modTime.goServo
  · exact (hs.wrw.when fun _ hs => hs.wrw).modTime.ifThen fun hs => hs.goServo

theorem discardPtp (hs : WfStores s) : WfStores s.discardPtp := hs.bump

theorem hearPtp {from_ : PtpFrom} {k : State → State} (hs : WfStores s) (hk : ∀ t, WfStores t → WfStores (k t)) : WfStores (s.hearPtp from_ k) := by
  unfold State.hearPtp
  refine .ite hs ?_
  split
  · exact hs.receive fun _ hs => hk _ hs
  · exact hk _ hs

theorem stamp {from_ : PtpFrom} (hs : WfStores s) : WfStores (s.stamp from_).2 := hs.draw

theorem measure {delay : Int} (hs : WfStores s) : WfStores (s.measure delay) := by
  unfold State.measure
  split
  · exact hs.draw.offsetMeasured
  · exact hs

theorem learnHold (hs : WfStores s) : WfStores s.learnHold := hs.modTime

theorem acceptSync {from_ : PtpFrom} {sent arrived corr : Int} (hs : WfStores s) : WfStores (s.acceptSync from_ sent arrived corr) := by
  unfold State.acceptSync
  dsimp only
  split
  · exact (hs.bump.twr.when fun _ hs => hs.learnHold).modTime.measure
  · exact (hs.bump.twr.when fun _ hs => hs.learnHold).modTime

protected theorem execSyncMessage {from_ : PtpFrom} {head : PtpHead} {followUp twoStep : Bool} {body : PtpBody} (hs : WfStores s) :
    NextWf (execSyncMessage from_ head followUp twoStep body s) := by
  unfold execSyncMessage
  refine .done (hs.hearPtp fun _ hs => .ite hs.discardPtp (.ite ?_ ?_))
  · split
    · exact .ite hs.acceptSync hs.discardPtp
    · exact hs.discardPtp
  · have ht := hs.stamp (from_ := from_)
    exact .ite ht.modTime ht.acceptSync

theorem sendPtp {dst : BitVec 8} {msg : List Byte} (hs : WfStores s) : WfStores (s.sendPtp dst msg) := hs.sendChain

theorem sentReq {from_ : PtpFrom} {seq : BitVec 16} (hs : WfStores s) : WfStores (s.sentReq from_ seq) := (hs.stamp (from_ := from_)).modTime

protected theorem execDelayReqSend (hs : WfStores s) : NextWf (execDelayReqSend s) := by
  unfold execDelayReqSend
  refine .done ?_
  refine .ite hs ?_
  refine .ite hs.draw.sendPtp.sentReq ?_
  split
  · exact hs.draw.emit.sentReq
  · exact hs.draw

protected theorem execDelayResp {from_ : PtpFrom} {head : PtpHead} {r : DelayAnswer} (hs : WfStores s) : NextWf (execDelayResp from_ head r s) := by
  unfold execDelayResp
  refine .done ?_
  refine hs.hearPtp ?_
  intro _ hs
  split
  · exact .ite hs.discardPtp hs.wrw.modTime.measure
  · exact hs.discardPtp

theorem takeParent {port : Nat} {a : Announce} (hs : WfStores s) : WfStores (s.takeParent port a) :=
  (hs.when fun _ hs => hs.modTime).modTime.twr.wrw.wrw.twr.twr.twr.twr.twr.twr

theorem selectMaster {port : Nat} {a : Announce} (hs : WfStores s) : WfStores (s.selectMaster port a) :=
  hs.takeParent.ifThen fun hs => hs.bump.ifThen fun hs => hs.goServo

theorem keepMaster {a : Announce} (hs : WfStores s) : WfStores (s.keepMaster a) := hs.modTime

protected theorem execAnnounce {from_ : PtpFrom} {head : PtpHead} {gm : Grandmaster} {steps : BitVec 16} {utc : UtcInfo} (hs : WfStores s) :
    NextWf (execAnnounce from_ head gm steps utc s) := by
  unfold execAnnounce
  refine .done ?_
  refine hs.hearPtp ?_
  intro _ hs
  refine .ite hs.discardPtp ?_
  split
  · exact hs.selectMaster
  · refine .ite hs.discardPtp ?_
    dsimp only
    split
    · exact hs.keepMaster.selectMaster
    · exact hs.keepMaster

protected theorem execHoldoverTimeout (hs : WfStores s) : NextWf (execHoldoverTimeout s) := by
  unfold execHoldoverTimeout
  refine .done ?_
  dsimp only
  split
  · exact .selectMaster (.ite hs.holdOver hs)
  · exact .ite hs.holdOver hs

theorem srcChanged {old : Nat} (hs : WfStores s) : WfStores (s.srcChanged old) :=
  (hs.when fun _ hs => hs.modTime).ifThen fun hs => hs.goServo.twr.modTime

protected theorem execFollowerCompare {drift : List (BitVec 16)} (hs : WfStores s) : NextWf (execFollowerCompare drift s) :=
  (hs.bumpBy.modTime.foldl fun _ _ hs => hs.regionFault).done

protected theorem execChainSyncSend (hs : WfStores s) : NextWf (execChainSyncSend s) := .done (.ite hs.draw.sendPtp hs)

protected theorem execChainAnnounceSend (hs : WfStores s) : NextWf (execChainAnnounceSend s) := .done (.ite hs.draw.draw.sendPtp hs)

protected theorem execChainDelayReq {r : DelayReq} (hs : WfStores s) : NextWf (execChainDelayReq r s) :=
  .done (.ite hs (.ite hs.sendPtp hs.discardPtp))

protected theorem decideTmSet {p : Port} {ns slo shi : Nat} (hs : WfStores s) : WfStores (decideTmSet p ns slo shi s).2 :=
  .iteSnd hs (.iteSnd hs (.iteSnd hs (.iteSnd hs (.iteSnd hs (.iteSnd hs.twr.modTime hs.stepTime.twr)))))

protected theorem execTmSet {p : Port} {ns slo shi : Word} (hs : WfStores s) : NextWf (execTmSet p ns slo shi s) :=
  hs.command fun _ hs => hs.decideTmSet

/-! `Machine/Can.lean`. -/

theorem cwr {c : Fin 2} {f : Field} {v : Nat} (hs : WfStores s) : WfStores (s.cwr c f v) := hs.wr

theorem cbump {c : Fin 2} {f : Field} (hs : WfStores s) : WfStores (s.cbump c f) := hs.bump

theorem setBuf {c : Fin 2} {b n : Nat} (hs : WfStores s) : WfStores (s.setBuf c b n) := hs.cwr

theorem setCxl {c : Fin 2} {b : Nat} {v : Bool} (hs : WfStores s) : WfStores (s.setCxl c b v) := hs.cwr

theorem modBuf {c : Fin 2} {b : Nat} {f : TxBuf → TxBuf} (hs : WfStores s) : WfStores (s.modBuf c b f) := hs.modCan

theorem cutOff {c : Fin 2} (hs : WfStores s) : WfStores (s.cutOff c) := by
  unfold State.cutOff
  refine .modCan ?_
  split
  · exact hs.setBuf
  · exact hs

theorem canOff {c : Fin 2} (hs : WfStores s) : WfStores (s.canOff c) := .ite hs hs.cutOff.modCan.cwr

theorem clearErrs {c : Fin 2} (hs : WfStores s) : WfStores (s.clearErrs c) := hs.setReg.cwr

theorem canReconf {c : Fin 2} (hs : WfStores s) : WfStores (s.canReconf c) := .ite hs.canOff (.ite hs hs.clearErrs.modCan.cwr)

protected theorem execCanIntegration {c : Fin 2} (hs : WfStores s) : NextWf (execCanIntegration c s) := .done (.ite hs.cwr hs)

theorem setTec {c : Fin 2} {tec : Nat} (hs : WfStores s) : WfStores (s.setTec c tec) := hs.cwr

theorem setRec {c : Fin 2} {rec_ : Nat} (hs : WfStores s) : WfStores (s.setRec c rec_) := hs.cwr.cwr

theorem confine {c : Fin 2} (hs : WfStores s) : WfStores (s.confine c) := .ite hs (.ite hs.cutOff.modCan.cbump.cwr (.ite hs.cwr hs.cwr))

theorem raiseTec {c : Fin 2} {n : Nat} (hs : WfStores s) : WfStores (s.raiseTec c n) := hs.setTec

theorem raiseRec {c : Fin 2} {n : Nat} (hs : WfStores s) : WfStores (s.raiseRec c n) := hs.setRec

protected theorem execCanErrorStateChange {c : Fin 2} {tx rx : BitVec 5} (hs : WfStores s) : NextWf (execCanErrorStateChange c tx rx s) :=
  .done (.ite hs.raiseTec.raiseRec.confine hs)

protected theorem execBusOffRecovery {c : Fin 2} (hs : WfStores s) : NextWf (execBusOffRecovery c s) := .done (.ite hs.setReg.modCan.cwr hs)

protected theorem decideCanRecover {c : Fin 2} (hs : WfStores s) : WfStores (decideCanRecover c s).2 := .iteSnd hs.modCan hs

protected theorem execCanRecover {p : Port} {c : Fin 2} (hs : WfStores s) : NextWf (execCanRecover p c s) :=
  hs.command fun _ hs => hs.decideCanRecover

theorem putMailbox {m : Nat} {f : CanFrame} {sec ns : BitVec 32} (hs : WfStores s) : WfStores (s.putMailbox m f sec ns) :=
  (hs.when fun _ hs => hs.bump).wr.wr.wr.wr.wr.wr.wr.wrw.wrw.foldl fun _ _ hs => hs.setReg

theorem storeMailbox {m : Nat} {locked : Bool} {f : CanFrame} (hs : WfStores s) : WfStores (s.storeMailbox m locked f) :=
  .ite (hs.bump.modMb.when fun _ hs => hs.bump).modMb.wr hs.bump.modMb.putMailbox

theorem goodReception {c : Fin 2} (hs : WfStores s) : WfStores (s.goodReception c) := .ite hs.cwr.cwr.draw.setRec.confine hs.cwr.cwr.setRec

theorem takeFrameCan {c : Fin 2} {locked : Option Nat} {f : CanFrame} (hs : WfStores s) : WfStores (s.takeFrameCan c locked f) := by
  unfold State.takeFrameCan
  refine .ite hs ?_
  refine .ite (hs.cwr.raiseRec.confine.when fun _ hs => hs.emit) ?_
  dsimp only
  split
  · exact hs.goodReception.storeMailbox
  · exact hs.goodReception.cbump

protected theorem execCanFrameReceive {c : Fin 2} {f : CanFrame} (hs : WfStores s) : NextWf (execCanFrameReceive c f s) := hs.takeFrameCan.done

protected theorem execRemoteFrame {c : Fin 2} (hs : WfStores s) : NextWf (execRemoteFrame c s) := .done (.ite hs.goodReception.cbump hs)

theorem setLec {c : Fin 2} {e : CanFail} (hs : WfStores s) : WfStores (s.setLec c e) := by
  unfold State.setLec
  split
  · exact hs.cwr
  · exact hs

protected theorem execCanReceiveError {c : Fin 2} {e : CanFail} {more : BitVec 5} (hs : WfStores s) : NextWf (execCanReceiveError c e more s) :=
  .done (.ite (hs.setLec.raiseRec.confine.when fun _ hs => hs.emit) hs)

theorem unlockMailbox {m : Nat} (hs : WfStores s) : WfStores (s.unlockMailbox m) := by
  unfold State.unlockMailbox
  dsimp only
  split
  · exact hs.wr.modMb.putMailbox
  · exact hs

protected theorem execMailboxRead {p : Port} {m : Fin 32} {during : List CanFrame} (hs : WfStores s) : NextWf (execMailboxRead p m during s) :=
  hs.command fun _ hs => (hs.wr.foldl fun _ _ hs => hs.takeFrameCan).unlockMailbox.emit

theorem publishMailbox {m : Nat} (hs : WfStores s) : WfStores (s.publishMailbox m) := by
  unfold State.publishMailbox
  refine .ite ?_ ?_
  · exact hs.modMb.foldl fun _ _ hs => hs.setSig
  · exact (hs.modMb.foldl fun _ _ hs => hs.setSig.when fun _ hs => hs.modFab).wr.modMb.evalEnd.startToRun

protected theorem execMailboxTimeout {m : Fin 32} (hs : WfStores s) : NextWf (execMailboxTimeout m s) := .done (.ite hs.modMb hs)

protected theorem execCanFrameStart {c : Fin 2} (hs : WfStores s) : NextWf (execCanFrameStart c s) := by
  unfold execCanFrameStart
  refine .done ?_
  refine .ite hs ?_
  split
  · exact hs.setBuf.modCan.emit
  · exact hs.modCan.emit
  · exact hs

theorem measureDelay {c : Fin 2} {dataPhase : Bool} (hs : WfStores s) : WfStores (s.measureDelay c dataPhase) := .ite hs.draw.cwr hs

protected theorem execCanTxDone {c : Fin 2} (hs : WfStores s) : NextWf (execCanTxDone c s) := by
  unfold execCanTxDone
  refine .done ?_
  split
  · exact hs
  · refine .confine (.modCan (.setTec (.cwr (.cwr ?_))))
    split
    · exact hs.measureDelay.setBuf.setCxl
    · exact hs.measureDelay

protected theorem execCanTxError {c : Fin 2} {e : CanFail} {at_ : TxErrorAt} (hs : WfStores s) : NextWf (execCanTxError c e at_ s) := by
  unfold execCanTxError
  refine .done ?_
  split
  · exact hs
  · refine .confine ?_
    split
    · refine .ite ?_ ?_
      · exact (((hs.setLec.measureDelay.raiseTec.when fun _ hs => hs.emit).when fun _ hs => hs.cwr).when
          fun _ hs => hs.cwr.cbump).modCan.setBuf.setCxl
      · exact (((hs.setLec.measureDelay.raiseTec.when fun _ hs => hs.emit).when fun _ hs => hs.cwr).when fun _ hs => hs.cwr.cbump).modCan.setBuf
    · refine .ite ?_ ?_
      · exact (((hs.setLec.measureDelay.raiseTec.when fun _ hs => hs.emit).when fun _ hs => hs.cwr).when fun _ hs => hs.cwr.cbump).modCan.cbump
      · exact (((hs.setLec.measureDelay.raiseTec.when fun _ hs => hs.emit).when fun _ hs => hs.cwr).when fun _ hs => hs.cwr.cbump).modCan.modCan

protected theorem decideTxReq {c : Fin 2} {dlc : Nat} (hs : WfStores s) : WfStores (decideTxReq c dlc s).2 :=
  .iteSnd hs (.iteSnd hs (.iteSnd hs (.iteSnd hs hs.modBuf.setBuf)))

protected theorem decideTxCancel {c : Fin 2} (hs : WfStores s) : WfStores (decideTxCancel c s).2 := .iteSnd hs.setBuf (.iteSnd hs.setCxl hs)

protected theorem decideTxCmd {c : Fin 2} {w : Word} (hs : WfStores s) : WfStores (decideTxCmd c w s).2 :=
  .iteSnd hs (.iteSnd hs.decideTxReq (.iteSnd hs.decideTxCancel (.iteSnd hs hs.modBuf)))

protected theorem execTxRequest {p : Port} {c : Fin 2} (hs : WfStores s) : NextWf (execTxRequest p c s) := hs.command fun _ hs => hs.decideTxReq

protected theorem execTxCancel {p : Port} {c : Fin 2} (hs : WfStores s) : NextWf (execTxCancel p c s) := hs.command fun _ hs => hs.decideTxCancel

protected theorem execTransceiverSupplyFault {c : Fin 2} (hs : WfStores s) : NextWf (execTransceiverSupplyFault c s) :=
  (hs.canOff.modCan.foldl fun _ _ hs => hs.isolateCell).done

protected theorem execTransceiverSupplyGood {c : Fin 2} (hs : WfStores s) : NextWf (execTransceiverSupplyGood c s) :=
  (hs.modCan.foldl fun _ _ hs => hs.modCell).done

theorem exportFrame {c : Fin 2} {sigs : List Record} (hs : WfStores s) : WfStores (s.exportFrame c sigs) := by
  unfold State.exportFrame
  split
  · exact hs
  · exact .ite hs (.ite hs.cbump (hs.when fun _ hs => hs.cbump).modCan)

theorem exportCan (hs : WfStores s) : WfStores s.exportCan := .ite (hs.foldl fun _ _ hs => hs.foldl fun _ _ hs => hs.exportFrame) hs

theorem commitCan {old : List Record} (hs : WfStores s) : WfStores (s.commitCan old) := hs.foldl fun _ _ hs => hs.modCan

theorem startMailbox {m : Nat} (hs : WfStores s) : WfStores (s.startMailbox m) := hs.modMb

/-! `Machine/Journal.lean`. -/

theorem bankFault {b base : Bool} {i : Nat} (hs : WfStores s) : WfStores (s.bankFault b base i) := .ite hs hs.setFlag.modBank

theorem poisonSignals {ids : List Nat} (hs : WfStores s) : WfStores (s.poisonSignals ids) := hs.foldl fun _ _ hs => hs.setSig

theorem abandonPair {n : Nat} (hs : WfStores s) : WfStores (s.abandonPair n) := by
  unfold State.abandonPair
  split
  · exact .ite hs.modMgmt.respond hs
  · exact hs

theorem loseWord {a : Config.WordItem} (hs : WfStores s) : WfStores (s.loseWord a) := by
  unfold State.loseWord
  split
  · exact hs.poisonSignals.foldl fun _ _ hs => hs.blockError
  · exact .ite hs.modCell.blockError hs
  · exact hs.blockError
  · exact hs.modToc.blockError
  · exact hs.modPnl.blockError
  · exact hs.bankFault.blockError
  · exact .ite hs.abandonPair.blockError hs
  · exact hs

theorem readOf {m : MemKind} {region granule : Nat} {word : WordRead} (hs : WfStores s) : WfStores (s.readOf m region granule word) :=
  hs.meetWord.when fun _ hs => hs.loseWord

protected theorem execBlockError {block : Nat × Nat} {e : BlockFault} (hs : WfStores s) : NextWf (execBlockError block e s) := by
  unfold execBlockError
  refine .done (.blockError ?_)
  split
  · exact hs.meetWord
  · exact hs

protected theorem execScrubStep {m : MemKind} {granule : Nat} {flips : BitVec 276} (hs : WfStores s) : NextWf (execScrubStep m granule flips s) := by
  unfold execScrubStep
  refine .done ?_
  refine .ite hs ?_
  split
  · exact hs.readOf.wr.when fun _ hs => hs.wr
  · exact hs.readOf
  · exact .ite hs ((hs.readOf.when fun _ hs => hs.wearBlocks).when fun _ hs => hs.wr)

protected theorem execJournalTransactionCommit {homes : List Nat} {fails : Nat} {worn : List Nat} (hs : WfStores s) :
    NextWf (execJournalTransactionCommit homes fails worn s) :=
  .done (.ite hs hs.commitTxn.emit)

protected theorem execJournalApply {granules : Nat} {o : NvOutcome} (hs : WfStores s) : NextWf (execJournalApply granules o s) :=
  .done (.ite hs hs.applyPend)

theorem closeJournal {o : NvOutcome} (hs : WfStores s) : WfStores (s.closeJournal o) := hs.applyPend.setFlag

protected theorem execBlockRetirement {logical : Nat} (hs : WfStores s) : NextWf (execBlockRetirement logical s) := .done (.ite hs hs.retire)

protected theorem execWearLevelExchange {hi lo : Nat} (hs : WfStores s) : NextWf (execWearLevelExchange hi lo s) :=
  .done (.ite hs hs.setPhys.setPhys.modJrn.setWear.setWear.showWear)

/-! `Machine/Panel.lean`. -/

theorem pwr_ {f : Field} {v : Nat} (hs : WfStores s) : WfStores (s.pwr_ f v) := hs.wr

theorem setPixel {i : Nat} {x : Pixel} (hs : WfStores s) : WfStores (s.setPixel i x) := hs.modPnl

theorem showSlots (hs : WfStores s) : WfStores s.showSlots := hs.pwr_

protected theorem execPanelFrame (hs : WfStores s) : NextWf (execPanelFrame s) := by
  unfold execPanelFrame
  refine .done ?_
  refine .ite hs ?_
  refine .showSlots (.pwr_ (.modPnl ?_))
  refine hs.foldl ?_
  intro _ _ hs
  dsimp only
  split
  · exact hs.setPixel.ifElse fun hs => hs.modPnl.bump
  · exact hs.setPixel

protected theorem execPanelTemperature {temp : Word} (hs : WfStores s) : NextWf (execPanelTemperature temp s) :=
  .done (.ite hs hs.wrw.pwr_.setFlag.modPnl)

theorem takePixel {w : PixelWait} {i : Nat} (hs : WfStores s) : WfStores (s.takePixel w i) := by
  unfold State.takePixel
  dsimp only
  split
  · exact hs.setPixel
  · exact .ite hs.setPixel hs

theorem acceptUpdate {slot : Nat} {full : Bool} {pixels : List Nat} (hs : WfStores s) : WfStores (s.acceptUpdate slot full pixels) :=
  ((hs.bump.modPnl.foldl fun _ _ hs => hs.bump.bump.blockError).foldl fun _ _ hs => hs.takePixel).showSlots

theorem setPanelCfg {w : Word} (hs : WfStores s) : WfStores (s.setPanelCfg w) := hs.setReg.modPnl

protected theorem decideUpdate {byRenderer : Bool} (hs : WfStores s) : WfStores (decideUpdate byRenderer s).2 :=
  .iteSnd hs.bump (.iteSnd hs.bump (.iteSnd hs.bump (.iteSnd hs.bump hs.acceptUpdate)))

protected theorem execUpdateRequest {p : Port} {byRenderer : Bool} (hs : WfStores s) : NextWf (execUpdateRequest p byRenderer s) :=
  .iteNext (.done (.ite hs hs.decideUpdate)) (hs.command fun _ hs => hs.decideUpdate)

theorem fbWrite {at_ : Nat} {l : List Byte} (hs : WfStores s) : WfStores (s.fbWrite at_ l) := by
  induction l generalizing s at_ with
  | nil => exact hs
  | cons b l ih => exact ih hs.modPnl

protected theorem decideFrameBuffer {granule : Word} {data : List Word} (hs : WfStores s) : WfStores (decideFrameBuffer granule data s).2 :=
  .iteSnd hs (.iteSnd hs (.iteSnd hs (hs.pwr_.foldl fun _ _ hs => hs.setReg).modPnl.fbWrite))

protected theorem execFrameBufferWrite {p : Port} {granule : Word} {data : List Word} (hs : WfStores s) :
    NextWf (execFrameBufferWrite p granule data s) :=
  hs.command fun _ hs => hs.decideFrameBuffer

theorem fbPixel {i : Nat} {v : BitVec 4} (hs : WfStores s) : WfStores (s.fbPixel i v) := hs.modPnl

theorem drawRow {slot : Fin 8} {layout row : Nat} {t : Config.RowText} (hs : WfStores s) : WfStores (s.drawRow slot layout row t) :=
  .ite (hs.foldl fun _ _ hs => hs.fbPixel).bump (hs.foldl fun _ _ hs => hs.fbPixel).acceptUpdate

protected theorem execPageRender {slot : Fin 8} (hs : WfStores s) : NextWf (execPageRender slot s) :=
  .done (.ite hs (hs.modPnl.foldl fun _ _ hs => hs.drawRow).setFlag)

protected theorem execPageStale (hs : WfStores s) : NextWf (execPageStale s) := .done (.ite hs hs.setFlag)

theorem panelInit (hs : WfStores s) : WfStores s.panelInit := .ite hs hs.setFlag.modPnl

protected theorem execInitUpdateComplete (hs : WfStores s) : NextWf (execInitUpdateComplete s) := .done (.ite hs.setFlag.modPnl.showSlots hs)

theorem panelStop (hs : WfStores s) : WfStores s.panelStop := hs.setFlag.modPnl.showSlots

theorem panelDischarge (hs : WfStores s) : WfStores s.panelDischarge := hs.panelStop.modPnl.pwr_

/-! `Machine/Stored.lean`. -/

theorem setNetCfg {p : Path} {w : Word} (hs : WfStores s) : WfStores (s.setNetCfg p w) :=
  hs.setReg.ifElse fun hs => .ite hs.nset.modPath.identify.updateElig hs.nset.modPath.pathOff

theorem putStored {r : StoredReg} {a : Nat} {w : Word} (hs : WfStores s) : WfStores (s.putStored r a w) := by
  unfold State.putStored
  split
  · exact hs.setNetCfg
  · exact hs.setReg.setReg
  · exact hs.setReg.srcChanged
  · exact hs.setReg.canReconf
  · exact hs.setReg.canReconf
  · exact hs.setReg.canReconf
  · exact hs.setReg.canReconf
  · exact hs.setReg

theorem takeStored {r : StoredReg} {a : Nat} {w : Word} (hs : WfStores s) : WfStores (s.takeStored r a w) := .ite hs.stage hs.putStored

protected theorem decideStored {p : Port} {a : Nat} {w : Word} (hs : WfStores s) : WfStores (decideStored p a w s).2 := by
  unfold decideStored
  split
  · exact hs
  · exact .iteSnd hs hs.takeStored

protected theorem execStoredRegisterWrite {p : Port} {a : BitVec 32} {w : Word} {o : NvOutcome} (hs : WfStores s) :
    NextWf (execStoredRegisterWrite p a w o s) :=
  hs.command fun _ hs => hs.journaled fun _ hs => hs.decideStored

/-! `Machine/Power.lean`. -/

theorem takeMode (hs : WfStores s) : WfStores s.takeMode := (hs.wr.ifThen fun hs => hs.wr.wr).ifThen fun hs => hs.wr.wr

theorem resetBy {c : ResetCause} : WfStores (s.resetBy c) := by
  unfold State.resetBy
  extract_lets _ _ _ _ r
  have hr : WfStores r := WfStores.of_eq .reset rfl rfl
  refine .takeMode (.when (.when (.when (.wr (.setFlag (.setFlag (.when (.foldl (.foldl hr ?_) ?_) ?_)))) ?_) ?_) ?_)
  · exact fun _ _ hs => hs.setReg
  · exact fun _ _ hs => hs.wr
  · exact fun _ hs => hs.setFlag
  · exact fun _ hs => hs.wr
  · exact fun _ hs => hs.bump
  · exact fun _ hs => hs.bump

protected theorem execResetSource {causes : List ResetCause} (hs : WfStores s) : NextWf (execResetSource causes s) := by
  unfold execResetSource
  refine .done ?_
  split
  · exact hs
  · exact .ite .resetBy (.ite (.ite .resetBy hs) (.ite (.ite .resetBy hs) (.ite hs.withPwr hs)))

theorem setRef {k : ClockId} {good : Bool} (hs : WfStores s) : WfStores (s.setRef k good) := by
  unfold State.setRef
  split
  · exact hs.modPwr.setFlag
  · exact hs

protected theorem execClockFault {k : ClockId} (hs : WfStores s) : NextWf (execClockFault k s) := by
  unfold execClockFault
  split
  · exact hs.setFlag.execResetSource
  · exact hs.regionFault.done
  · exact hs.setRef.islandFault.done
  · exact hs.setRef.islandFault.done
  · exact hs.setRef.linkLoss.linkLoss.done

protected theorem execReferenceClockReturn {k : ClockId} (hs : WfStores s) : NextWf (execReferenceClockReturn k s) := by
  unfold execReferenceClockReturn
  refine .done ?_
  split
  · exact hs.setRef.identify.updateElig
  · exact hs.setRef.identify.updateElig
  · exact hs.setRef
  · exact hs

protected theorem decideHutest (hs : WfStores s) : WfStores (decideHutest s).2 := .iteSnd hs (.iteSnd hs hs.modPwr)

protected theorem execHutest {p : Port} (hs : WfStores s) : NextWf (execHutest p s) := hs.command fun _ hs => hs.decideHutest

theorem measured {uf : Nat} (hs : WfStores s) : WfStores (s.measured uf) := .ite hs.wr.setFlag (hs.wr.ifThen fun hs => hs.setFlag)

protected theorem execBankMeasurementComplete {uf : BitVec 16} (hs : WfStores s) : NextWf (execBankMeasurementComplete uf s) :=
  .done (.ite hs.modPwr.measured hs)

protected theorem execHulowTimeout (hs : WfStores s) : NextWf (execHulowTimeout s) := .done (.ite hs hs.setFlag)

theorem setBank {v : Nat} (hs : WfStores s) : WfStores (s.setBank v) := hs.wr.setFlag

protected theorem execHuready {vbank : BitVec 16} (hs : WfStores s) : NextWf (execHuready vbank s) := hs.setBank.done

theorem setSup {mv : Nat} (hs : WfStores s) : WfStores (s.setSup mv) := hs.wr.setFlag.setFlag

protected theorem execSuplow {supMv : BitVec 16} (hs : WfStores s) : NextWf (execSuplow supMv s) := hs.setSup.done

theorem bootActive (hs : WfStores s) : WfStores s.bootActive := hs.modImg.setFlag.setFlag

theorem updateBoot {o : NvOutcome} (hs : WfStores s) : WfStores (s.updateBoot o) := .ite (hs.commitTxn.ifThen fun hs => hs.bootActive) hs

theorem cutSave (hs : WfStores s) : WfStores s.cutSave := .ite hs.wr hs

theorem shed (hs : WfStores s) : WfStores s.shed :=
  (((hs.abandonCommit.cutSave.modFab.leaveService.goMst.setTstate.foldl fun _ _ hs => hs.syncOff).drive.foldl
    fun _ _ hs => .ite hs.driveCell hs).chainOff.canOff.canOff.queueOff.foldl fun _ _ hs => hs.modPath).modNet.panelStop.modTab.wr.modMgmt

theorem sendLastgasp {supMv : Nat} (hs : WfStores s) : WfStores (s.sendLastgasp supMv) := by
  unfold State.sendLastgasp
  refine .ite (.ite hs hs.emit) ?_
  split
  · exact hs.emit
  · exact hs.emit
  · exact hs

theorem stepDone {n : Nat} (hs : WfStores s) : WfStores (s.stepDone n) := hs.modPwr.wr

theorem stepWork {supMv : Nat} {o : NvOutcome} {a : Nat} (hs : WfStores s) : WfStores (s.stepWork supMv o a) := by
  unfold State.stepWork
  split
  · exact hs.closeJournal.when fun _ hs => hs.bootActive
  · exact hs.recFlush
  · exact hs.sendLastgasp
  · exact hs.panelDischarge
  · exact hs

theorem runSequence {supMv : Nat} {checks : List (BitVec 16)} {vbank : BitVec 16} {stop : Nat} {o : NvOutcome} {fuel : Nat} (hs : WfStores s) :
    WfStores (s.runSequence supMv checks vbank stop o fuel) := by
  induction fuel generalizing s with
  | zero => exact hs
  | succ fuel ih => exact .ite hs (.ite hs.modPwr (.ite hs.modPwr (ih hs.stepWork.stepDone)))

protected theorem execPowerFail {volts : PfVolts} {checks : List (BitVec 16)} {stop : Fin 6} {o : NvOutcome} (hs : WfStores s) :
    NextWf (execPowerFail volts checks stop o s) :=
  .done (.ite (.ite hs hs.setBank.runSequence) hs.setSup.setBank.modPwr.setReg.shed.setFlag.runSequence)

theorem cutFlush (hs : WfStores s) : WfStores s.cutFlush := .ite hs.recFlush hs.recFlushOff

theorem endSequence {durUs emj vend : BitVec 16} (hs : WfStores s) : WfStores (s.endSequence durUs emj vend) :=
  (hs.when fun _ hs => hs.cutFlush).wr.setFlag.setFlag.wr.setBank.wr.wr.wr.modPwr

protected theorem execBankExhausted {below12 : Bool} {durUs emj vend : BitVec 16} (hs : WfStores s) :
    NextWf (execBankExhausted below12 durUs emj vend s) :=
  .done (.ite hs (.ifThen (.ite hs hs.withPwr.endSequence) fun hs => hs.modPwr))

protected theorem execPowerFailSequenceEnd {durUs emj vend : BitVec 16} {supPresent : Bool} (hs : WfStores s) :
    NextWf (execPowerFailSequenceEnd durUs emj vend supPresent s) :=
  .done (.ite hs (hs.endSequence.ifThen fun _ => .resetBy))

protected theorem execSupPresent (hs : WfStores s) : NextWf (execSupPresent s) := .done (.ite .resetBy hs)

/-! `Machine/ImageCmd.lean`. -/

theorem setPhase {n : Nat} (hs : WfStores s) : WfStores (s.setPhase n) := hs.wr

theorem setResult {c : Code} (hs : WfStores s) : WfStores (s.setResult c) := hs.wr

theorem endOp {c : Code} (hs : WfStores s) : WfStores (s.endOp c) := hs.setPhase.setResult

theorem nameBank {b : Bool} (hs : WfStores s) : WfStores (s.nameBank b) := hs.setFlag

theorem endStaging (hs : WfStores s) : WfStores s.endStaging := hs.modBank.modBank

protected theorem decideOpen {b : Bool} (hs : WfStores s) : WfStores (decideOpen b s).2 :=
  .iteSnd hs (.iteSnd hs hs.nameBank.setFlag.setFlag.setFlag.endStaging.modBank.wr.setPhase.modImg)

protected theorem execImgOpen {p : Port} {b : Bool} (hs : WfStores s) : NextWf (execImgOpen p b s) := hs.command fun _ hs => hs.decideOpen

protected theorem execOpenComplete (hs : WfStores s) : NextWf (execOpenComplete s) := .done (.ite hs.endOp hs)

protected theorem decideUnit {u : BitVec 288} (hs : WfStores s) : WfStores (decideUnit u s).2 := by
  unfold decideUnit
  refine .iteSnd hs ?_
  refine .iteSnd hs ?_
  split
  · exact hs
  · exact .iteSnd hs (.iteSnd hs (.iteSnd hs (.pair (hs.modBank.wr.setFlag.when fun _ hs => hs.bump))))

protected theorem execRecordUnit {p : Port} {u : BitVec 288} (hs : WfStores s) : NextWf (execRecordUnit p u s) := hs.command fun _ hs => hs.decideUnit

protected theorem decideValidate {b : Bool} (hs : WfStores s) : WfStores (decideValidate b s).2 :=
  .iteSnd hs (.iteSnd hs hs.nameBank.endStaging.modBank.setFlag.setPhase.modImg)

protected theorem execImgValidate {p : Port} {b : Bool} (hs : WfStores s) : NextWf (execImgValidate p b s) := hs.command fun _ hs => hs.decideValidate

theorem recordVerdict {b : Bool} {v : Verdict} (hs : WfStores s) : WfStores (s.recordVerdict b v) := hs.setFlag.modBank.wr.setFlag.wr

protected theorem execValidateComplete (hs : WfStores s) : NextWf (execValidateComplete s) := .done (.ite hs.recordVerdict.endOp hs)

protected theorem decideSave {b : Bool} (hs : WfStores s) : WfStores (decideSave b s).2 :=
  .iteSnd hs (.iteSnd hs (.iteSnd hs (.iteSnd hs (.iteSnd hs.nameBank hs.nameBank.modBank.setPhase.modImg))))

protected theorem execImgSave {p : Port} {b : Bool} (hs : WfStores s) : NextWf (execImgSave p b s) := hs.command fun _ hs => hs.decideSave

protected theorem execSaveComplete {blocks : List Nat} {o : NvOutcome} (hs : WfStores s) : NextWf (execSaveComplete blocks o s) :=
  .done (.ite hs (.ite hs.nvWrite.endOp (hs.nvWrite.modBank.setFlag.endOp.when fun _ hs => hs.modImg.updateBoot)))

theorem commitLate (hs : WfStores s) : WfStores s.commitLate := .ite hs.abandonCommit hs

theorem prepare {b atStroke : Bool} {at_ : Word} (hs : WfStores s) : WfStores (s.prepare b atStroke at_) := hs.setPhase.modImg

protected theorem decideCommit {b atStroke : Bool} {at_ : Word} (hs : WfStores s) : WfStores (decideCommit b atStroke at_ s).2 :=
  .iteSnd hs (.iteSnd hs (.iteSnd hs (.iteSnd hs hs.nameBank.setFlag.endStaging.prepare.commitLate)))

protected theorem execImgCommit {p : Port} {b atStroke : Bool} (hs : WfStores s) : NextWf (execImgCommit p b atStroke s) :=
  hs.command fun _ hs => hs.decideCommit

protected theorem execPreparationComplete (hs : WfStores s) : NextWf (execPreparationComplete s) := .done (.ite hs.setPhase.commitLate hs)

protected theorem execBootBankUpdate (hs : WfStores s) : NextWf (execBootBankUpdate s) := .done (.ite hs.drawOutcome.updateBoot hs)

protected theorem decideAbort (hs : WfStores s) : WfStores (decideAbort s).2 := by
  unfold decideAbort
  refine .iteSnd hs ?_
  refine .iteSnd ?_ ?_
  · exact hs.endStaging
  · exact .iteSnd hs.endStaging.abandonCommit (.iteSnd hs.endStaging.endOp hs.endStaging.setFlag.modBank.endOp)

protected theorem execImgAbort {p : Port} (hs : WfStores s) : NextWf (execImgAbort p s) := hs.command fun _ hs => hs.decideAbort

protected theorem decideImgNop (hs : WfStores s) : WfStores (decideImgNop s).2 := hs

protected theorem execImgNop {p : Port} (hs : WfStores s) : NextWf (execImgNop p s) := hs.command fun _ hs => hs.decideImgNop

protected theorem decideKeyInstall {p : Port} {slot : Nat} {key : BitVec 256} (hs : WfStores s) : WfStores (decideKeyInstall p slot key s).2 :=
  .iteSnd hs (.iteSnd hs (.iteSnd hs hs.wr.modImg))

protected theorem execKeyInstall {p : Port} {w : KeySlotWrite} {key : BitVec 256} (hs : WfStores s) : NextWf (execKeyInstall p w key s) :=
  hs.command fun _ hs => hs.journaled fun _ hs => hs.decideKeyInstall

protected theorem decideKeyRevoke {p : Port} {slot : Nat} (hs : WfStores s) : WfStores (decideKeyRevoke p slot s).2 :=
  .iteSnd hs (.iteSnd hs (.iteSnd hs (.iteSnd hs hs.wr.modImg)))

protected theorem execKeyRevoke {p : Port} {w : KeySlotWrite} (hs : WfStores s) : NextWf (execKeyRevoke p w s) :=
  hs.command fun _ hs => hs.journaled fun _ hs => hs.decideKeyRevoke

protected theorem decideKeyNop (hs : WfStores s) : WfStores (decideKeyNop s).2 := hs

protected theorem execKeyNop {p : Port} (hs : WfStores s) : NextWf (execKeyNop p s) := hs.command fun _ hs => hs.decideKeyNop

/-! `Machine/Tabor.lean`. -/

theorem taborHeard (hs : WfStores s) : WfStores s.taborHeard := hs.modPath

theorem reply41 {requester exception : Nat} {data : List (BitVec 16)} (hs : WfStores s) : WfStores (s.reply41 requester exception data) := hs.emit

theorem showTab (hs : WfStores s) : WfStores s.showTab := hs.wr.wr.setFlag

theorem legacyRead {a : Nat} (hs : WfStores s) : WfStores (s.legacyRead a).2 := by
  unfold State.legacyRead
  split
  · exact hs
  · exact hs.draw

theorem legacyReads {old new : List (BitVec 16 × BitVec 16 × Nat)} {requester : Nat} {l : List Nat} (hs : WfStores s) :
    WfStores (s.legacyReads old new requester l).2.2 := by
  induction l generalizing s new with
  | nil => exact hs
  | cons a l ih =>
    refine ih ?_
    split
    · exact hs
    · exact hs.legacyRead

protected theorem execReadRegisters {requester : Nat} {addr : BitVec 16} {n : Nat} (hs : WfStores s) :
    NextWf (execReadRegisters requester addr n s) := by
  unfold execReadRegisters
  refine .done ?_
  refine .ite hs ?_
  refine .ite ?_ ?_
  · exact hs.taborHeard.modTab.reply41
  · exact .ite hs.taborHeard.modTab.reply41 hs.taborHeard.modTab.legacyReads.modTab.reply41

protected theorem decideGains0 {k : Nat} {ws : List (Nat × Word)} (hs : WfStores s) : WfStores (decideGains0 k ws s).2 := by
  unfold decideGains0
  split
  · exact hs
  · exact .pair (hs.foldl fun _ _ hs => hs.stage)

protected theorem decideOutputs {mask val : Nat} (hs : WfStores s) : WfStores (decideOutputs mask val s).2 :=
  hs.foldlSnd fun _ _ hs => .iteSnd hs hs.decideFcParam

protected theorem legacyNative {a v : Nat} (hs : WfStores s) : WfStores (legacyNative a v s).2 := by
  unfold legacyNative
  refine .iteSnd hs.decideFcParam ?_
  split
  · exact hs.decideLoopStaged
  · exact hs.decideLoopStaged
  · exact hs.decideLoopMode
  · exact hs.decideGains0
  · exact hs

protected theorem pairNative {a lo hi : Nat} (hs : WfStores s) : WfStores (pairNative a lo hi s).2 := by
  unfold pairNative
  refine .iteSnd hs.decideOutputs ?_
  split
  · exact hs.decideGains0
  · exact hs.decideLoopStaged
  · exact hs

protected theorem pairOf {a v b w : Nat} (hs : WfStores s) : WfStores (pairOf a v b w s).2 := .iteSnd hs.pairNative hs.pairNative

theorem dropPending {a : Nat} (hs : WfStores s) : WfStores (s.dropPending a) := hs.modTab

theorem holdPending {a v : Nat} (hs : WfStores s) : WfStores (s.holdPending a v) := hs.dropPending.modTab

theorem legacyWrite {all : List (Nat × Nat)} {a v : Nat} (hs : WfStores s) : WfStores (s.legacyWrite all a v).2.2 := by
  unfold State.legacyWrite
  split
  · exact hs.legacyNative
  · split
    · exact .iteSnd2 hs hs.pairOf.dropPending.dropPending
    · split
      · exact hs.holdPending
      · exact hs.pairOf.dropPending
      · exact .iteSnd2 hs hs.holdPending

theorem legacyWrites {all l : List (Nat × Nat)} (hs : WfStores s) : WfStores (s.legacyWrites all l).2.2 := by
  induction l generalizing s with
  | nil => exact hs
  | cons e l ih => exact .iteSnd2 hs.legacyWrite (ih hs.legacyWrite)

theorem decideLegacy {ws : List (Nat × Nat)} (hs : WfStores s) : WfStores (s.decideLegacy ws).2 := by
  unfold State.decideLegacy
  split
  · exact hs
  · refine .iteSnd hs.legacyWrites.showTab ?_
    split
    · exact hs.dropPending.showTab
    · exact hs

protected theorem execWriteRegisters {requester : Nat} {writes : List (BitVec 16 × BitVec 16)} (hs : WfStores s) :
    NextWf (execWriteRegisters requester writes s) :=
  .done (.ite hs (.ite hs.taborHeard.modTab.reply41 hs.taborHeard.modTab.decideLegacy.reply41))

theorem discardPending {a : Nat} (hs : WfStores s) : WfStores (s.discardPending a) := hs.dropPending.wr.wr.bump.showTab.notice

protected theorem execPairDiscard {addr : BitVec 16} (hs : WfStores s) : NextWf (execPairDiscard addr s) := by
  unfold execPairDiscard
  refine .done ?_
  split
  · exact .ite hs.discardPending hs
  · exact hs

theorem agePairs (hs : WfStores s) : WfStores s.agePairs := hs.modTab

theorem commitPairs {changed : List Nat} (hs : WfStores s) : WfStores (s.commitPairs changed) := hs.foldl fun _ _ hs => hs.discardPending

protected theorem execUnsupportedMessage {ty : Byte} (hs : WfStores s) : NextWf (execUnsupportedMessage ty s) := .done (.ite hs.reply41 hs)

theorem broadcast (hs : WfStores s) : WfStores s.broadcast := .ite (.emit (hs.foldlSnd fun _ _ hs => hs.legacyRead)) hs

theorem addAlarm {kind : AlarmKind} {source newState : BitVec 16} (hs : WfStores s) : WfStores (s.addAlarm kind source newState) :=
  hs.modTab.bump.showTab

protected theorem execAlarmQueueAccept {event : AlarmKind} {source newState : BitVec 16} (hs : WfStores s) :
    NextWf (execAlarmQueueAccept event source newState s) := by
  unfold execAlarmQueueAccept
  refine .done ?_
  split
  · exact hs
  · exact .ite hs (.ite hs.modTab.modTab.bump.showTab hs.modTab.addAlarm)

theorem overflowEntry (hs : WfStores s) : WfStores s.overflowEntry := .ite hs hs.draw.modTab.addAlarm

protected theorem execAlarmQueueRead (hs : WfStores s) : NextWf (execAlarmQueueRead s) := by
  unfold execAlarmQueueRead
  refine .done ?_
  refine .ite hs ?_
  dsimp only
  split
  · exact hs.taborHeard.reply41
  · exact hs.taborHeard.draw.reply41

protected theorem execAlarmAcknowledge {seq : BitVec 16} (hs : WfStores s) : NextWf (execAlarmAcknowledge seq s) := by
  unfold execAlarmAcknowledge
  refine .done ?_
  refine .ite hs ?_
  dsimp only
  split
  · exact .ite hs.taborHeard.modTab.bump.overflowEntry.showTab.reply41 hs.taborHeard.reply41
  · exact hs.taborHeard.reply41

protected theorem execTimeSet {ms : BitVec 48} (hs : WfStores s) : NextWf (execTimeSet ms s) := .done (.ite hs hs.taborHeard.decideTmSet.reply41)

protected theorem decideModeNext {p : Port} {next : Bool} (hs : WfStores s) : WfStores (decideModeNext p next s).2 :=
  .iteSnd hs (.iteSnd hs (.iteSnd hs hs.setFlag))

protected theorem execModeNextWrite {p : Port} {next : Bool} {o : NvOutcome} (hs : WfStores s) : NextWf (execModeNextWrite p next o s) :=
  hs.command fun _ hs => hs.journaled fun _ hs => hs.decideModeNext

/-! `Machine/Commit.lean`. -/

theorem clearCounters {id : Nat} (hs : WfStores s) : WfStores (s.clearCounters id) := by
  unfold State.clearCounters
  split
  · exact hs.foldl fun _ _ hs => hs.wr
  · exact hs

theorem startTo {id : Nat} (hs : WfStores s) : WfStores (s.startTo id) := hs.setTripped.modToc

theorem startCell {id : Nat} {c : StartCause} {old : List Record} (hs : WfStores s) : WfStores (s.startCell id c old) := by
  unfold State.startCell
  dsimp only
  split
  · exact hs.setCst.startUc
  · exact hs.setCst.startDp
  · exact hs.setCst.startAx
  · exact hs.setCst.startPh
  · exact hs.setCst.startLp
  · exact .ite hs.setCst.startFc hs.setCst.modFc
  · exact hs.setCst.startTo
  · exact hs.setCst.when fun _ hs => hs.startPeer
  · exact hs.setCst.when fun _ hs => hs.startQp
  · exact hs.setCst.startMailbox
  · exact hs.setCst

theorem forgetKind {id : Nat} (hs : WfStores s) : WfStores (s.forgetKind id) := by
  unfold State.forgetKind
  dsimp only
  split
  · exact hs.modUc
  · exact hs.modDp
  · exact hs.modAx
  · exact hs.modPh
  · exact hs.modLp
  · exact hs.modFc
  · exact hs.modPeer
  · exact hs.modQp
  · exact hs

theorem forgetCell {id : Nat} (hs : WfStores s) : WfStores (s.forgetCell id) := hs.modCell.modFab.forgetKind

theorem removeCell {id : Nat} (hs : WfStores s) : WfStores (s.removeCell id) := by
  unfold State.removeCell
  refine .dropPage (.forgetCell (.unforce ?_))
  split
  · exact hs.permitAt
  · exact hs.stopQp
  · exact hs.startTo
  · exact hs.modMb
  · exact hs

theorem meetStart {id : Nat} (hs : WfStores s) : WfStores (s.meetStart id) :=
  (((hs.when fun _ hs => hs.lineCell).when fun _ hs => hs.takeSafe).when fun _ hs => hs.isolateCell).when fun _ hs => hs.isolateCell

theorem newCell {old : List Record} {id : Nat} (hs : WfStores s) : WfStores (s.newCell old id) :=
  (hs.forgetCell.when fun _ hs => hs.dropPage).setFlag.wr.startCell.meetStart

theorem changeCell {old : List Record} {id : Nat} (hs : WfStores s) : WfStores (s.changeCell old id) := by
  unfold State.changeCell
  refine .meetStart ?_
  refine .ite ?_ ?_
  · refine .changePh ?_
    refine .when ?_ fun _ hs => hs.wr
    refine .modCell (.setFlag (.wr (.setFlag (.clearCounters (.wrw (.wr (.unforce ?_)))))))
    split
    · exact hs.stopQp
    · exact hs.clearPage
    · exact hs
  · refine .startCell ?_
    refine .when ?_ fun _ hs => hs.wr
    refine .modCell (.setFlag (.wr (.setFlag (.clearCounters (.wrw (.wr (.unforce ?_)))))))
    split
    · exact hs.stopQp
    · exact hs.clearPage
    · exact hs

theorem startTripIn {r : Record} (hs : WfStores s) : WfStores (s.startTripIn r) := hs.modTin.setFlag

theorem commitTripins {old new : List Record} (hs : WfStores s) : WfStores (s.commitTripins old new) :=
  ((hs.foldl fun _ _ hs => hs.endBypass.modTin.setFlag).foldl fun _ _ hs => (hs.endBypass.when fun _ hs => hs.modUc).startTripIn).modToc.countBypasses

theorem showImage {b : Bool} (hs : WfStores s) : WfStores (s.showImage b) := hs.wrw.wrw.wrw.wrw.wrw

theorem replaceDirectory {new : List Record} (hs : WfStores s) : WfStores (s.replaceDirectory new) := hs.modFab

theorem takeCommit {b : Bool} {new : List Record} {load : Bool} (hs : WfStores s) : WfStores (s.takeCommit b new load) := by
  unfold State.takeCommit
  refine .modImg (.setFlag (.endOp (.bump (.showImage (.commitPairs ?_)))))
  refine .ite ?_ ?_
  · exact ((((hs.modImg.setFlag.modToc.replaceDirectory.wr.foldl fun _ _ hs => hs.removeCell).foldl fun _ _ hs => hs.changeCell).foldl
      fun _ _ hs => hs.newCell).foldl fun _ _ hs => hs.sumLoad).commitTripins.rebindImports.commitCan.recStart
  · exact ((((hs.modImg.setFlag.modToc.replaceDirectory.wr.foldl fun _ _ hs => hs.removeCell).foldl fun _ _ hs => hs.changeCell).foldl
      fun _ _ hs => hs.newCell).foldl fun _ _ hs => hs.sumLoad).commitTripins.rebindImports.commitCan.commitRec

/-! `Machine/StartUp.lean`. -/

protected theorem execRailsGoodPllLocked (hs : WfStores s) : NextWf (execRailsGoodPllLocked s) := by
  unfold execRailsGoodPllLocked
  refine .done ?_
  refine .ite ?_ ?_
  · exact hs
  · exact (hs.goMst.setFlag.setFlag.setFlag.setFlag.setFlag.foldl fun _ _ hs => hs.setFlag).chainOn.identify.identify

theorem takeAddr {v : Nat} (hs : WfStores s) : WfStores (s.takeAddr v) := hs.modChain.chime.confirmTail

theorem enumToken {v : Nat} (hs : WfStores s) : WfStores (s.enumToken v) := hs.modChain.ifElse fun hs => .ite hs.takeAddr hs.setFlag.chime.leaveEnum

protected theorem execChimeHeadStart (hs : WfStores s) : NextWf (execChimeHeadStart s) :=
  .done (.ite hs (.ite hs.setFlag.takeAddr (.ite hs hs.chime)))

protected theorem execChimeToken {port : ChainPort} {v : BitVec 8} (hs : WfStores s) : NextWf (execChimeToken port v s) :=
  .done (.ite hs (.ite (.ite hs.modChain hs) (.ite (.ite hs.enumToken hs) (.ite hs (.ite hs.chime hs.chime)))))

protected theorem execChimeEnd {v : BitVec 8} (hs : WfStores s) : NextWf (execChimeEnd v s) := .done (.ite hs (.ite hs.confirmAddr hs.wr.chime))

protected theorem execChimeClash (hs : WfStores s) : NextWf (execChimeClash s) := .done (.ite hs (.ite (.ite hs.setFlag.chime.leaveEnum hs) hs.chime))

protected theorem execChimeReq (hs : WfStores s) : NextWf (execChimeReq s) := .done (.ite hs hs.chime)

protected theorem execEnumWindowClose (hs : WfStores s) : NextWf (execEnumWindowClose s) := .done (.ite hs (hs.when fun _ hs => hs.setFlag).leaveEnum)

theorem enterEnum (hs : WfStores s) : WfStores s.enterEnum := by
  unfold State.enterEnum
  refine .ifElse ?_ fun hs => hs.safetyFault
  split
  · exact hs.goMst.panelInit.modChain.enumToken
  · exact hs.goMst.panelInit

theorem readFactory {found : BitVec 32} (hs : WfStores s) : WfStores (s.readFactory found) := hs.modJrn

theorem readSetting {a : Nat} (hs : WfStores s) : WfStores (s.readSetting a) := by
  unfold State.readSetting
  split
  · exact hs
  · exact .ite hs (hs.draw.ifElse fun hs => hs.setReg)

theorem readTrim {key : Nat} (hs : WfStores s) : WfStores (s.readTrim key) := .ite hs (hs.draw.draw.ifThen fun hs => hs.modJrn)

theorem readControl (hs : WfStores s) : WfStores s.readControl := (hs.foldl fun _ _ hs => .ite hs hs.draw.wr).ifElse fun hs => hs.draw.setFlag

theorem readSettings (hs : WfStores s) : WfStores s.readSettings :=
  ((hs.foldl fun _ _ hs => hs.readSetting).foldl fun _ _ hs => hs.readTrim).readControl

protected theorem execSelftestComplete {r : SelfTest} (hs : WfStores s) : NextWf (execSelftestComplete r s) := by
  unfold execSelftestComplete
  refine .done ?_
  refine .ite hs ?_
  dsimp only
  split
  · exact .enterEnum (.readSettings (.readFactory (.wrw (.measured (.applyPend (.foldl (.when (.foldl (.ite hs.setFlag.setTstate hs.safetyFault)
      fun _ _ hs => hs.wr.wr) fun _ hs => hs.setFlag) fun _ _ hs => hs.meetWord))))))
  · exact .wr (.wr (.wr (.readSettings (.readFactory (.wrw (.measured (.applyPend (.foldl (.when (.foldl (.ite hs.setFlag.setTstate hs.safetyFault)
      fun _ _ hs => hs.wr.wr) fun _ hs => hs.setFlag) fun _ _ hs => hs.meetWord))))))))

theorem loadBank {b : Bool} {bad : List Nat} (hs : WfStores s) : WfStores (s.loadBank b bad) := hs.modBank.recordVerdict.modBank.setFlag.setFlag.wr

theorem countLoad {corrected bad : Nat} (hs : WfStores s) : WfStores (s.countLoad corrected bad) := hs.draw.draw.bumpBy.bumpBy.bumpBy.bumpBy.bumpBy

protected theorem execBootBankRead {bad0 bad1 : List Nat} {corrected : BitVec 16} (hs : WfStores s) :
    NextWf (execBootBankRead bad0 bad1 corrected s) := by
  unfold execBootBankRead
  refine .done ?_
  refine .ite hs ?_
  refine .ite ?_ ?_
  · exact hs.loadBank.loadBank.countLoad.prepare
  · exact hs.loadBank.loadBank.countLoad.ifThen fun hs => hs.commitTxn.setFlag.prepare

/-! `Machine/ModCmd.lean`. -/

protected theorem decideRun (hs : WfStores s) : WfStores (decideRun s).2 := .iteSnd hs.modFab hs

protected theorem decideStop (hs : WfStores s) : WfStores (decideStop s).2 := .iteSnd hs.modFab hs

protected theorem decideService {p : Port} (hs : WfStores s) : WfStores (decideService p s).2 :=
  .iteSnd hs (.iteSnd hs.modToc.modFab.goMst.startPairs hs)

protected theorem decideServiceExit (hs : WfStores s) : WfStores (decideServiceExit s).2 := by
  unfold decideServiceExit
  refine .iteSnd hs ?_
  refine .iteSnd (hs.foldl fun _ _ hs => hs.setFlag).leaveService.modToc.safetyFault ?_
  refine .iteSnd ?_ ?_
  · exact (hs.foldl fun _ _ hs => hs.setFlag).leaveService.modToc.goMst.endBypasses.drive
  · exact ((hs.foldl fun _ _ hs => hs.setFlag).leaveService.modToc.goMst.when fun _ hs => hs.setTstate.foldl fun _ _ hs => hs.startCell).drive

protected theorem decideRelease (hs : WfStores s) : WfStores (decideRelease s).2 := by
  unfold decideRelease
  refine .iteSnd ?_ ?_
  · exact (((hs.goMst.when fun _ hs => hs.setTstate).setLine.foldl fun _ _ hs => hs.modCell).foldl fun _ _ hs => .ite hs hs.startCell).drive
  · exact hs

protected theorem decideModCmd {p : Port} {op : Nat} (hs : WfStores s) : WfStores (decideModCmd p op s).2 := by
  unfold decideModCmd
  split
  · exact hs
  · exact hs.decideRun
  · exact hs.decideStop
  · exact hs.decideService
  · exact hs.decideServiceExit
  · exact hs.decideRelease
  · exact hs

protected theorem execModCmdNop {p : Port} (hs : WfStores s) : NextWf (execModCmdNop p s) := hs.command fun _ hs => hs.decideModCmd

protected theorem execModCmdRun {p : Port} (hs : WfStores s) : NextWf (execModCmdRun p s) := hs.command fun _ hs => hs.decideModCmd

protected theorem execAutostart (hs : WfStores s) : NextWf (execAutostart s) := .done (.ite hs.decideRun hs)

protected theorem execModCmdStop {p : Port} (hs : WfStores s) : NextWf (execModCmdStop p s) := hs.command fun _ hs => hs.decideModCmd

protected theorem execModCmdService {p : Port} (hs : WfStores s) : NextWf (execModCmdService p s) := hs.command fun _ hs => hs.decideModCmd

protected theorem execModCmdServiceExit {p : Port} (hs : WfStores s) : NextWf (execModCmdServiceExit p s) := hs.command fun _ hs => hs.decideModCmd

protected theorem execModCmdRelease {p : Port} (hs : WfStores s) : NextWf (execModCmdRelease p s) := hs.command fun _ hs => hs.decideModCmd

protected theorem execModCmdRestart {p : Port} (hs : WfStores s) : NextWf (execModCmdRestart p s) := by
  unfold execModCmdRestart
  split
  · exact hs.answer.done
  · exact .iteNext (.done .resetBy) hs.done

/-! `Machine/Access.lean`. -/

theorem clearRead {a : Nat} (hs : WfStores s) : WfStores (s.clearRead a) := by
  unfold State.clearRead
  refine .ite hs.modTin ?_
  refine .ite ?_ (hs.foldl fun _ _ hs => hs.wr)
  split
  · exact hs.modConn
  · exact hs

/-! `Machine/WriteReg.lean`. -/

protected theorem asGroup {x : WriteCtx} {grp : List Nat} {gate : Code} {f : (Nat → Word) → State → Code × State}
    (hs : WfStores s) (hf : ∀ x0 t, WfStores t → WfStores (f x0 t).2) : WfStores (x.asGroup grp gate f s).2 :=
  .iteSnd hs (.iteSnd hs (.iteSnd (.iteSnd hs (hf _ _ hs)) hs))

protected theorem andThen {r : Code × State} {f : State → Code × State}
    (hr : WfStores r.2) (hf : ∀ t, WfStores t → WfStores (f t).2) :
    WfStores (andThen r f).2 :=
  .iteSnd (hf _ hr) hr

protected theorem writeCellCtrl {id : Nat} {w : Word} (hs : WfStores s) : WfStores (writeCellCtrl id w s).2 := by
  unfold writeCellCtrl
  refine .andThen (.iteSnd hs.decideCellClear hs) ?_
  intro _ hs
  split
  · exact hs
  · exact hs.decideTestEnter
  · exact hs.decideTestLeave
  · exact hs

protected theorem writeFval {p : Port} {id : Nat} {w : Word} (hs : WfStores s) : WfStores (writeFval p id w s).2 :=
  .iteSnd hs (.iteSnd hs (.iteSnd hs hs.modFab))

protected theorem writeFcParam {id off : Nat} {w : Word} (hs : WfStores s) : WfStores (writeFcParam id off w s).2 := hs.decideFcParam

protected theorem writeLoopGain {lp : Nat} {w : Word} (hs : WfStores s) : WfStores (writeLoopGain lp w s).2 :=
  hs.decideGainSelect.andThen fun _ hs => .iteSnd hs.decideDetuneReset hs

protected theorem writePhTcb {id : Nat} {w : Word} (hs : WfStores s) : WfStores (writePhTcb id w s).2 := .iteSnd hs (.iteSnd hs hs.stage)

protected theorem writeTrimCtrl {p : Port} {n : Nat} {w : Word} (hs : WfStores s) : WfStores (writeTrimCtrl p n w s).2 := by
  unfold writeTrimCtrl
  split
  · exact hs.decideTrim
  · exact hs.decideTrim
  · exact hs.decideTrim
  · exact hs.decideTrim
  · exact hs.decideTrim
  · exact hs.decideTrim
  · exact hs

protected theorem writeHart {x : WriteCtx} {n off : Nat} (hs : WfStores s) : WfStores (writeHart x n off s).2 :=
  .iteSnd hs.decideHartRequest (.iteSnd hs hs.decideHartRequest)

protected theorem writeCurrent {id off : Nat} {w : Word} (hs : WfStores s) : WfStores (writeCurrent id off w s).2 := .iteSnd hs hs.stage

protected theorem writeRate {x : WriteCtx} {n off : Nat} (hs : WfStores s) : WfStores (writeRate x n off s).2 :=
  .iteSnd hs (.iteSnd hs hs.rateDecision)

protected theorem writeHctrl {n : Nat} {w : Word} (hs : WfStores s) : WfStores (writeHctrl n w s).2 :=
  .iteSnd hs (.iteSnd hs.decideHomingGo (.iteSnd hs.decideHomingAbort hs))

protected theorem writeRingBase {n off : Nat} {w : Word} (hs : WfStores s) : WfStores (writeRingBase n off w s).2 := .iteSnd hs (.iteSnd hs hs.setReg)

protected theorem writeTripReset {x : WriteCtx} {k : Nat} (hs : WfStores s) : WfStores (writeTripReset x k s).2 := .iteSnd hs hs.applyReset

protected theorem writeCell {x : WriteCtx} {id off : Nat} (hs : WfStores s) : WfStores (writeCell x id off s).2 := by
  unfold writeCell
  refine .iteSnd hs.decideForce ?_
  refine .iteSnd hs.writeFval ?_
  refine .iteSnd hs ?_
  refine .iteSnd hs ?_
  refine .iteSnd hs.writeCellCtrl ?_
  refine .iteSnd hs ?_
  split
  · exact .iteSnd hs.writeFcParam hs
  · exact .iteSnd hs.decideLoopMode (.iteSnd hs.writeLoopGain (.iteSnd hs.decideLoopStaged hs))
  · exact .iteSnd hs.writePhTcb (.iteSnd hs.decideSyncBlock hs)
  · exact .iteSnd hs.writeTripReset hs
  · exact .iteSnd (.iteSnd hs hs.setReg) (.iteSnd hs.writeTrimCtrl (.iteSnd hs.writeHart hs))
  · exact .iteSnd hs.decideRearm hs
  · exact .iteSnd hs.writeRate (.iteSnd hs.writeCurrent (.iteSnd hs.writeHctrl hs))
  · exact .iteSnd hs.writeRingBase (.iteSnd hs.decidePost (.iteSnd hs.decideQpCtrl hs))
  · exact hs

protected theorem writeTbCtrl {w : Word} (hs : WfStores s) : WfStores (writeTbCtrl w s).2 :=
  .iteSnd hs (.iteSnd hs (.iteSnd hs (.iteSnd hs.decideCauseAck (.iteSnd hs.decideRetest hs))))

protected theorem writeDebug {p : Port} {pair : Nat} {w : Word} (hs : WfStores s) : WfStores (writeDebug p pair w s).2 := by
  unfold writeDebug
  split
  · exact hs.decideDebugNop
  · exact hs.decideDebugAttach
  · exact hs.decideDebugDetach
  · exact hs

protected theorem writeCan {c : Fin 2} {off : Nat} {w : Word} (hs : WfStores s) : WfStores (writeCan c off w s).2 := by
  unfold writeCan
  refine .iteSnd ?_ ?_
  · exact .andThen (.iteSnd hs.decideCanRecover hs) fun _ hs => .iteSnd hs hs.wr
  · exact .iteSnd (.iteSnd hs hs.modBuf) (.iteSnd hs.decideTxCmd (.iteSnd (.iteSnd hs hs.modBuf) hs))

protected theorem writeTm {x : WriteCtx} {off : Nat} (hs : WfStores s) : WfStores (writeTm x off s).2 := by
  unfold writeTm
  refine .iteSnd ?_ ?_
  · exact hs.asGroup fun _ _ hs => hs.decideTmSet
  · exact .iteSnd (.iteSnd hs hs.wr) (.iteSnd (.iteSnd hs (.iteSnd hs hs.wrw)) hs)

protected theorem writeImgCtrl {x : WriteCtx} (hs : WfStores s) : WfStores (writeImgCtrl x s).2 := by
  unfold writeImgCtrl
  refine .andThen ?_ fun _ hs => hs.nameBank.setFlag
  split
  · exact hs.decideImgNop
  · exact hs.decideOpen
  · exact hs.decideValidate
  · exact hs.decideSave
  · exact hs.decideCommit
  · exact hs.decideAbort
  · exact hs

protected theorem writeWindow {x : WriteCtx} (hs : WfStores s) : WfStores (writeWindow x s).2 := hs.asGroup fun _ _ hs => hs.decideUnit

protected theorem writeKeyCtrl {x : WriteCtx} (hs : WfStores s) : WfStores (writeKeyCtrl x s).2 := by
  unfold writeKeyCtrl
  dsimp only
  split
  · exact hs.decideKeyNop
  · exact .iteSnd hs (.iteSnd hs (hs.journaled fun _ hs => hs.decideKeyInstall))
  · exact .iteSnd hs (.iteSnd hs (hs.journaled fun _ hs => hs.decideKeyRevoke))
  · exact hs

protected theorem writeUpd {w : Word} (hs : WfStores s) : WfStores (writeUpd w s).2 := .iteSnd hs.wr.wr.decideUpdate hs.wr.wr

protected theorem writeFrame {x : WriteCtx} (hs : WfStores s) : WfStores (writeFrame x s).2 := hs.asGroup fun _ _ hs => hs.decideFrameBuffer

protected theorem writeModCmd {p : Port} {w : Word} (hs : WfStores s) : WfStores (writeModCmd p w s).2 := .iteSnd hs hs.decideModCmd

protected theorem writeBlock {x : WriteCtx} {r b off : Nat} (hs : WfStores s) : WfStores (writeBlock x r b off s).2 := by
  unfold writeBlock
  refine .iteSnd hs.decideStored ?_
  refine .iteSnd (.iteSnd hs.writeModCmd (.iteSnd hs.decideModeNext hs)) ?_
  refine .iteSnd (.iteSnd hs.decideReint hs) ?_
  refine .iteSnd hs ?_
  split
  · exact .iteSnd hs.writeTbCtrl (.iteSnd hs.setReg (.iteSnd hs.decideBypass hs))
  · exact .iteSnd hs.writeDebug hs
  · exact .iteSnd hs.decideSwitch hs
  · exact .iteSnd hs.decideSwitch hs
  · exact .iteSnd hs.setReg (.iteSnd hs.decideRoot (.iteSnd hs.decideInvalidate hs))
  · exact hs.writeTm
  · exact .iteSnd hs.writeCan hs.writeCan
  · exact .iteSnd (.iteSnd hs hs.setReg) hs
  · exact .iteSnd hs.writeImgCtrl (.iteSnd hs.setReg (.iteSnd hs.writeWindow (.iteSnd hs.writeKeyCtrl hs)))
  · exact .iteSnd hs.decideRecCtrl hs
  · exact .iteSnd hs.setPanelCfg (.iteSnd hs.setReg (.iteSnd hs.writeUpd (.iteSnd hs.writeFrame hs)))
  · exact .iteSnd hs.decideHutest hs
  · exact hs

protected theorem writeSecond {x : WriteCtx} (hs : WfStores s) : WfStores (writeSecond x s).2 := .iteSnd hs (.iteSnd hs hs.wrw)

protected theorem writeMapped {x : WriteCtx} (hs : WfStores s) : WfStores (writeMapped x s).2 := by
  unfold writeMapped
  refine .iteSnd hs ?_
  refine .iteSnd hs.writeBlock ?_
  refine .iteSnd hs.writeSecond ?_
  split
  · exact hs.writeCell
  · exact hs

/-! `Machine/Manage.lean`. -/

theorem forgetOld (hs : WfStores s) : WfStores s.forgetOld := hs.modMgmt

theorem remember {r : MgmtReq} (hs : WfStores s) : WfStores (s.remember r) := hs.modMgmt

theorem queueRequest {r : MgmtReq} (hs : WfStores s) : WfStores (s.queueRequest r) := .ite hs.respond hs.remember.modMgmt

theorem takeRequest {r : MgmtReq} (hs : WfStores s) : WfStores (s.takeRequest r) := by
  unfold State.takeRequest
  dsimp only
  split
  · refine .ite ?_ hs.forgetOld.sendResponse
    split
    · exact hs.forgetOld.sendResponse
    · exact hs.forgetOld
  · split
    · exact hs.forgetOld.remember.respond
    · exact hs.forgetOld.queueRequest

theorem malformed {a : Requester} (hs : WfStores s) : WfStores (s.malformed a) := by
  unfold State.malformed
  split
  · exact hs
  · exact hs.bump
  · exact hs.bump
  · exact hs.dropFrame

theorem arrive {r : MgmtReq} (hs : WfStores s) : WfStores (s.arrive r) := by
  unfold State.arrive
  split
  · exact hs
  · exact .ite hs.malformed hs.sendResponse
  · exact .ite hs.malformed hs.takeRequest

protected theorem execManagementRequest {a : MgmtArrival} (hs : WfStores s) : NextWf (execManagementRequest a s) := by
  unfold execManagementRequest
  refine .done ?_
  split
  · exact .ite hs.arrive hs
  · exact .ite hs (.ite hs.dropFrame hs.arrive)

protected theorem execMreq {rx : NetRx} {datagram : Option (BitVec 32 × BitVec 32 × BitVec 16)} {r : MreqFrame} (hs : WfStores s) :
    NextWf (execMreq rx datagram r s) :=
  (hs.receive fun _ hs => .ite hs.bump (hs.police.ifThen fun hs => hs.bump.arrive)).done

theorem popRequest (hs : WfStores s) : WfStores s.popRequest := hs.modMgmt

theorem dropRequest (hs : WfStores s) : WfStores s.dropRequest := hs.modMgmt

theorem readAll {r : MgmtReq} {pwrOnly : Bool} (hs : WfStores s) : WfStores (s.readAll r pwrOnly) := by
  unfold State.readAll
  dsimp only
  split
  · exact hs.respond
  · exact ((hs.foldl fun _ _ hs => hs.clearRead).when fun _ hs => hs.withFree).respond

protected theorem execReadTransaction (hs : WfStores s) : NextWf (execReadTransaction s) := by
  unfold execReadTransaction
  refine .done ?_
  split
  · exact hs
  · refine .ite hs ?_
    split
    · exact hs
    · exact hs.dropRequest
    · exact hs.popRequest.readAll
    · exact hs.popRequest.readAll

protected theorem writeRegister {x : WriteCtx} {pwrOnly : Bool} {busy : List Nat} (hs : WfStores s) : WfStores (writeRegister x pwrOnly busy s).2 :=
  .iteSnd hs (.iteSnd hs (.iteSnd hs (.iteSnd hs hs.writeMapped)))

protected theorem writeAll {p : Port} {deciding pwrOnly : Bool} {busy : List Nat} {before : List (Nat × Word)}
    {l : List (Nat × Nat × Word)} {t : State} (hs : WfStores s) (h : writeAll p deciding pwrOnly busy before l s = .inr t) : WfStores t := by
  induction l generalizing s before with
  | nil =>
    cases h
    exact hs
  | cons e l ih =>
    unfold writeAll at h
    dsimp only at h
    split at h
    · cases h
    · exact ih hs.writeRegister h

theorem passWrite {r : MgmtReq} (hs : WfStores s) : WfStores (s.passWrite r) := hs.respond.when fun _ _ => .resetBy

theorem failWrite {r : MgmtReq} {c : Code} {i a : Nat} {w : Word} (hs : WfStores s) : WfStores (s.failWrite r c i a w) :=
  (hs.when fun _ hs => hs.bump).respond

theorem writeTransaction {r : MgmtReq} {pwrOnly : Bool} (hs : WfStores s) : WfStores (s.writeTransaction r pwrOnly) := by
  unfold State.writeTransaction
  refine .ite hs.respond ?_
  split
  · exact hs.failWrite
  · next heq => exact .ite (hs.writeAll heq).passWrite hs.modMgmt

protected theorem execWriteTransaction (hs : WfStores s) : NextWf (execWriteTransaction s) := by
  unfold execWriteTransaction
  refine .done ?_
  split
  · exact hs
  · refine .ite hs ?_
    split
    · exact hs
    · exact hs.dropRequest
    · exact hs.popRequest.writeTransaction
    · exact hs.popRequest.writeTransaction

protected theorem execHeldWriteDecision {index : Nat} {o : NvOutcome} (hs : WfStores s) : NextWf (execHeldWriteDecision index o s) := by
  unfold execHeldWriteDecision
  refine .done ?_
  split
  · exact hs
  split
  · exact hs
  · exact hs.modMgmt.respond
  · exact hs.modMgmt
  · dsimp only
    split
    · exact hs.modMgmt.failWrite
    next heq =>
    refine .ite (hs.modMgmt.writeAll heq).passWrite (.ite hs.modMgmt.commitTxn.respond ?_)
    split
    · exact hs.modMgmt.commitTxn.respond
    · next heq' => exact (hs.modMgmt.commitTxn.writeAll heq').passWrite

/-! `Machine/Stroke.lean`. -/

theorem runTo {t : Int} (hs : WfStores s) : WfStores (s.runTo t) := .ite hs hs.advance

theorem showEdge {t : Int} {n : Nat} (hs : WfStores s) : WfStores (s.showEdge t n) := (hs.when fun _ hs => hs.bump).wrw.wrw.wrw.wrw.wr

theorem passEdge (hs : WfStores s) : WfStores s.passEdge :=
  .modFab (.setFlag (.modTime (.ite hs.runTo.showEdge (.ite hs.showEdge hs.advance.showEdge))))

theorem putSignal {sig : Nat} {x : Bool × SigWord} (hs : WfStores s) : WfStores (s.putSignal sig x) := hs.setSig.when fun _ hs => hs.modFab

theorem showPort {id port : Nat} {fresh : Bool} {w : Word} (hs : WfStores s) : WfStores (s.showPort id port fresh w) := by
  unfold State.showPort
  split
  · exact hs.wrw
  · exact hs.wrw
  · exact hs.when fun _ hs => hs.wrw
  · exact hs.when fun _ hs => hs.setFlag
  · exact hs

theorem publishCell {id : Nat} (hs : WfStores s) : WfStores (s.publishCell id) := by
  unfold State.publishCell
  dsimp only
  split
  · exact ((hs.modFab.foldl fun _ _ hs => hs.putSignal).foldl fun _ _ hs => hs.showPort).wr
  · exact ((hs.modFab.foldl fun _ _ hs => hs.putSignal).foldl fun _ _ hs => hs.showPort).when fun _ hs => hs.wr

theorem followSelected {lead : Nat} (hs : WfStores s) : WfStores (s.followSelected lead) := by
  unfold State.followSelected
  refine .ite hs ?_
  dsimp only
  split
  · exact hs.modFab.foldl fun _ _ hs => hs.setSig
  · exact hs

theorem closeTo {k : Nat} (hs : WfStores s) : WfStores (s.closeTo k) := .ite hs hs.hold.hold.modCell.evalEnd

theorem closePh {g : Nat} (hs : WfStores s) : WfStores (s.closePh g) := .modPh (.ite (hs.foldl fun _ _ hs => hs.hold).hold.modCell.evalEnd hs)

theorem skipStroke {id : Nat} (hs : WfStores s) : WfStores (s.skipStroke id) := by
  unfold State.skipStroke
  split
  · exact hs.modUc
  · exact hs.modPh
  · exact hs

theorem closeUnread {id : Nat} (hs : WfStores s) : WfStores (s.closeUnread id) := by
  unfold State.closeUnread
  refine .evalEnd ?_
  refine hs.skipStroke.modCell.foldl ?_
  intro _ _ hs
  split
  · exact hs.hold
  · exact hs

theorem closeCell {id : Nat} (hs : WfStores s) : WfStores (s.closeCell id) := by
  unfold State.closeCell
  refine .ite hs ?_
  refine .ite hs.skipStroke ?_
  refine .ite hs.closeUnread ?_
  split
  · exact hs.closeUc
  · exact hs.closeDp
  · exact hs.closeAx
  · exact hs.closePh
  · exact hs.closeTo
  · exact .ite hs.evalEnd hs
  · exact hs

theorem importFault {id : Nat} (hs : WfStores s) : WfStores (s.importFault id) := (hs.foldl fun _ _ hs => hs.setSig).wr

theorem peerQual {id : Nat} (hs : WfStores s) : WfStores (s.peerQual id) := by
  unfold State.peerQual
  split
  · exact hs
  · exact hs.wr
  · exact hs.draw.wr

theorem simulateImport {id : Nat} {old : Nat → SigWord} (hs : WfStores s) : WfStores (s.simulateImport id old) :=
  .ite hs ((hs.foldl fun _ _ hs => hs.putSignal).when fun _ hs => hs.wr)

theorem publishImport {id : Nat} (hs : WfStores s) : WfStores (s.publishImport id) := by
  unfold State.publishImport
  split
  · refine .ite hs.importFault ?_
    refine .ite ?_ ?_
    · exact hs.foldl fun _ _ hs => hs.setSig
    · exact hs.publishPeer.peerQual.simulateImport.ifThen fun hs => hs.evalEnd.startToRun
  · exact .ite hs.importFault (.ite (hs.foldl fun _ _ hs => hs.setSig) hs.publishMailbox.simulateImport)
  · exact hs.publishCell

theorem publishImage (hs : WfStores s) : WfStores s.publishImage :=
  (((hs.foldl fun _ _ hs => hs.closeCell).foldl fun _ _ hs => hs.publishImport).foldl fun _ _ hs => hs.followSelected).publishNet.modFab.watchSignals

theorem applyWrite {key : Nat} {w : Word} (hs : WfStores s) : WfStores (s.applyWrite key w) := by
  unfold State.applyWrite
  dsimp only
  split
  · exact hs.putStored
  · split
    · exact hs.applyLoopWrite
    · exact hs.setReg

theorem applyForce {f : Nat × Nat × Nat × Word} (hs : WfStores s) : WfStores (s.applyForce f) := .ite hs (hs.modCell.wr.wr.wrw.when fun _ hs => hs.wr)

theorem applyCell {id : Nat} (hs : WfStores s) : WfStores (s.applyCell id) := by
  unfold State.applyCell
  dsimp only
  split
  · exact hs.loadTrim.sendHart
  · exact hs.applyRearm
  · exact hs.applyRates.startHoming.homeReqEdge
  · exact hs

theorem applyStaged (hs : WfStores s) : WfStores s.applyStaged :=
  (((hs.modFab.foldl fun _ _ hs => hs.applyWrite).foldl fun _ _ hs => hs.applyForce).foldl fun _ _ hs => hs.applyCell).restoreSheds

theorem commitStep (hs : WfStores s) : WfStores s.commitStep := by
  unfold State.commitStep
  refine .ite ?_ ?_
  · exact .ite (.ite (hs.takeCommit.when fun _ hs => hs.goMst.nameBank) hs.abandonCommit) (.ite hs hs.abandonCommit)
  · exact .ite (hs.takeCommit.when fun _ hs => hs.goMst.nameBank) hs

theorem enterRun (hs : WfStores s) : WfStores s.enterRun :=
  ((hs.goMst.foldl fun _ _ hs => .ite hs.startCell.meetStart hs).foldl fun _ _ hs => hs.modDp).startPairs.foldl
    fun _ _ hs => .ite hs.setCst.setTripped hs

theorem leaveRun (hs : WfStores s) : WfStores s.leaveRun := by
  unfold State.leaveRun
  refine .foldl ?_ fun _ _ hs => hs.syncLeave
  refine hs.goMst.foldl ?_
  intro _ _ hs
  split
  · exact hs.setCst.startTo
  · exact hs.setCst.driveCell

theorem runStep (hs : WfStores s) : WfStores s.runStep := .ite hs.modFab.leaveRun (.ite hs.modFab.enterRun hs)

theorem takeCommand {id : Nat} (hs : WfStores s) : WfStores (s.takeCommand id) := by
  unfold State.takeCommand
  refine .ite hs ?_
  split
  · exact hs.takeUcCommand
  · exact hs.takeDpCommand
  · exact hs.takeAxCommand
  · exact hs

theorem driveImage (hs : WfStores s) : WfStores s.driveImage :=
  (((hs.foldl fun _ _ hs => hs.releaseSafe).foldl fun _ _ hs => hs.energiseAx).ifThen fun hs => hs.foldl fun _ _ hs => hs.takeCommand).drive

theorem countAbsent (hs : WfStores s) : WfStores s.countAbsent :=
  (hs.foldl fun _ _ hs => .ite hs.modCell hs).foldl fun _ _ hs => hs.foldl fun _ _ hs => .ite (.ite hs hs.modBlk) (.ite hs.wr hs)

theorem phasorEdge {g : Nat} (hs : WfStores s) : WfStores (s.phasorEdge g) := by
  unfold State.phasorEdge
  refine .ite hs ?_
  refine .underOld ?_ fun _ hs => hs.syncLeave
  split
  · exact hs.noteInput.modPh
  · exact hs.modPh

theorem resetEdge {k : Nat} (hs : WfStores s) : WfStores (s.resetEdge k) := by
  unfold State.resetEdge
  dsimp only
  split
  · exact .ite hs (hs.modToc.when fun _ hs => hs.modToc)
  · exact hs

theorem exportImage {img : List Record} {words : Store (Option SigWord)} {units : Nat} (hs : WfStores s) :
    WfStores (s.exportImage img words units) :=
  hs.modImg.modFab.wr.exportChain.exportNet.exportCan.broadcast.modImg.modFab.wr

theorem strokeBoundary {snareFault : Bool} (hs : WfStores s) : WfStores (s.strokeBoundary snareFault) := by
  unfold State.strokeBoundary
  refine .ite ?_ ?_
  · exact hs
  · exact ((hs.passEdge.endCycles.readSnare.publishImage.applyStaged.commitStep.pathRoles.runStep.driveImage.countAbsent.foldl
      fun _ _ hs => hs.phasorEdge).foldl fun _ _ hs => hs.resetEdge).modFab.agePairs.exportImage

protected theorem execStrokeBoundary {snareFault : Bool} (hs : WfStores s) : NextWf (execStrokeBoundary snareFault s) := hs.strokeBoundary.done

theorem evaluate {id : Nat} (hs : WfStores s) : WfStores (s.evaluate id) := by
  unfold State.evaluate
  split
  · exact hs.evalFc.ifThen fun hs => hs.startToRun
  · exact hs.evalLp

theorem peak {r b : Nat} {f : Field} {n : Nat} (hs : WfStores s) : WfStores (s.peak r b f n) := hs.wr

theorem showLoad {ids : List Nat} (hs : WfStores s) : WfStores (s.showLoad ids) :=
  ((hs.foldl fun _ _ hs => hs.peak).foldl fun _ _ hs => hs.peak).when fun _ hs => hs.peak.peak

protected theorem execEvaluationWindowOpen (hs : WfStores s) : NextWf (execEvaluationWindowOpen s) :=
  .done (.ite hs (hs.foldl fun _ _ hs => hs.evaluate).modFab.showLoad)

protected theorem execEvaluationWindowClose {unfinished : List Nat} (hs : WfStores s) : NextWf (execEvaluationWindowClose unfinished s) := by
  unfold execEvaluationWindowClose
  refine .done ?_
  dsimp only
  split
  · exact .ite hs (hs.modFab.ifElse fun hs => (hs.foldl fun _ _ hs => hs.discardWork).bump.foldl fun _ _ hs => hs.bump)
  · exact hs

/-! Every command of the table. -/

protected theorem exec (i : Instr) (hs : WfStores s) : NextWf (exec i s) :=
  match i with
  | .resetSource .. => hs.execResetSource
  | .railsGoodPllLocked => hs.execRailsGoodPllLocked
  | .selftestComplete .. => hs.execSelftestComplete
  | .enumWindowClose => hs.execEnumWindowClose
  | .chimeHeadStart => hs.execChimeHeadStart
  | .chimeToken .. => hs.execChimeToken
  | .chimeEnd .. => hs.execChimeEnd
  | .chimeClash => hs.execChimeClash
  | .chimeReq => hs.execChimeReq
  | .bootBankRead .. => hs.execBootBankRead
  | .modCmdNop .. => hs.execModCmdNop
  | .modCmdRun .. => hs.execModCmdRun
  | .autostart => hs.execAutostart
  | .modCmdStop .. => hs.execModCmdStop
  | .modCmdService .. => hs.execModCmdService
  | .modCmdServiceExit .. => hs.execModCmdServiceExit
  | .modCmdRelease .. => hs.execModCmdRelease
  | .modCmdRestart .. => hs.execModCmdRestart
  | .safetyRelevantFault .. => hs.execSafetyRelevantFault
  | .lockstepOutputMismatch .. => hs.execLockstepOutputMismatch
  | .clapperFault .. => hs.execClapperFault
  | .delayFault .. => hs.execDelayFault
  | .safeInNTransition .. => hs.execSafeInNTransition
  | .safeInHardwireTimeout => hs.execSafeInHardwireTimeout
  | .backgroundCompare .. => hs.execBackgroundCompare
  | .resyncRelease .. => hs.execResyncRelease
  | .debugAttach .. => hs.execDebugAttach
  | .debugDetach .. => hs.execDebugDetach
  | .debugNop .. => hs.execDebugNop
  | .imgOpen .. => hs.execImgOpen
  | .openComplete => hs.execOpenComplete
  | .recordUnit .. => hs.execRecordUnit
  | .imgValidate .. => hs.execImgValidate
  | .validateComplete => hs.execValidateComplete
  | .imgSave .. => hs.execImgSave
  | .saveComplete .. => hs.execSaveComplete
  | .imgCommit .. => hs.execImgCommit
  | .preparationComplete => hs.execPreparationComplete
  | .bootBankUpdate => hs.execBootBankUpdate
  | .imgAbort .. => hs.execImgAbort
  | .imgNop .. => hs.execImgNop
  | .keyInstall .. => hs.execKeyInstall
  | .keyRevoke .. => hs.execKeyRevoke
  | .keyNop .. => hs.execKeyNop
  | .strokeBoundary .. => hs.execStrokeBoundary
  | .evaluationWindowOpen => hs.execEvaluationWindowOpen
  | .evaluationWindowClose .. => hs.execEvaluationWindowClose
  | .blockError .. => hs.execBlockError
  | .regionFault .. => hs.execRegionFault
  | .blockRecover .. => hs.execBlockRecover
  | .blockReintegrate .. => hs.execBlockReintegrate
  | .faultRetry .. => hs.execFaultRetry
  | .recoverComplete .. => hs.execRecoverComplete
  | .cellClear .. => hs.execCellClear
  | .cellTestEnter .. => hs.execCellTestEnter
  | .cellTestLeave .. => hs.execCellTestLeave
  | .forceWrite .. => hs.execForceWrite
  | .functionParameterWrite .. => hs.execFunctionParameterWrite
  | .oscillationDetect .. => hs.execOscillationDetect
  | .detuneRelax .. => hs.execDetuneRelax
  | .loopModeRequest .. => hs.execLoopModeRequest
  | .loopStagedWrite .. => hs.execLoopStagedWrite
  | .gainSelect .. => hs.execGainSelect
  | .detuneReset .. => hs.execDetuneReset
  | .resultSet .. => hs.execResultSet
  | .syncArm .. => hs.execSyncArm
  | .permitRise .. => hs.execPermitRise
  | .permitFall .. => hs.execPermitFall
  | .syncBlock .. => hs.execSyncBlock
  | .phasorEventPickup .. => hs.execPhasorEventPickup
  | .phasorInvalidTimeout .. => hs.execPhasorInvalidTimeout
  | .tocsinScan .. => hs.execTocsinScan
  | .scanWatchdogExpiry => hs.execScanWatchdogExpiry
  | .matrixCrcCheck .. => hs.execMatrixCrcCheck
  | .safetyPduReceive .. => hs.execSafetyPduReceive
  | .safetyConnectionTimeout .. => hs.execSafetyConnectionTimeout
  | .safetyPduSend .. => hs.execSafetyPduSend
  | .tripReset .. => hs.execTripReset
  | .bypass .. => hs.execBypass
  | .bypassExpiry .. => hs.execBypassExpiry
  | .causeAck .. => hs.execCauseAck
  | .retest .. => hs.execRetest
  | .retestComplete .. => hs.execRetestComplete
  | .converterResult .. => hs.execConverterResult
  | .burnOutTest .. => hs.execBurnOutTest
  | .referenceSelfCheck .. => hs.execReferenceSelfCheck
  | .complianceSample .. => hs.execComplianceSample
  | .complianceEntry .. => hs.execComplianceEntry
  | .complianceExit .. => hs.execComplianceExit
  | .outputOpenLoop .. => hs.execOutputOpenLoop
  | .outputStageFault .. => hs.execOutputStageFault
  | .channelSupplyFailure .. => hs.execChannelSupplyFailure
  | .hartPoll .. => hs.execHartPoll
  | .hartReply .. => hs.execHartReply
  | .hartNoReply .. => hs.execHartNoReply
  | .hartRequest .. => hs.execHartRequest
  | .hartPassThroughComplete .. => hs.execHartPassThroughComplete
  | .trimCaplo .. => hs.execTrimCaplo
  | .trimCaphi .. => hs.execTrimCaphi
  | .trimApply .. => hs.execTrimApply
  | .trimClear .. => hs.execTrimClear
  | .trimDiscard .. => hs.execTrimDiscard
  | .trimNop .. => hs.execTrimNop
  | .inputFilterSettle .. => hs.execInputFilterSettle
  | .fieldSupplySample .. => hs.execFieldSupplySample
  | .fieldSupplyConditionSet .. => hs.execFieldSupplyConditionSet
  | .fieldSupplyConditionClear .. => hs.execFieldSupplyConditionClear
  | .shedRestore .. => hs.execShedRestore
  | .rearm .. => hs.execRearm
  | .cellWatchdogExpiry .. => hs.execCellWatchdogExpiry
  | .blockLinkLoss .. => hs.execBlockLinkLoss
  | .wiringFault .. => hs.execWiringFault
  | .supervisionFaultSet .. => hs.execSupervisionFaultSet
  | .supervisionFaultClear .. => hs.execSupervisionFaultClear
  | .profileUpdate .. => hs.execProfileUpdate
  | .axisRateWrite .. => hs.execAxisRateWrite
  | .holdCurrent .. => hs.execHoldCurrent
  | .limitInputChange .. => hs.execLimitInputChange
  | .limitChatterClear .. => hs.execLimitChatterClear
  | .homingGo .. => hs.execHomingGo
  | .homingAbort .. => hs.execHomingAbort
  | .homingSwitchFound .. => hs.execHomingSwitchFound
  | .homingRestEnd .. => hs.execHomingRestEnd
  | .homingReferenceEdge .. => hs.execHomingReferenceEdge
  | .homingTimeout .. => hs.execHomingTimeout
  | .homingNoIndex .. => hs.execHomingNoIndex
  | .encoderError .. => hs.execEncoderError
  | .stall .. => hs.execStall
  | .stallClear .. => hs.execStallClear
  | .chopsat .. => hs.execChopsat
  | .motorSupplyConditionSet .. => hs.execMotorSupplyConditionSet
  | .motorSupplyConditionClear .. => hs.execMotorSupplyConditionClear
  | .axisFault .. => hs.execAxisFault
  | .chainLinkTrained .. => hs.execChainLinkTrained
  | .chainLinkLoss .. => hs.execChainLinkLoss
  | .alignmentFlit .. => hs.execAlignmentFlit
  | .chainFrameReceive .. => hs.execChainFrameReceive
  | .frameForward .. => hs.execFrameForward
  | .piFrame .. => hs.execPiFrame
  | .chainSafetyFrame .. => hs.execChainSafetyFrame
  | .peerTimeout .. => hs.execPeerTimeout
  | .bulkFrame .. => hs.execBulkFrame
  | .bulknak .. => hs.execBulknak
  | .receiveMessageTimeout .. => hs.execReceiveMessageTimeout
  | .descriptorPost .. => hs.execDescriptorPost
  | .ringTxen .. => hs.execRingTxen
  | .ringTxdis .. => hs.execRingTxdis
  | .ringRxen .. => hs.execRingRxen
  | .ringRxdis .. => hs.execRingRxdis
  | .txresume .. => hs.execTxresume
  | .rxresume .. => hs.execRxresume
  | .descriptorStart => hs.execDescriptorStart
  | .descriptorComplete .. => hs.execDescriptorComplete
  | .midTransferFault .. => hs.execMidTransferFault
  | .descriptorAccessFault .. => hs.execDescriptorAccessFault
  | .iommuInvalidate .. => hs.execIommuInvalidate
  | .sfpInsert .. => hs.execSfpInsert
  | .sfpDiagnostics .. => hs.execSfpDiagnostics
  | .networkLinkChange .. => hs.execNetworkLinkChange
  | .cyclicFrame .. => hs.execCyclicFrame
  | .networkSafetyFrame .. => hs.execNetworkSafetyFrame
  | .safetyFrameSend => hs.execSafetyFrameSend
  | .lastgaspReceive .. => hs.execLastgaspReceive
  | .mreq .. => hs.execMreq
  | .arpRequest .. => hs.execArpRequest
  | .icmpEcho .. => hs.execIcmpEcho
  | .switchoverTrigger .. => hs.execSwitchoverTrigger
  | .callFollow .. => hs.execCallFollow
  | .callEnd .. => hs.execCallEnd
  | .islandFault .. => hs.execIslandFault
  | .switch .. => hs.execSwitch
  | .storedRegisterWrite .. => hs.execStoredRegisterWrite
  | .syncMessage .. => hs.execSyncMessage
  | .delayReqSend => hs.execDelayReqSend
  | .delayResp .. => hs.execDelayResp
  | .announce .. => hs.execAnnounce
  | .holdoverTimeout => hs.execHoldoverTimeout
  | .followerCompare .. => hs.execFollowerCompare
  | .chainSyncSend => hs.execChainSyncSend
  | .chainAnnounceSend => hs.execChainAnnounceSend
  | .chainDelayReq .. => hs.execChainDelayReq
  | .tmSet .. => hs.execTmSet
  | .canIntegration .. => hs.execCanIntegration
  | .canErrorStateChange .. => hs.execCanErrorStateChange
  | .busOffRecovery .. => hs.execBusOffRecovery
  | .canRecover .. => hs.execCanRecover
  | .canFrameReceive .. => hs.execCanFrameReceive
  | .remoteFrame .. => hs.execRemoteFrame
  | .canFrameStart .. => hs.execCanFrameStart
  | .canTxDone .. => hs.execCanTxDone
  | .canTxError .. => hs.execCanTxError
  | .txRequest .. => hs.execTxRequest
  | .txCancel .. => hs.execTxCancel
  | .mailboxRead .. => hs.execMailboxRead
  | .mailboxTimeout .. => hs.execMailboxTimeout
  | .transceiverSupplyFault .. => hs.execTransceiverSupplyFault
  | .scrubStep .. => hs.execScrubStep
  | .journalTransactionCommit .. => hs.execJournalTransactionCommit
  | .journalApply .. => hs.execJournalApply
  | .blockRetirement .. => hs.execBlockRetirement
  | .wearLevelExchange .. => hs.execWearLevelExchange
  | .occurrenceTake => hs.execOccurrenceTake
  | .summaryWrite .. => hs.execSummaryWrite
  | .intervalEnd .. => hs.execIntervalEnd
  | .recFreeze .. => hs.execRecFreeze
  | .recUnfreeze .. => hs.execRecUnfreeze
  | .recClear .. => hs.execRecClear
  | .freezeTimeout => hs.execFreezeTimeout
  | .panelFrame => hs.execPanelFrame
  | .panelTemperature .. => hs.execPanelTemperature
  | .updateRequest .. => hs.execUpdateRequest
  | .frameBufferWrite .. => hs.execFrameBufferWrite
  | .pageRender .. => hs.execPageRender
  | .pageStale => hs.execPageStale
  | .initUpdateComplete => hs.execInitUpdateComplete
  | .clockFault .. => hs.execClockFault
  | .hutest .. => hs.execHutest
  | .bankMeasurementComplete .. => hs.execBankMeasurementComplete
  | .hulowTimeout => hs.execHulowTimeout
  | .powerFail .. => hs.execPowerFail
  | .bankExhausted .. => hs.execBankExhausted
  | .powerFailSequenceEnd .. => hs.execPowerFailSequenceEnd
  | .supPresent => hs.execSupPresent
  | .readRegisters .. => hs.execReadRegisters
  | .writeRegisters .. => hs.execWriteRegisters
  | .pairDiscard .. => hs.execPairDiscard
  | .unsupportedMessage ty => hs.execUnsupportedMessage (ty := ty)
  | .alarmQueueAccept .. => hs.execAlarmQueueAccept
  | .alarmQueueRead => hs.execAlarmQueueRead
  | .alarmAcknowledge .. => hs.execAlarmAcknowledge
  | .timeSet .. => hs.execTimeSet
  | .modeNextWrite .. => hs.execModeNextWrite
  | .managementRequest .. => hs.execManagementRequest
  | .readTransaction => hs.execReadTransaction
  | .writeTransaction => hs.execWriteTransaction
  | .heldWriteDecision .. => hs.execHeldWriteDecision
  | .receiveFilterDrop .. => hs.execReceiveFilterDrop
  | .canReceiveError .. => hs.execCanReceiveError
  | .transceiverSupplyGood .. => hs.execTransceiverSupplyGood
  | .referenceClockReturn .. => hs.execReferenceClockReturn
  | .regionFaultClear .. => hs.execRegionFaultClear
  | .suplow .. => hs.execSuplow
  | .huready .. => hs.execHuready
  | .sfpRemove .. => hs.execSfpRemove

end WfStores

/-- Settles O59: a step is one clock cycle or one command, and every operation keeps the stores canonical. -/
theorem stepsKeepTheStoresCanonical : Obligations.StepsKeepTheStoresCanonical := by
  unfold Obligations.StepsKeepTheStoresCanonical
  intro s t hs h
  obtain ⟨-, rfl⟩ | ⟨i, rest, -, h⟩ := step_cases s t h
  · exact WfStores.tick hs
  · exact WfStores.exec i (WfStores.withPending hs) t h

end Sys2Proof
end

