-- ==== Sys2Proof/Proofs/ReadTransactions.lean ====
section
/-! Read transactions (R6, R468): what a read clears, what a response leaves unchanged, and the obligation on both. -/

namespace Sys2Proof

open Sys2Proof.Machine

/-! Clearing a field. -/

/-- The bits of a word after a field write of 0: none in the field, what stood there outside it. -/
theorem testBit_setField_zero (w : Word) (lo width i : Nat) :
    (setField w lo width 0).toNat.testBit i = (w.toNat.testBit i && !(decide (lo ≤ i) && decide (i < lo + width))) := by
  have hlt : (w.toNat / 2 ^ lo / 2 ^ width * 2 ^ width) * 2 ^ lo + w.toNat % 2 ^ lo < 2 ^ 32 := by
    have h := split_word w.toNat lo width
    rw [Nat.add_mul] at h
    have := w.isLt
    omega
  have e : (setField w lo width 0).toNat = 2 ^ lo * (2 ^ width * (w.toNat / 2 ^ lo / 2 ^ width)) + w.toNat % 2 ^ lo := by
    unfold setField
    rw [setField_nat, Nat.zero_mod, Nat.add_zero, BitVec.toNat_ofNat, Nat.mod_eq_of_lt hlt]
    ring
  rw [e, Nat.testBit_two_pow_mul_add _ (Nat.mod_lt _ (Nat.two_pow_pos lo))]
  split
  · next h => simp [Nat.testBit_mod_two_pow, h]
  · next h =>
    rw [Nat.testBit_two_pow_mul, Nat.testBit_div_two_pow, Nat.testBit_div_two_pow]
    by_cases hw : width ≤ i - lo
    · rw [show i - lo - width + width + lo = i by omega, show decide (i - lo ≥ width) = true from decide_eq_true hw, Bool.true_and,
        show decide (i < lo + width) = false from decide_eq_false (by omega), Bool.and_false, Bool.not_false, Bool.and_true]
    · rw [show decide (lo ≤ i) = true from decide_eq_true (by omega), show decide (i < lo + width) = true from decide_eq_true (by omega)]
      simp [hw]

/-- A field reads 0 exactly where all its bits are 0. -/
theorem getField_eq_zero_iff (w : Word) (lo width : Nat) :
    getField w lo width = 0 ↔ ∀ i, i < width → w.toNat.testBit (lo + i) = false := by
  unfold getField
  constructor
  · intro h i hi
    have := congrArg (Nat.testBit · i) h
    simpa [Nat.testBit_mod_two_pow, Nat.testBit_div_two_pow, hi, Nat.add_comm] using this
  · intro h
    apply Nat.eq_of_testBit_eq
    intro i
    simp only [Nat.testBit_mod_two_pow, Nat.testBit_div_two_pow, Nat.zero_testBit, Bool.and_eq_false_iff, decide_eq_false_iff_not]
    by_cases hi : i < width
    · right; rw [Nat.add_comm]; exact h i hi
    · left; exact hi

theorem getField_setField_zero (w : Word) (lo width : Nat) : getField (setField w lo width 0) lo width = 0 := by
  rw [getField_eq_zero_iff]
  intro i hi
  rw [testBit_setField_zero]
  simp; omega

/-- A field that reads 0 still does when any field of the word is cleared. -/
theorem getField_setField_zero_of_zero (w : Word) (lo width lo' width' : Nat) (h : getField w lo' width' = 0) :
    getField (setField w lo width 0) lo' width' = 0 := by
  rw [getField_eq_zero_iff] at h ⊢
  intro i hi
  rw [testBit_setField_zero, h i hi, Bool.false_and]

/-! Clearing fields of one cell or page, one after the other. -/

/-- The fields of `l` at base `b` are cleared in turn. -/
def clearFields (b : Nat) (l : List Field) (s : State) : State := l.foldl (fun s f => s.wr b f 0) s

theorem rd_wr_zero (s : State) (b : Nat) (f g : Field) (h : f = g ∨ s.rd b g = 0) : (s.wr b f 0).rd b g = 0 := by
  by_cases ho : b + g.off = b + f.off
  · simp only [State.wr, State.rd, State.reg_setReg, ho, if_true]
    rcases h with rfl | h
    · exact getField_setField_zero _ _ _
    · rw [State.rd, ho] at h
      exact getField_setField_zero_of_zero _ _ _ _ _ h
  · rw [State.rd_wr_of_ne s b b f g 0 ho]
    exact h.resolve_left fun e => ho (by rw [e])

theorem rd_clearFields (b : Nat) (l : List Field) (g : Field) (s : State) (h : g ∈ l ∨ s.rd b g = 0) : (clearFields b l s).rd b g = 0 := by
  induction l generalizing s with
  | nil => exact h.resolve_left List.not_mem_nil
  | cons f l ih =>
    refine ih (s.wr b f 0) ?_
    rcases h with h | h
    · rcases List.mem_cons.mp h with rfl | h
      · exact .inr (rd_wr_zero s b g g (.inl rfl))
      · exact .inl h
    · exact .inr (rd_wr_zero s b f g (.inr h))

theorem reg_clearFields (b : Nat) (l : List Field) (s : State) (a : Nat) (h : ∀ f ∈ l, b + f.off ≠ a) : (clearFields b l s).reg a = s.reg a := by
  induction l generalizing s with
  | nil => rfl
  | cons f l ih =>
    rw [List.forall_mem_cons] at h
    exact (ih (s.wr b f 0) h.2).trans (s.reg_wr_of_ne b f 0 a h.1.symm)

theorem onlyRegs_clearFields (b : Nat) (l : List Field) (s : State) : OnlyRegs s (clearFields b l s) := by
  induction l generalizing s with
  | nil => exact .refl s
  | cons f l ih => exact (OnlyRegs.wr s b f 0).trans (ih _)

/-! What a read of a register clears (R6). -/

theorem off_of_mem_fieldsAt {a : Nat} {f : Field} (h : f ∈ fieldsAt a) : addrBase a + f.off = a := by
  have ho : f.off = a % 256 := by
    unfold fieldsAt at h
    simpa [addrOff] using (List.mem_filter.mp h).2
  have := Nat.mod_le a 256
  rw [ho, addrBase]
  omega

/-- A read clears counters of Tocsin, or RCLR fields of the register itself. -/
theorem clearRead_cases (s : State) (a : Nat) :
    (∃ g, s.clearRead a = s.modToc g) ∨
      s.clearRead a = clearFields (addrBase a) ((fieldsAt a).filter fun f => f.acc == .rclr) s := by
  unfold State.clearRead
  split
  · exact .inl ⟨_, rfl⟩
  · split
    · split
      · exact .inl ⟨_, rfl⟩
      · exact .inl ⟨id, rfl⟩
    · exact .inr rfl

theorem clearRead_of_register (s : State) {a : Nat} (h1 : a ≠ tbBase + 0x40) (h2 : a ≠ tbBase + 0x7C) :
    s.clearRead a = clearFields (addrBase a) ((fieldsAt a).filter fun f => f.acc == .rclr) s := by
  unfold State.clearRead
  rw [if_neg h1, if_neg h2]
  rfl

theorem reg_clearRead_of_ne (s : State) {a b : Nat} (h : b ≠ a) : (s.clearRead a).reg b = s.reg b := by
  obtain ⟨g, e⟩ | e := clearRead_cases s a <;> rw [e]
  · simp
  · refine reg_clearFields _ _ _ _ fun f hf => ?_
    rw [off_of_mem_fieldsAt (List.mem_of_mem_filter hf)]
    exact h.symm

theorem clearRead_fab (s : State) (a : Nat) : (s.clearRead a).fab = s.fab := by
  obtain ⟨g, e⟩ | e := clearRead_cases s a <;> rw [e]
  · simp
  · obtain ⟨r, e⟩ := onlyRegs_clearFields (addrBase a) ((fieldsAt a).filter fun f => f.acc == .rclr) s
    rw [e]

/-- MOD.STATE has no RCLR field. -/
theorem clearRead_mst (s : State) (a : Nat) : (s.clearRead a).mst = s.mst := by
  by_cases h : modBase + Reg.MOD_STATE_STATE.off = a
  · subst h
    have hn : ((fieldsAt (modBase + Reg.MOD_STATE_STATE.off)).filter fun f => f.acc == .rclr) = [] := by decide +kernel
    rw [clearRead_of_register s (by decide) (by decide), hn]
    rfl
  · unfold State.mst State.rd
    rw [reg_clearRead_of_ne s h]

theorem rd_clearRead_rclr (s : State) {a : Nat} {f : Field} (hf : f ∈ fieldsAt a) (hr : f.acc = .rclr) (h1 : a ≠ tbBase + 0x40)
    (h2 : a ≠ tbBase + 0x7C) : (s.clearRead a).rd (addrBase a) f = 0 := by
  rw [clearRead_of_register s h1 h2]
  exact rd_clearFields _ _ _ _ (.inl (List.mem_filter.mpr ⟨hf, by simp [hr]⟩))

/-- The reads of a transaction, one after the other. -/
def clearAll (s : State) (l : List (Nat × Nat × Word)) : State := l.foldl (fun s e => s.clearRead e.2.1) s

theorem reg_clearAll (l : List (Nat × Nat × Word)) (s : State) {a : Nat} (h : a ∉ l.map fun e => e.2.1) : (clearAll s l).reg a = s.reg a := by
  induction l generalizing s with
  | nil => rfl
  | cons e l ih =>
    rw [List.map_cons, List.mem_cons, not_or] at h
    exact (ih _ h.2).trans (reg_clearRead_of_ne s h.1)

theorem clearAll_fab (l : List (Nat × Nat × Word)) (s : State) : (clearAll s l).fab = s.fab := by
  induction l generalizing s with
  | nil => rfl
  | cons e l ih => exact (ih _).trans (clearRead_fab s e.2.1)

/-! A response changes the chain's state and the outbox alone, since a frame of this module takes no correction as it leaves. -/

/-- `s` with another state of the management and another counter of free values, neither of which a register read or a response looks at. -/
def Machine.State.withMgmt (s : State) (m : MgmtSt) (n : Nat) : State := { s with mgmt := m, free := n }

/-- `s` with another chain state and another outbox. -/
def Machine.State.withSent (s : State) (c : ChainSt) (o : List Output) : State := { s with chain := c, outbox := o }

/-- At `s`, `f` changes the chain state and the outbox alone, and both without regard to the management's state and the free values. -/
def OnlySends (f : State → State) (s : State) : Prop := ∃ c o, ∀ m n, f (s.withMgmt m n) = (s.withSent c o).withMgmt m n

theorem OnlySends.self {f : State → State} {s : State} (h : OnlySends f s) : ∃ c o, f s = s.withSent c o := by
  obtain ⟨c, o, h⟩ := h
  exact ⟨c, o, h s.mgmt s.free⟩

theorem OnlySends.withMgmt {f : State → State} {s : State} (h : OnlySends f s) (m : MgmtSt) (n : Nat) : f (s.withMgmt m n) = (f s).withMgmt m n := by
  obtain ⟨c, o, h⟩ := h
  have e : f s = s.withSent c o := h s.mgmt s.free
  rw [e, h m n]

theorem OnlySends.refl (s : State) : OnlySends (fun s => s) s := ⟨s.chain, s.outbox, fun _ _ => rfl⟩

theorem OnlySends.comp {f g : State → State} {s : State} (hf : OnlySends f s) (hg : OnlySends g (f s)) : OnlySends (fun s => g (f s)) s := by
  obtain ⟨c, o, hf⟩ := hf
  have e : f s = s.withSent c o := hf s.mgmt s.free
  rw [e] at hg
  obtain ⟨d, q, hg⟩ := hg
  exact ⟨d, q, fun m n => (congrArg g (hf m n)).trans (hg m n)⟩

theorem OnlySends.when {f : State → State} {s : State} (c : Bool) (h : OnlySends f s) : OnlySends (fun s => s.when c f) s := by
  cases c
  · exact .refl s
  · exact h

theorem OnlySends.emit {o : State → Output} {s : State} (ho : ∀ m n, o (s.withMgmt m n) = o s) : OnlySends (fun s => s.emit (o s)) s :=
  ⟨s.chain, s.outbox ++ [o s], fun m n => congrArg (s.withMgmt m n).emit (ho m n)⟩

theorem OnlySends.modCport (p : ChainPort) (f : ChainPortSt → ChainPortSt) (s : State) : OnlySends (fun s => s.modCport p f) s := by
  cases p
  · exact ⟨{ s.chain with up := f s.chain.up }, s.outbox, fun _ _ => rfl⟩
  · exact ⟨{ s.chain with down := f s.chain.down }, s.outbox, fun _ _ => rfl⟩

theorem OnlySends.emitFrame (p : ChainPort) (f : ChainFrame) (s : State) : OnlySends (fun s => s.emitFrame p f) s := by
  unfold State.emitFrame
  split
  · exact .emit fun _ _ => rfl
  · exact .emit fun _ _ => rfl

theorem cport_withMgmt (s : State) (m : MgmtSt) (n : Nat) (p : ChainPort) : (s.withMgmt m n).cport p = s.cport p := by cases p <;> rfl

/-- The flits of a frame of this module leave without a correction, and free no receive buffer. -/
theorem egress_own {c : ChainPortSt} {vc : Nat} {w : Waiting} (p : ChainPort) (hv : egressVc c = some vc) (hn : nextOf c.queue vc = some w)
    (ho : w.own = true) : ∃ g b, ∀ s : State, s.cport p = c → s.egress p = (s.modCport p g).when b fun s => s.emitFrame p w.f := by
  refine ⟨?_, decide (w.f.flits ≤ w.sent + min (perVc c.cred vc) (w.f.flits - w.sent)), fun s hc => ?_⟩
  rotate_left
  unfold State.egress State.when
  simp only [hc, hv, hn, ho, Bool.true_or, if_true, Bool.not_true, Bool.false_eq_true, if_false, decide_eq_true_eq]
  rfl

theorem OnlySends.egress {s : State} {p : ChainPort} {vc : Nat} {w : Waiting} (hv : egressVc (s.cport p) = some vc)
    (hn : nextOf (s.cport p).queue vc = some w) (ho : w.own = true) : OnlySends (fun s => s.egress p) s := by
  obtain ⟨g, b, h⟩ := egress_own p hv hn ho
  obtain ⟨c, o, k⟩ := OnlySends.comp (.modCport p g s) (.when b (.emitFrame p w.f _))
  exact ⟨c, o, fun m n => (h _ (cport_withMgmt s m n p)).trans (k m n)⟩



theorem OnlySends.congr {f g : State → State} {s : State} (hf : OnlySends f s) (h : ∀ m n, g (s.withMgmt m n) = f (s.withMgmt m n)) :
    OnlySends g s := by
  obtain ⟨c, o, hf⟩ := hf
  exact ⟨c, o, fun m n => (h m n).trans (hf m n)⟩

theorem OnlySends.ite {c : State → Prop} [DecidablePred c] {f g : State → State} {s : State} (hc : ∀ m n, c (s.withMgmt m n) = c s)
    (hf : c s → OnlySends f s) (hg : ¬ c s → OnlySends g s) : OnlySends (fun s => if c s then f s else g s) s := by
  by_cases h : c s
  · exact (hf h).congr fun m n => if_pos ((hc m n).mpr h)
  · exact (hg h).congr fun m n => if_neg fun k => h ((hc m n).mp k)

theorem OnlySends.originate (p : ChainPort) (f : ChainFrame) (s : State) : OnlySends (fun s => s.originate p f) s := by
  refine .ite (fun _ _ => rfl) (fun _ => .refl s) fun _ => ?_
  let w : Waiting := ⟨f, s.now16, true, 0, 0⟩
  have queued : OnlySends (fun s => s.modCport p fun c => { c with queue := c.queue ++ [w] }) s := .modCport p _ s
  refine (queued.comp (.ite (c := fun s => egressVc (s.cport p) = some f.vc.val ∧ nextOf (s.cport p).queue f.vc.val = some w)
    (fun m n => by rw [cport_withMgmt]) (fun h => .egress h.1 h.2 rfl) fun _ => .refl _)).congr fun _ _ => rfl

theorem OnlySends.sendChain (f : ChainFrame) (s : State) : OnlySends (fun s => s.sendChain f) s :=
  .ite (fun _ _ => rfl) (fun _ => .comp (.originate .up f s) (.originate .down f _)) fun _ =>
    .ite (fun _ _ => rfl) (fun _ => .originate .down f s) fun _ => .originate .up f s

/-- A response returns by the transport of its request: a frame for the service port or a path, or one of this module for the chain. -/
theorem OnlySends.sendResponse (r : MgmtReq) (bytes : List Byte) (s : State) : OnlySends (fun s => s.sendResponse r bytes) s := by
  unfold State.sendResponse
  cases r.requester with
  | usb => exact .emit fun _ _ => rfl
  | mac p mac => exact .ite (fun _ _ => rfl) (fun _ => .refl s) fun _ => .emit fun _ _ => rfl
  | udp p ip q mac => exact .ite (fun _ _ => rfl) (fun _ => .refl s) fun _ => .emit fun _ _ => rfl
  | chain p src =>
    exact .ite (fun _ _ => rfl) (fun _ => (OnlySends.originate p (s.chainResponse src bytes) s).congr fun _ _ => rfl)
      fun _ => (OnlySends.sendChain (s.chainResponse src bytes) s).congr fun _ _ => rfl

/-! A read transaction at the front. -/

theorem clearFields_withMgmt (b : Nat) (l : List Field) (s : State) (m : MgmtSt) (n : Nat) :
    clearFields b l (s.withMgmt m n) = (clearFields b l s).withMgmt m n := by
  induction l generalizing s with
  | nil => rfl
  | cons f l ih => exact ih (s.wr b f 0)

theorem clearRead_withMgmt (s : State) (a : Nat) (m : MgmtSt) (n : Nat) : (s.withMgmt m n).clearRead a = (s.clearRead a).withMgmt m n := by
  by_cases h1 : a = tbBase + 0x40
  · simp only [State.clearRead, h1, if_true]
    rfl
  · by_cases h2 : a = tbBase + 0x7C
    · have hc : (s.withMgmt m n).selectedConn = s.selectedConn := rfl
      simp only [State.clearRead, h2, if_true, hc]
      rw [if_neg (by decide), if_neg (by decide)]
      cases s.selectedConn <;> rfl
    · rw [clearRead_of_register _ h1 h2, clearRead_of_register _ h1 h2, clearFields_withMgmt]

theorem clearAll_withMgmt (l : List (Nat × Nat × Word)) (s : State) (m : MgmtSt) (n : Nat) :
    clearAll (s.withMgmt m n) l = (clearAll s l).withMgmt m n := by
  induction l generalizing s with
  | nil => rfl
  | cons e l ih => exact (congrArg (fun s => clearAll s l) (clearRead_withMgmt s e.2.1 m n)).trans (ih _)

theorem readCheck_popRequest (s : State) (pwrOnly : Bool) (a : Nat) : s.popRequest.readCheck pwrOnly a = s.readCheck pwrOnly a := rfl

theorem readWord_popRequest (s : State) (a : Nat) : s.popRequest.readWord a = s.readWord a := rfl

/-- A response to the front of the queue, apart from the queue and the remembered identifiers. -/
theorem respond_withMgmt (s : State) (m : MgmtSt) (n : Nat) (r : MgmtReq) (c : Code) (failop : Nat) (data : List Word) :
    ∃ m', m'.queue = m.queue ∧ (s.withMgmt m n).respond r c failop data = (s.sendResponse r (responseBytes r c failop data)).withMgmt m' n := by
  unfold State.respond
  dsimp only
  rw [(OnlySends.sendResponse r (responseBytes r c failop data) s).withMgmt m n]
  refine ⟨_, ?_, rfl⟩
  rfl

/-- A read of QB.STATUS draws a free value. -/
theorem when_drawn_withMgmt (s : State) (m : MgmtSt) (n : Nat) (c : Bool) :
    ((s.withMgmt m n).when c fun s => { s with free := s.free + 1 }) = s.withMgmt m (if c then n + 1 else n) := by
  cases c <;> rfl

/-- A read transaction whose registers all pass answers their words and clears each of them. -/
theorem readAll_of_pass (s : State) (r : MgmtReq) (h : ∀ e ∈ r.registers, s.readCheck false e.2.1 = E_OK) :
    ∃ m n, m.queue = s.mgmt.queue.tail ∧ ((∀ e ∈ r.registers, e.2.1 ≠ qbBase + Reg.QB_STATUS_INFLIGHT.off) → n = s.free) ∧
      s.popRequest.readAll r false =
        ((clearAll s r.registers).sendResponse r (responseBytes r E_OK 0xFF (r.registers.map fun e => s.readWord e.2.1))).withMgmt m n := by
  have hn : r.registers.find? (fun e => s.popRequest.readCheck false e.2.1 != E_OK) = none :=
    List.find?_eq_none.mpr fun e he => by simp [readCheck_popRequest, h e he]
  have hc : r.registers.foldl (fun s e => s.clearRead e.2.1) s.popRequest = (clearAll s r.registers).withMgmt s.popRequest.mgmt s.free :=
    clearAll_withMgmt r.registers s s.popRequest.mgmt s.free
  obtain ⟨m, hm, e⟩ := respond_withMgmt (clearAll s r.registers) s.popRequest.mgmt
    (if r.registers.any fun e => e.2.1 == qbBase + Reg.QB_STATUS_INFLIGHT.off then s.free + 1 else s.free) r E_OK 0xFF
    (r.registers.map fun e => s.readWord e.2.1)
  refine ⟨m, _, hm, fun hi => if_neg fun ha => ?_, Eq.trans ?_ e⟩
  · obtain ⟨x, hx, hb⟩ := List.any_eq_true.mp ha
    exact hi x hx (beq_iff_eq.mp hb)
  · unfold State.readAll
    simp only [hn, hc, when_drawn_withMgmt, readWord_popRequest]

/-- A read transaction of which a register fails answers the code of the first that does, and nothing else. -/
theorem readAll_of_fail (s : State) (r : MgmtReq) (e : Nat × Nat × Word)
    (h : r.registers.find? (fun e => s.readCheck false e.2.1 != E_OK) = some e) :
    ∃ m, m.queue = s.mgmt.queue.tail ∧
      s.popRequest.readAll r false = (s.sendResponse r (responseBytes r (s.readCheck false e.2.1) e.1 [])).withMgmt m s.free := by
  have hr : s.popRequest.readAll r false = s.popRequest.respond r (s.readCheck false e.2.1) e.1 [] := by
    unfold State.readAll
    simp only [readCheck_popRequest, h]
  rw [hr]
  exact respond_withMgmt s s.popRequest.mgmt s.free r _ _ _

/-! The transaction at the front, where its port is served (R473). -/

section

variable {s : State} {n : Nat} {r : MgmtReq} {rest : List (Nat × MgmtReq)}

theorem runs_served {b : Bool} (h : Served s r.port) (hh : s.flag (cpBase 1) Reg.CP_STATUS_HELD = b) : s.runs r.port = if b then .waits else .cp1 := by
  unfold State.runs
  rw [gate_served s r.port h, hh]

theorem exec_readTransaction_of_cp1 (hq : s.mgmt.queue = (n, r) :: rest) (hr : r.isRead = true) (hp : s.runs r.port = .cp1) :
    exec .readTransaction s = .next (s.popRequest.readAll r false).settle := by
  change execReadTransaction s = _
  simp [execReadTransaction, hq, hr, hp]

theorem exec_readTransaction_of_waits (hq : s.mgmt.queue = (n, r) :: rest) (hp : s.runs r.port = .waits) :
    exec .readTransaction s = .next s.settle := by
  change execReadTransaction s = _
  simp [execReadTransaction, hq, hp]

theorem exec_writeTransaction_of_waits (hq : s.mgmt.queue = (n, r) :: rest) (hp : s.runs r.port = .waits) :
    exec .writeTransaction s = .next s.settle := by
  change execWriteTransaction s = _
  simp [execWriteTransaction, hq, hp]

theorem exec_writeTransaction_of_isRead (hq : s.mgmt.queue = (n, r) :: rest) (hr : r.isRead = true) :
    exec .writeTransaction s = .next s.settle := by
  change execWriteTransaction s = _
  simp [execWriteTransaction, hq, hr]

theorem exec_transaction_of_empty (hq : s.mgmt.queue = []) : exec .readTransaction s = .next s.settle ∧ exec .writeTransaction s = .next s.settle := by
  change execReadTransaction s = _ ∧ execWriteTransaction s = _
  simp [execReadTransaction, execWriteTransaction, hq]

end

/-! What stands in the state that a response leaves. -/

section

variable (s : State) (r : MgmtReq) (bytes : List Byte) (m : MgmtSt) (n : Nat)

theorem responded_reg {a : Nat} (h : a ∉ followers) : ((s.sendResponse r bytes).withMgmt m n).settle.reg a = s.reg a := by
  obtain ⟨c, o, e⟩ := (OnlySends.sendResponse r bytes s).self
  rw [State.settle_reg _ a h, e]
  rfl

theorem responded_mst : ((s.sendResponse r bytes).withMgmt m n).settle.mst = s.mst := by
  obtain ⟨c, o, e⟩ := (OnlySends.sendResponse r bytes s).self
  rw [State.settle_mst, e]
  rfl

theorem responded_fab : ((s.sendResponse r bytes).withMgmt m n).settle.fab = s.fab := by
  obtain ⟨c, o, e⟩ := (OnlySends.sendResponse r bytes s).self
  rw [State.settle_fab, e]
  rfl

theorem responded_outbox : ((s.sendResponse r bytes).withMgmt m n).settle.outbox = (s.sendResponse r bytes).outbox := State.settle_outbox _

theorem responded_mgmt : ((s.sendResponse r bytes).withMgmt m n).settle.mgmt = m := State.settle_mgmt _

theorem responded_free : ((s.sendResponse r bytes).withMgmt m n).settle.free = n := State.settle_free _

end

/-- Settles O50: each transaction runs through `readAll`, and a response changes no register. -/
theorem readTransactionsAnswerAndClear : Obligations.ReadTransactionsAnswerAndClear := by
  unfold Obligations.ReadTransactionsAnswerAndClear
  refine ⟨fun s n a r rest hq hr hs hh he hc ha => ?_, fun s n a r rest hq hr hs hh he hc => ?_, fun s n r rest hq hs hh => ?_,
    fun s n r rest hq hr hs hh => ?_, fun s n r rest hq hr hs hh hc => ?_, fun s hq => exec_transaction_of_empty hq⟩
  · obtain ⟨m, k, hm, hk, e⟩ := readAll_of_pass s r (by rw [he]; simpa using hc)
    refine ⟨_, exec_readTransaction_of_cp1 hq hr (runs_served hs hh), ?_⟩
    rw [e, he]
    simp only [List.map_cons, List.map_nil, clearAll, List.foldl_cons, List.foldl_nil]
    refine ⟨responded_outbox .., by rw [responded_mgmt, hm, hq]; rfl, ?_, ?_, ?_, ?_⟩
    · rw [responded_free]
      exact hk (by simpa [he] using ha)
    · rw [responded_mst, clearRead_mst]
    · intro b hb hf
      rw [responded_reg _ _ _ _ _ hf, reg_clearRead_of_ne s (by simpa using hb)]
    · intro f hf hf' h1 h2 h3
      have h := rd_clearRead_rclr s hf hf' h1 h2
      rw [State.rd, off_of_mem_fieldsAt hf] at h ⊢
      rwa [responded_reg _ _ _ _ _ h3]
  · obtain ⟨m, hm, e⟩ := readAll_of_fail s r (0, a, 0) (by rw [he]; simp [hc])
    refine ⟨_, exec_readTransaction_of_cp1 hq hr (runs_served hs hh), ?_⟩
    rw [e]
    refine ⟨responded_outbox .., by rw [responded_mgmt, hm, hq]; rfl, fun b _ hf => responded_reg _ _ _ _ _ hf⟩
  · exact ⟨exec_readTransaction_of_waits hq (runs_served hs hh), exec_writeTransaction_of_waits hq (runs_served hs hh)⟩
  · exact ⟨exec_readTransaction_of_cp1 hq hr (runs_served hs hh), exec_writeTransaction_of_isRead hq hr⟩
  · obtain ⟨m, k, hm, -, e⟩ := readAll_of_pass s r hc
    refine ⟨_, exec_readTransaction_of_cp1 hq hr (runs_served hs hh), ?_⟩
    rw [e]
    refine ⟨by rw [responded_mgmt, hm, hq]; rfl, by rw [responded_fab, clearAll_fab], fun b hb hf => ?_, responded_outbox ..⟩
    rw [responded_reg _ _ _ _ _ hf, reg_clearAll _ s hb]

end Sys2Proof
end

