-- ==== Sys2Proof/Proofs/FieldsKeptRules.lean ====
section
/-! What an operation leaves alone: the rules. Most operations of the model write cell pages, and of the block pages a few registers and fields
only. `Keeps l s t` says that `t` holds what `s` held but for these and for the fields of a list `l`. Each operation then has one lemma
`Keeps.<operation>`, and a proof written with the dot follows the operation's own text. -/

namespace Sys2Proof

open Sys2Proof.Machine

/-! Where the operations write. -/

/-- The cell index of a service address (R7): 0xFFE and 0xFFF on the pages of blocks. -/
def pageOf (a : Nat) : Nat := a / 0x100 % 0x1000

theorem pageOf_cellBase (id : Nat) {o : Nat} (h : o < 0x100) : pageOf (cellBase id + o) < 0x100 := by
  unfold pageOf cellBase svc idRegion idBlock idCell
  omega

/-- The registers TRIPPED of Tocsin. -/
def trippedRegs : List Nat := (List.range 8).map fun j => tbBase + (0x64 + 4 * j)

/-- Registers of block pages that operations on cells, the journal, memory, the recorder and the paths write whole or in part. -/
def sideRegs : List Nat :=
  [recBase + Reg.REC_MISS_QLOST.off, recBase + Reg.REC_MISS2_LOGLOST.off, recBase + Reg.REC_STATUS_STATE.off, recBase + Reg.REC_LOGUSED_USED.off,
    recBase + Reg.REC_LOGCAP_CAP.off, nvjBase + Reg.IMG_STATUS_PHASE.off, nvjBase + Reg.IMG_COMMITS_ABANDONED.off, nvjBase + Reg.KEY_STATE_SLOT0.off,
    nvjBase + Reg.NVJ_STATUS_DEGRADED.off, nvjBase + Reg.NVJ_SPARES_SPARES.off, nvjBase + Reg.NVJ_PART_RECBLKS.off, nvjBase + Reg.NVJ_WEARMAX.off,
    nvjBase + Reg.NVJ_WEARAVG.off, nvjBase + Reg.NVJ_ECC1_CORR1.off, nvjBase + Reg.NVJ_ECC2_UNCORR.off, nvjBase + Reg.NVJ_WCNT_VFAIL.off,
    nvjBase + Reg.NVJ_PEND_PEND.off, memBase + Reg.MEM_DRAM1_CORR1.off, memBase + Reg.MEM_DRAM2_UNCORR.off, memBase + Reg.MEM_SRAM1_CORR1.off,
    memBase + Reg.MEM_SRAM2_UNCORR.off, memBase + Reg.MEM_PORT_MISDIR.off, memBase + Reg.MEM_ERRINFO_VALID.off, memBase + Reg.MEM_ERRADDR_PA.off,
    pwrBase + Reg.PWR_CAP_UF.off, pwrBase + Reg.PWR_CNVFAIL.off, pnlBase + Reg.PNL_STATUS_INITRUN.off,
    netBase .a + Reg.NET_STATUS_ROLE.off, netBase .b + Reg.NET_STATUS_ROLE.off] ++ storedAddrs

/-- Fields that such operations write in a register whose other fields they leave. -/
def sideFields : List (Nat × Field) :=
  [(tbBase, Reg.TB_STATUS_NBYP), (tbBase, Reg.TB_CAUSE_FIRST), (tbBase, Reg.TB_CAUSE_PAIR), (tbBase, Reg.TB_CAUSE_SUB),
    (modBase, Reg.MOD_HEALTH_NV_DEGRADED), (modBase, Reg.MOD_HEALTH_SPARELOW), (pwrBase, Reg.PWR_STATUS_HULOW)]

/-- A field of a block page that stands in none of those. -/
abbrev Kept (b : Nat) (g : Field) : Prop :=
  0x100 ≤ pageOf (b + g.off) ∧ b + g.off ∉ trippedRegs ∧ b + g.off ∉ sideRegs ∧ ∀ x ∈ sideFields, Apart b g x.1 x.2

theorem sideRegs_not_tripped {a : Nat} (h : a ∈ sideRegs) : a ∉ trippedRegs := by
  have h' : ∀ a ∈ sideRegs, a ∉ trippedRegs := by decide +kernel
  exact h' a h

theorem sideFields_not_tripped {x : Nat × Field} (h : x ∈ sideFields) : x.1 + x.2.off ∉ trippedRegs := by
  have h' : ∀ x ∈ sideFields, x.1 + x.2.off ∉ trippedRegs := by decide +kernel
  exact h' x h

theorem sideFields_fit {x : Nat × Field} (h : x ∈ sideFields) : x.2.lo + x.2.width ≤ 32 := by
  have h' : ∀ x ∈ sideFields, x.2.lo + x.2.width ≤ 32 := by decide +kernel
  exact h' x h

theorem trippedRegs_not_cell {a : Nat} (h : pageOf a < 0x100) : a ∉ trippedRegs := by
  have h' : ∀ a ∈ trippedRegs, 0x100 ≤ pageOf a := by decide +kernel
  exact fun ha => absurd (h' a ha) (Nat.not_le.mpr h)

theorem mem_trippedRegs {k : Nat} (h : k < 256) : tbBase + (trippedField k).off ∈ trippedRegs :=
  List.mem_map.mpr ⟨k / 32, List.mem_range.mpr (by omega), rfl⟩

/-- An output's TRIPPED stands in a register TRIPPED. -/
theorem tripped_setReg {t : State} {a k : Nat} {v : Word} (ha : a ∉ trippedRegs) (hk : k < 256) : (t.setReg a v).tripped k = t.tripped k := by
  have h : tbBase + (trippedField k).off ≠ a := fun e => ha (e ▸ mem_trippedRegs hk)
  simp only [State.tripped, State.flag, State.rd, State.reg_setReg, if_neg h]

/-! The relation. -/

/-- `t` holds what `s` held: every kept field but those of `l`; every output tripped; what left; the DMA memory, the TOKEN kept, the pin SAFE_IN_N, and where
SERVICE was entered from; and no force is added. -/
structure Keeps (l : List (Nat × Field)) (s t : State) : Prop where
  rd : ∀ b g, Kept b g → (∀ x ∈ l, Apart b g x.1 x.2) → t.rd b g = s.rd b g
  tripped : ∀ k < 128, s.tripped k = true → t.tripped k = true
  outbox : t.outbox = s.outbox
  mem : t.q.mem = s.q.mem
  kept : t.chain.kept = s.chain.kept
  safeIn : t.toc.safeIn = s.toc.safeIn
  serviceFromSafe : t.toc.serviceFromSafe = s.toc.serviceFromSafe
  forces : t.fab.forces ⊆ s.fab.forces

namespace Keeps

variable {l : List (Nat × Field)} {s t u : State} {α : Type}

theorem refl (l : List (Nat × Field)) (s : State) : Keeps l s s :=
  ⟨fun _ _ _ _ => rfl, fun _ _ h => h, rfl, rfl, rfl, rfl, rfl, fun _ h => h⟩

theorem trans (h : Keeps l s t) (h' : Keeps l t u) : Keeps l s u :=
  ⟨fun b g hk hl => (h'.rd b g hk hl).trans (h.rd b g hk hl), fun k hk ht => h'.tripped k hk (h.tripped k hk ht), h'.outbox.trans h.outbox,
    h'.mem.trans h.mem, h'.kept.trans h.kept, h'.safeIn.trans h.safeIn, h'.serviceFromSafe.trans h.serviceFromSafe, List.Subset.trans h'.forces h.forces⟩

theorem flag (h : Keeps l s t) (b : Nat) (g : Field) (hk : Kept b g) (hl : ∀ x ∈ l, Apart b g x.1 x.2) : t.flag b g = s.flag b g := by
  rw [State.flag, State.flag, h.rd b g hk hl]

/-- A change of a part of the state of which nothing is kept. -/
theorem same (h : Keeps l s t) (hr : u.regs = t.regs := by rfl) (ho : u.outbox = t.outbox := by rfl) (hm : u.q.mem = t.q.mem := by rfl)
    (hc : u.chain.kept = t.chain.kept := by rfl) (hi : u.toc.safeIn = t.toc.safeIn := by rfl)
    (hf : u.toc.serviceFromSafe = t.toc.serviceFromSafe := by rfl) (hfo : u.fab.forces = t.fab.forces := by rfl) : Keeps l s u := by
  have hrd : ∀ b g, u.rd b g = t.rd b g := fun b g => by rw [State.rd, State.reg, hr]; rfl
  refine ⟨fun b g hk hl => (hrd b g).trans (h.rd b g hk hl), fun k hk ht => ?_, ho.trans h.outbox, hm.trans h.mem, hc.trans h.kept, hi.trans h.safeIn,
    hf.trans h.serviceFromSafe, ?_⟩
  · have := h.tripped k hk ht
    rwa [State.tripped, State.flag, hrd]
  · rw [hfo]; exact h.forces

/-! Writes. -/

/-- A write of a register, of which no kept field knows. -/
theorem write {a : Nat} {v : Word} (h : Keeps l s t) (ha : a ∉ trippedRegs)
    (hrd : ∀ b g, Kept b g → (∀ x ∈ l, Apart b g x.1 x.2) → (t.setReg a v).rd b g = t.rd b g) : Keeps l s (t.setReg a v) :=
  ⟨fun b g hk hl => (hrd b g hk hl).trans (h.rd b g hk hl), fun k hk ht => (tripped_setReg ha (by omega)).trans (h.tripped k hk ht),
    h.outbox, h.mem, h.kept, h.safeIn, h.serviceFromSafe, h.forces⟩

theorem write_of_ne {a : Nat} {v : Word} (h : Keeps l s t) (ha : a ∉ trippedRegs) (hne : ∀ b g, Kept b g → b + g.off ≠ a) : Keeps l s (t.setReg a v) :=
  h.write ha fun b g hk _ => by rw [State.rd, State.reg_setReg, if_neg (hne b g hk), State.rd]

theorem write_of_apart {b : Nat} {f : Field} {v : Nat} (h : Keeps l s t) (ha : b + f.off ∉ trippedRegs) (hf : f.lo + f.width ≤ 32)
    (hap : ∀ c g, Kept c g → (∀ x ∈ l, Apart c g x.1 x.2) → Apart c g b f) : Keeps l s (t.wr b f v) :=
  h.write ha fun c g hk hl => t.rd_wr_apart c b g f v hf (hap c g hk hl)

/-! On a cell's page. -/

theorem setReg {id o : Nat} {v : Word} (h : Keeps l s t) (ho : o < 0x100 := by decide) : Keeps l s (t.setReg (cellBase id + o) v) :=
  have hp := pageOf_cellBase id ho
  h.write_of_ne (trippedRegs_not_cell hp) fun _ _ hk e => absurd (e ▸ hk.1) (Nat.not_le.mpr hp)

theorem wr {id : Nat} {f : Field} {v : Nat} (h : Keeps l s t) (ho : f.off < 0x100 := by decide) : Keeps l s (t.wr (cellBase id) f v) := h.setReg ho
theorem wrw {id : Nat} {f : Field} {v : Word} (h : Keeps l s t) (ho : f.off < 0x100 := by decide) : Keeps l s (t.wrw (cellBase id) f v) := h.setReg ho
theorem setFlag {id : Nat} {f : Field} {v : Bool} (h : Keeps l s t) (ho : f.off < 0x100 := by decide) : Keeps l s (t.setFlag (cellBase id) f v) := h.wr ho
theorem bump {id : Nat} {f : Field} (h : Keeps l s t) (ho : f.off < 0x100 := by decide) : Keeps l s (t.bump (cellBase id) f) := h.wr ho

/-! In a register that such operations write. -/

theorem setSideReg {a : Nat} {v : Word} (h : Keeps l s t) (ha : a ∈ sideRegs := by decide) : Keeps l s (t.setReg a v) :=
  h.write_of_ne (sideRegs_not_tripped ha) fun _ _ hk e => hk.2.2.1 (e ▸ ha)

theorem wrSide {b : Nat} {f : Field} {v : Nat} (h : Keeps l s t) (ha : b + f.off ∈ sideRegs := by decide) : Keeps l s (t.wr b f v) := h.setSideReg ha
theorem wrwSide {b : Nat} {f : Field} {v : Word} (h : Keeps l s t) (ha : b + f.off ∈ sideRegs := by decide) : Keeps l s (t.wrw b f v) := h.setSideReg ha
theorem setFlagSide {b : Nat} {f : Field} {v : Bool} (h : Keeps l s t) (ha : b + f.off ∈ sideRegs := by decide) : Keeps l s (t.setFlag b f v) := h.wrSide ha
theorem bumpBySide {b : Nat} {f : Field} {n : Nat} (h : Keeps l s t) (ha : b + f.off ∈ sideRegs := by decide) : Keeps l s (t.bumpBy b f n) := h.wrSide ha
theorem bumpSide {b : Nat} {f : Field} (h : Keeps l s t) (ha : b + f.off ∈ sideRegs := by decide) : Keeps l s (t.bump b f) := h.wrSide ha

/-! Of a field that such operations write, and of a listed one. -/

theorem wrField {b : Nat} {f : Field} {v : Nat} (h : Keeps l s t) (hm : (b, f) ∈ sideFields := by decide) : Keeps l s (t.wr b f v) :=
  h.write_of_apart (sideFields_not_tripped hm) (sideFields_fit hm) fun _ _ hk _ => hk.2.2.2 _ hm
theorem setFlagField {b : Nat} {f : Field} {v : Bool} (h : Keeps l s t) (hm : (b, f) ∈ sideFields := by decide) : Keeps l s (t.setFlag b f v) := h.wrField hm

theorem wrListed {b : Nat} {f : Field} {v : Nat} (h : Keeps l s t) (hm : (b, f) ∈ l := by decide) (hf : f.lo + f.width ≤ 32 := by decide)
    (ht : b + f.off ∉ trippedRegs := by decide) : Keeps l s (t.wr b f v) := h.write_of_apart ht hf fun _ _ _ hl => hl _ hm
theorem setFlagListed {b : Nat} {f : Field} {v : Bool} (h : Keeps l s t) (hm : (b, f) ∈ l := by decide) (hf : f.lo + f.width ≤ 32 := by decide)
    (ht : b + f.off ∉ trippedRegs := by decide) : Keeps l s (t.setFlag b f v) := h.wrListed hm hf ht

/-! Branches and repetitions. -/

protected theorem ite {c : Prop} [Decidable c] (ht : Keeps l s t) (hu : Keeps l s u) : Keeps l s (if c then t else u) := by
  split
  · exact ht
  · exact hu

/-- A branch that goes on from the state of the other one. -/
theorem ifThen {c : Prop} [Decidable c] (h : Keeps l s t) (hu : Keeps l s t → Keeps l s u) : Keeps l s (if c then u else t) := .ite (hu h) h
theorem ifElse {c : Prop} [Decidable c] (h : Keeps l s t) (hu : Keeps l s t → Keeps l s u) : Keeps l s (if c then t else u) := .ite h (hu h)

protected theorem pair {a : α} (h : Keeps l s t) : Keeps l s (a, t).2 := h

theorem iteSnd {c : Prop} [Decidable c] {p q : α × State} (hp : Keeps l s p.2) (hq : Keeps l s q.2) : Keeps l s (if c then p else q).2 := by
  split
  · exact hp
  · exact hq

theorem when {c : Bool} {f : State → State} (h : Keeps l s t) (hf : ∀ u, Keeps l s u → Keeps l s (f u)) : Keeps l s (t.when c f) := .ite (hf t h) h

theorem foldlMem {f : State → α → State} {m : List α} (h : Keeps l s t) (hf : ∀ u, ∀ a ∈ m, Keeps l s u → Keeps l s (f u a)) : Keeps l s (m.foldl f t) := by
  induction m generalizing t with
  | nil => exact h
  | cons a m ih => exact ih (hf t a List.mem_cons_self h) fun u b hb => hf u b (List.mem_cons_of_mem a hb)

theorem foldl {f : State → α → State} {m : List α} (h : Keeps l s t) (hf : ∀ u a, Keeps l s u → Keeps l s (f u a)) : Keeps l s (m.foldl f t) :=
  h.foldlMem fun u a _ => hf u a

theorem listed_mono {m : List (Nat × Field)} (h : Keeps l s t) (hm : l ⊆ m) : Keeps m s t :=
  { h with rd := fun b g hk hl => h.rd b g hk fun x hx => hl x (hm hx) }

end Keeps

end Sys2Proof
end

