-- ==== Sys2Proof/Proofs/OperationsKeepFields.lean ====
section
/-! What an operation leaves alone: one lemma per operation, in the order of the model's files. -/

namespace Sys2Proof

open Sys2Proof.Machine

namespace Keeps

variable {l : List (Nat × Field)} {s t : State}

/-! `Machine/Ops.lean`. -/

theorem modFab {f : FabricSt → FabricSt} (h : Keeps l s t) (hf : (f t.fab).forces = t.fab.forces := by rfl) : Keeps l s (t.modFab f) := h.same (hfo := hf)

theorem modToc {f : TocsinSt → TocsinSt} (h : Keeps l s t) (hi : (f t.toc).safeIn = t.toc.safeIn := by rfl)
    (hf : (f t.toc).serviceFromSafe = t.toc.serviceFromSafe := by rfl) : Keeps l s (t.modToc f) := h.same (hi := hi) (hf := hf)

theorem modQ {f : QueueSt → QueueSt} (h : Keeps l s t) (hm : (f t.q).mem = t.q.mem := by rfl) : Keeps l s (t.modQ f) := h.same (hm := hm)

theorem modImg {f : ImageSt → ImageSt} (h : Keeps l s t) : Keeps l s (t.modImg f) := h.same

theorem modNet {f : NetSt → NetSt} (h : Keeps l s t) : Keeps l s (t.modNet f) := h.same

theorem modJrn {f : JournalSt → JournalSt} (h : Keeps l s t) : Keeps l s (t.modJrn f) := h.same

theorem modRec {f : RecSt → RecSt} (h : Keeps l s t) : Keeps l s (t.modRec f) := h.same

theorem modPnl {f : PanelSt → PanelSt} (h : Keeps l s t) : Keeps l s (t.modPnl f) := h.same

theorem modTab {f : TaborSt → TaborSt} (h : Keeps l s t) : Keeps l s (t.modTab f) := h.same

theorem draw (h : Keeps l s t) : Keeps l s t.draw.2 := h.same

theorem notice {kind : AlarmKind} {source new key : Nat} (h : Keeps l s t) : Keeps l s (t.notice kind source new key) := .ite h.modTab h

theorem modCell {id : Nat} {f : CellSt → CellSt} (h : Keeps l s t) : Keeps l s (t.modCell id f) := h.modFab

theorem modUc {n : Nat} {f : UcSt → UcSt} (h : Keeps l s t) : Keeps l s (t.modUc n f) := h.same

theorem modDp {n : Nat} {f : DpSt → DpSt} (h : Keeps l s t) : Keeps l s (t.modDp n f) := h.same

theorem modAx {n : Nat} {f : AxSt → AxSt} (h : Keeps l s t) : Keeps l s (t.modAx n f) := h.same

theorem modMb {n : Nat} {f : MbxSt → MbxSt} (h : Keeps l s t) : Keeps l s (t.modMb n f) := h.same

theorem modFc {n : Nat} {f : FcSt → FcSt} (h : Keeps l s t) : Keeps l s (t.modFc n f) := h.modFab

theorem modLp {n : Nat} {f : LoopSt → LoopSt} (h : Keeps l s t) : Keeps l s (t.modLp n f) := h.modFab

theorem modPh {n : Nat} {f : PhasorSt → PhasorSt} (h : Keeps l s t) : Keeps l s (t.modPh n f) := h.modFab

theorem modQp {n : Nat} {f : QpSt → QpSt} (h : Keeps l s t) : Keeps l s (t.modQp n f) := h.modQ

theorem modPeer {k : Nat} {f : PeerSt → PeerSt} (h : Keeps l s t) : Keeps l s (t.modPeer k f) := h.same

theorem modPath {p : Path} {f : PathSt → PathSt} (h : Keeps l s t) : Keeps l s (t.modPath p f) := by
  unfold State.modPath
  split <;> exact h.modNet

/-! `Machine/Cells.lean`. -/

theorem dropHeld {id : Nat} (h : Keeps l s t) : Keeps l s (t.dropHeld id) := h.modFab

theorem loopCst {id was n : Nat} (h : Keeps l s t) : Keeps l s (t.loopCst id was n) := .ite h.modLp h

theorem syncOff {g : Nat} (h : Keeps l s t) : Keeps l s (t.syncOff g) := .ite h h.wr.modPh

theorem endPermit {g next : Nat} (h : Keeps l s t) : Keeps l s (t.endPermit g next) := by
  unfold State.endPermit
  refine .modPh (.wr (.bump (.setFlag ?_)))
  split
  · exact h.modDp
  · exact h

theorem startPh {id : Nat} {keep : Bool} (h : Keeps l s t) : Keeps l s (t.startPh id keep) := by
  unfold State.startPh
  exact h.wrw.setFlag.wr.modPh

theorem phCst {id was n : Nat} (h : Keeps l s t) : Keeps l s (t.phCst id was n) :=
  .ite (((h.setFlag.when fun _ h => h.endPermit).ifElse fun h => h.syncOff).when fun _ h => h.startPh) h

theorem setComparator {n c : Nat} {v : Bool} (h : Keeps l s t) : Keeps l s (t.setComparator n c v) :=
  (h.setFlag (by split <;> decide)).ifThen fun h => h.notice

theorem ucCst {id n : Nat} (h : Keeps l s t) : Keeps l s (t.ucCst id n) := .ite h.setComparator.setComparator.modUc h

theorem dpCst {id n : Nat} (h : Keeps l s t) : Keeps l s (t.dpCst id n) := .ite h.setFlag.setFlag.setFlag h

theorem setCst {id n : Nat} (h : Keeps l s t) : Keeps l s (t.setCst id n) := by
  have hc : ∀ m, Keeps l s ((((t.wr (cellBase id) Reg.CELL_STATE_STATE m).loopCst id (t.cst id) m).phCst id (t.cst id) m |>.ucCst id m |>.dpCst id m).when
      (t.cst id == csFault && m != csFault) fun s => s.setFlag (cellBase id) Reg.CELL_STATE_ISOL false) :=
    fun _ => h.wr.loopCst.phCst.ucCst.dpCst.when fun _ h => h.setFlag
  exact .ite (hc _).modCell ((hc _).ifThen fun h => h.modCell)

theorem takeSafe {id : Nat} (h : Keeps l s t) : Keeps l s (t.takeSafe id) := .ite h (h.wr.ifElse fun h => h.setCst)

theorem toRecover {id : Nat} (h : Keeps l s t) : Keeps l s (t.toRecover id) := h.setCst.ifThen fun h => h.takeSafe

theorem enterFault {id : Nat} {cause : Bool} (h : Keeps l s t) : Keeps l s (t.enterFault id cause) :=
  (h.setCst.setFlag.bump.modCell.when fun _ h => h.setFlag).dropHeld

theorem isolateCell {id : Nat} {cause : Bool} (h : Keeps l s t) : Keeps l s (t.isolateCell id cause) := .ite h.enterFault (.ite h.modCell h)

theorem unforce {id : Nat} (h : Keeps l s t) : Keeps l s (t.unforce id) := h.modCell.wr.when fun _ h => h.wr

/-- The staged forces go. -/
theorem leaveService (h : Keeps l s t) : Keeps l s t.leaveService :=
  have h' : Keeps l s _ := h.foldl (m := t.cells) fun _ _ h => .ifThen (.ite h h.unforce) fun h => h.toRecover
  ⟨h'.rd, h'.tripped, h'.outbox, h'.mem, h'.kept, h'.safeIn, h'.serviceFromSafe, List.nil_subset _⟩

/-! `Machine/Occur.lean`. -/

theorem occur {src index : Nat} {mag : Rat} {key sig : Nat} (h : Keeps l s t) : Keeps l s (t.occur src index mag key sig) := .ite h.bumpSide h.modRec

/-! `Machine/Axes.lean`. -/

theorem setAxf {n : Nat} {f : Field} {v : Bool} (h : Keeps l s t) (ho : f.off < 0x100 := by decide) : Keeps l s (t.setAxf n f v) := h.setFlag ho

theorem setAxPos {n : Nat} {x : Int} (h : Keeps l s t) : Keeps l s (t.setAxPos n x) := h.wrw

theorem posFromEnc {n : Nat} (h : Keeps l s t) : Keeps l s (t.posFromEnc n) := h.setAxPos.modAx

theorem latchEnc {n : Nat} (h : Keeps l s t) : Keeps l s (t.latchEnc n) := by
  unfold State.latchEnc
  exact h.modAx

theorem stopAx {n : Nat} {p : StopPlan} (h : Keeps l s t) : Keeps l s (t.stopAx n p) := h.modAx

theorem failHoming {n cause : Nat} (h : Keeps l s t) : Keeps l s (t.failHoming n cause) := .ite h.wr.wr.wr.setAxf.setAxf.bump.modAx.stopAx h

theorem showSpeed {n : Nat} {old new : Rat} (h : Keeps l s t) : Keeps l s (t.showSpeed n old new) :=
  (h.setAxf.setAxf.wr.setAxf.when fun _ h => h.setAxf).wrw

theorem showLimits {n : Nat} (h : Keeps l s t) : Keeps l s (t.showLimits n) := h.setAxf.setAxf.setAxf.modAx.setAxf

theorem loadAxRegs {n : Nat} (h : Keeps l s t) : Keeps l s (t.loadAxRegs n) :=
  h.setFlag.setFlag.setFlag.setFlag.setFlag.wr.wr.wrw.wrw.wrw.wrw.wrw.wrw.wrw.showLimits

theorem latchIfUnhomed {n : Nat} (h : Keeps l s t) : Keeps l s (t.latchIfUnhomed n) := .ite h h.latchEnc

theorem adoptAx {n : Nat} (h : Keeps l s t) : Keeps l s (t.adoptAx n) := .ite h.modAx.loadAxRegs.latchIfUnhomed h

theorem bridgesOff {n : Nat} (h : Keeps l s t) : Keeps l s (t.bridgesOff n) := .ite (h.modAx.when fun _ h => h.setAxf).setAxf.showSpeed.adoptAx h

theorem bridgesOn {n : Nat} (h : Keeps l s t) : Keeps l s (t.bridgesOn n) := .ite h (.setAxf (.modAx (.ite h.posFromEnc h)))

theorem setTarget {n : Nat} {x : Int} {p : StopPlan} (h : Keeps l s t) : Keeps l s (t.setTarget n x p) := h.wrw.ifElse fun h => h.modAx.setAxf

theorem stopSafe {n : Nat} (h : Keeps l s t) : Keeps l s (t.stopSafe n) := .ite h h.stopAx

theorem safeStop {n : Nat} (h : Keeps l s t) : Keeps l s (t.safeStop n) := .ite (.setTarget (.ite h h.modAx)) h.stopSafe

theorem driveAx {n : Nat} (h : Keeps l s t) : Keeps l s (t.driveAx n) := by
  unfold State.driveAx
  refine .ite h ?_
  exact (((h.setAxf.ifElse fun h => .ite h.failHoming (.ite h.failHoming (.ite h.failHoming (.ite h.failHoming h)))).when
    fun _ h => h.bridgesOff).setAxf.when fun _ h => h.modAx).ifThen fun h => h.bridgesOn.safeStop

theorem startAx {id : Nat} {c : StartCause} {old : List Record} {same : Bool} (h : Keeps l s t) : Keeps l s (t.startAx id c old same) := by
  unfold State.startAx
  dsimp only
  split
  · exact h.modAx.loadAxRegs.latchEnc.driveAx
  · exact ((h.modAx.failHoming.modAx.modAx.ifElse fun h => h.setAxf).ifElse fun h => h.loadAxRegs.latchIfUnhomed).driveAx
  · exact h.modAx.latchIfUnhomed.showLimits.driveAx

/-! `Machine/Channels.lean`. -/

theorem loadTrim {n : Nat} (h : Keeps l s t) : Keeps l s (t.loadTrim n) := by
  unfold State.loadTrim
  dsimp only
  split <;> exact h.wrw.wrw.setFlag

theorem setCaps {n : Nat} {lo hi : Option (Word × Word)} (h : Keeps l s t) : Keeps l s (t.setCaps n lo hi) := by
  unfold State.setCaps
  exact h.setFlag.setFlag.modUc

theorem driveUc {n : Nat} (h : Keeps l s t) : Keeps l s (t.driveUc n) := by
  unfold State.driveUc
  refine .ite h ?_
  split
  · exact h.wrw.wrw.modUc
  · exact .ite h h.wrw.wrw.modUc

theorem startUc {id : Nat} {c : StartCause} (h : Keeps l s t) : Keeps l s (t.startUc id c) :=
  ((h.when fun _ h =>
    h.wr.wr.wr.setFlag.setFlag.setFlag.setFlag.setFlag.wr.wr.wr.setFlag.wrw.wrw.wr.setFlag.setComparator.setComparator.setReg.setFlag.modUc.setCaps.loadTrim).modUc.when
    fun _ h => h.modUc.isolateCell).ifElse fun h => h.driveUc

/-! `Machine/Points.lean`. -/

theorem followBond {n : Nat} (h : Keeps l s t) : Keeps l s (t.followBond n) := by
  have hf : ∀ f ∈ [Reg.CELL_STATE_STATE, Reg.CELL_STATE_SOURCE, Reg.CELL_STATE_ISOL, Reg.CELL_STATE_LATCHED, Reg.CELL_STATE_RETRIES], f.off < 0x100 := by
    decide
  exact .ite ((h.when fun _ h => h.bump).foldlMem fun _ f hm h => h.wr (hf f hm)).setReg.wrw h

theorem driveDp {n : Nat} (h : Keeps l s t) : Keeps l s (t.driveDp n) := .ite h (h.when fun _ h => h.setFlag).setFlag.setFlag.followBond

theorem startDp {id : Nat} {c : StartCause} (h : Keeps l s t) : Keeps l s (t.startDp id c) :=
  (h.when fun _ h => (h.wr.wr.setFlag.setFlag.setFlag.setFlag.setFlag.setFlag.wr.wr.setReg.setFlag.when
    fun _ h => h.wrw).modDp).wrw.modDp.driveDp

/-! `Machine/Drive.lean`. -/

theorem driveCell {id : Nat} (h : Keeps l s t) : Keeps l s (t.driveCell id) := by
  unfold State.driveCell
  split
  · exact h.driveUc
  · exact h.driveDp
  · exact h.driveAx
  · exact h

theorem drive (h : Keeps l s t) : Keeps l s t.drive := h.foldl fun _ _ h => h.driveCell

theorem lineCell {id : Nat} {on : Bool} (h : Keeps l s t) : Keeps l s (t.lineCell id on) := .ite h.modCell.takeSafe.driveCell h.modCell.driveCell

/-! `Machine/Tocsin.lean`. -/

theorem endBypass {n : Nat} (h : Keeps l s t) : Keeps l s (t.endBypass n) := .ite h.modToc.occur.wrField h

theorem endBypasses (h : Keeps l s t) : Keeps l s t.endBypasses := h.foldl fun _ _ h => h.endBypass

theorem abandonCommit {c : Code} (h : Keeps l s t) : Keeps l s (t.abandonCommit c) := .ite h.wrSide.wrSide.bumpSide.modImg h

theorem tripped_setTripped_flag {k j : Nat} (hj : t.tripped j = true) : (t.setFlag tbBase (trippedField k) true).tripped j = true := by
  by_cases he : j = k
  · subst he
    exact t.flag_setFlag_same _ _ _ (by simp only [trippedField]; omega) rfl
  · have ha : Apart tbBase (trippedField j) tbBase (trippedField k) := by
      simp only [Apart, trippedField]
      omega
    rwa [State.tripped, State.flag, State.rd_setFlag_apart _ _ _ _ _ _ (by simp only [trippedField]; omega) ha]

theorem setTripped {k : Nat} (h : Keeps l s t) (hk : k < 256) : Keeps l s (t.setTripped k true) := by
  have hw : ∀ u, Keeps l s u → Keeps l s (u.setFlag tbBase (trippedField k) true) := fun u h =>
    ⟨fun b g hb hl => (u.rd_wr_of_ne tbBase b (trippedField k) g _ fun e => hb.2.1 (e ▸ mem_trippedRegs hk)).trans (h.rd b g hb hl),
      fun j hj ht => tripped_setTripped_flag (h.tripped j hj ht), h.outbox, h.mem, h.kept, h.safeIn, h.serviceFromSafe, h.forces⟩
  exact (hw _ (h.when fun _ h => h.modToc)).ifThen fun h => h.setFlag

theorem tripAll (h : Keeps l s t) : Keeps l s t.tripAll :=
  h.foldlMem fun _ _ hk h => h.setTripped (Nat.lt_trans (List.mem_range.mp hk) (by decide))

/-! `Machine/Loops.lean`, `Machine/FuncCells.lean`, `Machine/Chain.lean`, `Machine/Queue.lean`, `Machine/Can.lean`. -/

theorem setAct {id act : Nat} (h : Keeps l s t) : Keeps l s (t.setAct id act) := h.wr.ifThen fun h => h.notice

theorem startLp {id : Nat} {c : StartCause} (h : Keeps l s t) : Keeps l s (t.startLp id c) := by
  unfold State.startLp
  exact (((((h.wr.wr.setFlag.wr.setFlag.setAct.when fun _ h => h.setFlag).wrw.ifElse fun h => h.wrw.setFlag).when fun _ h => h.wrw.wrw.wr).when
    fun _ h => h.modCell).when fun _ h => h.wr.wr).modLp

theorem startFc {id : Nat} (h : Keeps l s t) : Keeps l s (t.startFc id) := by
  unfold State.startFc
  exact h.wr.wr.wr.wrw.wrw.wrw.wrw.wr.modFc

theorem startPeer {k : Nat} (h : Keeps l s t) : Keeps l s (t.startPeer k) := by
  unfold State.startPeer
  exact h.setFlag.wr.modPeer

theorem startQp {n : Nat} (h : Keeps l s t) : Keeps l s (t.startQp n) := by
  unfold State.startQp
  exact h.wr.wr.wr.wr.modQp

theorem startMailbox {n : Nat} (h : Keeps l s t) : Keeps l s (t.startMailbox n) := h.modMb

theorem startPair {n : Nat} (h : Keeps l s t) : Keeps l s (t.startPair n) := .ite h.setCst.modQp h

theorem startPairs (h : Keeps l s t) : Keeps l s t.startPairs := h.foldl fun _ _ h => h.startPair

/-! `Machine/Commit.lean`. -/

theorem startTo {id : Nat} (h : Keeps l s t) (hk : kindOf id = some .tout) : Keeps l s (t.startTo id) := by
  have hn : cellNum id < 256 := by
    simp only [cellNum, hk, idCell]
    omega
  exact (h.setTripped hn).modToc

theorem startCell {id : Nat} {c : StartCause} {old : List Record} (h : Keeps l s t) : Keeps l s (t.startCell id c old) := by
  unfold State.startCell
  dsimp only
  split
  · exact h.setCst.startUc
  · exact h.setCst.startDp
  · exact h.setCst.startAx
  · exact h.setCst.startPh
  · exact h.setCst.startLp
  · exact .ite h.setCst.startFc h.setCst.modFc
  · next hk => exact h.setCst.startTo hk
  · exact h.setCst.when fun _ h => h.startPeer
  · exact h.setCst.when fun _ h => h.startQp
  · exact h.setCst.startMailbox
  · exact h.setCst

/-! `Machine/Blocks.lean`. -/

theorem modBank {b : Bool} {f : Bank → Bank} (h : Keeps l s t) : Keeps l s (t.modBank b f) := h.modImg

theorem recShrink {b : Nat} (h : Keeps l s t) : Keeps l s (t.recShrink b) :=
  ((h.when fun _ h => h.setFlagSide).bumpBySide.modRec.wrSide.wrSide).ifThen fun h => h.wrSide

theorem showWear (h : Keeps l s t) : Keeps l s t.showWear := h.wrwSide.wrwSide

theorem wearBlocks {blocks : List Nat} (h : Keeps l s t) : Keeps l s (t.wearBlocks blocks) := (h.foldl fun _ _ h => h.modJrn).showWear

theorem countRetire (h : Keeps l s t) : Keeps l s t.countRetire := h.bumpSide.bumpSide.occur

theorem degrade (h : Keeps l s t) : Keeps l s t.degrade := by
  have hs : ∀ b, nvjBase + (bankSaved b).off ∈ sideRegs := by decide +kernel
  exact .ite h ((h.setFlagSide.setFlagField.setFlagSide (hs _)).modBank.modImg.occur)

theorem replaceBlock {b p n : Nat} (h : Keeps l s t) : Keeps l s (t.replaceBlock b p n) := h.modJrn.modJrn.modJrn.countRetire.showWear

theorem donate {b donor p n : Nat} (h : Keeps l s t) : Keeps l s (t.donate b donor p n) := .ite h.countRetire.showWear h.replaceBlock

theorem retire {b : Nat} (h : Keeps l s t) : Keeps l s (t.retire b) := by
  unfold State.retire
  refine .ite (h.wrSide.replaceBlock.ifThen fun h => h.setFlagSide.setFlagField.occur) ?_
  refine .ite h.modJrn.wrSide.recShrink.donate ?_
  split
  · exact h.modJrn.wrSide.degrade.donate
  · exact h.modJrn

theorem nvWrite {blocks : List Nat} {o : NvOutcome} (h : Keeps l s t) : Keeps l s (t.nvWrite blocks o).2 := by
  unfold State.nvWrite
  refine .iteSnd h (.iteSnd ?_ (.iteSnd ?_ (.iteSnd ?_ ?_)))
  · exact .pair h.bumpBySide.wearBlocks.modJrn
  · exact .pair h.bumpBySide.wearBlocks.modJrn
  · refine .wearBlocks (.foldl ?_ fun _ _ h => h.retire)
    exact h.bumpBySide.wearBlocks.modJrn
  · refine .foldl ?_ fun _ _ h => h.retire
    exact h.bumpBySide.wearBlocks.modJrn

theorem setPend {m : List Nat} (h : Keeps l s t) : Keeps l s (t.setPend m) := h.modJrn.wrSide

theorem applyPend {n : Nat} {o : NvOutcome} (h : Keeps l s t) : Keeps l s (t.applyPend n o) := h.nvWrite.modJrn.setPend

/-! `Machine/Words.lean`. -/

theorem poisonGranule {m : MemKind} {g : Nat} (h : Keeps l s t) : Keeps l s (t.poisonGranule m g) := by
  unfold State.poisonGranule
  split
  · exact h.modQ
  · exact h.modQ
  · exact h

theorem noteError {m : MemKind} {port : Bool} {region g : Nat} {o : Decoded} (h : Keeps l s t) : Keeps l s (t.noteError m port region g o) :=
  h.wrSide.wrSide.wrSide.setFlagSide.wrSide

theorem faultField_side {m : MemKind} {port : Bool} {o : Decoded} {x : Nat × Field} (h : faultField m port o = some x) : x.1 + x.2.off ∈ sideRegs := by
  cases m <;> cases port <;> cases o <;> cases h <;> decide +kernel

theorem meetWord {m : MemKind} {port : Bool} {region g : Nat} {o : Decoded} (h : Keeps l s t) : Keeps l s (t.meetWord m port region g o) := by
  have hb : Keeps l s (match faultField m port o with | some (b, f) => t.bump b f | none => t) := by
    split
    · next he => exact h.bumpSide (faultField_side he)
    · exact h
  exact hb.ifElse fun h => .ite h.modJrn h.noteError.poisonGranule

/-! `Machine/Network.lean`. -/

theorem nwr {p : Path} {f : Field} {v : Nat} (h : Keeps l s t) (hf : f.off = Reg.NET_STATUS_ROLE.off := by rfl) : Keeps l s (t.nwr p f v) := by
  refine h.wrSide ?_
  rw [hf]
  cases p <;> decide +kernel

theorem nset {p : Path} {f : Field} {v : Bool} (h : Keeps l s t) (hf : f.off = Reg.NET_STATUS_ROLE.off := by rfl) : Keeps l s (t.nset p f v) := h.nwr hf

theorem updateElig {p : Path} (h : Keeps l s t) : Keeps l s (t.updateElig p) := h.nset

theorem setSnare {n : Nat} (h : Keeps l s t) : Keeps l s (t.setSnare n) := h.modNet.nwr.nwr

theorem pathOff {p : Path} (h : Keeps l s t) : Keeps l s (t.pathOff p) := h.ifElse fun h => h.nwr.nset.nset.nset.nset.modPath.when fun _ h => h.modNet.setSnare

theorem tryStandby {p : Path} (h : Keeps l s t) : Keeps l s (t.tryStandby p) := .ite h.nwr.nset.modPath h

theorem identify {p : Path} (h : Keeps l s t) : Keeps l s (t.identify p) := by
  unfold State.identify
  split
  · exact h
  · exact .ite h (.ite h.nwr.tryStandby.updateElig h.nwr.pathOff)

/-! `Machine/Panel.lean`, `Machine/Power.lean`, `Machine/StartUp.lean`. -/

theorem panelInit (h : Keeps l s t) : Keeps l s t.panelInit := .ite h h.setFlagSide.modPnl

theorem measured {uf : Nat} (h : Keeps l s t) : Keeps l s (t.measured uf) := .ite h.wrSide.setFlagField (.ite h.wrSide.setFlagField h.wrSide)

theorem readSetting {a : Nat} (h : Keeps l s t) (ha : a ∈ sideRegs) : Keeps l s (t.readSetting a) := by
  unfold State.readSetting
  split
  · exact h
  · exact .ite h (.ite h.draw (h.draw.setSideReg ha))

theorem readTrim {key : Nat} (h : Keeps l s t) : Keeps l s (t.readTrim key) := .ite h (.ite h.draw.draw.modJrn h.draw.draw)

theorem readControl (h : Keeps l s t) : Keeps l s t.readControl := by
  have hk : ∀ n, nvjBase + (keyField n).off ∈ sideRegs := fun _ => (by decide : nvjBase + Reg.KEY_STATE_SLOT0.off ∈ sideRegs)
  have hs : ∀ u n, Keeps l s u →
      Keeps l s (if !u.copiesBad (keyHome n) then u else u.draw.2.wr nvjBase (keyField n) (u.draw.1.toNat % 3)) :=
    fun _ n h => .ite h (h.draw.wrSide (hk n))
  exact .ite (h.foldl hs) (h.foldl hs).draw.setFlagSide

theorem readSettings (h : Keeps l s t) : Keeps l s t.readSettings :=
  ((h.foldlMem fun _ _ ha h => h.readSetting (List.mem_append_right _ ha)).foldl fun _ _ h => h.readTrim).readControl

end Keeps

end Sys2Proof
end

