-- ==== Sys2Proof/Proofs/SafetyFaults.lean ====
section
/-! Safety-relevant faults (R22, R186, R187, R191): what the entry into SAFE does, part by part, and the obligation on it. -/

namespace Sys2Proof

open Sys2Proof.Machine

variable {l : List (Nat × Field)} {s t : State}

/-! The parts of a safety-relevant fault. -/

/-- What a safety-relevant fault writes beside what every operation may. -/
def faultFields : List (Nat × Field) :=
  [(tbBase, Reg.TB_CAUSE_LATCHED), (modBase, Reg.MOD_STATE_PREV), (modBase, Reg.MOD_STATE_STATE), (tbBase, Reg.TB_STATUS_TSTATE),
    (cpBase 0, Reg.CP_STATUS_HELD), (tbBase, Reg.TB_STATUS_HWSAFE)]

/-- The fields that tell where the module stands are kept by every operation that does not name them. -/
theorem kept_module : Kept modBase Reg.MOD_STATE_STATE ∧ Kept modBase Reg.MOD_STATE_PREV := by decide +kernel

theorem kept_tocsin : Kept tbBase Reg.TB_STATUS_TSTATE ∧ Kept tbBase Reg.TB_CAUSE_LATCHED ∧ Kept tbBase Reg.TB_STATUS_SAFEIN ∧ Kept tbBase Reg.TB_STATUS_HWSAFE ∧
    Kept tbBase Reg.TB_STATUS_STPASS := by decide +kernel

theorem kept_cp0 : Kept (cpBase 0) Reg.CP_STATUS_HELD ∧ Kept (cpBase 0) Reg.CP_STATUS_SPLIT := by decide +kernel

theorem Keeps.mst (h : Keeps l s t) (hl : ∀ x ∈ l, Apart modBase Reg.MOD_STATE_STATE x.1 x.2 := by decide) : t.mst = s.mst := h.rd _ _ kept_module.1 hl

theorem Keeps.tstate (h : Keeps l s t) (hl : ∀ x ∈ l, Apart tbBase Reg.TB_STATUS_TSTATE x.1 x.2 := by decide) : t.tstate = s.tstate := h.rd _ _ kept_tocsin.1 hl

theorem Keeps.causes (h : Keeps l s t) (hl : ∀ x ∈ l, Apart tbBase Reg.TB_CAUSE_LATCHED x.1 x.2 := by decide) : t.causes = s.causes :=
  h.rd _ _ kept_tocsin.2.1 hl

theorem Keeps.held (h : Keeps l s t) (hl : ∀ x ∈ l, Apart (cpBase 0) Reg.CP_STATUS_HELD x.1 x.2 := by decide) :
    t.flag (cpBase 0) Reg.CP_STATUS_HELD = s.flag (cpBase 0) Reg.CP_STATUS_HELD := h.flag _ _ kept_cp0.1 hl

/-! A cause is latched. -/

theorem Keeps.latchCause {c : Cause} {pair sub : Nat} (h : Keeps l s t) (hm : (tbBase, Reg.TB_CAUSE_LATCHED) ∈ l) : Keeps l s (t.latchCause c pair sub) :=
  ((((h.when fun _ h => h.wrField).wrListed hm).when fun _ h => h.wrField).when fun _ h => h.wrField).when fun _ h => h.occur

/-- The state in which FIRST is written, before the cause latches. -/
def Machine.State.firstCause (s : State) (c : Cause) : State := s.when (s.causes == 0) fun s => s.wr tbBase Reg.TB_CAUSE_FIRST (causeCode c)

theorem causes_latchCause (c : Cause) (pair sub : Nat) (s : State) : (s.latchCause c pair sub).causes = s.causes ||| 2 ^ (causeCode c - 1) := by
  have hfirst : Keeps [] s (s.firstCause c) := (Keeps.refl _ s).when fun _ h => h.wrField
  have hrest : Keeps [] ((s.firstCause c).wr tbBase Reg.TB_CAUSE_LATCHED ((s.firstCause c).causes ||| 2 ^ (causeCode c - 1))) (s.latchCause c pair sub) :=
    (((Keeps.refl _ _).when fun _ h => h.wrField).when fun _ h => h.wrField).when fun _ h => h.occur
  have hlt : s.causes ||| 2 ^ (causeCode c - 1) < 2 ^ 6 :=
    Nat.or_lt_two_pow (s.rd_lt tbBase Reg.TB_CAUSE_LATCHED) (by cases c <;> decide)
  rw [hrest.causes, hfirst.causes]
  exact (State.rd_wr_same _ _ _ _ (by decide)).trans (Nat.mod_eq_of_lt hlt)

theorem causeLatched_latchCause (c : Cause) (pair sub : Nat) (s : State) : (s.latchCause c pair sub).causeLatched c = true := by
  have h : (s.causes ||| 2 ^ (causeCode c - 1)).testBit (causeCode c - 1) = true := by simp [Nat.testBit_or, Nat.testBit_two_pow_self]
  rw [State.causeLatched, causes_latchCause, bitSet]
  simpa [Nat.testBit_eq_decide_div_mod_eq] using h

/-! The module enters SAFE. -/

theorem Keeps.goMst {n : Nat} (h : Keeps l s t) (h1 : (modBase, Reg.MOD_STATE_PREV) ∈ l := by decide) (h2 : (modBase, Reg.MOD_STATE_STATE) ∈ l := by decide) :
    Keeps l s (t.goMst n) :=
  (h.wrListed h1).wrListed h2 |>.ifElse fun h => h.notice

/-- The module leaves the state it is in for SAFE: a commit is abandoned, a RUN or STOP that was scheduled lapses, forces and bypasses end. -/
def Machine.State.goSafe (s : State) : State :=
  (List.range 4).foldl State.syncOff
    (((s.abandonCommit E_STATE).modFab fun f => { f with runPending := false, stopPending := false }).goMst stSafe).leaveService.endBypasses

theorem Keeps.goSafe (h : Keeps l s t) (h1 : (modBase, Reg.MOD_STATE_PREV) ∈ l := by decide) (h2 : (modBase, Reg.MOD_STATE_STATE) ∈ l := by decide) :
    Keeps l s t.goSafe :=
  (h.abandonCommit.modFab.goMst h1 h2).leaveService.endBypasses.foldl fun _ _ h => h.syncOff

theorem goSafe_mst (s : State) : s.goSafe.mst = stSafe := by
  have h : Keeps [] (((s.abandonCommit E_STATE).modFab fun f => { f with runPending := false, stopPending := false }).goMst stSafe) s.goSafe :=
    (Keeps.refl _ _).leaveService.endBypasses.foldl fun _ _ h => h.syncOff
  exact h.mst.trans (State.goMst_mst _ _ (by decide))

/-! Tocsin follows. -/

theorem Keeps.setLine {on : Bool} (h : Keeps l s t) (hm : (tbBase, Reg.TB_STATUS_HWSAFE) ∈ l := by decide) : Keeps l s (t.setLine on) :=
  .ite h ((h.setFlagListed hm).foldl fun _ _ h => h.lineCell)

theorem setLine_hwsafe (s : State) (on : Bool) : (s.setLine on).flag tbBase Reg.TB_STATUS_HWSAFE = on := by
  unfold State.setLine
  split
  · next h => exact beq_iff_eq.mp h
  · have h : Keeps [] (s.setFlag tbBase Reg.TB_STATUS_HWSAFE on)
        (s.physicalCells.foldl (fun s id => s.lineCell id on) (s.setFlag tbBase Reg.TB_STATUS_HWSAFE on)) := (Keeps.refl _ _).foldl fun _ _ h => h.lineCell
    exact (h.flag _ _ kept_tocsin.2.2.2.1 (by simp)).trans (State.flag_setFlag_same _ _ _ _ (by decide) rfl)

theorem setTripped_tripped (s : State) {k : Nat} (hk : k < 128) : (s.setTripped k true).tripped k = true := by
  have h : ∀ u : State, (u.setFlag tbBase (trippedField k) true).tripped k = true := fun u =>
    u.flag_setFlag_same _ _ _ (by simp only [trippedField]; omega) rfl
  have hk' : ∀ u : State, Keeps [] u (if u.exists_ (toId k) then u.setFlag (cellBase (toId k)) Reg.TOUT_STATE_TRIPPED true else u) := fun u =>
    (Keeps.refl _ u).ifThen fun h => h.setFlag
  exact (hk' _).tripped k hk (h _)

theorem foldl_setTripped_tripped (m : List Nat) (s : State) {k : Nat} (hk : k < 128) (hm : ∀ j ∈ m, j < 256) (h : k ∈ m ∨ s.tripped k = true) :
    (m.foldl (fun s k => s.setTripped k true) s).tripped k = true := by
  induction m generalizing s with
  | nil => exact h.resolve_left List.not_mem_nil
  | cons j m ih =>
    refine ih _ (fun i hi => hm i (List.mem_cons_of_mem j hi)) ?_
    rcases h with h | h
    · rcases List.mem_cons.mp h with rfl | h
      · exact .inr (setTripped_tripped s hk)
      · exact .inl h
    · exact .inr (((Keeps.refl [] s).setTripped (hm j List.mem_cons_self)).tripped k hk h)

theorem tripAll_tripped (s : State) {k : Nat} (hk : k < 128) : s.tripAll.tripped k = true :=
  foldl_setTripped_tripped _ s hk (fun _ hj => Nat.lt_trans (List.mem_range.mp hj) (by decide)) (.inl (List.mem_range.mpr hk))

/-- Tocsin on CP0 reads the pin; while CP0 is held it does not. -/
def Machine.State.blindTo (s : State) (c : Cause) : Bool := c == .safeIn && s.flag (cpBase 0) Reg.CP_STATUS_HELD

/-- Tocsin enters SAFE where it can. -/
def Machine.State.tocsinSafe (s : State) (c : Cause) : State :=
  s.when (!s.blindTo c && (s.tstate == tsDisarmed || s.tstate == tsArmed)) fun s => s.setTstate tsSafe

/-- Every output is tripped, and a CP0 that the cause involves is held with the line asserted. -/
def Machine.State.tripFor (s : State) (c : Cause) (pair : Nat) : State :=
  let s := (s.modToc fun t => { t with hardCp0 := t.hardCp0 || (causeCode c ≤ 3 && pair == 0) }).tripAll
  let s := s.when (c == .dormantCp0) fun s => s.modToc fun t => { t with cp0Ok := false }
  if involvesCp0 c pair then (s.setFlag (cpBase 0) Reg.CP_STATUS_HELD true).setLine true else s

theorem Keeps.tocsinSafe {c : Cause} (h : Keeps l s t) (hm : (tbBase, Reg.TB_STATUS_TSTATE) ∈ l := by decide) : Keeps l s (t.tocsinSafe c) :=
  h.when fun _ h => h.wrListed hm

theorem tocsinSafe_tstate {c : Cause} (ha : s.tstate = tsArmed) (hb : s.blindTo c = false) : (s.tocsinSafe c).tstate = tsSafe := by
  rw [State.tocsinSafe, hb, ha]
  exact State.rd_wr_same s tbBase Reg.TB_STATUS_TSTATE tsSafe (by decide)

theorem Keeps.tripFor {c : Cause} {pair : Nat} (h : Keeps l s t) (h1 : (cpBase 0, Reg.CP_STATUS_HELD) ∈ l := by decide)
    (h2 : (tbBase, Reg.TB_STATUS_HWSAFE) ∈ l := by decide) : Keeps l s (t.tripFor c pair) :=
  (h.modToc.tripAll.when fun _ h => h.modToc).ifThen fun h => (h.setFlagListed h1).setLine h2

theorem tripFor_tripped (s : State) (c : Cause) (pair : Nat) {k : Nat} (hk : k < 128) : (s.tripFor c pair).tripped k = true := by
  have h : Keeps faultFields (s.modToc fun t => { t with hardCp0 := t.hardCp0 || (causeCode c ≤ 3 && pair == 0) }).tripAll (s.tripFor c pair) :=
    ((Keeps.refl _ _).when fun _ h => h.modToc).ifThen fun h => h.setFlagListed.setLine
  exact h.tripped k hk (tripAll_tripped _ hk)

theorem tripFor_held (s : State) {c : Cause} {pair : Nat} (hc : involvesCp0 c pair = true) :
    (s.tripFor c pair).flag (cpBase 0) Reg.CP_STATUS_HELD = true := by
  unfold State.tripFor
  rw [if_pos hc]
  exact (((Keeps.refl [(tbBase, Reg.TB_STATUS_HWSAFE)] _).setLine).held).trans (State.flag_setFlag_same _ _ _ _ (by decide) rfl)

/-! The whole. -/

/-- The states in which a safety-relevant fault takes the module to SAFE. -/
def faultStates : List Nat := [stEnum, stLoad, stReady, stRun, stService]

theorem safetyFault_of_operating (c : Cause) (pair sub : Nat) (h : s.mst ∈ faultStates) :
    s.safetyFault c pair sub = (((s.latchCause c pair sub).goSafe).tocsinSafe c).tripFor c pair := by
  have hm : (s.latchCause c pair sub).mst = s.mst := ((Keeps.refl [(tbBase, Reg.TB_CAUSE_LATCHED)] s).latchCause (by decide)).mst
  have h1 : s.mst ≠ stPowerup ∧ s.mst ≠ stSelftest ∧ s.mst ≠ stPfail ∧ s.mst ≠ stSafe := by
    revert h
    generalize s.mst = n
    simp only [faultStates, List.mem_cons, List.not_mem_nil, or_false]
    rintro (rfl | rfl | rfl | rfl | rfl) <;> decide
  obtain ⟨hp, hs, hf, hsafe⟩ := h1
  unfold State.safetyFault
  rw [if_neg hp, if_neg hs, if_neg hf]
  simp only [hm, bne_iff_ne.mpr hsafe, State.when_true]
  rfl

section

variable {c : Cause} {pair sub : Nat} (h : s.mst ∈ faultStates)

include h

theorem keeps_safetyFault : Keeps faultFields s (s.safetyFault c pair sub) := by
  rw [safetyFault_of_operating c pair sub h]
  exact (((Keeps.refl _ s).latchCause (by decide)).goSafe.tocsinSafe).tripFor

theorem safetyFault_mst : (s.safetyFault c pair sub).mst = stSafe := by
  have hk : Keeps [(tbBase, Reg.TB_STATUS_TSTATE), (cpBase 0, Reg.CP_STATUS_HELD), (tbBase, Reg.TB_STATUS_HWSAFE)] (s.latchCause c pair sub).goSafe
      (s.safetyFault c pair sub) := by
    rw [safetyFault_of_operating c pair sub h]
    exact (Keeps.refl _ _).tocsinSafe.tripFor
  exact hk.mst.trans (goSafe_mst _)

theorem safetyFault_causeLatched : (s.safetyFault c pair sub).causeLatched c = true := by
  have hk : Keeps faultFields.tail (s.latchCause c pair sub) (s.safetyFault c pair sub) := by
    rw [safetyFault_of_operating c pair sub h]
    exact (Keeps.refl _ _).goSafe.tocsinSafe.tripFor
  rw [State.causeLatched, hk.causes]
  exact causeLatched_latchCause c pair sub s

theorem safetyFault_tripped {k : Nat} (hk : k < 128) : (s.safetyFault c pair sub).tripped k = true := by
  rw [safetyFault_of_operating c pair sub h]
  exact tripFor_tripped _ _ _ hk

theorem safetyFault_held (hc : involvesCp0 c pair = true) : (s.safetyFault c pair sub).flag (cpBase 0) Reg.CP_STATUS_HELD = true := by
  rw [safetyFault_of_operating c pair sub h]
  exact tripFor_held _ hc

theorem safetyFault_tstate (ha : s.tstate = tsArmed) (hb : s.blindTo c = false) : (s.safetyFault c pair sub).tstate = tsSafe := by
  have hk : Keeps [(tbBase, Reg.TB_CAUSE_LATCHED), (modBase, Reg.MOD_STATE_PREV), (modBase, Reg.MOD_STATE_STATE)] s (s.latchCause c pair sub).goSafe :=
    ((Keeps.refl _ s).latchCause (by decide)).goSafe
  have ht : Keeps [(cpBase 0, Reg.CP_STATUS_HELD), (tbBase, Reg.TB_STATUS_HWSAFE)] ((s.latchCause c pair sub).goSafe.tocsinSafe c)
      (s.safetyFault c pair sub) := by
    rw [safetyFault_of_operating c pair sub h]
    exact (Keeps.refl _ _).tripFor
  have hb' : (s.latchCause c pair sub).goSafe.blindTo c = false := by rw [State.blindTo, hk.held]; exact hb
  exact ht.tstate.trans (tocsinSafe_tstate (hk.tstate.trans ha) hb')

end

/-! After the command. -/

theorem settle_causeLatched (s : State) (c : Cause) : s.settle.causeLatched c = s.causeLatched c := by
  rw [State.causeLatched, State.causes, s.settle_rd _ _ (by decide)]
  rfl

theorem settle_tstate (s : State) : s.settle.tstate = s.tstate := s.settle_rd _ _ (by decide)

theorem settle_tripped (s : State) {k : Nat} (hk : k < 128) : s.settle.tripped k = s.tripped k := by
  have h : tbBase + (trippedField k).off ∉ followers := fun hm => by
    have hf : ∀ a ∈ trippedRegs, a ∉ followers := by decide +kernel
    exact hf _ (mem_trippedRegs (by omega)) hm
  simp only [State.tripped, State.flag, State.rd, s.settle_reg _ h]

theorem settle_held (s : State) : s.settle.flag (cpBase 0) Reg.CP_STATUS_HELD = s.flag (cpBase 0) Reg.CP_STATUS_HELD := s.settle_flag _ _ (by decide)

theorem done_of_true {b : Bool} (h : b = true) (s t : State) : done (if b then s else t) = .next s.settle := by rw [h]; rfl

theorem done_of_false {b : Bool} (h : b = false) (s t : State) : done (if b then s else t) = .next t.settle := by rw [h]; rfl

/-- A fault that a pair reports, where debug has not split the pair. -/
theorem reported_fault {pair : Fin 4} {c : Cause} {i : Instr} (hi : exec i s = done (if s.pairSplit pair.val then s else s.safetyFault c pair.val 0))
    (hr : s.mst = stRun) (hp : s.pairSplit pair.val = false) : exec i s = .next (s.safetyFault c pair.val 0).settle ∧
      (s.safetyFault c pair.val 0).settle.mst = stSafe ∧ (s.safetyFault c pair.val 0).settle.causeLatched c = true := by
  have h : s.mst ∈ faultStates := by rw [hr]; decide
  refine ⟨hi.trans (done_of_false hp _ _), ?_, ?_⟩
  · rw [State.settle_mst, safetyFault_mst h]
  · rw [settle_causeLatched, safetyFault_causeLatched h]

/-- Settles O4: the parts of `safetyFault`, each of which keeps what the ones before it brought about. -/
theorem safetyFaultsTakeTheModuleToSafe : Obligations.SafetyFaultsTakeTheModuleToSafe := by
  unfold Obligations.SafetyFaultsTakeTheModuleToSafe
  refine ⟨fun s c pair sub hm hc => ?_, fun s pair hr hp => ?_, fun s pair hr hp => ?_, fun s pair hr hp => ?_, fun s pair hp => ?_, fun s hr => ?_,
    fun s => ?_, fun s hc ht => ?_⟩
  · refine ⟨(s.safetyFault c pair.val sub.toNat).settle, ?_, ?_, ?_, fun ha hb => ?_, fun k hk => ?_, ?_⟩
    · exact done_of_false hc _ _
    · rw [State.settle_mst, safetyFault_mst hm]
    · rw [settle_causeLatched, safetyFault_causeLatched hm]
    · rw [settle_tstate, safetyFault_tstate hm ha]
      cases he : c == .safeIn
      · rw [State.blindTo, he, Bool.false_and]
      · rw [State.blindTo, hb (beq_iff_eq.mp he), Bool.and_false]
    · rw [settle_tripped _ hk, safetyFault_tripped hm hk]
    · rw [State.settle_q, (keeps_safetyFault hm).mem]
  · obtain ⟨he, hs, hl⟩ := reported_fault (c := .mismatch) (i := .lockstepOutputMismatch pair) rfl hr hp
    refine ⟨_, he, hs, hl, fun h0 => ?_⟩
    rw [settle_held, safetyFault_held (by rw [hr]; decide) (by rw [h0]; rfl)]
  · exact ⟨_, reported_fault (c := .clapperFault) (i := .clapperFault pair) rfl hr hp⟩
  · exact ⟨_, reported_fault (c := .delayFault) (i := .delayFault pair) rfl hr hp⟩
  · exact ⟨done_of_true hp _ _, done_of_true hp _ _, done_of_true hp _ _⟩
  · have hm : (s.setSafeIn false).mst ∈ faultStates := by
      have h : (s.setSafeIn false).mst = s.mst := State.rd_wr_of_ne _ _ _ _ _ _ (by decide)
      rw [h, hr]
      decide
    refine ⟨((s.setSafeIn false).safetyFault .safeIn 0 0).settle, ?_, ?_, ?_, ?_, ?_⟩
    · exact done_of_true (b := !false && (s.setSafeIn false).mstIn faultStates) (List.contains_iff_mem.mpr hm) _ _
    · rw [State.settle_mst, safetyFault_mst hm]
    · rw [settle_causeLatched, safetyFault_causeLatched hm]
    · rw [State.settle_toc, (keeps_safetyFault hm).safeIn]
      rfl
    · rw [State.settle_flag _ _ _ (by decide), (keeps_safetyFault hm).flag _ _ kept_tocsin.2.2.1 (by decide)]
      exact State.flag_setFlag_same _ _ _ _ (by decide) rfl
  · refine ⟨(s.setSafeIn true).settle, rfl, ?_, ?_, ?_, fun a ha hf => ?_, ?_⟩
    · rw [State.settle_mst]
      exact State.rd_wr_of_ne _ _ _ _ _ _ (by decide)
    · rw [State.settle_toc]
      rfl
    · rw [State.settle_flag _ _ _ (by decide)]
      exact State.flag_setFlag_same _ _ _ _ (by decide) rfl
    · rw [State.settle_reg _ a hf]
      exact State.reg_wr_of_ne _ _ _ _ a fun e => ha (e ▸ List.mem_singleton_self _)
    · rw [State.settle_q]
      rfl
  · refine ⟨(s.setLine true).settle, ?_, ?_⟩
    · exact done_of_true (by rw [hc, bne_iff_ne.mpr ht]; rfl) _ _
    · exact (State.settle_flag _ _ _ (by decide)).trans (setLine_hwsafe s true)

end Sys2Proof
end

