-- ==== Sys2Proof/Proofs/Resets.lean ====
section
/-! Resets (R22, R430, R431): which registers a reset writes after the reset values are in place, and what the module holds after any reset. -/

namespace Sys2Proof

open Sys2Proof.Machine

/-! Writes of registers of a list, and of nothing else. -/

/-- `t` is `s` with other values in registers of `l`. -/
structure WritesOnly (l : List Nat) (s t : State) : Prop where
  regs : OnlyRegs s t
  reg : ∀ a ∉ l, t.reg a = s.reg a

namespace WritesOnly

variable {l : List Nat} {s t u : State} {α : Type}

theorem refl (l : List Nat) (s : State) : WritesOnly l s s := ⟨.refl s, fun _ _ => rfl⟩

theorem setReg {a : Nat} {v : Word} (h : WritesOnly l s t) (ha : a ∈ l := by decide) : WritesOnly l s (t.setReg a v) :=
  ⟨h.regs.trans ⟨_, rfl⟩, fun b hb => by rw [State.reg_setReg, if_neg fun e : b = a => hb (e ▸ ha), h.reg b hb]⟩

theorem wr {b : Nat} {f : Field} {v : Nat} (h : WritesOnly l s t) (ha : b + f.off ∈ l := by decide) : WritesOnly l s (t.wr b f v) := h.setReg ha
theorem setFlag {b : Nat} {f : Field} {v : Bool} (h : WritesOnly l s t) (ha : b + f.off ∈ l := by decide) : WritesOnly l s (t.setFlag b f v) := h.wr ha
theorem bump {b : Nat} {f : Field} (h : WritesOnly l s t) (ha : b + f.off ∈ l := by decide) : WritesOnly l s (t.bump b f) := h.wr ha

protected theorem ite {c : Prop} [Decidable c] (ht : WritesOnly l s t) (hu : WritesOnly l s u) : WritesOnly l s (if c then t else u) := by
  split
  · exact ht
  · exact hu

theorem when {c : Bool} {f : State → State} (h : WritesOnly l s t) (hf : ∀ u, WritesOnly l s u → WritesOnly l s (f u)) : WritesOnly l s (t.when c f) :=
  .ite (hf t h) h

theorem foldl {f : State → α → State} {m : List α} (h : WritesOnly l s t) (hf : ∀ u, ∀ a ∈ m, WritesOnly l s u → WritesOnly l s (f u a)) :
    WritesOnly l s (m.foldl f t) := by
  induction m generalizing t with
  | nil => exact h
  | cons a m ih => exact ih (hf t a List.mem_cons_self h) fun u b hb => hf u b (List.mem_cons_of_mem a hb)

/-- A field of a register that is not listed. -/
theorem rd (h : WritesOnly l s t) (b : Nat) (g : Field) (hb : b + g.off ∉ l := by decide) : t.rd b g = s.rd b g := by
  rw [State.rd, h.reg _ hb, State.rd]

end WritesOnly

/-! A reset. -/

/-- The registers that a mode change at a reset writes. -/
def modeRegs : List Nat := [modBase + Reg.MOD_MODE_MODE.off, netBase .a + Reg.NET_CFG_PMODE.off, netBase .b + Reg.NET_CFG_PMODE.off]

/-- The registers that a reset writes after PWR.RST. -/
def afterCauseRegs : List Nat := [nvjBase + Reg.IMG_STATUS_RESULT.off, pwrBase + Reg.PWR_PFCNT_PFAILS.off] ++ modeRegs

/-- The registers in which a reset keeps something. -/
def restoredRegs : List Nat := keptAddresses ++ keptFields.map (fun e => e.1 + e.2.off) ++ [pwrBase + Reg.PWR_STATUS_HUREADY.off, nvjBase + Reg.NVJ_STATUS_CLOSING.off]

/-- A path's mode that is illegal in the mode of the module takes its reset value (R460). -/
def Machine.State.legalPath (p : Path) (s : State) : State :=
  let m := s.rd (netBase p) Reg.NET_CFG_PMODE
  let illegal := if s.tabor then (p == .b && m != 0) || m == 1 || m == 2 else m == 3
  if illegal then (s.wr (netBase p) Reg.NET_CFG_PMODE (if s.tabor then (if p == .a then 3 else 0) else 1)).wr (netBase p) Reg.NET_CFG_AN 1 else s

theorem takeMode_eq (s : State) : s.takeMode = ((s.wr modBase Reg.MOD_MODE_MODE (s.rd modBase Reg.MOD_MODE_NEXT)).legalPath .a).legalPath .b := rfl

theorem writesOnly_legalPath {l : List Nat} {s t : State} {p : Path} (h : WritesOnly l s t) (hp : netBase p + Reg.NET_CFG_PMODE.off ∈ l) :
    WritesOnly l s (t.legalPath p) := by
  unfold State.legalPath
  exact .ite ((h.wr hp).wr hp) h

theorem writesOnly_takeMode {l : List Nat} {s t : State} (h : WritesOnly l s t) (hl : modeRegs ⊆ l) : WritesOnly l s t.takeMode := by
  rw [takeMode_eq]
  exact writesOnly_legalPath (writesOnly_legalPath (h.wr (hl (by decide))) (hl (by decide))) (hl (by decide))

/-- What every reset leaves: POWERUP with its cause, Tocsin STOPPED, nothing of the running image and the DMA memory; the keys, the saved copies, what left and
what waits stay. -/
structure Restarted (c : ResetCause) (s t : State) : Prop where
  mst : t.mst = stPowerup
  cause : t.rd pwrBase Reg.PWR_RST_CAUSE = causeNum c
  tstate : t.tstate = tsStopped
  outbox : t.outbox = s.outbox
  pending : t.pending = s.pending
  active : t.img.active = []
  keys : t.img.keys = s.img.keys
  saved0 : t.img.b0.savedMain = s.img.b0.savedMain
  saved1 : t.img.b1.savedMain = s.img.b1.savedMain
  mem : t.q.mem = []

/-! The parts of a reset. -/

/-- The staged writes of stored registers, which the journal has, take effect. -/
def Machine.State.takeStaged (s : State) : State :=
  s.fab.staged.foldl (fun s e => match storedAt e.1 with
    | some .netXcfg => (s.setReg (netBase .a + 0x2C) e.2).setReg (netBase .b + 0x2C) e.2
    | some _ => s.setReg e.1 e.2
    | none => s) s

/-- A bank's saved copy alone. -/
def savedOnly (b : Bank) : Bank := { Bank.empty with savedBase := b.savedBase, savedMain := b.savedMain, savedOk := b.savedOk, savedSlots := b.savedSlots }

/-- The reset values, but for what the journal keeps, what stands at the pins, what has left and what waits. -/
def Machine.State.blank (s : State) : State :=
  { State.reset with
    pending := s.pending, outbox := s.outbox, free := s.free,
    img := { State.reset.img with b0 := savedOnly s.img.b0, b1 := savedOnly s.img.b1, keys := s.img.keys },
    jrn := s.jrn,
    recd := { State.reset.recd with sums := s.recd.saved, saved := s.recd.saved, area := s.recd.area, unsealed := s.recd.unsealed, log := s.recd.log },
    toc := { State.reset.toc with safeIn := s.toc.safeIn },
    net := { State.reset.net with a := { PathSt.init with cage := s.net.a.cage }, b := { PathSt.init with cage := s.net.b.cage } },
    axs := Store.mapVals AxSt.init (fun _ a => a.renewed) s.axs,
    can0 := { CanSt.init with supplyOk := s.can0.supplyOk },
    can1 := { CanSt.init with supplyOk := s.can1.supplyOk },
    pwr := { State.reset.pwr with refBad := s.pwr.refBad } }

/-- The kept registers of `s` are written into a state with the reset values. -/
def Machine.State.restore (s : State) (c : ResetCause) (r : State) : State :=
  let r := keptAddresses.foldl (fun r a => r.setReg a (s.reg a)) r
  let r := keptFields.foldl (fun r e => r.wr e.1 e.2 (s.rd e.1 e.2)) r
  (r.when (c == .por) fun r => r.setFlag pwrBase Reg.PWR_STATUS_HUREADY false).setFlag nvjBase Reg.NVJ_STATUS_CLOSING false

/-- SAFEIN and the cause are shown. -/
def Machine.State.showCause (s : State) (c : ResetCause) (r : State) : State :=
  (r.setFlag tbBase Reg.TB_STATUS_SAFEIN (s.flag tbBase Reg.TB_STATUS_SAFEIN)).wr pwrBase Reg.PWR_RST_CAUSE (causeNum c)

/-- An abandoned commit and the power failures are counted, and the mode is taken. -/
def Machine.State.endReset (s : State) (c : ResetCause) (r : State) : State :=
  let r := r.when (4 ≤ s.rd nvjBase Reg.IMG_STATUS_PHASE) fun r => r.wr nvjBase Reg.IMG_STATUS_RESULT E_STATE.toNat
  let r := r.when (s.mst == stPfail) fun r => r.bump pwrBase Reg.PWR_PFCNT_PFAILS
  (r.when (c == .pfret) fun r => r.bump pwrBase Reg.PWR_PFCNT_RETURNS).takeMode

/-- The reset of a module whose journal is up to date. -/
def Machine.State.resetOf (s : State) (c : ResetCause) : State := s.endReset c (s.showCause c (s.restore c s.blank))

theorem resetBy_eq (s : State) (c : ResetCause) :
    s.resetBy c = ((if c = .cmd ∧ s.recWrites then s.saveSummaries else s).takeStaged).resetOf c := rfl

theorem onlyRegs_takeStaged (s : State) : OnlyRegs s s.takeStaged := by
  have h : ∀ (l : List (Nat × Word)) (s : State), OnlyRegs s (l.foldl (fun s e => match storedAt e.1 with
      | some .netXcfg => (s.setReg (netBase .a + 0x2C) e.2).setReg (netBase .b + 0x2C) e.2
      | some _ => s.setReg e.1 e.2
      | none => s) s) := by
    intro l
    induction l with
    | nil => exact fun s => .refl s
    | cons e l ih =>
      refine fun s => OnlyRegs.trans ?_ (ih _)
      dsimp only
      split
      · exact ⟨_, rfl⟩
      · exact ⟨_, rfl⟩
      · exact .refl s
  exact h s.fab.staged s

theorem writesOnly_restore (s : State) (c : ResetCause) (r : State) : WritesOnly restoredRegs r (s.restore c r) := by
  have ha : keptAddresses ⊆ restoredRegs := fun _ h => List.mem_append_left _ (List.mem_append_left _ h)
  have hf : ∀ e ∈ keptFields, e.1 + e.2.off ∈ restoredRegs := fun e h => List.mem_append_left _ (List.mem_append_right _ (List.mem_map_of_mem h))
  unfold State.restore
  exact ((((WritesOnly.refl _ r).foldl fun _ a h hw => hw.setReg (ha h)).foldl fun _ e h hw => hw.wr (hf e h)).when
    fun _ hw => hw.setFlag).setFlag

theorem writesOnly_endReset (s : State) (c : ResetCause) (r : State) : WritesOnly afterCauseRegs r (s.endReset c r) := by
  unfold State.endReset
  exact writesOnly_takeMode ((((WritesOnly.refl _ r).when fun _ h => h.wr).when fun _ h => h.bump).when fun _ h => h.bump) (List.subset_append_right _ _)

theorem onlyRegs_resetOf (s : State) (c : ResetCause) : OnlyRegs s.blank (s.resetOf c) :=
  (writesOnly_restore s c s.blank).regs.trans (OnlyRegs.trans ⟨_, rfl⟩ (writesOnly_endReset s c _).regs)

/-- A register that no part of a reset writes has its reset value. -/
theorem resetOf_mst (s : State) (c : ResetCause) : (s.resetOf c).mst = stPowerup := by
  have hr : State.reset.rd modBase Reg.MOD_STATE_STATE = stPowerup := by decide +kernel
  have h : (s.showCause c (s.restore c s.blank)).mst = (s.restore c s.blank).mst :=
    (State.rd_wr_of_ne _ _ _ _ _ _ (by decide)).trans (State.rd_wr_of_ne _ _ _ _ _ _ (by decide))
  exact ((writesOnly_endReset s c _).rd _ _ (by decide +kernel)).trans (h.trans (((writesOnly_restore s c s.blank).rd modBase Reg.MOD_STATE_STATE (by decide +kernel)).trans hr))

theorem resetOf_tstate (s : State) (c : ResetCause) : (s.resetOf c).tstate = tsStopped := by
  have hr : State.reset.rd tbBase Reg.TB_STATUS_TSTATE = tsStopped := by decide +kernel
  have h : (s.showCause c (s.restore c s.blank)).tstate = (s.restore c s.blank).tstate :=
    (State.rd_wr_of_ne _ _ _ _ _ _ (by decide)).trans (State.rd_setFlag_apart _ _ _ _ _ _ (by decide) (by decide))
  exact ((writesOnly_endReset s c _).rd _ _ (by decide +kernel)).trans (h.trans (((writesOnly_restore s c s.blank).rd tbBase Reg.TB_STATUS_TSTATE (by decide +kernel)).trans hr))

theorem resetOf_cause (s : State) (c : ResetCause) : (s.resetOf c).rd pwrBase Reg.PWR_RST_CAUSE = causeNum c := by
  have h : (s.showCause c (s.restore c s.blank)).rd pwrBase Reg.PWR_RST_CAUSE = causeNum c % 2 ^ 3 := State.rd_wr_same _ _ _ _ (by decide)
  have hc : causeNum c % 2 ^ 3 = causeNum c := by cases c <;> rfl
  exact ((writesOnly_endReset s c _).rd _ _ (by decide +kernel)).trans (h.trans hc)

theorem resetBy_restarted (s : State) (c : ResetCause) : Restarted c s (s.resetBy c) := by
  rw [resetBy_eq]
  generalize hk : (if c = .cmd ∧ s.recWrites = true then s.saveSummaries else s).takeStaged = k
  have hs : k.outbox = s.outbox ∧ k.pending = s.pending ∧ k.img = s.img := by
    obtain ⟨q, e⟩ := onlyRegs_takeStaged (if c = .cmd ∧ s.recWrites = true then s.saveSummaries else s)
    rw [← hk, e]
    split <;> exact ⟨rfl, rfl, rfl⟩
  obtain ⟨ho, hp, hi⟩ := hs
  obtain ⟨q, e⟩ := onlyRegs_resetOf k c
  refine ⟨resetOf_mst k c, resetOf_cause k c, resetOf_tstate k c, ?_, ?_, ?_, ?_, ?_, ?_, ?_⟩ <;> rw [e]
  · exact ho
  · exact hp
  · rfl
  · exact show k.img.keys = s.img.keys from congrArg ImageSt.keys hi
  · exact show k.img.b0.savedMain = s.img.b0.savedMain from congrArg (fun i => i.b0.savedMain) hi
  · exact show k.img.b1.savedMain = s.img.b1.savedMain from congrArg (fun i => i.b1.savedMain) hi
  · rfl

end Sys2Proof
end

