-- ==== Sys2Proof/Proofs/ResetState.lean ====
section
/-! The state after the first power-on reset (R22): the reset values of the registers, field by field, and the forms of the stores. -/

namespace Sys2Proof

open Sys2Proof.Machine

theorem reset_tripped : ∀ k < 128, State.reset.tripped k = true := by decide +kernel

theorem reset_keyActive : ∀ k < 4, State.reset.keyActive k = false := by decide +kernel

/-- The reset values of PWR, MEM, NVJ and REC. -/
theorem reset_store_values : State.reset.rd pwrBase Reg.PWR_RST_CAUSE = 1 ∧ State.reset.rd memBase Reg.MEM_SCRUB_PERIOD = 12 ∧
    State.reset.rd nvjBase Reg.NVJ_SPARES_SPARES = 512 ∧ State.reset.recblks = 15088 ∧ State.reset.rd recBase Reg.REC_CFG_PERIOD = 60 := by decide +kernel

/-- The reset values of the paths, the stack's time base and the panel. -/
theorem reset_link_values : State.reset.nrd .a Reg.NET_CFG_PMODE = 1 ∧ State.reset.nrd .b Reg.NET_CFG_PMODE = 1 ∧ State.reset.trd Reg.STK_CFG_TS_UNITS = 8 ∧
    State.reset.flag tmBase Reg.STK_CFG_SYNC = true ∧ State.reset.trd Reg.TM_CFG_SLEWMAX = 100 ∧ State.reset.prd Reg.PNL_RECT1_X1 = 399 ∧
    State.reset.prd Reg.PNL_RECT1_Y1 = 239 := by decide +kernel

theorem reset_canonical : Canonical State.reset := WfStores.reset

theorem reset_mirrored : Mirrored State.reset := by decide +kernel

theorem reset_segmentsShown : SegmentsShown State.reset := by decide +kernel

/-- The module's own state: POWERUP in Carillon mode with Tocsin STOPPED, MFLT open and the links off. -/
theorem reset_module : State.reset.mst = stPowerup ∧ State.reset.tabor = false ∧ State.reset.tstate = tsStopped ∧
    State.reset.flag tbBase Reg.TB_STATUS_MFLTOPEN = true ∧ State.reset.link .up = 0 ∧ State.reset.link .down = 0 := by decide +kernel

/-- Settles O57: a closed state, whose registers are read off. -/
theorem resetLeavesTheModuleInPowerup : Obligations.ResetLeavesTheModuleInPowerup := by
  unfold Obligations.ResetLeavesTheModuleInPowerup
  obtain ⟨hmst, htab, htst, hmflt, hup, hdown⟩ := reset_module
  obtain ⟨hcause, hscrub, hspares, hblks, hperiod⟩ := reset_store_values
  obtain ⟨ha, hb, hunits, hsync, hslew, hx, hy⟩ := reset_link_values
  exact ⟨hmst, htab, htst, reset_tripped, hmflt, hup, hdown, rfl, reset_keyActive, rfl, rfl, rfl, hcause, hscrub, hspares, hblks, hperiod, ha, hb, hunits,
    hsync, hslew, hx, hy, reset_canonical, reset_mirrored, reset_segmentsShown⟩

end Sys2Proof
end

