-- ==== Sys2Proof/Proofs/ModuleCommands.lean ====
section
/-! The module's commands (R22 to R25, R184, R475, R476): what each of them decides, and what its decision leaves. -/

namespace Sys2Proof

open Sys2Proof.Machine

variable {s t : State} {p : Port}

/-! A command that is answered. -/

theorem command_decides {f : State → Code × State} {c : Code} (h : Served s p) (hd : f s = (c, t)) : command p f s = .next (t.answer p c).settle := by
  rw [command_served p f s h, hd]

section

variable (t : State) (p : Port) (c : Code)

theorem answered_mst : (t.answer p c).settle.mst = t.mst := State.settle_mst _

theorem answered_tstate : (t.answer p c).settle.tstate = t.tstate := settle_tstate _

theorem answered_rd {b : Nat} {g : Field} (h : NoFollower b g) : (t.answer p c).settle.rd b g = t.rd b g := State.settle_rd _ _ _ h

theorem answered_reg {a : Nat} (h : a ∉ followers) : (t.answer p c).settle.reg a = t.reg a := State.settle_reg _ _ h

theorem answered_outbox : (t.answer p c).settle.outbox = t.outbox ++ [.result p c] := State.settle_outbox _

theorem answered_fab : (t.answer p c).settle.fab = t.fab := State.settle_fab _

theorem answered_toc : (t.answer p c).settle.toc = t.toc := State.settle_toc _

end

/-! A change of the module's state. -/

theorem goMst_regs (s : State) (n : Nat) : (s.goMst n).regs = ((s.wr modBase Reg.MOD_STATE_PREV s.mst).wr modBase Reg.MOD_STATE_STATE n).regs := by
  unfold State.goMst
  dsimp only
  split
  · rfl
  · unfold State.notice
    split <;> rfl

theorem goMst_prev (s : State) (n : Nat) : (s.goMst n).rd modBase Reg.MOD_STATE_PREV = s.mst := by
  have hlt : s.mst < 2 ^ Reg.MOD_STATE_PREV.width := s.rd_lt modBase Reg.MOD_STATE_STATE
  have h := State.rd_wr_apart (s.wr modBase Reg.MOD_STATE_PREV s.mst) modBase modBase Reg.MOD_STATE_PREV Reg.MOD_STATE_STATE n (by decide) (by decide)
  have hs : (s.goMst n).rd modBase Reg.MOD_STATE_PREV =
      ((s.wr modBase Reg.MOD_STATE_PREV s.mst).wr modBase Reg.MOD_STATE_STATE n).rd modBase Reg.MOD_STATE_PREV := by
    rw [State.rd, State.reg, goMst_regs]; rfl
  rw [hs, h, State.rd_wr_same _ _ _ _ (by decide), Nat.mod_eq_of_lt hlt]

theorem goMst_reg (s : State) (n : Nat) {a : Nat} (h : a ≠ modBase + Reg.MOD_STATE_STATE.off) : (s.goMst n).reg a = s.reg a := by
  have hs : (s.goMst n).reg a = ((s.wr modBase Reg.MOD_STATE_PREV s.mst).wr modBase Reg.MOD_STATE_STATE n).reg a := by
    rw [State.reg, goMst_regs]; rfl
  rw [hs, State.reg_wr_of_ne _ modBase _ _ _ h, State.reg_wr_of_ne _ modBase Reg.MOD_STATE_PREV _ _ h]

theorem Keeps.prev {l : List (Nat × Field)} (h : Keeps l s t) (hl : ∀ x ∈ l, Apart modBase Reg.MOD_STATE_PREV x.1 x.2 := by decide) :
    t.rd modBase Reg.MOD_STATE_PREV = s.rd modBase Reg.MOD_STATE_PREV := h.rd _ _ kept_module.2 hl

/-! RUN and AUTOSTART. -/

theorem runAllowed_of_armed (hm : s.mst = stReady) (ht : s.tstate = tsArmed) (hp : s.flag tbBase Reg.TB_STATUS_STPASS = true)
    (hd : s.flag tbBase Reg.TB_STATUS_DBGFLAG = false) : s.runAllowed = true := by
  simp [State.runAllowed, hm, ht, hp, hd]

theorem runAllowed_of_unarmed (ht : s.tstate ≠ tsArmed) : s.runAllowed = false := by simp [State.runAllowed, ht]

theorem decideRun_of_allowed (h : s.runAllowed = true) : decideRun s = (E_OK, s.modFab fun f => { f with runPending := true }) := if_pos h

theorem decideRun_of_refused (h : s.runAllowed = false) : decideRun s = (E_STATE, s) := if_neg (by simp [h])

/-! SERVICE. -/

/-- The module is in SERVICE, before the queue pairs start. -/
def Machine.State.serving (s : State) : State :=
  ((s.modToc fun t => { t with serviceFromSafe := s.mst == stSafe }).modFab fun f => { f with runPending := false }).goMst stService

theorem decideService_ready (hm : s.mst = stReady) : decideService .service s = (E_OK, s.serving.startPairs) :=
  (if_neg (by decide)).trans (if_pos (.inl hm))

theorem serving_reg {a : Nat} (h : a ≠ modBase + Reg.MOD_STATE_STATE.off) : s.serving.reg a = s.reg a := goMst_reg _ _ h

theorem foldl_fixed_of_mem {α β : Type} {f : α → β → α} {a : α} {m : List β} (h : ∀ b ∈ m, f a b = a) : m.foldl f a = a := by
  induction m with
  | nil => rfl
  | cons b m ih => rw [List.foldl_cons, h b List.mem_cons_self, ih fun c hc => h c (List.mem_cons_of_mem b hc)]

/-- With no queue pair in START none starts. -/
theorem startPairs_of_none (h : ∀ n < 32, s.cst (qpId n) ≠ csStart) : s.startPairs = s := by
  refine foldl_fixed_of_mem fun n hn => if_neg ?_
  simp [h n (List.mem_range.mp hn)]

theorem serving_cst (id : Nat) : s.serving.cst id = s.cst id := by
  have hp : pageOf (cellBase id + Reg.CELL_STATE_STATE.off) < 0x100 := pageOf_cellBase id (by decide)
  have hne : cellBase id + Reg.CELL_STATE_STATE.off ≠ modBase + Reg.MOD_STATE_STATE.off := fun e => by rw [e] at hp; exact absurd hp (by decide)
  rw [State.cst, State.rd, serving_reg hne]
  rfl

/-! SERVICE_EXIT. -/

/-- The fields DEBUG of the core pairs. -/
def debugFields : List (Nat × Field) := (List.range 4).map fun n => (cpBase n, Reg.CP_STATUS_DEBUG)

/-- The debuggers are detached. -/
def Machine.State.undebugged (s : State) : State := (List.range 4).foldl (fun s n => s.setFlag (cpBase n) Reg.CP_STATUS_DEBUG false) s

/-- The debuggers are detached, forces and simulations are gone. -/
def Machine.State.detached (s : State) : State := s.undebugged.leaveService.modToc fun t => { t with serviceFromSafe := false }

theorem keeps_undebugged (s : State) : Keeps debugFields s s.undebugged := by
  refine (Keeps.refl _ s).foldlMem fun u n hn h => ?_
  have hm : (cpBase n, Reg.CP_STATUS_DEBUG) ∈ debugFields := List.mem_map_of_mem hn
  have ht : ∀ x ∈ debugFields, x.1 + x.2.off ∉ trippedRegs := by decide +kernel
  exact h.setFlagListed hm (by decide) (ht _ hm)

theorem keeps_detaching (s : State) : Keeps debugFields s s.undebugged.leaveService := (keeps_undebugged s).leaveService

theorem detached_mst (s : State) : s.detached.mst = s.mst := (keeps_detaching s).mst (by decide +kernel)

theorem detached_causes (s : State) : s.detached.causes = s.causes := (keeps_detaching s).causes (by decide +kernel)

theorem detached_split (s : State) : s.detached.flag (cpBase 0) Reg.CP_STATUS_SPLIT = s.flag (cpBase 0) Reg.CP_STATUS_SPLIT :=
  (keeps_detaching s).flag _ _ kept_cp0.2 (by decide +kernel)

theorem detached_outbox (s : State) : s.detached.outbox = s.outbox := (keeps_detaching s).outbox

theorem detached_forces (s : State) : s.detached.fab.forces = [] := rfl

/-- The module in READY, with the trip outputs in START where Tocsin leaves SAFE. -/
def Machine.State.exited (s : State) : State :=
  (s.detached.goMst stReady).when (s.detached.tstate == tsSafe) fun s =>
    (s.cells.filter fun id => kindOf id == some .tout && s.cst id != csFault).foldl (fun s id => s.startCell id .release s.img.active)
      (s.setTstate tsDisarmed)

theorem decideServiceExit_elsewhere (hm : s.mst ≠ stService) : decideServiceExit s = (E_STATE, s) := if_pos hm

theorem decideServiceExit_whole (hm : s.mst = stService) (hs : s.flag (cpBase 0) Reg.CP_STATUS_SPLIT = false) :
    decideServiceExit s = if s.detached.causes != 0 then (E_OK, (s.detached.goMst stSafe).endBypasses.drive) else (E_OK, s.exited.drive) :=
  (if_neg (not_not.mpr hm)).trans (if_neg fun e => Bool.false_ne_true (((detached_split s).trans hs).symm.trans e))

theorem decideServiceExit_clear (hm : s.mst = stService) (hs : s.flag (cpBase 0) Reg.CP_STATUS_SPLIT = false) (hc : s.causes = 0) :
    decideServiceExit s = (E_OK, s.exited.drive) :=
  (decideServiceExit_whole hm hs).trans (if_neg (by rw [detached_causes, hc]; decide))

theorem decideServiceExit_latched (hm : s.mst = stService) (hs : s.flag (cpBase 0) Reg.CP_STATUS_SPLIT = false) (hc : s.causes ≠ 0) :
    decideServiceExit s = (E_OK, (s.detached.goMst stSafe).endBypasses.drive) :=
  (decideServiceExit_whole hm hs).trans (if_pos (by rw [detached_causes]; exact bne_iff_ne.mpr hc))

/-- Behind the change to READY an exit changes Tocsin's state and the trip outputs alone. -/
theorem keeps_exited (s : State) : Keeps [(tbBase, Reg.TB_STATUS_TSTATE)] (s.detached.goMst stReady) s.exited.drive :=
  ((Keeps.refl _ _).when fun _ h => Keeps.foldl (h.wrListed) fun _ _ h => h.startCell).drive

theorem keeps_latchedExit (s : State) : Keeps [] (s.detached.goMst stSafe) (s.detached.goMst stSafe).endBypasses.drive := (Keeps.refl _ _).endBypasses.drive

/-! RELEASE. -/

/-- The module in READY with Tocsin DISARMED and the line open. -/
def Machine.State.unlocked (s : State) : State :=
  ((s.goMst stReady).when (s.tstate == tsSafe) fun s => s.setTstate tsDisarmed).setLine false

/-- Commands are gone, and the cells not in FAULT are in START. -/
def Machine.State.restarted (s : State) : State :=
  let s := s.cells.foldl (fun s id => s.modCell id fun c => { c with cmd := 0 }) s
  s.cells.foldl (fun s id => if s.cst id == csFault then s else s.startCell id .release s.img.active) s

/-- What RELEASE asks for. -/
def Machine.State.releasable (s : State) : Bool :=
  s.mst = stSafe && s.causes == 0 && s.toc.safeIn && s.flag tbBase Reg.TB_STATUS_STPASS && !s.flag tbBase Reg.TB_STATUS_RETESTING

theorem decideRelease_of_releasable (h : s.releasable = true) : decideRelease s = (E_OK, s.unlocked.restarted.drive) := if_pos h

theorem decideRelease_of_cause (hc : s.causes ≠ 0) : decideRelease s = (E_STATE, s) := if_neg (by simp [hc])

theorem keeps_restarted (s : State) : Keeps [] s s.restarted.drive :=
  (Keeps.foldl ((Keeps.refl [] s).foldl fun _ _ h => h.modCell) fun _ _ h => .ite h h.startCell).drive

theorem keeps_unlocked (s : State) : Keeps [(tbBase, Reg.TB_STATUS_TSTATE), (tbBase, Reg.TB_STATUS_HWSAFE)] (s.goMst stReady) s.unlocked :=
  ((Keeps.refl _ _).when fun _ h => h.wrListed).setLine

theorem unlocked_tstate (h : s.tstate = tsSafe) : s.unlocked.tstate = tsDisarmed := by
  have hl : Keeps [(tbBase, Reg.TB_STATUS_HWSAFE)] ((s.goMst stReady).setTstate tsDisarmed) s.unlocked := by
    rw [State.unlocked, h]
    exact (Keeps.refl _ _).setLine
  exact hl.tstate.trans (State.rd_wr_same _ _ _ _ (by decide))

/-! The obligation. -/

theorem modCmdRun_armed (h : Served s p) (hm : s.mst = stReady) (ht : s.tstate = tsArmed) (hp : s.flag tbBase Reg.TB_STATUS_STPASS = true)
    (hd : s.flag tbBase Reg.TB_STATUS_DBGFLAG = false) :
    exec (.modCmdRun p) s = .next ((s.modFab fun f => { f with runPending := true }).answer p E_OK).settle :=
  command_decides h (decideRun_of_allowed (runAllowed_of_armed hm ht hp hd))

theorem autostart_armed (hm : s.mst = stReady) (ht : s.tstate = tsArmed) (hp : s.flag tbBase Reg.TB_STATUS_STPASS = true)
    (hd : s.flag tbBase Reg.TB_STATUS_DBGFLAG = false) (ha : recByte (moduleOf s.img.active) 2 = 1) :
    exec .autostart s = .next (s.modFab fun f => { f with runPending := true }).settle := by
  have hr : s.runAllowed = true := runAllowed_of_armed hm ht hp hd
  have hb : (s.runAllowed && recByte (moduleOf s.img.active) 2 == 1) = true := by rw [hr, ha]; rfl
  refine (done_of_true hb _ _).trans ?_
  rw [decideRun_of_allowed hr]

theorem modCmdService_ready (h : Served s .service) (hm : s.mst = stReady) :
    Answers (.modCmdService .service) s fun t =>
      t.mst = stService ∧ t.rd modBase Reg.MOD_STATE_PREV = stReady ∧ t.toc.serviceFromSafe = false ∧ t.outbox = s.outbox ++ [.result .service E_OK] ∧
      ((∀ n < 32, s.cst (qpId n) ≠ csStart) → RegsKept [modBase + Reg.MOD_STATE_STATE.off] s t) := by
  have hk : Keeps [] s.serving s.serving.startPairs := (Keeps.refl _ _).startPairs
  have hprev : s.serving.rd modBase Reg.MOD_STATE_PREV = stReady := (goMst_prev _ _).trans hm
  have hfrom : s.serving.toc.serviceFromSafe = false := by
    rw [State.serving, State.goMst_toc, hm]; rfl
  have hout : s.serving.outbox = s.outbox := State.goMst_outbox _ _
  refine ⟨_, command_decides h (decideService_ready hm), ?_, ?_, ?_, ?_, fun hn a ha hf => ?_⟩
  · rw [answered_mst, hk.mst]
    exact State.goMst_mst _ _ (by decide)
  · rw [answered_rd _ _ _ (by decide), hk.prev, hprev]
  · rw [answered_toc, hk.serviceFromSafe, hfrom]
  · rw [answered_outbox, hk.outbox, hout]
  · have hn' : ∀ n < 32, s.serving.cst (qpId n) ≠ csStart := fun n h => by rw [serving_cst]; exact hn n h
    rw [answered_reg _ _ _ hf, startPairs_of_none hn', serving_reg fun e => ha (by rw [e]; exact List.mem_cons_self)]

theorem modCmdRestart_served (h : Served s p) :
    Answers (.modCmdRestart p) s fun t =>
      t.mst = stPowerup ∧ t.rd pwrBase Reg.PWR_RST_CAUSE = 3 ∧ t.outbox = s.outbox ++ [.result p E_OK] ∧ t.img.keys = s.img.keys := by
  have he : exec (.modCmdRestart p) s = .next ((s.answer p E_OK).resetBy .cmd).settle := by
    have hg : s.gate p = .full := gate_served s p h
    show execModCmdRestart p s = _
    simp only [execModCmdRestart, State.restartReaches, hg, if_true, done_eq]
  have hr : Restarted .cmd (s.answer p E_OK) ((s.answer p E_OK).resetBy .cmd) := resetBy_restarted _ _
  refine ⟨_, he, ?_, ?_, ?_, ?_⟩
  · rw [State.settle_mst, hr.mst]
  · exact (State.settle_rd _ _ _ (by decide)).trans hr.cause
  · exact (State.settle_outbox _).trans hr.outbox
  · exact (congrArg ImageSt.keys (State.settle_img _)).trans hr.keys

theorem modCmdServiceExit_clear (h : Served s p) (hm : s.mst = stService) (hc : s.causes = 0) (hs : s.flag (cpBase 0) Reg.CP_STATUS_SPLIT = false) :
    Answers (.modCmdServiceExit p) s fun t =>
      t.mst = stReady ∧ t.rd modBase Reg.MOD_STATE_PREV = stService ∧ t.fab.forces = [] ∧ t.outbox = s.outbox ++ [.result p E_OK] := by
  have hk := keeps_exited s
  have hfo : (s.detached.goMst stReady).fab.forces = [] := congrArg FabricSt.forces (State.goMst_fab _ _)
  refine ⟨_, command_decides h (decideServiceExit_clear hm hs hc), ?_, ?_, ?_, ?_⟩
  · rw [answered_mst, hk.mst, State.goMst_mst _ _ (by decide)]
  · rw [answered_rd _ _ _ (by decide), hk.prev, goMst_prev, detached_mst, hm]
  · rw [answered_fab]
    exact List.subset_nil.mp (hfo ▸ hk.forces)
  · rw [answered_outbox, hk.outbox, State.goMst_outbox, detached_outbox]

theorem modCmdServiceExit_latched (h : Served s p) (hm : s.mst = stService) (hc : s.causes ≠ 0) (hs : s.flag (cpBase 0) Reg.CP_STATUS_SPLIT = false) :
    Answers (.modCmdServiceExit p) s fun t => t.mst = stSafe ∧ t.outbox = s.outbox ++ [.result p E_OK] := by
  have hk := keeps_latchedExit s
  refine ⟨_, command_decides h (decideServiceExit_latched hm hs hc), ?_, ?_⟩
  · rw [answered_mst, hk.mst, State.goMst_mst _ _ (by decide)]
  · rw [answered_outbox, hk.outbox, State.goMst_outbox, detached_outbox]

theorem modCmdRelease_releasable (h : Served s p) (hr : s.releasable = true) (ht : s.tstate = tsSafe) :
    Answers (.modCmdRelease p) s fun t =>
      t.mst = stReady ∧ t.tstate = tsDisarmed ∧ t.flag tbBase Reg.TB_STATUS_HWSAFE = false ∧ t.outbox = s.outbox ++ [.result p E_OK] := by
  have hu := keeps_unlocked s
  have hk := keeps_restarted s.unlocked
  refine ⟨_, command_decides h (decideRelease_of_releasable hr), ?_, ?_, ?_, ?_⟩
  · rw [answered_mst, hk.mst, hu.mst, State.goMst_mst _ _ (by decide)]
  · rw [answered_tstate, hk.tstate, unlocked_tstate ht]
  · rw [State.flag, answered_rd _ _ _ (by decide), ← State.flag, hk.flag _ _ kept_tocsin.2.2.2.1 (by simp), State.unlocked, setLine_hwsafe]
  · rw [answered_outbox, hk.outbox, hu.outbox, State.goMst_outbox]

/-- Settles O3, by the decision of each command. -/
theorem moduleCommandsMoveTheModuleState : Obligations.ModuleCommandsMoveTheModuleState := by
  unfold Obligations.ModuleCommandsMoveTheModuleState
  exact ⟨fun _ _ h => command_decides h rfl, fun _ _ => modCmdRun_armed, fun _ _ h ht => command_decides h (decideRun_of_refused (runAllowed_of_unarmed ht)),
    fun _ => autostart_armed, fun _ _ h hm => command_decides h (if_pos hm), fun _ _ h hm => command_decides h (if_neg hm),
    fun _ => modCmdService_ready, fun _ _ h hp => command_decides h (if_pos hp), fun _ _ => modCmdRestart_served,
    fun _ _ h hm hc hs _ => modCmdServiceExit_clear h hm hc hs, fun _ _ => modCmdServiceExit_latched,
    fun _ _ h hm => command_decides h (decideServiceExit_elsewhere hm),
    fun _ _ h hm hc hi hp hr => modCmdRelease_releasable h (by simp [State.releasable, hm, hc, hi, hp, hr]),
    fun _ _ h hc => command_decides h (decideRelease_of_cause hc)⟩

end Sys2Proof
end

