-- ==== Sys2Proof/Proofs/StartUp.lean ====
section
/-! Start-up (R22, R430 to R432): a reset, the rails, and the end of the self-test. -/

namespace Sys2Proof

open Sys2Proof.Machine

variable {s t : State}

/-! A reset source. -/

theorem exec_resetSource {causes : List ResetCause} {c : ResetCause} (hm : s.mst ≠ stPfail) (hc : lowestSource causes = some c) :
    exec (.resetSource causes) s = .next (s.resetBy c).settle := by
  show execResetSource causes s = _
  simp only [execResetSource, hc, done_eq, ne_eq, hm, not_false_eq_true, if_true]

theorem resetSource_restarts {causes : List ResetCause} {c : ResetCause} (hm : s.mst ≠ stPfail) (hc : lowestSource causes = some c) :
    Answers (.resetSource causes) s fun t =>
      t.mst = stPowerup ∧ t.rd pwrBase Reg.PWR_RST_CAUSE = causeNum c ∧ t.tstate = tsStopped ∧ t.img.active = [] ∧ t.img.keys = s.img.keys ∧
      t.img.b0.savedMain = s.img.b0.savedMain ∧ t.img.b1.savedMain = s.img.b1.savedMain ∧ t.q.mem = [] ∧ t.pending = s.pending := by
  have h := resetBy_restarted s c
  refine ⟨_, exec_resetSource hm hc, (State.settle_mst _).trans h.mst, (State.settle_rd _ _ _ (by decide)).trans h.cause, (settle_tstate _).trans h.tstate,
    ?_, ?_, ?_, ?_, ?_, (State.settle_pending _).trans h.pending⟩
  · rw [State.settle_img, h.active]
  · rw [State.settle_img, h.keys]
  · rw [State.settle_img, h.saved0]
  · rw [State.settle_img, h.saved1]
  · rw [State.settle_q, h.mem]

/-! The rails. -/

/-- SELFTEST with the PLLs locked. -/
def Machine.State.locked (s : State) : State := (s.goMst stSelftest).setFlag pwrBase Reg.PWR_STATUS_PLLLOCK true

/-- The supply and the reference clocks show. -/
def Machine.State.railsShown (s : State) : State :=
  let ref (i : Nat) (f : Field) (u : State) : State := u.setFlag pwrBase f (u.pwr.refBad.toNat / 2 ^ i % 2 == 0)
  ref 2 Reg.PWR_STATUS_REFCH (ref 1 Reg.PWR_STATUS_REFNB (ref 0 Reg.PWR_STATUS_REFNA (s.setFlag pwrBase Reg.PWR_STATUS_SUPOK true)))

/-- Every core pair runs in lockstep. -/
def Machine.State.inLockstep (s : State) : State := (List.range 4).foldl (fun s n => s.setFlag (cpBase n) Reg.CP_STATUS_LOCKSTEP true) s

/-- Fields that the start of the self-test writes. -/
def railFields : List (Nat × Field) :=
  [(pwrBase, Reg.PWR_STATUS_SUPOK), (pwrBase, Reg.PWR_STATUS_REFNA), (pwrBase, Reg.PWR_STATUS_REFNB), (pwrBase, Reg.PWR_STATUS_REFCH)]

def lockstepFields : List (Nat × Field) := (List.range 4).map fun n => (cpBase n, Reg.CP_STATUS_LOCKSTEP)

def linkFields : List (Nat × Field) := [(chBase, Reg.CH_STATUS_UPLINK), (chBase, Reg.CH_STATUS_DNLINK)]

theorem kept_rails : Kept pwrBase Reg.PWR_STATUS_PLLLOCK ∧ Kept chBase Reg.CH_STATUS_UPLINK ∧ Kept chBase Reg.CH_STATUS_DNLINK := by decide +kernel

theorem kept_lockstep : ∀ n < 4, Kept (cpBase n) Reg.CP_STATUS_LOCKSTEP ∧ ∀ x ∈ linkFields, Apart (cpBase n) Reg.CP_STATUS_LOCKSTEP x.1 x.2 := by decide +kernel

theorem exec_railsGood (hm : s.mst = stPowerup) :
    exec .railsGoodPllLocked s = .next ((s.locked.railsShown.inLockstep.chainOn.identify .a).identify .b).settle :=
  congrArg done (if_neg (not_not.mpr hm))

theorem keeps_railsShown (s : State) : Keeps railFields s s.railsShown :=
  ((((Keeps.refl _ s).setFlagListed (b := pwrBase) (f := Reg.PWR_STATUS_SUPOK)).setFlagListed (b := pwrBase) (f := Reg.PWR_STATUS_REFNA)).setFlagListed
    (b := pwrBase) (f := Reg.PWR_STATUS_REFNB)).setFlagListed (b := pwrBase) (f := Reg.PWR_STATUS_REFCH)

theorem keeps_inLockstep (s : State) : Keeps lockstepFields s s.inLockstep := by
  refine (Keeps.refl _ s).foldlMem fun u n hn h => ?_
  have hm : (cpBase n, Reg.CP_STATUS_LOCKSTEP) ∈ lockstepFields := List.mem_map_of_mem hn
  have ht : ∀ x ∈ lockstepFields, x.1 + x.2.off ∉ trippedRegs := by decide +kernel
  exact h.setFlagListed hm (by decide) (ht _ hm)

theorem keeps_chainOn (s : State) : Keeps linkFields s s.chainOn :=
  ((Keeps.refl _ s).wrListed (b := chBase) (f := Reg.CH_STATUS_UPLINK)).wrListed (b := chBase) (f := Reg.CH_STATUS_DNLINK)

theorem keeps_identified (s : State) : Keeps [] s ((s.identify .a).identify .b) := (Keeps.refl _ s).identify.identify

theorem flag_setFlag_of_true {b c : Nat} {f : Field} (hf : f.lo + f.width ≤ 32) (hw : f.width = 1) (h : s.flag b f = true) :
    (s.setFlag c f true).flag b f = true := by
  by_cases e : b = c
  · rw [e, State.flag_setFlag_same _ _ _ _ hf hw]
  · rw [State.flag, State.rd_setFlag_apart _ _ _ _ _ _ hf (.inl fun h => e (Nat.add_right_cancel h).symm), ← State.flag, h]

theorem inLockstep_lockstep {n : Nat} (hn : n < 4) : s.inLockstep.flag (cpBase n) Reg.CP_STATUS_LOCKSTEP = true := by
  have h : ∀ (m : List Nat) (u : State), n ∈ m ∨ u.flag (cpBase n) Reg.CP_STATUS_LOCKSTEP = true →
      (m.foldl (fun s n => s.setFlag (cpBase n) Reg.CP_STATUS_LOCKSTEP true) u).flag (cpBase n) Reg.CP_STATUS_LOCKSTEP = true := by
    intro m
    induction m with
    | nil => exact fun u h => h.resolve_left List.not_mem_nil
    | cons j m ih =>
      intro u h
      refine ih _ ?_
      rcases h with h | h
      · rcases List.mem_cons.mp h with rfl | h
        · exact .inr (State.flag_setFlag_same _ _ _ _ (by decide) rfl)
        · exact .inl h
      · exact .inr (flag_setFlag_of_true (by decide) rfl h)
  exact h _ s (.inl (List.mem_range.mpr hn))

theorem chainOn_up (s : State) : s.chainOn.link .up = 1 :=
  (State.rd_wr_apart _ _ _ _ _ _ (by decide) (by decide)).trans (State.rd_wr_same _ _ _ _ (by decide))

theorem chainOn_down (s : State) : s.chainOn.link .down = 1 := State.rd_wr_same _ _ _ _ (by decide)

theorem railsGood_selftest (hm : s.mst = stPowerup) :
    Answers .railsGoodPllLocked s fun t =>
      t.mst = stSelftest ∧ t.rd modBase Reg.MOD_STATE_PREV = stPowerup ∧ t.flag pwrBase Reg.PWR_STATUS_PLLLOCK = true ∧ t.link .up = 1 ∧ t.link .down = 1 ∧
      (∀ n < 4, t.flag (cpBase n) Reg.CP_STATUS_LOCKSTEP = true) ∧ t.q.mem = s.q.mem := by
  have hid := keeps_identified s.locked.railsShown.inLockstep.chainOn
  have hch := (keeps_chainOn s.locked.railsShown.inLockstep).trans (hid.listed_mono (List.nil_subset _))
  have hall : Keeps (railFields ++ lockstepFields ++ linkFields) s.locked _ :=
    (((keeps_railsShown s.locked).listed_mono (by decide)).trans ((keeps_inLockstep _).listed_mono (by decide))).trans (hch.listed_mono (by decide))
  have hlocked : Keeps [(pwrBase, Reg.PWR_STATUS_PLLLOCK)] (s.goMst stSelftest) s.locked := (Keeps.refl _ _).setFlagListed
  refine ⟨_, exec_railsGood hm, ?_, ?_, ?_, ?_, ?_, fun n hn => ?_, ?_⟩
  · rw [State.settle_mst, hall.mst (by decide +kernel), hlocked.mst, State.goMst_mst _ _ (by decide)]
  · rw [State.settle_rd _ _ _ (by decide), hall.prev (by decide +kernel), hlocked.prev, goMst_prev, hm]
  · rw [State.settle_flag _ _ _ (by decide), hall.flag _ _ kept_rails.1 (by decide +kernel)]
    exact State.flag_setFlag_same _ _ _ _ (by decide) rfl
  · exact (State.settle_rd _ _ _ (by decide)).trans ((hid.rd _ _ kept_rails.2.1 (by simp)).trans (chainOn_up _))
  · exact (State.settle_rd _ _ _ (by decide)).trans ((hid.rd _ _ kept_rails.2.2 (by simp)).trans (chainOn_down _))
  · obtain ⟨hk, hl⟩ := kept_lockstep n hn
    have hf : NoFollower (cpBase n) Reg.CP_STATUS_LOCKSTEP := by
      have h : ∀ n < 4, NoFollower (cpBase n) Reg.CP_STATUS_LOCKSTEP := by decide +kernel
      exact h n hn
    rw [State.settle_flag _ _ _ hf, hch.flag _ _ hk hl, inLockstep_lockstep hn]
  · rw [State.settle_q, hall.mem, hlocked.mem, State.goMst_q]

/-! The end of the self-test. -/

/-- Tocsin's self-test has passed. -/
def Machine.State.tocsinPassed (s : State) : State := (s.setFlag tbBase Reg.TB_STATUS_STPASS true).setTstate tsDisarmed

/-- What the other tests found is shown, and the journal's words are read. -/
def Machine.State.shownTests (s : State) (r : SelfTest) : State :=
  let s := (List.range 4).foldl (fun s n =>
    (s.wr (cpBase n) Reg.CP_INJ_INJECTED 973).wr (cpBase n) Reg.CP_INJ_MISSED (min 65535 (r.missed.getD n 0))) s
  let s := s.when r.bankReached fun s => s.setFlag pwrBase Reg.PWR_STATUS_HUREADY true
  let s := (r.dramBad.filter fun g => 2097152 ≤ g).foldl (fun s g => s.meetWord .dram false 4 g .uncorrectable) s
  let s := (s.applyPend s.jrn.pend.length r.replay).measured r.capUF.toNat
  ((s.wrw pwrBase Reg.PWR_CNVFAIL r.cnvFail).readFactory r.fcalBad).readSettings

/-- Test `d` is the lowest that failed. -/
def Machine.State.showFailure (s : State) (r : SelfTest) (d : Nat) : State :=
  let s := (s.wr pwrBase Reg.PWR_STFAIL_DIGIT d).wr modBase Reg.MOD_ERR_STFAIL d
  s.wr pwrBase Reg.PWR_STFAIL_DETAIL (s.failDetail r d)

/-- The verdict. -/
def Machine.State.conclude (s : State) (r : SelfTest) : State :=
  match s.failedTests r with
  | [] => s.enterEnum
  | d :: _ => s.showFailure r d

theorem exec_selftest {r : SelfTest} (hm : s.mst = stSelftest) (hd : s.rd pwrBase Reg.PWR_STFAIL_DIGIT = 0) (ht : r.tocsinSub = 0) :
    exec (.selftestComplete r) s = .next ((s.tocsinPassed.shownTests r).conclude r).settle := by
  have he : exec (.selftestComplete r) s = done (if s.mst ≠ stSelftest ∨ s.rd pwrBase Reg.PWR_STFAIL_DIGIT ≠ 0 then s
      else ((if r.tocsinSub = 0 then s.tocsinPassed else s.safetyFault .tstFail 0 r.tocsinSub).shownTests r).conclude r) := rfl
  rw [he, if_neg (by simp [hm, hd]), if_pos ht]
  rfl

/-- Fields that the results of the tests take beside what every operation may write. -/
def resultFields : List (Nat × Field) :=
  (List.range 4).flatMap (fun n => [(cpBase n, Reg.CP_INJ_INJECTED), (cpBase n, Reg.CP_INJ_MISSED)]) ++ [(pwrBase, Reg.PWR_STATUS_HUREADY)]

theorem keeps_shownTests (s : State) (r : SelfTest) : Keeps resultFields s (s.shownTests r) := by
  have hm : ∀ n ∈ List.range 4, (cpBase n, Reg.CP_INJ_INJECTED) ∈ resultFields ∧ (cpBase n, Reg.CP_INJ_MISSED) ∈ resultFields ∧
      cpBase n + Reg.CP_INJ_INJECTED.off ∉ trippedRegs := by decide +kernel
  have hinj : Keeps resultFields s _ := (Keeps.refl _ s).foldlMem (m := List.range 4) fun _ n hn h =>
    (h.wrListed (v := 973) (hm n hn).1 (by decide) (hm n hn).2.2).wrListed (v := min 65535 (r.missed.getD n 0)) (hm n hn).2.1 (by decide) (hm n hn).2.2
  exact ((((hinj.when fun _ h => h.setFlagListed (by decide +kernel)).foldl fun _ _ h => h.meetWord).applyPend.measured).wrwSide).modJrn.readSettings

theorem kept_selftest : Kept pwrBase Reg.PWR_STFAIL_DIGIT ∧ (∀ x ∈ resultFields, Apart pwrBase Reg.PWR_STFAIL_DIGIT x.1 x.2) ∧
    (∀ x ∈ resultFields, Apart tbBase Reg.TB_STATUS_STPASS x.1 x.2) := by decide +kernel

theorem kept_regFlt : ∀ k < 5, Kept modBase (regFltField k) ∧ ∀ x ∈ resultFields, Apart modBase (regFltField k) x.1 x.2 := by decide +kernel

def passFields : List (Nat × Field) := [(tbBase, Reg.TB_STATUS_STPASS), (tbBase, Reg.TB_STATUS_TSTATE)]

theorem keeps_tocsinPassed (s : State) : Keeps passFields s s.tocsinPassed := (Keeps.refl _ s).setFlagListed.wrListed

theorem tocsinPassed_stpass (s : State) : s.tocsinPassed.flag tbBase Reg.TB_STATUS_STPASS = true := by
  have h : Keeps [(tbBase, Reg.TB_STATUS_TSTATE)] (s.setFlag tbBase Reg.TB_STATUS_STPASS true) s.tocsinPassed := (Keeps.refl _ _).wrListed
  exact (h.flag _ _ kept_tocsin.2.2.2.2 (by decide)).trans (State.flag_setFlag_same _ _ _ _ (by decide) rfl)

theorem tocsinPassed_tstate (s : State) : s.tocsinPassed.tstate = tsDisarmed := State.rd_wr_same _ _ _ _ (by decide)

/-- The whole of the tests. -/
theorem keeps_tests (s : State) (r : SelfTest) : Keeps (passFields ++ resultFields) s (s.tocsinPassed.shownTests r) :=
  ((keeps_tocsinPassed s).listed_mono (List.subset_append_left _ _)).trans ((keeps_shownTests _ r).listed_mono (List.subset_append_right _ _))

/-! Which tests failed. -/

theorem failedTests_nil {r : SelfTest} (hf : r.failed = []) (ht : r.tocsinSub = 0) (hmi : r.missed = [0, 0, 0, 0]) (hb : r.bankReached = true)
    (hc : 840 ≤ r.capUF.toNat) (hr : ∀ k < 5, s.flag modBase (regFltField k) = false) (hca : s.causes = 0) : s.failedTests r = [] := by
  have hfault : ((List.range 5).any fun k => s.flag modBase (regFltField k)) = false :=
    List.any_eq_false.mpr fun k hk => by simp [hr k (List.mem_range.mp hk)]
  have hcause : s.causeLatched .tstFail = false := by rw [State.causeLatched, hca]; rfl
  simp [State.failedTests, List.filter, hf, ht, hmi, hb, hfault, hcause, hca, Nat.not_lt.mpr hc]

theorem failedTests_one {r : SelfTest} (h : 1 ∈ r.failed) : ∃ l, s.failedTests r = 1 :: l := by
  have h1 : r.failed.contains 1 = true := List.contains_iff_mem.mpr h
  unfold State.failedTests
  exact ⟨_, List.filter_cons_of_pos h1⟩

/-! What follows. -/

theorem conclude_passed {r : SelfTest} (h : s.failedTests r = []) (hk : s.chain.kept = none) (hi : s.toc.safeIn = true) :
    s.conclude r = (s.goMst stEnum).panelInit := by
  have hp : Keeps [(modBase, Reg.MOD_STATE_PREV), (modBase, Reg.MOD_STATE_STATE)] s (s.goMst stEnum).panelInit := ((Keeps.refl _ s).goMst).panelInit
  rw [State.conclude, h]
  simp only [State.enterEnum, hp.kept, hp.safeIn, hk, hi, if_true]

theorem conclude_failed {r : SelfTest} {d : Nat} {l : List Nat} (h : s.failedTests r = d :: l) : s.conclude r = s.showFailure r d := by
  rw [State.conclude, h]

theorem selftestComplete_passed {r : SelfTest} (hm : s.mst = stSelftest) (hd : s.rd pwrBase Reg.PWR_STFAIL_DIGIT = 0) (hf : r.failed = [])
    (ht : r.tocsinSub = 0) (hmi : r.missed = [0, 0, 0, 0]) (hb : r.bankReached = true) (hc : 840 ≤ r.capUF.toNat) (hr : ∀ k < 5, s.flag modBase (regFltField k) = false)
    (hca : s.causes = 0) (hk : s.chain.kept = none) (hi : s.toc.safeIn = true) :
    Answers (.selftestComplete r) s fun t =>
      t.mst = stEnum ∧ t.tstate = tsDisarmed ∧ t.flag tbBase Reg.TB_STATUS_STPASS = true ∧ t.rd pwrBase Reg.PWR_STFAIL_DIGIT = 0 ∧ t.q.mem = s.q.mem := by
  have hall := keeps_tests s r
  have hres := keeps_shownTests s.tocsinPassed r
  obtain ⟨hdigit, hdigit', hpass⟩ := kept_selftest
  have hnone : (s.tocsinPassed.shownTests r).failedTests r = [] := by
    refine failedTests_nil hf ht hmi hb hc (fun k hk => ?_) ((hres.causes (by decide +kernel)).trans (((keeps_tocsinPassed s).causes (by decide)).trans hca))
    obtain ⟨hkept, hap⟩ := kept_regFlt k hk
    have hp : ∀ k < 5, ∀ x ∈ passFields, Apart modBase (regFltField k) x.1 x.2 := by decide +kernel
    rw [hres.flag _ _ hkept hap, (keeps_tocsinPassed s).flag _ _ hkept (hp k hk), hr k hk]
  have he : (s.tocsinPassed.shownTests r).conclude r = ((s.tocsinPassed.shownTests r).goMst stEnum).panelInit :=
    conclude_passed hnone (hall.kept.trans hk) (hall.safeIn.trans hi)
  have hinit : Keeps [] ((s.tocsinPassed.shownTests r).goMst stEnum) ((s.tocsinPassed.shownTests r).goMst stEnum).panelInit := (Keeps.refl _ _).panelInit
  have hgo : Keeps [(modBase, Reg.MOD_STATE_PREV), (modBase, Reg.MOD_STATE_STATE)] (s.tocsinPassed.shownTests r)
      ((s.tocsinPassed.shownTests r).goMst stEnum).panelInit := ((Keeps.refl _ _).goMst).panelInit
  refine ⟨_, (exec_selftest hm hd ht).trans (by rw [he]), ?_, ?_, ?_, ?_, ?_⟩
  · rw [State.settle_mst, hinit.mst, State.goMst_mst _ _ (by decide)]
  · rw [settle_tstate, hgo.tstate, hres.tstate (by decide +kernel), tocsinPassed_tstate]
  · rw [State.settle_flag _ _ _ (by decide), hgo.flag _ _ kept_tocsin.2.2.2.2 (by decide), hres.flag _ _ kept_tocsin.2.2.2.2 hpass, tocsinPassed_stpass]
  · rw [State.settle_rd _ _ _ (by decide), hgo.rd _ _ hdigit (by decide), hall.rd _ _ hdigit (by decide +kernel), hd]
  · rw [State.settle_q, hgo.mem, hall.mem]

theorem showFailure_shown (s : State) (r : SelfTest) {d : Nat} (hd : d < 16) :
    (s.showFailure r d).mst = s.mst ∧ (s.showFailure r d).rd pwrBase Reg.PWR_STFAIL_DIGIT = d ∧ (s.showFailure r d).rd modBase Reg.MOD_ERR_STFAIL = d := by
  refine ⟨?_, ?_, ?_⟩
  · exact (State.rd_wr_apart _ _ _ _ _ _ (by decide) (by decide)).trans ((State.rd_wr_apart _ _ _ _ _ _ (by decide) (by decide)).trans
      (State.rd_wr_apart _ _ _ _ _ _ (by decide) (by decide)))
  · exact (State.rd_wr_apart _ _ _ _ _ _ (by decide) (by decide)).trans ((State.rd_wr_apart _ _ _ _ _ _ (by decide) (by decide)).trans
      ((State.rd_wr_same _ _ _ _ (by decide)).trans (Nat.mod_eq_of_lt hd)))
  · exact (State.rd_wr_apart _ _ _ _ _ _ (by decide) (by decide)).trans ((State.rd_wr_same _ _ _ _ (by decide)).trans (Nat.mod_eq_of_lt hd))

theorem selftestComplete_failed {r : SelfTest} (hm : s.mst = stSelftest) (hd : s.rd pwrBase Reg.PWR_STFAIL_DIGIT = 0) (hf : 1 ∈ r.failed)
    (ht : r.tocsinSub = 0) :
    Answers (.selftestComplete r) s fun t => t.mst = stSelftest ∧ t.rd pwrBase Reg.PWR_STFAIL_DIGIT = 1 ∧ t.rd modBase Reg.MOD_ERR_STFAIL = 1 := by
  have hall := keeps_tests s r
  obtain ⟨l, hl⟩ := failedTests_one (s := s.tocsinPassed.shownTests r) hf
  obtain ⟨hmst, hdigit, herr⟩ := showFailure_shown (s.tocsinPassed.shownTests r) r (d := 1) (by decide)
  refine ⟨_, (exec_selftest hm hd ht).trans (by rw [conclude_failed hl]), ?_, ?_, ?_⟩
  · rw [State.settle_mst, hmst, hall.mst (by decide +kernel), hm]
  · rw [State.settle_rd _ _ _ (by decide), hdigit]
  · rw [State.settle_rd _ _ _ (by decide), herr]

/-- Settles O1: what a reset leaves, what the start of the self-test shows, and its verdict over what its results keep. -/
theorem startUpPathFromResetToEnum : Obligations.StartUpPathFromResetToEnum := by
  unfold Obligations.StartUpPathFromResetToEnum
  exact ⟨fun _ _ _ => resetSource_restarts, fun _ => railsGood_selftest, fun _ _ => selftestComplete_passed, fun _ _ => selftestComplete_failed⟩

end Sys2Proof
end

