-- ==== Sys2Proof/Proofs/ImageRegisters.lean ====
section
/-! The registers of the image store (R63): what a write of one of their fields leaves, and what the end of a command leaves. -/

namespace Sys2Proof

open Sys2Proof.Machine

variable {s t u : State} {l : List Nat} {α : Type}

/-! Registers outside a list. -/

/-- Every register outside `l` reads in `t` as in `s`. -/
def RegsBut (l : List Nat) (s t : State) : Prop := ∀ a ∉ l, t.reg a = s.reg a

namespace RegsBut

theorem refl (l : List Nat) (s : State) : RegsBut l s s := fun _ _ => rfl

theorem trans (h : RegsBut l s t) (h' : RegsBut l t u) : RegsBut l s u := fun a ha => (h' a ha).trans (h a ha)

theorem mono {m : List Nat} (h : RegsBut l s t) (hm : l ⊆ m) : RegsBut m s t := fun a ha => h a fun hl => ha (hm hl)

/-- A change of anything but the registers. -/
theorem same (h : RegsBut l s t) (hr : u.regs = t.regs := by rfl) : RegsBut l s u := fun a ha => by rw [State.reg, hr]; exact h a ha

theorem setReg {a : Nat} {v : Word} (h : RegsBut l s t) (ha : a ∈ l := by decide) : RegsBut l s (t.setReg a v) := fun b hb => by
  rw [State.reg_setReg, if_neg fun e : b = a => hb (e ▸ ha), h b hb]

theorem wr {b : Nat} {f : Field} {v : Nat} (h : RegsBut l s t) (ha : b + f.off ∈ l := by decide) : RegsBut l s (t.wr b f v) := h.setReg ha
theorem wrw {b : Nat} {f : Field} {v : Word} (h : RegsBut l s t) (ha : b + f.off ∈ l := by decide) : RegsBut l s (t.wrw b f v) := h.setReg ha
theorem setFlag {b : Nat} {f : Field} {v : Bool} (h : RegsBut l s t) (ha : b + f.off ∈ l := by decide) : RegsBut l s (t.setFlag b f v) := h.wr ha
theorem bumpBy {b : Nat} {f : Field} {n : Nat} (h : RegsBut l s t) (ha : b + f.off ∈ l := by decide) : RegsBut l s (t.bumpBy b f n) := h.wr ha
theorem bump {b : Nat} {f : Field} (h : RegsBut l s t) (ha : b + f.off ∈ l := by decide) : RegsBut l s (t.bump b f) := h.wr ha

protected theorem ite {c : Prop} [Decidable c] (ht : RegsBut l s t) (hu : RegsBut l s u) : RegsBut l s (if c then t else u) := by
  split
  · exact ht
  · exact hu

theorem when {c : Bool} {f : State → State} (h : RegsBut l s t) (hf : ∀ u, RegsBut l s u → RegsBut l s (f u)) : RegsBut l s (t.when c f) := .ite (hf t h) h

theorem foldl {f : State → α → State} {m : List α} (h : RegsBut l s t) (hf : ∀ u, ∀ a ∈ m, RegsBut l s u → RegsBut l s (f u a)) :
    RegsBut l s (m.foldl f t) := by
  induction m generalizing t with
  | nil => exact h
  | cons a m ih => exact ih (hf t a List.mem_cons_self h) fun u b hb => hf u b (List.mem_cons_of_mem a hb)

/-! Changes of one part of the state. -/

theorem modImg {f : ImageSt → ImageSt} (h : RegsBut l s t) : RegsBut l s (t.modImg f) := h
theorem modFab {f : FabricSt → FabricSt} (h : RegsBut l s t) : RegsBut l s (t.modFab f) := h
theorem modToc {f : TocsinSt → TocsinSt} (h : RegsBut l s t) : RegsBut l s (t.modToc f) := h
theorem modJrn {f : JournalSt → JournalSt} (h : RegsBut l s t) : RegsBut l s (t.modJrn f) := h
theorem modBank {b : Bool} {f : Bank → Bank} (h : RegsBut l s t) : RegsBut l s (t.modBank b f) := h
theorem endStaging (h : RegsBut l s t) : RegsBut l s t.endStaging := h

/-! The operations on IMG.CTRL and IMG.STATUS. -/

theorem nameBank {b : Bool} (h : RegsBut l s t) (ha : nvjBase + Reg.IMG_CTRL_BANK.off ∈ l := by decide) : RegsBut l s (t.nameBank b) := h.setFlag ha
theorem setPhase {n : Nat} (h : RegsBut l s t) (ha : nvjBase + Reg.IMG_STATUS_PHASE.off ∈ l := by decide) : RegsBut l s (t.setPhase n) := h.wr ha
theorem endOp {c : Code} (h : RegsBut l s t) (ha : nvjBase + Reg.IMG_STATUS_PHASE.off ∈ l := by decide) : RegsBut l s (t.endOp c) := (h.wr ha).wr ha

theorem setValid {b v : Bool} (h : RegsBut l s t) (ha : nvjBase + Reg.IMG_STATUS_PHASE.off ∈ l := by decide) :
    RegsBut l s (t.setFlag nvjBase (bankValid b) v) := h.setFlag (by cases b <;> exact ha)
theorem setSaved {b v : Bool} (h : RegsBut l s t) (ha : nvjBase + Reg.IMG_STATUS_PHASE.off ∈ l := by decide) :
    RegsBut l s (t.setFlag nvjBase (bankSaved b) v) := h.setFlag (by cases b <;> exact ha)
theorem setDelta {b v : Bool} (h : RegsBut l s t) (ha : nvjBase + Reg.IMG_STATUS_PHASE.off ∈ l := by decide) :
    RegsBut l s (t.setFlag nvjBase (bankDelta b) v) := h.setFlag (by cases b <;> exact ha)

theorem rd (h : RegsBut l s t) (b : Nat) (g : Field) (hb : b + g.off ∉ l := by decide) : t.rd b g = s.rd b g := by
  rw [State.rd, h _ hb, State.rd]

theorem flag (h : RegsBut l s t) (b : Nat) (g : Field) (hb : b + g.off ∉ l := by decide) : t.flag b g = s.flag b g := by
  rw [State.flag, h.rd b g hb, State.flag]

/-- The end of a command writes followers alone. -/
theorem settled (h : RegsBut l s t) : RegsKept l s t.settle := fun a ha hf => (State.settle_reg t a hf).trans (h a ha)

theorem answered {p : Port} {c : Code} (h : RegsBut l s t) : RegsKept l s (t.answer p c).settle :=
  have h' : RegsBut l s (t.answer p c) := h
  h'.settled

end RegsBut

/-! Flags. -/

theorem flag_wr_apart (s : State) (b c : Nat) (g f : Field) (v : Nat) (hf : f.lo + f.width ≤ 32) (h : Apart b g c f) :
    (s.wr c f v).flag b g = s.flag b g := by
  rw [State.flag, State.rd_wr_apart s b c g f v hf h, State.flag]

theorem flag_setFlag_apart (s : State) (b c : Nat) (g f : Field) (v : Bool) (hf : f.lo + f.width ≤ 32) (h : Apart b g c f) :
    (s.setFlag c f v).flag b g = s.flag b g := flag_wr_apart s b c g f _ hf h

end Sys2Proof
end

