-- ==== Sys2Proof/Proofs/ImageBanks.lean ====
section
/-! The banks of the image store (R40, R46 to R50): opening, recording, validating and reading them. -/

namespace Sys2Proof

open Sys2Proof.Machine

variable {s t : State} {p : Port} {b : Bool}

/-! What the end of a command leaves. -/

theorem bankValid_free (b : Bool) : NoFollower nvjBase (bankValid b) := by cases b <;> decide
theorem bankSaved_free (b : Bool) : NoFollower nvjBase (bankSaved b) := by cases b <;> decide

@[simp] theorem settle_imgPhase (s : State) : s.settle.imgPhase = s.imgPhase := State.settle_rd _ _ _ (by decide)
@[simp] theorem settle_result (s : State) : s.settle.rd nvjBase Reg.IMG_STATUS_RESULT = s.rd nvjBase Reg.IMG_STATUS_RESULT := State.settle_rd _ _ _ (by decide)
@[simp] theorem settle_next (s : State) : s.settle.rd nvjBase Reg.IMG_NEXT_NEXT = s.rd nvjBase Reg.IMG_NEXT_NEXT := State.settle_rd _ _ _ (by decide)
@[simp] theorem settle_abandoned (s : State) : s.settle.rd nvjBase Reg.IMG_COMMITS_ABANDONED = s.rd nvjBase Reg.IMG_COMMITS_ABANDONED :=
  State.settle_rd _ _ _ (by decide)
@[simp] theorem settle_volatile (s : State) : s.settle.flag nvjBase Reg.IMG_STATUS_VOLATILE = s.flag nvjBase Reg.IMG_STATUS_VOLATILE :=
  State.settle_flag _ _ _ (by decide)
@[simp] theorem settle_bootBank (s : State) : s.settle.bootBank = s.bootBank := State.settle_flag _ _ _ (by decide)
@[simp] theorem settle_validBank (s : State) (b : Bool) : s.settle.validBank b = s.validBank b := State.settle_flag _ _ _ (bankValid_free b)
@[simp] theorem settle_savedBank (s : State) (b : Bool) : s.settle.flag nvjBase (bankSaved b) = s.flag nvjBase (bankSaved b) :=
  State.settle_flag _ _ _ (bankSaved_free b)
@[simp] theorem settle_bank (s : State) (b : Bool) : s.settle.bank b = s.bank b := by simp [State.bank]

@[simp] theorem answer_imgPhase (s : State) (p : Port) (c : Code) : (s.answer p c).imgPhase = s.imgPhase := (rfl)
@[simp] theorem answer_validBank (s : State) (p : Port) (c : Code) (b : Bool) : (s.answer p c).validBank b = s.validBank b := (rfl)
@[simp] theorem answer_bank (s : State) (p : Port) (c : Code) (b : Bool) : (s.answer p c).bank b = s.bank b := (rfl)

/-! One bank changes. -/

theorem bank_modBank (s : State) (b c : Bool) (f : Bank → Bank) : (s.modBank c f).bank b = if b = c then f (s.bank b) else s.bank b := by
  cases b <;> cases c <;> rfl

@[simp] theorem bank_modBank_same (s : State) (b : Bool) (f : Bank → Bank) : (s.modBank b f).bank b = f (s.bank b) := by
  rw [bank_modBank, if_pos rfl]

@[simp] theorem bank_modBank_other (s : State) (b : Bool) (f : Bank → Bank) : (s.modBank b f).bank (!b) = s.bank (!b) := by
  rw [bank_modBank, if_neg (by cases b <;> decide)]

@[simp] theorem bank_endStaging (s : State) (b : Bool) : s.endStaging.bank b = { s.bank b with staging := false } := by cases b <;> rfl

@[simp] theorem bank_wr (s : State) (b : Bool) (x : Nat) (f : Field) (v : Nat) : (s.wr x f v).bank b = s.bank b := (rfl)
@[simp] theorem bank_setFlag (s : State) (b : Bool) (x : Nat) (f : Field) (v : Bool) : (s.setFlag x f v).bank b = s.bank b := (rfl)
@[simp] theorem bank_nameBank (s : State) (b c : Bool) : (s.nameBank c).bank b = s.bank b := (rfl)
@[simp] theorem bank_setPhase (s : State) (b : Bool) (n : Nat) : (s.setPhase n).bank b = s.bank b := (rfl)
@[simp] theorem bank_endOp (s : State) (b : Bool) (c : Code) : (s.endOp c).bank b = s.bank b := (rfl)
@[simp] theorem bank_setNextBank (s : State) (b c : Bool) : (s.modImg fun i => { i with nextBank := c }).bank b = s.bank b := by cases b <;> rfl

@[simp] theorem modBank_rd (s : State) (b : Bool) (f : Bank → Bank) (x : Nat) (y : Field) : (s.modBank b f).rd x y = s.rd x y := (rfl)
@[simp] theorem modBank_flag (s : State) (b : Bool) (f : Bank → Bank) (x : Nat) (y : Field) : (s.modBank b f).flag x y = s.flag x y := (rfl)
@[simp] theorem endStaging_rd (s : State) (x : Nat) (y : Field) : s.endStaging.rd x y = s.rd x y := (rfl)
@[simp] theorem endStaging_flag (s : State) (x : Nat) (y : Field) : s.endStaging.flag x y = s.flag x y := (rfl)

@[simp] theorem modBank_outbox (s : State) (b : Bool) (f : Bank → Bank) : (s.modBank b f).outbox = s.outbox := (rfl)
@[simp] theorem endStaging_outbox (s : State) : s.endStaging.outbox = s.outbox := (rfl)
@[simp] theorem nameBank_outbox (s : State) (b : Bool) : (s.nameBank b).outbox = s.outbox := (rfl)
@[simp] theorem setPhase_outbox (s : State) (n : Nat) : (s.setPhase n).outbox = s.outbox := (rfl)
@[simp] theorem endOp_outbox (s : State) (c : Code) : (s.endOp c).outbox = s.outbox := (rfl)

@[simp] theorem endOp_fab (s : State) (c : Code) : (s.endOp c).fab = s.fab := (rfl)
@[simp] theorem endOp_pwr (s : State) (c : Code) : (s.endOp c).pwr = s.pwr := (rfl)
@[simp] theorem modBank_active (s : State) (b : Bool) (f : Bank → Bank) : (s.modBank b f).img.active = s.img.active := by cases b <;> rfl
@[simp] theorem modBank_committed (s : State) (b : Bool) (f : Bank → Bank) : (s.modBank b f).img.committed = s.img.committed := by cases b <;> rfl
@[simp] theorem endStaging_active (s : State) : s.endStaging.img.active = s.img.active := (rfl)
@[simp] theorem nameBank_img (s : State) (b : Bool) : (s.nameBank b).img = s.img := (rfl)
@[simp] theorem setPhase_img (s : State) (n : Nat) : (s.setPhase n).img = s.img := (rfl)
@[simp] theorem endOp_img (s : State) (c : Code) : (s.endOp c).img = s.img := (rfl)

/-! OPEN (R48). -/

/-- Bank `b` is empty and open for staging. -/
def Machine.State.opened (s : State) (b : Bool) : State :=
  let s := (((s.nameBank b).setFlag nvjBase (bankValid b) false).setFlag nvjBase (bankSaved b) false).setFlag nvjBase (bankDelta b) false
  let s := s.endStaging.modBank b fun x => { x with base := [], main := [], bad := [], badBase := [], slots := 0, staging := true }
  ((s.wr nvjBase Reg.IMG_NEXT_NEXT 0).setPhase phStaging).modImg fun i => { i with nextBank := b }

theorem decideOpen_inactive (ho : s.imgOpen = E_OK) (ha : s.isActive b = false) : decideOpen b s = (E_OK, s.opened b) :=
  (if_neg (not_not.mpr ho)).trans (if_neg (ne_true_of_eq_false ha))

theorem decideOpen_active (ho : s.imgOpen = E_OK) (ha : s.isActive b = true) : decideOpen b s = (E_LOCKED, s) :=
  (if_neg (not_not.mpr ho)).trans (if_pos ha)

theorem opened_imgPhase (s : State) (b : Bool) : (s.opened b).imgPhase = phStaging := by
  unfold State.opened State.imgPhase State.setPhase
  rw [State.modImg_rd, State.rd_wr_same _ _ _ _ (by decide)]
  rfl

theorem opened_next (s : State) (b : Bool) : (s.opened b).rd nvjBase Reg.IMG_NEXT_NEXT = 0 := by
  unfold State.opened State.setPhase
  rw [State.modImg_rd, State.rd_wr_apart _ _ _ _ _ _ (by decide) (by decide), State.rd_wr_same _ _ _ _ (by decide)]
  rfl

theorem opened_bank (s : State) (b : Bool) :
    (s.opened b).bank b = { s.bank b with base := [], main := [], bad := [], badBase := [], slots := 0, staging := true } := by
  simp [State.opened]

theorem opened_bank_other (s : State) (b : Bool) : (s.opened b).bank (!b) = { s.bank (!b) with staging := false } := by simp [State.opened]

theorem opened_valid (s : State) (b : Bool) : (s.opened b).validBank b = false := by
  unfold State.opened State.validBank State.setPhase
  cases b <;> simp (disch := decide) only [State.modImg_flag, flag_wr_apart, modBank_flag, endStaging_flag, flag_setFlag_apart, State.flag_setFlag_same]

theorem opened_saved (s : State) (b : Bool) : (s.opened b).flag nvjBase (bankSaved b) = false := by
  unfold State.opened State.setPhase
  cases b <;> simp (disch := decide) only [State.modImg_flag, flag_wr_apart, modBank_flag, endStaging_flag, flag_setFlag_apart, State.flag_setFlag_same]

theorem opened_regs (s : State) (b : Bool) :
    RegsBut [nvjBase + Reg.IMG_CTRL_BANK.off, nvjBase + Reg.IMG_STATUS_PHASE.off, nvjBase + Reg.IMG_NEXT_NEXT.off] s (s.opened b) :=
  (RegsBut.refl _ s).nameBank.setValid.setSaved.setDelta.endStaging.modBank.wr.setPhase.modImg

theorem imgOpen_inactive (h : Served s p) (ho : s.imgOpen = E_OK) (ha : s.isActive b = false) :
    exec (.imgOpen p b) s = .next ((s.opened b).answer p E_OK).settle := command_decides h (decideOpen_inactive ho ha)

theorem decideValidate_active (ho : s.imgOpen = E_OK) (ha : s.isActive b = true) : decideValidate b s = (E_LOCKED, s) :=
  (if_neg (not_not.mpr ho)).trans (if_pos ha)

theorem decideCommit_active {a : Bool} {w : Word} (ho : s.imgOpen = E_OK) (ha : s.isActive b = true) : decideCommit b a w s = (E_LOCKED, s) :=
  (if_neg (not_not.mpr ho)).trans (if_pos ha)

/-- Settles O53: the decisions on the active bank, and the state that OPEN leaves. -/
theorem theActiveBankIsLocked : Obligations.TheActiveBankIsLocked := by
  unfold Obligations.TheActiveBankIsLocked
  refine ⟨fun s p b a h ho ha => ⟨command_decides h (decideOpen_active ho ha), command_decides h (decideValidate_active ho ha),
    command_decides h (decideCommit_active ho ha)⟩, fun s p b h ho ha => ⟨_, imgOpen_inactive h ho ha, ?_⟩⟩
  simp [opened_bank, opened_bank_other, opened_valid, opened_saved, opened_next]

end Sys2Proof
end

