-- ==== Sys2Proof/Proofs/ImageStaging.lean ====
section
/-! Staging, validating and loading a bank (R22, R40, R42, R48 to R50): what each operation decides, and the state that it leaves. -/

namespace Sys2Proof

open Sys2Proof.Machine

variable {s t : State} {p : Port} {b : Bool}

/-! The end of an operation. -/

@[simp] theorem endOp_imgPhase (s : State) (c : Code) : (s.endOp c).imgPhase = phIdle := by
  unfold State.endOp State.setPhase State.setResult State.imgPhase
  rw [State.rd_wr_apart _ _ _ _ _ _ (by decide) (by decide), State.rd_wr_same _ _ _ _ (by decide)]
  rfl

@[simp] theorem endOp_result (s : State) (c : Code) : (s.endOp c).rd nvjBase Reg.IMG_STATUS_RESULT = c.toNat := by
  unfold State.endOp State.setResult
  rw [State.rd_wr_same _ _ _ _ (by decide)]
  exact Nat.mod_eq_of_lt c.isLt

/-- The end of an operation writes PHASE and RESULT. -/
theorem endOp_flag (s : State) (c : Code) (x : Nat) (g : Field) (hp : Apart x g nvjBase Reg.IMG_STATUS_PHASE)
    (hr : Apart x g nvjBase Reg.IMG_STATUS_RESULT) : (s.endOp c).flag x g = s.flag x g := by
  unfold State.endOp State.setPhase State.setResult
  rw [flag_wr_apart _ _ _ _ _ _ (by decide) hr, flag_wr_apart _ _ _ _ _ _ (by decide) hp]

@[simp] theorem endOp_validBank (s : State) (c : Code) (b : Bool) : (s.endOp c).validBank b = s.validBank b := by
  cases b <;> exact endOp_flag _ _ _ _ (by decide) (by decide)

@[simp] theorem endOp_saved (s : State) (c : Code) (b : Bool) : (s.endOp c).flag nvjBase (bankSaved b) = s.flag nvjBase (bankSaved b) := by
  cases b <;> exact endOp_flag _ _ _ _ (by decide) (by decide)

@[simp] theorem endOp_bootBank (s : State) (c : Code) : (s.endOp c).bootBank = s.bootBank := endOp_flag _ _ _ _ (by decide) (by decide)

theorem setPhase_imgPhase (s : State) {n : Nat} (hn : n < 2 ^ Reg.IMG_STATUS_PHASE.width) : (s.setPhase n).imgPhase = n := by
  unfold State.setPhase State.imgPhase
  rw [State.rd_wr_same _ _ _ _ (by decide), Nat.mod_eq_of_lt hn]

theorem modImg_imgPhase (s : State) (f : ImageSt → ImageSt) : (s.modImg f).imgPhase = s.imgPhase := (rfl)

/-! A completion that comes in the phase it belongs to, with CP1 at its duties. -/

theorem done_of_pos {c : Prop} [Decidable c] (h : c) (s t : State) : done (if c then s else t) = .next s.settle := by rw [if_pos h]; rfl

theorem openComplete_staging (hp : s.imgPhase = phStaging) (hd : s.dutyUp 1 = true) : exec .openComplete s = .next (s.endOp E_OK).settle :=
  done_of_pos ⟨hp, hd⟩ _ _

theorem validateComplete_validating (hp : s.imgPhase = phValidating) (hd : s.dutyUp 1 = true) :
    exec .validateComplete s =
      .next (((s.recordVerdict s.img.nextBank (s.verdict s.img.nextBank)).endOp (s.verdict s.img.nextBank).code)).settle :=
  done_of_pos ⟨hp, hd⟩ _ _

/-! RECORD_UNIT (R49). -/

/-- A unit as it decodes at index `n` of its section. -/
def unitWord (u : BitVec 288) (n : Nat) : Decoded × BitVec 256 := decodeWord (u.extractLsb' 0 256) (u.extractLsb' 256 20) n

/-- A decoded word stands at the end of the bank. -/
def Machine.State.recorded (s : State) (b : Bool) (r : Decoded × BitVec 256) : State :=
  let u := (s.modBank b fun x => { x with main := x.main ++ [r.2] }).wr nvjBase Reg.IMG_NEXT_NEXT ((s.bank b).main.length + 1)
  (u.setFlag nvjBase (bankDelta b) (secIsDelta (u.bank b).main)).when r.1.corrected fun s => s.bump nvjBase Reg.IMG_CORR_CORR

theorem decideUnit_staged {u : BitVec 288} (hm : s.mst ∈ [stLoad, stReady, stRun, stService]) (hp : s.imgPhase < phValidating)
    (hb : s.stagingBank = some b) (hr : (unitWord u (s.bank b).main.length).1.bad = false) (hn : (s.bank b).main.length < 65536)
    (hz : u.extractLsb' 276 12 = 0) : decideUnit u s = (E_OK, s.recorded b (unitWord u (s.bank b).main.length)) := by
  have hm' : s.mstIn [stLoad, stReady, stRun, stService] = true := List.contains_iff_mem.mpr hm
  unfold unitWord at hr ⊢
  simp only [decideUnit, hm', hb, hr, hz, Nat.not_le.mpr hp, Nat.not_le.mpr hn, Bool.not_true, Bool.false_eq_true, if_false, ne_eq, not_true_eq_false]
  rfl

theorem recorded_bank (s : State) (b : Bool) (r : Decoded × BitVec 256) : ((s.recorded b r).bank b).main = (s.bank b).main ++ [r.2] := by
  unfold State.recorded
  cases r.1.corrected <;> simp [State.bump, State.bumpBy]

theorem recorded_bank_other (s : State) (b : Bool) (r : Decoded × BitVec 256) : (s.recorded b r).bank (!b) = s.bank (!b) := by
  unfold State.recorded
  cases r.1.corrected <;> simp [State.bump, State.bumpBy]

theorem recorded_outbox (s : State) (b : Bool) (r : Decoded × BitVec 256) : (s.recorded b r).outbox = s.outbox := by
  unfold State.recorded
  cases r.1.corrected <;> rfl

theorem recorded_next (s : State) (b : Bool) (r : Decoded × BitVec 256) (hn : (s.bank b).main.length < 65536) :
    (s.recorded b r).rd nvjBase Reg.IMG_NEXT_NEXT = (s.bank b).main.length + 1 := by
  have hu : ∀ u : State, RegsBut [nvjBase + Reg.IMG_STATUS_PHASE.off, nvjBase + Reg.IMG_CORR_CORR.off] u
      ((u.setFlag nvjBase (bankDelta b) (secIsDelta (u.bank b).main)).when r.1.corrected fun s => s.bump nvjBase Reg.IMG_CORR_CORR) :=
    fun u => (RegsBut.refl _ u).setDelta.when fun _ h => h.bump
  have hlt : (s.bank b).main.length + 1 < 2 ^ Reg.IMG_NEXT_NEXT.width := by
    show _ < 2 ^ 17
    omega
  exact ((hu _).rd nvjBase Reg.IMG_NEXT_NEXT).trans ((State.rd_wr_same _ _ _ _ (by decide)).trans (Nat.mod_eq_of_lt hlt))

/-! VALIDATE (R50). -/

/-- Bank `b` is being validated. -/
def Machine.State.validating (s : State) (b : Bool) : State :=
  let u := (s.nameBank b).endStaging.modBank b s.takeBase
  ((u.setFlag nvjBase (bankSaved b) (u.bank b).likeSaved).setPhase phValidating).modImg fun i => { i with nextBank := b }

theorem decideValidate_inactive (ho : s.imgOpen = E_OK) (ha : s.isActive b = false) : decideValidate b s = (E_OK, s.validating b) :=
  (if_neg (not_not.mpr ho)).trans (if_neg (ne_true_of_eq_false ha))

/-- Taking a base leaves the bank's own section and whether it is staged. -/
theorem takeBase_section (s : State) (x : Bank) : (s.takeBase x).main = x.main ∧ (s.takeBase x).staging = x.staging := by
  unfold State.takeBase
  split
  · exact ⟨rfl, rfl⟩
  · split <;> exact ⟨rfl, rfl⟩

theorem validating_bank (s : State) (b : Bool) : ((s.validating b).bank b).main = (s.bank b).main ∧ ((s.validating b).bank b).staging = false := by
  obtain ⟨hm, hs⟩ := takeBase_section s ((s.nameBank b).endStaging.bank b)
  simp only [State.validating, bank_setNextBank, bank_setPhase, bank_setFlag, bank_modBank_same, hm, hs]
  simp

theorem validating_imgPhase (s : State) (b : Bool) : (s.validating b).imgPhase = phValidating := by
  unfold State.validating
  rw [modImg_imgPhase, setPhase_imgPhase _ (by decide)]

/-- The verdict of a validation stands in VALID of its bank alone. -/
theorem recordVerdict_valid (s : State) (b : Bool) (v : Verdict) : (s.recordVerdict b v).validBank b = v.passed := by
  unfold State.recordVerdict State.validBank
  cases b <;> simp (disch := decide) only [modBank_flag, flag_wr_apart, flag_setFlag_apart, State.flag_setFlag_same]

theorem recordVerdict_valid_other (s : State) (b : Bool) (v : Verdict) : (s.recordVerdict b v).validBank (!b) = s.validBank (!b) := by
  unfold State.recordVerdict State.validBank
  cases b <;> simp (disch := decide) only [Bool.not_true, Bool.not_false, modBank_flag, flag_wr_apart, flag_setFlag_apart]

/-! BOOT_BANK_READ (R22, R40, R42). -/

/-- A bank's working copy is its saved copy as it reads, or empty. -/
def readCopy (bad : List Nat) (x : Bank) : Bank :=
  if x.savedOk then
    let n := x.savedBase.length
    { x with base := x.savedBase, main := x.savedMain, badBase := bad.filter (· < n), bad := (bad.filter (n ≤ ·)).map (· - n), staging := false }
  else { x with base := [], main := [], bad := [], badBase := [], slots := 0, staging := false }

/-- The verdict on a bank whose copy has been read. -/
def Machine.State.loadVerdict (s : State) (b : Bool) (bad : List Nat) : Verdict := (s.modBank b (readCopy bad)).verdict b

/-- A bank that has been read, its verdict recorded. -/
def Machine.State.loadJudged (s : State) (b : Bool) (bad : List Nat) : State :=
  ((s.modBank b (readCopy bad)).recordVerdict b (s.loadVerdict b bad)).modBank b fun x =>
    { x with savedSlots := if (s.loadVerdict b bad).passed then x.slots else x.savedSlots }

theorem loadBank_eq (s : State) (b : Bool) (bad : List Nat) :
    s.loadBank b bad =
      (((s.loadJudged b bad).setFlag nvjBase (bankSaved b) ((s.loadJudged b bad).bank b).likeSaved).setFlag nvjBase (bankDelta b)
        (secIsDelta ((s.loadJudged b bad).bank b).main)).wr modBase (if b then Reg.MOD_ERR_B1CODE else Reg.MOD_ERR_B0CODE)
        (s.loadVerdict b bad).code.toNat := (rfl)

/-- Behind the verdict a load writes SAVED, DELTA and MOD.ERR. -/
theorem loadBank_rd (s : State) (b : Bool) (bad : List Nat) (g : Field) (hs : Apart nvjBase g nvjBase (bankSaved b))
    (hd : Apart nvjBase g nvjBase (bankDelta b)) (he : nvjBase + g.off ≠ modBase + Reg.MOD_ERR_B0CODE.off) :
    (s.loadBank b bad).rd nvjBase g = ((s.modBank b (readCopy bad)).recordVerdict b (s.loadVerdict b bad)).rd nvjBase g := by
  rw [loadBank_eq, State.rd_wr_apart _ _ _ _ _ _ ?_ ?_, State.rd_setFlag_apart _ _ _ _ _ _ ?_ hd, State.rd_setFlag_apart _ _ _ _ _ _ ?_ hs,
    State.loadJudged, modBank_rd]
  · cases b <;> decide
  · cases b <;> decide
  · cases b <;> decide
  · cases b <;> exact .inl he.symm

theorem loadBank_flag (s : State) (b : Bool) (bad : List Nat) (g : Field) (hs : Apart nvjBase g nvjBase (bankSaved b))
    (hd : Apart nvjBase g nvjBase (bankDelta b)) (he : nvjBase + g.off ≠ modBase + Reg.MOD_ERR_B0CODE.off) :
    (s.loadBank b bad).flag nvjBase g = ((s.modBank b (readCopy bad)).recordVerdict b (s.loadVerdict b bad)).flag nvjBase g := by
  rw [State.flag, loadBank_rd s b bad g hs hd he, State.flag]

theorem loadBank_valid (s : State) (b : Bool) (bad : List Nat) : (s.loadBank b bad).validBank b = (s.loadVerdict b bad).passed := by
  refine (loadBank_flag s b bad _ ?_ ?_ ?_).trans (recordVerdict_valid _ _ _) <;> cases b <;> decide

theorem loadBank_valid_other (s : State) (b : Bool) (bad : List Nat) : (s.loadBank b bad).validBank (!b) = s.validBank (!b) := by
  refine (loadBank_flag s b bad _ ?_ ?_ ?_).trans (recordVerdict_valid_other _ _ _) <;> cases b <;> decide

theorem loadBank_regs (s : State) (b : Bool) (bad : List Nat) :
    RegsBut [nvjBase + Reg.IMG_STATUS_PHASE.off, nvjBase + Reg.IMG_FAILREC_INDEX.off, modBase + Reg.MOD_ERR_B0CODE.off] s (s.loadBank b bad) := by
  rw [loadBank_eq]
  exact (RegsBut.refl _ s).modBank.setValid.modBank.wr.setFlag.wr.modBank.setSaved.setDelta.wr (by cases b <;> decide)

theorem loadBank_bootBank (s : State) (b : Bool) (bad : List Nat) : (s.loadBank b bad).bootBank = s.bootBank := by
  refine (loadBank_flag s b bad _ ?_ ?_ ?_).trans ?_
  · cases b <;> decide
  · cases b <;> decide
  · decide
  · unfold State.recordVerdict State.bootBank
    cases b <;> simp (disch := decide) only [modBank_flag, flag_wr_apart, flag_setFlag_apart]

theorem loadBank_imgPhase (s : State) (b : Bool) (bad : List Nat) : (s.loadBank b bad).imgPhase = s.imgPhase := by
  refine (loadBank_rd s b bad _ ?_ ?_ ?_).trans ?_
  · cases b <;> decide
  · cases b <;> decide
  · decide
  · unfold State.recordVerdict State.imgPhase
    cases b <;> simp (disch := decide) only [modBank_rd, State.rd_wr_apart, State.rd_setFlag_apart]

theorem loadBank_main (s : State) (b : Bool) (bad : List Nat) : ((s.loadBank b bad).bank b).main = (readCopy bad (s.bank b)).main := by
  simp [loadBank_eq, State.loadJudged, State.recordVerdict]

theorem loadBank_bank_other (s : State) (b : Bool) (bad : List Nat) : (s.loadBank b bad).bank (!b) = s.bank (!b) := by
  simp [loadBank_eq, State.loadJudged, State.recordVerdict]

theorem loadBank_mst (s : State) (b : Bool) (bad : List Nat) : (s.loadBank b bad).mst = s.mst := (loadBank_regs s b bad).rd _ _

/-- A bank without records fails its check. -/
theorem validateBank_of_no_record (x : Bank) (hb : x.base = []) (hm : x.main = []) (h0 : x.bad = []) (h1 : x.badBase = []) (active : Nat → Bool)
    (keys : List (BitVec 256)) (mode addr wanted : Nat) : (validateBank x active keys mode addr wanted).passed = false := by
  have hc : stageCheck x.badBase x.bad x.base x.main = ⟨E_IMG_CHECK, 1, secIsDelta [], 0⟩ := by
    rw [hb, hm, h0, h1]
    rfl
  simp [validateBank, firstOf, hc, Verdict.passed]

/-- A bank without a saved copy is empty, and not valid, once it has been read. -/
theorem loadBank_unsaved (s : State) (b : Bool) (bad : List Nat) (h : (s.bank b).savedOk = false) :
    (s.loadBank b bad).validBank b = false ∧ ((s.loadBank b bad).bank b).main = [] := by
  have hr : readCopy bad (s.bank b) = { s.bank b with base := [], main := [], bad := [], badBase := [], slots := 0, staging := false } :=
    if_neg (ne_true_of_eq_false h)
  constructor
  · rw [loadBank_valid, State.loadVerdict, State.verdict, bank_modBank_same, hr]
    exact validateBank_of_no_record _ rfl rfl rfl rfl _ _ _ _ _
  · rw [loadBank_main, hr]

/-- The journal words that a load met are counted in registers of their own. -/
theorem countLoad_regs (s : State) (m n : Nat) :
    RegsBut [nvjBase + Reg.NVJ_ECC1_CORR1.off, nvjBase + Reg.NVJ_ECC2_UNCORR.off, nvjBase + Reg.IMG_CORR_CORR.off] s (s.countLoad m n) := by
  have hd : RegsBut [nvjBase + Reg.NVJ_ECC1_CORR1.off, nvjBase + Reg.NVJ_ECC2_UNCORR.off, nvjBase + Reg.IMG_CORR_CORR.off] s s.draw.2.draw.2 :=
    RegsBut.refl _ s
  unfold State.countLoad
  exact hd.bumpBy.bumpBy.bumpBy.bumpBy.bumpBy

theorem countLoad_img (s : State) (m n : Nat) : (s.countLoad m n).img = s.img := by
  unfold State.countLoad State.draw
  simp

/-- Both banks have been read, and what was met is counted. -/
def Machine.State.banksRead (s : State) (bad0 bad1 : List Nat) (n : BitVec 16) : State :=
  ((s.loadBank false bad0).loadBank true bad1).countLoad n.toNat (bad0.length + bad1.length)

theorem bootBankRead_loading {bad0 bad1 : List Nat} {n : BitVec 16} (hm : s.mst = stLoad) (hp : s.imgPhase = phIdle) (hc : s.img.committed = false)
    (hd : s.dutyUp 1 = true) :
    exec (.bootBankRead bad0 bad1 n) s = done (
      let u := s.banksRead bad0 bad1 n
      if u.validBank u.bootBank then u.prepare u.bootBank false 0
      else if u.validBank (!u.bootBank) then
        ((u.commitTxn (controlHome Config.bootPlace) .clean).2.setFlag nvjBase Reg.IMG_STATUS_BOOT (!u.bootBank)).prepare (!u.bootBank) false 0
      else u) := by
  have h : ¬ (s.mst ≠ stLoad ∨ s.imgPhase ≠ phIdle ∨ s.img.committed = true ∨ (!s.dutyUp 1) = true) := by simp [hm, hp, hc, hd]
  exact congrArg done (if_neg h)

section

variable (s : State) (bad0 bad1 : List Nat) (n : BitVec 16)

theorem banksRead_imgPhase : (s.banksRead bad0 bad1 n).imgPhase = s.imgPhase :=
  ((countLoad_regs _ _ _).rd _ _).trans ((loadBank_imgPhase _ _ _).trans (loadBank_imgPhase _ _ _))

theorem banksRead_mst : (s.banksRead bad0 bad1 n).mst = s.mst :=
  ((countLoad_regs _ _ _).rd _ _).trans ((loadBank_mst _ _ _).trans (loadBank_mst _ _ _))

theorem banksRead_bootBank : (s.banksRead bad0 bad1 n).bootBank = s.bootBank :=
  ((countLoad_regs _ _ _).flag _ _).trans ((loadBank_bootBank _ _ _).trans (loadBank_bootBank _ _ _))

theorem banksRead_valid (b : Bool) : (s.banksRead bad0 bad1 n).validBank b = ((s.loadBank false bad0).loadBank true bad1).validBank b := by
  cases b <;> exact (countLoad_regs _ _ _).flag _ _

theorem banksRead_bank (b : Bool) : (s.banksRead bad0 bad1 n).bank b = ((s.loadBank false bad0).loadBank true bad1).bank b := by
  rw [State.bank, State.banksRead, countLoad_img, State.bank]

/-- With no saved copy both banks are empty and none is valid. -/
theorem banksRead_unsaved (h0 : s.img.b0.savedOk = false) (h1 : s.img.b1.savedOk = false) (b : Bool) :
    (s.banksRead bad0 bad1 n).validBank b = false ∧ ((s.banksRead bad0 bad1 n).bank b).main = [] := by
  rw [banksRead_valid, banksRead_bank]
  cases b with
  | true => exact loadBank_unsaved _ true _ ((congrArg Bank.savedOk (loadBank_bank_other s false bad0)).trans h1)
  | false =>
    obtain ⟨hv, hm⟩ := loadBank_unsaved s false bad0 h0
    exact ⟨(loadBank_valid_other (s.loadBank false bad0) true bad1).trans hv,
      (congrArg Bank.main (loadBank_bank_other (s.loadBank false bad0) true bad1)).trans hm⟩

end

/-! Preparation of a bank (R52). -/

theorem prepare_imgPhase (s : State) (b a : Bool) (w : Word) : (s.prepare b a w).imgPhase = phPreparing := by
  unfold State.prepare
  rw [modImg_imgPhase, setPhase_imgPhase _ (by decide)]

theorem prepare_regs (s : State) (b a : Bool) (w : Word) : RegsBut [nvjBase + Reg.IMG_STATUS_PHASE.off] s (s.prepare b a w) :=
  (RegsBut.refl _ s).setPhase.modImg

theorem prepare_mst (s : State) (b a : Bool) (w : Word) : (s.prepare b a w).mst = s.mst := (prepare_regs s b a w).rd _ _

theorem prepare_img (s : State) (b a : Bool) (w : Word) :
    (s.prepare b a w).img = { s.img with next := s.effective b, nextBank := b, atStroke := a, atNo := w } := (rfl)

/-! The obligation. -/

theorem bootBankRead_valid {bad0 bad1 : List Nat} {n : BitVec 16} (hm : s.mst = stLoad) (hp : s.imgPhase = phIdle) (hc : s.img.committed = false)
    (hd : s.dutyUp 1 = true) (hv : ((s.loadBank false bad0).loadBank true bad1).validBank s.bootBank = true) :
    Answers (.bootBankRead bad0 bad1 n) s fun t => t.imgPhase = phPreparing ∧ t.img.nextBank = s.bootBank ∧ t.img.atStroke = false ∧ t.mst = stLoad := by
  have hb := banksRead_bootBank s bad0 bad1 n
  have hv' : (s.banksRead bad0 bad1 n).validBank (s.banksRead bad0 bad1 n).bootBank = true := by rw [hb, banksRead_valid, hv]
  refine ⟨_, (bootBankRead_loading hm hp hc hd).trans (done_of_true hv' _ _), ?_⟩
  refine ⟨?_, ?_, ?_, ?_⟩
  · rw [settle_imgPhase, prepare_imgPhase]
  · rw [State.settle_img, prepare_img, hb]
  · rw [State.settle_img, prepare_img]
  · rw [State.settle_mst, prepare_mst, banksRead_mst, hm]

theorem bootBankRead_unsaved {bad0 bad1 : List Nat} {n : BitVec 16} (hm : s.mst = stLoad) (hp : s.imgPhase = phIdle) (hc : s.img.committed = false)
    (hd : s.dutyUp 1 = true) (h0 : s.img.b0.savedOk = false) (h1 : s.img.b1.savedOk = false) :
    Answers (.bootBankRead bad0 bad1 n) s fun t =>
      t.imgPhase = phIdle ∧ t.mst = stLoad ∧ t.validBank false = false ∧ t.validBank true = false ∧ t.img.b0.main = [] ∧ t.img.b1.main = [] := by
  have hu := banksRead_unsaved s bad0 bad1 n h0 h1
  obtain ⟨hv0, hm0⟩ := hu false
  obtain ⟨hv1, hm1⟩ := hu true
  refine ⟨(s.banksRead bad0 bad1 n).settle, ?_, ?_⟩
  · rw [bootBankRead_loading hm hp hc hd]
    exact (done_of_false (hu _).1 _ _).trans (congrArg _ (congrArg State.settle (if_neg (ne_true_of_eq_false (hu _).1))))
  · refine ⟨?_, ?_, ?_, ?_, ?_, ?_⟩
    · rw [settle_imgPhase, banksRead_imgPhase, hp]
    · rw [State.settle_mst, banksRead_mst, hm]
    · rw [settle_validBank, hv0]
    · rw [settle_validBank, hv1]
    · rw [State.settle_img]; exact hm0
    · rw [State.settle_img]; exact hm1

theorem imgOpen_stages (h : Served s p) (ho : s.imgOpen = E_OK) (ha : s.isActive b = false) :
    Answers (.imgOpen p b) s fun t =>
      t.imgPhase = phStaging ∧ t.validBank b = false ∧ t.flag nvjBase (bankSaved b) = false ∧ (t.bank b).main = [] ∧ (t.bank b).staging = true ∧
      (t.bank (!b)).staging = false ∧ t.rd nvjBase Reg.IMG_NEXT_NEXT = 0 ∧ t.outbox = s.outbox ++ [.result p E_OK] ∧
      RegsKept [nvjBase + Reg.IMG_CTRL_BANK.off, nvjBase + Reg.IMG_STATUS_PHASE.off, nvjBase + Reg.IMG_NEXT_NEXT.off] s t := by
  refine ⟨_, imgOpen_inactive h ho ha, ?_⟩
  have hr := (opened_regs s b).answered (p := p) (c := E_OK)
  have hout : (s.opened b).outbox = s.outbox := by simp [State.opened]
  simpa [opened_imgPhase, opened_valid, opened_saved, opened_bank, opened_bank_other, opened_next, hout] using hr

theorem recordUnit_staged {u : BitVec 288} (h : Served s p) (hm : s.mst ∈ [stLoad, stReady, stRun, stService]) (hp : s.imgPhase < phValidating)
    (hb : s.stagingBank = some b) (hr : (unitWord u (s.bank b).main.length).1.bad = false) (hn : (s.bank b).main.length < 65536)
    (hz : u.extractLsb' 276 12 = 0) :
    Answers (.recordUnit p u) s fun t =>
      (t.bank b).main = (s.bank b).main ++ [(unitWord u (s.bank b).main.length).2] ∧
      t.rd nvjBase Reg.IMG_NEXT_NEXT = (s.bank b).main.length + 1 ∧ t.outbox = s.outbox ++ [.result p E_OK] ∧ t.bank (!b) = s.bank (!b) := by
  refine ⟨_, command_decides h (decideUnit_staged hm hp hb hr hn hz), ?_⟩
  simp [recorded_bank, recorded_bank_other, recorded_next _ _ _ hn, recorded_outbox]

theorem imgValidate_inactive (h : Served s p) (ho : s.imgOpen = E_OK) (ha : s.isActive b = false) :
    Answers (.imgValidate p b) s fun t =>
      t.imgPhase = phValidating ∧ t.img.nextBank = b ∧ (t.bank b).main = (s.bank b).main ∧ (t.bank b).staging = false ∧
      t.outbox = s.outbox ++ [.result p E_OK] := by
  have hnext : (s.validating b).img.nextBank = b := by simp [State.validating]
  have hout : (s.validating b).outbox = s.outbox := by simp [State.validating]
  refine ⟨_, command_decides h (decideValidate_inactive ho ha), ?_⟩
  simp [validating_imgPhase, validating_bank, hnext, hout]

theorem openComplete_ends (hp : s.imgPhase = phStaging) (hd : s.dutyUp 1 = true) :
    Answers .openComplete s fun t =>
      t.imgPhase = phIdle ∧ t.rd nvjBase Reg.IMG_STATUS_RESULT = 0 ∧ t.img = s.img ∧ RegsKept [nvjBase + Reg.IMG_STATUS_PHASE.off] s t := by
  have hr : RegsBut [nvjBase + Reg.IMG_STATUS_PHASE.off] s (s.endOp E_OK) := (RegsBut.refl _ s).endOp
  refine ⟨_, openComplete_staging hp hd, ?_⟩
  simp only [settle_imgPhase, endOp_imgPhase, settle_result, endOp_result, State.settle_img, endOp_img, true_and]
  exact ⟨rfl, hr.settled⟩

theorem validateComplete_judges (hp : s.imgPhase = phValidating) (hd : s.dutyUp 1 = true) :
    Answers .validateComplete s fun t =>
      t.imgPhase = phIdle ∧ t.validBank s.img.nextBank = (s.verdict s.img.nextBank).passed ∧
      t.rd nvjBase Reg.IMG_STATUS_RESULT = (s.verdict s.img.nextBank).code.toNat ∧ t.validBank (!s.img.nextBank) = s.validBank (!s.img.nextBank) := by
  refine ⟨_, validateComplete_validating hp hd, ?_⟩
  simp [recordVerdict_valid, recordVerdict_valid_other]

/-- Settles O6, operation by operation. -/
theorem imageBanksAreStagedAndValidated : Obligations.ImageBanksAreStagedAndValidated := by
  unfold Obligations.ImageBanksAreStagedAndValidated
  exact ⟨fun _ _ _ _ => bootBankRead_valid, fun _ _ _ _ => bootBankRead_unsaved, fun _ _ _ => imgOpen_stages,
    fun _ _ _ h ho ha => command_decides h (decideOpen_active ho ha), fun _ => openComplete_ends, fun _ _ _ _ => recordUnit_staged,
    fun _ _ _ => imgValidate_inactive, fun _ => validateComplete_judges⟩

end Sys2Proof
end

