-- ==== Sys2Proof/Proofs/JournalWrites.lean ====
section
/-! Journal writes and transactions (R386 to R392): what one that wears no block out changes, and what every one leaves of the image store and
the keys. -/

namespace Sys2Proof

open Sys2Proof.Machine

variable {s t u : State} {α : Type} {homes blocks : List Nat} {o : NvOutcome}

/-! Changes of the journal alone. -/

/-- `t` is `s` with another journal, shown in the journal's registers. -/
structure JournalOnly (s t : State) : Prop where
  parts : ∃ j r, t = { s with jrn := j, regs := r }
  regs : RegsBut journalRegs s t

namespace JournalOnly

theorem refl (s : State) : JournalOnly s s := ⟨⟨s.jrn, s.regs, rfl⟩, .refl _ s⟩

theorem trans (h : JournalOnly s t) (h' : JournalOnly t u) : JournalOnly s u := by
  obtain ⟨⟨j, r, rfl⟩, hr⟩ := h
  obtain ⟨⟨j', r', rfl⟩, hr'⟩ := h'
  exact ⟨⟨j', r', rfl⟩, hr.trans hr'⟩

theorem modJrn {f : JournalSt → JournalSt} (h : JournalOnly s t) : JournalOnly s (t.modJrn f) := by
  obtain ⟨⟨j, r, rfl⟩, hr⟩ := h
  exact ⟨⟨_, r, rfl⟩, hr.modJrn⟩

theorem setReg {a : Nat} {v : Word} (h : JournalOnly s t) (ha : a ∈ journalRegs := by decide) : JournalOnly s (t.setReg a v) := by
  obtain ⟨⟨j, r, rfl⟩, hr⟩ := h
  exact ⟨⟨j, _, rfl⟩, hr.setReg ha⟩

theorem wr {b : Nat} {f : Field} {v : Nat} (h : JournalOnly s t) (ha : b + f.off ∈ journalRegs := by decide) : JournalOnly s (t.wr b f v) := h.setReg ha
theorem wrw {b : Nat} {f : Field} {v : Word} (h : JournalOnly s t) (ha : b + f.off ∈ journalRegs := by decide) : JournalOnly s (t.wrw b f v) := h.setReg ha
theorem bumpBy {b : Nat} {f : Field} {n : Nat} (h : JournalOnly s t) (ha : b + f.off ∈ journalRegs := by decide) : JournalOnly s (t.bumpBy b f n) := h.wr ha

theorem when {c : Bool} {f : State → State} (h : JournalOnly s t) (hf : ∀ u, JournalOnly s u → JournalOnly s (f u)) : JournalOnly s (t.when c f) := by
  cases c
  · exact h
  · exact hf t h

theorem foldl {f : State → α → State} {m : List α} (h : JournalOnly s t) (hf : ∀ u a, JournalOnly s u → JournalOnly s (f u a)) :
    JournalOnly s (m.foldl f t) := by
  induction m generalizing t with
  | nil => exact h
  | cons a m ih => exact ih (hf t a h)

/-! What stays. -/

theorem img (h : JournalOnly s t) : t.img = s.img := by obtain ⟨⟨j, r, rfl⟩, -⟩ := h; rfl
theorem fab (h : JournalOnly s t) : t.fab = s.fab := by obtain ⟨⟨j, r, rfl⟩, -⟩ := h; rfl
theorem outbox (h : JournalOnly s t) : t.outbox = s.outbox := by obtain ⟨⟨j, r, rfl⟩, -⟩ := h; rfl
theorem pwr (h : JournalOnly s t) : t.pwr = s.pwr := by obtain ⟨⟨j, r, rfl⟩, -⟩ := h; rfl
theorem bank (h : JournalOnly s t) (b : Bool) : t.bank b = s.bank b := by rw [State.bank, h.img, State.bank]
theorem mst (h : JournalOnly s t) : t.mst = s.mst := h.regs.rd _ _
theorem imgPhase (h : JournalOnly s t) : t.imgPhase = s.imgPhase := h.regs.rd _ _

/-! The parts of a write. -/

theorem showWear (h : JournalOnly s t) : JournalOnly s t.showWear := h.wrw.wrw

theorem wearBlocks {blocks : List Nat} (h : JournalOnly s t) : JournalOnly s (t.wearBlocks blocks) := (h.foldl fun _ _ h => h.modJrn).showWear

theorem setPend {m : List Nat} (h : JournalOnly s t) : JournalOnly s (t.setPend m) := h.modJrn.wr

end JournalOnly

/-! Writes that wear no block out (R388). -/

/-- The blocks are written; `n` verifications failed on the way. -/
def Machine.State.written (s : State) (blocks : List Nat) (n : Nat) : State :=
  ((s.bumpBy nvjBase Reg.NVJ_WCNT_VFAIL n).wearBlocks blocks).modJrn fun j => { j with worn := [].filter (fun b => !j.worn.contains b) ++ j.worn }

theorem journalOnly_written (s : State) (blocks : List Nat) (n : Nat) : JournalOnly s (s.written blocks n) :=
  (JournalOnly.refl s).bumpBy.wearBlocks.modJrn

theorem nvWrite_of_unwritable (hw : s.writable blocks = false) : s.nvWrite blocks o = (false, s) := if_pos (by rw [hw]; rfl)

theorem nvWrite_of_unworn (hw : s.writable blocks = true) (hn : ∀ b ∈ blocks, b ∉ o.worn) : s.nvWrite blocks o = (true, s.written blocks (max o.fails 0)) := by
  have hf : o.worn.eraseDups.filter blocks.contains = [] := by
    refine List.filter_eq_nil_iff.mpr fun b hb hc => ?_
    exact hn b (List.contains_iff_mem.mp hc) (List.mem_eraseDups.mp hb)
  unfold State.nvWrite
  rw [hw]
  simp only [hf, Bool.not_true, Bool.false_eq_true, if_false, List.isEmpty_nil, if_true, List.length_nil, Nat.mul_zero]
  rfl

theorem nvWrite_clean (s : State) (blocks : List Nat) : JournalOnly s (s.nvWrite blocks .clean).2 := by
  cases hw : s.writable blocks
  · rw [nvWrite_of_unwritable hw]
    exact .refl s
  · rw [nvWrite_of_unworn hw fun _ _ => List.not_mem_nil]
    exact journalOnly_written _ _ _

theorem applyPend_clean (s : State) (n : Nat) : JournalOnly s (s.applyPend n .clean) := (nvWrite_clean s _).modJrn.setPend

/-! Transactions (R386, R387). -/

/-- The room that a transaction of `n` granules needs is made. -/
def Machine.State.makeRoom (s : State) (n : Nat) : State :=
  s.when (8192 < s.jrn.pend.length + n) fun s => s.applyPend (s.jrn.pend.length + n - 8192) .clean

theorem journalOnly_makeRoom (s : State) (n : Nat) : JournalOnly s (s.makeRoom n) := by
  unfold State.makeRoom
  cases decide (8192 < s.jrn.pend.length + n)
  · exact .refl s
  · exact applyPend_clean s _

theorem makeRoom_of_room {n : Nat} (h : s.jrn.pend.length + n ≤ 8192) : s.makeRoom n = s := if_neg (by simpa using h)

/-- The granules and the commit record stand in the log. -/
def Machine.State.logged (s : State) (homes : List Nat) : State :=
  (s.modJrn fun j => { j with logAt := (j.logAt + homes.length + 1) % (128 * blockGranules) }).setPend (s.jrn.pend ++ homes)

/-- What a transaction asks for before it is written. -/
def Machine.State.refusesTxn (s : State) (homes : List Nat) : Bool := !s.journalUp || decide (8192 < homes.length) || !s.writable (blocksOf homes)

/-- The write of a transaction's granules and of its commit record to the log. -/
def Machine.State.txnWrite (s : State) (homes : List Nat) (o : NvOutcome) : Bool × State :=
  (s.makeRoom homes.length).nvWrite ((s.makeRoom homes.length).logBlocks (homes.length + 1)) o

theorem commitTxn_eq (s : State) (homes : List Nat) (o : NvOutcome) :
    s.commitTxn homes o = if s.refusesTxn homes then (E_NV_FAIL, s)
      else if (s.txnWrite homes o).1 then (E_OK, (s.txnWrite homes o).2.logged homes) else (E_NV_FAIL, (s.txnWrite homes o).2) := by
  have key : ∀ r : Bool × State, (match r with
      | (false, s) => (E_NV_FAIL, s)
      | (true, s) => (E_OK, s.logged homes)) = if r.1 then (E_OK, r.2.logged homes) else (E_NV_FAIL, r.2) := by rintro ⟨_ | _, u⟩ <;> rfl
  unfold State.commitTxn State.refusesTxn
  split
  · rfl
  · exact key (s.txnWrite homes o)

/-- A transaction is refused as it stands, fails as its writes do, or is committed. -/
theorem commitTxn_cases (s : State) (homes : List Nat) (o : NvOutcome) :
    s.commitTxn homes o = (E_NV_FAIL, s) ∨ s.commitTxn homes o = (E_NV_FAIL, (s.txnWrite homes o).2) ∨
      s.commitTxn homes o = (E_OK, (s.txnWrite homes o).2.logged homes) := by
  rw [commitTxn_eq]
  split
  · exact .inl rfl
  · split
    · exact .inr (.inr rfl)
    · exact .inr (.inl rfl)

theorem commitTxn_code (h : (s.commitTxn homes o).1 ≠ E_OK) : (s.commitTxn homes o).1 = E_NV_FAIL := by
  rcases commitTxn_cases s homes o with e | e | e
  · rw [e]
  · rw [e]
  · exact absurd (congrArg Prod.fst e) h

theorem journalOnly_logged {homes : List Nat} (h : JournalOnly s t) : JournalOnly s (t.logged homes) := h.modJrn.setPend

theorem commitTxn_clean (s : State) (homes : List Nat) : JournalOnly s (s.commitTxn homes .clean).2 := by
  have hw := (journalOnly_makeRoom s homes.length).trans (nvWrite_clean _ ((s.makeRoom homes.length).logBlocks (homes.length + 1)))
  rcases commitTxn_cases s homes .clean with e | e | e <;> rw [e]
  · exact .refl s
  · exact hw
  · exact journalOnly_logged hw

/-- A transaction that the journal takes at once is committed where its writes wear out no block of the log. -/
theorem commitTxn_taken (h : JournalTakes s homes) (hn : ∀ b ∈ s.logBlocks (homes.length + 1), b ∉ o.worn) :
    (s.commitTxn homes o).1 = E_OK ∧ JournalOnly s (s.commitTxn homes o).2 := by
  obtain ⟨hup, hroom, hhome, hlog⟩ := h
  have hgate : ¬ s.refusesTxn homes = true := by
    have hl : ¬ 8192 < homes.length := by omega
    simp [State.refusesTxn, hup, hl, hhome]
  have hw : s.txnWrite homes o = (true, s.written (s.logBlocks (homes.length + 1)) (max o.fails 0)) := by
    rw [State.txnWrite, makeRoom_of_room hroom, nvWrite_of_unworn hlog hn]
  rw [commitTxn_eq, if_neg hgate, hw]
  exact ⟨rfl, journalOnly_logged (journalOnly_written _ _ _)⟩

/-! What every journal write leaves of the image store and the keys, whatever it wears out (R391, R392). -/

/-- `t` holds of the image store and the keys what `s` held, but that a saved copy may have been given up (R392). -/
structure StoreKept (s t : State) : Prop where
  boot : t.bootBank = s.bootBank
  keyState : t.reg (nvjBase + Reg.KEY_STATE_SLOT0.off) = s.reg (nvjBase + Reg.KEY_STATE_SLOT0.off)
  keys : t.img.keys = s.img.keys
  main : ∀ b, (t.bank b).main = (s.bank b).main
  saved : ∀ b, s.flag nvjBase (bankSaved b) = false → t.flag nvjBase (bankSaved b) = false
  savedOk : ∀ b, (s.bank b).savedOk = false → (t.bank b).savedOk = false
  outbox : t.outbox = s.outbox

/-- The registers of which it speaks. -/
def storeRegs : List Nat := [nvjBase + Reg.IMG_STATUS_BOOT.off, nvjBase + Reg.KEY_STATE_SLOT0.off]

namespace StoreKept

theorem refl (s : State) : StoreKept s s := ⟨rfl, rfl, rfl, fun _ => rfl, fun _ h => h, fun _ h => h, rfl⟩

theorem trans (h : StoreKept s t) (h' : StoreKept t u) : StoreKept s u :=
  ⟨h'.boot.trans h.boot, h'.keyState.trans h.keyState, h'.keys.trans h.keys, fun b => (h'.main b).trans (h.main b),
    fun b hb => h'.saved b (h.saved b hb), fun b hb => h'.savedOk b (h.savedOk b hb), h'.outbox.trans h.outbox⟩

/-- A change of no bank and no key, and of no register of theirs. -/
theorem of_regs (hr : ∀ a ∈ storeRegs, t.reg a = s.reg a) (hi : t.img = s.img) (ho : t.outbox = s.outbox) : StoreKept s t := by
  have h0 := hr _ (List.mem_cons_self)
  have hb : ∀ b, t.bank b = s.bank b := fun b => by rw [State.bank, hi, State.bank]
  have hs : ∀ b, t.flag nvjBase (bankSaved b) = s.flag nvjBase (bankSaved b) := fun b => by
    cases b <;> exact congrArg (fun w => getField w _ _ == 1) h0
  exact ⟨congrArg (fun w => getField w _ _ == 1) h0, hr _ (by decide), by rw [hi], fun b => by rw [hb], fun b h => by rw [hs, h],
    fun b h => by rw [hb, h], ho⟩

theorem modJrn {f : JournalSt → JournalSt} (h : StoreKept s t) : StoreKept s (t.modJrn f) := h.trans (of_regs (fun _ _ => rfl) rfl rfl)
theorem modRec {f : RecSt → RecSt} (h : StoreKept s t) : StoreKept s (t.modRec f) := h.trans (of_regs (fun _ _ => rfl) rfl rfl)

theorem setReg {a : Nat} {v : Word} (h : StoreKept s t) (ha : a ∉ storeRegs := by decide) : StoreKept s (t.setReg a v) :=
  h.trans (of_regs (fun b hb => by rw [State.reg_setReg, if_neg fun e : b = a => ha (e ▸ hb)]) rfl rfl)

theorem wr {b : Nat} {f : Field} {v : Nat} (h : StoreKept s t) (ha : b + f.off ∉ storeRegs := by decide) : StoreKept s (t.wr b f v) := h.setReg ha
theorem wrw {b : Nat} {f : Field} {v : Word} (h : StoreKept s t) (ha : b + f.off ∉ storeRegs := by decide) : StoreKept s (t.wrw b f v) := h.setReg ha
theorem setFlag {b : Nat} {f : Field} {v : Bool} (h : StoreKept s t) (ha : b + f.off ∉ storeRegs := by decide) : StoreKept s (t.setFlag b f v) := h.wr ha
theorem bumpBy {b : Nat} {f : Field} {n : Nat} (h : StoreKept s t) (ha : b + f.off ∉ storeRegs := by decide) : StoreKept s (t.bumpBy b f n) := h.wr ha
theorem bump {b : Nat} {f : Field} (h : StoreKept s t) (ha : b + f.off ∉ storeRegs := by decide) : StoreKept s (t.bump b f) := h.wr ha

protected theorem ite {c : Prop} [Decidable c] (ht : StoreKept s t) (hu : StoreKept s u) : StoreKept s (if c then t else u) := by
  split
  · exact ht
  · exact hu

theorem ifThen {c : Prop} [Decidable c] (h : StoreKept s t) (hu : StoreKept s t → StoreKept s u) : StoreKept s (if c then u else t) := .ite (hu h) h

protected theorem pair {a : α} (h : StoreKept s t) : StoreKept s (a, t).2 := h

theorem iteSnd {c : Prop} [Decidable c] {p q : α × State} (hp : StoreKept s p.2) (hq : StoreKept s q.2) : StoreKept s (if c then p else q).2 := by
  split
  · exact hp
  · exact hq

theorem when {c : Bool} {f : State → State} (h : StoreKept s t) (hf : ∀ u, StoreKept s u → StoreKept s (f u)) : StoreKept s (t.when c f) := .ite (hf t h) h

theorem foldl {f : State → α → State} {m : List α} (h : StoreKept s t) (hf : ∀ u a, StoreKept s u → StoreKept s (f u a)) :
    StoreKept s (m.foldl f t) := by
  induction m generalizing t with
  | nil => exact h
  | cons a m ih => exact ih (hf t a h)

/-! A bank gives its saved copy up (R392). -/

theorem clearSaved (h : StoreKept s t) (b : Bool) : StoreKept s (t.setFlag nvjBase (bankSaved b) false) := by
  refine h.trans ⟨?_, ?_, rfl, fun _ => rfl, fun c hc => ?_, fun c hc => hc, rfl⟩
  · cases b <;> exact flag_setFlag_apart _ _ _ _ _ _ (by decide) (by decide)
  · cases b <;> exact State.reg_wr_of_ne _ _ _ _ _ (by decide)
  · cases b <;> cases c <;> simp (disch := decide) only [State.flag_setFlag_same, flag_setFlag_apart, hc]

theorem modBank {b : Bool} {f : Bank → Bank} (h : StoreKept s t) (hm : ∀ x, (f x).main = x.main) (hs : ∀ x, (f x).savedOk = false) :
    StoreKept s (t.modBank b f) := by
  refine h.trans ⟨rfl, rfl, ?_, fun c => ?_, fun _ hc => hc, fun c hc => ?_, rfl⟩
  · cases b <;> rfl
  · rw [bank_modBank]
    split
    · exact hm _
    · rfl
  · rw [bank_modBank]
    split
    · exact hs _
    · exact hc

theorem dropBootUpdate (h : StoreKept s t) : StoreKept s (t.modImg fun i => { i with bootUpdate := false }) :=
  h.trans ⟨rfl, rfl, rfl, fun b => by cases b <;> rfl, fun _ h => h, fun b h => by cases b <;> exact h, rfl⟩

/-! The operations, in the order of `Machine/Blocks.lean`. -/

theorem occur {src index : Nat} {mag : Rat} {key sig : Nat} (h : StoreKept s t) : StoreKept s (t.occur src index mag key sig) := .ite h.bump h.modRec

theorem recShrink {b : Nat} (h : StoreKept s t) : StoreKept s (t.recShrink b) :=
  ((h.when fun _ h => h.setFlag).bumpBy.modRec.wr.wr).ifThen fun h => h.wr

theorem showWear (h : StoreKept s t) : StoreKept s t.showWear := h.wrw.wrw

theorem wearBlocks {blocks : List Nat} (h : StoreKept s t) : StoreKept s (t.wearBlocks blocks) := (h.foldl fun _ _ h => h.modJrn).showWear

theorem countRetire (h : StoreKept s t) : StoreKept s t.countRetire := h.bump.bump.occur

theorem degrade (h : StoreKept s t) : StoreKept s t.degrade := by
  unfold State.degrade
  refine .ite h (.occur (.dropBootUpdate (.modBank (.clearSaved ?_ _) (fun _ => rfl) fun _ => rfl)))
  exact h.setFlag.setFlag

theorem replaceBlock {b p n : Nat} (h : StoreKept s t) : StoreKept s (t.replaceBlock b p n) := h.modJrn.modJrn.modJrn.countRetire.showWear

theorem donate {b donor p n : Nat} (h : StoreKept s t) : StoreKept s (t.donate b donor p n) := .ite h.countRetire.showWear h.replaceBlock

theorem retire {b : Nat} (h : StoreKept s t) : StoreKept s (t.retire b) := by
  unfold State.retire
  refine .ite (h.wr.replaceBlock.ifThen fun h => h.setFlag.setFlag.occur) (.ite h.modJrn.wr.recShrink.donate ?_)
  split
  · exact h.modJrn.wr.degrade.donate
  · exact h.modJrn

theorem nvWrite {blocks : List Nat} {o : NvOutcome} (h : StoreKept s t) : StoreKept s (t.nvWrite blocks o).2 := by
  have hw : ∀ m n, StoreKept s (((t.bumpBy nvjBase Reg.NVJ_WCNT_VFAIL n).wearBlocks blocks).modJrn m) := fun _ _ => h.bumpBy.wearBlocks.modJrn
  unfold State.nvWrite
  refine .iteSnd h (.iteSnd (.pair (hw _ _)) (.iteSnd (.pair (hw _ _)) (.iteSnd (.pair (.wearBlocks ?_)) (.pair ?_))))
  · exact (hw _ _).foldl fun _ _ h => h.retire
  · exact (hw _ _).foldl fun _ _ h => h.retire

theorem setPend {m : List Nat} (h : StoreKept s t) : StoreKept s (t.setPend m) := h.modJrn.wr

theorem applyPend {n : Nat} {o : NvOutcome} (h : StoreKept s t) : StoreKept s (t.applyPend n o) := h.nvWrite.modJrn.setPend

theorem commitTxn {homes : List Nat} {o : NvOutcome} (h : StoreKept s t) : StoreKept s (t.commitTxn homes o).2 := by
  have hw : StoreKept s (t.txnWrite homes o).2 := StoreKept.nvWrite (h.when fun _ h => h.applyPend)
  rcases commitTxn_cases t homes o with e | e | e <;> rw [e]
  · exact h
  · exact hw
  · exact hw.modJrn.setPend

end StoreKept

end Sys2Proof
end

