-- ==== Sys2Proof/Proofs/KeySlots.lean ====
section
/-! The key slots (R39, R64): what their commands decide, in the state they meet and in the one that the journal's transaction leaves. -/

namespace Sys2Proof

open Sys2Proof.Machine

variable {s t : State} {p : Port} {slot : Nat} {key : BitVec 256} {homes : List Nat} {o : NvOutcome}

/-! Decisions that the journal keeps (R386). -/

section

variable {f : State → Code × State}

theorem journaled_refused (hf : (f s).1 ≠ E_OK) : journaled homes o f s = f s := if_pos hf

theorem journaled_taken (hf : (f s).1 = E_OK) (hc : (s.commitTxn homes o).1 = E_OK) : journaled homes o f s = f (s.commitTxn homes o).2 :=
  (if_neg (not_not.mpr hf)).trans (if_pos hc)

theorem journaled_failed (hf : (f s).1 = E_OK) (hc : (s.commitTxn homes o).1 ≠ E_OK) : journaled homes o f s = (E_NV_FAIL, (s.commitTxn homes o).2) :=
  (if_neg (not_not.mpr hf)).trans ((if_neg hc).trans (Prod.ext (commitTxn_code hc) rfl))

end

/-! What a slot's state is read from. -/

theorem keyField_of_reg (h : t.reg (nvjBase + Reg.KEY_STATE_SLOT0.off) = s.reg (nvjBase + Reg.KEY_STATE_SLOT0.off)) (k : Nat) :
    t.rd nvjBase (keyField k) = s.rd nvjBase (keyField k) := congrArg (fun w => getField w (2 * k) 2) h

theorem keyActive_of_reg (h : t.reg (nvjBase + Reg.KEY_STATE_SLOT0.off) = s.reg (nvjBase + Reg.KEY_STATE_SLOT0.off)) (k : Nat) :
    t.keyActive k = s.keyActive k := by
  rw [State.keyActive, keyField_of_reg h, State.keyActive]

theorem StoreKept.keyActive (h : StoreKept s t) (k : Nat) : t.keyActive k = s.keyActive k := keyActive_of_reg h.keyState k

theorem JournalOnly.keyActive (h : JournalOnly s t) (k : Nat) : t.keyActive k = s.keyActive k := keyActive_of_reg (h.regs _ (by decide)) k

theorem JournalOnly.keyAt (h : JournalOnly s t) (k : Nat) : t.keyAt k = s.keyAt k := by rw [State.keyAt, h.img, State.keyAt]

theorem JournalOnly.keyUse (h : JournalOnly s t) : t.keyUse = s.keyUse := by
  have hb := h.regs.flag nvjBase Reg.IMG_STATUS_BOOT
  have ha := h.regs.flag nvjBase Reg.IMG_STATUS_ACTIVE
  rw [State.keyUse, h.img, ha, hb, State.keyUse]

theorem settle_keyState (s : State) : s.settle.reg (nvjBase + Reg.KEY_STATE_SLOT0.off) = s.reg (nvjBase + Reg.KEY_STATE_SLOT0.off) :=
  State.settle_reg _ _ (by decide)

@[simp] theorem answered_keyField (s : State) (p : Port) (c : Code) (k : Nat) :
    (s.answer p c).settle.rd nvjBase (keyField k) = s.rd nvjBase (keyField k) := keyField_of_reg (settle_keyState _) k

@[simp] theorem answered_keyActive (s : State) (p : Port) (c : Code) (k : Nat) : (s.answer p c).settle.keyActive k = s.keyActive k :=
  keyActive_of_reg (settle_keyState _) k

@[simp] theorem answered_keyAt (s : State) (p : Port) (c : Code) (k : Nat) : (s.answer p c).settle.keyAt k = s.keyAt k := by simp [State.keyAt]

/-! INSTALL. -/

/-- A key may enter a slot. -/
structure Installable (s : State) (slot : Nat) (key : BitVec 256) : Prop where
  service : s.mst = stService
  free : s.keyActive slot = false
  valid : keyValid key = true
  single : ∀ k < 4, k ≠ slot → s.keyActive k = true → s.keyAt k ≠ key

theorem Installable.of_journalOnly (hi : Installable s slot key) (h : JournalOnly s t) : Installable t slot key :=
  ⟨h.mst.trans hi.service, (h.keyActive slot).trans hi.free, hi.valid,
    fun k hk hne ha => by rw [h.keyAt]; exact hi.single k hk hne ((h.keyActive k).symm.trans ha)⟩

/-- A slot holds a key. -/
def Machine.State.withKey (s : State) (slot : Nat) (key : BitVec 256) : State :=
  (s.wr nvjBase (keyField slot) 1).modImg fun i => { i with keys := listSet i.keys slot key }

/-- A slot's key is revoked. -/
def Machine.State.withoutKey (s : State) (slot : Nat) : State :=
  (s.wr nvjBase (keyField slot) 2).modImg fun i => { i with keys := listSet i.keys slot 0 }

theorem keyGate_service (hm : s.mst = stService) : s.keyGate .service = E_OK := (if_neg (by decide)).trans (if_pos (.inl hm))

theorem keyGate_elsewhere (hp : p ≠ .service) : s.keyGate p = E_ACCESS := if_pos hp

theorem decideKeyInstall_installable (hi : Installable s slot key) : decideKeyInstall .service slot key s = (E_OK, s.withKey slot key) := by
  have hd : ¬ ((!keyValid key) = true ∨ ((List.range 4).any fun k => k != slot && s.keyActive k && s.keyAt k == key) = true) := by
    rintro (h | h)
    · rw [hi.valid] at h
      exact Bool.false_ne_true h
    · obtain ⟨k, hk, h⟩ := List.any_eq_true.mp h
      simp only [Bool.and_eq_true, bne_iff_ne, beq_iff_eq] at h
      exact hi.single k (List.mem_range.mp hk) h.1.1 h.1.2 h.2
  exact (if_neg (not_not.mpr (keyGate_service hi.service))).trans ((if_neg (ne_true_of_eq_false hi.free)).trans (if_neg hd))

theorem decideKeyInstall_elsewhere (hp : p ≠ .service) : decideKeyInstall p slot key s = (E_ACCESS, s) := by
  have hg : s.keyGate p = E_ACCESS := keyGate_elsewhere hp
  rw [decideKeyInstall, hg]
  exact if_pos (by decide)

/-- The state of a slot after it is written. -/
theorem rd_keyField_wr (s : State) (hs : slot < 4) (v : Nat) : (s.wr nvjBase (keyField slot) v).rd nvjBase (keyField slot) = v % 4 :=
  State.rd_wr_same _ _ _ _ (by simp only [keyField]; omega)

theorem withKey_keyActive (s : State) (hs : slot < 4) (key : BitVec 256) : (s.withKey slot key).keyActive slot = true := by
  rw [State.keyActive, State.withKey, State.modImg_rd, rd_keyField_wr s hs]
  simp [hs]

theorem withoutKey_slot (s : State) (hs : slot < 4) : (s.withoutKey slot).rd nvjBase (keyField slot) = 2 := by
  rw [State.withoutKey, State.modImg_rd, rd_keyField_wr s hs]

theorem withoutKey_keyActive (s : State) (hs : slot < 4) : (s.withoutKey slot).keyActive slot = false := by
  rw [State.keyActive, withoutKey_slot s hs]
  simp

theorem withKey_keyAt (hl : slot < s.img.keys.length) (key : BitVec 256) : (s.withKey slot key).keyAt slot = key := by
  simp [State.withKey, State.keyAt, listSet, hl]

theorem withoutKey_keyAt (hl : slot < s.img.keys.length) : (s.withoutKey slot).keyAt slot = 0 := by
  simp [State.withoutKey, State.keyAt, listSet, hl]

theorem withKey_regs {l : List Nat} (h : RegsBut l s t) (hl : nvjBase + (keyField 0).off ∈ l) (key : BitVec 256) : RegsBut l s (t.withKey slot key) :=
  have hw : RegsBut l s (t.wr nvjBase (keyField slot) 1) := h.wr hl
  hw.modImg

theorem withoutKey_regs {l : List Nat} (h : RegsBut l s t) (hl : nvjBase + (keyField 0).off ∈ l) : RegsBut l s (t.withoutKey slot) :=
  have hw : RegsBut l s (t.wr nvjBase (keyField slot) 2) := h.wr hl
  hw.modImg

/-! REVOKE. -/

/-- A slot's key may be revoked. -/
structure Revocable (s : State) (slot : Nat) : Prop where
  service : s.mst = stService
  active : s.keyActive slot = true
  other : ∃ k < 4, k ≠ slot ∧ s.keyActive k = true
  unused : s.keyUse / 2 ^ slot % 2 = 0

theorem Revocable.of_journalOnly (hi : Revocable s slot) (h : JournalOnly s t) : Revocable t slot := by
  obtain ⟨k, hk, hne, ha⟩ := hi.other
  exact ⟨h.mst.trans hi.service, (h.keyActive slot).trans hi.active, ⟨k, hk, hne, (h.keyActive k).trans ha⟩, by rw [h.keyUse]; exact hi.unused⟩

theorem decideKeyRevoke_revocable (hs : slot < 4) (hi : Revocable s slot) : decideKeyRevoke .service slot s = (E_OK, s.withoutKey slot) := by
  have hn : ¬ ((List.range 4).filter s.keyActive).length = 1 := by
    intro h1
    obtain ⟨x, hx⟩ := List.length_eq_one_iff.mp h1
    obtain ⟨k, hk, hne, ha⟩ := hi.other
    have hmem : ∀ j < 4, s.keyActive j = true → j = x := fun j hj hja =>
      List.mem_singleton.mp (hx ▸ List.mem_filter.mpr ⟨List.mem_range.mpr hj, hja⟩)
    exact hne ((hmem k hk ha).trans (hmem slot hs hi.active).symm)
  exact (if_neg (not_not.mpr (keyGate_service hi.service))).trans ((if_neg (by rw [hi.active]; decide)).trans ((if_neg hn).trans
    (if_neg (by rw [hi.unused]; decide))))

theorem decideKeyRevoke_elsewhere (hp : p ≠ .service) : decideKeyRevoke p slot s = (E_ACCESS, s) := by
  have hg : s.keyGate p = E_ACCESS := keyGate_elsewhere hp
  rw [decideKeyRevoke, hg]
  exact if_pos (by decide)

/-! The obligation. -/

/-- A key command that its decision accepts and the journal does not take. -/
theorem command_journal_fails {f : State → Code × State} (h : Served s p) (hf : (f s).1 = E_OK) (hc : (s.commitTxn homes o).1 ≠ E_OK) (k : Nat) :
    ∃ t, command p (journaled homes o f) s = .next t ∧
      t.img.keys = s.img.keys ∧ t.keyActive k = s.keyActive k ∧ t.outbox = s.outbox ++ [.result p E_NV_FAIL] := by
  have hk : StoreKept s (s.commitTxn homes o).2 := (StoreKept.refl s).commitTxn
  refine ⟨_, command_decides h (journaled_failed hf hc), ?_, ?_, ?_⟩
  · rw [State.settle_img, State.answer_img, hk.keys]
  · rw [answered_keyActive, hk.keyActive]
  · rw [answered_outbox, hk.outbox]

/-- A key command that its decision accepts in the state that the journal's transaction leaves. -/
theorem command_journal_takes {f : State → Code × State} (h : Served s p) (hj : JournalTakes s homes) (hf : (f s).1 = E_OK)
    (hf' : f (s.commitTxn homes .clean).2 = (E_OK, t)) : command p (journaled homes .clean f) s = .next (t.answer p E_OK).settle := by
  obtain ⟨hc, -⟩ := commitTxn_taken (o := .clean) hj fun _ _ => List.not_mem_nil
  exact command_decides h ((journaled_taken hf hc).trans hf')

theorem keyInstall_installable {slot : Fin 4} (h : Served s .service) (hi : Installable s slot.val key) (hl : s.img.keys.length = 4)
    (hj : JournalTakes s (keyHome slot.val)) :
    Answers (.keyInstall .service ⟨slot, .clean⟩ key) s fun t =>
      t.keyActive slot.val = true ∧ t.keyAt slot.val = key ∧ t.outbox = s.outbox ++ [.result .service E_OK] ∧
      RegsKept ((nvjBase + (keyField 0).off) :: journalRegs) s t := by
  have hk := commitTxn_clean s (keyHome slot.val)
  have hlen : slot.val < (s.commitTxn (keyHome slot.val) .clean).2.img.keys.length := by rw [hk.img, hl]; exact slot.isLt
  refine ⟨_, command_journal_takes h hj (by rw [decideKeyInstall_installable hi]) (decideKeyInstall_installable (hi.of_journalOnly hk)), ?_, ?_, ?_, ?_⟩
  · rw [answered_keyActive, withKey_keyActive _ slot.isLt]
  · rw [answered_keyAt, withKey_keyAt hlen]
  · rw [answered_outbox]
    exact congrArg (· ++ _) hk.outbox
  · exact (withKey_regs (hk.regs.mono (List.subset_cons_self _ _)) List.mem_cons_self key).answered

theorem keyRevoke_revocable {slot : Fin 4} (h : Served s .service) (hi : Revocable s slot.val) (hl : s.img.keys.length = 4)
    (hj : JournalTakes s (keyHome slot.val)) :
    Answers (.keyRevoke .service ⟨slot, .clean⟩) s fun t =>
      t.keyActive slot.val = false ∧ t.rd nvjBase (keyField slot.val) = 2 ∧ t.keyAt slot.val = 0 ∧ t.outbox = s.outbox ++ [.result .service E_OK] ∧
      RegsKept ((nvjBase + (keyField 0).off) :: journalRegs) s t := by
  have hk := commitTxn_clean s (keyHome slot.val)
  have hlen : slot.val < (s.commitTxn (keyHome slot.val) .clean).2.img.keys.length := by rw [hk.img, hl]; exact slot.isLt
  refine ⟨_, command_journal_takes h hj (by rw [decideKeyRevoke_revocable slot.isLt hi])
    (decideKeyRevoke_revocable slot.isLt (hi.of_journalOnly hk)), ?_, ?_, ?_, ?_, ?_⟩
  · rw [answered_keyActive, withoutKey_keyActive _ slot.isLt]
  · rw [answered_keyField, withoutKey_slot _ slot.isLt]
  · rw [answered_keyAt, withoutKey_keyAt hlen]
  · rw [answered_outbox]
    exact congrArg (· ++ _) hk.outbox
  · exact (withoutKey_regs (hk.regs.mono (List.subset_cons_self _ _)) List.mem_cons_self).answered

/-- The key commands through another port. -/
theorem keyCommands_elsewhere {slot : Fin 4} (h : Served s p) (hp : p ≠ .service) :
    exec (.keyInstall p ⟨slot, o⟩ key) s = .next (s.answer p E_ACCESS).settle ∧ exec (.keyRevoke p ⟨slot, o⟩) s = .next (s.answer p E_ACCESS).settle := by
  have hi : decideKeyInstall p slot.val key s = (E_ACCESS, s) := decideKeyInstall_elsewhere hp
  have hr : decideKeyRevoke p slot.val s = (E_ACCESS, s) := decideKeyRevoke_elsewhere hp
  have hne : E_ACCESS ≠ E_OK := by decide
  exact ⟨command_decides h ((journaled_refused (by rw [hi]; exact hne)).trans hi), command_decides h ((journaled_refused (by rw [hr]; exact hne)).trans hr)⟩

/-- Settles O8: each decision, and what becomes of it in the journal. -/
theorem keySlotsAreInstalledAndRevoked : Obligations.KeySlotsAreInstalledAndRevoked := by
  unfold Obligations.KeySlotsAreInstalledAndRevoked
  exact ⟨fun _ _ _ h hm hf hv hs hl hj => keyInstall_installable h ⟨hm, hf, hv, hs⟩ hl hj,
    fun _ _ h hm ha ho hu hl hj => keyRevoke_revocable h ⟨hm, ha, ho, hu⟩ hl hj,
    fun _ slot _ _ h hf hc => command_journal_fails h hf hc slot.val, fun _ slot _ h hf hc => command_journal_fails h hf hc slot.val,
    fun _ _ _ _ _ => keyCommands_elsewhere, fun _ _ h => command_decides h rfl⟩

end Sys2Proof
end

