-- ==== Sys2Proof/Proofs/ImageCommands.lean ====
section
/-! Saving, committing and aborting (R42 to R47, R51, R52, R57): what each command decides, and the state that it leaves. -/

namespace Sys2Proof

open Sys2Proof.Machine

variable {s t : State} {p : Port} {b : Bool} {blocks : List Nat} {o : NvOutcome}

/-! SAVE (R42 to R45). -/

/-- Bank `b` is being saved; its saved copy is not to be read meanwhile. -/
def Machine.State.saving (s : State) (b : Bool) : State :=
  (((s.nameBank b).modBank b fun x => { x with savedOk := false, savedSlots := 0 }).setPhase phSaving).modImg fun i => { i with nextBank := b }

theorem decideSave_starts (ho : s.imgOpen = E_OK) (hv : s.validBank b = true) (hd : s.flag modBase Reg.MOD_HEALTH_NV_DEGRADED = false)
    (hb : s.bootBank ≠ b ∨ s.isActive b = true) (hs : s.flag nvjBase (bankSaved b) = false) : decideSave b s = (E_OK, s.saving b) := by
  have hl : ¬ (s.bootBank = b ∧ (!s.isActive b) = true) := by
    rintro ⟨e, ha⟩
    rcases hb with hb | hb
    · exact hb e
    · simp [hb] at ha
  unfold decideSave
  rw [if_neg (not_not.mpr ho), if_neg (by simp [hv]), if_neg (ne_true_of_eq_false hd), if_neg hl, if_neg (ne_true_of_eq_false hs)]
  rfl

theorem imgSave_starts (h : Served s p) (ho : s.imgOpen = E_OK) (hv : s.validBank b = true) (hd : s.flag modBase Reg.MOD_HEALTH_NV_DEGRADED = false)
    (hb : s.bootBank ≠ b ∨ s.isActive b = true) (hs : s.flag nvjBase (bankSaved b) = false) :
    Answers (.imgSave p b) s fun t =>
      t.imgPhase = phSaving ∧ t.img.nextBank = b ∧ (t.bank b).savedOk = false ∧ (t.bank b).main = (s.bank b).main ∧
      t.outbox = s.outbox ++ [.result p E_OK] := by
  have hp : (s.saving b).imgPhase = phSaving := by
    unfold State.saving
    rw [modImg_imgPhase, setPhase_imgPhase _ (by decide)]
  have hn : (s.saving b).img.nextBank = b := by simp [State.saving]
  have hk : (s.saving b).bank b = { s.bank b with savedOk := false, savedSlots := 0 } := by simp [State.saving]
  have hout : (s.saving b).outbox = s.outbox := by simp [State.saving]
  exact ⟨_, command_decides h (decideSave_starts ho hv hd hb hs), by simp [hp, hn, hk, hout]⟩

/-! The boot bank (R42). -/

theorem updateBoot_idle (h : s.img.bootUpdate = false) : s.updateBoot o = s := if_neg (ne_true_of_eq_false h)

theorem updateBoot_committed (h : s.img.bootUpdate = true) (hc : (s.commitTxn (controlHome Config.bootPlace) o).1 = E_OK) :
    s.updateBoot o = (s.commitTxn (controlHome Config.bootPlace) o).2.bootActive := (if_pos h).trans (if_pos hc)

theorem updateBoot_failed (h : s.img.bootUpdate = true) (hc : (s.commitTxn (controlHome Config.bootPlace) o).1 ≠ E_OK) :
    s.updateBoot o = (s.commitTxn (controlHome Config.bootPlace) o).2 := (if_pos h).trans (if_neg hc)

/-- Whatever becomes of the update, its journal writes and BOOT with VOLATILE are all that changes where no block is worn out. -/
theorem updateBoot_clean_cases (s : State) : ∃ u, JournalOnly s u ∧ (s.updateBoot .clean = u ∨ s.updateBoot .clean = u.bootActive) := by
  have hk := commitTxn_clean s (controlHome Config.bootPlace)
  cases h : s.img.bootUpdate with
  | false => exact ⟨s, .refl s, .inl (updateBoot_idle h)⟩
  | true =>
    by_cases hc : (s.commitTxn (controlHome Config.bootPlace) .clean).1 = E_OK
    · exact ⟨_, hk, .inr (updateBoot_committed h hc)⟩
    · exact ⟨_, hk, .inl (updateBoot_failed h hc)⟩

theorem bootActive_bootBank (s : State) : s.bootActive.bootBank = s.activeBank := by
  unfold State.bootActive State.bootBank
  rw [flag_setFlag_apart _ _ _ _ _ _ (by decide) (by decide), State.flag_setFlag_same _ _ _ _ (by decide) rfl]

theorem bootActive_volatile (s : State) : s.bootActive.flag nvjBase Reg.IMG_STATUS_VOLATILE = false := State.flag_setFlag_same _ _ _ _ (by decide) rfl

theorem bootActive_rd (s : State) (g : Field) (hb : Apart nvjBase g nvjBase Reg.IMG_STATUS_BOOT) (hv : Apart nvjBase g nvjBase Reg.IMG_STATUS_VOLATILE) :
    s.bootActive.rd nvjBase g = s.rd nvjBase g := by
  unfold State.bootActive
  rw [State.rd_setFlag_apart _ _ _ _ _ _ (by decide) hv, State.rd_setFlag_apart _ _ _ _ _ _ (by decide) hb, State.modImg_rd]

theorem bootActive_regs {l : List Nat} (h : RegsBut l s t) (hl : nvjBase + Reg.IMG_STATUS_BOOT.off ∈ l := by decide) : RegsBut l s t.bootActive :=
  (h.modImg.setFlag hl).setFlag hl

theorem bootActive_img (s : State) : s.bootActive.img = { s.img with bootUpdate := false } := (rfl)

theorem bootActive_bank (s : State) (b : Bool) : s.bootActive.bank b = s.bank b := by rw [State.bank, bootActive_img, State.bank]

/-- Of IMG.STATUS an update without wear writes BOOT and VOLATILE alone. -/
theorem updateBoot_clean_rd (s : State) (g : Field) (hb : Apart nvjBase g nvjBase Reg.IMG_STATUS_BOOT) (hv : Apart nvjBase g nvjBase Reg.IMG_STATUS_VOLATILE)
    (hj : nvjBase + g.off ∉ journalRegs) : (s.updateBoot .clean).rd nvjBase g = s.rd nvjBase g := by
  obtain ⟨u, hk, e | e⟩ := updateBoot_clean_cases s <;> rw [e]
  · exact hk.regs.rd _ _ hj
  · exact (bootActive_rd u g hb hv).trans (hk.regs.rd _ _ hj)

theorem updateBoot_clean_bank (s : State) (b : Bool) : (s.updateBoot .clean).bank b = s.bank b := by
  obtain ⟨u, hk, e | e⟩ := updateBoot_clean_cases s <;> rw [e]
  · exact hk.bank b
  · exact (bootActive_bank u b).trans (hk.bank b)

theorem bootBankUpdate_due (hb : s.img.bootUpdate = true) (hd : s.dutyUp 1 = true) :
    exec .bootBankUpdate s = .next (s.drawOutcome.2.updateBoot s.drawOutcome.1).settle := done_of_true (by rw [hd, hb]; rfl) _ _

/-- The boot bank becomes the active one where the journal takes the update and its writes wear out no block of the log. -/
theorem updateBoot_taken (h : s.img.bootUpdate = true) (hj : JournalTakes s (controlHome Config.bootPlace))
    (hn : ∀ b ∈ s.logBlocks ((controlHome Config.bootPlace).length + 1), b ∉ o.worn) :
    (s.updateBoot o).bootBank = s.activeBank ∧ (s.updateBoot o).flag nvjBase Reg.IMG_STATUS_VOLATILE = false ∧
      (s.updateBoot o).img = { s.img with bootUpdate := false } ∧
      RegsBut ((nvjBase + Reg.IMG_STATUS_BOOT.off) :: journalRegs) s (s.updateBoot o) := by
  obtain ⟨hc, hk⟩ := commitTxn_taken (o := o) hj hn
  rw [updateBoot_committed h hc]
  refine ⟨?_, bootActive_volatile _, ?_, bootActive_regs (hk.regs.mono (List.subset_cons_self _ _))⟩
  · rw [bootActive_bootBank]
    exact hk.regs.flag _ _
  · rw [bootActive_img, hk.img]

/-! SAVE_COMPLETE (R42, R44, R389, R392). -/

/-- The saved copy of bank `b` is its working copy, and the SAVE has ended. -/
def Machine.State.saved (s : State) (b : Bool) : State :=
  ((s.modBank b fun x => { x with savedBase := x.base, savedMain := x.main, savedOk := true, savedSlots := x.slots }).setFlag nvjBase (bankSaved b) true).endOp E_OK

/-- The boot bank follows where the saved bank is the active one. -/
def Machine.State.bootFollows (s : State) (b : Bool) : State :=
  s.when (s.isActive b) fun s => (s.modImg fun i => { i with bootUpdate := true }).updateBoot .clean

/-- A SAVE that cannot be kept: its writes failed, or its bank has become the donor. -/
def Machine.State.saveLost (s : State) (blocks : List Nat) (o : NvOutcome) : Bool :=
  !(s.nvWrite blocks o).1 || ((s.nvWrite blocks o).2.flag nvjBase Reg.NVJ_STATUS_DEGRADED && (s.nvWrite blocks o).2.bootBank != s.img.nextBank)

theorem saveComplete_lost (hp : s.imgPhase = phSaving) (hd : s.dutyUp 1 = true) (hl : s.saveLost blocks o = true) :
    exec (.saveComplete blocks o) s = .next ((s.nvWrite blocks o).2.endOp E_NV_FAIL).settle :=
  (congrArg done (if_neg (by simp [hp, hd]))).trans (done_of_true hl _ _)

theorem saveComplete_saved (hp : s.imgPhase = phSaving) (hd : s.dutyUp 1 = true) (hl : s.saveLost blocks o = false) :
    exec (.saveComplete blocks o) s = .next (((s.nvWrite blocks o).2.saved s.img.nextBank).bootFollows s.img.nextBank).settle :=
  (congrArg done (if_neg (by simp [hp, hd]))).trans (done_of_false hl _ _)

theorem saveLost_of_failed (hw : (s.nvWrite blocks o).1 = false) : s.saveLost blocks o = true := by rw [State.saveLost, hw]; rfl

theorem saveLost_of_kept (hw : (s.nvWrite blocks o).1 = true)
    (hd : (s.nvWrite blocks o).2.flag nvjBase Reg.NVJ_STATUS_DEGRADED = false ∨ s.bootBank = s.img.nextBank) : s.saveLost blocks o = false := by
  have hb : (s.nvWrite blocks o).2.bootBank = s.bootBank := ((StoreKept.refl s).nvWrite).boot
  rcases hd with hd | hd <;> simp [State.saveLost, hw, hd, hb]

theorem saved_saved (s : State) (b : Bool) : (s.saved b).flag nvjBase (bankSaved b) = true := by
  rw [State.saved, endOp_saved]
  cases b <;> exact State.flag_setFlag_same _ _ _ _ (by decide) rfl

theorem saved_bank (s : State) (b : Bool) : (s.saved b).bank b =
    { s.bank b with savedBase := (s.bank b).base, savedMain := (s.bank b).main, savedOk := true, savedSlots := (s.bank b).slots } := by simp [State.saved]

theorem saved_regs {l : List Nat} (h : RegsBut l s t) (b : Bool) (hl : nvjBase + Reg.IMG_STATUS_PHASE.off ∈ l := by decide) : RegsBut l s (t.saved b) :=
  ((h.modBank.setSaved hl).endOp hl)

/-- The boot bank is to follow the active one. -/
def Machine.State.owesBoot (s : State) : State := s.modImg fun i => { i with bootUpdate := true }

theorem bootFollows_active (h : s.isActive b = true) : s.bootFollows b = s.owesBoot.updateBoot .clean := by
  rw [State.bootFollows, h, State.when_true, State.owesBoot]

theorem bootFollows_inactive (h : s.isActive b = false) : s.bootFollows b = s := by rw [State.bootFollows, h, State.when_false]

theorem owesBoot_bank (s : State) (b : Bool) : s.owesBoot.bank b = s.bank b := by cases b <;> rfl

theorem bootFollows_rd (s : State) (b : Bool) (g : Field) (hb : Apart nvjBase g nvjBase Reg.IMG_STATUS_BOOT)
    (hv : Apart nvjBase g nvjBase Reg.IMG_STATUS_VOLATILE) (hj : nvjBase + g.off ∉ journalRegs) : (s.bootFollows b).rd nvjBase g = s.rd nvjBase g := by
  cases h : s.isActive b
  · rw [bootFollows_inactive h]
  · rw [bootFollows_active h, updateBoot_clean_rd _ g hb hv hj, State.owesBoot, State.modImg_rd]

theorem bootFollows_bank (s : State) (b c : Bool) : (s.bootFollows b).bank c = s.bank c := by
  cases h : s.isActive b
  · rw [bootFollows_inactive h]
  · rw [bootFollows_active h, updateBoot_clean_bank, owesBoot_bank]

theorem saveComplete_kept (hp : s.imgPhase = phSaving) (hd : s.dutyUp 1 = true) (hw : (s.nvWrite blocks o).1 = true)
    (hg : (s.nvWrite blocks o).2.flag nvjBase Reg.NVJ_STATUS_DEGRADED = false ∨ s.bootBank = s.img.nextBank) :
    Answers (.saveComplete blocks o) s fun t =>
      t.imgPhase = phIdle ∧ t.rd nvjBase Reg.IMG_STATUS_RESULT = 0 ∧ t.flag nvjBase (bankSaved s.img.nextBank) = true ∧
      (t.bank s.img.nextBank).savedOk = true ∧ (t.bank s.img.nextBank).savedMain = (s.bank s.img.nextBank).main := by
  have hk : StoreKept s (s.nvWrite blocks o).2 := (StoreKept.refl s).nvWrite
  refine ⟨_, saveComplete_saved hp hd (saveLost_of_kept hw hg), ?_, ?_, ?_, ?_, ?_⟩
  · rw [settle_imgPhase]
    exact (bootFollows_rd _ _ _ (by decide) (by decide) (by decide)).trans (endOp_imgPhase _ _)
  · rw [settle_result]
    exact (bootFollows_rd _ _ _ (by decide) (by decide) (by decide)).trans (endOp_result _ _)
  · rw [settle_savedBank, State.flag, bootFollows_rd, ← State.flag, saved_saved] <;> cases s.img.nextBank <;> decide
  · rw [settle_bank, bootFollows_bank, saved_bank]
  · rw [settle_bank, bootFollows_bank, saved_bank, hk.main]

theorem saveComplete_failed (hp : s.imgPhase = phSaving) (hd : s.dutyUp 1 = true) (hw : (s.nvWrite blocks o).1 = false)
    (hs : s.flag nvjBase (bankSaved s.img.nextBank) = false) (hb : (s.bank s.img.nextBank).savedOk = false) :
    Answers (.saveComplete blocks o) s fun t =>
      t.imgPhase = phIdle ∧ t.rd nvjBase Reg.IMG_STATUS_RESULT = E_NV_FAIL.toNat ∧ t.flag nvjBase (bankSaved s.img.nextBank) = false ∧
      (t.bank s.img.nextBank).savedOk = false ∧ t.bootBank = s.bootBank := by
  have hk : StoreKept s (s.nvWrite blocks o).2 := (StoreKept.refl s).nvWrite
  refine ⟨_, saveComplete_lost hp hd (saveLost_of_failed hw), ?_⟩
  simp [hk.saved _ hs, hk.savedOk _ hb, hk.boot]

/-! Whether the journal takes a transaction (R386, R387). -/

theorem dutyUp_of_regs {l : List Nat} (h : RegsBut l s t) (hp : t.pwr = s.pwr) (hm : modBase + Reg.MOD_STATE_STATE.off ∉ l := by decide)
    (hh : cpBase 3 + Reg.CP_STATUS_HELD.off ∉ l := by decide) (hi : blkBase 2 28 + Reg.BLK_STATE_STATE.off ∉ l := by decide) : t.dutyUp 3 = s.dutyUp 3 := by
  have h1 : t.mst = s.mst := h.rd _ _ hm
  have h2 : t.flag (cpBase 3) Reg.CP_STATUS_HELD = s.flag (cpBase 3) Reg.CP_STATUS_HELD := h.flag _ _ hh
  have h3 : t.rd (blkBase 2 28) Reg.BLK_STATE_STATE = s.rd (blkBase 2 28) Reg.BLK_STATE_STATE := h.rd _ _ hi
  simp only [State.dutyUp, State.powered, State.isolated, State.blkSt, h1, h2, h3, hp]

theorem journalTakes_of_same {homes : List Nat} (h : JournalTakes s homes) (hu : t.journalUp = s.journalUp) (hp : t.jrn.pend = s.jrn.pend)
    (ho : t.jrn.readOnly = s.jrn.readOnly) (ha : t.jrn.logAt = s.jrn.logAt) : JournalTakes t homes := by
  obtain ⟨h1, h2, h3, h4⟩ := h
  refine ⟨hu.trans h1, by rw [hp]; exact h2, ?_, ?_⟩
  · rw [State.writable, ho]; exact h3
  · rw [State.writable, State.logBlocks, ho, ha]; exact h4

/-- A SAVE of the active bank for which nothing was left to write, before the boot bank follows. -/
def Machine.State.savedActive (s : State) : State := ((s.written [] 0).saved s.img.nextBank).owesBoot

theorem savedActive_regs (s : State) : RegsBut ((nvjBase + Reg.IMG_STATUS_BOOT.off) :: journalRegs) s s.savedActive :=
  (saved_regs ((journalOnly_written s [] 0).regs.mono (List.subset_cons_self _ _)) _).modImg

theorem savedActive_jrn (s : State) : s.savedActive.jrn = s.jrn := by
  simp [State.savedActive, State.owesBoot, State.saved, State.endOp, State.setPhase, State.setResult, State.modBank, State.written, State.wearBlocks, State.showWear]

theorem saved_isActive (s : State) (b c : Bool) : (s.saved b).isActive c = s.isActive c := by
  have ha : (s.saved b).activeBank = s.activeBank := by
    rw [State.saved, State.activeBank, endOp_flag _ _ _ _ (by decide) (by decide)]
    cases b <;> exact flag_setFlag_apart _ _ _ _ _ _ (by decide) (by decide)
  have hc : (s.saved b).img.committed = s.img.committed := by simp [State.saved]
  rw [State.isActive, ha, hc, State.isActive]

theorem JournalOnly.activeBank (h : JournalOnly s t) : t.activeBank = s.activeBank := h.regs.flag _ _

theorem JournalOnly.isActive (h : JournalOnly s t) (b : Bool) : t.isActive b = s.isActive b := by rw [State.isActive, h.activeBank, h.img, State.isActive]

theorem activeBank_of_isActive (h : s.isActive b = true) : s.activeBank = b := beq_iff_eq.mp (Bool.and_eq_true_iff.mp h).2

theorem savedActive_takes {homes : List Nat} (h : JournalTakes s homes) : JournalTakes s.savedActive homes := by
  have hr := savedActive_regs s
  have hp : s.savedActive.pwr = s.pwr := by
    simp [State.savedActive, State.owesBoot, State.saved, State.modBank, (journalOnly_written s [] 0).pwr]
  have hm : s.savedActive.mst = s.mst := hr.rd _ _
  have hj := savedActive_jrn s
  refine journalTakes_of_same h ?_ (congrArg JournalSt.pend hj) (congrArg JournalSt.readOnly hj) (congrArg JournalSt.logAt hj)
  rw [State.journalUp, hm, dutyUp_of_regs hr hp, State.journalUp]

theorem savedActive_activeBank (hb : s.isActive s.img.nextBank = true) : s.savedActive.activeBank = s.img.nextBank := by
  have h : ((s.written [] 0).saved s.img.nextBank).isActive s.img.nextBank = true := by
    rw [saved_isActive, (journalOnly_written s [] 0).isActive, hb]
  exact activeBank_of_isActive h

theorem savedActive_active (s : State) : s.savedActive.img.active = s.img.active := by
  simp [State.savedActive, State.owesBoot, State.saved, (journalOnly_written s [] 0).img]

theorem saveComplete_active (hp : s.imgPhase = phSaving) (hd : s.dutyUp 1 = true) (hb : s.isActive s.img.nextBank = true)
    (hg : s.flag nvjBase Reg.NVJ_STATUS_DEGRADED = false) (hj : JournalTakes s (controlHome Config.bootPlace)) :
    Answers (.saveComplete [] .clean) s fun t =>
      t.bootBank = s.img.nextBank ∧ t.flag nvjBase Reg.IMG_STATUS_VOLATILE = false ∧ t.img.bootUpdate = false ∧ t.img.active = s.img.active := by
  have hw : s.nvWrite [] .clean = (true, s.written [] 0) := by
    refine nvWrite_of_unworn ?_ fun _ h => absurd h List.not_mem_nil
    simp [State.writable]
  have hl : s.saveLost [] .clean = false := by
    refine saveLost_of_kept (by rw [hw]) (.inl ?_)
    rw [hw]
    exact ((journalOnly_written s [] 0).regs.flag _ _).trans hg
  have ha : ((s.written [] 0).saved s.img.nextBank).isActive s.img.nextBank = true := by
    rw [saved_isActive, (journalOnly_written s [] 0).isActive, hb]
  have he : exec (.saveComplete [] .clean) s = .next (s.savedActive.updateBoot .clean).settle := by
    rw [saveComplete_saved hp hd hl, hw, bootFollows_active ha, State.savedActive]
  obtain ⟨hboot, hvol, himg, -⟩ := updateBoot_taken (o := .clean) (s := s.savedActive) rfl (savedActive_takes hj) fun _ _ => List.not_mem_nil
  refine ⟨_, he, ?_, ?_, ?_, ?_⟩
  · rw [settle_bootBank, hboot, savedActive_activeBank hb]
  · rw [settle_volatile, hvol]
  · rw [State.settle_img, himg]
  · rw [State.settle_img, himg]
    exact savedActive_active s

/-! A commit is abandoned (R52, R57). -/

theorem abandonCommit_of_phase {c : Code} (h : s.imgPhase = phPreparing ∨ s.imgPhase = phPending) :
    s.abandonCommit c = ((s.endOp c).bump nvjBase Reg.IMG_COMMITS_ABANDONED).modImg fun i => { i with next := [] } := if_pos h

section

variable {c : Code} (h : s.imgPhase = phPreparing ∨ s.imgPhase = phPending)

include h

theorem abandonCommit_imgPhase : (s.abandonCommit c).imgPhase = phIdle := by
  rw [abandonCommit_of_phase h, modImg_imgPhase]
  exact (State.rd_wr_apart _ _ _ _ _ _ (by decide) (by decide)).trans (endOp_imgPhase s c)

theorem abandonCommit_result : (s.abandonCommit c).rd nvjBase Reg.IMG_STATUS_RESULT = c.toNat := by
  rw [abandonCommit_of_phase h, State.modImg_rd]
  exact (State.rd_wr_apart _ _ _ _ _ _ (by decide) (by decide)).trans (endOp_result s c)

theorem abandonCommit_counts :
    (s.abandonCommit c).rd nvjBase Reg.IMG_COMMITS_ABANDONED = min (s.rd nvjBase Reg.IMG_COMMITS_ABANDONED + 1) 65535 := by
  have hr : RegsBut [nvjBase + Reg.IMG_STATUS_PHASE.off] s (s.endOp c) := (RegsBut.refl _ s).endOp
  have ha : (s.endOp c).rd nvjBase Reg.IMG_COMMITS_ABANDONED = s.rd nvjBase Reg.IMG_COMMITS_ABANDONED := hr.rd _ _
  rw [abandonCommit_of_phase h, State.modImg_rd, State.rd_bump _ _ _ (by decide), ha]
  rfl

theorem abandonCommit_img : (s.abandonCommit c).img = { s.img with next := [] } := by
  rw [abandonCommit_of_phase h]
  simp

theorem abandonCommit_outbox : (s.abandonCommit c).outbox = s.outbox := by
  rw [abandonCommit_of_phase h]
  simp

theorem abandonCommit_fab : (s.abandonCommit c).fab = s.fab := by
  rw [abandonCommit_of_phase h]
  simp

end

/-! COMMIT (R51, R52). -/

/-- Bank `b` is being prepared, at the boundary that `a` and `w` name. -/
def Machine.State.committing (s : State) (b a : Bool) (w : Word) : State :=
  (((s.nameBank b).setFlag nvjBase Reg.IMG_CTRL_ATSTROKE a).endStaging).prepare b a w

theorem decideCommit_accepted {a : Bool} {w : Word} (ho : s.imgOpen = E_OK) (ha : s.isActive b = false) (hv : s.validBank b = true)
    (ht : s.mst = stRun → sameTocsin s.img.active (s.effective b) = true) : decideCommit b a w s = (E_OK, (s.committing b a w).commitLate) := by
  have hr : ¬ (s.mst = stRun ∧ (!sameTocsin s.img.active (s.effective b)) = true) := fun ⟨hm, hn⟩ => by simp [ht hm] at hn
  unfold decideCommit
  rw [if_neg (not_not.mpr ho), if_neg (ne_true_of_eq_false ha), if_neg (by simp [hv]), if_neg hr]
  rfl

theorem decideCommit_refused {a : Bool} {w : Word} (ho : s.imgOpen = E_OK) (ha : s.isActive b = false)
    (hr : s.validBank b = false ∨ (s.mst = stRun ∧ sameTocsin s.img.active (s.effective b) = false)) : decideCommit b a w s = (E_STATE, s) := by
  unfold decideCommit
  rw [if_neg (not_not.mpr ho), if_neg (ne_true_of_eq_false ha)]
  cases hv : s.validBank b
  · rfl
  · have ht := hr.resolve_left (by simp [hv])
    rw [if_neg (by decide), if_pos (by simpa using ht)]

theorem committing_imgPhase (s : State) (b a : Bool) (w : Word) : (s.committing b a w).imgPhase = phPreparing := prepare_imgPhase _ _ _ _

theorem committing_regs (s : State) (b a : Bool) (w : Word) :
    RegsBut [nvjBase + Reg.IMG_CTRL_BANK.off, nvjBase + Reg.IMG_STATUS_PHASE.off] s (s.committing b a w) :=
  (((RegsBut.refl _ s).nameBank.setFlag.endStaging).trans ((prepare_regs _ _ _ _).mono (List.subset_cons_self _ _)))

theorem committing_img (s : State) (b a : Bool) (w : Word) :
    (s.committing b a w).img.nextBank = b ∧ (s.committing b a w).img.atStroke = a ∧ (s.committing b a w).img.atNo = w ∧
      (s.committing b a w).img.active = s.img.active := by
  rw [State.committing, prepare_img]
  simp

theorem committing_outbox (s : State) (b a : Bool) (w : Word) : (s.committing b a w).outbox = s.outbox := by
  simp [State.committing, State.prepare]

/-- The stroke number stands in registers of the time base. -/
theorem strokeNo_of_regs {l : List Nat} (h : RegsBut l s t) (hlo : tmBase + Reg.STK_NUM_LO.off ∉ l := by decide)
    (hhi : tmBase + Reg.STK_NUM_HI.off ∉ l := by decide) : t.strokeNo = s.strokeNo := by
  rw [State.strokeNo, State.rdw, State.rdw, h _ hlo, h _ hhi, State.strokeNo, State.rdw, State.rdw]

theorem commitLate_anyBoundary (h : s.img.atStroke = false) : s.commitLate = s := if_neg (by simp [h])

theorem commitLate_ahead {d : Nat} (hd : d = (s.img.atNo.toNat + 2 ^ 32 - (s.strokeNo + 1) % 2 ^ 32) % 2 ^ 32) (h : d < 2 ^ 31) : s.commitLate = s := by
  have hs : s.strokesToAt = some d := by rw [hd] at h ⊢; exact if_pos h
  exact if_neg (by simp [hs])

theorem commitLate_passed {d : Nat} (ha : s.img.atStroke = true) (hd : d = (s.img.atNo.toNat + 2 ^ 32 - (s.strokeNo + 1) % 2 ^ 32) % 2 ^ 32)
    (h : 2 ^ 31 ≤ d) : s.commitLate = s.abandonCommit E_TIMEOUT := by
  have hs : s.strokesToAt = none := by rw [hd] at h; exact if_neg (Nat.not_lt.mpr h)
  exact if_pos ⟨ha, by rw [hs]; rfl⟩

theorem imgCommit_prepares (h : Served s p) (ho : s.imgOpen = E_OK) (ha : s.isActive b = false) (hv : s.validBank b = true)
    (ht : s.mst = stRun → sameTocsin s.img.active (s.effective b) = true) :
    Answers (.imgCommit p b false) s fun t =>
      t.imgPhase = phPreparing ∧ t.img.nextBank = b ∧ t.img.atStroke = false ∧ t.img.active = s.img.active ∧ t.outbox = s.outbox ++ [.result p E_OK] := by
  obtain ⟨hn, hs, -, hc⟩ := committing_img s b false (s.rdw nvjBase Reg.IMG_AT)
  refine ⟨_, command_decides h ((decideCommit_accepted ho ha hv ht).trans (by rw [commitLate_anyBoundary hs])), ?_⟩
  simp [committing_imgPhase, hn, hs, hc, committing_outbox]

theorem imgCommit_atStroke {d : Nat} (h : Served s p) (ho : s.imgOpen = E_OK) (ha : s.isActive b = false) (hv : s.validBank b = true)
    (ht : s.mst = stRun → sameTocsin s.img.active (s.effective b) = true)
    (hd : d = ((s.rdw nvjBase Reg.IMG_AT).toNat + 2 ^ 32 - (s.strokeNo + 1) % 2 ^ 32) % 2 ^ 32) :
    Answers (.imgCommit p b true) s fun t =>
      t.img.active = s.img.active ∧ t.outbox = s.outbox ++ [.result p E_OK] ∧
      (d < 2 ^ 31 → t.imgPhase = phPreparing ∧ t.img.nextBank = b ∧ t.img.atStroke = true ∧ t.img.atNo = s.rdw nvjBase Reg.IMG_AT) ∧
      (2 ^ 31 ≤ d → t.imgPhase = phIdle ∧ t.rd nvjBase Reg.IMG_STATUS_RESULT = E_TIMEOUT.toNat ∧
        t.rd nvjBase Reg.IMG_COMMITS_ABANDONED = min (s.rd nvjBase Reg.IMG_COMMITS_ABANDONED + 1) 65535) := by
  obtain ⟨hn, hs, hw, hc⟩ := committing_img s b true (s.rdw nvjBase Reg.IMG_AT)
  have hp := committing_imgPhase s b true (s.rdw nvjBase Reg.IMG_AT)
  have hr := committing_regs s b true (s.rdw nvjBase Reg.IMG_AT)
  have hd' : d = ((s.committing b true (s.rdw nvjBase Reg.IMG_AT)).img.atNo.toNat + 2 ^ 32 -
      ((s.committing b true (s.rdw nvjBase Reg.IMG_AT)).strokeNo + 1) % 2 ^ 32) % 2 ^ 32 := by rw [hw, strokeNo_of_regs hr, hd]
  refine ⟨_, command_decides h (decideCommit_accepted ho ha hv ht), ?_⟩
  rcases Nat.lt_or_ge d (2 ^ 31) with hlt | hge
  · rw [commitLate_ahead hd' hlt]
    refine ⟨?_, ?_, fun _ => ?_, fun hge => absurd hge (Nat.not_le.mpr hlt)⟩
    · simp [hc]
    · simp [committing_outbox]
    · simp [hp, hn, hs, hw]
  · have hcount : (s.committing b true (s.rdw nvjBase Reg.IMG_AT)).rd nvjBase Reg.IMG_COMMITS_ABANDONED = s.rd nvjBase Reg.IMG_COMMITS_ABANDONED :=
      hr.rd _ _
    rw [commitLate_passed hs hd' hge]
    refine ⟨?_, ?_, fun hlt => absurd hge (Nat.not_le.mpr hlt), fun _ => ?_⟩
    · simp [abandonCommit_img (.inl hp), hc]
    · simp [abandonCommit_outbox (.inl hp), committing_outbox]
    · simp [abandonCommit_imgPhase (.inl hp), abandonCommit_result (.inl hp), abandonCommit_counts (.inl hp), hcount]

theorem preparationComplete_pends (hp : s.imgPhase = phPreparing) (ha : s.img.atStroke = false) (hd : s.dutyUp 1 = true) :
    Answers .preparationComplete s fun t => t.imgPhase = phPending ∧ t.img = s.img ∧ RegsKept [nvjBase + Reg.IMG_STATUS_PHASE.off] s t := by
  have hr : RegsBut [nvjBase + Reg.IMG_STATUS_PHASE.off] s (s.setPhase phPending) := (RegsBut.refl _ s).setPhase
  have hl : (s.setPhase phPending).commitLate = s.setPhase phPending := commitLate_anyBoundary ha
  have he : exec .preparationComplete s = .next (s.setPhase phPending).settle := (done_of_pos ⟨hp, hd⟩ _ _).trans (by rw [hl])
  refine ⟨_, he, ?_, ?_, hr.settled⟩
  · rw [settle_imgPhase, setPhase_imgPhase _ (by decide)]
  · rw [State.settle_img, setPhase_img]

/-! BOOT_BANK_UPDATE (R42). -/

theorem bootBankUpdate_taken (hb : s.img.bootUpdate = true) (hd : s.dutyUp 1 = true) (hj : JournalTakes s (controlHome Config.bootPlace)) :
    Answers .bootBankUpdate s fun t =>
      (∀ b ∈ s.logBlocks ((controlHome Config.bootPlace).length + 1), b ∉ s.drawOutcome.1.worn) →
        t.bootBank = s.activeBank ∧ t.flag nvjBase Reg.IMG_STATUS_VOLATILE = false ∧ t.img.bootUpdate = false ∧
        RegsKept ((nvjBase + Reg.IMG_STATUS_BOOT.off) :: journalRegs) s t := by
  refine ⟨_, bootBankUpdate_due hb hd, fun hn => ?_⟩
  obtain ⟨hboot, hvol, himg, hregs⟩ := updateBoot_taken (o := s.drawOutcome.1) (s := s.drawOutcome.2) hb hj hn
  have hr : RegsBut ((nvjBase + Reg.IMG_STATUS_BOOT.off) :: journalRegs) s (s.drawOutcome.2.updateBoot s.drawOutcome.1) := hregs
  refine ⟨?_, ?_, ?_, hr.settled⟩
  · rw [settle_bootBank, hboot]
    rfl
  · rw [settle_volatile, hvol]
  · rw [State.settle_img, himg]

theorem updateBoot_failed_bootBank (h : s.img.bootUpdate = true) (hc : (s.commitTxn (controlHome Config.bootPlace) o).1 ≠ E_OK) :
    (s.updateBoot o).bootBank = s.bootBank := by
  rw [updateBoot_failed h hc]
  exact (StoreKept.refl s).commitTxn.boot

theorem bootBankUpdate_fails (hb : s.img.bootUpdate = true) (hd : s.dutyUp 1 = true)
    (hc : (s.drawOutcome.2.commitTxn (controlHome Config.bootPlace) s.drawOutcome.1).1 ≠ E_OK) :
    Answers .bootBankUpdate s fun t => t.bootBank = s.bootBank := by
  have hu := updateBoot_failed_bootBank (s := s.drawOutcome.2) hb hc
  exact ⟨_, bootBankUpdate_due hb hd, (settle_bootBank _).trans hu⟩

theorem bootBankUpdate_none (hb : s.img.bootUpdate = false) : exec .bootBankUpdate s = .next s.settle :=
  done_of_false (by rw [hb, Bool.and_false]) _ _

/-! ABORT (R57). -/

/-- A VALIDATE or SAVE of bank `b` ends without a valid bank. -/
def Machine.State.unvalidated (s : State) (b : Bool) : State :=
  ((s.setFlag nvjBase (bankValid b) false).modBank b fun x => { x with slots := 0 }).endOp E_OK

theorem decideAbort_elsewhere (hm : s.mst ∉ [stLoad, stReady, stRun, stService]) : decideAbort s = (E_STATE, s) := by
  have h : s.mstIn [stLoad, stReady, stRun, stService] = false := by simpa [State.mstIn] using hm
  exact if_pos (by rw [h]; rfl)

theorem decideAbort_served (hm : s.mst ∈ [stLoad, stReady, stRun, stService]) : decideAbort s =
    if s.imgPhase = phIdle then (E_OK, s.endStaging)
    else if s.imgPhase = phPreparing ∨ s.imgPhase = phPending then (E_OK, s.endStaging.abandonCommit E_OK)
    else if s.imgPhase = phStaging then (E_OK, s.endStaging.endOp E_OK)
    else (E_OK, s.endStaging.unvalidated s.img.nextBank) := by
  have h : s.mstIn [stLoad, stReady, stRun, stService] = true := List.contains_iff_mem.mpr hm
  exact if_neg (by rw [h]; decide)

theorem imgAbort_pending (h : Served s p) (hm : s.mst ∈ [stLoad, stReady, stRun, stService]) (hp : s.imgPhase = phPending) :
    Answers (.imgAbort p) s fun t =>
      t.imgPhase = phIdle ∧ t.rd nvjBase Reg.IMG_STATUS_RESULT = 0 ∧ t.img.next = [] ∧ t.img.active = s.img.active ∧
      t.rd nvjBase Reg.IMG_COMMITS_ABANDONED = min (s.rd nvjBase Reg.IMG_COMMITS_ABANDONED + 1) 65535 ∧ t.outbox = s.outbox ++ [.result p E_OK] := by
  have hd : decideAbort s = (E_OK, s.endStaging.abandonCommit E_OK) := by
    rw [decideAbort_served hm, hp, if_neg (by decide), if_pos (.inr rfl)]
  have hp' : s.endStaging.imgPhase = phPending := hp
  refine ⟨_, command_decides h hd, ?_⟩
  simp [abandonCommit_imgPhase (.inr hp'), abandonCommit_result (.inr hp'), abandonCommit_counts (.inr hp'), abandonCommit_img (.inr hp'),
    abandonCommit_outbox (.inr hp'), E_OK]

theorem decideAbort_idle (hm : s.mst ∈ [stLoad, stReady, stRun, stService]) (hp : s.imgPhase = phIdle) : decideAbort s = (E_OK, s.endStaging) := by
  rw [decideAbort_served hm, if_pos hp]

theorem unvalidated_valid (s : State) (b : Bool) : (s.unvalidated b).validBank b = false := by
  rw [State.unvalidated, endOp_validBank]
  cases b
  · exact State.flag_setFlag_same s nvjBase (bankValid false) false (by decide) rfl
  · exact State.flag_setFlag_same s nvjBase (bankValid true) false (by decide) rfl

theorem imgAbort_running (h : Served s p) (hm : s.mst ∈ [stLoad, stReady, stRun, stService]) (hp : s.imgPhase ∈ [phValidating, phSaving]) :
    Answers (.imgAbort p) s fun t =>
      t.imgPhase = phIdle ∧ t.rd nvjBase Reg.IMG_STATUS_RESULT = 0 ∧ t.validBank s.img.nextBank = false ∧
      (t.bank s.img.nextBank).savedOk = (s.bank s.img.nextBank).savedOk ∧ t.img.active = s.img.active ∧ t.outbox = s.outbox ++ [.result p E_OK] := by
  have hd : decideAbort s = (E_OK, s.endStaging.unvalidated s.img.nextBank) := by
    rw [decideAbort_served hm]
    simp only [List.mem_cons, List.not_mem_nil, or_false] at hp
    rcases hp with hp | hp <;> rw [hp, if_neg (by decide), if_neg (by decide), if_neg (by decide)]
  have hk : ∀ u : State, (u.unvalidated s.img.nextBank).imgPhase = phIdle ∧ (u.unvalidated s.img.nextBank).rd nvjBase Reg.IMG_STATUS_RESULT = E_OK.toNat :=
    fun u => ⟨endOp_imgPhase _ _, endOp_result _ _⟩
  obtain ⟨hi, hr⟩ := hk s.endStaging
  refine ⟨_, command_decides h hd, ?_⟩
  simp only [settle_imgPhase, answer_imgPhase, settle_result, State.answer_rd, settle_validBank, answer_validBank, settle_bank, answer_bank,
    State.settle_img, State.answer_img, State.settle_outbox, State.answer_outbox, hi, hr, unvalidated_valid]
  simp [State.unvalidated, E_OK]

/-- Settles O7, command by command. -/
theorem imageBanksAreSavedAndCommitted : Obligations.ImageBanksAreSavedAndCommitted := by
  unfold Obligations.ImageBanksAreSavedAndCommitted
  exact ⟨fun _ _ _ => imgSave_starts, fun _ _ _ => saveComplete_kept, fun _ => saveComplete_active, fun _ _ _ => saveComplete_failed,
    fun _ _ _ => imgCommit_prepares, fun _ _ _ _ => imgCommit_atStroke,
    fun _ _ _ _ h ho ha hr => command_decides h (decideCommit_refused ho ha hr), fun _ => preparationComplete_pends, fun _ => bootBankUpdate_taken,
    fun _ => bootBankUpdate_fails, fun _ => bootBankUpdate_none, fun _ _ => imgAbort_pending,
    fun _ _ h hm hp => command_decides h (decideAbort_idle hm hp), fun _ _ => imgAbort_running,
    fun _ _ h hm => command_decides h (decideAbort_elsewhere hm), fun _ _ h => command_decides h rfl⟩

end Sys2Proof
end

