-- ==== Sys2Proof/Proofs/CellOperationsKeepImage.lean ====
section
/-! A commit writes the image state itself; the operations on cells, inputs, connections and the recorder that it goes through leave it
alone (R53, R54). One lemma per operation, in the order of the model's files; a proof with the dot follows the operation's text. -/

namespace Sys2Proof

open Sys2Proof.Machine

/-- The state of the images is `i`. A definition of its own, so that no two states are unfolded against each other. -/
def ImageIs (i : ImageSt) (s : State) : Prop := s.img = i

namespace ImageIs

variable {i : ImageSt} {s t u : State} {α β : Type}

/-! Branches, repetitions and pairs. -/

theorem of_eq (h : ImageIs i s) (ht : t.img = s.img) : ImageIs i t := ht.trans h

protected theorem ite {c : Prop} [Decidable c] (ht : ImageIs i t) (hu : ImageIs i u) : ImageIs i (if c then t else u) := by
  split
  · exact ht
  · exact hu

theorem iteSnd {c : Prop} [Decidable c] {p q : α × State} (hp : ImageIs i p.2) (hq : ImageIs i q.2) : ImageIs i (if c then p else q).2 := by
  split
  · exact hp
  · exact hq

theorem ifThen {c : Prop} [Decidable c] (h : ImageIs i s) (ht : ImageIs i s → ImageIs i t) : ImageIs i (if c then t else s) := .ite (ht h) h

theorem ifElse {c : Prop} [Decidable c] (h : ImageIs i s) (ht : ImageIs i s → ImageIs i t) : ImageIs i (if c then s else t) := .ite h (ht h)

theorem when {c : Bool} {f : State → State} (h : ImageIs i s) (hf : ∀ t, ImageIs i t → ImageIs i (f t)) : ImageIs i (s.when c f) := .ite (hf s h) h

theorem foldl {f : State → α → State} {l : List α} (h : ImageIs i s) (hf : ∀ t a, ImageIs i t → ImageIs i (f t a)) : ImageIs i (l.foldl f s) := by
  induction l generalizing s with
  | nil => exact h
  | cons a l ih => exact ih (hf s a h)

/-- The state of a pair that has been taken apart. -/
theorem out {p : α × State} {a : α} (h : p = (a, t)) (hp : ImageIs i p.2) : ImageIs i t := by rwa [h] at hp

/-! Writes of one part of the state. -/

theorem setReg {a : Nat} {v : Word} (h : ImageIs i s) : ImageIs i (s.setReg a v) := .of_eq h rfl
theorem wr {b : Nat} {f : Field} {v : Nat} (h : ImageIs i s) : ImageIs i (s.wr b f v) := h.setReg
theorem wrw {b : Nat} {f : Field} {v : Word} (h : ImageIs i s) : ImageIs i (s.wrw b f v) := h.setReg
theorem setFlag {b : Nat} {f : Field} {v : Bool} (h : ImageIs i s) : ImageIs i (s.setFlag b f v) := h.setReg
theorem bumpBy {b : Nat} {f : Field} {n : Nat} (h : ImageIs i s) : ImageIs i (s.bumpBy b f n) := h.setReg
theorem bump {b : Nat} {f : Field} (h : ImageIs i s) : ImageIs i (s.bump b f) := h.setReg
theorem dropPage {id : Nat} (h : ImageIs i s) : ImageIs i (s.dropPage id) := .of_eq h rfl
theorem clearPage {id : Nat} (h : ImageIs i s) : ImageIs i (s.clearPage id) := .of_eq h rfl
theorem modQ {f : QueueSt → QueueSt} (h : ImageIs i s) : ImageIs i (s.modQ f) := .of_eq h rfl
theorem withCan0 {x : CanSt} (h : ImageIs i s) : ImageIs i { s with can0 := x } := .of_eq h rfl
theorem withCan1 {x : CanSt} (h : ImageIs i s) : ImageIs i { s with can1 := x } := .of_eq h rfl
theorem commitTxn {homes : List Nat} (h : ImageIs i s) : ImageIs i (s.commitTxn homes .clean).2 := .of_eq h (commitTxn_clean s homes).img

/-! `Machine/Ops.lean`. -/

theorem emit {o : Output} (h : ImageIs i s) : ImageIs i (s.emit o) := .of_eq h rfl
theorem draw (h : ImageIs i s) : ImageIs i s.draw.2 := .of_eq h rfl
theorem modFab {f : FabricSt → FabricSt} (h : ImageIs i s) : ImageIs i (s.modFab f) := .of_eq h rfl
theorem modToc {f : TocsinSt → TocsinSt} (h : ImageIs i s) : ImageIs i (s.modToc f) := .of_eq h rfl
theorem modChain {f : ChainSt → ChainSt} (h : ImageIs i s) : ImageIs i (s.modChain f) := .of_eq h rfl
theorem modNet {f : NetSt → NetSt} (h : ImageIs i s) : ImageIs i (s.modNet f) := .of_eq h rfl
theorem modRec {f : RecSt → RecSt} (h : ImageIs i s) : ImageIs i (s.modRec f) := .of_eq h rfl
theorem modTab {f : TaborSt → TaborSt} (h : ImageIs i s) : ImageIs i (s.modTab f) := .of_eq h rfl
theorem notice {kind : AlarmKind} {source new key : Nat} (h : ImageIs i s) : ImageIs i (s.notice kind source new key) := .ite h.modTab h
theorem modCell {id : Nat} {f : CellSt → CellSt} (h : ImageIs i s) : ImageIs i (s.modCell id f) := h.modFab
theorem modUc {n : Nat} {f : UcSt → UcSt} (h : ImageIs i s) : ImageIs i (s.modUc n f) := .of_eq h rfl
theorem modDp {n : Nat} {f : DpSt → DpSt} (h : ImageIs i s) : ImageIs i (s.modDp n f) := .of_eq h rfl
theorem modAx {n : Nat} {f : AxSt → AxSt} (h : ImageIs i s) : ImageIs i (s.modAx n f) := .of_eq h rfl
theorem modMb {n : Nat} {f : MbxSt → MbxSt} (h : ImageIs i s) : ImageIs i (s.modMb n f) := .of_eq h rfl
theorem modFc {n : Nat} {f : FcSt → FcSt} (h : ImageIs i s) : ImageIs i (s.modFc n f) := h.modFab
theorem modLp {n : Nat} {f : LoopSt → LoopSt} (h : ImageIs i s) : ImageIs i (s.modLp n f) := h.modFab
theorem modPh {n : Nat} {f : PhasorSt → PhasorSt} (h : ImageIs i s) : ImageIs i (s.modPh n f) := h.modFab
theorem modCan {c : Fin 2} {f : CanSt → CanSt} (h : ImageIs i s) : ImageIs i (s.modCan c f) := .ite h.withCan0 h.withCan1
theorem modQp {n : Nat} {f : QpSt → QpSt} (h : ImageIs i s) : ImageIs i (s.modQp n f) := h.modQ

/-! `Machine/Operands.lean`. -/

theorem dropHeld {id : Nat} (h : ImageIs i s) : ImageIs i (s.dropHeld id) := h.modFab

/-! `Machine/Cells.lean`. -/

theorem loopCst {id was n : Nat} (h : ImageIs i s) : ImageIs i (s.loopCst id was n) := .ite h.modLp h
theorem syncOff {g : Nat} (h : ImageIs i s) : ImageIs i (s.syncOff g) := .ite h h.wr.modPh

theorem endPermit {g next : Nat} (h : ImageIs i s) : ImageIs i (s.endPermit g next) := by
  unfold State.endPermit
  refine .modPh (.wr (.bump (.setFlag ?_)))
  split
  · exact h.modDp
  · exact h

theorem startPh {id : Nat} {keep : Bool} (h : ImageIs i s) : ImageIs i (s.startPh id keep) := h.wrw.setFlag.wr.modPh

theorem phCst {id was n : Nat} (h : ImageIs i s) : ImageIs i (s.phCst id was n) :=
  .ite (((h.setFlag.when fun _ h => h.endPermit).ifElse fun h => h.syncOff).when fun _ h => h.startPh) h

theorem setComparator {n c : Nat} {v : Bool} (h : ImageIs i s) : ImageIs i (s.setComparator n c v) := h.setFlag.ifThen fun h => h.notice
theorem ucCst {id n : Nat} (h : ImageIs i s) : ImageIs i (s.ucCst id n) := .ite h.setComparator.setComparator.modUc h
theorem dpCst {id n : Nat} (h : ImageIs i s) : ImageIs i (s.dpCst id n) := .ite h.setFlag.setFlag.setFlag h

theorem setCst {id n : Nat} (h : ImageIs i s) : ImageIs i (s.setCst id n) := by
  unfold State.setCst
  refine .ite ?_ ?_
  · exact (h.wr.loopCst.phCst.ucCst.dpCst.when fun _ h => h.setFlag).modCell
  · exact (h.wr.loopCst.phCst.ucCst.dpCst.when fun _ h => h.setFlag).ifThen fun h => h.modCell

theorem takeSafe {id : Nat} (h : ImageIs i s) : ImageIs i (s.takeSafe id) := .ite h (h.wr.ifElse fun h => h.setCst)

theorem enterFault {id : Nat} {cause : Bool} (h : ImageIs i s) : ImageIs i (s.enterFault id cause) :=
  (h.setCst.setFlag.bump.modCell.when fun _ h => h.setFlag).dropHeld

theorem againFault {id : Nat} {cause : Bool} (h : ImageIs i s) : ImageIs i (s.againFault id cause) := h.modCell
theorem isolateCell {id : Nat} {cause : Bool} (h : ImageIs i s) : ImageIs i (s.isolateCell id cause) := .ite h.enterFault (.ite h.againFault h)
theorem unforce {id : Nat} (h : ImageIs i s) : ImageIs i (s.unforce id) := h.modCell.wr.when fun _ h => h.wr

/-! `Machine/Occur.lean`. -/

theorem occur {src index : Nat} {mag : Rat} {key sig : Nat} (h : ImageIs i s) : ImageIs i (s.occur src index mag key sig) := .ite h.bump h.modRec

/-! `Machine/Blocks.lean`. -/

theorem setRec_ {n : Nat} (h : ImageIs i s) : ImageIs i (s.setRec_ n) := h.wr
theorem showLog (h : ImageIs i s) : ImageIs i s.showLog := h.wr.wr

/-! `Machine/Axes.lean`. -/

theorem setAxf {n : Nat} {f : Field} {v : Bool} (h : ImageIs i s) : ImageIs i (s.setAxf n f v) := h.setFlag
theorem setAxPos {n : Nat} {x : Int} (h : ImageIs i s) : ImageIs i (s.setAxPos n x) := h.wrw
theorem posFromEnc {n : Nat} (h : ImageIs i s) : ImageIs i (s.posFromEnc n) := h.setAxPos.modAx
theorem latchEnc {n : Nat} (h : ImageIs i s) : ImageIs i (s.latchEnc n) := h.modAx
theorem stopAx {n : Nat} {p : StopPlan} (h : ImageIs i s) : ImageIs i (s.stopAx n p) := h.modAx
theorem failHoming {n cause : Nat} (h : ImageIs i s) : ImageIs i (s.failHoming n cause) := .ite h.wr.wr.wr.setAxf.setAxf.bump.modAx.stopAx h

theorem showSpeed {n : Nat} {old new : Rat} (h : ImageIs i s) : ImageIs i (s.showSpeed n old new) :=
  (h.setAxf.setAxf.wr.setAxf.when fun _ h => h.setAxf).wrw

theorem showLimits {n : Nat} (h : ImageIs i s) : ImageIs i (s.showLimits n) := h.setAxf.setAxf.setAxf.modAx.setAxf

theorem loadAxRegs {n : Nat} (h : ImageIs i s) : ImageIs i (s.loadAxRegs n) :=
  h.setFlag.setFlag.setFlag.setFlag.setFlag.wr.wr.wrw.wrw.wrw.wrw.wrw.wrw.wrw.showLimits

theorem latchIfUnhomed {n : Nat} (h : ImageIs i s) : ImageIs i (s.latchIfUnhomed n) := .ite h h.latchEnc
theorem adoptAx {n : Nat} (h : ImageIs i s) : ImageIs i (s.adoptAx n) := .ite h.modAx.loadAxRegs.latchIfUnhomed h
theorem bridgesOff {n : Nat} (h : ImageIs i s) : ImageIs i (s.bridgesOff n) := .ite (h.modAx.when fun _ h => h.setAxf).setAxf.showSpeed.adoptAx h
theorem bridgesOn {n : Nat} (h : ImageIs i s) : ImageIs i (s.bridgesOn n) := .ite h (.setAxf (.modAx (.ite h.posFromEnc h)))
theorem setTarget {n : Nat} {t : Int} {p : StopPlan} (h : ImageIs i s) : ImageIs i (s.setTarget n t p) := h.wrw.ifElse fun h => h.modAx.setAxf
theorem stopSafe {n : Nat} (h : ImageIs i s) : ImageIs i (s.stopSafe n) := .ite h h.stopAx
theorem safeStop {n : Nat} (h : ImageIs i s) : ImageIs i (s.safeStop n) := .ite (.setTarget (.ite h h.modAx)) h.stopSafe

theorem driveAx {n : Nat} (h : ImageIs i s) : ImageIs i (s.driveAx n) := by
  unfold State.driveAx
  refine .ite ?_ ?_
  · exact h
  · exact (((h.setAxf.ifElse fun h => .ite h.failHoming (.ite h.failHoming (.ite h.failHoming (.ite h.failHoming h)))).when
      fun _ h => h.bridgesOff).setAxf.when fun _ h => h.modAx).ifThen fun h => h.bridgesOn.safeStop

theorem startAx {id : Nat} {c : StartCause} {old : List Record} {sameRef : Bool} (h : ImageIs i s) : ImageIs i (s.startAx id c old sameRef) := by
  unfold State.startAx
  dsimp only
  split
  · exact h.modAx.loadAxRegs.latchEnc.driveAx
  · exact ((h.modAx.failHoming.modAx.modAx.ifElse fun h => h.setAxf).ifElse fun h => h.loadAxRegs.latchIfUnhomed).driveAx
  · exact h.modAx.latchIfUnhomed.showLimits.driveAx

/-! `Machine/FuncCells.lean`. -/

theorem startFc {id : Nat} (h : ImageIs i s) : ImageIs i (s.startFc id) := h.wr.wr.wr.wrw.wrw.wrw.wrw.wr.modFc

/-! `Machine/Channels.lean`. -/

theorem loadTrim {n : Nat} (h : ImageIs i s) : ImageIs i (s.loadTrim n) := by
  unfold State.loadTrim
  dsimp only
  split <;> exact h.wrw.wrw.setFlag

theorem driveUc {n : Nat} (h : ImageIs i s) : ImageIs i (s.driveUc n) := by
  unfold State.driveUc
  refine .ite h ?_
  split
  · exact h.wrw.wrw.modUc
  · exact .ite h h.wrw.wrw.modUc

theorem setCaps {n : Nat} {lo hi : Option (Word × Word)} (h : ImageIs i s) : ImageIs i (s.setCaps n lo hi) := h.setFlag.setFlag.modUc

theorem startUc {id : Nat} {c : StartCause} (h : ImageIs i s) : ImageIs i (s.startUc id c) :=
  ((h.when fun _ h =>
    h.wr.wr.wr.setFlag.setFlag.setFlag.setFlag.setFlag.wr.wr.wr.setFlag.wrw.wrw.wr.setFlag.setComparator.setComparator.setReg.setFlag.modUc.setCaps.loadTrim).modUc.when
    fun _ h => h.modUc.isolateCell).ifElse fun h => h.driveUc

/-! `Machine/Points.lean`. -/

theorem followBond {n : Nat} (h : ImageIs i s) : ImageIs i (s.followBond n) :=
  .ite ((h.when fun _ h => h.bump).foldl fun _ _ h => h.wr).setReg.wrw h

theorem driveDp {n : Nat} (h : ImageIs i s) : ImageIs i (s.driveDp n) := .ite h (h.when fun _ h => h.setFlag).setFlag.setFlag.followBond
theorem sumLoad {db : Nat} (h : ImageIs i s) : ImageIs i (s.sumLoad db) := h.wrw

theorem startDp {id : Nat} {c : StartCause} (h : ImageIs i s) : ImageIs i (s.startDp id c) :=
  (h.when fun _ h => (h.wr.wr.setFlag.setFlag.setFlag.setFlag.setFlag.setFlag.wr.wr.setReg.setFlag.when
    fun _ h => h.wrw).modDp).wrw.modDp.driveDp

/-! `Machine/Drive.lean`. -/

theorem driveCell {id : Nat} (h : ImageIs i s) : ImageIs i (s.driveCell id) := by
  unfold State.driveCell
  split
  · exact h.driveUc
  · exact h.driveDp
  · exact h.driveAx
  · exact h

theorem lineCell {id : Nat} {on : Bool} (h : ImageIs i s) : ImageIs i (s.lineCell id on) := .ite h.modCell.takeSafe.driveCell h.modCell.driveCell

/-! `Machine/Tocsin.lean`. -/

theorem modTin {n : Nat} {f : TripIn → TripIn} (h : ImageIs i s) : ImageIs i (s.modTin n f) := h.modToc
theorem countBypasses (h : ImageIs i s) : ImageIs i s.countBypasses := h.wr
theorem endBypass {n : Nat} (h : ImageIs i s) : ImageIs i (s.endBypass n) := .ite h.modTin.occur.countBypasses h

theorem setTripped {k : Nat} {v : Bool} (h : ImageIs i s) : ImageIs i (s.setTripped k v) :=
  (h.when fun _ h => h.modToc).setFlag.ifThen fun h => h.setFlag

/-! `Machine/Chain.lean`. -/

theorem modCport {p : ChainPort} {f : ChainPortSt → ChainPortSt} (h : ImageIs i s) : ImageIs i (s.modCport p f) := by
  unfold State.modCport
  split <;> exact h.modChain

protected theorem dropFrame (h : ImageIs i s) : ImageIs i (dropFrame s) := h.bump

theorem correct {f : ChainFrame} {arrived : Nat} (h : ImageIs i s) : ImageIs i (s.correct f arrived).2 :=
  .iteSnd (.iteSnd h.bump (h.when fun _ h => h.dropFrame).bump.wr) h

theorem free_ {ingress : ChainPort} {vc n : Nat} (h : ImageIs i s) : ImageIs i (s.free_ ingress vc n) := h.modCport
theorem emitFrame {p : ChainPort} {f : ChainFrame} (h : ImageIs i s) : ImageIs i (s.emitFrame p f) := .ite h.emit h.emit

theorem egress {p : ChainPort} (h : ImageIs i s) : ImageIs i (s.egress p) := by
  unfold State.egress
  split
  · exact h
  · split
    · exact h
    · exact .ifThen (.when (.modCport (.iteSnd h h.correct)) fun _ h => h.free_) fun h => h.emitFrame

theorem originate {p : ChainPort} {f : ChainFrame} (h : ImageIs i s) : ImageIs i (s.originate p f) := .ite h (h.modCport.ifThen fun h => h.egress)
theorem sendChain {f : ChainFrame} (h : ImageIs i s) : ImageIs i (s.sendChain f) := .ite h.originate.originate (.ite h.originate h.originate)
theorem modPeer {k : Nat} {f : PeerSt → PeerSt} (h : ImageIs i s) : ImageIs i (s.modPeer k f) := h.modChain
theorem startPeer {k : Nat} (h : ImageIs i s) : ImageIs i (s.startPeer k) := h.setFlag.wr.modPeer

/-! `Machine/Queue.lean`. -/

theorem meetPoison (h : ImageIs i s) : ImageIs i s.meetPoison := h.bump
theorem inFlight (h : ImageIs i s) : ImageIs i s.inFlight := h.draw.wr
theorem tlbFill {t : TlbEntry} (h : ImageIs i s) : ImageIs i (s.tlbFill t) := .ite (h.modQ) (h.draw.modQ)

theorem lookup {dom iova : Nat} (h : ImageIs i s) : ImageIs i (s.lookup dom iova).2 := by
  unfold State.lookup
  refine .iteSnd h.bump ?_
  split
  · exact h
  · dsimp only
    split
    · exact h.bump.tlbFill
    · exact (h.bump.when fun _ h => h.meetPoison).bump

theorem translate {dom iova : Nat} {write : Bool} (h : ImageIs i s) : ImageIs i (s.translate dom iova write).2 := by
  unfold State.translate
  split
  · next heq => exact .out heq h.lookup
  · next heq => exact .iteSnd (.out heq h.lookup) (.bump (.out heq h.lookup))

theorem readGranule {dom iova : Nat} (h : ImageIs i s) : ImageIs i (s.readGranule dom iova).2 := by
  unfold State.readGranule
  split
  · next heq => exact .out heq h.translate
  · next heq => exact .iteSnd (.meetPoison (.out heq h.translate)) (.out heq h.translate)

theorem writeGranule {dom iova : Nat} {bytes : List Byte} (h : ImageIs i s) : ImageIs i (s.writeGranule dom iova bytes).2 := by
  unfold State.writeGranule
  split
  · next heq => exact .out heq h.translate
  · next heq => exact .iteSnd (.meetPoison (.out heq h.translate)) (.modQ (.out heq h.translate))

theorem haltRing {n : Nat} {rx wbf : Bool} {kind iova : Nat} {code : Code} (h : ImageIs i s) : ImageIs i (s.haltRing n rx wbf kind iova code) :=
  h.setFlag.setFlag.wr.wr.wr.wr.wr.wrw

theorem ringIdle {n : Nat} {rx : Bool} (h : ImageIs i s) : ImageIs i (s.ringIdle n rx) := h.modQp.when fun _ h => h.setFlag

theorem accessFault {n : Nat} {rx writeback : Bool} {e : AccessFault} (h : ImageIs i s) : ImageIs i (s.accessFault n rx writeback e) :=
  h.haltRing.ringIdle

theorem completeDesc {n : Nat} {rx : Bool} {count : Nat} {code : Code} {flags saddr sqp : Nat} (h : ImageIs i s) :
    ImageIs i (s.completeDesc n rx count code flags saddr sqp).2 := by
  unfold State.completeDesc
  dsimp only
  split
  · next heq => exact .accessFault (.out heq h.inFlight.readGranule)
  · next heq =>
      split
      · next heq' => exact .accessFault (.out heq' (.writeGranule (.out heq h.inFlight.readGranule)))
      · next heq' => exact .ringIdle (.wr (.out heq' (.writeGranule (.out heq h.inFlight.readGranule))))

theorem dataFault {n : Nat} {rx : Bool} {count iova : Nat} {e : AccessFault} {saddr sqp : Nat} (h : ImageIs i s) :
    ImageIs i (s.dataFault n rx count iova e saddr sqp) := by
  unfold State.dataFault
  split
  · next heq => exact .out heq h.completeDesc
  · next heq => exact .haltRing (.out heq h.completeDesc)

theorem endMessage {n : Nat} (h : ImageIs i s) : ImageIs i (s.endMessage n) := h.modQp

theorem sendBulk {n : Nat} {d : Desc} {valid mflags : Nat} {fcode : Code} {payload : List (List Byte)} (h : ImageIs i s) :
    ImageIs i (s.sendBulk n d valid mflags fcode payload) :=
  h.sendChain.modQp

theorem sendFull {n : Nat} {d : Desc} (h : ImageIs i s) : ImageIs i (s.sendFull n d) := .ite h (h.sendBulk.modQp.when fun _ h => h.endMessage)

theorem issue {n : Nat} {d : Desc} (h : ImageIs i s) : ImageIs i (s.issue n d).2 := by
  unfold State.issue
  dsimp only
  split
  · next heq => exact .out heq h.readGranule
  · next heq =>
      refine .iteSnd ?_ (.sendFull (.modQp (.out heq h.readGranule)))
      split
      · next heq' => exact .out heq' (.writeGranule (.out heq h.readGranule))
      · next heq' => exact .modQp (.out heq' (.writeGranule (.out heq h.readGranule)))

theorem issueTo {n : Nat} {d : Desc} {stop fuel : Nat} (h : ImageIs i s) : ImageIs i (s.issueTo n d stop fuel).2 := by
  induction fuel generalizing s with
  | zero => exact h
  | succ fuel ih =>
    unfold State.issueTo
    refine .iteSnd h ?_
    split
    · next heq => exact ImageIs.out heq h.issue
    · next heq => exact ih (.out heq h.issue)

theorem stopTx {n : Nat} {d : Desc} {e : AccessFault} {iova : Nat} (h : ImageIs i s) : ImageIs i (s.stopTx n d e iova) :=
  (h.when fun _ h => h.sendBulk.endMessage).dataFault

theorem transferTx {n : Nat} {d : Desc} {stop : Nat} {atStop : State → Option (AccessFault × Nat) × State} (h : ImageIs i s)
    (hatStop : ∀ t, ImageIs i t → ImageIs i (atStop t).2) : ImageIs i (s.transferTx n d stop atStop) := by
  unfold State.transferTx
  split
  next f t heq =>
  have ht := ImageIs.out heq h.issueTo
  cases f with
  | some f => exact ht.stopTx
  | none =>
    have hu := hatStop t ht
    dsimp only
    generalize atStop t = r at hu
    obtain ⟨f, u⟩ := r
    cases f with
    | some f => exact ImageIs.stopTx hu
    | none => exact .ite hu (ImageIs.completeDesc hu)

theorem startQp {n : Nat} (h : ImageIs i s) : ImageIs i (s.startQp n) := h.wr.wr.wr.wr.modQp

theorem stopQp {n : Nat} (h : ImageIs i s) : ImageIs i (s.stopQp n) := by
  unfold State.stopQp
  dsimp only
  split
  case' h_1 => refine .dataFault ?_
  case' h_2 => refine .dataFault ?_
  all_goals
    split
    · exact .ite (h.draw.transferTx fun _ h => h) h.draw.dataFault
    · exact h

/-! `Machine/Network.lean`. -/

theorem rebindImports {old : List Record} (h : ImageIs i s) : ImageIs i (s.rebindImports old) := h.modNet

/-! `Machine/Phasor.lean`. -/

theorem permitAt {g : Nat} {high : Bool} (h : ImageIs i s) : ImageIs i (s.permitAt g high) := by
  unfold State.permitAt
  split
  · exact h.modDp.driveDp
  · exact h

theorem changePh {id : Nat} {old : List Record} (h : ImageIs i s) : ImageIs i (s.changePh id old) := .ite h.modPh h.setCst.startPh

/-! `Machine/Loops.lean`. -/

theorem setAct {id act : Nat} (h : ImageIs i s) : ImageIs i (s.setAct id act) := h.wr.ifThen fun h => h.notice

theorem startLp {id : Nat} {c : StartCause} (h : ImageIs i s) : ImageIs i (s.startLp id c) :=
  (((((h.wr.wr.setFlag.wr.setFlag.setAct.when fun _ h => h.setFlag).wrw.ifElse fun h => h.wrw.setFlag).when fun _ h => h.wrw.wrw.wr).when
    fun _ h => h.modCell).when fun _ h => h.wr.wr).modLp

/-! `Machine/Recorder.lean`. -/

theorem recStart (h : ImageIs i s) : ImageIs i s.recStart := by
  unfold State.recStart
  refine .ite ?_ ?_
  · exact h
  · exact .ite h.modRec.modRec.setRec_ (h.modRec.bumpBy.when fun _ h => h.commitTxn).modRec.showLog.setRec_

theorem commitRec {old : List Record} (h : ImageIs i s) : ImageIs i (s.commitRec old) := by
  unfold State.commitRec
  refine h.modRec.foldl ?_
  intro _ _ h
  split
  · exact .ite h (h.modRec.ifElse fun h => h.modRec)
  · exact h.modRec

/-! `Machine/Can.lean`. -/

theorem commitCan {old : List Record} (h : ImageIs i s) : ImageIs i (s.commitCan old) := h.foldl fun _ _ h => h.modCan
theorem startMailbox {m : Nat} (h : ImageIs i s) : ImageIs i (s.startMailbox m) := h.modMb

/-! `Machine/Tabor.lean`. -/

theorem showTab (h : ImageIs i s) : ImageIs i s.showTab := h.wr.wr.setFlag
theorem dropPending {a : Nat} (h : ImageIs i s) : ImageIs i (s.dropPending a) := h.modTab
theorem discardPending {a : Nat} (h : ImageIs i s) : ImageIs i (s.discardPending a) := h.dropPending.wr.wr.bump.showTab.notice
theorem commitPairs {changed : List Nat} (h : ImageIs i s) : ImageIs i (s.commitPairs changed) := h.foldl fun _ _ h => h.discardPending

/-! `Machine/Commit.lean`. -/

theorem clearCounters {id : Nat} (h : ImageIs i s) : ImageIs i (s.clearCounters id) := by
  unfold State.clearCounters
  split
  · exact h.foldl fun _ _ h => h.wr
  · exact h

theorem startTo {id : Nat} (h : ImageIs i s) : ImageIs i (s.startTo id) := h.setTripped.modToc

theorem startCell {id : Nat} {c : StartCause} {old : List Record} (h : ImageIs i s) : ImageIs i (s.startCell id c old) := by
  unfold State.startCell
  dsimp only
  split
  · exact h.setCst.startUc
  · exact h.setCst.startDp
  · exact h.setCst.startAx
  · exact h.setCst.startPh
  · exact h.setCst.startLp
  · exact .ite h.setCst.startFc h.setCst.modFc
  · exact h.setCst.startTo
  · exact h.setCst.when fun _ h => h.startPeer
  · exact h.setCst.when fun _ h => h.startQp
  · exact h.setCst.startMailbox
  · exact h.setCst

theorem forgetKind {id : Nat} (h : ImageIs i s) : ImageIs i (s.forgetKind id) := by
  unfold State.forgetKind
  dsimp only
  split
  · exact h.modUc
  · exact h.modDp
  · exact h.modAx
  · exact h.modPh
  · exact h.modLp
  · exact h.modFc
  · exact h.modPeer
  · exact h.modQp
  · exact h

theorem forgetCell {id : Nat} (h : ImageIs i s) : ImageIs i (s.forgetCell id) := h.modCell.modFab.forgetKind

theorem removeCell {id : Nat} (h : ImageIs i s) : ImageIs i (s.removeCell id) := by
  unfold State.removeCell
  refine .dropPage (.forgetCell (.unforce ?_))
  split
  · exact h.permitAt
  · exact h.stopQp
  · exact h.startTo
  · exact h.modMb
  · exact h

theorem meetStart {id : Nat} (h : ImageIs i s) : ImageIs i (s.meetStart id) :=
  (((h.when fun _ h => h.lineCell).when fun _ h => h.takeSafe).when fun _ h => h.isolateCell).when fun _ h => h.isolateCell

theorem newCell {old : List Record} {id : Nat} (h : ImageIs i s) : ImageIs i (s.newCell old id) :=
  (h.forgetCell.when fun _ h => h.dropPage).setFlag.wr.startCell.meetStart

theorem changeCell {old : List Record} {id : Nat} (h : ImageIs i s) : ImageIs i (s.changeCell old id) := by
  unfold State.changeCell
  refine .meetStart (.ite (.changePh ?_) (.startCell ?_))
  all_goals
    refine .when ?_ fun _ h => h.wr
    refine .modCell (.setFlag (.wr (.setFlag (.clearCounters (.wrw (.wr (.unforce ?_)))))))
    split
    · exact h.stopQp
    · exact h.clearPage
    · exact h

theorem startTripIn {r : Record} (h : ImageIs i s) : ImageIs i (s.startTripIn r) := h.modTin.setFlag

theorem commitTripins {old new : List Record} (h : ImageIs i s) : ImageIs i (s.commitTripins old new) :=
  ((h.foldl fun _ _ h => h.endBypass.modTin.setFlag).foldl fun _ _ h => (h.endBypass.when fun _ h => h.modUc).startTripIn).modToc.countBypasses

theorem showImage {b : Bool} (h : ImageIs i s) : ImageIs i (s.showImage b) := h.wrw.wrw.wrw.wrw.wrw

end ImageIs

end Sys2Proof
end

