-- ==== Sys2Proof/Proofs/CommitStages.lean ====
section
/-! A commit in three stages (R52, R53): the directory and the active bank are replaced, the cells and all that hangs on the image follow,
and the counts and the status close it. -/

namespace Sys2Proof

open Sys2Proof.Machine

variable {s t : State} {b load : Bool} {old new : List Record}

/-! The stages. -/

/-- The directory and the active bank are those of the new image. -/
def Machine.State.switched (s : State) (b : Bool) (new : List Record) : State :=
  ((((s.modImg fun i => { i with active := new, next := [], committed := true }).setFlag nvjBase Reg.IMG_STATUS_ACTIVE b).modToc fun t =>
    { t with matrixBad := false }).replaceDirectory new).wr tmBase Reg.STK_CFG_TS_UNITS (tsUnitsOf new)

def removedCells (old new : List Record) : List Nat := (cellsOf old).filter fun id => !(cellsOf new).contains id
def changedCells (old new : List Record) (load : Bool) : List Nat :=
  (cellsOf new).filter fun id => !load && (cellsOf old).contains id && cellChanged old new id
def freshCells (old new : List Record) (load : Bool) : List Nat := (cellsOf new).filter fun id => load || !(cellsOf old).contains id

/-- The cells follow the image. -/
def Machine.State.cellsFollow (s : State) (old new : List Record) (load : Bool) : State :=
  (freshCells old new load).foldl (fun s id => s.newCell old id)
    ((changedCells old new load).foldl (fun s id => s.changeCell old id) ((removedCells old new).foldl State.removeCell s))

/-- What hangs on the image follows: load sums, trip inputs, imports, CAN queues. -/
def Machine.State.inputsFollow (s : State) (old new : List Record) : State :=
  ((((List.range 4).foldl State.sumLoad s).commitTripins old new).rebindImports old).commitCan old

/-- The recorder follows, then the legacy pairs and the image's registers. -/
def Machine.State.restFollows (s : State) (b first : Bool) (old : List Record) (gone : List Nat) : State :=
  ((if first then s.recStart else s.commitRec old).commitPairs gone).showImage b

/-- The commit is counted, the operation has ended, and VOLATILE says whether the boot bank differs. -/
def Machine.State.commitCloses (s : State) (b : Bool) : State :=
  let s := (s.bump nvjBase Reg.IMG_COMMITS_COMMITS).endOp E_OK
  let boot := s.bootBank == b
  let s := s.setFlag nvjBase Reg.IMG_STATUS_VOLATILE (!boot)
  s.modImg fun i => { i with bootUpdate := !boot && s.flag nvjBase (bankSaved b) && !s.flag modBase Reg.MOD_HEALTH_NV_DEGRADED }

theorem takeCommit_stages (s : State) (b load : Bool) (new : List Record) : s.takeCommit b new load =
    ((((s.switched b new).cellsFollow s.img.active new load).inputsFollow s.img.active new).restFollows b (s.recState == rsOff) s.img.active
      (changedCells s.img.active new load ++ removedCells s.img.active new)).commitCloses b := (rfl)

/-! The image state through the stages. -/

theorem switched_img (s : State) (b : Bool) (new : List Record) :
    (s.switched b new).img = { s.img with active := new, next := [], committed := true } := (rfl)

theorem ImageIs.cellsFollow {i : ImageSt} (h : ImageIs i s) : ImageIs i (s.cellsFollow old new load) :=
  ((h.foldl fun _ _ h => h.removeCell).foldl fun _ _ h => h.changeCell).foldl fun _ _ h => h.newCell

theorem ImageIs.inputsFollow {i : ImageSt} (h : ImageIs i s) : ImageIs i (s.inputsFollow old new) :=
  (h.foldl fun _ _ h => h.sumLoad).commitTripins.rebindImports.commitCan

theorem ImageIs.restFollows {i : ImageSt} {first : Bool} {gone : List Nat} (h : ImageIs i s) : ImageIs i (s.restFollows b first old gone) :=
  (ImageIs.ite h.recStart h.commitRec).commitPairs.showImage

theorem commitCloses_active (s : State) (b : Bool) : (s.commitCloses b).img.active = s.img.active := by simp [State.commitCloses]
theorem commitCloses_next (s : State) (b : Bool) : (s.commitCloses b).img.next = s.img.next := by simp [State.commitCloses]
theorem commitCloses_committed (s : State) (b : Bool) : (s.commitCloses b).img.committed = s.img.committed := by simp [State.commitCloses]

/-! What a closed commit shows. -/

/-- A field that VOLATILE does not overlap reads as when the operation ended. -/
theorem commitCloses_rd (s : State) (b : Bool) (g : Field) (hg : Apart nvjBase g nvjBase Reg.IMG_STATUS_VOLATILE := by decide) :
    (s.commitCloses b).rd nvjBase g = ((s.bump nvjBase Reg.IMG_COMMITS_COMMITS).endOp E_OK).rd nvjBase g := by
  rw [State.commitCloses, State.modImg_rd, State.rd_setFlag_apart _ _ _ _ _ _ (by decide) hg]

theorem commitCloses_imgPhase (s : State) (b : Bool) : (s.commitCloses b).imgPhase = phIdle :=
  (commitCloses_rd s b _).trans (endOp_imgPhase _ _)

theorem commitCloses_result (s : State) (b : Bool) : (s.commitCloses b).rd nvjBase Reg.IMG_STATUS_RESULT = 0 :=
  (commitCloses_rd s b _).trans (endOp_result _ _)

theorem commitCloses_flag (s : State) (b : Bool) (g : Field) (hg : Apart nvjBase g nvjBase Reg.IMG_STATUS_VOLATILE := by decide) :
    (s.commitCloses b).flag nvjBase g = ((s.bump nvjBase Reg.IMG_COMMITS_COMMITS).endOp E_OK).flag nvjBase g := by
  rw [State.commitCloses, State.modImg_flag, flag_setFlag_apart _ _ _ _ _ _ (by decide) hg]

theorem commitCloses_bootBank (s : State) (b : Bool) : (s.commitCloses b).bootBank = ((s.bump nvjBase Reg.IMG_COMMITS_COMMITS).endOp E_OK).bootBank :=
  commitCloses_flag s b _

theorem commitCloses_volatile (s : State) (b : Bool) :
    (s.commitCloses b).flag nvjBase Reg.IMG_STATUS_VOLATILE = ((s.commitCloses b).bootBank != b) := by
  rw [commitCloses_bootBank, State.commitCloses, State.modImg_flag, State.flag_setFlag_same _ _ _ _ (by decide) rfl, bne]

theorem takeCommit_replaces (s t : State) (b load : Bool) (new : List Record) (h : t = s.takeCommit b new load) :
    t.img.active = new ∧ t.img.next = [] ∧ t.img.committed = true ∧ t.imgPhase = phIdle ∧ t.rd nvjBase Reg.IMG_STATUS_RESULT = 0 ∧
      t.flag nvjBase Reg.IMG_STATUS_VOLATILE = (t.bootBank != b) := by
  rw [takeCommit_stages] at h
  subst h
  refine ⟨?_, ?_, ?_, commitCloses_imgPhase _ _, commitCloses_result _ _, commitCloses_volatile _ _⟩
  · rw [commitCloses_active, ImageIs.restFollows (.inputsFollow (.cellsFollow (switched_img s b new)))]
  · rw [commitCloses_next, ImageIs.restFollows (.inputsFollow (.cellsFollow (switched_img s b new)))]
  · rw [commitCloses_committed, ImageIs.restFollows (.inputsFollow (.cellsFollow (switched_img s b new)))]

/-! The boundary (R52). -/

/-- The commit at its boundary; in LOAD it brings the module to READY. -/
def Machine.State.switchOver (s : State) : State :=
  (s.takeCommit s.img.nextBank s.img.next (s.mst == stLoad)).when (s.mst == stLoad) fun t => (t.goMst stReady).nameBank (!s.img.nextBank)

theorem commitStep_idle (hp : s.imgPhase ∉ [phPreparing, phPending]) : s.commitStep = s := by
  simp only [List.mem_cons, List.not_mem_nil, or_false, not_or] at hp
  obtain ⟨h1, h2⟩ := hp
  unfold State.commitStep
  rw [if_neg (by simp [h1, h2]), if_neg h2]

theorem commitStep_anyBoundary (ha : s.img.atStroke = false) (hp : s.imgPhase = phPending) : s.commitStep = s.switchOver := by
  unfold State.commitStep
  rw [if_neg (by simp [ha]), if_pos hp]
  rfl

section

variable {d : Nat} (ha : s.img.atStroke = true) (hp : s.imgPhase ∈ [phPreparing, phPending])
  (hd : d = (s.img.atNo.toNat + 2 ^ 32 - s.strokeNo % 2 ^ 32) % 2 ^ 32)

include ha hp hd

theorem commitStep_atStroke : s.commitStep =
    if d = 0 then if s.imgPhase = phPending then s.switchOver else s.abandonCommit E_TIMEOUT
    else if d < 2 ^ 31 then s else s.abandonCommit E_TIMEOUT := by
  unfold State.commitStep
  rw [if_pos (by simpa [ha] using hp), ← hd]
  rfl

theorem commitStep_waits (h0 : 0 < d) (h : d < 2 ^ 31) : s.commitStep = s := by
  rw [commitStep_atStroke ha hp hd, if_neg (Nat.ne_of_gt h0), if_pos h]

theorem commitStep_missed (h : 2 ^ 31 ≤ d ∨ (d = 0 ∧ s.imgPhase = phPreparing)) : s.commitStep = s.abandonCommit E_TIMEOUT := by
  rw [commitStep_atStroke ha hp hd]
  rcases h with h | ⟨h0, hq⟩
  · rw [if_neg (by omega), if_neg (Nat.not_lt.mpr h)]
  · rw [if_pos h0, hq, if_neg (by decide)]

end

theorem commitStep_reached (hp : s.imgPhase = phPending) (h : s.img.atStroke = false ∨ s.img.atNo.toNat = s.strokeNo % 2 ^ 32) :
    s.commitStep = s.switchOver := by
  cases ha : s.img.atStroke
  · exact commitStep_anyBoundary ha hp
  · have hn := h.resolve_left (by simp [ha])
    rw [commitStep_atStroke ha (by simp [hp]) rfl, hn, if_pos (by omega), if_pos hp]

theorem switchOver_served (h : s.mst ≠ stLoad) : s.switchOver = s.takeCommit s.img.nextBank s.img.next false := by
  rw [State.switchOver, beq_eq_false_iff_ne.mpr h, State.when_false]

theorem switchOver_load (h : s.mst = stLoad) :
    s.switchOver = ((s.takeCommit s.img.nextBank s.img.next true).goMst stReady).nameBank (!s.img.nextBank) := by
  rw [State.switchOver, beq_iff_eq.mpr h, State.when_true]

theorem switchOver_load_mst (h : s.mst = stLoad) : s.switchOver.mst = stReady := by
  have hn : ∀ u : State, (u.nameBank (!s.img.nextBank)).mst = u.mst := fun u => State.rd_setFlag_apart _ _ _ _ _ _ (by decide) (by decide)
  rw [switchOver_load h, hn, State.goMst_mst _ _ (by decide)]

theorem commitStep_pending (s : State) (hp : s.imgPhase = phPending) (h : s.img.atStroke = false ∨ s.img.atNo.toNat = s.strokeNo % 2 ^ 32) :
    (s.mst ≠ stLoad → s.commitStep = s.takeCommit s.img.nextBank s.img.next false) ∧
    (s.mst = stLoad → s.commitStep = ((s.takeCommit s.img.nextBank s.img.next true).goMst stReady).nameBank (!s.img.nextBank) ∧
      s.commitStep.mst = stReady) := by
  rw [commitStep_reached hp h]
  exact ⟨switchOver_served, fun hm => ⟨switchOver_load hm, switchOver_load_mst hm⟩⟩

theorem commitStep_atNumber (s : State) (ha : s.img.atStroke = true) (hp : s.imgPhase ∈ [phPreparing, phPending]) (d : Nat)
    (hd : d = (s.img.atNo.toNat + 2 ^ 32 - s.strokeNo % 2 ^ 32) % 2 ^ 32) :
    (0 < d → d < 2 ^ 31 → s.commitStep = s) ∧
    (2 ^ 31 ≤ d ∨ (d = 0 ∧ s.imgPhase = phPreparing) →
      s.commitStep.imgPhase = phIdle ∧ s.commitStep.rd nvjBase Reg.IMG_STATUS_RESULT = E_TIMEOUT.toNat ∧ s.commitStep.img.active = s.img.active ∧
      s.commitStep.rd nvjBase Reg.IMG_COMMITS_ABANDONED = min (s.rd nvjBase Reg.IMG_COMMITS_ABANDONED + 1) 65535 ∧
      s.commitStep.fab = s.fab) := by
  refine ⟨commitStep_waits ha hp hd, fun h => ?_⟩
  have hq : s.imgPhase = phPreparing ∨ s.imgPhase = phPending := by simpa using hp
  rw [commitStep_missed ha hp hd h]
  exact ⟨abandonCommit_imgPhase hq, abandonCommit_result hq, by rw [abandonCommit_img hq], abandonCommit_counts hq, abandonCommit_fab hq⟩

end Sys2Proof
end

