-- ==== Sys2Proof/Proofs/CommitKeepsCells.lean ====
section
/-! Where a commit adds, changes and removes no cell, the rest of it leaves the cells alone (R53, R54). -/

namespace Sys2Proof

open Sys2Proof.Machine

variable {s t u : State} {α : Type} {b load : Bool} {old new : List Record}

/-! What stays. -/

/-- Registers that only the first and the last stage of a commit write, or none. -/
def commitRegs : List Nat := [modBase + Reg.MOD_STATE_STATE.off, nvjBase + Reg.IMG_STATUS_ACTIVE.off, nvjBase + Reg.IMG_COMMITS_COMMITS.off]

/-- These and the states of the cells. -/
def CommitKeeps (a : Nat) : Prop := a ∈ commitRegs ∨ ∃ id, (kindOf id).isSome = true ∧ a = cellBase id + Reg.CELL_STATE_STATE.off

/-- A register of a block page. -/
abbrev OnBlockPage (a : Nat) : Prop := 0x100 ≤ pageOf a ∧ a ∉ commitRegs

theorem OnBlockPage.not_commitKeeps {a : Nat} (h : OnBlockPage a) : ¬ CommitKeeps a := by
  rintro (hm | ⟨id, -, rfl⟩)
  · exact h.2 hm
  · exact absurd h.1 (Nat.not_le.mpr (pageOf_cellBase id (by decide)))

/-- Where R16 has cells. -/
theorem kindOf_places {id : Nat} (h : (kindOf id).isSome = true) :
    idRegion id = 1 ∨ idRegion id = 2 ∧ idBlock id < 25 ∨ idRegion id = 3 := by
  unfold kindOf kindAt at h
  split at h
  · next e => exact .inl e
  · next e =>
    refine .inr (.inl ⟨e, ?_⟩)
    by_contra hb
    rw [if_neg (by omega), if_neg (by omega), if_neg (by omega)] at h
    exact absurd h (by decide)
  · next e => exact .inr (.inr e)
  · exact absurd h (by decide)

theorem tiNum_lt (r : Record) : tiNum r < 65536 := by
  have h1 : recSub r < 256 := Nat.mod_lt _ (by decide)
  have h2 : recByte r 0 < 256 := Nat.mod_lt _ (by decide)
  unfold tiNum
  omega

/-- DEMAND of a trip input stands above the cells of Tocsin's block, whatever its number. -/
theorem demand_not_commitKeeps (r : Record) : ¬ CommitKeeps (tbBase + (demandField (tiNum r)).off) := by
  have ho : (demandField (tiNum r)).off = 0x44 + 4 * (tiNum r / 32) := rfl
  have hb : tbBase = 0x218FFF00 := by decide
  have hr := tiNum_lt r
  rw [ho, hb]
  rintro (hm | ⟨id, hk, e⟩)
  · have hl : ∀ a ∈ commitRegs, a < 0x218FFF00 ∨ 0x218FFF00 + 0x3000 ≤ a := by decide
    have ha := hl _ hm
    omega
  · have hp := kindOf_places hk
    have hs : Reg.CELL_STATE_STATE.off < 256 := by decide
    have hc : idCell id < 256 := Nat.mod_lt _ (by decide)
    have hb : idBlock id < 32 := Nat.mod_lt _ (by decide)
    unfold cellBase svc at e
    omega

/-! The relation. -/

/-- `t` holds the cells of `s`. -/
structure CellsStand (s t : State) : Prop where
  fab : t.fab = s.fab
  regs : ∀ a, CommitKeeps a → t.reg a = s.reg a

namespace CellsStand

theorem refl (s : State) : CellsStand s s := ⟨rfl, fun _ _ => rfl⟩

theorem trans (h : CellsStand s t) (h' : CellsStand t u) : CellsStand s u := ⟨h'.fab.trans h.fab, fun a ha => (h'.regs a ha).trans (h.regs a ha)⟩

theorem same (h : CellsStand s t) (hr : u.regs = t.regs := by rfl) (hf : u.fab = t.fab := by rfl) : CellsStand s u :=
  ⟨hf.trans h.fab, fun a ha => by rw [State.reg, hr]; exact h.regs a ha⟩

theorem write {a : Nat} {v : Word} (h : CellsStand s t) (ha : ¬ CommitKeeps a) : CellsStand s (t.setReg a v) :=
  ⟨h.fab, fun c hc => by rw [State.reg_setReg, if_neg fun e : c = a => ha (e ▸ hc), h.regs c hc]⟩

theorem wr {c : Nat} {f : Field} {v : Nat} (h : CellsStand s t) (hb : OnBlockPage (c + f.off) := by decide) : CellsStand s (t.wr c f v) :=
  h.write hb.not_commitKeeps
theorem wrw {c : Nat} {f : Field} {v : Word} (h : CellsStand s t) (hb : OnBlockPage (c + f.off) := by decide) : CellsStand s (t.wrw c f v) :=
  h.write hb.not_commitKeeps
theorem setDemand {r : Record} {v : Bool} (h : CellsStand s t) : CellsStand s (t.setFlag tbBase (demandField (tiNum r)) v) :=
  h.write (demand_not_commitKeeps r)
theorem bumpBy {c : Nat} {f : Field} {n : Nat} (h : CellsStand s t) (hb : OnBlockPage (c + f.off) := by decide) : CellsStand s (t.bumpBy c f n) := h.wr hb
theorem bump {c : Nat} {f : Field} (h : CellsStand s t) (hb : OnBlockPage (c + f.off) := by decide) : CellsStand s (t.bump c f) := h.wr hb

protected theorem ite {c : Prop} [Decidable c] (ht : CellsStand s t) (hu : CellsStand s u) : CellsStand s (if c then t else u) := by
  split
  · exact ht
  · exact hu

theorem when {c : Bool} {f : State → State} (h : CellsStand s t) (hf : ∀ u, CellsStand s u → CellsStand s (f u)) : CellsStand s (t.when c f) := .ite (hf t h) h

theorem foldl {f : State → α → State} {m : List α} (h : CellsStand s t) (hf : ∀ u, ∀ a ∈ m, CellsStand s u → CellsStand s (f u a)) :
    CellsStand s (m.foldl f t) := by
  induction m generalizing t with
  | nil => exact h
  | cons a m ih => exact ih (hf t a List.mem_cons_self h) fun u b hb => hf u b (List.mem_cons_of_mem a hb)

theorem journal (h : CellsStand s t) (h' : JournalOnly t u) : CellsStand s u := by
  have hj : ∀ a ∈ journalRegs, OnBlockPage a := by decide
  exact h.trans ⟨h'.fab, fun a ha => h'.regs a fun hm => (hj a hm).not_commitKeeps ha⟩

/-! The operations of the third stage. -/

theorem modToc {f : TocsinSt → TocsinSt} (h : CellsStand s t) : CellsStand s (t.modToc f) := h.same
theorem modRec {f : RecSt → RecSt} (h : CellsStand s t) : CellsStand s (t.modRec f) := h.same
theorem modNet {f : NetSt → NetSt} (h : CellsStand s t) : CellsStand s (t.modNet f) := h.same
theorem modUc {n : Nat} {f : UcSt → UcSt} (h : CellsStand s t) : CellsStand s (t.modUc n f) := h.same
theorem modTin {n : Nat} {f : TripIn → TripIn} (h : CellsStand s t) : CellsStand s (t.modTin n f) := h.modToc
theorem modCan {c : Fin 2} {f : CanSt → CanSt} (h : CellsStand s t) : CellsStand s (t.modCan c f) := .ite h.same h.same

theorem sumLoads (h : CellsStand s t) : CellsStand s ((List.range 4).foldl State.sumLoad t) := by
  have hd : ∀ d ∈ List.range 4, OnBlockPage (dbBase d + Reg.DB_ILOAD.off) := by decide
  exact h.foldl fun _ d hm h => h.wrw (hd d hm)

theorem occur {src index : Nat} {mag : Rat} {key sig : Nat} (h : CellsStand s t) : CellsStand s (t.occur src index mag key sig) := .ite h.bump h.modRec
theorem countBypasses (h : CellsStand s t) : CellsStand s t.countBypasses := h.wr
theorem endBypass {n : Nat} (h : CellsStand s t) : CellsStand s (t.endBypass n) := .ite h.modTin.occur.countBypasses h
theorem startTripIn {r : Record} (h : CellsStand s t) : CellsStand s (t.startTripIn r) := h.modTin.setDemand

theorem commitTripins (h : CellsStand s t) : CellsStand s (t.commitTripins old new) :=
  ((h.foldl fun _ _ _ h => h.endBypass.modTin.setDemand).foldl fun _ _ _ h => (h.endBypass.when fun _ h => h.modUc).startTripIn).modToc.countBypasses

theorem rebindImports (h : CellsStand s t) : CellsStand s (t.rebindImports old) := h.same
theorem commitCan (h : CellsStand s t) : CellsStand s (t.commitCan old) := h.foldl fun _ _ _ h => h.modCan
theorem inputsFollow (h : CellsStand s t) : CellsStand s (t.inputsFollow old new) := h.sumLoads.commitTripins.rebindImports.commitCan

theorem setRec_ {n : Nat} (h : CellsStand s t) : CellsStand s (t.setRec_ n) := h.wr
theorem showLog (h : CellsStand s t) : CellsStand s t.showLog := h.wr.wr
theorem commitTxn {homes : List Nat} (h : CellsStand s t) : CellsStand s (t.commitTxn homes .clean).2 := h.journal (commitTxn_clean t homes)

theorem recStart (h : CellsStand s t) : CellsStand s t.recStart := by
  unfold State.recStart
  refine .ite h (.ite ?_ ?_)
  · exact h.modRec.modRec.setRec_
  · exact (h.modRec.bumpBy.when fun _ h => h.commitTxn).modRec.showLog.setRec_

theorem commitRec (h : CellsStand s t) : CellsStand s (t.commitRec old) := by
  unfold State.commitRec
  refine h.modRec.foldl fun _ _ _ h => ?_
  split
  · exact .ite h (.ite h.modRec h.modRec.modRec)
  · exact h.modRec

theorem showImage (h : CellsStand s t) : CellsStand s (t.showImage b) := h.wrw.wrw.wrw.wrw.wrw

/-- A pair that no cell concerns stays. -/
theorem commitPairs_nil (h : CellsStand s t) : CellsStand s (t.commitPairs []) := by
  unfold State.commitPairs
  rw [List.filter_eq_nil_iff.mpr (by simp)]
  exact h

theorem restFollows {first : Bool} (h : CellsStand s t) : CellsStand s (t.restFollows b first old []) := (CellsStand.ite h.recStart h.commitRec).commitPairs_nil.showImage

theorem cst (h : CellsStand s t) {id : Nat} (hk : (kindOf id).isSome = true) : t.cst id = s.cst id := by
  rw [State.cst, State.rd, h.regs _ (.inr ⟨id, hk, rfl⟩), State.cst, State.rd]

theorem rd (h : CellsStand s t) (c : Nat) (g : Field) (hg : c + g.off ∈ commitRegs := by decide) : t.rd c g = s.rd c g := by
  rw [State.rd, h.regs _ (.inl hg), State.rd]

theorem activeBank (h : CellsStand s t) : t.activeBank = s.activeBank := by
  have hr : t.rd nvjBase Reg.IMG_STATUS_ACTIVE = s.rd nvjBase Reg.IMG_STATUS_ACTIVE := h.rd _ _
  rw [State.activeBank, State.flag, hr, State.activeBank, State.flag]

end CellsStand

/-! The first and the last stage. -/

theorem RegsBut.cst {l : List Nat} (h : RegsBut l s t) {id : Nat} (hl : ∀ a ∈ l, 0x100 ≤ pageOf a) : t.cst id = s.cst id :=
  h.rd _ _ fun hm => absurd (hl _ hm) (Nat.not_le.mpr (pageOf_cellBase id (by decide)))

theorem switched_regs (s : State) (b : Bool) (new : List Record) :
    RegsBut [nvjBase + Reg.IMG_STATUS_ACTIVE.off, tmBase + Reg.STK_CFG_TS_UNITS.off] s (s.switched b new) :=
  (RegsBut.refl _ s).modImg.setFlag.modToc.modFab.wr

theorem switched_fab (s : State) (b : Bool) (new : List Record) : (s.switched b new).fab =
    { s.fab with
      words := s.fab.words.filter fun e => ((signalsOf new).map sigId).contains e.1
      freshAt := s.fab.freshAt.filter fun e => ((signalsOf new).map sigId).contains e.1 } := (rfl)

theorem switched_activeBank (s : State) (b : Bool) (new : List Record) : (s.switched b new).activeBank = b := by
  unfold State.switched State.activeBank State.replaceDirectory
  rw [flag_wr_apart _ _ _ _ _ _ (by decide) (by decide), State.modFab_flag, State.modToc_flag, State.flag_setFlag_same _ _ _ _ (by decide) rfl]

theorem commitCloses_regs (s : State) (b : Bool) :
    RegsBut [nvjBase + Reg.IMG_COMMITS_COMMITS.off, nvjBase + Reg.IMG_STATUS_PHASE.off] s (s.commitCloses b) :=
  ((RegsBut.refl _ s).bump.endOp.setFlag).modImg

theorem commitCloses_fab (s : State) (b : Bool) : (s.commitCloses b).fab = s.fab := by simp [State.commitCloses]

theorem commitCloses_activeBank (s : State) (b : Bool) : (s.commitCloses b).activeBank = s.activeBank := by
  have he : ((s.bump nvjBase Reg.IMG_COMMITS_COMMITS).endOp E_OK).activeBank = (s.bump nvjBase Reg.IMG_COMMITS_COMMITS).activeBank :=
    endOp_flag _ _ _ _ (by decide) (by decide)
  exact (commitCloses_flag s b _).trans (he.trans (flag_wr_apart _ _ _ _ _ _ (by decide) (by decide)))

theorem commitCloses_commits (s : State) (b : Bool) :
    (s.commitCloses b).rd nvjBase Reg.IMG_COMMITS_COMMITS = min (s.rd nvjBase Reg.IMG_COMMITS_COMMITS + 1) 65535 := by
  have hr : RegsBut [nvjBase + Reg.IMG_STATUS_PHASE.off] (s.bump nvjBase Reg.IMG_COMMITS_COMMITS) ((s.bump nvjBase Reg.IMG_COMMITS_COMMITS).endOp E_OK) :=
    (RegsBut.refl _ _).endOp
  have he : ((s.bump nvjBase Reg.IMG_COMMITS_COMMITS).endOp E_OK).rd nvjBase Reg.IMG_COMMITS_COMMITS =
      (s.bump nvjBase Reg.IMG_COMMITS_COMMITS).rd nvjBase Reg.IMG_COMMITS_COMMITS := hr.rd _ _
  rw [commitCloses_rd _ _ _ (by decide), he, State.rd_bump _ _ _ (by decide)]
  rfl

/-! A commit with the same cells. -/

section

variable (hs : ∀ id, id ∈ cellsOf old ↔ id ∈ cellsOf new)

include hs

theorem removedCells_nil : removedCells old new = [] :=
  List.filter_eq_nil_iff.mpr fun id hi => by simp [(hs id).mp hi]

theorem freshCells_nil : freshCells old new false = [] :=
  List.filter_eq_nil_iff.mpr fun id hi => by simp [(hs id).mpr hi]

end

theorem changedCells_nil (hc : ∀ id ∈ cellsOf new, cellChanged old new id = false) : changedCells old new false = [] :=
  List.filter_eq_nil_iff.mpr fun id hi => by simp [hc id hi]

/-- The second stage does nothing, and no legacy pair is discarded. -/
theorem takeCommit_sameCells_eq (hs : ∀ id, id ∈ cellsOf s.img.active ↔ id ∈ cellsOf new)
    (hc : ∀ id ∈ cellsOf new, cellChanged s.img.active new id = false) :
    s.takeCommit b new false =
      (((s.switched b new).inputsFollow s.img.active new).restFollows b (s.recState == rsOff) s.img.active []).commitCloses b := by
  rw [takeCommit_stages, State.cellsFollow, removedCells_nil hs, freshCells_nil hs, changedCells_nil hc, List.foldl_nil, List.foldl_nil, List.foldl_nil,
    List.append_nil]

theorem takeCommit_sameCells (s t : State) (b : Bool) (new : List Record) (ht : t = s.takeCommit b new false)
    (hs : ∀ id, id ∈ cellsOf s.img.active ↔ id ∈ cellsOf new) (hc : ∀ id ∈ cellsOf new, cellChanged s.img.active new id = false) :
    t.activeBank = b ∧ t.fab.cells = s.fab.cells ∧ t.fab.fcs = s.fab.fcs ∧ t.fab.loops = s.fab.loops ∧ t.fab.phasors = s.fab.phasors ∧
      (∀ id, (kindOf id).isSome = true → t.cst id = s.cst id) ∧
      t.rd nvjBase Reg.IMG_COMMITS_COMMITS = min (s.rd nvjBase Reg.IMG_COMMITS_COMMITS + 1) 65535 ∧ t.mst = s.mst := by
  have h1 := switched_regs s b new
  rw [takeCommit_sameCells_eq hs hc] at ht
  obtain ⟨u, hu, rfl⟩ : ∃ u, CellsStand (s.switched b new) u ∧ t = u.commitCloses b := ⟨_, (CellsStand.refl _).inputsFollow.restFollows, ht⟩
  have h3 := commitCloses_regs u b
  have hf : (u.commitCloses b).fab = (s.switched b new).fab := (commitCloses_fab u b).trans hu.fab
  rw [hf, switched_fab]
  refine ⟨?_, rfl, rfl, rfl, rfl, fun id hk => ?_, ?_, ?_⟩
  · rw [commitCloses_activeBank, hu.activeBank, switched_activeBank]
  · rw [h3.cst (by decide), hu.cst hk, h1.cst (by decide)]
  · have hc1 : (s.switched b new).rd nvjBase Reg.IMG_COMMITS_COMMITS = s.rd nvjBase Reg.IMG_COMMITS_COMMITS := h1.rd _ _
    rw [commitCloses_commits, hu.rd _ _ (by decide), hc1]
  · have hm1 : (u.commitCloses b).mst = u.mst := h3.rd _ _
    have hm2 : u.mst = (s.switched b new).mst := hu.rd _ _
    have hm3 : (s.switched b new).mst = s.mst := h1.rd _ _
    rw [hm1, hm2, hm3]

end Sys2Proof
end

