-- ==== Sys2Proof/Proofs/CellsAtCommit.lean ====
section
/-! The cells at a commit (R53 to R55, R92): what is forgotten of a removed cell, and how a new and a changed function cell start. -/

namespace Sys2Proof

open Sys2Proof.Machine

variable {s t u : State} {id : Nat} {l : List Field} {old new : List Record}

/-! The directory (R53, R56). -/

theorem Machine.Store.get_filter {α : Type} (d : α) (m : Store α) (p : Nat → Bool) (a : Nat) :
    Store.get d (m.filter fun e => p e.1) a = if p a = true then Store.get d m a else d := by
  induction m with
  | nil => simp
  | cons e m ih =>
    obtain ⟨k, v⟩ := e
    cases hk : p k
    · rw [List.filter_cons_of_neg (by simp [hk]), ih]
      by_cases he : a = k
      · simp [he, hk]
      · simp [Store.get, he]
    · rw [List.filter_cons_of_pos (by simp [hk])]
      by_cases he : a = k
      · simp [Store.get, he, hk]
      · simp [Store.get, he, ih]

theorem replaceDirectory_word (s : State) (new : List Record) (id : Nat) : Store.get none (s.replaceDirectory new).fab.words id =
    (if id ∈ (signalsOf new).map sigId then Store.get none s.fab.words id else none) := by
  have h := Store.get_filter none s.fab.words (fun k => ((signalsOf new).map sigId).contains k) id
  simp only [List.contains_iff_mem] at h
  exact h

/-! Writes of fields of a cell's page. -/

/-- Field `g` has a bit, and none of it is in a field of `l`. -/
abbrev ApartFrom (g : Field) (l : List Field) : Prop :=
  0 < g.width ∧ g.lo < 32 ∧ ∀ f ∈ l, g.off ≠ f.off ∨ g.lo + g.width ≤ f.lo ∨ f.lo + f.width ≤ g.lo

/-- From `s` to `t` only fields of `l` are written, on the page of cell `id`. -/
structure CellWrites (l : List Field) (id : Nat) (s t : State) : Prop where
  rd : ∀ g, ApartFrom g l → t.rd (cellBase id) g = s.rd (cellBase id) g
  regs : ∀ a, (∀ f ∈ l, a ≠ cellBase id + f.off) → t.reg a = s.reg a

namespace CellWrites

theorem refl (l : List Field) (id : Nat) (s : State) : CellWrites l id s s := ⟨fun _ _ => rfl, fun _ _ => rfl⟩

theorem trans (h : CellWrites l id s t) (h' : CellWrites l id t u) : CellWrites l id s u :=
  ⟨fun g hg => (h'.rd g hg).trans (h.rd g hg), fun a ha => (h'.regs a ha).trans (h.regs a ha)⟩

theorem mono {m : List Field} (h : CellWrites l id s t) (hm : l ⊆ m := by decide) : CellWrites m id s t :=
  ⟨fun g ⟨hw, hl, hg⟩ => h.rd g ⟨hw, hl, fun f hf => hg f (hm hf)⟩, fun a ha => h.regs a fun f hf => ha f (hm hf)⟩

theorem same (h : CellWrites l id s t) (hr : u.regs = t.regs := by rfl) : CellWrites l id s u :=
  ⟨fun g hg => by rw [State.rd, State.reg, hr]; exact h.rd g hg, fun a ha => by rw [State.reg, hr]; exact h.regs a ha⟩

theorem wr {f : Field} {v : Nat} (h : CellWrites l id s t) (hm : f ∈ l := by decide) (hf : f.lo + f.width ≤ 32 := by decide) :
    CellWrites l id s (t.wr (cellBase id) f v) := by
  refine ⟨fun g hg => ?_, fun a ha => ?_⟩
  · have ho := hg.2.2
    have ha : Apart (cellBase id) g (cellBase id) f := (ho f hm).imp (fun hne e => hne (Nat.add_left_cancel e.symm)) fun h => h
    rw [State.rd_wr_apart _ _ _ _ _ _ hf ha, h.rd g hg]
  · rw [State.reg_wr_of_ne _ _ _ _ _ (ha f hm), h.regs a ha]

theorem setFlag {f : Field} {v : Bool} (h : CellWrites l id s t) (hm : f ∈ l := by decide) (hf : f.lo + f.width ≤ 32 := by decide) :
    CellWrites l id s (t.setFlag (cellBase id) f v) := h.wr hm hf

theorem wrw {f : Field} {v : Word} (h : CellWrites l id s t) (hm : f ∈ l := by decide) (hf : f.lo = 0 ∧ f.width = 32 := by decide) :
    CellWrites l id s (t.wrw (cellBase id) f v) := by
  obtain ⟨hlo, hw⟩ := hf
  refine ⟨fun g hg => ?_, fun a ha => ?_⟩
  · obtain ⟨h0, h32, ho⟩ := hg
    have hne : cellBase id + g.off ≠ cellBase id + f.off := fun e => by
      have := ho f hm
      omega
    rw [State.rd, State.wrw, State.reg_setReg, if_neg hne]
    exact h.rd g ⟨h0, h32, ho⟩
  · rw [State.wrw, State.reg_setReg, if_neg (ha f hm), h.regs a ha]

theorem modFc {n : Nat} {f : FcSt → FcSt} (h : CellWrites l id s t) : CellWrites l id s (t.modFc n f) := h.same
theorem modCell {n : Nat} {f : CellSt → CellSt} (h : CellWrites l id s t) : CellWrites l id s (t.modCell n f) := h.same

theorem when {c : Bool} {f : State → State} (h : CellWrites l id s t) (hf : ∀ u, CellWrites l id s u → CellWrites l id s (f u)) :
    CellWrites l id s (t.when c f) := by
  cases c
  · exact h
  · exact hf t h

theorem flag (h : CellWrites l id s t) (g : Field) (hg : ApartFrom g l := by decide) : t.flag (cellBase id) g = s.flag (cellBase id) g := by
  rw [State.flag, h.rd g hg, State.flag]

theorem rdw (h : CellWrites l id s t) (g : Field) (hg : ∀ f ∈ l, g.off ≠ f.off := by decide) : t.rdw (cellBase id) g = s.rdw (cellBase id) g :=
  h.regs _ fun f hf e => hg f hf (Nat.add_left_cancel e)

theorem outside (h : CellWrites l id s t) (hl : ∀ f ∈ l, f.off < 0x100) {a : Nat} (ha : a < cellBase id ∨ cellBase id + 256 ≤ a) : t.reg a = s.reg a :=
  h.regs a fun f hf => by
    have := hl f hf
    omega

end CellWrites

/-! Entry into START of a function cell (R54, R83, R106). -/

/-- The fields that the entry writes. -/
def startFcFields : List Field :=
  [Reg.FC_OP_OP, Reg.FC_OP_NIN, Reg.FC_OP_OPT, Reg.FC_P0, Reg.FC_P1, Reg.FC_P2, Reg.FC_P3, Reg.FC_COST_CYCLES]

theorem startFc_writes (s : State) (id : Nat) : CellWrites startFcFields id s (s.startFc id) := by
  unfold State.startFc
  exact (CellWrites.refl startFcFields id s).wr.wr.wr.wrw.wrw.wrw.wrw.wr.modFc

theorem startFc_param (s : State) (id : Nat) {i : Nat} (hi : i < 4) : (s.startFc id).reg (cellBase id + 0x24 + 4 * i) = fcParam (s.cfg id 0) i := by
  have ho : Reg.FC_P0.off = 0x24 ∧ Reg.FC_P1.off = 0x28 ∧ Reg.FC_P2.off = 0x2C ∧ Reg.FC_P3.off = 0x30 ∧ Reg.FC_COST_CYCLES.off = 0x34 := by decide
  obtain ⟨h0, h1, h2, h3, hc⟩ := ho
  unfold State.startFc
  rw [State.modFc_reg, State.reg_wr_of_ne _ _ _ _ _ (by omega)]
  simp only [State.wrw, State.reg_setReg, h0, h1, h2, h3]
  interval_cases i <;> simp

theorem startFc_fc (s : State) (id : Nat) : (s.startFc id).fc (cellNum id) = FcSt.init := by simp [State.startFc]

theorem setCst_img (s : State) (id n : Nat) : (s.setCst id n).img = s.img := ImageIs.setCst (i := s.img) rfl

theorem startFc_cell (s : State) (id j : Nat) : (s.startFc id).cell j = s.cell j := by
  have h : (s.startFc id).fab.cells = s.fab.cells := by simp [State.startFc, State.modFc]
  rw [State.cell, h, State.cell]

section

variable (hk : kindOf id = some .fc)

include hk

theorem setCst_start_fc (s : State) : s.setCst id csStart =
    ((s.wr (cellBase id) Reg.CELL_STATE_STATE csStart).when (s.cst id == csFault) fun s => s.setFlag (cellBase id) Reg.CELL_STATE_ISOL false).modCell id
      fun c => { c with first := true, lastIn := [], errHist := [], good := 0 } := by
  unfold State.setCst
  have h1 : ∀ was (u : State), u.loopCst id was csStart = u := fun was u => if_neg (by simp [hk])
  have h2 : ∀ was (u : State), u.phCst id was csStart = u := fun was u => if_neg (by simp [hk])
  have h3 : ∀ u : State, u.ucCst id csStart = u := fun u => if_neg (by simp [hk])
  have h4 : ∀ u : State, u.dpCst id csStart = u := fun u => if_neg (by simp [hk])
  have hn : (csStart != csFault) = true := rfl
  simp only [h1, h2, h3, h4, hn, Bool.and_true, if_neg (show ¬ (csStart = csRecover ∧ _) from fun h => absurd h.1 (by decide)), if_true]

theorem setCst_start_writes (s : State) : CellWrites [Reg.CELL_STATE_STATE, Reg.CELL_STATE_ISOL] id s (s.setCst id csStart) := by
  rw [setCst_start_fc hk]
  exact ((CellWrites.refl _ id s).wr.when fun _ h => h.setFlag).modCell

theorem setCst_start_cst (s : State) : (s.setCst id csStart).cst id = csStart := by
  have hw : ∀ c, CellWrites [Reg.CELL_STATE_ISOL] id (s.wr (cellBase id) Reg.CELL_STATE_STATE csStart)
      ((s.wr (cellBase id) Reg.CELL_STATE_STATE csStart).when c fun s => s.setFlag (cellBase id) Reg.CELL_STATE_ISOL false) :=
    fun c => (CellWrites.refl _ id _).when fun _ h => h.setFlag
  rw [setCst_start_fc hk, State.cst, State.modCell_rd, (hw _).rd _ (by decide), State.rd_wr_same _ _ _ _ (by decide)]
  rfl

theorem setCst_start_cell (s : State) : (s.setCst id csStart).cell id = { s.cell id with first := true, lastIn := [], errHist := [], good := 0 } := by
  rw [setCst_start_fc hk, State.modCell_cell, if_pos rfl]
  cases s.cst id == csFault <;> rfl

/-- No safe command, line or isolation meets a function cell whose block works. -/
theorem meetStart_quiet (hc : (s.cell id).cmd = 0) (hl : (s.cell id).line = false) (hi : s.isolated (idRegion id) (idBlock id) = false) :
    s.meetStart id = s := by
  have hp : s.physical id = false := by simp [State.physical, hk]
  have hm : s.mbxUnsupplied id = false := by simp [State.mbxUnsupplied, hk]
  have hd : s.commanded id = false := by simp [State.commanded, hc, hl]
  simp only [State.meetStart, hp, Bool.false_and, State.when_false, hd, hi, hm]

end

/-- A function cell enters START with what its record says. -/
def Machine.State.enterFc (s : State) (id : Nat) : State := (s.setCst id csStart).startFc id

theorem enterFc_param (s : State) {i : Nat} (hi : i < 4) : (s.enterFc id).reg (cellBase id + 0x24 + 4 * i) = fcParam (s.cfg id 0) i := by
  have hc : (s.setCst id csStart).cfg id 0 = s.cfg id 0 := by rw [State.cfg, setCst_img, State.cfg]
  rw [State.enterFc, startFc_param _ id hi, hc]

/-- The fields that the entry into START writes. -/
def enterFcFields : List Field := Reg.CELL_STATE_STATE :: Reg.CELL_STATE_ISOL :: startFcFields

section

variable (hk : kindOf id = some .fc)

include hk

theorem startCell_fc {c : StartCause} (hc : c = .fresh ∨ c = .changed) (s : State) (old : List Record) : s.startCell id c old = s.enterFc id := by
  have hl : (c == .fresh || c == .changed) = true := by rcases hc with rfl | rfl <;> rfl
  unfold State.startCell State.enterFc
  simp only [hk, hl, if_true]

theorem enterFc_writes (s : State) : CellWrites enterFcFields id s (s.enterFc id) :=
  ((setCst_start_writes hk s).mono).trans ((startFc_writes _ id).mono)

theorem enterFc_cst (s : State) : (s.enterFc id).cst id = csStart :=
  ((startFc_writes _ id).rd Reg.CELL_STATE_STATE (by decide)).trans (setCst_start_cst hk s)

theorem enterFc_cell (s : State) : (s.enterFc id).cell id = { s.cell id with first := true, lastIn := [], errHist := [], good := 0 } :=
  (startFc_cell _ id id).trans (setCst_start_cell hk s)

end

/-! A new function cell (R54). -/

/-- A function cell with nothing kept, before its entry into START. -/
def Machine.State.blankFc (s : State) (id q : Nat) : State :=
  (((s.forgetCell id).dropPage id).setFlag (cellBase id) Reg.CELL_STATE_EXISTS true).wr (cellBase id) Reg.CELL_STATE_QUAL q

theorem dropPage_fab (s : State) (id : Nat) : (s.dropPage id).fab = s.fab := (rfl)

theorem reg_dropPage (s : State) (id a : Nat) : (s.dropPage id).reg a = if cellBase id ≤ a ∧ a < cellBase id + 0x100 then 0 else s.reg a := by
  have h := Store.get_filter (0 : Word) s.regs (fun k => !(decide (cellBase id ≤ k) && decide (k < cellBase id + 0x100))) a
  refine h.trans ?_
  by_cases hp : cellBase id ≤ a ∧ a < cellBase id + 0x100
  · rw [if_neg (by simp [hp]), if_pos hp]
  · rw [if_pos (by rw [Bool.not_eq_true', ← Bool.decide_and, decide_eq_false_iff_not]; exact hp), if_neg hp]
    rfl

/-- Of a cell's hidden state its words and what every kind has are forgotten. -/
def Machine.State.forgetWords (s : State) (id : Nat) : State :=
  (s.modCell id fun _ => CellSt.init).modFab fun f => { f with ports := f.ports.filter fun e => e.1 / 16 != id }

theorem forgetCell_eq (s : State) (id : Nat) : s.forgetCell id = (s.forgetWords id).forgetKind id := (rfl)

theorem forgetKind_keeps (s : State) (id : Nat) : (s.forgetKind id).fab.cells = s.fab.cells ∧ (s.forgetKind id).fab.ports = s.fab.ports ∧
    (s.forgetKind id).regs = s.regs := by
  unfold State.forgetKind
  dsimp only
  split <;> exact ⟨rfl, rfl, rfl⟩

theorem forgetCell_reg (s : State) (id a : Nat) : (s.forgetCell id).reg a = s.reg a := by
  obtain ⟨-, -, h⟩ := forgetKind_keeps (s.forgetWords id) id
  rw [State.reg, forgetCell_eq, h]
  rfl

theorem forgetCell_cell (s : State) (id : Nat) : (s.forgetCell id).cell id = CellSt.init := by
  obtain ⟨h, -, -⟩ := forgetKind_keeps (s.forgetWords id) id
  have hw : (s.forgetWords id).fab.cells = (s.modCell id fun _ => CellSt.init).fab.cells := (rfl)
  rw [State.cell, forgetCell_eq, h, hw, ← State.cell, State.modCell_cell, if_pos rfl]

theorem forgetCell_port (s : State) (id : Nat) {port : Nat} (hp : port < 16) : Store.get none (s.forgetCell id).fab.ports (id * 16 + port) = none := by
  obtain ⟨-, h, -⟩ := forgetKind_keeps (s.forgetWords id) id
  have hq : (id * 16 + port) / 16 = id := by omega
  rw [forgetCell_eq, h]
  refine (Store.get_filter none s.fab.ports (fun k => k / 16 != id) _).trans (if_neg ?_)
  simp [hq]

theorem blankFc_writes (s : State) (id q : Nat) :
    CellWrites [Reg.CELL_STATE_EXISTS, Reg.CELL_STATE_QUAL] id ((s.forgetCell id).dropPage id) (s.blankFc id q) :=
  (CellWrites.refl [Reg.CELL_STATE_EXISTS, Reg.CELL_STATE_QUAL] id ((s.forgetCell id).dropPage id)).setFlag.wr

theorem blankFc_exists (s : State) (id q : Nat) : (s.blankFc id q).exists_ id = true := by
  have h : CellWrites [Reg.CELL_STATE_QUAL] id (((s.forgetCell id).dropPage id).setFlag (cellBase id) Reg.CELL_STATE_EXISTS true) (s.blankFc id q) :=
    (CellWrites.refl [Reg.CELL_STATE_QUAL] id (((s.forgetCell id).dropPage id).setFlag (cellBase id) Reg.CELL_STATE_EXISTS true)).wr
  exact (h.flag _).trans (State.flag_setFlag_same _ _ _ _ (by decide) rfl)

theorem blankFc_outside (s : State) (id q : Nat) {a : Nat} (ha : a < cellBase id ∨ cellBase id + 256 ≤ a) : (s.blankFc id q).reg a = s.reg a := by
  rw [(blankFc_writes s id q).outside (by decide) ha, reg_dropPage, if_neg (by omega), forgetCell_reg]

theorem blankFc_cell (s : State) (id q : Nat) : (s.blankFc id q).cell id = CellSt.init := by
  have h : (s.blankFc id q).fab = (s.forgetCell id).fab := by
    unfold State.blankFc
    rw [State.wr_fab, State.setFlag_fab, dropPage_fab]
  rw [State.cell, h, ← State.cell, forgetCell_cell]

theorem blankFc_img (s : State) (id q : Nat) : (s.blankFc id q).img = s.img := by
  have h : ImageIs s.img (s.forgetCell id) := ImageIs.forgetCell rfl
  exact h.dropPage.setFlag.wr

/-- A block's state stands off every cell's page. -/
theorem isolated_of_outside (r b : Nat) (h : ∀ a, (a < cellBase id ∨ cellBase id + 256 ≤ a) → t.reg a = s.reg a) : t.isolated r b = s.isolated r b := by
  have hb : pageOf (blkBase r b + Reg.BLK_STATE_STATE.off) = 0xFFF := by
    have ho : Reg.BLK_STATE_STATE.off = 0 := rfl
    unfold pageOf blkBase svc
    omega
  have hr : t.reg (blkBase r b + Reg.BLK_STATE_STATE.off) = s.reg (blkBase r b + Reg.BLK_STATE_STATE.off) := h _ <| by
    by_contra hn
    have hp := pageOf_cellBase id (o := blkBase r b + Reg.BLK_STATE_STATE.off - cellBase id) (by omega)
    rw [show cellBase id + (blkBase r b + Reg.BLK_STATE_STATE.off - cellBase id) = blkBase r b + Reg.BLK_STATE_STATE.off by omega] at hp
    omega
  rw [State.isolated, State.blkSt, State.rd, hr, State.isolated, State.blkSt, State.rd]

section

variable (hk : kindOf id = some .fc)

include hk

theorem enterFc_outside (s : State) {a : Nat} (ha : a < cellBase id ∨ cellBase id + 256 ≤ a) : (s.enterFc id).reg a = s.reg a :=
  (enterFc_writes hk s).outside (by decide) ha

/-- The entry into START is all that comes after the state `u`, where no command holds for the cell. -/
theorem enterFc_meets (s u : State) (ho : ∀ a, (a < cellBase id ∨ cellBase id + 256 ≤ a) → u.reg a = s.reg a) (hc : (u.cell id).cmd = 0)
    (hl : (u.cell id).line = false) (hi : s.isolated (idRegion id) (idBlock id) = false) : (u.enterFc id).meetStart id = u.enterFc id := by
  refine meetStart_quiet hk ?_ ?_ ?_
  · rw [enterFc_cell hk]; exact hc
  · rw [enterFc_cell hk]; exact hl
  · rw [isolated_of_outside (s := s) (id := id) _ _ fun a ha => (enterFc_outside hk u ha).trans (ho a ha), hi]

theorem newCell_fc (hi : s.isolated (idRegion id) (idBlock id) = false) (old : List Record) : ∃ q, s.newCell old id = (s.blankFc id q).enterFc id := by
  have hm : (kindOf id != some .mbx) = true := by rw [hk]; rfl
  have hn : ∃ q, s.newCell old id = ((s.blankFc id q).startCell id .fresh old).meetStart id := by
    unfold State.newCell
    rw [hm, State.when_true]
    exact ⟨_, rfl⟩
  obtain ⟨q, hq⟩ := hn
  refine ⟨q, ?_⟩
  rw [hq, startCell_fc hk (.inl rfl), enterFc_meets hk s _ (fun a => blankFc_outside s id q) (by rw [blankFc_cell]; rfl) (by rw [blankFc_cell]; rfl) hi]

theorem newCell_starts (hi : s.isolated (idRegion id) (idBlock id) = false) (ht : t = s.newCell old id) :
    t.exists_ id = true ∧ t.cst id = csStart ∧ t.fc (cellNum id) = FcSt.init ∧ (t.cell id).force = (0, 0, 0) ∧ (t.cell id).errHist = [] ∧
      (∀ i < 4, t.reg (cellBase id + 0x24 + 4 * i) = fcParam (s.cfg id 0) i) ∧
      (∀ a, (a < cellBase id ∨ cellBase id + 256 ≤ a) → t.reg a = s.reg a) := by
  obtain ⟨q, hq⟩ := newCell_fc hk hi old
  rw [hq] at ht
  subst ht
  have hcell : ((s.blankFc id q).enterFc id).cell id = { CellSt.init with first := true, lastIn := [], errHist := [], good := 0 } := by
    rw [enterFc_cell hk, blankFc_cell]
  refine ⟨?_, enterFc_cst hk _, startFc_fc _ _, ?_, ?_, fun i hi => ?_, fun a ha => ?_⟩
  · exact ((enterFc_writes hk _).flag _).trans (blankFc_exists s id q)
  · rw [hcell]; rfl
  · rw [hcell]
  · rw [enterFc_param _ hi, State.cfg, blankFc_img, State.cfg]
  · rw [enterFc_outside hk _ ha, blankFc_outside s id q ha]

end

/-! A changed function cell (R54, R55, R92). -/

/-- The force goes. -/
def Machine.State.unforced (s : State) (id : Nat) : State :=
  ((s.unforce id).wr (cellBase id) Reg.CELL_FORCE_PORT 0).wrw (cellBase id) Reg.CELL_FVAL 0

/-- The latched FAULT goes. -/
def Machine.State.unlatched (s : State) (id : Nat) : State :=
  ((s.setFlag (cellBase id) Reg.CELL_STATE_LATCHED false).wr (cellBase id) Reg.CELL_STATE_RETRIES 0).setFlag (cellBase id) Reg.CELL_STATE_ISOL false

/-- What a cell without outputs keeps hidden goes, but for its parameters. -/
def Machine.State.emptied (s : State) (id : Nat) : State :=
  (s.modCell id fun c => { CellSt.init with act := c.act, params := c.params }).wr (cellBase id) Reg.CELL_STATE_SOURCE 0

/-- A changed function cell before its entry into START. -/
def Machine.State.clearedFc (s : State) (id : Nat) : State := (((s.unforced id).clearCounters id).unlatched id).emptied id

/-- The counters on the pages of a function cell. -/
def fcCounters : List Field :=
  (Page.fields .cell ++ Page.fields .fc).filter fun f => f.acc == .rclr && !(Kind.fc == .mbx && f.off == Reg.MBX_META_NEW.off)

def unforcedFields : List Field := [Reg.CELL_FORCE_MODE, Reg.CELL_STATE_SOURCE, Reg.CELL_FORCE_PORT, Reg.CELL_FVAL]

def restartFields : List Field :=
  fcCounters ++ [Reg.CELL_STATE_LATCHED, Reg.CELL_STATE_RETRIES, Reg.CELL_STATE_ISOL, Reg.CELL_STATE_SOURCE] ++ enterFcFields

theorem CellWrites.zeroed {m : List Field} (h : CellWrites l id s t) (hm : ∀ f ∈ m, f ∈ l ∧ f.lo + f.width ≤ 32) :
    CellWrites l id s (m.foldl (fun s f => s.wr (cellBase id) f 0) t) := by
  induction m generalizing t with
  | nil => exact h
  | cons f m ih =>
    obtain ⟨hl, hf⟩ := hm f List.mem_cons_self
    exact ih (h.wr hl hf) fun f hf => hm f (List.mem_cons_of_mem _ hf)

theorem unforced_writes (s : State) (id : Nat) : CellWrites unforcedFields id s (s.unforced id) := by
  unfold State.unforced State.unforce
  exact ((CellWrites.refl unforcedFields id s).modCell.wr.when fun _ h => h.wr).wr.wrw

theorem unforced_mode (s : State) (id : Nat) : (s.unforced id).rd (cellBase id) Reg.CELL_FORCE_MODE = 0 := by
  have h : CellWrites [Reg.CELL_STATE_SOURCE, Reg.CELL_FORCE_PORT, Reg.CELL_FVAL] id
      ((s.modCell id fun c => { c with force := (0, 0, 0) }).wr (cellBase id) Reg.CELL_FORCE_MODE 0) (s.unforced id) := by
    unfold State.unforced State.unforce
    exact ((CellWrites.refl _ id _).when fun _ h => h.wr).wr.wrw
  rw [h.rd _ (by decide), State.rd_wr_same _ _ _ _ (by decide)]
  rfl

theorem unforced_port (s : State) (id : Nat) : (s.unforced id).rd (cellBase id) Reg.CELL_FORCE_PORT = 0 := by
  have h : CellWrites [Reg.CELL_FVAL] id ((s.unforce id).wr (cellBase id) Reg.CELL_FORCE_PORT 0) (s.unforced id) := by
    unfold State.unforced
    exact (CellWrites.refl _ id _).wrw
  rw [h.rd _ (by decide), State.rd_wr_same _ _ _ _ (by decide)]
  rfl

theorem unforced_value (s : State) (id : Nat) : (s.unforced id).rdw (cellBase id) Reg.CELL_FVAL = 0 := State.rdw_wrw_same _ _ _ _

theorem unlatched_writes (s : State) (id : Nat) :
    CellWrites [Reg.CELL_STATE_LATCHED, Reg.CELL_STATE_RETRIES, Reg.CELL_STATE_ISOL] id s (s.unlatched id) := by
  unfold State.unlatched
  exact (CellWrites.refl _ id s).setFlag.wr.setFlag

theorem unlatched_latched (s : State) (id : Nat) : (s.unlatched id).flag (cellBase id) Reg.CELL_STATE_LATCHED = false := by
  have h : CellWrites [Reg.CELL_STATE_RETRIES, Reg.CELL_STATE_ISOL] id (s.setFlag (cellBase id) Reg.CELL_STATE_LATCHED false) (s.unlatched id) := by
    unfold State.unlatched
    exact (CellWrites.refl _ id _).wr.setFlag
  exact (h.flag _).trans (State.flag_setFlag_same _ _ _ _ (by decide) rfl)

theorem unlatched_retries (s : State) (id : Nat) : (s.unlatched id).rd (cellBase id) Reg.CELL_STATE_RETRIES = 0 := by
  have h : CellWrites [Reg.CELL_STATE_ISOL] id ((s.setFlag (cellBase id) Reg.CELL_STATE_LATCHED false).wr (cellBase id) Reg.CELL_STATE_RETRIES 0)
      (s.unlatched id) := by
    unfold State.unlatched
    exact (CellWrites.refl _ id _).setFlag
  rw [h.rd _ (by decide), State.rd_wr_same _ _ _ _ (by decide)]
  rfl

theorem emptied_writes (s : State) (id : Nat) : CellWrites [Reg.CELL_STATE_SOURCE] id s (s.emptied id) := by
  unfold State.emptied
  exact (CellWrites.refl _ id s).modCell.wr

theorem emptied_cell (s : State) (id : Nat) : (s.emptied id).cell id = { CellSt.init with act := (s.cell id).act, params := (s.cell id).params } := by
  rw [State.emptied, State.cell, State.wr_fab, ← State.cell, State.modCell_cell, if_pos rfl]

theorem clearedFc_img (s : State) (id : Nat) : (s.clearedFc id).img = s.img := by
  have h : ImageIs s.img (s.unforce id) := ImageIs.unforce rfl
  exact h.wr.wrw.clearCounters.setFlag.wr.setFlag.modCell.wr

section

variable (hk : kindOf id = some .fc)

include hk

theorem clearCounters_fc (s : State) : s.clearCounters id = fcCounters.foldl (fun s f => s.wr (cellBase id) f 0) s := by
  unfold State.clearCounters
  simp only [hk]
  rfl

theorem clearCounters_writes (s : State) : CellWrites fcCounters id s (s.clearCounters id) := by
  have hm : ∀ f ∈ fcCounters, f.lo + f.width ≤ 32 := by decide
  rw [clearCounters_fc hk]
  exact (CellWrites.refl _ id s).zeroed fun f hf => ⟨hf, hm f hf⟩

theorem clearCounters_errors (s : State) : (s.clearCounters id).rd (cellBase id) Reg.CELL_ERR_ERRORS = 0 := by
  have hl : fcCounters = Reg.CELL_ERR_ERRORS :: fcCounters.tail := by decide
  have hm : ∀ f ∈ fcCounters.tail, f ∈ fcCounters.tail ∧ f.lo + f.width ≤ 32 := by decide
  rw [clearCounters_fc hk, hl, List.foldl_cons, ((CellWrites.refl _ id _).zeroed hm).rd _ (by decide), State.rd_wr_same _ _ _ _ (by decide)]
  rfl

theorem clearedFc_writes (s : State) : CellWrites (unforcedFields ++ restartFields) id s (s.clearedFc id) :=
  ((unforced_writes s id).mono).trans (((clearCounters_writes hk _).mono).trans ((unlatched_writes _ id).mono.trans (emptied_writes _ id).mono))

/-- From the end of the force on, a changed function cell is written by its restart alone. -/
theorem restart_writes (s : State) : CellWrites restartFields id (s.unforced id) ((s.clearedFc id).enterFc id) :=
  ((clearCounters_writes hk _).mono).trans (((unlatched_writes _ id).mono.trans (emptied_writes _ id).mono).trans (enterFc_writes hk _).mono)

theorem unlatched_restart (s : State) : CellWrites (Reg.CELL_STATE_SOURCE :: enterFcFields) id (((s.unforced id).clearCounters id).unlatched id)
    ((s.clearedFc id).enterFc id) := (emptied_writes _ id).mono.trans (enterFc_writes hk _).mono

theorem changeCell_fc (hi : s.isolated (idRegion id) (idBlock id) = false) (old : List Record) : s.changeCell old id = (s.clearedFc id).enterFc id := by
  have hp : ∀ u : State, u.physical id = false := fun u => by simp [State.physical, hk]
  have hc : s.changeCell old id = ((s.clearedFc id).startCell id .changed old).meetStart id := by
    unfold State.changeCell
    simp only [hk, hp]
    rfl
  rw [hc, startCell_fc hk (.inr rfl),
    enterFc_meets hk s _ (fun a => (clearedFc_writes hk s).outside (by decide)) (by rw [State.clearedFc, emptied_cell]; rfl)
      (by rw [State.clearedFc, emptied_cell]; rfl) hi]

theorem changeCell_restarts (hi : s.isolated (idRegion id) (idBlock id) = false) (ht : t = s.changeCell old id) :
    t.exists_ id = s.exists_ id ∧ t.cst id = csStart ∧ t.fc (cellNum id) = FcSt.init ∧ (t.cell id).force = (0, 0, 0) ∧
      t.rd (cellBase id) Reg.CELL_FORCE_MODE = 0 ∧ t.rd (cellBase id) Reg.CELL_FORCE_PORT = 0 ∧ t.rdw (cellBase id) Reg.CELL_FVAL = 0 ∧
      t.rd (cellBase id) Reg.CELL_ERR_ERRORS = 0 ∧ t.flag (cellBase id) Reg.CELL_STATE_LATCHED = false ∧ t.rd (cellBase id) Reg.CELL_STATE_RETRIES = 0 ∧
      (∀ i < 4, t.reg (cellBase id + 0x24 + 4 * i) = fcParam (s.cfg id 0) i) ∧
      (∀ a, (a < cellBase id ∨ cellBase id + 256 ≤ a) → t.reg a = s.reg a) := by
  rw [changeCell_fc hk hi] at ht
  subst ht
  have hr := restart_writes hk s
  have hu := unlatched_restart hk s
  have hc := clearedFc_writes hk s
  refine ⟨?_, enterFc_cst hk _, startFc_fc _ _, ?_, ?_, ?_, ?_, ?_, ?_, ?_, fun i hi => ?_, fun a ha => ?_⟩
  · exact ((enterFc_writes hk _).flag _).trans (hc.flag _)
  · rw [enterFc_cell hk, State.clearedFc, emptied_cell]; rfl
  · rw [hr.rd _ (by decide), unforced_mode]
  · rw [hr.rd _ (by decide), unforced_port]
  · rw [hr.rdw _ (by decide), unforced_value]
  · rw [hu.rd _ (by decide), (unlatched_writes _ id).rd _ (by decide), clearCounters_errors hk]
  · rw [hu.flag _ (by decide), unlatched_latched]
  · rw [hu.rd _ (by decide), unlatched_retries]
  · rw [enterFc_param _ hi, State.cfg, clearedFc_img, State.cfg]
  · rw [enterFc_outside hk _ ha, hc.outside (by decide) ha]

end

/-! A removed cell (R54). -/

theorem removeCell_forgets (s t : State) (id : Nat) (ht : t = s.removeCell id) :
    t.exists_ id = false ∧ t.cell id = CellSt.init ∧ (∀ i < 64, t.reg (cellBase id + 4 * i) = 0) ∧
      (∀ port < 16, Store.get none t.fab.ports (id * 16 + port) = none) := by
  obtain ⟨u, rfl⟩ : ∃ u : State, t = (u.forgetCell id).dropPage id := ⟨_, ht⟩
  have hz : ∀ a, cellBase id ≤ a ∧ a < cellBase id + 0x100 → ((u.forgetCell id).dropPage id).reg a = 0 := fun a ha => by
    rw [reg_dropPage, if_pos ha]
  refine ⟨?_, ?_, fun i hi => hz _ (by omega), fun port hp => ?_⟩
  · rw [State.exists_, State.flag, State.rd, hz _ ⟨Nat.le_add_right _ _, Nat.add_lt_add_left (by decide) _⟩]
    rfl
  · exact forgetCell_cell u id
  · exact forgetCell_port u id hp

/-- Settles O10: the boundary, the replacement, the cells that stand, and the cells that are new, changed and removed. -/
theorem commitsReplaceTheImage : Obligations.CommitsReplaceTheImage := by
  unfold Obligations.CommitsReplaceTheImage
  exact ⟨commitStep_pending, commitStep_atNumber, fun _ => commitStep_idle, takeCommit_replaces, takeCommit_sameCells, replaceDirectory_word,
    fun _ _ _ _ hk hi ht => newCell_starts hk hi ht, fun _ _ _ _ hk hi ht => changeCell_restarts hk hi ht, removeCell_forgets⟩

end Sys2Proof
end

