-- ==== Sys2Proof/Proofs/InputsAndQualities.lean ====
section
/-! Inputs and qualities (R12, R78, R80): how a bound word resolves, and how the qualities of several inputs combine. -/

namespace Sys2Proof

open Sys2Proof.Machine

variable {s : State} {id n : Nat} {safe v : Word} {b : Record} {i : Input} {w : SigWord} {last : Option Word}

/-! The three steps of R78. -/

theorem input_eq (hb : s.bind id n = some b) :
    s.input id n safe = some (resolveWord b (s.sig (bindSig b)) (Store.get none (s.cell id).lastIn n) safe) := by
  rw [State.input, hb, Option.map_some]

theorem unusable_iff : (qualBad w.qual || (bindBound b != 0 && bindBound b < w.age)) = true ↔
    qualBad w.qual = true ∨ bindBound b ≠ 0 ∧ bindBound b < w.age := by
  simp only [Bool.or_eq_true, Bool.and_eq_true, bne_iff_ne, decide_eq_true_eq]

/-- A word of a usable quality within its bound is taken as it stands. -/
theorem resolveWord_usable (hq : qualBad w.qual = false) (ha : bindBound b = 0 ∨ w.age ≤ bindBound b) :
    resolveWord b w last safe = ⟨w.val, w.qual, w.flags, true, w.qual, w.age⟩ := by
  refine if_neg fun hc => ?_
  rcases unusable_iff.mp hc with h | ⟨h0, hlt⟩
  · exact Bool.false_ne_true (hq.symm.trans h)
  · exact ha.elim h0 (Nat.not_le.mpr hlt)

/-- What FALLBACK `k` names, with the substitute of the BIND record and the safe value (R78). -/
def fallbackInput (k : Nat) (subst safe : Word) (w : SigWord) (last : Option Word) : Input :=
  match k, last with
  | 0, some v => ⟨v, Q_HELD, 0, false, w.qual, w.age⟩
  | 0, none => ⟨subst, Q_SUBSTITUTED, 0, false, w.qual, w.age⟩
  | 1, _ => ⟨subst, Q_SUBSTITUTED, 0, false, w.qual, w.age⟩
  | _, _ => ⟨safe, Q_SUBSTITUTED, 0, false, w.qual, w.age⟩

theorem fallbackInput_live : ∀ (k : Nat) (subst : Word) (last : Option Word), (fallbackInput k subst safe w last).live = false
  | 0, _, some _ => rfl
  | 0, _, none => rfl
  | 1, _, _ => rfl
  | _ + 2, _, _ => rfl

/-- A word of a BAD or reserved quality, or older than its bound, gives way to the fallback. -/
theorem resolveWord_unusable (h : qualBad w.qual = true ∨ bindBound b ≠ 0 ∧ bindBound b < w.age) :
    resolveWord b w last safe = fallbackInput (bindFallback b) (bindSubst b) safe w last := by
  unfold resolveWord fallbackInput
  generalize bindFallback b = k
  generalize bindSubst b = x
  exact if_pos (unusable_iff.mpr h)

/-- Nothing else does. -/
theorem resolveWord_of_not_live (h : (resolveWord b w last safe).live = false) : resolveWord b w last safe =
      fallbackInput (bindFallback b) (bindSubst b) safe w last := by
  refine resolveWord_unusable ?_
  by_contra hn
  rw [not_or, Bool.not_eq_true, not_and_or, not_not, Nat.not_lt] at hn
  rw [resolveWord_usable hn.1 hn.2] at h
  cases h

theorem input_unusable (hb : s.bind id n = some b)
    (h : qualBad (s.sig (bindSig b)).qual = true ∨ bindBound b ≠ 0 ∧ bindBound b < (s.sig (bindSig b)).age) :
    ∃ i, s.input id n safe = some i ∧ i.live = false :=
  ⟨_, by rw [input_eq hb, resolveWord_unusable h], fallbackInput_live _ _ _⟩

theorem input_fallback (hb : s.bind id n = some b) (hi : s.input id n safe = some i) (hl : i.live = false) :
    i = fallbackInput (bindFallback b) (bindSubst b) safe (s.sig (bindSig b)) (Store.get none (s.cell id).lastIn n) := by
  rw [input_eq hb, Option.some.injEq] at hi
  subst hi
  exact resolveWord_of_not_live hl

/-! What FALLBACK 0 holds. -/

theorem noteInput_kept (hl : i.live = true) : Store.get none ((s.noteInput id n i).cell id).lastIn n = some i.val := by
  rw [State.noteInput, hl, State.when_true, State.modCell_cell, if_pos rfl, Store.get_set, if_pos rfl]

theorem noteInput_of_not_live (hl : i.live = false) : s.noteInput id n i = s := by rw [State.noteInput, hl, State.when_false]

/-- START forgets what the inputs held. -/
theorem setCst_start_lastIn (s : State) (id : Nat) : ((s.setCst id csStart).cell id).lastIn = [] := by
  have hn : ¬ (csStart = csRecover ∧ s.phOwesStart id = true) := fun h => absurd h.1 (by decide)
  simp only [State.setCst, if_neg hn, if_true, State.modCell_cell]

/-! Combination (R80). -/

theorem qualBad_iff (q : Qual) : qualBad q = true ↔ q ∈ [Q_BAD_SENSOR, Q_BAD_COMM, Q_BAD_CONFIG, Q_BAD_HW] ∨ 12 < q.toNat := by
  revert q
  decide

/-- Codes in one order: by rank, and within a rank the lower code above the higher (R80). -/
def qualKey (q : Qual) : Nat := qualRank q * 16 + (15 - q.toNat)

theorem qualKey_rank (q : Qual) : qualKey q / 16 = qualRank q := by
  unfold qualKey
  omega

theorem qualKey_inj {p q : Qual} (h : qualKey p = qualKey q) : p = q := by
  have hr : qualRank p = qualRank q := by rw [← qualKey_rank, h, qualKey_rank]
  have hp := p.isLt
  have hq := q.isLt
  unfold qualKey at h
  exact BitVec.eq_of_toNat_eq (by omega)

theorem qualWorse_eq (p q : Qual) : qualWorse p q = if qualKey p < qualKey q then q else p := by
  have hp := p.isLt
  have hq := q.isLt
  unfold qualWorse qualKey
  rcases Nat.lt_trichotomy (qualRank p) (qualRank q) with h | h | h
  · rw [if_pos h, if_pos (by omega)]
  · simp only [h, Nat.lt_irrefl, if_false]
    by_cases hle : p.toNat ≤ q.toNat
    · rw [if_pos hle, if_neg (by omega)]
    · rw [if_neg hle, if_pos (by omega)]
  · rw [if_neg (by omega), if_pos h, if_neg (by omega)]

theorem qualKey_worse (p q : Qual) : qualKey (qualWorse p q) = max (qualKey p) (qualKey q) := by
  rw [qualWorse_eq]
  split <;> omega

theorem qualWorse_comm (p q : Qual) : qualWorse p q = qualWorse q p :=
  qualKey_inj (by rw [qualKey_worse, qualKey_worse, Nat.max_comm])

theorem qualWorse_rightComm : RightCommutative qualWorse :=
  ⟨fun p q r => qualKey_inj (by simp only [qualKey_worse, Nat.max_assoc, Nat.max_comm (qualKey q)])⟩

/-- GOOD stands below every other code. -/
theorem good_qualWorse (q : Qual) : qualWorse Q_GOOD q = q := by
  revert q
  decide

theorem qualCombine_pair (p q : Qual) : qualCombine [p, q] = qualWorse p q := by
  rw [qualCombine, List.foldl_cons, good_qualWorse, List.foldl_cons, List.foldl_nil]

theorem qualCombine_higher {p q : Qual} (h : qualRank p < qualRank q) : qualCombine [p, q] = q ∧ qualCombine [q, p] = q := by
  have hw : qualWorse p q = q := if_pos h
  exact ⟨by rw [qualCombine_pair, hw], by rw [qualCombine_pair, qualWorse_comm, hw]⟩

theorem qualCombine_lower {p q : Qual} (hr : qualRank p = qualRank q) (h : p.toNat ≤ q.toNat) : qualCombine [p, q] = p ∧ qualCombine [q, p] = p := by
  have hw : qualWorse p q = p := by rw [qualWorse, hr, if_neg (Nat.lt_irrefl _), if_neg (Nat.lt_irrefl _), if_pos h]
  exact ⟨by rw [qualCombine_pair, hw], by rw [qualCombine_pair, qualWorse_comm, hw]⟩

theorem qualCombine_perm {l m : List Qual} (h : l.Perm m) : qualCombine l = qualCombine m :=
  have := qualWorse_rightComm
  h.foldl_eq Q_GOOD

/-- The combination of `p` with further qualities is one of them, and stands above each. -/
theorem foldl_qualWorse (l : List Qual) (p : Qual) :
    l.foldl qualWorse p ∈ p :: l ∧ ∀ q ∈ p :: l, qualKey q ≤ qualKey (l.foldl qualWorse p) := by
  induction l generalizing p with
  | nil => simp
  | cons r l ih =>
    obtain ⟨hm, hle⟩ := ih (qualWorse p r)
    have hw := qualKey_worse p r
    have hp := hle _ List.mem_cons_self
    rw [List.foldl_cons]
    refine ⟨?_, fun q hq => ?_⟩
    · rcases List.mem_cons.mp hm with he | hl
      · rw [he, qualWorse_eq]
        split <;> simp
      · simp [hl]
    · rcases List.mem_cons.mp hq with rfl | hq
      · omega
      · rcases List.mem_cons.mp hq with rfl | hq
        · omega
        · exact hle q (List.mem_cons_of_mem _ hq)

theorem qualRank_le_combine {l : List Qual} {q : Qual} (h : q ∈ l) : qualRank q ≤ qualRank (qualCombine l) := by
  rw [← qualKey_rank, ← qualKey_rank]
  exact Nat.div_le_div_right ((foldl_qualWorse l Q_GOOD).2 q (List.mem_cons_of_mem _ h))

theorem qualCombine_mem {l : List Qual} (h : l ≠ []) : qualCombine l ∈ l := by
  obtain ⟨q, l, rfl⟩ := List.exists_cons_of_ne_nil h
  have hm := (foldl_qualWorse l q).1
  rwa [qualCombine, List.foldl_cons, good_qualWorse]

/-- Settles O52: the steps of R78 and their fallbacks, and combination as the highest of the codes in the order of R80. -/
theorem inputsResolveAndQualitiesCombine : Obligations.InputsResolveAndQualitiesCombine := by
  unfold Obligations.InputsResolveAndQualitiesCombine
  refine ⟨fun s id n safe b hb hq => input_unusable hb (.inl hq), fun s id n safe b hb _ h0 ha => input_unusable hb (.inr ⟨h0, ha⟩),
    fun s id n safe b hb hq ha => ⟨_, (input_eq hb).trans (congrArg some (resolveWord_usable hq ha)), rfl, rfl, rfl, rfl⟩,
    fun s id n safe v b i hb hi hl hf hv => ?_, fun s id n safe b i hb hi hl hf hv => ?_, fun s id n safe b i hb hi hl hf => ?_,
    fun s id n safe b i hb hi hl hf => ?_, qualBad_iff, fun _ _ _ _ => noteInput_kept, fun _ _ _ _ => noteInput_of_not_live, setCst_start_lastIn,
    fun _ _ _ _ => qualCombine_higher, fun _ _ _ _ => qualCombine_lower, fun _ _ _ => qualCombine_perm, fun _ _ => qualRank_le_combine,
    fun _ h _ => qualCombine_mem h⟩
  · rw [input_fallback hb hi hl, hf, hv]
    exact ⟨rfl, rfl⟩
  · rw [input_fallback hb hi hl, hf, hv]
    exact ⟨rfl, rfl⟩
  · rw [input_fallback hb hi hl, hf]
    exact ⟨rfl, rfl⟩
  · rw [input_fallback hb hi hl, hf]
    exact ⟨rfl, rfl⟩

end Sys2Proof
end

