-- ==== Sys2Proof/Proofs/ReturnFromFault.lean ====
section
/-! A cell's return from FAULT (R91), and the phasor group that a commit has changed while its permit ran: where the FAULT ends the pulse, the group
owes its entry into START (R158) and does not pass through RECOVER. -/

namespace Sys2Proof

open Sys2Proof.Machine

/-- The module in READY with one configured phasor group, in FAULT with its cause absent; the records of the commit that changed it are kept and no permit
runs (R158). Every register that is not written here reads 0. -/
def owingGroup : State :=
  (((({ State.reset with regs := [] } : State).wr modBase Reg.MOD_STATE_STATE stReady).wr (cellBase (phId 0)) Reg.CELL_STATE_EXISTS 1).wr
    (cellBase (phId 0)) Reg.CELL_STATE_STATE csFault).modPh 0 fun p => { p with old := some [] }

theorem owingGroup_served : Served owingGroup .service := by decide

theorem owingGroup_cleared : (decideCellClear (phId 0) owingGroup).2.cst (phId 0) = csStart := by decide

/-- Refutes O11: CLEAR of a group in FAULT that owes its entry into START leads to START and not to RECOVER. -/
theorem not_cellsRecoverAndTakeForces : ¬ Obligations.CellsRecoverAndTakeForces := by
  unfold Obligations.CellsRecoverAndTakeForces
  rintro ⟨-, hclear, -⟩
  obtain ⟨t, ht, hrecover, -⟩ := hclear owingGroup .service (phId 0) owingGroup_served (by decide) (by decide) (by decide)
    (by decide) (by decide)
  have hs : exec (.cellClear .service (phId 0)) owingGroup =
      .next ((decideCellClear (phId 0) owingGroup).2.answer .service (decideCellClear (phId 0) owingGroup).1).settle :=
    command_served _ _ _ owingGroup_served
  rw [hs, Host.Outcome.next.injEq] at ht
  rw [← ht, State.cst, State.settle_rd _ _ _ (by decide), State.answer_rd, ← State.cst, owingGroup_cleared] at hrecover
  exact absurd hrecover (by decide)

end Sys2Proof
end

