-- ==== Sys2Proof/Proofs/BoundaryRests.lean ====
section
/-! What a stroke boundary leaves alone of a module without cells (R65, R103): the rules, and one lemma for each operation that a boundary goes through, in the
order of the model's files. A proof with the dot follows the operation's own text. -/

namespace Sys2Proof

open Sys2Proof.Machine

/-- MOD.STATE, TM.STATUS and IMG.STATUS. -/
def edgeRegs : List Nat := [modBase + Reg.MOD_STATE_STATE.off, tmBase + Reg.TM_STATUS_PAUSED.off, nvjBase + Reg.IMG_STATUS_PHASE.off]

/-- From `s` to `t` the module rests: these registers, the count of boundaries, what waits for one, and the running configuration stay. -/
structure Rests (s t : State) : Prop where
  regs : ∀ a ∈ edgeRegs, t.reg a = s.reg a
  boundaries : t.fab.boundaries = s.fab.boundaries
  staged : t.fab.staged = s.fab.staged
  forces : t.fab.forces = s.fab.forces
  active : t.img.active = s.img.active

namespace Rests

variable {s t u : State} {α β : Type}

/-! Branches, repetitions and pairs. -/

theorem refl (s : State) : Rests s s := ⟨fun _ _ => rfl, rfl, rfl, rfl, rfl⟩

theorem trans (h : Rests s t) (h' : Rests t u) : Rests s u :=
  ⟨fun a ha => (h'.regs a ha).trans (h.regs a ha), h'.boundaries.trans h.boundaries, h'.staged.trans h.staged, h'.forces.trans h.forces,
    h'.active.trans h.active⟩

protected theorem ite {c : Prop} [Decidable c] (ht : Rests s t) (hu : Rests s u) : Rests s (if c then t else u) := by
  split
  · exact ht
  · exact hu

theorem ifThen {c : Prop} [Decidable c] (h : Rests s t) (hu : Rests s t → Rests s u) : Rests s (if c then u else t) := .ite (hu h) h
theorem ifElse {c : Prop} [Decidable c] (h : Rests s t) (hu : Rests s t → Rests s u) : Rests s (if c then t else u) := .ite h (hu h)

protected theorem pair {a : α} (h : Rests s t) : Rests s (a, t).2 := h

theorem iteSnd {c : Prop} [Decidable c] {p q : α × State} (hp : Rests s p.2) (hq : Rests s q.2) : Rests s (if c then p else q).2 := by
  split
  · exact hp
  · exact hq

theorem when {c : Bool} {f : State → State} (h : Rests s t) (hf : ∀ u, Rests s u → Rests s (f u)) : Rests s (t.when c f) := .ite (hf t h) h

theorem foldl {f : State → α → State} {l : List α} (h : Rests s t) (hf : ∀ u a, Rests s u → Rests s (f u a)) : Rests s (l.foldl f t) := by
  induction l generalizing t with
  | nil => exact h
  | cons a l ih => exact ih (hf t a h)

theorem foldlSnd {f : β × State → α → β × State} {l : List α} {p : β × State} (h : Rests s p.2) (hf : ∀ p a, Rests s p.2 → Rests s (f p a).2) :
    Rests s (l.foldl f p).2 := by
  induction l generalizing p with
  | nil => exact h
  | cons a l ih => exact ih (hf p a h)

/-! Writes of one part of the state. -/

/-- A change of a part of the state that the relation does not speak of. -/
theorem same (h : Rests s t) (hr : u.regs = t.regs) (hb : u.fab.boundaries = t.fab.boundaries)
    (hs : u.fab.staged = t.fab.staged) (hf : u.fab.forces = t.fab.forces) (ha : u.img.active = t.img.active) : Rests s u :=
  h.trans ⟨fun a _ => by rw [State.reg, hr]; rfl, hb, hs, hf, ha⟩

theorem setReg {a : Nat} {v : Word} (h : Rests s t) (ha : a ∉ edgeRegs) : Rests s (t.setReg a v) :=
  ⟨fun c hc => by rw [State.reg_setReg, if_neg fun e : c = a => ha (e ▸ hc), h.regs c hc], h.boundaries, h.staged, h.forces, h.active⟩

theorem wr {b : Nat} {f : Field} {v : Nat} (h : Rests s t) (ha : b + f.off ∉ edgeRegs) : Rests s (t.wr b f v) := h.setReg ha
theorem wrw {b : Nat} {f : Field} {v : Word} (h : Rests s t) (ha : b + f.off ∉ edgeRegs) : Rests s (t.wrw b f v) := h.setReg ha
theorem setFlag {b : Nat} {f : Field} {v : Bool} (h : Rests s t) (ha : b + f.off ∉ edgeRegs) : Rests s (t.setFlag b f v) := h.setReg ha
theorem bump {b : Nat} {f : Field} (h : Rests s t) (ha : b + f.off ∉ edgeRegs) : Rests s (t.bump b f) := h.setReg ha

/-- The page of a cell. -/
theorem off_cell {id o : Nat} (ho : o < 0x100) : cellBase id + o ∉ edgeRegs := fun hm => by
  have h : ∀ a ∈ edgeRegs, 0x100 ≤ pageOf a := by decide
  exact absurd (h _ hm) (Nat.not_le.mpr (pageOf_cellBase id ho))

/-- The register BLK.STATE of a block. -/
theorem off_block (r b : Nat) : blkBase r b + Reg.BLK_STATE_STATE.off ∉ edgeRegs := fun hm => by
  have h : ∀ a ∈ edgeRegs, a % 0x100 ≠ 0 := by decide
  have ho : Reg.BLK_STATE_STATE.off = 0 := rfl
  refine h _ hm ?_
  unfold blkBase svc
  omega

theorem modFab {f : FabricSt → FabricSt} (h : Rests s t) (hb : (f t.fab).boundaries = t.fab.boundaries)
    (hs : (f t.fab).staged = t.fab.staged) (hf : (f t.fab).forces = t.fab.forces) : Rests s (t.modFab f) :=
  h.same rfl hb hs hf rfl

theorem modTime {f : TimeSt → TimeSt} (h : Rests s t) : Rests s (t.modTime f) := h.same rfl rfl rfl rfl rfl
theorem modNet {f : NetSt → NetSt} (h : Rests s t) : Rests s (t.modNet f) := h.same rfl rfl rfl rfl rfl
theorem modChain {f : ChainSt → ChainSt} (h : Rests s t) : Rests s (t.modChain f) := h.same rfl rfl rfl rfl rfl
theorem modRec {f : RecSt → RecSt} (h : Rests s t) : Rests s (t.modRec f) := h.same rfl rfl rfl rfl rfl
theorem modToc {f : TocsinSt → TocsinSt} (h : Rests s t) : Rests s (t.modToc f) := h.same rfl rfl rfl rfl rfl
theorem modTab {f : TaborSt → TaborSt} (h : Rests s t) : Rests s (t.modTab f) := h.same rfl rfl rfl rfl rfl
theorem emit {o : Output} (h : Rests s t) : Rests s (t.emit o) := h.same rfl rfl rfl rfl rfl
theorem draw (h : Rests s t) : Rests s t.draw.2 := h.same rfl rfl rfl rfl rfl
theorem modCell {id : Nat} {f : CellSt → CellSt} (h : Rests s t) : Rests s (t.modCell id f) := h.modFab rfl rfl rfl
theorem modPh {n : Nat} {f : PhasorSt → PhasorSt} (h : Rests s t) : Rests s (t.modPh n f) := h.modFab rfl rfl rfl
theorem modAx {n : Nat} {f : AxSt → AxSt} (h : Rests s t) : Rests s (t.modAx n f) := h.same rfl rfl rfl rfl rfl
theorem modCan {c : Fin 2} {f : CanSt → CanSt} (h : Rests s t) : Rests s (t.modCan c f) :=
  .ite (h.same rfl rfl rfl rfl rfl) (h.same rfl rfl rfl rfl rfl)

theorem modPath {p : Path} {f : PathSt → PathSt} (h : Rests s t) : Rests s (t.modPath p f) := by
  unfold State.modPath
  split <;> exact h.modNet

/-- An operation under another configuration, which is put back. -/
theorem underImage {l m : List Record} {f : State → State} (h : Rests s t) (hf : ∀ u, Rests u (f u)) (hl : l = t.img.active) :
    Rests s ((f (t.modImg fun i => { i with active := m })).modImg fun i => { i with active := l }) := by
  obtain ⟨hr, hb, hs, ho, -⟩ := hf (t.modImg fun i => { i with active := m })
  exact h.trans ⟨hr, hb, hs, ho, hl⟩

/-! `Machine/Ops.lean`, `Machine/Operands.lean`, `Machine/Cells.lean`, `Machine/Occur.lean`. -/

theorem advance {n : Nat} (h : Rests s t) : Rests s (t.advance n) := h.same rfl rfl rfl rfl rfl
theorem setSig {sig : Nat} {w : SigWord} (h : Rests s t) : Rests s (t.setSig sig w) := h.modFab rfl rfl rfl
theorem noteInput {id n : Nat} {i : Input} (h : Rests s t) : Rests s (t.noteInput id n i) := h.when fun _ h => h.modCell
theorem syncOff {g : Nat} (h : Rests s t) : Rests s (t.syncOff g) := .ite h (h.wr (off_cell (by decide))).modPh
theorem modBlk {r b : Nat} {f : BlockSt → BlockSt} (h : Rests s t) : Rests s (t.modBlk r b f) := h.modFab rfl rfl rfl
theorem occur {src index : Nat} {mag : Rat} {key sig : Nat} (h : Rests s t) : Rests s (t.occur src index mag key sig) :=
  .ite (h.bump (by decide)) h.modRec

/-! `Machine/Axes.lean`, `Machine/Points.lean`. -/

theorem bridgesOn {n : Nat} (h : Rests s t) : Rests s (t.bridgesOn n) :=
  .ite h ((Rests.ite (h.wrw (off_cell (by decide))).modAx h).modAx.setFlag (off_cell (by decide)))

theorem energiseAx {n : Nat} (h : Rests s t) : Rests s (t.energiseAx n) := .ite h.bridgesOn h

theorem restoreSheds (h : Rests s t) : Rests s t.restoreSheds := by
  have h' : Rests s { t with fld := { t.fld with restore := [] } } := h.same rfl rfl rfl rfl rfl
  have hd : ∀ d, dbBase d + Reg.DB_FS_SHED.off ∉ edgeRegs := fun d hm => by
    have ha : ∀ a ∈ edgeRegs, a % 0x100 ≠ Reg.DB_FS_SHED.off := by decide
    have ho : Reg.DB_FS_SHED.off < 0x100 := by decide
    refine ha _ hm ?_
    unfold dbBase blkBase svc
    omega
  exact h'.foldl fun _ d h => (h.setFlag (hd d)).foldl fun _ _ h => .ite (h.setFlag (off_cell (by decide))) h

/-! `Machine/Chain.lean`. -/

theorem modCport {p : ChainPort} {f : ChainPortSt → ChainPortSt} (h : Rests s t) : Rests s (t.modCport p f) := by
  unfold State.modCport
  split <;> exact h.modChain

theorem correct {f : ChainFrame} {arrived : Nat} (h : Rests s t) : Rests s (t.correct f arrived).2 :=
  .iteSnd (.iteSnd (h.bump (by decide)) (((h.when fun _ h => h.bump (by decide)).bump (by decide)).wr (by decide))) h

theorem emitFrame {p : ChainPort} {f : ChainFrame} (h : Rests s t) : Rests s (t.emitFrame p f) := .ite h.emit h.emit

theorem egress {p : ChainPort} (h : Rests s t) : Rests s (t.egress p) := by
  unfold State.egress
  split
  · exact h
  · split
    · exact h
    · exact .ifThen (.when (.modCport (.iteSnd h h.correct)) fun _ h => h.modCport) fun h => h.emitFrame

theorem originate {p : ChainPort} {f : ChainFrame} (h : Rests s t) : Rests s (t.originate p f) := .ite h (h.modCport.ifThen fun h => h.egress)

theorem exportPort {p : ChainPort} {l : List ChainFrame} (h : Rests s t) : Rests s (t.exportPort p l) :=
  .ite h (.ite (h.when fun _ h => h.bump (by decide)).modCport (h.foldl fun _ _ h => h.originate))

theorem exportChain (h : Rests s t) : Rests s t.exportChain := .ite h h.exportPort.exportPort

/-! `Machine/Network.lean`. -/

theorem nwr {p : Path} {f : Field} {v : Nat} (h : Rests s t) (ha : ∀ p ∈ [Path.a, Path.b], netBase p + f.off ∉ edgeRegs) :
    Rests s (t.nwr p f v) := h.wr (ha p (by cases p <;> decide))
theorem nset {p : Path} {f : Field} {v : Bool} (h : Rests s t) (ha : ∀ p ∈ [Path.a, Path.b], netBase p + f.off ∉ edgeRegs) :
    Rests s (t.nset p f v) := h.nwr ha
theorem nbump {p : Path} {f : Field} (h : Rests s t) (ha : ∀ p ∈ [Path.a, Path.b], netBase p + f.off ∉ edgeRegs) :
    Rests s (t.bump (netBase p) f) := h.nwr ha

theorem endCycle {p : Path} (h : Rests s t) : Rests s (t.endCycle p) :=
  .ite ((h.modPath.nwr (by decide)).nset (by decide)) ((h.modPath.nwr (by decide)).when fun _ h => h.nbump (by decide))
theorem endCycles (h : Rests s t) : Rests s t.endCycles := .ite h.endCycle.endCycle h
theorem setSnare {n : Nat} (h : Rests s t) : Rests s (t.setSnare n) := (h.modNet.nwr (by decide)).nwr (by decide)
theorem readSnare {b : Bool} (h : Rests s t) : Rests s (t.readSnare b) := (h.when fun _ h => h.occur).setSnare
theorem seize {p : Path} {call : Bool} (h : Rests s t) : Rests s (t.seize p call) :=
  ((((h.nwr (by decide)).nset (by decide)).when fun _ h => h.modTime).nset (by decide)).modPath.setSnare

theorem pathRoles (h : Rests s t) : Rests s t.pathRoles := by
  unfold State.pathRoles
  refine .ite h ?_
  split
  · exact .ite (((((h.nwr (by decide)).nset (by decide)).nset (by decide)).nset (by decide)).setSnare.modNet.modPath.when fun _ h => h.seize) h
  · dsimp only
    split
    · exact h.modNet.seize
    · exact h

theorem takeEntry {l : List Nat} {k : Nat} {got : List Nat} {e : Nat × SigWord} (h : Rests s t) : Rests s (t.takeEntry l k got e).2 :=
  .iteSnd (.pair (.modFab (.setSig h.modNet) rfl rfl rfl)) h

theorem staleImport {sig : Nat} (h : Rests s t) : Rests s (t.staleImport sig) := .ite h.setSig (.ite h.modNet.setSig (.ite h.setSig h.setSig))

theorem publishNet (h : Rests s t) : Rests s t.publishNet := by
  unfold State.publishNet
  dsimp only
  split
  · refine .modNet (.nwr (.nwr (.foldl (.modNet ?_) fun _ _ h => h.staleImport) (by decide)) (by decide))
    split
    · exact foldlSnd h fun _ _ h => foldlSnd h fun _ _ h => h.takeEntry
    · exact h
  · refine .foldl (.modNet ?_) fun _ _ h => h.staleImport
    split
    · exact foldlSnd h fun _ _ h => foldlSnd h fun _ _ h => h.takeEntry
    · exact h

theorem sendRun {p : Path} {l : List NetFrame} (h : Rests s t) : Rests s (t.sendRun p l) := by
  induction l generalizing t with
  | nil => exact h.modPath
  | cons f l ih => exact .ite (ih (h.modPath.nbump (by decide)).emit) h.modPath

theorem pump {p : Path} (h : Rests s t) : Rests s (t.pump p) := .ite h.modPath (.ite h.sendRun.modPath.sendRun h.sendRun)

theorem exportNet (h : Rests s t) : Rests s t.exportNet := by
  unfold State.exportNet
  dsimp only
  split
  · exact h.pump.pump.ifElse fun h => .ite (h.when fun _ h => h.nbump (by decide)).modPath h.modPath.pump
  · exact h.pump.pump

/-! `Machine/Phasor.lean`, `Machine/Recorder.lean`, `Machine/Can.lean`, `Machine/Tabor.lean`. -/

theorem syncLeave {g : Nat} (h : Rests s t) : Rests s (t.syncLeave g) := .ite h.syncOff h

theorem underOld {g : Nat} {f : State → State} (h : Rests s t) (hf : ∀ u, Rests u (f u)) : Rests s (t.underOld g f) := by
  unfold State.underOld
  split
  · exact h.trans (hf t)
  · exact h.underImage hf rfl

theorem watchSignals (h : Rests s t) : Rests s t.watchSignals :=
  h.foldl fun _ _ h => .ite h (h.when fun _ h => h.occur).modRec

theorem cbump {c : Fin 2} {f : Field} (h : Rests s t) (ha : ∀ c : Fin 2, canBase c.val + f.off ∉ edgeRegs) : Rests s (t.cbump c f) :=
  h.bump (ha c)

theorem exportFrame {c : Fin 2} {l : List Record} (h : Rests s t) : Rests s (t.exportFrame c l) := by
  unfold State.exportFrame
  split
  · exact h
  · exact .ite h (.ite (h.cbump (by decide)) (h.when fun _ h => h.cbump (by decide)).modCan)

theorem exportCan (h : Rests s t) : Rests s t.exportCan := .ite (h.foldl fun _ _ h => h.foldl fun _ _ h => h.exportFrame) h

theorem legacyRead {a : Nat} (h : Rests s t) : Rests s (t.legacyRead a).2 := by
  unfold State.legacyRead
  split
  · exact h
  · exact h.draw

theorem broadcast (h : Rests s t) : Rests s t.broadcast := by
  refine .ite (.emit ?_) h
  exact foldlSnd h fun _ _ h => h.legacyRead

/-! `Machine/Stroke.lean`. -/

theorem runTo {x : Int} (h : Rests s t) : Rests s (t.runTo x) := .ite h h.advance
theorem showEdge {x : Int} {n : Nat} (h : Rests s t) : Rests s (t.showEdge x n) :=
  (((((h.when fun _ h => h.bump (by decide)).wrw (by decide)).wrw (by decide)).wrw (by decide)).wrw (by decide)).wr (by decide)

theorem phasorEdge {g : Nat} (h : Rests s t) : Rests s (t.phasorEdge g) := by
  unfold State.phasorEdge
  refine .ite h (.underOld ?_ fun u => (refl u).syncLeave)
  split
  · exact h.noteInput.modPh
  · exact h.modPh

theorem resetEdge {k : Nat} (h : Rests s t) : Rests s (t.resetEdge k) := by
  unfold State.resetEdge
  dsimp only
  split
  · exact .ite h (h.modToc.when fun _ h => h.modToc)
  · exact h

theorem agePairs (h : Rests s t) : Rests s t.agePairs := h.modTab

theorem exportImage {img : List Record} {words : Store (Option SigWord)} {units : Nat} (h : Rests s t) : Rests s (t.exportImage img words units) := by
  have hf : ∀ u, Rests u (((((u.modFab fun f => { f with words := words }).wr tmBase Reg.STK_CFG_TS_UNITS units).exportChain.exportNet).exportCan).broadcast) :=
    fun u => by
      have hw : Rests u (u.modFab fun f => { f with words := words }) := (refl u).modFab rfl rfl rfl
      exact (hw.wr (by decide)).exportChain.exportNet.exportCan.broadcast
  exact ((h.underImage hf rfl).modFab rfl rfl rfl).wr (by decide)

end Rests

end Sys2Proof
end

