-- ==== Sys2Proof/Proofs/StrokeBoundary.lean ====
section
/-! The stroke boundary (R65, R69, R103): a module without cells rests through it but for the count; where no boundaries fall it does nothing; and the order
of its parts. -/

namespace Sys2Proof

open Sys2Proof.Machine

variable {s t : State}

/-! The edge (R65, R66, R69). -/

/-- Before it counts, the edge moves the time base and its registers. -/
theorem passEdge_counts (s : State) : ∃ w, Rests s w ∧
    s.passEdge = (w.setFlag tmBase Reg.TM_STATUS_PAUSED false).modFab fun f => { f with boundaries := f.boundaries + 1, before := none } := by
  unfold State.passEdge
  dsimp only
  refine ⟨_, .modTime ?_, rfl⟩
  exact .ite (Rests.refl s).runTo.showEdge (.ite (Rests.refl s).showEdge (Rests.refl s).advance.showEdge)

theorem passEdge_boundaries (s : State) : s.passEdge.fab.boundaries = s.fab.boundaries + 1 := by
  obtain ⟨w, hw, he⟩ := passEdge_counts s
  rw [he, ← hw.boundaries]
  rfl

theorem passEdge_waits (s : State) : s.passEdge.fab.staged = s.fab.staged ∧ s.passEdge.fab.forces = s.fab.forces ∧ s.passEdge.img.active = s.img.active := by
  obtain ⟨w, hw, he⟩ := passEdge_counts s
  rw [he]
  exact ⟨hw.staged, hw.forces, hw.active⟩

theorem passEdge_paused (s : State) : s.passEdge.flag tmBase Reg.TM_STATUS_PAUSED = false := by
  obtain ⟨w, -, he⟩ := passEdge_counts s
  rw [he, State.modFab_flag, State.flag_setFlag_same _ _ _ _ (by decide) rfl]

theorem passEdge_mst (s : State) : s.passEdge.mst = s.mst := by
  obtain ⟨w, hw, he⟩ := passEdge_counts s
  rw [he, State.modFab_mst, State.mst, State.setFlag, State.rd_wr_of_ne _ _ _ _ _ _ (by decide)]
  exact congrArg (getField · _ _) (hw.regs _ (by decide))

theorem passEdge_imgPhase (s : State) : s.passEdge.imgPhase = s.imgPhase := by
  obtain ⟨w, hw, he⟩ := passEdge_counts s
  rw [he, State.imgPhase, State.modFab_rd, State.setFlag, State.rd_wr_of_ne _ _ _ _ _ _ (by decide)]
  exact congrArg (getField · _ _) (hw.regs _ (by decide))

namespace Rests

theorem mst (h : Rests s t) : t.mst = s.mst := congrArg (getField · _ _) (h.regs _ (by decide))
theorem imgPhase (h : Rests s t) : t.imgPhase = s.imgPhase := congrArg (getField · _ _) (h.regs _ (by decide))

theorem paused (h : Rests s t) : t.flag tmBase Reg.TM_STATUS_PAUSED = s.flag tmBase Reg.TM_STATUS_PAUSED :=
  congrArg (getField · _ _ == 1) (h.regs (tmBase + Reg.TM_STATUS_PAUSED.off) (by decide))

end Rests

/-! The parts of a boundary, without cells. -/

theorem cells_eq_nil (h : s.img.active = []) : s.cells = [] := by rw [State.cells, h]; rfl

theorem publishImage_rests (h : s.img.active = []) : Rests s s.publishImage := by
  unfold State.publishImage
  simp only [cells_eq_nil h, List.foldl_nil]
  exact ((Rests.refl s).publishNet.modFab rfl rfl rfl).watchSignals

theorem applyStaged_rests (h : s.img.active = []) (hs : s.fab.staged = []) (hf : s.fab.forces = []) : Rests s s.applyStaged := by
  have hc : (s.modFab fun f => { f with staged := [], forces := [] }).cells = [] := cells_eq_nil h
  unfold State.applyStaged
  simp only [hs, hf, List.foldl_nil, hc]
  exact ((Rests.refl s).modFab rfl hs.symm hf.symm).restoreSheds

theorem runStep_load (h : s.mst = stLoad) : s.runStep = s := by
  unfold State.runStep
  rw [h]
  simp [stLoad, stRun, stReady]

theorem driveImage_rests (h : s.img.active = []) : Rests s s.driveImage := by
  have hu : Rests s ((List.range 4).foldl State.energiseAx s) := (Rests.refl s).foldl fun _ _ h => h.energiseAx
  have hc := cells_eq_nil (hu.active.trans h)
  unfold State.driveImage State.drive State.physicalCells
  simp only [cells_eq_nil h, List.foldl_nil, hc, ite_self, List.filter_nil]
  exact hu

theorem countAbsent_rests (h : s.img.active = []) : Rests s s.countAbsent := by
  unfold State.countAbsent
  simp only [cells_eq_nil h, List.foldl_nil]
  exact (Rests.refl s).foldl fun _ _ h => h.foldl fun _ _ h => .ite (.ifElse h fun h => h.modBlk) (h.ifThen fun h => h.wr (Rests.off_block _ _))

/-- After its edge, a boundary in LOAD leaves a module without cells as it is. -/
theorem strokeBoundary_rests (hm : s.mst = stLoad) (ha : s.img.active = []) (hp : s.imgPhase = phIdle) (hs : s.fab.staged = []) (hf : s.fab.forces = [])
    (snare : Bool) : Rests s.passEdge (s.strokeBoundary snare) := by
  obtain ⟨hs', hf', ha'⟩ := passEdge_waits s
  have h1 : Rests s.passEdge ((s.passEdge.endCycles).readSnare snare) := (Rests.refl _).endCycles.readSnare
  have h2 := h1.trans (publishImage_rests (h1.active.trans (ha'.trans ha)))
  have h3 := h2.trans (applyStaged_rests (h2.active.trans (ha'.trans ha)) (h2.staged.trans (hs'.trans hs)) (h2.forces.trans (hf'.trans hf)))
  have hi : ∀ u, Rests s.passEdge u → u.commitStep = u := fun u hu => commitStep_idle (by rw [hu.imgPhase, passEdge_imgPhase, hp]; decide)
  have hr : ∀ u, Rests s.passEdge u → u.runStep = u := fun u hu => runStep_load (hu.mst.trans ((passEdge_mst s).trans hm))
  have hrun : s.strokesRun = true := by rw [State.strokesRun, State.mstIn, hm]; rfl
  unfold State.strokeBoundary
  rw [hrun]
  simp only [Bool.not_true, Bool.false_eq_true, if_false]
  rw [hi _ h3, hr _ h3.pathRoles]
  have h4 := h3.pathRoles.trans (driveImage_rests (h3.pathRoles.active.trans (ha'.trans ha)))
  have h5 := h4.trans (countAbsent_rests (h4.active.trans (ha'.trans ha)))
  exact (((h5.foldl fun _ _ h => h.phasorEdge).foldl fun _ _ h => h.resetEdge).modFab rfl rfl rfl).agePairs.exportImage

theorem boundary_counts (s : State) (hm : s.mst = stLoad) (ha : s.img.active = []) (hp : s.imgPhase = phIdle) (hs : s.fab.staged = []) (hf : s.fab.forces = []) :
    Answers (.strokeBoundary false) s fun t =>
      t.fab.boundaries = s.fab.boundaries + 1 ∧ t.mst = stLoad ∧ t.img.active = [] ∧ t.flag tmBase Reg.TM_STATUS_PAUSED = false := by
  have h := strokeBoundary_rests hm ha hp hs hf false
  refine ⟨_, rfl, ?_, ?_, ?_, ?_⟩
  · rw [State.settle_fab, h.boundaries, passEdge_boundaries]
  · rw [State.settle_mst, h.mst, passEdge_mst, hm]
  · rw [State.settle_img, h.active, (passEdge_waits s).2.2, ha]
  · rw [State.settle_flag _ _ _ (by decide), h.paused, passEdge_paused]

/-! Where no boundaries fall (R65), and the order of a boundary's parts (R103). -/

theorem boundary_none (h : s.mst ∉ [stEnum, stLoad, stReady, stRun, stSafe, stService]) (snare : Bool) :
    exec (.strokeBoundary snare) s = .next s.settle := by
  have hr : s.strokesRun = false := by
    rw [State.strokesRun, State.mstIn, Bool.eq_false_iff, ne_eq, List.contains_iff_mem]
    exact h
  have hb : s.strokeBoundary snare = s := by rw [State.strokeBoundary, hr]; rfl
  exact congrArg done hb

theorem boundary_order (s u v : State) (snare : Bool) (h : s.strokesRun = true) (hu : u = ((s.passEdge.endCycles).readSnare snare).publishImage)
    (hv : v = (List.range 4).foldl State.phasorEdge (((u.applyStaged.commitStep).pathRoles).runStep.driveImage.countAbsent)) :
    exec (.strokeBoundary snare) s =
      .next (((((v.tripOuts.map Prod.fst).foldl State.resetEdge v).modFab fun f =>
        { f with opened := ((v.tripOuts.map Prod.fst).foldl State.resetEdge v).evaluating }).agePairs.exportImage
          ((s.passEdge.endCycles).readSnare snare).img.active u.fab.words (((s.passEdge.endCycles).readSnare snare).rd tmBase Reg.STK_CFG_TS_UNITS)).settle) := by
  have hb : exec (.strokeBoundary snare) s = done (s.strokeBoundary snare) := rfl
  rw [hb, State.strokeBoundary, h, done_eq, hv, hu]
  simp only [Bool.not_true, Bool.false_eq_true, if_false]

end Sys2Proof
end

