-- ==== Sys2Proof/Proofs/EvaluationWindow.lean ====
section
/-! The evaluation window (R71, R75, R105): what its opening keeps for the boundary, and what its close discards. -/

namespace Sys2Proof

open Sys2Proof.Machine

variable {s t u : State} {α : Type}

/-! The opening. -/

theorem Machine.OnlyRegs.foldl {f : State → α → State} (hf : ∀ u a, OnlyRegs u (f u a)) (l : List α) (s : State) : OnlyRegs s (l.foldl f s) := by
  induction l generalizing s with
  | nil => exact .refl s
  | cons a l ih => exact (hf s a).trans (ih _)

theorem Machine.OnlyRegs.fab (h : OnlyRegs s t) : t.fab = s.fab := by
  obtain ⟨r, rfl⟩ := h
  rfl

theorem peak_onlyRegs (s : State) (r b : Nat) (f : Field) (n : Nat) : OnlyRegs s (s.peak r b f n) := .wr _ _ _ _

/-- BLK.LOAD stands in registers. -/
theorem showLoad_onlyRegs (s : State) (ids : List Nat) : OnlyRegs s (s.showLoad ids) := by
  have hn : ∀ (c : Bool) (u : State), OnlyRegs u (u.when c fun s => (s.peak 3 0 Reg.BLK_LOAD_TOK 1024).peak 3 1 Reg.BLK_LOAD_TOK 1024) := fun c u => by
    cases c
    · exact .refl u
    · exact (peak_onlyRegs _ _ _ _ _).trans (peak_onlyRegs _ _ _ _ _)
  unfold State.showLoad
  exact ((OnlyRegs.foldl (fun _ _ => peak_onlyRegs _ _ _ _ _) _ _).trans (.foldl (fun _ _ => peak_onlyRegs _ _ _ _ _) _ _)).trans
    (hn _ _)

/-- Without cells and signals there is no load to show. -/
theorem showLoad_bare (h : s.img.active = []) : s.showLoad [] = s := by
  unfold State.showLoad
  simp only [cells_eq_nil h, h, signalsOf, List.map_nil, List.filter_nil, List.eraseDups_nil, List.foldl_nil, List.any_nil, State.when_false]

/-- What the opening keeps for the close: the cells as they stood, and those that their evaluation isolated. -/
def Machine.State.windowStart (s : State) : Before :=
  ⟨s.regs, s.fab.cells, s.fab.fcs, s.fab.loops,
    (s.cells.filter s.evaluates).filter fun id => ((s.cells.filter s.evaluates).foldl State.evaluate s).cst id == csFault, false⟩

theorem windowOpen_eq (he : s.evaluating = true) (hb : s.fab.before = none) :
    exec .evaluationWindowOpen s = .next ((((s.cells.filter s.evaluates).foldl State.evaluate s).modFab fun f =>
      { f with before := some s.windowStart }).showLoad (s.cells.filter s.evaluates)).settle := by
  have hc : ¬ (!s.evaluating || s.fab.before.isSome) = true := by rw [he, hb]; decide
  exact congrArg done (if_neg hc)

theorem window_evaluates (s u : State) (he : s.evaluating = true) (hb : s.fab.before = none) (hu : u = (s.cells.filter s.evaluates).foldl State.evaluate s) :
    Answers .evaluationWindowOpen s fun t =>
      t.fab.back = u.fab.back ∧ t.fab.words = u.fab.words ∧ t.fab.cells = u.fab.cells ∧ t.fab.fcs = u.fab.fcs ∧ t.fab.loops = u.fab.loops ∧
      t.fab.before = some ⟨s.regs, s.fab.cells, s.fab.fcs, s.fab.loops, (s.cells.filter s.evaluates).filter fun id => u.cst id == csFault, false⟩ := by
  refine ⟨_, windowOpen_eq he hb, ?_⟩
  beta_reduce
  rw [State.settle_fab, (showLoad_onlyRegs _ _).fab, hu]
  exact ⟨rfl, rfl, rfl, rfl, rfl, rfl⟩

theorem window_bare (s : State) (hm : s.mst ∈ [stRun, stSafe, stService]) (ha : s.img.active = []) (hb : s.fab.before = none) :
    Answers .evaluationWindowOpen s fun t => t.fab.before = some ⟨s.regs, s.fab.cells, s.fab.fcs, s.fab.loops, [], false⟩ ∧ RegsKept [] s t := by
  have he : s.evaluating = true := List.contains_iff_mem.mpr hm
  have hc : s.cells.filter s.evaluates = [] := by rw [cells_eq_nil ha]; rfl
  have hw : s.windowStart = ⟨s.regs, s.fab.cells, s.fab.fcs, s.fab.loops, [], false⟩ := by rw [State.windowStart, hc]; rfl
  refine ⟨_, windowOpen_eq he hb, ?_⟩
  rw [hc, hw, List.foldl_nil, showLoad_bare (s := s.modFab _) ha]
  exact ⟨by rw [State.settle_fab]; rfl, ((RegsBut.refl [] s).modFab).settled⟩

/-! The work of a cell is discarded. -/

/-- The cells that have not finished in the stroke. -/
def LateIs (l : List Nat) (s : State) : Prop := s.fab.late = l

namespace LateIs

variable {l : List Nat}

protected theorem ite {c : Prop} [Decidable c] (ht : LateIs l t) (hu : LateIs l u) : LateIs l (if c then t else u) := by
  split
  · exact ht
  · exact hu

theorem setReg {a : Nat} {v : Word} (h : LateIs l s) : LateIs l (s.setReg a v) := h
theorem wr {b : Nat} {f : Field} {v : Nat} (h : LateIs l s) : LateIs l (s.wr b f v) := h
theorem setFlag {b : Nat} {f : Field} {v : Bool} (h : LateIs l s) : LateIs l (s.setFlag b f v) := h
theorem bump {b : Nat} {f : Field} (h : LateIs l s) : LateIs l (s.bump b f) := h
theorem modCell {id : Nat} {f : CellSt → CellSt} (h : LateIs l s) : LateIs l (s.modCell id f) := h
theorem modLp {n : Nat} {f : LoopSt → LoopSt} (h : LateIs l s) : LateIs l (s.modLp n f) := h
theorem modFc {n : Nat} {f : FcSt → FcSt} (h : LateIs l s) : LateIs l (s.modFc n f) := h
theorem when {c : Bool} {f : State → State} (h : LateIs l s) (hf : ∀ u, LateIs l u → LateIs l (f u)) : LateIs l (s.when c f) := .ite (hf s h) h

theorem foldl {f : State → α → State} {m : List α} (h : LateIs l s) (hf : ∀ u a, LateIs l u → LateIs l (f u a)) : LateIs l (m.foldl f s) := by
  induction m generalizing s with
  | nil => exact h
  | cons a m ih => exact ih (hf s a h)

/-- What the discarded work did to the cell's state is taken back. -/
theorem undoFault {c d : Bool} {id n : Nat} {g : CellSt → CellSt} (h : LateIs l s) :
    LateIs l ((s.when c fun s => s.wr (cellBase id) Reg.CELL_STATE_STATE n).when d fun s =>
      ((s.setFlag (cellBase id) Reg.CELL_STATE_ISOL false).setFlag (cellBase id) Reg.CELL_STATE_LATCHED false).modCell id g) :=
  (h.when fun _ h => h.wr).when fun _ h => h.setFlag.setFlag.modCell

theorem unevaluate {b : Before} {id : Nat} (h : LateIs l s) : LateIs l (s.unevaluate b id) := by
  have hr : LateIs l (((List.range 63).map fun i => cellBase id + 4 + 4 * i).foldl (fun s a => s.setReg a (Store.get 0 b.regs a)) s) :=
    h.foldl fun _ _ h => h.setReg
  exact .ite h (.ite hr.undoFault.modCell.wr.modLp hr.undoFault.modCell.modFc)

end LateIs

theorem discardWork_late (s : State) (id : Nat) : LateIs (id :: s.fab.late.filter (· != id)) (s.discardWork id) := by
  have h : LateIs (id :: s.fab.late.filter (· != id)) ((s.dropHeld id).modFab fun f => { f with late := id :: f.late.filter (· != id) }) := rfl
  unfold State.discardWork
  dsimp only
  split
  · exact h.unevaluate
  · exact h

theorem mem_late_foldl {l : List Nat} {id : Nat} (h : id ∈ l ∨ id ∈ s.fab.late) : id ∈ (l.foldl State.discardWork s).fab.late := by
  induction l generalizing s with
  | nil => exact h.resolve_left List.not_mem_nil
  | cons j l ih =>
    refine ih ?_
    rw [show (s.discardWork j).fab.late = _ from discardWork_late s j]
    by_cases hj : id = j
    · exact .inr (hj ▸ List.mem_cons_self)
    · rcases h with h | h
      · exact .inl ((List.mem_cons.mp h).resolve_left hj)
      · exact .inr (List.mem_cons_of_mem _ (List.mem_filter.mpr ⟨h, by simpa using hj⟩))

namespace Keeps

variable {l : List (Nat × Field)}

theorem undoFault {c d : Bool} {id n : Nat} {g : CellSt → CellSt} (h : Keeps l s t) :
    Keeps l s ((t.when c fun s => s.wr (cellBase id) Reg.CELL_STATE_STATE n).when d fun s =>
      ((s.setFlag (cellBase id) Reg.CELL_STATE_ISOL false).setFlag (cellBase id) Reg.CELL_STATE_LATCHED false).modCell id g) :=
  (h.when fun _ h => h.wr (by decide)).when fun _ h => ((h.setFlag (by decide)).setFlag (by decide)).modCell

theorem unevaluate {b : Before} {id : Nat} (h : Keeps l s t) : Keeps l s (t.unevaluate b id) := by
  have hr : Keeps l s (((List.range 63).map fun i => cellBase id + 4 + 4 * i).foldl (fun s a => s.setReg a (Store.get 0 b.regs a)) t) :=
    h.foldlMem fun _ a ha h => by
      obtain ⟨i, hi, rfl⟩ := List.mem_map.mp ha
      rw [Nat.add_assoc]
      exact h.setReg (by have := List.mem_range.mp hi; omega)
  exact .ite h (.ite (hr.undoFault.modCell.wr (by decide)).modLp hr.undoFault.modCell.modFc)

theorem discardWork {id : Nat} (h : Keeps l s t) : Keeps l s (t.discardWork id) := by
  unfold State.discardWork
  dsimp only
  split
  · exact (h.dropHeld.modFab rfl).unevaluate
  · exact h.dropHeld.modFab rfl

end Keeps

/-! The close. -/

theorem windowClose_finished (s : State) (b : Before) (hb : s.fab.before = some b) (hc : b.closed = false) :
    Answers (.evaluationWindowClose []) s fun t =>
      t.fab.before = some { b with closed := true } ∧ t.fab.back = s.fab.back ∧ t.outbox = s.outbox ∧ RegsKept [] s t := by
  have he : exec (.evaluationWindowClose []) s = .next (s.modFab fun f => { f with before := some { b with closed := true } }).settle := by
    have h : exec (.evaluationWindowClose []) s = execEvaluationWindowClose [] s := rfl
    rw [h, execEvaluationWindowClose, hb, done_eq]
    simp only [hc, List.eraseDups_nil, List.filter_nil, List.isEmpty_nil, if_true, Bool.false_eq_true, if_false]
  refine ⟨_, he, ?_, ?_, ?_, ((RegsBut.refl [] s).modFab).settled⟩
  · rw [State.settle_fab]; rfl
  · rw [State.settle_fab]; rfl
  · rw [State.settle_outbox]; rfl

/-- An overrun of a block is counted on its own page. -/
theorem bump_overruns_late (s : State) (r b : Nat) : (s.bump (blkBase r b) Reg.BLK_ERR_OVERRUNS).rd tmBase Reg.STK_SLIP_LATE = s.rd tmBase Reg.STK_SLIP_LATE := by
  refine State.rd_wr_of_ne _ _ _ _ _ _ ?_
  have h1 : Reg.STK_SLIP_LATE.off = 0xDC ∧ Reg.BLK_ERR_OVERRUNS.off = 4 := ⟨rfl, rfl⟩
  rw [h1.1, h1.2]
  unfold tmBase blkBase svc
  omega

/-- The work of the cells `ids` is discarded at the close. -/
def Machine.State.closeLate (s : State) (ids : List Nat) : State :=
  (ids.map (· / 256)).eraseDups.foldl (fun s k => s.bump (blkBase (k / 32) (k % 32)) Reg.BLK_ERR_OVERRUNS)
    ((ids.foldl State.discardWork s).bump tmBase Reg.STK_SLIP_LATE)

theorem closeLate_late (s : State) {ids : List Nat} {id : Nat} (h : id ∈ ids) : id ∈ (s.closeLate ids).fab.late := by
  have hl : LateIs (ids.foldl State.discardWork s).fab.late (s.closeLate ids) :=
    (show LateIs _ (ids.foldl State.discardWork s) from rfl).bump.foldl fun _ _ h => h.bump
  rw [show (s.closeLate ids).fab.late = _ from hl]
  exact mem_late_foldl (.inl h)

theorem closeLate_counts (s : State) (ids : List Nat) :
    (s.closeLate ids).rd tmBase Reg.STK_SLIP_LATE = min (s.rd tmBase Reg.STK_SLIP_LATE + 1) (2 ^ Reg.STK_SLIP_LATE.width - 1) := by
  have hk : Keeps [] s (ids.foldl State.discardWork s) := (Keeps.refl [] s).foldl fun _ _ h => h.discardWork
  have hf : ∀ (l : List Nat) (u : State), (l.foldl (fun s k => s.bump (blkBase (k / 32) (k % 32)) Reg.BLK_ERR_OVERRUNS) u).rd tmBase Reg.STK_SLIP_LATE =
      u.rd tmBase Reg.STK_SLIP_LATE := fun l => by
    induction l with
    | nil => exact fun _ => rfl
    | cons k l ih => exact fun u => (ih _).trans (bump_overruns_late u _ _)
  rw [State.closeLate, hf, State.rd_bump _ _ _ (by decide), hk.rd _ _ (by decide) (by simp)]

theorem closeLate_outbox (s : State) (ids : List Nat) : (s.closeLate ids).outbox = s.outbox := by
  have hk : Keeps [] s (ids.foldl State.discardWork s) := (Keeps.refl [] s).foldl fun _ _ h => h.discardWork
  have hf : ∀ (l : List Nat) (u : State), (l.foldl (fun s k => s.bump (blkBase (k / 32) (k % 32)) Reg.BLK_ERR_OVERRUNS) u).outbox = u.outbox := fun l => by
    induction l with
    | nil => exact fun _ => rfl
    | cons k l ih => exact fun u => ih _
  rw [State.closeLate, hf, State.bump_outbox, hk.outbox]

theorem windowClose_late (s : State) (b : Before) (l : List Nat) (id : Nat) (hb : s.fab.before = some b) (hc : b.closed = false) (hl : id ∈ l)
    (hx : s.exists_ id = true) (hd : s.dueOpening id = true) :
    Answers (.evaluationWindowClose l) s fun t =>
      id ∈ t.fab.late ∧ t.rd tmBase Reg.STK_SLIP_LATE = min (s.rd tmBase Reg.STK_SLIP_LATE + 1) (2 ^ Reg.STK_SLIP_LATE.width - 1) ∧ t.outbox = s.outbox := by
  obtain ⟨ids, hids⟩ : ∃ ids, ids = l.eraseDups.filter fun id => s.exists_ id && s.dueOpening id := ⟨_, rfl⟩
  have hm : id ∈ ids := by
    rw [hids]
    exact List.mem_filter.mpr ⟨List.mem_eraseDups.mpr hl, by rw [hx, hd]; rfl⟩
  have hn : ids.isEmpty = false := List.isEmpty_eq_false_iff.mpr (List.ne_nil_of_mem hm)
  have he : exec (.evaluationWindowClose l) s = .next ((s.modFab fun f => { f with before := some { b with closed := true } }).closeLate ids).settle := by
    have h : exec (.evaluationWindowClose l) s = execEvaluationWindowClose l s := rfl
    rw [h, execEvaluationWindowClose, ← hids, hb, done_eq]
    simp only [hc, hn, Bool.false_eq_true, if_false]
    rfl
  refine ⟨_, he, ?_, ?_, ?_⟩
  · rw [State.settle_fab]
    exact closeLate_late _ hm
  · rw [State.settle_rd _ _ _ (by decide), closeLate_counts, State.modFab_rd]
  · rw [State.settle_outbox, closeLate_outbox, State.modFab_outbox]

end Sys2Proof
end

