-- ==== Sys2Proof/Proofs/BlockIsolation.lean ====
section
/-! Block errors, block isolation and its end (R94, R97, R105, R504). -/

namespace Sys2Proof

open Sys2Proof.Machine

variable {s t : State} {r b : Nat}

/-! Where the registers of a block stand. -/

theorem blkBase_page (r b : Nat) {o : Nat} (h : o < 0x100) : pageOf (blkBase r b + o) = 0xFFF ∧ (blkBase r b + o) % 0x100 = o := by
  unfold pageOf blkBase svc
  omega

/-- BLK.STATE stands off the registers that operations on cells write. -/
theorem blkState_kept (r b : Nat) {f : Field} (hf : f.off = 0) : Kept (blkBase r b) f := by
  obtain ⟨hp, hm⟩ := blkBase_page r b (o := f.off) (by omega)
  have h1 : ∀ a ∈ trippedRegs ++ sideRegs, ¬ (pageOf a = 0xFFF ∧ a % 0x100 = 0) := by decide
  have h2 : ∀ x ∈ sideFields, (x.1 + x.2.off) % 0x100 ≠ 0 := by decide
  have h0 : (blkBase r b + f.off) % 0x100 = 0 := hm.trans hf
  refine ⟨by omega, fun h => h1 _ (List.mem_append_left _ h) ⟨hp, h0⟩, fun h => h1 _ (List.mem_append_right _ h) ⟨hp, h0⟩, fun x hx => .inl fun e => ?_⟩
  exact h2 x hx (e ▸ h0)

/-- No follower stands in BLK.STATE. -/
theorem blkState_not_follower (r b : Nat) {f : Field} (hf : f.off = 0) : blkBase r b + f.off ∉ followers := fun hm => by
  have h : ∀ a ∈ followers, a % 0x100 ≠ 0 := by decide
  exact h _ hm ((blkBase_page r b (o := f.off) (by omega)).2.trans hf)

/-- None stands in BLK.ERR, which region 0 has not. -/
theorem blkErr_not_follower (b : Nat) (hr : r ≠ 0) : blkBase r b + Reg.BLK_ERR_ERRORS.off ∉ followers := fun hm => by
  have h : ∀ a ∈ followers, a % 0x100 = 4 → a < 0x10000000 := by decide
  have ho : Reg.BLK_ERR_ERRORS.off = 4 := rfl
  have hlt := h _ hm (by rw [ho]; exact (blkBase_page r b (by decide)).2)
  unfold blkBase svc at hlt
  omega

theorem settle_rd_of_reg (s : State) (c : Nat) (g : Field) (h : c + g.off ∉ followers) : s.settle.rd c g = s.rd c g := by
  rw [State.rd, s.settle_reg _ h, State.rd]

theorem settle_blkSt (s : State) (r b : Nat) : s.settle.blkSt r b = s.blkSt r b := settle_rd_of_reg _ _ _ (blkState_not_follower r b rfl)

theorem settle_isolated (s : State) (r b : Nat) : s.settle.isolated r b = s.isolated r b := by rw [State.isolated, settle_blkSt, State.isolated]

/-! A block error (R94). -/

/-- The affected cells of a block lose the work of the stroke. -/
def Machine.State.discardIn (s : State) (r b : Nat) (affected : List Nat) : State := ((s.cellsIn r b).filter affected.contains).foldl State.discardWork s

theorem discardIn_nil (s : State) (r b : Nat) : s.discardIn r b [] = s := by
  have h : (s.cellsIn r b).filter (List.contains []) = [] := List.filter_eq_nil_iff.mpr (by simp)
  rw [State.discardIn, h, List.foldl_nil]

theorem blockError_eq (hx : blockExists r b = true) (hr : r ≠ 0) (m : List Nat) : exec (.blockError (r, b) ⟨m, none⟩) s =
    .next (if (s.countBlockError r b).1 then ((s.countBlockError r b).2.discardIn r b m).isolateBlk r b false
      else (s.countBlockError r b).2.discardIn r b m).settle := by
  have hc : (blockExists r b && r != 0) = true := by rw [hx, bne_iff_ne.mpr hr]; rfl
  have hb : s.blockError r b m = _ := if_pos hc
  exact congrArg done hb

theorem blockError_counts (s : State) (r b : Nat) (m : List Nat) (hx : blockExists r b = true) (hr : r ≠ 0) (hi : (s.countBlockError r b).1 = false) :
    exec (.blockError (r, b) ⟨m, none⟩) s = .next ((s.countBlockError r b).2.discardIn r b m).settle := by
  rw [blockError_eq hx hr, hi]
  rfl

theorem blockError_isolates (s : State) (r b : Nat) (m : List Nat) (hx : blockExists r b = true) (hr : r ≠ 0) (hi : (s.countBlockError r b).1 = true) :
    exec (.blockError (r, b) ⟨m, none⟩) s = .next (((s.countBlockError r b).2.discardIn r b m).isolateBlk r b false).settle := by
  rw [blockError_eq hx hr, hi, if_pos rfl]

theorem countBlockError_isolated (s : State) (r b : Nat) : (s.countBlockError r b).2.isolated r b = s.isolated r b := by
  have h : (s.bump (blkBase r b) Reg.BLK_ERR_ERRORS).rd (blkBase r b) Reg.BLK_STATE_STATE = s.rd (blkBase r b) Reg.BLK_STATE_STATE :=
    State.rd_wr_of_ne _ _ _ _ _ _ fun e => absurd (Nat.add_left_cancel e) (by decide)
  rw [State.isolated, State.isolated, State.blkSt, State.blkSt, State.countBlockError, State.modBlk, State.modFab_rd, h]

theorem firstBlockError (s : State) (r b : Nat) (hx : blockExists r b = true) (hr : r ≠ 0) (he : (s.blk r b).errAt = []) :
    Answers (.blockError (r, b) ⟨[], none⟩) s fun t =>
      t.rd (blkBase r b) Reg.BLK_ERR_ERRORS = min (s.rd (blkBase r b) Reg.BLK_ERR_ERRORS + 1) (2 ^ Reg.BLK_ERR_ERRORS.width - 1) ∧
      t.isolated r b = s.isolated r b ∧ RegsKept [blkBase r b + Reg.BLK_ERR_ERRORS.off] s t := by
  have hi : (s.countBlockError r b).1 = false := by simp [State.countBlockError, he]
  refine ⟨_, blockError_counts s r b [] hx hr hi, ?_⟩
  rw [discardIn_nil]
  refine ⟨?_, ?_, ?_⟩
  · rw [settle_rd_of_reg _ _ _ (blkErr_not_follower b hr)]
    exact s.rd_bump _ _ (by decide)
  · rw [settle_isolated, countBlockError_isolated]
  · exact (((RegsBut.refl _ s).bump (List.mem_singleton_self _)).modFab).settled

/-! A block is isolated (R94, R504). -/

/-- HELD of a core pair stands off BLK.STATE. -/
theorem blkState_apart_held (r b n : Nat) : Apart (blkBase r b) Reg.BLK_STATE_STATE (cpBase n) Reg.CP_STATUS_HELD := .inl fun e => by
  have h1 := (blkBase_page r b (o := Reg.BLK_STATE_STATE.off) (by decide)).2
  have h2 := (blkBase_page 2 (25 + n) (o := Reg.CP_STATUS_HELD.off) (by decide)).2
  have h : cpBase n = blkBase 2 (25 + n) := rfl
  rw [← h, e, h1] at h2
  exact absurd h2 (by decide)

theorem held_not_tripped (n : Nat) : cpBase n + Reg.CP_STATUS_HELD.off ∉ trippedRegs := fun hm => by
  have h : ∀ a ∈ trippedRegs, a % 0x100 ≠ Reg.CP_STATUS_HELD.off := by decide
  exact h _ hm (blkBase_page 2 (25 + n) (by decide)).2

namespace Keeps

variable {l : List (Nat × Field)}

theorem modBlk {f : BlockSt → BlockSt} (h : Keeps l s t) : Keeps l s (t.modBlk r b f) := h.modFab rfl

theorem cellsFault {cause : Bool} {m : List Nat} (h : Keeps l s t) :
    Keeps l s (m.foldl (fun s id => if s.cst id == csFault then s.againFault id cause else s.enterFault id cause) t) :=
  h.foldl fun _ _ h => .ite h.modCell h.enterFault

theorem isolateBlock {cause : Bool} (h : Keeps l s t) (hs : (blkBase r b, Reg.BLK_STATE_STATE) ∈ l) (hl : (blkBase r b, Reg.BLK_STATE_LATCHED) ∈ l) :
    Keeps l s (t.isolateBlock r b cause) :=
  .ite h.modBlk ((((h.wrListed hs (by decide) (blkState_kept r b rfl).2.1).when fun _ h =>
    h.setFlagListed hl (by decide) (blkState_kept r b (f := Reg.BLK_STATE_LATCHED) rfl).2.1).modBlk).cellsFault)

/-- What follows at the terminals of the block's cells. -/
theorem driveBlock (h : Keeps l s t) :
    Keeps l s (if r = 1 ∧ b = 10 then t.drive else (t.cellsIn r b).foldl State.driveCell ((List.range 4).foldl State.driveAx t)) :=
  .ite h.drive ((h.foldl fun _ _ h => h.driveAx).foldl fun _ _ h => h.driveCell)

theorem isolateBlk {cause : Bool} (h : Keeps l s t) (hs : (blkBase r b, Reg.BLK_STATE_STATE) ∈ l) (hl : (blkBase r b, Reg.BLK_STATE_LATCHED) ∈ l)
    (hh : 26 ≤ b → (cpBase (b - 25), Reg.CP_STATUS_HELD) ∈ l) : Keeps l s (t.isolateBlk r b cause) := by
  have hp : Keeps l s ((t.isolateBlock r b cause).when (r = 2 ∧ 26 ≤ b) fun s => s.setFlag (cpBase (b - 25)) Reg.CP_STATUS_HELD true) := by
    by_cases hb : r = 2 ∧ 26 ≤ b
    · rw [decide_eq_true hb, State.when_true]
      exact (h.isolateBlock hs hl).setFlagListed (hh hb.2) (by decide) (held_not_tripped _)
    · rw [decide_eq_false hb, State.when_false]
      exact h.isolateBlock hs hl
  exact .ite h hp.driveBlock

end Keeps

theorem isolateBlock_isolates (s : State) (r b : Nat) (cause : Bool) : (s.isolateBlock r b cause).isolated r b = true := by
  unfold State.isolateBlock
  split
  · assumption
  · have hk : ∀ c f m, Keeps [(blkBase r b, Reg.BLK_STATE_LATCHED)] (s.wr (blkBase r b) Reg.BLK_STATE_STATE bkIsolated)
        (List.foldl (fun s id => if s.cst id == csFault then s.againFault id cause else s.enterFault id cause)
          (((s.wr (blkBase r b) Reg.BLK_STATE_STATE bkIsolated).when c fun s => s.setFlag (blkBase r b) Reg.BLK_STATE_LATCHED true).modBlk r b f) m) :=
      fun c f m => (((Keeps.refl _ _).when fun _ h =>
        h.setFlagListed (List.mem_singleton_self _) (by decide) (blkState_kept r b (f := Reg.BLK_STATE_LATCHED) rfl).2.1).modBlk).cellsFault
    have ha : ∀ x ∈ [(blkBase r b, Reg.BLK_STATE_LATCHED)], Apart (blkBase r b) Reg.BLK_STATE_STATE x.1 x.2 := by
      rw [List.forall_mem_singleton]
      exact .inr (.inl (show Reg.BLK_STATE_STATE.lo + Reg.BLK_STATE_STATE.width ≤ Reg.BLK_STATE_LATCHED.lo by decide))
    rw [State.isolated, State.blkSt, (hk _ _ _).rd _ _ (blkState_kept r b rfl) ha, State.rd_wr_same _ _ _ _ (by decide)]
    rfl

theorem isolateBlk_isolates (s : State) (cause : Bool) (h : ¬ (r = 2 ∧ b = 25)) : (s.isolateBlk r b cause).isolated r b = true := by
  have hk : Keeps [(cpBase (b - 25), Reg.CP_STATUS_HELD)] (s.isolateBlock r b cause) (s.isolateBlk r b cause) := by
    unfold State.isolateBlk
    rw [if_neg h]
    exact ((Keeps.refl _ _).when fun _ h => h.setFlagListed (List.mem_singleton_self _) (by decide) (held_not_tripped _)).driveBlock
  have ha : ∀ x ∈ [(cpBase (b - 25), Reg.CP_STATUS_HELD)], Apart (blkBase r b) Reg.BLK_STATE_STATE x.1 x.2 := by
    simp only [List.forall_mem_singleton]
    exact blkState_apart_held r b _
  have hb : (s.isolateBlk r b cause).blkSt r b = (s.isolateBlock r b cause).blkSt r b := hk.rd _ _ (blkState_kept r b rfl) ha
  rw [State.isolated, hb, ← State.isolated, isolateBlock_isolates]

theorem fourthBlockError (s : State) (b : Nat) (hb : b < 8)
    (hn : 3 < (s.fab.boundaries :: ((s.blk 2 b).errAt.filter fun t => s.fab.boundaries < t + 64)).length) :
    Answers (.blockError (2, b) ⟨[], none⟩) s fun t => t.isolated 2 b = true := by
  have hx : blockExists 2 b = true := decide_eq_true (by omega)
  have hi : (s.countBlockError 2 b).1 = true := decide_eq_true hn
  refine ⟨_, blockError_isolates s 2 b [] hx (by decide) hi, ?_⟩
  beta_reduce
  rw [settle_isolated, isolateBlk_isolates _ _ (by omega)]

/-! The fault of a region (R94, R97). -/

/-- What the isolation of blocks writes beside what every operation may. -/
def isolationFields : List (Nat × Field) :=
  (List.range 4).map (fun n => (cpBase n, Reg.CP_STATUS_HELD)) ++ (List.range 5).flatMap fun r => (List.range 29).flatMap fun b =>
    [(blkBase r b, Reg.BLK_STATE_STATE), (blkBase r b, Reg.BLK_STATE_LATCHED)]

theorem held_mem_isolationFields {n : Nat} (h : n < 4) : (cpBase n, Reg.CP_STATUS_HELD) ∈ isolationFields :=
  List.mem_append_left _ (List.mem_map.mpr ⟨n, List.mem_range.mpr h, rfl⟩)

theorem blkState_mem_isolationFields {f : Field} (hr : r < 5) (hb : b < 29) (hf : f ∈ [Reg.BLK_STATE_STATE, Reg.BLK_STATE_LATCHED]) :
    (blkBase r b, f) ∈ isolationFields := by
  refine List.mem_append_right _ (List.mem_flatMap.mpr ⟨r, List.mem_range.mpr hr, List.mem_flatMap.mpr ⟨b, List.mem_range.mpr hb, ?_⟩⟩)
  simp only [List.mem_cons, List.not_mem_nil, or_false] at hf
  rcases hf with rfl | rfl <;> simp

/-- The region shows its fault, which counts. -/
def Machine.State.showRegionFault (s : State) (r : Nat) : State := (s.setFlag modBase (regFltField r) true).bump modBase Reg.MOD_HEALTH_REGFAULTS

theorem regionFault_keeps (h : s.flag modBase (regFltField r) = false) (hr : r < 5) : Keeps isolationFields (s.showRegionFault r) (s.regionFault r) := by
  have hh : Keeps isolationFields (s.showRegionFault r) ((s.showRegionFault r).when (r = 2) fun s => s.setFlag (cpBase 0) Reg.CP_STATUS_HELD true) :=
    (Keeps.refl _ _).when fun _ h => h.setFlagListed (held_mem_isolationFields (by decide)) (by decide) (held_not_tripped 0)
  unfold State.regionFault
  rw [h, if_neg Bool.false_ne_true]
  refine hh.foldlMem fun _ b hb h => ?_
  have hb' : b < 29 := List.mem_range.mp (List.mem_filter.mp hb).1
  exact h.isolateBlk (blkState_mem_isolationFields hr hb' (by simp)) (blkState_mem_isolationFields hr hb' (by simp))
    fun _ => held_mem_isolationFields (by omega)

/-- The isolation of blocks writes at two offsets of a block's page. -/
theorem apart_isolationFields {c : Nat} {g : Field} (h : (c + g.off) % 0x100 ∉ [0, Reg.CP_STATUS_HELD.off]) :
    ∀ x ∈ isolationFields, Apart c g x.1 x.2 := fun x hx => .inl fun e => by
  rw [← e, List.mem_cons, List.mem_singleton, not_or] at h
  obtain ⟨h0, hh⟩ := h
  rcases List.mem_append.mp hx with hx | hx
  · obtain ⟨n, -, rfl⟩ := List.mem_map.mp hx
    exact hh (blkBase_page 2 (25 + n) (o := Reg.CP_STATUS_HELD.off) (by decide)).2
  · obtain ⟨r, -, hx⟩ := List.mem_flatMap.mp hx
    obtain ⟨b, -, hx⟩ := List.mem_flatMap.mp hx
    simp only [List.mem_cons, List.not_mem_nil, or_false] at hx
    rcases hx with rfl | rfl <;> exact h0 (blkBase_page r b (o := 0) (by decide)).2

/-- The fields of a region's fault in MOD.HEALTH are written by it alone. -/
theorem regFlt_stands : ∀ k < 5, (modBase + (regFltField k).off) % 0x100 ∉ [0, Reg.CP_STATUS_HELD.off] ∧ NoFollower modBase (regFltField k) ∧
    Apart modBase (regFltField k) modBase Reg.MOD_HEALTH_REGFAULTS ∧
    (regFltField k).lo + (regFltField k).width ≤ 32 := by decide

theorem regionFault_shows (s : State) (k : Fin 5) (h : s.flag modBase (regFltField k.val) = false) :
    Answers (.regionFault k) s fun t =>
      t.flag modBase (regFltField k.val) = true ∧
      t.rd modBase Reg.MOD_HEALTH_REGFAULTS = min (s.rd modBase Reg.MOD_HEALTH_REGFAULTS + 1) (2 ^ Reg.MOD_HEALTH_REGFAULTS.width - 1) := by
  have hk := regionFault_keeps h k.isLt
  obtain ⟨hoff, hnf, hcnt, hfit⟩ := regFlt_stands k k.isLt
  refine ⟨_, rfl, ?_, ?_⟩
  · rw [State.settle_flag _ _ _ hnf, hk.flag _ _ (kept_regFlt k k.isLt).1 (apart_isolationFields hoff)]
    exact (flag_wr_apart _ _ _ _ _ _ (by decide) hcnt).trans (State.flag_setFlag_same _ _ _ _ hfit rfl)
  · rw [State.settle_rd _ _ _ (by decide), hk.rd _ _ (by decide) (apart_isolationFields (by decide)), State.showRegionFault, State.rd_bump _ _ _ (by decide),
      State.rd_setFlag_apart _ _ _ _ _ _ hfit (hcnt.imp Ne.symm Or.symm)]

theorem regionFault_clears (s : State) (k : Fin 5) (h : s.flag modBase (regFltField k.val) = true) :
    Answers (.regionFaultClear k) s fun t => t.flag modBase (regFltField k.val) = false ∧ t.mst = s.mst ∧ RegsKept [] s t := by
  obtain ⟨-, hnf, -, hfit⟩ := regFlt_stands k k.isLt
  obtain ⟨u, hu, he⟩ : ∃ u, RegsBut [] (s.setFlag modBase (regFltField k.val) false) u ∧ exec (.regionFaultClear k) s = .next u.settle :=
    ⟨_, (RegsBut.refl _ _).foldl fun _ _ _ h => h.modFab.foldl fun _ _ _ h => h.modFab, congrArg done (if_pos h)⟩
  have hs : RegsBut [modBase + Reg.MOD_HEALTH_REGFLT.off] s (s.setFlag modBase (regFltField k.val) false) :=
    (RegsBut.refl _ s).setFlag (List.mem_singleton_self _)
  refine ⟨_, he, ?_, ?_, fun a _ ha => ?_⟩
  · rw [State.settle_flag _ _ _ hnf, hu.flag _ _ (List.not_mem_nil), State.flag_setFlag_same _ _ _ _ hfit rfl]
  · rw [State.settle_mst]
    exact (hu.rd _ _ (List.not_mem_nil)).trans (hs.rd _ _ (by decide))
  · have hf : modBase + Reg.MOD_HEALTH_REGFLT.off ∈ followers := by decide
    rw [State.settle_reg _ a ha, hu a List.not_mem_nil, hs a fun hm => ha (List.mem_singleton.mp hm ▸ hf)]

/-! The return of a block (R94, R105). -/

/-- The fields of BLK.STATE share one register. -/
theorem blkState_mem (r b : Nat) {f : Field} (h : f.off = 0) : blkBase r b + f.off ∈ [blkBase r b + Reg.BLK_STATE_STATE.off] := by
  rw [h]
  exact List.mem_singleton_self _

theorem RegsBut.recoverBlk {l : List Nat} (h : RegsBut l s t) (hl : blkBase r b + Reg.BLK_STATE_STATE.off ∈ l) : RegsBut l s (t.recoverBlk r b) := (h.wr hl).modFab

theorem recoverBlk_blkSt (s : State) (r b : Nat) : (s.recoverBlk r b).blkSt r b = bkRecover := by
  rw [State.blkSt, State.recoverBlk, State.modBlk, State.modFab_rd, State.rd_wr_same _ _ _ _ (by decide)]
  rfl

/-- The other fields of BLK.STATE stay. -/
theorem recoverBlk_rd (s : State) (r b : Nat) {g : Field} (h : Reg.BLK_STATE_STATE.lo + Reg.BLK_STATE_STATE.width ≤ g.lo) :
    (s.recoverBlk r b).rd (blkBase r b) g = s.rd (blkBase r b) g := by
  rw [State.recoverBlk, State.modBlk, State.modFab_rd, State.rd_wr_other _ _ _ _ _ (by decide) (.inr h)]

theorem blockRecover_returns (s : State) (r b : Nat) (hi : s.isolated r b = true) (hl : s.flag (blkBase r b) Reg.BLK_STATE_LATCHED = false)
    (hc : (s.blk r b).cause = false) (ha : 256 ≤ (s.blk r b).absent) :
    Answers (.blockRecover r b) s fun t =>
      t.blkSt r b = bkRecover ∧ t.outbox = s.outbox ∧
      t.rd (blkBase r b) Reg.BLK_STATE_RETRIES = min (s.rd (blkBase r b) Reg.BLK_STATE_RETRIES + 1) (2 ^ Reg.BLK_STATE_RETRIES.width - 1) ∧
      RegsKept [blkBase r b + Reg.BLK_STATE_STATE.off] s t := by
  have he : exec (.blockRecover r b) s = .next ((s.bump (blkBase r b) Reg.BLK_STATE_RETRIES).recoverBlk r b).settle :=
    congrArg done (if_pos (by rw [hi, hl, hc, decide_eq_true ha]; rfl))
  refine ⟨_, he, ?_, ?_, ?_, ?_⟩
  · rw [settle_blkSt, recoverBlk_blkSt]
  · rw [State.settle_outbox]; rfl
  · rw [settle_rd_of_reg _ _ _ (blkState_not_follower r b rfl), recoverBlk_rd _ _ _ (by decide), State.rd_bump _ _ _ (by decide)]
  · exact (((RegsBut.refl _ s).bump (blkState_mem r b rfl)).recoverBlk (blkState_mem r b rfl)).settled

theorem blockReintegrate_served {p : Port} (hs : Served s p) (r b : Nat) :
    exec (.blockReintegrate p r b) s = .next ((decideReint r b s).2.answer p (decideReint r b s).1).settle := by
  have hg : ¬ (s.gate p = .pwrOnly ∧ s.isolated 2 26 = true ∧ r = 2 ∧ b = 26) := fun h => by
    rw [gate_served s p hs] at h
    exact absurd h.1 (by decide)
  exact (if_neg hg).trans (command_served p _ s hs)

/-- The latched isolation is lifted and its history forgotten. -/
def Machine.State.unlatchBlk (s : State) (r b : Nat) : State :=
  ((s.setFlag (blkBase r b) Reg.BLK_STATE_LATCHED false).wr (blkBase r b) Reg.BLK_STATE_RETRIES 0).modBlk r b fun x => { x with isoAt := [] }

theorem RegsBut.unlatchBlk (h : RegsBut [blkBase r b + Reg.BLK_STATE_STATE.off] s t) :
    RegsBut [blkBase r b + Reg.BLK_STATE_STATE.off] s (t.unlatchBlk r b) :=
  ((h.setFlag (blkState_mem r b rfl)).wr (blkState_mem r b rfl)).modFab

theorem unlatchBlk_cause (s : State) (r b : Nat) : ((s.unlatchBlk r b).blk r b).cause = (s.blk r b).cause := by
  simp [State.unlatchBlk, State.blk, State.modBlk, State.modFab]

theorem unlatchBlk_latched (s : State) (r b : Nat) : (s.unlatchBlk r b).flag (blkBase r b) Reg.BLK_STATE_LATCHED = false := by
  rw [State.unlatchBlk, State.modBlk, State.modFab_flag, flag_wr_apart _ _ _ _ _ _ (by decide) (.inr (.inl (by decide))),
    State.flag_setFlag_same _ _ _ _ (by decide) rfl]

theorem unlatchBlk_retries (s : State) (r b : Nat) : (s.unlatchBlk r b).rd (blkBase r b) Reg.BLK_STATE_RETRIES = 0 := by
  rw [State.unlatchBlk, State.modBlk, State.modFab_rd, State.rd_wr_same _ _ _ _ (by decide)]
  rfl

theorem decideReint_latched (hx : blockExists r b = true) (hr : r ≠ 0) (hi : s.isolated r b = true)
    (hl : s.flag (blkBase r b) Reg.BLK_STATE_LATCHED = true) (hc : (s.blk r b).cause = false) :
    decideReint r b s = (E_OK, (s.unlatchBlk r b).recoverBlk r b) := by
  have h : (blockExists r b && r != 0 && s.isolated r b && s.flag (blkBase r b) Reg.BLK_STATE_LATCHED) = true := by
    rw [hx, bne_iff_ne.mpr hr, hi, hl]; rfl
  have hn : ¬ ((s.unlatchBlk r b).blk r b).cause = true := by rw [unlatchBlk_cause, hc]; exact Bool.false_ne_true
  exact (if_pos h).trans (congrArg (Prod.mk E_OK) (if_neg hn))

theorem blockReintegrate_returns (s : State) (p : Port) (r b : Nat) (hs : Served s p) (hx : blockExists r b = true) (hr : r ≠ 0) (hi : s.isolated r b = true)
    (hl : s.flag (blkBase r b) Reg.BLK_STATE_LATCHED = true) (hc : (s.blk r b).cause = false) :
    Answers (.blockReintegrate p r b) s fun t =>
      t.blkSt r b = bkRecover ∧ t.flag (blkBase r b) Reg.BLK_STATE_LATCHED = false ∧ t.rd (blkBase r b) Reg.BLK_STATE_RETRIES = 0 ∧
      t.outbox = s.outbox ++ [.result p E_OK] ∧ RegsKept [blkBase r b + Reg.BLK_STATE_STATE.off] s t := by
  have he := blockReintegrate_served hs r b
  rw [decideReint_latched hx hr hi hl hc] at he
  have hrd : ∀ g : Field, g.off = 0 → Reg.BLK_STATE_STATE.lo + Reg.BLK_STATE_STATE.width ≤ g.lo →
      (((s.unlatchBlk r b).recoverBlk r b).answer p E_OK).settle.rd (blkBase r b) g = (s.unlatchBlk r b).rd (blkBase r b) g := fun g ho hg =>
    (settle_rd_of_reg _ _ _ (blkState_not_follower r b ho)).trans (recoverBlk_rd _ r b hg)
  refine ⟨_, he, ?_, ?_, ?_, ?_, ?_⟩
  · rw [settle_blkSt]
    exact recoverBlk_blkSt _ r b
  · rw [State.flag, hrd _ rfl (by decide), ← State.flag, unlatchBlk_latched]
  · rw [hrd _ rfl (by decide), unlatchBlk_retries]
  · rw [State.settle_outbox]; rfl
  · exact ((RegsBut.refl _ s).unlatchBlk.recoverBlk (blkState_mem r b rfl)).answered

theorem blockReintegrate_refused (s : State) (p : Port) (r b : Nat) (hs : Served s p) (hi : s.isolated r b = false) :
    exec (.blockReintegrate p r b) s = .next (s.answer p E_STATE).settle := by
  have hd : decideReint r b s = (E_STATE, s) := if_neg (by rw [hi, Bool.and_false, Bool.false_and]; exact Bool.false_ne_true)
  rw [blockReintegrate_served hs, hd]

/-- Settles O9: the boundary, the evaluation window, and the isolation and the return of blocks. -/
theorem boundariesAndBlockIsolation : Obligations.BoundariesAndBlockIsolation := by
  unfold Obligations.BoundariesAndBlockIsolation
  exact ⟨fun s hm ha _ hp hs hf => boundary_counts s hm ha hp hs hf, fun _ h => boundary_none h false, boundary_order, window_bare, window_evaluates,
    windowClose_finished, windowClose_late, blockError_counts, blockError_isolates, firstBlockError, fun s b hb hn _ _ => fourthBlockError s b hb hn,
    regionFault_shows, regionFault_clears, fun s r b hi hl hc ha _ _ => blockRecover_returns s r b hi hl hc ha, blockReintegrate_returns,
    blockReintegrate_refused⟩

end Sys2Proof
end

