-- ==== Sys2Proof/Proofs/LoopCommands.lean ====
section
/-! The commands of a loop slot (R133, R141, R142) and its detuning (R139). -/

namespace Sys2Proof

open Sys2Proof.Machine

variable {s : State} {n req : Nat} {lp : Fin 512}

/-! The registers of a cell after the end of a command. -/

/-- A register of a block page is none of a cell's. -/
theorem cell_ne {id o a : Nat} (h : o < 0x100) (ha : 0x100 ≤ pageOf a) : cellBase id + o ≠ a := fun e =>
  absurd ha (Nat.not_le.mpr (e ▸ pageOf_cellBase id h))

/-- The followers stand on block pages. -/
theorem cell_not_follower (id : Nat) {o : Nat} (h : o < 0x100) : cellBase id + o ∉ followers := fun hm =>
  have hp : ∀ a ∈ followers, 0x100 ≤ pageOf a := by decide
  cell_ne h (hp _ hm) rfl

theorem settle_cellRd (s : State) (id : Nat) (g : Field) (h : g.off < 0x100) : s.settle.rd (cellBase id) g = s.rd (cellBase id) g :=
  settle_rd_of_reg s _ g (cell_not_follower id h)

theorem settle_cellFlag (s : State) (id : Nat) (g : Field) (h : g.off < 0x100) : s.settle.flag (cellBase id) g = s.flag (cellBase id) g := by
  rw [State.flag, settle_cellRd s id g h, State.flag]

theorem settle_lp (s : State) (n : Nat) : s.settle.lp n = s.lp n := by rw [State.lp, State.settle_fab, State.lp]

/-- Registers of one page at different offsets are different registers. -/
theorem offset_not_mem {b o o' : Nat} (h : o ≠ o') : b + o ∉ [b + o'] := fun hm => h (Nat.add_left_cancel (List.mem_singleton.mp hm))

/-! The mode request (R133). -/

theorem decideLoopMode_staged (hx : s.exists_ (lpId n) = true) (h3 : req ≠ 3)
    (h2 : req = 2 → (s.bind (lpId n) 1).isSome = true ∧ ∃ i, s.lpInput (lpId n) 1 = some i ∧ i.live = true)
    (h0 : req = 0 → lpKind (s.cfg (lpId n) 0) ≠ 2) :
    decideLoopMode n req s = (E_OK, s.stage (cellBase (lpId n) + Reg.LP_MODE_REQ.off) (BitVec.ofNat 32 req)) := by
  have hb : ¬ (req = 2 ∧ (s.bind (lpId n) 1).isNone = true) := fun ⟨e, hn⟩ => by
    rw [Option.isNone_iff_eq_none.mp hn] at h2
    exact Bool.false_ne_true (h2 e).1
  have hl : ¬ (req = 2 ∧ (!((s.lpInput (lpId n) 1).elim false Input.live)) = true) := fun ⟨e, hn⟩ => by
    obtain ⟨-, i, hi, hlive⟩ := h2 e
    rw [hi, Option.elim_some, hlive] at hn
    exact Bool.false_ne_true hn
  rw [decideLoopMode, if_neg (by rw [hx]; decide), if_neg h3, if_neg hb, if_neg hl, if_neg fun ⟨e, hk⟩ => h0 e hk]

theorem loopModeRequest_staged (s : State) (p : Port) (lp : Fin 512) (req : BitVec 2) (hs : Served s p) (hx : s.exists_ (lpId lp.val) = true)
    (h3 : req.toNat ≠ 3) (h2 : req.toNat = 2 → (s.bind (lpId lp.val) 1).isSome = true ∧ ∃ i, s.lpInput (lpId lp.val) 1 = some i ∧ i.live = true)
    (h0 : req.toNat = 0 → lpKind (s.cfg (lpId lp.val) 0) ≠ 2) :
    exec (.loopModeRequest p lp req) s =
      .next ((s.stage (cellBase (lpId lp.val) + 0x20) (BitVec.ofNat 32 req.toNat)).answer p E_OK).settle :=
  command_decides hs (decideLoopMode_staged hx h3 h2 h0)

/-- MAN is taken whatever the loop's kind and its remote set-point are. -/
theorem loopModeRequest_man (s : State) (p : Port) (lp : Fin 512) (req : BitVec 2) (hs : Served s p) (hx : s.exists_ (lpId lp.val) = true)
    (h1 : req.toNat = 1) : exec (.loopModeRequest p lp req) s = .next ((s.stage (cellBase (lpId lp.val) + 0x20) 1).answer p E_OK).settle := by
  rw [loopModeRequest_staged s p lp req hs hx (by omega) (fun e => by omega) (fun e => by omega), h1]
  rfl

theorem loopModeRequest_reserved (s : State) (p : Port) (lp : Fin 512) (req : BitVec 2) (hs : Served s p) (hx : s.exists_ (lpId lp.val) = true)
    (h3 : req.toNat = 3) : exec (.loopModeRequest p lp req) s = .next (s.answer p E_RANGE).settle :=
  command_decides hs (by rw [decideLoopMode, if_neg (by rw [hx]; decide), if_pos h3])

/-! Staged registers (R141, R142). -/

/-- The entry of a loop register in the list of staged writes: a gain carries the set that GSEL names. -/
def Machine.State.loopEntry (s : State) (n : Nat) (x : Nat × Word) : Nat × Word :=
  ((if 0x44 ≤ x.1 ∧ x.1 ≤ 0x58 then s.rd (cellBase (lpId n)) Reg.LP_GAIN_GSEL + 1 else 0) * 2 ^ 32 + cellBase (lpId n) + x.1, x.2)

/-- Only gains carry a set. -/
theorem loopEntry_of_not_gain (s : State) (n : Nat) {o : Nat} (w : Word) (h : ¬ (0x44 ≤ o ∧ o ≤ 0x58)) :
    s.loopEntry n (o, w) = (cellBase (lpId n) + o, w) := by
  rw [State.loopEntry, if_neg h, Nat.zero_mul, Nat.zero_add]

theorem foldl_stageLoop (ws : List (Nat × Word)) (s : State) :
    ws.foldl (fun s x => s.stageLoop n x.1 x.2) s = s.modFab fun f => { f with staged := f.staged ++ ws.map (s.loopEntry n) } := by
  induction ws generalizing s with
  | nil =>
    rw [List.foldl_nil, List.map_nil]
    simp only [List.append_nil]
    rfl
  | cons x ws ih =>
    have he : (s.stageLoop n x.1 x.2).loopEntry n = s.loopEntry n := rfl
    rw [List.foldl_cons, ih, he, List.map_cons]
    simp only [State.stageLoop, State.stage, State.modFab, List.append_assoc, List.singleton_append]
    rfl

theorem decideLoopStaged_legal {ws : List (Nat × Word)} (h : ∀ x ∈ ws, loopRegCheck n x.1 x.2 s = E_OK) :
    decideLoopStaged n ws s = (E_OK, s.modFab fun f => { f with staged := f.staged ++ ws.map (s.loopEntry n) }) := by
  have hf : (ws.find? fun x => loopRegCheck n x.1 x.2 s != E_OK) = none := List.find?_eq_none.mpr fun x hx => by rw [h x hx]; decide
  rw [decideLoopStaged, hf, foldl_stageLoop]

/-- The first failure decides, and nothing is staged. -/
theorem decideLoopStaged_refused (o : Nat) (w : Word) (h : loopRegCheck n o w s ≠ E_OK) : decideLoopStaged n [(o, w)] s = (loopRegCheck n o w s, s) := by
  have hf : ([(o, w)].find? fun x => loopRegCheck n x.1 x.2 s != E_OK) = some (o, w) := List.find?_cons_of_pos (bne_iff_ne.mpr h)
  rw [decideLoopStaged, hf]

theorem loopStagedWrite_staged (s : State) (p : Port) (lp : Fin 512) (ws : List (Nat × Word)) (hs : Served s p)
    (h : ∀ x ∈ ws, loopRegCheck lp.val x.1 x.2 s = E_OK) :
    exec (.loopStagedWrite p lp ws) s = .next ((s.modFab fun f => { f with staged := f.staged ++ ws.map (s.loopEntry lp.val) }).answer p E_OK).settle :=
  command_decides hs (decideLoopStaged_legal h)

theorem loopRegCheck_setPoint (hx : s.exists_ (lpId n) = true) (w : Word) : loopRegCheck n 0x24 w s =
    if f32Finite w && decide (lpSpLo (s.cfg (lpId n) 1) ≤ f32 w ∧ f32 w ≤ lpSpHi (s.cfg (lpId n) 1)) then E_OK else E_RANGE := by
  rw [loopRegCheck, if_neg (by rw [hx]; decide), if_pos rfl]

theorem setPoint_staged (s : State) (p : Port) (lp : Fin 512) (w : Word) (hs : Served s p) (hx : s.exists_ (lpId lp.val) = true)
    (hf : f32Finite w = true) (hlo : lpSpLo (s.cfg (lpId lp.val) 1) ≤ f32 w) (hhi : f32 w ≤ lpSpHi (s.cfg (lpId lp.val) 1)) :
    exec (.loopStagedWrite p lp [(0x24, w)]) s =
      .next ((s.modFab fun f => { f with staged := f.staged ++ [(cellBase (lpId lp.val) + 0x24, w)] }).answer p E_OK).settle := by
  have hc : loopRegCheck lp.val 0x24 w s = E_OK := by rw [loopRegCheck_setPoint hx, hf, decide_eq_true ⟨hlo, hhi⟩]; rfl
  rw [loopStagedWrite_staged s p lp _ hs (List.forall_mem_singleton.mpr hc), List.map_singleton, loopEntry_of_not_gain s _ w (by decide)]

theorem setPoint_below (s : State) (p : Port) (lp : Fin 512) (w : Word) (hs : Served s p) (hx : s.exists_ (lpId lp.val) = true)
    (h : f32 w < lpSpLo (s.cfg (lpId lp.val) 1)) : exec (.loopStagedWrite p lp [(0x24, w)]) s = .next (s.answer p E_RANGE).settle := by
  have hc : loopRegCheck lp.val 0x24 w s = E_RANGE := by
    rw [loopRegCheck_setPoint hx, decide_eq_false fun ⟨hlo, _⟩ => absurd h (not_lt.mpr hlo), Bool.and_false]
    rfl
  refine command_decides hs ?_
  rw [decideLoopStaged_refused _ _ (by rw [hc]; decide), hc]

/-! GSEL and DRESET (R139, R141). -/

theorem gainSelect_atOnce (s : State) (p : Port) (lp : Fin 512) (sel : BitVec 3) (hs : Served s p) (hx : s.exists_ (lpId lp.val) = true)
    (h : sel.toNat < s.lpNsets (lpId lp.val)) :
    exec (.gainSelect p lp sel) s = .next ((s.wr (cellBase (lpId lp.val)) Reg.LP_GAIN_GSEL sel.toNat).answer p E_OK).settle :=
  command_decides hs (by rw [decideGainSelect, if_neg (by rw [hx]; decide), if_neg (Nat.not_le.mpr h)])

theorem detuneReset_staged (s : State) (p : Port) (lp : Fin 512) (hs : Served s p) (hx : s.exists_ (lpId lp.val) = true) :
    exec (.detuneReset p lp) s =
      .next ((s.stage (cellBase (lpId lp.val) + Reg.LP_GAIN_DRESET.off) (BitVec.ofNat 32 (2 ^ Reg.LP_GAIN_DRESET.lo))).answer p E_OK).settle :=
  command_decides hs (by rw [decideDetuneReset, if_neg (by rw [hx]; decide)])

theorem detuneReset_absent (s : State) (p : Port) (lp : Fin 512) (hs : Served s p) (hx : s.exists_ (lpId lp.val) = false) :
    exec (.detuneReset p lp) s = .next (s.answer p E_STATE).settle :=
  command_decides hs (by rw [decideDetuneReset, hx]; rfl)

/-! An oscillation is detected (R139). -/

/-- The detection is counted, and the count of short half-cycles starts anew. -/
def Machine.State.oscCounted (s : State) (n : Nat) : State :=
  (s.modLp n fun st => { st with oscCount := 0 }).bump (cellBase (lpId n)) Reg.LP_OSC_DETECTS

/-- The level rises by one below `dmax`; at `dmax` OSCLIM is set. -/
def Machine.State.detune (s : State) (n dmax : Nat) : State :=
  if s.rd (cellBase (lpId n)) Reg.LP_GAIN_DLEVEL < dmax then
    s.wr (cellBase (lpId n)) Reg.LP_GAIN_DLEVEL (s.rd (cellBase (lpId n)) Reg.LP_GAIN_DLEVEL + 1)
  else s.setFlag (cellBase (lpId n)) Reg.LP_GAIN_OSCLIM true

theorem oscillationDetect_detected (he : recByte (s.cfg (lpId lp.val) 12) 0 = 1)
    (hc : 2 * recByte (s.cfg (lpId lp.val) 12) 1 ≤ (s.lp lp.val).oscCount) :
    exec (.oscillationDetect lp) s = .next ((s.oscCounted lp.val).detune lp.val (recByte (s.cfg (lpId lp.val) 12) 2)).settle := by
  have hd : exec (.oscillationDetect lp) s = execOscillationDetect lp s := rfl
  rw [hd, execOscillationDetect]
  dsimp only
  rw [if_pos ⟨he, hc⟩]
  rfl

theorem oscCounted_detects (s : State) (n : Nat) : (s.oscCounted n).rd (cellBase (lpId n)) Reg.LP_OSC_DETECTS =
    min (s.rd (cellBase (lpId n)) Reg.LP_OSC_DETECTS + 1) 65535 := State.rd_bump _ _ _ (by decide)

theorem regsBut_oscCounted (s : State) (n : Nat) : RegsBut [cellBase (lpId n) + Reg.LP_OSC_DETECTS.off] s (s.oscCounted n) :=
  ((RegsBut.refl _ s).same (u := s.modLp n _)).bump (List.mem_singleton_self _)

theorem oscCounted_level (s : State) (n : Nat) :
    (s.oscCounted n).rd (cellBase (lpId n)) Reg.LP_GAIN_DLEVEL = s.rd (cellBase (lpId n)) Reg.LP_GAIN_DLEVEL :=
  (regsBut_oscCounted s n).rd _ _ (offset_not_mem (by decide))

theorem oscCounted_oscCount (s : State) (n : Nat) : ((s.oscCounted n).lp n).oscCount = 0 := by
  have h : (s.oscCounted n).lp n = (s.modLp n fun st => { st with oscCount := 0 }).lp n := rfl
  rw [h, State.modLp_lp, if_pos rfl]

theorem regsBut_detune (s : State) (n dmax : Nat) : RegsBut [cellBase (lpId n) + Reg.LP_GAIN_DLEVEL.off] s (s.detune n dmax) :=
  .ite ((RegsBut.refl _ s).wr (List.mem_singleton_self _)) ((RegsBut.refl _ s).setFlag (List.mem_singleton_self _))

theorem detune_fab (s : State) (n dmax : Nat) : (s.detune n dmax).fab = s.fab := by
  unfold State.detune
  split
  · exact State.wr_fab _ _ _ _
  · exact State.setFlag_fab _ _ _ _

theorem detune_rises {dmax : Nat} (h7 : s.rd (cellBase (lpId n)) Reg.LP_GAIN_DLEVEL < 7) (h : s.rd (cellBase (lpId n)) Reg.LP_GAIN_DLEVEL < dmax) :
    (s.detune n dmax).rd (cellBase (lpId n)) Reg.LP_GAIN_DLEVEL = s.rd (cellBase (lpId n)) Reg.LP_GAIN_DLEVEL + 1 := by
  rw [State.detune, if_pos h, State.rd_wr_same _ _ _ _ (by decide)]
  exact Nat.mod_eq_of_lt (Nat.succ_lt_succ h7)

theorem detune_limits {dmax : Nat} (h : dmax ≤ s.rd (cellBase (lpId n)) Reg.LP_GAIN_DLEVEL) :
    (s.detune n dmax).flag (cellBase (lpId n)) Reg.LP_GAIN_OSCLIM = true ∧
      (s.detune n dmax).rd (cellBase (lpId n)) Reg.LP_GAIN_DLEVEL = s.rd (cellBase (lpId n)) Reg.LP_GAIN_DLEVEL := by
  rw [State.detune, if_neg (Nat.not_lt.mpr h)]
  exact ⟨State.flag_setFlag_same _ _ _ _ (by decide) rfl, State.rd_setFlag_apart _ _ _ _ _ _ (by decide) (.inr (.inl (by decide)))⟩

theorem oscillationDetect_detunes (s : State) (lp : Fin 512) (he : recByte (s.cfg (lpId lp.val) 12) 0 = 1)
    (hc : 2 * recByte (s.cfg (lpId lp.val) 12) 1 ≤ (s.lp lp.val).oscCount) (h7 : s.rd (cellBase (lpId lp.val)) Reg.LP_GAIN_DLEVEL < 7) :
    Answers (.oscillationDetect lp) s fun t =>
      t.rd (cellBase (lpId lp.val)) Reg.LP_OSC_DETECTS = min (s.rd (cellBase (lpId lp.val)) Reg.LP_OSC_DETECTS + 1) 65535 ∧
      (s.rd (cellBase (lpId lp.val)) Reg.LP_GAIN_DLEVEL < recByte (s.cfg (lpId lp.val) 12) 2 →
        t.rd (cellBase (lpId lp.val)) Reg.LP_GAIN_DLEVEL = s.rd (cellBase (lpId lp.val)) Reg.LP_GAIN_DLEVEL + 1) ∧
      (recByte (s.cfg (lpId lp.val) 12) 2 ≤ s.rd (cellBase (lpId lp.val)) Reg.LP_GAIN_DLEVEL →
        t.flag (cellBase (lpId lp.val)) Reg.LP_GAIN_OSCLIM = true ∧
        t.rd (cellBase (lpId lp.val)) Reg.LP_GAIN_DLEVEL = s.rd (cellBase (lpId lp.val)) Reg.LP_GAIN_DLEVEL) ∧
      (t.lp lp.val).oscCount = 0 ∧
      RegsKept [cellBase (lpId lp.val) + Reg.LP_GAIN_DLEVEL.off, cellBase (lpId lp.val) + Reg.LP_OSC_DETECTS.off] s t := by
  have hk := regsBut_detune (s.oscCounted lp.val) lp.val (recByte (s.cfg (lpId lp.val) 12) 2)
  have hl := oscCounted_level s lp.val
  refine ⟨_, oscillationDetect_detected he hc, ?_, fun h => ?_, fun h => ?_, ?_, ?_⟩
  · rw [settle_cellRd _ _ _ (by decide), hk.rd _ _ (offset_not_mem (by decide)), oscCounted_detects]
  · rw [← hl] at h h7
    rw [settle_cellRd _ _ _ (by decide), detune_rises h7 h, hl]
  · rw [← hl] at h ⊢
    rw [settle_cellFlag _ _ _ (by decide), settle_cellRd _ _ _ (by decide)]
    exact detune_limits h
  · rw [settle_lp, State.lp, detune_fab, ← State.lp, oscCounted_oscCount]
  · exact (((regsBut_oscCounted s lp.val).mono (by simp)).trans (hk.mono (by simp))).settled

/-! A quiet loop (R139). -/

/-- The level falls by one, below the limit. -/
def Machine.State.eased (s : State) (n : Nat) : State :=
  (s.wr (cellBase (lpId n)) Reg.LP_GAIN_DLEVEL (s.rd (cellBase (lpId n)) Reg.LP_GAIN_DLEVEL - 1)).setFlag (cellBase (lpId n)) Reg.LP_GAIN_OSCLIM false

/-- The fall is counted and the quiet time starts anew: what has passed since the loop's last evaluation is taken off it. -/
def Machine.State.easeCounted (s : State) (n : Nat) : State :=
  (s.bump (cellBase (lpId n)) Reg.LP_OSC_RELAXES).modLp n fun st => { st with quiet := -s.lpElapsed n }

theorem detuneRelax_relaxed (h0 : 0 < f32 (recWord (s.cfg (lpId lp.val) 12) 16))
    (hq : f32 (recWord (s.cfg (lpId lp.val) 12) 16) ≤ (s.lp lp.val).quiet + s.lpElapsed lp.val)
    (hl : 0 < s.rd (cellBase (lpId lp.val)) Reg.LP_GAIN_DLEVEL) : exec (.detuneRelax lp) s = .next ((s.eased lp.val).easeCounted lp.val).settle := by
  have hd : exec (.detuneRelax lp) s = execDetuneRelax lp s := rfl
  rw [hd, execDetuneRelax]
  dsimp only
  rw [if_pos ⟨h0, hq, hl⟩, done_eq, State.easeCounted, State.eased]

theorem regsBut_eased (s : State) (n : Nat) : RegsBut [cellBase (lpId n) + Reg.LP_GAIN_DLEVEL.off] s (s.eased n) :=
  RegsBut.setFlag (RegsBut.wr (RegsBut.refl _ s) (List.mem_singleton_self _)) (List.mem_singleton_self _)

theorem eased_level (s : State) (n : Nat) :
    (s.eased n).rd (cellBase (lpId n)) Reg.LP_GAIN_DLEVEL = s.rd (cellBase (lpId n)) Reg.LP_GAIN_DLEVEL - 1 := by
  rw [State.eased, State.rd_setFlag_apart _ _ _ _ _ _ (by decide) (.inr (.inl (by decide))), State.rd_wr_same _ _ _ _ (by decide)]
  exact Nat.mod_eq_of_lt (Nat.lt_of_le_of_lt (Nat.sub_le _ _) (s.rd_lt _ _))

theorem eased_osclim (s : State) (n : Nat) : (s.eased n).flag (cellBase (lpId n)) Reg.LP_GAIN_OSCLIM = false :=
  State.flag_setFlag_same _ _ _ _ (by decide) rfl

theorem regsBut_easeCounted (s : State) (n : Nat) : RegsBut [cellBase (lpId n) + Reg.LP_OSC_RELAXES.off] s (s.easeCounted n) :=
  RegsBut.same (RegsBut.bump (RegsBut.refl _ s) (List.mem_singleton_self _)) (State.modLp_regs _ _ _)

theorem easeCounted_lp (s : State) (n : Nat) : (s.easeCounted n).lp n = { s.lp n with quiet := -s.lpElapsed n } := by
  rw [State.easeCounted, State.modLp_lp, if_pos rfl, State.lp, State.bump_fab, State.lp]

/-- The length of a stroke stands off the cells' pages. -/
theorem easeCounted_tsNs (s : State) (n : Nat) : (s.easeCounted n).tsNs = s.tsNs := by
  rw [State.tsNs, (regsBut_easeCounted s n).rd _ _ fun hm => cell_ne (by decide) (by decide) (List.mem_singleton.mp hm).symm, State.tsNs]

theorem easeCounted_lpElapsed (s : State) (n : Nat) : (s.easeCounted n).lpElapsed n = s.lpElapsed n := by
  have hb : (s.easeCounted n).fab.boundaries = s.fab.boundaries := rfl
  rw [State.lpElapsed, easeCounted_lp, easeCounted_tsNs, hb, State.lpElapsed]

theorem easeCounted_quiet (s : State) (n : Nat) : ((s.easeCounted n).lp n).quiet + (s.easeCounted n).lpElapsed n = 0 := by
  rw [easeCounted_lpElapsed, easeCounted_lp, neg_add_cancel]

theorem settle_lpElapsed (s : State) (n : Nat) : s.settle.lpElapsed n = s.lpElapsed n := by
  rw [State.lpElapsed, State.settle_fab, settle_lp, State.tsNs, State.settle_rd _ _ _ (by decide)]
  rfl

theorem detuneRelax_eases (s : State) (lp : Fin 512) (h0 : 0 < f32 (recWord (s.cfg (lpId lp.val) 12) 16))
    (hq : f32 (recWord (s.cfg (lpId lp.val) 12) 16) ≤ (s.lp lp.val).quiet + s.lpElapsed lp.val)
    (hl : 0 < s.rd (cellBase (lpId lp.val)) Reg.LP_GAIN_DLEVEL) :
    Answers (.detuneRelax lp) s fun t =>
      t.rd (cellBase (lpId lp.val)) Reg.LP_GAIN_DLEVEL = s.rd (cellBase (lpId lp.val)) Reg.LP_GAIN_DLEVEL - 1 ∧
      t.flag (cellBase (lpId lp.val)) Reg.LP_GAIN_OSCLIM = false ∧ (t.lp lp.val).quiet + t.lpElapsed lp.val = 0 ∧
      RegsKept [cellBase (lpId lp.val) + Reg.LP_GAIN_DLEVEL.off, cellBase (lpId lp.val) + Reg.LP_OSC_RELAXES.off] s t := by
  have hk := regsBut_easeCounted (s.eased lp.val) lp.val
  refine ⟨_, detuneRelax_relaxed h0 hq hl, ?_, ?_, ?_, ?_⟩
  · rw [settle_cellRd _ _ _ (by decide), hk.rd _ _ (offset_not_mem (by decide)), eased_level]
  · rw [settle_cellFlag _ _ _ (by decide), hk.flag _ _ (offset_not_mem (by decide)), eased_osclim]
  · rw [settle_lp, settle_lpElapsed, easeCounted_quiet]
  · exact (((regsBut_eased s lp.val).mono (by simp)).trans (hk.mono (by simp))).settled

/-- Settles O12: each command by its decision, and detuning by what a detection and a quiet loop write. -/
theorem loopCommandsAndDetuning : Obligations.LoopCommandsAndDetuning := by
  unfold Obligations.LoopCommandsAndDetuning
  exact ⟨loopModeRequest_man, loopModeRequest_staged, loopModeRequest_reserved, setPoint_staged, loopStagedWrite_staged, setPoint_below, gainSelect_atOnce,
    detuneReset_staged, detuneReset_absent, oscillationDetect_detunes, detuneRelax_eases⟩

end Sys2Proof
end

