-- ==== Sys2Proof/Proofs/PhasorGroups.lean ====
section
/-! The phasor groups (R153 to R161): result sets, the sync machine, the breaker-close permit and the events. -/

namespace Sys2Proof

open Sys2Proof.Machine

variable {s t : State} {g n : Nat}

/-! The state of a group after the end of a command. -/

theorem settle_ph (s : State) (n : Nat) : s.settle.ph n = s.ph n := by rw [State.ph, State.settle_fab, State.ph]

theorem settle_cellRdw (s : State) (id : Nat) (f : Field) (h : f.off < 0x100) : s.settle.rdw (cellBase id) f = s.rdw (cellBase id) f :=
  s.settle_reg _ (cell_not_follower id h)

/-! What a point's driver writes (R231, R241). -/

/-- The registers of the digital points, and of the page after the last one, which `followBond` names as the partner of DP31. -/
def pointRegs : List Nat := (List.range 33).flatMap fun n => (List.range 0x100).map (cellBase (dpId n) + ·)

theorem mem_pointRegs {o : Nat} (hn : n ≤ 32) (ho : o < 0x100) : cellBase (dpId n) + o ∈ pointRegs :=
  List.mem_flatMap.mpr ⟨n, List.mem_range.mpr (Nat.lt_succ_of_le hn), List.mem_map.mpr ⟨o, List.mem_range.mpr ho, rfl⟩⟩

/-- The digital blocks end below the block of the phasor groups. -/
theorem phReg_not_point {o : Nat} (hg : g < 4) (ho : o < 0x100) : cellBase (phId g) + o ∉ pointRegs := fun hm => by
  obtain ⟨n, hn, hm⟩ := List.mem_flatMap.mp hm
  obtain ⟨p, hp, he⟩ := List.mem_map.mp hm
  rw [List.mem_range] at hn hp
  unfold cellBase svc idRegion idBlock idCell dpId phId cellId at he
  omega

theorem driveDp_regs (s : State) (hn : n < 32) : RegsBut pointRegs s (s.driveDp n) := by
  have hlead : ∀ {f : Field}, f.off < 0x100 → cellBase (dpId n) + f.off ∈ pointRegs := mem_pointRegs hn.le
  have hodd : ∀ {f : Field}, f.off < 0x100 → cellBase (dpId (n + 1)) + f.off ∈ pointRegs := mem_pointRegs hn
  have hcopied : ∀ f ∈ [Reg.CELL_STATE_STATE, Reg.CELL_STATE_SOURCE, Reg.CELL_STATE_ISOL, Reg.CELL_STATE_LATCHED, Reg.CELL_STATE_RETRIES],
      f.off < 0x100 := by decide
  have hbond : ∀ {u}, RegsBut pointRegs s u → RegsBut pointRegs s (u.followBond n) := fun h =>
    .ite ((((h.when fun _ h => h.bump (hodd (by decide))).foldl fun _ f hf h => h.wr (hodd (hcopied f hf))).setReg (hodd (by decide))).wrw
      (hodd (by decide))) h
  have h := RegsBut.refl pointRegs s
  exact .ite h (hbond (((h.when fun _ h => h.setFlag (hlead (by decide))).setFlag (hlead (by decide))).setFlag (hlead (by decide))))

theorem Machine.OnlyRegs.whenWr (s : State) (c : Bool) (b : Nat) (f : Field) (v : State → Nat) : OnlyRegs s (s.when c fun u => u.wr b f (v u)) := by
  cases c
  · exact .refl s
  · exact .wr s b f _

theorem driveDp_onlyRegs (s : State) (n : Nat) : OnlyRegs s (s.driveDp n) := by
  have hbond : ∀ u : State, OnlyRegs u (u.followBond n) := fun u => by
    unfold State.followBond
    split
    · exact ((OnlyRegs.whenWr u _ _ _ _).trans (.foldl (fun _ _ => .wr _ _ _ _) _ _)).trans ⟨_, rfl⟩
    · exact .refl u
  unfold State.driveDp
  dsimp only
  split
  · exact .refl s
  · exact (((OnlyRegs.whenWr s _ _ _ _).trans (.wr _ _ _ _)).trans (.wr _ _ _ _)).trans (hbond _)

theorem permitAt_regs (s : State) (g : Nat) (high : Bool) (hd : ∀ d, (s.ph g).closeDp = some d → d < 32) :
    RegsBut pointRegs s (s.permitAt g high) := by
  unfold State.permitAt
  split
  · next d h => exact driveDp_regs _ (hd d h)
  · exact .refl _ s

theorem permitAt_fab (s : State) (g : Nat) (high : Bool) : (s.permitAt g high).fab = s.fab := by
  unfold State.permitAt
  split
  · exact (driveDp_onlyRegs _ _).fab
  · rfl

/-! A window with a gap (R153). -/

theorem takeSamples_ph (s : State) (g : Nat) (m : PhasorMeas) :
    (s.takeSamples g m).ph g = { s.ph g with samples := (m.samples.reverse ++ (s.ph g).samples).take 1600 } := by
  rw [State.takeSamples, State.modPh_ph, if_pos rfl]

theorem underOld_none {f : State → State} (h : (s.ph g).old = none) : s.underOld g f = f s := by
  unfold State.underOld
  split
  · rfl
  · next hs => rw [h] at hs; contradiction

/-- The end of RESULT_SET where the samples taken belong to the running configuration. -/
theorem resultSet_working (g : Fin 4) (m : PhasorMeas) (hx : s.exists_ (phId g.val) = true) (hc : s.cst (phId g.val) ∉ [csOff, csFault])
    (ho : (s.ph g.val).old = none) :
    exec (.resultSet g m) s = .next (if (s.takeSamples g.val m).phGap g.val then (s.takeSamples g.val m).gapSet g.val
      else (s.takeSamples g.val m).completeSet g.val).settle := by
  have hd : exec (.resultSet g m) s = execResultSet g m s := rfl
  have hc' : [csOff, csFault].contains ((s.takeSamples g.val m).cst (phId g.val)) = false := by
    rw [List.contains_eq_mem, decide_eq_false_iff_not]
    exact hc
  have ho' : ((s.takeSamples g.val m).ph g.val).old = none := by rw [takeSamples_ph]; exact ho
  rw [hd, execResultSet]
  dsimp only
  rw [hx, hc', underOld_none ho']
  rfl

theorem resultSet_idle (s : State) (g : Fin 4) (m : PhasorMeas) (hx : s.exists_ (phId g.val) = true) (hc : s.cst (phId g.val) ∈ [csOff, csFault]) :
    exec (.resultSet g m) s = .next (s.takeSamples g.val m).settle := by
  have hd : exec (.resultSet g m) s = execResultSet g m s := rfl
  have hc' : [csOff, csFault].contains ((s.takeSamples g.val m).cst (phId g.val)) = true := by
    rw [List.contains_eq_mem, decide_eq_true_iff]
    exact hc
  rw [hd, execResultSet]
  dsimp only
  rw [hx, hc']
  rfl

theorem resultSet_completes (s : State) (g : Fin 4) (m : PhasorMeas) (hx : s.exists_ (phId g.val) = true) (hc : s.cst (phId g.val) ∉ [csOff, csFault])
    (ho : (s.ph g.val).old = none) (hgap : (s.takeSamples g.val m).phGap g.val = false) :
    exec (.resultSet g m) s = .next ((s.takeSamples g.val m).completeSet g.val).settle := by
  rw [resultSet_working g m hx hc ho, hgap, if_neg Bool.false_ne_true]

theorem gapSet_regs (s : State) (g : Nat) : RegsBut [cellBase (phId g) + Reg.PH_ERR_GAPS.off] s (s.gapSet g) :=
  RegsBut.same ((RegsBut.refl _ s).bump (List.mem_singleton_self _)) (State.modPh_regs _ _ _)

theorem gapSet_counts (s : State) (g : Nat) :
    (s.gapSet g).rd (cellBase (phId g)) Reg.PH_ERR_GAPS = min (s.rd (cellBase (phId g)) Reg.PH_ERR_GAPS + 1) 65535 := by
  rw [State.gapSet, State.modPh_rd, State.rd_bump _ _ _ (by decide)]
  rfl

theorem gapSet_sets (s : State) (g : Nat) : ((s.gapSet g).ph g).sets = 0 := by rw [State.gapSet, State.modPh_ph, if_pos rfl]

theorem resultSet_gap (s : State) (g : Fin 4) (m : PhasorMeas) (hx : s.exists_ (phId g.val) = true) (hc : s.cst (phId g.val) ∉ [csOff, csFault])
    (ho : (s.ph g.val).old = none) (hgap : (s.takeSamples g.val m).phGap g.val = true) :
    Answers (.resultSet g m) s fun t =>
      (t.ph g.val).sets = 0 ∧
      t.rd (cellBase (phId g.val)) Reg.PH_ERR_GAPS = min (s.rd (cellBase (phId g.val)) Reg.PH_ERR_GAPS + 1) 65535 ∧
      RegsKept [cellBase (phId g.val) + Reg.PH_ERR_GAPS.off] s t := by
  have he : exec (.resultSet g m) s = .next ((s.takeSamples g.val m).gapSet g.val).settle := by
    rw [resultSet_working g m hx hc ho, hgap, if_pos rfl]
  have hk : RegsBut [cellBase (phId g.val) + Reg.PH_ERR_GAPS.off] s (s.takeSamples g.val m) := .same (.refl _ s) (State.modPh_regs _ _ _)
  refine ⟨_, he, ?_, ?_, ?_⟩
  · rw [settle_ph, gapSet_sets]
  · rw [settle_cellRd _ _ _ (by decide), gapSet_counts, State.takeSamples, State.modPh_rd]
  · exact (hk.trans (gapSet_regs _ _)).settled

/-! A result set (R146 to R157, R160). -/

/-- The registers of a group's page from PH.STATUS on (R162): all but those that every cell has. -/
def phRegs (g : Nat) : List Nat := (List.range 0xE0).map (cellBase (phId g) + 0x20 + ·)

theorem mem_phRegs {o : Nat} (h : 0x20 ≤ o ∧ o < 0x100 := by decide) : cellBase (phId g) + o ∈ phRegs g :=
  List.mem_map.mpr ⟨o - 0x20, List.mem_range.mpr (by omega), by omega⟩

theorem cellReg_not_ph {o : Nat} (h : o < 0x20) : cellBase (phId g) + o ∉ phRegs g := fun hm => by
  obtain ⟨p, -, he⟩ := List.mem_map.mp hm
  omega

theorem writeSet_regs (s : State) (g : Nat) (x : PhaseSet) : RegsBut (phRegs g) s (s.writeSet g x) := by
  have hport : ∀ {k}, k ∈ List.range 8 → ∀ {o}, 0x20 ≤ o → o ≤ 0x60 → cellBase (phId g) + o + 4 * k ∈ phRegs g := fun hk _ h1 h2 => by
    have := List.mem_range.mp hk
    rw [Nat.add_assoc]
    exact mem_phRegs (by omega)
  have h := RegsBut.refl (phRegs g) s
  exact ((((((((((((h.wrw mem_phRegs).wrw mem_phRegs).wrw mem_phRegs).wrw mem_phRegs).wrw mem_phRegs).wrw mem_phRegs).wrw mem_phRegs).foldl
    fun _ _ hk h => (h.setReg (hport hk (by decide) (by decide))).setReg (hport hk (by decide) (by decide))).bumpBy mem_phRegs).setFlag
    mem_phRegs).setFlag mem_phRegs).setFlag mem_phRegs).setFlag mem_phRegs

theorem writeSet_onlyRegs (s : State) (g : Nat) (x : PhaseSet) : OnlyRegs s (s.writeSet g x) := by
  have hport : ∀ (u : State) (a b : Nat) (v w : Word), OnlyRegs u ((u.setReg a v).setReg b w) := fun _ _ _ _ _ => ⟨_, rfl⟩
  have hw : ∀ (u : State) (b : Nat) (f : Field) (v : Word), OnlyRegs u (u.wrw b f v) := fun _ _ _ _ => ⟨_, rfl⟩
  unfold State.writeSet
  exact ((((((((((((hw _ _ _ _).trans (hw _ _ _ _)).trans (hw _ _ _ _)).trans (hw _ _ _ _)).trans (hw _ _ _ _)).trans (hw _ _ _ _)).trans
    (hw _ _ _ _)).trans (.foldl (fun _ _ => hport _ _ _ _ _) _ _)).trans (.wr _ _ _ _)).trans (.wr _ _ _ _)).trans (.wr _ _ _ _)).trans
    (.wr _ _ _ _)).trans (.wr _ _ _ _)

theorem phCloseDp_of_img (h : t.img = s.img) (g : Nat) : t.phCloseDp g = s.phCloseDp g := by
  unfold State.phCloseDp State.cfg
  rw [h]

/-- Group `g` has completed its `n`-th set in a row, not yet published, under the images `i`, and does not report itself invalid. -/
structure SetTaken (g n : Nat) (i : ImageSt) (t : State) : Prop where
  sets : (t.ph g).sets = n
  fresh : (t.ph g).fresh = true
  valid : t.flag (cellBase (phId g)) Reg.PH_STATUS_INVALID = false
  img : t.img = i

namespace SetTaken

variable {i : ImageSt}

theorem wr {f : Field} {v : Nat} (h : SetTaken g n i t) (hf : f.lo + f.width ≤ 32 := by decide)
    (ha : f.off ≠ Reg.PH_STATUS_INVALID.off ∨ Reg.PH_STATUS_INVALID.lo + Reg.PH_STATUS_INVALID.width ≤ f.lo ∨
      f.lo + f.width ≤ Reg.PH_STATUS_INVALID.lo := by decide) : SetTaken g n i (t.wr (cellBase (phId g)) f v) :=
  ⟨h.sets, h.fresh, (flag_wr_apart _ _ _ _ _ _ hf (ha.imp_left fun hn e => hn (Nat.add_left_cancel e))).trans h.valid, h.img⟩

theorem modPh {f : PhasorSt → PhasorSt} (h : SetTaken g n i t) (hs : ∀ p, (f p).sets = p.sets := by exact fun _ => rfl)
    (hf : ∀ p, (f p).fresh = p.fresh := by exact fun _ => rfl) : SetTaken g n i (t.modPh g f) := by
  have hp : (t.modPh g f).ph g = f (t.ph g) := by rw [State.modPh_ph, if_pos rfl]
  exact ⟨by rw [hp, hs, h.sets], by rw [hp, hf, h.fresh], h.valid, h.img⟩

protected theorem ite {c : Prop} [Decidable c] (ht : SetTaken g n i s) (hu : SetTaken g n i t) : SetTaken g n i (if c then s else t) := by
  split
  · exact ht
  · exact hu

theorem ifThen {c : Prop} [Decidable c] {u : State} (h : SetTaken g n i t) (hu : SetTaken g n i t → SetTaken g n i u) :
    SetTaken g n i (if c then u else t) := .ite (hu h) h

theorem when {c : Bool} {f : State → State} (h : SetTaken g n i t) (hf : ∀ u, SetTaken g n i u → SetTaken g n i (f u)) :
    SetTaken g n i (t.when c f) := .ite (hf t h) h

theorem foldl {α : Type} {f : State → α → State} {l : List α} (h : SetTaken g n i t) (hf : ∀ u a, SetTaken g n i u → SetTaken g n i (f u a)) :
    SetTaken g n i (l.foldl f t) := by
  induction l generalizing t with
  | nil => exact h
  | cons a l ih => exact ih (hf t a h)

theorem syncLeave (h : SetTaken g n i t) : SetTaken g n i (t.syncLeave g) := h.ifThen fun h => .ite h h.wr.modPh

theorem syncStep {x : PhaseSet} {held dead : Bool} {late : Nat} (h : SetTaken g n i t) : SetTaken g n i (t.syncStep g x held dead late) := by
  have h := h.syncLeave
  unfold State.syncStep
  refine .ite (h.ifThen fun h => h.wr) ?_
  refine .ite (h.ifThen fun h => h.modPh.wr) ?_
  refine .ite (.ite h.modPh h.modPh.wr) ?_
  refine .ite ?_ (h.ifThen fun h => .ite h h.wr)
  refine .ite (h.modPh.wr (f := Reg.PH_CNT_ABANDONS)).wr ?_
  refine .ite h.wr ?_
  refine .ite h.modPh.wr ?_
  split
  · exact h.modPh.wr
  · exact h

theorem trackEvents {x : PhaseSet} (h : SetTaken g n i t) : SetTaken g n i (t.trackEvents g x) :=
  h.foldl fun _ _ h => (h.when fun _ h => h.wr).modPh

end SetTaken

/-- Two draws and a set's registers leave all but registers and the counter of free values. -/
theorem drawnSet_keeps (s : State) (g : Nat) (x : PhaseSet) : (s.draw.2.draw.2.writeSet g x).fab = s.fab ∧ (s.draw.2.draw.2.writeSet g x).img = s.img := by
  obtain ⟨r, h⟩ := writeSet_onlyRegs s.draw.2.draw.2 g x
  rw [h]
  exact ⟨rfl, rfl⟩

theorem drawnSet_cst (s : State) (g : Nat) (x : PhaseSet) : (s.draw.2.draw.2.writeSet g x).cst (phId g) = s.cst (phId g) :=
  (((RegsBut.refl (phRegs g) s).same (u := s.draw.2.draw.2)).trans (writeSet_regs _ g x)).rd _ _ (cellReg_not_ph (by decide))

/-- A group in RUN comes to its sync machine with the new set written and counted. -/
theorem formedSet_taken (hr : s.cst (phId g) = csRun) {x : PhaseSet} {f : PhasorSt → PhasorSt} {c d : Bool} {u v : State}
    (hs : ∀ p, (f p).sets = p.sets + 1) (hf : ∀ p, (f p).fresh = true) (hu : u = (s.draw.2.draw.2.writeSet g x).modPh g f)
    (hv : v = u.when (u.cst (phId g) == csStart && c && d) fun s => s.setCst (phId g) csRun) :
    SetTaken g ((s.ph g).sets + 1) s.img (v.setFlag (cellBase (phId g)) Reg.PH_STATUS_INVALID (v.cst (phId g) != csRun)) := by
  obtain ⟨hfab, himg⟩ := drawnSet_keeps s g x
  have hrun : u.cst (phId g) = csRun := by rw [hu, State.cst, State.modPh_rd, ← State.cst, drawnSet_cst, hr]
  have hvu : v = u := by rw [hv, hrun]; rfl
  have hph : u.ph g = f (s.ph g) := by rw [hu, State.modPh_ph, if_pos rfl, State.ph, hfab, State.ph]
  rw [hvu, hrun]
  refine ⟨?_, ?_, State.flag_setFlag_same _ _ _ _ (by decide) rfl, ?_⟩
  · rw [State.ph, State.setFlag_fab, ← State.ph, hph, hs]
  · rw [State.ph, State.setFlag_fab, ← State.ph, hph, hf]
  · rw [State.setFlag_img, hu, State.modPh_img, himg]

theorem completeSet_taken (hr : s.cst (phId g) = csRun) (hd : s.phCloseDp g = none) :
    SetTaken g ((s.ph g).sets + 1) s.img (s.completeSet g) := by
  unfold State.completeSet
  dsimp only
  split
  · next dp h =>
    have hi : ∀ {u}, SetTaken g ((s.ph g).sets + 1) s.img u → u.phCloseDp g ≠ some dp := fun hu => by
      rw [phCloseDp_of_img hu.img, hd]
      exact (Option.some_ne_none dp).symm
    exact absurd h (hi (formedSet_taken hr (fun _ => rfl) (fun _ => rfl) rfl rfl).syncStep.trackEvents)
  · exact (formedSet_taken hr (fun _ => rfl) (fun _ => rfl) rfl rfl).syncStep.trackEvents

theorem resultSet_taken (s : State) (g : Fin 4) (m : PhasorMeas) (hx : s.exists_ (phId g.val) = true) (hr : s.cst (phId g.val) = csRun)
    (ho : (s.ph g.val).old = none) (hgap : (s.takeSamples g.val m).phGap g.val = false) (hd : s.phCloseDp g.val = none) :
    Answers (.resultSet g m) s fun t =>
      (t.ph g.val).sets = (s.ph g.val).sets + 1 ∧ (t.ph g.val).fresh = true ∧ t.flag (cellBase (phId g.val)) Reg.PH_STATUS_INVALID = false := by
  have hsets : ((s.takeSamples g.val m).ph g.val).sets = (s.ph g.val).sets := by rw [takeSamples_ph]
  have ht := completeSet_taken (s := s.takeSamples g.val m) (g := g.val) hr hd
  refine ⟨_, resultSet_completes s g m hx (by rw [hr]; decide) ho hgap, ?_, ?_, ?_⟩
  · rw [settle_ph, ht.sets, hsets]
  · rw [settle_ph, ht.fresh]
  · rw [settle_cellFlag _ _ _ (by decide), ht.valid]

/-! The sync machine (R157). -/

theorem syncArm_arms (s : State) (g : Fin 4) (hy : s.rd (cellBase (phId g.val)) Reg.PH_STATUS_SYNC = syInside) (hh : (s.ph g.val).condHeld = true)
    (hq : (s.ph g.val).closeReq = true)
    (hw : s.dwellNeed g.val (s.ph g.val).dead (f32 (s.rdw (cellBase (phId g.val)) Reg.PH_F_RUN)) ≤ (s.ph g.val).dwell) :
    Answers (.syncArm g) s fun t =>
      t.rd (cellBase (phId g.val)) Reg.PH_STATUS_SYNC = syArmed ∧ RegsKept [cellBase (phId g.val) + Reg.PH_STATUS_SYNC.off] s t := by
  have he : exec (.syncArm g) s = .next (s.wr (cellBase (phId g.val)) Reg.PH_STATUS_SYNC syArmed).settle := congrArg done (if_pos ⟨hy, hh, hq, hw⟩)
  refine ⟨_, he, ?_, ?_⟩
  · rw [settle_cellRd _ _ _ (by decide), State.rd_wr_same _ _ _ _ (by decide)]
    rfl
  · exact ((RegsBut.refl _ s).wr (List.mem_singleton_self _)).settled

theorem syncBlock_ends (s : State) (p : Port) (g : Fin 4) (hs : Served s p) (hx : s.exists_ (phId g.val) = true)
    (hy : s.rd (cellBase (phId g.val)) Reg.PH_STATUS_SYNC ∈ [syOutside, syInside, syArmed]) :
    exec (.syncBlock p g) s = .next ((s.wr (cellBase (phId g.val)) Reg.PH_STATUS_SYNC syDone).answer p E_OK).settle := by
  have hattempt : ∀ y ∈ [syOutside, syInside, syArmed], ¬ (y = syOff ∨ y = syClosing ∨ y = syDone) := by decide
  exact command_decides hs (by rw [decideSyncBlock, if_neg (by rw [hx]; decide), if_neg (hattempt _ hy)])

/-- A permit that is on its way or high is not withdrawn, whether the group exists or not. -/
theorem syncBlock_refused (s : State) (p : Port) (g : Fin 4) (hs : Served s p) (hy : s.rd (cellBase (phId g.val)) Reg.PH_STATUS_SYNC = syClosing) :
    exec (.syncBlock p g) s = .next (s.answer p E_STATE).settle :=
  command_decides hs (by
    have hy' : s.rd (cellBase (phId g.val)) Reg.PH_STATUS_SYNC = syOff ∨ s.rd (cellBase (phId g.val)) Reg.PH_STATUS_SYNC = syClosing ∨
      s.rd (cellBase (phId g.val)) Reg.PH_STATUS_SYNC = syDone := .inr (.inl hy)
    rw [decideSyncBlock, if_pos hy', ite_self])

/-! The permit (R158). -/

/-- A register of the page that a whole-register write leaves alone. -/
theorem reg_wrw_of_ne (s : State) (b : Nat) (f : Field) (v : Word) {o : Nat} (h : o ≠ f.off) : (s.wrw b f v).reg (b + o) = s.reg (b + o) := by
  rw [State.wrw, State.reg_setReg, if_neg fun e => h (Nat.add_left_cancel e)]

theorem RegsBut.rdw {l : List Nat} (h : RegsBut l s t) (b : Nat) (f : Field) (hb : b + f.off ∉ l) : t.rdw b f = s.rdw b f := h _ hb

/-- PERMIT high with its instant and angle recorded, before it reaches its point. -/
def Machine.State.permitRecorded (s : State) (g cycle : Nat) (adv : Word) : State :=
  ((((s.setFlag (cellBase (phId g)) Reg.PH_STATUS_PERMIT true).wrw (cellBase (phId g)) Reg.PH_PT_NS
    (BitVec.ofNat 32 (s.readingAt cycle % 1000000000))).wrw (cellBase (phId g)) Reg.PH_PT_S (BitVec.ofNat 32 (s.readingAt cycle / 1000000000))).wrw
    (cellBase (phId g)) Reg.PH_ADV adv).modPh g fun p => { p with permitSeen := true }

theorem risePermit_recorded {cycle : Nat} {adv : Word} (hy : s.rd (cellBase (phId g)) Reg.PH_STATUS_SYNC = syClosing)
    (hp : s.flag (cellBase (phId g)) Reg.PH_STATUS_PERMIT = false) (he : (s.ph g).edge = some (cycle, adv)) :
    s.risePermit g = (s.permitRecorded g cycle adv).permitAt g true := by
  unfold State.risePermit
  dsimp only
  rw [hy, hp, he]
  rfl

theorem permitRecorded_closeDp (s : State) (g cycle : Nat) (adv : Word) : ((s.permitRecorded g cycle adv).ph g).closeDp = (s.ph g).closeDp := by
  rw [State.permitRecorded, State.modPh_ph, if_pos rfl]
  rfl

theorem permitRecorded_shows (s : State) (g cycle : Nat) (adv : Word) :
    (s.permitRecorded g cycle adv).flag (cellBase (phId g)) Reg.PH_STATUS_PERMIT = true ∧
      (s.permitRecorded g cycle adv).rdw (cellBase (phId g)) Reg.PH_PT_NS = BitVec.ofNat 32 (s.readingAt cycle % 1000000000) ∧
      (s.permitRecorded g cycle adv).rdw (cellBase (phId g)) Reg.PH_PT_S = BitVec.ofNat 32 (s.readingAt cycle / 1000000000) ∧
      (s.permitRecorded g cycle adv).rdw (cellBase (phId g)) Reg.PH_ADV = adv := by
  unfold State.permitRecorded
  refine ⟨?_, ?_, ?_, State.rdw_wrw_same _ _ _ _⟩
  · rw [State.modPh_flag, State.flag, State.rd, reg_wrw_of_ne _ _ _ _ (by decide), reg_wrw_of_ne _ _ _ _ (by decide),
      reg_wrw_of_ne _ _ _ _ (by decide), ← State.rd, ← State.flag, State.flag_setFlag_same _ _ _ _ (by decide) rfl]
  · rw [State.modPh_rdw, State.rdw, reg_wrw_of_ne _ _ _ _ (by decide), reg_wrw_of_ne _ _ _ _ (by decide), ← State.rdw, State.rdw_wrw_same]
  · rw [State.modPh_rdw, State.rdw, reg_wrw_of_ne _ _ _ _ (by decide), ← State.rdw, State.rdw_wrw_same]

theorem permitRise_records (s : State) (g : Fin 4) (cycle : Nat) (adv : Word) (hy : s.rd (cellBase (phId g.val)) Reg.PH_STATUS_SYNC = syClosing)
    (hp : s.flag (cellBase (phId g.val)) Reg.PH_STATUS_PERMIT = false) (he : (s.ph g.val).edge = some (cycle, adv))
    (hd : ∀ d, (s.ph g.val).closeDp = some d → d < 32) :
    Answers (.permitRise g) s fun t =>
      t.flag (cellBase (phId g.val)) Reg.PH_STATUS_PERMIT = true ∧
      t.rdw (cellBase (phId g.val)) Reg.PH_PT_NS = BitVec.ofNat 32 (s.readingAt cycle % 1000000000) ∧
      t.rdw (cellBase (phId g.val)) Reg.PH_PT_S = BitVec.ofNat 32 (s.readingAt cycle / 1000000000) ∧ t.rdw (cellBase (phId g.val)) Reg.PH_ADV = adv := by
  have hn : exec (.permitRise g) s = .next ((s.permitRecorded g.val cycle adv).permitAt g.val true).settle :=
    congrArg done (risePermit_recorded hy hp he)
  have hk : RegsBut pointRegs _ _ := permitAt_regs (s.permitRecorded g.val cycle adv) g.val true (by rw [permitRecorded_closeDp]; exact hd)
  obtain ⟨hpermit, hns, hs, hadv⟩ := permitRecorded_shows s g.val cycle adv
  refine ⟨_, hn, ?_, ?_, ?_, ?_⟩
  · rw [settle_cellFlag _ _ _ (by decide), hk.flag _ _ (phReg_not_point g.isLt (by decide)), hpermit]
  · rw [settle_cellRdw _ _ _ (by decide), hk.rdw _ _ (phReg_not_point g.isLt (by decide)), hns]
  · rw [settle_cellRdw _ _ _ (by decide), hk.rdw _ _ (phReg_not_point g.isLt (by decide)), hs]
  · rw [settle_cellRdw _ _ _ (by decide), hk.rdw _ _ (phReg_not_point g.isLt (by decide)), hadv]

/-- The point that the permit closes loses it. -/
def Machine.State.permitLost (s : State) (g : Nat) : State :=
  match (s.ph g).closeDp with
  | some dp => s.modDp dp fun d => { d with permit := false }
  | none => s

theorem permitLost_keeps (s : State) (g : Nat) : (s.permitLost g).regs = s.regs ∧ (s.permitLost g).fab = s.fab := by
  unfold State.permitLost
  split <;> exact ⟨rfl, rfl⟩

theorem endPermit_eq (s : State) (g next : Nat) : s.endPermit g next =
    ((((s.permitLost g).setFlag (cellBase (phId g)) Reg.PH_STATUS_PERMIT false).bump (cellBase (phId g)) Reg.PH_CNT_CLOSES).wr (cellBase (phId g))
      Reg.PH_STATUS_SYNC next).modPh g fun p => { p with edge := none, dwell := 0 } := (rfl)

theorem endPermit_ph (s : State) (g next : Nat) : (s.endPermit g next).ph g = { s.ph g with edge := none, dwell := 0 } := by
  have hph : (s.permitLost g).ph g = s.ph g := by rw [State.ph, (permitLost_keeps s g).2, State.ph]
  rw [endPermit_eq, State.modPh_ph, if_pos rfl, State.ph, State.wr_fab, State.bump_fab, State.setFlag_fab, ← State.ph, hph]

theorem endPermit_shows (s : State) (g next : Nat) :
    (s.endPermit g next).flag (cellBase (phId g)) Reg.PH_STATUS_PERMIT = false ∧
      (s.endPermit g next).rd (cellBase (phId g)) Reg.PH_STATUS_SYNC = next % 8 ∧
      (s.endPermit g next).rd (cellBase (phId g)) Reg.PH_CNT_CLOSES = min (s.rd (cellBase (phId g)) Reg.PH_CNT_CLOSES + 1) 65535 := by
  have hne : ∀ {a b : Nat}, a ≠ b → cellBase (phId g) + a ≠ cellBase (phId g) + b := fun h e => h (Nat.add_left_cancel e)
  have hlost : (s.permitLost g).rd (cellBase (phId g)) Reg.PH_CNT_CLOSES = s.rd (cellBase (phId g)) Reg.PH_CNT_CLOSES := by
    rw [State.rd, State.reg, (permitLost_keeps s g).1, ← State.reg, ← State.rd]
  rw [endPermit_eq]
  refine ⟨?_, ?_, ?_⟩
  · rw [State.modPh_flag, flag_wr_apart _ _ _ _ _ _ (by decide) (.inr (.inr (by decide))), State.bump, State.bumpBy,
      flag_wr_apart _ _ _ _ _ _ (by decide) (.inl (hne (by decide))), State.flag_setFlag_same _ _ _ _ (by decide) rfl]
  · rw [State.modPh_rd, State.rd_wr_same _ _ _ _ (by decide)]
    rfl
  · rw [State.modPh_rd, State.rd_wr_of_ne _ _ _ _ _ _ (hne (by decide)), State.rd_bump _ _ _ (by decide),
      State.rd_setFlag_apart _ _ _ _ _ _ (by decide) (.inl (hne (by decide))), hlost]
    rfl

/-- The pulse of a group in RUN ends. -/
def Machine.State.pulseEnded (s : State) (g : Nat) : State :=
  ((s.endPermit g syDone).permitAt g false).modPh g fun p => { p with closeDp := none }

theorem pulseEnded_ph (s : State) (g : Nat) : (s.pulseEnded g).ph g = { s.ph g with edge := none, dwell := 0, closeDp := none } := by
  rw [State.pulseEnded, State.modPh_ph, if_pos rfl, State.ph, permitAt_fab, ← State.ph, endPermit_ph]

theorem pulseEnded_regs (s : State) (g : Nat) (hd : ∀ d, (s.ph g).closeDp = some d → d < 32) :
    RegsBut pointRegs (s.endPermit g syDone) (s.pulseEnded g) :=
  (permitAt_regs _ g false (by rw [endPermit_ph]; exact hd)).same (State.modPh_regs _ _ _)

/-- Without records kept from before a commit nothing is owed when the pulse has ended. -/
theorem fallPermit_ended (hg : g < 4) (hy : s.rd (cellBase (phId g)) Reg.PH_STATUS_SYNC = syClosing)
    (hp : s.flag (cellBase (phId g)) Reg.PH_STATUS_PERMIT = true) (hr : s.cst (phId g) = csRun) (hm : s.mst = stRun) (ho : (s.ph g).old = none) :
    s.fallPermit g = s.pulseEnded g := by
  have hclosing : (s.closing g && s.flag (cellBase (phId g)) Reg.PH_STATUS_PERMIT) = true := by rw [State.closing, hy, hp]; rfl
  have hnum : cellNum (phId g) = g := by interval_cases g <;> rfl
  have howes : (s.pulseEnded g).phOwesStart (phId g) = false := by
    rw [State.phOwesStart, hnum, pulseEnded_ph, ho, Option.isSome_none, Bool.and_false, Bool.false_and]
  have hrun : s.cst (phId g) = csRun ∧ s.mst = stRun := ⟨hr, hm⟩
  unfold State.fallPermit
  dsimp only
  rw [if_pos hclosing, if_pos hrun, ← State.pulseEnded, howes]
  rfl

theorem permitFall_done (s : State) (g : Fin 4) (hy : s.rd (cellBase (phId g.val)) Reg.PH_STATUS_SYNC = syClosing)
    (hp : s.flag (cellBase (phId g.val)) Reg.PH_STATUS_PERMIT = true) (hr : s.cst (phId g.val) = csRun) (hm : s.mst = stRun)
    (ho : (s.ph g.val).old = none) (hd : ∀ d, (s.ph g.val).closeDp = some d → d < 32) :
    Answers (.permitFall g) s fun t =>
      t.flag (cellBase (phId g.val)) Reg.PH_STATUS_PERMIT = false ∧ t.rd (cellBase (phId g.val)) Reg.PH_STATUS_SYNC = syDone ∧
      t.rd (cellBase (phId g.val)) Reg.PH_CNT_CLOSES = min (s.rd (cellBase (phId g.val)) Reg.PH_CNT_CLOSES + 1) 65535 ∧ (t.ph g.val).edge = none := by
  have hn : exec (.permitFall g) s = .next (s.pulseEnded g.val).settle := congrArg done (fallPermit_ended g.isLt hy hp hr hm ho)
  have hk := pulseEnded_regs s g.val hd
  obtain ⟨hpermit, hsync, hcloses⟩ := endPermit_shows s g.val syDone
  refine ⟨_, hn, ?_, ?_, ?_, ?_⟩
  · rw [settle_cellFlag _ _ _ (by decide), hk.flag _ _ (phReg_not_point g.isLt (by decide)), hpermit]
  · rw [settle_cellRd _ _ _ (by decide), hk.rd _ _ (phReg_not_point g.isLt (by decide)), hsync]
    rfl
  · rw [settle_cellRd _ _ _ (by decide), hk.rd _ _ (phReg_not_point g.isLt (by decide)), hcloses]
  · rw [settle_ph, pulseEnded_ph]

/-! The events (R160, R161). -/

/-- Setting a bit that is 0 in a field of five stays in the field. -/
theorem setBit_lt {w e : Nat} (hw : w < 32) (he : e < 5) (hb : w / 2 ^ e % 2 = 0) : w + 2 ^ e < 32 := by
  interval_cases e <;> omega

theorem phasorEventPickup_active (s : State) (g : Fin 4) (e : Fin 5) (ht : s.phThresh g.val e.val ≠ 0)
    (hh : max 1 (80 * s.phDelay g.val e.val) ≤ (s.ph g.val).evHeld.getD e.val 0)
    (hb : s.rd (cellBase (phId g.val)) Reg.PH_STATUS_EVT / 2 ^ e.val % 2 = 0) :
    Answers (.phasorEventPickup g e) s fun t =>
      t.rd (cellBase (phId g.val)) Reg.PH_STATUS_EVT = s.rd (cellBase (phId g.val)) Reg.PH_STATUS_EVT + 2 ^ e.val ∧
      RegsKept [cellBase (phId g.val) + Reg.PH_STATUS_EVT.off] s t := by
  have hn : exec (.phasorEventPickup g e) s =
      .next (s.wr (cellBase (phId g.val)) Reg.PH_STATUS_EVT (s.rd (cellBase (phId g.val)) Reg.PH_STATUS_EVT + 2 ^ e.val)).settle :=
    congrArg done (if_pos ⟨ht, hh, hb⟩)
  refine ⟨_, hn, ?_, ?_⟩
  · rw [settle_cellRd _ _ _ (by decide), State.rd_wr_same _ _ _ _ (by decide)]
    exact Nat.mod_eq_of_lt (setBit_lt (s.rd_lt _ _) e.isLt hb)
  · exact ((RegsBut.refl _ s).wr (List.mem_singleton_self _)).settled

theorem phasorInvalidTimeout_invalid (s : State) (g : Fin 4) :
    exec (.phasorInvalidTimeout g) s =
      .next ((s.setFlag (cellBase (phId g.val)) Reg.PH_STATUS_INVALID true).modPh g.val fun p => { p with stale := true }).settle := rfl

/-- Settles O13: a result set by its windows, the sync machine and the permit by what each happening writes on the group's page, the events by
their bits. -/
theorem phasorGroupsSynchroniseAndReport : Obligations.PhasorGroupsSynchroniseAndReport := by
  unfold Obligations.PhasorGroupsSynchroniseAndReport
  exact ⟨resultSet_gap, resultSet_taken, resultSet_completes, resultSet_idle, syncArm_arms, permitRise_records, permitFall_done, syncBlock_ends,
    syncBlock_refused, phasorEventPickup_active, phasorInvalidTimeout_invalid⟩

end Sys2Proof
end

