-- ==== Sys2Proof/Proofs/Mirrors.lean ====
section
/-! The fields that follow other state (R188, R196, R425, R475): what the end of a command leaves in them, and the obligation on every step. -/

namespace Sys2Proof

open Sys2Proof.Machine

/-! What the end of a command leaves: the fields that follow are equal to what they follow. -/

/-- A one-bit field of `mirror`, of a register that is written by nothing that `settle` does after it. -/
theorem settle_flag_mirror (s : State) (b : Nat) (g : Field) (hk : Apart b g nvjBase Reg.KEY_USE_INUSE)
    (ha : ∀ c : Fin 2, Apart b g (canBase c.val) Reg.CAN_STATUS_ESTATE ∧ Apart b g (canBase c.val) Reg.CAN_STATUS_ACKERRS ∧
      b + g.off ≠ canBase c.val + Reg.CAN_ECNT_TEC.off)
    (hs : b + g.off ≠ pnlBase + Reg.SEG_STATE_STATE.off) : s.settle.flag b g = s.mirror.flag b g := by
  simp only [State.flag, s.settle_rd_mirror b g hk ha hs]

theorem mirror_mfltOpen (s : State) : s.mirror.flag tbBase Reg.TB_STATUS_MFLTOPEN = s.mfltOpen := by
  simp (disch := decide) only [State.mirror, State.flag_track_apart, State.flag_track_same]

theorem mirror_cause (s : State) : s.mirror.flag modBase Reg.MOD_STATE_CAUSE = (s.rd tbBase Reg.TB_CAUSE_LATCHED != 0) := by
  simp (disch := decide) only [State.mirror, State.flag_track_apart, State.flag_track_same, State.rd_track_apart]

theorem mirror_dbgflag (s : State) : s.mirror.flag modBase Reg.MOD_STATE_DBGFLAG = s.flag tbBase Reg.TB_STATUS_DBGFLAG := by
  simp (disch := decide) only [State.mirror, State.flag_track_apart, State.flag_track_same]

theorem mirror_hulow (s : State) : s.mirror.flag modBase Reg.MOD_HEALTH_HULOW = s.flag pwrBase Reg.PWR_STATUS_HULOW := by
  simp (disch := decide) only [State.mirror, State.flag_track_apart, State.flag_track_same]

theorem mirror_suplow (s : State) : s.mirror.flag modBase Reg.MOD_HEALTH_SUPLOW = s.flag pwrBase Reg.PWR_STATUS_SUPLOW := by
  simp (disch := decide) only [State.mirror, State.flag_track_apart, State.flag_track_same]

/-- What closes MFLT is none of the followers. -/
theorem settle_mfltOpen (s : State) : s.settle.mfltOpen = s.mfltOpen := by
  simp only [State.mfltOpen, s.settle_mst, State.settle_pwr, s.settle_rd tbBase Reg.TB_STATUS_TSTATE (by decide),
    s.settle_flag (cpBase 0) Reg.CP_STATUS_HELD (by decide)]

theorem settle_mirrored (s : State) : Mirrored s.settle := by
  refine ⟨?mflt, ?cause, ?dbg, ?hulow, ?suplow⟩
  case mflt => rw [settle_mfltOpen, settle_flag_mirror s _ _ (by decide) (by decide) (by decide), mirror_mfltOpen]
  case cause =>
    rw [s.settle_rd _ _ (by decide), settle_flag_mirror s _ _ (by decide) (by decide) (by decide), mirror_cause]
  case dbg => rw [s.settle_flag tbBase _ (by decide), settle_flag_mirror s _ _ (by decide) (by decide) (by decide), mirror_dbgflag]
  case hulow => rw [s.settle_flag pwrBase _ (by decide), settle_flag_mirror s _ _ (by decide) (by decide) (by decide), mirror_hulow]
  case suplow => rw [s.settle_flag pwrBase _ (by decide), settle_flag_mirror s _ _ (by decide) (by decide) (by decide), mirror_suplow]

/-! The segment display (R425). -/

/-- The Control region's bit of MOD.HEALTH:REGFLT. -/
def controlFault : Field := ⟨Reg.MOD_HEALTH_REGFLT.off, Reg.MOD_HEALTH_REGFLT.lo + 2, 1, Reg.MOD_HEALTH_REGFLT.acc⟩

theorem controlDown_eq (s : State) : s.controlDown = (s.rd modBase controlFault == 1) := rfl

/-- What the always-on island has of the module where its display is lit: the last copy while the Control region is down, and else a new one. -/
def segmentCopy (s : State) : State := if s.controlDown then s else s.copySegments

/-- A field of another register than the display's shares no bit with any of its fields. -/
theorem apart_display {b : Nat} {g : Field} (h : b + g.off ≠ pnlBase + Reg.SEG_STATE_STATE.off) (f : Field) (hf : f.off = Reg.SEG_STATE_STATE.off) :
    Apart b g pnlBase f := Or.inl (by rw [hf]; exact Ne.symm h)

section display

variable (s : State)

theorem copySegments_rd (b : Nat) (g : Field) (h : b + g.off ≠ pnlBase + Reg.SEG_STATE_STATE.off) : s.copySegments.rd b g = s.rd b g := by
  have n := apart_display h
  unfold State.copySegments
  dsimp only
  rw [State.rd_track_apart _ _ _ _ _ _ (by decide) (n Reg.SEG_STATE_ERR rfl), State.rd_track_apart _ _ _ _ _ _ (by decide) (n Reg.SEG_STATE_MODE rfl),
    State.rd_wr_apart _ _ _ _ _ _ (by decide) (n Reg.SEG_STATE_STATE rfl), State.rd_wr_apart _ _ _ _ _ _ (by decide) (n Reg.SEG_STATE_ADDR rfl)]

/-- The copy that the always-on island takes. -/
theorem copySegments_copies :
    s.copySegments.rd pnlBase Reg.SEG_STATE_ADDR = s.rd modBase Reg.MOD_ADDR_ADDR ∧ s.copySegments.rd pnlBase Reg.SEG_STATE_STATE = s.mst ∧
    s.copySegments.flag pnlBase Reg.SEG_STATE_MODE = s.tabor ∧
    s.copySegments.flag pnlBase Reg.SEG_STATE_ERR = (s.rd modBase Reg.MOD_ERR_STFAIL != 0) := by
  have haddr : s.rd modBase Reg.MOD_ADDR_ADDR % 2 ^ Reg.SEG_STATE_ADDR.width = s.rd modBase Reg.MOD_ADDR_ADDR := Nat.mod_eq_of_lt (s.rd_lt ..)
  have hstate : s.rd modBase Reg.MOD_STATE_STATE % 2 ^ Reg.SEG_STATE_STATE.width = s.rd modBase Reg.MOD_STATE_STATE :=
    Nat.mod_eq_of_lt (s.rd_lt ..)
  unfold State.copySegments
  refine ⟨?_, ?_, ?_, ?_⟩ <;>
    simp (disch := decide) only [State.rd_track_apart, State.flag_track_apart, State.flag_track_same, State.rd_wr_apart, flag_wr_apart,
      State.rd_wr_same, State.mst, State.tabor, haddr, hstate]

theorem segmentCopy_rd (b : Nat) (g : Field) (h : b + g.off ≠ pnlBase + Reg.SEG_STATE_STATE.off) : (segmentCopy s).rd b g = s.rd b g := by
  unfold segmentCopy
  split
  · rfl
  · exact copySegments_rd s b g h

theorem segmentCopy_pnl : (segmentCopy s).pnl = s.pnl := by
  unfold segmentCopy
  split
  · rfl
  · obtain ⟨r, h⟩ := OnlyRegs.copySegments s
    rw [h]

variable {s} (hd : s.pnl.discharged = false)
include hd

/-- Beside the copy the display gets three bits: SAFE, DBG and the flashing icon. -/
theorem showSegments_of_lit : s.showSegments =
    (((segmentCopy s).track pnlBase Reg.SEG_STATE_SAFE fun s =>
      !s.pnl.discharged && (s.flag tbBase Reg.TB_STATUS_HWSAFE || (!s.controlDown && s.rd tbBase Reg.TB_STATUS_TSTATE == 3))).track
      pnlBase Reg.SEG_STATE_DBG fun s => !s.pnl.discharged && s.flag tbBase Reg.TB_STATUS_DBGFLAG).track
      pnlBase Reg.SEG_STATE_LASTKNOWN fun s => !s.pnl.discharged && s.controlDown := by
  simp only [State.showSegments, segmentCopy, hd, Bool.false_eq_true, if_false]

theorem showSegments_safe : s.showSegments.flag pnlBase Reg.SEG_STATE_SAFE =
    (s.flag tbBase Reg.TB_STATUS_HWSAFE || (!s.controlDown && s.rd tbBase Reg.TB_STATUS_TSTATE == 3)) := by
  rw [showSegments_of_lit hd, State.flag_track_apart _ _ _ _ _ _ (by decide) (by decide), State.flag_track_apart _ _ _ _ _ _ (by decide) (by decide),
    State.flag_track_same _ _ _ _ (by decide) rfl]
  simp (disch := decide) only [State.flag, controlDown_eq, segmentCopy_rd, segmentCopy_pnl, hd, Bool.not_false, Bool.true_and]

theorem showSegments_dbg : s.showSegments.flag pnlBase Reg.SEG_STATE_DBG = s.flag tbBase Reg.TB_STATUS_DBGFLAG := by
  rw [showSegments_of_lit hd, State.flag_track_apart _ _ _ _ _ _ (by decide) (by decide), State.flag_track_same _ _ _ _ (by decide) rfl]
  simp (disch := decide) only [State.flag, State.rd_track_apart, segmentCopy_rd]
  simp [State.track, segmentCopy_pnl, hd]

theorem showSegments_lastKnown : s.showSegments.flag pnlBase Reg.SEG_STATE_LASTKNOWN = s.controlDown := by
  rw [showSegments_of_lit hd, State.flag_track_same _ _ _ _ (by decide) rfl]
  simp (disch := decide) only [controlDown_eq, State.rd_track_apart, segmentCopy_rd]
  simp [State.track, segmentCopy_pnl, hd]

theorem showSegments_copies (hc : s.controlDown = false) :
    s.showSegments.rd pnlBase Reg.SEG_STATE_ADDR = s.rd modBase Reg.MOD_ADDR_ADDR ∧ s.showSegments.rd pnlBase Reg.SEG_STATE_STATE = s.mst ∧
    s.showSegments.flag pnlBase Reg.SEG_STATE_MODE = s.tabor ∧
    s.showSegments.flag pnlBase Reg.SEG_STATE_ERR = (s.rd modBase Reg.MOD_ERR_STFAIL != 0) := by
  have hcopy : segmentCopy s = s.copySegments := if_neg (by rw [hc]; decide)
  simp (disch := decide) only [showSegments_of_lit hd, State.rd_track_apart, State.flag_track_apart, hcopy]
  exact copySegments_copies s

end display

/-- The last part of `settle` gives the display its copy, and writes nothing that the copy is of. -/
theorem showSegments_segmentsShown (s : State) : SegmentsShown s.showSegments := by
  have hpnl : s.showSegments.pnl = s.pnl := by obtain ⟨r, h⟩ := OnlyRegs.showSegments s; rw [h]
  have hrd : ∀ (b : Nat) (g : Field), b + g.off ≠ pnlBase + Reg.SEG_STATE_STATE.off → s.showSegments.rd b g = s.rd b g := by
    intro b g h
    have n := apart_display h
    exact s.showSegments_rd b g (n _ rfl) (n _ rfl) (n _ rfl) (n _ rfl) (n _ rfl) (n _ rfl) (n _ rfl)
  have hflag : ∀ (b : Nat) (g : Field), b + g.off ≠ pnlBase + Reg.SEG_STATE_STATE.off → s.showSegments.flag b g = s.flag b g :=
    fun b g h => by simp only [State.flag, hrd b g h]
  have hdown : s.showSegments.controlDown = s.controlDown := congrArg (· == 1) (hrd modBase controlFault (by decide))
  intro hd
  rw [hpnl] at hd
  rw [hdown, State.mst, State.tabor, hrd _ Reg.MOD_ADDR_ADDR (by decide), hrd _ Reg.MOD_STATE_STATE (by decide), hrd _ Reg.MOD_ERR_STFAIL (by decide),
    hrd _ Reg.TB_STATUS_TSTATE (by decide), hflag _ Reg.MOD_MODE_MODE (by decide), hflag _ Reg.TB_STATUS_HWSAFE (by decide),
    hflag _ Reg.TB_STATUS_DBGFLAG (by decide)]
  exact ⟨showSegments_copies hd, showSegments_safe hd, showSegments_dbg hd, showSegments_lastKnown hd⟩

theorem settle_segmentsShown (s : State) : SegmentsShown s.settle := showSegments_segmentsShown _

/-! Every command ends with it. -/

/-- The outcome is a next state in which the followers have been brought up to date. -/
def EndsSettled (o : Host.Outcome State Fault Refusal) : Prop := ∃ u : State, o = .next u.settle

namespace EndsSettled

theorem done (u : State) : EndsSettled (done u) := ⟨u, rfl⟩

theorem command (p : Port) (f : State → Code × State) (s : State) : EndsSettled (command p f s) := by
  obtain h | ⟨c, h⟩ | h := command_cases p f s <;> exact ⟨_, h⟩

theorem commandHeld (p : Port) (f : State → Option Code × State) (s : State) : EndsSettled (commandHeld p f s) := by
  obtain ⟨u, h, -⟩ := commandHeld_cases p f s
  exact ⟨u, h⟩

theorem ite {c : Prop} [Decidable c] {o p : Host.Outcome State Fault Refusal} (ho : EndsSettled o) (hp : EndsSettled p) :
    EndsSettled (if c then o else p) := by split <;> assumption

theorem execModCmdRestart (p : Port) (s : State) : EndsSettled (execModCmdRestart p s) := by
  unfold Machine.execModCmdRestart
  split
  · exact .done _
  · exact .ite (.done _) (.done _)

theorem execClockFault (k : ClockId) (s : State) : EndsSettled (execClockFault k s) := by
  cases k with
  | rootPll | divided | refNa | refNb | refCh => exact .done _

theorem execMailboxRead (p : Port) (m : Fin 32) (during : List CanFrame) (s : State) : EndsSettled (execMailboxRead p m during s) :=
  .command ..

theorem execRecClear (p : Port) (o : NvOutcome) (s : State) : EndsSettled (execRecClear p o s) := .command ..

/-- A row of the table is a happening, which ends in `done`, or a command from a port, answered at once or by a later decision; RESTART and REINT, which the
PWR block also serves, the update request, which the renderer also makes, and the clock fault, which is a reset where the root PLL is lost, choose between these. -/
theorem exec (i : Instr) (s : State) : EndsSettled (exec i s) := by
  cases i with
  | modCmdRestart p => exact .execModCmdRestart p s
  | clockFault k => exact .execClockFault k s
  | mailboxRead p m during => exact .execMailboxRead p m during s
  | recClear p o => exact .execRecClear p o s
  | blockReintegrate | updateRequest => exact .ite (.done _) (.command ..)
  | tripReset | axisRateWrite => exact .commandHeld ..
  | modCmdNop | modCmdRun | modCmdStop | modCmdService | modCmdServiceExit | modCmdRelease | debugAttach | debugDetach | debugNop | imgOpen | recordUnit
  | imgValidate | imgSave | imgCommit | imgAbort | imgNop | keyInstall | keyRevoke | keyNop | cellClear | cellTestEnter | cellTestLeave | forceWrite |
  functionParameterWrite | loopModeRequest | loopStagedWrite | gainSelect | detuneReset | syncBlock | bypass | causeAck | retest | hartRequest |
  trimCaplo | trimCaphi | trimApply | trimClear | trimDiscard | trimNop | rearm | homingGo | homingAbort | descriptorPost | ringTxen | ringTxdis |
  ringRxen | ringRxdis | txresume | rxresume | iommuInvalidate | switch | storedRegisterWrite | tmSet | canRecover | txRequest | txCancel
  | recFreeze | recUnfreeze | frameBufferWrite | hutest | modeNextWrite => exact .command ..
  | resetSource | railsGoodPllLocked | selftestComplete | enumWindowClose | chimeHeadStart | chimeToken | chimeEnd | chimeClash | chimeReq |
  bootBankRead | autostart | safetyRelevantFault | lockstepOutputMismatch | clapperFault | delayFault | safeInNTransition | safeInHardwireTimeout |
  backgroundCompare | resyncRelease | openComplete | validateComplete | saveComplete | preparationComplete | bootBankUpdate | strokeBoundary |
  evaluationWindowOpen | evaluationWindowClose | blockError | regionFault | blockRecover | faultRetry | recoverComplete | oscillationDetect |
  detuneRelax | resultSet | syncArm | permitRise | permitFall | phasorEventPickup | phasorInvalidTimeout | tocsinScan | scanWatchdogExpiry |
  matrixCrcCheck | safetyPduReceive | safetyConnectionTimeout | safetyPduSend | bypassExpiry | retestComplete | converterResult | burnOutTest |
  referenceSelfCheck | complianceSample | complianceEntry | complianceExit | outputOpenLoop | outputStageFault | channelSupplyFailure | hartPoll |
  hartReply | hartNoReply | hartPassThroughComplete | inputFilterSettle | fieldSupplySample | fieldSupplyConditionSet | fieldSupplyConditionClear |
  shedRestore | cellWatchdogExpiry | blockLinkLoss | wiringFault | supervisionFaultSet | supervisionFaultClear | profileUpdate | holdCurrent |
  limitInputChange | limitChatterClear | homingSwitchFound | homingRestEnd | homingReferenceEdge | homingTimeout | homingNoIndex | encoderError | stall
  | stallClear | chopsat | motorSupplyConditionSet | motorSupplyConditionClear | axisFault | chainLinkTrained | chainLinkLoss | alignmentFlit |
  chainFrameReceive | frameForward | piFrame | chainSafetyFrame | peerTimeout | bulkFrame | bulknak | receiveMessageTimeout | descriptorStart |
  descriptorComplete | midTransferFault | descriptorAccessFault | sfpInsert | sfpDiagnostics | networkLinkChange | cyclicFrame | networkSafetyFrame |
  safetyFrameSend | lastgaspReceive | mreq | arpRequest | icmpEcho | switchoverTrigger | callFollow | callEnd | islandFault | syncMessage | delayReqSend
  | delayResp | announce | holdoverTimeout | followerCompare | chainSyncSend | chainAnnounceSend | chainDelayReq | canIntegration | canErrorStateChange
  | busOffRecovery | canFrameReceive | remoteFrame | canFrameStart | canTxDone | canTxError | mailboxTimeout | transceiverSupplyFault | scrubStep |
  journalTransactionCommit | journalApply | blockRetirement | wearLevelExchange | occurrenceTake | summaryWrite | intervalEnd | freezeTimeout |
  panelFrame | panelTemperature | pageRender | pageStale | initUpdateComplete | bankMeasurementComplete | hulowTimeout | powerFail | bankExhausted |
  powerFailSequenceEnd | supPresent | readRegisters | writeRegisters | pairDiscard | unsupportedMessage | alarmQueueAccept | alarmQueueRead |
  alarmAcknowledge | timeSet | managementRequest | readTransaction | writeTransaction | heldWriteDecision | receiveFilterDrop | canReceiveError |
  transceiverSupplyGood | referenceClockReturn | regionFaultClear | suplow | huready | sfpRemove => exact .done _

end EndsSettled

/-- Settles O58: a cycle of the clock moves the time base alone, and every command ends in `settle`, which brings the fields that follow up to date. -/
theorem stepsKeepTheMirrors : Obligations.StepsKeepTheMirrors := by
  unfold Obligations.StepsKeepTheMirrors
  intro s t hm hs h
  obtain ⟨-, rfl⟩ | ⟨i, rest, -, h⟩ := step_cases s t h
  · exact ⟨hm, hs⟩
  · obtain ⟨u, hu⟩ := EndsSettled.exec i { s with pending := rest }
    obtain rfl : u.settle = t := by rw [hu] at h; exact Host.Outcome.next.inj h
    exact ⟨settle_mirrored u, settle_segmentsShown u⟩

end Sys2Proof
end

