-- ==== Sys2Proof/Proofs/SafetyConnections.lean ====
section
/-! Safety connections (R167, R169 to R171): what a PDU received does to its connection, and what one sent leaves. -/

namespace Sys2Proof

open Sys2Proof.Machine

variable {s : State}

/-! Connections. -/

theorem settle_conn (s : State) (id : Nat) : s.settle.conn id = s.conn id := by rw [State.conn, State.settle_toc, State.conn]

theorem conn_modConn (s : State) (id : Nat) (f : SafeConn → SafeConn) : (s.modConn id f).conn id = f (s.conn id) :=
  (Store.get_set _ _ _ _ _).trans (if_pos rfl)

/-- A change of a connection's state is no change of a register. -/
theorem regsKept_modConn (s : State) (id : Nat) (f : SafeConn → SafeConn) : RegsKept [] s (s.modConn id f).settle :=
  ((RegsBut.refl [] s).same).settled

/-! Reception (R169, R170). -/

/-- A PDU with the right CRC, no reserved flag and nothing in RES. -/
structure WellFormedPdu (pdu : BitVec 128) : Prop where
  crc : pduCrc pdu = pduCrcField pdu
  flags : pduFlags pdu < 2
  res : pduRes pdu = 0

theorem receivePdu_wellFormed {pdu : BitVec 128} (h : WellFormedPdu pdu) :
    ¬ (pduCrc pdu ≠ pduCrcField pdu ∨ 2 ≤ pduFlags pdu ∨ pduRes pdu ≠ 0) := by
  rintro (hc | hf | hr)
  · exact hc h.crc
  · exact absurd h.flags (Nat.not_lt.mpr hf)
  · exact hr h.res

/-- What a connection holds once it has accepted a PDU. -/
def acceptedConn (pdu : BitVec 128) (c : SafeConn) : SafeConn :=
  { c with lastSeq := BitVec.ofNat 16 (pduSeq pdu), chained := true, valid := c.valid || c.chained, senderSafe := pduFlags pdu % 2 == 1,
           bits := BitVec.ofNat 32 (pduBits pdu) }

/-- A PDU that follows the last one within the window is accepted. -/
theorem receivePdu_accepts {pdu : BitVec 128} {r : Record} {l : List Record} (h : WellFormedPdu pdu) (hr : s.connRecs (pduConn pdu) = r :: l)
    (hs : (s.conn (pduConn pdu)).seen = true) (hpos : 0 < (BitVec.ofNat 16 (pduSeq pdu) - (s.conn (pduConn pdu)).lastSeq).toNat)
    (hwin : (BitVec.ofNat 16 (pduSeq pdu) - (s.conn (pduConn pdu)).lastSeq).toNat ≤ tiSeqWin r) :
    ∃ f, s.receivePdu pdu = s.modConn (pduConn pdu) f ∧ f (s.conn (pduConn pdu)) = acceptedConn pdu (s.conn (pduConn pdu)) := by
  unfold State.receivePdu
  rw [if_neg (receivePdu_wellFormed h), hr]
  refine ⟨_, rfl, ?_⟩
  simp only [hs, hpos.ne', hwin, Bool.not_true, Bool.false_eq_true, if_false, if_true, acceptedConn]

theorem safetyPduReceive_badCrc (s : State) (pdu : BitVec 128) (h : pduCrc pdu ≠ pduCrcField pdu) :
    exec (.safetyPduReceive pdu) s = .next (s.bump tbBase Reg.TB_SCFAIL_CRCERR).settle := congrArg done (if_pos (.inl h))

theorem safetyPduReceive_unknown (s : State) (pdu : BitVec 128) (hc : pduCrc pdu = pduCrcField pdu) (hf : pduFlags pdu < 2) (hr : pduRes pdu = 0)
    (hn : s.connRecs (pduConn pdu) = []) : exec (.safetyPduReceive pdu) s = .next (s.bump tbBase Reg.TB_SCFAIL_UNKNOWN).settle := by
  have h : s.receivePdu pdu = s.bump tbBase Reg.TB_SCFAIL_UNKNOWN := by
    unfold State.receivePdu
    rw [if_neg (receivePdu_wellFormed ⟨hc, hf, hr⟩), hn]
  exact congrArg done h

theorem safetyPduReceive_accepted (s : State) (pdu : BitVec 128) (r : Record) (l : List Record) (hc : pduCrc pdu = pduCrcField pdu)
    (hf : pduFlags pdu < 2) (hr : pduRes pdu = 0) (hrec : s.connRecs (pduConn pdu) = r :: l) (hs : (s.conn (pduConn pdu)).seen = true)
    (hpos : 0 < (BitVec.ofNat 16 (pduSeq pdu) - (s.conn (pduConn pdu)).lastSeq).toNat)
    (hwin : (BitVec.ofNat 16 (pduSeq pdu) - (s.conn (pduConn pdu)).lastSeq).toNat ≤ tiSeqWin r) :
    Answers (.safetyPduReceive pdu) s fun t =>
      (t.conn (pduConn pdu)).bits = BitVec.ofNat 32 (pduBits pdu) ∧ (t.conn (pduConn pdu)).lastSeq = BitVec.ofNat 16 (pduSeq pdu) ∧
      (t.conn (pduConn pdu)).valid = ((s.conn (pduConn pdu)).valid || (s.conn (pduConn pdu)).chained) ∧ RegsKept [] s t := by
  obtain ⟨f, he, hacc⟩ := receivePdu_accepts ⟨hc, hf, hr⟩ hrec hs hpos hwin
  have hcn : (s.modConn (pduConn pdu) f).settle.conn (pduConn pdu) = acceptedConn pdu (s.conn (pduConn pdu)) := by rw [settle_conn, conn_modConn, hacc]
  exact ⟨_, congrArg done he, congrArg SafeConn.bits hcn, congrArg SafeConn.lastSeq hcn, congrArg SafeConn.valid hcn, regsKept_modConn _ _ _⟩

/-- What a connection holds once its time has run out. -/
def timedOutConn (c : SafeConn) : SafeConn := { c with valid := false, seen := false, chained := false, timeouts := sat16 c.timeouts }

theorem safetyConnectionTimeout_valid (s : State) (id : BitVec 32) (hv : (s.conn id.toNat).valid = true) :
    Answers (.safetyConnectionTimeout id) s fun t =>
      (t.conn id.toNat).valid = false ∧ (t.conn id.toNat).timeouts = sat16 (s.conn id.toNat).timeouts ∧
      (t.conn id.toNat).bits = (s.conn id.toNat).bits ∧ RegsKept [] s t := by
  have hcn : (s.modConn id.toNat timedOutConn).settle.conn id.toNat = timedOutConn (s.conn id.toNat) := by rw [settle_conn, conn_modConn]
  exact ⟨(s.modConn id.toNat timedOutConn).settle, congrArg done (if_pos hv), congrArg SafeConn.valid hcn, congrArg SafeConn.timeouts hcn,
    by rw [hcn]; rfl, regsKept_modConn _ _ _⟩

/-! Transmission (R171). -/

/-- The sequence number of transmitted connection `n` rises, and the scans since its last PDU start again. -/
def Machine.State.nextTx (s : State) (n : Nat) : State :=
  s.modToc fun t => { t with tx := Store.set (0, 0) t.tx n ((Store.get (0, 0) s.toc.tx n).1 + 1, 0) }

/-- A PDU is handed to the safety class. -/
def Machine.State.handPdu (s : State) (pdu : BitVec 128) : State := (s.emit (.pdu pdu)).modNet fun x => { x with outPdus := x.outPdus ++ [pdu] }

/-- The PDU leaves: it is handed to the safety class, and a frame carries it on the chain. -/
def Machine.State.sentPdu (s : State) (n : Nat) (pdu : BitVec 128) : State := ((s.nextTx n).handPdu pdu).sendChain ((s.nextTx n).safetyFrame pdu)

/-- The frame changes the chain state and what has left alone. -/
theorem sentPdu_state (s : State) (n : Nat) (pdu : BitVec 128) :
    (s.sentPdu n pdu).net.outPdus = s.net.outPdus ++ [pdu] ∧
    Store.get (0, 0) (s.sentPdu n pdu).toc.tx n = ((Store.get (0, 0) s.toc.tx n).1 + 1, 0) ∧ RegsBut [] s (s.sentPdu n pdu) := by
  obtain ⟨c, o, h⟩ := (OnlySends.sendChain ((s.nextTx n).safetyFrame pdu) ((s.nextTx n).handPdu pdu)).self
  rw [State.sentPdu, h]
  exact ⟨rfl, (Store.get_set _ _ _ _ _).trans (if_pos rfl), (RegsBut.refl [] s).same⟩

/-- The PDU of transmitted connection `n`, whose outputs are those of `l`, the first of them `k`. -/
def Machine.State.nextPdu (s : State) (n k : Nat) (l : List (Nat × Record)) : BitVec 128 :=
  s.buildPdu (recU32 (getRec s.img.active T_TRIP 3 (toId k)) 0) (Store.get (0, 0) s.toc.tx n).1.toNat l

/-- The connection's PDU is due: it has outputs, Tocsin scans, and TXPER scans have passed. -/
theorem safetyPduSend_due {n : Fin 8} {k : Nat} {r : Record} {l : List (Nat × Record)} (ho : s.txOuts n.val = (k, r) :: l) (hs : s.scanning = true)
    (hper : recU16 (getRec s.img.active T_TRIP 3 (toId k)) 4 ≤ (Store.get (0, 0) s.toc.tx n.val).2) :
    Answers (.safetyPduSend n) s fun t =>
      t.net.outPdus = s.net.outPdus ++ [s.nextPdu n.val k ((k, r) :: l)] ∧
      Store.get (0, 0) t.toc.tx n.val = ((Store.get (0, 0) s.toc.tx n.val).1 + 1, 0) ∧ RegsKept [] s t := by
  have hdue : (s.scanning && decide (recU16 (getRec s.img.active T_TRIP 3 (toId k)) 4 ≤ (Store.get (0, 0) s.toc.tx n.val).2)) = true := by
    rw [hs, decide_eq_true hper, Bool.true_and]
  have hx : execSafetyPduSend n s = .next (s.sentPdu n.val (s.nextPdu n.val k ((k, r) :: l))).settle := by
    unfold execSafetyPduSend
    rw [ho]
    exact congrArg done (if_pos hdue)
  obtain ⟨hnet, htx, hregs⟩ := sentPdu_state s n.val (s.nextPdu n.val k ((k, r) :: l))
  exact ⟨_, hx, by rw [State.settle_net, hnet], by rw [State.settle_toc, htx], hregs.settled⟩

/-- Settles O15: a PDU received changes one connection or one counter, and a PDU sent leaves the registers alone whether or not the chain carries it. -/
theorem safetyConnectionsReceiveAndSend : Obligations.SafetyConnectionsReceiveAndSend := by
  unfold Obligations.SafetyConnectionsReceiveAndSend
  refine ⟨safetyPduReceive_badCrc, safetyPduReceive_unknown, safetyPduReceive_accepted, safetyConnectionTimeout_valid,
    fun s n k r l ho hs hper _ _ => ?_, fun s n k r l ho hs hper => ?_⟩
  · obtain ⟨t, hx, hnet, htx, hregs⟩ := safetyPduSend_due ho hs hper
    exact ⟨t, hx, hnet, congrArg Prod.fst htx, hregs⟩
  · obtain ⟨t, hx, hnet, htx, -⟩ := safetyPduSend_due ho hs hper
    exact ⟨t, hx, hnet, htx⟩

end Sys2Proof
end

