-- ==== Sys2Proof/Proofs/TripCommands.lean ====
section
/-! Trip resets, bypasses, acknowledgements and the self-test of Tocsin (R178, R179, R189, R503). -/

namespace Sys2Proof

open Sys2Proof.Machine

variable {s : State} {p : Port}

/-! Trip inputs and trip resets (R178). -/

theorem settle_tin (s : State) (n : Nat) : s.settle.tin n = s.tin n := by rw [State.tin, State.settle_toc, State.tin]

theorem tin_modTin (s : State) (n : Nat) (f : TripIn → TripIn) : (s.modTin n f).tin n = f (s.tin n) := (Store.get_set _ _ _ _ _).trans (if_pos rfl)

/-- An event's occurrence concerns the recorder alone. -/
theorem occur_toc (s : State) (src index : Nat) (mag : Rat) (key sig : Nat) : (s.occur src index mag key sig).toc = s.toc := by
  obtain h | ⟨o, -, -, -, -, h⟩ := s.occur_cases src index mag key sig <;> rw [h] <;> rfl

theorem tripReset_waits (s : State) (p : Port) (o : Fin 128) (h : Served s p) (hx : s.exists_ (toId o.val) = true) (hs : s.scanning = true) :
    exec (.tripReset p o) s = .next (s.modToc fun t => { t with resets := t.resets ++ [(o.val, some p)] }).settle := by
  have hd : decideTripReset (some p) o.val s = (none, s.modToc fun t => { t with resets := t.resets ++ [(o.val, some p)] }) := by
    rw [decideTripReset, hx, hs]
    rfl
  show commandHeld p (decideTripReset (some p) o.val) s = _
  simp only [commandHeld, gate_served s p h, hd, done_eq]

theorem tripReset_absent (s : State) (p : Port) (o : Fin 128) (h : Served s p) (hx : s.exists_ (toId o.val) = false) :
    exec (.tripReset p o) s = .next (s.answer p E_STATE).settle := by
  have hd : decideTripReset (some p) o.val s = (some E_STATE, s) := by rw [decideTripReset, hx]; rfl
  exact (commandHeld_served p _ s E_STATE h (by rw [hd])).trans (by rw [hd])

/-! A command that its decision refuses, and one that it takes. -/

theorem command_decided {f : State → Code × State} {c : Code} {t : State} (h : Served s p) (hd : f s = (c, t)) :
    command p f s = .next (t.answer p c).settle := by rw [command_served p f s h, hd]

/-! Bypasses (R179). -/

section bypass

variable {n : Nat} {r : Record}

theorem decideBypass_port (hp : p ≠ .service) : decideBypass p n s = (E_ACCESS, s) := if_pos hp

theorem decideBypass_state (hm : s.mst ∉ [stRun, stService]) : decideBypass .service n s = (E_STATE, s) := by
  have hin : s.mstIn [stRun, stService] = false := by rw [State.mstIn, List.contains_eq_mem, decide_eq_false hm]
  simp [decideBypass, hin]

variable (hm : s.mst ∈ [stRun, stService])
include hm

theorem decideBypass_unconfigured (hr : s.tripin (s.rd tbBase Reg.TB_TISEL_INPUT) = none) : decideBypass .service n s = (E_RANGE, s) := by
  have hin : s.mstIn [stRun, stService] = true := List.contains_iff_mem.mpr hm
  simp [decideBypass, hin, hr]

theorem decideBypass_locked (hr : s.tripin (s.rd tbBase Reg.TB_TISEL_INPUT) = some r) (hb : tiBypMax r = 0) :
    decideBypass .service n s = (E_LOCKED, s) := by
  have hin : s.mstIn [stRun, stService] = true := List.contains_iff_mem.mpr hm
  simp [decideBypass, hin, hr, hb]

theorem decideBypass_tooLong (hr : s.tripin (s.rd tbBase Reg.TB_TISEL_INPUT) = some r) (hb : tiBypMax r ≠ 0) (hn : 60 * tiBypMax r < n) :
    decideBypass .service n s = (E_RANGE, s) := by
  have hin : s.mstIn [stRun, stService] = true := List.contains_iff_mem.mpr hm
  simp [decideBypass, hin, hr, hb, hn]

end bypass

/-- Input `i` is bypassed for `n` seconds from now on; the recorder takes it, and NBYP follows. -/
def Machine.State.bypassFor (s : State) (i n : Nat) : State :=
  ((s.modTin i fun t => { t with bypass := some (s.time.cycles + n * 500000000), granted := n }).occur 2 i n (keyOfBlock 2 24) 0).countBypasses

theorem decideBypass_granted {n : Nat} {r : Record} (hm : s.mst ∈ [stRun, stService]) (hr : s.tripin (s.rd tbBase Reg.TB_TISEL_INPUT) = some r)
    (hb : tiBypMax r ≠ 0) (h0 : 0 < n) (hn : n ≤ 60 * tiBypMax r) (hfew : s.bypassed = []) :
    decideBypass .service n s = (E_OK, s.bypassFor (s.rd tbBase Reg.TB_TISEL_INPUT) n) := by
  have hin : s.mstIn [stRun, stService] = true := List.contains_iff_mem.mpr hm
  simp [decideBypass, hin, hr, hb, hn.not_gt, h0.ne', hfew, State.bypassFor]

theorem keeps_bypassFor (s : State) (i n : Nat) : Keeps [] s (s.bypassFor i n) := (Keeps.refl _ s).modToc.occur.wrField

theorem bypassFor_tin (s : State) (i n : Nat) : ((s.bypassFor i n).tin i).bypass = some (s.time.cycles + n * 500000000) := by
  rw [State.tin, State.bypassFor, State.countBypasses, State.wr_toc, occur_toc, ← State.tin, tin_modTin]

theorem bypass_granted (s : State) (r : Record) (secs : BitVec 16) (h : Served s .service) (hm : s.mst ∈ [stRun, stService])
    (hr : s.tripin (s.rd tbBase Reg.TB_TISEL_INPUT) = some r) (hb : tiBypMax r ≠ 0) (h0 : 0 < secs.toNat) (hn : secs.toNat ≤ 60 * tiBypMax r)
    (hfew : s.bypassed = []) :
    Answers (.bypass .service secs) s fun t =>
      (t.tin (s.rd tbBase Reg.TB_TISEL_INPUT)).bypass = some (s.time.cycles + secs.toNat * 500000000) ∧
      t.outbox = s.outbox ++ [.result .service E_OK] ∧ t.mst = s.mst := by
  have hk := keeps_bypassFor s (s.rd tbBase Reg.TB_TISEL_INPUT) secs.toNat
  refine ⟨_, command_decided h (decideBypass_granted hm hr hb h0 hn hfew), ?_, ?_, ?_⟩
  · rw [settle_tin]
    exact bypassFor_tin _ _ _
  · rw [answered_outbox, hk.outbox]
  · rw [answered_mst, hk.mst]

theorem bypass_range (s : State) (secs : BitVec 16) (h : Served s .service) (hm : s.mst ∈ [stRun, stService])
    (hall : (s.tripin (s.rd tbBase Reg.TB_TISEL_INPUT)).all (fun r => tiBypMax r != 0 && decide (60 * tiBypMax r < secs.toNat)) = true) :
    exec (.bypass .service secs) s = .next (s.answer .service E_RANGE).settle := by
  refine command_decided h ?_
  cases hr : s.tripin (s.rd tbBase Reg.TB_TISEL_INPUT) with
  | none => exact decideBypass_unconfigured hm hr
  | some r =>
    simp only [hr, Option.all_some, Bool.and_eq_true, bne_iff_ne, decide_eq_true_eq] at hall
    exact decideBypass_tooLong hm hr hall.1 hall.2

/-- Before the scan that ends it, the bypass's time has run out. -/
def Machine.State.runOut (s : State) (i : Nat) : State := s.modTin i fun t => { t with bypass := some s.time.cycles }

theorem endBypass_tin {i : Nat} (h : (s.tin i).bypass.isSome = true) : ((s.endBypass i).tin i).bypass = none := by
  unfold State.endBypass
  rw [if_pos h, State.tin, State.countBypasses, State.wr_toc, occur_toc, ← State.tin, tin_modTin]

theorem bypassExpiry_ends (s : State) (i : Fin 256) (h : (s.tin i.val).bypass.isSome = true) :
    Answers (.bypassExpiry i) s fun t => (t.tin i.val).bypass = none ∧ t.mst = s.mst := by
  have hx : exec (.bypassExpiry i) s = .next ((s.runOut i.val).endBypass i.val).settle := by
    show done _ = _
    rw [h]
    rfl
  have hk : Keeps [] s ((s.runOut i.val).endBypass i.val) := (Keeps.refl _ s).modToc.endBypass
  refine ⟨_, hx, ?_, ?_⟩
  · rw [settle_tin]
    exact endBypass_tin (by rw [State.runOut, tin_modTin]; rfl)
  · rw [State.settle_mst, hk.mst]

/-! Acknowledgement (R189). -/

theorem causeLatched_iff (s : State) (c : Cause) : s.causeLatched c = s.causes.testBit (causeCode c - 1) := by
  rw [State.causeLatched, bitSet, Nat.testBit_eq_decide_div_mod_eq]
  rfl

/-- Taking a bit that is set from the six of LATCHED clears it. -/
theorem testBit_sub_twoPow {i m : Nat} (hi : i < 6) (hm : m < 64) (h : m.testBit i = true) : (m - 2 ^ i).testBit i = false := by
  have all : ∀ i < 6, ∀ m < 64, m.testBit i = true → (m - 2 ^ i).testBit i = false := by decide
  exact all i hi m hm h

theorem Keeps.clearCause {l : List (Nat × Field)} {t : State} {c : Cause} (h : Keeps l s t) (hm : (tbBase, Reg.TB_CAUSE_LATCHED) ∈ l := by decide) :
    Keeps l s (t.clearCause c) := .ite (((h.wrListed hm).when fun _ h => h.wrField).when fun _ h => h.wrField) h

theorem clearCause_causeLatched (s : State) (c : Cause) : (s.clearCause c).causeLatched c = false := by
  unfold State.clearCause
  split
  · next hl =>
    have hrest : Keeps [] (s.wr tbBase Reg.TB_CAUSE_LATCHED (s.causes - 2 ^ (causeCode c - 1))) (s.clearCause c) := by
      unfold State.clearCause
      rw [if_pos hl]
      exact ((Keeps.refl _ _).when fun _ h => h.wrField).when fun _ h => h.wrField
    have hlt : s.causes < 2 ^ 6 := s.rd_lt tbBase Reg.TB_CAUSE_LATCHED
    have hcauses : (s.clearCause c).causes = s.causes - 2 ^ (causeCode c - 1) :=
      hrest.causes.trans <| (State.rd_wr_same _ _ _ _ (by decide)).trans (Nat.mod_eq_of_lt (Nat.lt_of_le_of_lt (Nat.sub_le _ _) hlt))
    rw [State.clearCause, if_pos hl] at hcauses
    rw [causeLatched_iff, hcauses]
    exact testBit_sub_twoPow (by cases c <;> decide) hlt (by rwa [← causeLatched_iff])
  · next hl => exact Bool.eq_false_iff.mpr hl

theorem causeAck_safeIn (s : State) (p : Port) (h : Served s p) (hl : s.causeLatched .safeIn = true) (hi : s.toc.safeIn = true)
    (hd : s.causeLatched .dormantCp0 = false) :
    Answers (.causeAck p) s fun t => t.causeLatched .safeIn = false ∧ t.outbox = s.outbox ++ [.result p E_OK] ∧ t.mst = s.mst := by
  have hack : decideCauseAck s = (E_OK, s.clearCause .safeIn) := by simp [decideCauseAck, hl, hi, hd, State.when]
  have hk : Keeps [(tbBase, Reg.TB_CAUSE_LATCHED)] s (s.clearCause .safeIn) := (Keeps.refl _ s).clearCause
  refine ⟨_, command_decided h hack, ?_, ?_, ?_⟩
  · rw [settle_causeLatched]
    exact clearCause_causeLatched s .safeIn
  · rw [answered_outbox, hk.outbox]
  · rw [answered_mst, hk.mst]

theorem causeAck_none (s : State) (p : Port) (h : Served s p) (h0 : s.causes = 0) : exec (.causeAck p) s = .next (s.answer p E_STATE).settle := by
  have hn : ∀ c, s.causeLatched c = false := fun c => by rw [causeLatched_iff, h0, Nat.zero_testBit]
  exact command_decided h (by simp [decideCauseAck, hn])

/-! The self-test (R503). -/

theorem retest_starts (s : State) (p : Port) (h : Served s p) (hm : s.mst = stSafe) (hr : s.flag tbBase Reg.TB_STATUS_RETESTING = false) :
    exec (.retest p) s = .next ((s.setFlag tbBase Reg.TB_STATUS_RETESTING true).answer p E_OK).settle :=
  command_decided h (by simp [decideRetest, hm, hr])

theorem retest_refused (s : State) (p : Port) (h : Served s p) (hm : s.mst ≠ stSafe) : exec (.retest p) s = .next (s.answer p E_STATE).settle :=
  command_decided h (if_pos hm)

/-- The self-test has passed. -/
def Machine.State.passed (s : State) : State := (s.setFlag tbBase Reg.TB_STATUS_RETESTING false).setFlag tbBase Reg.TB_STATUS_STPASS true

/-- CP0 goes on scanning where nothing else holds it. -/
def Machine.State.resumed (s : State) : State :=
  s.when (!s.causeLatched .tstFail && !s.toc.hardCp0 && !(s.causeLatched .dormantCp0 && !s.toc.cp0Ok)) fun s => s.setFlag (cpBase 0) Reg.CP_STATUS_HELD false

/-- What a passed self-test writes. -/
def retestFields : List (Nat × Field) :=
  [(tbBase, Reg.TB_STATUS_RETESTING), (tbBase, Reg.TB_STATUS_STPASS), (tbBase, Reg.TB_CAUSE_LATCHED), (cpBase 0, Reg.CP_STATUS_HELD)]

theorem passed_rd (s : State) (b : Nat) (g : Field) (h1 : Apart b g tbBase Reg.TB_STATUS_RETESTING) (h2 : Apart b g tbBase Reg.TB_STATUS_STPASS) :
    s.passed.rd b g = s.rd b g :=
  (State.rd_setFlag_apart _ _ _ _ _ _ (by decide) h2).trans (State.rd_setFlag_apart _ _ _ _ _ _ (by decide) h1)

theorem keeps_resumed (s : State) : Keeps [(cpBase 0, Reg.CP_STATUS_HELD)] s s.resumed := (Keeps.refl _ s).when fun _ h => h.setFlagListed

/-- A self-test that passes clears TST_FAIL, unless its subcode is 5 or debug has split CP0. -/
theorem exec_retestComplete (hr : s.flag tbBase Reg.TB_STATUS_RETESTING = true) (hsub : s.rd tbBase Reg.TB_CAUSE_SUB ≠ 5)
    (hsplit : s.flag (cpBase 0) Reg.CP_STATUS_SPLIT = false) :
    exec (.retestComplete 0) s = .next (s.passed.clearCause .tstFail).resumed.settle := by
  have hclears : (s.passed.rd tbBase Reg.TB_CAUSE_SUB != 5 && !s.passed.flag (cpBase 0) Reg.CP_STATUS_SPLIT) = true := by
    rw [State.flag, passed_rd s _ _ (by decide) (by decide), passed_rd s _ _ (by decide) (by decide), ← State.flag, hsplit, bne_iff_ne.mpr hsub]
    rfl
  have hw : s.passed.when (s.passed.rd tbBase Reg.TB_CAUSE_SUB != 5 && !s.passed.flag (cpBase 0) Reg.CP_STATUS_SPLIT) (fun s => s.clearCause .tstFail) =
      s.passed.clearCause .tstFail := if_pos hclears
  have hx : execRetestComplete 0 s = done
      (s.passed.when (s.passed.rd tbBase Reg.TB_CAUSE_SUB != 5 && !s.passed.flag (cpBase 0) Reg.CP_STATUS_SPLIT) (fun s => s.clearCause .tstFail)).resumed := by
    unfold execRetestComplete
    rw [if_pos hr, if_pos rfl]
    rfl
  rw [hw] at hx
  exact hx

theorem kept_retest : Kept tbBase Reg.TB_STATUS_RETESTING ∧ Kept tbBase Reg.TB_STATUS_STPASS := by decide +kernel

theorem retestComplete_passes (s : State) (hr : s.flag tbBase Reg.TB_STATUS_RETESTING = true) (hsub : s.rd tbBase Reg.TB_CAUSE_SUB ≠ 5)
    (hsplit : s.flag (cpBase 0) Reg.CP_STATUS_SPLIT = false) :
    Answers (.retestComplete 0) s fun t =>
      t.flag tbBase Reg.TB_STATUS_RETESTING = false ∧ t.flag tbBase Reg.TB_STATUS_STPASS = true ∧ t.causeLatched .tstFail = false ∧ t.mst = s.mst := by
  obtain ⟨kretesting, kstpass⟩ := kept_retest
  have hk : Keeps [(tbBase, Reg.TB_CAUSE_LATCHED), (cpBase 0, Reg.CP_STATUS_HELD)] s.passed (s.passed.clearCause .tstFail).resumed :=
    (Keeps.refl _ _).clearCause.when fun _ h => h.setFlagListed
  have hp : Keeps retestFields s s.passed := (Keeps.refl _ s).setFlagListed.setFlagListed
  refine ⟨_, exec_retestComplete hr hsub hsplit, ?_, ?_, ?_, ?_⟩
  · rw [State.settle_flag _ _ _ (by decide), hk.flag _ _ kretesting (by decide), State.passed, flag_setFlag_apart _ _ _ _ _ _ (by decide) (by decide)]
    exact State.flag_setFlag_same _ _ _ _ (by decide) rfl
  · rw [State.settle_flag _ _ _ (by decide), hk.flag _ _ kstpass (by decide)]
    exact State.flag_setFlag_same _ _ _ _ (by decide) rfl
  · rw [settle_causeLatched, State.causeLatched, (keeps_resumed _).causes]
    exact clearCause_causeLatched _ _
  · rw [State.settle_mst, hk.mst, hp.mst]

/-- Settles O16: each command by its decision, and the happenings by what they write. -/
theorem resetsBypassesAndAcknowledgements : Obligations.ResetsBypassesAndAcknowledgements := by
  unfold Obligations.ResetsBypassesAndAcknowledgements
  exact ⟨tripReset_waits, tripReset_absent, bypass_granted, fun _ _ _ h hp => command_decided h (decideBypass_port hp),
    fun _ _ h hm => command_decided h (decideBypass_state hm), bypass_range,
    fun _ _ _ h hm hr hb => command_decided h (decideBypass_locked hm hr hb), bypassExpiry_ends, causeAck_safeIn, causeAck_none, retest_starts,
    retest_refused, retestComplete_passes⟩

end Sys2Proof
end

