-- ==== Sys2Proof/Proofs/Lockstep.lean ====
section
/-! Lockstep pairs (R192, R193, R195): the background compare, the release after a resynchronisation, and debug access. -/

namespace Sys2Proof

open Sys2Proof.Machine

variable {s t : State} {l : List (Nat × Field)}

/-! The background compare (R192). -/

/-- Pair `n` compares, where it does, and counts. -/
def Machine.State.countCompare (s : State) (n : Nat) : State :=
  if s.compares n then s.wrw (cpBase n) Reg.CP_CMPCNT (s.rdw (cpBase n) Reg.CP_CMPCNT + 1) else s

/-- The registers in which the pairs count. -/
def compareRegs : List Nat :=
  [cpBase 0 + Reg.CP_CMPCNT.off, cpBase 1 + Reg.CP_CMPCNT.off, cpBase 2 + Reg.CP_CMPCNT.off, cpBase 3 + Reg.CP_CMPCNT.off]

theorem cmpcnt_mem {n : Nat} (h : n < 4) : cpBase n + Reg.CP_CMPCNT.off ∈ compareRegs := by
  have all : ∀ n < 4, cpBase n + Reg.CP_CMPCNT.off ∈ compareRegs := by decide
  exact all n h

theorem status_not_compareReg {n : Nat} (h : n < 4) : cpBase n + Reg.CP_STATUS_HELD.off ∉ compareRegs := by
  have all : ∀ n < 4, cpBase n + Reg.CP_STATUS_HELD.off ∉ compareRegs := by decide
  exact all n h

theorem cmpcnt_inj {n k : Nat} (hn : n < 4) (hk : k < 4) (h : cpBase n + Reg.CP_CMPCNT.off = cpBase k + Reg.CP_CMPCNT.off) : n = k := by
  have all : ∀ n < 4, ∀ k < 4, cpBase n + Reg.CP_CMPCNT.off = cpBase k + Reg.CP_CMPCNT.off → n = k := by decide
  exact all n hn k hk h

theorem countCompare_regs (s : State) {n : Nat} (hn : n < 4) : RegsBut compareRegs s (s.countCompare n) :=
  .ite ((RegsBut.refl _ s).wrw (cmpcnt_mem hn)) (.refl _ s)

/-- What decides that a pair compares stands in other registers. -/
theorem compares_of_regsBut (h : RegsBut compareRegs s t) {n : Nat} (hn : n < 4) : t.compares n = s.compares n := by
  unfold State.compares
  rw [h.flag _ _ (status_not_compareReg hn), h.flag _ Reg.CP_STATUS_LOCKSTEP (status_not_compareReg hn), State.mstIn, State.mst, h.rd _ _ (by decide)]
  rfl

theorem countCompare_count (s : State) {n k : Nat} (hn : n < 4) (hk : k < 4) : (s.countCompare k).rdw (cpBase n) Reg.CP_CMPCNT =
    s.rdw (cpBase n) Reg.CP_CMPCNT + (if n = k ∧ s.compares n then 1 else 0) := by
  unfold State.countCompare
  by_cases he : n = k
  · subst he
    split
    · next hc => rw [State.rdw_wrw_same, if_pos ⟨rfl, hc⟩]
    · next hc => simp [hc]
  · have hother : (s.wrw (cpBase k) Reg.CP_CMPCNT (s.rdw (cpBase k) Reg.CP_CMPCNT + 1)).rdw (cpBase n) Reg.CP_CMPCNT = s.rdw (cpBase n) Reg.CP_CMPCNT :=
      (State.reg_setReg ..).trans (if_neg fun h => he (cmpcnt_inj hn hk h))
    have hnone : (if n = k ∧ s.compares n then 1 else 0 : Word) = 0 := if_neg fun h => he h.1
    rw [hnone, add_zero]
    split
    · exact hother
    · rfl

theorem foldl_countCompare (m : List Nat) (s : State) (hm : ∀ k ∈ m, k < 4) (hd : m.Nodup) {n : Nat} (hn : n < 4) :
    (m.foldl State.countCompare s).rdw (cpBase n) Reg.CP_CMPCNT =
      s.rdw (cpBase n) Reg.CP_CMPCNT + (if n ∈ m ∧ s.compares n then 1 else 0) := by
  induction m generalizing s with
  | nil => simp
  | cons k m ih =>
    have hk := hm k List.mem_cons_self
    obtain ⟨hkm, hd⟩ := List.nodup_cons.mp hd
    rw [List.foldl_cons, ih _ (fun j hj => hm j (List.mem_cons_of_mem k hj)) hd, countCompare_count s hn hk, compares_of_regsBut (countCompare_regs s hk) hn]
    by_cases he : n = k
    · subst he
      simp [hkm]
    · simp [he]

theorem exec_backgroundCompare (s : State) : exec (.backgroundCompare 0 false) s = .next ((List.range 4).foldl State.countCompare s).settle := by
  have hb : ∀ n, bitSet (0 : BitVec 4).toNat n = false := fun n => by simp [bitSet]
  show execBackgroundCompare 0 false s = _
  simp only [execBackgroundCompare, Bool.false_and, State.when, hb, Bool.false_eq_true, if_false, done_eq]
  rfl

theorem backgroundCompare_counts (s : State) :
    Answers (.backgroundCompare 0 false) s fun t =>
      (∀ n < 4, t.rdw (cpBase n) Reg.CP_CMPCNT = s.rdw (cpBase n) Reg.CP_CMPCNT + (if s.compares n then 1 else 0)) ∧ t.mst = s.mst ∧
      RegsKept [cpBase 0 + Reg.CP_CMPCNT.off, cpBase 1 + Reg.CP_CMPCNT.off, cpBase 2 + Reg.CP_CMPCNT.off, cpBase 3 + Reg.CP_CMPCNT.off] s t := by
  have hr : RegsBut compareRegs s ((List.range 4).foldl State.countCompare s) :=
    (RegsBut.refl _ s).foldl fun u n hn h => h.trans (countCompare_regs u (List.mem_range.mp hn))
  refine ⟨_, exec_backgroundCompare s, fun n hn => ?_, ?_, hr.settled⟩
  · have hf : cpBase n + Reg.CP_CMPCNT.off ∉ followers := by
      have all : ∀ n < 4, cpBase n + Reg.CP_CMPCNT.off ∉ followers := by decide
      exact all n hn
    have h := foldl_countCompare (List.range 4) s (fun _ => List.mem_range.mp) List.nodup_range hn
    simpa only [State.rdw, State.settle_reg _ _ hf, List.mem_range, hn, true_and] using h
  · rw [State.settle_mst]
    exact hr.rd _ _ (by decide)

/-! Release (R193). -/

section release

variable (s) (pair : Fin 4) (us : Nat)

/-- The first compare after the restore has matched: the block runs again, RESYNCS counts, the recorder takes it, and CP0 is resynchronised. -/
def Machine.State.resynced (s : State) (pair us : Nat) : State :=
  (((s.when (s.blkSt 2 (25 + pair) == bkRecover) fun s => s.wr (blkBase 2 (25 + pair)) Reg.BLK_STATE_STATE bkRun).bump
    (cpBase pair) Reg.CP_DIV_RESYNCS).occur 6 pair us (keyOfBlock 2 (25 + pair)) 0).when (pair = 0) fun s => s.modToc fun t => { t with cp0Ok := true }

/-- What a release writes before it clears HELD. -/
def resyncFields (pair : Nat) : List (Nat × Field) := [(cpBase pair, Reg.BLK_STATE_STATE), (cpBase pair, Reg.CP_DIV_RESYNCS)]

theorem cpRegs_not_tripped : cpBase pair.val + Reg.BLK_STATE_STATE.off ∉ trippedRegs ∧ cpBase pair.val + Reg.CP_DIV_RESYNCS.off ∉ trippedRegs ∧
    cpBase pair.val + Reg.CP_STATUS_HELD.off ∉ trippedRegs := by
  revert pair
  decide +kernel

theorem kept_pair : Kept (cpBase pair.val) Reg.CP_STATUS_HELD ∧ Kept (cpBase pair.val) Reg.CP_DIV_RESYNCS := by
  revert pair
  decide +kernel

theorem keeps_resynced : Keeps (resyncFields pair.val) s (s.resynced pair.val us) := by
  obtain ⟨hblk, hdiv, -⟩ := cpRegs_not_tripped pair
  have hc : ∀ u, Keeps (resyncFields pair.val) s u → Keeps (resyncFields pair.val) s (u.wr (blkBase 2 (25 + pair.val)) Reg.BLK_STATE_STATE bkRun) :=
    fun _ h => h.wrListed List.mem_cons_self (by decide) hblk
  have hb : ∀ {u}, Keeps (resyncFields pair.val) s u → Keeps (resyncFields pair.val) s (u.bump (cpBase pair.val) Reg.CP_DIV_RESYNCS) :=
    fun h => h.wrListed (List.mem_cons_of_mem _ List.mem_cons_self) (by decide) hdiv
  exact (hb ((Keeps.refl _ s).when hc)).occur.when fun _ h => h.modToc

theorem resynced_count : (s.resynced pair.val us).rd (cpBase pair.val) Reg.CP_DIV_RESYNCS =
    min (s.rd (cpBase pair.val) Reg.CP_DIV_RESYNCS + 1) 65535 := by
  let u : State := s.when (s.blkSt 2 (25 + pair.val) == bkRecover) fun s => s.wr (blkBase 2 (25 + pair.val)) Reg.BLK_STATE_STATE bkRun
  have hu : u.rd (cpBase pair.val) Reg.CP_DIV_RESYNCS = s.rd (cpBase pair.val) Reg.CP_DIV_RESYNCS := by
    have hk : Keeps [(cpBase pair.val, Reg.BLK_STATE_STATE)] s u :=
      (Keeps.refl _ s).when fun _ h => h.wrListed List.mem_cons_self (by decide) (cpRegs_not_tripped pair).1
    refine hk.rd _ _ (kept_pair pair).2 fun x hx => ?_
    rw [List.mem_singleton.mp hx]
    exact .inl (by simp only [ne_eq, Nat.add_right_inj]; decide)
  have hrest : Keeps [] (u.bump (cpBase pair.val) Reg.CP_DIV_RESYNCS) (s.resynced pair.val us) := (Keeps.refl _ _).occur.when fun _ h => h.modToc
  rw [hrest.rd _ _ (kept_pair pair).2 (by simp), State.rd_bump _ _ _ (by decide), hu]
  rfl

theorem resynced_toc : (s.resynced pair.val us).toc = if pair.val = 0 then { s.toc with cp0Ok := true } else s.toc := by
  let u : State := (s.when (s.blkSt 2 (25 + pair.val) == bkRecover) fun s => s.wr (blkBase 2 (25 + pair.val)) Reg.BLK_STATE_STATE bkRun).bump
    (cpBase pair.val) Reg.CP_DIV_RESYNCS
  have hu : (u.occur 6 pair.val us (keyOfBlock 2 (25 + pair.val)) 0).toc = s.toc := by
    rw [occur_toc]
    show (State.when s _ _).toc = s.toc
    unfold State.when
    split <;> rfl
  unfold State.resynced
  by_cases h : pair.val = 0
  · rw [if_pos h, ← hu, decide_eq_true h]
    rfl
  · rw [if_neg h, ← hu, decide_eq_false h]
    rfl

/-- A release writes neither MOD.STATE nor TB.CAUSE. -/
theorem resyncFields_apart : ∀ x ∈ (cpBase pair.val, Reg.CP_STATUS_HELD) :: resyncFields pair.val,
    Apart modBase Reg.MOD_STATE_STATE x.1 x.2 ∧ Apart tbBase Reg.TB_CAUSE_LATCHED x.1 x.2 := by
  revert pair
  decide

theorem resynced_causes : (s.resynced pair.val us).causes = s.causes :=
  (keeps_resynced s pair us).causes fun x hx => (resyncFields_apart pair x (List.mem_cons_of_mem _ hx)).2

theorem resynced_hardHeld : (s.resynced pair.val us).hardHeld pair.val = s.hardHeld pair.val := by
  have hc : (s.resynced pair.val us).toc.hardCp0 = s.toc.hardCp0 := by
    rw [resynced_toc]
    split <;> rfl
  rw [State.hardHeld, State.hardHeld, hc, State.causeLatched, resynced_causes, ← State.causeLatched]

theorem exec_resyncRelease {s : State} {pair : Fin 4} {us : Nat} (hh : s.flag (cpBase pair.val) Reg.CP_STATUS_HELD = true)
    (hi : s.isolated 2 (25 + pair.val) = false) :
    exec (.resyncRelease pair us) s =
      .next (if s.hardHeld pair.val then s.resynced pair.val us else (s.resynced pair.val us).setFlag (cpBase pair.val) Reg.CP_STATUS_HELD false).settle := by
  have hgo : (s.flag (cpBase pair.val) Reg.CP_STATUS_HELD && !s.isolated 2 (25 + pair.val)) = true := by rw [hh, hi]; rfl
  rw [← resynced_hardHeld s pair us]
  exact congrArg done (if_pos hgo)

theorem settle_resyncs (t : State) : t.settle.rd (cpBase pair.val) Reg.CP_DIV_RESYNCS = t.rd (cpBase pair.val) Reg.CP_DIV_RESYNCS := by
  refine t.settle_rd _ _ ?_
  revert pair
  decide

theorem settle_pairHeld (t : State) : t.settle.flag (cpBase pair.val) Reg.CP_STATUS_HELD = t.flag (cpBase pair.val) Reg.CP_STATUS_HELD := by
  refine t.settle_flag _ _ ?_
  revert pair
  decide

end release

theorem resyncRelease_clears (s : State) (pair : Fin 4) (us : Nat) (hh : s.flag (cpBase pair.val) Reg.CP_STATUS_HELD = true)
    (hi : s.isolated 2 (25 + pair.val) = false) (hard : s.hardHeld pair.val = false) :
    Answers (.resyncRelease pair us) s fun t =>
      t.flag (cpBase pair.val) Reg.CP_STATUS_HELD = false ∧ t.mst = s.mst ∧
      t.rd (cpBase pair.val) Reg.CP_DIV_RESYNCS = min (s.rd (cpBase pair.val) Reg.CP_DIV_RESYNCS + 1) 65535 := by
  have hx := exec_resyncRelease (us := us) hh hi
  rw [hard, if_neg Bool.false_ne_true] at hx
  have hk : Keeps ((cpBase pair.val, Reg.CP_STATUS_HELD) :: resyncFields pair.val) s
      ((s.resynced pair.val us).setFlag (cpBase pair.val) Reg.CP_STATUS_HELD false) :=
    ((keeps_resynced s pair us).listed_mono (List.subset_cons_self _ _)).setFlagListed List.mem_cons_self (by decide) (cpRegs_not_tripped pair).2.2
  refine ⟨_, hx, ?_, ?_, ?_⟩
  · rw [settle_pairHeld]
    exact State.flag_setFlag_same _ _ _ _ (by decide) rfl
  · rw [State.settle_mst]
    exact hk.mst fun x hx => (resyncFields_apart pair x hx).1
  · rw [settle_resyncs, ← resynced_count s pair us]
    exact State.rd_setFlag_apart _ _ _ _ _ _ (by decide) (.inl (by simp only [ne_eq, Nat.add_right_inj]; decide))

theorem resyncRelease_holds (s : State) (us : Nat) (hh : s.flag (cpBase 0) Reg.CP_STATUS_HELD = true) (hi : s.isolated 2 25 = false)
    (hard : s.hardHeld 0 = true) :
    Answers (.resyncRelease 0 us) s fun t =>
      t.flag (cpBase 0) Reg.CP_STATUS_HELD = true ∧ t.mst = s.mst ∧ t.toc.cp0Ok = true ∧ t.causes = s.causes ∧
      t.rd (cpBase 0) Reg.CP_DIV_RESYNCS = min (s.rd (cpBase 0) Reg.CP_DIV_RESYNCS + 1) 65535 := by
  have hx := exec_resyncRelease (pair := 0) (us := us) hh hi
  replace hx := hx.trans (congrArg (fun u : State => Host.Outcome.next u.settle) (if_pos hard))
  have hk := keeps_resynced s 0 us
  refine ⟨_, hx, ?_, ?_, ?_, ?_, ?_⟩
  · exact (settle_pairHeld 0 _).trans ((hk.flag _ _ (kept_pair 0).1 (by decide)).trans hh)
  · rw [State.settle_mst, hk.mst]
  · rw [State.settle_toc, resynced_toc]
    rfl
  · rw [State.causes, State.settle_rd _ _ _ (by decide)]
    exact resynced_causes s 0 us
  · exact (settle_resyncs 0 _).trans (resynced_count s 0 us)

/-! Debug access (R195). -/

theorem debugGate_open (hm : s.mst = stService) : debugGate .service s = none := by simp [debugGate, hm]

theorem debugGate_closed {p : Port} (h : p ≠ .service ∨ s.mst ≠ stService) : debugGate p s = some (if p = .service then E_STATE else E_ACCESS) := by
  unfold debugGate
  by_cases hp : p = .service
  · rw [if_neg (not_not.mpr hp), if_pos (h.resolve_left (not_not.mpr hp)), if_pos hp]
  · rw [if_pos hp, if_neg hp]

/-- Debug takes a pair out of lockstep and shows it; the recorder takes it. -/
def Machine.State.split (s : State) (n : Nat) : State :=
  ((((s.setFlag (cpBase n) Reg.CP_STATUS_DEBUG true).setFlag (cpBase n) Reg.CP_STATUS_SPLIT true).setFlag (cpBase n) Reg.CP_STATUS_LOCKSTEP false).setFlag
    tbBase Reg.TB_STATUS_DBGFLAG true).occur 5 n 0 (keyOfBlock 2 (25 + n)) 0

/-- What a split writes. -/
def splitFields (n : Nat) : List (Nat × Field) :=
  [(cpBase n, Reg.CP_STATUS_DEBUG), (cpBase n, Reg.CP_STATUS_SPLIT), (cpBase n, Reg.CP_STATUS_LOCKSTEP), (tbBase, Reg.TB_STATUS_DBGFLAG)]

/-- What Tocsin writes as it follows. -/
def followFields : List (Nat × Field) := [(tbBase, Reg.TB_STATUS_TSTATE), (tbBase, Reg.TB_STATUS_HWSAFE)]

/-- A split shows in the pair's status and in Tocsin's. -/
structure SplitShown (n : Nat) (t : State) : Prop where
  debug : t.flag (cpBase n) Reg.CP_STATUS_DEBUG = true
  split : t.flag (cpBase n) Reg.CP_STATUS_SPLIT = true
  lockstep : t.flag (cpBase n) Reg.CP_STATUS_LOCKSTEP = false
  dbgflag : t.flag tbBase Reg.TB_STATUS_DBGFLAG = true

theorem kept_dbgflag : Kept tbBase Reg.TB_STATUS_DBGFLAG := by decide +kernel

section split

variable {n : Nat} (hn : n < 4)
include hn

theorem kept_debug : Kept (cpBase n) Reg.CP_STATUS_DEBUG ∧ Kept (cpBase n) Reg.CP_STATUS_SPLIT ∧ Kept (cpBase n) Reg.CP_STATUS_LOCKSTEP := by
  have all : ∀ n < 4, ∀ g ∈ [Reg.CP_STATUS_DEBUG, Reg.CP_STATUS_SPLIT, Reg.CP_STATUS_LOCKSTEP], Kept (cpBase n) g := by decide +kernel
  exact ⟨all n hn _ (by simp), all n hn _ (by simp), all n hn _ (by simp)⟩

/-- The status of a pair and TB.STATUS are two registers, and neither is a register TRIPPED. -/
theorem cpStatus_apart : tbBase + Reg.TB_STATUS_DBGFLAG.off ≠ cpBase n + Reg.CP_STATUS_DEBUG.off ∧ cpBase n + Reg.CP_STATUS_DEBUG.off ∉ trippedRegs := by
  have all : ∀ n < 4, tbBase + Reg.TB_STATUS_DBGFLAG.off ≠ cpBase n + Reg.CP_STATUS_DEBUG.off ∧ cpBase n + Reg.CP_STATUS_DEBUG.off ∉ trippedRegs := by
    decide +kernel
  exact all n hn

theorem keeps_split (s : State) : Keeps (splitFields n) s (s.split n) := by
  have ht := (cpStatus_apart hn).2
  have hdebug : (cpBase n, Reg.CP_STATUS_DEBUG) ∈ splitFields n := by simp [splitFields]
  have hsplit : (cpBase n, Reg.CP_STATUS_SPLIT) ∈ splitFields n := by simp [splitFields]
  have hlock : (cpBase n, Reg.CP_STATUS_LOCKSTEP) ∈ splitFields n := by simp [splitFields]
  have hshown : (tbBase, Reg.TB_STATUS_DBGFLAG) ∈ splitFields n := by simp [splitFields]
  exact ((((Keeps.refl _ s).setFlagListed hdebug (ht := ht)).setFlagListed hsplit (ht := ht)).setFlagListed hlock (ht := ht)).setFlagListed hshown |>.occur

theorem split_tstate (s : State) : (s.split n).tstate = s.tstate := by
  have all : ∀ n < 4, ∀ x ∈ splitFields n, Apart tbBase Reg.TB_STATUS_TSTATE x.1 x.2 := by decide
  exact (keeps_split hn s).tstate (all n hn)

theorem split_shown (s : State) : SplitShown n (s.split n) := by
  obtain ⟨kdebug, ksplit, klock⟩ := kept_debug hn
  have hoc : ∀ u, Keeps [] u (u.occur 5 n 0 (keyOfBlock 2 (25 + n)) 0) := fun u => (Keeps.refl _ u).occur
  have hshow : ∀ (u : State) (g : Field), g.off = Reg.CP_STATUS_DEBUG.off →
      (u.setFlag tbBase Reg.TB_STATUS_DBGFLAG true).flag (cpBase n) g = u.flag (cpBase n) g := fun u g hg =>
    flag_setFlag_apart _ _ _ _ _ _ (by decide) (.inl (by rw [hg]; exact (cpStatus_apart hn).1))
  refine ⟨?_, ?_, ?_, ?_⟩
  · rw [State.split, (hoc _).flag _ _ kdebug (by simp), hshow _ Reg.CP_STATUS_DEBUG rfl,
      flag_setFlag_apart _ _ _ _ _ _ (by decide) (.inr (.inr (by decide))), flag_setFlag_apart _ _ _ _ _ _ (by decide) (.inr (.inr (by decide))),
      State.flag_setFlag_same _ _ _ _ (by decide) rfl]
  · rw [State.split, (hoc _).flag _ _ ksplit (by simp), hshow _ Reg.CP_STATUS_SPLIT rfl,
      flag_setFlag_apart _ _ _ _ _ _ (by decide) (.inr (.inr (by decide))), State.flag_setFlag_same _ _ _ _ (by decide) rfl]
  · rw [State.split, (hoc _).flag _ _ klock (by simp), hshow _ Reg.CP_STATUS_LOCKSTEP rfl, State.flag_setFlag_same _ _ _ _ (by decide) rfl]
  · rw [State.split, (hoc _).flag _ _ kept_dbgflag (by simp), State.flag_setFlag_same _ _ _ _ (by decide) rfl]

namespace SplitShown

/-- What Tocsin does after the split leaves what the split shows. -/
theorem followed {u : State} (h : SplitShown n t) (hk : Keeps followFields t u) : SplitShown n u := by
  obtain ⟨kdebug, ksplit, klock⟩ := kept_debug hn
  have all : ∀ n < 4, ∀ x ∈ followFields, x.1 + x.2.off ≠ cpBase n + Reg.CP_STATUS_DEBUG.off := by decide
  exact ⟨(hk.flag _ _ kdebug fun x hx => .inl (all n hn x hx)).trans h.debug, (hk.flag _ _ ksplit fun x hx => .inl (all n hn x hx)).trans h.split,
    (hk.flag _ _ klock fun x hx => .inl (all n hn x hx)).trans h.lockstep, (hk.flag _ _ kept_dbgflag (by decide)).trans h.dbgflag⟩

theorem answered {p : Port} {c : Code} (h : SplitShown n t) : SplitShown n (t.answer p c).settle := by
  have all : ∀ n < 4, NoFollower (cpBase n) Reg.CP_STATUS_DEBUG ∧ NoFollower (cpBase n) Reg.CP_STATUS_SPLIT ∧
      NoFollower (cpBase n) Reg.CP_STATUS_LOCKSTEP := by decide
  obtain ⟨hdebug, hsplit, hlock⟩ := all n hn
  exact ⟨(State.settle_flag _ _ _ hdebug).trans h.debug, (State.settle_flag _ _ _ hsplit).trans h.split, (State.settle_flag _ _ _ hlock).trans h.lockstep,
    (State.settle_flag _ _ _ (by decide)).trans h.dbgflag⟩

end SplitShown

end split

/-! The commands. -/

section attach

variable (s) (hm : s.mst = stService)
include hm

/-- CP0: Tocsin stops, every output is tripped, and the line is asserted. -/
theorem decideDebugAttach_cp0 (hd : s.flag (cpBase 0) Reg.CP_STATUS_DEBUG = false) :
    decideDebugAttach .service 0 s = (E_OK, (((s.split 0).setTstate tsStopped).tripAll).setLine true) := by
  simp [decideDebugAttach, debugGate_open hm, hd, State.split]

/-- Another pair disarms Tocsin. -/
theorem decideDebugAttach_other {n : Nat} (hn : n ≠ 0) (hd : s.flag (cpBase n) Reg.CP_STATUS_DEBUG = false) :
    decideDebugAttach .service n s =
      (E_OK, (s.split n).when ((s.split n).tstate == tsArmed) fun s => (s.setTstate tsDisarmed).tripAll) := by
  simp [decideDebugAttach, debugGate_open hm, hd, hn, State.split]

theorem decideDebugAttach_again {n : Nat} (hd : s.flag (cpBase n) Reg.CP_STATUS_DEBUG = true) : decideDebugAttach .service n s = (E_OK, s) := by
  simp [decideDebugAttach, debugGate_open hm, hd]

end attach

theorem Keeps.setTstate {n : Nat} (h : Keeps l s t) (hm : (tbBase, Reg.TB_STATUS_TSTATE) ∈ l := by decide) : Keeps l s (t.setTstate n) := h.wrListed hm

theorem setTstate_tstate (s : State) {n : Nat} (hn : n < 4) : (s.setTstate n).tstate = n :=
  (State.rd_wr_same s tbBase Reg.TB_STATUS_TSTATE n (by decide)).trans (Nat.mod_eq_of_lt hn)

/-- Tocsin as it follows the split of CP0. -/
def Machine.State.stopTocsin (s : State) : State := ((s.setTstate tsStopped).tripAll).setLine true

/-- Tocsin as it follows the split of another pair. -/
def Machine.State.disarmTocsin (s : State) : State := s.when (s.tstate == tsArmed) fun s => (s.setTstate tsDisarmed).tripAll

theorem keeps_stopTocsin (s : State) : Keeps followFields s s.stopTocsin := (Keeps.refl _ s).setTstate.tripAll.setLine

theorem keeps_disarmTocsin (s : State) : Keeps followFields s s.disarmTocsin := (Keeps.refl _ s).when fun _ h => h.setTstate.tripAll

theorem tripAll_tstate (s : State) : s.tripAll.tstate = s.tstate := ((Keeps.refl [] s).tripAll).tstate

theorem disarmTocsin_tstate (h : s.tstate = tsArmed) : s.disarmTocsin.tstate = tsDisarmed := by
  rw [State.disarmTocsin, h, beq_self_eq_true, State.when_true, tripAll_tstate, setTstate_tstate _ (by decide)]

theorem stopTocsin_tstate (s : State) : s.stopTocsin.tstate = tsStopped := by
  have hline : Keeps [(tbBase, Reg.TB_STATUS_HWSAFE)] ((s.setTstate tsStopped).tripAll) s.stopTocsin := (Keeps.refl _ _).setLine
  rw [hline.tstate, tripAll_tstate, setTstate_tstate _ (by decide)]

theorem stopTocsin_tripped (s : State) {k : Nat} (hk : k < 128) : s.stopTocsin.tripped k = true := by
  have hline : Keeps [(tbBase, Reg.TB_STATUS_HWSAFE)] ((s.setTstate tsStopped).tripAll) s.stopTocsin := (Keeps.refl _ _).setLine
  exact hline.tripped k hk (tripAll_tripped _ hk)

theorem debugAttach_other (s : State) (pair : Fin 4) (h : Served s .service) (hm : s.mst = stService) (hp : pair ≠ 0)
    (hd : s.flag (cpBase pair.val) Reg.CP_STATUS_DEBUG = false) :
    Answers (.debugAttach .service pair) s fun t =>
      t.flag (cpBase pair.val) Reg.CP_STATUS_DEBUG = true ∧ t.flag (cpBase pair.val) Reg.CP_STATUS_SPLIT = true ∧
      t.flag (cpBase pair.val) Reg.CP_STATUS_LOCKSTEP = false ∧ t.flag tbBase Reg.TB_STATUS_DBGFLAG = true ∧
      (s.tstate = tsArmed → t.tstate = tsDisarmed) ∧ t.outbox = s.outbox ++ [.result .service E_OK] := by
  have hx : exec (.debugAttach .service pair) s = .next ((s.split pair.val).disarmTocsin.answer .service E_OK).settle :=
    command_decided h (decideDebugAttach_other s hm (fun e => hp (Fin.ext e)) hd)
  have hk := keeps_disarmTocsin (s.split pair.val)
  obtain ⟨hdebug, hspl, hlock, hdbg⟩ := ((split_shown pair.isLt s).followed pair.isLt hk).answered pair.isLt (p := .service) (c := E_OK)
  refine ⟨_, hx, hdebug, hspl, hlock, hdbg, fun ha => ?_, ?_⟩
  · rw [answered_tstate, disarmTocsin_tstate ((split_tstate pair.isLt s).trans ha)]
  · rw [answered_outbox, hk.outbox, (keeps_split pair.isLt s).outbox]

theorem debugAttach_cp0 (s : State) (h : Served s .service) (hm : s.mst = stService) (hd : s.flag (cpBase 0) Reg.CP_STATUS_DEBUG = false) :
    Answers (.debugAttach .service 0) s fun t =>
      t.flag (cpBase 0) Reg.CP_STATUS_DEBUG = true ∧ t.flag (cpBase 0) Reg.CP_STATUS_SPLIT = true ∧ t.flag (cpBase 0) Reg.CP_STATUS_LOCKSTEP = false ∧
      t.flag tbBase Reg.TB_STATUS_DBGFLAG = true ∧ t.tstate = tsStopped ∧ t.flag tbBase Reg.TB_STATUS_HWSAFE = true ∧ (∀ k < 128, t.tripped k = true) ∧
      t.outbox = s.outbox ++ [.result .service E_OK] := by
  have h0 : 0 < 4 := by decide
  have hx : exec (.debugAttach .service 0) s = .next ((s.split 0).stopTocsin.answer .service E_OK).settle :=
    command_decided h (decideDebugAttach_cp0 s hm hd)
  have hk := keeps_stopTocsin (s.split 0)
  obtain ⟨hdebug, hspl, hlock, hdbg⟩ := ((split_shown h0 s).followed h0 hk).answered h0 (p := .service) (c := E_OK)
  refine ⟨_, hx, hdebug, hspl, hlock, hdbg, ?_, ?_, fun k hk => ?_, ?_⟩
  · rw [answered_tstate, stopTocsin_tstate]
  · rw [State.settle_flag _ _ _ (by decide), State.answer_flag, State.stopTocsin, setLine_hwsafe]
  · rw [settle_tripped _ hk, State.tripped, State.answer_flag]
    exact stopTocsin_tripped _ hk
  · rw [answered_outbox, hk.outbox, (keeps_split h0 s).outbox]

theorem debugDetach_nop (s : State) (pair : Fin 4) (h : Served s .service) (hm : s.mst = stService) :
    exec (.debugDetach .service pair) s = .next ((s.setFlag (cpBase pair.val) Reg.CP_STATUS_DEBUG false).answer .service E_OK).settle ∧
    exec (.debugNop .service pair) s = .next (s.answer .service E_OK).settle :=
  ⟨command_decided h (by simp [decideDebugDetach, debugGate_open hm]), command_decided h (by simp [decideDebugNop, debugGate_open hm])⟩

theorem debug_refused (s : State) (p : Port) (pair : Fin 4) (c : Code) (h : Served s p) (hn : p ≠ .service ∨ s.mst ≠ stService)
    (hc : c = if p = .service then E_STATE else E_ACCESS) :
    exec (.debugAttach p pair) s = .next (s.answer p c).settle ∧ exec (.debugDetach p pair) s = .next (s.answer p c).settle ∧
    exec (.debugNop p pair) s = .next (s.answer p c).settle := by
  have hg : debugGate p s = some c := by rw [debugGate_closed hn, hc]
  exact ⟨command_decided h (by simp [decideDebugAttach, hg]), command_decided h (by simp [decideDebugDetach, hg]),
    command_decided h (by simp [decideDebugNop, hg])⟩

/-- Settles O5: a compare counts pair by pair, a release clears HELD where nothing holds the pair on, and the debug commands are judged by port and state first. -/
theorem pairsCompareResyncAndDebug : Obligations.PairsCompareResyncAndDebug := by
  unfold Obligations.PairsCompareResyncAndDebug
  exact ⟨backgroundCompare_counts, resyncRelease_clears, resyncRelease_holds, debugAttach_other, debugAttach_cp0,
    fun s _ h hm hd => command_decided h (decideDebugAttach_again s hm hd), debugDetach_nop, debug_refused⟩

end Sys2Proof
end

