-- ==== Sys2Proof/Proofs/WatchedRegisters.lean ====
section
/-! MOD.STATE, TB.CAUSE and the registers TRIPPED: which operations leave them, and the count of the scans in which the rails disagreed. `Leaves w s t` is the relation for one register `w` of them; each operation has one lemma, in the order of the model's files. -/

namespace Sys2Proof

open Sys2Proof.Machine

-- Many short lemmas: elaborated side by side they would take a thread each, and the memory of its stack.
set_option Elab.async false

/-! The relation. -/

/-- The registers of MOD.STATE and TB.CAUSE. -/
def faultRegs : List Nat := [modBase + Reg.MOD_STATE_STATE.off, tbBase + Reg.TB_CAUSE_LATCHED.off]

/-- The registers that no operation on cells writes, and a scan of Tocsin hardly one of. -/
def watchedRegs : List Nat := faultRegs ++ trippedRegs

/-- `t` holds in the watched register `w` what `s` held, and counts as many scans in which the rails disagreed. -/
structure Leaves (w : Nat) (s t : State) : Prop where
  watched : w ∈ watchedRegs
  reg : t.reg w = s.reg w
  rails : t.toc.rails = s.toc.rails

theorem watchedRegs_not_cell {w : Nat} (h : w ∈ watchedRegs) : 0x100 ≤ pageOf w := by
  have all : ∀ w ∈ watchedRegs, 0x100 ≤ pageOf w := by decide +kernel
  exact all w h

theorem faultRegs_watched {w : Nat} (h : w ∈ faultRegs) : w ∈ watchedRegs := List.mem_append_left _ h

theorem trippedField_watched {k : Nat} (h : k < 256) : tbBase + (trippedField k).off ∈ watchedRegs := List.mem_append_right _ (mem_trippedRegs h)

namespace Leaves

variable {w : Nat} {s t u : State} {α : Type}

theorem refl (s : State) (hw : w ∈ watchedRegs := by decide) : Leaves w s s := ⟨hw, rfl, rfl⟩

theorem trans (h : Leaves w s t) (h' : Leaves w t u) : Leaves w s u := ⟨h.watched, h'.reg.trans h.reg, h'.rails.trans h.rails⟩

theorem rd {b : Nat} {g : Field} (h : Leaves (b + g.off) s t) : t.rd b g = s.rd b g := by rw [State.rd, h.reg, State.rd]

theorem flag {b : Nat} {g : Field} (h : Leaves (b + g.off) s t) : t.flag b g = s.flag b g := by rw [State.flag, h.rd, State.flag]

/-- A change of anything but the registers and the count. -/
theorem same (h : Leaves w s t) (hr : u.regs = t.regs := by rfl) (hc : u.toc.rails = t.toc.rails := by rfl) : Leaves w s u :=
  ⟨h.watched, by rw [State.reg, hr]; exact h.reg, hc.trans h.rails⟩

/-! Writes: of another register, of one that is not watched, and on a cell's page. -/

theorem write {a : Nat} {v : Word} (h : Leaves w s t) (ha : w ≠ a) : Leaves w s (t.setReg a v) :=
  ⟨h.watched, (State.reg_setReg ..).trans ((if_neg ha).trans h.reg), h.rails⟩

theorem setRegOff {a : Nat} {v : Word} (h : Leaves w s t) (ha : a ∉ watchedRegs := by decide) : Leaves w s (t.setReg a v) :=
  h.write fun e => ha (e ▸ h.watched)

theorem wrOff {b : Nat} {f : Field} {v : Nat} (h : Leaves w s t) (ha : b + f.off ∉ watchedRegs := by decide) : Leaves w s (t.wr b f v) := h.setRegOff ha
theorem setFlagOff {b : Nat} {f : Field} {v : Bool} (h : Leaves w s t) (ha : b + f.off ∉ watchedRegs := by decide) : Leaves w s (t.setFlag b f v) := h.wrOff ha
theorem bumpOff {b : Nat} {f : Field} (h : Leaves w s t) (ha : b + f.off ∉ watchedRegs := by decide) : Leaves w s (t.bump b f) := h.wrOff ha

theorem setReg {id o : Nat} {v : Word} (h : Leaves w s t) (ho : o < 0x100 := by decide) : Leaves w s (t.setReg (cellBase id + o) v) :=
  h.write fun e => absurd (watchedRegs_not_cell h.watched) (Nat.not_le.mpr (e ▸ pageOf_cellBase id ho))

theorem wr {id : Nat} {f : Field} {v : Nat} (h : Leaves w s t) (ho : f.off < 0x100 := by decide) : Leaves w s (t.wr (cellBase id) f v) := h.setReg ho
theorem wrw {id : Nat} {f : Field} {v : Word} (h : Leaves w s t) (ho : f.off < 0x100 := by decide) : Leaves w s (t.wrw (cellBase id) f v) := h.setReg ho
theorem setFlag {id : Nat} {f : Field} {v : Bool} (h : Leaves w s t) (ho : f.off < 0x100 := by decide) : Leaves w s (t.setFlag (cellBase id) f v) := h.wr ho
theorem bump {id : Nat} {f : Field} (h : Leaves w s t) (ho : f.off < 0x100 := by decide) : Leaves w s (t.bump (cellBase id) f) := h.wr ho

/-! Branches and repetitions. -/

protected theorem ite {c : Prop} [Decidable c] (ht : Leaves w s t) (hu : Leaves w s u) : Leaves w s (if c then t else u) := by
  split
  · exact ht
  · exact hu

/-- A branch that goes on from the state of the other one. -/
theorem ifThen {c : Prop} [Decidable c] (h : Leaves w s t) (hu : Leaves w s t → Leaves w s u) : Leaves w s (if c then u else t) := .ite (hu h) h
theorem ifElse {c : Prop} [Decidable c] (h : Leaves w s t) (hu : Leaves w s t → Leaves w s u) : Leaves w s (if c then t else u) := .ite h (hu h)

theorem iteSnd {c : Prop} [Decidable c] {p q : α × State} (hp : Leaves w s p.2) (hq : Leaves w s q.2) : Leaves w s (if c then p else q).2 := by
  split
  · exact hp
  · exact hq

theorem when {c : Bool} {f : State → State} (h : Leaves w s t) (hf : ∀ u, Leaves w s u → Leaves w s (f u)) : Leaves w s (t.when c f) := .ite (hf t h) h

theorem foldlMem {f : State → α → State} {m : List α} (h : Leaves w s t) (hf : ∀ u, ∀ a ∈ m, Leaves w s u → Leaves w s (f u a)) :
    Leaves w s (m.foldl f t) := by
  induction m generalizing t with
  | nil => exact h
  | cons a m ih => exact ih (hf t a List.mem_cons_self h) fun u b hb => hf u b (List.mem_cons_of_mem a hb)

theorem foldl {f : State → α → State} {m : List α} (h : Leaves w s t) (hf : ∀ u a, Leaves w s u → Leaves w s (f u a)) : Leaves w s (m.foldl f t) :=
  h.foldlMem fun u a _ => hf u a

/-! `Machine/Ops.lean`. -/

theorem modFab {f : FabricSt → FabricSt} (h : Leaves w s t) : Leaves w s (t.modFab f) := h.same

theorem modToc {f : TocsinSt → TocsinSt} (h : Leaves w s t) (hc : (f t.toc).rails = t.toc.rails := by rfl) : Leaves w s (t.modToc f) := h.same (hc := hc)

theorem modImg {f : ImageSt → ImageSt} (h : Leaves w s t) : Leaves w s (t.modImg f) := h.same

theorem notice {kind : AlarmKind} {source new key : Nat} (h : Leaves w s t) : Leaves w s (t.notice kind source new key) := .ite h.same h

theorem modCell {id : Nat} {f : CellSt → CellSt} (h : Leaves w s t) : Leaves w s (t.modCell id f) := h.same

theorem modUc {n : Nat} {f : UcSt → UcSt} (h : Leaves w s t) : Leaves w s (t.modUc n f) := h.same

theorem modDp {n : Nat} {f : DpSt → DpSt} (h : Leaves w s t) : Leaves w s (t.modDp n f) := h.same

theorem modAx {n : Nat} {f : AxSt → AxSt} (h : Leaves w s t) : Leaves w s (t.modAx n f) := h.same

theorem modLp {n : Nat} {f : LoopSt → LoopSt} (h : Leaves w s t) : Leaves w s (t.modLp n f) := h.same

theorem modPh {n : Nat} {f : PhasorSt → PhasorSt} (h : Leaves w s t) : Leaves w s (t.modPh n f) := h.same

/-! `Machine/Cells.lean`. -/

theorem loopCst {id was n : Nat} (h : Leaves w s t) : Leaves w s (t.loopCst id was n) := .ite h.modLp h

theorem syncOff {g : Nat} (h : Leaves w s t) : Leaves w s (t.syncOff g) := .ite h h.wr.modPh

theorem endPermit {g next : Nat} (h : Leaves w s t) : Leaves w s (t.endPermit g next) := by
  unfold State.endPermit
  refine .modPh (.wr (.bump (.setFlag ?_)))
  split
  · exact h.modDp
  · exact h

theorem startPh {id : Nat} {keep : Bool} (h : Leaves w s t) : Leaves w s (t.startPh id keep) := by
  unfold State.startPh
  exact h.wrw.setFlag.wr.modPh

theorem phCst {id was n : Nat} (h : Leaves w s t) : Leaves w s (t.phCst id was n) :=
  .ite (((h.setFlag.when fun _ h => h.endPermit).ifElse fun h => h.syncOff).when fun _ h => h.startPh) h

theorem setComparator {n c : Nat} {v : Bool} (h : Leaves w s t) : Leaves w s (t.setComparator n c v) :=
  (h.setFlag (by split <;> decide)).ifThen fun h => h.notice

theorem ucCst {id n : Nat} (h : Leaves w s t) : Leaves w s (t.ucCst id n) := .ite h.setComparator.setComparator.modUc h

theorem dpCst {id n : Nat} (h : Leaves w s t) : Leaves w s (t.dpCst id n) := .ite h.setFlag.setFlag.setFlag h

theorem setCst {id n : Nat} (h : Leaves w s t) : Leaves w s (t.setCst id n) := by
  have hc : ∀ m, Leaves w s ((((t.wr (cellBase id) Reg.CELL_STATE_STATE m).loopCst id (t.cst id) m).phCst id (t.cst id) m |>.ucCst id m |>.dpCst id m).when
      (t.cst id == csFault && m != csFault) fun s => s.setFlag (cellBase id) Reg.CELL_STATE_ISOL false) :=
    fun _ => h.wr.loopCst.phCst.ucCst.dpCst.when fun _ h => h.setFlag
  exact .ite (hc _).modCell ((hc _).ifThen fun h => h.modCell)

theorem takeSafe {id : Nat} (h : Leaves w s t) : Leaves w s (t.takeSafe id) := .ite h (h.wr.ifElse fun h => h.setCst)

theorem toRecover {id : Nat} (h : Leaves w s t) : Leaves w s (t.toRecover id) := h.setCst.ifThen fun h => h.takeSafe

theorem unforce {id : Nat} (h : Leaves w s t) : Leaves w s (t.unforce id) := h.modCell.wr.when fun _ h => h.wr

theorem leaveService (h : Leaves w s t) : Leaves w s t.leaveService :=
  (h.foldl fun _ _ h => .ifThen (.ite h h.unforce) fun h => h.toRecover).modFab

/-! `Machine/Occur.lean`. -/

theorem occur {src index : Nat} {mag : Rat} {key sig : Nat} (h : Leaves w s t) : Leaves w s (t.occur src index mag key sig) := .ite h.bumpOff h.same

/-! `Machine/Axes.lean`. -/

theorem setAxf {n : Nat} {f : Field} {v : Bool} (h : Leaves w s t) (ho : f.off < 0x100 := by decide) : Leaves w s (t.setAxf n f v) := h.setFlag ho

theorem setAxPos {n : Nat} {x : Int} (h : Leaves w s t) : Leaves w s (t.setAxPos n x) := h.wrw

theorem posFromEnc {n : Nat} (h : Leaves w s t) : Leaves w s (t.posFromEnc n) := h.setAxPos.modAx

theorem latchEnc {n : Nat} (h : Leaves w s t) : Leaves w s (t.latchEnc n) := by
  unfold State.latchEnc
  exact h.modAx

theorem stopAx {n : Nat} {p : StopPlan} (h : Leaves w s t) : Leaves w s (t.stopAx n p) := h.modAx

theorem failHoming {n cause : Nat} (h : Leaves w s t) : Leaves w s (t.failHoming n cause) := .ite h.wr.wr.wr.setAxf.setAxf.bump.modAx.stopAx h

theorem showSpeed {n : Nat} {old new : Rat} (h : Leaves w s t) : Leaves w s (t.showSpeed n old new) :=
  (h.setAxf.setAxf.wr.setAxf.when fun _ h => h.setAxf).wrw

theorem showLimits {n : Nat} (h : Leaves w s t) : Leaves w s (t.showLimits n) := h.setAxf.setAxf.setAxf.modAx.setAxf

theorem loadAxRegs {n : Nat} (h : Leaves w s t) : Leaves w s (t.loadAxRegs n) :=
  h.setFlag.setFlag.setFlag.setFlag.setFlag.wr.wr.wrw.wrw.wrw.wrw.wrw.wrw.wrw.showLimits

theorem latchIfUnhomed {n : Nat} (h : Leaves w s t) : Leaves w s (t.latchIfUnhomed n) := .ite h h.latchEnc

theorem adoptAx {n : Nat} (h : Leaves w s t) : Leaves w s (t.adoptAx n) := .ite h.modAx.loadAxRegs.latchIfUnhomed h

theorem bridgesOff {n : Nat} (h : Leaves w s t) : Leaves w s (t.bridgesOff n) := .ite (h.modAx.when fun _ h => h.setAxf).setAxf.showSpeed.adoptAx h

theorem bridgesOn {n : Nat} (h : Leaves w s t) : Leaves w s (t.bridgesOn n) := .ite h (.setAxf (.modAx (.ite h.posFromEnc h)))

theorem setTarget {n : Nat} {x : Int} {p : StopPlan} (h : Leaves w s t) : Leaves w s (t.setTarget n x p) := h.wrw.ifElse fun h => h.modAx.setAxf

theorem stopSafe {n : Nat} (h : Leaves w s t) : Leaves w s (t.stopSafe n) := .ite h h.stopAx

theorem safeStop {n : Nat} (h : Leaves w s t) : Leaves w s (t.safeStop n) := .ite (.setTarget (.ite h h.modAx)) h.stopSafe

theorem driveAx {n : Nat} (h : Leaves w s t) : Leaves w s (t.driveAx n) := by
  unfold State.driveAx
  refine .ite h ?_
  exact (((h.setAxf.ifElse fun h => .ite h.failHoming (.ite h.failHoming (.ite h.failHoming (.ite h.failHoming h)))).when
    fun _ h => h.bridgesOff).setAxf.when fun _ h => h.modAx).ifThen fun h => h.bridgesOn.safeStop

/-! `Machine/Channels.lean`, `Machine/Points.lean`, `Machine/Drive.lean`. -/

theorem driveUc {n : Nat} (h : Leaves w s t) : Leaves w s (t.driveUc n) := by
  unfold State.driveUc
  refine .ite h ?_
  split
  · exact h.wrw.wrw.modUc
  · exact .ite h h.wrw.wrw.modUc

theorem followBond {n : Nat} (h : Leaves w s t) : Leaves w s (t.followBond n) := by
  have hf : ∀ f ∈ [Reg.CELL_STATE_STATE, Reg.CELL_STATE_SOURCE, Reg.CELL_STATE_ISOL, Reg.CELL_STATE_LATCHED, Reg.CELL_STATE_RETRIES], f.off < 0x100 := by
    decide
  exact .ite ((h.when fun _ h => h.bump).foldlMem fun _ f hm h => h.wr (hf f hm)).setReg.wrw h

theorem driveDp {n : Nat} (h : Leaves w s t) : Leaves w s (t.driveDp n) := .ite h (h.when fun _ h => h.setFlag).setFlag.setFlag.followBond

theorem driveCell {id : Nat} (h : Leaves w s t) : Leaves w s (t.driveCell id) := by
  unfold State.driveCell
  split
  · exact h.driveUc
  · exact h.driveDp
  · exact h.driveAx
  · exact h

theorem lineCell {id : Nat} {on : Bool} (h : Leaves w s t) : Leaves w s (t.lineCell id on) := .ite h.modCell.takeSafe.driveCell h.modCell.driveCell

theorem commandCell {id action : Nat} (h : Leaves w s t) : Leaves w s (t.commandCell id action) := h.modCell.takeSafe.driveCell

theorem uncommandCell {id : Nat} (h : Leaves w s t) : Leaves w s (t.uncommandCell id) := h.modCell

/-! `Machine/Tocsin.lean`. -/

theorem setTstate {n : Nat} (h : Leaves w s t) : Leaves w s (t.setTstate n) := h.wrOff

theorem endBypass {n : Nat} (h : Leaves w s t) : Leaves w s (t.endBypass n) := .ite h.modToc.occur.wrOff h

theorem endBypasses (h : Leaves w s t) : Leaves w s t.endBypasses := h.foldl fun _ _ h => h.endBypass

theorem expireBypasses (h : Leaves w s t) : Leaves w s t.expireBypasses := h.foldl fun _ _ h => h.endBypass

theorem abandonCommit {c : Code} (h : Leaves w s t) : Leaves w s (t.abandonCommit c) := .ite h.wrOff.wrOff.bumpOff.modImg h

theorem setLine {on : Bool} (h : Leaves w s t) : Leaves w s (t.setLine on) := .ite h (h.setFlagOff.foldl fun _ _ h => h.lineCell)

theorem tryArm (h : Leaves w s t) : Leaves w s t.tryArm := h.when fun _ h => h.setTstate

theorem takeTrip {k n : Nat} (h : Leaves w s t) : Leaves w s (t.takeTrip k n) := h.bump.wrw.wrw.occur.notice

/-- Another output's TRIPPED, or a register that holds none. -/
theorem setTripped {k : Nat} {v : Bool} (h : Leaves w s t) (hk : w ≠ tbBase + (trippedField k).off) : Leaves w s (t.setTripped k v) :=
  Leaves.ifThen (.write (h.when fun _ h => h.modToc) hk) fun h => h.setFlag

theorem issueCommands (h : Leaves w s t) : Leaves w s t.issueCommands := by
  unfold State.issueCommands
  refine .foldl (h.foldl fun u id h => ?_) fun _ _ h => h.setFlag
  split
  · exact h.commandCell
  · exact h.uncommandCell

end Leaves

/-! The registers of MOD.STATE and TB.CAUSE at a scan. -/

theorem faultReg_ne_tripped {w : Nat} (hw : w ∈ faultRegs) (k : Nat) : w ≠ tbBase + (trippedField k).off := by
  have hlow : ∀ w ∈ faultRegs, w < tbBase + 0x64 := by decide
  have := hlow w hw
  simp only [trippedField]
  omega

theorem faultReg_ne_demand {w : Nat} (hw : w ∈ faultRegs) (n : Nat) : w ≠ tbBase + (demandField n).off := by
  have hlow : ∀ w ∈ faultRegs, w < tbBase + 0x44 := by decide
  have := hlow w hw
  simp only [demandField]
  omega

namespace Leaves

variable {w : Nat} {s t : State}

theorem tripAll (h : Leaves w s t) (hw : w ∈ faultRegs := by decide) : Leaves w s t.tripAll := h.foldl fun _ k h => h.setTripped (faultReg_ne_tripped hw k)

theorem goMst {n : Nat} (h : Leaves w s t) (hw : w ≠ modBase + Reg.MOD_STATE_STATE.off := by decide) : Leaves w s (t.goMst n) :=
  ((h.write hw).write hw).ifElse fun h => h.notice

theorem goSafe (h : Leaves w s t) (hw : w ≠ modBase + Reg.MOD_STATE_STATE.off := by decide) : Leaves w s t.goSafe :=
  (h.abandonCommit.modFab.goMst hw).leaveService.endBypasses.foldl fun _ _ h => h.syncOff

theorem tocsinSafe {c : Cause} (h : Leaves w s t) : Leaves w s (t.tocsinSafe c) := h.when fun _ h => h.setTstate

theorem tripFor {c : Cause} {pair : Nat} (h : Leaves w s t) (hw : w ∈ faultRegs := by decide) : Leaves w s (t.tripFor c pair) :=
  ((h.modToc.tripAll hw).when fun _ h => h.modToc).ifThen fun h => h.setFlagOff.setLine

theorem sampleInputs (h : Leaves w s t) (hw : w ∈ faultRegs := by decide) : Leaves w s t.sampleInputs :=
  h.foldl fun _ _ h => h.modToc.write (faultReg_ne_demand hw _)

theorem evalTripOut {dem byp : List Nat} {kr : Nat × Record} (h : Leaves w s t) (hw : w ∈ faultRegs := by decide) :
    Leaves w s (t.evalTripOut dem byp kr) := by
  have ht : ∀ {u v}, Leaves w s u → Leaves w s (u.setTripped kr.1 v) := fun h => h.setTripped (faultReg_ne_tripped hw _)
  unfold State.evalTripOut
  refine .ite (ht h.setFlag.wr.wr.setCst) (.ite (ht h.setFlag.wr.wr) (.ite ?_ ?_))
  · exact h.setFlag.wr.wr.ifElse fun h => (ht h).takeTrip
  · exact h.setFlag.wr.wr.ifElse ht

theorem applyReset {k : Nat} (h : Leaves w s t) (hw : w ∈ faultRegs := by decide) : Leaves w s (t.applyReset k).2 :=
  .iteSnd h (.iteSnd h (.iteSnd h ((h.setTripped (faultReg_ne_tripped hw k)).bump.when fun _ h => h.setCst).occur))

theorem applyResets (h : Leaves w s t) (hw : w ∈ faultRegs := by decide) : Leaves w s t.applyResets := by
  unfold State.applyResets
  refine .modToc (h.foldl fun u kp h => ?_)
  dsimp only
  split
  · exact (h.applyReset hw).same
  · exact (h.applyReset hw).when fun _ h => h.bump

end Leaves

end Sys2Proof
end

