-- ==== Sys2Proof/Proofs/TocsinScan.lean ====
section
/-! The scan of Tocsin (R174, R181, R184, R185): the evaluation of the outputs, a scan that counts and arms, and the faults that it finds. -/

namespace Sys2Proof

open Sys2Proof.Machine

variable {s t u : State}

/-! A trip output's TRIPPED (R174). -/

theorem Leaves.tripped {j : Nat} (h : Leaves (tbBase + (trippedField j).off) s t) : t.tripped j = s.tripped j := h.flag

theorem trippedField_fits (k : Nat) : (trippedField k).lo + (trippedField k).width ≤ 32 := by
  simp only [trippedField]
  omega

/-- What `setTripped` does after the write of TB.TRIPPED concerns the output's cell. -/
theorem setTripped_leaves (s : State) (k : Nat) (v : Bool) {w : Nat} (hw : w ∈ watchedRegs) : ∃ u : State, Leaves w s u ∧
    Leaves w (u.setFlag tbBase (trippedField k) v) (s.setTripped k v) :=
  ⟨s.when (v && !s.tripped k) fun s => s.modToc fun t => { t with trippedAt := Store.set 0 t.trippedAt k s.time.cycles },
    (Leaves.refl s hw).when fun _ h => h.modToc, (Leaves.refl _ hw).ifThen fun h => h.setFlag⟩

theorem setTripped_same (s : State) {k : Nat} (v : Bool) (hk : k < 128) : (s.setTripped k v).tripped k = v := by
  obtain ⟨u, -, h⟩ := setTripped_leaves s k v (trippedField_watched (by omega : k < 256))
  exact h.tripped.trans (u.flag_setFlag_same _ _ _ (trippedField_fits k) rfl)

theorem setTripped_other (s : State) {k j : Nat} (v : Bool) (hj : j < 128) (hne : j ≠ k) : (s.setTripped k v).tripped j = s.tripped j := by
  have ha : Apart tbBase (trippedField j) tbBase (trippedField k) := by
    simp only [Apart, trippedField]
    omega
  obtain ⟨u, hu, h⟩ := setTripped_leaves s k v (trippedField_watched (by omega : j < 256))
  exact h.tripped.trans ((flag_setFlag_apart u _ _ _ _ _ (trippedField_fits k) ha).trans hu.tripped)

/-! The evaluation of an output. -/

section evaluation

/-- The evaluation shows DEMAND, NDEM and KEFF first. -/
def Machine.State.showDemand (s : State) (dem byp : List Nat) (k : Nat) (r : Record) : State :=
  ((s.setFlag (cellBase (toId k)) Reg.TOUT_STATE_DEMAND (decide (s.tripK k r byp ≤ s.tripN k dem byp))).wr (cellBase (toId k)) Reg.TOUT_STATE_NDEM
    (s.tripN k dem byp)).wr (cellBase (toId k)) Reg.TOUT_STATE_KEFF (s.tripK k r byp)

variable (s) (dem byp : List Nat) {k j : Nat} (r : Record)

theorem leaves_showDemand {w : Nat} (hw : w ∈ watchedRegs) : Leaves w s (s.showDemand dem byp k r) := (Leaves.refl s hw).setFlag.wr.wr

theorem showDemand_tripped (hj : j < 128) : (s.showDemand dem byp k r).tripped j = s.tripped j :=
  (leaves_showDemand s dem byp r (trippedField_watched (by omega))).tripped

theorem keeps_showDemand : Keeps [] s (s.showDemand dem byp k r) := (Keeps.refl _ s).setFlag.wr.wr

theorem showDemand_cst : (s.showDemand dem byp k r).cst (toId k) = s.cst (toId k) := by
  have hne : ∀ f ∈ [Reg.TOUT_STATE_DEMAND, Reg.TOUT_STATE_NDEM, Reg.TOUT_STATE_KEFF],
      cellBase (toId k) + Reg.CELL_STATE_STATE.off ≠ cellBase (toId k) + f.off := by
    simp only [ne_eq, Nat.add_right_inj]
    decide
  unfold State.showDemand State.cst
  rw [State.rd_wr_of_ne _ _ _ _ _ _ (hne _ (by simp)), State.rd_wr_of_ne _ _ _ _ _ _ (hne _ (by simp)), State.setFlag,
    State.rd_wr_of_ne _ _ _ _ _ _ (hne _ (by simp))]

theorem evalTripOut_idle (h : s.tstate ≠ tsArmed ∨ s.mst = stSafe) : s.evalTripOut dem byp (k, r) = (s.showDemand dem byp k r).setTripped k true := by
  have hk := keeps_showDemand s dem byp (k := k) r
  have harmed : ((s.showDemand dem byp k r).tstate == tsArmed && (s.showDemand dem byp k r).mst != stSafe) = false := by
    rw [hk.tstate, hk.mst]
    rcases h with h | h <;> simp [h]
  show (if _ then _ else if _ then _ else _) = _
  rw [← State.showDemand, harmed]
  rfl

/-- An output in RUN of an ARMED Tocsin: a demand trips it, and without demand only LATCH keeps it tripped. -/
theorem evalTripOut_running (ha : s.tstate = tsArmed) (hm : s.mst = stRun) (hc : s.cst (toId k) = csRun) :
    s.evalTripOut dem byp (k, r) =
      if s.tripK k r byp ≤ s.tripN k dem byp then
        if (s.showDemand dem byp k r).tripped k then s.showDemand dem byp k r
        else ((s.showDemand dem byp k r).setTripped k true).takeTrip k (s.tripN k dem byp)
      else if trLatch r then s.showDemand dem byp k r else (s.showDemand dem byp k r).setTripped k false := by
  have hk := keeps_showDemand s dem byp (k := k) r
  have harmed : ((s.showDemand dem byp k r).tstate == tsArmed && (s.showDemand dem byp k r).mst != stSafe) = true := by
    rw [hk.tstate, hk.mst, ha, hm]
    rfl
  have hst : (s.showDemand dem byp k r).cst (toId k) = csRun := (showDemand_cst s dem byp r).trans hc
  unfold State.evalTripOut
  dsimp only
  rw [← State.showDemand, harmed, hst]
  simp [csRun, csStart, csOff]

theorem evalTripOut_demand (ha : s.tstate = tsArmed) (hm : s.mst = stRun) (hc : s.cst (toId k) = csRun) (hk : k < 128)
    (hd : s.tripK k r byp ≤ s.tripN k dem byp) : (s.evalTripOut dem byp (k, r)).tripped k = true := by
  rw [evalTripOut_running s dem byp r ha hm hc, if_pos hd]
  split
  · next h => exact h
  · exact ((Leaves.refl _ (trippedField_watched (by omega))).takeTrip).tripped.trans (setTripped_same _ true hk)

theorem evalTripOut_noDemand (ha : s.tstate = tsArmed) (hm : s.mst = stRun) (hc : s.cst (toId k) = csRun) (hk : k < 128)
    (hd : s.tripN k dem byp < s.tripK k r byp) : (s.evalTripOut dem byp (k, r)).tripped k = (trLatch r && s.tripped k) := by
  rw [evalTripOut_running s dem byp r ha hm hc, if_neg hd.not_ge]
  split
  · next h => rw [showDemand_tripped s dem byp r hk, h, Bool.true_and]
  · next h => rw [setTripped_same _ false hk, Bool.eq_false_iff.mpr h, Bool.false_and]

theorem evalTripOut_other (hj : j < 128) (hne : j ≠ k) : (s.evalTripOut dem byp (k, r)).tripped j = s.tripped j := by
  have hw : tbBase + (trippedField j).off ∈ watchedRegs := trippedField_watched (by omega)
  have hd := leaves_showDemand s dem byp (k := k) r hw
  have hset : ∀ {t : State} {v}, Leaves (tbBase + (trippedField j).off) s t → (t.setTripped k v).tripped j = s.tripped j := fun h =>
    (setTripped_other _ _ hj hne).trans h.tripped
  unfold State.evalTripOut
  dsimp only
  rw [← State.showDemand]
  split
  · exact hset hd.setCst
  · split
    · exact hset hd
    · split
      · split
        · exact hd.tripped
        · exact ((Leaves.refl _ hw).takeTrip).tripped.trans (hset hd)
      · split
        · exact hd.tripped
        · exact hset hd

end evaluation

/-! A scan (R181). -/

/-- A scan up to the count of the rails: the inputs, the outputs, the resets, the commands and the line. -/
def Machine.State.scanBody (s : State) : State :=
  let s := s.expireBypasses.sampleInputs.tryArm
  let s := (s.tripOuts.foldl (fun u kr => u.evalTripOut s.demanding s.bypassed kr) s).applyResets.issueCommands
  s.when (s.mst == stSafe || s.tstate == tsSafe) fun s => s.setLine false

/-- A scan that has completed; what is left is to judge the column and the rails. -/
def Machine.State.scanned (s : State) (railsOk : Bool) : State :=
  s.scanBody.modToc fun t =>
    { t with column := !t.column, rails := if railsOk then 0 else t.rails + 1, scanned := true,
             tx := (List.range 8).foldl (fun m n => let e := Store.get (0, 0) m n; Store.set (0, 0) m n (e.1, min 200 (e.2 + 1))) t.tx }

/-- A scan counts, and the time that it took is shown. -/
def Machine.State.openScan (s : State) (ns : BitVec 16) : State :=
  (s.wrw tbBase Reg.TB_SCANCNT (s.rdw tbBase Reg.TB_SCANCNT + 1)).wr tbBase Reg.TB_SCANMAX_EVALNS (max (s.rd tbBase Reg.TB_SCANMAX_EVALNS) ns.toNat)

theorem leaves_scanBody (s : State) {w : Nat} (hw : w ∈ faultRegs) : Leaves w s s.scanBody := by
  unfold State.scanBody
  refine .when (.issueCommands (.applyResets (.foldl ?_ fun _ _ h => h.evalTripOut hw) hw)) fun _ h => h.setLine
  exact ((Leaves.refl s (faultRegs_watched hw)).expireBypasses.sampleInputs hw).tryArm

theorem scanned_reg (s : State) (railsOk : Bool) {w : Nat} (hw : w ∈ faultRegs) : (s.scanned railsOk).reg w = s.reg w := by
  rw [State.scanned, State.modToc_reg, (leaves_scanBody s hw).reg]

theorem scanned_mst (s : State) (railsOk : Bool) : (s.scanned railsOk).mst = s.mst := by
  rw [State.mst, State.rd, scanned_reg s railsOk (by decide), State.mst, State.rd]

theorem scanned_causes (s : State) (railsOk : Bool) : (s.scanned railsOk).causes = s.causes := by
  rw [State.causes, State.rd, scanned_reg s railsOk (by decide), State.causes, State.rd]

theorem scanned_rails (s : State) (railsOk : Bool) : (s.scanned railsOk).toc.rails = if railsOk then 0 else s.toc.rails + 1 := by
  rw [← (leaves_scanBody s (List.mem_cons_self : modBase + Reg.MOD_STATE_STATE.off ∈ faultRegs)).rails]
  rfl

/-- The judgement: a column that fails, and rails that disagree in two scans. -/
theorem scan_eq (s : State) (columnOk railsOk : Bool) : s.scan columnOk railsOk =
    let t := (s.scanned railsOk).when (!columnOk) fun s => s.safetyFault .tstFail 0 2
    t.when (2 ≤ t.toc.rails && !railsOk) fun s => s.safetyFault .tstFail 0 4 := rfl

theorem scan_passes (s : State) : s.scan true true = s.scanned true := by simp [scan_eq]

theorem scan_columnFault (s : State) : s.scan false true = (s.scanned true).safetyFault .tstFail 0 2 := by simp [scan_eq]

theorem scan_railsFault (h : 1 ≤ s.toc.rails) : s.scan true false = (s.scanned false).safetyFault .tstFail 0 4 := by
  have hr : 2 ≤ (s.scanned false).toc.rails := by rw [scanned_rails]; exact Nat.succ_le_succ h
  simp [scan_eq, hr]

theorem scan_railsOnce (h : s.toc.rails = 0) : s.scan true false = s.scanned false := by
  have hr : ¬ 2 ≤ (s.scanned false).toc.rails := by rw [scanned_rails, h]; decide
  simp [scan_eq, hr]

theorem rd_countScan (s : State) (n : Word) {f : Field} (h : tbBase + f.off ∉ [tbBase + Reg.TB_SCANCNT.off] := by decide) :
    (s.wrw tbBase Reg.TB_SCANCNT n).rd tbBase f = s.rd tbBase f :=
  RegsBut.rd ((RegsBut.refl _ s).wrw) _ _ h

section scan

variable (s) (ns : BitVec 16) (hs : s.scanning = true)
include hs

theorem exec_tocsinScan (c r : Bool) : exec (.tocsinScan ns false c r) s = .next ((s.openScan ns).scan c r).settle := by
  show execTocsinScan ns false c r s = _
  simp only [execTocsinScan, hs, if_true, Bool.false_eq_true, if_false, done_eq, State.openScan, rd_countScan s _ (f := Reg.TB_SCANMAX_EVALNS)]

theorem exec_tocsinScan_missed (c r : Bool) : exec (.tocsinScan ns true c r) s = .next ((s.openScan ns).bump tbBase Reg.TB_SCANMAX_MISSED).settle := by
  show execTocsinScan ns true c r s = _
  simp only [execTocsinScan, hs, if_true, done_eq, State.openScan, rd_countScan s _ (f := Reg.TB_SCANMAX_EVALNS)]

end scan

theorem openScan_mst (s : State) (ns : BitVec 16) : (s.openScan ns).mst = s.mst := by
  have h : RegsBut [tbBase + Reg.TB_SCANCNT.off, tbBase + Reg.TB_SCANMAX_MISSED.off] s (s.openScan ns) := (RegsBut.refl _ s).wrw.wr
  exact h.rd _ _

theorem tocsinScan_missed (s : State) (ns : BitVec 16) (c r : Bool) (hs : s.scanning = true) :
    Answers (.tocsinScan ns true c r) s fun t =>
      t.rdw tbBase Reg.TB_SCANCNT = s.rdw tbBase Reg.TB_SCANCNT + 1 ∧
      t.rd tbBase Reg.TB_SCANMAX_MISSED = min (s.rd tbBase Reg.TB_SCANMAX_MISSED + 1) 65535 ∧
      RegsKept [tbBase + Reg.TB_SCANCNT.off, tbBase + Reg.TB_SCANMAX_MISSED.off] s t := by
  have hr : RegsBut [tbBase + Reg.TB_SCANCNT.off, tbBase + Reg.TB_SCANMAX_MISSED.off] s ((s.openScan ns).bump tbBase Reg.TB_SCANMAX_MISSED) :=
    (RegsBut.refl _ s).wrw.wr.bump
  have hcnt : RegsBut [tbBase + Reg.TB_SCANMAX_MISSED.off] (s.wrw tbBase Reg.TB_SCANCNT (s.rdw tbBase Reg.TB_SCANCNT + 1))
      ((s.openScan ns).bump tbBase Reg.TB_SCANMAX_MISSED) := (RegsBut.refl _ _).wr.bump
  have hmissed : (s.openScan ns).rd tbBase Reg.TB_SCANMAX_MISSED = s.rd tbBase Reg.TB_SCANMAX_MISSED := by
    rw [State.openScan, State.rd_wr_apart _ _ _ _ _ _ (by decide) (by decide), rd_countScan]
  refine ⟨_, exec_tocsinScan_missed s ns hs c r, ?_, ?_, hr.settled⟩
  · rw [State.rdw, State.settle_reg _ _ (by decide), hcnt _ (by decide)]
    exact State.rdw_wrw_same ..
  · rw [State.settle_rd _ _ _ (by decide), State.rd_bump _ _ _ (by decide), hmissed]
    rfl

/-! A scan that passes. -/

theorem tocsinScan_passes (s : State) (ns : BitVec 16) (hs : s.scanning = true) :
    Answers (.tocsinScan ns false true true) s fun t => t.toc.scanned = true ∧ t.toc.rails = 0 := by
  have hp : (s.openScan ns).scan true true = (s.openScan ns).scanned true := scan_passes _
  refine ⟨_, exec_tocsinScan s ns hs true true, ?_, ?_⟩
  · rw [State.settle_toc, hp]
    rfl
  · rw [State.settle_toc, hp, scanned_rails, if_pos rfl]

/-- There is nothing for a scan to sample, to evaluate, to reset and to command. -/
structure NothingConfigured (s : State) : Prop where
  tripins : s.tripins = []
  tripOuts : s.tripOuts = []
  physicalCells : s.physicalCells = []
  inputs : s.toc.inputs = []
  resets : s.toc.resets = []

theorem NothingConfigured.wr {b : Nat} {f : Field} {v : Nat} (h : NothingConfigured s) : NothingConfigured (s.wr b f v) :=
  ⟨h.tripins, h.tripOuts, h.physicalCells, h.inputs, h.resets⟩

theorem NothingConfigured.wrw {b : Nat} {f : Field} {v : Word} (h : NothingConfigured s) : NothingConfigured (s.wrw b f v) :=
  ⟨h.tripins, h.tripOuts, h.physicalCells, h.inputs, h.resets⟩

theorem NothingConfigured.expireBypasses (h : NothingConfigured s) : s.expireBypasses = s := by
  rw [State.expireBypasses, h.inputs]
  rfl

theorem NothingConfigured.sampleInputs (h : NothingConfigured s) : s.sampleInputs = s := by
  rw [State.sampleInputs, h.tripins]
  rfl

theorem NothingConfigured.applyResets (h : NothingConfigured s) : s.applyResets = s.modToc fun t => { t with resets := [] } := by
  simp only [State.applyResets, h.resets, List.foldl_nil]

theorem NothingConfigured.noResets (h : NothingConfigured s) : NothingConfigured (s.modToc fun t => { t with resets := [] }) :=
  ⟨h.tripins, h.tripOuts, h.physicalCells, h.inputs, rfl⟩

theorem NothingConfigured.issueCommands (h : NothingConfigured s) : s.issueCommands = s := by
  simp only [State.issueCommands, h.physicalCells, h.tripOuts, List.foldl_nil]

/-- The conditions of R184. -/
theorem tryArm_arms (ht : s.tstate = tsDisarmed) (hm : s.mst = stReady) (hc : s.img.committed = true)
    (hp : s.flag tbBase Reg.TB_STATUS_STPASS = true) (hd : s.flag tbBase Reg.TB_STATUS_DBGFLAG = false) (hi : s.toc.safeIn = true) (hz : s.causes = 0) :
    s.tryArm = s.setTstate tsArmed := by
  simp [State.tryArm, State.mstIn, ht, hm, hc, hp, hd, hi, hz]

theorem setTstate_mst (s : State) (n : Nat) : (s.setTstate n).mst = s.mst := State.rd_wr_of_ne _ _ _ _ _ _ (by decide)

/-- With nothing configured, a scan that arms Tocsin does nothing else. -/
theorem scanBody_arms (h : NothingConfigured s) (harm : s.tryArm = s.setTstate tsArmed) (hm : s.mst = stReady) :
    s.scanBody = (s.setTstate tsArmed).modToc fun t => { t with resets := [] } := by
  have ha : NothingConfigured (s.setTstate tsArmed) := h.wr
  have hsafe : ((s.setTstate tsArmed).mst == stSafe || (s.setTstate tsArmed).tstate == tsSafe) = false := by
    rw [setTstate_mst, hm, setTstate_tstate s (by decide)]
    rfl
  unfold State.scanBody
  dsimp only
  rw [h.expireBypasses, h.sampleInputs, harm, ha.tripOuts, List.foldl_nil, ha.applyResets, ha.noResets.issueCommands]
  exact (congrArg (fun c => State.when _ c _) hsafe).trans (State.when_false _ _)

theorem tocsinScan_arms (s : State) (ns : BitVec 16) (hs : s.scanning = true) (ht : s.tstate = tsDisarmed) (hm : s.mst = stReady)
    (hc : s.img.committed = true) (hp : s.flag tbBase Reg.TB_STATUS_STPASS = true) (hd : s.flag tbBase Reg.TB_STATUS_DBGFLAG = false)
    (hi : s.toc.safeIn = true) (hz : s.causes = 0) (hins : s.tripins = []) (houts : s.tripOuts = []) (hcells : s.physicalCells = [])
    (hbyp : s.toc.inputs = []) (hres : s.toc.resets = []) :
    Answers (.tocsinScan ns false true true) s fun t =>
      t.tstate = tsArmed ∧ t.mst = stReady ∧ t.rdw tbBase Reg.TB_SCANCNT = s.rdw tbBase Reg.TB_SCANCNT + 1 := by
  have hr : RegsBut [tbBase + Reg.TB_SCANCNT.off, tbBase + Reg.TB_SCANMAX_MISSED.off] s (s.openScan ns) := (RegsBut.refl _ s).wrw.wr
  have hn : NothingConfigured (s.openScan ns) := (NothingConfigured.mk hins houts hcells hbyp hres).wrw.wr
  have harm : (s.openScan ns).tryArm = (s.openScan ns).setTstate tsArmed :=
    tryArm_arms ((hr.rd _ _).trans ht) ((hr.rd _ _).trans hm) hc ((hr.flag _ _).trans hp) ((hr.flag _ _).trans hd) hi ((hr.rd _ _).trans hz)
  have hregs : ((s.openScan ns).scan true true).regs = ((s.openScan ns).setTstate tsArmed).regs := by
    rw [scan_passes, State.scanned, State.modToc_regs, scanBody_arms hn harm ((hr.rd _ _).trans hm), State.modToc_regs]
  have hreg : ∀ a, ((s.openScan ns).scan true true).reg a = ((s.openScan ns).setTstate tsArmed).reg a := fun a => by rw [State.reg, hregs, State.reg]
  refine ⟨_, exec_tocsinScan s ns hs true true, ?_, ?_, ?_⟩
  · rw [settle_tstate, State.tstate, State.rd, hreg, ← State.rd, ← State.tstate, setTstate_tstate _ (by decide)]
  · rw [State.settle_mst, State.mst, State.rd, hreg, ← State.rd, ← State.mst, setTstate_mst, openScan_mst, hm]
  · have hcnt : RegsBut [tbBase + Reg.TB_SCANMAX_MISSED.off, tbBase + Reg.TB_STATUS_TSTATE.off]
        (s.wrw tbBase Reg.TB_SCANCNT (s.rdw tbBase Reg.TB_SCANCNT + 1)) ((s.openScan ns).setTstate tsArmed) := ((RegsBut.refl _ _).wr).wr
    rw [State.rdw, State.settle_reg _ _ (by decide), hreg, hcnt _ (by decide)]
    exact State.rdw_wrw_same ..

/-! The scan's own faults (R185). -/

/-- TB.CAUSE keeps the subcode while the module and Tocsin enter SAFE. -/
theorem safetyFault_sub (sub : Nat) (h : s.mst ∈ faultStates) : (s.safetyFault .tstFail 0 sub).rd tbBase Reg.TB_CAUSE_SUB = sub % 16 := by
  let u : State := (s.firstCause .tstFail).wr tbBase Reg.TB_CAUSE_LATCHED ((s.firstCause .tstFail).causes ||| 2 ^ (causeCode .tstFail - 1))
  have hlatch : Leaves (tbBase + Reg.TB_CAUSE_SUB.off) (u.wr tbBase Reg.TB_CAUSE_SUB sub) (s.latchCause .tstFail 0 sub) :=
    (Leaves.refl _).when fun _ h => h.occur
  have hsafe : Leaves (tbBase + Reg.TB_CAUSE_SUB.off) (s.latchCause .tstFail 0 sub) (s.latchCause .tstFail 0 sub).goSafe :=
    (Leaves.refl _).goSafe
  have htrip : Leaves (tbBase + Reg.TB_CAUSE_SUB.off) (s.latchCause .tstFail 0 sub).goSafe (s.safetyFault .tstFail 0 sub) := by
    rw [safetyFault_of_operating .tstFail 0 sub h]
    exact (Leaves.refl _).tocsinSafe.tripFor
  rw [((hlatch.trans hsafe).trans htrip).rd, State.rd_wr_same _ _ _ _ (by decide)]
  rfl

/-- A self-test that fails takes an operating module to SAFE and shows its subcode. -/
theorem failed_selfTest {i : Instr} {sub : Nat} (hu : u.mst ∈ faultStates) (hsub : sub < 16) (hi : exec i s = .next (u.safetyFault .tstFail 0 sub).settle) :
    Answers i s fun t => t.mst = stSafe ∧ t.causeLatched .tstFail = true ∧ t.rd tbBase Reg.TB_CAUSE_SUB = sub := by
  refine ⟨_, hi, ?_, ?_, ?_⟩
  · rw [State.settle_mst, safetyFault_mst hu]
  · rw [settle_causeLatched, safetyFault_causeLatched hu]
  · rw [State.settle_rd _ _ _ (by decide), safetyFault_sub sub hu, Nat.mod_eq_of_lt hsub]

theorem run_mem_faultStates (h : s.mst = stRun) : s.mst ∈ faultStates := by
  rw [h]
  decide

theorem scanned_operating (ns : BitVec 16) (r : Bool) (h : s.mst = stRun) : ((s.openScan ns).scanned r).mst ∈ faultStates :=
  run_mem_faultStates ((scanned_mst _ r).trans ((openScan_mst s ns).trans h))

theorem tocsinScan_columnFault (s : State) (ns : BitVec 16) (hm : s.mst = stRun) (hs : s.scanning = true) :
    Answers (.tocsinScan ns false false true) s fun t => t.mst = stSafe ∧ t.causeLatched .tstFail = true ∧ t.rd tbBase Reg.TB_CAUSE_SUB = 2 :=
  failed_selfTest (scanned_operating ns true hm) (by decide) (by rw [exec_tocsinScan s ns hs, scan_columnFault])

theorem tocsinScan_railsFault (s : State) (ns : BitVec 16) (hm : s.mst = stRun) (hs : s.scanning = true) (hr : 1 ≤ s.toc.rails) :
    Answers (.tocsinScan ns false true false) s fun t => t.mst = stSafe ∧ t.causeLatched .tstFail = true ∧ t.rd tbBase Reg.TB_CAUSE_SUB = 4 :=
  failed_selfTest (scanned_operating ns false hm) (by decide) (by rw [exec_tocsinScan s ns hs, scan_railsFault (s := s.openScan ns) hr])

theorem tocsinScan_railsOnce (s : State) (ns : BitVec 16) (hm : s.mst = stRun) (hs : s.scanning = true) (hr : s.toc.rails = 0) :
    Answers (.tocsinScan ns false true false) s fun t => t.mst = stRun ∧ t.toc.rails = 1 ∧ t.causes = s.causes := by
  have ho : (s.openScan ns).toc.rails = 0 := hr
  have hb : RegsBut [tbBase + Reg.TB_SCANCNT.off, tbBase + Reg.TB_SCANMAX_MISSED.off] s (s.openScan ns) := (RegsBut.refl _ s).wrw.wr
  refine ⟨_, exec_tocsinScan s ns hs true false, ?_, ?_, ?_⟩
  · rw [State.settle_mst, scan_railsOnce ho, scanned_mst, openScan_mst, hm]
  · rw [State.settle_toc, scan_railsOnce ho, scanned_rails, ho]
    rfl
  · rw [State.causes, State.settle_rd _ _ _ (by decide), ← State.causes, scan_railsOnce ho, scanned_causes]
    exact hb.rd _ _

theorem scanWatchdog_expires (s : State) (hm : s.mst = stRun) (ha : s.tstate = tsArmed) :
    Answers .scanWatchdogExpiry s fun t => t.mst = stSafe ∧ t.causeLatched .tstFail = true ∧ t.rd tbBase Reg.TB_CAUSE_SUB = 1 ∧ t.tstate = tsSafe := by
  have hf := run_mem_faultStates hm
  have hstop : (s.tstate == tsStopped) = false := by rw [ha]; rfl
  have hx : exec .scanWatchdogExpiry s = .next (s.safetyFault .tstFail 0 1).settle := done_of_false hstop _ _
  obtain ⟨t, ht, hmst, hcause, hsub⟩ := failed_selfTest hf (by decide) hx
  refine ⟨t, ht, hmst, hcause, hsub, ?_⟩
  cases hx.symm.trans ht
  rw [settle_tstate, safetyFault_tstate hf ha rfl]

theorem matrixCrc_fails (s : State) (ok : Bool) (hm : s.mst = stRun) (hs : s.scanning = true) (hbad : ok = false ∨ s.toc.matrixBad = true) :
    Answers (.matrixCrcCheck ok) s fun t => t.mst = stSafe ∧ t.causeLatched .tstFail = true ∧ t.rd tbBase Reg.TB_CAUSE_SUB = 3 := by
  have hgo : (s.scanning && (!ok || s.toc.matrixBad)) = true := by
    rcases hbad with h | h <;> simp [hs, h]
  exact failed_selfTest (run_mem_faultStates hm) (by decide) (done_of_true hgo _ _)

theorem matrixCrc_passes (s : State) (h : s.toc.matrixBad = false) : exec (.matrixCrcCheck true) s = .next s.settle :=
  done_of_false (by simp [h]) _ _

/-- Settles O14: an output follows its demands while Tocsin is ARMED, and a scan that completes counts, arms, and reports what fails in it. -/
theorem tocsinScansTripsAndTestsItself : Obligations.TocsinScansTripsAndTestsItself := by
  unfold Obligations.TocsinScansTripsAndTestsItself
  exact ⟨fun s dem byp _ r ha hm hc hk => evalTripOut_demand s dem byp r ha hm hc hk, fun s dem byp _ r ha hm hc hk => evalTripOut_noDemand s dem byp r ha hm hc hk,
    fun s dem byp _ r h hk => by rw [evalTripOut_idle s dem byp r h, setTripped_same _ true hk], fun s dem byp _ _ r _ => evalTripOut_other s dem byp r,
    tocsinScan_missed, tocsinScan_arms, fun s ns c r hs => exec_tocsinScan s ns hs c r, tocsinScan_passes, fun _ h => done_of_false h _ _,
    scanWatchdog_expires, tocsinScan_columnFault, tocsinScan_railsFault, tocsinScan_railsOnce, matrixCrc_fails, matrixCrc_passes⟩

end Sys2Proof
end

