-- ==== Sys2Proof/Proofs/ChannelState.lean ====
section
/-! The channel's rules (07): what a write elsewhere leaves of the hidden state of a channel, and what the operations shared by its events change: the
comparators (R215), the output stage (R209, R210) and the isolation of its cell (R91). -/

namespace Sys2Proof

open Sys2Proof.Machine

variable {s t : State} {n : Nat}

/-! Where the page of a channel stands. -/

theorem kindOf_ucId (uc : Fin 32) : kindOf (ucId uc.val) = some .uc := by
  revert uc
  decide

/-! What a write elsewhere leaves of the hidden state of a channel. -/

@[simp] theorem uc_wr (s : State) (b : Nat) (f : Field) (v n : Nat) : (s.wr b f v).uc n = s.uc n := (rfl)
@[simp] theorem uc_wrw (s : State) (b : Nat) (f : Field) (v : Word) (n : Nat) : (s.wrw b f v).uc n = s.uc n := (rfl)
@[simp] theorem uc_setFlag (s : State) (b : Nat) (f : Field) (v : Bool) (n : Nat) : (s.setFlag b f v).uc n = s.uc n := (rfl)
@[simp] theorem uc_bumpBy (s : State) (b : Nat) (f : Field) (v n : Nat) : (s.bumpBy b f v).uc n = s.uc n := (rfl)
@[simp] theorem uc_bump (s : State) (b : Nat) (f : Field) (n : Nat) : (s.bump b f).uc n = s.uc n := (rfl)
@[simp] theorem uc_modCell (s : State) (id : Nat) (f : CellSt → CellSt) (n : Nat) : (s.modCell id f).uc n = s.uc n := (rfl)
@[simp] theorem uc_answer (s : State) (p : Port) (c : Code) (n : Nat) : (s.answer p c).uc n = s.uc n := (rfl)

@[simp] theorem uc_settle (s : State) (n : Nat) : s.settle.uc n = s.uc n := by rw [State.uc, State.settle_ucs, State.uc]

@[simp] theorem uc_notice (s : State) (k : AlarmKind) (a b c n : Nat) : (s.notice k a b c).uc n = s.uc n := by
  obtain ⟨t, h⟩ := s.notice_cases k a b c
  rw [h]
  rfl

@[simp] theorem uc_modUc (s : State) (n : Nat) (f : UcSt → UcSt) : (s.modUc n f).uc n = f (s.uc n) := by rw [State.modUc_uc, if_pos rfl]

theorem uc_dropHeld (s : State) (id n : Nat) : (s.dropHeld id).uc n = s.uc n := (rfl)

theorem uc_when {f : State → State} {c : Bool} {n : Nat} (h : ∀ u : State, (f u).uc n = u.uc n) : (s.when c f).uc n = s.uc n := by
  rw [State.when, apply_ite (State.uc · n), h, ite_self]

/-! The same of the hidden state that every cell has. -/

theorem cell_setFlag (s : State) (b : Nat) (f : Field) (v : Bool) (id : Nat) : (s.setFlag b f v).cell id = s.cell id := (rfl)
theorem cell_dropHeld (s : State) (k id : Nat) : (s.dropHeld k).cell id = s.cell id := (rfl)

theorem cell_when {f : State → State} {c : Bool} {id : Nat} (h : ∀ u : State, (f u).cell id = u.cell id) : (s.when c f).cell id = s.cell id := by
  rw [State.when, apply_ite (State.cell · id), h, ite_self]

/-- A change of the hidden state of a channel is no write of a register. -/
theorem CellWrites.modUc {l : List Field} {id : Nat} {f : UcSt → UcSt} (h : CellWrites l id s t) : CellWrites l id s (t.modUc n f) := h.same

theorem CellWrites.ite {l : List Field} {id : Nat} {c : Prop} [Decidable c] {u : State} (ht : CellWrites l id s t) (hu : CellWrites l id s u) :
    CellWrites l id s (if c then t else u) := by
  split
  · exact ht
  · exact hu

theorem CellWrites.bumpBy {l : List Field} {id : Nat} {f : Field} {k : Nat} (h : CellWrites l id s t) (hm : f ∈ l := by decide)
    (hf : f.lo + f.width ≤ 32 := by decide) : CellWrites l id s (t.bumpBy (cellBase id) f k) := h.wr hm hf

theorem CellWrites.bump {l : List Field} {id : Nat} {f : Field} (h : CellWrites l id s t) (hm : f ∈ l := by decide)
    (hf : f.lo + f.width ≤ 32 := by decide) : CellWrites l id s (t.bump (cellBase id) f) := h.wr hm hf

theorem CellWrites.cst {l : List Field} {id : Nat} (h : CellWrites l id s t) (hg : ApartFrom Reg.CELL_STATE_STATE l := by decide) : t.cst id = s.cst id :=
  h.rd _ hg

theorem CellWrites.dropHeld {l : List Field} {id k : Nat} (h : CellWrites l id s t) : CellWrites l id s (t.dropHeld k) := h.same

/-- A list of fields whose registers stand at the offsets `os` of the page. -/
theorem CellWrites.kept {l : List Field} {id : Nat} (h : CellWrites l id s t) {m : List Nat} (hm : ∀ f ∈ l, cellBase id + f.off ∈ m) : RegsKept m s t.settle :=
  fun a ha hf => (State.settle_reg t a hf).trans (h.regs a fun f hl e => ha (e ▸ hm f hl))

/-! What a channel's record says stands in the images alone. -/

theorem uc0_of_img (h : t.img = s.img) (n : Nat) : t.uc0 n = s.uc0 n := by rw [State.uc0, State.cfg, h, State.uc0, State.cfg]

theorem ucFunc_of_img (h : t.img = s.img) (n : Nat) : t.ucFunc n = s.ucFunc n := by rw [State.ucFunc, uc0_of_img h, State.ucFunc]

theorem ucOutput_of_img (h : t.img = s.img) (n : Nat) : t.ucOutput n = s.ucOutput n := by rw [State.ucOutput, ucFunc_of_img h, State.ucOutput]

theorem settle_cst (s : State) (id : Nat) : s.settle.cst id = s.cst id := settle_cellRd s id _ (by decide)

theorem settle_cell (s : State) (id : Nat) : s.settle.cell id = s.cell id := by rw [State.cell, State.settle_fab, State.cell]

/-! The comparators (R215). -/

@[simp] theorem uc_setComparator (s : State) (k c : Nat) (v : Bool) (n : Nat) : (s.setComparator k c v).uc n = s.uc n := by
  unfold State.setComparator
  rw [apply_ite (State.uc · n), uc_notice, ite_self, uc_setFlag]

/-- The fields of the comparators. -/
def comparatorFields : List Field := [Reg.UC_STATUS_CMPLO, Reg.UC_STATUS_CMPHI]

theorem CellWrites.setComparator {c : Nat} {v : Bool} (h : CellWrites comparatorFields (ucId n) s t) :
    CellWrites comparatorFields (ucId n) s (t.setComparator n c v) := by
  have hw : CellWrites comparatorFields (ucId n) s (t.setFlag (cellBase (ucId n)) (if c = 0 then Reg.UC_STATUS_CMPLO else Reg.UC_STATUS_CMPHI) v) := by
    split
    · exact h.setFlag
    · exact h.setFlag
  exact .ite (hw.same (State.notice_regs ..)) hw

theorem compareUc_writes (s : State) (n : Nat) (v : Rat) : CellWrites comparatorFields (ucId n) s (s.compareUc n v) := by
  have h := CellWrites.refl comparatorFields (ucId n) s
  unfold State.compareUc
  exact .ite h (.ite h.setComparator.setComparator h.setComparator.setComparator.modUc)

theorem compareUc_uc (s : State) (n : Nat) (v : Rat) : ∃ lo hi, (s.compareUc n v).uc n = { s.uc n with loRun := lo, hiRun := hi } := by
  unfold State.compareUc
  dsimp only
  split
  · exact ⟨_, _, rfl⟩
  · split
    · exact ⟨_, _, by rw [uc_setComparator, uc_setComparator]⟩
    · exact ⟨_, _, by rw [uc_modUc, uc_setComparator, uc_setComparator]⟩

/-! The output stage (R209, R210). -/

/-- The registers that follow what drives the stage. -/
def stageFields : List Field := [Reg.UC_DRIVE, Reg.UC_RAW]

theorem driveUc_writes (s : State) (n : Nat) : CellWrites stageFields (ucId n) s (s.driveUc n) := by
  have h := CellWrites.refl stageFields (ucId n) s
  unfold State.driveUc
  refine .ite h ?_
  split
  · exact h.wrw.wrw.modUc
  · exact .ite h h.wrw.wrw.modUc

theorem driveUc_uc (s : State) (n : Nat) : ∃ on lim, (s.driveUc n).uc n = { s.uc n with on := on, lim := lim } := by
  unfold State.driveUc
  dsimp only
  split
  · exact ⟨_, _, rfl⟩
  · split
    · exact ⟨_, _, by rw [uc_modUc, uc_wrw, uc_wrw]⟩
    · split
      · exact ⟨_, _, rfl⟩
      · exact ⟨_, _, by rw [uc_modUc, uc_wrw, uc_wrw]⟩

theorem driveUc_fab (s : State) (n : Nat) : (s.driveUc n).fab = s.fab := by
  unfold State.driveUc
  dsimp only
  split
  · rfl
  · split
    · rfl
    · split <;> rfl

/-- A stage that has failed drives nothing. -/
theorem driveUc_stageBad (ho : s.ucOutput n = true) (hx : s.exists_ (ucId n) = true) (hb : (s.uc n).stageBad = true) :
    s.driveUc n = ((s.wrw (cellBase (ucId n)) Reg.UC_DRIVE 0).wrw (cellBase (ucId n)) Reg.UC_RAW 0).modUc n fun u => { u with on := false, lim := 0 } := by
  have hg : s.ucGoal n = none := if_pos (by rw [hb]; simp)
  unfold State.driveUc
  rw [ho, hx, hg]
  rfl

/-! A channel is isolated (R91). -/

theorem setCst_fault_uc {id : Nat} (hk : kindOf id = some .uc) (s : State) : s.setCst id csFault = s.wr (cellBase id) Reg.CELL_STATE_STATE csFault := by
  have h1 : ∀ was (u : State), u.loopCst id was csFault = u := fun was u => if_neg (by simp [hk])
  have h2 : ∀ was (u : State), u.phCst id was csFault = u := fun was u => if_neg (by simp [hk])
  have h3 : ∀ u : State, u.ucCst id csFault = u := fun u => if_neg (by rw [Bool.and_eq_true]; exact fun h => absurd h.2 (by decide))
  have h4 : ∀ u : State, u.dpCst id csFault = u := fun u => if_neg (by simp [hk])
  have h5 : (csFault != csFault) = false := rfl
  have h6 : ¬ (csFault = csRecover ∧ s.phOwesStart id = true) := fun h => absurd h.1 (by decide)
  have h7 : csFault ≠ csStart ∧ csFault ≠ csRecover := by decide
  simp only [State.setCst, if_neg h6, h1, h2, h3, h4, h5, Bool.and_false, State.when_false, if_neg h7.1, if_neg h7.2]

/-- The fields that the isolation of a cell writes. -/
def isolationCellFields : List Field := [Reg.CELL_STATE_STATE, Reg.CELL_STATE_ISOL, Reg.CELL_ERR_ISOLATIONS, Reg.CELL_STATE_LATCHED]

section

variable {id : Nat} (hk : kindOf id = some .uc) (s : State) (cause : Bool)

include hk

theorem enterFault_writes : CellWrites isolationCellFields id s (s.enterFault id cause) := by
  unfold State.enterFault
  rw [setCst_fault_uc hk]
  exact ((CellWrites.refl isolationCellFields id s).wr.setFlag.bump.modCell.when fun _ h => h.setFlag).dropHeld

theorem enterFault_shown : (s.enterFault id cause).cst id = csFault ∧ (s.enterFault id cause).flag (cellBase id) Reg.CELL_STATE_ISOL = true := by
  have h : CellWrites [Reg.CELL_ERR_ISOLATIONS, Reg.CELL_STATE_LATCHED] id
      ((s.wr (cellBase id) Reg.CELL_STATE_STATE csFault).setFlag (cellBase id) Reg.CELL_STATE_ISOL true) (s.enterFault id cause) := by
    unfold State.enterFault
    rw [setCst_fault_uc hk]
    exact ((CellWrites.refl _ id _).bump.modCell.when fun _ h => h.setFlag).dropHeld
  constructor
  · rw [h.cst, State.cst, State.rd_setFlag_apart _ _ _ _ _ _ (by decide) (.inr (by decide)), State.rd_wr_same _ _ _ _ (by decide)]
    rfl
  · rw [h.flag _, State.flag_setFlag_same _ _ _ _ (by decide) rfl]

theorem enterFault_cause : ((s.enterFault id cause).cell id).cause = cause := by
  unfold State.enterFault
  rw [setCst_fault_uc hk, cell_dropHeld, cell_when (fun _ => cell_setFlag ..), State.modCell_cell, if_pos rfl]

theorem enterFault_uc (n : Nat) : (s.enterFault id cause).uc n = s.uc n := by
  unfold State.enterFault
  rw [setCst_fault_uc hk, uc_dropHeld, uc_when (fun _ => uc_setFlag ..), uc_modCell, uc_bump, uc_setFlag, uc_wr]

end

end Sys2Proof
end

