-- ==== Sys2Proof/Proofs/ChannelResults.lean ====
section
/-! A conversion result and an output's readback (R206, R212): what they show, and what a voltage inside its valid band gives. -/

namespace Sys2Proof

open Sys2Proof.Machine

variable {s t u : State} {n : Nat}

theorem bumpRuns_none {conds : List Bool} (h : ∀ c ∈ conds, c = false) (runs : List Nat) (i : Nat) : (bumpRuns conds runs).getD i 0 = 0 := by
  rw [List.getD_eq_getElem?_getD]
  cases hi : (bumpRuns conds runs)[i]? with
  | none => rfl
  | some x =>
    obtain ⟨p, hp, rfl⟩ := List.mem_map.mp (List.mem_of_getElem? hi)
    rw [h p.1 (List.of_mem_zip hp).1]
    rfl

/-- The conditions that a result shows stand in the runs of consecutive results. -/
def Machine.State.noteConds (s : State) (n : Nat) (conds : List Bool) (good : Bool) : State :=
  s.modUc n fun u => { u with faultRuns := bumpRuns conds u.faultRuns, goodRun := if good then u.goodRun + 1 else 0 }

/-- A result that shows none of the four conditions leaves a channel without a sensor fault without one. -/
theorem trackSensor_none {raw e : Rat} {o l : Bool} (hc : ∀ c ∈ s.ucConds n raw e o l, c = false) (hb : (s.uc n).sensorBad = false) :
    s.trackSensor n raw e o l = s.noteConds n (s.ucConds n raw e o l) (s.ucGoodResult n e (s.ucConds n raw e o l)) := by
  have h2 : decide (2 ≤ 0) = false := rfl
  unfold State.trackSensor State.noteConds
  simp only [uc_modUc, bumpRuns_none hc, h2, hb, Bool.or_false, Bool.false_and, State.when_false, Bool.false_eq_true, if_false]

/-- What the converter gave stands in UC.RAW and among the last results (R206, R222). -/
def Machine.State.sampled (s : State) (n : Nat) (raw : Rat) (cjBad : Bool) : State :=
  ((s.setFlag (cellBase (ucId n)) Reg.UC_STATUS_CJBAD cjBad).wrw (cellBase (ucId n)) Reg.UC_RAW (toF32c raw)).modUc n
    fun u => { u with raws := (toF32c raw :: u.raws).take 16 }

/-- A result without a sensor fault, of value `v` and quality `q`, is shown and compared. -/
def Machine.State.showResult (s : State) (n : Nat) (aux : Word) (res : Word × Qual × BitVec 12) : State :=
  (s.modUc n fun u => { u with value := res.1, qual := res.2.1, flags := res.2.2, aux := aux, fresh := true, since := true, reported := true, waiting := [] }).compareUc
    n (f32 res.1)

/-- The word that an electrical value `e` of a voltage or current input gives (R206, R207). -/
def Machine.State.linearWord (s : State) (n func : Nat) (e : Rat) : Word × Qual × BitVec 12 :=
  let band := ucBand func (s.ucRange n)
  let span := ucNominal func (s.ucRange n)
  let f := s.characterise n ((ratClamp band.1 band.2 e - span.1) / (span.2 - span.1))
  if (s.uc n).sensorBad then ((s.uc n).value, Q_BAD_SENSOR, flKept (s.uc n).flags)
  else if s.ucMultidrop n then (toF32c e, Q_UNCERTAIN, 0)
  else (toF32c (s.ucEuLo n + f.1 * (s.ucEuHi n - s.ucEuLo n)),
    if e < band.1 then Q_LOW_RANGE else if band.2 < e then Q_HIGH_RANGE
      else if s.flag (cellBase (ucId n)) Reg.UC_STATUS_CJBAD || s.flag (cellBase (ucId n)) Reg.UC_STATUS_FCALBAD then Q_UNCERTAIN else Q_GOOD, f.2)

/-- The channel after the sensor faults that a voltage shows have been tracked. -/
def Machine.State.voltsTracked (s : State) (n : Nat) (e : Rat) (o l : Bool) : State :=
  (s.sampled n e false).trackSensor n e (s.trimmed n e) o l

theorem inputResult_volts {ew aux cj : Word} {o l : Bool} (hf : s.ucFunc n = 1) :
    s.inputResult n ew aux cj o l =
      (s.voltsTracked n (f32 ew) o l).showResult n ew ((s.voltsTracked n (f32 ew) o l).linearWord n 1 (s.trimmed n (f32 ew))) := by
  unfold State.inputResult
  rw [hf]
  rfl

theorem ratClamp_of_mem {lo hi x : Rat} (hl : lo ≤ x) (hh : x ≤ hi) : ratClamp lo hi x = x := by
  have h : ratMin hi x = x := by
    rw [ratMin, ite_eq_right_iff]
    exact fun h => le_antisymm h hh
  rw [ratClamp, h, ratMax, if_pos hl]

/-- Inside the valid band of 0 to 10 V the value is GOOD, on the straight line of the engineering units. -/
theorem linearWord_good {e : Rat} (hr : s.ucRange n = 1) (hc : s.ucChar n = 0) (hh : s.ucHart n = false) (hb : (s.uc n).sensorBad = false)
    (hcj : s.flag (cellBase (ucId n)) Reg.UC_STATUS_CJBAD = false) (hfc : s.flag (cellBase (ucId n)) Reg.UC_STATUS_FCALBAD = false)
    (hlo : -(dec 2 1) ≤ e) (hhi : e ≤ dec 102 1) :
    s.linearWord n 1 e = (toF32c (s.ucEuLo n + e / 10 * (s.ucEuHi n - s.ucEuLo n)), Q_GOOD, 0) := by
  have hm : s.ucMultidrop n = false := by rw [State.ucMultidrop, hh, Bool.false_and]
  have hx : ∀ x, s.characterise n x = (x, 0) := fun x => by rw [State.characterise, hc]; rfl
  have hband : ucBand 1 1 = (-(dec 2 1), dec 102 1) := rfl
  have hspan : ucNominal 1 1 = (0, 10) := rfl
  simp only [State.linearWord, hr, hband, hspan, hx, hb, hm, hcj, hfc, Bool.false_eq_true, if_false, Bool.or_false, not_lt.mpr hlo, not_lt.mpr hhi,
    ratClamp_of_mem hlo hhi, sub_zero]

theorem ucConds_volts (hf : s.ucFunc n = 1) (raw e : Rat) (o l : Bool) : s.ucConds n raw e o l = [false, false, false, false] := by
  rw [State.ucConds, hf]
  rfl

section

variable {e : Rat} {o l : Bool} (hf : s.ucFunc n = 1) (hb : (s.uc n).sensorBad = false)

theorem sampled_img (s : State) (n : Nat) (e : Rat) (b : Bool) : (s.sampled n e b).img = s.img := (rfl)

theorem sampled_uc (s : State) (n : Nat) (e : Rat) (b : Bool) : (s.sampled n e b).uc n = { s.uc n with raws := (toF32c e :: (s.uc n).raws).take 16 } := by
  rw [State.sampled, uc_modUc, uc_wrw, uc_setFlag]

theorem sampled_writes (s : State) (n : Nat) (e : Rat) (b : Bool) : CellWrites [Reg.UC_STATUS_CJBAD, Reg.UC_RAW] (ucId n) s (s.sampled n e b) :=
  (CellWrites.refl _ _ s).setFlag.wrw.modUc

include hf hb

/-- A voltage shows no sensor fault. -/
theorem voltsTracked_eq : ∃ conds good, s.voltsTracked n e o l = (s.sampled n e false).noteConds n conds good := by
  have hf' : (s.sampled n e false).ucFunc n = 1 := (ucFunc_of_img (sampled_img ..) n).trans hf
  have hb' : ((s.sampled n e false).uc n).sensorBad = false := by rw [sampled_uc]; exact hb
  have hc : ∀ c ∈ (s.sampled n e false).ucConds n e (s.trimmed n e) o l, c = false := by
    rw [ucConds_volts hf']
    simp
  exact ⟨_, _, trackSensor_none hc hb'⟩

/-- What is shown of it changes nothing but UC.STATUS:CJBAD and UC.RAW. -/
theorem voltsTracked_keeps : (s.voltsTracked n e o l).img = s.img ∧ (s.voltsTracked n e o l).regs = (s.sampled n e false).regs ∧
    ((s.voltsTracked n e o l).uc n).sensorBad = false := by
  obtain ⟨conds, good, h⟩ := voltsTracked_eq (e := e) (o := o) (l := l) hf hb
  rw [h]
  refine ⟨rfl, rfl, ?_⟩
  rw [State.noteConds, uc_modUc, sampled_uc]
  exact hb

end

theorem sampled_cjBad (s : State) (n : Nat) (e : Rat) (b : Bool) : (s.sampled n e b).flag (cellBase (ucId n)) Reg.UC_STATUS_CJBAD = b := by
  have h : CellWrites [Reg.UC_RAW] (ucId n) (s.setFlag (cellBase (ucId n)) Reg.UC_STATUS_CJBAD b) (s.sampled n e b) := (CellWrites.refl _ _ _).wrw.modUc
  rw [h.flag _, State.flag_setFlag_same _ _ _ _ (by decide) rfl]

theorem sampled_raw (s : State) (n : Nat) (e : Rat) (b : Bool) : (s.sampled n e b).rdw (cellBase (ucId n)) Reg.UC_RAW = toF32c e := State.rdw_wrw_same ..

theorem showResult_uc (s : State) (n : Nat) (aux : Word) (res : Word × Qual × BitVec 12) :
    ((s.showResult n aux res).uc n).value = res.1 ∧ ((s.showResult n aux res).uc n).qual = res.2.1 ∧ ((s.showResult n aux res).uc n).fresh = true ∧
      ((s.showResult n aux res).uc n).aux = aux := by
  unfold State.showResult
  obtain ⟨lo, hi, h⟩ := compareUc_uc (s.modUc n fun u =>
    { u with value := res.1, qual := res.2.1, flags := res.2.2, aux := aux, fresh := true, since := true, reported := true, waiting := [] }) n (f32 res.1)
  rw [h, uc_modUc]
  exact ⟨rfl, rfl, rfl, rfl⟩

theorem showResult_writes (s : State) (n : Nat) (aux : Word) (res : Word × Qual × BitVec 12) :
    CellWrites comparatorFields (ucId n) s (s.showResult n aux res) := ((CellWrites.refl _ _ s).modUc).trans (compareUc_writes _ n _)

/-! CONVERTER_RESULT (R206, R212). -/

section

variable {uc : Fin 32} (hx : s.exists_ (ucId uc.val) = true) (hc : s.cst (ucId uc.val) ≠ csFault) (hm : s.mst ≠ stPfail) (ha : s.ucAbandoned uc.val = false)

include hx hc hm ha

theorem converterResult_taken (e aux cj : Word) (o l : Bool) : exec (.converterResult uc e aux cj o l) s =
    .next (if s.ucOutput uc.val then s.readbackResult uc.val e else s.inputResult uc.val e aux cj o l).settle := by
  refine congrArg done (if_neg ?_)
  simp [State.fieldUp, hx, hc, hm, ha]

end

theorem converterResult_input (s : State) (uc : Fin 32) (e aux cj : Word) (o l : Bool) (hx : s.exists_ (ucId uc.val) = true)
    (hc : s.cst (ucId uc.val) ≠ csFault) (ho : s.ucOutput uc.val = false) (hm : s.mst ≠ stPfail) (ha : s.ucAbandoned uc.val = false) :
    exec (.converterResult uc e aux cj o l) s = .next (s.inputResult uc.val e aux cj o l).settle := by
  rw [converterResult_taken hx hc hm ha, ho, if_neg Bool.false_ne_true]

theorem converterResult_volts (s : State) (uc : Fin 32) (e aux cj : Word) (o l : Bool) (hx : s.exists_ (ucId uc.val) = true) (hf : s.ucFunc uc.val = 1)
    (hr : s.ucRange uc.val = 1) (hh : s.ucHart uc.val = false) (hc : s.ucChar uc.val = 0)
    (hrun : s.cst (ucId uc.val) = csRun) (ht : s.flag (cellBase (ucId uc.val)) Reg.UC_TRIM_STAT_ACTIVE = false)
    (hfc : s.flag (cellBase (ucId uc.val)) Reg.UC_STATUS_FCALBAD = false) (hb : (s.uc uc.val).sensorBad = false) (hlo : -(dec 2 1) ≤ f32 e)
    (hhi : f32 e ≤ dec 102 1) (hm : s.mst ≠ stPfail) (ha : s.ucAbandoned uc.val = false) :
    Answers (.converterResult uc e aux cj o l) s fun t =>
      (t.uc uc.val).value = toF32c (s.ucEuLo uc.val + f32 e / 10 * (s.ucEuHi uc.val - s.ucEuLo uc.val)) ∧ (t.uc uc.val).qual = Q_GOOD ∧
      (t.uc uc.val).fresh = true ∧ t.rdw (cellBase (ucId uc.val)) Reg.UC_RAW = toF32c (f32 e) ∧ t.cst (ucId uc.val) = csRun := by
  obtain ⟨w, hw⟩ : ∃ w, w = s.voltsTracked uc.val (f32 e) o l := ⟨_, rfl⟩
  obtain ⟨hi, hregs, hsb⟩ : w.img = s.img ∧ w.regs = (s.sampled uc.val (f32 e) false).regs ∧ (w.uc uc.val).sensorBad = false :=
    hw ▸ voltsTracked_keeps hf hb
  have h0 := uc0_of_img hi uc.val
  have hs : CellWrites [] (ucId uc.val) (s.sampled uc.val (f32 e) false) w := (CellWrites.refl _ _ _).same hregs
  have hws : CellWrites [Reg.UC_STATUS_CJBAD, Reg.UC_RAW] (ucId uc.val) s w := (sampled_writes s uc.val (f32 e) false).trans hs.mono
  have hcj : w.flag (cellBase (ucId uc.val)) Reg.UC_STATUS_CJBAD = false := (hs.flag _).trans (sampled_cjBad ..)
  have hraw : w.rdw (cellBase (ucId uc.val)) Reg.UC_RAW = toF32c (f32 e) := (hs.rdw _).trans (sampled_raw ..)
  have htrim : s.trimmed uc.val (f32 e) = f32 e := if_neg (by rw [ht]; exact Bool.false_ne_true)
  have hlin := linearWord_good (s := w) ((congrArg (recByte · 1) h0).trans hr) ((congrArg (recByte · 5) h0).trans hc)
    ((congrArg (fun r => recByte r 2 / 2 ^ 4 % 2 == 1) h0).trans hh) hsb hcj ((hws.flag _).trans hfc) hlo hhi
  have hlo' : w.ucEuLo uc.val = s.ucEuLo uc.val := congrArg (fun r => f32 (recWord r 8)) h0
  have hhi' : w.ucEuHi uc.val = s.ucEuHi uc.val := congrArg (fun r => f32 (recWord r 12)) h0
  have hexec : exec (.converterResult uc e aux cj o l) s = .next (w.showResult uc.val e (w.linearWord uc.val 1 (f32 e))).settle := by
    rw [converterResult_input s uc e aux cj o l hx (by rw [hrun]; decide) (by rw [State.ucOutput, hf]; rfl) hm ha, inputResult_volts hf, htrim, hw]
  have hshow := showResult_writes w uc.val e (w.linearWord uc.val 1 (f32 e))
  obtain ⟨hval, hqual, hfresh, -⟩ := showResult_uc w uc.val e (w.linearWord uc.val 1 (f32 e))
  refine ⟨_, hexec, ?_, ?_, ?_, ?_, ?_⟩
  · rw [uc_settle, hval, hlin, hlo', hhi']
  · rw [uc_settle, hqual, hlin]
  · rw [uc_settle, hfresh]
  · rw [settle_cellRdw _ _ _ (by decide), hshow.rdw _, hraw]
  · rw [settle_cst, hshow.cst, hws.cst, hrun]

/-! An output's readback (R212, R214). -/

/-- The fields that the end of a sensor fault clears. -/
def sensorFields : List Field := [Reg.UC_STATUS_OPEN, Reg.UC_STATUS_SHORT, Reg.UC_STATUS_NE43ST]

theorem leaveSensor_writes (s : State) (n : Nat) : CellWrites sensorFields (ucId n) s (s.leaveSensor n) := by
  unfold State.leaveSensor
  exact (CellWrites.refl sensorFields (ucId n) s).setFlag.setFlag.wr.modUc

/-- An open loop clears after the eighth good readback. -/
def Machine.State.readbackTracked (s : State) (n : Nat) (e : Word) : State :=
  let good := decide (dec 2 1 ≤ f32 e) || !s.flag (cellBase (ucId n)) Reg.UC_STATUS_HDRLOW
  let t := s.modUc n fun u => { u with goodRun := if good then u.goodRun + 1 else 0 }
  if (t.uc n).sensorBad && 8 ≤ (t.uc n).goodRun then t.leaveSensor n else t

theorem readbackResult_eq (s : State) (n : Nat) (e : Word) :
    s.readbackResult n e = (s.readbackTracked n e).showResult n e (toF32c (s.ucEngineering n (f32 e)), Q_GOOD, ((s.readbackTracked n e).uc n).flags) := rfl

theorem readbackTracked_writes (s : State) (n : Nat) (e : Word) : CellWrites sensorFields (ucId n) s (s.readbackTracked n e) := by
  have h : ∀ f, CellWrites sensorFields (ucId n) s (s.modUc n f) := fun _ => (CellWrites.refl _ _ s).modUc
  exact .ite ((h _).trans (leaveSensor_writes _ n)) (h _)

theorem converterResult_output (s : State) (uc : Fin 32) (e aux cj : Word) (o l : Bool) (hx : s.exists_ (ucId uc.val) = true)
    (hc : s.cst (ucId uc.val) ≠ csFault) (ho : s.ucOutput uc.val = true) (hm : s.mst ≠ stPfail) (ha : s.ucAbandoned uc.val = false) :
    Answers (.converterResult uc e aux cj o l) s fun t =>
      (t.uc uc.val).value = toF32c (s.ucEngineering uc.val (f32 e)) ∧ (t.uc uc.val).aux = e ∧ (t.uc uc.val).qual = Q_GOOD ∧ (t.uc uc.val).fresh = true ∧
      t.cst (ucId uc.val) = s.cst (ucId uc.val) := by
  have hexec := converterResult_taken hx hc hm ha e aux cj o l
  rw [ho, if_pos rfl, readbackResult_eq] at hexec
  obtain ⟨hval, hqual, hfresh, haux⟩ := showResult_uc (s.readbackTracked uc.val e) uc.val e
    (toF32c (s.ucEngineering uc.val (f32 e)), Q_GOOD, ((s.readbackTracked uc.val e).uc uc.val).flags)
  refine ⟨_, hexec, ?_, ?_, ?_, ?_, ?_⟩
  · rw [uc_settle, hval]
  · rw [uc_settle, haux]
  · rw [uc_settle, hqual]
  · rw [uc_settle, hfresh]
  · rw [settle_cst, (showResult_writes _ _ _ _).cst, (readbackTracked_writes _ _ _).cst]

end Sys2Proof
end

