-- ==== Sys2Proof/Proofs/ChannelFaults.lean ====
section
/-! Sensor faults, the reference's self check, the compliance monitor, and the faults of stage and supply (R207, R213, R214, R432). -/

namespace Sys2Proof

open Sys2Proof.Machine

variable {s t : State} {n : Nat} {uc : Fin 32}

/-! Sensor faults (R207, R214). -/

theorem enterSensor_new (hb : (s.uc n).sensorBad = false) :
    s.enterSensor n = (s.bump (cellBase (ucId n)) Reg.UC_CNT_SENSOR).modUc n fun u => { u with sensorBad := true, goodRun := 0 } :=
  if_neg (by rw [hb]; exact Bool.false_ne_true)

theorem enterSensor_writes (s : State) (n : Nat) : CellWrites [Reg.UC_CNT_SENSOR] (ucId n) s (s.enterSensor n) := by
  have h := CellWrites.refl [Reg.UC_CNT_SENSOR] (ucId n) s
  exact .ite h h.bump.modUc

/-- The channel is in a sensor fault, and its command stands. -/
theorem enterSensor_uc (s : State) (n : Nat) : ((s.enterSensor n).uc n).sensorBad = true ∧ ((s.enterSensor n).uc n).cmd = (s.uc n).cmd := by
  unfold State.enterSensor
  split
  · next h => exact ⟨h, rfl⟩
  · rw [uc_modUc, uc_bump]
    exact ⟨rfl, rfl⟩

/-- The open loop is shown and counted. -/
def Machine.State.openLoop (s : State) (n : Nat) : State := (s.setFlag (cellBase (ucId n)) Reg.UC_STATUS_OPEN true).enterSensor n

theorem openLoop_open (s : State) (n : Nat) : (s.openLoop n).flag (cellBase (ucId n)) Reg.UC_STATUS_OPEN = true :=
  ((enterSensor_writes _ n).flag _).trans (State.flag_setFlag_same _ _ _ _ (by decide) rfl)

theorem openLoop_counted (hb : (s.uc n).sensorBad = false) :
    (s.openLoop n).rd (cellBase (ucId n)) Reg.UC_CNT_SENSOR = min (s.rd (cellBase (ucId n)) Reg.UC_CNT_SENSOR + 1) 65535 := by
  have h : CellWrites [Reg.UC_STATUS_OPEN] (ucId n) s (s.setFlag (cellBase (ucId n)) Reg.UC_STATUS_OPEN true) := (CellWrites.refl _ _ s).setFlag
  have hb' : ((s.setFlag (cellBase (ucId n)) Reg.UC_STATUS_OPEN true).uc n).sensorBad = false := hb
  rw [State.openLoop, enterSensor_new hb', (CellWrites.refl [] (ucId n) _).modUc.rd _ (by decide), State.rd_bump _ _ _ (by decide), h.rd _ (by decide)]
  rfl

theorem openLoop_writes (s : State) (n : Nat) : CellWrites [Reg.UC_STATUS_OPEN, Reg.UC_CNT_SENSOR] (ucId n) s (s.openLoop n) :=
  ((CellWrites.refl _ _ s).setFlag).trans (enterSensor_writes _ n).mono

theorem burnOutTest_open (s : State) (uc : Fin 32) (hx : s.exists_ (ucId uc.val) = true) (hf : s.ucFunc uc.val = 4) (hr : s.cst (ucId uc.val) = csRun)
    (hb : (s.uc uc.val).sensorBad = false) (hm : s.mst ≠ stPfail) :
    Answers (.burnOutTest uc true) s fun t =>
      t.flag (cellBase (ucId uc.val)) Reg.UC_STATUS_OPEN = true ∧ (t.uc uc.val).sensorBad = true ∧ (t.uc uc.val).qual = Q_BAD_SENSOR ∧
      t.rd (cellBase (ucId uc.val)) Reg.UC_CNT_SENSOR = min (s.rd (cellBase (ucId uc.val)) Reg.UC_CNT_SENSOR + 1) 65535 ∧
      RegsKept [cellBase (ucId uc.val) + Reg.UC_STATUS_OPEN.off, cellBase (ucId uc.val) + Reg.UC_CNT_SENSOR.off] s t := by
  have hexec : exec (.burnOutTest uc true) s = .next ((s.openLoop uc.val).modUc uc.val fun u => { u with qual := Q_BAD_SENSOR }).settle := by
    refine congrArg done (if_neg ?_)
    simp [State.fieldUp, hx, hf, hm, hr, csRun, csFault]
  have hq : CellWrites [] (ucId uc.val) (s.openLoop uc.val) ((s.openLoop uc.val).modUc uc.val fun u => { u with qual := Q_BAD_SENSOR }) :=
    (CellWrites.refl _ _ _).modUc
  refine ⟨_, hexec, ?_, ?_, ?_, ?_, ?_⟩
  · rw [settle_cellFlag _ _ _ (by decide), hq.flag _, openLoop_open]
  · rw [uc_settle, uc_modUc]
    exact (enterSensor_uc _ _).1
  · rw [uc_settle, uc_modUc]
  · rw [settle_cellRd _ _ _ (by decide), hq.rd _ (by decide), openLoop_counted hb]
  · exact ((openLoop_writes s uc.val).trans hq.mono).kept (by simp)

/-! REFERENCE_SELF_CHECK (R214). -/

/-- The result of a failed reference is discarded: the ports hold what they published last. -/
def Machine.State.discarded (s : State) (n : Nat) (last : Nat → Word → Word) : State :=
  s.modUc n fun u => { u with fresh := false, qual := Q_HELD, value := last 0 u.value, aux := last 1 u.aux }

theorem referenceSelfCheck_fails (s : State) (uc : Fin 32) (last : Nat → Word → Word) (hx : s.exists_ (ucId uc.val) = true)
    (hc : s.cst (ucId uc.val) ∉ [csOff, csFault]) (hm : s.mst ≠ stPfail)
    (hl : ∀ n w, last n w = ((Store.get none s.fab.ports (ucId uc.val * 16 + n)).map SigWord.val).getD w) :
    exec (.referenceSelfCheck uc false) s = .next (((s.discarded uc.val last).evalEnd (ucId uc.val) true).driveUc uc.val).settle := by
  have hl' : last = fun n w => ((Store.get none s.fab.ports (ucId uc.val * 16 + n)).map SigWord.val).getD w := funext fun n => funext fun w => hl n w
  rw [List.mem_cons, List.mem_singleton, not_or] at hc
  rw [hl']
  refine congrArg done (if_neg ?_)
  simp [State.fieldUp, hx, hm, hc.1, hc.2]

theorem referenceSelfCheck_passes (s : State) (uc : Fin 32) : exec (.referenceSelfCheck uc true) s = .next s.settle :=
  congrArg done (if_pos (by simp))

/-- The first error of a cell counts and isolates nothing. -/
theorem evalEnd_firstError {id : Nat} (h : (s.cell id).errHist = []) :
    s.evalEnd id true = (s.modCell id fun c => { c with errHist := [true], good := 0 }).bump (cellBase id) Reg.CELL_ERR_ERRORS := by
  unfold State.evalEnd
  rw [h]
  rfl

theorem referenceSelfCheck_counts (s : State) (uc : Fin 32) (hx : s.exists_ (ucId uc.val) = true) (hr : s.cst (ucId uc.val) = csRun)
    (he : (s.cell (ucId uc.val)).errHist = []) (hm : s.mst ≠ stPfail) :
    Answers (.referenceSelfCheck uc false) s fun t =>
      (t.uc uc.val).fresh = false ∧ (t.uc uc.val).qual = Q_HELD ∧ t.cst (ucId uc.val) = csRun ∧
      t.rd (cellBase (ucId uc.val)) Reg.CELL_ERR_ERRORS =
        min (s.rd (cellBase (ucId uc.val)) Reg.CELL_ERR_ERRORS + 1) (2 ^ Reg.CELL_ERR_ERRORS.width - 1) := by
  obtain ⟨last, hl⟩ : ∃ last : Nat → Word → Word, ∀ n w, last n w = ((Store.get none s.fab.ports (ucId uc.val * 16 + n)).map SigWord.val).getD w :=
    ⟨_, fun _ _ => rfl⟩
  have he' : ((s.discarded uc.val last).cell (ucId uc.val)).errHist = [] := he
  have hexec := referenceSelfCheck_fails s uc last hx (by rw [hr]; decide) hm hl
  rw [evalEnd_firstError he'] at hexec
  obtain ⟨on, lim, hu⟩ := driveUc_uc (((s.discarded uc.val last).modCell (ucId uc.val) fun c => { c with errHist := [true], good := 0 }).bump
    (cellBase (ucId uc.val)) Reg.CELL_ERR_ERRORS) uc.val
  have hd := driveUc_writes (((s.discarded uc.val last).modCell (ucId uc.val) fun c => { c with errHist := [true], good := 0 }).bump
    (cellBase (ucId uc.val)) Reg.CELL_ERR_ERRORS) uc.val
  have hb : CellWrites [Reg.CELL_ERR_ERRORS] (ucId uc.val) s (((s.discarded uc.val last).modCell (ucId uc.val)
    fun c => { c with errHist := [true], good := 0 }).bump (cellBase (ucId uc.val)) Reg.CELL_ERR_ERRORS) := (CellWrites.refl _ _ s).modUc.modCell.bump
  refine ⟨_, hexec, ?_, ?_, ?_, ?_⟩
  · rw [uc_settle, hu, uc_bump, uc_modCell, State.discarded, uc_modUc]
  · rw [uc_settle, hu, uc_bump, uc_modCell, State.discarded, uc_modUc]
  · rw [settle_cst, hd.cst, hb.cst, hr]
  · rw [settle_cellRd _ _ _ (by decide), hd.rd _ (by decide), State.rd_bump _ _ _ (by decide)]
    rfl

/-! The compliance monitor (R213). -/

/-- What one sample of the monitor shows. -/
def Machine.State.sampleCompliance (s : State) (n : Nat) (hdrLow short : Bool) (readback : Word) : State :=
  (s.setFlag (cellBase (ucId n)) Reg.UC_STATUS_HDRLOW hdrLow).modUc n fun u => { u with shortfall := short, readback := readback }

theorem sampleCompliance_hdrLow (s : State) (n : Nat) (h short : Bool) (rb : Word) :
    (s.sampleCompliance n h short rb).flag (cellBase (ucId n)) Reg.UC_STATUS_HDRLOW = h :=
  ((CellWrites.refl [] (ucId n) _).modUc.flag _).trans (State.flag_setFlag_same _ _ _ _ (by decide) rfl)

theorem complianceSample_shows (s : State) (uc : Fin 32) (h : Bool) (rb : Word) (hx : s.exists_ (ucId uc.val) = true) (ho : s.ucOutput uc.val = true)
    (hm : s.mst ≠ stPfail) :
    Answers (.complianceSample uc h rb) s fun t =>
      t.flag (cellBase (ucId uc.val)) Reg.UC_STATUS_HDRLOW = h ∧ (t.uc uc.val).readback = rb ∧
      RegsKept [cellBase (ucId uc.val) + Reg.UC_STATUS_HDRLOW.off] s t := by
  obtain ⟨short, hexec⟩ : ∃ short, exec (.complianceSample uc h rb) s = .next (s.sampleCompliance uc.val h short rb).settle := by
    refine ⟨_, congrArg done (if_neg ?_)⟩
    simp [State.fieldUp, hx, hm, ho]
  have hw : CellWrites [Reg.UC_STATUS_HDRLOW] (ucId uc.val) s (s.sampleCompliance uc.val h short rb) := (CellWrites.refl _ _ s).setFlag.modUc
  refine ⟨_, hexec, ?_, ?_, ?_⟩
  · rw [settle_cellFlag _ _ _ (by decide), sampleCompliance_hdrLow]
  · rw [uc_settle, State.sampleCompliance, uc_modUc]
  · exact hw.kept (by simp)

/-- The limit is entered and counted. -/
def Machine.State.limited (s : State) (n : Nat) : State :=
  (s.setFlag (cellBase (ucId n)) Reg.UC_STATUS_COMPL true).bump (cellBase (ucId n)) Reg.UC_CNT_COMPLS

theorem limited_compl (s : State) (n : Nat) : (s.limited n).flag (cellBase (ucId n)) Reg.UC_STATUS_COMPL = true :=
  ((CellWrites.refl [Reg.UC_CNT_COMPLS] (ucId n) _).bump.flag _).trans (State.flag_setFlag_same _ _ _ _ (by decide) rfl)

theorem limited_counted (s : State) (n : Nat) :
    (s.limited n).rd (cellBase (ucId n)) Reg.UC_CNT_COMPLS = min (s.rd (cellBase (ucId n)) Reg.UC_CNT_COMPLS + 1) 65535 := by
  have h : CellWrites [Reg.UC_STATUS_COMPL] (ucId n) s (s.setFlag (cellBase (ucId n)) Reg.UC_STATUS_COMPL true) := (CellWrites.refl _ _ s).setFlag
  rw [State.limited, State.rd_bump _ _ _ (by decide), h.rd _ (by decide)]
  rfl

/-- An occurrence writes no register of a cell. -/
theorem occur_cellRd {id : Nat} {g : Field} (h : g.off < 0x100) (s : State) (src index : Nat) (mag : Rat) (key sig : Nat) :
    (s.occur src index mag key sig).rd (cellBase id) g = s.rd (cellBase id) g := by
  obtain e | ⟨o, -, -, -, -, e⟩ := s.occur_cases src index mag key sig
  · have hp : 0x100 ≤ pageOf (recBase + Reg.REC_MISS_QLOST.off) := by decide
    rw [e, State.bump, State.bumpBy, State.rd_wr_apart s (cellBase id) recBase g Reg.REC_MISS_QLOST _ (by decide) (.inl (cell_ne h hp).symm)]
  · rw [e]
    rfl

theorem complianceEntry_enters (s : State) (uc : Fin 32) (hx : s.exists_ (ucId uc.val) = true) (ho : s.ucOutput uc.val = true)
    (hc : s.flag (cellBase (ucId uc.val)) Reg.UC_STATUS_COMPL = false) (hh : s.flag (cellBase (ucId uc.val)) Reg.UC_STATUS_HDRLOW = true)
    (hs : (s.uc uc.val).shortfall = true) :
    Answers (.complianceEntry uc) s fun t =>
      t.flag (cellBase (ucId uc.val)) Reg.UC_STATUS_COMPL = true ∧
      t.rd (cellBase (ucId uc.val)) Reg.UC_CNT_COMPLS = min (s.rd (cellBase (ucId uc.val)) Reg.UC_CNT_COMPLS + 1) 65535 := by
  obtain ⟨d, hexec⟩ : ∃ d, exec (.complianceEntry uc) s = .next ((s.limited uc.val).occur 7 uc.val d (keyOfCell (ucId uc.val)) 0).settle :=
    ⟨_, congrArg done (if_pos (by simp [hx, ho, hc, hh, hs]))⟩
  refine ⟨_, hexec, ?_, ?_⟩
  · rw [settle_cellFlag _ _ _ (by decide), State.flag, occur_cellRd (by decide), ← State.flag, limited_compl]
  · rw [settle_cellRd _ _ _ (by decide), occur_cellRd (by decide), limited_counted]

theorem complianceExit_leaves (s : State) (uc : Fin 32) (hc : s.flag (cellBase (ucId uc.val)) Reg.UC_STATUS_COMPL = true)
    (hs : (s.uc uc.val).shortfall = false) :
    exec (.complianceExit uc) s = .next (s.setFlag (cellBase (ucId uc.val)) Reg.UC_STATUS_COMPL false).settle :=
  congrArg done (if_pos (by rw [hc, hs]; rfl))

/-! Output faults (R207, R213, R214). -/

theorem outputOpenLoop_open (s : State) (uc : Fin 32) (hx : s.exists_ (ucId uc.val) = true) (hf : s.ucFunc uc.val = 6)
    (hh : s.flag (cellBase (ucId uc.val)) Reg.UC_STATUS_HDRLOW = true) (hd : 1 ≤ f32 (s.rdw (cellBase (ucId uc.val)) Reg.UC_DRIVE)) :
    Answers (.outputOpenLoop uc) s fun t =>
      t.flag (cellBase (ucId uc.val)) Reg.UC_STATUS_OPEN = true ∧ (t.uc uc.val).sensorBad = true ∧ (t.uc uc.val).cmd = (s.uc uc.val).cmd := by
  have hexec : exec (.outputOpenLoop uc) s = .next (s.openLoop uc.val).settle := congrArg done (if_pos (by simp [hx, hf, hh, hd]))
  obtain ⟨hbad, hcmd⟩ := enterSensor_uc (s.setFlag (cellBase (ucId uc.val)) Reg.UC_STATUS_OPEN true) uc.val
  refine ⟨_, hexec, ?_, ?_, ?_⟩
  · rw [settle_cellFlag _ _ _ (by decide), openLoop_open]
  · rw [uc_settle, State.openLoop, hbad]
  · rw [uc_settle, State.openLoop, hcmd, uc_setFlag]

/-- The stage has failed, its channel is isolated, and nothing drives the stage. -/
def Machine.State.stageFailed (s : State) (n : Nat) (cause : Bool) : State :=
  ((s.modUc n fun u => { u with stageBad := true }).isolateCell (ucId n) cause).driveUc n

/-- The channel before the stage follows. -/
def Machine.State.stageIsolated (s : State) (n : Nat) (cause : Bool) : State := (s.modUc n fun u => { u with stageBad := true }).enterFault (ucId n) cause

theorem stageFailed_running {cause : Bool} (hr : s.cst (ucId n) = csRun) : s.stageFailed n cause = (s.stageIsolated n cause).driveUc n :=
  congrArg (State.driveUc · n) (if_pos (by rw [show (s.modUc n fun u => { u with stageBad := true }).cst (ucId n) = csRun from hr]; rfl))

section

variable (s : State) (uc : Fin 32) (cause : Bool)

theorem stageIsolated_stageBad : ((s.stageIsolated uc.val cause).uc uc.val).stageBad = true := by
  rw [State.stageIsolated, enterFault_uc (kindOf_ucId uc), uc_modUc]

/-- A channel that was in RUN is in FAULT. -/
theorem stageFailed_shown (hr : s.cst (ucId uc.val) = csRun) : (s.stageFailed uc.val cause).cst (ucId uc.val) = csFault ∧
    (s.stageFailed uc.val cause).flag (cellBase (ucId uc.val)) Reg.CELL_STATE_ISOL = true ∧
    ((s.stageFailed uc.val cause).uc uc.val).stageBad = true ∧ ((s.stageFailed uc.val cause).cell (ucId uc.val)).cause = cause := by
  obtain ⟨hcst, hisol⟩ := enterFault_shown (kindOf_ucId uc) (s.modUc uc.val fun u => { u with stageBad := true }) cause
  have hd := driveUc_writes (s.stageIsolated uc.val cause) uc.val
  obtain ⟨on, lim, hu⟩ := driveUc_uc (s.stageIsolated uc.val cause) uc.val
  rw [stageFailed_running hr]
  refine ⟨?_, ?_, ?_, ?_⟩
  · rw [hd.cst, State.stageIsolated, hcst]
  · rw [hd.flag _, State.stageIsolated, hisol]
  · rw [hu, ← stageIsolated_stageBad s uc cause]
  · rw [State.cell, driveUc_fab, ← State.cell, State.stageIsolated, enterFault_cause (kindOf_ucId uc)]

/-- Its output is off. -/
theorem stageFailed_off (hx : s.exists_ (ucId uc.val) = true) (ho : s.ucOutput uc.val = true) (hr : s.cst (ucId uc.val) = csRun) :
    (s.stageFailed uc.val cause).rdw (cellBase (ucId uc.val)) Reg.UC_DRIVE = 0 ∧ ((s.stageFailed uc.val cause).uc uc.val).on = false := by
  have hi : (s.stageIsolated uc.val cause).img = s.img := ImageIs.enterFault (ImageIs.modUc (i := s.img) rfl)
  have hx' : (s.stageIsolated uc.val cause).exists_ (ucId uc.val) = true :=
    ((enterFault_writes (kindOf_ucId uc) (s.modUc uc.val fun u => { u with stageBad := true }) cause).flag _).trans hx
  rw [stageFailed_running hr, driveUc_stageBad ((ucOutput_of_img hi _).trans ho) hx' (stageIsolated_stageBad s uc cause)]
  constructor
  · have h : CellWrites [Reg.UC_RAW] (ucId uc.val) ((s.stageIsolated uc.val cause).wrw (cellBase (ucId uc.val)) Reg.UC_DRIVE 0)
        ((((s.stageIsolated uc.val cause).wrw (cellBase (ucId uc.val)) Reg.UC_DRIVE 0).wrw (cellBase (ucId uc.val)) Reg.UC_RAW 0).modUc uc.val
          fun u => { u with on := false, lim := 0 }) := (CellWrites.refl _ _ _).wrw.modUc
    rw [h.rdw _, State.rdw_wrw_same]
  · rw [uc_modUc]

end

theorem outputStageFault_isolates (s : State) (uc : Fin 32) (hx : s.exists_ (ucId uc.val) = true) (ho : s.ucOutput uc.val = true)
    (hr : s.cst (ucId uc.val) = csRun) (hh : s.flag (cellBase (ucId uc.val)) Reg.UC_STATUS_HDRLOW = false) :
    Answers (.outputStageFault uc) s fun t =>
      t.cst (ucId uc.val) = csFault ∧ t.flag (cellBase (ucId uc.val)) Reg.CELL_STATE_ISOL = true ∧
      t.rdw (cellBase (ucId uc.val)) Reg.UC_DRIVE = 0 ∧ (t.uc uc.val).on = false := by
  have hexec : exec (.outputStageFault uc) s = .next (s.stageFailed uc.val false).settle := congrArg done (if_pos (by rw [hx, ho, hh]; rfl))
  obtain ⟨hcst, hisol, -, -⟩ := stageFailed_shown s uc false hr
  obtain ⟨hdrive, hon⟩ := stageFailed_off s uc false hx ho hr
  refine ⟨_, hexec, ?_, ?_, ?_, ?_⟩
  · rw [settle_cst, hcst]
  · rw [settle_cellFlag _ _ _ (by decide), hisol]
  · rw [settle_cellRdw _ _ _ (by decide), hdrive]
  · rw [uc_settle, hon]

/-! CHANNEL_SUPPLY_FAILURE (R214, R432). -/

theorem channelSupplyFailure_isolates (s : State) (uc : Fin 32) (hot : Bool) (hx : s.exists_ (ucId uc.val) = true) (hr : s.cst (ucId uc.val) = csRun)
    (hh : hot = true → s.ucOutput uc.val = true) :
    Answers (.channelSupplyFailure uc ⟨hot, true⟩) s fun t =>
      t.cst (ucId uc.val) = csFault ∧ t.flag (cellBase (ucId uc.val)) Reg.CELL_STATE_ISOL = true ∧ (t.uc uc.val).stageBad = true ∧
      (t.cell (ucId uc.val)).cause = true ∧
      (s.ucOutput uc.val = true → t.rdw (cellBase (ucId uc.val)) Reg.UC_DRIVE = 0 ∧ (t.uc uc.val).on = false) := by
  have hexec : exec (.channelSupplyFailure uc ⟨hot, true⟩) s = .next (s.stageFailed uc.val true).settle :=
    congrArg done (if_neg (by rw [hx]; cases hot <;> simp_all))
  obtain ⟨hcst, hisol, hbad, hcause⟩ := stageFailed_shown s uc true hr
  refine ⟨_, hexec, ?_, ?_, ?_, ?_, fun ho => ?_⟩
  · rw [settle_cst, hcst]
  · rw [settle_cellFlag _ _ _ (by decide), hisol]
  · rw [uc_settle, hbad]
  · rw [settle_cell, hcause]
  · rw [settle_cellRdw _ _ _ (by decide), uc_settle]
    exact stageFailed_off s uc true hx ho hr

/-- The temperature of a channel that is no output concerns none. -/
theorem channelSupplyFailure_noOutput (s : State) (uc : Fin 32) (present : Bool) (ho : s.ucOutput uc.val = false) :
    exec (.channelSupplyFailure uc ⟨true, present⟩) s = .next s.settle :=
  congrArg done (if_pos (by rw [ho]; simp))

/-- What a supply that is back changes. -/
def Machine.State.supplyBack (s : State) (n : Nat) : State :=
  s.when (s.cst (ucId n) == csFault && (s.cell (ucId n)).cause && !s.startFailed (ucId n)) fun s => s.setCause (ucId n) false

theorem supplyBack_regs (s : State) (n : Nat) : (s.supplyBack n).regs = s.regs := by
  unfold State.supplyBack State.when
  split <;> rfl

theorem supplyBack_cause (hc : s.cst (ucId n) = csFault) (hca : (s.cell (ucId n)).cause = true) :
    ((s.supplyBack n).cell (ucId n)).cause = s.startFailed (ucId n) := by
  unfold State.supplyBack
  rw [hc, hca]
  cases s.startFailed (ucId n)
  · show ((s.setCause (ucId n) false).cell (ucId n)).cause = false
    rw [State.setCause, State.modCell_cell, if_pos rfl]
  · exact hca

theorem channelSupplyFailure_back (s : State) (uc : Fin 32) (hot : Bool) (hx : s.exists_ (ucId uc.val) = true) (hc : s.cst (ucId uc.val) = csFault)
    (hca : (s.cell (ucId uc.val)).cause = true) (hh : hot = true → s.ucOutput uc.val = true) :
    Answers (.channelSupplyFailure uc ⟨hot, false⟩) s fun t =>
      t.cst (ucId uc.val) = csFault ∧ (t.cell (ucId uc.val)).cause = s.startFailed (ucId uc.val) ∧ RegsKept [] s t := by
  have hexec : exec (.channelSupplyFailure uc ⟨hot, false⟩) s = .next (s.supplyBack uc.val).settle :=
    congrArg done (if_neg (by rw [hx]; cases hot <;> simp_all))
  have hw : CellWrites [] (ucId uc.val) s (s.supplyBack uc.val) := (CellWrites.refl _ _ s).same (supplyBack_regs ..)
  refine ⟨_, hexec, ?_, ?_, hw.kept (by simp)⟩
  · rw [settle_cst, hw.cst, hc]
  · rw [settle_cell, supplyBack_cause hc hca]

/-- Settles O17: a result is shown and compared after its channel's checks, and a fault of the channel is what one bit of its hidden state and the isolation
of its cell say. -/
theorem channelResultsAndChannelFaults : Obligations.ChannelResultsAndChannelFaults := by
  unfold Obligations.ChannelResultsAndChannelFaults
  exact ⟨fun s uc e aux cj o l hx hf hr _ _ hh hc hrun ht hfc hb hlo hhi hm ha =>
      converterResult_volts s uc e aux cj o l hx hf hr hh hc hrun ht hfc hb hlo hhi hm ha,
    converterResult_input, converterResult_output, burnOutTest_open, referenceSelfCheck_fails, referenceSelfCheck_passes, referenceSelfCheck_counts,
    complianceSample_shows, complianceEntry_enters, complianceExit_leaves, outputOpenLoop_open, outputStageFault_isolates,
    channelSupplyFailure_isolates, channelSupplyFailure_noOutput, channelSupplyFailure_back⟩

end Sys2Proof
end

