-- ==== Sys2Proof/Proofs/HartRequests.lean ====
section
/-! HART (R218, R219, R221): polls, replies and missing replies, and the pass-through request. -/

namespace Sys2Proof

open Sys2Proof.Machine

variable {s t u : State} {n i : Nat} {uc : Fin 32} {dev : Fin 4}

theorem rd_bumpBy (s : State) (b : Nat) (f : Field) (k : Nat) (h : f.lo + f.width ≤ 32) : (s.bumpBy b f k).rd b f = min (s.rd b f + k) (2 ^ f.width - 1) := by
  rw [State.bumpBy, State.rd_wr_same _ _ _ _ h]
  exact Nat.mod_eq_of_lt (Nat.lt_of_le_of_lt (Nat.min_le_right ..) (Nat.sub_lt (Nat.two_pow_pos _) Nat.one_pos))

/-! The ports of HART (R219). -/

/-- What stands at port 2 + `i`. -/
def Machine.State.hartPort (s : State) (n i : Nat) : Option SigWord := (s.uc n).hartPorts.getD i none

/-- A port takes a word that follows from the one before it. -/
def Machine.State.setHartPort (s : State) (n i : Nat) (x : Option SigWord → SigWord) (fresh : Bool) : State :=
  s.modUc n fun u => { u with hartPorts := u.hartPorts.set i (some (x (u.hartPorts.getD i none))), hartFresh := u.hartFresh.set i fresh }

theorem setHartPort_other {x : Option SigWord → SigWord} {fresh : Bool} {j : Nat} (h : j ≠ i) : (s.setHartPort n i x fresh).hartPort n j = s.hartPort n j := by
  rw [State.hartPort, State.setHartPort, uc_modUc, List.getD_eq_getElem?_getD, List.getElem?_set_ne h.symm, ← List.getD_eq_getElem?_getD, State.hartPort]

theorem setHartPort_same {x : Option SigWord → SigWord} {fresh : Bool} (h : i < (s.uc n).hartPorts.length) :
    (s.setHartPort n i x fresh).hartPort n i = some (x (s.hartPort n i)) := by
  rw [State.hartPort, State.setHartPort, uc_modUc, List.getD_eq_getElem?_getD, List.getElem?_set_self h, Option.getD_some, State.hartPort]

/-- A change of a channel's HART ports alone. -/
structure PortsOnly (n : Nat) (s t : State) : Prop where
  regs : t.regs = s.regs
  outbox : t.outbox = s.outbox
  miss : (t.uc n).miss = (s.uc n).miss
  ident : (t.uc n).ident = (s.uc n).ident
  length : (t.uc n).hartPorts.length = (s.uc n).hartPorts.length

namespace PortsOnly

theorem refl (n : Nat) (s : State) : PortsOnly n s s := ⟨rfl, rfl, rfl, rfl, rfl⟩

theorem trans (h : PortsOnly n s t) (h' : PortsOnly n t u) : PortsOnly n s u :=
  ⟨h'.regs.trans h.regs, h'.outbox.trans h.outbox, h'.miss.trans h.miss, h'.ident.trans h.ident, h'.length.trans h.length⟩

theorem setHartPort (s : State) (x : Option SigWord → SigWord) (fresh : Bool) : PortsOnly n s (s.setHartPort n i x fresh) := by
  unfold State.setHartPort
  refine ⟨rfl, rfl, ?_, ?_, ?_⟩
  · rw [uc_modUc]
  · rw [uc_modUc]
  · rw [uc_modUc, List.length_set]

theorem foldl {α : Type} {f : State → α → State} (hf : ∀ t a, PortsOnly n t (f t a)) (l : List α) (s : State) : PortsOnly n s (l.foldl f s) := by
  induction l generalizing s with
  | nil => exact .refl n s
  | cons a l ih => exact (hf s a).trans (ih _)

end PortsOnly

section

variable {f : State → Nat × Nat → State} {l : List (Nat × Nat)}

/-- A port that no step changes. -/
theorem hartPort_foldl_kept (h : ∀ t, ∀ pv ∈ l, (f t pv).hartPort n i = t.hartPort n i) (s : State) : (l.foldl f s).hartPort n i = s.hartPort n i := by
  induction l generalizing s with
  | nil => rfl
  | cons pv l ih => exact (ih (fun t q hq => h t q (List.mem_cons_of_mem _ hq)) _).trans (h s pv List.mem_cons_self)

/-- Where each step changes its own port alone, and no two have the same one, a port ends as its step leaves it. -/
theorem hartPort_foldl {P : Nat × Nat → Option SigWord → Prop} (hf : ∀ t pv, PortsOnly n t (f t pv))
    (ho : ∀ t pv j, j ≠ pv.1 → (f t pv).hartPort n j = t.hartPort n j) (hp : ∀ t, ∀ pv ∈ l, pv.1 < (t.uc n).hartPorts.length → P pv ((f t pv).hartPort n pv.1))
    (hd : (l.map Prod.fst).Nodup) (s : State) {pv : Nat × Nat} (hm : pv ∈ l) (hs : pv.1 < (s.uc n).hartPorts.length) : P pv ((l.foldl f s).hartPort n pv.1) := by
  induction l generalizing s with
  | nil => cases hm
  | cons q l ih =>
    obtain ⟨hq, hd'⟩ := List.nodup_cons.mp hd
    obtain rfl | hm' := List.mem_cons.mp hm
    · rw [List.foldl_cons, hartPort_foldl_kept fun t r hr => ho t r _ fun e => hq (List.mem_map.mpr ⟨r, hr, e.symm⟩)]
      exact hp s pv hm hs
    · exact ih (fun t r hr => hp t r (List.mem_cons_of_mem _ hr)) hd' _ hm' ((hf s q).length ▸ hs)

end

/-- The ports that a device feeds are four at most, each its own. -/
theorem hartFeeds_ports (s : State) (n : Nat) (dev : Fin 4) : ((s.hartFeeds n dev.val).map Prod.fst).Nodup ∧ ∀ pv ∈ s.hartFeeds n dev.val, pv.1 < 4 := by
  unfold State.hartFeeds
  split
  · exact ⟨List.nodup_singleton _, by simp⟩
  · split
    · decide
    · exact ⟨List.nodup_nil, by simp⟩

theorem hartFeeds_of_img (h : t.img = s.img) (n dev : Nat) : t.hartFeeds n dev = s.hartFeeds n dev := by
  have h3 : t.uc3 n = s.uc3 n := by rw [State.uc3, State.cfg, h, State.uc3, State.cfg]
  have hm : t.ucMultidrop n = s.ucMultidrop n := by simp only [State.ucMultidrop, State.ucHart, State.ucOpt, uc0_of_img h, h3]
  rw [State.hartFeeds, hm, State.hartFeeds]

/-! HART_POLL (R218). -/

theorem hartPoll_active (ha : s.hartActive uc.val dev.val = true) : exec (.hartPoll uc dev) s =
    .next ((s.when (!(s.uc uc.val).ident.getD dev.val false) fun s =>
      (s.emit (.hart uc.val dev.val 0 [])).modUc uc.val fun u => { u with ident := u.ident.set dev.val true }).emit (.hart uc.val dev.val 3 [])).settle :=
  congrArg done (if_pos ha)

theorem hartPoll_identified (s : State) (uc : Fin 32) (dev : Fin 4) (ha : s.hartActive uc.val dev.val = true)
    (hi : (s.uc uc.val).ident.getD dev.val false = true) : exec (.hartPoll uc dev) s = .next (s.emit (.hart uc.val dev.val 3 [])).settle := by
  rw [hartPoll_active ha, hi, Bool.not_true, State.when_false]

theorem hartPoll_unidentified (s : State) (uc : Fin 32) (dev : Fin 4) (ha : s.hartActive uc.val dev.val = true)
    (hi : (s.uc uc.val).ident.getD dev.val false = false) :
    Answers (.hartPoll uc dev) s fun t => t.outbox = s.outbox ++ [.hart uc.val dev.val 0 [], .hart uc.val dev.val 3 []] ∧ RegsKept [] s t := by
  have hexec := hartPoll_active ha
  rw [hi, Bool.not_false, State.when_true] at hexec
  refine ⟨_, hexec, ?_, ?_⟩
  · rw [State.settle_outbox]
    exact List.append_assoc ..
  · exact RegsBut.settled fun _ _ => rfl

/-! HART_REPLY (R219). -/

/-- The word that a reply's variable gives at a port. -/
def hartWord (r : HartReply) (i : Nat) (w : Word) (old : Option SigWord) : SigWord :=
  ⟨if f32Finite w then w else match old with | some x => x.val | none => 0,
    if r.malfunction || !f32Finite w then Q_BAD_SENSOR else if (if i = 0 then r.pvOutOfLimits else r.nonPvOutOfLimits) then Q_UNCERTAIN else Q_GOOD, 0, 0⟩

/-- A port takes its variable, where the reply carries it. -/
def Machine.State.showHart (n : Nat) (r : HartReply) (s : State) (pv : Nat × Nat) : State :=
  match r.vars.getD pv.2 none with
  | none => s
  | some w => s.setHartPort n pv.1 (hartWord r pv.1 w) true

theorem showHart_none {r : HartReply} {pv : Nat × Nat} (h : r.vars.getD pv.2 none = none) (s : State) : s.showHart n r pv = s := by
  rw [State.showHart, h]

theorem showHart_some {r : HartReply} {pv : Nat × Nat} {w : Word} (h : r.vars.getD pv.2 none = some w) (s : State) :
    s.showHart n r pv = s.setHartPort n pv.1 (hartWord r pv.1 w) true := by
  rw [State.showHart, h]

theorem showHart_portsOnly (n : Nat) (r : HartReply) (s : State) (pv : Nat × Nat) : PortsOnly n s (s.showHart n r pv) := by
  unfold State.showHart
  split
  · exact .refl n s
  · exact .setHartPort s _ _

theorem showHart_other (r : HartReply) (s : State) (pv : Nat × Nat) (j : Nat) (h : j ≠ pv.1) : (s.showHart n r pv).hartPort n j = s.hartPort n j := by
  unfold State.showHart
  split
  · rfl
  · exact setHartPort_other h

/-- A reply has come: its bad frames count, and a reply that is no burst ends the misses. -/
def Machine.State.heard (s : State) (n dev : Nat) (r : HartReply) : State :=
  (s.bumpBy (cellBase (ucId n)) Reg.UC_HCNT_COMMERR r.badFrames.toNat).when (!r.burst) fun s => s.modUc n fun u => { u with miss := u.miss.set dev 0 }

theorem heard_regs (s : State) (n dev : Nat) (r : HartReply) :
    (s.heard n dev r).regs = (s.bumpBy (cellBase (ucId n)) Reg.UC_HCNT_COMMERR r.badFrames.toNat).regs := by
  rw [State.heard, State.when, apply_ite State.regs, State.modUc_regs, ite_self]

theorem heard_outbox (s : State) (n dev : Nat) (r : HartReply) : (s.heard n dev r).outbox = s.outbox := by
  rw [State.heard, State.when, apply_ite State.outbox, State.modUc_outbox, ite_self, State.bumpBy_outbox]

theorem heard_ports (s : State) (n dev : Nat) (r : HartReply) : ((s.heard n dev r).uc n).hartPorts = (s.uc n).hartPorts := by
  unfold State.heard State.when
  split
  · rw [uc_modUc, uc_bumpBy]
  · rw [uc_bumpBy]

theorem heard_img (s : State) (n dev : Nat) (r : HartReply) : (s.heard n dev r).img = s.img := by
  rw [State.heard, State.when, apply_ite State.img, State.modUc_img, ite_self, State.bumpBy_img]

/-- A reply that is no burst ends the misses. -/
theorem heard_miss {r : HartReply} (h : r.burst = false) (s : State) (n dev : Nat) : ((s.heard n dev r).uc n).miss.getD dev 0 = 0 := by
  rw [State.heard, h, Bool.not_false, State.when_true, uc_modUc, List.getD_eq_getElem?_getD, List.getElem?_set]
  split
  · split <;> rfl
  · contradiction

/-- The channel after a reply. -/
def Machine.State.replied (s : State) (n dev : Nat) (r : HartReply) : State := (s.hartFeeds n dev).foldl (State.showHart n r) (s.heard n dev r)

theorem hartReply_taken {r : HartReply} (ha : s.hartActive uc.val dev.val = true) (hb : r.burst = true → s.ucBurst uc.val = true) :
    exec (.hartReply uc dev r) s = .next (s.replied uc.val dev.val r).settle := by
  have hn : ¬ ((!s.hartActive uc.val dev.val || (r.burst && !s.ucBurst uc.val)) = true) := by
    rw [ha]
    cases h : r.burst
    · simp
    · simp [hb h]
  have hf : (s.heard uc.val dev.val r).hartFeeds uc.val dev.val = s.hartFeeds uc.val dev.val := hartFeeds_of_img (heard_img ..) _ _
  rw [State.replied, ← hf]
  exact congrArg done (if_neg hn)

theorem replied_portsOnly (s : State) (n dev : Nat) (r : HartReply) : PortsOnly n (s.heard n dev r) (s.replied n dev r) :=
  .foldl (showHart_portsOnly n r) _ _

theorem replied_port {r : HartReply} (hl : (s.uc n).hartPorts.length = 4) {pv : Nat × Nat} (hm : pv ∈ s.hartFeeds n dev.val) {w : Word}
    (hw : r.vars.getD pv.2 none = some w) (hfin : f32Finite w = true) :
    (s.replied n dev.val r).hartPort n pv.1 = some ⟨w, if r.malfunction then Q_BAD_SENSOR
      else if (if pv.1 = 0 then r.pvOutOfLimits else r.nonPvOutOfLimits) then Q_UNCERTAIN else Q_GOOD, 0, 0⟩ := by
  obtain ⟨hd, hlt⟩ := hartFeeds_ports s n dev
  have hlen : pv.1 < ((s.heard n dev.val r).uc n).hartPorts.length := by rw [heard_ports, hl]; exact hlt pv hm
  have hp : ∃ old, (s.replied n dev.val r).hartPort n pv.1 = some (hartWord r pv.1 w old) :=
    hartPort_foldl (P := fun pv x => ∀ w, r.vars.getD pv.2 none = some w → ∃ old, x = some (hartWord r pv.1 w old)) (showHart_portsOnly n r) (showHart_other r)
      (fun t q _ hq w hw => ⟨_, by rw [showHart_some hw, setHartPort_same hq]⟩) hd _ hm hlen w hw
  obtain ⟨old, ho⟩ := hp
  rw [ho, hartWord.eq_def, hfin, Bool.not_true, Bool.or_false, if_pos rfl]

theorem hartReply_shows (s : State) (uc : Fin 32) (dev : Fin 4) (r : HartReply) (ha : s.hartActive uc.val dev.val = true)
    (hb : r.burst = true → s.ucBurst uc.val = true) (hl : (s.uc uc.val).hartPorts.length = 4) :
    Answers (.hartReply uc dev r) s fun t =>
      (r.burst = false → (t.uc uc.val).miss.getD dev.val 0 = 0) ∧ t.outbox = s.outbox ∧
      t.rd (cellBase (ucId uc.val)) Reg.UC_HCNT_COMMERR =
        min (s.rd (cellBase (ucId uc.val)) Reg.UC_HCNT_COMMERR + r.badFrames.toNat) (2 ^ Reg.UC_HCNT_COMMERR.width - 1) ∧
      ∀ pv ∈ s.hartFeeds uc.val dev.val, ∀ w, r.vars.getD pv.2 none = some w → f32Finite w = true →
        (t.uc uc.val).hartPorts.getD pv.1 none = some ⟨w, if r.malfunction then Q_BAD_SENSOR
          else if (if pv.1 = 0 then r.pvOutOfLimits else r.nonPvOutOfLimits) then Q_UNCERTAIN else Q_GOOD, 0, 0⟩ := by
  have hp := replied_portsOnly s uc.val dev.val r
  refine ⟨_, hartReply_taken ha hb, fun hburst => ?_, ?_, ?_, fun pv hm w hw hfin => ?_⟩
  · rw [uc_settle, hp.miss, heard_miss hburst]
  · rw [State.settle_outbox, hp.outbox, heard_outbox]
  · rw [settle_cellRd _ _ _ (by decide), State.rd, State.reg, hp.regs, heard_regs, ← State.reg, ← State.rd, rd_bumpBy _ _ _ _ (by decide)]
  · rw [uc_settle, ← replied_port hl hm hw hfin, State.hartPort]

/-- A reply with the primary variable alone leaves the other ports. -/
theorem hartReply_primary (s : State) (uc : Fin 32) (w : Word) (r : HartReply) (ha : s.hartActive uc.val 0 = true) (hmd : s.ucMultidrop uc.val = false)
    (hb : r.burst = false) (hmal : r.malfunction = false) (hpv : r.pvOutOfLimits = false) (hv : r.vars = [some w, none, none, none])
    (hfin : f32Finite w = true) (hl : (s.uc uc.val).hartPorts.length = 4) :
    Answers (.hartReply uc 0 r) s fun t =>
      (t.uc uc.val).miss.getD 0 0 = 0 ∧ (t.uc uc.val).hartPorts.getD 0 none = some ⟨w, Q_GOOD, 0, 0⟩ ∧
      (t.uc uc.val).hartPorts.getD 1 none = (s.uc uc.val).hartPorts.getD 1 none ∧ t.outbox = s.outbox := by
  have hexec : exec (.hartReply uc 0 r) s = .next (s.replied uc.val 0 r).settle := hartReply_taken (dev := 0) ha (by rw [hb]; exact nofun)
  have hp := replied_portsOnly s uc.val 0 r
  have hfeeds : s.hartFeeds uc.val 0 = [(0, 0), (1, 1), (2, 2), (3, 3)] := by rw [State.hartFeeds, hmd]; rfl
  have hport := replied_port (dev := 0) (pv := (0, 0)) (r := r) (w := w) hl (by rw [Fin.val_zero, hfeeds]; decide) (by rw [hv]; rfl) hfin
  have hkept : ∀ t : State, ∀ pv ∈ s.hartFeeds uc.val 0, (t.showHart uc.val r pv).hartPort uc.val 1 = t.hartPort uc.val 1 := fun t pv hm => by
    by_cases h1 : pv.1 = 1
    · have hone : ∀ q ∈ [((0, 0) : Nat × Nat), (1, 1), (2, 2), (3, 3)], q.1 = 1 → q = (1, 1) := by decide
      have hpv : pv = (1, 1) := hone pv (hfeeds ▸ hm) h1
      rw [showHart_none (by rw [hv, hpv]; rfl)]
    · exact showHart_other r t pv 1 (Ne.symm h1)
  refine ⟨_, hexec, ?_, ?_, ?_, ?_⟩
  · rw [uc_settle, hp.miss, heard_miss hb]
  · rw [uc_settle, ← State.hartPort]
    simpa [hmal, hpv] using hport
  · rw [uc_settle, ← State.hartPort, State.replied, hartPort_foldl_kept hkept, State.hartPort, heard_ports]
  · rw [State.settle_outbox, hp.outbox, heard_outbox]

/-! HART_NO_REPLY (R219). -/

/-- A port keeps its word with another quality. -/
def Machine.State.ageHart (n : Nat) (q : Qual) (s : State) (pv : Nat × Nat) : State :=
  s.setHartPort n pv.1 (fun x => { x.getD SigWord.fresh with qual := q }) false

theorem ageHart_qual (q : Qual) {pv : Nat × Nat} (h : pv.1 < (s.uc n).hartPorts.length) : ((s.ageHart n q pv).hartPort n pv.1).map SigWord.qual = some q :=
  congrArg (Option.map SigWord.qual) (setHartPort_same h)

/-- A missing reply and its bad frames count. -/
def Machine.State.countMiss (s : State) (n : Nat) (bad : BitVec 2) : State :=
  (s.bump (cellBase (ucId n)) Reg.UC_HCNT_NORESP).bumpBy (cellBase (ucId n)) Reg.UC_HCNT_COMMERR bad.toNat

theorem countMiss_uc (s : State) (n : Nat) (bad : BitVec 2) : (s.countMiss n bad).uc n = s.uc n := by rw [State.countMiss, uc_bumpBy, uc_bump]

/-- The consecutive misses of a device, with the one that is counted. -/
def Machine.State.missNo (s : State) (n dev : Nat) (bad : BitVec 2) : Nat := ((s.countMiss n bad).uc n).miss.getD dev 0 + 1

theorem missNo_eq (s : State) (n dev : Nat) (bad : BitVec 2) : s.missNo n dev bad = (s.uc n).miss.getD dev 0 + 1 := by rw [State.missNo, countMiss_uc]

/-- A miss counts, and the device is not identified. -/
def Machine.State.missed (s : State) (n dev : Nat) (bad : BitVec 2) : State :=
  (s.countMiss n bad).modUc n fun u => { u with miss := u.miss.set dev (s.missNo n dev bad), ident := u.ident.set dev false }

theorem missed_uc (s : State) (n dev : Nat) (bad : BitVec 2) : (s.missed n dev bad).uc n =
    { s.uc n with miss := (s.uc n).miss.set dev ((s.uc n).miss.getD dev 0 + 1), ident := (s.uc n).ident.set dev false } := by
  rw [State.missed, uc_modUc, countMiss_uc, missNo_eq]

theorem missed_img (s : State) (n dev : Nat) (bad : BitVec 2) : (s.missed n dev bad).img = s.img := by
  rw [State.missed, State.modUc_img, State.countMiss, State.bumpBy_img, State.bump_img]

theorem missed_outbox (s : State) (n dev : Nat) (bad : BitVec 2) : (s.missed n dev bad).outbox = s.outbox := by
  rw [State.missed, State.modUc_outbox, State.countMiss, State.bumpBy_outbox, State.bump_outbox]

theorem missed_noResp (s : State) (n dev : Nat) (bad : BitVec 2) :
    (s.missed n dev bad).rd (cellBase (ucId n)) Reg.UC_HCNT_NORESP = min (s.rd (cellBase (ucId n)) Reg.UC_HCNT_NORESP + 1) 65535 := by
  have h : CellWrites [Reg.UC_HCNT_COMMERR] (ucId n) (s.bump (cellBase (ucId n)) Reg.UC_HCNT_NORESP) (s.missed n dev bad) :=
    (CellWrites.refl _ _ _).bumpBy.modUc
  rw [h.rd _ (by decide), State.rd_bump _ _ _ (by decide)]
  rfl

/-- The third miss is BAD_COMM. -/
def missQual (m : Nat) : Qual := if m < 3 then Q_HELD else Q_BAD_COMM

/-- The channel after a miss. -/
def Machine.State.unanswered (s : State) (n dev : Nat) (bad : BitVec 2) : State :=
  (s.hartFeeds n dev).foldl (State.ageHart n (missQual (s.missNo n dev bad))) (s.missed n dev bad)

theorem hartNoReply_taken {bad : BitVec 2} (ha : s.hartActive uc.val dev.val = true) :
    exec (.hartNoReply uc dev bad) s = .next (s.unanswered uc.val dev.val bad).settle := by
  have hf : (s.missed uc.val dev.val bad).hartFeeds uc.val dev.val = s.hartFeeds uc.val dev.val := hartFeeds_of_img (missed_img ..) _ _
  rw [State.unanswered, ← hf]
  exact congrArg done (if_neg (by rw [ha]; exact Bool.false_ne_true))

theorem unanswered_portsOnly (s : State) (n dev : Nat) (bad : BitVec 2) : PortsOnly n (s.missed n dev bad) (s.unanswered n dev bad) :=
  .foldl (fun t _ => .setHartPort t _ _) _ _

theorem unanswered_port {bad : BitVec 2} (hl : (s.uc n).hartPorts.length = 4) {pv : Nat × Nat} (hm : pv ∈ s.hartFeeds n dev.val) :
    ((s.unanswered n dev.val bad).hartPort n pv.1).map SigWord.qual = some (missQual (s.missNo n dev.val bad)) := by
  obtain ⟨hd, hlt⟩ := hartFeeds_ports s n dev
  have hlen : pv.1 < ((s.missed n dev.val bad).uc n).hartPorts.length := by rw [missed_uc]; exact (hlt pv hm).trans_eq hl.symm
  exact hartPort_foldl (P := fun _ x => x.map SigWord.qual = some (missQual (s.missNo n dev.val bad))) (fun t _ => .setHartPort t _ _)
    (fun _ _ _ => setHartPort_other) (fun _ _ _ => ageHart_qual _) hd _ hm hlen

/-- The device is not identified, whether or not it was. -/
theorem unanswered_ident (s : State) (n dev : Nat) (bad : BitVec 2) : ((s.unanswered n dev bad).uc n).ident.getD dev false = false := by
  rw [(unanswered_portsOnly ..).ident, missed_uc, List.getD_eq_getElem?_getD, List.getElem?_set, if_pos rfl]
  split <;> rfl

theorem unanswered_noResp (s : State) (n dev : Nat) (bad : BitVec 2) :
    (s.unanswered n dev bad).settle.rd (cellBase (ucId n)) Reg.UC_HCNT_NORESP = min (s.rd (cellBase (ucId n)) Reg.UC_HCNT_NORESP + 1) 65535 := by
  have h : CellWrites [] (ucId n) (s.missed n dev bad) (s.unanswered n dev bad) := (CellWrites.refl _ _ _).same (unanswered_portsOnly ..).regs
  rw [settle_cellRd _ _ _ (by decide), h.rd _ (by decide), missed_noResp]

theorem hartNoReply_counts (s : State) (uc : Fin 32) (dev : Fin 4) (ha : s.hartActive uc.val dev.val = true) (hl : (s.uc uc.val).miss.length = 4) :
    Answers (.hartNoReply uc dev 0) s fun t =>
      (t.uc uc.val).miss.getD dev.val 0 = (s.uc uc.val).miss.getD dev.val 0 + 1 ∧ (t.uc uc.val).ident.getD dev.val false = false ∧
      t.rd (cellBase (ucId uc.val)) Reg.UC_HCNT_NORESP = min (s.rd (cellBase (ucId uc.val)) Reg.UC_HCNT_NORESP + 1) 65535 := by
  refine ⟨_, hartNoReply_taken ha, ?_, ?_, unanswered_noResp ..⟩
  · rw [uc_settle, (unanswered_portsOnly ..).miss, missed_uc, List.getD_eq_getElem?_getD, List.getElem?_set_self (dev.isLt.trans_eq hl.symm), Option.getD_some]
  · rw [uc_settle, unanswered_ident]

theorem hartNoReply_ages (s : State) (uc : Fin 32) (dev : Fin 4) (bad : BitVec 2) (ha : s.hartActive uc.val dev.val = true)
    (hl : (s.uc uc.val).hartPorts.length = 4) :
    Answers (.hartNoReply uc dev bad) s fun t =>
      (t.uc uc.val).ident.getD dev.val false = false ∧ t.outbox = s.outbox ∧
      t.rd (cellBase (ucId uc.val)) Reg.UC_HCNT_NORESP = min (s.rd (cellBase (ucId uc.val)) Reg.UC_HCNT_NORESP + 1) 65535 ∧
      ∀ pv ∈ s.hartFeeds uc.val dev.val,
        ((t.uc uc.val).hartPorts.getD pv.1 none).map SigWord.qual = some (if (s.uc uc.val).miss.getD dev.val 0 < 2 then Q_HELD else Q_BAD_COMM) := by
  refine ⟨_, hartNoReply_taken ha, ?_, ?_, unanswered_noResp .., fun pv hm => ?_⟩
  · rw [uc_settle, unanswered_ident]
  · rw [State.settle_outbox, (unanswered_portsOnly ..).outbox, missed_outbox]
  · rw [uc_settle, ← State.hartPort, unanswered_port hl hm, missNo_eq, missQual]
    simp only [show ∀ m, (m + 1 < 3) = (m < 2) from fun m => propext Nat.succ_lt_succ_iff]

/-! HART_REQUEST (R221). -/

/-- The words that a request writes in HART.DATA. -/
def Machine.State.hartData (s : State) (n : Nat) (data : List (Fin 8 × Word)) : State :=
  data.foldl (fun s d => s.setReg (cellBase (ucId n) + 0x68 + 4 * d.1.val) d.2) s

/-- A request's fields stand in HART.REQ and HART.DATA. -/
def Machine.State.hartFields (s : State) (n : Nat) (req : Word) (data : List (Fin 8 × Word)) : State :=
  (s.hartData n data).setReg (cellBase (ucId n) + 0x60) (BitVec.ofNat 32 (getField req 0 24))

/-- The first `len` bytes of HART.DATA. -/
def Machine.State.hartBytes (s : State) (n len : Nat) : List Byte :=
  (wordBytes ((List.range 8).map fun i => s.reg (cellBase (ucId n) + 0x68 + 4 * i))).take len

/-- The registers of a channel from HART.REQ to the last word of HART.DATA. -/
def hartRegs (n : Nat) : List Nat :=
  (cellBase (ucId n) + 0x60) :: (cellBase (ucId n) + 0x64) :: (List.range 8).map fun i => cellBase (ucId n) + 0x68 + 4 * i

theorem hartData_mem (n : Nat) (d : Fin 8) : cellBase (ucId n) + 0x68 + 4 * d.val ∈ hartRegs n :=
  List.mem_cons_of_mem _ (List.mem_cons_of_mem _ (List.mem_map.mpr ⟨d.val, List.mem_range.mpr d.isLt, rfl⟩))

/-- A block register is none of them. -/
theorem hartRegs_cell {a : Nat} (h : 0x100 ≤ pageOf a) : a ∉ hartRegs n := fun hm => by
  have hc : ∃ o, o < 0x100 ∧ a = cellBase (ucId n) + o := by
    obtain rfl | rfl | hm := by simpa [hartRegs] using hm
    · exact ⟨0x60, by decide, rfl⟩
    · exact ⟨0x64, by decide, rfl⟩
    · obtain ⟨i, hi, rfl⟩ := hm
      exact ⟨0x68 + 4 * i, by omega, by rw [Nat.add_assoc]⟩
  obtain ⟨o, ho, rfl⟩ := hc
  exact cell_ne ho h rfl

theorem hartFields_regs (s : State) (n : Nat) (req : Word) (data : List (Fin 8 × Word)) : RegsBut (hartRegs n) s (s.hartFields n req data) :=
  ((RegsBut.refl (hartRegs n) s).foldl fun _ d _ h => h.setReg (hartData_mem n d.1)).setReg List.mem_cons_self

/-- What stands in HART.DATA when the request is taken. -/
theorem hartBytes_fields (s : State) (n len : Nat) (req : Word) (data : List (Fin 8 × Word)) :
    ((s.hartFields n req data).wr (cellBase (ucId n)) Reg.HART_RSP_STATE 1).hartBytes n len = (s.hartData n data).hartBytes n len := by
  have hreg : ∀ i, ((s.hartFields n req data).wr (cellBase (ucId n)) Reg.HART_RSP_STATE 1).reg (cellBase (ucId n) + 0x68 + 4 * i) =
      (s.hartData n data).reg (cellBase (ucId n) + 0x68 + 4 * i) := fun i => by
    have h64 : cellBase (ucId n) + 0x68 + 4 * i ≠ cellBase (ucId n) + Reg.HART_RSP_STATE.off := by
      show _ ≠ cellBase (ucId n) + 0x64
      omega
    rw [State.wr, State.reg_setReg, if_neg h64, State.hartFields, State.reg_setReg, if_neg (by omega)]
  simp only [State.hartBytes, hreg]

section

variable {req : Word} {data : List (Fin 8 × Word)} (hx : s.exists_ (ucId n) = true) (hres : getField req 24 7 = 0) (hdev : getField req 16 2 < s.ucNdev n)
  (hlen : getField req 18 6 ≤ 32)

include hres hdev hlen

/-- The device, the length and the reserved bits of a request are right. -/
theorem hartField_good : decide (s.ucNdev n ≤ getField req 16 2 ∨ 32 < getField req 18 6 ∨ getField req 24 7 ≠ 0) = false := by
  rw [decide_eq_false_iff_not]
  omega

include hx

theorem decideHartRequest_fields (hgo : getField req 31 1 = 0) (hbusy : data = [] ∨ s.rd (cellBase (ucId n)) Reg.HART_RSP_STATE ≠ 1) :
    decideHartRequest n (some req) data s = (E_OK, s.hartFields n req data) := by
  have hb : (decide (s.rd (cellBase (ucId n)) Reg.HART_RSP_STATE = 1) && !data.isEmpty) = false := by
    obtain rfl | h := hbusy
    · exact Bool.and_false _
    · rw [decide_eq_false h, Bool.false_and]
  have hbad := hartField_good hres hdev hlen
  simp only [decideHartRequest, hx, hgo, hbad, hb, Bool.not_true, Bool.false_eq_true, if_false, if_true]
  rfl

/-- The fields stand, the response is PENDING, and the request is due. -/
def Machine.State.hartAsked (s : State) (n : Nat) (req : Word) (data : List (Fin 8 × Word)) : State :=
  ((s.hartFields n req data).wr (cellBase (ucId n)) Reg.HART_RSP_STATE 1).modUc n
    fun u => { u with hartDue := some (getField req 16 2, getField req 0 16, (s.hartData n data).hartBytes n (getField req 18 6)) }

theorem decideHartRequest_go (hgo : getField req 31 1 = 1) (hh : s.ucHart n = true) (hm : s.mst ∈ [stReady, stRun, stService])
    (hbusy : s.rd (cellBase (ucId n)) Reg.HART_RSP_STATE ≠ 1) :
    decideHartRequest n (some req) data s = (E_OK, (s.hartAsked n req data).sendHart n) := by
  have hgo' : ¬ getField req 31 1 = 0 := by omega
  have hm' : s.mstIn [stReady, stRun, stService] = true := List.contains_iff_mem.mpr hm
  have hbad := hartField_good hres hdev hlen
  rw [State.hartAsked, ← hartBytes_fields]
  simp only [decideHartRequest, hx, hgo', hh, hm', hbusy, hbad, Bool.not_true, Bool.false_eq_true, if_false]
  rfl

end

theorem hartData_keeps (s : State) (n : Nat) (data : List (Fin 8 × Word)) : (s.hartData n data).outbox = s.outbox ∧ (s.hartData n data).pwr = s.pwr :=
  List.foldlRecOn data _ (motive := fun t : State => t.outbox = s.outbox ∧ t.pwr = s.pwr) ⟨rfl, rfl⟩ fun _ h _ _ => h

theorem sendHart_sends {dev cmd : Nat} {bytes : List Byte} (h : (s.uc n).hartDue = some (dev, cmd, bytes)) (hd : s.dutyUp 3 = true) :
    (s.sendHart n).regs = s.regs ∧ (s.sendHart n).outbox = s.outbox ++ [.hart n dev cmd bytes] := by
  have he : s.sendHart n = (s.emit (.hart n dev cmd bytes)).modUc n fun u => { u with hartDue := none } := by
    rw [State.sendHart, h]
    exact if_pos hd
  rw [he]
  exact ⟨rfl, rfl⟩

theorem hartAsked_state (s : State) (n : Nat) (req : Word) (data : List (Fin 8 × Word)) :
    (s.hartAsked n req data).rd (cellBase (ucId n)) Reg.HART_RSP_STATE = 1 :=
  ((CellWrites.refl [] (ucId n) _).modUc.rd _ (by decide)).trans (State.rd_wr_same _ _ _ _ (by decide))

theorem hartAsked_outbox (s : State) (n : Nat) (req : Word) (data : List (Fin 8 × Word)) : (s.hartAsked n req data).outbox = s.outbox := by
  rw [State.hartAsked, State.modUc_outbox, State.wr_outbox, State.hartFields, State.setReg_outbox, (hartData_keeps ..).1]

theorem hartAsked_dutyUp (s : State) (n : Nat) (req : Word) (data : List (Fin 8 × Word)) : (s.hartAsked n req data).dutyUp 3 = s.dutyUp 3 := by
  have hregs : RegsBut (hartRegs n) s (s.hartAsked n req data) :=
    ((hartFields_regs s n req data).wr (f := Reg.HART_RSP_STATE) (List.mem_cons_of_mem _ List.mem_cons_self)).same
  have hpwr : (s.hartAsked n req data).pwr = s.pwr := by
    rw [State.hartAsked, State.modUc_pwr, State.wr_pwr, State.hartFields, State.setReg_pwr, (hartData_keeps ..).2]
  exact dutyUp_of_regs hregs hpwr (hartRegs_cell (by decide)) (hartRegs_cell (by decide)) (hartRegs_cell (by decide))

section

variable {p : Port} {req : Word} {data : List (Fin 8 × Word)} (h : Served s p) (hx : s.exists_ (ucId uc.val) = true) (hres : getField req 24 7 = 0)
  (hdev : getField req 16 2 < s.ucNdev uc.val) (hlen : getField req 18 6 ≤ 32)

include h hx hres hdev hlen

/-- A request without GO changes the fields. -/
theorem hartRequest_fields (hgo : getField req 31 1 = 0) (hbusy : data = [] ∨ s.rd (cellBase (ucId uc.val)) Reg.HART_RSP_STATE ≠ 1) :
    exec (.hartRequest p uc req data) s = .next ((s.hartFields uc.val req data).answer p E_OK).settle :=
  command_decides h (decideHartRequest_fields hx hres hdev hlen hgo hbusy)

/-- A request with GO is sent before it is answered. -/
theorem hartRequest_sends (hgo : getField req 31 1 = 1) (hh : s.ucHart uc.val = true) (hm : s.mst ∈ [stReady, stRun, stService])
    (hbusy : s.rd (cellBase (ucId uc.val)) Reg.HART_RSP_STATE ≠ 1) (hduty : s.dutyUp 3 = true) :
    Answers (.hartRequest p uc req data) s fun t =>
      t.rd (cellBase (ucId uc.val)) Reg.HART_RSP_STATE = 1 ∧
      t.outbox = s.outbox ++ [.hart uc.val (getField req 16 2) (getField req 0 16) ((s.hartData uc.val data).hartBytes uc.val (getField req 18 6)),
        .result p E_OK] := by
  have hdue : ((s.hartAsked uc.val req data).uc uc.val).hartDue =
      some (getField req 16 2, getField req 0 16, (s.hartData uc.val data).hartBytes uc.val (getField req 18 6)) := by
    rw [State.hartAsked, uc_modUc]
  obtain ⟨hregs, hout⟩ := sendHart_sends hdue ((hartAsked_dutyUp ..).trans hduty)
  have hw : CellWrites [] (ucId uc.val) (s.hartAsked uc.val req data) ((s.hartAsked uc.val req data).sendHart uc.val) := (CellWrites.refl _ _ _).same hregs
  refine ⟨_, command_decides h (decideHartRequest_go hx hres hdev hlen hgo hh hm hbusy), ?_, ?_⟩
  · rw [settle_cellRd _ _ _ (by decide), State.answer, (hw.same (State.emit_regs ..)).rd _ (by decide), hartAsked_state]
  · rw [answered_outbox, hout, hartAsked_outbox, List.append_assoc]
    rfl

end

theorem hartRequest_absent (s : State) (p : Port) (uc : Fin 32) (req : Word) (h : Served s p) (hx : s.exists_ (ucId uc.val) = false) :
    exec (.hartRequest p uc req []) s = .next (s.answer p E_STATE).settle :=
  command_decides h (if_pos (by rw [hx]; rfl))

/-! HART_PASS_THROUGH_COMPLETE (R221, R223). -/

/-- The bytes of the response stand in HART.DATA. -/
def Machine.State.setHartData (s : State) (n : Nat) (bytes : List Byte) : State :=
  (List.range 8).foldl (fun s i => s.setReg (cellBase (ucId n) + 0x68 + 4 * i) (bytesWord bytes i)) s

/-- HART.RSP says that the request is DONE. -/
def Machine.State.hartDone (s : State) (n len : Nat) (rc ds : Byte) : State :=
  (((s.wr (cellBase (ucId n)) Reg.HART_RSP_STATE 2).wr (cellBase (ucId n)) Reg.HART_RSP_LEN len).wr (cellBase (ucId n)) Reg.HART_RSP_RC rc.toNat).wr
    (cellBase (ucId n)) Reg.HART_RSP_DSTAT ds.toNat

theorem setHartData_regs (s : State) (n : Nat) (bytes : List Byte) : RegsBut (hartRegs n) s (s.setHartData n bytes) :=
  (RegsBut.refl _ s).foldl fun _ i hi h => h.setReg (hartData_mem n ⟨i, List.mem_range.mp hi⟩)

theorem setHartData_first (s : State) (n : Nat) (bytes : List Byte) : (s.setHartData n bytes).reg (cellBase (ucId n) + 0x68) = bytesWord bytes 0 := by
  have hr : List.range 8 = [0, 1, 2, 3, 4, 5, 6, 7] := rfl
  simp [State.setHartData, hr]

theorem hartDone_regs (s : State) (n len : Nat) (rc ds : Byte) : RegsBut [cellBase (ucId n) + 0x64] s (s.hartDone n len rc ds) := by
  have hm : ∀ f : Field, f.off = 0x64 → cellBase (ucId n) + f.off ∈ [cellBase (ucId n) + 0x64] := fun f h => by rw [h]; exact List.mem_cons_self
  exact ((((RegsBut.refl _ s).wr (hm _ rfl)).wr (hm _ rfl)).wr (hm _ rfl)).wr (hm _ rfl)

theorem hartDone_shown {len : Nat} (hl : len ≤ 32) (s : State) (n : Nat) (rc ds : Byte) :
    (s.hartDone n len rc ds).rd (cellBase (ucId n)) Reg.HART_RSP_STATE = 2 ∧ (s.hartDone n len rc ds).rd (cellBase (ucId n)) Reg.HART_RSP_RC = rc.toNat ∧
    (s.hartDone n len rc ds).rd (cellBase (ucId n)) Reg.HART_RSP_DSTAT = ds.toNat ∧
    (s.hartDone n len rc ds).rd (cellBase (ucId n)) Reg.HART_RSP_LEN = len := by
  have hlast : ∀ t : State, CellWrites [Reg.HART_RSP_DSTAT] (ucId n) t (t.wr (cellBase (ucId n)) Reg.HART_RSP_DSTAT ds.toNat) := fun t => (CellWrites.refl _ _ t).wr
  have hrc : ∀ t : State, CellWrites [Reg.HART_RSP_RC] (ucId n) t (t.wr (cellBase (ucId n)) Reg.HART_RSP_RC rc.toNat) := fun t => (CellWrites.refl _ _ t).wr
  have hlen : ∀ t : State, CellWrites [Reg.HART_RSP_LEN] (ucId n) t (t.wr (cellBase (ucId n)) Reg.HART_RSP_LEN len) := fun t => (CellWrites.refl _ _ t).wr
  unfold State.hartDone
  refine ⟨?_, ?_, ?_, ?_⟩
  · rw [(hlast _).rd _ (by decide), (hrc _).rd _ (by decide), (hlen _).rd _ (by decide), State.rd_wr_same _ _ _ _ (by decide)]
    rfl
  · rw [(hlast _).rd _ (by decide), State.rd_wr_same _ _ _ _ (by decide)]
    exact Nat.mod_eq_of_lt rc.isLt
  · rw [State.rd_wr_same _ _ _ _ (by decide)]
    exact Nat.mod_eq_of_lt ds.isLt
  · rw [(hlast _).rd _ (by decide), (hrc _).rd _ (by decide), State.rd_wr_same _ _ _ _ (by decide)]
    exact Nat.mod_eq_of_lt (Nat.lt_of_le_of_lt hl (by decide))

section

variable (hs : s.rd (cellBase (ucId uc.val)) Reg.HART_RSP_STATE = 1) (hd : s.dutyUp 3 = true)

include hs hd

theorem passThrough_due : ¬ (s.rd (cellBase (ucId uc.val)) Reg.HART_RSP_STATE ≠ 1 ∨ (!s.dutyUp 3) = true) := by
  rw [hd, Bool.not_true]
  exact fun h => h.elim (fun h => h hs) Bool.false_ne_true

theorem passThrough_answered {bad : BitVec 2} {rc ds : Byte} {bytes : List Byte} (hl : bytes.length ≤ 32) :
    Answers (.hartPassThroughComplete uc ⟨true, bad⟩ rc ds bytes) s fun t =>
      t.rd (cellBase (ucId uc.val)) Reg.UC_HCNT_COMMERR =
        min (s.rd (cellBase (ucId uc.val)) Reg.UC_HCNT_COMMERR + bad.toNat) (2 ^ Reg.UC_HCNT_COMMERR.width - 1) ∧
      t.rd (cellBase (ucId uc.val)) Reg.HART_RSP_STATE = 2 ∧ t.rd (cellBase (ucId uc.val)) Reg.HART_RSP_RC = rc.toNat ∧
      t.rd (cellBase (ucId uc.val)) Reg.HART_RSP_DSTAT = ds.toNat ∧ t.rd (cellBase (ucId uc.val)) Reg.HART_RSP_LEN = bytes.length ∧
      t.reg (cellBase (ucId uc.val) + 0x68) = bytesWord bytes 0 := by
  obtain ⟨u, hu⟩ : ∃ u, u = s.bumpBy (cellBase (ucId uc.val)) Reg.UC_HCNT_COMMERR bad.toNat := ⟨_, rfl⟩
  have hexec : exec (.hartPassThroughComplete uc ⟨true, bad⟩ rc ds bytes) s =
      .next ((u.setHartData uc.val (bytes.take 32)).hartDone uc.val (bytes.take 32).length rc ds).settle := by
    rw [hu]
    exact congrArg done (if_neg (passThrough_due hs hd))
  rw [List.take_of_length_le hl] at hexec
  obtain ⟨hstate, hrc, hds, hlen⟩ := hartDone_shown hl (u.setHartData uc.val bytes) uc.val rc ds
  have hrsp := hartDone_regs (u.setHartData uc.val bytes) uc.val bytes.length rc ds
  have hregs := (setHartData_regs u uc.val bytes).trans (hrsp.mono (List.cons_subset.mpr ⟨List.mem_cons_of_mem _ List.mem_cons_self, List.nil_subset _⟩))
  have hcomm : cellBase (ucId uc.val) + Reg.UC_HCNT_COMMERR.off ∉ hartRegs uc.val := by
    have ho : Reg.UC_HCNT_COMMERR.off = 0x58 := rfl
    simp only [hartRegs, ho, List.mem_cons, List.mem_map, List.mem_range, not_or, not_exists, not_and]
    exact ⟨by omega, by omega, fun i _ => by omega⟩
  refine ⟨_, hexec, ?_, ?_, ?_, ?_, ?_, ?_⟩
  · rw [settle_cellRd _ _ _ (by decide), hregs.rd _ _ hcomm, hu, rd_bumpBy _ _ _ _ (by decide)]
  · rw [settle_cellRd _ _ _ (by decide), hstate]
  · rw [settle_cellRd _ _ _ (by decide), hrc]
  · rw [settle_cellRd _ _ _ (by decide), hds]
  · rw [settle_cellRd _ _ _ (by decide), hlen]
  · rw [State.settle_reg _ _ (cell_not_follower _ (by decide)), hrsp _ (offset_not_mem (by decide)), setHartData_first]

theorem passThrough_failed (bad : BitVec 2) (rc ds : Byte) : exec (.hartPassThroughComplete uc ⟨false, bad⟩ rc ds []) s =
    .next ((s.bumpBy (cellBase (ucId uc.val)) Reg.UC_HCNT_COMMERR bad.toNat).wr (cellBase (ucId uc.val)) Reg.HART_RSP_STATE 3).settle :=
  congrArg done (if_neg (passThrough_due hs hd))

end

/-- Settles O18: a HART transaction changes its channel's counters, ports and response alone, and what it sends stands in the outbox. -/
theorem hartPollsRepliesAndRequests : Obligations.HartPollsRepliesAndRequests := by
  unfold Obligations.HartPollsRepliesAndRequests
  refine ⟨hartPoll_identified, hartPoll_unidentified, fun s uc w r ha hmd hb _ hmal hpv hv hfin hl => hartReply_primary s uc w r ha hmd hb hmal hpv hv hfin hl,
    hartReply_shows, hartNoReply_counts, hartNoReply_ages, fun s p uc req h hx hgo hres hdev hlen => hartRequest_fields h hx hres hdev hlen hgo (.inl rfl),
    fun s p uc req data h hx hgo hres hdev hlen hbusy => hartRequest_fields h hx hres hdev hlen hgo hbusy,
    fun s p uc req data h hx hh hm hbusy hgo hres hdev hlen hd => hartRequest_sends h hx hres hdev hlen hgo hh hm hbusy hd, ?_, hartRequest_absent,
    fun s uc bad rc ds data hs hd hl => passThrough_answered hs hd hl, fun s uc bad rc ds hs hd => passThrough_failed hs hd bad rc ds⟩
  intro s p uc req h hx hh hd hm hbusy hgo hres hdev hlen
  obtain ⟨t, he, hstate, hout⟩ := hartRequest_sends (data := []) h hx hres hdev (hlen.trans_le (by decide)) hgo hh hm hbusy hd
  rw [hlen] at hout
  exact ⟨t, he, hstate, hout⟩

end Sys2Proof
end

