-- ==== Sys2Proof/Proofs/Trims.lean ====
section
/-! The trim of a channel (R222): what is captured, applied, cleared and discarded, and what the journal does not take. -/

namespace Sys2Proof

open Sys2Proof.Machine

variable {s t u : State} {n : Nat} {p : Port} {op : TrimOp} {α : Type}

/-! The stored trims, which no journal write changes, whatever it wears out (R391, R392). -/

/-- The trims stored are `m`. -/
def TrimsAre (m : Store (Option (Word × Word))) (s : State) : Prop := s.jrn.trims = m

namespace TrimsAre

variable {m : Store (Option (Word × Word))}

protected theorem ite {c : Prop} [Decidable c] (ht : TrimsAre m t) (hu : TrimsAre m u) : TrimsAre m (if c then t else u) := by
  split
  · exact ht
  · exact hu

theorem ifThen {c : Prop} [Decidable c] (h : TrimsAre m t) (hu : TrimsAre m t → TrimsAre m u) : TrimsAre m (if c then u else t) := .ite (hu h) h

protected theorem pair {a : α} (h : TrimsAre m t) : TrimsAre m (a, t).2 := h

theorem iteSnd {c : Prop} [Decidable c] {a b : α × State} (ha : TrimsAre m a.2) (hb : TrimsAre m b.2) : TrimsAre m (if c then a else b).2 := by
  split
  · exact ha
  · exact hb

theorem when {c : Bool} {f : State → State} (h : TrimsAre m s) (hf : ∀ t, TrimsAre m t → TrimsAre m (f t)) : TrimsAre m (s.when c f) := .ite (hf s h) h

theorem foldl {f : State → α → State} {l : List α} (h : TrimsAre m s) (hf : ∀ t a, TrimsAre m t → TrimsAre m (f t a)) : TrimsAre m (l.foldl f s) :=
  List.foldlRecOn l f (motive := TrimsAre m) h fun t ht a _ => hf t a ht

theorem setReg {a : Nat} {v : Word} (h : TrimsAre m s) : TrimsAre m (s.setReg a v) := h
theorem wr {b : Nat} {f : Field} {v : Nat} (h : TrimsAre m s) : TrimsAre m (s.wr b f v) := h
theorem wrw {b : Nat} {f : Field} {v : Word} (h : TrimsAre m s) : TrimsAre m (s.wrw b f v) := h
theorem setFlag {b : Nat} {f : Field} {v : Bool} (h : TrimsAre m s) : TrimsAre m (s.setFlag b f v) := h
theorem bumpBy {b : Nat} {f : Field} {k : Nat} (h : TrimsAre m s) : TrimsAre m (s.bumpBy b f k) := h
theorem bump {b : Nat} {f : Field} (h : TrimsAre m s) : TrimsAre m (s.bump b f) := h
theorem modRec {f : RecSt → RecSt} (h : TrimsAre m s) : TrimsAre m (s.modRec f) := h
theorem modImg {f : ImageSt → ImageSt} (h : TrimsAre m s) : TrimsAre m (s.modImg f) := h

/-- A change of another part of the journal. -/
theorem modJrn {f : JournalSt → JournalSt} (h : TrimsAre m s) (hf : ∀ j, (f j).trims = j.trims := by exact fun _ => rfl) : TrimsAre m (s.modJrn f) :=
  (hf s.jrn).trans h

/-! The operations, in the order of `Machine/Blocks.lean`. -/

theorem occur {src index : Nat} {mag : Rat} {key sig : Nat} (h : TrimsAre m s) : TrimsAre m (s.occur src index mag key sig) := .ite h.bump h.modRec

theorem recShrink {b : Nat} (h : TrimsAre m s) : TrimsAre m (s.recShrink b) := ((h.when fun _ h => h.setFlag).bumpBy.modRec.wr.wr).ifThen fun h => h.wr

theorem showWear (h : TrimsAre m s) : TrimsAre m s.showWear := h.wrw.wrw

theorem wearBlocks {blocks : List Nat} (h : TrimsAre m s) : TrimsAre m (s.wearBlocks blocks) := (h.foldl fun _ _ h => h.modJrn).showWear

theorem countRetire (h : TrimsAre m s) : TrimsAre m s.countRetire := h.bump.bump.occur

theorem degrade (h : TrimsAre m s) : TrimsAre m s.degrade := .ite h (occur (modImg (modImg h.setFlag.setFlag.setFlag)))

theorem replaceBlock {b p n : Nat} (h : TrimsAre m s) : TrimsAre m (s.replaceBlock b p n) := h.modJrn.modJrn.modJrn.countRetire.showWear

theorem donate {b donor p n : Nat} (h : TrimsAre m s) : TrimsAre m (s.donate b donor p n) := .ite h.countRetire.showWear h.replaceBlock

theorem retire {b : Nat} (h : TrimsAre m s) : TrimsAre m (s.retire b) := by
  unfold State.retire
  refine .ite (h.wr.replaceBlock.ifThen fun h => h.setFlag.setFlag.occur) (.ite h.modJrn.wr.recShrink.donate ?_)
  split
  · exact h.modJrn.wr.degrade.donate
  · exact h.modJrn

theorem retires {l : List Nat} (h : TrimsAre m s) : TrimsAre m (l.foldl State.retire s) := h.foldl fun _ _ h => h.retire

theorem nvWrite {blocks : List Nat} {o : NvOutcome} (h : TrimsAre m s) : TrimsAre m (s.nvWrite blocks o).2 := by
  have hw : ∀ (k : Nat) (worn : JournalSt → List Nat),
      TrimsAre m (((s.bumpBy nvjBase Reg.NVJ_WCNT_VFAIL k).wearBlocks blocks).modJrn fun j => { j with worn := worn j }) := fun _ _ => h.bumpBy.wearBlocks.modJrn
  unfold State.nvWrite
  exact .iteSnd h (.iteSnd (.pair (hw _ _)) (.iteSnd (.pair (hw _ _)) (.iteSnd (.pair (hw _ _).retires.wearBlocks) (.pair (hw _ _).retires))))

theorem setPend {l : List Nat} (h : TrimsAre m s) : TrimsAre m (s.setPend l) := h.modJrn.wr

theorem applyPend {k : Nat} {o : NvOutcome} (h : TrimsAre m s) : TrimsAre m (s.applyPend k o) := h.nvWrite.modJrn.setPend

theorem commitTxn {homes : List Nat} {o : NvOutcome} (h : TrimsAre m s) : TrimsAre m (s.commitTxn homes o).2 := by
  have hw : TrimsAre m (s.txnWrite homes o).2 := TrimsAre.nvWrite (h.when fun _ h => h.applyPend)
  rcases commitTxn_cases s homes o with e | e | e <;> rw [e]
  · exact h
  · exact hw
  · exact hw.modJrn.setPend

end TrimsAre

theorem commitTxn_trims (s : State) (homes : List Nat) (o : NvOutcome) : (s.commitTxn homes o).2.jrn.trims = s.jrn.trims :=
  TrimsAre.commitTxn (m := s.jrn.trims) rfl

/-! What a trim is decided by, which the journal's transaction leaves (R222). -/

/-- The journal's registers stand on a block page. -/
theorem journalRegs_cell (id : Nat) {o : Nat} (h : o < 0x100) : cellBase id + o ∉ journalRegs := fun hm =>
  have hp : ∀ a ∈ journalRegs, 0x100 ≤ pageOf a := by decide
  cell_ne h (hp _ hm) rfl

section

variable (h : JournalOnly s t)

include h

theorem JournalOnly.uc (n : Nat) : t.uc n = s.uc n := by obtain ⟨⟨j, r, rfl⟩, -⟩ := h; rfl

theorem JournalOnly.exists_ (id : Nat) : t.exists_ id = s.exists_ id := h.regs.flag _ _ (journalRegs_cell id (by decide))

theorem JournalOnly.trimOf (n : Nat) (lo hi : Word × Word) : t.trimOf n lo hi = s.trimOf n lo hi := by
  rw [State.trimOf, ucOutput_of_img h.img, State.trimOf]

theorem JournalOnly.trimKey (n : Nat) : t.trimKey n = s.trimKey n := by
  rw [State.trimKey, ucFunc_of_img h.img, State.ucRange, uc0_of_img h.img, State.trimKey, State.ucRange]

theorem JournalOnly.trimCheck (p : Port) (n : Nat) (op : TrimOp) : t.trimCheck p n op = s.trimCheck p n op := by
  have hcst : t.cst (ucId n) = s.cst (ucId n) := h.regs.cst (by decide)
  have hcell : t.cell (ucId n) = s.cell (ucId n) := by rw [State.cell, h.fab, State.cell]
  have href : t.rdw (cellBase (ucId n)) Reg.UC_TRIM_REF = s.rdw (cellBase (ucId n)) Reg.UC_TRIM_REF := h.regs.rdw _ _ (journalRegs_cell _ (by decide))
  have hdeg : t.flag modBase Reg.MOD_HEALTH_NV_DEGRADED = s.flag modBase Reg.MOD_HEALTH_NV_DEGRADED := h.regs.flag _ _
  have hrange : t.ucRange n = s.ucRange n := by rw [State.ucRange, uc0_of_img h.img, State.ucRange]
  simp only [State.trimCheck, h.mst, hcst, ucFunc_of_img h.img, hrange, ucOutput_of_img h.img, hcell, href, h.uc, h.trimOf, hdeg]

end

/-! The points captured (R222, R223). -/

theorem setCaps_uc (s : State) (n : Nat) (lo hi : Option (Word × Word)) : (s.setCaps n lo hi).uc n = { s.uc n with capLo := lo, capHi := hi } := by
  rw [State.setCaps, uc_modUc, uc_setFlag, uc_setFlag]

theorem setCaps_shown (s : State) (n : Nat) (lo hi : Option (Word × Word)) :
    (s.setCaps n lo hi).flag (cellBase (ucId n)) Reg.UC_TRIM_STAT_CAPLO = lo.isSome ∧
    (s.setCaps n lo hi).flag (cellBase (ucId n)) Reg.UC_TRIM_STAT_CAPHI = hi.isSome := by
  rw [State.setCaps]
  constructor
  · exact ((CellWrites.refl [Reg.UC_TRIM_STAT_CAPHI] (ucId n) _).setFlag.modUc.flag _).trans (State.flag_setFlag_same _ _ _ _ (by decide) rfl)
  · exact ((CellWrites.refl [] (ucId n) _).modUc.flag _).trans (State.flag_setFlag_same _ _ _ _ (by decide) rfl)

theorem setCaps_outbox (s : State) (n : Nat) (lo hi : Option (Word × Word)) : (s.setCaps n lo hi).outbox = s.outbox := (rfl)
theorem setCaps_jrn (s : State) (n : Nat) (lo hi : Option (Word × Word)) : (s.setCaps n lo hi).jrn = s.jrn := (rfl)

/-- The mean of the last results of an input. -/
def Machine.State.meanRaw (s : State) (n : Nat) : Word := toF32c (((s.uc n).raws.map f32).sum / ((s.uc n).raws.length : Rat))

theorem trimPoint_mean (ho : s.ucOutput n = false) (hr : (s.uc n).raws ≠ []) : s.trimPoint n = (s.meanRaw n, s) := by
  have he : (s.uc n).raws.isEmpty = false := by simpa using hr
  simp only [State.trimPoint, ho, he, Bool.false_eq_true, if_false]
  rfl

/-! Decisions (R222). -/

theorem decideTrim_other (hop : op ≠ .nop) (hp : p ≠ .service) (s : State) (n : Nat) : decideTrim p n op s = (E_ACCESS, s) := if_pos ⟨hop, hp⟩

theorem trimCheck_nop (s : State) (p : Port) (n : Nat) : s.trimCheck p n .nop = none := by
  unfold State.trimCheck
  exact if_pos rfl

theorem decideTrim_taken (hx : s.exists_ (ucId n) = true) (hc : s.trimCheck p n op = none) (hp : op = .nop ∨ p = .service) :
    decideTrim p n op s = (E_OK, s.trimEffect n op) := by
  have hport : ¬ (op ≠ .nop ∧ p ≠ .service) := fun ⟨h1, h2⟩ => hp.elim h1 h2
  rw [decideTrim, if_neg hport, hx, hc]
  rfl

/-- What is decided stands once the transaction is committed. -/
theorem decideTrim_committed (hx : s.exists_ (ucId n) = true) (hc : s.trimCheck .service n op = none) (homes : List Nat) :
    decideTrim .service n op (s.commitTxn homes .clean).2 = (E_OK, (s.commitTxn homes .clean).2.trimEffect n op) := by
  have h := commitTxn_clean s homes
  exact decideTrim_taken ((h.exists_ _).trans hx) ((h.trimCheck _ _ _).trans hc) (.inr rfl)

/-- The trim of both points is stored, and the points are forgotten. -/
def Machine.State.storeTrim (s : State) (n : Nat) (g o : Rat) : State :=
  (s.modJrn fun j => { j with trims := Store.set none j.trims (s.trimKey n) (some (toF32c g, toF32c o)) }).setCaps n none none

theorem trimEffect_apply {lo hi : Word × Word} {g o : Rat} (hlo : (s.uc n).capLo = some lo) (hhi : (s.uc n).capHi = some hi)
    (ht : s.trimOf n lo hi = some (g, o)) : s.trimEffect n .apply = s.storeTrim n g o := by
  simp only [State.trimEffect, hlo, hhi, ht]
  rfl

theorem storeTrim_trim (s : State) (n : Nat) (g o : Rat) : Store.get none (s.storeTrim n g o).jrn.trims (s.trimKey n) = some (toF32c g, toF32c o) := by
  rw [State.storeTrim, setCaps_jrn]
  show Store.get none (Store.set none s.jrn.trims (s.trimKey n) (some (toF32c g, toF32c o))) (s.trimKey n) = _
  rw [Store.get_set, if_pos rfl]

/-- An answer writes no register of a cell. -/
theorem answered_cellFlag (s : State) (p : Port) (c : Code) (id : Nat) (g : Field) (h : g.off < 0x100) :
    (s.answer p c).settle.flag (cellBase id) g = s.flag (cellBase id) g := by
  rw [settle_cellFlag _ _ _ h, State.answer, State.flag, State.rd, State.reg, State.emit_regs, ← State.reg, ← State.rd, ← State.flag]

/-! CAPLO and CAPHI. -/

section

variable (s : State) (uc : Fin 32) (h : Served s .service) (hx : s.exists_ (ucId uc.val) = true)

include h hx

/-- An operation that changes the points alone. -/
theorem trim_setsCaps {lo hi : Option (Word × Word)} (hc : s.trimCheck .service uc.val op = none) (he : s.trimEffect uc.val op = s.setCaps uc.val lo hi) :
    ∃ t, command .service (decideTrim .service uc.val op) s = .next t ∧ ((t.uc uc.val).capLo = lo ∧ (t.uc uc.val).capHi = hi) ∧
      (t.flag (cellBase (ucId uc.val)) Reg.UC_TRIM_STAT_CAPLO = lo.isSome ∧ t.flag (cellBase (ucId uc.val)) Reg.UC_TRIM_STAT_CAPHI = hi.isSome) ∧
      t.outbox = s.outbox ++ [.result .service E_OK] ∧ t.jrn = s.jrn := by
  have hd := decideTrim_taken hx hc (.inr rfl)
  rw [he] at hd
  obtain ⟨hlo, hhi⟩ := setCaps_shown s uc.val lo hi
  refine ⟨_, command_decides h hd, ⟨?_, ?_⟩, ⟨?_, ?_⟩, ?_, ?_⟩
  · rw [uc_settle, uc_answer, setCaps_uc]
  · rw [uc_settle, uc_answer, setCaps_uc]
  · rw [answered_cellFlag _ _ _ _ _ (by decide), hlo]
  · rw [answered_cellFlag _ _ _ _ _ (by decide), hhi]
  · rw [answered_outbox, setCaps_outbox]
  · rw [State.settle_jrn, State.answer, State.emit_jrn, setCaps_jrn]

theorem trimCaplo_captures (hc : s.trimCheck .service uc.val .caplo = none) (ho : s.ucOutput uc.val = false) (hr : (s.uc uc.val).raws ≠ []) :
    Answers (.trimCaplo .service uc) s fun t =>
      (t.uc uc.val).capLo = some (toF32c (((s.uc uc.val).raws.map f32).sum / ((s.uc uc.val).raws.length : Rat)),
        s.rdw (cellBase (ucId uc.val)) Reg.UC_TRIM_REF) ∧ (t.uc uc.val).capHi = (s.uc uc.val).capHi ∧
      t.flag (cellBase (ucId uc.val)) Reg.UC_TRIM_STAT_CAPLO = true ∧ t.outbox = s.outbox ++ [.result .service E_OK] := by
  have he : s.trimEffect uc.val .caplo =
      s.setCaps uc.val (some (s.meanRaw uc.val, s.rdw (cellBase (ucId uc.val)) Reg.UC_TRIM_REF)) (s.uc uc.val).capHi := by
    simp only [State.trimEffect, trimPoint_mean ho hr]
  obtain ⟨t, hexec, ⟨hlo, hhi⟩, ⟨hflag, -⟩, hout, -⟩ := trim_setsCaps s uc h hx hc he
  exact ⟨t, hexec, hlo, hhi, hflag, hout⟩

theorem trimCaphi_captures (hc : s.trimCheck .service uc.val .caphi = none) (ho : s.ucOutput uc.val = false) (hr : (s.uc uc.val).raws ≠ []) :
    Answers (.trimCaphi .service uc) s fun t =>
      (t.uc uc.val).capHi = some (toF32c (((s.uc uc.val).raws.map f32).sum / ((s.uc uc.val).raws.length : Rat)),
        s.rdw (cellBase (ucId uc.val)) Reg.UC_TRIM_REF) ∧ (t.uc uc.val).capLo = (s.uc uc.val).capLo ∧
      t.flag (cellBase (ucId uc.val)) Reg.UC_TRIM_STAT_CAPHI = true ∧ t.outbox = s.outbox ++ [.result .service E_OK] := by
  have he : s.trimEffect uc.val .caphi =
      s.setCaps uc.val (s.uc uc.val).capLo (some (s.meanRaw uc.val, s.rdw (cellBase (ucId uc.val)) Reg.UC_TRIM_REF)) := by
    simp only [State.trimEffect, trimPoint_mean ho hr]
  obtain ⟨t, hexec, ⟨hlo, hhi⟩, ⟨-, hflag⟩, hout, -⟩ := trim_setsCaps s uc h hx hc he
  exact ⟨t, hexec, hhi, hlo, hflag, hout⟩

/-! APPLY, CLEAR and DISCARD. -/

theorem trimApply_stores (lo hi : Word × Word) (g o : Rat) (hc : s.trimCheck .service uc.val .apply = none) (hlo : (s.uc uc.val).capLo = some lo)
    (hhi : (s.uc uc.val).capHi = some hi) (ht : s.trimOf uc.val lo hi = some (g, o)) (hj : JournalTakes s (s.trimHome uc.val)) :
    Answers (.trimApply .service uc .clean) s fun t =>
      Store.get none t.jrn.trims (s.trimKey uc.val) = some (toF32c g, toF32c o) ∧ (t.uc uc.val).capLo = none ∧ (t.uc uc.val).capHi = none ∧
      t.outbox = s.outbox ++ [.result .service E_OK] := by
  have hk := commitTxn_clean s (s.trimHome uc.val)
  have hd := decideTrim_committed hx hc (s.trimHome uc.val)
  rw [trimEffect_apply ((congrArg UcSt.capLo (hk.uc _)).trans hlo) ((congrArg UcSt.capHi (hk.uc _)).trans hhi) ((hk.trimOf _ _ _).trans ht)] at hd
  refine ⟨_, command_journal_takes h hj (by rw [decideTrim_taken hx hc (.inr rfl)]) hd, ?_, ?_, ?_, ?_⟩
  · rw [State.settle_jrn, State.answer, State.emit_jrn, ← hk.trimKey, storeTrim_trim]
  · rw [uc_settle, uc_answer, State.storeTrim, setCaps_uc]
  · rw [uc_settle, uc_answer, State.storeTrim, setCaps_uc]
  · rw [answered_outbox, State.storeTrim, setCaps_outbox, State.modJrn_outbox, hk.outbox]

theorem trimClear_removes (hc : s.trimCheck .service uc.val .clear = none) (hj : JournalTakes s (s.trimHome uc.val)) :
    Answers (.trimClear .service uc .clean) s fun t =>
      t.jrn.trims = Store.set none s.jrn.trims (s.trimKey uc.val) none ∧ t.uc uc.val = s.uc uc.val ∧ t.outbox = s.outbox ++ [.result .service E_OK] ∧
      RegsKept journalRegs s t := by
  have hk := commitTxn_clean s (s.trimHome uc.val)
  refine ⟨_, command_journal_takes h hj (by rw [decideTrim_taken hx hc (.inr rfl)]) (decideTrim_committed hx hc _), ?_, ?_, ?_, ?_⟩
  · rw [State.settle_jrn, State.answer, State.emit_jrn, ← hk.trimKey, ← commitTxn_trims s (s.trimHome uc.val) .clean]
    rfl
  · rw [uc_settle, uc_answer, ← hk.uc]
    rfl
  · rw [answered_outbox, ← hk.outbox]
    rfl
  · exact RegsBut.answered (RegsBut.same hk.regs)

/-- What the journal does not take changes no trim. -/
theorem trim_notKept (o : NvOutcome) (hc : s.trimCheck .service uc.val op = none) (hf : (s.commitTxn (s.trimHome uc.val) o).1 ≠ E_OK) :
    ∃ t, command .service (journaled (s.trimHome uc.val) o (decideTrim .service uc.val op)) s = .next t ∧
      t.jrn.trims = s.jrn.trims ∧ t.outbox = s.outbox ++ [.result .service E_NV_FAIL] := by
  refine ⟨_, command_decides h (journaled_failed (by rw [decideTrim_taken hx hc (.inr rfl)]) hf), ?_, ?_⟩
  · rw [State.settle_jrn, State.answer, State.emit_jrn, commitTxn_trims]
  · rw [answered_outbox, (StoreKept.refl s).commitTxn.outbox]

theorem trimDiscard_forgets (hc : s.trimCheck .service uc.val .discard = none) :
    Answers (.trimDiscard .service uc) s fun t =>
      (t.uc uc.val).capLo = none ∧ (t.uc uc.val).capHi = none ∧ t.flag (cellBase (ucId uc.val)) Reg.UC_TRIM_STAT_CAPLO = false ∧
      t.flag (cellBase (ucId uc.val)) Reg.UC_TRIM_STAT_CAPHI = false ∧ t.jrn = s.jrn := by
  obtain ⟨t, hexec, ⟨hlo, hhi⟩, ⟨hflo, hfhi⟩, -, hj⟩ := trim_setsCaps s uc h hx hc rfl
  exact ⟨t, hexec, hlo, hhi, hflo, hfhi, hj⟩

end

theorem trimNop_ok (s : State) (p : Port) (uc : Fin 32) (h : Served s p) (hx : s.exists_ (ucId uc.val) = true) :
    exec (.trimNop p uc) s = .next (s.answer p E_OK).settle :=
  command_decides h (decideTrim_taken hx (trimCheck_nop s p uc.val) (.inl rfl))

/-- Ports other than the service port. -/
theorem trim_otherPort (s : State) (p : Port) (uc : Fin 32) (o : NvOutcome) (h : Served s p) (hp : p ≠ .service) :
    exec (.trimCaplo p uc) s = .next (s.answer p E_ACCESS).settle ∧ exec (.trimCaphi p uc) s = .next (s.answer p E_ACCESS).settle ∧
    exec (.trimApply p uc o) s = .next (s.answer p E_ACCESS).settle ∧ exec (.trimClear p uc o) s = .next (s.answer p E_ACCESS).settle ∧
    exec (.trimDiscard p uc) s = .next (s.answer p E_ACCESS).settle := by
  have hd : ∀ op, op ≠ .nop → decideTrim p uc.val op s = (E_ACCESS, s) := fun op hop => decideTrim_other hop hp s uc.val
  have hj : ∀ op, op ≠ .nop → journaled (s.trimHome uc.val) o (decideTrim p uc.val op) s = (E_ACCESS, s) := fun op hop => by
    rw [journaled_refused (by rw [hd op hop]; exact (by decide : E_ACCESS ≠ E_OK)), hd op hop]
  exact ⟨command_decides h (hd _ (by decide)), command_decides h (hd _ (by decide)), command_decides h (hj _ (by decide)),
    command_decides h (hj _ (by decide)), command_decides h (hd _ (by decide))⟩

/-- Settles O19: a trim command is decided before its transaction, which changes nothing that it is decided by and no trim that is stored. -/
theorem trimsAreCapturedAppliedAndCleared : Obligations.TrimsAreCapturedAppliedAndCleared := by
  unfold Obligations.TrimsAreCapturedAppliedAndCleared
  refine ⟨trimCaplo_captures, trimCaphi_captures, fun s uc lo hi g o h hx hc => trimApply_stores s uc h hx lo hi g o hc, trimClear_removes, ?_,
    trimDiscard_forgets, trimNop_ok, trim_otherPort⟩
  rintro s uc op o h hx hc hf
  exact ⟨fun e => by subst e; exact trim_notKept s uc h hx o hc hf, fun e => by subst e; exact trim_notKept s uc h hx o hc hf⟩

end Sys2Proof
end
